-- ==== Sys2Proof/Word.lean ====
section
/-! DEFINITION. The word types of the Tiaris and the plainest arithmetic on them. -/

namespace Sys2Proof

/-- A byte of any memory. -/
abbrev Byte := BitVec 8
/-- The value of an s register or a special register (R110). -/
abbrev Word := BitVec 64
/-- The value of a v register (R110). -/
abbrev VVal := BitVec 2048
/-- The value of a k register (R110). -/
abbrev KVal := BitVec 256
/-- The three 32-bit words of an instruction as one 96-bit number (R40). -/
abbrev IWord := BitVec 96

/-- Index of an s register. -/
abbrev SIx := BitVec 6
/-- Index of a v register. -/
abbrev VIx := BitVec 5
/-- Index of a k register. -/
abbrev KIx := BitVec 3
/-- Index of a p register. -/
abbrev PIx := BitVec 3
/-- Index of a tensor descriptor d0 to d63. -/
abbrev DIx := BitVec 6
/-- Index of an endpoint e0 to e127. -/
abbrev EIx := BitVec 7

/-- Little-endian bytes of a number (R3). -/
def bytesOfNat : Nat → Nat → List Byte
  | 0, _ => []
  | n + 1, x => BitVec.ofNat 8 x :: bytesOfNat n (x / 256)

/-- The number that little-endian bytes stand for (R3). -/
def natOfBytes : List Byte → Nat
  | [] => 0
  | b :: bs => b.toNat + 256 * natOfBytes bs

/-- ceil(a / b). -/
def ceilDiv (a b : Nat) : Nat := (a + b - 1) / b

/-- a clamped into the closed range from lo to hi. -/
def clampInt (lo hi a : Int) : Int := if a < lo then lo else if a > hi then hi else a

end Sys2Proof
end

