-- ==== Sys2Proof/Syntax.lean ====
section
/-! DEFINITION. The instructions of Corpen 1.0 and the events of the part: one constructor per row of the
opcode table. A form carries its decoded operands (R43 to R58); an event carries what it acts on. -/

namespace Sys2Proof

/-! ### Fields of the forms -/

/-- The 23 type codes (R16). -/
inductive Ty | i8 | i16 | i32 | i64 | n8 | n16 | n32 | n64 | f16 | bf16 | f32 | f64 | e4m3 | e5m2 | e3m2 | e2m3 | e2m1
  | tq4 | mxfp8 | mxfp6e3 | mxfp6e2 | mxfp4 | mxint8
  deriving DecidableEq, Repr

/-- The code of a type (R16). -/
def Ty.code : Ty → Nat
  | .i8 => 0 | .i16 => 1 | .i32 => 2 | .i64 => 3 | .n8 => 4 | .n16 => 5 | .n32 => 6 | .n64 => 7 | .f16 => 8 | .bf16 => 9
  | .f32 => 10 | .f64 => 11 | .e4m3 => 12 | .e5m2 => 13 | .e3m2 => 14 | .e2m3 => 15 | .e2m1 => 16 | .tq4 => 17
  | .mxfp8 => 18 | .mxfp6e3 => 19 | .mxfp6e2 => 20 | .mxfp4 => 21 | .mxint8 => 22

/-- The type of a code; codes 23 to 31 are reserved (R16). -/
def Ty.ofCode : Nat → Option Ty
  | 0 => some .i8 | 1 => some .i16 | 2 => some .i32 | 3 => some .i64 | 4 => some .n8 | 5 => some .n16 | 6 => some .n32
  | 7 => some .n64 | 8 => some .f16 | 9 => some .bf16 | 10 => some .f32 | 11 => some .f64 | 12 => some .e4m3
  | 13 => some .e5m2 | 14 => some .e3m2 | 15 => some .e2m3 | 16 => some .e2m1 | 17 => some .tq4 | 18 => some .mxfp8
  | 19 => some .mxfp6e3 | 20 => some .mxfp6e2 | 21 => some .mxfp4 | 22 => some .mxint8 | _ => none

/-- Integer types (R16). -/
def Ty.isInt (t : Ty) : Bool := t.code < 8
/-- Signed integer types (R16). -/
def Ty.isSigned (t : Ty) : Bool := t.code < 4
/-- f16, bf16, f32, f64. -/
def Ty.isFp (t : Ty) : Bool := 8 ≤ t.code && t.code ≤ 11
/-- Codes 0 to 11. -/
def Ty.isNum (t : Ty) : Bool := t.code ≤ 11
/-- Codes 0 to 16, the types that are no block types. -/
def Ty.isPlain (t : Ty) : Bool := t.code ≤ 16
/-- Block types, codes 17 to 22. -/
def Ty.isBlock (t : Ty) : Bool := 17 ≤ t.code

/-- Width in bits of a lane of the type (R133); 0 for block types, which have no lanes. -/
def Ty.width : Ty → Nat
  | .i8 | .n8 | .e4m3 | .e5m2 | .e3m2 | .e2m3 | .e2m1 => 8
  | .i16 | .n16 | .f16 | .bf16 => 16
  | .i32 | .n32 | .f32 => 32
  | .i64 | .n64 | .f64 => 64
  | _ => 0

/-- Last block group of a register image that holds a block (R142). -/
def Ty.lastGroup : Ty → Nat
  | .mxfp8 | .mxint8 => 3
  | .mxfp6e3 | .mxfp6e2 => 4
  | .mxfp4 => 7
  | .tq4 => 5
  | _ => 0

/-- Rounding modes named by RM; code 7 is reserved (R24). -/
inductive Rm | rne | rtz | rup | rdn | rna | sr | dyn
  deriving DecidableEq, Repr
/-- Access sizes of the M format; codes 7 to 15 are reserved (R50). -/
inductive Sz | b1 | b2 | b4 | b8 | b16 | b32 | b256
  deriving DecidableEq, Repr
/-- Scopes (R50, R290). -/
inductive Scope | slot | tile | pkg | dom
  deriving DecidableEq, Repr
/-- Orders (R50). -/
inductive Ord | rlx | acq | rel | acqrel | sc
  deriving DecidableEq, Repr
/-- Conditions of CMP; the last two compare unsigned (R129). -/
inductive Cond | eq | ne | lt | le | ltn | len
  deriving DecidableEq, Repr
/-- Conditions of VCMP (R138). -/
inductive FCond | eq | ne | lt | le | gt | ge | un
  deriving DecidableEq, Repr
/-- Conditions of VICMP (R139). -/
inductive ICond | eq | ne | lt | le | gt | ge
  deriving DecidableEq, Repr
/-- Reduction operations (R143). -/
inductive Rop | add | mul | min | max | minnum | maxnum
  deriving DecidableEq, Repr
/-- ROP 4 and 5, which integer types do not accept (R143). -/
def Rop.isNum : Rop → Bool
  | .minnum | .maxnum => true
  | _ => false
/-- Conditions of XA.SIGN (R152). -/
inductive XaCond | gt | lt | eq
  deriving DecidableEq, Repr
/-- Levels of work above the unit (R81). -/
inductive Level | launch | graph | phase | job
  deriving DecidableEq, Repr
/-- Atomic operations (R245). -/
inductive AOp | add | fadd32 | fadd64 | min | max | minn | maxn | and | or | xor | xchg
  deriving DecidableEq, Repr
/-- TQ4 code types (R23). -/
inductive Tqt | int | e2m1 | pow2 | hyb
  deriving DecidableEq, Repr
/-- Result type of an MX.DRAIN to a v register (R280). -/
inductive Vt | f32 | f16 | bf16 | i32
  deriving DecidableEq, Repr
/-- Selector of TURN.GET (R198). -/
inductive TurnW | own | issued | lost
  deriving DecidableEq, Repr
/-- Selector of RC.READ (R208). -/
inductive RcW | state | conf | count
  deriving DecidableEq, Repr
/-- Scopes of TLB.INV (R239). -/
inductive TlbScope | tile | die | pkg | dom
  deriving DecidableEq, Repr
/-- Selector of HEAP.INFO (R254). -/
inductive HeapW | used | high | avail | fails
  deriving DecidableEq, Repr
/-- Transposition unit of CP.PUSH (R271). -/
inductive Tr | none | tr8 | tr16
  deriving DecidableEq, Repr
/-- Fill of MX.CLR (R285). -/
inductive Fill | zero | pmax | nmax
  deriving DecidableEq, Repr
/-- Selector of MX.STAT (R288). -/
inductive MxW | state | over | resume
  deriving DecidableEq, Repr
/-- Selector of XCH.STAT (R328). -/
inductive XchW | word | granted | idle | late | ungranted | stale | deflections
  deriving DecidableEq, Repr
/-- Selector of REC.STAT (R339). -/
inductive RecW | state | count | free
  deriving DecidableEq, Repr
/-- Kind of error EINJ plants (R355). -/
inductive EinjK | bit0 | bits01 | symbol
  deriving DecidableEq, Repr
/-- Special registers 0 to 19 (R99). -/
inductive SpReg | slotid | tileid | pkgid | unitix | launchid | jobid | cycle | waitlim | rmode | fpflags | seed
  | trappc | cause | faultaux | faultva | handler | turntab | detmode | refwin | incarn
  deriving DecidableEq, Repr

/-- Special registers MTSR may write (R99). -/
def SpReg.writable : SpReg → Bool
  | .waitlim | .rmode | .fpflags | .seed | .trappc | .cause | .faultaux | .faultva | .handler => true
  | _ => false

/-- Bytes of an access (R50). -/
def Sz.bytes : Sz → Nat
  | .b1 => 1 | .b2 => 2 | .b4 => 4 | .b8 => 8 | .b16 => 16 | .b32 => 32 | .b256 => 256

/-- Any register of a slot (R110). -/
inductive Reg | s (i : SIx) | v (i : VIx) | k (i : KIx) | p (i : PIx)
  deriving DecidableEq, Repr

/-- Register a CH.BINDREG names: none ends the binding (R179). -/
inductive BindDst | none | s (i : SIx) | v (i : VIx)
  deriving DecidableEq, Repr

/-- The three operand shapes of PMOV (R131): destination first. -/
inductive PmovOps | pp (d a : PIx) | ps (d : PIx) (a : SIx) | sp (d : SIx) (a : PIx)
  deriving DecidableEq, Repr

/-- The common fields every form carries: guard, locality hint and quiet count (R43). -/
structure Hdr where
  g : PIx
  gn : Bool
  hl : BitVec 2
  hq : BitVec 4
  deriving DecidableEq, Repr

/-- Mask fields of the RRR format (R51). -/
structure VMask where
  k : KIx
  z : Bool
  deriving DecidableEq, Repr

/-- Wait and signal fields of the E format (R54). -/
structure ESync where
  wsem : BitVec 8
  wth : BitVec 8
  ssem : BitVec 8
  sinc : BitVec 8
  deriving DecidableEq, Repr

/-! ### What events carry -/

/-- A place of the domain: a package and a tile id, or a unit of an I/O die under a number of the model's own
(2100 to 2123 far-memory devices, 2124 the CXL port, 2125 and 2126 the services of IOD-N and IOD-S). -/
structure Node where
  pkg : Nat
  id : Nat
  deriving DecidableEq, Repr

/-- A physical slot of a tile. -/
structure SlotRef where
  pkg : Nat
  tile : Nat
  slot : Nat
  deriving DecidableEq, Repr

/-- The tile of a slot. -/
def SlotRef.node (r : SlotRef) : Node := ⟨r.pkg, r.tile⟩

/-- An endpoint of a tile (R164). -/
structure EpRef where
  pkg : Nat
  tile : Nat
  ep : Nat
  deriving DecidableEq, Repr

/-- The tile of an endpoint. -/
def EpRef.node (r : EpRef) : Node := ⟨r.pkg, r.tile⟩

/-- The party that waits for an answer: its slot, its unit and the identity of its wait. -/
structure Who where
  slot : SlotRef
  uid : Nat
  id : Nat
  deriving DecidableEq, Repr

/-- Where the value of a spawned unit returns to (R101). -/
structure SpawnOrigin where
  caller : SlotRef
  uid : Nat
  ret : Option SIx
  deriving DecidableEq, Repr

/-- What binding loads into a slot (R118, R73, R90, R360). -/
structure UnitDesc where
  entry : Word
  handler : Word
  args : List Word
  unitix : Word
  launch : Word
  job : Word
  waitlim : Word
  seedL : Word
  prio : Nat
  pre : Bool
  det : Bool
  s0 : Nat
  supTile : Nat
  supSlot : Nat
  root : Bool
  origin : Option SpawnOrigin
  deriving DecidableEq, Repr

/-- A captured launch descriptor (R79). -/
structure LaunchDesc where
  entry : Word
  handler : Word
  seed : Word
  args : List Word
  copyS : Option Nat
  matS : Option Nat
  pre : Bool
  det : Bool
  prio : Nat
  cls : Nat
  slots : Nat
  h : Nat
  w : Nat
  y0 : Nat
  x0 : Nat
  supS : Nat
  supT : Nat
  waitlim : Word
  deriving DecidableEq, Repr

/-- Part of a CP.PULLREQ at one controller: runs of bytes of a packet there, and the offsets to which they go; who names the command
(R276). -/
structure PullReq where
  who : Who
  num : Nat
  home : Node
  job : Word
  parts : List (Nat × Nat)
  dst : List Nat
  rsem : Option Nat
  det : Bool
  deriving DecidableEq, Repr

/-- What a request asks of a memory controller (R241, R246, R247). -/
inductive MemOp
  | load (n : Nat)
  | store (data : List Byte)
  | atom (op : AOp) (n : Nat) (v : Word)
  | cas (n : Nat) (expected new : Word)
  | atomDet (op : AOp) (n : Nat) (v : Word)
  | pull (q : PullReq)
  deriving DecidableEq, Repr

/-- A request at a memory controller (R241). The field seq is the slot's request sequence number (R243). -/
structure MemReq where
  who : Who
  seq : Nat
  pa : Nat
  va : Word
  job : Word
  op : MemOp
  det : Bool
  recSeq : Option Nat
  posted : Bool
  engine : Bool
  deriving DecidableEq, Repr

/-- The answer of a controller (R241, R249). A failure carries its code and FAULTAUX. -/
inductive MemReply
  | data (bytes : List Byte)
  | old (v : Word)
  | done
  | fail (code : Nat) (aux : Word)
  deriving DecidableEq, Repr

/-- What a request asks of a tile's scratchpad (R219, R214). -/
inductive SpOp
  | ld
  | st (v : Word)
  | ldSync (cons : Bool)
  | stFill (ovr : Bool) (v : Word)
  | stReset (v : Word)
  | atom (op : AOp) (v : Word)
  | cas (expected new : Word)
  deriving DecidableEq, Repr

/-- A request on a scratchpad word, remote or of a local form that waits (R215, R221). -/
structure SpReq where
  who : Who
  home : Node
  off : Nat
  job : Word
  op : SpOp
  recSeq : Option Nat
  deriving DecidableEq, Repr

/-- The answer to a scratchpad request (R215). -/
inductive SpReply | done (v : Word) | refused (code : Nat) | busy
  deriving DecidableEq, Repr

/-- A request at a spawn queue (R101). The field ret is the pending register of SPAWN.AT. -/
structure SpawnReq where
  who : Who
  target : Node
  desc : UnitDesc
  isAt : Bool
  det : Bool
  recSeq : Option Nat
  /-- its turn at the queue has come (R397) -/
  turn : Bool
  deriving DecidableEq, Repr

/-- The reply of a service: a value, a predicate, or the fault it raises at the slot (R104). -/
structure SvcReply where
  val : Word
  ok : Bool
  code : Nat
  va : Word
  aux : Word
  deriving DecidableEq, Repr

/-- What a service conversation asks (R192, R254, R329, R339, R354). -/
inductive SvcKind
  | launch (d : LaunchDesc) (bad : Option Nat)
  /-- a form that is refused whatever the dispatcher holds: its fault, raised by the reply (R104) -/
  | refused (code : Nat) (va : Word)
  | graphOpen
  | graphAdd (g : Word) (d : LaunchDesc) (bad : Option Nat)
  | graphEdge (g a b : Word)
  | graphSubmit (g : Word)
  | doneWait (lvl : Level) (h : Word) (poll : Bool)
  | cancel (lvl : Level) (h : Word)
  | phaseEnter (n : Word)
  | phaseLeave
  | demPost (dst : Nat) (bytes : Word)
  | demClose
  | xchReserve (phase dst bytes : Nat)
  | gwTake (nb : Word)
  | gwDone (blk : Word)
  | rcBind (peer : EpRef) (rc : Nat)
  | tlbInv (sc : TlbScope) (va : Option Word)
  | recMark (v : Word)
  | recDrain (seg : Nat)
  | elog (arr entry w : Nat) (clr : Bool) (dev : Bool)
  | einj (arr : Nat) (kind : EinjK) (addr : Nat) (dev : Bool)
  | alloc (heap : Nat) (size : Word)
  | free (heap : Nat) (ptr : Word)
  | heapInfo (heap : Nat) (w : HeapW)
  | heapQuota (heap : Nat) (bytes : Word)
  /-- the answer of the far-memory allocator to a request that a vault allocator has forwarded (R397) -/
  | answered (a : SvcReply)
  deriving DecidableEq, Repr

/-- A request-and-reply conversation on the service endpoint or the ALLOC image (R192, R397). -/
structure SvcReq where
  who : Who
  peer : Node
  job : Word
  launch : Word
  root : Bool
  system : Bool
  recSeq : Option Nat
  kind : SvcKind
  /-- its turn at the peer has come (R397) -/
  turn : Bool
  deriving DecidableEq, Repr

/-- A message to a supervisor slot (R238, R269, R348, R350). -/
structure SupMsg where
  dst : SlotRef
  job : Word
  cls : Nat
  code : Nat
  w0 : Word
  w1 : Word
  src : SlotRef
  /-- its issuer is a root unit (R359) -/
  root : Bool
  deriving DecidableEq, Repr

/-- What a channel flit carries (R168, R174, R182 to R186). -/
inductive ChBody
  | data (mt : Nat) (bytes : List Byte) (last : Bool)
  | label (l : Nat)
  | deleg (digest : Word) (state : Nat) (peer old : EpRef) (peerGen tx rx unread : Nat)
  | redirect (dest : EpRef) (gen : Nat)
  | close (state cause : Nat)
  | discard
  | credit
  | ack
  | adopted (dest : EpRef) (gen : Nat)
  | abort
  deriving DecidableEq, Repr

/-- A channel flit; seq counts within its sequence space (R189, R304). -/
structure ChFlit where
  src : Node
  dst : EpRef
  gen : Nat
  seq : Nat
  body : ChBody
  deriving DecidableEq, Repr

/-- An open request (R165). -/
structure OpenReq where
  who : Who
  opener : EpRef
  target : EpRef
  job : Word
  digest : Word
  gen : Nat
  windowed : Bool
  deriving DecidableEq, Repr

/-- Outcome of an open: accepted with the acceptor's generation, mismatched with its digest, or refused (R165). -/
inductive OpenOutcome | accepted (gen : Nat) | mismatch (digest : Word) | refused (reason : Nat)
  deriving DecidableEq, Repr

/-- What one data flit of a copy or exchange packet writes: offsets and bytes; all the offsets of its packet; and whether it is
the packet's last (R272, R304). -/
structure CopyPkt where
  owner : Node
  cmd : Nat
  num : Nat
  dst : Node
  job : Word
  writes : List (Nat × Byte)
  all : List Nat
  last : Bool
  rsem : Option Nat
  deriving DecidableEq, Repr

/-- A cancel of an object of a job (R88, R108). -/
structure CancelReq where
  job : Word
  lvl : Level
  serial : Nat
  deriving DecidableEq, Repr

/-- Security, debug and power requests (R364). -/
inductive SecReq
  | provision
  | returnToVendor
  | debug (st : Nat) (job : Word) (tile : Option Nat)
  | power (island st : Nat)
  | standby (on : Bool)
  deriving DecidableEq, Repr

/-- The components whose firmware the root of trust loads (R362). -/
inductive Firmware | management | dispatcher | arbiter | linkCalibration
  deriving DecidableEq, Repr

/-- Where a soft error strikes: an array of a tile or a far-memory device (R351, R353). -/
structure ErrSite where
  node : Node
  arr : Nat
  addr : Nat
  ue : Bool
  synd : Nat
  deriving DecidableEq, Repr


/-- The instructions and events: rows of the opcode table in the order of the map (R57, R58), then the events. -/
inductive Instr
  /-- BR: Branches to PC + 12 times the signed offset. (R93) -/
  | br (h : Hdr) (off : BitVec 48)
  /-- BRI: Branches to the address held in sA. (R93) -/
  | bri (h : Hdr) (a : SIx)
  /-- CALL: Writes the return PC to sD and branches by the offset. (R93) -/
  | call (h : Hdr) (d : SIx) (off : BitVec 48)
  /-- CALLI: Writes the return PC to sD and branches to sA. (R93) -/
  | calli (h : Hdr) (d : SIx) (a : SIx)
  /-- RET: Returns to the address in sA, as BRI does, and marks a return for debuggers. (R93) -/
  | ret (h : Hdr) (a : SIx)
  /-- LOOP: Decrements the counter sD and branches unless the count reaches zero. (R93) -/
  | loop (h : Hdr) (d : SIx) (off : BitVec 48)
  /-- EXIT: Ends the unit, aborts its channels, releases its resources and unbinds the slot. (R95) -/
  | exit (h : Hdr)
  /-- YIELD: Leaves the slot's remaining own turns of the round empty. (R96) -/
  | yield (h : Hdr)
  /-- PARK: Parks the slot until its wake flag is set, then clears the flag. (R97) -/
  | park (h : Hdr)
  /-- NOP: Does nothing. (R96) -/
  | nop (h : Hdr)
  /-- SLEEPR: Parks the slot for n whole rounds. (R98) -/
  | sleepr (h : Hdr) (imm : BitVec 16)
  /-- MFSR: Reads a special register into sD. (R99) -/
  | mfsr (h : Hdr) (d : SIx) (imm : SpReg)
  /-- MTSR: Writes sA into a writable special register, after checking reserved bits. (R99) -/
  | mtsr (h : Hdr) (a : SIx) (imm : SpReg)
  /-- SPAWN_AT: Requests a spawned unit on a target tile, with a pending return register; faults if refused. (R101) -/
  | spawnAt (h : Hdr) (d : SIx) (a : SIx) (b : SIx) (c : SIx)
  /-- SPAWN_RET: Sends a value to the caller's pending spawn destination. (R102) -/
  | spawnRet (h : Hdr) (a : SIx)
  /-- SPAWN_Q: Requests a spawned unit with no return and reports acceptance in a predicate. (R101) -/
  | spawnQ (h : Hdr) (d : PIx) (a : SIx) (b : SIx) (c : SIx)
  /-- LAUNCH: Reads and checks a launch descriptor, then creates and submits a one-node graph. (R105) -/
  | launch (h : Hdr) (d : SIx) (a : SIx)
  /-- GRAPH_OPEN: Creates an empty unsubmitted graph and returns its handle. (R106) -/
  | graphOpen (h : Hdr) (d : SIx)
  /-- GRAPH_ADD: Captures a launch descriptor and appends it to a graph as its next node. (R106) -/
  | graphAdd (h : Hdr) (d : SIx) (a : SIx) (b : SIx)
  /-- GRAPH_EDGE: Adds a dependence edge between two nodes of an unsubmitted graph. (R106) -/
  | graphEdge (h : Hdr) (a : SIx) (b : SIx) (c : SIx)
  /-- GRAPH_SUBMIT: Assigns a graph to the current phase and moves its source nodes into the ready pool. (R106) -/
  | graphSubmit (h : Hdr) (a : SIx)
  /-- DONE_WAIT: Waits for, or polls, the completion of an object at a level and returns its status. (R107) -/
  | doneWait (h : Hdr) (lvl : Level) (poll : Bool) (d : SIx) (a : SIx)
  /-- CANCEL: Asks the dispatcher to cancel an object at a level. (R108) -/
  | cancel (h : Hdr) (lvl : Level) (a : SIx)
  /-- PHASE_ENTER: The root unit opens the next phase and waits for every package to enter it. (R109) -/
  | phaseEnter (h : Hdr) (d : SIx) (a : SIx)
  /-- PHASE_LEAVE: The root unit leaves the current phase and waits for it to complete. (R109) -/
  | phaseLeave (h : Hdr) (d : SIx)
  /-- ADD: Adds two s registers modulo 2^64. (R127) -/
  | add (h : Hdr) (d : SIx) (a : SIx) (b : SIx)
  /-- SUB: Subtracts sB from sA. (R127) -/
  | sub (h : Hdr) (d : SIx) (a : SIx) (b : SIx)
  /-- MUL: Gives the low 64 bits of the product of two registers. (R127) -/
  | mul (h : Hdr) (d : SIx) (a : SIx) (b : SIx)
  /-- MULH: Gives the high 64 bits of the signed product of two registers. (R127) -/
  | mulh (h : Hdr) (d : SIx) (a : SIx) (b : SIx)
  /-- MULHN: Gives the high 64 bits of the unsigned product of two registers. (R127) -/
  | mulhn (h : Hdr) (d : SIx) (a : SIx) (b : SIx)
  /-- DIV: Gives the signed quotient of two registers; faults divide_by_zero on a zero divisor. (R127) -/
  | div (h : Hdr) (d : SIx) (a : SIx) (b : SIx)
  /-- DIVN: Gives the unsigned quotient of two registers. (R127) -/
  | divn (h : Hdr) (d : SIx) (a : SIx) (b : SIx)
  /-- REM: Gives the signed remainder of two registers. (R127) -/
  | rem (h : Hdr) (d : SIx) (a : SIx) (b : SIx)
  /-- REMN: Gives the unsigned remainder of two registers. (R127) -/
  | remn (h : Hdr) (d : SIx) (a : SIx) (b : SIx)
  /-- AND: Bitwise AND of two registers. (R127) -/
  | and (h : Hdr) (d : SIx) (a : SIx) (b : SIx)
  /-- OR: Bitwise OR of two registers. (R127) -/
  | or (h : Hdr) (d : SIx) (a : SIx) (b : SIx)
  /-- XOR: Bitwise XOR of two registers. (R127) -/
  | xor (h : Hdr) (d : SIx) (a : SIx) (b : SIx)
  /-- ANDN: Gives sA AND NOT sB. (R127) -/
  | andn (h : Hdr) (d : SIx) (a : SIx) (b : SIx)
  /-- SHL: Shifts sA left by sB[5:0]. (R127) -/
  | shl (h : Hdr) (d : SIx) (a : SIx) (b : SIx)
  /-- SHR: Shifts sA right with zero fill by sB[5:0]. (R127) -/
  | shr (h : Hdr) (d : SIx) (a : SIx) (b : SIx)
  /-- SAR: Shifts sA right with sign fill by sB[5:0]. (R127) -/
  | sar (h : Hdr) (d : SIx) (a : SIx) (b : SIx)
  /-- ROL: Rotates sA left by sB[5:0]. (R127) -/
  | rol (h : Hdr) (d : SIx) (a : SIx) (b : SIx)
  /-- MIN: Signed minimum of two registers. (R127) -/
  | min (h : Hdr) (d : SIx) (a : SIx) (b : SIx)
  /-- MAX: Signed maximum of two registers. (R127) -/
  | max (h : Hdr) (d : SIx) (a : SIx) (b : SIx)
  /-- MINN: Unsigned minimum of two registers. (R127) -/
  | minn (h : Hdr) (d : SIx) (a : SIx) (b : SIx)
  /-- MAXN: Unsigned maximum of two registers. (R127) -/
  | maxn (h : Hdr) (d : SIx) (a : SIx) (b : SIx)
  /-- ADDSAT: Signed saturating add of two registers. (R127) -/
  | addsat (h : Hdr) (d : SIx) (a : SIx) (b : SIx)
  /-- ADD_IMM: Adds a sign-extended immediate to sA. (R127) -/
  | addImm (h : Hdr) (d : SIx) (a : SIx) (imm : BitVec 48)
  /-- SUB_IMM: Subtracts an immediate from sA. (R127) -/
  | subImm (h : Hdr) (d : SIx) (a : SIx) (imm : BitVec 48)
  /-- MUL_IMM: Gives the low 64 bits of sA times an immediate. (R127) -/
  | mulImm (h : Hdr) (d : SIx) (a : SIx) (imm : BitVec 48)
  /-- MULH_IMM: Gives the high 64 bits of the signed product of sA and an immediate. (R127) -/
  | mulhImm (h : Hdr) (d : SIx) (a : SIx) (imm : BitVec 48)
  /-- MULHN_IMM: Gives the high 64 bits of the unsigned product of sA and an immediate. (R127) -/
  | mulhnImm (h : Hdr) (d : SIx) (a : SIx) (imm : BitVec 48)
  /-- DIV_IMM: Gives the signed quotient of sA by a non-zero immediate. (R127) -/
  | divImm (h : Hdr) (d : SIx) (a : SIx) (imm : BitVec 48)
  /-- DIVN_IMM: Gives the unsigned quotient of sA by an immediate. (R127) -/
  | divnImm (h : Hdr) (d : SIx) (a : SIx) (imm : BitVec 48)
  /-- REM_IMM: Gives the signed remainder of sA by an immediate. (R127) -/
  | remImm (h : Hdr) (d : SIx) (a : SIx) (imm : BitVec 48)
  /-- REMN_IMM: Gives the unsigned remainder of sA by an immediate. (R127) -/
  | remnImm (h : Hdr) (d : SIx) (a : SIx) (imm : BitVec 48)
  /-- AND_IMM: Bitwise AND of sA and an immediate. (R127) -/
  | andImm (h : Hdr) (d : SIx) (a : SIx) (imm : BitVec 48)
  /-- OR_IMM: Bitwise OR of sA and an immediate. (R127) -/
  | orImm (h : Hdr) (d : SIx) (a : SIx) (imm : BitVec 48)
  /-- XOR_IMM: Bitwise XOR of sA and an immediate. (R127) -/
  | xorImm (h : Hdr) (d : SIx) (a : SIx) (imm : BitVec 48)
  /-- ANDN_IMM: Gives sA AND NOT an immediate. (R127) -/
  | andnImm (h : Hdr) (d : SIx) (a : SIx) (imm : BitVec 48)
  /-- SHL_IMM: Shifts sA left by an immediate count of 0 to 63. (R127) -/
  | shlImm (h : Hdr) (d : SIx) (a : SIx) (imm : BitVec 48)
  /-- SHR_IMM: Shifts sA right with zero fill by an immediate count. (R127) -/
  | shrImm (h : Hdr) (d : SIx) (a : SIx) (imm : BitVec 48)
  /-- SAR_IMM: Shifts sA right with sign fill by an immediate count. (R127) -/
  | sarImm (h : Hdr) (d : SIx) (a : SIx) (imm : BitVec 48)
  /-- ROL_IMM: Rotates sA left by an immediate count. (R127) -/
  | rolImm (h : Hdr) (d : SIx) (a : SIx) (imm : BitVec 48)
  /-- MIN_IMM: Signed minimum of sA and an immediate. (R127) -/
  | minImm (h : Hdr) (d : SIx) (a : SIx) (imm : BitVec 48)
  /-- MAX_IMM: Signed maximum of sA and an immediate. (R127) -/
  | maxImm (h : Hdr) (d : SIx) (a : SIx) (imm : BitVec 48)
  /-- MINN_IMM: Unsigned minimum of sA and an immediate. (R127) -/
  | minnImm (h : Hdr) (d : SIx) (a : SIx) (imm : BitVec 48)
  /-- MAXN_IMM: Unsigned maximum of sA and an immediate. (R127) -/
  | maxnImm (h : Hdr) (d : SIx) (a : SIx) (imm : BitVec 48)
  /-- ADDSAT_IMM: Signed saturating add of sA and an immediate. (R127) -/
  | addsatImm (h : Hdr) (d : SIx) (a : SIx) (imm : BitVec 48)
  /-- CLZ: Counts the leading zero bits of sA. (R128) -/
  | clz (h : Hdr) (d : SIx) (a : SIx)
  /-- CTZ: Counts the trailing zero bits of sA. (R128) -/
  | ctz (h : Hdr) (d : SIx) (a : SIx)
  /-- POPC: Counts the one bits of sA. (R128) -/
  | popc (h : Hdr) (d : SIx) (a : SIx)
  /-- BREV: Reverses the bit order of sA. (R128) -/
  | brev (h : Hdr) (d : SIx) (a : SIx)
  /-- EXT: Extracts a bit field of sA, sign-extended. (R128) -/
  | ext (h : Hdr) (pos : BitVec 6) (lenm1 : BitVec 6) (d : SIx) (a : SIx)
  /-- EXTN: Extracts a bit field of sA, zero-extended. (R128) -/
  | extn (h : Hdr) (pos : BitVec 6) (lenm1 : BitVec 6) (d : SIx) (a : SIx)
  /-- INS: Inserts the low bits of sA into a bit field of sD. (R128) -/
  | ins (h : Hdr) (pos : BitVec 6) (lenm1 : BitVec 6) (d : SIx) (a : SIx)
  /-- BSWAP: Reverses the byte order of sA. (R128) -/
  | bswap (h : Hdr) (d : SIx) (a : SIx)
  /-- CMP: Compares two registers under a condition and writes a predicate. (R130) -/
  | cmp (h : Hdr) (cond : Cond) (d : PIx) (a : SIx) (b : SIx)
  /-- SEL: Selects sA or sB according to a predicate. (R130) -/
  | sel (h : Hdr) (d : SIx) (a : SIx) (b : SIx) (c : PIx)
  /-- MOV: Copies sA to sD. (R130) -/
  | mov (h : Hdr) (d : SIx) (a : SIx)
  /-- MOVI: Loads a sign-extended 48-bit immediate into sD. (R130) -/
  | movi (h : Hdr) (d : SIx) (imm : BitVec 48)
  /-- MOVHI: Sets bits [63:48] of sD from a 16-bit immediate. (R130) -/
  | movhi (h : Hdr) (d : SIx) (imm : BitVec 16)
  /-- LEA: Computes a scaled address without accessing memory. (R130) -/
  | lea (h : Hdr) (sz : Sz) (d : SIx) (a : SIx) (b : SIx) (ofs : BitVec 32)
  /-- ISFULL: Writes the presence bit of a register into a predicate without consuming it. (R132) -/
  | isfull (h : Hdr) (d : PIx) (a : Reg)
  /-- MKEMPTY: Marks a register empty, keeping its value. (R132) -/
  | mkempty (h : Hdr) (d : Reg)
  /-- MKFULL: Marks a register full, keeping its value. (R132) -/
  | mkfull (h : Hdr) (d : Reg)
  /-- VADD: Floating-point add per active lane. (R138) -/
  | vadd (h : Hdr) (t : Ty) (rm : Rm) (m : VMask) (d : VIx) (a : VIx) (b : VIx)
  /-- VSUB: Floating-point subtract per active lane. (R138) -/
  | vsub (h : Hdr) (t : Ty) (rm : Rm) (m : VMask) (d : VIx) (a : VIx) (b : VIx)
  /-- VMUL: Floating-point multiply per active lane. (R138) -/
  | vmul (h : Hdr) (t : Ty) (rm : Rm) (m : VMask) (d : VIx) (a : VIx) (b : VIx)
  /-- VFMA: Fused multiply-add per active lane. (R138) -/
  | vfma (h : Hdr) (t : Ty) (rm : Rm) (m : VMask) (d : VIx) (a : VIx) (b : VIx) (c : VIx)
  /-- VFMS: Fused multiply-subtract per active lane. (R138) -/
  | vfms (h : Hdr) (t : Ty) (rm : Rm) (m : VMask) (d : VIx) (a : VIx) (b : VIx) (c : VIx)
  /-- VFNMA: Fused negated multiply-add per active lane. (R138) -/
  | vfnma (h : Hdr) (t : Ty) (rm : Rm) (m : VMask) (d : VIx) (a : VIx) (b : VIx) (c : VIx)
  /-- VDIV: Floating-point divide per active lane. (R138) -/
  | vdiv (h : Hdr) (t : Ty) (rm : Rm) (m : VMask) (d : VIx) (a : VIx) (b : VIx)
  /-- VSQRT: Floating-point square root per active lane. (R138) -/
  | vsqrt (h : Hdr) (t : Ty) (rm : Rm) (m : VMask) (d : VIx) (a : VIx)
  /-- VABS: Clears the sign of each active lane. (R138) -/
  | vabs (h : Hdr) (t : Ty) (m : VMask) (d : VIx) (a : VIx)
  /-- VNEG: Inverts the sign of each active lane. (R138) -/
  | vneg (h : Hdr) (t : Ty) (m : VMask) (d : VIx) (a : VIx)
  /-- VMIN: Floating-point minimum with NaN propagation. (R138) -/
  | vmin (h : Hdr) (t : Ty) (m : VMask) (d : VIx) (a : VIx) (b : VIx)
  /-- VMAX: Floating-point maximum with NaN propagation. (R138) -/
  | vmax (h : Hdr) (t : Ty) (m : VMask) (d : VIx) (a : VIx) (b : VIx)
  /-- VMINNUM: Floating-point minimum preferring numbers over NaN. (R138) -/
  | vminnum (h : Hdr) (t : Ty) (m : VMask) (d : VIx) (a : VIx) (b : VIx)
  /-- VMAXNUM: Floating-point maximum preferring numbers over NaN. (R138) -/
  | vmaxnum (h : Hdr) (t : Ty) (m : VMask) (d : VIx) (a : VIx) (b : VIx)
  /-- VCMP: Compares floating-point lanes and writes a mask. (R138) -/
  | vcmp (h : Hdr) (t : Ty) (cond : FCond) (m : VMask) (d : KIx) (a : VIx) (b : VIx)
  /-- VROUND: Rounds each lane to an integral value. (R138) -/
  | vround (h : Hdr) (t : Ty) (rm : Rm) (m : VMask) (d : VIx) (a : VIx)
  /-- VIADD: Integer add per lane, optionally saturating. (R139) -/
  | viadd (h : Hdr) (t : Ty) (sat : Bool) (m : VMask) (d : VIx) (a : VIx) (b : VIx)
  /-- VISUB: Integer subtract per lane, optionally saturating. (R139) -/
  | visub (h : Hdr) (t : Ty) (sat : Bool) (m : VMask) (d : VIx) (a : VIx) (b : VIx)
  /-- VIMUL: Low half of the integer product per lane. (R139) -/
  | vimul (h : Hdr) (t : Ty) (m : VMask) (d : VIx) (a : VIx) (b : VIx)
  /-- VIMULH: High half of the integer product per lane. (R139) -/
  | vimulh (h : Hdr) (t : Ty) (m : VMask) (d : VIx) (a : VIx) (b : VIx)
  /-- VIMIN: Integer minimum per lane. (R139) -/
  | vimin (h : Hdr) (t : Ty) (m : VMask) (d : VIx) (a : VIx) (b : VIx)
  /-- VIMAX: Integer maximum per lane. (R139) -/
  | vimax (h : Hdr) (t : Ty) (m : VMask) (d : VIx) (a : VIx) (b : VIx)
  /-- VAND: Bitwise AND per lane. (R139) -/
  | vand (h : Hdr) (t : Ty) (m : VMask) (d : VIx) (a : VIx) (b : VIx)
  /-- VOR: Bitwise OR per lane. (R139) -/
  | vor (h : Hdr) (t : Ty) (m : VMask) (d : VIx) (a : VIx) (b : VIx)
  /-- VXOR: Bitwise XOR per lane. (R139) -/
  | vxor (h : Hdr) (t : Ty) (m : VMask) (d : VIx) (a : VIx) (b : VIx)
  /-- VSHL: Shift left per lane. (R139) -/
  | vshl (h : Hdr) (t : Ty) (m : VMask) (d : VIx) (a : VIx) (b : VIx)
  /-- VSHR: Logical shift right per lane. (R139) -/
  | vshr (h : Hdr) (t : Ty) (m : VMask) (d : VIx) (a : VIx) (b : VIx)
  /-- VSAR: Arithmetic shift right per lane. (R139) -/
  | vsar (h : Hdr) (t : Ty) (m : VMask) (d : VIx) (a : VIx) (b : VIx)
  /-- VICMP: Compares integer lanes and writes a mask. (R139) -/
  | vicmp (h : Hdr) (t : Ty) (cond : ICond) (m : VMask) (d : KIx) (a : VIx) (b : VIx)
  /-- VMOV: Copies lanes of vA to vD. (R140) -/
  | vmov (h : Hdr) (t : Ty) (m : VMask) (d : VIx) (a : VIx)
  /-- VBCAST: Broadcasts the low bits of sA to every active lane. (R140) -/
  | vbcast (h : Hdr) (t : Ty) (m : VMask) (d : VIx) (a : SIx)
  /-- VSEL: Selects lanes of vA or vB by a mask. (R140) -/
  | vsel (h : Hdr) (t : Ty) (d : VIx) (a : VIx) (b : VIx) (c : KIx)
  /-- VPERM: Permutes lanes of vA by indices in vB. (R140) -/
  | vperm (h : Hdr) (t : Ty) (m : VMask) (d : VIx) (a : VIx) (b : VIx)
  /-- VEXTR: Extracts one lane of vA into sD. (R140) -/
  | vextr (h : Hdr) (t : Ty) (d : SIx) (a : VIx) (b : SIx)
  /-- VINS: Inserts sA into one lane of vD. (R140) -/
  | vins (h : Hdr) (t : Ty) (d : VIx) (a : SIx) (b : SIx)
  /-- VIOTA: Writes each lane's index into the lane. (R140) -/
  | viota (h : Hdr) (t : Ty) (m : VMask) (d : VIx)
  /-- VCOMPRESS: Packs the active lanes of vA into the low lanes of vD. (R140) -/
  | vcompress (h : Hdr) (t : Ty) (k : KIx) (d : VIx) (a : VIx)
  /-- VCVT: Converts lanes between element types with rounding. (R141) -/
  | vcvt (h : Hdr) (t : Ty) (rm : Rm) (src : Ty) (hi : Bool) (m : VMask) (d : VIx) (a : VIx)
  /-- VQUANT: Quantises f32 lanes into MX or TQ4 blocks. (R142) -/
  | vquant (h : Hdr) (t : Ty) (pos : BitVec 4) (tqt : Tqt) (d : VIx) (a : VIx)
  /-- VDEQUANT: Dequantises a block group into f32 lanes. (R142) -/
  | vdequant (h : Hdr) (t : Ty) (pos : BitVec 4) (d : VIx) (a : VIx)
  /-- VBADDQ: Adds two block register images and requantises the sums. (R142) -/
  | vbaddq (h : Hdr) (t : Ty) (pos : BitVec 4) (d : VIx) (a : VIx) (b : VIx)
  /-- VRED: Reduces the active lanes by the lane tree into sD. (R143) -/
  | vred (h : Hdr) (t : Ty) (rm : Rm) (rop : Rop) (k : KIx) (d : SIx) (a : VIx)
  /-- VSCAN: Sequential scan over the active lanes. (R143) -/
  | vscan (h : Hdr) (t : Ty) (rm : Rm) (rop : Rop) (m : VMask) (d : VIx) (a : VIx)
  /-- PMERGE: Merges (max, sum) pairs per lane through the special-function queue. (R144) -/
  | pmerge (h : Hdr) (t : Ty) (rm : Rm) (m : VMask) (d : VIx) (a : VIx) (b : VIx)
  /-- VDOT: Dot product of two vectors by the lane tree into sD. (R143) -/
  | vdot (h : Hdr) (t : Ty) (rm : Rm) (k : KIx) (d : SIx) (a : VIx) (b : VIx)
  /-- VEXP2: Queues a correctly rounded 2^x per lane. (R145) -/
  | vexp2 (h : Hdr) (t : Ty) (rm : Rm) (m : VMask) (d : VIx) (a : VIx)
  /-- VLOG2: Queues a correctly rounded log2 x per lane. (R145) -/
  | vlog2 (h : Hdr) (t : Ty) (rm : Rm) (m : VMask) (d : VIx) (a : VIx)
  /-- VRCP: Queues a correctly rounded reciprocal per lane. (R145) -/
  | vrcp (h : Hdr) (t : Ty) (rm : Rm) (m : VMask) (d : VIx) (a : VIx)
  /-- VRSQ: Queues a correctly rounded reciprocal square root per lane. (R145) -/
  | vrsq (h : Hdr) (t : Ty) (rm : Rm) (m : VMask) (d : VIx) (a : VIx)
  /-- VSIN: Queues sin(pi x) per lane. (R145) -/
  | vsin (h : Hdr) (t : Ty) (rm : Rm) (m : VMask) (d : VIx) (a : VIx)
  /-- VCOS: Queues cos(pi x) per lane. (R145) -/
  | vcos (h : Hdr) (t : Ty) (rm : Rm) (m : VMask) (d : VIx) (a : VIx)
  /-- VTANH: Queues tanh x per lane. (R145) -/
  | vtanh (h : Hdr) (t : Ty) (rm : Rm) (m : VMask) (d : VIx) (a : VIx)
  /-- XA_GET: Claims an exact accumulator if it is free and reports success. (R153) -/
  | xaGet (h : Hdr) (xd : BitVec 3) (d : PIx)
  /-- XA_PUT: Releases an exact accumulator. (R153) -/
  | xaPut (h : Hdr) (xd : BitVec 3)
  /-- XA_CLR: Clears an exact accumulator to finite zero. (R153) -/
  | xaClr (h : Hdr) (xd : BitVec 3)
  /-- XA_ADDP: Adds the exact product of two f64 values. (R153) -/
  | xaAddp (h : Hdr) (xd : BitVec 3) (neg : Bool) (a : SIx) (b : SIx)
  /-- XA_ADDV: Adds the exact lane products of two vectors. (R153) -/
  | xaAddv (h : Hdr) (xd : BitVec 3) (neg : Bool) (k : KIx) (a : VIx) (b : VIx)
  /-- XA_ADD: Adds one held accumulator into another. (R153) -/
  | xaAdd (h : Hdr) (xd : BitVec 3) (xs : BitVec 3) (neg : Bool)
  /-- XA_SIGN: Tests the exact sign of an accumulator. (R153) -/
  | xaSign (h : Hdr) (xd : BitVec 3) (cond : XaCond) (d : PIx)
  /-- XA_RND: Rounds an accumulator's value to f32 or f64. (R153) -/
  | xaRnd (h : Hdr) (t : Ty) (rm : Rm) (xd : BitVec 3) (d : SIx)
  /-- XA_SAVE: Writes the 552-byte accumulator image to scratchpad. (R154) -/
  | xaSave (h : Hdr) (xd : BitVec 3) (a : SIx) (ofs : BitVec 32)
  /-- XA_LOAD: Reads a 552-byte image into an accumulator. (R154) -/
  | xaLoad (h : Hdr) (xd : BitVec 3) (a : SIx) (ofs : BitVec 32)
  /-- PROT_LOAD: Reads, checks and installs a protocol image and returns its index. (R162) -/
  | protLoad (h : Hdr) (d : SIx) (a : SIx) (ofs : BitVec 32)
  /-- PROT_FREE: Ends the slot's hold on a loaded protocol image. (R163) -/
  | protFree (h : Hdr) (a : SIx)
  /-- EP_GET: Claims a named or the lowest free endpoint. (R156) -/
  | epGet (h : Hdr) (d : SIx) (a : SIx)
  /-- EP_PUT: Releases an endpoint, aborting its channel if any. (R156) -/
  | epPut (h : Hdr) (a : SIx)
  /-- CH_OPEN: Sends an open request toward a peer endpoint and parks for the reply. (R165) -/
  | chOpen (h : Hdr) (ep : EIx) (a : SIx) (b : SIx)
  /-- CH_ACCEPT: Waits for an open request, compares digests and replies. (R165) -/
  | chAccept (h : Hdr) (ep : EIx) (d : SIx) (a : SIx) (b : SIx)
  /-- CH_CLOSE: Closes a channel at a CLOSE state and makes the endpoint idle. (R185) -/
  | chClose (h : Hdr) (ep : EIx)
  /-- CH_ABORT: Drives a channel to its nearest recovery state and sends a close notice. (R186) -/
  | chAbort (h : Hdr) (ep : EIx)
  /-- CH_STATE: Reads the channel status word of an endpoint. (R190) -/
  | chState (h : Hdr) (ep : EIx) (d : SIx)
  /-- CH_BINDREG: Binds an endpoint to a register, or ends the binding. (R179) -/
  | chBindreg (h : Hdr) (ep : EIx) (r : BindDst)
  /-- SEND: Sends a piece of a message from s registers under the strainer. (R172) -/
  | send (h : Hdr) (ep : EIx) (mt : BitVec 6) (fin : Bool) (rel : Bool) (p : BitVec 3) (len : BitVec 9) (a : SIx)
  /-- SENDV: Sends a piece of a message from a v register under the strainer. (R172) -/
  | sendv (h : Hdr) (ep : EIx) (mt : BitVec 6) (fin : Bool) (rel : Bool) (p : BitVec 3) (len : BitVec 9) (a : VIx)
  /-- RECV: Takes bytes of the head message into s registers. (R173) -/
  | recv (h : Hdr) (ep : EIx) (mt : BitVec 6) (p : BitVec 3) (len : BitVec 9) (d : SIx) (b : SIx)
  /-- RECVV: Takes bytes of the head message into a v register. (R173) -/
  | recvv (h : Hdr) (ep : EIx) (mt : BitVec 6) (p : BitVec 3) (len : BitVec 9) (d : VIx) (b : SIx)
  /-- SELECT: Sends a label message and moves along its edge. (R174) -/
  | select (h : Hdr) (ep : EIx) (lbl : BitVec 2) (rel : Bool) (p : BitVec 3)
  /-- OFFER: Consumes an expected label or declines. (R174) -/
  | offer (h : Hdr) (ep : EIx) (lbl : BitVec 2) (p : BitVec 3) (b : SIx)
  /-- CH_DELEG: Sends a conversation's endpoint over a carrier channel and makes it forwarding. (R182) -/
  | chDeleg (h : Hdr) (ey : EIx) (rel : Bool) (p : BitVec 3) (ex : BitVec 7)
  /-- CH_ADOPT: Takes a delegation message and opens a local endpoint at the carried state. (R183) -/
  | chAdopt (h : Hdr) (ey : EIx) (p : BitVec 3) (ez : BitVec 7) (d : SIx)
  /-- TURN_SET: Checks sources and parks until the next round boundary to set a slot's turns. (R199) -/
  | turnSet (h : Hdr) (a : SIx) (b : SIx) (c : SIx)
  /-- TURN_GET: Reads a slot's turn ownership or issue counts. (R200) -/
  | turnGet (h : Hdr) (w : TurnW) (d : SIx) (a : SIx)
  /-- RC_CONF: Configures a rate coupler after checking its loop bound. (R207) -/
  | rcConf (h : Hdr) (n : BitVec 4) (a : SIx)
  /-- RC_BIND: Binds a coupler to a stream endpoint via a conversation with the producer tile. (R209) -/
  | rcBind (h : Hdr) (n : BitVec 5) (ep : BitVec 7) (d : SIx)
  /-- RC_READ: Reads a coupler's state, configuration or counts. (R209) -/
  | rcRead (h : Hdr) (n : BitVec 4) (w : RcW) (d : SIx)
  /-- RC_FREE: Detaches and frees a coupler. (R209) -/
  | rcFree (h : Hdr) (n : BitVec 4)
  /-- LD: Loads bytes from scratchpad ignoring presence. (R219) -/
  | ld (h : Hdr) (sz : Sz) (sc : Scope) (ord : Ord) (sx : Bool) (d : SIx) (a : SIx) (ofs : BitVec 32)
  /-- ST: Stores bytes to scratchpad ignoring presence. (R219) -/
  | st (h : Hdr) (sz : Sz) (sc : Scope) (ord : Ord) (a : SIx) (b : SIx) (ofs : BitVec 32)
  /-- LDV: Loads 256 bytes of scratchpad into a v register. (R219) -/
  | ldv (h : Hdr) (sc : Scope) (ord : Ord) (d : VIx) (a : SIx) (ofs : BitVec 32)
  /-- STV: Stores a v register to 256 bytes of scratchpad. (R219) -/
  | stv (h : Hdr) (sc : Scope) (ord : Ord) (a : SIx) (b : VIx) (ofs : BitVec 32)
  /-- LD_SYNC: Waits for a word to be full, reads it and optionally empties it. (R219) -/
  | ldSync (h : Hdr) (sc : Scope) (ord : Ord) (cons : Bool) (d : SIx) (a : SIx) (ofs : BitVec 32)
  /-- ST_FILL: Waits for a word to be empty unless OVR, writes it and marks it full. (R219) -/
  | stFill (h : Hdr) (sc : Scope) (ord : Ord) (ovr : Bool) (a : SIx) (b : SIx) (ofs : BitVec 32)
  /-- ST_RESET: Writes a word and marks it empty without waiting. (R219) -/
  | stReset (h : Hdr) (sc : Scope) (ord : Ord) (a : SIx) (b : SIx) (ofs : BitVec 32)
  /-- LDV_SYNC: Waits for 32 words to be full and loads them into a v register. (R219) -/
  | ldvSync (h : Hdr) (sc : Scope) (ord : Ord) (cons : Bool) (d : VIx) (a : SIx) (ofs : BitVec 32)
  /-- SEM_WAIT: Waits until a semaphore reaches a threshold, optionally decrementing it. (R226) -/
  | semWait (h : Hdr) (n : BitVec 8) (dec : Bool) (a : SIx)
  /-- SEM_WAIT_TO: Waits on a semaphore with a timeout and reports the outcome in a predicate. (R226) -/
  | semWaitTo (h : Hdr) (n : BitVec 8) (dec : Bool) (d : PIx) (a : SIx) (b : SIx)
  /-- SEM_SIG: Adds to a semaphore, saturating, as a tile-scope release. (R226) -/
  | semSig (h : Hdr) (n : BitVec 8) (a : SIx)
  /-- SEM_SET: Sets a semaphore and clears its overflow bit. (R226) -/
  | semSet (h : Hdr) (n : BitVec 8) (a : SIx)
  /-- SEM_READ: Reads a semaphore's value and overflow bit. (R226) -/
  | semRead (h : Hdr) (n : BitVec 8) (d : SIx)
  /-- BAR_ARM: Arms a barrier over a rectangle with count K. (R230) -/
  | barArm (h : Hdr) (n : BitVec 7) (a : SIx) (b : SIx)
  /-- BAR_ARRIVE: Counts one arrival of the slot at a barrier. (R230) -/
  | barArrive (h : Hdr) (n : BitVec 7)
  /-- BAR_WAIT: Waits for release of the slot's last arrival episode. (R230) -/
  | barWait (h : Hdr) (n : BitVec 7)
  /-- BAR_SYNC: Arrives at a barrier and waits for that episode's release. (R230) -/
  | barSync (h : Hdr) (n : BitVec 7)
  /-- BAR_DISARM: Clears an idle barrier. (R230) -/
  | barDisarm (h : Hdr) (n : BitVec 7)
  /-- GLD: Loads from global memory and parks for the reply. (R241) -/
  | gld (h : Hdr) (sz : Sz) (sc : Scope) (ord : Ord) (sx : Bool) (d : SIx) (a : SIx) (ofs : BitVec 32)
  /-- GST: Posts a store to global memory. (R241) -/
  | gst (h : Hdr) (sz : Sz) (sc : Scope) (ord : Ord) (a : SIx) (b : SIx) (ofs : BitVec 32)
  /-- GLDV: Loads up to 256 bytes of global memory into a v register. (R241) -/
  | gldv (h : Hdr) (sz : Sz) (sc : Scope) (ord : Ord) (d : VIx) (a : SIx) (ofs : BitVec 32)
  /-- GSTV: Posts a store of up to 256 bytes from a v register. (R241) -/
  | gstv (h : Hdr) (sz : Sz) (sc : Scope) (ord : Ord) (a : SIx) (b : VIx) (ofs : BitVec 32)
  /-- GPREF: Translates and hints the home controller; never faults on translation. (R241) -/
  | gpref (h : Hdr) (sz : Sz) (sc : Scope) (a : SIx) (ofs : BitVec 32)
  /-- ATOM: Performs an atomic read-modify-write at the home and returns the old value. (R246) -/
  | atom (h : Hdr) (sz : Sz) (sc : Scope) (ord : Ord) (op : AOp) (d : SIx) (a : SIx) (b : SIx) (ofs : BitVec 32)
  /-- CAS: Compares and swaps at the home and returns the old value. (R246) -/
  | cas (h : Hdr) (sz : Sz) (sc : Scope) (ord : Ord) (p : BitVec 3) (d : SIx) (a : SIx) (b : SIx) (ofs : BitVec 32)
  /-- ATOM_DET: Sends an atomic to the controller's deterministic atomic unit. (R247) -/
  | atomDet (h : Hdr) (sz : Sz) (sc : Scope) (ord : Ord) (op : AOp) (d : SIx) (a : SIx) (b : SIx) (ofs : BitVec 32)
  /-- RGN_BEGIN: Checkpoints registers and opens a remote region with a handler. (R250) -/
  | rgnBegin (h : Hdr) (d : SIx) (off : BitVec 48)
  /-- RGN_COMMIT: Sends the held atomic and releases held stores, or rolls back. (R252) -/
  | rgnCommit (h : Hdr) (cc : Bool)
  /-- RGN_ABORT: Rolls back the region with cause 0, detail 1. (R252) -/
  | rgnAbort (h : Hdr)
  /-- ALLOC_F: Allocates a heap block, faulting on exhaustion. (R255) -/
  | allocF (h : Hdr) (n : BitVec 4) (d : SIx) (a : SIx)
  /-- ALLOC_Q: Allocates a heap block, reporting exhaustion in a predicate. (R255) -/
  | allocQ (h : Hdr) (n : BitVec 4) (p : BitVec 3) (d : SIx) (a : SIx)
  /-- FREE: Returns a block to its heap as a domain-scope release. (R256) -/
  | free (h : Hdr) (n : BitVec 4) (a : SIx)
  /-- HEAP_INFO: Reads a count of a heap. (R257) -/
  | heapInfo (h : Hdr) (n : BitVec 4) (w : HeapW) (d : SIx)
  /-- HEAP_INFO_QUOTA: Sets the byte quota of a heap. (R257) -/
  | heapInfoQuota (h : Hdr) (n : BitVec 4) (a : SIx)
  /-- TLB_INV: Invalidates the job's entries for one page over a scope. (R239) -/
  | tlbInv (h : Hdr) (sc : TlbScope) (a : SIx)
  /-- TLB_INV_ALL: Invalidates every entry of the job over a scope. (R239) -/
  | tlbInvAll (h : Hdr) (sc : TlbScope)
  /-- XLAT: Walks the translation for an address and writes the result word. (R239) -/
  | xlat (h : Hdr) (d : SIx) (a : SIx)
  /-- XLAT_RESUME: Resumes a parked access or stopped command named by a token. (R239) -/
  | xlatResume (h : Hdr) (a : SIx)
  /-- XLAT_REFUSE: Refuses a parked access or stopped command named by a token. (R239) -/
  | xlatRefuse (h : Hdr) (a : SIx)
  /-- TD_SET: Reads, checks and installs a tensor descriptor. (R263) -/
  | tdSet (h : Hdr) (sp : Bool) (d : DIx) (a : SIx)
  /-- TD_GET: Reads one word of a tensor descriptor. (R263) -/
  | tdGet (h : Hdr) (w : BitVec 3) (d : SIx) (a : DIx)
  /-- TD_CLR: Clears a tensor descriptor. (R263) -/
  | tdClr (h : Hdr) (d : DIx)
  /-- CP_PUSH: Queues a copy of a scratchpad region to a tile, memory or channel. (R272) -/
  | cpPush (h : Hdr) (sync : ESync) (rsem : BitVec 8) (rsv : Bool) (tr : Tr) (d : DIx) (a : DIx) (b : SIx)
  /-- CP_FILL: Queues a fill of a region with a pattern. (R275) -/
  | cpFill (h : Hdr) (sync : ESync) (d : DIx) (b : SIx)
  /-- CP_PULLREQ: Queues a request that memory peers push a region into scratchpad. (R276) -/
  | cpPullreq (h : Hdr) (sync : ESync) (rsem : BitVec 8) (rsv : Bool) (d : DIx) (a : DIx)
  /-- MX_LDS: Queues a load of weights into the shadow plane. (R281) -/
  | mxLds (h : Hdr) (sync : ESync) (a : DIx)
  /-- MX_SWAP: Queues an exchange of active and shadow planes. (R281) -/
  | mxSwap (h : Hdr) (sync : ESync)
  /-- MX_STREAM: Queues a stream of activation rows past the active plane. (R282) -/
  | mxStream (h : Hdr) (sync : ESync) (row0 : BitVec 9) (acc : Bool) (a : DIx)
  /-- MX_CONV: Queues a convolution tap stream. (R283) -/
  | mxConv (h : Hdr) (sync : ESync) (row0 : BitVec 9) (acc : Bool) (a : DIx) (b : SIx)
  /-- MX_DRAIN_V: Queues conversion of one accumulator row into a v register. (R284) -/
  | mxDrainV (h : Hdr) (sync : ESync) (row0 : BitVec 9) (rm : Rm) (clr : Bool) (vt : Vt) (d : VIx)
  /-- MX_DRAIN_D: Queues conversion of accumulator rows into a scratchpad descriptor. (R284) -/
  | mxDrainD (h : Hdr) (sync : ESync) (row0 : BitVec 9) (rm : Rm) (clr : Bool) (tqt : Tqt) (d : DIx)
  /-- MX_CLR: Queues clearing of accumulator rows with a mode and fill. (R285) -/
  | mxClr (h : Hdr) (sync : ESync) (row0 : BitVec 9) (int : Bool) (fill : Fill) (b : SIx)
  /-- MX_UPROG: Queues installation or removal of a cell microprogram. (R286) -/
  | mxUprog (h : Hdr) (sync : ESync) (on : Bool) (uty : Bool) (b : SIx)
  /-- MX_STAT: Reads the matrix status, overrun count or resume record. (R288) -/
  | mxStat (h : Hdr) (w : MxW) (clr : Bool) (d : SIx)
  /-- FENCE: Parks until earlier writes within the scope are performed. (R299) -/
  | fence (h : Hdr) (sc : Scope) (eR : Bool) (eW : Bool) (lR : Bool) (lW : Bool)
  /-- FENCE_ENG: Orders writes before later engine commands, or waits for earlier commands. (R300) -/
  | fenceEng (h : Hdr) (sc : Scope) (inn : Bool) (out : Bool)
  /-- DEM_POST: Adds bytes to the demand row entry for a destination package. (R319) -/
  | demPost (h : Hdr) (a : SIx) (b : SIx)
  /-- DEM_CLOSE: Closes the package's open demand period and sends the row to the arbiter. (R319) -/
  | demClose (h : Hdr) (d : SIx)
  /-- CAL_WAIT: Takes the next grant of a calendar subscription, optionally waiting for its start. (R324) -/
  | calWait (h : Hdr) (ep : EIx) (p : BitVec 3) (atStart : Bool) (d : SIx)
  /-- XCH_SEND: Reserves phase bytes and queues a scheduled copy to another package. (R325) -/
  | xchSend (h : Hdr) (sync : ESync) (rsem : BitVec 8) (rsv : Bool) (d : DIx) (a : DIx) (b : SIx)
  /-- XCH_STAT: Reads exchange status or counts. (R328) -/
  | xchStat (h : Hdr) (w : XchW) (d : SIx)
  /-- GW_TAKE: Takes the next block of the spout's sequence from the block queue. (R329) -/
  | gwTake (h : Hdr) (d : SIx) (a : SIx)
  /-- GW_DONE: Ends the hold on a block as a package-scope release. (R329) -/
  | gwDone (h : Hdr) (a : SIx)
  /-- REC_MARK: Records or compares a mark entry in the record log. (R339) -/
  | recMark (h : Hdr) (a : SIx)
  /-- REC_MARK_DRAIN: Empties a record segment of the package. (R339) -/
  | recMarkDrain (h : Hdr) (a : SIx)
  /-- REC_STAT: Reads record log state or counts. (R339) -/
  | recStat (h : Hdr) (w : RecW) (d : SIx)
  /-- DET_CYCLE: Reads the cycle relative to S0 or the void word. (R339) -/
  | detCycle (h : Hdr) (vd : Bool) (d : SIx)
  /-- TRAP: Faults with software_trap carrying the immediate. (R346) -/
  | trap (h : Hdr) (imm : BitVec 48)
  /-- ERET: Returns from a handler to TRAPPC or the next instruction and clears INH. (R347) -/
  | eret (h : Hdr) (skip : Bool)
  /-- CAUSE: Takes the slot's oldest supervisor message, optionally waiting. (R350) -/
  | cause (h : Hdr) (wait : Bool) (p : BitVec 3) (d : SIx)
  /-- EINJ: In system mode injects an error into a stored code word. (R355) -/
  | einj (h : Hdr) (kind : EinjK) (a : SIx) (b : SIx)
  /-- ELOG: Reads, and optionally clears, an error log entry or counts. (R354) -/
  | elog (h : Hdr) (w : BitVec 2) (clr : Bool) (d : SIx) (a : SIx)
  /-- PAND: AND of two predicates. (R131) -/
  | pand (h : Hdr) (d : PIx) (a : PIx) (b : PIx)
  /-- POR: OR of two predicates. (R131) -/
  | por (h : Hdr) (d : PIx) (a : PIx) (b : PIx)
  /-- PXOR: XOR of two predicates. (R131) -/
  | pxor (h : Hdr) (d : PIx) (a : PIx) (b : PIx)
  /-- PNOT: Negation of a predicate. (R131) -/
  | pnot (h : Hdr) (d : PIx) (a : PIx)
  /-- PMOV: Copies a predicate, or converts between predicate and s register. (R131) -/
  | pmov (h : Hdr) (o : PmovOps)
  /-- KAND: Bitwise AND of two masks. (R149) -/
  | kand (h : Hdr) (d : KIx) (a : KIx) (b : KIx)
  /-- KOR: Bitwise OR of two masks. (R149) -/
  | kor (h : Hdr) (d : KIx) (a : KIx) (b : KIx)
  /-- KNOT: Bitwise NOT of a mask. (R149) -/
  | knot (h : Hdr) (d : KIx) (a : KIx)
  /-- KPOP: Counts the set lanes of a mask. (R149) -/
  | kpop (h : Hdr) (t : Ty) (d : SIx) (a : KIx)
  /-- KSET: Sets mask bits for a lane range. (R149) -/
  | kset (h : Hdr) (t : Ty) (d : KIx) (a : SIx) (b : SIx)
  /-- RESULT_LANDING: A fixed-latency result is written to its register and set full at c + L. (R116) -/
  | resultLanding (r : SlotRef) (uid : Nat) (dst : Reg) (val : VVal)
  /-- ROUND_BOUNDARY: At each round boundary the tile applies turn changes in fixed order. (R197) -/
  | roundBoundary (n : Node)
  /-- SLEEPR_EXPIRY: The sleep period of SLEEPR ends and the slot unparks. (R98) -/
  | sleeprExpiry (w : Who)
  /-- PACKET_OPEN_LIMIT: A packet open for 64 counts faults the slot and aborts its channel. (R92) -/
  | packetOpenLimit (r : SlotRef) (uid : Nat)
  /-- WAIT_LIMIT_EXPIRY: A slot parked beyond WAITLIM takes the wait_limit trap. (R222) -/
  | waitLimitExpiry (w : Who)
  /-- REMOTE_WITHDRAWAL_ANSWER: The answer to a remote wait withdrawal lands and the slot traps or completes. (R223) -/
  | remoteWithdrawalAnswer (w : Who) (removed : Bool)
  /-- SEM_WAIT_TIMEOUT: A SEM.WAIT.to gives up at the end of its timeout and writes 0 to its predicate. (R226) -/
  | semWaitTimeout (w : Who)
  /-- BIND_COMPLETE: Binding sets the slot state and completes within 32 cycles. (R118) -/
  | bindComplete (r : SlotRef) (uid : Nat)
  /-- NODE_PLACEMENT: The dispatcher places a ready node once its tiles have free slots and roles. (R85) -/
  | nodePlacement (pkg : Nat)
  /-- DETERMINISTIC_START: All units of a deterministic launch bind and first issue from S0. (R331) -/
  | deterministicStart (pkg serial : Nat)
  /-- CONTEXT_SAVE_COMPLETE: A pre-empted unit's context has been saved at an instruction boundary. (R91) -/
  | contextSaveComplete (r : SlotRef) (uid : Nat)
  /-- UNIT_RESUME: A pre-empted unit's context is restored on its slot. (R87) -/
  | unitResume (r : SlotRef) (uid : Nat)
  /-- LAUNCH_COMPLETION: A launch completes when all its units have ended and their writes drained. (R82) -/
  | launchCompletion (pkg serial : Nat)
  /-- PHASE_COMPLETION: A phase completes when every package has left it. (R89) -/
  | phaseCompletion (job : Word)
  /-- CANCEL_APPLY: The dispatcher stops units, aborts channels and discards entries of a cancelled object. (R88) -/
  | cancelApply (pkg : Nat) (c : CancelReq)
  /-- DISPATCHER_REQUEST: The dispatcher serves a work-hierarchy request and replies after 64 cycles. (R397) -/
  | dispatcherRequest (q : SvcReq)
  /-- SERVICE_REPLY_LAND: A reply on the service endpoint lands and completes the parked form. (R192) -/
  | serviceReplyLand (w : Who) (r : SvcReply)
  /-- SPAWN_REQUEST_LAND: A spawn request lands at the target tile's spawn queue and is accepted or refused. (R90) -/
  | spawnRequestLand (q : SpawnReq)
  /-- SPAWN_ENTRY_SERVE: A queued spawn entry is bound to a free slot. (R90) -/
  | spawnEntryServe (n : Node)
  /-- SPAWN_RETURN_LAND: A spawn return lands in the caller's pending register. (R102) -/
  | spawnReturnLand (r : SlotRef) (uid : Nat) (dst : SIx) (val : Word)
  /-- SCRATCHPAD_CYCLE_SERVICE: At the end of each cycle a tile serves remote requests, waiter lists and LDV.SYNC. (R221) -/
  | scratchpadCycleService (n : Node) (q : Option (SpReq × Bool))
  /-- REMOTE_REPLY_LAND: A done, refused or busy reply to a remote scratchpad access lands at the slot. (R215) -/
  | remoteReplyLand (q : SpReq) (r : SpReply)
  /-- REMOTE_BUSY_RESEND: A slot resends a busy remote request 64 cycles after the busy reply. (R215) -/
  | remoteBusyResend (q : SpReq)
  /-- BARRIER_TOKEN_LAND: A row or column token lands and may complete the tile for the episode. (R228) -/
  | barrierTokenLand (n : Node) (b : Nat) (row : Bool) (job : Word)
  /-- BARRIER_RELEASE_LAND: A release lands, frees waiting slots, advances the episode and is sent on. (R228) -/
  | barrierReleaseLand (n : Node) (b : Nat) (job : Word)
  /-- MEMORY_MERGE_STEP: A controller applies the requests landed in a cycle in issuer-index order. (R243) -/
  | memoryMergeStep (c : Node) (q : Option MemReq)
  /-- ATOM_DET_WINDOW_APPLY: At the end of a window its entries are applied in issuer order. (R247) -/
  | atomDetWindowApply (c : Node) (win : Nat)
  /-- REFRESH_WINDOW_END: Requests held in a refresh window are performed at the window's last cycle. (R332) -/
  | refreshWindowEnd (c : Node)
  /-- CONTROLLER_REPLY_SEND: A controller sends a reply or credit its fixed latency after performance. (R332) -/
  | controllerReplySend (c : Node) (q : MemReq) (r : MemReply)
  /-- GLOBAL_REPLY_LAND: A global load or atomic reply lands and writes its destination. (R241) -/
  | globalReplyLand (w : Who) (r : MemReply)
  /-- POSTED_STORE_CREDIT_LAND: A posted store's credit lands, freeing a window entry. (R241) -/
  | postedStoreCreditLand (w : Who) (r : MemReply)
  /-- ALLOCATOR_REQUEST: An allocator serves an ALLOC, FREE or HEAP.INFO request. (R254) -/
  | allocatorRequest (peer : Node) (q : SvcReq)
  /-- TLB_INV_REQUEST: The TLBs in scope drop the named entries and answer. (R239) -/
  | tlbInvRequest (pkg : Nat) (q : SvcReq)
  /-- SUPERVISOR_MESSAGE_LAND: A fault message lands in the supervisor tile's queue, or gets a busy reply. (R348) -/
  | supervisorMessageLand (m : SupMsg)
  /-- SUPERVISOR_MESSAGE_RESEND: A sender resends a message 64 cycles after a busy reply. (R348) -/
  | supervisorMessageResend (m : SupMsg)
  /-- SFU_SERVICE_START: The special-function queue starts serving its next request. (R146) -/
  | sfuServiceStart (n : Node)
  /-- SFU_RESULT_LAND: A special-function result lands 20 cycles after its occupancy, ORing its flags. (R146) -/
  | sfuResultLand (n : Node) (id : Nat)
  /-- ARRAY_BEAT_START: An array form starts its beats after earlier beats. (R135) -/
  | arrayBeatStart (n : Node)
  /-- OPEN_REQUEST_LAND: An open request reaches an endpoint and is held or refused. (R166) -/
  | openRequestLand (q : OpenReq)
  /-- OPEN_REPLY_LAND: The reply to an open lands and opens, mismatches or refuses. (R165) -/
  | openReplyLand (q : OpenReq) (o : OpenOutcome)
  /-- OPEN_WITHDRAWAL_LAND: A CH.OPEN withdrawal lands at the target and discards a held request. (R165) -/
  | openWithdrawalLand (q : OpenReq)
  /-- CHANNEL_FLIT_LAND: A channel data or control flit lands and is placed by sequence number. (R172) -/
  | channelFlitLand (f : ChFlit)
  /-- CREDIT_LAND: A credit lands and reduces the unread count of a windowed channel. (R171) -/
  | creditLand (f : ChFlit)
  /-- CLOSE_NOTICE_LAND: A close notice makes an open endpoint peer-closed and discards its buffer. (R188) -/
  | closeNoticeLand (f : ChFlit)
  /-- DISCARD_MARKER_LAND: A discard marker makes the peer drop a partial packet. (R186) -/
  | discardMarkerLand (f : ChFlit)
  /-- REGISTER_DEPOSIT: A waiting message deposits into its bound register once it is empty. (R121) -/
  | registerDeposit (e : EpRef)
  /-- ADOPTION_NOTICE_LAND: An adoption notice makes the forwarding endpoint relay to the adopter. (R184) -/
  | adoptionNoticeLand (f : ChFlit)
  /-- REDIRECT_LAND: A redirect lands at the peer, which sends to the new endpoint and acknowledges. (R184) -/
  | redirectLand (f : ChFlit)
  /-- ACKNOWLEDGEMENT_LAND: The acknowledgement ends forwarding and frees the old endpoint. (R184) -/
  | acknowledgementLand (f : ChFlit)
  /-- DELEGATION_ABORT_LAND: An abort for a discarded delegation closes the delegated channel. (R184) -/
  | delegationAbortLand (f : ChFlit)
  /-- COUPLER_SAMPLE: A configured coupler samples occupancy and updates its output. (R203) -/
  | couplerSample (n : Node) (rc : Nat)
  /-- COUPLER_CONTROL_FLIT_LAND: A coupler control flit lands and writes the producer's remote entry: the output, or none where the
  coupler is released. (R204, R205) -/
  | couplerControlFlitLand (n : Node) (owner : EpRef) (u : Option Int)
  /-- RC_BIND_REQUEST: The producer's tile serves a coupler bind request. (R209) -/
  | rcBindRequest (q : SvcReq)
  /-- ENGINE_COMMAND_START: A queued engine command starts once earlier ones started and its wait holds. (R267) -/
  | engineCommandStart (n : Node) (mx : Bool)
  /-- ENGINE_COMMAND_COMPLETE: An engine command completes and adds its signal to its semaphore. (R267) -/
  | engineCommandComplete (n : Node) (mx : Bool) (id : Nat)
  /-- COPY_PACKET_LAND: A copy or exchange packet lands, writes its bytes and increments RSEM. (R272) -/
  | copyPacketLand (p : CopyPkt)
  /-- COPY_PACKET_ACK: A packet acknowledgement lands at the copy engine. (R272) -/
  | copyPacketAck (owner : Node) (cmd num code : Nat)
  /-- PULL_REQUEST_SERVE: A home controller reads its part of a pull source and pushes packets. (R276) -/
  | pullRequestServe (q : PullReq)
  /-- ENGINE_FAULT_STOP: A failing command stops at a resumable point and messages the supervisor. (R269) -/
  | engineFaultStop (n : Node) (mx : Bool) (id code : Nat) (addr : Word)
  /-- MATRIX_STEP_COMMIT: A 64-row stream step commits its accumulator rows 48 cycles after its last row. (R287) -/
  | matrixStepCommit (n : Node) (id stepNo : Nat)
  /-- FLIT_SLOT_ROUTING: Each flit slot the router assigns outputs to arrived flits and injects local ones. (R305) -/
  | flitSlotRouting (n : Node) (half : Bool)
  /-- INJECTION_STARVATION_HOLD: A tile whose oldest injection waited 64 cycles holds its neighbours' injections. (R306) -/
  | injectionStarvationHold (n : Node)
  /-- LINK_RETRY: A flit failing its check is resent by link-level retry. (R311) -/
  | linkRetry (pkg port cycles : Nat)
  /-- LINK_PORT_DOWN: A port goes down and holds its routed flits. (R313) -/
  | linkPortDown (pkg port : Nat)
  /-- LINK_PORT_UP: A port comes back up and sends its held flits. (R313) -/
  | linkPortUp (pkg port : Nat)
  /-- HELD_FLIT_TIMEOUT: Flits held 4096 cycles at a down port complete as peer_reset or are dropped. (R313) -/
  | heldFlitTimeout (pkg port fid : Nat)
  /-- TILE_RESET: A tile resets and increments its incarnation. (R314) -/
  | tileReset (n : Node)
  /-- PACKAGE_RESET: A package resets, leaves the exchange group and rejoins after announcement. (R316) -/
  | packageReset (pkg : Nat)
  /-- INCARNATION_ANNOUNCEMENT_LAND: A new incarnation is learned and affected conversations complete. (R314) -/
  | incarnationAnnouncementLand (pkg : Nat) (about : Node) (inc : Nat)
  /-- STALE_NOTICE_LAND: A stale notice completes the source's conversations toward the reset tile. (R315) -/
  | staleNoticeLand (dst : Node) (about : Node) (inc : Nat)
  /-- DEMAND_POST_REQUEST: The demand summer adds a post to the open row and acknowledges. (R319) -/
  | demandPostRequest (q : SvcReq)
  /-- DEMAND_ROW_ACCEPT: The arbiter accepts a closed row and acknowledges it. (R319) -/
  | demandRowAccept (job : Word) (pkg period : Nat) (row : List Nat)
  /-- CALENDAR_DECOMPOSE: Once every package closed a period the arbiter decomposes the demand into phases. (R320) -/
  | calendarDecompose (job : Word)
  /-- CALENDAR_ISSUE: After the standby's acknowledgement the calendar is sent to every package. (R323) -/
  | calendarIssue (job : Word)
  /-- CALENDAR_LAND: A calendar lands at a package and its service delivers grants to subscribers. (R323) -/
  | calendarLand (pkg : Nat) (job : Word) (period : Nat)
  /-- CAL_WAIT_AT_WAKE: A CAL.WAIT.at that took a grant completes when CYCLE reaches START. (R324) -/
  | calWaitAtWake (w : Who)
  /-- EXCHANGE_RESERVATION: The exchange unit reserves an XCH.SEND's bytes in its phase or refuses. (R325) -/
  | exchangeReservation (q : SvcReq)
  /-- EXCHANGE_PHASE_END: At a phase's end idle and late granules are counted. (R326) -/
  | exchangePhaseEnd (pkg : Nat) (job : Word) (period phase : Nat)
  /-- HEARTBEAT_SEND: The arbiter sends the standby a heartbeat every 1024 cycles. (R327) -/
  | heartbeatSend (job : Word)
  /-- HEARTBEAT_TIMEOUT: A standby without heartbeat for 4096 cycles takes over as arbiter. (R327) -/
  | heartbeatTimeout (job : Word)
  /-- BLOCK_QUEUE_REQUEST: The block queue serves a GW.TAKE or GW.DONE. (R329) -/
  | blockQueueRequest (q : SvcReq)
  /-- RECORD_SEGMENT_REQUEST: A segment's tile serves a REC.MARK or drain request. (R339) -/
  | recordSegmentRequest (q : SvcReq)
  /-- REPLAY_LIMIT_EXPIRY: A logged issuer not presenting within the replay limit ends the phase's replay. (R338) -/
  | replayLimitExpiry (pkg : Nat) (job : Word) (seg entry : Nat)
  /-- ERROR_LOG_REQUEST: A remote array's tile or device serves an ELOG or EINJ request. (R354) -/
  | errorLogRequest (q : SvcReq)
  /-- SUBMISSION_TAIL_WRITE: The host writes a submission queue tail, releasing job records to the package. (R357) -/
  | submissionTailWrite (pkg queue tail : Nat)
  /-- JOB_RECORD_ACCEPT: A package takes a job record, checks it and agrees acceptance with the others. (R358) -/
  | jobRecordAccept (pkg queue : Nat)
  /-- ROOT_UNIT_BIND: The root unit binds in slot 0 of ROOTTILE once it is free. (R360) -/
  | rootUnitBind (pkg : Nat) (job : Word)
  /-- HOST_CANCEL_WRITE: The host writes a job handle to the BAR 0 cancel register. (R361) -/
  | hostCancelWrite (pkg : Nat) (handle : Word)
  /-- JOB_END: Job-end processing cancels work, drains stores, invalidates TLBs, destroys the key. (R361) -/
  | jobEnd (job : Word)
  /-- BAR0_REGISTER_WRITE: A host write to a BAR 0 register without own behaviour, ignoring reserved bits. (R4) -/
  | bar0RegisterWrite (pkg off : Nat) (data : List Byte)
  /-- SPDM_MESSAGE: An SPDM or attestation request over the CXL.io DOE mailbox is served. (R356) -/
  | spdmMessage (pkg : Nat) (msg : List Byte)
  /-- FIRMWARE_IMAGE_LOAD: The root of trust verifies and loads a firmware image. (R362) -/
  | firmwareImageLoad (pkg : Nat) (comp : Firmware) (image sig : List Byte) (version : Nat)
  /-- SECURITY_REQUEST: A security, debug or power request lands at tile 2098 and is applied or refused. (R364) -/
  | securityRequest (pkg : Nat) (r : SecReq)
  /-- OPERATING_POINT_CHANGE: Firmware changes an island's operating point at a round boundary. (R365) -/
  | operatingPointChange (pkg island point : Nat) (forced : Bool)
  /-- TILE_RETIRE: An untenanted tile is retired and its spare takes its id and vault contents. (R366) -/
  | tileRetire (n : Node)
  /-- PORT_RETRAIN: A link port's lanes retrain one at a time while it carries traffic. (R366) -/
  | portRetrain (pkg port : Nat)
  /-- VAULT_ROW_COPY: A vault row is copied to a spare row inside refresh windows. (R366) -/
  | vaultRowCopy (n : Node) (row : Nat)
  /-- ILLEGAL_INSTRUCTION: An encoding with an unassigned OP or FN, such as executed zero padding, is issued and faults with illegal_instruction. (R59) -/
  | illegalInstruction (w : IWord)
  /-- SPAWN_REPLY_LAND: The accepted or refused reply to a SPAWN.AT or SPAWN.Q lands at the caller, which sets its predicate, marks sD pending or faults with spawn_refused. (R101) -/
  | spawnReplyLand (w : Who) (reason : Nat)
  /-- ALLOCATOR_REPLY_LAND: The allocator's reply to ALLOC, FREE or HEAP.INFO lands at the slot and writes sD and pP or raises the fault. (R255) -/
  | allocatorReplyLand (w : Who) (r : SvcReply)
  /-- OPEN_WITHDRAWAL_ANSWER_LAND: The target's answer to a CH.OPEN withdrawal lands at the opener, which returns its endpoint to idle and takes the wait_limit trap. (R165) -/
  | openWithdrawalAnswerLand (w : Who) (held : Bool)
  /-- SOFT_ERROR: A stored code word in an SRAM array, the vault or far memory is corrupted by a soft error. (R351) -/
  | softError (e : ErrSite)
  /-- HOST_CXL_MEM_ACCESS: The host reads or writes far memory through CXL.mem as host-managed device memory. (R356) -/
  | hostCxlMemAccess (pkg addr : Nat) (write : Option (List Byte))
  /-- HOST_LINK_TRAINING: The CXL host link trains and comes up at 16 or 8 lanes. (R356) -/
  | hostLinkTraining (pkg lanes : Nat)
  deriving DecidableEq, Repr

/-- The header of a form; none of an event. -/
def Instr.hdr : Instr → Option Hdr
  | .illegalInstruction _ => none
  | .br h _ => some h
  | .bri h _ => some h
  | .call h _ _ => some h
  | .calli h _ _ => some h
  | .ret h _ => some h
  | .loop h _ _ => some h
  | .exit h => some h
  | .yield h => some h
  | .park h => some h
  | .nop h => some h
  | .sleepr h _ => some h
  | .mfsr h _ _ => some h
  | .mtsr h _ _ => some h
  | .spawnAt h _ _ _ _ => some h
  | .spawnRet h _ => some h
  | .spawnQ h _ _ _ _ => some h
  | .launch h _ _ => some h
  | .graphOpen h _ => some h
  | .graphAdd h _ _ _ => some h
  | .graphEdge h _ _ _ => some h
  | .graphSubmit h _ => some h
  | .doneWait h _ _ _ _ => some h
  | .cancel h _ _ => some h
  | .phaseEnter h _ _ => some h
  | .phaseLeave h _ => some h
  | .add h _ _ _ => some h
  | .sub h _ _ _ => some h
  | .mul h _ _ _ => some h
  | .mulh h _ _ _ => some h
  | .mulhn h _ _ _ => some h
  | .div h _ _ _ => some h
  | .divn h _ _ _ => some h
  | .rem h _ _ _ => some h
  | .remn h _ _ _ => some h
  | .and h _ _ _ => some h
  | .or h _ _ _ => some h
  | .xor h _ _ _ => some h
  | .andn h _ _ _ => some h
  | .shl h _ _ _ => some h
  | .shr h _ _ _ => some h
  | .sar h _ _ _ => some h
  | .rol h _ _ _ => some h
  | .min h _ _ _ => some h
  | .max h _ _ _ => some h
  | .minn h _ _ _ => some h
  | .maxn h _ _ _ => some h
  | .addsat h _ _ _ => some h
  | .addImm h _ _ _ => some h
  | .subImm h _ _ _ => some h
  | .mulImm h _ _ _ => some h
  | .mulhImm h _ _ _ => some h
  | .mulhnImm h _ _ _ => some h
  | .divImm h _ _ _ => some h
  | .divnImm h _ _ _ => some h
  | .remImm h _ _ _ => some h
  | .remnImm h _ _ _ => some h
  | .andImm h _ _ _ => some h
  | .orImm h _ _ _ => some h
  | .xorImm h _ _ _ => some h
  | .andnImm h _ _ _ => some h
  | .shlImm h _ _ _ => some h
  | .shrImm h _ _ _ => some h
  | .sarImm h _ _ _ => some h
  | .rolImm h _ _ _ => some h
  | .minImm h _ _ _ => some h
  | .maxImm h _ _ _ => some h
  | .minnImm h _ _ _ => some h
  | .maxnImm h _ _ _ => some h
  | .addsatImm h _ _ _ => some h
  | .clz h _ _ => some h
  | .ctz h _ _ => some h
  | .popc h _ _ => some h
  | .brev h _ _ => some h
  | .ext h _ _ _ _ => some h
  | .extn h _ _ _ _ => some h
  | .ins h _ _ _ _ => some h
  | .bswap h _ _ => some h
  | .cmp h _ _ _ _ => some h
  | .sel h _ _ _ _ => some h
  | .mov h _ _ => some h
  | .movi h _ _ => some h
  | .movhi h _ _ => some h
  | .lea h _ _ _ _ _ => some h
  | .isfull h _ _ => some h
  | .mkempty h _ => some h
  | .mkfull h _ => some h
  | .vadd h _ _ _ _ _ _ => some h
  | .vsub h _ _ _ _ _ _ => some h
  | .vmul h _ _ _ _ _ _ => some h
  | .vfma h _ _ _ _ _ _ _ => some h
  | .vfms h _ _ _ _ _ _ _ => some h
  | .vfnma h _ _ _ _ _ _ _ => some h
  | .vdiv h _ _ _ _ _ _ => some h
  | .vsqrt h _ _ _ _ _ => some h
  | .vabs h _ _ _ _ => some h
  | .vneg h _ _ _ _ => some h
  | .vmin h _ _ _ _ _ => some h
  | .vmax h _ _ _ _ _ => some h
  | .vminnum h _ _ _ _ _ => some h
  | .vmaxnum h _ _ _ _ _ => some h
  | .vcmp h _ _ _ _ _ _ => some h
  | .vround h _ _ _ _ _ => some h
  | .viadd h _ _ _ _ _ _ => some h
  | .visub h _ _ _ _ _ _ => some h
  | .vimul h _ _ _ _ _ => some h
  | .vimulh h _ _ _ _ _ => some h
  | .vimin h _ _ _ _ _ => some h
  | .vimax h _ _ _ _ _ => some h
  | .vand h _ _ _ _ _ => some h
  | .vor h _ _ _ _ _ => some h
  | .vxor h _ _ _ _ _ => some h
  | .vshl h _ _ _ _ _ => some h
  | .vshr h _ _ _ _ _ => some h
  | .vsar h _ _ _ _ _ => some h
  | .vicmp h _ _ _ _ _ _ => some h
  | .vmov h _ _ _ _ => some h
  | .vbcast h _ _ _ _ => some h
  | .vsel h _ _ _ _ _ => some h
  | .vperm h _ _ _ _ _ => some h
  | .vextr h _ _ _ _ => some h
  | .vins h _ _ _ _ => some h
  | .viota h _ _ _ => some h
  | .vcompress h _ _ _ _ => some h
  | .vcvt h _ _ _ _ _ _ _ => some h
  | .vquant h _ _ _ _ _ => some h
  | .vdequant h _ _ _ _ => some h
  | .vbaddq h _ _ _ _ _ => some h
  | .vred h _ _ _ _ _ _ => some h
  | .vscan h _ _ _ _ _ _ => some h
  | .pmerge h _ _ _ _ _ _ => some h
  | .vdot h _ _ _ _ _ _ => some h
  | .vexp2 h _ _ _ _ _ => some h
  | .vlog2 h _ _ _ _ _ => some h
  | .vrcp h _ _ _ _ _ => some h
  | .vrsq h _ _ _ _ _ => some h
  | .vsin h _ _ _ _ _ => some h
  | .vcos h _ _ _ _ _ => some h
  | .vtanh h _ _ _ _ _ => some h
  | .xaGet h _ _ => some h
  | .xaPut h _ => some h
  | .xaClr h _ => some h
  | .xaAddp h _ _ _ _ => some h
  | .xaAddv h _ _ _ _ _ => some h
  | .xaAdd h _ _ _ => some h
  | .xaSign h _ _ _ => some h
  | .xaRnd h _ _ _ _ => some h
  | .xaSave h _ _ _ => some h
  | .xaLoad h _ _ _ => some h
  | .protLoad h _ _ _ => some h
  | .protFree h _ => some h
  | .epGet h _ _ => some h
  | .epPut h _ => some h
  | .chOpen h _ _ _ => some h
  | .chAccept h _ _ _ _ => some h
  | .chClose h _ => some h
  | .chAbort h _ => some h
  | .chState h _ _ => some h
  | .chBindreg h _ _ => some h
  | .send h _ _ _ _ _ _ _ => some h
  | .sendv h _ _ _ _ _ _ _ => some h
  | .recv h _ _ _ _ _ _ => some h
  | .recvv h _ _ _ _ _ _ => some h
  | .select h _ _ _ _ => some h
  | .offer h _ _ _ _ => some h
  | .chDeleg h _ _ _ _ => some h
  | .chAdopt h _ _ _ _ => some h
  | .turnSet h _ _ _ => some h
  | .turnGet h _ _ _ => some h
  | .rcConf h _ _ => some h
  | .rcBind h _ _ _ => some h
  | .rcRead h _ _ _ => some h
  | .rcFree h _ => some h
  | .ld h _ _ _ _ _ _ _ => some h
  | .st h _ _ _ _ _ _ => some h
  | .ldv h _ _ _ _ _ => some h
  | .stv h _ _ _ _ _ => some h
  | .ldSync h _ _ _ _ _ _ => some h
  | .stFill h _ _ _ _ _ _ => some h
  | .stReset h _ _ _ _ _ => some h
  | .ldvSync h _ _ _ _ _ _ => some h
  | .semWait h _ _ _ => some h
  | .semWaitTo h _ _ _ _ _ => some h
  | .semSig h _ _ => some h
  | .semSet h _ _ => some h
  | .semRead h _ _ => some h
  | .barArm h _ _ _ => some h
  | .barArrive h _ => some h
  | .barWait h _ => some h
  | .barSync h _ => some h
  | .barDisarm h _ => some h
  | .gld h _ _ _ _ _ _ _ => some h
  | .gst h _ _ _ _ _ _ => some h
  | .gldv h _ _ _ _ _ _ => some h
  | .gstv h _ _ _ _ _ _ => some h
  | .gpref h _ _ _ _ => some h
  | .atom h _ _ _ _ _ _ _ _ => some h
  | .cas h _ _ _ _ _ _ _ _ => some h
  | .atomDet h _ _ _ _ _ _ _ _ => some h
  | .rgnBegin h _ _ => some h
  | .rgnCommit h _ => some h
  | .rgnAbort h => some h
  | .allocF h _ _ _ => some h
  | .allocQ h _ _ _ _ => some h
  | .free h _ _ => some h
  | .heapInfo h _ _ _ => some h
  | .heapInfoQuota h _ _ => some h
  | .tlbInv h _ _ => some h
  | .tlbInvAll h _ => some h
  | .xlat h _ _ => some h
  | .xlatResume h _ => some h
  | .xlatRefuse h _ => some h
  | .tdSet h _ _ _ => some h
  | .tdGet h _ _ _ => some h
  | .tdClr h _ => some h
  | .cpPush h _ _ _ _ _ _ _ => some h
  | .cpFill h _ _ _ => some h
  | .cpPullreq h _ _ _ _ _ => some h
  | .mxLds h _ _ => some h
  | .mxSwap h _ => some h
  | .mxStream h _ _ _ _ => some h
  | .mxConv h _ _ _ _ _ => some h
  | .mxDrainV h _ _ _ _ _ _ => some h
  | .mxDrainD h _ _ _ _ _ _ => some h
  | .mxClr h _ _ _ _ _ => some h
  | .mxUprog h _ _ _ _ => some h
  | .mxStat h _ _ _ => some h
  | .fence h _ _ _ _ _ => some h
  | .fenceEng h _ _ _ => some h
  | .demPost h _ _ => some h
  | .demClose h _ => some h
  | .calWait h _ _ _ _ => some h
  | .xchSend h _ _ _ _ _ _ => some h
  | .xchStat h _ _ => some h
  | .gwTake h _ _ => some h
  | .gwDone h _ => some h
  | .recMark h _ => some h
  | .recMarkDrain h _ => some h
  | .recStat h _ _ => some h
  | .detCycle h _ _ => some h
  | .trap h _ => some h
  | .eret h _ => some h
  | .cause h _ _ _ => some h
  | .einj h _ _ _ => some h
  | .elog h _ _ _ _ => some h
  | .pand h _ _ _ => some h
  | .por h _ _ _ => some h
  | .pxor h _ _ _ => some h
  | .pnot h _ _ => some h
  | .pmov h _ => some h
  | .kand h _ _ _ => some h
  | .kor h _ _ _ => some h
  | .knot h _ _ => some h
  | .kpop h _ _ _ => some h
  | .kset h _ _ _ _ => some h
  | .resultLanding _ _ _ _ => none
  | .roundBoundary _ => none
  | .sleeprExpiry _ => none
  | .packetOpenLimit _ _ => none
  | .waitLimitExpiry _ => none
  | .remoteWithdrawalAnswer _ _ => none
  | .semWaitTimeout _ => none
  | .bindComplete _ _ => none
  | .nodePlacement _ => none
  | .deterministicStart _ _ => none
  | .contextSaveComplete _ _ => none
  | .unitResume _ _ => none
  | .launchCompletion _ _ => none
  | .phaseCompletion _ => none
  | .cancelApply _ _ => none
  | .dispatcherRequest _ => none
  | .serviceReplyLand _ _ => none
  | .spawnRequestLand _ => none
  | .spawnEntryServe _ => none
  | .spawnReturnLand _ _ _ _ => none
  | .scratchpadCycleService _ _ => none
  | .remoteReplyLand _ _ => none
  | .remoteBusyResend _ => none
  | .barrierTokenLand _ _ _ _ => none
  | .barrierReleaseLand _ _ _ => none
  | .memoryMergeStep _ _ => none
  | .atomDetWindowApply _ _ => none
  | .refreshWindowEnd _ => none
  | .controllerReplySend _ _ _ => none
  | .globalReplyLand _ _ => none
  | .postedStoreCreditLand _ _ => none
  | .allocatorRequest _ _ => none
  | .tlbInvRequest _ _ => none
  | .supervisorMessageLand _ => none
  | .supervisorMessageResend _ => none
  | .sfuServiceStart _ => none
  | .sfuResultLand _ _ => none
  | .arrayBeatStart _ => none
  | .openRequestLand _ => none
  | .openReplyLand _ _ => none
  | .openWithdrawalLand _ => none
  | .channelFlitLand _ => none
  | .creditLand _ => none
  | .closeNoticeLand _ => none
  | .discardMarkerLand _ => none
  | .registerDeposit _ => none
  | .adoptionNoticeLand _ => none
  | .redirectLand _ => none
  | .acknowledgementLand _ => none
  | .delegationAbortLand _ => none
  | .couplerSample _ _ => none
  | .couplerControlFlitLand _ _ _ => none
  | .rcBindRequest _ => none
  | .engineCommandStart _ _ => none
  | .engineCommandComplete _ _ _ => none
  | .copyPacketLand _ => none
  | .copyPacketAck _ _ _ _ => none
  | .pullRequestServe _ => none
  | .engineFaultStop _ _ _ _ _ => none
  | .matrixStepCommit _ _ _ => none
  | .flitSlotRouting _ _ => none
  | .injectionStarvationHold _ => none
  | .linkRetry _ _ _ => none
  | .linkPortDown _ _ => none
  | .linkPortUp _ _ => none
  | .heldFlitTimeout _ _ _ => none
  | .tileReset _ => none
  | .packageReset _ => none
  | .incarnationAnnouncementLand _ _ _ => none
  | .staleNoticeLand _ _ _ => none
  | .demandPostRequest _ => none
  | .demandRowAccept _ _ _ _ => none
  | .calendarDecompose _ => none
  | .calendarIssue _ => none
  | .calendarLand _ _ _ => none
  | .calWaitAtWake _ => none
  | .exchangeReservation _ => none
  | .exchangePhaseEnd _ _ _ _ => none
  | .heartbeatSend _ => none
  | .heartbeatTimeout _ => none
  | .blockQueueRequest _ => none
  | .recordSegmentRequest _ => none
  | .replayLimitExpiry _ _ _ _ => none
  | .errorLogRequest _ => none
  | .submissionTailWrite _ _ _ => none
  | .jobRecordAccept _ _ => none
  | .rootUnitBind _ _ => none
  | .hostCancelWrite _ _ => none
  | .jobEnd _ => none
  | .bar0RegisterWrite _ _ _ => none
  | .spdmMessage _ _ => none
  | .firmwareImageLoad _ _ _ _ _ => none
  | .securityRequest _ _ => none
  | .operatingPointChange _ _ _ _ => none
  | .tileRetire _ => none
  | .portRetrain _ _ => none
  | .vaultRowCopy _ _ => none
  | .spawnReplyLand _ _ => none
  | .allocatorReplyLand _ _ => none
  | .openWithdrawalAnswerLand _ _ => none
  | .softError _ => none
  | .hostCxlMemAccess _ _ _ => none
  | .hostLinkTraining _ _ => none

/-- An event as the agenda of the machine holds it: the event rows of Instr, once more, as a type of their own.
(A compiled value has room for 245 constructors with fields; the machine's own code is kept runnable this way.) -/
inductive Ev
  | resultLanding (r : SlotRef) (uid : Nat) (dst : Reg) (val : VVal)
  | roundBoundary (n : Node)
  | sleeprExpiry (w : Who)
  | packetOpenLimit (r : SlotRef) (uid : Nat)
  | waitLimitExpiry (w : Who)
  | remoteWithdrawalAnswer (w : Who) (removed : Bool)
  | semWaitTimeout (w : Who)
  | bindComplete (r : SlotRef) (uid : Nat)
  | nodePlacement (pkg : Nat)
  | deterministicStart (pkg serial : Nat)
  | contextSaveComplete (r : SlotRef) (uid : Nat)
  | unitResume (r : SlotRef) (uid : Nat)
  | launchCompletion (pkg serial : Nat)
  | phaseCompletion (job : Word)
  | cancelApply (pkg : Nat) (c : CancelReq)
  | dispatcherRequest (q : SvcReq)
  | serviceReplyLand (w : Who) (r : SvcReply)
  | spawnRequestLand (q : SpawnReq)
  | spawnEntryServe (n : Node)
  | spawnReturnLand (r : SlotRef) (uid : Nat) (dst : SIx) (val : Word)
  | scratchpadCycleService (n : Node) (q : Option (SpReq × Bool))
  | remoteReplyLand (q : SpReq) (r : SpReply)
  | remoteBusyResend (q : SpReq)
  | barrierTokenLand (n : Node) (b : Nat) (row : Bool) (job : Word)
  | barrierReleaseLand (n : Node) (b : Nat) (job : Word)
  | memoryMergeStep (c : Node) (q : Option MemReq)
  | atomDetWindowApply (c : Node) (win : Nat)
  | refreshWindowEnd (c : Node)
  | controllerReplySend (c : Node) (q : MemReq) (r : MemReply)
  | globalReplyLand (w : Who) (r : MemReply)
  | postedStoreCreditLand (w : Who) (r : MemReply)
  | allocatorRequest (peer : Node) (q : SvcReq)
  | tlbInvRequest (pkg : Nat) (q : SvcReq)
  | supervisorMessageLand (m : SupMsg)
  | supervisorMessageResend (m : SupMsg)
  | sfuServiceStart (n : Node)
  | sfuResultLand (n : Node) (id : Nat)
  | arrayBeatStart (n : Node)
  | openRequestLand (q : OpenReq)
  | openReplyLand (q : OpenReq) (o : OpenOutcome)
  | openWithdrawalLand (q : OpenReq)
  | channelFlitLand (f : ChFlit)
  | creditLand (f : ChFlit)
  | closeNoticeLand (f : ChFlit)
  | discardMarkerLand (f : ChFlit)
  | registerDeposit (e : EpRef)
  | adoptionNoticeLand (f : ChFlit)
  | redirectLand (f : ChFlit)
  | acknowledgementLand (f : ChFlit)
  | delegationAbortLand (f : ChFlit)
  | couplerSample (n : Node) (rc : Nat)
  | couplerControlFlitLand (n : Node) (owner : EpRef) (u : Option Int)
  | rcBindRequest (q : SvcReq)
  | engineCommandStart (n : Node) (mx : Bool)
  | engineCommandComplete (n : Node) (mx : Bool) (id : Nat)
  | copyPacketLand (p : CopyPkt)
  | copyPacketAck (owner : Node) (cmd num code : Nat)
  | pullRequestServe (q : PullReq)
  | engineFaultStop (n : Node) (mx : Bool) (id code : Nat) (addr : Word)
  | matrixStepCommit (n : Node) (id stepNo : Nat)
  | flitSlotRouting (n : Node) (half : Bool)
  | injectionStarvationHold (n : Node)
  | linkRetry (pkg port cycles : Nat)
  | linkPortDown (pkg port : Nat)
  | linkPortUp (pkg port : Nat)
  | heldFlitTimeout (pkg port fid : Nat)
  | tileReset (n : Node)
  | packageReset (pkg : Nat)
  | incarnationAnnouncementLand (pkg : Nat) (about : Node) (inc : Nat)
  | staleNoticeLand (dst : Node) (about : Node) (inc : Nat)
  | demandPostRequest (q : SvcReq)
  | demandRowAccept (job : Word) (pkg period : Nat) (row : List Nat)
  | calendarDecompose (job : Word)
  | calendarIssue (job : Word)
  | calendarLand (pkg : Nat) (job : Word) (period : Nat)
  | calWaitAtWake (w : Who)
  | exchangeReservation (q : SvcReq)
  | exchangePhaseEnd (pkg : Nat) (job : Word) (period phase : Nat)
  | heartbeatSend (job : Word)
  | heartbeatTimeout (job : Word)
  | blockQueueRequest (q : SvcReq)
  | recordSegmentRequest (q : SvcReq)
  | replayLimitExpiry (pkg : Nat) (job : Word) (seg entry : Nat)
  | errorLogRequest (q : SvcReq)
  | submissionTailWrite (pkg queue tail : Nat)
  | jobRecordAccept (pkg queue : Nat)
  | rootUnitBind (pkg : Nat) (job : Word)
  | hostCancelWrite (pkg : Nat) (handle : Word)
  | jobEnd (job : Word)
  | bar0RegisterWrite (pkg off : Nat) (data : List Byte)
  | spdmMessage (pkg : Nat) (msg : List Byte)
  | firmwareImageLoad (pkg : Nat) (comp : Firmware) (image sig : List Byte) (version : Nat)
  | securityRequest (pkg : Nat) (r : SecReq)
  | operatingPointChange (pkg island point : Nat) (forced : Bool)
  | tileRetire (n : Node)
  | portRetrain (pkg port : Nat)
  | vaultRowCopy (n : Node) (row : Nat)
  | spawnReplyLand (w : Who) (reason : Nat)
  | allocatorReplyLand (w : Who) (r : SvcReply)
  | openWithdrawalAnswerLand (w : Who) (held : Bool)
  | softError (e : ErrSite)
  | hostCxlMemAccess (pkg addr : Nat) (write : Option (List Byte))
  | hostLinkTraining (pkg lanes : Nat)
  deriving DecidableEq, Repr

/-- The row of the opcode table that an event is. -/
noncomputable def Ev.toInstr : Ev → Instr
  | .resultLanding r uid dst val => .resultLanding r uid dst val
  | .roundBoundary n => .roundBoundary n
  | .sleeprExpiry w => .sleeprExpiry w
  | .packetOpenLimit r uid => .packetOpenLimit r uid
  | .waitLimitExpiry w => .waitLimitExpiry w
  | .remoteWithdrawalAnswer w removed => .remoteWithdrawalAnswer w removed
  | .semWaitTimeout w => .semWaitTimeout w
  | .bindComplete r uid => .bindComplete r uid
  | .nodePlacement pkg => .nodePlacement pkg
  | .deterministicStart pkg serial => .deterministicStart pkg serial
  | .contextSaveComplete r uid => .contextSaveComplete r uid
  | .unitResume r uid => .unitResume r uid
  | .launchCompletion pkg serial => .launchCompletion pkg serial
  | .phaseCompletion job => .phaseCompletion job
  | .cancelApply pkg c => .cancelApply pkg c
  | .dispatcherRequest q => .dispatcherRequest q
  | .serviceReplyLand w r => .serviceReplyLand w r
  | .spawnRequestLand q => .spawnRequestLand q
  | .spawnEntryServe n => .spawnEntryServe n
  | .spawnReturnLand r uid dst val => .spawnReturnLand r uid dst val
  | .scratchpadCycleService n q => .scratchpadCycleService n q
  | .remoteReplyLand q r => .remoteReplyLand q r
  | .remoteBusyResend q => .remoteBusyResend q
  | .barrierTokenLand n b row job => .barrierTokenLand n b row job
  | .barrierReleaseLand n b job => .barrierReleaseLand n b job
  | .memoryMergeStep c q => .memoryMergeStep c q
  | .atomDetWindowApply c win => .atomDetWindowApply c win
  | .refreshWindowEnd c => .refreshWindowEnd c
  | .controllerReplySend c q r => .controllerReplySend c q r
  | .globalReplyLand w r => .globalReplyLand w r
  | .postedStoreCreditLand w r => .postedStoreCreditLand w r
  | .allocatorRequest peer q => .allocatorRequest peer q
  | .tlbInvRequest pkg q => .tlbInvRequest pkg q
  | .supervisorMessageLand m => .supervisorMessageLand m
  | .supervisorMessageResend m => .supervisorMessageResend m
  | .sfuServiceStart n => .sfuServiceStart n
  | .sfuResultLand n id => .sfuResultLand n id
  | .arrayBeatStart n => .arrayBeatStart n
  | .openRequestLand q => .openRequestLand q
  | .openReplyLand q o => .openReplyLand q o
  | .openWithdrawalLand q => .openWithdrawalLand q
  | .channelFlitLand f => .channelFlitLand f
  | .creditLand f => .creditLand f
  | .closeNoticeLand f => .closeNoticeLand f
  | .discardMarkerLand f => .discardMarkerLand f
  | .registerDeposit e => .registerDeposit e
  | .adoptionNoticeLand f => .adoptionNoticeLand f
  | .redirectLand f => .redirectLand f
  | .acknowledgementLand f => .acknowledgementLand f
  | .delegationAbortLand f => .delegationAbortLand f
  | .couplerSample n rc => .couplerSample n rc
  | .couplerControlFlitLand n owner u => .couplerControlFlitLand n owner u
  | .rcBindRequest q => .rcBindRequest q
  | .engineCommandStart n mx => .engineCommandStart n mx
  | .engineCommandComplete n mx id => .engineCommandComplete n mx id
  | .copyPacketLand p => .copyPacketLand p
  | .copyPacketAck owner cmd num code => .copyPacketAck owner cmd num code
  | .pullRequestServe q => .pullRequestServe q
  | .engineFaultStop n mx id code addr => .engineFaultStop n mx id code addr
  | .matrixStepCommit n id stepNo => .matrixStepCommit n id stepNo
  | .flitSlotRouting n half => .flitSlotRouting n half
  | .injectionStarvationHold n => .injectionStarvationHold n
  | .linkRetry pkg port cycles => .linkRetry pkg port cycles
  | .linkPortDown pkg port => .linkPortDown pkg port
  | .linkPortUp pkg port => .linkPortUp pkg port
  | .heldFlitTimeout pkg port fid => .heldFlitTimeout pkg port fid
  | .tileReset n => .tileReset n
  | .packageReset pkg => .packageReset pkg
  | .incarnationAnnouncementLand pkg about inc => .incarnationAnnouncementLand pkg about inc
  | .staleNoticeLand dst about inc => .staleNoticeLand dst about inc
  | .demandPostRequest q => .demandPostRequest q
  | .demandRowAccept job pkg period row => .demandRowAccept job pkg period row
  | .calendarDecompose job => .calendarDecompose job
  | .calendarIssue job => .calendarIssue job
  | .calendarLand pkg job period => .calendarLand pkg job period
  | .calWaitAtWake w => .calWaitAtWake w
  | .exchangeReservation q => .exchangeReservation q
  | .exchangePhaseEnd pkg job period phase => .exchangePhaseEnd pkg job period phase
  | .heartbeatSend job => .heartbeatSend job
  | .heartbeatTimeout job => .heartbeatTimeout job
  | .blockQueueRequest q => .blockQueueRequest q
  | .recordSegmentRequest q => .recordSegmentRequest q
  | .replayLimitExpiry pkg job seg entry => .replayLimitExpiry pkg job seg entry
  | .errorLogRequest q => .errorLogRequest q
  | .submissionTailWrite pkg queue tail => .submissionTailWrite pkg queue tail
  | .jobRecordAccept pkg queue => .jobRecordAccept pkg queue
  | .rootUnitBind pkg job => .rootUnitBind pkg job
  | .hostCancelWrite pkg handle => .hostCancelWrite pkg handle
  | .jobEnd job => .jobEnd job
  | .bar0RegisterWrite pkg off data => .bar0RegisterWrite pkg off data
  | .spdmMessage pkg msg => .spdmMessage pkg msg
  | .firmwareImageLoad pkg comp image sig version => .firmwareImageLoad pkg comp image sig version
  | .securityRequest pkg r => .securityRequest pkg r
  | .operatingPointChange pkg island point forced => .operatingPointChange pkg island point forced
  | .tileRetire n => .tileRetire n
  | .portRetrain pkg port => .portRetrain pkg port
  | .vaultRowCopy n row => .vaultRowCopy n row
  | .spawnReplyLand w reason => .spawnReplyLand w reason
  | .allocatorReplyLand w r => .allocatorReplyLand w r
  | .openWithdrawalAnswerLand w held => .openWithdrawalAnswerLand w held
  | .softError e => .softError e
  | .hostCxlMemAccess pkg addr write => .hostCxlMemAccess pkg addr write
  | .hostLinkTraining pkg lanes => .hostLinkTraining pkg lanes

end Sys2Proof
end

