-- ==== Sys2Proof/WellFormed.lean ====
section
/-! DEFINITION. Which forms are well formed: every combination of fields that steps 3 and 4 of R44 let pass. -/

namespace Sys2Proof

/-- f32 and f64 (R144, R152). -/
def Ty.isF3264 : Ty → Bool
  | .f32 | .f64 => true
  | _ => false

/-- Any access size (R240, R129). -/
def Sz.any (_ : Sz) : Bool := true
/-- Sizes of the s register loads and stores (R217, R240). -/
def Sz.isScalar : Sz → Bool
  | .b1 | .b2 | .b4 | .b8 => true
  | _ => false
/-- Sizes of GLDV and GSTV (R240). -/
def Sz.isVec : Sz → Bool
  | .b16 | .b32 | .b256 => true
  | _ => false
/-- Sizes of the atomic forms (R245). -/
def Sz.isAtomic : Sz → Bool
  | .b4 | .b8 => true
  | _ => false

/-- Any order (R245). -/
def Ord.any (_ : Ord) : Bool := true
/-- Orders of the scratchpad load forms (R217). -/
def Ord.isLd : Ord → Bool
  | .rlx | .acq => true
  | _ => false
/-- Orders of the scratchpad store forms (R217). -/
def Ord.isSt : Ord → Bool
  | .rlx | .rel => true
  | _ => false
/-- Orders of the global load forms (R240). -/
def Ord.isGld : Ord → Bool
  | .rlx | .acq | .sc => true
  | _ => false
/-- Orders of the global store forms (R240). -/
def Ord.isGst : Ord → Bool
  | .rlx | .rel | .sc => true
  | _ => false

/-- K = 0 requires Z = 0 (R51). -/
def VMask.ok (m : VMask) : Bool := !(decide (m.k = 0) && m.z)

/-- WTH = 0 requires WSEM = 0, and SINC = 0 requires SSEM = 0 (R54). -/
def ESync.ok (y : ESync) : Bool := (decide (y.wth ≠ 0) || decide (y.wsem = 0)) && (decide (y.sinc ≠ 0) || decide (y.ssem = 0))

/-- A register that CH.BINDREG may name: s0 cannot be bound (R179). -/
def BindDst.ok : BindDst → Bool
  | .s i => decide (i ≠ 0)
  | _ => true

/-- Whether a cell of the opcode map is assigned (R57, R58). -/
def assigned (op fn : Nat) : Bool :=
  match op with
  | 0x01 => fn ≤ 5
  | 0x02 => fn ≤ 6
  | 0x03 => fn ≤ 2
  | 0x04 => fn ≤ 8
  | 0x10 => fn ≤ 21
  | 0x11 => fn ≤ 21
  | 0x12 => fn ≤ 7
  | 0x13 => fn ≤ 5
  | 0x14 => fn ≤ 4
  | 0x15 => fn ≤ 2
  | 0x30 => fn ≤ 15
  | 0x31 => fn ≤ 12
  | 0x32 => fn ≤ 7
  | 0x33 => fn ≤ 3
  | 0x34 => fn ≤ 3
  | 0x35 => fn ≤ 6
  | 0x36 => fn ≤ 4
  | 0x37 => fn ≤ 9
  | 0x60 => fn ≤ 3
  | 0x61 => fn ≤ 5
  | 0x62 => fn ≤ 5
  | 0x63 => fn ≤ 1
  | 0x70 => fn ≤ 5
  | 0x74 => fn ≤ 3
  | 0x75 => fn ≤ 3
  | 0x76 => fn ≤ 3
  | 0x77 => fn ≤ 4
  | 0x80 => fn ≤ 4
  | 0x81 => fn ≤ 2
  | 0x82 => fn ≤ 2
  | 0x83 => fn ≤ 2
  | 0x84 => fn ≤ 1
  | 0x90 => fn ≤ 2
  | 0x91 => fn ≤ 2
  | 0x92 => fn ≤ 7
  | 0xa0 => fn ≤ 1
  | 0xa8 => fn ≤ 4
  | 0xa9 => fn ≤ 1
  | 0xb0 => fn ≤ 2
  | 0xb8 => fn ≤ 4
  | _ => false

/-- What step 4 of R44 checks of decoded values: immediates, indices and codes outside the limits of the form. -/
def Instr.inLimits : Instr → Bool
  | .mtsr _ _ imm => imm.writable
  | .spawnAt _ _ _ _ c => decide (c.toNat ≤ 60)
  | .spawnQ _ _ _ _ c => decide (c.toNat ≤ 60)
  | .divImm _ _ _ imm => decide (imm.toNat ≠ 0)
  | .divnImm _ _ _ imm => decide (imm.toNat ≠ 0)
  | .remImm _ _ _ imm => decide (imm.toNat ≠ 0)
  | .remnImm _ _ _ imm => decide (imm.toNat ≠ 0)
  | .shlImm _ _ _ imm => decide (imm.toNat ≤ 63)
  | .shrImm _ _ _ imm => decide (imm.toNat ≤ 63)
  | .sarImm _ _ _ imm => decide (imm.toNat ≤ 63)
  | .rolImm _ _ _ imm => decide (imm.toNat ≤ 63)
  | .ext _ pos lenm1 _ _ => decide (pos.toNat + lenm1.toNat + 1 ≤ 64)
  | .extn _ pos lenm1 _ _ => decide (pos.toNat + lenm1.toNat + 1 ≤ 64)
  | .ins _ pos lenm1 _ _ => decide (pos.toNat + lenm1.toNat + 1 ≤ 64)
  | .vquant _ t pos _ _ _ => decide (pos.toNat ≤ t.lastGroup)
  | .vdequant _ t pos _ _ => decide (pos.toNat ≤ t.lastGroup)
  | .vbaddq _ _ pos _ _ _ => decide (pos.toNat = 0)
  | .vred _ t _ rop _ _ _ => decide (t.isInt = false ∨ rop.isNum = false)
  | .vscan _ t _ rop _ _ _ => decide (t.isInt = false ∨ rop.isNum = false)
  | .pmerge _ _ _ _ d a b => decide (d.toNat % 2 = 0 ∧ a.toNat % 2 = 0 ∧ b.toNat % 2 = 0)
  | .chBindreg _ _ r => r.ok
  | .rcBind _ n _ _ => decide (n.toNat ≤ 16)
  | .barArm _ n _ _ => decide (n.toNat < 96)
  | .barArrive _ n => decide (n.toNat < 96)
  | .barWait _ n => decide (n.toNat < 96)
  | .barSync _ n => decide (n.toNat < 96)
  | .barDisarm _ n => decide (n.toNat < 96)
  | .gpref _ _ sc _ _ => decide (sc = .slot)
  | .fence _ _ eR eW lR lW => (eR || eW) && (lR || lW)
  | .fenceEng _ _ inn out => inn || out
  | .calWait _ _ _ _ d => decide (d.toNat ≤ 61)
  | .cause _ _ _ d => decide (d.toNat ≤ 61)
  | _ => true

/-- What steps 3 and 4 of R44 check of the coded fields: types, sizes, orders, masks, message types and the fields
that other fields make must-be-zero. -/
def Instr.fieldsOk : Instr → Bool
  | .vadd _ t _ m _ _ _ => t.isFp && m.ok
  | .vsub _ t _ m _ _ _ => t.isFp && m.ok
  | .vmul _ t _ m _ _ _ => t.isFp && m.ok
  | .vfma _ t _ m _ _ _ _ => t.isFp && m.ok
  | .vfms _ t _ m _ _ _ _ => t.isFp && m.ok
  | .vfnma _ t _ m _ _ _ _ => t.isFp && m.ok
  | .vdiv _ t _ m _ _ _ => t.isFp && m.ok
  | .vsqrt _ t _ m _ _ => t.isFp && m.ok
  | .vabs _ t m _ _ => t.isFp && m.ok
  | .vneg _ t m _ _ => t.isFp && m.ok
  | .vmin _ t m _ _ _ => t.isFp && m.ok
  | .vmax _ t m _ _ _ => t.isFp && m.ok
  | .vminnum _ t m _ _ _ => t.isFp && m.ok
  | .vmaxnum _ t m _ _ _ => t.isFp && m.ok
  | .vcmp _ t _ m _ _ _ => t.isFp && m.ok
  | .vround _ t _ m _ _ => t.isFp && m.ok
  | .viadd _ t _ m _ _ _ => t.isInt && m.ok
  | .visub _ t _ m _ _ _ => t.isInt && m.ok
  | .vimul _ t m _ _ _ => t.isInt && m.ok
  | .vimulh _ t m _ _ _ => t.isInt && m.ok
  | .vimin _ t m _ _ _ => t.isInt && m.ok
  | .vimax _ t m _ _ _ => t.isInt && m.ok
  | .vand _ t m _ _ _ => t.isInt && m.ok
  | .vor _ t m _ _ _ => t.isInt && m.ok
  | .vxor _ t m _ _ _ => t.isInt && m.ok
  | .vshl _ t m _ _ _ => t.isInt && m.ok
  | .vshr _ t m _ _ _ => t.isInt && m.ok
  | .vsar _ t m _ _ _ => t.isInt && m.ok
  | .vicmp _ t _ m _ _ _ => t.isInt && m.ok
  | .vmov _ t m _ _ => t.isPlain && m.ok
  | .vbcast _ t m _ _ => t.isPlain && m.ok
  | .vsel _ t _ _ _ _ => t.isPlain
  | .vperm _ t m _ _ _ => t.isPlain && m.ok
  | .vextr _ t _ _ _ => t.isPlain
  | .vins _ t _ _ _ => t.isPlain
  | .viota _ t m _ => t.isPlain && m.ok
  | .vcompress _ t _ _ _ => t.isPlain
  | .vcvt _ t _ src hi m _ _ => t.isPlain && src.isPlain && m.ok && !(decide (t.width = src.width) && hi)
  | .vquant _ t _ tqt _ _ => t.isBlock && !(decide (t ≠ .tq4) && decide (tqt ≠ .int))
  | .vdequant _ t _ _ _ => t.isBlock
  | .vbaddq _ t _ _ _ _ => t.isBlock
  | .vred _ t rm _ _ _ _ => t.isNum && !(t.isInt && decide (rm ≠ .rne))
  | .vscan _ t rm _ m _ _ => t.isNum && m.ok && !(t.isInt && decide (rm ≠ .rne))
  | .pmerge _ t _ m _ _ _ => t.isF3264 && m.ok
  | .vdot _ t _ _ _ _ _ => t.isFp
  | .vexp2 _ t _ m _ _ => t.isFp && m.ok
  | .vlog2 _ t _ m _ _ => t.isFp && m.ok
  | .vrcp _ t _ m _ _ => t.isFp && m.ok
  | .vrsq _ t _ m _ _ => t.isFp && m.ok
  | .vsin _ t _ m _ _ => t.isFp && m.ok
  | .vcos _ t _ m _ _ => t.isFp && m.ok
  | .vtanh _ t _ m _ _ => t.isFp && m.ok
  | .xaRnd _ t _ _ _ => t.isF3264
  | .send _ _ mt _ _ _ _ _ => decide (mt ≠ 63)
  | .sendv _ _ mt _ _ _ _ _ => decide (mt ≠ 63)
  | .recv _ _ mt _ len d _ => decide (mt ≠ 63) && !(decide (len = 0) && decide (d ≠ 0))
  | .recvv _ _ mt _ _ _ _ => decide (mt ≠ 63)
  | .ld _ sz _ ord _ _ _ _ => sz.isScalar && ord.isLd
  | .st _ sz _ ord _ _ _ => sz.isScalar && ord.isSt
  | .ldv _ _ ord _ _ _ => ord.isLd
  | .stv _ _ ord _ _ _ => ord.isSt
  | .ldSync _ _ ord _ _ _ _ => ord.isLd
  | .stFill _ _ ord _ _ _ _ => ord.isSt
  | .stReset _ _ ord _ _ _ => ord.isSt
  | .ldvSync _ _ ord _ _ _ _ => ord.isLd
  | .gld _ sz _ ord _ _ _ _ => sz.isScalar && ord.isGld
  | .gst _ sz _ ord _ _ _ => sz.isScalar && ord.isGst
  | .gldv _ sz _ ord _ _ _ => sz.isVec && ord.isGld
  | .gstv _ sz _ ord _ _ _ => sz.isVec && ord.isGst
  | .atom _ sz _ _ _ _ _ _ _ => sz.isAtomic
  | .cas _ sz _ _ _ _ _ _ _ => sz.isAtomic
  | .atomDet _ sz _ _ _ _ _ _ _ => sz.isAtomic
  | .cpPush _ sync rsem rsv _ _ _ _ => sync.ok && !(!rsv && decide (rsem ≠ 0))
  | .cpFill _ sync _ _ => sync.ok
  | .cpPullreq _ sync rsem rsv _ _ => sync.ok && !(!rsv && decide (rsem ≠ 0))
  | .mxLds _ sync _ => sync.ok
  | .mxSwap _ sync => sync.ok
  | .mxStream _ sync _ _ _ => sync.ok
  | .mxConv _ sync _ _ _ _ => sync.ok
  | .mxDrainV _ sync _ _ _ _ _ => sync.ok
  | .mxDrainD _ sync _ _ _ _ _ => sync.ok
  | .mxClr _ sync _ _ _ _ => sync.ok
  | .mxUprog _ sync on _ b => sync.ok && !(!on && decide (b ≠ 0))
  | .xchSend _ sync rsem rsv _ _ _ => sync.ok && !(!rsv && decide (rsem ≠ 0))
  | .kpop _ t _ _ => t.isNum
  | .kset _ t _ _ _ => t.isNum
  | .illegalInstruction w => !assigned (w.extractLsb' 88 8).toNat (w.extractLsb' 82 6).toNat
  | _ => true

/-- A well-formed instruction: one that the issue checks of steps 2 to 4 let pass, or a word of an unassigned cell. -/
def Instr.wellFormed (i : Instr) : Bool := i.fieldsOk && i.inLimits

end Sys2Proof
end

