-- ==== Sys2Proof/Decode.lean ====
section
/-! DEFINITION. Decoding of instruction words into forms (R43 to R59), total, refusing by name, and the encoder. -/

namespace Sys2Proof

/-- Why a word is refused at step 3 or step 4 of R44. -/
inductive DecErr | reservedField | illegalOperand
  deriving DecidableEq, Repr

/-- A decoded field: its value, or the step of R44 that refuses it. -/
inductive Fld (α : Type) | ok (a : α) | ill | rsv
  deriving DecidableEq, Repr

/-- Applies the constructor decoded so far to one more field; step 3 wins over step 4 (R44). -/
def Fld.ap {α β : Type} (f : Fld (α → β)) (x : Fld α) : Fld β :=
  match f, x with
  | .rsv, _ => .rsv
  | .ok _, .rsv => .rsv
  | .ill, .rsv => .rsv
  | .ok g, .ok a => .ok (g a)
  | .ok _, .ill => .ill
  | .ill, .ok _ => .ill
  | .ill, .ill => .ill

/-- Keeps what is decoded so far when a field with no operand of its own is right. -/
def Fld.chk {α : Type} (f : Fld α) (x : Fld Unit) : Fld α :=
  match f, x with
  | .rsv, _ => .rsv
  | _, .rsv => .rsv
  | .ill, _ => .ill
  | .ok _, .ill => .ill
  | .ok a, .ok _ => .ok a

/-- A must-be-zero condition: reserved_field when it fails (R44, step 3). -/
def Fld.mz {α : Type} (f : Fld α) (zero : Bool) : Fld α := if zero then f else .rsv

/-- Limits of the form: illegal_operand when they fail (R44, step 4). -/
def Fld.lim (f : Fld Instr) : Fld Instr :=
  match f with
  | .ok i => if i.inLimits then .ok i else .ill
  | .ill => .ill
  | .rsv => .rsv

/-- The common fields of an instruction word (R43). -/
structure Raw where
  op : BitVec 8
  fn : BitVec 6
  h : Hdr
  d : BitVec 8
  a : BitVec 8
  b : BitVec 8
  x : BitVec 48
  deriving DecidableEq, Repr

/-- Lays the fields out in a word (R43). -/
def Raw.pack (r : Raw) : IWord :=
  r.op ++ r.fn ++ r.h.g ++ BitVec.ofBool r.h.gn ++ r.h.hl ++ r.h.hq ++ r.d ++ r.a ++ r.b ++ r.x

/-- Takes the fields out of a word (R43). -/
def Raw.unpack (w : IWord) : Raw where
  op := w.extractLsb' 88 8
  fn := w.extractLsb' 82 6
  h := { g := w.extractLsb' 79 3, gn := w.getLsbD 78, hl := w.extractLsb' 76 2, hq := w.extractLsb' 72 4 }
  d := w.extractLsb' 64 8
  a := w.extractLsb' 56 8
  b := w.extractLsb' 48 8
  x := w.extractLsb' 0 48

/-- A field of X. -/
def xf (r : Raw) (lo n : Nat) : BitVec n := r.x.extractLsb' lo n
/-- A bit of X. -/
def extBit (r : Raw) (i : Nat) : Bool := r.x.getLsbD i

/-! ### Codes of the coded fields -/

/-- Codes of the fields, and back: none for a reserved code. -/
def Rm.code : Rm → Nat
  | .rne => 0 | .rtz => 1 | .rup => 2 | .rdn => 3 | .rna => 4 | .sr => 5 | .dyn => 6
/-- The value of a code of Rm. -/
def Rm.ofCode : Nat → Option Rm
  | 0 => some .rne | 1 => some .rtz | 2 => some .rup | 3 => some .rdn | 4 => some .rna | 5 => some .sr | 6 => some .dyn | _ => none

/-- Codes of Sz. -/
def Sz.code : Sz → Nat
  | .b1 => 0 | .b2 => 1 | .b4 => 2 | .b8 => 3 | .b16 => 4 | .b32 => 5 | .b256 => 6
/-- The value of a code of Sz. -/
def Sz.ofCode : Nat → Option Sz
  | 0 => some .b1 | 1 => some .b2 | 2 => some .b4 | 3 => some .b8 | 4 => some .b16 | 5 => some .b32 | 6 => some .b256 | _ => none

/-- Codes of Scope. -/
def Scope.code : Scope → Nat
  | .slot => 0 | .tile => 1 | .pkg => 2 | .dom => 3
/-- The value of a code of Scope. -/
def Scope.ofCode : Nat → Option Scope
  | 0 => some .slot | 1 => some .tile | 2 => some .pkg | 3 => some .dom | _ => none

/-- Codes of Ord. -/
def Ord.code : Ord → Nat
  | .rlx => 0 | .acq => 1 | .rel => 2 | .acqrel => 3 | .sc => 4
/-- The value of a code of Ord. -/
def Ord.ofCode : Nat → Option Ord
  | 0 => some .rlx | 1 => some .acq | 2 => some .rel | 3 => some .acqrel | 4 => some .sc | _ => none

/-- Codes of Cond. -/
def Cond.code : Cond → Nat
  | .eq => 0 | .ne => 1 | .lt => 2 | .le => 3 | .ltn => 4 | .len => 5
/-- The value of a code of Cond. -/
def Cond.ofCode : Nat → Option Cond
  | 0 => some .eq | 1 => some .ne | 2 => some .lt | 3 => some .le | 4 => some .ltn | 5 => some .len | _ => none

/-- Codes of FCond. -/
def FCond.code : FCond → Nat
  | .eq => 0 | .ne => 1 | .lt => 2 | .le => 3 | .gt => 4 | .ge => 5 | .un => 6
/-- The value of a code of FCond. -/
def FCond.ofCode : Nat → Option FCond
  | 0 => some .eq | 1 => some .ne | 2 => some .lt | 3 => some .le | 4 => some .gt | 5 => some .ge | 6 => some .un | _ => none

/-- Codes of ICond. -/
def ICond.code : ICond → Nat
  | .eq => 0 | .ne => 1 | .lt => 2 | .le => 3 | .gt => 4 | .ge => 5
/-- The value of a code of ICond. -/
def ICond.ofCode : Nat → Option ICond
  | 0 => some .eq | 1 => some .ne | 2 => some .lt | 3 => some .le | 4 => some .gt | 5 => some .ge | _ => none

/-- Codes of Rop. -/
def Rop.code : Rop → Nat
  | .add => 0 | .mul => 1 | .min => 2 | .max => 3 | .minnum => 4 | .maxnum => 5
/-- The value of a code of Rop. -/
def Rop.ofCode : Nat → Option Rop
  | 0 => some .add | 1 => some .mul | 2 => some .min | 3 => some .max | 4 => some .minnum | 5 => some .maxnum | _ => none

/-- Codes of XaCond. -/
def XaCond.code : XaCond → Nat
  | .gt => 0 | .lt => 1 | .eq => 2
/-- The value of a code of XaCond. -/
def XaCond.ofCode : Nat → Option XaCond
  | 0 => some .gt | 1 => some .lt | 2 => some .eq | _ => none

/-- Codes of Level. -/
def Level.code : Level → Nat
  | .launch => 0 | .graph => 1 | .phase => 2 | .job => 3
/-- The value of a code of Level. -/
def Level.ofCode : Nat → Option Level
  | 0 => some .launch | 1 => some .graph | 2 => some .phase | 3 => some .job | _ => none

/-- Codes of AOp. -/
def AOp.code : AOp → Nat
  | .add => 0 | .fadd32 => 1 | .fadd64 => 2 | .min => 3 | .max => 4 | .minn => 5 | .maxn => 6 | .and => 7 | .or => 8 | .xor => 9 | .xchg => 10
/-- The value of a code of AOp. -/
def AOp.ofCode : Nat → Option AOp
  | 0 => some .add | 1 => some .fadd32 | 2 => some .fadd64 | 3 => some .min | 4 => some .max | 5 => some .minn | 6 => some .maxn | 7 => some .and | 8 => some .or | 9 => some .xor | 10 => some .xchg | _ => none

/-- Codes of Tqt. -/
def Tqt.code : Tqt → Nat
  | .int => 0 | .e2m1 => 1 | .pow2 => 2 | .hyb => 3
/-- The value of a code of Tqt. -/
def Tqt.ofCode : Nat → Option Tqt
  | 0 => some .int | 1 => some .e2m1 | 2 => some .pow2 | 3 => some .hyb | _ => none

/-- Codes of Vt. -/
def Vt.code : Vt → Nat
  | .f32 => 0 | .f16 => 1 | .bf16 => 2 | .i32 => 3
/-- The value of a code of Vt. -/
def Vt.ofCode : Nat → Option Vt
  | 0 => some .f32 | 1 => some .f16 | 2 => some .bf16 | 3 => some .i32 | _ => none

/-- Codes of TurnW. -/
def TurnW.code : TurnW → Nat
  | .own => 0 | .issued => 1 | .lost => 2
/-- The value of a code of TurnW. -/
def TurnW.ofCode : Nat → Option TurnW
  | 0 => some .own | 1 => some .issued | 2 => some .lost | _ => none

/-- Codes of RcW. -/
def RcW.code : RcW → Nat
  | .state => 0 | .conf => 1 | .count => 2
/-- The value of a code of RcW. -/
def RcW.ofCode : Nat → Option RcW
  | 0 => some .state | 1 => some .conf | 2 => some .count | _ => none

/-- Codes of TlbScope. -/
def TlbScope.code : TlbScope → Nat
  | .tile => 0 | .die => 1 | .pkg => 2 | .dom => 3
/-- The value of a code of TlbScope. -/
def TlbScope.ofCode : Nat → Option TlbScope
  | 0 => some .tile | 1 => some .die | 2 => some .pkg | 3 => some .dom | _ => none

/-- Codes of HeapW. -/
def HeapW.code : HeapW → Nat
  | .used => 0 | .high => 1 | .avail => 2 | .fails => 3
/-- The value of a code of HeapW. -/
def HeapW.ofCode : Nat → Option HeapW
  | 0 => some .used | 1 => some .high | 2 => some .avail | 3 => some .fails | _ => none

/-- Codes of Tr. -/
def Tr.code : Tr → Nat
  | .none => 0 | .tr8 => 1 | .tr16 => 2
/-- The value of a code of Tr. -/
def Tr.ofCode : Nat → Option Tr
  | 0 => some .none | 1 => some .tr8 | 2 => some .tr16 | _ => Option.none

/-- Codes of Fill. -/
def Fill.code : Fill → Nat
  | .zero => 0 | .pmax => 1 | .nmax => 2
/-- The value of a code of Fill. -/
def Fill.ofCode : Nat → Option Fill
  | 0 => some .zero | 1 => some .pmax | 2 => some .nmax | _ => none

/-- Codes of MxW. -/
def MxW.code : MxW → Nat
  | .state => 0 | .over => 1 | .resume => 2
/-- The value of a code of MxW. -/
def MxW.ofCode : Nat → Option MxW
  | 0 => some .state | 1 => some .over | 2 => some .resume | _ => none

/-- Codes of XchW. -/
def XchW.code : XchW → Nat
  | .word => 0 | .granted => 1 | .idle => 2 | .late => 3 | .ungranted => 4 | .stale => 5 | .deflections => 6
/-- The value of a code of XchW. -/
def XchW.ofCode : Nat → Option XchW
  | 0 => some .word | 1 => some .granted | 2 => some .idle | 3 => some .late | 4 => some .ungranted | 5 => some .stale | 6 => some .deflections | _ => none

/-- Codes of RecW. -/
def RecW.code : RecW → Nat
  | .state => 0 | .count => 1 | .free => 2
/-- The value of a code of RecW. -/
def RecW.ofCode : Nat → Option RecW
  | 0 => some .state | 1 => some .count | 2 => some .free | _ => none

/-- Codes of EinjK. -/
def EinjK.code : EinjK → Nat
  | .bit0 => 0 | .bits01 => 1 | .symbol => 2
/-- The value of a code of EinjK. -/
def EinjK.ofCode : Nat → Option EinjK
  | 0 => some .bit0 | 1 => some .bits01 | 2 => some .symbol | _ => none

/-- Codes of SpReg. -/
def SpReg.code : SpReg → Nat
  | .slotid => 0 | .tileid => 1 | .pkgid => 2 | .unitix => 3 | .launchid => 4 | .jobid => 5 | .cycle => 6 | .waitlim => 7 | .rmode => 8 | .fpflags => 9 | .seed => 10 | .trappc => 11 | .cause => 12 | .faultaux => 13 | .faultva => 14 | .handler => 15 | .turntab => 16 | .detmode => 17 | .refwin => 18 | .incarn => 19
/-- The value of a code of SpReg. -/
def SpReg.ofCode : Nat → Option SpReg
  | 0 => some .slotid | 1 => some .tileid | 2 => some .pkgid | 3 => some .unitix | 4 => some .launchid | 5 => some .jobid | 6 => some .cycle | 7 => some .waitlim | 8 => some .rmode | 9 => some .fpflags | 10 => some .seed | 11 => some .trappc | 12 => some .cause | 13 => some .faultaux | 14 => some .faultva | 15 => some .handler | 16 => some .turntab | 17 => some .detmode | 18 => some .refwin | 19 => some .incarn | _ => none

/-! ### Operand specifiers (R48, R49) -/

/-- An s register. -/
def asS (b : BitVec 8) : Fld SIx :=
  match (b.extractLsb' 6 2).toNat with
  | 0 => .ok (b.extractLsb' 0 6)
  | 1 => if (b.extractLsb' 0 6).toNat < 32 then .ill else .rsv
  | 2 => if (b.extractLsb' 0 6).toNat < 16 then .ill else .rsv
  | _ => .ill
/-- A v register. -/
def asV (b : BitVec 8) : Fld VIx :=
  match (b.extractLsb' 6 2).toNat with
  | 1 => if (b.extractLsb' 0 6).toNat < 32 then .ok (b.extractLsb' 0 5) else .rsv
  | 2 => if (b.extractLsb' 0 6).toNat < 16 then .ill else .rsv
  | _ => .ill
/-- A p register. -/
def asP (b : BitVec 8) : Fld PIx :=
  match (b.extractLsb' 6 2).toNat with
  | 1 => if (b.extractLsb' 0 6).toNat < 32 then .ill else .rsv
  | 2 => if (b.extractLsb' 0 6).toNat < 8 then .ok (b.extractLsb' 0 3) else if (b.extractLsb' 0 6).toNat < 16 then .ill else .rsv
  | _ => .ill
/-- A k register. -/
def asK (b : BitVec 8) : Fld KIx :=
  match (b.extractLsb' 6 2).toNat with
  | 1 => if (b.extractLsb' 0 6).toNat < 32 then .ill else .rsv
  | 2 => if (b.extractLsb' 0 6).toNat < 8 then .ill else if (b.extractLsb' 0 6).toNat < 16 then .ok (b.extractLsb' 0 3) else .rsv
  | _ => .ill
/-- A tensor descriptor. -/
def asD (b : BitVec 8) : Fld DIx :=
  match (b.extractLsb' 6 2).toNat with
  | 1 => if (b.extractLsb' 0 6).toNat < 32 then .ill else .rsv
  | 2 => if (b.extractLsb' 0 6).toNat < 16 then .ill else .rsv
  | 3 => .ok (b.extractLsb' 0 6)
  | _ => .ill
/-- Any s, v, p or k register (R132). -/
def asAny (b : BitVec 8) : Fld Reg :=
  match (b.extractLsb' 6 2).toNat with
  | 0 => .ok (.s (b.extractLsb' 0 6))
  | 1 => if (b.extractLsb' 0 6).toNat < 32 then .ok (.v (b.extractLsb' 0 5)) else .rsv
  | 2 => if (b.extractLsb' 0 6).toNat < 8 then .ok (.p (b.extractLsb' 0 3))
         else if (b.extractLsb' 0 6).toNat < 16 then .ok (.k (b.extractLsb' 0 3)) else .rsv
  | _ => .ill
/-- A specifier that must be 0x00 for another field's sake, illegal_operand otherwise (R239). -/
def asZero (b : BitVec 8) : Fld Unit := if b = 0 then .ok () else
  match asAny b with
  | .rsv => .rsv
  | _ => .ill

/-- Specifier of an s register. -/
def encS (i : SIx) : BitVec 8 := 0#2 ++ i
/-- Specifier of a v register. -/
def encV (i : VIx) : BitVec 8 := 1#2 ++ 0#1 ++ i
/-- Specifier of a p register. -/
def encP (i : PIx) : BitVec 8 := 2#2 ++ 0#3 ++ i
/-- Specifier of a k register. -/
def encK (i : KIx) : BitVec 8 := 2#2 ++ 1#3 ++ i
/-- Specifier of a tensor descriptor. -/
def encD (i : DIx) : BitVec 8 := 3#2 ++ i
/-- Specifier of any register. -/
def encReg : Reg → BitVec 8
  | .s i => encS i
  | .v i => encV i
  | .k i => encK i
  | .p i => encP i
/-- Destination specifier of PMOV. -/
def PmovOps.encD : PmovOps → BitVec 8
  | .pp d _ => encP d
  | .ps d _ => encP d
  | .sp d _ => encS d
/-- Source specifier of PMOV. -/
def PmovOps.encA : PmovOps → BitVec 8
  | .pp _ a => encP a
  | .ps _ a => encS a
  | .sp _ a => encP a
/-- Destination specifier of CH.BINDREG. -/
def encBind : BindDst → BitVec 8
  | .none => 0
  | .s i => encS i
  | .v i => encV i

/-- The operands of PMOV: a predicate on at least one side (R131). -/
def asPmov (r : Raw) : Fld PmovOps :=
  match asAny r.d, asAny r.a with
  | .rsv, _ => .rsv
  | _, .rsv => .rsv
  | .ok (.p d), .ok (.p a) => .ok (.pp d a)
  | .ok (.p d), .ok (.s a) => .ok (.ps d a)
  | .ok (.s d), .ok (.p a) => .ok (.sp d a)
  | _, _ => .ill
/-- The register of CH.BINDREG; 0x00 ends the binding (R179). -/
def asBind (b : BitVec 8) : Fld BindDst :=
  if b = 0 then .ok .none else
  match asAny b with
  | .ok (.s i) => .ok (.s i)
  | .ok (.v i) => .ok (.v i)
  | .rsv => .rsv
  | _ => .ill

/-! ### Coded fields -/

/-- A coded field whose unnamed codes are reserved. -/
def asCode {α : Type} (f : Nat → Option α) (n : Nat) : Fld α :=
  match f n with
  | some a => .ok a
  | none => .rsv
/-- A coded field of which the form accepts some codes (R16, R53). -/
def asCodeOf {α : Type} (f : Nat → Option α) (acc : α → Bool) (n : Nat) : Fld α :=
  match f n with
  | some a => if acc a then .ok a else .ill
  | none => .rsv
/-- A coded field of which the form accepts one code. -/
def asCodeIs {α : Type} [DecidableEq α] (f : Nat → Option α) (v : α) (n : Nat) : Fld Unit :=
  match f n with
  | some a => if a = v then .ok () else .ill
  | none => .rsv
/-- T of a form that accepts some types (R16). -/
def asTy (acc : Ty → Bool) (n : Nat) : Fld Ty := asCodeOf Ty.ofCode acc n
/-- T of a form that accepts one type. -/
def asTyIs (t : Ty) (n : Nat) : Fld Unit := asCodeIs Ty.ofCode t n
/-- SZ of a form that accepts some sizes (R53). -/
def asSz (acc : Sz → Bool) (n : Nat) : Fld Sz := asCodeOf Sz.ofCode acc n
/-- SZ of a form that accepts one size. -/
def asSzIs (z : Sz) (n : Nat) : Fld Unit := asCodeIs Sz.ofCode z n
/-- OR of a form that accepts some orders (R53). -/
def asOrd (acc : Ord → Bool) (n : Nat) : Fld Ord := asCodeOf Ord.ofCode acc n
/-- OR of a form that accepts one order. -/
def asOrdIs (o : Ord) (n : Nat) : Fld Unit := asCodeIs Ord.ofCode o n
/-- K and Z (R51). -/
def asMask (r : Raw) : Fld VMask :=
  if VMask.ok ⟨xf r 29 3, extBit r 28⟩ then .ok ⟨xf r 29 3, extBit r 28⟩ else .rsv
/-- The wait and signal fields (R54). -/
def asSync (r : Raw) : Fld ESync :=
  if ESync.ok ⟨xf r 40 8, xf r 32 8, xf r 24 8, xf r 16 8⟩ then .ok ⟨xf r 40 8, xf r 32 8, xf r 24 8, xf r 16 8⟩ else .rsv
/-- MT of the source forms: 63 is reserved (R55). -/
def asMt (m : BitVec 6) : Fld (BitVec 6) := if m = 63 then .rsv else .ok m
/-- MT of CH.DELEG and CH.ADOPT (R181). -/
def asMt63 (m : BitVec 6) : Fld Unit := if m = 63 then .ok () else .rsv
/-- A one-bit field. -/
def asB (r : Raw) (i : Nat) : Fld Bool := .ok (extBit r i)
/-- An immediate of 0 to 65535 (R94, R129). -/
def asU16 (r : Raw) : Fld (BitVec 16) := if xf r 16 32 = 0 then .ok (xf r 0 16) else .ill
/-- A special register number; above 19 illegal_operand (R44). -/
def asSpReg (r : Raw) : Fld SpReg :=
  match SpReg.ofCode r.x.toNat with
  | some p => .ok p
  | none => .ill
/-- RM in an integer reduction (R143). -/
def intRmBad (r : Raw) : Bool := decide ((xf r 35 5).toNat < 8) && decide (xf r 32 3 ≠ 0)
/-- HI in a VCVT of equal widths (R141). -/
def vcvtBad (r : Raw) : Bool :=
  match Ty.ofCode (xf r 35 5).toNat, Ty.ofCode (xf r 0 5).toNat with
  | some t, some u => decide (t.width = u.width) && extBit r 5
  | _, _ => false
/-- TQT outside VQUANT of tq4 (R142). -/
def vquantBad (r : Raw) : Bool := decide ((xf r 35 5).toNat ≠ Ty.tq4.code) && decide (xf r 4 2 ≠ 0)
/-- RSV = 0 with RSEM not 0 (R271). -/
def rsemBad (r : Raw) : Bool := !extBit r 8 && decide (xf r 0 8 ≠ 0)

/-! ### The forms, one function per major opcode (R58) -/

/-- Forms of OP 0x01 (R58). -/
def decode01 (r : Raw) : Option (Fld Instr) :=
  match r.fn.toNat with
  | 0 => some (Fld.ok (Instr.br r.h) |>.ap (.ok r.x) |>.mz (r.d = 0) |>.mz (r.a = 0) |>.mz (r.b = 0) |>.lim)
  | 1 => some (Fld.ok (Instr.bri r.h) |>.ap (asS r.a) |>.mz (xf r 0 48 = 0) |>.mz (r.d = 0) |>.mz (r.b = 0) |>.lim)
  | 2 => some (Fld.ok (Instr.call r.h) |>.ap (asS r.d) |>.ap (.ok r.x) |>.mz (r.a = 0) |>.mz (r.b = 0) |>.lim)
  | 3 => some (Fld.ok (Instr.calli r.h) |>.ap (asS r.d) |>.ap (asS r.a) |>.mz (xf r 0 48 = 0) |>.mz (r.b = 0) |>.lim)
  | 4 => some (Fld.ok (Instr.ret r.h) |>.ap (asS r.a) |>.mz (xf r 0 48 = 0) |>.mz (r.d = 0) |>.mz (r.b = 0) |>.lim)
  | 5 => some (Fld.ok (Instr.loop r.h) |>.ap (asS r.d) |>.ap (.ok r.x) |>.mz (r.a = 0) |>.mz (r.b = 0) |>.lim)
  | _ => none

/-- Forms of OP 0x02 (R58). -/
def decode02 (r : Raw) : Option (Fld Instr) :=
  match r.fn.toNat with
  | 0 => some (Fld.ok (Instr.exit r.h) |>.mz (xf r 0 48 = 0) |>.mz (r.d = 0) |>.mz (r.a = 0) |>.mz (r.b = 0) |>.lim)
  | 1 => some (Fld.ok (Instr.yield r.h) |>.mz (xf r 0 48 = 0) |>.mz (r.d = 0) |>.mz (r.a = 0) |>.mz (r.b = 0) |>.lim)
  | 2 => some (Fld.ok (Instr.park r.h) |>.mz (xf r 0 48 = 0) |>.mz (r.d = 0) |>.mz (r.a = 0) |>.mz (r.b = 0) |>.lim)
  | 3 => some (Fld.ok (Instr.nop r.h) |>.mz (xf r 0 48 = 0) |>.mz (r.d = 0) |>.mz (r.a = 0) |>.mz (r.b = 0) |>.lim)
  | 4 => some (Fld.ok (Instr.sleepr r.h) |>.ap (asU16 r) |>.mz (r.d = 0) |>.mz (r.a = 0) |>.mz (r.b = 0) |>.lim)
  | 5 => some (Fld.ok (Instr.mfsr r.h) |>.ap (asS r.d) |>.ap (asSpReg r) |>.mz (r.a = 0) |>.mz (r.b = 0) |>.lim)
  | 6 => some (Fld.ok (Instr.mtsr r.h) |>.ap (asS r.a) |>.ap (asSpReg r) |>.mz (r.d = 0) |>.mz (r.b = 0) |>.lim)
  | _ => none

/-- Forms of OP 0x03 (R58). -/
def decode03 (r : Raw) : Option (Fld Instr) :=
  match r.fn.toNat with
  | 0 => some (Fld.ok (Instr.spawnAt r.h) |>.ap (asS r.d) |>.ap (asS r.a) |>.ap (asS r.b) |>.ap (asS (xf r 40 8)) |>.mz (xf r 0 40 = 0) |>.lim)
  | 1 => some (Fld.ok (Instr.spawnRet r.h) |>.ap (asS r.a) |>.mz (xf r 0 48 = 0) |>.mz (r.d = 0) |>.mz (r.b = 0) |>.lim)
  | 2 => some (Fld.ok (Instr.spawnQ r.h) |>.ap (asP r.d) |>.ap (asS r.a) |>.ap (asS r.b) |>.ap (asS (xf r 40 8)) |>.mz (xf r 0 40 = 0) |>.lim)
  | _ => none

/-- Forms of OP 0x04 (R58). -/
def decode04 (r : Raw) : Option (Fld Instr) :=
  match r.fn.toNat with
  | 0 => some (Fld.ok (Instr.launch r.h) |>.ap (asS r.d) |>.ap (asS r.a) |>.mz (xf r 0 48 = 0) |>.mz (r.b = 0) |>.lim)
  | 1 => some (Fld.ok (Instr.graphOpen r.h) |>.ap (asS r.d) |>.mz (xf r 0 48 = 0) |>.mz (r.a = 0) |>.mz (r.b = 0) |>.lim)
  | 2 => some (Fld.ok (Instr.graphAdd r.h) |>.ap (asS r.d) |>.ap (asS r.a) |>.ap (asS r.b) |>.mz (xf r 0 48 = 0) |>.lim)
  | 3 => some (Fld.ok (Instr.graphEdge r.h) |>.ap (asS r.a) |>.ap (asS r.b) |>.ap (asS (xf r 40 8)) |>.mz (xf r 0 40 = 0) |>.mz (r.d = 0) |>.lim)
  | 4 => some (Fld.ok (Instr.graphSubmit r.h) |>.ap (asS r.a) |>.mz (xf r 0 48 = 0) |>.mz (r.d = 0) |>.mz (r.b = 0) |>.lim)
  | 5 => some (Fld.ok (Instr.doneWait r.h) |>.ap (asCode Level.ofCode (xf r 0 2).toNat) |>.ap (asB r 2) |>.ap (asS r.d) |>.ap (asS r.a) |>.mz (xf r 3 45 = 0) |>.mz (r.b = 0) |>.lim)
  | 6 => some (Fld.ok (Instr.cancel r.h) |>.ap (asCode Level.ofCode (xf r 0 2).toNat) |>.ap (asS r.a) |>.mz (xf r 2 46 = 0) |>.mz (r.d = 0) |>.mz (r.b = 0) |>.lim)
  | 7 => some (Fld.ok (Instr.phaseEnter r.h) |>.ap (asS r.d) |>.ap (asS r.a) |>.mz (xf r 0 48 = 0) |>.mz (r.b = 0) |>.lim)
  | 8 => some (Fld.ok (Instr.phaseLeave r.h) |>.ap (asS r.d) |>.mz (xf r 0 48 = 0) |>.mz (r.a = 0) |>.mz (r.b = 0) |>.lim)
  | _ => none

/-- Forms of OP 0x10 (R58). -/
def decode10 (r : Raw) : Option (Fld Instr) :=
  match r.fn.toNat with
  | 0 => some (Fld.ok (Instr.add r.h) |>.ap (asS r.d) |>.ap (asS r.a) |>.ap (asS r.b) |>.mz (xf r 0 48 = 0) |>.lim)
  | 1 => some (Fld.ok (Instr.sub r.h) |>.ap (asS r.d) |>.ap (asS r.a) |>.ap (asS r.b) |>.mz (xf r 0 48 = 0) |>.lim)
  | 2 => some (Fld.ok (Instr.mul r.h) |>.ap (asS r.d) |>.ap (asS r.a) |>.ap (asS r.b) |>.mz (xf r 0 48 = 0) |>.lim)
  | 3 => some (Fld.ok (Instr.mulh r.h) |>.ap (asS r.d) |>.ap (asS r.a) |>.ap (asS r.b) |>.mz (xf r 0 48 = 0) |>.lim)
  | 4 => some (Fld.ok (Instr.mulhn r.h) |>.ap (asS r.d) |>.ap (asS r.a) |>.ap (asS r.b) |>.mz (xf r 0 48 = 0) |>.lim)
  | 5 => some (Fld.ok (Instr.div r.h) |>.ap (asS r.d) |>.ap (asS r.a) |>.ap (asS r.b) |>.mz (xf r 0 48 = 0) |>.lim)
  | 6 => some (Fld.ok (Instr.divn r.h) |>.ap (asS r.d) |>.ap (asS r.a) |>.ap (asS r.b) |>.mz (xf r 0 48 = 0) |>.lim)
  | 7 => some (Fld.ok (Instr.rem r.h) |>.ap (asS r.d) |>.ap (asS r.a) |>.ap (asS r.b) |>.mz (xf r 0 48 = 0) |>.lim)
  | 8 => some (Fld.ok (Instr.remn r.h) |>.ap (asS r.d) |>.ap (asS r.a) |>.ap (asS r.b) |>.mz (xf r 0 48 = 0) |>.lim)
  | 9 => some (Fld.ok (Instr.and r.h) |>.ap (asS r.d) |>.ap (asS r.a) |>.ap (asS r.b) |>.mz (xf r 0 48 = 0) |>.lim)
  | 10 => some (Fld.ok (Instr.or r.h) |>.ap (asS r.d) |>.ap (asS r.a) |>.ap (asS r.b) |>.mz (xf r 0 48 = 0) |>.lim)
  | 11 => some (Fld.ok (Instr.xor r.h) |>.ap (asS r.d) |>.ap (asS r.a) |>.ap (asS r.b) |>.mz (xf r 0 48 = 0) |>.lim)
  | 12 => some (Fld.ok (Instr.andn r.h) |>.ap (asS r.d) |>.ap (asS r.a) |>.ap (asS r.b) |>.mz (xf r 0 48 = 0) |>.lim)
  | 13 => some (Fld.ok (Instr.shl r.h) |>.ap (asS r.d) |>.ap (asS r.a) |>.ap (asS r.b) |>.mz (xf r 0 48 = 0) |>.lim)
  | 14 => some (Fld.ok (Instr.shr r.h) |>.ap (asS r.d) |>.ap (asS r.a) |>.ap (asS r.b) |>.mz (xf r 0 48 = 0) |>.lim)
  | 15 => some (Fld.ok (Instr.sar r.h) |>.ap (asS r.d) |>.ap (asS r.a) |>.ap (asS r.b) |>.mz (xf r 0 48 = 0) |>.lim)
  | 16 => some (Fld.ok (Instr.rol r.h) |>.ap (asS r.d) |>.ap (asS r.a) |>.ap (asS r.b) |>.mz (xf r 0 48 = 0) |>.lim)
  | 17 => some (Fld.ok (Instr.min r.h) |>.ap (asS r.d) |>.ap (asS r.a) |>.ap (asS r.b) |>.mz (xf r 0 48 = 0) |>.lim)
  | 18 => some (Fld.ok (Instr.max r.h) |>.ap (asS r.d) |>.ap (asS r.a) |>.ap (asS r.b) |>.mz (xf r 0 48 = 0) |>.lim)
  | 19 => some (Fld.ok (Instr.minn r.h) |>.ap (asS r.d) |>.ap (asS r.a) |>.ap (asS r.b) |>.mz (xf r 0 48 = 0) |>.lim)
  | 20 => some (Fld.ok (Instr.maxn r.h) |>.ap (asS r.d) |>.ap (asS r.a) |>.ap (asS r.b) |>.mz (xf r 0 48 = 0) |>.lim)
  | 21 => some (Fld.ok (Instr.addsat r.h) |>.ap (asS r.d) |>.ap (asS r.a) |>.ap (asS r.b) |>.mz (xf r 0 48 = 0) |>.lim)
  | _ => none

/-- Forms of OP 0x11 (R58). -/
def decode11 (r : Raw) : Option (Fld Instr) :=
  match r.fn.toNat with
  | 0 => some (Fld.ok (Instr.addImm r.h) |>.ap (asS r.d) |>.ap (asS r.a) |>.ap (.ok r.x) |>.mz (r.b = 0) |>.lim)
  | 1 => some (Fld.ok (Instr.subImm r.h) |>.ap (asS r.d) |>.ap (asS r.a) |>.ap (.ok r.x) |>.mz (r.b = 0) |>.lim)
  | 2 => some (Fld.ok (Instr.mulImm r.h) |>.ap (asS r.d) |>.ap (asS r.a) |>.ap (.ok r.x) |>.mz (r.b = 0) |>.lim)
  | 3 => some (Fld.ok (Instr.mulhImm r.h) |>.ap (asS r.d) |>.ap (asS r.a) |>.ap (.ok r.x) |>.mz (r.b = 0) |>.lim)
  | 4 => some (Fld.ok (Instr.mulhnImm r.h) |>.ap (asS r.d) |>.ap (asS r.a) |>.ap (.ok r.x) |>.mz (r.b = 0) |>.lim)
  | 5 => some (Fld.ok (Instr.divImm r.h) |>.ap (asS r.d) |>.ap (asS r.a) |>.ap (.ok r.x) |>.mz (r.b = 0) |>.lim)
  | 6 => some (Fld.ok (Instr.divnImm r.h) |>.ap (asS r.d) |>.ap (asS r.a) |>.ap (.ok r.x) |>.mz (r.b = 0) |>.lim)
  | 7 => some (Fld.ok (Instr.remImm r.h) |>.ap (asS r.d) |>.ap (asS r.a) |>.ap (.ok r.x) |>.mz (r.b = 0) |>.lim)
  | 8 => some (Fld.ok (Instr.remnImm r.h) |>.ap (asS r.d) |>.ap (asS r.a) |>.ap (.ok r.x) |>.mz (r.b = 0) |>.lim)
  | 9 => some (Fld.ok (Instr.andImm r.h) |>.ap (asS r.d) |>.ap (asS r.a) |>.ap (.ok r.x) |>.mz (r.b = 0) |>.lim)
  | 10 => some (Fld.ok (Instr.orImm r.h) |>.ap (asS r.d) |>.ap (asS r.a) |>.ap (.ok r.x) |>.mz (r.b = 0) |>.lim)
  | 11 => some (Fld.ok (Instr.xorImm r.h) |>.ap (asS r.d) |>.ap (asS r.a) |>.ap (.ok r.x) |>.mz (r.b = 0) |>.lim)
  | 12 => some (Fld.ok (Instr.andnImm r.h) |>.ap (asS r.d) |>.ap (asS r.a) |>.ap (.ok r.x) |>.mz (r.b = 0) |>.lim)
  | 13 => some (Fld.ok (Instr.shlImm r.h) |>.ap (asS r.d) |>.ap (asS r.a) |>.ap (.ok r.x) |>.mz (r.b = 0) |>.lim)
  | 14 => some (Fld.ok (Instr.shrImm r.h) |>.ap (asS r.d) |>.ap (asS r.a) |>.ap (.ok r.x) |>.mz (r.b = 0) |>.lim)
  | 15 => some (Fld.ok (Instr.sarImm r.h) |>.ap (asS r.d) |>.ap (asS r.a) |>.ap (.ok r.x) |>.mz (r.b = 0) |>.lim)
  | 16 => some (Fld.ok (Instr.rolImm r.h) |>.ap (asS r.d) |>.ap (asS r.a) |>.ap (.ok r.x) |>.mz (r.b = 0) |>.lim)
  | 17 => some (Fld.ok (Instr.minImm r.h) |>.ap (asS r.d) |>.ap (asS r.a) |>.ap (.ok r.x) |>.mz (r.b = 0) |>.lim)
  | 18 => some (Fld.ok (Instr.maxImm r.h) |>.ap (asS r.d) |>.ap (asS r.a) |>.ap (.ok r.x) |>.mz (r.b = 0) |>.lim)
  | 19 => some (Fld.ok (Instr.minnImm r.h) |>.ap (asS r.d) |>.ap (asS r.a) |>.ap (.ok r.x) |>.mz (r.b = 0) |>.lim)
  | 20 => some (Fld.ok (Instr.maxnImm r.h) |>.ap (asS r.d) |>.ap (asS r.a) |>.ap (.ok r.x) |>.mz (r.b = 0) |>.lim)
  | 21 => some (Fld.ok (Instr.addsatImm r.h) |>.ap (asS r.d) |>.ap (asS r.a) |>.ap (.ok r.x) |>.mz (r.b = 0) |>.lim)
  | _ => none

/-- Forms of OP 0x12 (R58). -/
def decode12 (r : Raw) : Option (Fld Instr) :=
  match r.fn.toNat with
  | 0 => some (Fld.ok (Instr.clz r.h) |>.ap (asS r.d) |>.ap (asS r.a) |>.mz (xf r 0 48 = 0) |>.mz (r.b = 0) |>.lim)
  | 1 => some (Fld.ok (Instr.ctz r.h) |>.ap (asS r.d) |>.ap (asS r.a) |>.mz (xf r 0 48 = 0) |>.mz (r.b = 0) |>.lim)
  | 2 => some (Fld.ok (Instr.popc r.h) |>.ap (asS r.d) |>.ap (asS r.a) |>.mz (xf r 0 48 = 0) |>.mz (r.b = 0) |>.lim)
  | 3 => some (Fld.ok (Instr.brev r.h) |>.ap (asS r.d) |>.ap (asS r.a) |>.mz (xf r 0 48 = 0) |>.mz (r.b = 0) |>.lim)
  | 4 => some (Fld.ok (Instr.ext r.h) |>.ap (.ok (xf r 6 6)) |>.ap (.ok (xf r 0 6)) |>.ap (asS r.d) |>.ap (asS r.a) |>.mz (xf r 12 36 = 0) |>.mz (r.b = 0) |>.lim)
  | 5 => some (Fld.ok (Instr.extn r.h) |>.ap (.ok (xf r 6 6)) |>.ap (.ok (xf r 0 6)) |>.ap (asS r.d) |>.ap (asS r.a) |>.mz (xf r 12 36 = 0) |>.mz (r.b = 0) |>.lim)
  | 6 => some (Fld.ok (Instr.ins r.h) |>.ap (.ok (xf r 6 6)) |>.ap (.ok (xf r 0 6)) |>.ap (asS r.d) |>.ap (asS r.a) |>.mz (xf r 12 36 = 0) |>.mz (r.b = 0) |>.lim)
  | 7 => some (Fld.ok (Instr.bswap r.h) |>.ap (asS r.d) |>.ap (asS r.a) |>.mz (xf r 0 48 = 0) |>.mz (r.b = 0) |>.lim)
  | _ => none

/-- Forms of OP 0x13 (R58). -/
def decode13 (r : Raw) : Option (Fld Instr) :=
  match r.fn.toNat with
  | 0 => some (Fld.ok (Instr.cmp r.h) |>.ap (asCode Cond.ofCode (xf r 0 3).toNat) |>.ap (asP r.d) |>.ap (asS r.a) |>.ap (asS r.b) |>.mz (xf r 3 45 = 0) |>.lim)
  | 1 => some (Fld.ok (Instr.sel r.h) |>.ap (asS r.d) |>.ap (asS r.a) |>.ap (asS r.b) |>.ap (asP (xf r 40 8)) |>.mz (xf r 0 40 = 0) |>.lim)
  | 2 => some (Fld.ok (Instr.mov r.h) |>.ap (asS r.d) |>.ap (asS r.a) |>.mz (xf r 0 48 = 0) |>.mz (r.b = 0) |>.lim)
  | 3 => some (Fld.ok (Instr.movi r.h) |>.ap (asS r.d) |>.ap (.ok r.x) |>.mz (r.a = 0) |>.mz (r.b = 0) |>.lim)
  | 4 => some (Fld.ok (Instr.movhi r.h) |>.ap (asS r.d) |>.ap (asU16 r) |>.mz (r.a = 0) |>.mz (r.b = 0) |>.lim)
  | 5 => some (Fld.ok (Instr.lea r.h) |>.ap (asSz Sz.any (xf r 44 4).toNat) |>.ap (asS r.d) |>.ap (asS r.a) |>.ap (asS r.b) |>.ap (.ok (xf r 0 32)) |>.mz (xf r 32 12 = 0) |>.lim)
  | _ => none

/-- Forms of OP 0x14 (R58). -/
noncomputable def decode14 (r : Raw) : Option (Fld Instr) :=
  match r.fn.toNat with
  | 0 => some (Fld.ok (Instr.pand r.h) |>.ap (asP r.d) |>.ap (asP r.a) |>.ap (asP r.b) |>.mz (xf r 0 48 = 0) |>.lim)
  | 1 => some (Fld.ok (Instr.por r.h) |>.ap (asP r.d) |>.ap (asP r.a) |>.ap (asP r.b) |>.mz (xf r 0 48 = 0) |>.lim)
  | 2 => some (Fld.ok (Instr.pxor r.h) |>.ap (asP r.d) |>.ap (asP r.a) |>.ap (asP r.b) |>.mz (xf r 0 48 = 0) |>.lim)
  | 3 => some (Fld.ok (Instr.pnot r.h) |>.ap (asP r.d) |>.ap (asP r.a) |>.mz (xf r 0 48 = 0) |>.mz (r.b = 0) |>.lim)
  | 4 => some (Fld.ok (Instr.pmov r.h) |>.ap (asPmov r) |>.mz (xf r 0 48 = 0) |>.mz (r.b = 0) |>.lim)
  | _ => none

/-- Forms of OP 0x15 (R58). -/
def decode15 (r : Raw) : Option (Fld Instr) :=
  match r.fn.toNat with
  | 0 => some (Fld.ok (Instr.isfull r.h) |>.ap (asP r.d) |>.ap (asAny r.a) |>.mz (xf r 0 48 = 0) |>.mz (r.b = 0) |>.lim)
  | 1 => some (Fld.ok (Instr.mkempty r.h) |>.ap (asAny r.d) |>.mz (xf r 0 48 = 0) |>.mz (r.a = 0) |>.mz (r.b = 0) |>.lim)
  | 2 => some (Fld.ok (Instr.mkfull r.h) |>.ap (asAny r.d) |>.mz (xf r 0 48 = 0) |>.mz (r.a = 0) |>.mz (r.b = 0) |>.lim)
  | _ => none

/-- Forms of OP 0x30 (R58). -/
def decode30 (r : Raw) : Option (Fld Instr) :=
  match r.fn.toNat with
  | 0 => some (Fld.ok (Instr.vadd r.h) |>.ap (asTy Ty.isFp (xf r 35 5).toNat) |>.ap (asCode Rm.ofCode (xf r 32 3).toNat) |>.ap (asMask r) |>.ap (asV r.d) |>.ap (asV r.a) |>.ap (asV r.b) |>.mz (xf r 40 8 = 0) |>.mz (xf r 0 28 = 0) |>.lim)
  | 1 => some (Fld.ok (Instr.vsub r.h) |>.ap (asTy Ty.isFp (xf r 35 5).toNat) |>.ap (asCode Rm.ofCode (xf r 32 3).toNat) |>.ap (asMask r) |>.ap (asV r.d) |>.ap (asV r.a) |>.ap (asV r.b) |>.mz (xf r 40 8 = 0) |>.mz (xf r 0 28 = 0) |>.lim)
  | 2 => some (Fld.ok (Instr.vmul r.h) |>.ap (asTy Ty.isFp (xf r 35 5).toNat) |>.ap (asCode Rm.ofCode (xf r 32 3).toNat) |>.ap (asMask r) |>.ap (asV r.d) |>.ap (asV r.a) |>.ap (asV r.b) |>.mz (xf r 40 8 = 0) |>.mz (xf r 0 28 = 0) |>.lim)
  | 3 => some (Fld.ok (Instr.vfma r.h) |>.ap (asTy Ty.isFp (xf r 35 5).toNat) |>.ap (asCode Rm.ofCode (xf r 32 3).toNat) |>.ap (asMask r) |>.ap (asV r.d) |>.ap (asV r.a) |>.ap (asV r.b) |>.ap (asV (xf r 40 8)) |>.mz (xf r 0 28 = 0) |>.lim)
  | 4 => some (Fld.ok (Instr.vfms r.h) |>.ap (asTy Ty.isFp (xf r 35 5).toNat) |>.ap (asCode Rm.ofCode (xf r 32 3).toNat) |>.ap (asMask r) |>.ap (asV r.d) |>.ap (asV r.a) |>.ap (asV r.b) |>.ap (asV (xf r 40 8)) |>.mz (xf r 0 28 = 0) |>.lim)
  | 5 => some (Fld.ok (Instr.vfnma r.h) |>.ap (asTy Ty.isFp (xf r 35 5).toNat) |>.ap (asCode Rm.ofCode (xf r 32 3).toNat) |>.ap (asMask r) |>.ap (asV r.d) |>.ap (asV r.a) |>.ap (asV r.b) |>.ap (asV (xf r 40 8)) |>.mz (xf r 0 28 = 0) |>.lim)
  | 6 => some (Fld.ok (Instr.vdiv r.h) |>.ap (asTy Ty.isFp (xf r 35 5).toNat) |>.ap (asCode Rm.ofCode (xf r 32 3).toNat) |>.ap (asMask r) |>.ap (asV r.d) |>.ap (asV r.a) |>.ap (asV r.b) |>.mz (xf r 40 8 = 0) |>.mz (xf r 0 28 = 0) |>.lim)
  | 7 => some (Fld.ok (Instr.vsqrt r.h) |>.ap (asTy Ty.isFp (xf r 35 5).toNat) |>.ap (asCode Rm.ofCode (xf r 32 3).toNat) |>.ap (asMask r) |>.ap (asV r.d) |>.ap (asV r.a) |>.mz (xf r 40 8 = 0) |>.mz (xf r 0 28 = 0) |>.mz (r.b = 0) |>.lim)
  | 8 => some (Fld.ok (Instr.vabs r.h) |>.ap (asTy Ty.isFp (xf r 35 5).toNat) |>.ap (asMask r) |>.ap (asV r.d) |>.ap (asV r.a) |>.mz (xf r 40 8 = 0) |>.mz (xf r 32 3 = 0) |>.mz (xf r 0 28 = 0) |>.mz (r.b = 0) |>.lim)
  | 9 => some (Fld.ok (Instr.vneg r.h) |>.ap (asTy Ty.isFp (xf r 35 5).toNat) |>.ap (asMask r) |>.ap (asV r.d) |>.ap (asV r.a) |>.mz (xf r 40 8 = 0) |>.mz (xf r 32 3 = 0) |>.mz (xf r 0 28 = 0) |>.mz (r.b = 0) |>.lim)
  | 10 => some (Fld.ok (Instr.vmin r.h) |>.ap (asTy Ty.isFp (xf r 35 5).toNat) |>.ap (asMask r) |>.ap (asV r.d) |>.ap (asV r.a) |>.ap (asV r.b) |>.mz (xf r 40 8 = 0) |>.mz (xf r 32 3 = 0) |>.mz (xf r 0 28 = 0) |>.lim)
  | 11 => some (Fld.ok (Instr.vmax r.h) |>.ap (asTy Ty.isFp (xf r 35 5).toNat) |>.ap (asMask r) |>.ap (asV r.d) |>.ap (asV r.a) |>.ap (asV r.b) |>.mz (xf r 40 8 = 0) |>.mz (xf r 32 3 = 0) |>.mz (xf r 0 28 = 0) |>.lim)
  | 12 => some (Fld.ok (Instr.vminnum r.h) |>.ap (asTy Ty.isFp (xf r 35 5).toNat) |>.ap (asMask r) |>.ap (asV r.d) |>.ap (asV r.a) |>.ap (asV r.b) |>.mz (xf r 40 8 = 0) |>.mz (xf r 32 3 = 0) |>.mz (xf r 0 28 = 0) |>.lim)
  | 13 => some (Fld.ok (Instr.vmaxnum r.h) |>.ap (asTy Ty.isFp (xf r 35 5).toNat) |>.ap (asMask r) |>.ap (asV r.d) |>.ap (asV r.a) |>.ap (asV r.b) |>.mz (xf r 40 8 = 0) |>.mz (xf r 32 3 = 0) |>.mz (xf r 0 28 = 0) |>.lim)
  | 14 => some (Fld.ok (Instr.vcmp r.h) |>.ap (asTy Ty.isFp (xf r 35 5).toNat) |>.ap (asCode FCond.ofCode (xf r 0 3).toNat) |>.ap (asMask r) |>.ap (asK r.d) |>.ap (asV r.a) |>.ap (asV r.b) |>.mz (xf r 40 8 = 0) |>.mz (xf r 32 3 = 0) |>.mz (xf r 3 25 = 0) |>.lim)
  | 15 => some (Fld.ok (Instr.vround r.h) |>.ap (asTy Ty.isFp (xf r 35 5).toNat) |>.ap (asCode Rm.ofCode (xf r 32 3).toNat) |>.ap (asMask r) |>.ap (asV r.d) |>.ap (asV r.a) |>.mz (xf r 40 8 = 0) |>.mz (xf r 0 28 = 0) |>.mz (r.b = 0) |>.lim)
  | _ => none

/-- Forms of OP 0x31 (R58). -/
def decode31 (r : Raw) : Option (Fld Instr) :=
  match r.fn.toNat with
  | 0 => some (Fld.ok (Instr.viadd r.h) |>.ap (asTy Ty.isInt (xf r 35 5).toNat) |>.ap (asB r 0) |>.ap (asMask r) |>.ap (asV r.d) |>.ap (asV r.a) |>.ap (asV r.b) |>.mz (xf r 40 8 = 0) |>.mz (xf r 32 3 = 0) |>.mz (xf r 1 27 = 0) |>.lim)
  | 1 => some (Fld.ok (Instr.visub r.h) |>.ap (asTy Ty.isInt (xf r 35 5).toNat) |>.ap (asB r 0) |>.ap (asMask r) |>.ap (asV r.d) |>.ap (asV r.a) |>.ap (asV r.b) |>.mz (xf r 40 8 = 0) |>.mz (xf r 32 3 = 0) |>.mz (xf r 1 27 = 0) |>.lim)
  | 2 => some (Fld.ok (Instr.vimul r.h) |>.ap (asTy Ty.isInt (xf r 35 5).toNat) |>.ap (asMask r) |>.ap (asV r.d) |>.ap (asV r.a) |>.ap (asV r.b) |>.mz (xf r 40 8 = 0) |>.mz (xf r 32 3 = 0) |>.mz (xf r 0 28 = 0) |>.lim)
  | 3 => some (Fld.ok (Instr.vimulh r.h) |>.ap (asTy Ty.isInt (xf r 35 5).toNat) |>.ap (asMask r) |>.ap (asV r.d) |>.ap (asV r.a) |>.ap (asV r.b) |>.mz (xf r 40 8 = 0) |>.mz (xf r 32 3 = 0) |>.mz (xf r 0 28 = 0) |>.lim)
  | 4 => some (Fld.ok (Instr.vimin r.h) |>.ap (asTy Ty.isInt (xf r 35 5).toNat) |>.ap (asMask r) |>.ap (asV r.d) |>.ap (asV r.a) |>.ap (asV r.b) |>.mz (xf r 40 8 = 0) |>.mz (xf r 32 3 = 0) |>.mz (xf r 0 28 = 0) |>.lim)
  | 5 => some (Fld.ok (Instr.vimax r.h) |>.ap (asTy Ty.isInt (xf r 35 5).toNat) |>.ap (asMask r) |>.ap (asV r.d) |>.ap (asV r.a) |>.ap (asV r.b) |>.mz (xf r 40 8 = 0) |>.mz (xf r 32 3 = 0) |>.mz (xf r 0 28 = 0) |>.lim)
  | 6 => some (Fld.ok (Instr.vand r.h) |>.ap (asTy Ty.isInt (xf r 35 5).toNat) |>.ap (asMask r) |>.ap (asV r.d) |>.ap (asV r.a) |>.ap (asV r.b) |>.mz (xf r 40 8 = 0) |>.mz (xf r 32 3 = 0) |>.mz (xf r 0 28 = 0) |>.lim)
  | 7 => some (Fld.ok (Instr.vor r.h) |>.ap (asTy Ty.isInt (xf r 35 5).toNat) |>.ap (asMask r) |>.ap (asV r.d) |>.ap (asV r.a) |>.ap (asV r.b) |>.mz (xf r 40 8 = 0) |>.mz (xf r 32 3 = 0) |>.mz (xf r 0 28 = 0) |>.lim)
  | 8 => some (Fld.ok (Instr.vxor r.h) |>.ap (asTy Ty.isInt (xf r 35 5).toNat) |>.ap (asMask r) |>.ap (asV r.d) |>.ap (asV r.a) |>.ap (asV r.b) |>.mz (xf r 40 8 = 0) |>.mz (xf r 32 3 = 0) |>.mz (xf r 0 28 = 0) |>.lim)
  | 9 => some (Fld.ok (Instr.vshl r.h) |>.ap (asTy Ty.isInt (xf r 35 5).toNat) |>.ap (asMask r) |>.ap (asV r.d) |>.ap (asV r.a) |>.ap (asV r.b) |>.mz (xf r 40 8 = 0) |>.mz (xf r 32 3 = 0) |>.mz (xf r 0 28 = 0) |>.lim)
  | 10 => some (Fld.ok (Instr.vshr r.h) |>.ap (asTy Ty.isInt (xf r 35 5).toNat) |>.ap (asMask r) |>.ap (asV r.d) |>.ap (asV r.a) |>.ap (asV r.b) |>.mz (xf r 40 8 = 0) |>.mz (xf r 32 3 = 0) |>.mz (xf r 0 28 = 0) |>.lim)
  | 11 => some (Fld.ok (Instr.vsar r.h) |>.ap (asTy Ty.isInt (xf r 35 5).toNat) |>.ap (asMask r) |>.ap (asV r.d) |>.ap (asV r.a) |>.ap (asV r.b) |>.mz (xf r 40 8 = 0) |>.mz (xf r 32 3 = 0) |>.mz (xf r 0 28 = 0) |>.lim)
  | 12 => some (Fld.ok (Instr.vicmp r.h) |>.ap (asTy Ty.isInt (xf r 35 5).toNat) |>.ap (asCode ICond.ofCode (xf r 0 3).toNat) |>.ap (asMask r) |>.ap (asK r.d) |>.ap (asV r.a) |>.ap (asV r.b) |>.mz (xf r 40 8 = 0) |>.mz (xf r 32 3 = 0) |>.mz (xf r 3 25 = 0) |>.lim)
  | _ => none

/-- Forms of OP 0x32 (R58). -/
def decode32 (r : Raw) : Option (Fld Instr) :=
  match r.fn.toNat with
  | 0 => some (Fld.ok (Instr.vmov r.h) |>.ap (asTy Ty.isPlain (xf r 35 5).toNat) |>.ap (asMask r) |>.ap (asV r.d) |>.ap (asV r.a) |>.mz (xf r 40 8 = 0) |>.mz (xf r 32 3 = 0) |>.mz (xf r 0 28 = 0) |>.mz (r.b = 0) |>.lim)
  | 1 => some (Fld.ok (Instr.vbcast r.h) |>.ap (asTy Ty.isPlain (xf r 35 5).toNat) |>.ap (asMask r) |>.ap (asV r.d) |>.ap (asS r.a) |>.mz (xf r 40 8 = 0) |>.mz (xf r 32 3 = 0) |>.mz (xf r 0 28 = 0) |>.mz (r.b = 0) |>.lim)
  | 2 => some (Fld.ok (Instr.vsel r.h) |>.ap (asTy Ty.isPlain (xf r 35 5).toNat) |>.ap (asV r.d) |>.ap (asV r.a) |>.ap (asV r.b) |>.ap (asK (xf r 40 8)) |>.mz (xf r 0 35 = 0) |>.lim)
  | 3 => some (Fld.ok (Instr.vperm r.h) |>.ap (asTy Ty.isPlain (xf r 35 5).toNat) |>.ap (asMask r) |>.ap (asV r.d) |>.ap (asV r.a) |>.ap (asV r.b) |>.mz (xf r 40 8 = 0) |>.mz (xf r 32 3 = 0) |>.mz (xf r 0 28 = 0) |>.lim)
  | 4 => some (Fld.ok (Instr.vextr r.h) |>.ap (asTy Ty.isPlain (xf r 35 5).toNat) |>.ap (asS r.d) |>.ap (asV r.a) |>.ap (asS r.b) |>.mz (xf r 40 8 = 0) |>.mz (xf r 0 35 = 0) |>.lim)
  | 5 => some (Fld.ok (Instr.vins r.h) |>.ap (asTy Ty.isPlain (xf r 35 5).toNat) |>.ap (asV r.d) |>.ap (asS r.a) |>.ap (asS r.b) |>.mz (xf r 40 8 = 0) |>.mz (xf r 0 35 = 0) |>.lim)
  | 6 => some (Fld.ok (Instr.viota r.h) |>.ap (asTy Ty.isPlain (xf r 35 5).toNat) |>.ap (asMask r) |>.ap (asV r.d) |>.mz (xf r 40 8 = 0) |>.mz (xf r 32 3 = 0) |>.mz (xf r 0 28 = 0) |>.mz (r.a = 0) |>.mz (r.b = 0) |>.lim)
  | 7 => some (Fld.ok (Instr.vcompress r.h) |>.ap (asTy Ty.isPlain (xf r 35 5).toNat) |>.ap (.ok (xf r 29 3)) |>.ap (asV r.d) |>.ap (asV r.a) |>.mz (xf r 40 8 = 0) |>.mz (xf r 32 3 = 0) |>.mz (xf r 0 29 = 0) |>.mz (r.b = 0) |>.lim)
  | _ => none

/-- Forms of OP 0x33 (R58). -/
def decode33 (r : Raw) : Option (Fld Instr) :=
  match r.fn.toNat with
  | 0 => some (Fld.ok (Instr.vcvt r.h) |>.ap (asTy Ty.isPlain (xf r 35 5).toNat) |>.ap (asCode Rm.ofCode (xf r 32 3).toNat) |>.ap (asTy Ty.isPlain (xf r 0 5).toNat) |>.ap (asB r 5) |>.ap (asMask r) |>.ap (asV r.d) |>.ap (asV r.a) |>.mz (xf r 40 8 = 0) |>.mz (xf r 6 22 = 0) |>.mz (r.b = 0) |>.mz (!(vcvtBad r)) |>.lim)
  | 1 => some (Fld.ok (Instr.vquant r.h) |>.ap (asTy Ty.isBlock (xf r 35 5).toNat) |>.ap (.ok (xf r 0 4)) |>.ap (asCode Tqt.ofCode (xf r 4 2).toNat) |>.ap (asV r.d) |>.ap (asV r.a) |>.mz (xf r 40 8 = 0) |>.mz (xf r 6 29 = 0) |>.mz (r.b = 0) |>.mz (!(vquantBad r)) |>.lim)
  | 2 => some (Fld.ok (Instr.vdequant r.h) |>.ap (asTy Ty.isBlock (xf r 35 5).toNat) |>.ap (.ok (xf r 0 4)) |>.ap (asV r.d) |>.ap (asV r.a) |>.mz (xf r 40 8 = 0) |>.mz (xf r 4 31 = 0) |>.mz (r.b = 0) |>.lim)
  | 3 => some (Fld.ok (Instr.vbaddq r.h) |>.ap (asTy Ty.isBlock (xf r 35 5).toNat) |>.ap (.ok (xf r 0 4)) |>.ap (asV r.d) |>.ap (asV r.a) |>.ap (asV r.b) |>.mz (xf r 40 8 = 0) |>.mz (xf r 4 31 = 0) |>.lim)
  | _ => none

/-- Forms of OP 0x34 (R58). -/
def decode34 (r : Raw) : Option (Fld Instr) :=
  match r.fn.toNat with
  | 0 => some (Fld.ok (Instr.vred r.h) |>.ap (asTy Ty.isNum (xf r 35 5).toNat) |>.ap (asCode Rm.ofCode (xf r 32 3).toNat) |>.ap (asCode Rop.ofCode (xf r 0 3).toNat) |>.ap (.ok (xf r 29 3)) |>.ap (asS r.d) |>.ap (asV r.a) |>.mz (xf r 40 8 = 0) |>.mz (xf r 3 26 = 0) |>.mz (r.b = 0) |>.mz (!(intRmBad r)) |>.lim)
  | 1 => some (Fld.ok (Instr.vscan r.h) |>.ap (asTy Ty.isNum (xf r 35 5).toNat) |>.ap (asCode Rm.ofCode (xf r 32 3).toNat) |>.ap (asCode Rop.ofCode (xf r 0 3).toNat) |>.ap (asMask r) |>.ap (asV r.d) |>.ap (asV r.a) |>.mz (xf r 40 8 = 0) |>.mz (xf r 3 25 = 0) |>.mz (r.b = 0) |>.mz (!(intRmBad r)) |>.lim)
  | 2 => some (Fld.ok (Instr.pmerge r.h) |>.ap (asTy Ty.isF3264 (xf r 35 5).toNat) |>.ap (asCode Rm.ofCode (xf r 32 3).toNat) |>.ap (asMask r) |>.ap (asV r.d) |>.ap (asV r.a) |>.ap (asV r.b) |>.mz (xf r 40 8 = 0) |>.mz (xf r 0 28 = 0) |>.lim)
  | 3 => some (Fld.ok (Instr.vdot r.h) |>.ap (asTy Ty.isFp (xf r 35 5).toNat) |>.ap (asCode Rm.ofCode (xf r 32 3).toNat) |>.ap (.ok (xf r 29 3)) |>.ap (asS r.d) |>.ap (asV r.a) |>.ap (asV r.b) |>.mz (xf r 40 8 = 0) |>.mz (xf r 0 29 = 0) |>.lim)
  | _ => none

/-- Forms of OP 0x35 (R58). -/
def decode35 (r : Raw) : Option (Fld Instr) :=
  match r.fn.toNat with
  | 0 => some (Fld.ok (Instr.vexp2 r.h) |>.ap (asTy Ty.isFp (xf r 35 5).toNat) |>.ap (asCode Rm.ofCode (xf r 32 3).toNat) |>.ap (asMask r) |>.ap (asV r.d) |>.ap (asV r.a) |>.mz (xf r 40 8 = 0) |>.mz (xf r 0 28 = 0) |>.mz (r.b = 0) |>.lim)
  | 1 => some (Fld.ok (Instr.vlog2 r.h) |>.ap (asTy Ty.isFp (xf r 35 5).toNat) |>.ap (asCode Rm.ofCode (xf r 32 3).toNat) |>.ap (asMask r) |>.ap (asV r.d) |>.ap (asV r.a) |>.mz (xf r 40 8 = 0) |>.mz (xf r 0 28 = 0) |>.mz (r.b = 0) |>.lim)
  | 2 => some (Fld.ok (Instr.vrcp r.h) |>.ap (asTy Ty.isFp (xf r 35 5).toNat) |>.ap (asCode Rm.ofCode (xf r 32 3).toNat) |>.ap (asMask r) |>.ap (asV r.d) |>.ap (asV r.a) |>.mz (xf r 40 8 = 0) |>.mz (xf r 0 28 = 0) |>.mz (r.b = 0) |>.lim)
  | 3 => some (Fld.ok (Instr.vrsq r.h) |>.ap (asTy Ty.isFp (xf r 35 5).toNat) |>.ap (asCode Rm.ofCode (xf r 32 3).toNat) |>.ap (asMask r) |>.ap (asV r.d) |>.ap (asV r.a) |>.mz (xf r 40 8 = 0) |>.mz (xf r 0 28 = 0) |>.mz (r.b = 0) |>.lim)
  | 4 => some (Fld.ok (Instr.vsin r.h) |>.ap (asTy Ty.isFp (xf r 35 5).toNat) |>.ap (asCode Rm.ofCode (xf r 32 3).toNat) |>.ap (asMask r) |>.ap (asV r.d) |>.ap (asV r.a) |>.mz (xf r 40 8 = 0) |>.mz (xf r 0 28 = 0) |>.mz (r.b = 0) |>.lim)
  | 5 => some (Fld.ok (Instr.vcos r.h) |>.ap (asTy Ty.isFp (xf r 35 5).toNat) |>.ap (asCode Rm.ofCode (xf r 32 3).toNat) |>.ap (asMask r) |>.ap (asV r.d) |>.ap (asV r.a) |>.mz (xf r 40 8 = 0) |>.mz (xf r 0 28 = 0) |>.mz (r.b = 0) |>.lim)
  | 6 => some (Fld.ok (Instr.vtanh r.h) |>.ap (asTy Ty.isFp (xf r 35 5).toNat) |>.ap (asCode Rm.ofCode (xf r 32 3).toNat) |>.ap (asMask r) |>.ap (asV r.d) |>.ap (asV r.a) |>.mz (xf r 40 8 = 0) |>.mz (xf r 0 28 = 0) |>.mz (r.b = 0) |>.lim)
  | _ => none

/-- Forms of OP 0x36 (R58). -/
noncomputable def decode36 (r : Raw) : Option (Fld Instr) :=
  match r.fn.toNat with
  | 0 => some (Fld.ok (Instr.kand r.h) |>.ap (asK r.d) |>.ap (asK r.a) |>.ap (asK r.b) |>.mz (xf r 0 48 = 0) |>.lim)
  | 1 => some (Fld.ok (Instr.kor r.h) |>.ap (asK r.d) |>.ap (asK r.a) |>.ap (asK r.b) |>.mz (xf r 0 48 = 0) |>.lim)
  | 2 => some (Fld.ok (Instr.knot r.h) |>.ap (asK r.d) |>.ap (asK r.a) |>.mz (xf r 0 48 = 0) |>.mz (r.b = 0) |>.lim)
  | 3 => some (Fld.ok (Instr.kpop r.h) |>.ap (asTy Ty.isNum (xf r 35 5).toNat) |>.ap (asS r.d) |>.ap (asK r.a) |>.mz (xf r 40 8 = 0) |>.mz (xf r 0 35 = 0) |>.mz (r.b = 0) |>.lim)
  | 4 => some (Fld.ok (Instr.kset r.h) |>.ap (asTy Ty.isNum (xf r 35 5).toNat) |>.ap (asK r.d) |>.ap (asS r.a) |>.ap (asS r.b) |>.mz (xf r 40 8 = 0) |>.mz (xf r 0 35 = 0) |>.lim)
  | _ => none

/-- Forms of OP 0x37 (R58). -/
def decode37 (r : Raw) : Option (Fld Instr) :=
  match r.fn.toNat with
  | 0 => some (Fld.ok (Instr.xaGet r.h) |>.ap (.ok (xf r 0 3)) |>.ap (asP r.d) |>.mz (xf r 3 45 = 0) |>.mz (r.a = 0) |>.mz (r.b = 0) |>.lim)
  | 1 => some (Fld.ok (Instr.xaPut r.h) |>.ap (.ok (xf r 0 3)) |>.mz (xf r 3 45 = 0) |>.mz (r.d = 0) |>.mz (r.a = 0) |>.mz (r.b = 0) |>.lim)
  | 2 => some (Fld.ok (Instr.xaClr r.h) |>.ap (.ok (xf r 0 3)) |>.mz (xf r 3 45 = 0) |>.mz (r.d = 0) |>.mz (r.a = 0) |>.mz (r.b = 0) |>.lim)
  | 3 => some (Fld.ok (Instr.xaAddp r.h) |>.chk (asTyIs .f64 (xf r 35 5).toNat) |>.ap (.ok (xf r 0 3)) |>.ap (asB r 6) |>.ap (asS r.a) |>.ap (asS r.b) |>.mz (xf r 40 8 = 0) |>.mz (xf r 7 28 = 0) |>.mz (xf r 3 3 = 0) |>.mz (r.d = 0) |>.lim)
  | 4 => some (Fld.ok (Instr.xaAddv r.h) |>.chk (asTyIs .f64 (xf r 35 5).toNat) |>.ap (.ok (xf r 0 3)) |>.ap (asB r 6) |>.ap (.ok (xf r 29 3)) |>.ap (asV r.a) |>.ap (asV r.b) |>.mz (xf r 40 8 = 0) |>.mz (xf r 32 3 = 0) |>.mz (xf r 7 22 = 0) |>.mz (xf r 3 3 = 0) |>.mz (r.d = 0) |>.lim)
  | 5 => some (Fld.ok (Instr.xaAdd r.h) |>.ap (.ok (xf r 0 3)) |>.ap (.ok (xf r 3 3)) |>.ap (asB r 6) |>.mz (xf r 7 41 = 0) |>.mz (r.d = 0) |>.mz (r.a = 0) |>.mz (r.b = 0) |>.lim)
  | 6 => some (Fld.ok (Instr.xaSign r.h) |>.ap (.ok (xf r 0 3)) |>.ap (asCode XaCond.ofCode (xf r 7 2).toNat) |>.ap (asP r.d) |>.mz (xf r 9 39 = 0) |>.mz (xf r 3 4 = 0) |>.mz (r.a = 0) |>.mz (r.b = 0) |>.lim)
  | 7 => some (Fld.ok (Instr.xaRnd r.h) |>.ap (asTy Ty.isF3264 (xf r 35 5).toNat) |>.ap (asCode Rm.ofCode (xf r 32 3).toNat) |>.ap (.ok (xf r 0 3)) |>.ap (asS r.d) |>.mz (xf r 40 8 = 0) |>.mz (xf r 3 29 = 0) |>.mz (r.a = 0) |>.mz (r.b = 0) |>.lim)
  | 8 => some (Fld.ok (Instr.xaSave r.h) |>.ap (.ok (xf r 32 3)) |>.ap (asS r.a) |>.ap (.ok (xf r 0 32)) |>.mz (xf r 35 13 = 0) |>.mz (r.d = 0) |>.mz (r.b = 0) |>.lim)
  | 9 => some (Fld.ok (Instr.xaLoad r.h) |>.ap (.ok (xf r 32 3)) |>.ap (asS r.a) |>.ap (.ok (xf r 0 32)) |>.mz (xf r 35 13 = 0) |>.mz (r.d = 0) |>.mz (r.b = 0) |>.lim)
  | _ => none

/-- Forms of OP 0x60 (R58). -/
def decode60 (r : Raw) : Option (Fld Instr) :=
  match r.fn.toNat with
  | 0 => some (Fld.ok (Instr.protLoad r.h) |>.ap (asS r.d) |>.ap (asS r.a) |>.ap (.ok (xf r 0 32)) |>.mz (xf r 32 16 = 0) |>.mz (r.b = 0) |>.lim)
  | 1 => some (Fld.ok (Instr.protFree r.h) |>.ap (asS r.a) |>.mz (xf r 0 48 = 0) |>.mz (r.d = 0) |>.mz (r.b = 0) |>.lim)
  | 2 => some (Fld.ok (Instr.epGet r.h) |>.ap (asS r.d) |>.ap (asS r.a) |>.mz (xf r 0 48 = 0) |>.mz (r.b = 0) |>.lim)
  | 3 => some (Fld.ok (Instr.epPut r.h) |>.ap (asS r.a) |>.mz (xf r 0 48 = 0) |>.mz (r.d = 0) |>.mz (r.b = 0) |>.lim)
  | _ => none

/-- Forms of OP 0x61 (R58). -/
def decode61 (r : Raw) : Option (Fld Instr) :=
  match r.fn.toNat with
  | 0 => some (Fld.ok (Instr.chOpen r.h) |>.ap (.ok (xf r 41 7)) |>.ap (asS r.a) |>.ap (asS r.b) |>.mz (xf r 0 41 = 0) |>.mz (r.d = 0) |>.lim)
  | 1 => some (Fld.ok (Instr.chAccept r.h) |>.ap (.ok (xf r 41 7)) |>.ap (asS r.d) |>.ap (asS r.a) |>.ap (asS r.b) |>.mz (xf r 0 41 = 0) |>.lim)
  | 2 => some (Fld.ok (Instr.chClose r.h) |>.ap (.ok (xf r 41 7)) |>.mz (xf r 0 41 = 0) |>.mz (r.d = 0) |>.mz (r.a = 0) |>.mz (r.b = 0) |>.lim)
  | 3 => some (Fld.ok (Instr.chAbort r.h) |>.ap (.ok (xf r 41 7)) |>.mz (xf r 0 41 = 0) |>.mz (r.d = 0) |>.mz (r.a = 0) |>.mz (r.b = 0) |>.lim)
  | 4 => some (Fld.ok (Instr.chState r.h) |>.ap (.ok (xf r 41 7)) |>.ap (asS r.d) |>.mz (xf r 0 41 = 0) |>.mz (r.a = 0) |>.mz (r.b = 0) |>.lim)
  | 5 => some (Fld.ok (Instr.chBindreg r.h) |>.ap (.ok (xf r 41 7)) |>.ap (asBind r.d) |>.mz (xf r 0 41 = 0) |>.mz (r.a = 0) |>.mz (r.b = 0) |>.lim)
  | _ => none

/-- Forms of OP 0x62 (R58). -/
def decode62 (r : Raw) : Option (Fld Instr) :=
  match r.fn.toNat with
  | 0 => some (Fld.ok (Instr.send r.h) |>.ap (.ok (xf r 41 7)) |>.ap (asMt (xf r 35 6)) |>.ap (asB r 34) |>.ap (asB r 12) |>.ap (.ok (xf r 9 3)) |>.ap (.ok (xf r 0 9)) |>.ap (asS r.a) |>.mz (xf r 13 21 = 0) |>.mz (r.d = 0) |>.mz (r.b = 0) |>.lim)
  | 1 => some (Fld.ok (Instr.sendv r.h) |>.ap (.ok (xf r 41 7)) |>.ap (asMt (xf r 35 6)) |>.ap (asB r 34) |>.ap (asB r 12) |>.ap (.ok (xf r 9 3)) |>.ap (.ok (xf r 0 9)) |>.ap (asV r.a) |>.mz (xf r 13 21 = 0) |>.mz (r.d = 0) |>.mz (r.b = 0) |>.lim)
  | 2 => some (Fld.ok (Instr.recv r.h) |>.ap (.ok (xf r 41 7)) |>.ap (asMt (xf r 35 6)) |>.ap (.ok (xf r 9 3)) |>.ap (.ok (xf r 0 9)) |>.ap (asS r.d) |>.ap (asS r.b) |>.mz (xf r 12 23 = 0) |>.mz (r.a = 0) |>.mz (!(decide (r.x.extractLsb' 0 9 = 0) && decide (r.d ≠ 0))) |>.lim)
  | 3 => some (Fld.ok (Instr.recvv r.h) |>.ap (.ok (xf r 41 7)) |>.ap (asMt (xf r 35 6)) |>.ap (.ok (xf r 9 3)) |>.ap (.ok (xf r 0 9)) |>.ap (asV r.d) |>.ap (asS r.b) |>.mz (xf r 12 23 = 0) |>.mz (r.a = 0) |>.lim)
  | 4 => some (Fld.ok (Instr.select r.h) |>.ap (.ok (xf r 41 7)) |>.ap (.ok (xf r 32 2)) |>.ap (asB r 12) |>.ap (.ok (xf r 9 3)) |>.mz (xf r 34 7 = 0) |>.mz (xf r 13 19 = 0) |>.mz (xf r 0 9 = 0) |>.mz (r.d = 0) |>.mz (r.a = 0) |>.mz (r.b = 0) |>.lim)
  | 5 => some (Fld.ok (Instr.offer r.h) |>.ap (.ok (xf r 41 7)) |>.ap (.ok (xf r 32 2)) |>.ap (.ok (xf r 9 3)) |>.ap (asS r.b) |>.mz (xf r 34 7 = 0) |>.mz (xf r 12 20 = 0) |>.mz (xf r 0 9 = 0) |>.mz (r.d = 0) |>.mz (r.a = 0) |>.lim)
  | _ => none

/-- Forms of OP 0x63 (R58). -/
def decode63 (r : Raw) : Option (Fld Instr) :=
  match r.fn.toNat with
  | 0 => some (Fld.ok (Instr.chDeleg r.h) |>.ap (.ok (xf r 41 7)) |>.chk (asMt63 (xf r 35 6)) |>.ap (asB r 12) |>.ap (.ok (xf r 9 3)) |>.ap (.ok (xf r 0 7)) |>.mz (xf r 13 22 = 0) |>.mz (xf r 7 2 = 0) |>.mz (r.d = 0) |>.mz (r.a = 0) |>.mz (r.b = 0) |>.lim)
  | 1 => some (Fld.ok (Instr.chAdopt r.h) |>.ap (.ok (xf r 41 7)) |>.chk (asMt63 (xf r 35 6)) |>.ap (.ok (xf r 9 3)) |>.ap (.ok (xf r 0 7)) |>.ap (asS r.d) |>.mz (xf r 12 23 = 0) |>.mz (xf r 7 2 = 0) |>.mz (r.a = 0) |>.mz (r.b = 0) |>.lim)
  | _ => none

/-- Forms of OP 0x70 (R58). -/
def decode70 (r : Raw) : Option (Fld Instr) :=
  match r.fn.toNat with
  | 0 => some (Fld.ok (Instr.turnSet r.h) |>.ap (asS r.a) |>.ap (asS r.b) |>.ap (asS (xf r 40 8)) |>.mz (xf r 0 40 = 0) |>.mz (r.d = 0) |>.lim)
  | 1 => some (Fld.ok (Instr.turnGet r.h) |>.ap (asCode TurnW.ofCode (xf r 0 2).toNat) |>.ap (asS r.d) |>.ap (asS r.a) |>.mz (xf r 2 46 = 0) |>.mz (r.b = 0) |>.lim)
  | 2 => some (Fld.ok (Instr.rcConf r.h) |>.ap (.ok (xf r 0 4)) |>.ap (asS r.a) |>.mz (xf r 4 44 = 0) |>.mz (r.d = 0) |>.mz (r.b = 0) |>.lim)
  | 3 => some (Fld.ok (Instr.rcBind r.h) |>.ap (.ok (xf r 0 5)) |>.ap (.ok (xf r 8 7)) |>.ap (asS r.d) |>.mz (xf r 15 33 = 0) |>.mz (xf r 5 3 = 0) |>.mz (r.a = 0) |>.mz (r.b = 0) |>.lim)
  | 4 => some (Fld.ok (Instr.rcRead r.h) |>.ap (.ok (xf r 0 4)) |>.ap (asCode RcW.ofCode (xf r 4 2).toNat) |>.ap (asS r.d) |>.mz (xf r 6 42 = 0) |>.mz (r.a = 0) |>.mz (r.b = 0) |>.lim)
  | 5 => some (Fld.ok (Instr.rcFree r.h) |>.ap (.ok (xf r 0 4)) |>.mz (xf r 4 44 = 0) |>.mz (r.d = 0) |>.mz (r.a = 0) |>.mz (r.b = 0) |>.lim)
  | _ => none

/-- Forms of OP 0x74 (R58). -/
def decode74 (r : Raw) : Option (Fld Instr) :=
  match r.fn.toNat with
  | 0 => some (Fld.ok (Instr.ld r.h) |>.ap (asSz Sz.isScalar (xf r 44 4).toNat) |>.ap (asCode Scope.ofCode (xf r 41 3).toNat) |>.ap (asOrd Ord.isLd (xf r 38 3).toNat) |>.ap (asB r 32) |>.ap (asS r.d) |>.ap (asS r.a) |>.ap (.ok (xf r 0 32)) |>.mz (xf r 33 5 = 0) |>.mz (r.b = 0) |>.lim)
  | 1 => some (Fld.ok (Instr.st r.h) |>.ap (asSz Sz.isScalar (xf r 44 4).toNat) |>.ap (asCode Scope.ofCode (xf r 41 3).toNat) |>.ap (asOrd Ord.isSt (xf r 38 3).toNat) |>.ap (asS r.a) |>.ap (asS r.b) |>.ap (.ok (xf r 0 32)) |>.mz (xf r 32 6 = 0) |>.mz (r.d = 0) |>.lim)
  | 2 => some (Fld.ok (Instr.ldv r.h) |>.chk (asSzIs .b256 (xf r 44 4).toNat) |>.ap (asCode Scope.ofCode (xf r 41 3).toNat) |>.ap (asOrd Ord.isLd (xf r 38 3).toNat) |>.ap (asV r.d) |>.ap (asS r.a) |>.ap (.ok (xf r 0 32)) |>.mz (xf r 32 6 = 0) |>.mz (r.b = 0) |>.lim)
  | 3 => some (Fld.ok (Instr.stv r.h) |>.chk (asSzIs .b256 (xf r 44 4).toNat) |>.ap (asCode Scope.ofCode (xf r 41 3).toNat) |>.ap (asOrd Ord.isSt (xf r 38 3).toNat) |>.ap (asS r.a) |>.ap (asV r.b) |>.ap (.ok (xf r 0 32)) |>.mz (xf r 32 6 = 0) |>.mz (r.d = 0) |>.lim)
  | _ => none

/-- Forms of OP 0x75 (R58). -/
def decode75 (r : Raw) : Option (Fld Instr) :=
  match r.fn.toNat with
  | 0 => some (Fld.ok (Instr.ldSync r.h) |>.chk (asSzIs .b8 (xf r 44 4).toNat) |>.ap (asCode Scope.ofCode (xf r 41 3).toNat) |>.ap (asOrd Ord.isLd (xf r 38 3).toNat) |>.ap (asB r 32) |>.ap (asS r.d) |>.ap (asS r.a) |>.ap (.ok (xf r 0 32)) |>.mz (xf r 33 5 = 0) |>.mz (r.b = 0) |>.lim)
  | 1 => some (Fld.ok (Instr.stFill r.h) |>.chk (asSzIs .b8 (xf r 44 4).toNat) |>.ap (asCode Scope.ofCode (xf r 41 3).toNat) |>.ap (asOrd Ord.isSt (xf r 38 3).toNat) |>.ap (asB r 32) |>.ap (asS r.a) |>.ap (asS r.b) |>.ap (.ok (xf r 0 32)) |>.mz (xf r 33 5 = 0) |>.mz (r.d = 0) |>.lim)
  | 2 => some (Fld.ok (Instr.stReset r.h) |>.chk (asSzIs .b8 (xf r 44 4).toNat) |>.ap (asCode Scope.ofCode (xf r 41 3).toNat) |>.ap (asOrd Ord.isSt (xf r 38 3).toNat) |>.ap (asS r.a) |>.ap (asS r.b) |>.ap (.ok (xf r 0 32)) |>.mz (xf r 32 6 = 0) |>.mz (r.d = 0) |>.lim)
  | 3 => some (Fld.ok (Instr.ldvSync r.h) |>.chk (asSzIs .b256 (xf r 44 4).toNat) |>.ap (asCode Scope.ofCode (xf r 41 3).toNat) |>.ap (asOrd Ord.isLd (xf r 38 3).toNat) |>.ap (asB r 32) |>.ap (asV r.d) |>.ap (asS r.a) |>.ap (.ok (xf r 0 32)) |>.mz (xf r 33 5 = 0) |>.mz (r.b = 0) |>.lim)
  | _ => none

/-- Forms of OP 0x76 (R58). -/
def decode76 (r : Raw) : Option (Fld Instr) :=
  match r.fn.toNat with
  | 0 => some (if extBit r 9 = false then (Fld.ok (Instr.semWait r.h) |>.ap (.ok (xf r 0 8)) |>.ap (asB r 8) |>.ap (asS r.a) |>.mz (xf r 9 39 = 0) |>.mz (r.d = 0) |>.mz (r.b = 0) |>.lim) else (Fld.ok (Instr.semWaitTo r.h) |>.ap (.ok (xf r 0 8)) |>.ap (asB r 8) |>.ap (asP r.d) |>.ap (asS r.a) |>.ap (asS r.b) |>.mz (xf r 10 38 = 0) |>.lim))
  | 1 => some (Fld.ok (Instr.semSig r.h) |>.ap (.ok (xf r 0 8)) |>.ap (asS r.a) |>.mz (xf r 8 40 = 0) |>.mz (r.d = 0) |>.mz (r.b = 0) |>.lim)
  | 2 => some (Fld.ok (Instr.semSet r.h) |>.ap (.ok (xf r 0 8)) |>.ap (asS r.a) |>.mz (xf r 8 40 = 0) |>.mz (r.d = 0) |>.mz (r.b = 0) |>.lim)
  | 3 => some (Fld.ok (Instr.semRead r.h) |>.ap (.ok (xf r 0 8)) |>.ap (asS r.d) |>.mz (xf r 8 40 = 0) |>.mz (r.a = 0) |>.mz (r.b = 0) |>.lim)
  | _ => none

/-- Forms of OP 0x77 (R58). -/
def decode77 (r : Raw) : Option (Fld Instr) :=
  match r.fn.toNat with
  | 0 => some (Fld.ok (Instr.barArm r.h) |>.ap (.ok (xf r 0 7)) |>.ap (asS r.a) |>.ap (asS r.b) |>.mz (xf r 7 41 = 0) |>.mz (r.d = 0) |>.lim)
  | 1 => some (Fld.ok (Instr.barArrive r.h) |>.ap (.ok (xf r 0 7)) |>.mz (xf r 7 41 = 0) |>.mz (r.d = 0) |>.mz (r.a = 0) |>.mz (r.b = 0) |>.lim)
  | 2 => some (Fld.ok (Instr.barWait r.h) |>.ap (.ok (xf r 0 7)) |>.mz (xf r 7 41 = 0) |>.mz (r.d = 0) |>.mz (r.a = 0) |>.mz (r.b = 0) |>.lim)
  | 3 => some (Fld.ok (Instr.barSync r.h) |>.ap (.ok (xf r 0 7)) |>.mz (xf r 7 41 = 0) |>.mz (r.d = 0) |>.mz (r.a = 0) |>.mz (r.b = 0) |>.lim)
  | 4 => some (Fld.ok (Instr.barDisarm r.h) |>.ap (.ok (xf r 0 7)) |>.mz (xf r 7 41 = 0) |>.mz (r.d = 0) |>.mz (r.a = 0) |>.mz (r.b = 0) |>.lim)
  | _ => none

/-- Forms of OP 0x80 (R58). -/
def decode80 (r : Raw) : Option (Fld Instr) :=
  match r.fn.toNat with
  | 0 => some (Fld.ok (Instr.gld r.h) |>.ap (asSz Sz.isScalar (xf r 44 4).toNat) |>.ap (asCode Scope.ofCode (xf r 41 3).toNat) |>.ap (asOrd Ord.isGld (xf r 38 3).toNat) |>.ap (asB r 32) |>.ap (asS r.d) |>.ap (asS r.a) |>.ap (.ok (xf r 0 32)) |>.mz (xf r 33 5 = 0) |>.mz (r.b = 0) |>.lim)
  | 1 => some (Fld.ok (Instr.gst r.h) |>.ap (asSz Sz.isScalar (xf r 44 4).toNat) |>.ap (asCode Scope.ofCode (xf r 41 3).toNat) |>.ap (asOrd Ord.isGst (xf r 38 3).toNat) |>.ap (asS r.a) |>.ap (asS r.b) |>.ap (.ok (xf r 0 32)) |>.mz (xf r 32 6 = 0) |>.mz (r.d = 0) |>.lim)
  | 2 => some (Fld.ok (Instr.gldv r.h) |>.ap (asSz Sz.isVec (xf r 44 4).toNat) |>.ap (asCode Scope.ofCode (xf r 41 3).toNat) |>.ap (asOrd Ord.isGld (xf r 38 3).toNat) |>.ap (asV r.d) |>.ap (asS r.a) |>.ap (.ok (xf r 0 32)) |>.mz (xf r 32 6 = 0) |>.mz (r.b = 0) |>.lim)
  | 3 => some (Fld.ok (Instr.gstv r.h) |>.ap (asSz Sz.isVec (xf r 44 4).toNat) |>.ap (asCode Scope.ofCode (xf r 41 3).toNat) |>.ap (asOrd Ord.isGst (xf r 38 3).toNat) |>.ap (asS r.a) |>.ap (asV r.b) |>.ap (.ok (xf r 0 32)) |>.mz (xf r 32 6 = 0) |>.mz (r.d = 0) |>.lim)
  | 4 => some (Fld.ok (Instr.gpref r.h) |>.ap (asSz Sz.any (xf r 44 4).toNat) |>.ap (asCode Scope.ofCode (xf r 41 3).toNat) |>.chk (asOrdIs .rlx (xf r 38 3).toNat) |>.ap (asS r.a) |>.ap (.ok (xf r 0 32)) |>.mz (xf r 32 6 = 0) |>.mz (r.d = 0) |>.mz (r.b = 0) |>.lim)
  | _ => none

/-- Forms of OP 0x81 (R58). -/
def decode81 (r : Raw) : Option (Fld Instr) :=
  match r.fn.toNat with
  | 0 => some (Fld.ok (Instr.atom r.h) |>.ap (asSz Sz.isAtomic (xf r 44 4).toNat) |>.ap (asCode Scope.ofCode (xf r 41 3).toNat) |>.ap (asOrd Ord.any (xf r 38 3).toNat) |>.ap (asCode AOp.ofCode (xf r 32 6).toNat) |>.ap (asS r.d) |>.ap (asS r.a) |>.ap (asS r.b) |>.ap (.ok (xf r 0 32)) |>.lim)
  | 1 => some (Fld.ok (Instr.cas r.h) |>.ap (asSz Sz.isAtomic (xf r 44 4).toNat) |>.ap (asCode Scope.ofCode (xf r 41 3).toNat) |>.ap (asOrd Ord.any (xf r 38 3).toNat) |>.ap (.ok (xf r 32 3)) |>.ap (asS r.d) |>.ap (asS r.a) |>.ap (asS r.b) |>.ap (.ok (xf r 0 32)) |>.mz (xf r 35 3 = 0) |>.lim)
  | 2 => some (Fld.ok (Instr.atomDet r.h) |>.ap (asSz Sz.isAtomic (xf r 44 4).toNat) |>.ap (asCode Scope.ofCode (xf r 41 3).toNat) |>.ap (asOrd Ord.any (xf r 38 3).toNat) |>.ap (asCode AOp.ofCode (xf r 32 6).toNat) |>.ap (asS r.d) |>.ap (asS r.a) |>.ap (asS r.b) |>.ap (.ok (xf r 0 32)) |>.lim)
  | _ => none

/-- Forms of OP 0x82 (R58). -/
def decode82 (r : Raw) : Option (Fld Instr) :=
  match r.fn.toNat with
  | 0 => some (Fld.ok (Instr.rgnBegin r.h) |>.ap (asS r.d) |>.ap (.ok r.x) |>.mz (r.a = 0) |>.mz (r.b = 0) |>.lim)
  | 1 => some (Fld.ok (Instr.rgnCommit r.h) |>.ap (asB r 0) |>.mz (xf r 1 47 = 0) |>.mz (r.d = 0) |>.mz (r.a = 0) |>.mz (r.b = 0) |>.lim)
  | 2 => some (Fld.ok (Instr.rgnAbort r.h) |>.mz (xf r 0 48 = 0) |>.mz (r.d = 0) |>.mz (r.a = 0) |>.mz (r.b = 0) |>.lim)
  | _ => none

/-- Forms of OP 0x83 (R58). -/
def decode83 (r : Raw) : Option (Fld Instr) :=
  match r.fn.toNat with
  | 0 => some (if extBit r 4 = false then (Fld.ok (Instr.allocF r.h) |>.ap (.ok (xf r 0 4)) |>.ap (asS r.d) |>.ap (asS r.a) |>.mz (xf r 4 44 = 0) |>.mz (r.b = 0) |>.lim) else (Fld.ok (Instr.allocQ r.h) |>.ap (.ok (xf r 0 4)) |>.ap (.ok (xf r 5 3)) |>.ap (asS r.d) |>.ap (asS r.a) |>.mz (xf r 8 40 = 0) |>.mz (r.b = 0) |>.lim))
  | 1 => some (Fld.ok (Instr.free r.h) |>.ap (.ok (xf r 0 4)) |>.ap (asS r.a) |>.mz (xf r 4 44 = 0) |>.mz (r.d = 0) |>.mz (r.b = 0) |>.lim)
  | 2 => some (if extBit r 6 = false then (Fld.ok (Instr.heapInfo r.h) |>.ap (.ok (xf r 0 4)) |>.ap (asCode HeapW.ofCode (xf r 4 2).toNat) |>.ap (asS r.d) |>.mz (xf r 6 42 = 0) |>.mz (r.a = 0) |>.mz (r.b = 0) |>.lim) else (Fld.ok (Instr.heapInfoQuota r.h) |>.ap (.ok (xf r 0 4)) |>.ap (asS r.a) |>.mz (xf r 7 41 = 0) |>.mz (xf r 4 2 = 0) |>.mz (r.d = 0) |>.mz (r.b = 0) |>.lim))
  | _ => none

/-- Forms of OP 0x84 (R58). -/
def decode84 (r : Raw) : Option (Fld Instr) :=
  match r.fn.toNat with
  | 0 => some (if extBit r 0 = false then (Fld.ok (Instr.tlbInv r.h) |>.ap (asCode TlbScope.ofCode (xf r 1 2).toNat) |>.ap (asS r.a) |>.mz (xf r 3 45 = 0) |>.mz (xf r 0 1 = 0) |>.mz (r.d = 0) |>.mz (r.b = 0) |>.lim) else (Fld.ok (Instr.tlbInvAll r.h) |>.ap (asCode TlbScope.ofCode (xf r 1 2).toNat) |>.chk (asZero r.a) |>.mz (xf r 3 45 = 0) |>.mz (r.d = 0) |>.mz (r.b = 0) |>.lim))
  | 1 => some (if r.x.extractLsb' 0 2 = 0#2 then (Fld.ok (Instr.xlat r.h) |>.ap (asS r.d) |>.ap (asS r.a) |>.mz (xf r 0 48 = 0) |>.mz (r.b = 0) |>.lim) else if r.x.extractLsb' 0 2 = 1#2 then (Fld.ok (Instr.xlatResume r.h) |>.ap (asS r.a) |>.mz (xf r 1 47 = 0) |>.mz (r.d = 0) |>.mz (r.b = 0) |>.lim) else (Fld.ok (Instr.xlatRefuse r.h) |>.ap (asS r.a) |>.mz (xf r 2 46 = 0) |>.mz (xf r 0 1 = 0) |>.mz (r.d = 0) |>.mz (r.b = 0) |>.lim))
  | _ => none

/-- Forms of OP 0x90 (R58). -/
def decode90 (r : Raw) : Option (Fld Instr) :=
  match r.fn.toNat with
  | 0 => some (Fld.ok (Instr.tdSet r.h) |>.ap (asB r 0) |>.ap (asD r.d) |>.ap (asS r.a) |>.mz (xf r 1 47 = 0) |>.mz (r.b = 0) |>.lim)
  | 1 => some (Fld.ok (Instr.tdGet r.h) |>.ap (.ok (xf r 0 3)) |>.ap (asS r.d) |>.ap (asD r.a) |>.mz (xf r 3 45 = 0) |>.mz (r.b = 0) |>.lim)
  | 2 => some (Fld.ok (Instr.tdClr r.h) |>.ap (asD r.d) |>.mz (xf r 0 48 = 0) |>.mz (r.a = 0) |>.mz (r.b = 0) |>.lim)
  | _ => none

/-- Forms of OP 0x91 (R58). -/
def decode91 (r : Raw) : Option (Fld Instr) :=
  match r.fn.toNat with
  | 0 => some (Fld.ok (Instr.cpPush r.h) |>.ap (asSync r) |>.ap (.ok (xf r 0 8)) |>.ap (asB r 8) |>.ap (asCode Tr.ofCode (xf r 9 2).toNat) |>.ap (asD r.d) |>.ap (asD r.a) |>.ap (asS r.b) |>.mz (xf r 11 5 = 0) |>.mz (!(rsemBad r)) |>.lim)
  | 1 => some (Fld.ok (Instr.cpFill r.h) |>.ap (asSync r) |>.ap (asD r.d) |>.ap (asS r.b) |>.mz (xf r 0 16 = 0) |>.mz (r.a = 0) |>.lim)
  | 2 => some (Fld.ok (Instr.cpPullreq r.h) |>.ap (asSync r) |>.ap (.ok (xf r 0 8)) |>.ap (asB r 8) |>.ap (asD r.d) |>.ap (asD r.a) |>.mz (xf r 9 7 = 0) |>.mz (r.b = 0) |>.mz (!(rsemBad r)) |>.lim)
  | _ => none

/-- Forms of OP 0x92 (R58). -/
def decode92 (r : Raw) : Option (Fld Instr) :=
  match r.fn.toNat with
  | 0 => some (Fld.ok (Instr.mxLds r.h) |>.ap (asSync r) |>.ap (asD r.a) |>.mz (xf r 0 16 = 0) |>.mz (r.d = 0) |>.mz (r.b = 0) |>.lim)
  | 1 => some (Fld.ok (Instr.mxSwap r.h) |>.ap (asSync r) |>.mz (xf r 0 16 = 0) |>.mz (r.d = 0) |>.mz (r.a = 0) |>.mz (r.b = 0) |>.lim)
  | 2 => some (Fld.ok (Instr.mxStream r.h) |>.ap (asSync r) |>.ap (.ok (xf r 0 9)) |>.ap (asB r 9) |>.ap (asD r.a) |>.mz (xf r 10 6 = 0) |>.mz (r.d = 0) |>.mz (r.b = 0) |>.lim)
  | 3 => some (Fld.ok (Instr.mxConv r.h) |>.ap (asSync r) |>.ap (.ok (xf r 0 9)) |>.ap (asB r 9) |>.ap (asD r.a) |>.ap (asS r.b) |>.mz (xf r 10 6 = 0) |>.mz (r.d = 0) |>.lim)
  | 4 => some (if r.d.extractLsb' 6 2 = 1#2 then (Fld.ok (Instr.mxDrainV r.h) |>.ap (asSync r) |>.ap (.ok (xf r 0 9)) |>.ap (asCode Rm.ofCode (xf r 9 3).toNat) |>.ap (asB r 12) |>.ap (asCode Vt.ofCode (xf r 14 2).toNat) |>.ap (asV r.d) |>.mz (xf r 13 1 = 0) |>.mz (r.a = 0) |>.mz (r.b = 0) |>.lim) else (Fld.ok (Instr.mxDrainD r.h) |>.ap (asSync r) |>.ap (.ok (xf r 0 9)) |>.ap (asCode Rm.ofCode (xf r 9 3).toNat) |>.ap (asB r 12) |>.ap (asCode Tqt.ofCode (xf r 14 2).toNat) |>.ap (asD r.d) |>.mz (xf r 13 1 = 0) |>.mz (r.a = 0) |>.mz (r.b = 0) |>.lim))
  | 5 => some (Fld.ok (Instr.mxClr r.h) |>.ap (asSync r) |>.ap (.ok (xf r 0 9)) |>.ap (asB r 9) |>.ap (asCode Fill.ofCode (xf r 10 2).toNat) |>.ap (asS r.b) |>.mz (xf r 12 4 = 0) |>.mz (r.d = 0) |>.mz (r.a = 0) |>.lim)
  | 6 => some (Fld.ok (Instr.mxUprog r.h) |>.ap (asSync r) |>.ap (asB r 0) |>.ap (asB r 1) |>.ap (asS r.b) |>.mz (xf r 2 14 = 0) |>.mz (r.d = 0) |>.mz (r.a = 0) |>.mz (!(decide (r.x.extractLsb' 0 1 = 0) && decide (r.b ≠ 0))) |>.lim)
  | 7 => some (Fld.ok (Instr.mxStat r.h) |>.ap (asCode MxW.ofCode (xf r 0 2).toNat) |>.ap (asB r 2) |>.ap (asS r.d) |>.mz (xf r 3 45 = 0) |>.mz (r.a = 0) |>.mz (r.b = 0) |>.lim)
  | _ => none

/-- Forms of OP 0xA0 (R58). -/
def decodeA0 (r : Raw) : Option (Fld Instr) :=
  match r.fn.toNat with
  | 0 => some (Fld.ok (Instr.fence r.h) |>.ap (asCode Scope.ofCode (xf r 41 3).toNat) |>.ap (asB r 32) |>.ap (asB r 33) |>.ap (asB r 34) |>.ap (asB r 35) |>.mz (xf r 44 4 = 0) |>.mz (xf r 36 5 = 0) |>.mz (xf r 0 32 = 0) |>.mz (r.d = 0) |>.mz (r.a = 0) |>.mz (r.b = 0) |>.lim)
  | 1 => some (Fld.ok (Instr.fenceEng r.h) |>.ap (asCode Scope.ofCode (xf r 41 3).toNat) |>.ap (asB r 32) |>.ap (asB r 33) |>.mz (xf r 44 4 = 0) |>.mz (xf r 34 7 = 0) |>.mz (xf r 0 32 = 0) |>.mz (r.d = 0) |>.mz (r.a = 0) |>.mz (r.b = 0) |>.lim)
  | _ => none

/-- Forms of OP 0xA8 (R58). -/
def decodeA8 (r : Raw) : Option (Fld Instr) :=
  match r.fn.toNat with
  | 0 => some (Fld.ok (Instr.demPost r.h) |>.ap (asS r.a) |>.ap (asS r.b) |>.mz (xf r 0 48 = 0) |>.mz (r.d = 0) |>.lim)
  | 1 => some (Fld.ok (Instr.demClose r.h) |>.ap (asS r.d) |>.mz (xf r 0 48 = 0) |>.mz (r.a = 0) |>.mz (r.b = 0) |>.lim)
  | 2 => some (Fld.ok (Instr.calWait r.h) |>.ap (.ok (xf r 41 7)) |>.ap (.ok (xf r 9 3)) |>.ap (asB r 13) |>.ap (asS r.d) |>.mz (xf r 14 27 = 0) |>.mz (xf r 12 1 = 0) |>.mz (xf r 0 9 = 0) |>.mz (r.a = 0) |>.mz (r.b = 0) |>.lim)
  | 3 => some (Fld.ok (Instr.xchSend r.h) |>.ap (asSync r) |>.ap (.ok (xf r 0 8)) |>.ap (asB r 8) |>.ap (asD r.d) |>.ap (asD r.a) |>.ap (asS r.b) |>.mz (xf r 9 7 = 0) |>.mz (!(rsemBad r)) |>.lim)
  | 4 => some (Fld.ok (Instr.xchStat r.h) |>.ap (asCode XchW.ofCode (xf r 0 3).toNat) |>.ap (asS r.d) |>.mz (xf r 3 45 = 0) |>.mz (r.a = 0) |>.mz (r.b = 0) |>.lim)
  | _ => none

/-- Forms of OP 0xA9 (R58). -/
def decodeA9 (r : Raw) : Option (Fld Instr) :=
  match r.fn.toNat with
  | 0 => some (Fld.ok (Instr.gwTake r.h) |>.ap (asS r.d) |>.ap (asS r.a) |>.mz (xf r 0 48 = 0) |>.mz (r.b = 0) |>.lim)
  | 1 => some (Fld.ok (Instr.gwDone r.h) |>.ap (asS r.a) |>.mz (xf r 0 48 = 0) |>.mz (r.d = 0) |>.mz (r.b = 0) |>.lim)
  | _ => none

/-- Forms of OP 0xB0 (R58). -/
def decodeB0 (r : Raw) : Option (Fld Instr) :=
  match r.fn.toNat with
  | 0 => some (if extBit r 0 = false then (Fld.ok (Instr.recMark r.h) |>.ap (asS r.a) |>.mz (xf r 0 48 = 0) |>.mz (r.d = 0) |>.mz (r.b = 0) |>.lim) else (Fld.ok (Instr.recMarkDrain r.h) |>.ap (asS r.a) |>.mz (xf r 1 47 = 0) |>.mz (r.d = 0) |>.mz (r.b = 0) |>.lim))
  | 1 => some (Fld.ok (Instr.recStat r.h) |>.ap (asCode RecW.ofCode (xf r 0 2).toNat) |>.ap (asS r.d) |>.mz (xf r 2 46 = 0) |>.mz (r.a = 0) |>.mz (r.b = 0) |>.lim)
  | 2 => some (Fld.ok (Instr.detCycle r.h) |>.ap (asB r 0) |>.ap (asS r.d) |>.mz (xf r 1 47 = 0) |>.mz (r.a = 0) |>.mz (r.b = 0) |>.lim)
  | _ => none

/-- Forms of OP 0xB8 (R58). -/
def decodeB8 (r : Raw) : Option (Fld Instr) :=
  match r.fn.toNat with
  | 0 => some (Fld.ok (Instr.trap r.h) |>.ap (.ok r.x) |>.mz (r.d = 0) |>.mz (r.a = 0) |>.mz (r.b = 0) |>.lim)
  | 1 => some (Fld.ok (Instr.eret r.h) |>.ap (asB r 0) |>.mz (xf r 1 47 = 0) |>.mz (r.d = 0) |>.mz (r.a = 0) |>.mz (r.b = 0) |>.lim)
  | 2 => some (Fld.ok (Instr.cause r.h) |>.ap (asB r 0) |>.ap (.ok (xf r 1 3)) |>.ap (asS r.d) |>.mz (xf r 4 44 = 0) |>.mz (r.a = 0) |>.mz (r.b = 0) |>.lim)
  | 3 => some (Fld.ok (Instr.einj r.h) |>.ap (asCode EinjK.ofCode (xf r 0 2).toNat) |>.ap (asS r.a) |>.ap (asS r.b) |>.mz (xf r 2 46 = 0) |>.mz (r.d = 0) |>.lim)
  | 4 => some (Fld.ok (Instr.elog r.h) |>.ap (.ok (xf r 0 2)) |>.ap (asB r 2) |>.ap (asS r.d) |>.ap (asS r.a) |>.mz (xf r 3 45 = 0) |>.mz (r.b = 0) |>.lim)
  | _ => none

/-- The form of a word, by its major opcode; none for an unassigned cell (R57, R59). -/
noncomputable def decodeRaw (r : Raw) : Option (Fld Instr) :=
  match r.op.toNat with
  | 0x01 => decode01 r
  | 0x02 => decode02 r
  | 0x03 => decode03 r
  | 0x04 => decode04 r
  | 0x10 => decode10 r
  | 0x11 => decode11 r
  | 0x12 => decode12 r
  | 0x13 => decode13 r
  | 0x14 => decode14 r
  | 0x15 => decode15 r
  | 0x30 => decode30 r
  | 0x31 => decode31 r
  | 0x32 => decode32 r
  | 0x33 => decode33 r
  | 0x34 => decode34 r
  | 0x35 => decode35 r
  | 0x36 => decode36 r
  | 0x37 => decode37 r
  | 0x60 => decode60 r
  | 0x61 => decode61 r
  | 0x62 => decode62 r
  | 0x63 => decode63 r
  | 0x70 => decode70 r
  | 0x74 => decode74 r
  | 0x75 => decode75 r
  | 0x76 => decode76 r
  | 0x77 => decode77 r
  | 0x80 => decode80 r
  | 0x81 => decode81 r
  | 0x82 => decode82 r
  | 0x83 => decode83 r
  | 0x84 => decode84 r
  | 0x90 => decode90 r
  | 0x91 => decode91 r
  | 0x92 => decode92 r
  | 0xa0 => decodeA0 r
  | 0xa8 => decodeA8 r
  | 0xa9 => decodeA9 r
  | 0xb0 => decodeB0 r
  | 0xb8 => decodeB8 r
  | _ => none

/-- The instruction of a word, or the step of R44 that refuses it. A word of an unassigned cell is the instruction that
faults with illegal_instruction (R59). -/
noncomputable def decode (w : IWord) : Except DecErr Instr :=
  match decodeRaw (Raw.unpack w) with
  | none => .ok (.illegalInstruction w)
  | some (.ok i) => .ok i
  | some .rsv => .error .reservedField
  | some .ill => .error .illegalOperand

/-- The instruction that 12 bytes hold, least significant first (R40). -/
noncomputable def decodeBytes (bs : List Byte) : Except DecErr Instr := decode (BitVec.ofNat 96 (natOfBytes bs))

/-- The decoder on a word numbered as the opcode table numbers it; bits above those given are 0. -/
noncomputable def decodeTableWord (_nbits w : Nat) : Option Instr :=
  match decode (BitVec.ofNat 96 w) with
  | .ok i => some i
  | .error _ => none

/-! ### The encoder -/

/-- The fields of a form (R43, R50, R58); none for an event, which is no word, and for a word of an unassigned cell. -/
def encodeRaw : Instr → Option Raw
  | .br h off => some ⟨0x01, 0, h, 0, 0, 0, (off : BitVec 48)⟩
  | .bri h a => some ⟨0x01, 1, h, 0, encS a, 0, 0#48⟩
  | .call h d off => some ⟨0x01, 2, h, encS d, 0, 0, (off : BitVec 48)⟩
  | .calli h d a => some ⟨0x01, 3, h, encS d, encS a, 0, 0#48⟩
  | .ret h a => some ⟨0x01, 4, h, 0, encS a, 0, 0#48⟩
  | .loop h d off => some ⟨0x01, 5, h, encS d, 0, 0, (off : BitVec 48)⟩
  | .exit h => some ⟨0x02, 0, h, 0, 0, 0, 0#48⟩
  | .yield h => some ⟨0x02, 1, h, 0, 0, 0, 0#48⟩
  | .park h => some ⟨0x02, 2, h, 0, 0, 0, 0#48⟩
  | .nop h => some ⟨0x02, 3, h, 0, 0, 0, 0#48⟩
  | .sleepr h imm => some ⟨0x02, 4, h, 0, 0, 0, (0#32 ++ imm : BitVec 48)⟩
  | .mfsr h d imm => some ⟨0x02, 5, h, encS d, 0, 0, (BitVec.ofNat 48 imm.code : BitVec 48)⟩
  | .mtsr h a imm => some ⟨0x02, 6, h, 0, encS a, 0, (BitVec.ofNat 48 imm.code : BitVec 48)⟩
  | .spawnAt h d a b c => some ⟨0x03, 0, h, encS d, encS a, encS b, (encS c : BitVec 8) ++ 0#40⟩
  | .spawnRet h a => some ⟨0x03, 1, h, 0, encS a, 0, 0#48⟩
  | .spawnQ h d a b c => some ⟨0x03, 2, h, encP d, encS a, encS b, (encS c : BitVec 8) ++ 0#40⟩
  | .launch h d a => some ⟨0x04, 0, h, encS d, encS a, 0, 0#48⟩
  | .graphOpen h d => some ⟨0x04, 1, h, encS d, 0, 0, 0#48⟩
  | .graphAdd h d a b => some ⟨0x04, 2, h, encS d, encS a, encS b, 0#48⟩
  | .graphEdge h a b c => some ⟨0x04, 3, h, 0, encS a, encS b, (encS c : BitVec 8) ++ 0#40⟩
  | .graphSubmit h a => some ⟨0x04, 4, h, 0, encS a, 0, 0#48⟩
  | .doneWait h lvl poll d a => some ⟨0x04, 5, h, encS d, encS a, 0, 0#45 ++ (BitVec.ofBool poll : BitVec 1) ++ (BitVec.ofNat 2 lvl.code : BitVec 2)⟩
  | .cancel h lvl a => some ⟨0x04, 6, h, 0, encS a, 0, 0#46 ++ (BitVec.ofNat 2 lvl.code : BitVec 2)⟩
  | .phaseEnter h d a => some ⟨0x04, 7, h, encS d, encS a, 0, 0#48⟩
  | .phaseLeave h d => some ⟨0x04, 8, h, encS d, 0, 0, 0#48⟩
  | .add h d a b => some ⟨0x10, 0, h, encS d, encS a, encS b, 0#48⟩
  | .sub h d a b => some ⟨0x10, 1, h, encS d, encS a, encS b, 0#48⟩
  | .mul h d a b => some ⟨0x10, 2, h, encS d, encS a, encS b, 0#48⟩
  | .mulh h d a b => some ⟨0x10, 3, h, encS d, encS a, encS b, 0#48⟩
  | .mulhn h d a b => some ⟨0x10, 4, h, encS d, encS a, encS b, 0#48⟩
  | .div h d a b => some ⟨0x10, 5, h, encS d, encS a, encS b, 0#48⟩
  | .divn h d a b => some ⟨0x10, 6, h, encS d, encS a, encS b, 0#48⟩
  | .rem h d a b => some ⟨0x10, 7, h, encS d, encS a, encS b, 0#48⟩
  | .remn h d a b => some ⟨0x10, 8, h, encS d, encS a, encS b, 0#48⟩
  | .and h d a b => some ⟨0x10, 9, h, encS d, encS a, encS b, 0#48⟩
  | .or h d a b => some ⟨0x10, 10, h, encS d, encS a, encS b, 0#48⟩
  | .xor h d a b => some ⟨0x10, 11, h, encS d, encS a, encS b, 0#48⟩
  | .andn h d a b => some ⟨0x10, 12, h, encS d, encS a, encS b, 0#48⟩
  | .shl h d a b => some ⟨0x10, 13, h, encS d, encS a, encS b, 0#48⟩
  | .shr h d a b => some ⟨0x10, 14, h, encS d, encS a, encS b, 0#48⟩
  | .sar h d a b => some ⟨0x10, 15, h, encS d, encS a, encS b, 0#48⟩
  | .rol h d a b => some ⟨0x10, 16, h, encS d, encS a, encS b, 0#48⟩
  | .min h d a b => some ⟨0x10, 17, h, encS d, encS a, encS b, 0#48⟩
  | .max h d a b => some ⟨0x10, 18, h, encS d, encS a, encS b, 0#48⟩
  | .minn h d a b => some ⟨0x10, 19, h, encS d, encS a, encS b, 0#48⟩
  | .maxn h d a b => some ⟨0x10, 20, h, encS d, encS a, encS b, 0#48⟩
  | .addsat h d a b => some ⟨0x10, 21, h, encS d, encS a, encS b, 0#48⟩
  | .addImm h d a imm => some ⟨0x11, 0, h, encS d, encS a, 0, (imm : BitVec 48)⟩
  | .subImm h d a imm => some ⟨0x11, 1, h, encS d, encS a, 0, (imm : BitVec 48)⟩
  | .mulImm h d a imm => some ⟨0x11, 2, h, encS d, encS a, 0, (imm : BitVec 48)⟩
  | .mulhImm h d a imm => some ⟨0x11, 3, h, encS d, encS a, 0, (imm : BitVec 48)⟩
  | .mulhnImm h d a imm => some ⟨0x11, 4, h, encS d, encS a, 0, (imm : BitVec 48)⟩
  | .divImm h d a imm => some ⟨0x11, 5, h, encS d, encS a, 0, (imm : BitVec 48)⟩
  | .divnImm h d a imm => some ⟨0x11, 6, h, encS d, encS a, 0, (imm : BitVec 48)⟩
  | .remImm h d a imm => some ⟨0x11, 7, h, encS d, encS a, 0, (imm : BitVec 48)⟩
  | .remnImm h d a imm => some ⟨0x11, 8, h, encS d, encS a, 0, (imm : BitVec 48)⟩
  | .andImm h d a imm => some ⟨0x11, 9, h, encS d, encS a, 0, (imm : BitVec 48)⟩
  | .orImm h d a imm => some ⟨0x11, 10, h, encS d, encS a, 0, (imm : BitVec 48)⟩
  | .xorImm h d a imm => some ⟨0x11, 11, h, encS d, encS a, 0, (imm : BitVec 48)⟩
  | .andnImm h d a imm => some ⟨0x11, 12, h, encS d, encS a, 0, (imm : BitVec 48)⟩
  | .shlImm h d a imm => some ⟨0x11, 13, h, encS d, encS a, 0, (imm : BitVec 48)⟩
  | .shrImm h d a imm => some ⟨0x11, 14, h, encS d, encS a, 0, (imm : BitVec 48)⟩
  | .sarImm h d a imm => some ⟨0x11, 15, h, encS d, encS a, 0, (imm : BitVec 48)⟩
  | .rolImm h d a imm => some ⟨0x11, 16, h, encS d, encS a, 0, (imm : BitVec 48)⟩
  | .minImm h d a imm => some ⟨0x11, 17, h, encS d, encS a, 0, (imm : BitVec 48)⟩
  | .maxImm h d a imm => some ⟨0x11, 18, h, encS d, encS a, 0, (imm : BitVec 48)⟩
  | .minnImm h d a imm => some ⟨0x11, 19, h, encS d, encS a, 0, (imm : BitVec 48)⟩
  | .maxnImm h d a imm => some ⟨0x11, 20, h, encS d, encS a, 0, (imm : BitVec 48)⟩
  | .addsatImm h d a imm => some ⟨0x11, 21, h, encS d, encS a, 0, (imm : BitVec 48)⟩
  | .clz h d a => some ⟨0x12, 0, h, encS d, encS a, 0, 0#48⟩
  | .ctz h d a => some ⟨0x12, 1, h, encS d, encS a, 0, 0#48⟩
  | .popc h d a => some ⟨0x12, 2, h, encS d, encS a, 0, 0#48⟩
  | .brev h d a => some ⟨0x12, 3, h, encS d, encS a, 0, 0#48⟩
  | .ext h pos lenm1 d a => some ⟨0x12, 4, h, encS d, encS a, 0, 0#36 ++ (pos : BitVec 6) ++ (lenm1 : BitVec 6)⟩
  | .extn h pos lenm1 d a => some ⟨0x12, 5, h, encS d, encS a, 0, 0#36 ++ (pos : BitVec 6) ++ (lenm1 : BitVec 6)⟩
  | .ins h pos lenm1 d a => some ⟨0x12, 6, h, encS d, encS a, 0, 0#36 ++ (pos : BitVec 6) ++ (lenm1 : BitVec 6)⟩
  | .bswap h d a => some ⟨0x12, 7, h, encS d, encS a, 0, 0#48⟩
  | .cmp h cond d a b => some ⟨0x13, 0, h, encP d, encS a, encS b, 0#45 ++ (BitVec.ofNat 3 cond.code : BitVec 3)⟩
  | .sel h d a b c => some ⟨0x13, 1, h, encS d, encS a, encS b, (encP c : BitVec 8) ++ 0#40⟩
  | .mov h d a => some ⟨0x13, 2, h, encS d, encS a, 0, 0#48⟩
  | .movi h d imm => some ⟨0x13, 3, h, encS d, 0, 0, (imm : BitVec 48)⟩
  | .movhi h d imm => some ⟨0x13, 4, h, encS d, 0, 0, (0#32 ++ imm : BitVec 48)⟩
  | .lea h sz d a b ofs => some ⟨0x13, 5, h, encS d, encS a, encS b, (BitVec.ofNat 4 sz.code : BitVec 4) ++ 0#12 ++ (ofs : BitVec 32)⟩
  | .isfull h d a => some ⟨0x15, 0, h, encP d, encReg a, 0, 0#48⟩
  | .mkempty h d => some ⟨0x15, 1, h, encReg d, 0, 0, 0#48⟩
  | .mkfull h d => some ⟨0x15, 2, h, encReg d, 0, 0, 0#48⟩
  | .vadd h t rm m d a b => some ⟨0x30, 0, h, encV d, encV a, encV b, 0#8 ++ (BitVec.ofNat 5 t.code : BitVec 5) ++ (BitVec.ofNat 3 rm.code : BitVec 3) ++ (m.k : BitVec 3) ++ (BitVec.ofBool m.z : BitVec 1) ++ 0#28⟩
  | .vsub h t rm m d a b => some ⟨0x30, 1, h, encV d, encV a, encV b, 0#8 ++ (BitVec.ofNat 5 t.code : BitVec 5) ++ (BitVec.ofNat 3 rm.code : BitVec 3) ++ (m.k : BitVec 3) ++ (BitVec.ofBool m.z : BitVec 1) ++ 0#28⟩
  | .vmul h t rm m d a b => some ⟨0x30, 2, h, encV d, encV a, encV b, 0#8 ++ (BitVec.ofNat 5 t.code : BitVec 5) ++ (BitVec.ofNat 3 rm.code : BitVec 3) ++ (m.k : BitVec 3) ++ (BitVec.ofBool m.z : BitVec 1) ++ 0#28⟩
  | .vfma h t rm m d a b c => some ⟨0x30, 3, h, encV d, encV a, encV b, (encV c : BitVec 8) ++ (BitVec.ofNat 5 t.code : BitVec 5) ++ (BitVec.ofNat 3 rm.code : BitVec 3) ++ (m.k : BitVec 3) ++ (BitVec.ofBool m.z : BitVec 1) ++ 0#28⟩
  | .vfms h t rm m d a b c => some ⟨0x30, 4, h, encV d, encV a, encV b, (encV c : BitVec 8) ++ (BitVec.ofNat 5 t.code : BitVec 5) ++ (BitVec.ofNat 3 rm.code : BitVec 3) ++ (m.k : BitVec 3) ++ (BitVec.ofBool m.z : BitVec 1) ++ 0#28⟩
  | .vfnma h t rm m d a b c => some ⟨0x30, 5, h, encV d, encV a, encV b, (encV c : BitVec 8) ++ (BitVec.ofNat 5 t.code : BitVec 5) ++ (BitVec.ofNat 3 rm.code : BitVec 3) ++ (m.k : BitVec 3) ++ (BitVec.ofBool m.z : BitVec 1) ++ 0#28⟩
  | .vdiv h t rm m d a b => some ⟨0x30, 6, h, encV d, encV a, encV b, 0#8 ++ (BitVec.ofNat 5 t.code : BitVec 5) ++ (BitVec.ofNat 3 rm.code : BitVec 3) ++ (m.k : BitVec 3) ++ (BitVec.ofBool m.z : BitVec 1) ++ 0#28⟩
  | .vsqrt h t rm m d a => some ⟨0x30, 7, h, encV d, encV a, 0, 0#8 ++ (BitVec.ofNat 5 t.code : BitVec 5) ++ (BitVec.ofNat 3 rm.code : BitVec 3) ++ (m.k : BitVec 3) ++ (BitVec.ofBool m.z : BitVec 1) ++ 0#28⟩
  | .vabs h t m d a => some ⟨0x30, 8, h, encV d, encV a, 0, 0#8 ++ (BitVec.ofNat 5 t.code : BitVec 5) ++ 0#3 ++ (m.k : BitVec 3) ++ (BitVec.ofBool m.z : BitVec 1) ++ 0#28⟩
  | .vneg h t m d a => some ⟨0x30, 9, h, encV d, encV a, 0, 0#8 ++ (BitVec.ofNat 5 t.code : BitVec 5) ++ 0#3 ++ (m.k : BitVec 3) ++ (BitVec.ofBool m.z : BitVec 1) ++ 0#28⟩
  | .vmin h t m d a b => some ⟨0x30, 10, h, encV d, encV a, encV b, 0#8 ++ (BitVec.ofNat 5 t.code : BitVec 5) ++ 0#3 ++ (m.k : BitVec 3) ++ (BitVec.ofBool m.z : BitVec 1) ++ 0#28⟩
  | .vmax h t m d a b => some ⟨0x30, 11, h, encV d, encV a, encV b, 0#8 ++ (BitVec.ofNat 5 t.code : BitVec 5) ++ 0#3 ++ (m.k : BitVec 3) ++ (BitVec.ofBool m.z : BitVec 1) ++ 0#28⟩
  | .vminnum h t m d a b => some ⟨0x30, 12, h, encV d, encV a, encV b, 0#8 ++ (BitVec.ofNat 5 t.code : BitVec 5) ++ 0#3 ++ (m.k : BitVec 3) ++ (BitVec.ofBool m.z : BitVec 1) ++ 0#28⟩
  | .vmaxnum h t m d a b => some ⟨0x30, 13, h, encV d, encV a, encV b, 0#8 ++ (BitVec.ofNat 5 t.code : BitVec 5) ++ 0#3 ++ (m.k : BitVec 3) ++ (BitVec.ofBool m.z : BitVec 1) ++ 0#28⟩
  | .vcmp h t cond m d a b => some ⟨0x30, 14, h, encK d, encV a, encV b, 0#8 ++ (BitVec.ofNat 5 t.code : BitVec 5) ++ 0#3 ++ (m.k : BitVec 3) ++ (BitVec.ofBool m.z : BitVec 1) ++ 0#25 ++ (BitVec.ofNat 3 cond.code : BitVec 3)⟩
  | .vround h t rm m d a => some ⟨0x30, 15, h, encV d, encV a, 0, 0#8 ++ (BitVec.ofNat 5 t.code : BitVec 5) ++ (BitVec.ofNat 3 rm.code : BitVec 3) ++ (m.k : BitVec 3) ++ (BitVec.ofBool m.z : BitVec 1) ++ 0#28⟩
  | .viadd h t sat m d a b => some ⟨0x31, 0, h, encV d, encV a, encV b, 0#8 ++ (BitVec.ofNat 5 t.code : BitVec 5) ++ 0#3 ++ (m.k : BitVec 3) ++ (BitVec.ofBool m.z : BitVec 1) ++ 0#27 ++ (BitVec.ofBool sat : BitVec 1)⟩
  | .visub h t sat m d a b => some ⟨0x31, 1, h, encV d, encV a, encV b, 0#8 ++ (BitVec.ofNat 5 t.code : BitVec 5) ++ 0#3 ++ (m.k : BitVec 3) ++ (BitVec.ofBool m.z : BitVec 1) ++ 0#27 ++ (BitVec.ofBool sat : BitVec 1)⟩
  | .vimul h t m d a b => some ⟨0x31, 2, h, encV d, encV a, encV b, 0#8 ++ (BitVec.ofNat 5 t.code : BitVec 5) ++ 0#3 ++ (m.k : BitVec 3) ++ (BitVec.ofBool m.z : BitVec 1) ++ 0#28⟩
  | .vimulh h t m d a b => some ⟨0x31, 3, h, encV d, encV a, encV b, 0#8 ++ (BitVec.ofNat 5 t.code : BitVec 5) ++ 0#3 ++ (m.k : BitVec 3) ++ (BitVec.ofBool m.z : BitVec 1) ++ 0#28⟩
  | .vimin h t m d a b => some ⟨0x31, 4, h, encV d, encV a, encV b, 0#8 ++ (BitVec.ofNat 5 t.code : BitVec 5) ++ 0#3 ++ (m.k : BitVec 3) ++ (BitVec.ofBool m.z : BitVec 1) ++ 0#28⟩
  | .vimax h t m d a b => some ⟨0x31, 5, h, encV d, encV a, encV b, 0#8 ++ (BitVec.ofNat 5 t.code : BitVec 5) ++ 0#3 ++ (m.k : BitVec 3) ++ (BitVec.ofBool m.z : BitVec 1) ++ 0#28⟩
  | .vand h t m d a b => some ⟨0x31, 6, h, encV d, encV a, encV b, 0#8 ++ (BitVec.ofNat 5 t.code : BitVec 5) ++ 0#3 ++ (m.k : BitVec 3) ++ (BitVec.ofBool m.z : BitVec 1) ++ 0#28⟩
  | .vor h t m d a b => some ⟨0x31, 7, h, encV d, encV a, encV b, 0#8 ++ (BitVec.ofNat 5 t.code : BitVec 5) ++ 0#3 ++ (m.k : BitVec 3) ++ (BitVec.ofBool m.z : BitVec 1) ++ 0#28⟩
  | .vxor h t m d a b => some ⟨0x31, 8, h, encV d, encV a, encV b, 0#8 ++ (BitVec.ofNat 5 t.code : BitVec 5) ++ 0#3 ++ (m.k : BitVec 3) ++ (BitVec.ofBool m.z : BitVec 1) ++ 0#28⟩
  | .vshl h t m d a b => some ⟨0x31, 9, h, encV d, encV a, encV b, 0#8 ++ (BitVec.ofNat 5 t.code : BitVec 5) ++ 0#3 ++ (m.k : BitVec 3) ++ (BitVec.ofBool m.z : BitVec 1) ++ 0#28⟩
  | .vshr h t m d a b => some ⟨0x31, 10, h, encV d, encV a, encV b, 0#8 ++ (BitVec.ofNat 5 t.code : BitVec 5) ++ 0#3 ++ (m.k : BitVec 3) ++ (BitVec.ofBool m.z : BitVec 1) ++ 0#28⟩
  | .vsar h t m d a b => some ⟨0x31, 11, h, encV d, encV a, encV b, 0#8 ++ (BitVec.ofNat 5 t.code : BitVec 5) ++ 0#3 ++ (m.k : BitVec 3) ++ (BitVec.ofBool m.z : BitVec 1) ++ 0#28⟩
  | .vicmp h t cond m d a b => some ⟨0x31, 12, h, encK d, encV a, encV b, 0#8 ++ (BitVec.ofNat 5 t.code : BitVec 5) ++ 0#3 ++ (m.k : BitVec 3) ++ (BitVec.ofBool m.z : BitVec 1) ++ 0#25 ++ (BitVec.ofNat 3 cond.code : BitVec 3)⟩
  | .vmov h t m d a => some ⟨0x32, 0, h, encV d, encV a, 0, 0#8 ++ (BitVec.ofNat 5 t.code : BitVec 5) ++ 0#3 ++ (m.k : BitVec 3) ++ (BitVec.ofBool m.z : BitVec 1) ++ 0#28⟩
  | .vbcast h t m d a => some ⟨0x32, 1, h, encV d, encS a, 0, 0#8 ++ (BitVec.ofNat 5 t.code : BitVec 5) ++ 0#3 ++ (m.k : BitVec 3) ++ (BitVec.ofBool m.z : BitVec 1) ++ 0#28⟩
  | .vsel h t d a b c => some ⟨0x32, 2, h, encV d, encV a, encV b, (encK c : BitVec 8) ++ (BitVec.ofNat 5 t.code : BitVec 5) ++ 0#35⟩
  | .vperm h t m d a b => some ⟨0x32, 3, h, encV d, encV a, encV b, 0#8 ++ (BitVec.ofNat 5 t.code : BitVec 5) ++ 0#3 ++ (m.k : BitVec 3) ++ (BitVec.ofBool m.z : BitVec 1) ++ 0#28⟩
  | .vextr h t d a b => some ⟨0x32, 4, h, encS d, encV a, encS b, 0#8 ++ (BitVec.ofNat 5 t.code : BitVec 5) ++ 0#35⟩
  | .vins h t d a b => some ⟨0x32, 5, h, encV d, encS a, encS b, 0#8 ++ (BitVec.ofNat 5 t.code : BitVec 5) ++ 0#35⟩
  | .viota h t m d => some ⟨0x32, 6, h, encV d, 0, 0, 0#8 ++ (BitVec.ofNat 5 t.code : BitVec 5) ++ 0#3 ++ (m.k : BitVec 3) ++ (BitVec.ofBool m.z : BitVec 1) ++ 0#28⟩
  | .vcompress h t k d a => some ⟨0x32, 7, h, encV d, encV a, 0, 0#8 ++ (BitVec.ofNat 5 t.code : BitVec 5) ++ 0#3 ++ (k : BitVec 3) ++ 0#29⟩
  | .vcvt h t rm src hi m d a => some ⟨0x33, 0, h, encV d, encV a, 0, 0#8 ++ (BitVec.ofNat 5 t.code : BitVec 5) ++ (BitVec.ofNat 3 rm.code : BitVec 3) ++ (m.k : BitVec 3) ++ (BitVec.ofBool m.z : BitVec 1) ++ 0#22 ++ (BitVec.ofBool hi : BitVec 1) ++ (BitVec.ofNat 5 src.code : BitVec 5)⟩
  | .vquant h t pos tqt d a => some ⟨0x33, 1, h, encV d, encV a, 0, 0#8 ++ (BitVec.ofNat 5 t.code : BitVec 5) ++ 0#29 ++ (BitVec.ofNat 2 tqt.code : BitVec 2) ++ (pos : BitVec 4)⟩
  | .vdequant h t pos d a => some ⟨0x33, 2, h, encV d, encV a, 0, 0#8 ++ (BitVec.ofNat 5 t.code : BitVec 5) ++ 0#31 ++ (pos : BitVec 4)⟩
  | .vbaddq h t pos d a b => some ⟨0x33, 3, h, encV d, encV a, encV b, 0#8 ++ (BitVec.ofNat 5 t.code : BitVec 5) ++ 0#31 ++ (pos : BitVec 4)⟩
  | .vred h t rm rop k d a => some ⟨0x34, 0, h, encS d, encV a, 0, 0#8 ++ (BitVec.ofNat 5 t.code : BitVec 5) ++ (BitVec.ofNat 3 rm.code : BitVec 3) ++ (k : BitVec 3) ++ 0#26 ++ (BitVec.ofNat 3 rop.code : BitVec 3)⟩
  | .vscan h t rm rop m d a => some ⟨0x34, 1, h, encV d, encV a, 0, 0#8 ++ (BitVec.ofNat 5 t.code : BitVec 5) ++ (BitVec.ofNat 3 rm.code : BitVec 3) ++ (m.k : BitVec 3) ++ (BitVec.ofBool m.z : BitVec 1) ++ 0#25 ++ (BitVec.ofNat 3 rop.code : BitVec 3)⟩
  | .pmerge h t rm m d a b => some ⟨0x34, 2, h, encV d, encV a, encV b, 0#8 ++ (BitVec.ofNat 5 t.code : BitVec 5) ++ (BitVec.ofNat 3 rm.code : BitVec 3) ++ (m.k : BitVec 3) ++ (BitVec.ofBool m.z : BitVec 1) ++ 0#28⟩
  | .vdot h t rm k d a b => some ⟨0x34, 3, h, encS d, encV a, encV b, 0#8 ++ (BitVec.ofNat 5 t.code : BitVec 5) ++ (BitVec.ofNat 3 rm.code : BitVec 3) ++ (k : BitVec 3) ++ 0#29⟩
  | .vexp2 h t rm m d a => some ⟨0x35, 0, h, encV d, encV a, 0, 0#8 ++ (BitVec.ofNat 5 t.code : BitVec 5) ++ (BitVec.ofNat 3 rm.code : BitVec 3) ++ (m.k : BitVec 3) ++ (BitVec.ofBool m.z : BitVec 1) ++ 0#28⟩
  | .vlog2 h t rm m d a => some ⟨0x35, 1, h, encV d, encV a, 0, 0#8 ++ (BitVec.ofNat 5 t.code : BitVec 5) ++ (BitVec.ofNat 3 rm.code : BitVec 3) ++ (m.k : BitVec 3) ++ (BitVec.ofBool m.z : BitVec 1) ++ 0#28⟩
  | .vrcp h t rm m d a => some ⟨0x35, 2, h, encV d, encV a, 0, 0#8 ++ (BitVec.ofNat 5 t.code : BitVec 5) ++ (BitVec.ofNat 3 rm.code : BitVec 3) ++ (m.k : BitVec 3) ++ (BitVec.ofBool m.z : BitVec 1) ++ 0#28⟩
  | .vrsq h t rm m d a => some ⟨0x35, 3, h, encV d, encV a, 0, 0#8 ++ (BitVec.ofNat 5 t.code : BitVec 5) ++ (BitVec.ofNat 3 rm.code : BitVec 3) ++ (m.k : BitVec 3) ++ (BitVec.ofBool m.z : BitVec 1) ++ 0#28⟩
  | .vsin h t rm m d a => some ⟨0x35, 4, h, encV d, encV a, 0, 0#8 ++ (BitVec.ofNat 5 t.code : BitVec 5) ++ (BitVec.ofNat 3 rm.code : BitVec 3) ++ (m.k : BitVec 3) ++ (BitVec.ofBool m.z : BitVec 1) ++ 0#28⟩
  | .vcos h t rm m d a => some ⟨0x35, 5, h, encV d, encV a, 0, 0#8 ++ (BitVec.ofNat 5 t.code : BitVec 5) ++ (BitVec.ofNat 3 rm.code : BitVec 3) ++ (m.k : BitVec 3) ++ (BitVec.ofBool m.z : BitVec 1) ++ 0#28⟩
  | .vtanh h t rm m d a => some ⟨0x35, 6, h, encV d, encV a, 0, 0#8 ++ (BitVec.ofNat 5 t.code : BitVec 5) ++ (BitVec.ofNat 3 rm.code : BitVec 3) ++ (m.k : BitVec 3) ++ (BitVec.ofBool m.z : BitVec 1) ++ 0#28⟩
  | .xaGet h xd d => some ⟨0x37, 0, h, encP d, 0, 0, 0#45 ++ (xd : BitVec 3)⟩
  | .xaPut h xd => some ⟨0x37, 1, h, 0, 0, 0, 0#45 ++ (xd : BitVec 3)⟩
  | .xaClr h xd => some ⟨0x37, 2, h, 0, 0, 0, 0#45 ++ (xd : BitVec 3)⟩
  | .xaAddp h xd neg a b => some ⟨0x37, 3, h, 0, encS a, encS b, 0#8 ++ (BitVec.ofNat 5 Ty.f64.code : BitVec 5) ++ 0#28 ++ (BitVec.ofBool neg : BitVec 1) ++ 0#3 ++ (xd : BitVec 3)⟩
  | .xaAddv h xd neg k a b => some ⟨0x37, 4, h, 0, encV a, encV b, 0#8 ++ (BitVec.ofNat 5 Ty.f64.code : BitVec 5) ++ 0#3 ++ (k : BitVec 3) ++ 0#22 ++ (BitVec.ofBool neg : BitVec 1) ++ 0#3 ++ (xd : BitVec 3)⟩
  | .xaAdd h xd xs neg => some ⟨0x37, 5, h, 0, 0, 0, 0#41 ++ (BitVec.ofBool neg : BitVec 1) ++ (xs : BitVec 3) ++ (xd : BitVec 3)⟩
  | .xaSign h xd cond d => some ⟨0x37, 6, h, encP d, 0, 0, 0#39 ++ (BitVec.ofNat 2 cond.code : BitVec 2) ++ 0#4 ++ (xd : BitVec 3)⟩
  | .xaRnd h t rm xd d => some ⟨0x37, 7, h, encS d, 0, 0, 0#8 ++ (BitVec.ofNat 5 t.code : BitVec 5) ++ (BitVec.ofNat 3 rm.code : BitVec 3) ++ 0#29 ++ (xd : BitVec 3)⟩
  | .xaSave h xd a ofs => some ⟨0x37, 8, h, 0, encS a, 0, 0#13 ++ (xd : BitVec 3) ++ (ofs : BitVec 32)⟩
  | .xaLoad h xd a ofs => some ⟨0x37, 9, h, 0, encS a, 0, 0#13 ++ (xd : BitVec 3) ++ (ofs : BitVec 32)⟩
  | .protLoad h d a ofs => some ⟨0x60, 0, h, encS d, encS a, 0, 0#16 ++ (ofs : BitVec 32)⟩
  | .protFree h a => some ⟨0x60, 1, h, 0, encS a, 0, 0#48⟩
  | .epGet h d a => some ⟨0x60, 2, h, encS d, encS a, 0, 0#48⟩
  | .epPut h a => some ⟨0x60, 3, h, 0, encS a, 0, 0#48⟩
  | .chOpen h ep a b => some ⟨0x61, 0, h, 0, encS a, encS b, (ep : BitVec 7) ++ 0#41⟩
  | .chAccept h ep d a b => some ⟨0x61, 1, h, encS d, encS a, encS b, (ep : BitVec 7) ++ 0#41⟩
  | .chClose h ep => some ⟨0x61, 2, h, 0, 0, 0, (ep : BitVec 7) ++ 0#41⟩
  | .chAbort h ep => some ⟨0x61, 3, h, 0, 0, 0, (ep : BitVec 7) ++ 0#41⟩
  | .chState h ep d => some ⟨0x61, 4, h, encS d, 0, 0, (ep : BitVec 7) ++ 0#41⟩
  | .chBindreg h ep r => some ⟨0x61, 5, h, encBind r, 0, 0, (ep : BitVec 7) ++ 0#41⟩
  | .send h ep mt fin rel p len a => some ⟨0x62, 0, h, 0, encS a, 0, (ep : BitVec 7) ++ (mt : BitVec 6) ++ (BitVec.ofBool fin : BitVec 1) ++ 0#21 ++ (BitVec.ofBool rel : BitVec 1) ++ (p : BitVec 3) ++ (len : BitVec 9)⟩
  | .sendv h ep mt fin rel p len a => some ⟨0x62, 1, h, 0, encV a, 0, (ep : BitVec 7) ++ (mt : BitVec 6) ++ (BitVec.ofBool fin : BitVec 1) ++ 0#21 ++ (BitVec.ofBool rel : BitVec 1) ++ (p : BitVec 3) ++ (len : BitVec 9)⟩
  | .recv h ep mt p len d b => some ⟨0x62, 2, h, encS d, 0, encS b, (ep : BitVec 7) ++ (mt : BitVec 6) ++ 0#23 ++ (p : BitVec 3) ++ (len : BitVec 9)⟩
  | .recvv h ep mt p len d b => some ⟨0x62, 3, h, encV d, 0, encS b, (ep : BitVec 7) ++ (mt : BitVec 6) ++ 0#23 ++ (p : BitVec 3) ++ (len : BitVec 9)⟩
  | .select h ep lbl rel p => some ⟨0x62, 4, h, 0, 0, 0, (ep : BitVec 7) ++ 0#7 ++ (lbl : BitVec 2) ++ 0#19 ++ (BitVec.ofBool rel : BitVec 1) ++ (p : BitVec 3) ++ 0#9⟩
  | .offer h ep lbl p b => some ⟨0x62, 5, h, 0, 0, encS b, (ep : BitVec 7) ++ 0#7 ++ (lbl : BitVec 2) ++ 0#20 ++ (p : BitVec 3) ++ 0#9⟩
  | .chDeleg h ey rel p ex => some ⟨0x63, 0, h, 0, 0, 0, (ey : BitVec 7) ++ (63#6 : BitVec 6) ++ 0#22 ++ (BitVec.ofBool rel : BitVec 1) ++ (p : BitVec 3) ++ 0#2 ++ (ex : BitVec 7)⟩
  | .chAdopt h ey p ez d => some ⟨0x63, 1, h, encS d, 0, 0, (ey : BitVec 7) ++ (63#6 : BitVec 6) ++ 0#23 ++ (p : BitVec 3) ++ 0#2 ++ (ez : BitVec 7)⟩
  | .turnSet h a b c => some ⟨0x70, 0, h, 0, encS a, encS b, (encS c : BitVec 8) ++ 0#40⟩
  | .turnGet h w d a => some ⟨0x70, 1, h, encS d, encS a, 0, 0#46 ++ (BitVec.ofNat 2 w.code : BitVec 2)⟩
  | .rcConf h n a => some ⟨0x70, 2, h, 0, encS a, 0, 0#44 ++ (n : BitVec 4)⟩
  | .rcBind h n ep d => some ⟨0x70, 3, h, encS d, 0, 0, 0#33 ++ (ep : BitVec 7) ++ 0#3 ++ (n : BitVec 5)⟩
  | .rcRead h n w d => some ⟨0x70, 4, h, encS d, 0, 0, 0#42 ++ (BitVec.ofNat 2 w.code : BitVec 2) ++ (n : BitVec 4)⟩
  | .rcFree h n => some ⟨0x70, 5, h, 0, 0, 0, 0#44 ++ (n : BitVec 4)⟩
  | .ld h sz sc ord sx d a ofs => some ⟨0x74, 0, h, encS d, encS a, 0, (BitVec.ofNat 4 sz.code : BitVec 4) ++ (BitVec.ofNat 3 sc.code : BitVec 3) ++ (BitVec.ofNat 3 ord.code : BitVec 3) ++ 0#5 ++ (BitVec.ofBool sx : BitVec 1) ++ (ofs : BitVec 32)⟩
  | .st h sz sc ord a b ofs => some ⟨0x74, 1, h, 0, encS a, encS b, (BitVec.ofNat 4 sz.code : BitVec 4) ++ (BitVec.ofNat 3 sc.code : BitVec 3) ++ (BitVec.ofNat 3 ord.code : BitVec 3) ++ 0#6 ++ (ofs : BitVec 32)⟩
  | .ldv h sc ord d a ofs => some ⟨0x74, 2, h, encV d, encS a, 0, (BitVec.ofNat 4 Sz.b256.code : BitVec 4) ++ (BitVec.ofNat 3 sc.code : BitVec 3) ++ (BitVec.ofNat 3 ord.code : BitVec 3) ++ 0#6 ++ (ofs : BitVec 32)⟩
  | .stv h sc ord a b ofs => some ⟨0x74, 3, h, 0, encS a, encV b, (BitVec.ofNat 4 Sz.b256.code : BitVec 4) ++ (BitVec.ofNat 3 sc.code : BitVec 3) ++ (BitVec.ofNat 3 ord.code : BitVec 3) ++ 0#6 ++ (ofs : BitVec 32)⟩
  | .ldSync h sc ord cons d a ofs => some ⟨0x75, 0, h, encS d, encS a, 0, (BitVec.ofNat 4 Sz.b8.code : BitVec 4) ++ (BitVec.ofNat 3 sc.code : BitVec 3) ++ (BitVec.ofNat 3 ord.code : BitVec 3) ++ 0#5 ++ (BitVec.ofBool cons : BitVec 1) ++ (ofs : BitVec 32)⟩
  | .stFill h sc ord ovr a b ofs => some ⟨0x75, 1, h, 0, encS a, encS b, (BitVec.ofNat 4 Sz.b8.code : BitVec 4) ++ (BitVec.ofNat 3 sc.code : BitVec 3) ++ (BitVec.ofNat 3 ord.code : BitVec 3) ++ 0#5 ++ (BitVec.ofBool ovr : BitVec 1) ++ (ofs : BitVec 32)⟩
  | .stReset h sc ord a b ofs => some ⟨0x75, 2, h, 0, encS a, encS b, (BitVec.ofNat 4 Sz.b8.code : BitVec 4) ++ (BitVec.ofNat 3 sc.code : BitVec 3) ++ (BitVec.ofNat 3 ord.code : BitVec 3) ++ 0#6 ++ (ofs : BitVec 32)⟩
  | .ldvSync h sc ord cons d a ofs => some ⟨0x75, 3, h, encV d, encS a, 0, (BitVec.ofNat 4 Sz.b256.code : BitVec 4) ++ (BitVec.ofNat 3 sc.code : BitVec 3) ++ (BitVec.ofNat 3 ord.code : BitVec 3) ++ 0#5 ++ (BitVec.ofBool cons : BitVec 1) ++ (ofs : BitVec 32)⟩
  | .semWait h n dec a => some ⟨0x76, 0, h, 0, encS a, 0, 0#39 ++ (BitVec.ofBool dec : BitVec 1) ++ (n : BitVec 8)⟩
  | .semWaitTo h n dec d a b => some ⟨0x76, 0, h, encP d, encS a, encS b, 0#38 ++ (1#1 : BitVec 1) ++ (BitVec.ofBool dec : BitVec 1) ++ (n : BitVec 8)⟩
  | .semSig h n a => some ⟨0x76, 1, h, 0, encS a, 0, 0#40 ++ (n : BitVec 8)⟩
  | .semSet h n a => some ⟨0x76, 2, h, 0, encS a, 0, 0#40 ++ (n : BitVec 8)⟩
  | .semRead h n d => some ⟨0x76, 3, h, encS d, 0, 0, 0#40 ++ (n : BitVec 8)⟩
  | .barArm h n a b => some ⟨0x77, 0, h, 0, encS a, encS b, 0#41 ++ (n : BitVec 7)⟩
  | .barArrive h n => some ⟨0x77, 1, h, 0, 0, 0, 0#41 ++ (n : BitVec 7)⟩
  | .barWait h n => some ⟨0x77, 2, h, 0, 0, 0, 0#41 ++ (n : BitVec 7)⟩
  | .barSync h n => some ⟨0x77, 3, h, 0, 0, 0, 0#41 ++ (n : BitVec 7)⟩
  | .barDisarm h n => some ⟨0x77, 4, h, 0, 0, 0, 0#41 ++ (n : BitVec 7)⟩
  | .gld h sz sc ord sx d a ofs => some ⟨0x80, 0, h, encS d, encS a, 0, (BitVec.ofNat 4 sz.code : BitVec 4) ++ (BitVec.ofNat 3 sc.code : BitVec 3) ++ (BitVec.ofNat 3 ord.code : BitVec 3) ++ 0#5 ++ (BitVec.ofBool sx : BitVec 1) ++ (ofs : BitVec 32)⟩
  | .gst h sz sc ord a b ofs => some ⟨0x80, 1, h, 0, encS a, encS b, (BitVec.ofNat 4 sz.code : BitVec 4) ++ (BitVec.ofNat 3 sc.code : BitVec 3) ++ (BitVec.ofNat 3 ord.code : BitVec 3) ++ 0#6 ++ (ofs : BitVec 32)⟩
  | .gldv h sz sc ord d a ofs => some ⟨0x80, 2, h, encV d, encS a, 0, (BitVec.ofNat 4 sz.code : BitVec 4) ++ (BitVec.ofNat 3 sc.code : BitVec 3) ++ (BitVec.ofNat 3 ord.code : BitVec 3) ++ 0#6 ++ (ofs : BitVec 32)⟩
  | .gstv h sz sc ord a b ofs => some ⟨0x80, 3, h, 0, encS a, encV b, (BitVec.ofNat 4 sz.code : BitVec 4) ++ (BitVec.ofNat 3 sc.code : BitVec 3) ++ (BitVec.ofNat 3 ord.code : BitVec 3) ++ 0#6 ++ (ofs : BitVec 32)⟩
  | .gpref h sz sc a ofs => some ⟨0x80, 4, h, 0, encS a, 0, (BitVec.ofNat 4 sz.code : BitVec 4) ++ (BitVec.ofNat 3 sc.code : BitVec 3) ++ (0#3 : BitVec 3) ++ 0#6 ++ (ofs : BitVec 32)⟩
  | .atom h sz sc ord op d a b ofs => some ⟨0x81, 0, h, encS d, encS a, encS b, (BitVec.ofNat 4 sz.code : BitVec 4) ++ (BitVec.ofNat 3 sc.code : BitVec 3) ++ (BitVec.ofNat 3 ord.code : BitVec 3) ++ (BitVec.ofNat 6 op.code : BitVec 6) ++ (ofs : BitVec 32)⟩
  | .cas h sz sc ord p d a b ofs => some ⟨0x81, 1, h, encS d, encS a, encS b, (BitVec.ofNat 4 sz.code : BitVec 4) ++ (BitVec.ofNat 3 sc.code : BitVec 3) ++ (BitVec.ofNat 3 ord.code : BitVec 3) ++ 0#3 ++ (p : BitVec 3) ++ (ofs : BitVec 32)⟩
  | .atomDet h sz sc ord op d a b ofs => some ⟨0x81, 2, h, encS d, encS a, encS b, (BitVec.ofNat 4 sz.code : BitVec 4) ++ (BitVec.ofNat 3 sc.code : BitVec 3) ++ (BitVec.ofNat 3 ord.code : BitVec 3) ++ (BitVec.ofNat 6 op.code : BitVec 6) ++ (ofs : BitVec 32)⟩
  | .rgnBegin h d off => some ⟨0x82, 0, h, encS d, 0, 0, (off : BitVec 48)⟩
  | .rgnCommit h cc => some ⟨0x82, 1, h, 0, 0, 0, 0#47 ++ (BitVec.ofBool cc : BitVec 1)⟩
  | .rgnAbort h => some ⟨0x82, 2, h, 0, 0, 0, 0#48⟩
  | .allocF h n d a => some ⟨0x83, 0, h, encS d, encS a, 0, 0#44 ++ (n : BitVec 4)⟩
  | .allocQ h n p d a => some ⟨0x83, 0, h, encS d, encS a, 0, 0#40 ++ (p : BitVec 3) ++ (1#1 : BitVec 1) ++ (n : BitVec 4)⟩
  | .free h n a => some ⟨0x83, 1, h, 0, encS a, 0, 0#44 ++ (n : BitVec 4)⟩
  | .heapInfo h n w d => some ⟨0x83, 2, h, encS d, 0, 0, 0#42 ++ (BitVec.ofNat 2 w.code : BitVec 2) ++ (n : BitVec 4)⟩
  | .heapInfoQuota h n a => some ⟨0x83, 2, h, 0, encS a, 0, 0#41 ++ (1#1 : BitVec 1) ++ 0#2 ++ (n : BitVec 4)⟩
  | .tlbInv h sc a => some ⟨0x84, 0, h, 0, encS a, 0, 0#45 ++ (BitVec.ofNat 2 sc.code : BitVec 2) ++ 0#1⟩
  | .tlbInvAll h sc => some ⟨0x84, 0, h, 0, 0, 0, 0#45 ++ (BitVec.ofNat 2 sc.code : BitVec 2) ++ (1#1 : BitVec 1)⟩
  | .xlat h d a => some ⟨0x84, 1, h, encS d, encS a, 0, 0#48⟩
  | .xlatResume h a => some ⟨0x84, 1, h, 0, encS a, 0, 0#47 ++ (1#1 : BitVec 1)⟩
  | .xlatRefuse h a => some ⟨0x84, 1, h, 0, encS a, 0, 0#46 ++ (1#1 : BitVec 1) ++ 0#1⟩
  | .tdSet h sp d a => some ⟨0x90, 0, h, encD d, encS a, 0, 0#47 ++ (BitVec.ofBool sp : BitVec 1)⟩
  | .tdGet h w d a => some ⟨0x90, 1, h, encS d, encD a, 0, 0#45 ++ (w : BitVec 3)⟩
  | .tdClr h d => some ⟨0x90, 2, h, encD d, 0, 0, 0#48⟩
  | .cpPush h sync rsem rsv tr d a b => some ⟨0x91, 0, h, encD d, encD a, encS b, (sync.wsem : BitVec 8) ++ (sync.wth : BitVec 8) ++ (sync.ssem : BitVec 8) ++ (sync.sinc : BitVec 8) ++ 0#5 ++ (BitVec.ofNat 2 tr.code : BitVec 2) ++ (BitVec.ofBool rsv : BitVec 1) ++ (rsem : BitVec 8)⟩
  | .cpFill h sync d b => some ⟨0x91, 1, h, encD d, 0, encS b, (sync.wsem : BitVec 8) ++ (sync.wth : BitVec 8) ++ (sync.ssem : BitVec 8) ++ (sync.sinc : BitVec 8) ++ 0#16⟩
  | .cpPullreq h sync rsem rsv d a => some ⟨0x91, 2, h, encD d, encD a, 0, (sync.wsem : BitVec 8) ++ (sync.wth : BitVec 8) ++ (sync.ssem : BitVec 8) ++ (sync.sinc : BitVec 8) ++ 0#7 ++ (BitVec.ofBool rsv : BitVec 1) ++ (rsem : BitVec 8)⟩
  | .mxLds h sync a => some ⟨0x92, 0, h, 0, encD a, 0, (sync.wsem : BitVec 8) ++ (sync.wth : BitVec 8) ++ (sync.ssem : BitVec 8) ++ (sync.sinc : BitVec 8) ++ 0#16⟩
  | .mxSwap h sync => some ⟨0x92, 1, h, 0, 0, 0, (sync.wsem : BitVec 8) ++ (sync.wth : BitVec 8) ++ (sync.ssem : BitVec 8) ++ (sync.sinc : BitVec 8) ++ 0#16⟩
  | .mxStream h sync row0 acc a => some ⟨0x92, 2, h, 0, encD a, 0, (sync.wsem : BitVec 8) ++ (sync.wth : BitVec 8) ++ (sync.ssem : BitVec 8) ++ (sync.sinc : BitVec 8) ++ 0#6 ++ (BitVec.ofBool acc : BitVec 1) ++ (row0 : BitVec 9)⟩
  | .mxConv h sync row0 acc a b => some ⟨0x92, 3, h, 0, encD a, encS b, (sync.wsem : BitVec 8) ++ (sync.wth : BitVec 8) ++ (sync.ssem : BitVec 8) ++ (sync.sinc : BitVec 8) ++ 0#6 ++ (BitVec.ofBool acc : BitVec 1) ++ (row0 : BitVec 9)⟩
  | .mxDrainV h sync row0 rm clr vt d => some ⟨0x92, 4, h, encV d, 0, 0, (sync.wsem : BitVec 8) ++ (sync.wth : BitVec 8) ++ (sync.ssem : BitVec 8) ++ (sync.sinc : BitVec 8) ++ (BitVec.ofNat 2 vt.code : BitVec 2) ++ 0#1 ++ (BitVec.ofBool clr : BitVec 1) ++ (BitVec.ofNat 3 rm.code : BitVec 3) ++ (row0 : BitVec 9)⟩
  | .mxDrainD h sync row0 rm clr tqt d => some ⟨0x92, 4, h, encD d, 0, 0, (sync.wsem : BitVec 8) ++ (sync.wth : BitVec 8) ++ (sync.ssem : BitVec 8) ++ (sync.sinc : BitVec 8) ++ (BitVec.ofNat 2 tqt.code : BitVec 2) ++ 0#1 ++ (BitVec.ofBool clr : BitVec 1) ++ (BitVec.ofNat 3 rm.code : BitVec 3) ++ (row0 : BitVec 9)⟩
  | .mxClr h sync row0 int fill b => some ⟨0x92, 5, h, 0, 0, encS b, (sync.wsem : BitVec 8) ++ (sync.wth : BitVec 8) ++ (sync.ssem : BitVec 8) ++ (sync.sinc : BitVec 8) ++ 0#4 ++ (BitVec.ofNat 2 fill.code : BitVec 2) ++ (BitVec.ofBool int : BitVec 1) ++ (row0 : BitVec 9)⟩
  | .mxUprog h sync on uty b => some ⟨0x92, 6, h, 0, 0, encS b, (sync.wsem : BitVec 8) ++ (sync.wth : BitVec 8) ++ (sync.ssem : BitVec 8) ++ (sync.sinc : BitVec 8) ++ 0#14 ++ (BitVec.ofBool uty : BitVec 1) ++ (BitVec.ofBool on : BitVec 1)⟩
  | .mxStat h w clr d => some ⟨0x92, 7, h, encS d, 0, 0, 0#45 ++ (BitVec.ofBool clr : BitVec 1) ++ (BitVec.ofNat 2 w.code : BitVec 2)⟩
  | .fence h sc eR eW lR lW => some ⟨0xa0, 0, h, 0, 0, 0, 0#4 ++ (BitVec.ofNat 3 sc.code : BitVec 3) ++ 0#5 ++ (BitVec.ofBool lW : BitVec 1) ++ (BitVec.ofBool lR : BitVec 1) ++ (BitVec.ofBool eW : BitVec 1) ++ (BitVec.ofBool eR : BitVec 1) ++ 0#32⟩
  | .fenceEng h sc inn out => some ⟨0xa0, 1, h, 0, 0, 0, 0#4 ++ (BitVec.ofNat 3 sc.code : BitVec 3) ++ 0#7 ++ (BitVec.ofBool out : BitVec 1) ++ (BitVec.ofBool inn : BitVec 1) ++ 0#32⟩
  | .demPost h a b => some ⟨0xa8, 0, h, 0, encS a, encS b, 0#48⟩
  | .demClose h d => some ⟨0xa8, 1, h, encS d, 0, 0, 0#48⟩
  | .calWait h ep p atStart d => some ⟨0xa8, 2, h, encS d, 0, 0, (ep : BitVec 7) ++ 0#27 ++ (BitVec.ofBool atStart : BitVec 1) ++ 0#1 ++ (p : BitVec 3) ++ 0#9⟩
  | .xchSend h sync rsem rsv d a b => some ⟨0xa8, 3, h, encD d, encD a, encS b, (sync.wsem : BitVec 8) ++ (sync.wth : BitVec 8) ++ (sync.ssem : BitVec 8) ++ (sync.sinc : BitVec 8) ++ 0#7 ++ (BitVec.ofBool rsv : BitVec 1) ++ (rsem : BitVec 8)⟩
  | .xchStat h w d => some ⟨0xa8, 4, h, encS d, 0, 0, 0#45 ++ (BitVec.ofNat 3 w.code : BitVec 3)⟩
  | .gwTake h d a => some ⟨0xa9, 0, h, encS d, encS a, 0, 0#48⟩
  | .gwDone h a => some ⟨0xa9, 1, h, 0, encS a, 0, 0#48⟩
  | .recMark h a => some ⟨0xb0, 0, h, 0, encS a, 0, 0#48⟩
  | .recMarkDrain h a => some ⟨0xb0, 0, h, 0, encS a, 0, 0#47 ++ (1#1 : BitVec 1)⟩
  | .recStat h w d => some ⟨0xb0, 1, h, encS d, 0, 0, 0#46 ++ (BitVec.ofNat 2 w.code : BitVec 2)⟩
  | .detCycle h vd d => some ⟨0xb0, 2, h, encS d, 0, 0, 0#47 ++ (BitVec.ofBool vd : BitVec 1)⟩
  | .trap h imm => some ⟨0xb8, 0, h, 0, 0, 0, (imm : BitVec 48)⟩
  | .eret h skip => some ⟨0xb8, 1, h, 0, 0, 0, 0#47 ++ (BitVec.ofBool skip : BitVec 1)⟩
  | .cause h wait p d => some ⟨0xb8, 2, h, encS d, 0, 0, 0#44 ++ (p : BitVec 3) ++ (BitVec.ofBool wait : BitVec 1)⟩
  | .einj h kind a b => some ⟨0xb8, 3, h, 0, encS a, encS b, 0#46 ++ (BitVec.ofNat 2 kind.code : BitVec 2)⟩
  | .elog h w clr d a => some ⟨0xb8, 4, h, encS d, encS a, 0, 0#45 ++ (BitVec.ofBool clr : BitVec 1) ++ (w : BitVec 2)⟩
  | .pand h d a b => some ⟨0x14, 0, h, encP d, encP a, encP b, 0#48⟩
  | .por h d a b => some ⟨0x14, 1, h, encP d, encP a, encP b, 0#48⟩
  | .pxor h d a b => some ⟨0x14, 2, h, encP d, encP a, encP b, 0#48⟩
  | .pnot h d a => some ⟨0x14, 3, h, encP d, encP a, 0, 0#48⟩
  | .pmov h o => some ⟨0x14, 4, h, o.encD, o.encA, 0, 0#48⟩
  | .kand h d a b => some ⟨0x36, 0, h, encK d, encK a, encK b, 0#48⟩
  | .kor h d a b => some ⟨0x36, 1, h, encK d, encK a, encK b, 0#48⟩
  | .knot h d a => some ⟨0x36, 2, h, encK d, encK a, 0, 0#48⟩
  | .kpop h t d a => some ⟨0x36, 3, h, encS d, encK a, 0, 0#8 ++ (BitVec.ofNat 5 t.code : BitVec 5) ++ 0#35⟩
  | .kset h t d a b => some ⟨0x36, 4, h, encK d, encS a, encS b, 0#8 ++ (BitVec.ofNat 5 t.code : BitVec 5) ++ 0#35⟩
  | .illegalInstruction _ => none
  | .resultLanding _ _ _ _ => none
  | .roundBoundary _ => none
  | .sleeprExpiry _ => none
  | .packetOpenLimit _ _ => none
  | .waitLimitExpiry _ => none
  | .remoteWithdrawalAnswer _ _ => none
  | .semWaitTimeout _ => none
  | .bindComplete _ _ => none
  | .nodePlacement _ => none
  | .deterministicStart _ _ => none
  | .contextSaveComplete _ _ => none
  | .unitResume _ _ => none
  | .launchCompletion _ _ => none
  | .phaseCompletion _ => none
  | .cancelApply _ _ => none
  | .dispatcherRequest _ => none
  | .serviceReplyLand _ _ => none
  | .spawnRequestLand _ => none
  | .spawnEntryServe _ => none
  | .spawnReturnLand _ _ _ _ => none
  | .scratchpadCycleService _ _ => none
  | .remoteReplyLand _ _ => none
  | .remoteBusyResend _ => none
  | .barrierTokenLand _ _ _ _ => none
  | .barrierReleaseLand _ _ _ => none
  | .memoryMergeStep _ _ => none
  | .atomDetWindowApply _ _ => none
  | .refreshWindowEnd _ => none
  | .controllerReplySend _ _ _ => none
  | .globalReplyLand _ _ => none
  | .postedStoreCreditLand _ _ => none
  | .allocatorRequest _ _ => none
  | .tlbInvRequest _ _ => none
  | .supervisorMessageLand _ => none
  | .supervisorMessageResend _ => none
  | .sfuServiceStart _ => none
  | .sfuResultLand _ _ => none
  | .arrayBeatStart _ => none
  | .openRequestLand _ => none
  | .openReplyLand _ _ => none
  | .openWithdrawalLand _ => none
  | .channelFlitLand _ => none
  | .creditLand _ => none
  | .closeNoticeLand _ => none
  | .discardMarkerLand _ => none
  | .registerDeposit _ => none
  | .adoptionNoticeLand _ => none
  | .redirectLand _ => none
  | .acknowledgementLand _ => none
  | .delegationAbortLand _ => none
  | .couplerSample _ _ => none
  | .couplerControlFlitLand _ _ _ => none
  | .rcBindRequest _ => none
  | .engineCommandStart _ _ => none
  | .engineCommandComplete _ _ _ => none
  | .copyPacketLand _ => none
  | .copyPacketAck _ _ _ _ => none
  | .pullRequestServe _ => none
  | .engineFaultStop _ _ _ _ _ => none
  | .matrixStepCommit _ _ _ => none
  | .flitSlotRouting _ _ => none
  | .injectionStarvationHold _ => none
  | .linkRetry _ _ _ => none
  | .linkPortDown _ _ => none
  | .linkPortUp _ _ => none
  | .heldFlitTimeout _ _ _ => none
  | .tileReset _ => none
  | .packageReset _ => none
  | .incarnationAnnouncementLand _ _ _ => none
  | .staleNoticeLand _ _ _ => none
  | .demandPostRequest _ => none
  | .demandRowAccept _ _ _ _ => none
  | .calendarDecompose _ => none
  | .calendarIssue _ => none
  | .calendarLand _ _ _ => none
  | .calWaitAtWake _ => none
  | .exchangeReservation _ => none
  | .exchangePhaseEnd _ _ _ _ => none
  | .heartbeatSend _ => none
  | .heartbeatTimeout _ => none
  | .blockQueueRequest _ => none
  | .recordSegmentRequest _ => none
  | .replayLimitExpiry _ _ _ _ => none
  | .errorLogRequest _ => none
  | .submissionTailWrite _ _ _ => none
  | .jobRecordAccept _ _ => none
  | .rootUnitBind _ _ => none
  | .hostCancelWrite _ _ => none
  | .jobEnd _ => none
  | .bar0RegisterWrite _ _ _ => none
  | .spdmMessage _ _ => none
  | .firmwareImageLoad _ _ _ _ _ => none
  | .securityRequest _ _ => none
  | .operatingPointChange _ _ _ _ => none
  | .tileRetire _ => none
  | .portRetrain _ _ => none
  | .vaultRowCopy _ _ => none
  | .spawnReplyLand _ _ => none
  | .allocatorReplyLand _ _ => none
  | .openWithdrawalAnswerLand _ _ => none
  | .softError _ => none
  | .hostCxlMemAccess _ _ _ => none
  | .hostLinkTraining _ _ => none

/-- The 96-bit word of an instruction (R40, R43); none for an event. -/
def encode (i : Instr) : Option IWord :=
  match i with
  | .illegalInstruction w => some w
  | _ => (encodeRaw i).map Raw.pack

end Sys2Proof
end

