-- ==== Sys2Proof/Config.lean ====
section
/-! DEFINITION. What an implementation fixes, and the free values: values the spec leaves open, which nothing in Lean
can compute. Each is applied to a counter that the step advances (State.freeCtr), or to its operands. -/

namespace Sys2Proof.Config

/-- Latency of a controller's reply in free-running operation, and the time of context save and restore, of tile
skew and of firmware services: unspecified (R85, R91, R332). Free value, log 5. -/
opaque freeLatency : Nat → Nat
/-- Where an allocator places a block, and which frame it takes: unspecified within what R255 and R258 fix. Free value, log 5. -/
opaque freePick : Nat → Nat
/-- One byte of unspecified contents (R119, R150, R278). Free value, log 5. -/
opaque freeByte : Nat → Byte
/-- One bit of an unspecified choice (R88, R249). Free value, log 5. -/
opaque freeBool : Nat → Bool
/-- An unspecified 4352-bit number (R39, R150). Free value, log 5. -/
opaque freeAcc : Nat → BitVec 4352
/-- An unspecified 64-bit value (R278). Free value, log 5. -/
opaque freeWord : Nat → Word
/-- Syndrome of an error found (R353): its coding is not stated. Free value, log 5. -/
opaque freeSyndrome : Nat → Nat

/-- Whether an ML-DSA-65 signature verifies under the vendor key (R362): the key is the package's own. Free value, log 17. -/
opaque sigVerifies : List Byte → List Byte → Bool
/-- The signature of the identity key over a report (R362). Free value, log 17. -/
opaque identitySign : List Byte → List Byte
/-- Answer of the SPDM responder (R356): the protocol's messages are not in the spec. Free value, log 17. -/
opaque spdmAnswer : List Byte → List Byte
/-- Digest of the mask ROM (R362). Free value, log 17. -/
opaque romDigest : List Byte

/-- Cycles that binding a unit takes; the spec bounds it by 32 (R118). DESIGN CHOICE 32, log 8. -/
def bindCycles : Nat := 32
/-- System firmware version fused as the minimum (R362). DESIGN CHOICE 0, log 7. -/
def fusedMinimum : Nat := 0

end Sys2Proof.Config
end

