-- ==== Sys2Proof/Machine/State.lean ====
section
/-! DEFINITION. The state of a load-store domain as plain data, and the state after reset. -/

namespace Sys2Proof.Machine

/-! ### Slots and units -/

/-- Presence of a register (R112, R113, R101): full, empty, pending a result, or awaiting a spawn return. -/
inductive Pres | full | empty | pending | ret
  deriving DecidableEq, Repr

/-- Why and how a slot is parked (R77, R222).
regs and busy retry the instruction at an own turn once the cause has cleared; cond completes in place when its
condition holds; reply waits for an answer; sync waits in a scratchpad waiter list; the others say what they wait for. -/
inductive ParkKind
  | regs (rs : List Reg)
  | busy
  | cond
  | reply
  | sync
  | sem (n th : Nat) (dec : Bool) (dst : Option PIx)
  | sleep
  | turnSet
  | barrier (n ep : Nat)
  | xlat (va : Word) (token : Nat)
  | sfu (id : Nat)
  | calAt (start : Nat)
  | withdraw
  deriving DecidableEq, Repr

/-- A parked slot: the identity of the wait, the cycle it began, the form, and for a wait under WAITLIM the kind and
index that FAULTAUX will hold (R222). -/
structure Park where
  id : Nat
  since : Nat
  kind : ParkKind
  form : Instr
  limKind : Nat := 0
  limIx : Nat := 0
  va : Word := 0
  /-- what the parked form computed at issue and needs again at its completion -/
  aux : List Word := []
  /-- bound sources of the form, consumed as it completes (log 44) -/
  held : List Reg := []
  /-- set when an open-packet or wait limit passed while the access could not be taken back (R92) -/
  limitDue : Bool := false
  deriving DecidableEq, Repr

/-- A store held inside a remote region (R251), with its scope and order; sent is its identity while its release as a seq_cst
store awaits its performance (R252, R296). -/
structure HeldStore where
  va : Word
  data : List Byte
  scratch : Bool
  sc : Scope := .slot
  od : Ord := .rlx
  sent : Option Nat := none
  deriving DecidableEq, Repr

/-- An open remote region (R250). -/
structure Region where
  beginPc : Word
  handler : Word
  causeReg : SIx
  s : Vector Word 64
  sP : Vector Pres 64
  k : Vector KVal 8
  kP : Vector Pres 8
  p : Vector Bool 8
  pP : Vector Pres 8
  stores : List HeldStore
  /-- the atomic held: its form, address, operand and expected value -/
  atomic : Option (Instr × Word × Word × Word)
  /-- its atomic has been answered, and its stores are being released (R252) -/
  committing : Bool := false
  deriving DecidableEq, Repr

/-- The context of a unit: everything binding sets and pre-emption saves (R91, R118). -/
structure Ctx where
  uid : Nat
  d : UnitDesc
  s : Vector Word 64
  v : Vector VVal 32
  k : Vector KVal 8
  p : Vector Bool 8
  sP : Vector Pres 64
  vP : Vector Pres 32
  kP : Vector Pres 8
  pP : Vector Pres 8
  pc : Word
  waitlim : Word
  rmode : Word
  fpflags : Word
  seed : Word
  trappc : Word
  cause : Word
  faultaux : Word
  faultva : Word
  handler : Word
  /-- wake flag (R97) -/
  wake : Bool
  /-- own turns still to leave empty (R47) -/
  quiet : Nat
  /-- round a YIELD leaves empty (R96) -/
  yieldRound : Option Nat
  /-- turns issued and lost (R77) -/
  issued : Nat
  lost : Nat
  /-- open packet: endpoint and count (R92) -/
  packet : Option (Nat × Nat)
  park : Option Park
  region : Option Region
  /-- episode of the last uncompleted arrival per barrier (R228) -/
  arrivals : List (Nat × Nat)
  /-- count of recorded events (R336) -/
  recSeq : Nat
  /-- SPAWN.RET already issued (R102) -/
  retDone : Bool
  /-- tokens taken by CAUSE and not answered (R349) -/
  tokens : List Nat
  /-- block held of the block queue (R329) -/
  blk : Option Nat
  /-- request sequence number (R243) -/
  memSeq : Nat
  /-- first cycle in which the slot may issue -/
  readyFrom : Nat
  /-- selected for pre-emption, or cancelled, at its next boundary (R88, R91) -/
  preempting : Bool
  cancelled : Bool
  /-- accumulators saved with a pre-empted unit (R151) -/
  savedXa : List (Nat × BitVec 4352 × Nat)
  /-- roles that the unit, while it is away, has again once the node for which it was pre-empted gives them up (R74, R87) -/
  keepsMat : Bool
  keepsCopy : Bool
  /-- the place to which the slot's last request went (R315) -/
  asked : Option Node
  deriving DecidableEq, Repr

/-- Phase of a physical slot: free of units, binding one, or bound (R72, R118). -/
inductive SlotPh | free | binding | bound | saving
  deriving DecidableEq, Repr

/-- A physical slot: its turns (R193), its unit, and the pre-empted units that wait to resume on it (R91). -/
structure Slot where
  ph : SlotPh
  owned : BitVec 16
  base : BitVec 16
  minT : Nat
  maxT : Nat
  /-- launch that holds the free slot without turns (R195) -/
  heldBy : Option Word
  /-- terms of couplers acting on the slot, by the coupler they come from (R203, R204) -/
  terms : List (EpRef × Int)
  ctx : Ctx
  saved : List Ctx
  /-- launches whose units have left the slot, with their jobs, for the restoration of R196 -/
  past : List (Word × Word)
  /-- serial of the launch for which the slot's unit was selected for pre-emption (R87) -/
  freedFor : Option Nat
  deriving DecidableEq, Repr

/-! ### Channels (07) -/

/-- Actions of a transition (R157). -/
inductive PAct | send | recv | select | offer | delegOut | delegIn | close
  deriving DecidableEq, Repr

/-- A transition of a protocol image (R157). -/
structure Trans where
  act : PAct
  ty : Nat
  next : Nat
  label : Nat
  cls : Nat
  size : Nat
  deriving DecidableEq, Repr

/-- A protocol image in the table (R157, R160 to R162). -/
structure PImage where
  states : List (List Trans)
  recmask : Nat
  maxpay : Nat
  window : Nat
  init : Nat
  digest : Word
  dual : Word
  laSend : Nat
  laRecv : Nat
  job : Word
  holders : List (Nat × Nat)
  deriving DecidableEq, Repr

/-- Endpoint statuses (R155). -/
inductive EpSt | free | idle | opening | accepting | opened | peerClosed | aborted | forwarding
  deriving DecidableEq, Repr

/-- A complete message in a receive buffer (R172, R174, R182). -/
inductive ChMsg
  | data (mt : Nat) (bytes : List Byte)
  | label (l : Nat)
  | deleg (digest : Word) (state : Nat) (peer old : EpRef) (peerGen tx rx unread : Nat)
  deriving DecidableEq, Repr

/-- An endpoint (R155 to R190). -/
structure Endpoint where
  st : EpSt := .free
  owner : Option (Nat × Nat) := none
  img : Nat := 0
  q : Nat := 0
  peer : EpRef := ⟨0, 0, 0⟩
  gen : Nat := 0
  peerGen : Nat := 0
  /-- granules carved for the receive buffer: first and count (R216) -/
  gran : Option (Nat × Nat) := none
  inbox : List ChMsg := []
  /-- partial message at the head of what has landed -/
  part : Option (Nat × List Byte) := none
  /-- flits landed ahead of a lower number (R304) -/
  early : List ChFlit := []
  rxSeq : Nat := 0
  txSeq : Nat := 0
  /-- sequence numbers taken at issue for pushes not sent yet: command and first number (R178) -/
  resv : List (Nat × Nat) := []
  cursor : Nat := 0
  unread : Nat := 0
  /-- bound register, and a deposit that awaits its consuming read (R179, R180) -/
  reg : Option Reg := none
  deposited : Bool := false
  /-- first cycle at whose end a deposit may be made again after a consuming read (R123) -/
  noDep : Nat := 0
  /-- a CH.DELEG of the endpoint has passed its checks and waits: what lands is kept for the adopter (R182) -/
  leaving : Bool := false
  /-- open request held for CH.ACCEPT (R166), and the opener CH.ACCEPT expects -/
  held : Option OpenReq := none
  expect : Option EpRef := none
  /-- open packet of the owner: message type, pieces, bytes (R169, R170) -/
  pkt : Option (Nat × Nat × Nat) := none
  pstate : Nat := 0
  cause : Nat := 0
  /-- adopting endpoint and its generation while forwarding (R184) -/
  fwd : Option (EpRef × Nat) := none
  /-- other tiles that are parties of the conversation (R189) -/
  parties : List Node := []
  coupler : Option Nat := none
  job : Word := 0
  deriving DecidableEq, Repr

/-! ### Couplers (08) -/

/-- State of a rate coupler (R209). -/
inductive RcSt | free | reserved | bound | running | detached
  deriving DecidableEq, Repr

/-- A rate coupler (R201 to R209). -/
structure Coupler where
  st : RcSt := .free
  holder : Option (Nat × Nat) := none
  ep : Nat := 0
  producer : SlotRef := ⟨0, 0, 0⟩
  producerUid : Nat := 0
  conf : Word := 0
  acc : Int := 0
  eprev : Int := 0
  u : Int := 0
  sent : Int := 0
  occ : Nat := 0
  samples : Nat := 0
  atFull : Nat := 0
  atEmpty : Nat := 0
  deriving DecidableEq, Repr

/-- A remote entry of the producer's tile (R201). -/
structure RemoteEntry where
  owner : EpRef
  slot : Nat
  uid : Nat
  deriving DecidableEq, Repr

/-! ### Scratchpad, semaphores and barriers (09) -/

/-- A request that waits on a scratchpad word, local or remote; a list of them is in the order of waiting (R221). -/
structure Waiter where
  q : SpReq
  isLocal : Bool
  deriving DecidableEq, Repr

/-- A semaphore (R224). -/
structure Sem where
  val : Nat
  ovf : Bool
  deriving DecidableEq, Repr

/-- A barrier of a tile (R227). -/
structure Barrier where
  armed : Bool := false
  x0 : Nat := 0
  y0 : Nat := 0
  w : Nat := 0
  h : Nat := 0
  k : Nat := 0
  g : Nat := 0
  arr0 : Nat := 0
  arr1 : Nat := 0
  row0 : Nat := 0
  row1 : Nat := 0
  col0 : Nat := 0
  col1 : Nat := 0
  /-- tokens already sent for episode g -/
  sentRow : Bool := false
  sentCol : Bool := false
  deriving DecidableEq, Repr

/-! ### Vector unit and exact accumulators (06) -/

/-- A request of the special-function queue (R146). -/
structure SfuReq where
  id : Nat
  slot : Nat
  uid : Nat
  occ : Nat
  issuedAt : Nat
  started : Bool
  dst : List (Reg × VVal)
  old : List (Reg × VVal)
  flags : Nat
  lane : Nat
  trapping : Bool
  job : Word
  /-- cycles that slow sources add to its landing (R117) -/
  slow : Nat
  /-- the generator before the request's draws, for a request that is abandoned (R92) -/
  seed : Word
  deriving DecidableEq, Repr

/-- An exact accumulator (R38, R150, R153). -/
structure XAcc where
  n : BitVec 4352
  st : Nat
  holder : Option (Nat × Nat)
  busyUntil : Nat
  job : Word
  deriving DecidableEq, Repr

/-! ### Engines (11) -/

/-- A tensor descriptor taken apart (R260). -/
structure TDesc where
  ty : Nat
  rank : Nat
  loc : Nat
  blk : Nat
  scale : Int
  ext : List Nat
  str : List Nat
  place : Word
  oh : Nat
  ow : Nat
  dw : Nat
  dh : Nat
  sw : Nat
  sh : Nat
  pl : Nat
  pt : Nat
  deriving DecidableEq, Repr

/-- What an engine command does, with all it captured (R264, R271, R280, R325). -/
inductive EngKind
  | push (dst src : TDesc) (target : Node) (tr : Tr) (rsem : Option Nat)
  | pushChan (dst src : TDesc) (ep : Nat) (mt : Nat)
  | fill (dst : TDesc) (pattern : Word)
  | pull (dst src : TDesc) (rsem : Option Nat)
  | xch (dst src : TDesc) (target : Node) (phase period start fin : Nat) (rsem : Option Nat)
  | lds (a : TDesc)
  | swap
  | stream (a : TDesc) (row0 : Nat) (acc : Bool)
  | conv (a : TDesc) (row0 : Nat) (acc : Bool) (geom : Word)
  | drainV (v : VIx) (row0 : Nat) (rm : Rm) (clr : Bool) (vt : Vt) (seed : Word)
  | drainD (d : TDesc) (row0 : Nat) (rm : Rm) (clr : Bool) (tqt : Tqt) (seed : Word)
  | clear (row0 n : Nat) (int : Bool) (fill : Fill)
  | uprog (on uty : Bool) (prog : Word)
  deriving DecidableEq, Repr

/-- A command of an engine's queue (R267). -/
structure EngCmd where
  id : Nat
  slot : Nat
  uid : Nat
  job : Word
  launch : Word
  sup : SlotRef
  sync : ESync
  fn : Nat
  kind : EngKind
  started : Bool := false
  start : Nat := 0
  /-- packets or steps done; packets, stores or rows in all; those not sent yet, or to be sent again; rows or cycles fed -/
  acked : List Nat := []
  total : Nat := 0
  todo : List Nat := []
  next : Nat := 0
  /-- stopped awaiting a token: token, code, address (R269) -/
  stopped : Option (Nat × Nat × Word) := none
  det : Bool := false
  /-- plane a streaming command is bound to -/
  plane : Nat := 0
  /-- its token was refused (R269) -/
  refused : Bool := false
  /-- rows or columns read and not yet committed -/
  buf : List (Nat × List Byte) := []
  /-- flits of a channel push under way -/
  marks : List Word := []
  /-- number of the run, counted up at each stop -/
  tries : Nat := 0
  /-- a walk of 640 cycles is under way until this cycle (R333) -/
  walkTill : Option Nat := none
  /-- source of a push onto itself as it stood before, and where its free values begin (R277) -/
  snap : Option (Nat × List Byte) := none
  /-- granules of an exchange counted as late (R325) -/
  late : List Nat := []
  /-- bytes landed of the packets of a pull, by packet (R276) -/
  got : List (Nat × Nat) := []
  deriving DecidableEq, Repr

/-- A weight plane (R279). -/
structure Plane where
  valid : Bool := false
  loaded : Bool := false
  ty : Nat := 10
  scale : Int := 0
  k : Nat := 0
  n : Nat := 0
  /-- the bytes of the weights as the region held them -/
  bytes : List Byte := []
  deriving DecidableEq, Repr

/-- An accumulator row (R278): INT48 or FP32, and its 64 entries. -/
structure AccRow where
  int : Bool
  e : List Word
  deriving DecidableEq, Repr

/-- The matrix engine (R278 to R288). -/
structure Matrix where
  cmds : List EngCmd := []
  /-- rows in ascending order; a row not listed holds FP32 zeros, or free values -/
  rows : List (Nat × AccRow) := []
  planes : List Plane := [{}, {}]
  active : Nat := 0
  uon : Bool := false
  uty : Bool := false
  prog : Word := 0
  flags : Nat := 0
  sat : Bool := false
  overrun : Nat := 0
  resume : Word := 0
  /-- tracking at issue: rows of mode INT48, plane of the next stream, planes as they will be, microprogram (R278, R279) -/
  issInt : List Nat := []
  issActive : Nat := 0
  issPlanes : List Plane := [{}, {}]
  issUon : Bool := false
  issUty : Bool := false
  role : Option (Nat × Nat) := none
  lastJob : Word := 0
  lastFed : Nat := 0
  /-- where the free values of rows not listed begin, under a job that did not write them (R278, log 5) -/
  freeBase : Option Nat := none
  deriving DecidableEq, Repr

/-! ### The tile -/

/-- An entry of a TLB: job, page base, page size in bits, leaf; in order of entry, oldest first (R237, R333). -/
structure TlbEntry where
  job : Word
  va : Nat
  bits : Nat
  leaf : Word
  det : Bool
  deriving DecidableEq, Repr

/-- An error log entry (R353). -/
structure LogEntry where
  ue : Bool
  arr : Nat
  addr : Nat
  job : Nat
  spawned : Bool
  unitNo : Nat
  cycle : Nat
  rept : Nat
  synd : Nat
  stamp : Nat
  deriving DecidableEq, Repr

/-- The log of one array (R353). -/
structure ErrLog where
  entries : List (Nat × LogEntry) := []
  corrected : List (Word × Nat) := []
  uncorrected : List (Word × Nat) := []
  lost : List (Word × Nat) := []
  deriving DecidableEq, Repr

/-- An entry of a spawn queue (R90). -/
structure SpawnEntry where
  q : SpawnReq
  order : Nat
  deriving DecidableEq, Repr

/-- A tile: compute tile, spout or management tile (01). -/
structure Tile where
  slots : Vector Slot 16
  tenant : Option Word
  inc : Nat
  present : Bool
  /-- to be retired once it has no tenant (R366) -/
  retiring : Bool
  /-- bytes of the scratchpad that are not 0, ascending (R211) -/
  sp : List Host.Cell
  /-- words whose presence bit is empty, ascending (R211) -/
  spEmpty : List Nat
  waiters : List Waiter
  /-- remote requests landed in this cycle, and withdrawals of such requests (R221, R223) -/
  spIn : List (SpReq × Bool)
  /-- the cycle after the last one whose end was served (R221) -/
  servedAt : Nat
  sems : List (Nat × Sem)
  /-- additions that take effect at the end of the cycle (R224) -/
  semAdds : List (Nat × Nat)
  bars : List (Nat × Barrier)
  eps : List (Nat × Endpoint)
  images : List (Nat × PImage)
  couplers : List (Nat × Coupler)
  remotes : List RemoteEntry
  xas : Vector XAcc 8
  /-- beats of array forms issued in earlier cycles that start in this cycle or later (R135) -/
  beats : Nat
  sfu : List SfuReq
  /-- cycle after the last occupancy served (R146) -/
  sfuFree : Nat
  spawnQ : List SpawnEntry
  matRole : Option (Nat × Nat)
  copyRole : Option (Nat × Nat)
  tds : List (Nat × List Word)
  copy : List EngCmd
  mx : Matrix
  tlb : List TlbEntry
  msgs : List SupMsg
  /-- messages discarded, by job (R349) -/
  lostMsgs : List (Word × Nat)
  logs : List (Nat × ErrLog)
  errs : List ErrSite
  stale : Nat
  defl : Nat
  /-- incarnations that stale notices and announcements have told the tile of, each with its cycle (R314, R315) -/
  known : List (Nat × Nat × Nat)
  deriving DecidableEq, Repr

/-! ### Fabric (13) -/

/-- A flit on its way (R303). Its event ev happens when it is taken in the order of its sequence space; whole is what its message
does, which is lost with any flit of it. The header and control fields are TYPE, DPKG and DTILE, DEP, SPKG and STILE (from_), SSLOT
(src), INC, PIN, AGE, SEQ, TAG and LAST. -/
structure Flit where
  fid : Nat
  /-- identity of its message -/
  mid : Nat
  typ : Nat
  dst : Node
  dep : Nat
  from_ : Node
  /-- the slot on whose behalf it travels -/
  src : SlotRef
  inc : Nat
  /-- launch whose pinned route it takes (R309) -/
  pin : Option Word
  age : Nat
  /-- sequence space and number (R304) -/
  space : List Nat
  seq : Nat
  tag : Nat
  last : Bool
  ev : Option Ev
  whole : Ev
  /-- cycle since which it waits at its tile (R308) -/
  since : Nat
  isReply : Bool
  /-- column by which it crosses from one I/O die to the other (R14) -/
  col : Nat
  deriving DecidableEq, Repr

/-- A message that a unit sends at a later cycle, as a reply after its service time (R397). -/
structure Msg where
  src : SlotRef
  from_ : Node
  dst : Node
  typ : Nat
  n : Nat
  space : List Nat
  pin : Option Word
  isReply : Bool
  ev : Ev
  deriving DecidableEq, Repr

/-- What enters the fabric at a later cycle: a message that is formed then, or a flit that a link brings from a package's port. -/
inductive Parcel
  | send (m : Msg)
  | cross (pkg port : Nat) (f : Flit)
  deriving DecidableEq, Repr

/-- The flit slots of a port, a bridge or the edge of an I/O die that are taken: cycle, parity (true: odd), and whether by a
pinned flit; and the first cycle that a retry leaves usable (R308, R310, R311). -/
structure Lane where
  first : Nat := 0
  used : List (Nat × Bool × Bool) := []
  deriving DecidableEq, Repr

/-- A flit that reaches a router at a cycle and flit slot. -/
structure Arrival where
  due : Nat
  half : Bool
  flit : Flit
  deriving DecidableEq, Repr

/-- The router of a tile (R305, R306, R308). -/
structure Router where
  arr : List Arrival := []
  inj : List Flit := []
  /-- first cycle in which the tile may inject again after a starved neighbour (R306) -/
  hold : Nat := 0
  /-- flits ejected and injected in the cycle named, and the pinned ones among those injected (R305, R310) -/
  cyc : Nat := 0
  ejected : Nat := 0
  injected : Nat := 0
  pinned : Nat := 0
  deriving DecidableEq, Repr

/-- A sequence space at its receiver (R304). -/
structure Space where
  key : List Nat
  next : Nat
  wait : List Flit
  deriving DecidableEq, Repr

/-- A link port (R311, R313). -/
structure Port where
  up : Bool := true
  held : List (Nat × Flit) := []
  retrain : Bool := false
  deriving DecidableEq, Repr

/-! ### Dispatcher (04) -/

/-- A launch known to a dispatcher (R82, R84, R85). -/
structure Launch where
  serial : Nat
  job : Word
  graph : Nat
  node : Nat
  d : LaunchDesc
  supPkg : Nat
  /-- tiles of the placement, and whether placed on spouts -/
  tiles : List Nat := []
  placed : Bool := false
  order : Nat := 0
  /-- units bound or queued that have not ended -/
  live : Nat := 0
  s0 : Nat := 0
  void : Word := 0
  parity : Option Bool := none
  /-- places that its pinned routes reach (R309) -/
  routes : List Nat := []
  status : Nat := 0
  done : Bool := false
  cancelled : Bool := false
  /-- cycle of its LAUNCH (R42) -/
  began : Nat := 0
  deriving DecidableEq, Repr

/-- A graph (R106). -/
structure Graph where
  serial : Nat
  job : Word
  submitted : Bool := false
  nodes : List Nat := []
  edges : List (Nat × Nat) := []
  phase : Nat := 0
  /-- cancelled before it was submitted: it belongs to no phase (R88) -/
  givenUp : Bool := false
  done : Bool := false
  status : Nat := 0
  deriving DecidableEq, Repr

/-- A request of the dispatcher that waits on an event (R397). -/
structure DispWait where
  q : SvcReq
  deriving DecidableEq, Repr

/-- The outcome of a completed object (R83). -/
structure Outcome where
  job : Word
  lvl : Level
  serial : Nat
  status : Nat
  deriving DecidableEq, Repr

/-- A block queue (R329). -/
structure BlockQ where
  launch : Word
  nb : Nat
  /-- per spout index: next block, blocks returned to the head -/
  next : List (Nat × Nat) := []
  back : List (Nat × Nat) := []
  deriving DecidableEq, Repr

/-- A live block of a heap: address and size counted (R255). -/
structure HeapBlk where
  va : Nat
  size : Nat
  deriving DecidableEq, Repr

/-- A heap as one allocator serves it (R254 to R257). -/
structure Heap where
  job : Word
  n : Nat
  blks : List HeapBlk := []
  deriving DecidableEq, Repr

/-- Counts of a heap, which all allocators of a job share (R257). -/
structure HeapCount where
  n : Nat
  used : Nat := 0
  high : Nat := 0
  quota : Nat := 0
  fails : Nat := 0
  deriving DecidableEq, Repr

/-- An allocator: by job, the runs of frames not yet used (base and number), the 8 KiB tables not yet used, and the pages
mapped for blocks; and its heaps (R258). -/
structure Allocator where
  frames : List (Word × Nat × Nat) := []
  tables : List (Word × Nat) := []
  pages : List (Word × Nat) := []
  heaps : List Heap := []
  deriving DecidableEq, Repr

/-! ### Exchange (13) -/

/-- A phase of a calendar: pairs, granules, and its start as the machine's clock counts it (R320, R322). -/
structure CalPhase where
  pairs : List (Nat × Nat)
  dur : Nat
  start : Nat
  deriving DecidableEq, Repr

/-- A calendar, with the cycle at which it begins and the granules not granted, by source (R320 to R323). -/
structure Calendar where
  period : Nat
  start0 : Nat
  phases : List CalPhase
  ungranted : List (Nat × Nat)
  deriving DecidableEq, Repr

/-- What a package keeps of exchange for one job (R319, R323, R325, R328). -/
structure Exchange where
  job : Word
  /-- open period and its row: bytes by destination -/
  period : Nat := 0
  row : List (Nat × Nat) := []
  /-- closed rows that are not acknowledged, with the requests that wait for that -/
  closed : List (Nat × List Nat × SvcReq) := []
  /-- DEM.CLOSE requests that wait for the previous calendar (R319) -/
  waitClose : List SvcReq := []
  /-- calendars landed whose end has not passed, and the last one; periods landed -/
  cals : List Calendar := []
  have_ : Nat := 0
  /-- bytes reserved, and phases missed, by period x 256 + phase -/
  resv : List (Nat × Nat) := []
  missedPh : List Nat := []
  granted : Nat := 0
  idle : Nat := 0
  late : Nat := 0
  ungr : Nat := 0
  missed : Nat := 0
  tko : Bool := false
  /-- endpoints of the calendar service that await a calendar -/
  subs : List Nat := []
  /-- stale flits and deflections that tiles had counted when the phase began (R328) -/
  base : List (Nat × Nat × Nat) := []
  deriving DecidableEq, Repr

/-- The arbiter of a job, or its standby, as a package runs it (R320, R323, R327). -/
structure Arbiter where
  job : Word
  acting : Bool
  /-- package of the other one -/
  other : Nat
  /-- rows accepted: period, package, granules by destination -/
  rows : List (Nat × Nat × List Nat) := []
  /-- calendars made or acknowledged -/
  cals : List Calendar := []
  /-- lowest period whose calendar is not known to be issued -/
  next : Nat := 0
  /-- end of the last phase of the last calendar -/
  lastEnd : Nat := 0
  /-- cycle of the last heartbeat -/
  beatAt : Nat := 0
  deriving DecidableEq, Repr

/-! ### Record log (14) -/

/-- An entry of the record log (R336). -/
structure RecEntry where
  issuer : SlotRef
  seq : Nat
  kind : Nat
  aux : Nat
  addr : Nat
  deriving DecidableEq, Repr

/-- A segment of the record log (R336 to R338). -/
structure Segment where
  entries : List RecEntry := []
  /-- replay: whether the entries have been read from the log, and the next one to match -/
  loaded : Bool := false
  pos : Nat := 0
  /-- its supervisor has been told that it is full (R337) -/
  stalled : Bool := false
  deriving DecidableEq, Repr

/-! ### Host, security and power (16) -/

/-- A job record as taken from a submission queue (R358). -/
structure JobRec where
  rootTile : Nat
  stop : Bool
  rmode : Nat
  dbgok : Bool
  att : Bool
  pkgset : Nat
  entry : Word
  handler : Word
  args : List Word
  sectab : Word
  nsec : Nat
  waitlim : Word
  roots : Word
  logva : Word
  loglen : Nat
  replim : Nat
  nonce : List Word
  seed : Word
  extva : Word
  next : Nat
  heapva : Word
  deriving DecidableEq, Repr

/-- A job: its record, its key index, its phases and its end (R89, R358 to R361). -/
structure Job where
  handle : Word
  r : JobRec
  key : Nat
  pkgs : List Nat
  rootTables : List Nat
  accepted : List Nat := []
  started : Bool := false
  phase : Nat := 0
  /-- packages that have left the current phase, and entered the next -/
  left : List Nat := []
  entered : List Nat := []
  phaseOpen : List Nat := []
  phaseStatus : Nat := 0
  rootExited : List Nat := []
  recEnded : Bool := false
  /-- phase whose replay a mismatch has ended (R338) -/
  diverged : Option Nat := none
  ending : Bool := false
  status : Nat := 0
  done : Bool := false
  supmsg : List (Nat × Nat) := []
  /-- messages on their way to the firmware supervisor, by package -/
  fwSent : List (Nat × Nat) := []
  quota : List HeapCount := []
  /-- reason of a refusal (R359) -/
  reason : Nat := 0
  /-- queue that the record came from, by package -/
  queueOf : List (Nat × Nat) := []
  digest : List Byte := []
  /-- cycle in which the job started: the launch of its root units' code (R42) -/
  began : Nat := 0
  deriving DecidableEq, Repr

/-- A pair of host queues (R357). -/
structure HostQueue where
  base : Nat := 0
  size : Nat := 0
  cbase : Nat := 0
  csize : Nat := 0
  head : Nat := 0
  tail : Nat := 0
  chead : Nat := 0
  deriving DecidableEq, Repr

/-- Security states (16). -/
inductive SecSt | locked | provisioned | attested | rtv
  deriving DecidableEq, Repr

/-- Power states of an island (R364). -/
inductive PowerSt | active | idle | off
  deriving DecidableEq, Repr

/-- An island (R7, R364, R365). -/
structure Island where
  point : Nat := 0
  power : PowerSt := .active
  /-- point asked for and not yet set, and whether it is forced -/
  want : Option (Nat × Bool) := none
  deriving DecidableEq, Repr

/-- A memory controller (R243, R247, R332). -/
structure Ctrl where
  landed : List MemReq := []
  held : List MemReq := []
  /-- open window: number, last cycle, entries (R247) -/
  win : Option (Nat × Nat × List MemReq) := none
  winNo : Nat := 0
  deriving DecidableEq, Repr

/-- A package. -/
structure Pkg where
  cycleBase : Nat := 0
  launches : List Launch := []
  graphs : List Graph := []
  /-- ready pool: cycle of entry, graph, node, launch (R84) -/
  pool : List (Nat × Nat × Nat × Nat) := []
  outcomes : List Outcome := []
  waits : List DispWait := []
  serial : Nat := 1
  placeNo : Nat := 0
  dieTlb : List (Nat × List TlbEntry) := []
  exch : List Exchange := []
  arbs : List Arbiter := []
  bq : Option BlockQ := none
  allocs : List (Nat × Allocator) := []
  segs : List (Nat × Segment) := []
  islands : List (Nat × Island) := []
  sec : SecSt := .locked
  debug : Nat := 0
  standbyOn : Bool := false
  identity : Bool := false
  rtvEntered : Bool := false
  queues : List (Nat × HostQueue) := []
  mgmtLog : List (Nat × Nat) := []
  firmware : List (Firmware × Nat × List Byte) := []
  chain : List (List Byte) := []
  spdm : List (List Byte) := []
  trained : Bool := false
  lanes : Nat := 0
  ports : List (Nat × Port) := []
  /-- incarnations last learned of the tiles of the domain, each with the cycle of its announcement and the one before (R314) -/
  known : List (Nat × Nat × Nat × Nat) := []
  /-- cycle from which it takes work again after a reset (R316) -/
  rejoin : Nat := 0
  spares : List (Nat × Nat) := []
  deriving DecidableEq, Repr

/-! ### The domain -/

/-- An entry of the agenda: when, in which part of the cycle, in which order, and what. -/
structure Due where
  at_ : Nat
  ph : Nat
  key : Nat
  no : Nat
  ev : Ev
  deriving DecidableEq, Repr

/-- A write, message or command issued and not yet known to be performed (R82, R291, R294). -/
structure Out where
  id : Nat
  slot : SlotRef
  uid : Nat
  job : Word
  launch : Word
  /-- home of the write; none for an engine command -/
  home : Option Node
  host : Bool
  va : Word
  /-- supervisor of its unit, to which a failed store is reported even after the unit's end; and whether that is the firmware (R249) -/
  sup : SlotRef := ⟨0, 0, 0⟩
  root : Bool := false
  deriving DecidableEq, Repr

/-- The whole machine. The fields now, cur, issueQ, agenda, no and freeCtr are the model's own: the clock, the slot that
issues, the tiles still to issue in this cycle, the events to come, a counter of identities and one of free values. -/
structure State where
  now : Nat
  shape : Nat × Nat × Nat
  cur : SlotRef
  issueQ : List Nat
  agenda : List Due
  no : Nat
  freeCtr : Nat
  /-- bytes of physical memory that are not 0, ascending (R232) -/
  mem : List Host.Cell
  /-- device registers of BAR 0, per package (R232, R356) -/
  bar0 : List Host.Cell
  /-- words that writes have replaced, each with its cycle: what a fetch of code that is being written may still see (R42) -/
  oldWords : List (Nat × Nat × Nat)
  tiles : List (Nat × Tile)
  pkgs : List (Nat × Pkg)
  ctrls : List (Nat × Ctrl)
  routers : List (Nat × Router)
  /-- flit slots taken of ports, bridges and the edges of I/O dies -/
  lanes : List (List Nat × Lane)
  /-- what enters the fabric at later cycles -/
  outbox : List (Nat × Parcel)
  spaces : List Space
  txSeq : List (List Nat × Nat)
  jobs : List Job
  outs : List Out
  /-- next free cycle of the peers that serve one request per cycle (R397) -/
  served : List (Nat × Nat)
  deriving DecidableEq, Repr

/-- Reasons for a stop. -/
inductive Fault
  /-- Raised by a form run for a slot that has no bound unit; step never does so. Safe. -/
  | noUnit
  deriving DecidableEq, Repr

/-- Reasons for having no meaning. -/
inductive Refusal
  /-- Raised by an arm of exec for an instruction not modelled yet. Safe. -/
  | notModelled (mnemonic : String)
  deriving DecidableEq, Repr

/-! ### Reset -/

/-- A descriptor of no unit. -/
def UnitDesc.none : UnitDesc where
  entry := 0
  handler := 0
  args := []
  unitix := 0
  launch := 0
  job := 0
  waitlim := 0
  seedL := 0
  prio := 0
  pre := false
  det := false
  s0 := 0
  supTile := 0
  supSlot := 0
  root := false
  origin := .none

/-- The registers of a slot to which no unit has been bound: the values binding would give, where it fixes them (R118),
and 0 elsewhere. DESIGN CHOICE, log 1. -/
def Ctx.reset : Ctx where
  uid := 0
  d := UnitDesc.none
  s := Vector.replicate 64 0
  v := Vector.replicate 32 0
  k := (Vector.replicate 8 0).set 0 (BitVec.allOnes 256)
  p := (Vector.replicate 8 false).set 0 true
  sP := Vector.replicate 64 .full
  vP := Vector.replicate 32 .full
  kP := Vector.replicate 8 .full
  pP := Vector.replicate 8 .full
  pc := 0
  waitlim := 0
  rmode := 0
  fpflags := 0
  seed := 0
  trappc := 0
  cause := 0
  faultaux := 0
  faultva := 0
  handler := 0
  wake := false
  quiet := 0
  yieldRound := none
  issued := 0
  lost := 0
  packet := none
  park := none
  region := none
  arrivals := []
  recSeq := 0
  retDone := false
  tokens := []
  blk := none
  memSeq := 0
  readyFrom := 0
  preempting := false
  cancelled := false
  savedXa := []
  keepsMat := false
  keepsCopy := false
  asked := none

/-- A slot after tile reset: it owns its home turn, MIN 1, MAX 16, contribution 0 (R193). -/
def Slot.reset (i : Nat) : Slot where
  ph := .free
  owned := BitVec.ofNat 16 (2 ^ i)
  base := BitVec.ofNat 16 (2 ^ i)
  minT := 1
  maxT := 16
  heldBy := none
  terms := []
  ctx := Ctx.reset
  saved := []
  past := []
  freedFor := none

/-- An accumulator that no slot holds; its contents are unspecified (R150), 0 here. DESIGN CHOICE, log 1. -/
def XAcc.reset : XAcc where
  n := 0
  st := 0
  holder := none
  busyUntil := 0
  job := 0

/-- A tile after reset. -/
def Tile.reset : Tile where
  slots := Vector.ofFn fun i => Slot.reset i.val
  tenant := none
  inc := 0
  present := true
  retiring := false
  sp := []
  spEmpty := []
  waiters := []
  spIn := []
  servedAt := 0
  sems := []
  semAdds := []
  bars := []
  eps := []
  images := []
  couplers := []
  remotes := []
  xas := Vector.replicate 8 XAcc.reset
  beats := 0
  sfu := []
  sfuFree := 0
  spawnQ := []
  matRole := none
  copyRole := none
  tds := []
  copy := []
  mx := {}
  tlb := []
  msgs := []
  lostMsgs := []
  logs := []
  errs := []
  stale := 0
  defl := 0
  known := []

/-- The machine right after reset: one package, its clock at 0, no unit bound, nothing under way. -/
def State.reset : State where
  now := 0
  shape := (1, 1, 1)
  cur := ⟨0, 0, 0⟩
  issueQ := []
  agenda := []
  no := 1
  freeCtr := 0
  mem := []
  bar0 := []
  oldWords := []
  tiles := []
  pkgs := []
  ctrls := []
  routers := []
  lanes := []
  outbox := []
  spaces := []
  txSeq := []
  jobs := []
  outs := []
  served := []

end Sys2Proof.Machine
end

