-- ==== Sys2Proof/Machine/Flags.lean ====
section
/-! DEFINITION. Number formats, rounding with its flags and draws, exact arithmetic, conversions, minimum and maximum
(02, R16 to R31). -/

namespace Sys2Proof.Machine

/-! ### Flags (R31) -/

/-- Invalid. -/
def fNV : Nat := 1
/-- Divide by zero. -/
def fDZ : Nat := 2
/-- Overflow. -/
def fOF : Nat := 4
/-- Underflow. -/
def fUF : Nat := 8
/-- Inexact. -/
def fNX : Nat := 16

/-! ### Formats (R18, R19) -/

/-- A floating-point format: exponent and mantissa bits, bias, whether it has infinity, its NaNs (0 none, 1 by IEEE,
2 the two of e4m3), whether it saturates (R28), and its largest finite magnitude maxM x 2^maxE. -/
structure Fmt where
  eb : Nat
  p : Nat
  bias : Nat
  inf : Bool
  nan : Nat
  sat : Bool
  maxM : Nat
  maxE : Int
  deriving DecidableEq, Repr

/-- The formats of R18. Other types have the format of f64, which is not used. -/
def Fmt.of : Ty → Fmt
  | .f16 => ⟨5, 10, 15, true, 1, false, 2047, 5⟩
  | .bf16 => ⟨8, 7, 127, true, 1, false, 255, 120⟩
  | .f32 => ⟨8, 23, 127, true, 1, false, 16777215, 104⟩
  | .e4m3 => ⟨4, 3, 7, false, 2, true, 14, 5⟩
  | .e5m2 => ⟨5, 2, 15, true, 1, true, 7, 13⟩
  | .e3m2 => ⟨3, 2, 3, false, 0, true, 7, 2⟩
  | .e2m3 => ⟨2, 3, 1, false, 0, true, 15, -1⟩
  | .e2m1 => ⟨2, 1, 1, false, 0, true, 3, 1⟩
  | _ => ⟨11, 52, 1023, true, 1, false, 9007199254740991, 971⟩

/-- Bits of a code of the format. -/
def Fmt.bits (f : Fmt) : Nat := 1 + f.eb + f.p
/-- The sign bit of a code. -/
def Fmt.signBit (f : Fmt) : Nat := 2 ^ (f.eb + f.p)
/-- Least exponent of a normal number. -/
def Fmt.emin (f : Fmt) : Int := 1 - (f.bias : Int)
/-- The canonical NaN, sign 0 (R19); +0 in a format without NaN (R29). -/
def Fmt.nanCode (f : Fmt) : Nat :=
  if f.nan = 1 then (2 ^ f.eb - 1) * 2 ^ f.p + 2 ^ (f.p - 1) else if f.nan = 2 then 127 else 0
/-- Code of the largest finite magnitude. -/
def Fmt.maxCode (f : Fmt) : Nat :=
  if f.nan = 1 then (2 ^ f.eb - 1) * 2 ^ f.p - 1 else if f.nan = 2 then 126 else 2 ^ (f.eb + f.p) - 1
/-- Code of +infinity. -/
def Fmt.infCode (f : Fmt) : Nat := (2 ^ f.eb - 1) * 2 ^ f.p
/-- A magnitude code with a sign. -/
def Fmt.signed (f : Fmt) (neg : Bool) (c : Nat) : Nat := if neg then c + f.signBit else c

/-- A value read from a format: a NaN (signalling or quiet), an infinity, or (-1)^neg x m x 2^e. -/
inductive Num | nan (sig : Bool) | inf (neg : Bool) | fin (neg : Bool) (m : Nat) (e : Int)
  deriving DecidableEq, Repr

/-- The value of a code (R18, R19). -/
def Fmt.read (f : Fmt) (code : Nat) : Num :=
  let c := code % 2 ^ f.bits
  let neg := f.signBit ≤ c
  let mag := c % f.signBit
  let ef := mag / 2 ^ f.p
  let m := mag % 2 ^ f.p
  if f.nan = 1 ∧ ef = 2 ^ f.eb - 1 then
    if m = 0 then .inf neg else .nan (m < 2 ^ (f.p - 1))
  else if f.nan = 2 ∧ mag = 127 then .nan false
  else if ef = 0 then .fin neg m (f.emin - f.p)
  else .fin neg (m + 2 ^ f.p) ((ef : Int) - f.bias - f.p)

/-- A magnitude to be rounded: (m + d) x 2^e with 0 <= d < 1, and d > 0 exactly when rest. -/
structure Ex where
  neg : Bool
  m : Nat
  e : Int
  rest : Bool
  deriving DecidableEq, Repr

/-- How a rounding step rounds: its mode, never dyn, and its draw (R24, R26). -/
structure Rnd where
  rm : Rm
  w : Nat
  deriving DecidableEq, Repr

/-- Round to nearest even. -/
def Rnd.rne : Rnd := ⟨.rne, 0⟩

/-- A result code and the flags raised. -/
structure Res where
  code : Nat
  flags : Nat
  deriving DecidableEq, Repr

/-- Shift by a signed amount, left when positive, and what falls out on the right. -/
def shiftNat (m : Nat) (k : Int) : Nat × Nat × Nat :=
  if 0 ≤ k then (m * 2 ^ k.toNat, 0, 1)
  else (m / 2 ^ (-k).toNat, m % 2 ^ (-k).toNat, 2 ^ (-k).toNat)

/-- Whether the step goes to the neighbour away from zero, given the lower neighbour t, the part left over rem / unit
with rest below it (R24, R26). -/
def roundsAway (r : Rnd) (neg : Bool) (t rem unit : Nat) (rest : Bool) : Bool :=
  let inexact := rem ≠ 0 || rest
  match r.rm with
  | .rne => 2 * rem > unit || (2 * rem = unit && (rest || t % 2 = 1))
  | .rna => 2 * rem ≥ unit && inexact
  | .rtz => false
  | .rup => inexact && !neg
  | .rdn => inexact && neg
  | .sr => inexact && rem * 2 ^ 32 / unit + r.w ≥ 2 ^ 32
  | .dyn => false

/-- The rounded multiple of 2^q, and whether the step is inexact. -/
def roundAt (r : Rnd) (x : Ex) (q : Int) : Nat × Bool :=
  let s := shiftNat x.m (x.e - q)
  let inexact := s.2.1 ≠ 0 || x.rest
  (if roundsAway r x.neg s.1 s.2.1 s.2.2 x.rest then s.1 + 1 else s.1, inexact)

/-- m1 x 2^e1 < m2 x 2^e2. -/
def magLt (m1 : Nat) (e1 : Int) (m2 : Nat) (e2 : Int) : Bool :=
  if e1 ≤ e2 then m1 < m2 * 2 ^ (e2 - e1).toNat else m1 * 2 ^ (e1 - e2).toNat < m2

/-- What an overflow gives (R28). -/
def Fmt.overflow (f : Fmt) (r : Rnd) (neg : Bool) : Res :=
  let toInf : Bool := if f.sat then false else
    match r.rm with
    | .rtz => false
    | .rup => !neg
    | .rdn => neg
    | _ => true
  ⟨f.signed neg (if toInf then f.infCode else f.maxCode), fOF ||| fNX⟩

/-- round_to for the floating-point formats (R24 to R28). An exact zero keeps its sign. -/
def Fmt.round (f : Fmt) (r : Rnd) (x : Ex) : Res :=
  if x.m = 0 && !x.rest then ⟨f.signed x.neg 0, 0⟩
  else
    let ev : Int := x.e + (if x.m = 0 then (-1 : Int) else (Nat.log2 x.m : Int))
    let q := max (ev - f.p) (f.emin - f.p)
    let a := roundAt r x q
    if magLt f.maxM f.maxE a.1 q then f.overflow r x.neg
    else
      let b := roundAt r x (ev - f.p)
      let tiny := magLt b.1 (ev - f.p) 1 f.emin
      ⟨f.signed x.neg (a.1 + (q - (f.emin - f.p)).toNat * 2 ^ f.p),
        if a.2 then (if tiny then fUF ||| fNX else fNX) else 0⟩

/-! ### Integers (R17) -/

/-- Least value of an integer type. -/
def loInt (t : Ty) : Int := if t.isSigned then -(2 ^ (t.width - 1) : Int) else 0
/-- Greatest value of an integer type. -/
def hiInt (t : Ty) : Int := if t.isSigned then (2 ^ (t.width - 1) : Int) - 1 else (2 ^ t.width : Int) - 1
/-- The value of a lane of an integer type. -/
def readInt (t : Ty) (c : Nat) : Int :=
  let c := c % 2 ^ t.width
  if t.isSigned && 2 ^ (t.width - 1) ≤ c then (c : Int) - 2 ^ t.width else c
/-- The lane of an integer value, modulo 2^w. -/
def writeInt (t : Ty) (x : Int) : Nat := (x % (2 ^ t.width : Int)).toNat

/-- Rounding to an integer type (R29): outside the range, the nearest end with invalid alone. -/
def roundInt (t : Ty) (r : Rnd) (x : Ex) : Res :=
  let a := roundAt r x 0
  let v : Int := if x.neg then -(a.1 : Int) else a.1
  if v < (loInt t) then ⟨writeInt t (loInt t), fNV⟩
  else if v > (hiInt t) then ⟨writeInt t (hiInt t), fNV⟩
  else ⟨writeInt t v, if a.2 then fNX else 0⟩

/-! ### Operations (R29, R30, R138) -/

/-- The canonical NaN with invalid. -/
def Fmt.invalid (f : Fmt) : Res := ⟨f.nanCode, fNV⟩
/-- Whether a value is a NaN. -/
def Num.isNan : Num → Bool
  | .nan _ => true
  | _ => false
/-- Whether a value is a signalling NaN. -/
def Num.isSig : Num → Bool
  | .nan s => s
  | _ => false
/-- NV of the signalling operands. -/
def sigFlags (l : List Num) : Nat := if l.any Num.isSig then fNV else 0
/-- The other sign. -/
def Num.negate : Num → Num
  | .nan s => .nan s
  | .inf n => .inf !n
  | .fin n m e => .fin (!n) m e

/-- Exact sum of two finite values as a signed multiple of a power of two. -/
def exactSum (n1 : Bool) (m1 : Nat) (e1 : Int) (n2 : Bool) (m2 : Nat) (e2 : Int) : Int × Int :=
  let e := min e1 e2
  let a : Int := m1 * 2 ^ (e1 - e).toNat
  let b : Int := m2 * 2 ^ (e2 - e).toNat
  ((if n1 then -a else a) + (if n2 then -b else b), e)

/-- Rounds an exact sum; an exact zero is +0, or -0 under rdn, unless both terms have the sign neg (R28). -/
def Fmt.roundSum (f : Fmt) (r : Rnd) (n1 n2 : Bool) (s : Int × Int) : Res :=
  if s.1 = 0 then ⟨f.signed (if n1 = n2 then n1 else decide (r.rm = .rdn)) 0, 0⟩
  else f.round r ⟨s.1 < 0, s.1.natAbs, s.2, false⟩

/-- round_to(a + b). -/
def fAdd (f : Fmt) (r : Rnd) (a b : Num) : Res :=
  match a, b with
  | .nan _, _ => ⟨f.nanCode, sigFlags [a, b]⟩
  | _, .nan _ => ⟨f.nanCode, sigFlags [a, b]⟩
  | .inf n, .inf n' => if n = n' then ⟨f.signed n f.infCode, 0⟩ else f.invalid
  | .inf n, .fin _ _ _ => ⟨f.signed n f.infCode, 0⟩
  | .fin _ _ _, .inf n => ⟨f.signed n f.infCode, 0⟩
  | .fin n m e, .fin n' m' e' => f.roundSum r n n' (exactSum n m e n' m' e')

/-- round_to(a - b). -/
def fSub (f : Fmt) (r : Rnd) (a b : Num) : Res := fAdd f r a b.negate

/-- round_to(a * b). -/
def fMul (f : Fmt) (r : Rnd) (a b : Num) : Res :=
  match a, b with
  | .nan _, _ => ⟨f.nanCode, sigFlags [a, b]⟩
  | _, .nan _ => ⟨f.nanCode, sigFlags [a, b]⟩
  | .inf n, .inf n' => ⟨f.signed (n != n') f.infCode, 0⟩
  | .inf n, .fin n' m _ => if m = 0 then f.invalid else ⟨f.signed (n != n') f.infCode, 0⟩
  | .fin n m _, .inf n' => if m = 0 then f.invalid else ⟨f.signed (n != n') f.infCode, 0⟩
  | .fin n m e, .fin n' m' e' => f.round r ⟨n != n', m * m', e + e', false⟩

/-- round_to(a * b + c), one rounding; infinity times zero is invalid whatever c is (R30). -/
def fFma (f : Fmt) (r : Rnd) (a b c : Num) : Res :=
  let bad : Bool := match a, b with
    | .inf _, .fin _ m _ => m = 0
    | .fin _ m _, .inf _ => m = 0
    | _, _ => false
  if bad then f.invalid
  else if a.isNan || b.isNan || c.isNan then ⟨f.nanCode, sigFlags [a, b, c]⟩
  else match a, b, c with
    | .fin n m e, .fin n' m' e', .fin n2 m2 e2 => f.roundSum r (n != n') n2 (exactSum (n != n') (m * m') (e + e') n2 m2 e2)
    | .fin _ _ _, .fin _ _ _, .inf n2 => ⟨f.signed n2 f.infCode, 0⟩
    | .inf n, .inf n', c => match c with
      | .inf n2 => if (n != n') = n2 then ⟨f.signed n2 f.infCode, 0⟩ else f.invalid
      | _ => ⟨f.signed (n != n') f.infCode, 0⟩
    | .inf n, .fin n' _ _, c => match c with
      | .inf n2 => if (n != n') = n2 then ⟨f.signed n2 f.infCode, 0⟩ else f.invalid
      | _ => ⟨f.signed (n != n') f.infCode, 0⟩
    | .fin n _ _, .inf n', c => match c with
      | .inf n2 => if (n != n') = n2 then ⟨f.signed n2 f.infCode, 0⟩ else f.invalid
      | _ => ⟨f.signed (n != n') f.infCode, 0⟩
    | _, _, _ => f.invalid

/-- Quotient of two magnitudes with at least 110 bits. -/
def exQuot (neg : Bool) (m : Nat) (e : Int) (m' : Nat) (e' : Int) : Ex :=
  let k := Nat.log2 m' + 112
  let q := m * 2 ^ k / m'
  ⟨neg, q, e - e' - k, m * 2 ^ k % m' ≠ 0⟩

/-- round_to(a / b); a finite value over 0 raises DZ (R138). -/
def fDiv (f : Fmt) (r : Rnd) (a b : Num) : Res :=
  match a, b with
  | .nan _, _ => ⟨f.nanCode, sigFlags [a, b]⟩
  | _, .nan _ => ⟨f.nanCode, sigFlags [a, b]⟩
  | .inf _, .inf _ => f.invalid
  | .inf n, .fin n' _ _ => ⟨f.signed (n != n') f.infCode, 0⟩
  | .fin n _ _, .inf n' => ⟨f.signed (n != n') 0, 0⟩
  | .fin n m e, .fin n' m' e' =>
    if m' = 0 then (if m = 0 then f.invalid else ⟨f.signed (n != n') f.infCode, fDZ⟩)
    else f.round r (exQuot (n != n') m e m' e')

/-- Square root of m x 2^e with at least 110 bits. -/
def exSqrt (m : Nat) (e : Int) : Ex :=
  let k : Nat := 224 + (e % 2).toNat
  let y := m * 2 ^ k
  ⟨false, Nat.sqrt y, (e - k) / 2, Nat.sqrt y * Nat.sqrt y ≠ y⟩

/-- round_to(sqrt a) (R138). -/
def fSqrt (f : Fmt) (r : Rnd) (a : Num) : Res :=
  match a with
  | .nan _ => ⟨f.nanCode, sigFlags [a]⟩
  | .inf n => if n then f.invalid else ⟨f.infCode, 0⟩
  | .fin n m e => if m = 0 then ⟨f.signed n 0, 0⟩ else if n then f.invalid else f.round r (exSqrt m e)

/-- A value rounded to an integral value of its format, without NX (R138). -/
def fRoundInt (f : Fmt) (r : Rnd) (a : Num) : Res :=
  match a with
  | .nan _ => ⟨f.nanCode, sigFlags [a]⟩
  | .inf n => ⟨f.signed n f.infCode, 0⟩
  | .fin n m e =>
    if m = 0 ∨ 0 ≤ e then ⟨(f.round .rne ⟨n, m, e, false⟩).code, 0⟩
    else
      let a := roundAt r ⟨n, m, e, false⟩ 0
      ⟨(f.round .rne ⟨n, a.1, 0, false⟩).code, 0⟩

/-- a < b of two values that are no NaN; -0 and +0 are equal. -/
def numLt : Num → Num → Bool
  | .inf n, .inf n' => n && !n'
  | .inf n, .fin _ _ _ => n
  | .fin _ _ _, .inf n' => !n'
  | .fin n m e, .fin n' m' e' => (exactSum n m e (!n') m' e').1 < 0
  | _, _ => false

/-- a = b of two values that are no NaN. -/
def numEq (a b : Num) : Bool := !numLt a b && !numLt b a

/-- Whether a value has its sign bit set. -/
def Num.sign : Num → Bool
  | .nan _ => false
  | .inf n => n
  | .fin n _ _ => n

/-- A value written back in its own format. -/
def Fmt.write (f : Fmt) (a : Num) : Nat :=
  match a with
  | .nan _ => f.nanCode
  | .inf n => f.signed n f.infCode
  | .fin n m e => (f.round .rne ⟨n, m, e, false⟩).code

/-- VMIN and VMAX, and with num set VMINNUM and VMAXNUM (R30). -/
def fMinMax (f : Fmt) (isMax num : Bool) (a b : Num) : Res :=
  let fl := sigFlags [a, b]
  if a.isNan && b.isNan then ⟨f.nanCode, fl⟩
  else if a.isNan then ⟨if num then f.write b else f.nanCode, fl⟩
  else if b.isNan then ⟨if num then f.write a else f.nanCode, fl⟩
  else if numLt a b then ⟨f.write (if isMax then b else a), fl⟩
  else if numLt b a then ⟨f.write (if isMax then a else b), fl⟩
  else ⟨f.write (if a.sign = isMax then b else a), fl⟩

/-- Relations of VCMP, quiet (R30, R138). -/
def fCmp (c : FCond) (a b : Num) : Bool :=
  if a.isNan || b.isNan then (match c with
    | .ne => true
    | .un => true
    | _ => false)
  else match c with
    | .eq => numEq a b
    | .ne => !numEq a b
    | .lt => numLt a b
    | .le => !numLt b a
    | .gt => numLt b a
    | .ge => !numLt a b
    | .un => false

/-- A value of any type of codes 0 to 16: a lane read (R17, R18). Narrow floats ignore the bits above them (R133). -/
def readNum (t : Ty) (c : Nat) : Num :=
  if t.isInt then
    let v := readInt t c
    .fin (v < 0) v.natAbs 0
  else (Fmt.of t).read c

/-- round_to(destination, v) of any source value, with the additions of R29. -/
def convert (t : Ty) (r : Rnd) (v : Num) : Res :=
  let f := Fmt.of t
  match v with
  | .nan s =>
    if t.isInt then ⟨0, fNV⟩
    else if f.nan = 0 then ⟨0, fNV⟩ else ⟨f.nanCode, if s then fNV else 0⟩
  | .inf n =>
    if t.isInt then ⟨writeInt t (if n then (loInt t) else (hiInt t)), fNV⟩
    else if f.inf then ⟨f.signed n f.infCode, 0⟩ else ⟨f.signed n f.maxCode, fNV⟩
  | .fin n m e =>
    if t.isInt then (if m = 0 then ⟨0, 0⟩ else roundInt t r ⟨n, m, e, false⟩)
    else f.round r ⟨n, m, e, false⟩

/-! ### Stochastic draws (R26, R27) -/

/-- One draw: the next generator state. -/
def seedNext (x : Word) : Word :=
  let x := x ^^^ (x <<< 13)
  let x := x ^^^ (x >>> 7)
  x ^^^ (x <<< 17)

/-- The draw that a generator state gives. -/
def seedDraw (x : Word) : Nat := (x >>> 32).toNat

/-- The state after n draws. -/
def seedSkip : Nat → Word → Word
  | 0, x => x
  | n + 1, x => seedSkip n (seedNext x)

/-- A zero generator state becomes the constant of R27. -/
def seedFix (x : Word) : Word := if x = 0 then 0x9E3779B97F4A7C15#64 else x

/-- SEED of a unit at bind (R27). -/
def seedAtBind (l unitix : Word) : Word := seedFix (l ^^^ (unitix * 0x9E3779B97F4A7C15#64))

/-- The mode of a step under RMODE, with dyn resolved (R24, R25). -/
def resolveRm (rm : Rm) (rmode : Word) : Rm :=
  match rm with
  | .dyn => match (rmode &&& 7).toNat with
    | 1 => .rtz
    | 2 => .rup
    | 3 => .rdn
    | 4 => .rna
    | 5 => .sr
    | _ => .rne
  | r => r

/-- The rounding of the next step and the generator after it: a draw only under sr (R27). -/
def takeDraw (rm : Rm) (seed : Word) : Rnd × Word :=
  match rm with
  | .sr => (⟨.sr, seedDraw (seedNext seed)⟩, seedNext seed)
  | _ => (⟨rm, 0⟩, seed)

end Sys2Proof.Machine
end

