-- ==== Sys2Proof/Machine/Blocks.lean ====
section
/-! DEFINITION. Block types: register images, scales, element codes and requantisation (R20 to R23, R36). -/

namespace Sys2Proof.Machine

/-- Elements of a block (R21, R23). -/
def blkLen (t : Ty) : Nat := if t = .tq4 then 4 else 32
/-- Blocks of a register image (R22). -/
def blkCount : Ty → Nat
  | .mxfp8 => 7
  | .mxint8 => 7
  | .mxfp6e3 => 10
  | .mxfp6e2 => 10
  | .mxfp4 => 15
  | _ => 85
/-- Bits of an element code of a block. -/
def blkBits : Ty → Nat
  | .mxfp8 => 8
  | .mxint8 => 8
  | .mxfp6e3 => 6
  | .mxfp6e2 => 6
  | _ => 4
/-- Bytes of the element field of a block. -/
def blkField (t : Ty) : Nat := if t = .tq4 then 2 else 4 * blkBits t
/-- Bytes of a block in interleaved layout (R261). -/
def blkBytes (t : Ty) : Nat := 1 + blkField t
/-- The plain type of an element of an MX type that is a float. -/
def blkElemTy : Ty → Ty
  | .mxfp8 => .e4m3
  | .mxfp6e3 => .e3m2
  | .mxfp6e2 => .e2m3
  | _ => .e2m1

/-- A block: its scale byte and its codes. -/
structure Blk where
  scale : Nat
  codes : List Nat
  deriving DecidableEq, Repr

/-- Whether a block is NaN as a whole (R21, R23). -/
def Blk.isNan (t : Ty) (b : Blk) : Bool := if t = .tq4 then b.scale % 64 = 63 else b.scale = 255
/-- The exponent of a block's scale (R21, R23). -/
def Blk.exp (t : Ty) (b : Blk) : Int := if t = .tq4 then (b.scale % 64 : Nat) - (32 : Int) else (b.scale : Int) - 127

/-- Magnitudes of POW2 codes in integer form (R23). -/
def pow2Mags : List Nat := [0, 1, 2, 4, 8, 16, 32, 64]
/-- Magnitudes of HYB codes in integer form (R23). -/
def hybMags : List Nat := [0, 1, 2, 3, 4, 8, 16, 32]
/-- Magnitudes of E2M1 codes in integer form, f = 1 (R20). -/
def e2m1Mags : List Nat := [0, 1, 2, 3, 4, 6, 8, 12]

/-- The integer form (sign, I, f) of a code of a block; none for a NaN code (R20). The kind is the type of a TQ4 block. -/
def codeForm (t : Ty) (kind code : Nat) : Option (Bool × Nat × Nat) :=
  match t with
  | .mxint8 => some (decide (128 ≤ code), (if 128 ≤ code then 256 - code else code), 6)
  | .tq4 =>
    let neg := decide (8 ≤ code)
    match kind with
    | 0 => some (neg, (if neg then 16 - code else code), 0)
    | 1 => some (neg, e2m1Mags.getD (code % 8) 0, 1)
    | 2 => some (neg, pow2Mags.getD (code % 8) 0, 0)
    | _ => some (neg, hybMags.getD (code % 8) 0, 0)
  | .mxfp8 => match (Fmt.of .e4m3).read code with
    | .fin n m e => some (n, m * 2 ^ (e + 9).toNat, 9)
    | _ => none
  | .mxfp6e3 => match (Fmt.of .e3m2).read code with
    | .fin n m e => some (n, m * 2 ^ (e + 4).toNat, 4)
    | _ => none
  | .mxfp6e2 => match (Fmt.of .e2m3).read code with
    | .fin n m e => some (n, m * 2 ^ (e + 3).toNat, 3)
    | _ => none
  | _ => some (decide (8 ≤ code), e2m1Mags.getD (code % 8) 0, 1)

/-- The value of element i of a block: code value times scale (R21, R23). -/
def Blk.value (t : Ty) (b : Blk) (i : Nat) : Num :=
  if b.isNan t then .nan false
  else match codeForm t (b.scale / 64) (b.codes.getD i 0) with
    | none => .nan false
    | some (neg, m, f) => .fin neg m (b.exp t - f)

/-- Block j of a register image given as a number (R22). -/
def imgBlk (t : Ty) (img : Nat) (j : Nat) : Blk :=
  let byte (k : Nat) := img / 2 ^ (8 * k) % 256
  if t = .tq4 then
    { scale := byte (3 * j), codes := (List.range 4).map fun i => img / 2 ^ (24 * j + 8 + 4 * i) % 16 }
  else
    { scale := byte ((if blkField t = 32 then 248 else 240) + j)
      codes := (List.range 32).map fun i => img / 2 ^ (8 * blkField t * j + blkBits t * i) % 2 ^ blkBits t }

/-- The bits that block j takes in a register image: pieces of value, position and width. -/
def blkPieces (t : Ty) (b : Blk) (j : Nat) : List (Nat × Nat × Nat) :=
  let field := (b.codes.zipIdx.map fun (c, i) => c * 2 ^ (blkBits t * i)).sum
  if t = .tq4 then [(b.scale, 24 * j, 8), (field, 24 * j + 8, 16)]
  else [(field, 8 * blkField t * j, 8 * blkField t), (b.scale, 8 * ((if blkField t = 32 then 248 else 240) + j), 8)]

/-- Replaces a field of a number. -/
def putBits (img val pos width : Nat) : Nat :=
  img - (img / 2 ^ pos % 2 ^ width) * 2 ^ pos + (val % 2 ^ width) * 2 ^ pos

/-- Writes block j of a register image. -/
def putBlk (t : Ty) (img : Nat) (b : Blk) (j : Nat) : Nat :=
  (blkPieces t b j).foldl (fun acc (v, p, w) => putBits acc v p w) img

/-- Clears the bytes of R22 that belong to no block. -/
def clearZeroBytes (t : Ty) (img : Nat) : Nat :=
  match t with
  | .mxfp8 => putBits (putBits img 0 (8 * 224) (8 * 24)) 0 (8 * 255) 8
  | .mxint8 => putBits (putBits img 0 (8 * 224) (8 * 24)) 0 (8 * 255) 8
  | .mxfp6e3 => putBits img 0 (8 * 250) (8 * 6)
  | .mxfp6e2 => putBits img 0 (8 * 250) (8 * 6)
  | _ => putBits img 0 (8 * 255) 8

/-! ### Requantisation (R36) -/

/-- Largest magnitude of the element type, as m x 2^e (R36). -/
def blkMax (t : Ty) (kind : Nat) : Nat × Int :=
  match t with
  | .mxfp8 => (448, 0)
  | .mxfp6e3 => (28, 0)
  | .mxfp6e2 => (15, -1)
  | .mxfp4 => (6, 0)
  | .mxint8 => (127, -6)
  | _ => match kind with
    | 0 => (7, 0)
    | 1 => (6, 0)
    | 2 => (64, 0)
    | _ => (32, 0)

/-- Least scale exponent E with m x 2^e / 2^E <= Vmax. -/
def scaleExp (m : Nat) (e : Int) (vm : Nat) (ve : Int) : Int :=
  let c : Int := e + Nat.log2 m - (ve + Nat.log2 vm)
  if magLt vm (ve + c) m e then c + 1 else if magLt vm (ve + c - 1) m e then c else c - 1

/-- Rounds m x 2^e to the nearest of ascending integer magnitudes with value I x 2^-f, ties to the even code; the last
magnitude of the list lies beyond the largest code and stands for overflow (R24, R28). Answers code magnitude and flags. -/
def gridRound (mags : List Nat) (f : Nat) (m : Nat) (e : Int) : Nat × Nat :=
  let d := min e (-(f : Int))
  let v := m * 2 ^ (e - d).toNat
  let g (i : Nat) := mags.getD i 0 * 2 ^ (-(f : Int) - d).toNat
  let last := mags.length - 1
  let t := ((List.range mags.length).filter fun i => g i ≤ v).length - 1
  if t = last then (last - 1, fOF ||| fNX)
  else if g t = v then (t, 0)
  else
    let up := 2 * v > g t + g (t + 1) || (2 * v = g t + g (t + 1) && t % 2 = 1)
    let c := if up then t + 1 else t
    if c = last then (last - 1, fOF ||| fNX)
    else (c, if c = 0 then fUF ||| fNX else fNX)

/-- Code and flags of an element value under RNE (R28, R36). The range of a TQ4 INT code is -8 to 7 (R23; DEDUCED, log 15). An
E2M1 element is tiny by the rule of R28 (DEDUCED, log 11). -/
def elemRound (t : Ty) (kind : Nat) (neg : Bool) (m : Nat) (e : Int) : Nat × Nat :=
  let signMag (r : Nat × Nat) := (if neg then r.1 + 8 else r.1, r.2)
  let twos (w : Nat) (r : Nat × Nat) := (if neg && r.1 ≠ 0 then 2 ^ w - r.1 else r.1, r.2)
  let float (u : Ty) := let r := (Fmt.of u).round .rne ⟨neg, m, e, false⟩; (r.code, r.flags)
  match t with
  | .mxfp8 => float .e4m3
  | .mxfp6e3 => float .e3m2
  | .mxfp6e2 => float .e2m3
  | .mxfp4 => float .e2m1
  | .mxint8 => twos 8 (gridRound (List.range 129) 6 m e)
  | _ => match kind with
    | 0 => twos 4 (gridRound (List.range (if neg then 10 else 9)) 0 m e)
    | 1 => float .e2m1
    | 2 => signMag (gridRound (pow2Mags ++ [128]) 0 m e)
    | _ => signMag (gridRound (hybMags ++ [64]) 0 m e)

/-- Largest of the magnitudes of finite values. -/
def maxMag : List Num → Nat × Int
  | [] => (0, 0)
  | .fin _ m e :: l => let r := maxMag l; if magLt r.1 r.2 m e then (m, e) else r
  | _ :: l => maxMag l

/-- The block that quantises the values given, and its flags (R36). A TQ4 block takes the code type given. -/
def quantBlk (t : Ty) (kind : Nat) (zs : List Num) : Blk × Nat :=
  let tag := if t = .tq4 then 64 * kind else 0
  let zero := zs.map fun _ => 0
  if zs.any fun z => match z with
    | .fin _ _ _ => false
    | _ => true
  then ({ scale := if t = .tq4 then tag + 63 else 255, codes := zero }, fNV)
  else
    let mm := maxMag zs
    if mm.1 = 0 then ({ scale := tag, codes := zero }, 0)
    else
      let vm := blkMax t kind
      let lo : Int := if t = .tq4 then -32 else -127
      let hi : Int := if t = .tq4 then 30 else 127
      let x := clampInt lo hi (scaleExp mm.1 mm.2 vm.1 vm.2)
      let rs := zs.map fun z => match z with
        | .fin n m e => if m = 0 then (elemRound t kind n 0 0) else elemRound t kind n m (e - x)
        | _ => (0, 0)
      ({ scale := tag + (x - lo).toNat, codes := rs.map (·.1) }, rs.foldl (fun a r => a ||| r.2) 0)

end Sys2Proof.Machine
end

