-- ==== Sys2Proof/Machine/Store.lean ====
section
/-! DEFINITION. The named stores of the state: places, tiles, slots, units, bytes of memory, the agenda, the clocks and
identities. Every other file reads and writes the state through these. -/

namespace Sys2Proof.Machine

/-! ### Keyed lists: ascending keys, at most one entry a key -/

/-- The entry of a key, or the default. -/
def aget {α : Type} (d : α) : List (Nat × α) → Nat → α
  | [], _ => d
  | (k, v) :: l, i => if k = i then v else aget d l i

/-- Sets the entry of a key, keeping the keys ascending. -/
def aset {α : Type} : List (Nat × α) → Nat → α → List (Nat × α)
  | [], i, x => [(i, x)]
  | (k, v) :: l, i, x => if i < k then (i, x) :: (k, v) :: l else if i = k then (i, x) :: l else (k, v) :: aset l i x

/-- Removes the entry of a key. -/
def aerase {α : Type} (l : List (Nat × α)) (i : Nat) : List (Nat × α) := l.filter fun e => e.1 ≠ i

/-- Whether a key has an entry. -/
def ahas {α : Type} (l : List (Nat × α)) (i : Nat) : Bool := l.any fun e => e.1 = i

/-! ### Bytes: ascending addresses, no entry that is 0 -/

/-- The byte at an address; unlisted ones are 0 (log 3). -/
def cellGet : List Host.Cell → Nat → Byte
  | [], _ => 0
  | (k, b) :: l, a => if k = a then b else cellGet l a

/-- Lists a byte that is not 0. -/
def cellPut : List Host.Cell → Nat → Byte → List Host.Cell
  | [], a, x => [(a, x)]
  | (k, b) :: l, a, x => if a < k then (a, x) :: (k, b) :: l else if a = k then (a, x) :: l else (k, b) :: cellPut l a x
/-- Writes a byte, keeping the form. -/
def cellSet (m : List Host.Cell) (a : Nat) (x : Byte) : List Host.Cell :=
  if x = 0 then m.filter fun e => e.1 ≠ a else cellPut m a x

/-- n bytes from an address upward. -/
def cellsRead (m : List Host.Cell) (a : Nat) : Nat → List Byte
  | 0 => []
  | n + 1 => cellGet m a :: cellsRead m (a + 1) n

/-- Writes bytes from an address upward. -/
def cellsWrite (m : List Host.Cell) (a : Nat) : List Byte → List Host.Cell
  | [] => m
  | b :: bs => cellsWrite (cellSet m a b) (a + 1) bs

/-- The same places, those that a predicate names with bytes nobody can tell: what a new owner reads (R119, R213). Free values,
log 5. -/
def unknownBytes (p : Nat → Bool) (ctr : Nat) : List Host.Cell → List Host.Cell
  | [] => []
  | (a, b) :: l =>
    let x := if p a then Config.freeByte ctr else b
    if x = 0 then unknownBytes p (ctr + 1) l else (a, x) :: unknownBytes p (ctr + 1) l

/-- So many bytes from address 0 upward that nobody can tell, before cells that lie higher. Free values, log 5. -/
def freeCells (ctr : Nat) : Nat → List Host.Cell → List Host.Cell
  | 0, l => l
  | n + 1, l =>
    let x := Config.freeByte (ctr + n)
    freeCells ctr n (if x = 0 then l else (n, x) :: l)

/-- The canonical form: addresses strictly rising, no entry that is 0. -/
def cellsWf : List Host.Cell → Bool
  | [] => true
  | [(_, b)] => decide (b ≠ 0)
  | (a, b) :: (a', b') :: l => decide (b ≠ 0) && decide (a < a') && cellsWf ((a', b') :: l)

/-! ### Places (R7, R8, R14) -/

/-- Number of a place. -/
def nodeKey (n : Node) : Nat := n.pkg * 4096 + n.id
/-- The place of a number. -/
def nodeOfKey (k : Nat) : Node := ⟨k / 4096, k % 4096⟩
/-- Number of an endpoint, for ordering. -/
def epKey (e : EpRef) : Nat := (e.pkg * 4096 + e.tile) * 128 + e.ep
/-- Issuer index: package, tile, slot (R243). -/
def slotKey (r : SlotRef) : Nat := (r.pkg * 4096 + r.tile) * 16 + r.slot

/-- Compute tiles (R7). -/
def isCompute (id : Nat) : Bool := id < 2048
/-- Spouts (R7). -/
def isSpout (id : Nat) : Bool := 2048 ≤ id && id < 2096
/-- Management tiles (R7). -/
def isMgmt (id : Nat) : Bool := 2096 ≤ id && id < 2100
/-- Ids that name a tile (R7). -/
def isTile (id : Nat) : Bool := id < 2100
/-- Far-memory device j, as a place. -/
def farNode (pkg j : Nat) : Node := ⟨pkg, 2100 + j⟩
/-- The CXL port on IOD-S, as a place. -/
def cxlNode (pkg : Nat) : Node := ⟨pkg, 2124⟩
/-- The service units of IOD-N: dispatcher, far-memory allocator, demand summer, arbiter, exchange unit, block queue. -/
def svcN (pkg : Nat) : Node := ⟨pkg, 2125⟩

/-- Column of a compute tile. -/
def tileX (id : Nat) : Nat := id % 64
/-- Row of a compute tile. -/
def tileY (id : Nat) : Nat := id / 64
/-- The compute die of a tile, 8 for IOD-N and 9 for IOD-S (R7, Table 1 of chapter 01). -/
def dieOf (id : Nat) : Nat :=
  if isCompute id then tileX id / 16 + 4 * (tileY id / 16)
  else if isSpout id then (if id < 2072 then 8 else 9)
  else if isMgmt id then (if id < 2098 then 8 else 9)
  else if 2100 ≤ id && id < 2124 then (if id < 2112 then 8 else 9)
  else if id = 2125 then 8 else 9
/-- The island of a compute tile; none of an I/O die (R7). -/
def islandOf (id : Nat) : Option Nat :=
  if isCompute id then some (dieOf id * 4 + 2 * (tileY id % 16 / 8) + tileX id % 16 / 8) else none

/-- Whether a package is part of the domain's shape (R8, R13). -/
def hasPkg (s : State) (p : Nat) : Bool :=
  p < 64 && p % 4 < s.shape.1 && p / 4 % 4 < s.shape.2.1 && p / 16 < s.shape.2.2
/-- The packages of the domain. -/
def allPkgs (s : State) : List Nat := (List.range 64).filter (hasPkg s)

/-! ### Parts of the state -/

/-- A tile. -/
def tileAt (s : State) (n : Node) : Tile := aget Tile.reset s.tiles (nodeKey n)
/-- Replaces a tile. -/
def setTile (s : State) (n : Node) (t : Tile) : State := { s with tiles := aset s.tiles (nodeKey n) t }
/-- Changes a tile. -/
def modTile (s : State) (n : Node) (f : Tile → Tile) : State := setTile s n (f (tileAt s n))
/-- A package. -/
def pkgAt (s : State) (p : Nat) : Pkg := aget {} s.pkgs p
/-- Changes a package. -/
def modPkg (s : State) (p : Nat) (f : Pkg → Pkg) : State := { s with pkgs := aset s.pkgs p (f (pkgAt s p)) }
/-- A memory controller. -/
def ctrlAt (s : State) (n : Node) : Ctrl := aget {} s.ctrls (nodeKey n)
/-- Changes a memory controller. -/
def modCtrl (s : State) (n : Node) (f : Ctrl → Ctrl) : State := { s with ctrls := aset s.ctrls (nodeKey n) (f (ctrlAt s n)) }
/-- A router or the injection side of an I/O die unit. -/
def routerAt (s : State) (n : Node) : Router := aget {} s.routers (nodeKey n)
/-- Changes a router. -/
def modRouter (s : State) (n : Node) (f : Router → Router) : State :=
  { s with routers := aset s.routers (nodeKey n) (f (routerAt s n)) }

/-- A physical slot. -/
def slotAt (s : State) (r : SlotRef) : Slot := (tileAt s r.node).slots.toList.getD r.slot (Slot.reset r.slot)
/-- Changes a physical slot of a tile. -/
def Tile.modSlot (t : Tile) (i : Nat) (f : Slot → Slot) : Tile :=
  if h : i < 16 then { t with slots := t.slots.set i (f t.slots[i]) } else t
/-- Changes a physical slot. -/
def modSlot (s : State) (r : SlotRef) (f : Slot → Slot) : State := modTile s r.node fun t => t.modSlot r.slot f
/-- The context bound to a slot. -/
def ctxAt (s : State) (r : SlotRef) : Ctx := (slotAt s r).ctx
/-- Changes the context bound to a slot. -/
def modCtx (s : State) (r : SlotRef) (f : Ctx → Ctx) : State := modSlot s r fun l => { l with ctx := f l.ctx }

/-- The context of a unit, bound or away, if it is still on the slot. -/
def unitAt (s : State) (r : SlotRef) (uid : Nat) : Option Ctx :=
  let l := slotAt s r
  if l.ph ≠ .free ∧ l.ctx.uid = uid then some l.ctx else l.saved.find? fun c => c.uid = uid
/-- Changes the context of a unit, bound or away (R91). -/
def modUnit (s : State) (r : SlotRef) (uid : Nat) (f : Ctx → Ctx) : State :=
  modSlot s r fun l =>
    if l.ph ≠ .free ∧ l.ctx.uid = uid then { l with ctx := f l.ctx }
    else { l with saved := l.saved.map fun c => if c.uid = uid then f c else c }
/-- Whether a slot has a bound unit (R72). -/
def isBound (s : State) (r : SlotRef) : Bool := (slotAt s r).ph = .bound
/-- Whether a unit is pre-empted: its context is away, or being saved or restored (R91). -/
def isAway (s : State) (r : SlotRef) (uid : Nat) : Bool :=
  ((slotAt s r).saved.any fun c => c.uid = uid) || ((slotAt s r).ph = .saving && (slotAt s r).ctx.uid = uid)

/-- An endpoint of a tile. -/
def Tile.epAt (t : Tile) (i : Nat) : Endpoint := aget {} t.eps i
/-- An endpoint. -/
def epAt (s : State) (e : EpRef) : Endpoint := (tileAt s e.node).epAt e.ep
/-- Changes an endpoint. -/
def modEp (s : State) (e : EpRef) (f : Endpoint → Endpoint) : State :=
  modTile s e.node fun t => { t with eps := aset t.eps e.ep (f (t.epAt e.ep)) }

/-- A job by its handle. -/
def jobAt (s : State) (h : Word) : Option Job := s.jobs.find? fun j => j.handle = h
/-- Changes a job. -/
def modJob (s : State) (h : Word) (f : Job → Job) : State :=
  { s with jobs := s.jobs.map fun j => if j.handle = h then f j else j }

/-! ### Clock, identities, free values -/

/-- CYCLE of a package (R99). -/
def cycleOf (s : State) (pkg : Nat) : Nat := s.now - (pkgAt s pkg).cycleBase
/-- The round of a package (R75). -/
def roundOf (s : State) (pkg : Nat) : Nat := cycleOf s pkg / 16
/-- The next identity, and the state after it is taken. -/
def fresh (s : State) : Nat × State := (s.no, { s with no := s.no + 1 })
/-- Advances the counter of free values. -/
def stepFree (s : State) : State := { s with freeCtr := s.freeCtr + 1 }

/-- Held count of an island: twice its operating point (R365). -/
def heldCount (s : State) (n : Node) : Nat :=
  match islandOf n.id with
  | some i => 2 * (aget {} (pkgAt s n.pkg).islands i).point
  | none => 0
/-- Whether an island with held count h holds round r (R365). -/
def holds (h r : Nat) : Bool := r % 16 * h % 16 < h
/-- Whether a tile's clock stands still in the present cycle: a held round, or an island idle or off (R364, R365). -/
def isHeld (s : State) (n : Node) : Bool :=
  holds (heldCount s n) (roundOf s n.pkg) ||
  (match islandOf n.id with
    | some i => (aget {} (pkgAt s n.pkg).islands i).power ≠ .active
    | none => false)

/-- The cycle that lies the given number of advancing cycles after c (R9). -/
def advFrom (h base : Nat) : Nat → Nat → Nat → Nat
  | 0, c, _ => c
  | fuel + 1, c, l =>
    if l = 0 then (if holds h ((c - base) / 16) then advFrom h base fuel (c + 1) 0 else c)
    else if holds h ((c - base) / 16) then advFrom h base fuel (c + 1) l
    else advFrom h base fuel (c + 1) (l - 1)
/-- The cycle l advancing cycles after c under a held count; the held rounds repeat every 16. -/
def dueHeld (h base c l : Nat) : Nat :=
  if h = 0 then c + l
  else
    let per := 256 - 16 * h
    advFrom h base 1024 (c + 256 * (l / per)) (l % per)
/-- The cycle that lies l advancing cycles of a tile after c (R9). -/
def dueFrom (s : State) (n : Node) (c l : Nat) : Nat := dueHeld (heldCount s n) (pkgAt s n.pkg).cycleBase c l
/-- The cycle of an event that lies l advancing cycles of a tile ahead (R9, R116). -/
def dueIn (s : State) (n : Node) (l : Nat) : Nat := dueFrom s n s.now l
/-- Advancing cycles from a up to b under a held count. -/
def advCount (h base a b : Nat) : Nat :=
  if h = 0 then b - a
  else
    let k := (b - a) / 256
    k * (256 - 16 * h) + ((List.range ((b - a) % 256)).filter fun i => !holds h ((a + 256 * k + i - base) / 16)).length

/-! ### The agenda -/

/-- Order of agenda entries: cycle, part of the cycle, key, time of entry. -/
def Due.before (a b : Due) : Bool :=
  a.at_ < b.at_ || (a.at_ = b.at_ && (a.ph < b.ph || (a.ph = b.ph && (a.key < b.key || (a.key = b.key && a.no ≤ b.no)))))
/-- Inserts an entry in order. -/
def dueInsert (d : Due) : List Due → List Due
  | [] => [d]
  | x :: l => if d.before x then d :: x :: l else x :: dueInsert d l
/-- Puts an event on the agenda. -/
def push (s : State) (at_ ph key : Nat) (ev : Ev) : State :=
  { s with no := s.no + 1, agenda := dueInsert ⟨at_, ph, key, s.no, ev⟩ s.agenda }
/-- Puts an event on the agenda unless it is there already for that cycle. -/
def pushOnce (s : State) (at_ ph key : Nat) (ev : Ev) : State :=
  if s.agenda.any fun d => d.at_ = at_ ∧ d.ev = ev then s else push s at_ ph key ev
/-- Puts an event at the earliest cycle at which a peer that serves one request a cycle can take it (R397). -/
def serveSlot (s : State) (peer : Nat) : Nat × State :=
  let c := max s.now (aget 0 s.served peer)
  (c, { s with served := aset s.served peer (c + 1) })

/-- Parts of a cycle in which agenda entries happen. -/
def phStart : Nat := 0
/-- Landings and routing. -/
def phLand : Nat := 2
/-- Merge steps. -/
def phMerge : Nat := 3
/-- Effects at the end of a cycle. -/
def phEnd : Nat := 5
/-- Scratchpad service, once everything else of the cycle is done (R221, R224). -/
def phServe : Nat := 6
/-- What the end of a cycle finds after the scratchpad service (R226). -/
def phLate : Nat := 7

/-! ### Outstanding writes, messages and commands (R82, R291, R294) -/

/-- Notes a write, message or command that is not yet performed. -/
def addOut (s : State) (o : Out) : State := { s with outs := s.outs ++ [o] }
/-- Drops one that is performed. -/
def dropOut (s : State) (id : Nat) : State := { s with outs := s.outs.filter fun o => o.id ≠ id }

/-- Whether an outstanding write lies within a scope around a place (R289, R290). -/
def Out.within (o : Out) (sc : Scope) (at_ : Node) : Bool :=
  match o.home with
  | none => false
  | some h => match sc with
    | .slot => false
    | .tile => !o.host && decide (h = at_)
    | .pkg => !o.host && decide (h.pkg = at_.pkg)
    | .dom => true
/-- Whether an outstanding entry belongs to a unit. -/
def Out.ofUnit (o : Out) (r : SlotRef) (uid : Nat) : Bool := decide (o.slot = r) && decide (o.uid = uid)
/-- Writes of a unit outstanding within a scope (R299). -/
def writesOut (s : State) (r : SlotRef) (uid : Nat) (sc : Scope) (at_ : Node) : Bool :=
  s.outs.any fun o => o.ofUnit r uid && o.within sc at_
/-- Engine commands of a unit outstanding (R300). -/
def cmdsOut (s : State) (r : SlotRef) (uid : Nat) : Bool := s.outs.any fun o => o.ofUnit r uid && o.home = none
/-- Whether a release of a unit at a scope may be performed (R294). -/
def releaseOk (s : State) (r : SlotRef) (uid : Nat) (sc : Scope) (at_ : Node) : Bool :=
  sc = .slot || (!writesOut s r uid sc at_ && !cmdsOut s r uid)

end Sys2Proof.Machine
end

