-- ==== Sys2Proof/Machine/Errors.lean ====
section
/-! DEFINITION. Errors in stored code words: where they lie, how a consumer finds them, and the error logs (R351 to R353).
A site's address is a byte offset of a scratchpad or of the accumulator, table and TLB arrays, a physical address of a vault
or far-memory device, or slot x 256 + specifier of a register file (log 21). -/

namespace Sys2Proof.Machine

/-- The consumer an entry is logged with (Table 7 of chapter 15). -/
structure Consumer where
  job : Word
  unitix : Word
  deriving DecidableEq, Repr

/-- Bytes of the protected unit of an array (R351). -/
def errUnit (arr : Nat) : Nat := if arr = 8 ∨ arr = 9 then 32 else if arr ≤ 1 then 1 else 8
/-- The sites of an array that an access of bytes lo to hi - 1 meets. -/
def errSites (t : Tile) (arr lo hi : Nat) : List ErrSite :=
  t.errs.filter fun e => e.arr = arr ∧ lo / errUnit arr ≤ e.addr / errUnit arr ∧ e.addr / errUnit arr * errUnit arr < hi
/-- The address a log entry shows: a register's specifier, or the address itself. -/
def logAddr (e : ErrSite) : Nat := if e.arr ≤ 1 then e.addr % 256 else e.addr
/-- Adds one under a job, saturating. -/
def bump (l : List (Word × Nat)) (job : Word) (cap : Nat) : List (Word × Nat) :=
  match l.find? fun x => x.1 = job with
  | some x => (job, min cap (x.2 + 1)) :: l.filter fun y => y.1 ≠ job
  | none => (job, 1) :: l
/-- The first index below 16 without an entry. -/
def freeEntry (l : List (Nat × LogEntry)) : Option Nat := (List.range 16).find? fun i => !ahas l i
/-- The oldest corrected entry. -/
def oldCorrected (l : List (Nat × LogEntry)) : Option Nat :=
  (l.filter fun x => !x.2.ue).foldl (fun (o : Option (Nat × Nat)) x => match o with
    | some (_, st) => if x.2.stamp < st then some (x.1, x.2.stamp) else o
    | none => some (x.1, x.2.stamp)) none |>.map (·.1)
/-- Enters an event in a log (R353). -/
def logEvent (g : ErrLog) (e : ErrSite) (w : Consumer) (cycle stamp : Nat) : ErrLog :=
  let x : LogEntry := ⟨e.ue, e.arr, logAddr e, w.job.toNat % 2 ^ 32, decide (2 ^ 63 ≤ w.unitix.toNat), w.unitix.toNat % 2 ^ 31,
    cycle % 2 ^ 32, 0, e.synd % 2 ^ 16, stamp⟩
  let g := if e.ue then { g with uncorrected := bump g.uncorrected w.job (2 ^ 16 - 1) }
    else { g with corrected := bump g.corrected w.job (2 ^ 32 - 1) }
  match g.entries.find? fun y => y.2.addr = x.addr with
  | some (i, y) => { g with entries := aset g.entries i { y with rept := min (2 ^ 16 - 1) (y.rept + 1), cycle := x.cycle } }
  | none => match freeEntry g.entries with
    | some i => { g with entries := aset g.entries i x }
    | none => match oldCorrected g.entries with
      | some i => { g with entries := aset g.entries i x }
      | none => { g with lost := bump g.lost w.job (2 ^ 16 - 1) }
/-- Logs an event at a place. -/
def logAt (s : State) (n : Node) (e : ErrSite) (w : Consumer) : State :=
  modTile { s with no := s.no + 1 } n fun t =>
    { t with logs := aset t.logs e.arr (logEvent (aget {} t.logs e.arr) e w (cycleOf s n.pkg) s.no) }
/-- A consumer reads bytes of an array: corrected errors are logged and written back; an uncorrectable one is logged, stays
and is answered (R351, R352). -/
def consume (s : State) (n : Node) (arr lo hi : Nat) (w : Consumer) : State × Option ErrSite :=
  let es := errSites (tileAt s n) arr lo hi
  if es = [] then (s, none)
  else
    let s := es.foldl (fun s e => logAt s n e w) s
    (modTile s n fun t => { t with errs := t.errs.filter fun e => e.ue || !es.contains e }, es.find? (·.ue))
/-- A write replaces the units it covers whole, and the errors in them (R352, R355). -/
def replaceUnits (s : State) (n : Node) (arr lo hi : Nat) : State :=
  let u := errUnit arr
  if (tileAt s n).errs = [] then s
  else modTile s n fun t =>
    { t with errs := t.errs.filter fun e => ¬(e.arr = arr ∧ lo ≤ e.addr / u * u ∧ e.addr / u * u + u ≤ hi) }
/-- Whether no array of the domain holds an error. -/
def noErrs (s : State) : Bool := s.tiles.all fun x => x.2.errs.isEmpty
/-- The array code of a controller's memory. -/
def ctrlArr (c : Node) : Nat := if isCompute c.id then 8 else 9
/-- Whether a write of bytes covers a part only of an uncorrectable unit (R352). -/
def partUnit (t : Tile) (arr lo hi : Nat) : Bool :=
  let u := errUnit arr
  t.errs.any fun e => e.ue && e.arr = arr && lo < e.addr / u * u + u && e.addr / u * u < hi &&
    !(lo ≤ e.addr / u * u && e.addr / u * u + u ≤ hi)

end Sys2Proof.Machine
end

