-- ==== Sys2Proof/Machine/Digest.lean ====
section
/-! DEFINITION. SHAKE256, by which protocol images, code and firmware are digested (R160, R362). -/

namespace Sys2Proof.Machine

/-- The lane at column x and row y, each modulo 5, of 25 lanes row by row. -/
def laneXy (a : List Word) (x y : Nat) : Word := a.getD (x % 5 + 5 * (y % 5)) 0

/-- Where the walk (x, y), (y, 2x + 3y), ... moves lanes: the place a lane goes to, the place it comes from, and by how much it
is turned there, the t-th triangular number. -/
def laneWalk : Nat → Nat → Nat → Nat → List (Nat × Nat × Nat)
  | 0, _, _, _ => []
  | n + 1, t, x, y =>
    let z := (2 * x + 3 * y) % 5
    (y + 5 * z, x + 5 * y, t * (t + 1) / 2 % 64) :: laneWalk n (t + 1) y z

/-- The next state of the register of 8 bits whose bits make the round constants: x^8 + x^6 + x^5 + x^4 + 1. -/
def constNext (r : Nat) : Nat := if 128 ≤ r then 2 * r ^^^ 0x171 else 2 * r
/-- A round's constant has the next seven bits of the register at the places 0, 1, 3, 7, 15, 31 and 63: so many are left, the
next at place k; and the register after them. -/
def roundConst : Nat → Nat → Nat → Nat × Nat
  | 0, _, r => (0, r)
  | n + 1, k, r =>
    let x := roundConst n (2 * k + 1) (constNext r)
    (r % 2 * 2 ^ k + x.1, x.2)

/-- A round without its constant: columns mixed, lanes moved and turned, rows mixed. -/
def mixLanes (a : List Word) : List Word :=
  let par := (List.range 5).map fun x => (List.range 5).foldl (fun p y => p ^^^ laneXy a x y) 0
  let mixed (i : Nat) : Word := a.getD i 0 ^^^ par.getD ((i + 4) % 5) 0 ^^^ (par.getD ((i + 1) % 5) 0).rotateLeft 1
  let moved := (laneWalk 24 1 1 0).foldl (fun m (place, src, k) => m.set place ((mixed src).rotateLeft k)) (List.replicate 25 (mixed 0))
  (List.range 25).map fun i => moved.getD i 0 ^^^ (laneXy moved (i + 2) (i / 5) &&& ~~~laneXy moved (i + 1) (i / 5))

/-- So many rounds of Keccak-f[1600] from a state of the constants' register. -/
def permute : Nat → Nat → List Word → List Word
  | 0, _, a => a
  | n + 1, r, a =>
    let k := roundConst 7 0 r
    let m := mixLanes a
    permute n k.2 (m.set 0 (m.getD 0 0 ^^^ BitVec.ofNat 64 k.1))
/-- Keccak-f[1600]. -/
def keccakF (a : List Word) : List Word := permute 24 1 a

/-- Lanes of at most 136 bytes. -/
def keccakLanes : Nat → List Byte → List Word
  | 0, _ => []
  | n + 1, l => BitVec.ofNat 64 (natOfBytes (l.take 8)) :: keccakLanes n (l.drop 8)

/-- Absorbs whole blocks of 136 bytes. -/
def keccakAbsorb : Nat → List Word → List Byte → List Word
  | 0, a, _ => a
  | n + 1, a, l =>
    let m := keccakLanes 25 (l.take 136)
    keccakAbsorb n (keccakF ((List.range 25).map fun i => a.getD i 0 ^^^ m.getD i 0)) (l.drop 136)

/-- The message with the padding of SHAKE256. -/
def shakePad (l : List Byte) : List Byte :=
  let k := 136 - l.length % 136
  if k = 1 then l ++ [0x9F] else l ++ [0x1F] ++ List.replicate (k - 2) 0 ++ [0x80]

/-- The first n bytes of SHAKE256, n at most 136. -/
def shake256 (n : Nat) (l : List Byte) : List Byte :=
  let p := shakePad l
  let a := keccakAbsorb (p.length / 136) (List.replicate 25 0) p
  ((a.take 17).flatMap fun w => bytesOfNat 8 w.toNat).take n

end Sys2Proof.Machine
end

