-- ==== Sys2Proof/Machine/Fabric.lean ====
section
/-! DEFINITION. Flits, routers, bridges and link ports: how every message of the domain travels (R14, R303 to R313). -/

namespace Sys2Proof.Machine

/-! ### Geometry (R7, R8, R14, R312) -/

/-- Coordinates of a package. -/
def pkgXyz (p : Nat) : Nat × Nat × Nat := (p % 4, p / 4 % 4, p / 16)

/-- Whether the shorter way round a ring of n from a to b is upward; a tie goes to + (R305, R312). -/
def upward (n a b : Nat) : Bool := 2 * ((b + n - a) % n) ≤ n

/-- The port by which a flit leaves package p for package q; none when they are one package (R312). -/
def egressPort (s : State) (p q : Nat) : Option Nat :=
  let a := pkgXyz p
  let b := pkgXyz q
  let one (n x y base : Nat) : Option Nat := if x = y then none else some (if upward n x y then base else base + 1)
  match one s.shape.1 a.1 b.1 0 with
  | some k => some k
  | none => match one s.shape.2.1 a.2.1 b.2.1 2 with
    | some k => some k
    | none => one s.shape.2.2 a.2.2 b.2.2 4

/-- The package that a port of package p leads to. -/
def portPeer (s : State) (p port : Nat) : Nat :=
  let a := pkgXyz p
  let mv (n x : Nat) (up : Bool) : Nat := if up then (x + 1) % n else (x + n - 1) % n
  match port / 2 with
  | 0 => mv s.shape.1 a.1 (port % 2 = 0) + 4 * a.2.1 + 16 * a.2.2
  | 1 => a.1 + 4 * mv s.shape.2.1 a.2.1 (port % 2 = 0) + 16 * a.2.2
  | _ => a.1 + 4 * a.2.1 + 16 * mv s.shape.2.2 a.2.2 (port % 2 = 0)

/-- The I/O die of a port: 8 for IOD-N, 9 for IOD-S. -/
def portDie (port : Nat) : Nat := if port < 3 then 8 else 9

/-- The column j by which a flit crosses from one I/O die to the other (R14). -/
def crossColumn (src : Node) : Nat :=
  if isTile src.id then src.id % 64 else if src.id < 2124 then src.id - 2100 else 40

/-- Where a flit heads within a package: a tile of the torus, or an I/O die. -/
def headsFor (s : State) (pkg : Nat) (dst : Node) : Nat × Bool :=
  if dst.pkg ≠ pkg then (portDie ((egressPort s pkg dst.pkg).getD 0), false)
  else if isCompute dst.id then (dst.id, true)
  else (dieOf dst.id, false)

/-- The neighbour of a tile by +X, -X, +Y, -Y. -/
def neighbour (id dir : Nat) : Nat :=
  let x := tileX id
  let y := tileY id
  match dir with
  | 0 => y * 64 + (x + 1) % 64
  | 1 => y * 64 + (x + 63) % 64
  | 2 => (y + 1) % 32 * 64 + x
  | _ => (y + 31) % 32 * 64 + x

/-- The productive outputs of a flit at a tile: X first, then Y, then ejection (4) or the bridge (5) (R305, R308, R14). -/
def productive (s : State) (n : Node) (dst : Node) : List Nat :=
  let h := headsFor s n.pkg dst
  let x := tileX n.id
  let y := tileY n.id
  if h.2 then
    let dx := tileX h.1
    let dy := tileY h.1
    if x = dx ∧ y = dy then [4]
    else (if x ≠ dx then [if upward 64 x dx then 0 else 1] else []) ++ (if y ≠ dy then [if upward 32 y dy then 2 else 3] else [])
  else
    let row := if h.1 = 8 then 0 else 31
    if y = row then [5] else [if upward 32 y row then 2 else 3]

/-- Cycles of a hop: one, and one more across the edge of a compute die (R307). -/
def hopCycles (a b : Nat) : Nat := if dieOf a = dieOf b then 1 else 2

/-! ### Pinned routes (R308, R309) -/

/-- A launch by its handle. -/
def launchAt (s : State) (h : Word) : Option Launch :=
  (pkgAt s (h.toNat / 2 ^ 56 % 64)).launches.find? fun l => l.serial = h.toNat % 2 ^ 32
/-- Changes a launch. -/
def modLaunch (s : State) (h : Word) (f : Launch → Launch) : State :=
  modPkg s (h.toNat / 2 ^ 56 % 64) fun p =>
    { p with launches := p.launches.map fun l => if l.serial = h.toNat % 2 ^ 32 then f l else l }
/-- Sets bits of a launch's void word (R335). -/
def setVoid (s : State) (h : Word) (bit : Nat) : State :=
  modLaunch s h fun l => if l.d.det then { l with void := l.void ||| BitVec.ofNat 64 (2 ^ bit) } else l
/-- The flit slot of a cycle that carries a launch's pinned flits: true for the odd parity (R308, R309). -/
def pinHalf (s : State) (h : Word) : Bool := ((launchAt s h).bind (·.parity)).getD false

/-! ### The way between two places (R307, R309) -/

/-- Cycles of the hops the shorter way round a ring of so many columns or rows, the edges of the dies, 16 apart, among them (R307). -/
def ringWay (n a b : Nat) : Nat :=
  if upward n a b then (b + n - a) % n + (a % 16 + (b + n - a) % n) / 16
  else (a + n - b) % n + (15 - a % 16 + (a + n - b) % n) / 16
/-- The row at which the bridges of an I/O die stand (R14). -/
def bridgeRow (die : Nat) : Nat := if die = 8 then 0 else 31
/-- Cycles from an I/O die to a place, ejection included, with no contention (R14, R307, R312). -/
def dieWay : Nat → State → Nat → Nat → Bool → Node → Nat
  | 0, _, _, _, _, _ => 0
  | fuel + 1, s, pkg, die, fromPort, dst =>
    let pass := if fromPort then 4 else 0
    let across := 8 + ringWay 32 (bridgeRow die) (bridgeRow (17 - die))
    if dst.pkg = pkg then
      if isCompute dst.id then 4 + ringWay 32 (bridgeRow die) (tileY dst.id) + 2
      else if dieOf dst.id = die then pass + 2
      else across + 2
    else
      let port := (egressPort s pkg dst.pkg).getD 0
      (if portDie port = die then pass else across) + 32 +
        dieWay fuel s (portPeer s pkg port) (portDie (if port % 2 = 0 then port + 1 else port - 1)) true dst
/-- Cycles of the way between two places with no contention (R307, R309), for control answers that are not followed flit by
flit; in free mode their latency is unspecified (log 18). -/
def flight (s : State) (a b : Node) : Nat :=
  if a = b then 4
  else if isCompute a.id then
    if b.pkg = a.pkg ∧ isCompute b.id then 4 + ringWay 64 (tileX a.id) (tileX b.id) + ringWay 32 (tileY a.id) (tileY b.id)
    else
      let die := if b.pkg = a.pkg then dieOf b.id else portDie ((egressPort s a.pkg b.pkg).getD 0)
      2 + ringWay 32 (tileY a.id) (bridgeRow die) + 4 + dieWay 16 s a.pkg die false b
  else if b.pkg = a.pkg ∧ !isCompute b.id ∧ dieOf b.id = dieOf a.id then 8
  else 2 + dieWay 16 s a.pkg (dieOf a.id) false b

/-! ### Incarnations (R314) -/

/-- Incarnation that a place knows for a destination: its own, or what a stale notice or an announcement has told it last, an
announcement coming to it by way of its package's service units. -/
def knownInc (s : State) (src dst : Node) : Nat :=
  if src = dst then (tileAt s dst).inc
  else
  let p := aget (0, 0, 0) (pkgAt s src.pkg).known (nodeKey dst)
  let at_ := p.2.1 + flight s (svcN src.pkg) src
  let byPkg := if at_ ≤ s.now then (p.1, at_) else (p.2.2, 0)
  match (tileAt s src).known.find? fun x => x.1 = nodeKey dst with
  | some (_, inc, c) => if byPkg.2 ≤ c then inc else byPkg.1
  | none => byPkg.1

/-! ### Flits and their fields (R303) -/

/-- The endpoint of a channel flit's event (R189). -/
def channelOf : Ev → Option ChFlit
  | .channelFlitLand f => some f
  | .creditLand f => some f
  | .closeNoticeLand f => some f
  | .discardMarkerLand f => some f
  | .adoptionNoticeLand f => some f
  | .redirectLand f => some f
  | .acknowledgementLand f => some f
  | .delegationAbortLand f => some f
  | _ => none
/-- The built-in image whose hidden endpoint carries a request or a reply; 7 for the service endpoint (R191, R192). -/
def imageCode : Ev → Nat
  | .memoryMergeStep _ (some q) => match q.op with
    | .load _ => 0
    | .store _ => 1
    | .pull _ => 4
    | _ => 2
  | .globalReplyLand _ a => match a with
    | .old _ => 2
    | _ => 0
  | .postedStoreCreditLand _ _ => 1
  | .scratchpadCycleService _ _ => 3
  | .remoteReplyLand _ _ => 3
  | .pullRequestServe _ => 4
  | .copyPacketAck _ _ _ _ => 4
  | .spawnRequestLand _ => 5
  | .spawnReplyLand _ _ => 5
  | .spawnReturnLand _ _ _ _ => 5
  | .allocatorRequest _ _ => 6
  | .allocatorReplyLand _ _ => 6
  | _ => 7
/-- DEP of the flits of a message (Table 1). -/
def depOf (typ slot : Nat) (ev : Ev) : Nat :=
  if typ = 3 ∨ typ = 4 then slot * 8 + imageCode ev
  else match channelOf ev, ev with
    | some f, _ => f.dst.ep
    | none, .openRequestLand q => q.target.ep
    | none, _ => 0
/-- TAG of the flits of a message (Table 2). -/
def tagOf : Ev → Nat
  | .copyPacketLand p => p.num % 256
  | ev => ((channelOf ev).map (·.gen)).getD 0
/-- The header and control bits of a flit but for AGE and the source's package and tile, as one number (R303, R305). -/
def Flit.rest (f : Flit) : Nat :=
  let put (x w n : Nat) : Nat := x * 2 ^ w + n % 2 ^ w
  put (put (put (put (put (put (put (put (put (put f.typ 6 f.dst.pkg) 12 f.dst.id) 7 f.dep) 4 f.src.slot) 8 f.inc) 1 f.pin.isSome.toNat) 4 0)
    13 f.seq) 8 f.tag) 1 f.last.toNat

/-! ### Flit slots of ports, bridges and the edges of I/O dies (R305, R308, R311) -/

/-- The cycle and parity that a flit takes, from a cycle on, where each parity has so many slots in a cycle. A pinned flit takes a
slot of its parity that no pinned one has, whatever free flits were to leave there (R310; log 54); a free one the first that nobody has. -/
def findSlot (used : List (Nat × Bool × Bool)) (cap : Nat) (half : Option Bool) : Nat → Nat → Nat × Bool
  | 0, t => (t, half.getD false)
  | fuel + 1, t =>
    let taken (h pinnedOnly : Bool) : Nat := (used.filter fun u => u.1 = t && u.2.1 = h && (u.2.2 || !pinnedOnly)).length
    match half with
    | some h => if taken h true < cap then (t, h) else findSlot used cap half fuel (t + 1)
    | none =>
      if taken false false < cap then (t, false) else if taken true false < cap then (t, true) else findSlot used cap half fuel (t + 1)
/-- A lane. -/
def slotsOf (s : State) (k : List Nat) : Lane := ((s.lanes.find? fun x => x.1 = k).map (·.2)).getD {}
/-- Sets a lane. -/
def setSlots (s : State) (k : List Nat) (l : Lane) : State := { s with lanes := (k, l) :: s.lanes.filter fun x => x.1 ≠ k }
/-- Takes a slot of a lane for a flit of a parity, or for a free one: the cycle and the parity. -/
def book (s : State) (k : List Nat) (cap t : Nat) (half : Option Bool) : State × Nat × Bool :=
  let l := slotsOf s k
  let x := findSlot l.used cap half (l.used.length + 1) (max t l.first)
  (setSlots s k { l with used := (x.1, x.2, half.isSome) :: l.used.filter fun u => s.now ≤ u.1 }, x)
/-- The parity of a flit: that of its launch, if it is pinned (R308). -/
def halfOf (s : State) (f : Flit) : Option Bool := f.pin.map (pinHalf s)

/-! ### Landing -/

/-- Puts a parcel into the outbox. -/
def putBox (s : State) (t : Nat) (p : Parcel) : State := { s with outbox := s.outbox ++ [(t, p)] }
/-- Whether a flit is the first of a channel or copy conversation (R315). -/
def firstOf (f : Flit) : Bool :=
  match channelOf f.whole with
  | some c => c.seq = 0
  | none => f.seq = 0
/-- Whether a tile answers a flit with a stale incarnation: TYPE 3, and the first sequenced flit of a channel or copy
conversation (R315). -/
def wantsNotice (f : Flit) : Bool := f.typ = 3 || ((f.typ = 0 || f.typ = 1 || f.typ = 5) && firstOf f)

/-- Takes the flits of a sequence space in order: the events they carry, and what is left waiting (R304). -/
def drainSpace : Nat → Nat → List Flit → List Flit × Nat × List Flit
  | 0, n, w => ([], n, w)
  | fuel + 1, n, w =>
    match w.find? fun f => f.seq = n with
    | none => ([], n, w)
    | some f =>
      let r := drainSpace fuel (n + 1) (w.filter fun g => g.seq ≠ n)
      (f :: r.1, r.2.1, r.2.2)

/-- Sets the record of a sequence space. -/
def setSpace (l : List Space) (x : Space) : List Space := x :: l.filter fun y => y.key ≠ x.key

/-- A flit is taken in its sequence space, which ends with the message where it is the message's own; the events of the messages now complete are due. A dropped flit is taken without
its event, so that those behind it go on. -/
def takeFlit (s : State) (t : Nat) (f : Flit) : State :=
  let go (s : State) (g : Flit) : State :=
    match g.ev with
    | some ev => push s t phLand (slotKey g.src) ev
    | none => s
  if f.space = [] then go s f
  else
    let sp := (s.spaces.find? fun x => x.key = f.space).getD ⟨f.space, 0, []⟩
    let r := drainSpace (sp.wait.length + 1) sp.next (f :: sp.wait)
    let own := f.space.head? = some 99 && r.1.any (·.last)
    r.1.foldl go { s with spaces := if own then s.spaces.filter fun x => x.key ≠ f.space else setSpace s.spaces ⟨f.space, r.2.1, r.2.2⟩ }
/-- A flit reaches its destination at a cycle: it is checked against the incarnation, put in order, and the events of the messages
now complete are due (R304, R315). A stale notice is a message of its own, sent as the flit lands. -/
def ejectFlit (s : State) (t : Nat) (f : Flit) : State :=
  let tl := tileAt s f.dst
  if f.inc ≠ tl.inc then
    let s := takeFlit (modTile s f.dst fun t => { t with stale := t.stale + 1 }) t { f with ev := none }
    if wantsNotice f then
      putBox s t (.send ⟨⟨f.dst.pkg, f.dst.id, 0⟩, f.dst, f.from_, 10, 1, [], none, true, .staleNoticeLand f.from_ f.dst tl.inc⟩)
    else s
  else takeFlit s t f
/-- A flit ejects at a unit of an I/O die: two in a cycle at a tile (R305). -/
def ejectDie (s : State) (t : Nat) (f : Flit) : State :=
  if isTile f.dst.id then
    let x := book s [f.dst.pkg, 3, f.dst.id] 1 t (halfOf s f)
    ejectFlit x.1 x.2.1 f
  else ejectFlit s t f

/-- A flit enters a router at a cycle. -/
def arriveAt (s : State) (n : Node) (t : Nat) (half : Bool) (f : Flit) : State :=
  let s := modRouter s n fun r => { r with arr := r.arr ++ [⟨t, half, { f with since := t }⟩] }
  pushOnce s t phLand (2 ^ 40 + nodeKey n * 2 + half.toNat) (.flitSlotRouting n half)

/-- The port by which a flit that left by a port arrives at the next package. -/
def otherPort (port : Nat) : Nat := if port % 2 = 0 then port + 1 else port - 1
/-- A flit leaves a port in a flit slot of its parity, or waits at a port that is down (R311, R313). A pinned flit that a retry holds
back sets bit 4 of its launch's void word (R335). -/
def portSend (s : State) (pkg port t : Nat) (f : Flit) : State :=
  let p := aget {} (pkgAt s pkg).ports port
  if p.up then
    let s := match f.pin with
      | some h => if t < (slotsOf s [pkg, 0, port]).first then setVoid s h 4 else s
      | none => s
    let x := book s [pkg, 0, port] 3 t (halfOf s f)
    putBox x.1 (x.2.1 + 32) (.cross pkg port f)
  else
    push (modPkg s pkg fun k => { k with ports := aset k.ports port { p with held := p.held ++ [(t, f)] } })
      (t + 4096) phLand f.fid (.heldFlitTimeout pkg port f.fid)

/-- A flit is inside an I/O die at a cycle, fromPort where it has come from a link; it ejects, leaves by a port, or enters the torus by
a bridge (R14, R307). -/
def dieArrive (s : State) (pkg die t : Nat) (fromPort : Bool) (f : Flit) : State :=
  let pass := if fromPort then t + 4 else t
  let enter (col : Nat) : State :=
    let x := book s [pkg, 1, die * 64 + col] 1 (t + 4) (halfOf s f)
    arriveAt x.1 ⟨pkg, bridgeRow die * 64 + col⟩ x.2.1 x.2.2 f
  if f.dst.pkg = pkg then
    if isCompute f.dst.id then enter (tileX f.dst.id)
    else if dieOf f.dst.id = die then ejectDie s (pass + 2) f
    else enter f.col
  else
    let port := (egressPort s pkg f.dst.pkg).getD 0
    if portDie port = die then portSend s pkg port pass f else enter f.col
/-- A flit that has crossed a link is at the next package's port (R307, R312). -/
def crossed (s : State) (pkg port : Nat) (f : Flit) : State :=
  dieArrive s (portPeer s pkg port) (portDie (otherPort port)) s.now true { f with col := 32 + otherPort port }

/-! ### Sending -/

/-- The flits of a message, by type and event. -/
def makeFlits (base : Flit) : Nat → List (Nat × Option Ev) → List Flit
  | _, [] => []
  | q, (typ, ev) :: l =>
    { base with seq := q, typ := typ, last := l.isEmpty, ev := ev, fid := base.fid + l.length } :: makeFlits base (q + 1) l
/-- Asks a router for its two flit slots of a cycle. -/
def askSlots (s : State) (n : Node) (t : Nat) : State :=
  pushOnce (pushOnce s t phLand (2 ^ 40 + nodeKey n * 2) (.flitSlotRouting n false)) t phLand (2 ^ 40 + nodeKey n * 2 + 1) (.flitSlotRouting n true)
/-- A flit leaves a unit of an I/O die: a tile injects two in a cycle (R305, R307). -/
def leaveDie (s : State) (from_ : Node) (f : Flit) : State :=
  let x := if isTile from_.id then book s [from_.pkg, 2, from_.id] 1 (s.now + 2) (halfOf s f) else (s, s.now + 2, false)
  if f.dst = from_ then ejectDie x.1 (x.2.1 + 2) f else
  if f.dst.pkg = from_.pkg ∧ !isCompute f.dst.id ∧ dieOf f.dst.id = dieOf from_.id then ejectDie x.1 (x.2.1 + 6) f
  else dieArrive x.1 from_.pkg (dieOf from_.id) x.2.1 false f
/-- Sends a message of flits with types and events of their own, which counts as whole (R303, R304, R307). The sequence space is empty
for unsequenced flits and for channel flits, which their endpoints order; several flits without one have a space for themselves. -/
def sendParts (s : State) (src : SlotRef) (from_ dst : Node) (parts : List (Nat × Option Ev)) (space : List Nat) (pin : Option Word)
    (isReply : Bool) (whole : Ev) : State :=
  let space := if space = [] ∧ 1 < parts.length then [99, s.no] else space
  let q := ((s.txSeq.find? fun e => e.1 = space).getD (space, 0)).2
  let pin := pin.bind fun h => (launchAt s h).bind fun l => l.parity.map fun _ => h
  let base : Flit :=
    { fid := s.no, mid := s.no, typ := 0, dst := dst, dep := depOf (parts.headD (0, none)).1 src.slot whole, from_ := from_, src := src,
      inc := knownInc s from_ dst, pin := pin, age := 0, space := space, seq := 0, tag := tagOf whole, last := false, ev := none,
      whole := whole, since := s.now + 2, isReply := isReply, col := crossColumn from_ }
  let fl := makeFlits base q parts
  let s := { s with no := s.no + parts.length + 1 }
  let s := if space = [] ∨ space.head? = some 99 then s else { s with txSeq := (space, q + parts.length) :: s.txSeq.filter fun e => e.1 ≠ space }
  if isCompute from_.id then askSlots (modRouter s from_ fun r => { r with inj := r.inj ++ fl }) from_ (s.now + 2)
  else fl.foldl (fun s f => leaveDie s from_ f) s
/-- Sends a message of n flits of one type from a place to a place; ev happens when it has landed. -/
def sendMsg (s : State) (src : SlotRef) (from_ dst : Node) (typ n : Nat) (space : List Nat) (pin : Option Word)
    (isReply : Bool) (ev : Ev) : State :=
  sendParts s src from_ dst (List.replicate (n - 1) (typ, none) ++ [(typ, some ev)]) space pin isReply ev
/-- Sends a message that was put off. -/
def Msg.sent (m : Msg) (s : State) : State := sendMsg s m.src m.from_ m.dst m.typ m.n m.space m.pin m.isReply m.ev
/-- Sends a message at a cycle. -/
def sendAt (s : State) (t : Nat) (m : Msg) : State := if t ≤ s.now then m.sent s else putBox s t (.send m)
/-- What is to enter the fabric in this cycle does. -/
def sendDue (s : State) : State :=
  let due := s.outbox.filter fun x => x.1 ≤ s.now
  due.foldl (fun s x => match x.2 with
    | .send m => m.sent s
    | .cross pkg port f => crossed s pkg port f) { s with outbox := s.outbox.filter fun x => s.now < x.1 }

/-- Changes every flit on its way: at routers, at ports, on links and in sequence spaces. -/
def mapFlits (s : State) (g : Flit → Flit) : State :=
  { s with
    routers := s.routers.map fun (k, r) => (k, { r with arr := r.arr.map fun a => { a with flit := g a.flit }, inj := r.inj.map g })
    pkgs := s.pkgs.map fun (k, p) => (k, { p with ports := p.ports.map fun (i, x) => (i, { x with held := x.held.map fun h => (h.1, g h.2) }) })
    outbox := s.outbox.map fun (t, p) => match p with
      | .cross a b f => (t, .cross a b (g f))
      | .send m => (t, .send m)
    spaces := s.spaces.map fun x => { x with wait := x.wait.map g } }
/-- Calls off events to come and those that flits and messages carry. -/
def cancelEvents (s : State) (is : Ev → Bool) : State :=
  let s := mapFlits s fun f => if (f.ev.map is).getD false then { f with ev := none } else f
  { s with
    agenda := s.agenda.filter fun d => !is d.ev
    outbox := s.outbox.filter fun x => match x.2 with
      | .send m => !is m.ev
      | .cross _ _ _ => true }

/-! ### The router (R305, R306, R308, R310) -/

/-- Priority of flits: pinned ones first, by wait, source and number; then by age, source and the rest of the header and control
word (R305, R308). -/
def flitBefore (a b : Flit) : Bool :=
  match a.pin, b.pin with
  | some _, none => true
  | none, some _ => false
  | some _, some _ =>
    let ka := nodeKey a.from_ * 16 + a.src.slot
    let kb := nodeKey b.from_ * 16 + b.src.slot
    a.since < b.since || (a.since = b.since && (ka < kb || (ka = kb && a.seq ≤ b.seq)))
  | none, none =>
    b.age < a.age || (a.age = b.age && (nodeKey a.from_ < nodeKey b.from_ || (nodeKey a.from_ = nodeKey b.from_ && a.rest ≤ b.rest)))

/-- Insertion sort by a relation. -/
def insertBy {α : Type} (lt : α → α → Bool) (x : α) : List α → List α
  | [] => [x]
  | y :: l => if lt x y then x :: y :: l else y :: insertBy lt x l
/-- Sorted by a relation. -/
def sortBy {α : Type} (lt : α → α → Bool) (l : List α) : List α := l.foldr (insertBy lt) []

/-- The output a flit takes of those not used: a productive one, or for a free flit the first free of the four. -/
def chooseOut (s : State) (n : Node) (used : List Nat) (ejects : Nat) (f : Flit) : Option Nat :=
  let free (o : Nat) : Bool := if o = 4 then f.pin.isSome || ejects < 2 else !used.contains o
  match f.pin with
  | some _ => ((productive s n f.dst).take 1).find? free
  | none => match (productive s n f.dst).find? free with
    | some o => some o
    | none => [0, 1, 2, 3].find? free

/-- Sends a flit on by an output of a router. -/
def flitOut (s : State) (n : Node) (half : Bool) (o : Nat) (f : Flit) : State :=
  let f := if f.pin.isSome then f else { f with age := min 1023 (f.age + 1) }
  match o with
  | 4 => ejectFlit s (s.now + 2) f
  | 5 => dieArrive s n.pkg (if tileY n.id = 0 then 8 else 9) (s.now + 4) false f
  | _ => arriveAt s ⟨n.pkg, neighbour n.id o⟩ (s.now + hopCycles n.id (neighbour n.id o)) half f
/-- Counts the deflection of a flit that takes an output (R305). -/
def countDefl (s : State) (n : Node) (o : Nat) (f : Flit) : State :=
  if (productive s n f.dst).contains o then s else modTile s n fun t => { t with defl := t.defl + 1 }
/-- Counts an ejection or injection of a tile in this cycle. -/
def countFlit (s : State) (n : Node) (eject inject pinned : Nat) : State :=
  modRouter s n fun r =>
    let r := if r.cyc = s.now then r else { r with cyc := s.now, ejected := 0, injected := 0, pinned := 0 }
    { r with ejected := r.ejected + eject, injected := r.injected + inject, pinned := r.pinned + pinned }
/-- Ejections of a tile in this cycle. -/
def ejectedNow (s : State) (n : Node) : Nat := if (routerAt s n).cyc = s.now then (routerAt s n).ejected else 0

/-- Whether a tile may inject a flit of its own now: two in a cycle, a pinned one whatever free ones were injected and a free one
not while a neighbour starves (R305, R306, R310). -/
def mayInject (s : State) (n : Node) (f : Flit) : Bool :=
  let r := routerAt s n
  if r.cyc = s.now then (if f.pin.isSome then r.pinned < 2 else r.injected < 2 && r.hold ≤ s.now) else f.pin.isSome || r.hold ≤ s.now
/-- Assigns outputs to flits in order, those marked being the tile's own, which are injected while they may. A free flit without a
productive output is deflected and counted; one without any, and a pinned one whose output is taken, waits for the next cycle. -/
def routeAll (n : Node) (half : Bool) : List (Bool × Flit) → List Nat → State → List Nat × State
  | [], used, s => (used, s)
  | (own, f) :: l, used, s =>
    if own && !mayInject s n f then routeAll n half l used s
    else match chooseOut s n used (ejectedNow s n) f with
      | some o =>
        let s := countFlit (countDefl s n o f) n (if o = 4 then 1 else 0) own.toNat (own && f.pin.isSome).toNat
        let s := if own then modRouter s n fun r => { r with inj := r.inj.filter fun g => g.fid ≠ f.fid } else s
        routeAll n half l (if o = 4 then used else o :: used) (flitOut s n half o f)
      | none =>
        if own then routeAll n half l used s
        else
          let s := modRouter s n fun r => { r with arr := r.arr ++ [⟨s.now + 1, half, f⟩] }
          routeAll n half l used (pushOnce s (s.now + 1) phLand (2 ^ 40 + nodeKey n * 2 + half.toNat) (.flitSlotRouting n half))

/-- A flit slot at a tile: pinned flits get their outputs, those that wait there and in their parity the tile's own; then free flits
that arrived, then the tile's own (R305, R308, R310). The buffers of waiting pinned flits have no bound (log 53). What passes replaces
the errors in the tile's flit buffers (log 52). -/
def routeSlot (s : State) (n : Node) (half : Bool) : State :=
  let mine := ((routerAt s n).arr.filter fun a => a.due ≤ s.now ∧ a.half = half).map fun a => (false, a.flit)
  let s := modRouter s n fun r => { r with arr := r.arr.filter fun a => ¬(a.due ≤ s.now ∧ a.half = half) }
  let s := if mine = [] then s else replaceUnits s n 7 0 (2 ^ 52)
  let own (s : State) : List (Bool × Flit) := ((routerAt s n).inj.filter fun f => f.since ≤ s.now).map fun f => (true, f)
  let before (a b : Bool × Flit) : Bool := flitBefore a.2 b.2
  let pins := mine.filter (·.2.pin.isSome) ++ (own s).filter fun x => halfOf s x.2 = some half
  let a := routeAll n half (sortBy before pins) [] s
  let a := routeAll n half (sortBy before (mine.filter (·.2.pin.isNone))) a.1 a.2
  let a := routeAll n half ((own a.2).filter (·.2.pin.isNone)) a.1 a.2
  let left := (routerAt a.2 n).inj
  if left = [] then a.2
  else
    let s := askSlots a.2 n (s.now + 1)
    if left.any fun f => f.pin.isNone && f.since + 64 ≤ s.now then pushOnce s (s.now + 1) phStart (nodeKey n) (.injectionStarvationHold n) else s

/-- FLIT_SLOT_ROUTING. -/
def evFlitSlotRouting (n : Node) (half : Bool) (s : State) : State := routeSlot s n half

/-- INJECTION_STARVATION_HOLD: the four neighbours inject nothing of their own in this cycle, and so on until the oldest
waiting flit has been injected (R306). -/
def evInjectionStarvationHold (n : Node) (s : State) : State :=
  if (routerAt s n).inj.any fun f => f.pin.isNone && f.since + 64 ≤ s.now then
    let s := [0, 1, 2, 3].foldl (fun s d => modRouter s ⟨n.pkg, neighbour n.id d⟩ fun r => { r with hold := s.now + 1 }) s
    pushOnce s (s.now + 1) phStart (nodeKey n) (.injectionStarvationHold n)
  else s

/-- LINK_RETRY: a failed check holds back the flits on a link and those behind them, in their order; a pinned flit among them sets
bit 4 of its launch's void word (R311, R335). -/
def evLinkRetry (pkg port cycles : Nat) (s : State) : State :=
  let late (p : Parcel) : Bool := match p with
    | .cross a b _ => a = pkg && b = port
    | .send _ => false
  let s := setSlots s [pkg, 0, port] { slotsOf s [pkg, 0, port] with first := max s.now (slotsOf s [pkg, 0, port]).first + cycles }
  let s := { s with outbox := s.outbox.map fun (t, p) => (if late p then t + cycles else t, p) }
  (s.outbox.filter fun x => late x.2).foldl (fun s x => match x.2 with
    | .cross _ _ f => match f.pin with
      | some h => setVoid s h 4
      | none => s
    | .send _ => s) s

/-- LINK_PORT_DOWN: from now on the port holds its flits (R313). -/
def evLinkPortDown (pkg port : Nat) (s : State) : State :=
  modPkg s pkg fun k => { k with ports := aset k.ports port { aget {} k.ports port with up := false } }

/-- LINK_PORT_UP: the flits held are sent (R313). -/
def evLinkPortUp (pkg port : Nat) (s : State) : State :=
  let held := (aget {} (pkgAt s pkg).ports port).held
  let s := modPkg s pkg fun k =>
    { k with ports := aset k.ports port { aget {} k.ports port with up := true, held := [], retrain := false } }
  held.foldl (fun s (_, f) => portSend s pkg port s.now f) s

end Sys2Proof.Machine
end

