-- ==== Sys2Proof/Machine/Channels.lean ====
section
/-! DEFINITION. Protocol images, endpoints and their buffers, the landing of channel flits, closing, register deposits
and the detaching of couplers (07, R201 to R205). -/

namespace Sys2Proof.Machine

/-! ### Protocol images (R157 to R161) -/

/-- An image without states. -/
def PImage.none_ : PImage := ⟨[], 0, 0, 0, 0, 0, 0, 0, 0, 0, []⟩

/-- Code of an action (Table 5 of chapter 07). -/
def PAct.code : PAct → Nat
  | .send => 0 | .recv => 1 | .select => 2 | .offer => 3 | .delegOut => 4 | .delegIn => 5 | .close => 6
/-- The action of a code. -/
def PAct.ofCode : Nat → Option PAct
  | 0 => some .send | 1 => some .recv | 2 => some .select | 3 => some .offer | 4 => some .delegOut | 5 => some .delegIn
  | 6 => some .close | _ => none
/-- The action of the dual (R160). -/
def PAct.dual : PAct → PAct
  | .send => .recv | .recv => .send | .select => .offer | .offer => .select | .delegOut => .delegIn
  | .delegIn => .delegOut | .close => .close
/-- Active actions (R158). -/
def PAct.active : PAct → Bool
  | .send | .select | .delegOut => true
  | _ => false
/-- Passive actions (R158). -/
def PAct.passive : PAct → Bool
  | .recv | .offer | .delegIn => true
  | _ => false

/-- The word of a transition (Table 5). -/
def Trans.word (t : Trans) : Nat :=
  t.act.code * 2 ^ 29 + t.ty * 2 ^ 23 + t.next * 2 ^ 18 + t.label * 2 ^ 16 + t.cls * 2 ^ 12 + t.size
/-- The transition of a word; none where ACT is 7. -/
def Trans.ofWord (w : Nat) : Option Trans :=
  (PAct.ofCode (w / 2 ^ 29 % 8)).map fun a => ⟨a, w / 2 ^ 23 % 64, w / 2 ^ 18 % 32, w / 2 ^ 16 % 4, w / 2 ^ 12 % 16, w % 4096⟩

/-- Whether a transition carries a label. -/
def Trans.labelled (t : Trans) : Bool := t.act = .select || t.act = .offer

/-- Puts transitions given in label order into the places of the labelled ones (R160). -/
def fillLabels : List Trans → List Trans → List Trans
  | [], _ => []
  | t :: l, [] => t :: fillLabels l []
  | t :: l, x :: labs => if t.labelled then x :: fillLabels l labs else t :: fillLabels l (x :: labs)
/-- The transitions of a state in canonical order (R160). -/
def canonState (ts : List Trans) : List Trans :=
  fillLabels ts (sortBy (fun a b => a.label ≤ b.label) (ts.filter Trans.labelled))

/-- First header word of an image (Table 4). -/
def PImage.word0 (m : PImage) : Nat :=
  m.recmask * 2 ^ 32 + m.maxpay * 2 ^ 24 + m.window * 2 ^ 16 + m.init * 2 ^ 11 + (m.states.length - 1) * 2 ^ 6 + 16 + 12

/-- Bytes of the canonical image, the digest bytes 0 (R157, R160). -/
def PImage.canon (m : PImage) : List Byte :=
  let counts := m.states.map fun ts => BitVec.ofNat 8 ts.length
  bytesOfNat 8 m.word0 ++ List.replicate 8 0 ++ counts ++ List.replicate ((4 - counts.length % 4) % 4) 0 ++
    m.states.flatMap fun ts => (canonState ts).flatMap fun t => bytesOfNat 4 t.word

/-- Digest of an image (R160). -/
def PImage.digestOf (m : PImage) : Word := BitVec.ofNat 64 (natOfBytes (shake256 8 m.canon))
/-- The dual image (R160). -/
def PImage.dualOf (m : PImage) : PImage :=
  { m with states := m.states.map fun ts => ts.map fun t => { t with act := t.act.dual } }

/-- An image with its look-aheads and both digests (R160, R161). -/
def PImage.sealed (m : PImage) (laSend laRecv : Nat) : PImage :=
  { m with laSend := laSend, laRecv := laRecv, digest := m.digestOf, dual := m.dualOf.digestOf }
/-- A built-in image of a request and its reply, each of a type, class and size (Table 13). -/
def reqImage (ty size ty2 cls2 size2 : Nat) : PImage :=
  PImage.sealed { PImage.none_ with
    states := [[⟨.send, ty, 1, 0, 0, size⟩], [⟨.recv, ty2, 0, 0, cls2, size2⟩]], recmask := 1, maxpay := max size size2 } 1 1
/-- The built-in image 7, CAL, from the subscriber's side (R191). -/
def calImage : PImage :=
  PImage.sealed { PImage.none_ with
    states := [[⟨.recv, 14, 0, 0, 0, 2⟩, ⟨.offer, 0, 1, 0, 0, 0⟩], [⟨.close, 0, 1, 0, 0, 0⟩]]
    recmask := 3
    maxpay := 2
    window := 8 } 0 8
/-- The built-in images 0 to 7, which every slot holds (R191, Table 13). Images 0 to 6 carry the conversations of the hidden endpoints;
the forms that build those never send out of turn, so the strainer refuses none of them. -/
def builtIn : Nat → PImage
  | 0 => reqImage 1 1 2 0 8
  | 1 => PImage.sealed { PImage.none_ with states := [[⟨.send, 3, 0, 0, 0, 9⟩]], recmask := 1, maxpay := 9, window := 16 } 16 0
  | 2 => reqImage 4 2 5 0 1
  | 3 => reqImage 6 1 7 0 1
  | 4 => reqImage 8 2 9 1 1
  | 5 => reqImage 10 2 11 1 1
  | 6 => reqImage 12 1 13 0 1
  | _ => calImage

/-- The image of an index on a tile. -/
def imageOf (s : State) (n : Node) (i : Nat) : PImage :=
  if i < 8 then builtIn i else aget PImage.none_ (tileAt s n).images i
/-- Transitions of a state. -/
def PImage.edges (m : PImage) (q : Nat) : List Trans := m.states.getD q []
/-- An edge of a state by action and type. -/
def PImage.edge (m : PImage) (q : Nat) (a : PAct) (ty : Nat) : Option Trans :=
  (m.edges q).find? fun t => t.act = a ∧ t.ty = ty
/-- An edge of a state by action and label. -/
def PImage.labEdge (m : PImage) (q : Nat) (a : PAct) (l : Nat) : Option Trans :=
  (m.edges q).find? fun t => t.act = a ∧ t.label = l
/-- Whether a state is a recovery state. -/
def PImage.isRec (m : PImage) (q : Nat) : Bool := m.recmask / 2 ^ q % 2 = 1

/-- The least of a list, if any. -/
def leastOf : List Nat → Option Nat
  | [] => none
  | x :: l => some (l.foldl min x)

/-- Search for the nearest recovery state, level by level; q where there is none. -/
def nearestFrom (m : PImage) (q : Nat) : Nat → List Nat → Nat
  | 0, _ => q
  | n + 1, front =>
    match leastOf (front.filter m.isRec) with
    | some r => r
    | none => nearestFrom m q n ((front.flatMap fun p => (m.edges p).map (·.next)).eraseDups)
/-- The recovery state nearest to q, ties to the lowest number (R186); q itself under an image that is gone. An image goes when no endpoint
is open, accepting, opening or forwarding under it, so that of a peer-closed endpoint may be gone: R186 does not say which state
an abort then leaves. DESIGN CHOICE, log 60. -/
def nearestRec (m : PImage) (q : Nat) : Nat := nearestFrom m q 33 [q]

/-- Bytes of the receive buffer of an endpoint under an image (R161). -/
def PImage.bufBytes (m : PImage) : Nat := m.laRecv * max 32 (32 * m.maxpay)
/-- Whether a payload length fits an edge (R159). -/
def Trans.fitsLen (t : Trans) (l : Nat) : Bool :=
  match t.cls with
  | 0 => l ≤ 32 * t.size
  | 1 => l = 8
  | 2 => l = 256
  | 3 => l % 32 = 0 && l ≤ 32 * t.size
  | _ => l = 32 * t.size

/-! ### Endpoints, buffers, ownership -/

/-- Endpoints of a tile that a program can name. -/
def epLimit : Nat := 128
/-- Slot that owns an endpoint, for the source field of its flits. -/
def epSlot (e : EpRef) (x : Endpoint) : SlotRef := ⟨e.pkg, e.tile, (x.owner.map (·.1)).getD 0⟩
/-- Whether a unit owns an endpoint (R155). -/
def ownsEp (s : State) (r : SlotRef) (uid ep : Nat) : Bool := ((tileAt s r.node).epAt ep).owner = some (r.slot, uid)
/-- The launch whose pinned routes an endpoint's flits take. -/
def epPin (s : State) (e : EpRef) (x : Endpoint) : Option Word :=
  x.owner.bind fun (l, u) => (unitAt s ⟨e.pkg, e.tile, l⟩ u).bind fun c => if c.d.det then some c.d.launch else none
/-- Sets the wake flag of a unit (R97). -/
def setWake (s : State) (r : SlotRef) (uid : Nat) : State := modUnit s r uid fun c => { c with wake := true }
/-- Sets the wake flag of an endpoint's owner. -/
def wakeOwner (s : State) (e : EpRef) : State :=
  match (epAt s e).owner with
  | some (l, u) => setWake s ⟨e.pkg, e.tile, l⟩ u
  | none => s

/-- Whether a granule is carved (R216). -/
def carved (t : Tile) (g : Nat) : Bool := t.eps.any fun (_, x) => match x.gran with
  | some (a, n) => a ≤ g && g < a + n
  | none => false
/-- The run of n free granules whose lowest lies highest, below a bound (R216). -/
def findRun (t : Tile) (n : Nat) : Nat → Option Nat
  | 0 => none
  | a + 1 => if a + n ≤ 256 && (List.range n).all (fun k => !carved t (a + k)) then some a else findRun t n a
/-- Carves a buffer of so many bytes; none where the pool is short. -/
def carve (t : Tile) (bytes : Nat) : Option (Option (Nat × Nat)) :=
  if bytes = 0 then some none
  else (findRun t (ceilDiv bytes 512) 257).map fun a => some (a, ceilDiv bytes 512)

/-- Bytes of unspecified contents written over a run of cells. Free values, log 5. -/
def scramble (m : List Host.Cell) (a ctr : Nat) : Nat → List Host.Cell
  | 0 => m
  | n + 1 => scramble (cellSet m a (Config.freeByte (ctr + n))) (a + 1) ctr n
/-- Releases the buffer of an endpoint: its granules hold unspecified bytes and full words (R216). -/
def releaseBuf (s : State) (e : EpRef) : State :=
  match (epAt s e).gran with
  | none => s
  | some (a, n) =>
    let lo := 0xE0000 + 512 * a
    let s := modTile s e.node fun t =>
      { t with sp := scramble t.sp lo s.freeCtr (512 * n), spEmpty := t.spEmpty.filter fun w => ¬(lo ≤ 8 * w ∧ 8 * w < lo + 512 * n) }
    modEp { s with freeCtr := s.freeCtr + 512 * n } e fun x => { x with gran := none }

/-- Drops images without a holder that no endpoint is using (R163). -/
def sweepImages (s : State) (n : Node) : State :=
  modTile s n fun t =>
    { t with images := t.images.filter fun (i, m) => m.holders ≠ [] ||
        t.eps.any fun (_, x) => x.img = i && (x.st = .opened || x.st = .accepting || x.st = .opening || x.st = .forwarding) }

/-! ### Sending channel flits -/

/-- TYPE of a channel flit (Table 3 of chapter 13). -/
def chType : ChBody → Nat
  | .data _ _ _ => 0
  | .label _ | .deleg .. | .redirect _ _ | .close _ _ | .discard => 1
  | .credit | .ack | .adopted _ _ | .abort => 2
/-- The event of a landing channel flit. -/
def chEvent (f : ChFlit) : Ev :=
  match f.body with
  | .data _ _ _ | .label _ | .deleg .. => .channelFlitLand f
  | .redirect _ _ => .redirectLand f
  | .close _ _ => .closeNoticeLand f
  | .discard => .discardMarkerLand f
  | .credit => .creditLand f
  | .ack => .acknowledgementLand f
  | .adopted _ _ => .adoptionNoticeLand f
  | .abort => .delegationAbortLand f
/-- Whether flits of a kind are put in sequence (R304). -/
def isSeq (b : ChBody) : Bool := chType b < 2

/-- The mark by which a flit under way is known among the outstanding writes of its sender. -/
def chMark (f : ChFlit) : Word := BitVec.ofNat 64 (2 ^ 62 + (epKey f.dst * 256 + f.gen) * 2 ^ 20 + f.seq % 2 ^ 20)
/-- Notes a data, label or delegation flit as a send of the endpoint's owner (R177, R294). -/
def noteSend (s : State) (e : EpRef) (f : ChFlit) : State :=
  match f.body, (epAt s e).owner with
  | .data _ _ _, some (l, u) | .label _, some (l, u) | .deleg .., some (l, u) =>
    addOut { s with no := s.no + 1 }
      { id := s.no, slot := ⟨e.pkg, e.tile, l⟩, uid := u, job := 0, launch := 0, home := some f.dst.node, host := false, va := chMark f }
  | _, _ => s
/-- Asks an engine to look at its queue in the next cycle. -/
def askEngine (s : State) (n : Node) (mx : Bool) : State := pushOnce s (s.now + 1) phStart (nodeKey n) (.engineCommandStart n mx)
/-- A message of a unit is performed: commands that its slot issued after it may start now (R268, R293). -/
def wakeEngines (s : State) (n : Node) : State :=
  let t := tileAt s n
  let s := if t.copy = [] then s else askEngine s n false
  if t.mx.cmds = [] then s else askEngine s n true
/-- A flit has landed: the send is performed, or the flit of a channel push is acknowledged (R272). -/
def sendLanded (s : State) (f : ChFlit) : State :=
  let s := wakeEngines { s with outs := s.outs.filter fun o => ¬(o.home = some f.dst.node ∧ o.va = chMark f) } f.src
  match (tileAt s f.src).copy.find? fun q => q.marks.contains (chMark f) with
  | some q =>
    let left := q.marks.filter fun m => m ≠ chMark f
    let s := modTile s f.src fun t => { t with copy := t.copy.map fun x => if x.id = q.id then { x with marks := left } else x }
    if left = [] ∧ q.todo = [] then push s s.now phEnd (nodeKey f.src) (.engineCommandComplete f.src false q.id) else s
  | none => s

/-- Sends one channel flit from an endpoint to an address. -/
def sendFlit (s : State) (e dst : EpRef) (gen seq : Nat) (body : ChBody) : State :=
  let x := epAt s e
  let f : ChFlit := ⟨e.node, dst, gen, seq, body⟩
  sendMsg (noteSend s e f) (epSlot e x) e.node dst.node (chType body) 1 [] (epPin s e x) false (chEvent f)
/-- Sends one sequenced flit to the peer of an endpoint. -/
def sendSeq (s : State) (e : EpRef) (body : ChBody) : State :=
  let x := epAt s e
  sendFlit (modEp s e fun x => { x with txSeq := x.txSeq + 1 }) e x.peer x.peerGen x.txSeq body
/-- Sends an unsequenced flit to the peer of an endpoint. -/
def sendPeer (s : State) (e : EpRef) (body : ChBody) : State :=
  let x := epAt s e
  sendFlit s e x.peer x.peerGen 0 body
/-- Returns a credit where the image has a window (R171, R173). -/
def sendCredit (s : State) (e : EpRef) : State :=
  if (imageOf s e.node (epAt s e).img).window = 0 then s else sendPeer s e .credit

/-- Bytes cut into pieces of at most 32; one empty piece for none (R172). -/
def pieces : Nat → List Byte → List (List Byte)
  | 0, l => [l]
  | n + 1, l => if l.length ≤ 32 then [l] else l.take 32 :: pieces n (l.drop 32)
/-- Sends the bytes of a piece of a message (R172). -/
def sendData (s : State) (e : EpRef) (mt : Nat) (bytes : List Byte) (fin : Bool) : State :=
  let ps := pieces bytes.length bytes
  (ps.zipIdx).foldl (fun s (b, i) => sendSeq s e (.data mt b (fin && i + 1 = ps.length))) s

/-! ### Couplers: detaching (R205) -/

/-- Sets or removes a coupler's term on a slot. -/
def setTerm (s : State) (r : SlotRef) (key : EpRef) (u : Int) : State :=
  modSlot s r fun l =>
    { l with terms := (if u = 0 then [] else [(key, u)]) ++ l.terms.filter fun t => t.1 ≠ key }
/-- Key of a coupler's term on the producer's slot. -/
def prodKey (c : EpRef) : EpRef := { c with ep := c.ep + 16 }
/-- Sends the producer's side the output of a coupler, or writes it at once on one tile; with its release, where there is no output,
the remote entry goes (R204, R205). -/
def sendTerm (s : State) (c : EpRef) (p : SlotRef) (u : Option Int) (pin : Option Word) : State :=
  if p.node = c.node then
    let s := setTerm s p (prodKey c) (-(u.getD 0))
    if u.isNone then modTile s c.node fun t => { t with remotes := t.remotes.filter fun m => m.owner ≠ c } else s
  else sendMsg s p c.node p.node 8 1 [8, epKey c] pin false (.couplerControlFlitLand p.node c u)
/-- The launch whose pinned routes the control flits of a coupler take: its consuming unit's (R204, R309). -/
def holderPin (s : State) (n : Node) (c : Coupler) : Option Word :=
  c.holder.bind fun (l, u) => (unitAt s ⟨n.pkg, n.id, l⟩ u).bind fun x => if x.d.det then some x.d.launch else none
/-- A coupler of a tile. -/
def couplerAt (s : State) (n : Node) (i : Nat) : Coupler := aget {} (tileAt s n).couplers i
/-- Changes a coupler. -/
def modCoupler (s : State) (n : Node) (i : Nat) (f : Coupler → Coupler) : State :=
  modTile s n fun t => { t with couplers := aset t.couplers i (f (aget {} t.couplers i)) }
/-- Detaches a coupler: both terms go to 0 and sampling stops (R205). -/
def detach (s : State) (n : Node) (i : Nat) : State :=
  let c := couplerAt s n i
  if c.st ≠ .bound ∧ c.st ≠ .running then s
  else
    let key : EpRef := ⟨n.pkg, n.id, i⟩
    let s := match c.holder with
      | some (l, _) => setTerm s ⟨n.pkg, n.id, l⟩ key 0
      | none => s
    let s := if c.sent = 0 then s else sendTerm s key c.producer (some 0) (holderPin s n c)
    let s := modCoupler s n i fun c => { c with st := .detached, sent := 0 }
    modEp s ⟨n.pkg, n.id, c.ep⟩ fun x => { x with coupler := none }
/-- Detaches the coupler of an endpoint, if any. -/
def detachOf (s : State) (e : EpRef) : State :=
  match (epAt s e).coupler with
  | some i => detach s e.node i
  | none => s
/-- Detaches and frees a coupler. Its remote entry is freed by a last control flit, behind those that the coupler has sent (R205,
R209). A coupler that still is reserved has none. -/
def freeCoupler (s : State) (n : Node) (i : Nat) : State :=
  let c := couplerAt s n i
  let s := detach s n i
  let s := match c.st with
    | .free | .reserved => s
    | _ => sendTerm s ⟨n.pkg, n.id, i⟩ c.producer none (holderPin s n c)
  modTile s n fun t => { t with couplers := aerase t.couplers i }

/-! ### Closing (R184 to R189) -/

/-- The endpoints to which the delegations among messages still forward. -/
def delegs (ms : List ChMsg) (fs : List ChFlit) : List EpRef :=
  ms.filterMap (fun m => match m with | .deleg _ _ _ old _ _ _ _ => some old | _ => none) ++
  fs.filterMap (fun f => match f.body with | .deleg _ _ _ old _ _ _ _ => some old | _ => none)
/-- Discards the messages of an endpoint; a delegation among them is aborted at its forwarding endpoint (R184). -/
def dropMsgs (s : State) (e : EpRef) : State :=
  let x := epAt s e
  let s := (delegs x.inbox x.early).foldl (fun s o => sendFlit s e o (epAt s o).gen 0 .abort) s
  modEp s e fun x => { x with inbox := [], part := none, early := [], cursor := 0, deposited := false }
/-- Closes the open packet of an endpoint, and of its owner if it lies there. -/
def dropPacket (s : State) (e : EpRef) : State :=
  let x := epAt s e
  let s := match x.owner with
    | some (l, u) => modUnit s ⟨e.pkg, e.tile, l⟩ u fun c =>
        { c with packet := match c.packet with
          | some (i, n) => if i = e.ep then none else some (i, n)
          | none => none }
    | none => s
  modEp s e fun x => { x with pkt := none }
/-- Closes a channel as CH.ABORT does (R186). The marker and the notice take the first number that was not sent: pushes that wait
send nothing any more. -/
def abortEp (s : State) (e : EpRef) (cause : Nat) : State :=
  let x := epAt s e
  if x.st ≠ .opened ∧ x.st ≠ .peerClosed then s
  else
    let m := imageOf s e.node x.img
    let r := nearestRec m x.q
    let s := modEp s e fun x => { x with txSeq := x.resv.foldl (fun n y => min n y.2) x.txSeq, resv := [] }
    let s := if x.pkt.isSome ∧ x.st = .opened then sendSeq s e .discard else s
    let s := if x.st = .opened then sendSeq s e (.close r cause) else s
    let s := detachOf (releaseBuf (dropPacket (dropMsgs s e) e) e) e
    sweepImages (modEp s e fun x => { x with st := .aborted, q := r, cause := cause, reg := none }) e.node
/-- An endpoint becomes free; its generation advances (R189). -/
def freeEp (s : State) (e : EpRef) : State :=
  let s := releaseBuf s e
  sweepImages (modEp s e fun x => { gen := (x.gen + 1) % 256 }) e.node
/-- The launch whose pinned routes the answers to a party take (R309). -/
def whoPin (s : State) (w : Who) : Option Word := (unitAt s w.slot w.uid).bind fun c => if c.d.det then some c.d.launch else none
/-- Refuses a held open request (R166). -/
def refuseOpen (s : State) (at_ : Node) (q : OpenReq) (reason : Nat) : State :=
  sendMsg s q.who.slot at_ q.opener.node 4 1 [] (whoPin s q.who) true (.openReplyLand q (.refused reason))
/-- Releases an owned endpoint as EP.PUT does (R156). -/
def putEp (s : State) (e : EpRef) (cause : Nat) : State :=
  let s := abortEp s e cause
  let s := match (epAt s e).held with
    | some q => refuseOpen s e.node q 1
    | none => s
  freeEp (dropPacket (dropMsgs s e) e) e
/-- An open endpoint becomes peer-closed (R188). -/
def peerClose (s : State) (e : EpRef) (pstate cause : Nat) : State :=
  let x := epAt s e
  if x.st ≠ .opened then s
  else
    let s := detachOf (dropPacket (dropMsgs s e) e) e
    sweepImages (modEp s e fun x => { x with st := .peerClosed, pstate := pstate, cause := cause }) e.node

/-! ### Landing (R172, R176, R184, R189) -/

/-- Whether a flit is what the tile that has got a delegation sends its forwarding endpoint: its adoption, or its abort (R184). -/
def ofReceiver (x : Endpoint) (f : ChFlit) : Bool :=
  x.st = .forwarding && x.fwd.isNone && match f.body with
    | .adopted .. | .abort => true
    | _ => false
/-- Whether a landing flit belongs to the conversation of an endpoint: the tile that has got the delegation is a party of the forwarding
endpoint's even where the carrier has been delegated in its turn (R184, R189). -/
def flitFits (x : Endpoint) (f : ChFlit) : Bool :=
  f.gen = x.gen && (f.src = x.peer.node || x.parties.contains f.src || ofReceiver x f) &&
    (x.st = .opened || x.st = .peerClosed || x.st = .forwarding || x.st = .opening)

/-- Asks for a deposit at the end of this cycle where a register is bound. -/
def askDeposit (s : State) (e : EpRef) (c : Nat) : State :=
  if (epAt s e).reg.isSome then pushOnce s c phEnd (epKey e) (.registerDeposit e) else s

/-- A complete message is in the buffer. -/
def gotMsg (s : State) (e : EpRef) (m : ChMsg) : State :=
  askDeposit (wakeOwner (modEp s e fun x => { x with inbox := x.inbox ++ [m], part := none }) e) e s.now

/-- Takes a flit in its turn at an endpoint that is open or peer-closed. -/
def takeBody (s : State) (e : EpRef) (b : ChBody) : State :=
  let x := epAt s e
  if x.st = .peerClosed then
    match b with
    | .deleg _ _ _ old _ _ _ _ => sendFlit s e old (epAt s old).gen 0 .abort
    | _ => s
  else match b with
  | .data mt bytes last =>
    let p := (x.part.map (·.2)).getD [] ++ bytes
    if last then gotMsg s e (.data mt p) else modEp s e fun x => { x with part := some (mt, p) }
  | .label l => gotMsg s e (.label l)
  | .deleg d q p o g tx rx u => gotMsg s e (.deleg d q p o g tx rx u)
  | .redirect dest gen =>
    let s := detachOf s e
    let old := x.peer
    let oldGen := x.peerGen
    let s := modEp s e fun x => { x with peer := dest, peerGen := gen, parties := old.node :: x.parties }
    sendFlit s e old oldGen 0 .ack
  | .close q cause => peerClose s e q cause
  | .discard => modEp s e fun x => { x with part := none }
  | .credit | .ack | .adopted _ _ | .abort => s

/-- Applies the sequenced flits of an endpoint whose turn has come; a forwarding endpoint relays them (R184, R304). -/
def applyFlits : Nat → State → EpRef → State
  | 0, s, _ => s
  | n + 1, s, e =>
    let x := epAt s e
    match x.early.find? fun f => isSeq f.body ∧ f.seq = x.rxSeq ∧ !x.leaving with
    | none => s
    | some f =>
      let next := modEp s e fun x => { x with rxSeq := x.rxSeq + 1, early := x.early.filter fun g => ¬(isSeq g.body ∧ g.seq = f.seq) }
      match x.st with
      | .opened | .peerClosed => applyFlits n (takeBody next e f.body) e
      | .forwarding => match x.fwd with
        | none => s
        | some (z, g) =>
          let s := sendFlit next e z g f.seq f.body
          match f.body with
          | .close _ _ => freeEp s e
          | _ => applyFlits n s e
      | _ => s

/-- A credit at an open endpoint; the calendar service then sends its next message. -/
def takeCredit (s : State) (e : EpRef) : State := modEp s e fun x => { x with unread := x.unread - 1 }

/-- Counts a channel flit that fits no conversation (R189). -/
def staleFlit (s : State) (n : Node) : State := modTile s n fun t => { t with stale := t.stale + 1 }

/-- A channel flit lands (R184, R189). -/
def landFlit (s : State) (f : ChFlit) : State :=
  let s := sendLanded s f
  let e := f.dst
  let x := epAt s e
  if !flitFits x f then staleFlit s e.node
  else match f.body with
  | .credit =>
    if x.st = .forwarding then match x.fwd with
      | some (z, g) => sendFlit s e z g 0 .credit
      | none => modEp s e fun x => { x with early := x.early ++ [f] }
    else takeCredit s e
  | .ack => if x.st = .forwarding then freeEp s e else s
  | .adopted z g =>
    if x.st = .forwarding then
      let credits := x.early.filter fun f => !isSeq f.body
      let s := modEp s e fun x => { x with fwd := some (z, g), early := x.early.filter fun f => isSeq f.body }
      let s := credits.foldl (fun s _ => sendFlit s e z g 0 .credit) s
      applyFlits (x.early.length + 1) s e
    else s
  | .abort =>
    if x.st = .forwarding then
      let r := nearestRec (imageOf s e.node x.img) x.q
      freeEp (dropMsgs (sendSeq s e (.close r 0x0C)) e) e
    else s
  | _ => applyFlits (x.early.length + 2) (modEp s e fun x => { x with early := x.early ++ [f] }) e

/-! ### Bound registers (R120 to R125, R179, R180) -/

/-- The endpoint to which a register of a unit is bound. -/
def boundTo (s : State) (r : SlotRef) (uid : Nat) (g : Reg) : Option EpRef :=
  ((tileAt s r.node).eps.find? fun (_, x) => x.owner = some (r.slot, uid) ∧ x.reg = some g).map fun (i, _) => ⟨r.pkg, r.tile, i⟩
/-- Presence of a register of a context. -/
def presOf (c : Ctx) : Reg → Pres
  | .s i => if i = 0 then .full else c.sP[i.toNat]
  | .v i => c.vP[i.toNat]
  | .k i => if i = 0 then .full else c.kP[i.toNat]
  | .p i => if i = 0 then .full else c.pP[i.toNat]
/-- Sets the presence of a register of a context; s0, p0 and k0 have none (R49). -/
def setPres (c : Ctx) (g : Reg) (x : Pres) : Ctx :=
  match g with
  | .s i => if i = 0 then c else { c with sP := c.sP.set i.toNat x }
  | .v i => { c with vP := c.vP.set i.toNat x }
  | .k i => if i = 0 then c else { c with kP := c.kP.set i.toNat x }
  | .p i => if i = 0 then c else { c with pP := c.pP.set i.toNat x }
/-- Sets the value of a register of a context; writes to s0, p0 and k0 are discarded (R49). -/
def setVal (c : Ctx) (g : Reg) (x : VVal) : Ctx :=
  match g with
  | .s i => if i = 0 then c else { c with s := c.s.set i.toNat (x.setWidth 64) }
  | .v i => { c with v := c.v.set i.toNat x }
  | .k i => if i = 0 then c else { c with k := c.k.set i.toNat (x.setWidth 256) }
  | .p i => if i = 0 then c else { c with p := c.p.set i.toNat (x.getLsbD 0) }
/-- Value of a register of a context (R49). -/
def valOf (c : Ctx) : Reg → VVal
  | .s i => if i = 0 then 0 else (c.s[i.toNat]).setWidth 2048
  | .v i => c.v[i.toNat]
  | .k i => if i = 0 then BitVec.ofNat 2048 (2 ^ 256 - 1) else (c.k[i.toNat]).setWidth 2048
  | .p i => if i = 0 then 1 else BitVec.ofNat 2048 (c.p[i.toNat]).toNat

/-- Whether a parked slot waits for nothing more of its registers. -/
def regsReady (c : Ctx) (rs : List Reg) : Bool := rs.all fun g => presOf c g = .full
/-- Unparks a unit whose registers filled at the end of a cycle; it issues after the next (R123). -/
def unparkRegs (s : State) (r : SlotRef) (uid : Nat) : State :=
  modUnit s r uid fun c => match c.park with
    | some p => match p.kind with
      | .regs rs => if regsReady c rs then { c with park := none, readyFrom := s.now + 2 } else c
      | _ => c
    | none => c

/-- A waiting message is deposited into its bound register (R121, R180). -/
def deposit (s : State) (e : EpRef) : State :=
  let x := epAt s e
  match x.reg, x.owner, x.inbox with
  | some g, some (l, u), .data mt bytes :: _ =>
    let r : SlotRef := ⟨e.pkg, e.tile, l⟩
    match (imageOf s e.node x.img).edge x.q .recv mt with
    | some _ =>
      if x.st = .opened ∧ !x.deposited ∧ x.noDep ≤ s.now ∧ !isAway s r u then
        match unitAt s r u with
        | some c =>
          if presOf c g = .empty then
            let w := match g with
              | .v _ => 256
              | _ => 8
            let v : VVal := BitVec.ofNat 2048 (natOfBytes (bytes.take w))
            let s := modEp s e fun x => { x with deposited := true }
            unparkRegs (setWake (modUnit s r u fun c => setPres (setVal c g v) g .full) r u) r u
          else s
        | none => s
      else s
    | none => s
  | _, _, _ => s

/-- The head message of an endpoint is complete: it leaves the buffer, the state moves, a credit returns (R173). -/
def finishHead (s : State) (e : EpRef) (next : Nat) : State :=
  sendCredit (modEp s e fun x => { x with inbox := x.inbox.tail, cursor := 0, deposited := false, q := next }) e

/-- A source register that is bound is consumed (R122); the next deposit comes no earlier than the end of the next cycle (R123). -/
def consumeReg (s : State) (r : SlotRef) (uid : Nat) (g : Reg) : State :=
  match boundTo s r uid g with
  | none => s
  | some e =>
    let s := modEp (modUnit s r uid fun c => setPres c g .empty) e fun x => { x with noDep := s.now + 1 }
    let x := epAt s e
    match x.deposited, x.inbox with
    | true, .data mt _ :: _ =>
      let next := ((imageOf s e.node x.img).edge x.q .recv mt).map (·.next)
      askDeposit (finishHead s e (next.getD x.q)) e (s.now + 1)
    | _, _ => askDeposit s e (s.now + 1)

/-! ### Occupancy (R202) -/

/-- Bytes of a message in the buffer. -/
def msgBytes : ChMsg → Nat
  | .data _ b => b.length
  | .label _ => 0
  | .deleg .. => 32
/-- The bytes of messages of which flits have landed ahead of a lower number, by message, given those of the message under way: a
flit belongs to the message before it unless the flit before it ended one (DEDUCED, log 49). -/
def flitMsgs : List ChFlit → Option Nat → List Nat
  | [], cur => cur.toList
  | f :: l, cur => match f.body with
    | .data _ b last =>
      let n := cur.getD 0 + b.length
      if last then n :: flitMsgs l none else flitMsgs l (some n)
    | .label _ => cur.toList ++ 0 :: flitMsgs l none
    | .deleg .. => cur.toList ++ 32 :: flitMsgs l none
    | _ => cur.toList ++ flitMsgs l none
/-- The bytes not yet taken of the messages landed, wholly or in part, and not completed (R202). -/
def streamMsgs (x : Endpoint) : List Nat :=
  (x.inbox.zipIdx.map fun (m, i) => msgBytes m - if i = 0 then x.cursor else 0) ++
    flitMsgs (sortBy (fun a b => a.seq ≤ b.seq) (x.early.filter fun f => isSeq f.body)) (x.part.map (·.2.length))
/-- Units of 32 bytes that hold landed bytes not yet taken, each message's rounded up (R202). -/
def occupancy (x : Endpoint) : Nat := ((streamMsgs x).map fun b => ceilDiv b 32).sum
/-- Messages landed, wholly or in part, and not completed (R202). -/
def landedMsgs (x : Endpoint) : Nat := (streamMsgs x).length

end Sys2Proof.Machine
end

