-- ==== Sys2Proof/Machine/Units.lean ====
section
/-! DEFINITION. Units and their ends: messages to supervisors, tokens, spawn returns, and what EXIT, cancel and a nested
fault release (R88, R95, R343, R348, R349). -/

namespace Sys2Proof.Machine

/-! ### Units of a tile -/

/-- The launch whose pinned routes a unit's flits take. -/
def pinOf (c : Ctx) : Option Word := if c.d.det then some c.d.launch else none
/-- Every unit of a slot, bound or away. -/
def slotUnits (l : Slot) : List Ctx := (if l.ph = .free then [] else [l.ctx]) ++ l.saved
/-- Every unit of a tile with its slot. -/
def tileUnits (t : Tile) : List (Nat × Ctx) := t.slots.toList.zipIdx.flatMap fun (l, i) => (slotUnits l).map fun c => (i, c)
/-- Whether a slot is the supervisor that a unit's descriptor names (R239). -/
def supervises (r : SlotRef) (d : UnitDesc) : Bool := d.supTile = r.tile && d.supSlot = r.slot

/-! ### Supervisor messages (R348 to R350) -/

/-- Counts a message to the firmware supervisor of root units (R359) as on its way: the end of its job waits for it. DEDUCED, log 36. -/
def noteSent (s : State) (m : SupMsg) : State :=
  if m.root then modJob s m.job fun j => { j with fwSent := aset j.fwSent m.dst.pkg (aget 0 j.fwSent m.dst.pkg + 1) } else s
/-- Sends a message to the supervisor of a unit (R348). -/
def sendSup (s : State) (r : SlotRef) (c : Ctx) (cls code : Nat) (w0 w1 : Word) : State :=
  let m : SupMsg := ⟨⟨r.pkg, c.d.supTile, c.d.supSlot⟩, c.d.job, cls, code, w0, w1, r, c.d.root⟩
  sendMsg (noteSent s m) r r.node m.dst.node 11 1 [] (pinOf c) false (.supervisorMessageLand m)

/-- Tells the supervisor of a unit, which may have ended, of a posted store of its that failed (R95, R249, R348). -/
def reportStore (s : State) (o : Out) (code : Nat) : State :=
  let w1 : Word := BitVec.ofNat 64 (code * 2 ^ 24 + o.slot.tile * 2 ^ 12 + o.slot.slot * 2 ^ 8)
  let m : SupMsg := ⟨o.sup, o.job, 3, code, o.va, w1, o.slot, o.root⟩
  let pin := if ((launchAt s o.launch).map (·.d.det)).getD false then some o.launch else none
  sendMsg (noteSent s m) o.slot o.slot.node m.dst.node 11 1 [] pin false (.supervisorMessageLand m)
/-- A store of a unit to a home, as it is known until its credit lands. -/
def storeOut (r : SlotRef) (c : Ctx) (id : Nat) (home : Option Node) (host : Bool) (va : Word) : Out :=
  { id := id, slot := r, uid := c.uid, job := c.d.job, launch := c.d.launch, home := home, host := host, va := va,
    sup := ⟨r.pkg, c.d.supTile, c.d.supSlot⟩, root := c.d.root }

/-- Whether a parked slot holds a token. -/
def parkToken (p : Park) : Option Nat :=
  match p.kind with
  | .xlat _ t => some t
  | _ => none

/-- The parked access that a token names: its slot, its unit, its park, its launch (R238). -/
def tokenPark (s : State) (tok : Nat) : Option (SlotRef × Ctx × Park) :=
  (s.tiles.flatMap fun (k, t) => (tileUnits t).filterMap fun (i, c) =>
    match c.park with
    | some p => if parkToken p = some tok then some (⟨k / 4096, k % 4096, i⟩, c, p) else none
    | none => none).head?
/-- The stopped engine command that a token names: its tile, whether of the matrix engine, the command (R269). -/
def tokenCmd (s : State) (tok : Nat) : Option (Node × Bool × EngCmd) :=
  (s.tiles.flatMap fun (k, t) =>
    let pick (mx : Bool) (l : List EngCmd) := l.filterMap fun q =>
      match q.stopped with
      | some (t', _, _) => if t' = tok then some (nodeOfKey k, mx, q) else none
      | none => none
    pick false t.copy ++ pick true t.mx.cmds).head?

/-- Changes a command of an engine's queue. -/
def modCmd (s : State) (n : Node) (mx : Bool) (id : Nat) (f : EngCmd → EngCmd) : State :=
  let g (l : List EngCmd) := l.map fun q => if q.id = id then f q else q
  modTile s n fun t => if mx then { t with mx := { t.mx with cmds := g t.mx.cmds } } else { t with copy := g t.copy }

/-- Refuses a token: the parked access gets access_violation, the stopped command ends without its signal (R238, R269). -/
def refuseToken (s : State) (tok : Nat) : State :=
  match tokenPark s tok with
  | some (r, c, p) => push s s.now phLand (slotKey r) (.globalReplyLand ⟨r, c.uid, p.id⟩ (.fail 0x09 0))
  | none => match tokenCmd s tok with
    | some (n, mx, q) =>
      push (modCmd s n mx q.id fun q => { q with refused := true }) s.now phEnd (nodeKey n)
        (.engineCommandComplete n mx q.id)
    | none => s

/-- Token of a message of class 1 or 2. -/
def msgToken (m : SupMsg) : Option Nat := if m.cls = 1 ∨ m.cls = 2 then some (m.w1.toNat / 2 ^ 32) else none
/-- Discards a message: its token is refused, any other message is counted as lost (R349). -/
def discardMsg (s : State) (n : Node) (m : SupMsg) : State :=
  match msgToken m with
  | some t => refuseToken s t
  | none => modTile s n fun t => { t with lostMsgs := bump t.lostMsgs m.job (2 ^ 16 - 1) }

/-- The number of units of a job that a slot holds, bound or away. -/
def holdsJob (s : State) (r : SlotRef) (job : Word) : Bool := (slotUnits (slotAt s r)).any fun c => c.d.job = job

/-- Asks for the end of a job to be looked at. -/
def askJob (s : State) (h : Word) : State := pushOnce s s.now phEnd h.toNat (.jobEnd h)
/-- The firmware supervisor of root units: it refuses every token and counts each message (R359). -/
def firmwareMsg (s : State) (m : SupMsg) : State :=
  let p := m.dst.pkg
  let s := askJob (modJob s m.job fun j => { j with
    supmsg := aset j.supmsg p (min (2 ^ 32 - 1) (aget 0 j.supmsg p + 1)), fwSent := aset j.fwSent p (aget 0 j.fwSent p - 1) }) m.job
  match msgToken m with
  | some t => refuseToken s t
  | none => s
/-- A message lands in its supervisor's queue, is discarded, or is sent again 64 cycles after a busy reply (R348, R349). -/
def landMsg (s : State) (m : SupMsg) : State :=
  if m.root then firmwareMsg s m
  else if !holdsJob s m.dst m.job then discardMsg s m.dst.node m
  else if (tileAt s m.dst.node).msgs.length ≥ 32 then
    push s (dueFrom s m.src.node (s.now + flight s m.dst.node m.src.node) 64) phLand (slotKey m.src) (.supervisorMessageResend m)
  else modTile s m.dst.node fun t => { t with msgs := t.msgs ++ [m] }

/-! ### Spawn returns (R101, R102) -/

/-- The mark of a spawn return among outstanding writes. -/
def spawnMark (uid dst : Nat) : Word := BitVec.ofNat 64 (2 ^ 63 + uid * 64 + dst)
/-- Sends a unit's value to its caller's pending register. -/
def sendReturn (s : State) (r : SlotRef) (c : Ctx) (o : SpawnOrigin) (d : SIx) (v : Word) : State :=
  let s := addOut { s with no := s.no + 1 }
    { id := s.no, slot := r, uid := c.uid, job := c.d.job, launch := c.d.launch, home := some o.caller.node, host := false,
      va := spawnMark o.uid d.toNat }
  sendMsg s r r.node o.caller.node 4 1 [] (pinOf c) true (.spawnReturnLand o.caller o.uid d v)

/-! ### Completion of work (R82) -/

/-- Asks the dispatcher to look at a launch at the end of the cycle. -/
def askLaunch (s : State) (h : Word) : State :=
  if h = 0 then s
  else pushOnce s s.now phEnd h.toNat (.launchCompletion (h.toNat / 2 ^ 56 % 64) (h.toNat % 2 ^ 32))
/-- Drops an outstanding entry, and looks at what it may complete. -/
def performed (s : State) (id : Nat) : State :=
  match s.outs.find? fun o => o.id = id with
  | some o =>
    let s := dropOut s id
    let s := if o.va.toNat < 2 ^ 62 then s else wakeEngines s o.slot.node
    if o.launch = 0 then (if o.job = 0 then s else askJob s o.job) else askLaunch s o.launch
  | none => s
/-- Asks the spawn queue of a tile and the dispatcher of its package to look for work. -/
def askWork (s : State) (n : Node) : State :=
  pushOnce (pushOnce s s.now phEnd (nodeKey n) (.spawnEntryServe n)) s.now phEnd (2 ^ 30 + n.pkg) (.nodePlacement n.pkg)

/-! ### The end of a unit (R88, R95, R343) -/

/-- Releases the accumulators a unit holds; their contents stay (R95, R150). -/
def releaseXa (s : State) (r : SlotRef) (uid : Nat) (job : Word) : State :=
  modTile s r.node fun t =>
    { t with xas := t.xas.map fun x => if x.holder = some (r.slot, uid) then { x with holder := none, job := job } else x }
/-- Frees the couplers a unit holds, and detaches those it feeds (R95, R205). -/
def releaseCouplers (s : State) (r : SlotRef) (uid : Nat) : State :=
  let s := (tileAt s r.node).couplers.foldl
    (fun s (i, c) => if c.holder = some (r.slot, uid) then freeCoupler s r.node i else s) s
  (tileAt s r.node).remotes.foldl
    (fun s m => if m.slot = r.slot ∧ m.uid = uid then detach s m.owner.node m.owner.ep else s) s
/-- Whether an effective address names a remote scratchpad (R214). -/
def isRemote (ea : Word) : Bool := ea.toNat / 2 ^ 62 = 2
/-- A remote address taken apart: its tile and offset. -/
def remoteHome (ea : Word) : Node := ⟨ea.toNat / 2 ^ 56 % 64, ea.toNat / 2 ^ 44 % 4096⟩
/-- The withdrawal of a parked remote request, to the tile where it waits (R223). -/
def withdrawalOf (w : Who) (job : Word) (p : Park) : SpReq := ⟨w, remoteHome p.va, p.va.toNat % 2 ^ 20, job, .ld, none⟩
/-- Sends the withdrawal of a parked remote request (R223). -/
def sendWithdrawal (s : State) (w : Who) (c : Ctx) (p : Park) : State :=
  let q := withdrawalOf w c.d.job p
  sendMsg s w.slot w.slot.node q.home 3 1 [3, 1, slotKey w.slot] (pinOf c) false (.scratchpadCycleService q.home (some (q, true)))
/-- Drops the requests of a unit that wait at scratchpads, sel telling which. -/
def dropUnitWaits (s : State) (sel : Waiter → Bool) (r : SlotRef) (uid : Nat) : State :=
  { s with tiles := s.tiles.map fun (k, t) =>
      (k, { t with waiters := t.waiters.filter fun w => ¬(w.q.who.slot = r ∧ w.q.who.uid = uid ∧ sel w) }) }
/-- Withdraws what a cancelled unit waits for at scratchpads: a wait at its own at once, and a remote request by a message, which finds
it waiting, or performed (R223). -/
def withdrawWaits (s : State) (r : SlotRef) (c : Ctx) : State :=
  let s := dropUnitWaits s (·.isLocal) r c.uid
  match c.park with
  | some p => if p.kind = .reply ∧ p.limKind = 1 ∧ isRemote p.va ∧ p.aux ≠ [1] then sendWithdrawal s ⟨r, c.uid, p.id⟩ c p else s
  | none => s
/-- Returns or discards the block a unit holds (R329). -/
def releaseBlk (s : State) (r : SlotRef) (c : Ctx) (cancelled : Bool) : State :=
  match c.blk with
  | none => s
  | some b =>
    if cancelled then s
    else modPkg s r.pkg fun p =>
      { p with bq := p.bq.map fun q =>
          { q with back := (r.tile - 2048 - ((launchAt s c.d.launch).map (·.d.x0)).getD 0, b) :: q.back } }
/-- Ends a supervisor's queue: messages still queued for it are discarded, tokens it took are refused (R349). Messages stay queued
where another unit of the job holds the slot, bound or pre-empted. -/
def endSupervisor (s : State) (r : SlotRef) (c : Ctx) : State :=
  let other := (slotUnits (slotAt s r)).any fun x => x.d.job = c.d.job && x.uid ≠ c.uid
  let mine := if other then [] else (tileAt s r.node).msgs.filter fun m => m.dst = r ∧ m.job = c.d.job
  let s := modTile s r.node fun t => { t with msgs := t.msgs.filter fun m => !mine.contains m }
  let s := mine.foldl (fun s m => discardMsg s r.node m) s
  c.tokens.foldl refuseToken s
/-- Takes a unit off its slot (R95): the slot is unbound, or its saved context goes. -/
def unbind (s : State) (r : SlotRef) (uid : Nat) : State :=
  modSlot s r fun l =>
    let past (c : Ctx) : List (Word × Word) := (c.d.launch, c.d.job) :: l.past.filter fun x => x ≠ (c.d.launch, c.d.job)
    if l.ph ≠ .free ∧ l.ctx.uid = uid then
      { l with ph := .free, ctx := { l.ctx with park := none, region := none, packet := none, blk := none, tokens := [] }, past := past l.ctx }
    else match l.saved.find? fun c => c.uid = uid with
      | some c => { l with saved := l.saved.filter fun c => c.uid ≠ uid, past := past c }
      | none => l
/-- The pre-empted unit that has a role again when the holder it was lent to gives it up: the one of highest priority (R74, R87). -/
def keeper (t : Tile) (keeps : Ctx → Bool) : Option (Nat × Nat) :=
  ((t.slots.toList.zipIdx.flatMap fun (l, i) => (l.saved.filter keeps).map fun c => (i, c)).foldl
    (fun (o : Option (Nat × Ctx)) x => match o with
      | some y => if y.2.d.prio < x.2.d.prio then some x else some y
      | none => some x) none).map fun x => (x.1, x.2.uid)
/-- A unit gives up the roles it holds. -/
def dropRoles (t : Tile) (slot uid : Nat) : Tile :=
  let mx := if t.matRole = some (slot, uid) then keeper t Ctx.keepsMat else t.matRole
  let cp := if t.copyRole = some (slot, uid) then keeper t Ctx.keepsCopy else t.copyRole
  let has (o : Option (Nat × Nat)) (i : Nat) (c : Ctx) : Bool := o = some (i, c.uid)
  { t with
    matRole := mx
    copyRole := cp
    slots := Vector.ofFn fun i => let l := t.slots[i]
      { l with saved := l.saved.map fun c =>
          { c with keepsMat := c.keepsMat && !has mx i c, keepsCopy := c.keepsCopy && !has cp i c } } }

/-- Whether a unit of a deterministic launch is bound on a tile. -/
def hasDet (t : Tile) : Bool := t.slots.toList.any fun l => l.ph = .bound && l.ctx.d.det
/-- Entries of a tile's TLB, and those of each half while it is split (R333). -/
def tlbEntries : Nat := 64
/-- Keeps the youngest so many entries. -/
def youngest (n : Nat) (l : List TlbEntry) : List TlbEntry := l.drop (l.length - n)
/-- A tile's TLB with 32 entries for deterministic launches and 32 for others, or with all for others (R333). -/
def fitTlb (split : Bool) (l : List TlbEntry) : List TlbEntry :=
  if split then youngest (tlbEntries / 2) (l.filter fun e => !e.det) ++ youngest (tlbEntries / 2) (l.filter (·.det))
  else youngest tlbEntries (l.filter fun e => !e.det)
/-- A tile whose TLB serves other launches whole again, once no unit of a deterministic launch is bound there (R333). -/
def unsplitTlb (t : Tile) : Tile := if hasDet t then t else { t with tlb := fitTlb false t.tlb }

/-- The effects of EXIT, with the cause that its channels' notices carry; nested marks a unit that a fault ended, whose
launch has status 1 (R343), cancelled one that R88 stops. -/
def endUnit (s : State) (r : SlotRef) (uid cause : Nat) (nested cancelled : Bool) : State :=
  match unitAt s r uid with
  | none => s
  | some c =>
    let s := ((tileAt s r.node).eps.filter fun (_, x) => x.owner = some (r.slot, uid)).foldl
      (fun s (i, _) => putEp s ⟨r.pkg, r.tile, i⟩ cause) s
    let s := releaseCouplers (releaseXa s r uid c.d.job) r uid
    let s := if cancelled then withdrawWaits s r c else s
    let s := match c.d.origin with
      | some o => match o.ret with
        | some d => if c.retDone ∨ cancelled then s else sendReturn s r c o d 0
        | none => s
      | none => s
    let s := modTile s r.node fun t =>
      { t with images := t.images.map fun (i, m) => (i, { m with holders := m.holders.filter fun h => h ≠ (r.slot, uid) }) }
    let s := releaseBlk (sweepImages s r.node) r c cancelled
    let s := modTile (unbind (endSupervisor s r c) r uid) r.node fun t => unsplitTlb (dropRoles t r.slot uid)
    let s := if c.d.root then
        askJob (modJob s c.d.job fun j => { j with
          status := if nested then max 1 j.status else j.status
          rootExited := if j.rootExited.contains r.pkg then j.rootExited else r.pkg :: j.rootExited }) c.d.job
      else askLaunch (modLaunch s c.d.launch fun l => { l with
        live := l.live - 1, status := if nested ∨ cancelled then 1 else l.status }) c.d.launch
    askWork s r.node

end Sys2Proof.Machine
end

