-- ==== Sys2Proof/Machine/Ops.lean ====
section
/-! DEFINITION. Issue, parking, completion, and the taking of faults: the shared operations around every form
(R44 to R47, R76, R77, R92, R112 to R117, R222, R253, R340 to R347). -/

namespace Sys2Proof.Machine

/-- A step's answer. -/
abbrev Outc := Host.Outcome State Fault Refusal

/-! ### Cause codes (Table 1 of chapter 15) -/

/-- illegal_instruction. -/
def fIllegalInstruction : Nat := 0x01
/-- reserved_field. -/
def fReserved : Nat := 0x02
/-- illegal_operand. -/
def fOperand : Nat := 0x03
/-- privilege. -/
def fPrivilege : Nat := 0x04
/-- wait_limit. -/
def fWaitLimit : Nat := 0x05
/-- misaligned. -/
def fMisaligned : Nat := 0x06
/-- scratchpad_bounds. -/
def fBounds : Nat := 0x07
/-- access_violation. -/
def fAccess : Nat := 0x09
/-- protocol_violation. -/
def fProtocol : Nat := 0x0A
/-- protocol_mismatch. -/
def fMismatch : Nat := 0x0B
/-- channel_closed. -/
def fClosed : Nat := 0x0C
/-- endpoint_not_owned. -/
def fNotOwned : Nat := 0x0D
/-- buffer_unavailable. -/
def fBuffer : Nat := 0x0E
/-- look_ahead_unbounded. -/
def fLookAhead : Nat := 0x0F
/-- region_illegal. -/
def fRegion : Nat := 0x10
/-- region_overflow. -/
def fRegionFull : Nat := 0x11
/-- atomic_unsupported. -/
def fAtomic : Nat := 0x12
/-- peer_reset. -/
def fPeerReset : Nat := 0x13
/-- heap_exhausted. -/
def fHeap : Nat := 0x14
/-- heap_bad_free. -/
def fBadFree : Nat := 0x15
/-- descriptor_invalid. -/
def fDescriptor : Nat := 0x16
/-- resource_exhausted. -/
def fResource : Nat := 0x17
/-- fp_trap. -/
def fFpTrap : Nat := 0x18
/-- divide_by_zero. -/
def fDivZero : Nat := 0x19
/-- data_uncorrectable. -/
def fData : Nat := 0x1A
/-- packet_open_limit. -/
def fPacket : Nat := 0x1B
/-- coupler_config. -/
def fCoupler : Nat := 0x1E
/-- calendar_overrun. -/
def fCalendar : Nat := 0x1F
/-- software_trap. -/
def fTrap : Nat := 0x20
/-- spawn_refused. -/
def fSpawn : Nat := 0x21

/-- CAUSE.INH (Table 2 of chapter 15). -/
def Ctx.inh (c : Ctx) : Bool := c.cause.getLsbD 63
/-- System mode: the slots of management tiles (01). -/
def systemMode (r : SlotRef) : Bool := isMgmt r.tile

/-! ### Taking a fault (R253, R341, R343) -/

/-- The specifier of a register (R48). -/
def specifier : Reg → Nat
  | .s i => i.toNat
  | .v i => 0x40 + i.toNat
  | .p i => 0x80 + i.toNat
  | .k i => 0x88 + i.toNat

/-- Registers of a context as a region's checkpoint has them (R252, R253). -/
def restoreRegion (c : Ctx) (g : Region) : Ctx :=
  { c with s := g.s, sP := g.sP, k := g.k, kP := g.kP, p := g.p, pP := g.pP, region := none }
/-- Ends the region of a context by a fault: the checkpoint is restored and the cause register holds the PC of the
faulting instruction (R253). -/
def endRegion (c : Ctx) : Ctx :=
  match c.region with
  | none => c
  | some g => setPres (setVal (restoreRegion c g) (.s g.causeReg) (c.pc.setWidth 2048)) (.s g.causeReg) .full
/-- Address that TRAPPC takes: the faulting instruction, or the RGN.BEGIN of the region that the fault ends (R253). -/
def faultPc (c : Ctx) : Word :=
  match c.region with
  | none => c.pc
  | some g => g.beginPc
/-- FAULTAUX as written: bit 63 tells that the fault ended a region (R253, R340). -/
def faultAux (c : Ctx) (aux : Word) : Word := if c.region.isSome then aux ||| BitVec.ofNat 64 (2 ^ 63) else aux
/-- Handler entry (R341): CAUSE, TRAPPC, FAULTVA and FAULTAUX are written, INH is set, the PC becomes HANDLER. A quiet
count in force is discarded (R47). -/
def enterHandler (c : Ctx) (now code : Nat) (va aux : Word) : Ctx :=
  let e := endRegion c
  { e with cause := BitVec.ofNat 64 (2 ^ 63 + code), trappc := faultPc c, faultva := va, faultaux := faultAux c aux,
           pc := c.handler, park := none, asked := none, quiet := 0, readyFrom := max c.readyFrom (now + 1) }

/-- The void bit that a fault sets in a deterministic launch (R335). -/
def voidOf (s : State) (c : Ctx) (code : Nat) : State :=
  if !c.d.det then s
  else if code = fData then setVoid s c.d.launch 3 else if code = fPeerReset then setVoid s c.d.launch 5 else s

/-- A unit takes a fault: handler entry, or its end where INH is 1 already (R341, R343). A packet_open_limit aborts the
channel of the open packet (R187). -/
def takeFault (s : State) (r : SlotRef) (uid code : Nat) (va aux : Word) : State :=
  match unitAt s r uid with
  | none => s
  | some c =>
    let s := voidOf s c code
    if c.inh then
      let w1 := BitVec.ofNat 64 (r.tile * 2 ^ 20 + r.slot * 2 ^ 16 + c.cause.toNat % 256 * 2 ^ 8 + code)
      endUnit (sendSup s r c 6 code (faultPc c) w1) r uid code true false
    else
      let s := modUnit s r uid fun c => enterHandler c s.now code va aux
      match c.packet with
      | some (e, _) => if code = fPacket then abortEp s ⟨r.pkg, r.tile, e⟩ fPacket else s
      | none => s

/-! ### Completing and parking -/

/-- One issue of a unit: the turn count, the quiet count of the form, and the count of an open packet (R47, R77, R92). -/
def countIssue (hq : Nat) (c : Ctx) : Ctx :=
  { c with issued := c.issued + 1, quiet := hq, packet := c.packet.map fun (e, n) => (e, n + 1) }
/-- The next instruction of a unit (R40). -/
def nextPc (c : Ctx) : Word := c.pc + 12

/-- What a form's body answers: it completes; it completes with a transfer; its unit
has ended; it does not issue and parks, to be retried;
it has issued, with the effects of the state given, and parks under an identity; or it faults, with no effect, or with the
effect given alone: the flags and draws of an fp_trap (R27, R31), the errors found (R353). -/
inductive Act
  | done (s : State)
  | jump (s : State) (t : Word)
  | gone (s : State)
  | retry (k : ParkKind) (limKind limIx : Nat) (va : Word)
  | wait (s : State) (id : Nat) (k : ParkKind) (limKind limIx : Nat) (va : Word) (aux : List Word)
  | trap (code : Nat) (va aux : Word)
  | trapIn (e : State → State) (code : Nat) (va aux : Word)

/-- Parks the slot; limKind 0 says that WAITLIM does not apply (R222). A slot that is parked already keeps its wait. -/
def parkSlot (s : State) (r : SlotRef) (i : Instr) (id : Nat) (k : ParkKind) (limKind limIx : Nat) (va : Word) (aux : List Word) : State :=
  let c := ctxAt s r
  match c.park with
  | some _ => s
  | none =>
    let p : Park := { id := id, since := s.now, kind := k, form := i, limKind := limKind, limIx := limIx, va := va, aux := aux }
    let s := modCtx s r fun c => { c with park := some p }
    let lim := c.waitlim.toNat % 2 ^ 32
    if limKind = 0 ∨ lim = 0 then s
    else push s (dueIn s r.node (lim + 1)) phStart (slotKey r) (.waitLimitExpiry ⟨r, c.uid, p.id⟩)

/-- The instruction of a unit completes at once. -/
def complete (s : State) (r : SlotRef) (hq : Nat) (t : Option Word) : State :=
  modCtx s r fun c =>
    let c := countIssue hq c
    { c with pc := t.getD (nextPc c), park := none, readyFrom := max c.readyFrom (s.now + 1) }

/-- Whether a fault that the parked unit could not take yet is due, and is taken (R92). -/
def takeDue (s : State) (r : SlotRef) (uid : Nat) (p : Park) : State :=
  if p.limitDue then
    match (unitAt s r uid).bind (·.packet) with
    | some (e, _) => takeFault s r uid fPacket 0 (BitVec.ofNat 64 e)
    | none => s
  else s

/-- The wait a party names, if its unit still waits so. -/
def waitOf (s : State) (w : Who) : Option (Ctx × Park) :=
  (unitAt s w.slot w.uid).bind fun c => c.park.bind fun p => if p.id = w.id then some (c, p) else none

/-- A parked instruction completes: f writes its results, and the slot issues after the present cycle (R77). -/
def finish (s : State) (w : Who) (f : Ctx → Ctx) : State :=
  match waitOf s w with
  | none => s
  | some (_, p) =>
    let s := modUnit s w.slot w.uid fun c =>
      { f c with pc := nextPc c, issued := c.issued + 1, packet := c.packet.map fun (e, n) => (e, n + 1),
                 park := none, asked := none, readyFrom := s.now + 1 }
    takeDue (p.held.foldl (fun s g => consumeReg s w.slot w.uid g) s) w.slot w.uid p
/-- A parked instruction faults. -/
def faultWait (s : State) (w : Who) (code : Nat) (va aux : Word) : State :=
  match waitOf s w with
  | none => s
  | some _ => takeFault s w.slot w.uid code va aux

/-- Notes the place to which a slot's request goes (R315). -/
def asks (s : State) (r : SlotRef) (uid : Nat) (n : Node) : State := modUnit s r uid fun c => { c with asked := some n }
/-- The identity of a wait that is to begin, and the state after it is taken. -/
def newWait (s : State) (r : SlotRef) (c : Ctx) : Who × State := (⟨r, c.uid, s.no⟩, { s with no := s.no + 1 })

/-! ### Registers -/

/-- Value of an s register; s0 reads 0 (R49). -/
def rs (c : Ctx) (i : SIx) : Word := if i = 0 then 0 else c.s[i.toNat]
/-- Value of a v register. -/
def rv (c : Ctx) (i : VIx) : VVal := c.v[i.toNat]
/-- Value of a k register; k0 reads all lanes (R49). -/
def rk (c : Ctx) (i : KIx) : KVal := if i = 0 then BitVec.allOnes 256 else c.k[i.toNat]
/-- Value of a p register; p0 reads true (R49). -/
def rp (c : Ctx) (i : PIx) : Bool := i = 0 || c.p[i.toNat]

/-- Registers of the slow partition (R117). -/
def slowReg : Reg → Bool
  | .s i => 32 ≤ i.toNat
  | .v i => 16 ≤ i.toNat
  | _ => false
/-- Added latency of a form with these sources (R117). -/
def slowBy (srcs : List Reg) : Nat := if srcs.any slowReg then 2 else 0
/-- Registers that exist as destinations; writes to s0, p0 and k0 are discarded (R49). -/
def realReg : Reg → Bool
  | .s i => i ≠ 0
  | .v _ => true
  | .k i => i ≠ 0
  | .p i => i ≠ 0

/-- Writes a register at once and sets it full. -/
def putReg (c : Ctx) (g : Reg) (x : VVal) : Ctx := setPres (setVal c g x) g .full
/-- Marks a destination pending; its value lands after l advancing cycles (R113, R116). -/
def land (s : State) (r : SlotRef) (uid : Nat) (g : Reg) (x : VVal) (l : Nat) : State :=
  if realReg g then
    push (modUnit s r uid fun c => setPres c g .pending) (dueIn s r.node l) phStart (slotKey r) (.resultLanding r uid g x)
  else s
/-- The result lands: the value is written and the register is full (R113, R116). -/
def landed (s : State) (r : SlotRef) (uid : Nat) (g : Reg) (x : VVal) : State := modUnit s r uid fun c => putReg c g x

/-- A value of an s register. -/
def sval (x : Word) : VVal := x.setWidth 2048
/-- A value of a p register. -/
def pval (b : Bool) : VVal := if b then 1 else 0

/-! ### Remote regions: what may run there (R251) -/

/-- The destinations that an atomic held in a region will write. -/
def heldDsts (i : Instr) : List Reg :=
  match i with
  | .atom _ _ _ _ _ d _ _ _ => [.s d]
  | .cas _ _ _ _ p d _ _ _ => [.s d] ++ if p = 0 then [] else [.p p]
  | .atomDet _ _ _ _ _ d _ _ _ => [.s d]
  | _ => []
/-- Whether a source is a destination of the region's held atomic. -/
def readsHeld (c : Ctx) (srcs : List Reg) : Bool :=
  match c.region.bind (·.atomic) with
  | some (i, _, _, _) => (heldDsts i).any fun g => realReg g && srcs.contains g
  | none => false

/-! ### Running a form (R44, R45, R112, R113) -/

/-- What the shared checks need to know of a form: its header, its sources and destinations, whether it may run inside a
region, and the form itself. -/
structure Form where
  i : Instr
  h : Hdr
  srcs : List Reg := []
  dsts : List Reg := []
  rgn : Bool := false
  /-- its effect comes after the consumption of its bound sources, since it may act on the endpoint they complete (R122) -/
  early : Bool := false

/-- Whether a guard holds (R45). -/
def guardOf (c : Ctx) (h : Hdr) : Bool := rp c h.g != h.gn
/-- The limit kind and index of a wait on registers: WAITLIM counts it where one is bound or awaits a return (R222). -/
def regsLimit (s : State) (r : SlotRef) (c : Ctx) (gs : List Reg) : Nat × Nat :=
  match gs.find? fun g => presOf c g = .ret || (boundTo s r c.uid g).isSome with
  | some g => (4, specifier g)
  | none => (0, 0)
/-- Parks on registers that are not full; the turn is lost (R112). -/
def parkRegs (s : State) (r : SlotRef) (c : Ctx) (h : Hdr) (gs : List Reg) : State :=
  let l := regsLimit s r c gs
  let s := modCtx s r fun c => { c with lost := c.lost + 1 }
  parkSlot { s with no := s.no + 1 } r (.nop h) s.no (.regs gs) l.1 l.2 0 []
/-- The open packet whose count an issue would raise beyond 64 (R92). -/
def packetFull (c : Ctx) : Option Nat := c.packet.bind fun (e, n) => if 64 ≤ n then some e else none

/-- Bound sources of a form. -/
def boundSrcs (s : State) (r : SlotRef) (uid : Nat) (srcs : List Reg) : List Reg :=
  if (tileAt s r.node).eps = [] then [] else srcs.filter fun g => (boundTo s r uid g).isSome
/-- Bound registers that a form has read are consumed (R122). -/
def consumeAll (s : State) (r : SlotRef) (uid : Nat) (gs : List Reg) : State :=
  if (tileAt s r.node).eps = [] then s else gs.foldl (fun s g => consumeReg s r uid g) s
/-- A form has had its effect, in the state s': its bound sources are consumed, unless they were before it (R44, R114, R122; log 44). -/
def useSrcs (s s' : State) (r : SlotRef) (uid : Nat) (f : Form) : State :=
  if f.early then s' else consumeAll s' r uid (boundSrcs s r uid f.srcs)
/-- A form parked under WAITLIM that goes on to wait under the same kind keeps its limit: the wait under a new identity began when
the old one did (R222). -/
def keepLimit (s : State) (r : SlotRef) (uid : Nat) (old : Park) (id : Nat) : State :=
  let s := { s with agenda := s.agenda.map fun d => if d.ev = .waitLimitExpiry ⟨r, uid, old.id⟩ then { d with ev := .waitLimitExpiry ⟨r, uid, id⟩ } else d }
  modCtx s r fun c => { c with park := c.park.map fun p => { p with since := old.since, limKind := old.limKind, limIx := old.limIx } }
/-- Parks a slot whose form has issued; an earlier wait of it under the same kind of limit goes on. -/
def parkIssued (s : State) (r : SlotRef) (uid : Nat) (i : Instr) (old : Option Park) (id : Nat) (k : ParkKind) (lk lx : Nat) (va : Word)
    (aux : List Word) : State :=
  match old.filter fun p => lk ≠ 0 ∧ p.limKind = lk with
  | some p => keepLimit (parkSlot s r i id k 0 0 va aux) r uid p id
  | none => parkSlot s r i id k lk lx va aux
/-- Applies the answer of a form's body, given at the state before it. A form that faults consumes nothing (R114). -/
def applyAct (s : State) (r : SlotRef) (uid : Nat) (f : Form) (a : Act) : State :=
  match a with
  | .done s' => complete (useSrcs s s' r uid f) r f.h.hq.toNat none
  | .jump s' t => complete (useSrcs s s' r uid f) r f.h.hq.toNat (some t)
  | .gone s' => s'
  | .retry .busy lk lx va =>
    parkSlot (modCtx { s with no := s.no + 1 } r fun c => { c with lost := c.lost + 1 }) r f.i s.no .busy lk lx va []
  | .retry k lk lx va =>
    let count (c : Ctx) : Ctx := if k = .cond ∧ c.park.isNone then { c with quiet := f.h.hq.toNat } else c
    parkSlot (modCtx { s with no := s.no + 1 } r count) r f.i s.no k lk lx va []
  | .wait s' id k lk lx va aux =>
    modCtx (parkIssued (modCtx s' r fun c => { c with quiet := f.h.hq.toNat, park := none }) r uid f.i (ctxAt s r).park id k lk lx va aux) r fun c =>
      { c with park := c.park.map fun p => { p with held := boundSrcs s r uid f.srcs } }
  | .trap code va aux => takeFault s r uid code va aux
  | .trapIn e code va aux => takeFault (e s) r uid code va aux
/-- An answer whose fault keeps an effect that came before it. -/
def Act.keeping (g : State → State) : Act → Act
  | .trapIn e code va aux => .trapIn (fun s => e (g s)) code va aux
  | a => a

/-- The consumer that a unit is. -/
def consumerOf (c : Ctx) : Consumer := ⟨c.d.job, c.d.unitix⟩
/-- Array code of a register's file (Table 6 of chapter 15). -/
def regArr : Reg → Nat
  | .v _ => 1
  | _ => 0
/-- The sources of a form are read: the state after their errors are found, and the register whose value is uncorrectable
(R352). -/
def readRegs (s : State) (r : SlotRef) (c : Ctx) (gs : List Reg) : State × Option Reg :=
  if (tileAt s r.node).errs = [] then (s, none)
  else (gs.filter realReg).foldl (fun x g =>
    let a := r.slot * 256 + specifier g
    let y := consume x.1 r.node (regArr g) a (a + 1) (consumerOf c)
    (y.1, if y.2.isSome && x.2.isNone then some g else x.2)) (s, none)
/-- The destinations of a form are written: errors in them are gone. -/
def freshRegs (s : State) (r : SlotRef) (gs : List Reg) : State :=
  gs.foldl (fun s g => replaceUnits s r.node (regArr g) (r.slot * 256 + specifier g) (r.slot * 256 + specifier g + 1)) s

/-- A slot reads bytes of an array of its tile: it goes on where the errors found could be corrected, which a fault that follows
does not undo, and faults where they could not (R351, R352). -/
def arrayFind (arr lo hi : Nat) (s : State) (r : SlotRef) (c : Ctx) (f : State → Act) : Act :=
  let read (s : State) : State × Option ErrSite := consume s r.node arr lo hi (consumerOf c)
  if errSites (tileAt s r.node) arr lo hi = [] then f s
  else match (read s).2 with
    | some _ => .trapIn (fun s => (read s).1) fData (BitVec.ofNat 64 lo) (BitVec.ofNat 64 arr)
    | none => (f (read s).1).keeping fun s => (read s).1
/-- FAULTAUX of an uncorrectable register (R340). -/
def badRegAux (g : Reg) : Word := BitVec.ofNat 64 (regArr g + specifier g * 2 ^ 8)
/-- Step 8 of R44 that all forms share, for a form whose guard holds: the region, its sources and destinations, the count of its
packet; then its body. -/
def runBody (f : Form) (body : State → SlotRef → Ctx → Act) (s : State) (r : SlotRef) (c : Ctx) : State :=
  if c.region.isSome ∧ !f.rgn then takeFault s r c.uid fRegion 0 0
  else if readsHeld c f.srcs then takeFault s r c.uid fRegion 0 0
  else
    let empty := f.srcs.filter fun g => presOf c g ≠ .full
    if empty ≠ [] then parkRegs s r c f.h empty
    else match f.dsts.find? fun g => presOf c g = .ret with
      | some _ => takeFault s r c.uid fOperand 0 0
      | none => match f.dsts.find? fun g => realReg g && (boundTo s r c.uid g).isSome with
        | some g => takeFault s r c.uid fOperand 0 (BitVec.ofNat 64 (specifier g))
        | none =>
          let pend := f.dsts.filter fun g => presOf c g = .pending
          if pend ≠ [] then parkRegs s r c f.h pend
          else match packetFull c with
            | some e => takeFault s r c.uid fPacket 0 (BitVec.ofNat 64 e)
            | none =>
              let e := readRegs s r c f.srcs
              match e.2 with
              | some g => takeFault e.1 r c.uid fData 0 (badRegAux g)
              | none =>
                let u := if f.early then consumeAll e.1 r c.uid f.srcs else e.1
                applyAct e.1 r c.uid f (body (freshRegs u r f.dsts) r c)
/-- The checks before a form's own (steps 6 to 8 of R44), then its body. The guard is a source: in a region it may not be the
predicate that the held atomic will write (R112, R251), and its value may be uncorrectable (R352). -/
def runForm (f : Form) (body : State → SlotRef → Ctx → Act) (s : State) : Outc :=
  let r := s.cur
  if (slotAt s r).ph ≠ .bound then .fault .noUnit
  else
    let c := ctxAt s r
    let g : Reg := .p f.h.g
    if readsHeld c [g] then .next (takeFault s r c.uid fRegion 0 0)
    else if presOf c g ≠ .full then .next (parkRegs s r c f.h [g])
    else
      let e := readRegs s r c [g]
      if e.2.isSome then .next (takeFault e.1 r c.uid fData 0 (badRegAux g))
      else if !guardOf c f.h then
        match packetFull c with
        | some x => .next (takeFault e.1 r c.uid fPacket 0 (BitVec.ofNat 64 x))
        | none => .next (complete e.1 r f.h.hq.toNat none)
      else .next (runBody f body e.1 r c)

/-- A form completes with results that land after a latency, lengthened by slow sources (R116, R117). -/
def results (s : State) (r : SlotRef) (c : Ctx) (f : List Reg) (l : Nat) (ws : List (Reg × VVal)) : Act :=
  .done (ws.foldl (fun s (g, x) => land s r c.uid g x (l + slowBy f)) s)

/-! ### Return from a handler (R347) -/

/-- Checks of a transfer's target (R41). -/
def targetFault (t : Word) : Option Nat :=
  if t.toNat % 4 ≠ 0 then some fMisaligned else if 2 ^ 56 ≤ t.toNat then some fAccess else none
/-- A transfer, or the fault of its target. -/
def transfer (s : State) (t : Word) : Act :=
  match targetFault t with
  | some f => .trap f t 0
  | none => .jump s t
/-- Return from a handler: INH is cleared and the PC is TRAPPC, or the instruction after it (R347). -/
def returnFrom (s : State) (r : SlotRef) (c : Ctx) (skip : Bool) : Act :=
  if !c.inh then .trap fOperand 0 0
  else
    let t := if skip then c.trappc + 12 else c.trappc
    transfer (modCtx s r fun c => { c with cause := c.cause &&& BitVec.ofNat 64 (2 ^ 63 - 1) }) t

/-- A release is performed once its conditions hold (R294); until then the slot parks. -/
def release (s : State) (r : SlotRef) (c : Ctx) (sc : Scope) (at_ : Node) (a : Act) : Act :=
  if releaseOk s r c.uid sc at_ then a else .retry .cond 0 0 0

/-! ### Waiting limits (R92, R222) -/

/-- FAULTAUX of a wait_limit trap; a BAR.SYNC whose arrival is counted says so in bit 4. -/
def limitAux (p : Park) : Word :=
  let sync : Nat := match p.kind, p.form with
    | .barrier _ _, .barSync _ _ => 16
    | _, _ => 0
  BitVec.ofNat 64 (p.limKind + sync + p.limIx * 2 ^ 8)

end Sys2Proof.Machine
end

