-- ==== Sys2Proof/Machine/Operands.lean ====
section
/-! DEFINITION. Operand forms: immediates, effective addresses, branch targets, lanes and masks (R49 to R56, R133). -/

namespace Sys2Proof.Machine

/-- A 48-bit immediate, sign-extended (R126). -/
def sx48 (x : BitVec 48) : Word := x.signExtend 64
/-- The effective address of an M form (R53). -/
def eaOf (c : Ctx) (a : SIx) (ofs : BitVec 32) : Word := rs c a + ofs.signExtend 64
/-- Target of a B-format transfer (R56). -/
def branchTo (c : Ctx) (off : BitVec 48) : Word := c.pc + 12 * sx48 off
/-- A named order has the acquire role. -/
def Ord.rel_ : Ord → Bool
  | .rel | .acqrel | .sc => true
  | _ => false

/-- The i-th of consecutive s registers. -/
def sNext (i : SIx) (k : Nat) : SIx := i + BitVec.ofNat 6 k
/-- So many consecutive s registers. -/
def sRun (i : SIx) (n : Nat) : List Reg := (List.range n).map fun k => .s (sNext i k)

/-! ### Lanes (R51, R133) -/

/-- Number of lanes of a width. -/
def laneCount (w : Nat) : Nat := if w = 0 then 0 else 2048 / w
/-- A lane of a vector. -/
def laneAt (w : Nat) (x : VVal) (i : Nat) : Nat := (x >>> (w * i)).toNat % 2 ^ w
/-- The lanes of a vector, lowest first. -/
def lanesOf (w : Nat) (x : VVal) : List Nat := (List.range (laneCount w)).map (laneAt w x)
/-- The number that lanes make up. -/
def packNat (w : Nat) : List Nat → Nat
  | [] => 0
  | x :: l => x % 2 ^ w + 2 ^ w * packNat w l
/-- The vector of lanes. -/
def packLanes (w : Nat) (l : List Nat) : VVal := BitVec.ofNat 2048 (packNat w l)
/-- Whether a lane is active under a mask (R51). -/
def laneOn (c : Ctx) (k : KIx) (i : Nat) : Bool := (rk c k).getLsbD i
/-- Whether a destination merges: an input then (R51). -/
def VMask.merges (m : VMask) : Bool := m.k ≠ 0 && !m.z
/-- The sources that a mask adds to a form. -/
def maskSrcs (m : VMask) (d : Reg) : List Reg := [.k m.k] ++ if VMask.merges m then [d] else []
/-- Value of an inactive lane (R51). -/
def idleLane (m : VMask) (old : Nat) : Nat := if m.z then 0 else old

/-- The number of a signed lane. -/
def toSigned (w x : Nat) : Int := if x < 2 ^ (w - 1) then x else (x : Int) - 2 ^ w
/-- The lane of a number, modulo its width. -/
def ofSigned (w : Nat) (x : Int) : Nat := (x % 2 ^ w).toNat
/-- The value of a lane of an integer type. -/
def intLane (t : Ty) (x : Nat) : Int := if t.isSigned then toSigned t.width x else x

end Sys2Proof.Machine
end

