-- ==== Sys2Proof/Machine/Control.lean ====
section
/-! DEFINITION. Control flow, unit control, special registers, fault forms and the spawn forms (R93 to R102, R345 to R350). -/

namespace Sys2Proof.Machine

/-! ### Control flow (R93) -/

/-- BR (R93). -/
def execBr (h : Hdr) (off : BitVec 48) : State → Outc :=
  runForm { i := .br h off, h := h, rgn := true } fun s _ c => transfer s (branchTo c off)
/-- BRI (R93). -/
def execBri (h : Hdr) (a : SIx) : State → Outc :=
  runForm { i := .bri h a, h := h, srcs := [.s a], rgn := true } fun s _ c => transfer s (rs c a)
/-- A transfer that writes a register after 3 cycles, unless its target faults. -/
def linkTo (s : State) (r : SlotRef) (c : Ctx) (srcs : List Reg) (d : SIx) (x t : Word) : Act :=
  match targetFault t with
  | some f => .trap f t 0
  | none => .jump (land s r c.uid (.s d) (sval x) (3 + slowBy srcs)) t
/-- CALL (R93). -/
def execCall (h : Hdr) (d : SIx) (off : BitVec 48) : State → Outc :=
  runForm { i := .call h d off, h := h, dsts := [.s d], rgn := true } fun s r c => linkTo s r c [] d (nextPc c) (branchTo c off)
/-- CALLI (R93). -/
def execCalli (h : Hdr) (d a : SIx) : State → Outc :=
  runForm { i := .calli h d a, h := h, srcs := [.s a], dsts := [.s d], rgn := true }
    fun s r c => linkTo s r c [.s a] d (nextPc c) (rs c a)
/-- RET behaves as BRI (R93). -/
def execRet (h : Hdr) (a : SIx) : State → Outc :=
  runForm { i := .ret h a, h := h, srcs := [.s a], rgn := true } fun s _ c => transfer s (rs c a)
/-- LOOP counts its register down and branches unless it reaches zero (R93). -/
def execLoop (h : Hdr) (d : SIx) (off : BitVec 48) : State → Outc :=
  runForm { i := .loop h d off, h := h, srcs := [.s d], dsts := [.s d], rgn := true } fun s r c =>
    let n := rs c d - 1
    linkTo s r c [.s d] d n (if n = 0 then nextPc c else branchTo c off)

/-! ### Unit control (R95 to R98) -/

/-- EXIT (R95): refused with an open packet; inside a region the shared check refuses it. -/
def execExit (h : Hdr) : State → Outc :=
  runForm { i := .exit h, h := h } fun s r c =>
    match c.packet with
    | some (e, _) => .trap fOperand 0 (BitVec.ofNat 64 e)
    | none => .gone (endUnit s r c.uid fClosed false false)
/-- YIELD (R96). -/
def execYield (h : Hdr) : State → Outc :=
  runForm { i := .yield h, h := h } fun s r _ => .done (modCtx s r fun c => { c with yieldRound := some (roundOf s r.pkg) })
/-- PARK (R97). -/
def execPark (h : Hdr) : State → Outc :=
  runForm { i := .park h, h := h } fun s r c =>
    if c.wake then .done (modCtx s r fun c => { c with wake := false }) else .retry .cond 5 0 0
/-- NOP (R96). -/
def execNop (h : Hdr) : State → Outc := runForm { i := .nop h, h := h, rgn := true } fun s _ _ => .done s
/-- SLEEPR parks until the start of a round (R98). -/
def execSleepr (h : Hdr) (n : BitVec 16) : State → Outc :=
  runForm { i := .sleepr h n, h := h } fun s r c =>
    if n = 0 then .done s
    else
      let t := (pkgAt s r.pkg).cycleBase + 16 * (roundOf s r.pkg + n.toNat)
      let w := newWait s r c
      .wait (push w.2 t phStart (slotKey r) (.sleeprExpiry w.1)) w.1.id .sleep 0 0 0 []
/-- SLEEPR_EXPIRY: the slot may issue in this very cycle (R98). -/
def evSleeprExpiry (w : Who) (s : State) : State :=
  match waitOf s w with
  | none => s
  | some _ => modUnit (finish s w id) w.slot w.uid fun c => { c with readyFrom := min c.readyFrom s.now }

/-! ### Special registers (R99) -/

/-- Turns of the free pool of a tile (R75). -/
def poolOf (t : Tile) : BitVec 16 := t.slots.toList.foldl (fun p l => p &&& ~~~l.owned) (BitVec.allOnes 16)
/-- REFWIN of a tile (Table 2 of chapter 14). -/
def refwinOf (id : Nat) : Nat := if isCompute id then 160 * 2 ^ 32 + 2048 * 2 ^ 16 + id % 16 * 128 else 0
/-- The value MFSR reads (Table 9 of chapter 04). -/
def spRead (s : State) (r : SlotRef) (c : Ctx) : SpReg → Word
  | .slotid => BitVec.ofNat 64 r.slot
  | .tileid => BitVec.ofNat 64 r.tile
  | .pkgid => BitVec.ofNat 64 r.pkg
  | .unitix => c.d.unitix
  | .launchid => c.d.launch
  | .jobid => c.d.job
  | .cycle => BitVec.ofNat 64 (cycleOf s r.pkg)
  | .waitlim => c.waitlim
  | .rmode => c.rmode
  | .fpflags => c.fpflags
  | .seed => c.seed
  | .trappc => c.trappc
  | .cause => c.cause
  | .faultaux => c.faultaux
  | .faultva => c.faultva
  | .handler => c.handler
  | .turntab => BitVec.ofNat 64 ((slotAt s r).owned.toNat + (poolOf (tileAt s r.node)).toNat * 2 ^ 16)
  | .detmode => BitVec.ofNat 64 c.d.det.toNat
  | .refwin => BitVec.ofNat 64 (refwinOf r.tile)
  | .incarn => BitVec.ofNat 64 ((tileAt s r.node).inc % 256)
/-- Whether a value may be written to a special register (R25, R31, R99, R342). -/
def spAccepts (x : Word) : SpReg → Bool
  | .waitlim => x.toNat < 2 ^ 32
  | .rmode => x.toNat < 6
  | .fpflags => x.toNat < 2 ^ 13 && x.toNat / 2 ^ 5 % 8 = 0
  | .cause => x.toNat / 2 ^ 8 % 2 ^ 55 = 0
  | .handler => (targetFault x).isNone
  | .seed | .trappc | .faultaux | .faultva => true
  | _ => false
/-- The write of a special register (R27, R99, R342). -/
def spWrite (c : Ctx) (x : Word) : SpReg → Ctx
  | .waitlim => { c with waitlim := x }
  | .rmode => { c with rmode := x }
  | .fpflags => { c with fpflags := x }
  | .seed => { c with seed := seedFix x }
  | .trappc => { c with trappc := x }
  | .cause => { c with cause := (c.cause &&& BitVec.ofNat 64 (2 ^ 63)) ||| BitVec.ofNat 64 (x.toNat % 256) }
  | .faultaux => { c with faultaux := x }
  | .faultva => { c with faultva := x }
  | .handler => { c with handler := x }
  | _ => c
/-- MFSR (R99). -/
def execMfsr (h : Hdr) (d : SIx) (n : SpReg) : State → Outc :=
  runForm { i := .mfsr h d n, h := h, dsts := [.s d], rgn := true }
    fun s r c => results s r c [] 3 [(.s d, sval (spRead s r c n))]
/-- MTSR (R99). -/
def execMtsr (h : Hdr) (a : SIx) (n : SpReg) : State → Outc :=
  runForm { i := .mtsr h a n, h := h, srcs := [.s a] } fun s r c =>
    if spAccepts (rs c a) n then .done (modCtx s r fun c' => spWrite c' (rs c a) n) else .trap fOperand 0 0

/-! ### Fault forms (R345 to R350) -/

/-- TRAP (R346). -/
def execTrap (h : Hdr) (imm : BitVec 48) : State → Outc :=
  runForm { i := .trap h imm, h := h } fun _ _ _ => .trap fTrap 0 (imm.setWidth 64)
/-- ERET (R347). -/
def execEret (h : Hdr) (skip : Bool) : State → Outc :=
  runForm { i := .eret h skip, h := h } fun s r c => returnFrom s r c skip
/-- The predicate destination of a P field: none for 0. -/
def pDst (p : BitVec 3) : List Reg := if p = 0 then [] else [.p p]
/-- The result in the predicate of a P field. -/
def pRes (p : BitVec 3) (b : Bool) : List (Reg × VVal) := if p = 0 then [] else [(.p p, pval b)]
/-- CAUSE takes the slot's oldest message (R350). -/
def execCause (h : Hdr) (wait : Bool) (p : BitVec 3) (d : SIx) : State → Outc :=
  runForm { i := .cause h wait p d, h := h, dsts := sRun d 3 ++ pDst p } fun s r c =>
    let give (s : State) (x y z : Word) (b : Bool) : Act :=
      results s r c [] 3 ([(.s d, sval x), (.s (sNext d 1), sval y), (.s (sNext d 2), sval z)] ++ pRes p b)
    match (tileAt s r.node).msgs.find? fun m => m.dst = r with
    | some m =>
      let s := modTile s r.node fun t => { t with msgs := t.msgs.erase m }
      let s := modCtx s r fun c => { c with tokens := c.tokens ++ (msgToken m).toList }
      give s (BitVec.ofNat 64 (m.cls * 2 ^ 56 + m.code)) m.w0 m.w1 true
    | none => if wait then .retry .cond 5 0 0 else give s 0 0 0 false
/-- ILLEGAL_INSTRUCTION: an unassigned OP or FN faults whatever its guard (R44, R59, R65). -/
def execIllegalInstruction (_ : IWord) (s : State) : Outc :=
  if (slotAt s s.cur).ph ≠ .bound then .fault .noUnit
  else .next (takeFault s s.cur (ctxAt s s.cur).uid fIllegalInstruction 0 0)

/-! ### Spawn (R100 to R102) -/

/-- What a spawn form asks for (R90, R101). -/
def spawnDesc (r : SlotRef) (c : Ctx) (pc : Word) (args : List Word) (ret : Option SIx) : UnitDesc :=
  { c.d with
    entry := pc
    args := args
    unitix := BitVec.ofNat 64 (2 ^ 63 + r.tile * 16 + r.slot)
    root := false
    origin := some ⟨r, c.uid, ret⟩ }
/-- Sends a spawn request and parks for the reply (R101). An id that names no tile of the package has no spawn queue to answer: the
refusal with reason 2 comes after 24 cycles. DESIGN CHOICE, log 48. -/
def spawnForm (isAt : Bool) (ret : Option SIx) (a b x : SIx) (s : State) (r : SlotRef) (c : Ctx) : Act :=
  let t := rs c a
  let pc := rs c b
  if 60 < x.toNat ∨ 2 ^ 12 ≤ t.toNat ∨ (targetFault pc).isSome then .trap fOperand 0 0
  else release s r c .dom r.node <|
    let ws := newWait s r c
    let w := ws.1
    let s := ws.2
    let q : SpawnReq := ⟨w, ⟨r.pkg, t.toNat⟩, spawnDesc r c pc ((List.range 4).map fun k => rs c (sNext x k)) ret, isAt, c.d.det,
      if c.d.det then none else some c.recSeq, false⟩
    let s := if isTile t.toNat then sendMsg s r r.node q.target 3 2 [3, 5, slotKey r] (pinOf c) false (.spawnRequestLand q)
      else push s (s.now + 24) phLand (slotKey r) (.spawnReplyLand w 2)
    .wait (asks s r c.uid q.target) w.id .reply 0 0 0 []
/-- Sources of a spawn form. -/
def spawnSrcs (a b x : SIx) : List Reg := [.s a, .s b] ++ (if 60 < x.toNat then [] else sRun x 4)
/-- SPAWN.AT (R101). -/
def execSpawnAt (h : Hdr) (d a b x : SIx) : State → Outc :=
  runForm { i := .spawnAt h d a b x, h := h, srcs := spawnSrcs a b x, dsts := [.s d] } (spawnForm true (some d) a b x)
/-- SPAWN.Q (R101). -/
def execSpawnQ (h : Hdr) (d : PIx) (a b x : SIx) : State → Outc :=
  runForm { i := .spawnQ h d a b x, h := h, srcs := spawnSrcs a b x, dsts := [.p d] } (spawnForm false none a b x)
/-- SPAWN.RET (R102). -/
def execSpawnRet (h : Hdr) (a : SIx) : State → Outc :=
  runForm { i := .spawnRet h a, h := h, srcs := [.s a] } fun s r c =>
    match c.d.origin with
    | none => .trap fOperand 0 0
    | some o =>
      if c.retDone then .trap fOperand 0 0
      else
        let fin (s : State) : Act := .done (modCtx s r fun c => { c with retDone := true })
        match o.ret with
        | none => fin s
        | some d => release s r c .dom r.node (fin (sendReturn s r c o d (rs c a)))

end Sys2Proof.Machine
end

