-- ==== Sys2Proof/Machine/Memory.lean ====
section
/-! DEFINITION. Physical memory, translation, the TLBs, translation misses and the record log (R231 to R239, R333, R336
to R338). -/

namespace Sys2Proof.Machine

/-! ### Physical memory (R232, R233) -/

/-- What lies at a physical address. -/
inductive MemKind | vault | far | host | regs
  deriving DecidableEq, Repr

/-- Home controller and kind of a physical address; none where there is no memory (Table 1 of chapter 10). -/
def memHome (s : State) (pa : Nat) : Option (Node × MemKind) :=
  let p := pa / 2 ^ 46
  let o := pa % 2 ^ 46
  if !hasPkg s p then none
  else if o < 2 ^ 37 then some (⟨p, o / 2 ^ 26⟩, .vault)
  else if 0x100000000000 ≤ o ∧ o < 0x10C000000000 then some (farNode p (o % 2 ^ 40 / 4096 % 24), .far)
  else if 0x200000000000 ≤ o ∧ o < 0x3F0000000000 then some (cxlNode p, .host)
  else if 0x3F0000000000 ≤ o then some (⟨p, 2098⟩, .regs)
  else none
/-- Bytes of physical memory. -/
def physRead (s : State) (pa n : Nat) : List Byte := cellsRead s.mem pa n
/-- The 32-bit words that a write of so many bytes touches, as they are before it (R42). -/
def wordsBefore (s : State) (pa n : Nat) : List (Nat × Nat × Nat) :=
  (List.range ((pa % 4 + n + 3) / 4)).map fun i => (pa / 4 * 4 + 4 * i, natOfBytes (physRead s (pa / 4 * 4 + 4 * i) 4), s.now)
/-- Writes bytes of physical memory. -/
def physWrite (s : State) (pa : Nat) (b : List Byte) : State :=
  { s with mem := cellsWrite s.mem pa b, oldWords := s.oldWords ++ wordsBefore s pa b.length }
/-- An 8-byte word of physical memory. -/
def physWord (s : State) (pa : Nat) : Nat := natOfBytes (physRead s pa 8)

/-! ### The walk (R234, R235) -/

/-- Outcome of a walk: a leaf and the size of its page in bits, a miss at a level, or a malformed entry. -/
inductive Walk | leaf (w bits : Nat) | miss (lvl : Nat) | bad
  deriving DecidableEq, Repr

/-- ADDR of an entry. -/
def pteAddr (w : Nat) : Nat := w % 2 ^ 52 / 2 ^ 8 * 2 ^ 8
/-- KIND of an entry. -/
def pteKind (w : Nat) : Nat := w / 2 ^ 5 % 8
/-- Whether a reserved bit is set. -/
def pteRsv (w : Nat) : Bool := w % 4 ≠ 0 || w / 2 ^ 52 % 4 ≠ 0
/-- Physical address of an address under a leaf. -/
def leafPa (w bits va : Nat) : Nat := pteAddr w / 2 ^ bits * 2 ^ bits + va % 2 ^ bits

/-- A leaf of a job whose key index is given (R235). -/
def checkLeaf (s : State) (key w bits : Nat) : Walk :=
  let a := pteAddr w
  if pteRsv w ∨ w / 2 ^ 54 ≠ key ∨ a % 2 ^ bits ≠ 0 then .bad
  else match memHome s a, memHome s (a + 2 ^ bits - 1) with
    | some (_, k), some (_, k') => if k = k' then .leaf w bits else .bad
    | _, _ => .bad
/-- The entries of a table of leaves. -/
def walkSub (s : State) (key tbl ix lvl bits : Nat) : Walk :=
  let w := physWord s (tbl + 8 * ix)
  if pteKind w = 0 then .miss lvl else if pteKind w ≠ 4 then .bad else checkLeaf s key w bits
/-- The levels of a walk below a table: so many are left. -/
def walkFrom (s : State) (key va : Nat) : Nat → Nat → Walk
  | 0, tbl =>
    let w := physWord s (tbl + 8 * (va / 2 ^ 16 % 1024))
    if pteKind w = 0 then .miss 0 else if pteKind w ≠ 4 then .bad else checkLeaf s key w 16
  | n + 1, tbl =>
    let lvl := n + 1
    let w := physWord s (tbl + 8 * (va / 2 ^ (16 + 10 * lvl) % 1024))
    let a := pteAddr w
    if pteKind w = 0 then .miss lvl
    else if pteRsv w then .bad
    else if pteKind w = 1 then (if a % 8192 ≠ 0 then .bad else walkFrom s key va n a)
    else if pteKind w = 3 ∧ lvl = 2 then (if a % 512 ≠ 0 then .bad else walkSub s key a (va / 2 ^ 30 % 64) 1 30)
    else if pteKind w = 2 ∧ lvl = 1 then (if a % 256 ≠ 0 then .bad else walkSub s key a (va / 2 ^ 21 % 32) 0 21)
    else .bad
/-- A walk of a job's tables on a package. An address beyond the virtual space is malformed here (R231). -/
def walk (s : State) (pkg : Nat) (job : Word) (va : Nat) : Walk :=
  if 2 ^ 56 ≤ va then .bad
  else match jobAt s job with
    | none => .bad
    | some j => walkFrom s j.key va 3 (j.rootTables.getD pkg 0)

/-! ### Permissions and TLBs (R236, R237, R333) -/

/-- Kinds of access (KINDA of Table 4): load, store, atomic, fetch, engine read, engine write. -/
def permits (w kind : Nat) : Bool :=
  let b (i : Nat) : Bool := w / 2 ^ i % 2 = 1
  match kind with
  | 0 | 4 => b 4
  | 1 | 5 => b 3
  | 2 => b 4 && b 3
  | _ => b 2
/-- Whether an entry serves an address of a job. -/
def TlbEntry.covers (e : TlbEntry) (job : Word) (va : Nat) : Bool := e.job = job && e.va = va / 2 ^ e.bits * 2 ^ e.bits
/-- Entries of a die. -/
def dieTlb (s : State) (n : Node) : List TlbEntry := aget [] (pkgAt s n.pkg).dieTlb (dieOf n.id)
/-- Enters a leaf in the TLBs (R237, R333). -/
def fillTlb (s : State) (n : Node) (e : TlbEntry) : State :=
  let s := modTile s n fun t => { t with tlb := fitTlb (e.det || hasDet t) (t.tlb ++ [e]) }
  if e.det ∨ (dieTlb s n).contains e then s
  else modPkg s n.pkg fun p => { p with dieTlb := aset p.dieTlb (dieOf n.id) (youngest 4096 (dieTlb s n ++ [e])) }

/-- Outcome of a translation: an address; a wait of 640 cycles; a miss; or access_violation. -/
inductive Xl | ok (pa : Nat) (s : State) | slow | miss (lvl : Nat) | bad

/-- An address under a leaf that permits the access. -/
def useLeaf (s : State) (kind va w bits : Nat) : Xl := if permits w kind then .ok (leafPa w bits va) s else .bad
/-- A walk whose leaf is entered in the TLBs. -/
def walkFill (s : State) (n : Node) (job : Word) (det : Bool) (kind va : Nat) : Xl :=
  match walk s n.pkg job va with
  | .leaf w bits => useLeaf (fillTlb s n ⟨job, va / 2 ^ bits * 2 ^ bits, bits, BitVec.ofNat 64 w, det⟩) kind va w bits
  | .miss l => .miss l
  | .bad => .bad
/-- Translates an address for a slot or an engine of a tile. In free mode a walk costs no time, its latency being
unspecified (log 18); in a deterministic launch it parks for 640 cycles (R333). -/
def xlate (s : State) (n : Node) (job : Word) (det : Bool) (kind va : Nat) : Xl :=
  if 2 ^ 56 ≤ va then .bad
  else match (tileAt s n).tlb.find? fun e => e.det = det && TlbEntry.covers e job va with
    | some e => useLeaf s kind va e.leaf.toNat e.bits
    | none =>
      if det then .slow
      else match (dieTlb s n).find? fun e => TlbEntry.covers e job va with
        | some e => useLeaf (fillTlb s n e) kind va e.leaf.toNat e.bits
        | none => walkFill s n job det kind va

/-! ### Errors on the way of a translation (R351, R352) -/

/-- Physical addresses of the entries that a walk below a table reads (R234). -/
def walkSpots (s : State) (va : Nat) : Nat → Nat → List Nat
  | 0, tbl => [tbl + 8 * (va / 2 ^ 16 % 1024)]
  | n + 1, tbl =>
    let a := tbl + 8 * (va / 2 ^ (16 + 10 * (n + 1)) % 1024)
    let w := physWord s a
    a :: if pteKind w = 1 then walkSpots s va n (pteAddr w)
      else if pteKind w = 3 ∧ n + 1 = 2 then [pteAddr w + 8 * (va / 2 ^ 30 % 64)]
      else if pteKind w = 2 ∧ n + 1 = 1 then [pteAddr w + 8 * (va / 2 ^ 21 % 32)]
      else []
/-- The errors that a walk meets in the entries it reads; the array of an uncorrectable one. -/
def walkErrs (s : State) (pkg : Nat) (job : Word) (va : Nat) (w : Consumer) : State × Option Nat :=
  match jobAt s job with
  | none => (s, none)
  | some j => (walkSpots s va 3 (j.rootTables.getD pkg 0)).foldl (fun x a => match memHome x.1 a with
    | some (h, _) =>
      let e := consume x.1 h (ctrlArr h) a (a + 8) w
      (e.1, x.2 <|> e.2.map (·.arr))
    | none => x) (s, none)
/-- The errors that a translation meets: in the entry of the tile's TLB that serves it, 16 bytes each (log 21), or on its walk, if it
walks now. -/
def xlErrs (s : State) (n : Node) (job : Word) (det walks : Bool) (va : Nat) (w : Consumer) : State × Option Nat :=
  if noErrs s ∨ 2 ^ 56 ≤ va then (s, none)
  else match (tileAt s n).tlb.findIdx? fun e => e.det = det && TlbEntry.covers e job va with
    | some i =>
      let e := consume s n 6 (16 * i) (16 * i + 16) w
      (e.1, e.2.map (·.arr))
    | none =>
      if !walks && (det || (dieTlb s n).any fun e => TlbEntry.covers e job va) then (s, none) else walkErrs s n.pkg job va w
/-- A slot's translation goes on where its errors could be corrected, and faults where they could not. -/
def xlFind (s : State) (r : SlotRef) (c : Ctx) (va : Word) (f : State → Act) : Act :=
  let find (s : State) : State × Option Nat := xlErrs s r.node c.d.job c.d.det false va.toNat (consumerOf c)
  if noErrs s then f s
  else match (find s).2 with
    | some arr => .trapIn (fun s => (find s).1) fData va (BitVec.ofNat 64 arr)
    | none => (f (find s).1).keeping fun s => (find s).1

/-! ### Misses (R238) -/

/-- Whether a miss of a unit has a supervisor that can be asked. The firmware supervisor of a root unit answers as well. -/
def canAsk (s : State) (r : SlotRef) (d : UnitDesc) : Bool :=
  d.root || (!supervises r d && holdsJob s ⟨r.pkg, d.supTile, d.supSlot⟩ d.job)
/-- Word 1 of a translation-fault message. -/
def missWord (r : SlotRef) (tok kind lvl : Nat) (eng : Bool) : Word :=
  BitVec.ofNat 64 (tok * 2 ^ 32 + kind * 2 ^ 29 + lvl * 2 ^ 27 + r.tile * 2 ^ 12 + r.slot * 2 ^ 8 + (if eng then 2 ^ 7 else 0))
/-- Sends a translation-fault message; the void word of a deterministic launch notes it (R335). -/
def tellMiss (s : State) (r : SlotRef) (c : Ctx) (va tok kind lvl : Nat) (eng : Bool) : State :=
  let s := if c.d.det then setVoid s c.d.launch 0 else s
  sendSup s r c 1 0x08 (BitVec.ofNat 64 va) (missWord r tok kind lvl eng)
/-- Registers of a unit whose region is rolled back (R252): the checkpoint with the cause word. -/
def rollCtx (c : Ctx) (g : Region) (code detail : Nat) : Ctx :=
  let e := restoreRegion c g
  setPres (setVal e (.s g.causeReg) (BitVec.ofNat 2048 (code + detail * 2 ^ 8))) (.s g.causeReg) .full
/-- Rolls back the region of a unit that is parked: it continues at the region's handler (R252). -/
def rollback (s : State) (r : SlotRef) (uid code detail : Nat) : State :=
  modUnit s r uid fun c => match c.region with
    | none => c
    | some g => { rollCtx c g code detail with pc := g.handler, park := none, asked := none, issued := c.issued + 1, readyFrom := s.now + 1 }
/-- Rolls back at issue. -/
def rollAct (s : State) (r : SlotRef) (g : Region) (code detail : Nat) : Act :=
  .jump (modCtx s r fun c => rollCtx c g code detail) g.handler
/-- Parks a unit on a miss, or refuses it at once (R238), which rolls back its region (R249, R252); a fetch, of kind 3, faults
there too (R41, R253). -/
def missAct (s : State) (r : SlotRef) (c : Ctx) (va kind lvl : Nat) : Act :=
  if !canAsk s r c.d then match c.region, kind with
    | some g, 0 | some g, 1 | some g, 2 => rollAct s r g fAccess 0
    | _, _ => .trap fAccess (BitVec.ofNat 64 va) 0
  else
    let ws := newWait s r c
    let tok := ws.1.id % 2 ^ 32
    .wait (tellMiss ws.2 r c va tok kind lvl false) ws.1.id (.xlat (BitVec.ofNat 64 va) tok) 0 0 (BitVec.ofNat 64 va)
      [BitVec.ofNat 64 kind]
/-- Cycles by which a walk is later than the 640 that a deterministic launch waits for it, as a rule 0: a later one sets bit 0 of the
launch's void word (R333). Free value, log 5. -/
def walkLate (s : State) (launch : Word) : State × Nat :=
  let k := Config.freePick s.freeCtr
  (if k = 0 then stepFree s else setVoid (stepFree s) launch 0, k)
/-- Parks a unit of a deterministic launch for its walk (R333): it goes on 640 cycles after its issue, or when the walk is ready. -/
def slowAct (s : State) (r : SlotRef) (c : Ctx) (va kind : Nat) : Act :=
  let l := walkLate s c.d.launch
  let ws := newWait l.1 r c
  .wait (push ws.2 (dueIn s r.node (639 + l.2)) phEnd (slotKey r) (.globalReplyLand ws.1 .done)) ws.1.id .reply 0 0 (BitVec.ofNat 64 va)
    [BitVec.ofNat 64 kind]
/-- Goes on with a translated address, parks, or faults (R238, R241). -/
def withXlate (s : State) (r : SlotRef) (c : Ctx) (kind : Nat) (va : Word) (f : State → Nat → Act) : Act :=
  xlFind s r c va fun s => match xlate s r.node c.d.job c.d.det kind va.toNat with
    | .ok pa s' => f s' pa
    | .slow => slowAct s r c va.toNat kind
    | .miss l => missAct s r c va.toNat kind l
    | .bad => .trap fAccess va 0

/-- A parked access goes on: its form is run again in the next cycle's start. -/
def goOn (s : State) (w : Who) : State :=
  modUnit s w.slot w.uid fun c => match c.park with
    | some p => if p.id = w.id then { c with park := some { p with kind := .cond }, asked := none } else c
    | none => c
/-- A walk of a parked access is done, or is made again after its supervisor's answer (R238, R333). -/
def walkNow (s : State) (w : Who) : State :=
  match waitOf s w with
  | none => s
  | some (c, p) =>
    if !c.d.det then goOn s w
    else
      let kind := (p.aux.getD 0 0).toNat
      let e := xlErrs s w.slot.node c.d.job true true p.va.toNat (consumerOf c)
      match e.2, walkFill e.1 w.slot.node c.d.job true kind p.va.toNat with
      | some arr, _ => faultWait e.1 w fData p.va (BitVec.ofNat 64 arr)
      | none, .ok _ s' => goOn s' w
      | none, .slow => s
      | none, .bad => faultWait e.1 w fAccess p.va 0
      | none, .miss l =>
        let s := e.1
        if !canAsk s w.slot c.d then push s s.now phLand (slotKey w.slot) (.globalReplyLand w (.fail fAccess 0))
        else
          let tok := s.no % 2 ^ 32
          let s := modUnit { s with no := s.no + 1 } w.slot w.uid fun c => { c with park := c.park.map fun p => { p with kind := .xlat p.va tok } }
          tellMiss s w.slot c p.va.toNat tok kind l false

/-! ### Virtual memory read at once, where the spec gives a read no time of its own -/

/-- Bytes at virtual addresses of a job, or the fault that stops the read and where. Page by page. -/
def virtRead (s : State) (n : Node) (job : Word) (kind : Nat) : Nat → Nat → Nat → Except Nat (List Byte)
  | 0, _, _ => .ok []
  | fuel + 1, va, len =>
    if len = 0 then .ok []
    else
      let k := min len (65536 - va % 65536)
      match walk s n.pkg job va with
      | .leaf w bits =>
        if permits w kind then
          match virtRead s n job kind fuel (va + k) (len - k) with
          | .ok l => .ok (physRead s (leafPa w bits va) k ++ l)
          | .error e => .error e
        else .error va
      | _ => .error va

/-! ### The record log (R336 to R338) -/

/-- The segment of a place: tiles, then far-memory devices; other places have none. -/
def segIx (n : Node) : Option Nat :=
  if isCompute n.id then some n.id
  else if 2100 ≤ n.id ∧ n.id < 2124 then some (2048 + (n.id - 2100)) else none
/-- Bytes of a segment: each package has an equal part of the region, in ascending order of package (log 19). -/
def segBytes (j : Job) : Nat := j.r.loglen / max 1 j.pkgs.length / 2072 / 64 * 64
/-- Size of a segment in entries (R336, R339). -/
def segSize (j : Job) : Nat := if j.r.rmode = 0 then 0 else segBytes j / 16
/-- Virtual address of an entry of a segment. -/
def entryVa (j : Job) (pkg seg ix : Nat) : Nat :=
  j.r.logva.toNat + ((j.pkgs.filter fun p => p < pkg).length * 2072 + seg) * segBytes j + 16 * ix
/-- A record entry as 16 bytes (Table 5 of chapter 14). -/
def entryBytes (e : RecEntry) : List Byte :=
  bytesOfNat 8 (e.issuer.pkg * 2 ^ 58 + e.issuer.tile * 2 ^ 46 + e.issuer.slot * 2 ^ 42 + e.seq % 2 ^ 32) ++
  bytesOfNat 8 (e.kind * 2 ^ 60 + e.aux * 2 ^ 54 + e.addr % 2 ^ 52)
/-- The record entry of 16 bytes. -/
def entryOf (b : List Byte) : RecEntry :=
  let a := natOfBytes (b.take 8)
  let w := natOfBytes (b.drop 8)
  ⟨⟨a / 2 ^ 58 % 64, a / 2 ^ 46 % 4096, a / 2 ^ 42 % 16⟩, a % 2 ^ 32, w / 2 ^ 60, w / 2 ^ 54 % 64, w % 2 ^ 52⟩
/-- Entries of a segment read from the log until one of zeros (log 19). -/
def readEntries (s : State) (j : Job) (n : Node) (seg : Nat) : Nat → Nat → List RecEntry
  | 0, _ => []
  | fuel + 1, ix =>
    match virtRead s n j.handle 0 3 (entryVa j n.pkg seg ix) 16 with
    | .ok b => if natOfBytes b = 0 then [] else entryOf b :: readEntries s j n seg fuel (ix + 1)
    | .error _ => []
/-- Writes an entry into the log. -/
def writeEntry (s : State) (j : Job) (n : Node) (seg ix : Nat) (e : RecEntry) : State :=
  match walk s n.pkg j.handle (entryVa j n.pkg seg ix) with
  | .leaf w bits => physWrite s (leafPa w bits (entryVa j n.pkg seg ix)) (entryBytes e)
  | _ => s
/-- Number of a job's segment among those of a package. -/
def segKey (job : Word) (seg : Nat) : Nat := job.toNat % 2 ^ 32 * 4096 + seg
/-- A segment. -/
def segAt (s : State) (pkg : Nat) (job : Word) (seg : Nat) : Segment := aget {} (pkgAt s pkg).segs (segKey job seg)
/-- Sets a segment. -/
def setSeg (s : State) (pkg : Nat) (job : Word) (seg : Nat) (g : Segment) : State :=
  modPkg s pkg fun p => { p with segs := aset p.segs (segKey job seg) g }
/-- Descriptor of the issuer of a recorded event, if it is still there. -/
def issuerOf (s : State) (w : Who) : Option Ctx := unitAt s w.slot w.uid
/-- Tells the supervisor of an issuer about its record segment. -/
def tellSeg (s : State) (w : Who) (cls code : Nat) (w0 w1 : Nat) : State :=
  match issuerOf s w with
  | some c => sendSup s w.slot c cls code (BitVec.ofNat 64 w0) (BitVec.ofNat 64 w1)
  | none => s
/-- Tells the supervisor of a launch of a job about a segment of a package; the firmware where the launch is none (R348, R359). -/
def tellLaunch (s : State) (r : SlotRef) (j : Job) (l : Option Launch) (cls code : Nat) (w0 w1 : Nat) : State :=
  let d : UnitDesc := match l with
    | some l => { UnitDesc.none with job := j.handle, supTile := l.d.supT, supSlot := l.d.supS }
    | none => { UnitDesc.none with job := j.handle, supTile := 2096, root := true }
  sendSup s r { Ctx.reset with d := d } cls code (BitVec.ofNat 64 w0) (BitVec.ofNat 64 w1)
/-- Tells of a logged issuer that has not come: the supervisor of the job's unit on its slot, else of the latest launch of the job
that covers its tile, else the firmware of its package. DESIGN CHOICE, log 51. -/
def tellIssuer (s : State) (r : SlotRef) (j : Job) (cls code : Nat) (w0 w1 : Nat) : State :=
  match (slotUnits (slotAt s r)).find? fun c => c.d.job = j.handle with
  | some c => sendSup s r c cls code (BitVec.ofNat 64 w0) (BitVec.ofNat 64 w1)
  | none => tellLaunch s r j ((pkgAt s r.pkg).launches.filter fun l => l.job = j.handle && l.tiles.contains r.tile).getLast? cls code w0 w1
/-- Whether the recording points of a job let every request pass: recording has ended, or the replay of the current phase, or there
is neither (R337, R338). -/
def recOff (j : Job) : Bool := j.recEnded || j.r.rmode = 0 || j.diverged = some j.phase
/-- A mismatch ends the replay of the current phase, which is cancelled (R338). -/
def diverge (s : State) (j : Job) : State :=
  let s := modJob s j.handle fun j => { j with diverged := some j.phase }
  j.pkgs.foldl (fun s p => push s s.now phEnd p (.cancelApply p ⟨j.handle, .phase, j.phase + 1⟩)) s

/-- An event reaches its recording point: whether it may be performed now, and the state after it is recorded or
matched. One that may not waits there and is presented again (R337, R338). -/
def recPoint (s : State) (n : Node) (w : Who) (job : Word) (recSeq : Option Nat) (kind aux addr : Nat) : Bool × State :=
  match recSeq, segIx n, jobAt s job with
  | some q, some i, some j =>
    if recOff j then (true, s)
    else
      let g := segAt s n.pkg job i
      let e : RecEntry := ⟨w.slot, q % 2 ^ 32, kind, aux, addr % 2 ^ 52⟩
      if j.r.rmode = 1 then
        if g.entries.length < segSize j then
          (true, writeEntry (setSeg s n.pkg job i { g with entries := g.entries ++ [e] }) j n i g.entries.length e)
        else if j.r.stop then (true, modJob (tellSeg s w 4 0x1D i 0) job fun j => { j with recEnded := true })
        else if g.stalled then (false, s)
        else (false, tellSeg (setSeg s n.pkg job i { g with stalled := true }) w 4 0x1D i 1)
      else
        let g := if g.loaded then g else { g with loaded := true, entries := readEntries s j n i (segSize j) 0 }
        match g.entries[g.pos]? with
        | none => (true, setSeg s n.pkg job i g)
        | some x =>
          if x.issuer = e.issuer ∧ x.seq = e.seq then
            if x = e then
              (true, push (setSeg s n.pkg job i { g with pos := g.pos + 1 }) (s.now + j.r.replim) phEnd i
                (.replayLimitExpiry n.pkg job i (g.pos + 1)))
            else (true, diverge (tellSeg (setSeg s n.pkg job i g) w 5 0x1C i g.pos) j)
          else (false, setSeg s n.pkg job i g)
  | _, _, _ => (true, s)

/-- The recorded-event number of a unit's next event, none in a deterministic launch (R336). -/
def recNo (c : Ctx) : Option Nat := if c.d.det then none else some c.recSeq
/-- Counts a recorded event of a unit. -/
def countRec (s : State) (r : SlotRef) (uid : Nat) : State := modUnit s r uid fun c => { c with recSeq := c.recSeq + 1 }

/-- REPLAY_LIMIT_EXPIRY: the logged issuer has not come in time (R338). -/
def evReplayLimitExpiry (pkg : Nat) (job : Word) (seg entry : Nat) (s : State) : State :=
  match jobAt s job with
  | none => s
  | some j =>
    let g := segAt s pkg job seg
    match g.entries[entry]? with
    | some e =>
      if g.pos = entry ∧ j.r.rmode = 2 ∧ !recOff j then diverge (tellIssuer s e.issuer j 5 0x1C seg entry) j else s
    | none => s

end Sys2Proof.Machine
end

