-- ==== Sys2Proof/Machine/Pad.lean ====
section
/-! DEFINITION. Scratchpads: access forms, waiting words, remote accesses and their withdrawal (R211 to R223). -/

namespace Sys2Proof.Machine

/-! ### Bytes and presence bits of a scratchpad (R211) -/

/-- Whether an access of so many bytes at a local offset is within bounds and touches no carved granule (R211, R216). -/
def padOk (t : Tile) (ea n : Nat) : Bool :=
  ea + n ≤ 2 ^ 20 && (List.range (n / 512 + 2)).all fun k =>
    let g := ea / 512 + k
    !(0xE0000 ≤ g * 512 && g * 512 < ea + n && carved t (g - 1792))
/-- Bytes of a scratchpad. -/
def padRead (t : Tile) (off n : Nat) : List Byte := cellsRead t.sp off n
/-- A slot reads bytes of its scratchpad: it goes on, or faults where they are uncorrectable (R352). -/
def padFind (s : State) (r : SlotRef) (c : Ctx) (off n : Nat) (f : State → Act) : Act := arrayFind 2 off (off + n) s r c f
/-- Writes bytes of a scratchpad. -/
def padWrite (t : Tile) (off : Nat) (b : List Byte) : Tile := { t with sp := cellsWrite t.sp off b }
/-- Writes bytes of a tile's scratchpad; errors in the words they cover are gone (R352). -/
def padStore (s : State) (n : Node) (off : Nat) (b : List Byte) : State :=
  replaceUnits (modTile s n fun t => padWrite t off b) n 2 off (off + b.length)
/-- A word of a scratchpad. -/
def padWord (t : Tile) (off : Nat) : Word := BitVec.ofNat 64 (natOfBytes (padRead t off 8))
/-- Whether a word is full. -/
def padFull (t : Tile) (off : Nat) : Bool := !t.spEmpty.contains (off / 8)
/-- Adds to an ascending list. -/
def insAsc (x : Nat) : List Nat → List Nat
  | [] => [x]
  | y :: l => if x < y then x :: y :: l else if x = y then y :: l else y :: insAsc x l
/-- Sets the presence bit of a word. -/
def padSet (t : Tile) (off : Nat) (full : Bool) : Tile :=
  { t with spEmpty := if full then t.spEmpty.filter fun w => w ≠ off / 8 else insAsc (off / 8) t.spEmpty }
/-- Writes a word and its presence bit. -/
def padPut (t : Tile) (off : Nat) (x : Word) (full : Bool) : Tile := padSet (padWrite t off (bytesOfNat 8 x.toNat)) off full

/-! ### Atomic operations (Table 9 of chapter 10) -/

/-- The new value of an atomic of so many bytes. -/
def atomNew (op : AOp) (n : Nat) (old v : Nat) : Nat :=
  let w := 8 * n
  let v := v % 2 ^ w
  match op with
  | .add => (old + v) % 2 ^ w
  | .fadd32 => (fAdd (Fmt.of .f32) Rnd.rne ((Fmt.of .f32).read old) ((Fmt.of .f32).read v)).code
  | .fadd64 => (fAdd (Fmt.of .f64) Rnd.rne ((Fmt.of .f64).read old) ((Fmt.of .f64).read v)).code
  | .min => if toSigned w old ≤ toSigned w v then old else v
  | .max => if toSigned w old ≤ toSigned w v then v else old
  | .minn => min old v
  | .maxn => max old v
  | .and => old &&& v
  | .or => old ||| v
  | .xor => old ^^^ v
  | .xchg => v
/-- Code of an atomic operation (Table 9). -/
def aopCode : AOp → Nat
  | .add => 0 | .fadd32 => 1 | .fadd64 => 2 | .min => 3 | .max => 4 | .minn => 5 | .maxn => 6 | .and => 7 | .or => 8 | .xor => 9
  | .xchg => 10

/-! ### Word operations at the home tile (R214, R219) -/

/-- Whether an operation must wait for a word. -/
def spWaits (t : Tile) (q : SpReq) : Bool :=
  match q.op with
  | .ldSync _ => !padFull t q.off
  | .stFill ovr _ => padFull t q.off && !ovr
  | _ => false
/-- Performs an operation that need not wait: the tile after it and the value it answers. -/
def spDo (t : Tile) (q : SpReq) : Tile × Word :=
  let x := padWord t q.off
  match q.op with
  | .ld => (t, x)
  | .st v => (padWrite t q.off (bytesOfNat 8 v.toNat), 0)
  | .ldSync cons => (if cons then padSet t q.off false else t, x)
  | .stFill _ v => (padPut t q.off v true, 0)
  | .stReset v => (padPut t q.off v false, 0)
  | .atom op v => (padWrite t q.off (bytesOfNat 8 (atomNew op 8 x.toNat v.toNat)), x)
  | .cas e v => (if x = e then padWrite t q.off (bytesOfNat 8 v.toNat) else t, x)
/-- Whether an operation reads its word. -/
def spReads : SpOp → Bool
  | .ld | .ldSync _ | .atom _ _ | .cas _ _ => true
  | _ => false
/-- Kind and operation code of a recorded scratchpad event (R336). -/
def spRecKind : SpOp → Option (Nat × Nat)
  | .ldSync _ => some (4, 0)
  | .stFill _ _ => some (3, 0)
  | .atom op _ => some (0, aopCode op)
  | .cas _ _ => some (1, 0)
  | _ => none
/-- The recording point of an operation. -/
def spRec (s : State) (q : SpReq) : Bool × State :=
  match spRecKind q.op with
  | some (k, a) => recPoint s q.home q.who q.job q.recSeq k a q.off
  | none => (true, s)
/-- What becomes of an operation that need not wait for its word: it finds the word uncorrectable, the record log holds it back,
or it is performed with the value it answers. -/
inductive SpEnd | bad | held | done (v : Word)
  deriving DecidableEq, Repr
/-- Serves an operation that need not wait, at its home tile: one whose old value is uncorrectable is not performed and is no
recorded event (R336, R352). -/
def spServe (s : State) (q : SpReq) : State × SpEnd :=
  let w : Consumer := ⟨q.job, ((unitAt s q.who.slot q.who.uid).map (·.d.unitix)).getD 0⟩
  let e := if spReads q.op then consume s q.home 2 q.off (q.off + 8) w else (s, none)
  if e.2.isSome then (e.1, .bad)
  else
    let p := spRec e.1 q
    if !p.1 then (p.2, .held)
    else
      let s := if spReads q.op then p.2 else replaceUnits p.2 q.home 2 q.off (q.off + 8)
      let d := spDo (tileAt s q.home) q
      (setTile s q.home d.1, .done d.2)

/-! ### Answers -/

/-- Sends the reply of a remote request (R215). -/
def spReply (s : State) (q : SpReq) (r : SpReply) : State :=
  let pin := ((unitAt s q.who.slot q.who.uid).map pinOf).getD none
  sendMsg s q.who.slot q.home q.who.slot.node 4 1 [4, 1, slotKey q.who.slot] pin true (.remoteReplyLand q r)
/-- Results of a scratchpad form that waited or was remote: its load value, extended, or nothing. -/
def spResults (i : Instr) (x : Word) : List (Reg × VVal) :=
  match i with
  | .ld _ _ _ _ _ d _ _ => [(.s d, sval x)]
  | .ldSync _ _ _ _ d _ _ => [(.s d, sval x)]
  | .atom _ _ _ _ _ d _ _ _ => [(.s d, sval x)]
  | .cas _ _ _ _ _ d _ _ _ => [(.s d, sval x)]
  | _ => []
/-- Registers that a form's latency depends on (R117). -/
def spSrcs : Instr → List Reg
  | .ldSync _ _ _ _ _ a _ => [.s a]
  | .ldvSync _ _ _ _ _ a _ => [.s a]
  | _ => []
/-- The predicate of a CAS (R246). -/
def casPred (i : Instr) (hit : Bool) : List (Reg × VVal) :=
  match i with
  | .cas _ _ _ _ p _ _ _ _ => pRes p hit
  | _ => []
/-- A local wait is served at the end of this cycle: its results land after the latency, and it issues after the next
cycle (R219, R221). -/
def serveLocal (s : State) (w : Who) (l : Nat) (ws : List (Reg × VVal)) : State :=
  match waitOf s w with
  | none => s
  | some (_, p) =>
    let s := ws.foldl (fun s (g, x) => land s w.slot w.uid g x (l + slowBy (spSrcs p.form))) s
    modUnit (countRec (finish s w id) w.slot w.uid) w.slot w.uid fun c => { c with readyFrom := s.now + 2 }

/-! ### Remote accesses (R214, R215) -/

/-- Checks of a remote address, apart from alignment (R214). -/
def remoteFault (s : State) (ea : Word) (b8 : Bool) : Option (Nat × Word) :=
  if ea.toNat / 2 ^ 20 % 2 ^ 24 ≠ 0 ∨ 2095 < (remoteHome ea).id ∨ !b8 then some (fOperand, 0)
  else if !hasPkg s (remoteHome ea).pkg then some (fAccess, ea)
  else none
/-- Sends a remote request and parks for its reply (R215). WAITLIM applies to the forms that can wait. -/
def sendRemote (s : State) (r : SlotRef) (c : Ctx) (ea : Word) (op : SpOp) (limited : Bool) : Act :=
  let ws := newWait s r c
  let rec_ := (spRecKind op).bind fun _ => recNo c
  let q : SpReq := ⟨ws.1, remoteHome ea, ea.toNat % 2 ^ 20, c.d.job, op, rec_⟩
  let s := sendMsg ws.2 r r.node q.home 3 1 [3, 1, slotKey r] (pinOf c) false (.scratchpadCycleService q.home (some (q, false)))
  .wait (asks s r c.uid q.home) ws.1.id .reply (if limited then 1 else 0) 0 ea []

/-! ### Local forms -/

/-- Asks for the scratchpad service at the end of this cycle, or of the next where this one's is over (R221). -/
def askServe (s : State) (n : Node) : State :=
  pushOnce s (max s.now (tileAt s n).servedAt) phServe (nodeKey n) (.scratchpadCycleService n none)
/-- A held store whose bytes overlap, youngest last, laid over bytes read (R251). A store to the own tile is held under its local
offset, whichever form of address it had. -/
def overlay (scratch : Bool) (hs : List HeldStore) (va : Nat) (b : List Byte) : List Byte :=
  hs.foldl (fun b h => if h.scratch = scratch then
    b.zipIdx.map fun (x, i) =>
      if h.va.toNat ≤ va + i ∧ va + i < h.va.toNat + h.data.length then h.data.getD (va + i - h.va.toNat) x else x
    else b) b
/-- Held stores of a unit. -/
def heldOf (c : Ctx) : List HeldStore := (c.region.map (·.stores)).getD []
/-- Takes a region store entry (R251). -/
def holdStore (s : State) (r : SlotRef) (c : Ctx) (h : HeldStore) : Act :=
  if 16 ≤ (heldOf c).length then .trap fRegionFull 0 0
  else .done (modCtx s r fun c => { c with region := c.region.map fun g => { g with stores := g.stores ++ [h] } })
/-- Extends a loaded value (SX). -/
def extendTo (n : Nat) (sx : Bool) (b : List Byte) : Word :=
  if sx then BitVec.ofInt 64 (toSigned (8 * n) (natOfBytes b)) else BitVec.ofNat 64 (natOfBytes b)
/-- The scope of ST.FILL and its kin: .tile, or a wider one (R220). -/
def atLeastTile : Scope → Scope
  | .slot => .tile
  | x => x
/-- The place around which the scope of a scratchpad form lies (R290). -/
def padHome (r : SlotRef) (ea : Word) : Node := if isRemote ea then remoteHome ea else r.node
/-- Checks of a scratchpad form (R218), then its local or its remote action; the local one takes the offset. An address
that names the issuing tile is performed locally (R214). -/
def padForm (ea : Word) (n al : Nat) (one : Bool) (s : State) (r : SlotRef) (loc : Nat → Act) (rem : Act) : Act :=
  if isRemote ea then
    match remoteFault s ea (one && n = 8) with
    | some (f, v) => .trap f v 0
    | none =>
      if ea.toNat % al ≠ 0 then .trap fMisaligned ea 0
      else if remoteHome ea = r.node then
        (if padOk (tileAt s r.node) (ea.toNat % 2 ^ 20) n then loc (ea.toNat % 2 ^ 20) else .trap fBounds ea 0)
      else rem
  else if ea.toNat % al ≠ 0 then .trap fMisaligned ea 0
  else if !padOk (tileAt s r.node) ea.toNat n then .trap fBounds ea 0
  else loc ea.toNat

/-- LD (R219). -/
def execLd (h : Hdr) (sz : Sz) (sc : Scope) (od : Ord) (sx : Bool) (d a : SIx) (ofs : BitVec 32) : State → Outc :=
  runForm { i := .ld h sz sc od sx d a ofs, h := h, srcs := [.s a], dsts := [.s d], rgn := true } fun s r c =>
    let ea := eaOf c a ofs
    let n := sz.bytes
    padForm ea n n true s r
      (fun off => padFind s r c off n fun s => results s r c [.s a] 6 [(.s d, sval (extendTo n sx
        (overlay true (heldOf c) off (padRead (tileAt s r.node) off n))))])
      (sendRemote s r c ea .ld false)
/-- ST (R219). -/
def execSt (h : Hdr) (sz : Sz) (sc : Scope) (od : Ord) (a b : SIx) (ofs : BitVec 32) : State → Outc :=
  runForm { i := .st h sz sc od a b ofs, h := h, srcs := [.s a, .s b], rgn := true } fun s r c =>
    let ea := eaOf c a ofs
    let n := sz.bytes
    let data := bytesOfNat n (rs c b).toNat
    let put (va : Word) (act : Act) : Act :=
      if c.region.isSome then holdStore s r c { va := va, data := data, scratch := true, sc := sc, od := od }
      else release s r c (if Ord.rel_ od then sc else .slot) r.node act
    padForm ea n n true s r (fun off => put (BitVec.ofNat 64 off) (.done (padStore s r.node off data)))
      (put ea (sendRemote s r c ea (.st (rs c b)) false))
/-- LDV (R219). -/
def execLdv (h : Hdr) (sc : Scope) (od : Ord) (d : VIx) (a : SIx) (ofs : BitVec 32) : State → Outc :=
  runForm { i := .ldv h sc od d a ofs, h := h, srcs := [.s a], dsts := [.v d] } fun s r c =>
    padForm (eaOf c a ofs) 256 8 false s r
      (fun off => padFind s r c off 256 fun s =>
        results s r c [.s a] 8 [(.v d, BitVec.ofNat 2048 (natOfBytes (padRead (tileAt s r.node) off 256)))])
      (.trap fOperand 0 0)
/-- STV (R219). -/
def execStv (h : Hdr) (sc : Scope) (od : Ord) (a : SIx) (b : VIx) (ofs : BitVec 32) : State → Outc :=
  runForm { i := .stv h sc od a b ofs, h := h, srcs := [.s a, .v b] } fun s r c =>
    padForm (eaOf c a ofs) 256 8 false s r
      (fun off => release s r c (if Ord.rel_ od then sc else .slot) r.node
        (.done (padStore s r.node off (bytesOfNat 256 (rv c b).toNat))))
      (.trap fOperand 0 0)

/-- A synchronising form on a local word: performed at once, or waiting in the word's list (R219, R221). -/
def syncLocal (s : State) (r : SlotRef) (c : Ctx) (off : Nat) (op : SpOp) (ea : Word) (ws : Word → List (Reg × VVal)) (srcs : List Reg) : Act :=
  let w := newWait s r c
  let q : SpReq := ⟨w.1, r.node, off, c.d.job, op, (spRecKind op).bind fun _ => recNo c⟩
  if spWaits (tileAt s r.node) q then
    .wait (askServe (modTile w.2 r.node fun t => { t with waiters := t.waiters ++ [⟨q, true⟩] }) r.node) w.1.id .sync 1 0 ea []
  else
    let x := spServe w.2 q
    match x.2 with
    | .bad => .trapIn (fun s => (spServe s q).1) fData (BitVec.ofNat 64 off) 2
    | .done v => results (if q.recSeq.isSome then countRec x.1 r c.uid else x.1) r c srcs 6 (ws v)
    -- held back by the record log: presented again in each cycle, without limit (R337)
    | .held => if c.park.isSome then .retry .cond 0 0 0 else .wait x.1 w.1.id .cond 0 0 ea []
/-- LD.SYNC (R219). -/
def execLdSync (h : Hdr) (sc : Scope) (od : Ord) (cons : Bool) (d a : SIx) (ofs : BitVec 32) : State → Outc :=
  runForm { i := .ldSync h sc od cons d a ofs, h := h, srcs := [.s a], dsts := [.s d] } fun s r c =>
    let ea := eaOf c a ofs
    padForm ea 8 8 true s r
      (fun off => syncLocal s r c off (.ldSync cons) ea (fun x => [(.s d, sval x)]) [.s a])
      (sendRemote s r c ea (.ldSync cons) true)
/-- ST.FILL is a release (R219, R220). -/
def execStFill (h : Hdr) (sc : Scope) (od : Ord) (ovr : Bool) (a b : SIx) (ofs : BitVec 32) : State → Outc :=
  runForm { i := .stFill h sc od ovr a b ofs, h := h, srcs := [.s a, .s b] } fun s r c =>
    let ea := eaOf c a ofs
    let rel (act : Act) : Act := release s r c (atLeastTile sc) (padHome r ea) act
    padForm ea 8 8 true s r
      (fun off => rel (syncLocal s r c off (.stFill ovr (rs c b)) ea (fun _ => []) []))
      (rel (sendRemote s r c ea (.stFill ovr (rs c b)) true))
/-- ST.RESET is a release and never waits for the word (R219, R220). -/
def execStReset (h : Hdr) (sc : Scope) (od : Ord) (a b : SIx) (ofs : BitVec 32) : State → Outc :=
  runForm { i := .stReset h sc od a b ofs, h := h, srcs := [.s a, .s b] } fun s r c =>
    let ea := eaOf c a ofs
    let rel (act : Act) : Act := release s r c (atLeastTile sc) (padHome r ea) act
    padForm ea 8 8 true s r
      (fun off => rel (.done (askServe (replaceUnits (modTile s r.node fun t => padPut t off (rs c b) false) r.node 2 off (off + 8)) r.node)))
      (rel (sendRemote s r c ea (.stReset (rs c b)) false))
/-- LDV.SYNC parks, to be examined at the end of each cycle, this one included (R219, R221). -/
def execLdvSync (h : Hdr) (sc : Scope) (od : Ord) (cons : Bool) (d : VIx) (a : SIx) (ofs : BitVec 32) : State → Outc :=
  runForm { i := .ldvSync h sc od cons d a ofs, h := h, srcs := [.s a], dsts := [.v d] } fun s r c =>
    let ea := eaOf c a ofs
    padForm ea 256 8 false s r
      (fun _ => let w := newWait s r c
        .wait (askServe w.2 r.node) w.1.id .sync 1 0 ea [])
      (.trap fOperand 0 0)

/-! ### Service at the end of a cycle (R221) -/

/-- Entries that remote requests may hold (Table 2 of chapter 09). -/
def remoteEntries : Nat := 64
/-- Removes a waiting request. -/
def dropWaiter (s : State) (n : Node) (w : Who) : State :=
  modTile s n fun t => { t with waiters := t.waiters.filter fun x => x.q.who ≠ w }
/-- Answers a withdrawal (R223). -/
def answerWithdrawal (s : State) (n : Node) (q : SpReq) : State :=
  let had := (tileAt s n).waiters.any fun x => x.q.who = q.who
  let pin := ((unitAt s q.who.slot q.who.uid).map pinOf).getD none
  sendMsg (dropWaiter s n q.who) q.who.slot n q.who.slot.node 4 1 [4, 1, slotKey q.who.slot] pin true
    (.remoteWithdrawalAnswer q.who had)
/-- Step 1 for one request. -/
def takeRemote (s : State) (n : Node) (x : SpReq × Bool) : State :=
  let q := x.1
  let t := tileAt s n
  if x.2 then answerWithdrawal s n q
  else if t.tenant ≠ some q.job then spReply s q (.refused fAccess)
  else if !padOk t q.off 8 then spReply s q (.refused fBounds)
  else
    let wait (s : State) : State :=
      if (t.waiters.filter fun w => !w.isLocal).length < remoteEntries then
        modTile s n fun t => { t with waiters := t.waiters ++ [⟨q, false⟩] }
      else spReply s q .busy
    if spWaits t q then wait s
    else
      let d := spServe s q
      match d.2 with
      | .done v => spReply d.1 q (.done v)
      | .bad => spReply d.1 q (.refused fData)
      | .held => match q.op with
        | .atom _ _ | .cas _ _ => modTile d.1 n fun t => { t with spIn := t.spIn ++ [x] }
        | _ => wait d.1
/-- Serves one waiting request whose word allows it. -/
def serveWaiter (s : State) (n : Node) (w : Waiter) : State × Bool :=
  if spWaits (tileAt s n) w.q then (s, false)
  else
    let d := spServe s w.q
    let s := dropWaiter d.1 n w.q.who
    match d.2 with
    | .held => (d.1, false)
    | .bad => (if w.isLocal then faultWait s w.q.who fData (BitVec.ofNat 64 w.q.off) 2 else spReply s w.q (.refused fData), true)
    | .done v =>
      (if w.isLocal then serveLocal s w.q.who 6 (((waitOf s w.q.who).map fun (_, k) => spResults k.form v).getD [])
        else spReply s w.q (.done v), true)
/-- Serves the list of one word: readers up to and including the first consuming one where the word is full, the first
fill where it is empty. -/
def serveWord (n : Node) (full : Bool) : List Waiter → State → State
  | [], s => s
  | w :: l, s =>
    match w.q.op with
    | .ldSync cons =>
      if full then
        let r := serveWaiter s n w
        if r.2 && cons then r.1 else serveWord n full l r.1
      else serveWord n full l s
    | .stFill _ _ =>
      if full then serveWord n full l s
      else
        let r := serveWaiter s n w
        if r.2 then r.1 else serveWord n full l r.1
    | _ => serveWord n full l s
/-- Step 2: every word with waiters, once. -/
def serveWords (s : State) (n : Node) : State :=
  ((tileAt s n).waiters.map (·.q.off)).eraseDups.foldl
    (fun s off => serveWord n (padFull (tileAt s n) off) ((tileAt s n).waiters.filter fun w => w.q.off = off) s) s
/-- The words of an LDV.SYNC. -/
def ldvWords (off : Nat) : List Nat := (List.range 32).map fun k => off + 8 * k
/-- Step 3 for one parked LDV.SYNC. -/
def examineLdv (s : State) (n : Node) (x : Nat × Ctx) : State :=
  match x.2.park with
  | some p => match p.form with
    | .ldvSync _ _ _ cons d _ _ =>
      let off := p.va.toNat
      let r : SlotRef := ⟨n.pkg, n.id, x.1⟩
      if p.kind = .sync && (ldvWords off).all (padFull (tileAt s n)) then
        let e := consume s n 2 off (off + 256) (consumerOf x.2)
        match e.2 with
        | some _ => faultWait e.1 ⟨r, x.2.uid, p.id⟩ fData (BitVec.ofNat 64 off) 2
        | none =>
          let g := recPoint e.1 n ⟨r, x.2.uid, p.id⟩ x.2.d.job (recNo x.2) 4 0 off
          if g.1 then
            let v : VVal := BitVec.ofNat 2048 (natOfBytes (padRead (tileAt g.2 n) off 256))
            let s := modTile g.2 n fun t => if cons then (ldvWords off).foldl (fun t o => padSet t o false) t else t
            serveLocal s ⟨r, x.2.uid, p.id⟩ 8 [(.v d, v)]
          else g.2
      else s
    | _ => s
  | none => s
/-- Whether a tile has parked LDV.SYNCs. -/
def ldvWaits (t : Tile) : Bool := (tileUnits t).any fun (_, c) => match c.park with
  | some p => match p.form with
    | .ldvSync _ _ _ _ _ _ _ => p.kind = .sync
    | _ => false
  | none => false
/-! ### Replies of remote accesses (R215, R223) -/

/-- What a remote form writes when its reply lands. -/
def remoteResults (c : Ctx) (q : SpReq) (i : Instr) (x : Word) (ea : Word) : List (Reg × VVal) :=
  match q.op with
  | .ld => spResults i (BitVec.ofNat 64 (natOfBytes (overlay true (heldOf c) ea.toNat (bytesOfNat 8 x.toNat))))
  | .cas e _ => spResults i x ++ casPred i (x = e)
  | _ => spResults i x
/-- REMOTE_BUSY_RESEND (R215). -/
def evRemoteBusyResend (q : SpReq) (s : State) : State :=
  match waitOf s q.who with
  | none => s
  | some (c, p) =>
    let s := modUnit s q.who.slot q.who.uid fun _ => { c with park := some { p with aux := [] } }
    sendMsg s q.who.slot q.who.slot.node q.home 3 1 [3, 1, slotKey q.who.slot] (pinOf c) false
      (.scratchpadCycleService q.home (some (q, false)))
/-- REMOTE_WITHDRAWAL_ANSWER: the slot traps where the request was removed; else its reply stands (R223). -/
def evRemoteWithdrawalAnswer (w : Who) (removed : Bool) (s : State) : State :=
  match waitOf s w with
  | some (c, p) =>
    if !removed then s
    else if p.limitDue then takeFault s w.slot w.uid fPacket 0 (BitVec.ofNat 64 ((c.packet.map (·.1)).getD 0))
    else faultWait s w fWaitLimit p.va (limitAux p)
  | none => s

end Sys2Proof.Machine
end

