-- ==== Sys2Proof/Machine/Sync.lean ====
section
/-! DEFINITION. Semaphores and barriers, and the service of a tile at the end of a cycle (R221, R224 to R230). -/

namespace Sys2Proof.Machine

/-! ### Semaphores (R224 to R226) -/

/-- Greatest value of a semaphore. -/
def semMax : Nat := 2 ^ 32 - 1
/-- A semaphore. -/
def semAt (t : Tile) (n : Nat) : Sem := aget ⟨0, false⟩ t.sems n
/-- Sets a semaphore. -/
def setSem (t : Tile) (n : Nat) (x : Sem) : Tile := { t with sems := aset t.sems n x }
/-- Adds to a semaphore: it saturates and sets its overflow bit. -/
def addSem (t : Tile) (n k : Nat) : Tile :=
  let x := semAt t n
  setSem t n (if semMax < x.val + k then ⟨semMax, true⟩ else { x with val := x.val + k })
/-- An addition by an engine or a landed packet, which takes effect at the end of the cycle (R224). -/
def semSignal (s : State) (n : Node) (sem k : Nat) : State :=
  askServe (modTile s n fun t => { t with semAdds := t.semAdds ++ [(sem, k)] }) n
/-- The units of a tile that wait on semaphores, in the order in which they parked. -/
def semWaiters (t : Tile) : List (Nat × Nat × Park) :=
  sortBy (fun a b => a.2.2.id ≤ b.2.2.id) ((tileUnits t).filterMap fun (i, c) => c.park.bind fun p => match p.kind with
    | .sem _ _ _ _ => some (i, c.uid, p)
    | _ => none)
/-- What a parked SEM.WAIT.to adds to the latency of its result, by its sources (R117; DEDUCED, log 40). -/
def semSlow : Instr → Nat
  | .semWaitTo _ _ _ _ a b => slowBy [.s a, .s b]
  | _ => 0
/-- Serves one waiter whose semaphore has reached its threshold. -/
def serveSem (s : State) (n : Node) (x : Nat × Nat × Park) : State :=
  match x.2.2.kind with
  | .sem k th dec dst =>
    let v := semAt (tileAt s n) k
    if v.val < th then s
    else
      let s := if dec then modTile s n fun t => setSem t k { v with val := v.val - th } else s
      let r : SlotRef := ⟨n.pkg, n.id, x.1⟩
      let s := match dst with
        | some d => land s r x.2.1 (.p d) (pval true) (3 + semSlow x.2.2.form)
        | none => s
      finish s ⟨r, x.2.1, x.2.2.id⟩ id
  | _ => s
/-- Commands of an engine that have not started. -/
def cmdsWait (l : List EngCmd) : Bool := l.any fun q => !q.started
/-- Asks the engines of a tile to look at their heads. -/
def askEngines (s : State) (n : Node) : State :=
  let t := tileAt s n
  let s := if cmdsWait t.copy then pushOnce s (s.now + 1) phStart (nodeKey n) (.engineCommandStart n false) else s
  if cmdsWait t.mx.cmds then pushOnce s (s.now + 1) phStart (nodeKey n) (.engineCommandStart n true) else s
/-- The additions of a cycle, summed, and then the waiting forms in order (R224). -/
def serveSems (s : State) (n : Node) : State :=
  let adds := (tileAt s n).semAdds
  let s := modTile s n fun t => { t with semAdds := [] }
  let s := (adds.map (·.1)).eraseDups.foldl (fun s k =>
    modTile s n fun t => addSem t k ((adds.filter fun a => a.1 = k).map (·.2)).sum) s
  askEngines ((semWaiters (tileAt s n)).foldl (fun s x => serveSem s n x) s) n

/-- Operands of a semaphore form have no bits above 31 (R225). -/
def semArg (x : Word) : Bool := x.toNat < 2 ^ 32
/-- A wait on a semaphore by a form with the sources src (R226). -/
def semWaitAct (src : List Reg) (n : BitVec 8) (dec : Bool) (th : Word) (too : Option (PIx × Word)) (s : State) (r : SlotRef) (c : Ctx) : Act :=
  let x := semAt (tileAt s r.node) n.toNat
  let out (b : Bool) : List (Reg × VVal) := (too.map fun o => (Reg.p o.1, pval b)).toList
  if !semArg th ∨ !((too.map fun o => semArg o.2).getD true) then .trap fOperand 0 0
  else if th.toNat ≤ x.val then
    results (modTile s r.node fun t => if dec then setSem t n.toNat { x with val := x.val - th.toNat } else t) r c src 3 (out true)
  else match too with
    | none =>
      let w := newWait s r c
      .wait w.2 w.1.id (.sem n.toNat th.toNat dec none) 2 n.toNat 0 []
    | some (d, lim) =>
      if lim = 0 then results s r c src 3 (out false)
      else
        let w := newWait s r c
        .wait (push w.2 (dueIn s r.node lim.toNat) phLate (slotKey r) (.semWaitTimeout w.1)) w.1.id (.sem n.toNat th.toNat dec (some d)) 0 0 0 []
/-- SEM.WAIT (R226). -/
def execSemWait (h : Hdr) (n : BitVec 8) (dec : Bool) (a : SIx) : State → Outc :=
  runForm { i := .semWait h n dec a, h := h, srcs := [.s a] } fun s r c => semWaitAct [.s a] n dec (rs c a) none s r c
/-- SEM.WAIT.to (R226). -/
def execSemWaitTo (h : Hdr) (n : BitVec 8) (dec : Bool) (d : PIx) (a b : SIx) : State → Outc :=
  runForm { i := .semWaitTo h n dec d a b, h := h, srcs := [.s a, .s b], dsts := [.p d] }
    fun s r c => semWaitAct [.s a, .s b] n dec (rs c a) (some (d, rs c b)) s r c
/-- SEM_WAIT_TIMEOUT: the form gives up (R226). -/
def evSemWaitTimeout (w : Who) (s : State) : State :=
  match waitOf s w with
  | some (_, p) => match p.kind with
    | .sem _ _ _ (some d) => finish (land s w.slot w.uid (.p d) (pval false) (3 + semSlow p.form)) w id
    | _ => s
  | none => s
/-- SEM.SIG (R226). -/
def execSemSig (h : Hdr) (n : BitVec 8) (a : SIx) : State → Outc :=
  runForm { i := .semSig h n a, h := h, srcs := [.s a] } fun s r c =>
    if !semArg (rs c a) then .trap fOperand 0 0
    else release s r c .tile r.node (.done (askServe (modTile s r.node fun t => addSem t n.toNat (rs c a).toNat) r.node))
/-- SEM.SET (R226). -/
def execSemSet (h : Hdr) (n : BitVec 8) (a : SIx) : State → Outc :=
  runForm { i := .semSet h n a, h := h, srcs := [.s a] } fun s r c =>
    if !semArg (rs c a) then .trap fOperand 0 0
    else release s r c .tile r.node (.done (askServe (modTile s r.node fun t => setSem t n.toNat ⟨(rs c a).toNat, false⟩) r.node))
/-- SEM.READ (R226). -/
def execSemRead (h : Hdr) (n : BitVec 8) (d : SIx) : State → Outc :=
  runForm { i := .semRead h n d, h := h, dsts := [.s d] } fun s r c =>
    let x := semAt (tileAt s r.node) n.toNat
    results s r c [] 3 [(.s d, BitVec.ofNat 2048 (x.val + (if x.ovf then 2 ^ 32 else 0)))]

/-! ### The service at the end of a cycle -/

/-- SCRATCHPAD_CYCLE_SERVICE: a request has landed, to be taken at the end of this cycle; or that end (R221). Its semaphores are served then as
well (R224). The island's
held rounds let neither happen (R365). -/
def evScratchpadCycleService (n : Node) (q : Option (SpReq × Bool)) (s : State) : State :=
  match q with
  | some x => askServe (modTile s n fun t => { t with spIn := t.spIn ++ [x] }) n
  | none =>
    let again (s : State) : State := pushOnce s (s.now + 1) phServe (nodeKey n) (.scratchpadCycleService n none)
    if isHeld s n then again s
    else
      let ins := sortBy (fun a b => slotKey a.1.who.slot ≤ slotKey b.1.who.slot) (tileAt s n).spIn
      let s := ins.foldl (fun s x => takeRemote s n x) (modTile s n fun t => { t with spIn := [], servedAt := s.now + 1 })
      let s := serveWords s n
      let s := (tileUnits (tileAt s n)).foldl (fun s x => examineLdv s n x) s
      let s := serveSems s n
      let t := tileAt s n
      if t.waiters ≠ [] ∨ t.spIn ≠ [] ∨ ldvWaits t then again s else s

/-! ### Barriers (R227 to R230) -/

/-- A barrier. -/
def barAt (s : State) (n : Node) (b : Nat) : Barrier := aget {} (tileAt s n).bars b
/-- Changes a barrier. -/
def modBar (s : State) (n : Node) (b : Nat) (f : Barrier → Barrier) : State :=
  modTile s n fun t => { t with bars := aset t.bars b (f (aget {} t.bars b)) }
/-- The launch whose pinned routes the flits of a tile take. -/
def tilePin (t : Tile) : Option Word := ((tileUnits t).find? fun x => x.2.d.det).map fun x => x.2.d.launch
/-- Sends a token or a release to another tile of the rectangle. -/
def barSend (s : State) (n : Node) (dst : Nat) (ev : Ev) : State :=
  sendMsg s ⟨n.pkg, n.id, 0⟩ n ⟨n.pkg, dst⟩ 7 1 [] (tilePin (tileAt s n)) false ev
/-- The tile's job, which tokens carry. -/
def barJob (s : State) (n : Node) : Word := (tileAt s n).tenant.getD 0
/-- A tile releases the present episode: it frees its waiting slots, advances the episode and sends the release on (R228). -/
def barRelease (s : State) (n : Node) (b : Nat) : State :=
  let x := barAt s n b
  let ws := (tileUnits (tileAt s n)).filterMap fun (i, c) => c.park.bind fun p =>
    if p.kind = .barrier b x.g then some (⟨⟨n.pkg, n.id, i⟩, c.uid, p.id⟩ : Who) else none
  let s := ws.foldl (fun s w => finish s w id) s
  let s := (tileUnits (tileAt s n)).foldl (fun s (i, c) =>
    modUnit s ⟨n.pkg, n.id, i⟩ c.uid fun c => { c with arrivals := c.arrivals.filter fun a => a ≠ (b, x.g) }) s
  let s := modBar s n b fun x =>
    { x with g := x.g + 1, arr0 := x.arr1, arr1 := 0, row0 := x.row1, row1 := 0, col0 := x.col1, col1 := 0,
             sentRow := false, sentCol := false }
  let tx := tileX n.id
  let ty := tileY n.id
  let go (s : State) (dst : Nat) : State := barSend s n dst (.barrierReleaseLand ⟨n.pkg, dst⟩ b (barJob s n))
  let s := if tx = x.x0 ∧ ty + 1 < x.y0 + x.h then go s (n.id + 64) else s
  if tx + 1 < x.x0 + x.w then go s (n.id + 1) else s
/-- Row and column sweeps of a tile, and the corner's release (R228). A lone tile that expects no arrival does nothing (DEDUCED,
log 37). -/
def barProgress : Nat → State → Node → Nat → State
  | 0, s, _, _ => s
  | fuel + 1, s, n, b =>
    let x := barAt s n b
    let tx := tileX n.id
    let ty := tileY n.id
    let row := decide (x.k ≤ x.arr0) && (tx + 1 = x.x0 + x.w || 0 < x.row0)
    if !x.armed ∨ !row ∨ (x.k = 0 ∧ x.w = 1 ∧ x.h = 1) then s
    else if x.x0 < tx then
      if x.sentRow then s
      else
        let s := modBar s n b fun x => { x with sentRow := true }
        barSend s n (n.id - 1) (.barrierTokenLand ⟨n.pkg, n.id - 1⟩ b true (barJob s n))
    else if ty + 1 = x.y0 + x.h ∨ 0 < x.col0 then
      if x.y0 < ty then
        if x.sentCol then s
        else
          let s := modBar s n b fun x => { x with sentCol := true }
          barSend s n (n.id - 64) (.barrierTokenLand ⟨n.pkg, n.id - 64⟩ b false (barJob s n))
      else barProgress fuel (barRelease s n b) n b
    else s
/-- Whether the armed instances of a tile's rectangle all have its rectangle and its K (R227). -/
def barAgree (s : State) (n : Node) (b : Nat) : Bool :=
  let x := barAt s n b
  (List.range (x.w * x.h)).all fun i =>
    let y := barAt s ⟨n.pkg, (x.y0 + i / x.w) * 64 + x.x0 + i % x.w⟩ b
    !y.armed || (y.x0 = x.x0 && y.y0 = x.y0 && y.w = x.w && y.h = x.h && y.k = x.k)
/-- What an arrival, a token, a release or an arming brings about (R228). Where the arms of the tiles disagree, a release is
unspecified: it may come early or never (R227). Free value, log 5. -/
def barServe (s : State) (n : Node) (b : Nat) : State :=
  if !(barAt s n b).armed ∨ barAgree s n b then barProgress 3 s n b
  else if Config.freeBool s.freeCtr then barRelease (stepFree s) n b else stepFree s
/-- BARRIER_TOKEN_LAND: discarded at another tenant's tile; held for the present episode, or for the next (R227, R230). -/
def evBarrierTokenLand (n : Node) (b : Nat) (row : Bool) (job : Word) (s : State) : State :=
  if (tileAt s n).tenant ≠ some job then s
  else
    let s := modBar s n b fun x =>
      if row then (if x.row0 = 0 then { x with row0 := 1 } else { x with row1 := 1 })
      else if x.col0 = 0 then { x with col0 := 1 } else { x with col1 := 1 }
    barServe s n b
/-- BARRIER_RELEASE_LAND (R228). -/
def evBarrierReleaseLand (n : Node) (b : Nat) (job : Word) (s : State) : State :=
  if (tileAt s n).tenant ≠ some job ∨ !(barAt s n b).armed then s else barServe (barRelease s n b) n b

/-- BAR.ARM (R230). -/
def execBarArm (h : Hdr) (n : BitVec 7) (a b : SIx) : State → Outc :=
  runForm { i := .barArm h n a b, h := h, srcs := [.s a, .s b] } fun s r c =>
    let v := (rs c a).toNat
    let x0 := v % 256
    let y0 := v / 2 ^ 8 % 256
    let w := v / 2 ^ 16 % 256
    let ht := v / 2 ^ 24 % 256
    let inside := x0 ≤ tileX r.tile ∧ tileX r.tile < x0 + w ∧ y0 ≤ tileY r.tile ∧ tileY r.tile < y0 + ht
    if 96 ≤ n.toNat ∨ (barAt s r.node n.toNat).armed ∨ !isCompute r.tile ∨ w = 0 ∨ ht = 0 ∨ 64 < x0 + w ∨ 32 < y0 + ht ∨ ¬inside ∨
        2 ^ 32 ≤ v ∨ 16 < (rs c b).toNat then .trap fOperand 0 0
    else
      let s := modBar s r.node n.toNat fun x =>
        { x with armed := true, x0 := x0, y0 := y0, w := w, h := ht, k := (rs c b).toNat, g := 0, arr0 := 0, arr1 := 0,
                 sentRow := false, sentCol := false }
      .done (barServe s r.node n.toNat)
/-- Counts an arrival of the slot, a release at scope .pkg, then goes on with the episode it counts for (R228, R230). -/
def barArriveAct (n : BitVec 7) (s : State) (r : SlotRef) (c : Ctx) (f : State → Nat → Act) : Act :=
  let x := barAt s r.node n.toNat
  if 96 ≤ n.toNat ∨ !x.armed ∨ x.k = 0 then .trap fOperand 0 0
  else if !releaseOk s r c.uid .pkg r.node then .retry .cond 3 n.toNat 0
  else if x.arr0 < x.k ∨ x.arr1 < x.k then
    let ep := if x.arr0 < x.k then x.g else x.g + 1
    let s := modBar s r.node n.toNat fun x => if x.arr0 < x.k then { x with arr0 := x.arr0 + 1 } else { x with arr1 := x.arr1 + 1 }
    let s := modCtx s r fun c => { c with arrivals := (n.toNat, ep) :: c.arrivals.filter fun a => a.1 ≠ n.toNat }
    f (barServe s r.node n.toNat) ep
  else .retry .cond 3 n.toNat 0
/-- Waits for the release of an episode (R230). -/
def barWaitAct (n : BitVec 7) (s : State) (r : SlotRef) : Act :=
  let c := ctxAt s r
  match c.arrivals.find? fun a => a.1 = n.toNat with
  | none => .done s
  | some (_, ep) =>
    let w := newWait s r c
    .wait w.2 w.1.id (.barrier n.toNat ep) 3 n.toNat 0 []
/-- BAR.ARRIVE (R230). -/
def execBarArrive (h : Hdr) (n : BitVec 7) : State → Outc :=
  runForm { i := .barArrive h n, h := h } fun s r c => barArriveAct n s r c fun s _ => .done s
/-- BAR.WAIT (R230). -/
def execBarWait (h : Hdr) (n : BitVec 7) : State → Outc :=
  runForm { i := .barWait h n, h := h } fun s r _ => if 96 ≤ n.toNat then .trap fOperand 0 0 else barWaitAct n s r
/-- BAR.SYNC (R230). -/
def execBarSync (h : Hdr) (n : BitVec 7) : State → Outc :=
  runForm { i := .barSync h n, h := h } fun s r c => barArriveAct n s r c fun s _ => barWaitAct n s r
/-- BAR.DISARM (R230). -/
def execBarDisarm (h : Hdr) (n : BitVec 7) : State → Outc :=
  runForm { i := .barDisarm h n, h := h } fun s r _ =>
    let x := barAt s r.node n.toNat
    let waits := (tileUnits (tileAt s r.node)).any fun (_, c) => match c.park with
      | some p => match p.kind with
        | .barrier b _ => b = n.toNat
        | _ => false
      | none => false
    if 96 ≤ n.toNat ∨ x.arr0 + x.arr1 + x.row0 + x.row1 + x.col0 + x.col1 ≠ 0 ∨ waits then .trap fOperand 0 0
    else .done (modTile s r.node fun t => { t with bars := aerase t.bars n.toNat })

end Sys2Proof.Machine
end

