-- ==== Sys2Proof/Machine/Global.lean ====
section
/-! DEFINITION. Global memory: access and atomic forms, memory controllers, remote regions (R240 to R253, R332). -/

namespace Sys2Proof.Machine

/-! ### Requests (R241, R242, R309) -/

/-- Flits of a request (R303): a store of more than 8 bytes has a head and one flit for each 32 bytes. -/
def reqFlits (op : MemOp) : Nat :=
  match op with
  | .store d => if d.length ≤ 8 then 1 else 1 + ceilDiv d.length 32
  | _ => 1
/-- The pinned route to a home, if the launch has one; a request without sets bit 7 of its void word (R309, R335). -/
def pinRoute (s : State) (det : Bool) (launch : Word) (home : Node) : Option Word × State :=
  if !det then (none, s)
  else match launchAt s launch with
    | some l => if l.routes.contains (nodeKey home) then (some launch, s) else (none, setVoid s launch 7)
    | none => (none, s)
/-- The pinned route of a unit to a home. -/
def pinTo (s : State) (c : Ctx) (home : Node) : Option Word × State := pinRoute s c.d.det c.d.launch home
/-- Sends a request to the home controller of a physical address. -/
def sendReq (s : State) (r : SlotRef) (c : Ctx) (home : Node) (pa : Nat) (va : Word) (op : MemOp) (posted : Bool) (id : Nat)
    (rec_ : Option Nat) : State :=
  let q : MemReq := ⟨⟨r, c.uid, id⟩, (ctxAt s r).memSeq, pa, va, c.d.job, op, c.d.det, rec_, posted, false⟩
  let s := modUnit s r c.uid fun c => { c with memSeq := c.memSeq + 1, asked := if posted then c.asked else some home }
  let p := pinTo s c home
  sendMsg p.2 r r.node home 3 (reqFlits op) [10, slotKey r, nodeKey home] p.1 false (.memoryMergeStep home (some q))
/-- The home of a physical address for a slot, or why it may not go there: device registers are for system mode, and a
deterministic launch does not read the host window (R232, R334). -/
def homeFor (s : State) (r : SlotRef) (c : Ctx) (pa : Nat) (store : Bool) : Option (Node × MemKind) :=
  match memHome s pa with
  | some (n, .regs) => if systemMode r then some (n, .regs) else none
  | some (n, .host) => if c.d.det && !store then none else some (n, .host)
  | x => x

/-- Stores in the MEMWR window (Table 8 of chapter 10). -/
def storeWindow : Nat := 16
/-- Posted stores of a slot whose credits have not landed, whichever unit of it has posted them. -/
def postedOut (s : State) (r : SlotRef) : Nat :=
  (s.outs.filter fun o => o.slot = r && o.home.isSome && o.va.toNat < 2 ^ 62).length
/-- Posts a store: it is outstanding under the identity given until its credit lands. -/
def postStore (s : State) (r : SlotRef) (c : Ctx) (home : Node × MemKind) (pa : Nat) (va : Word) (b : List Byte) (id : Nat) : State :=
  let s := addOut s (storeOut r c id (some home.1) (decide (home.2 = .host)) va)
  sendReq s r c home.1 pa va (.store b) true id none
/-- Checks of an address: R231, then alignment (R241). -/
def addrFault (va : Word) (n : Nat) : Option Nat :=
  if 2 ^ 56 ≤ va.toNat then some fAccess else if va.toNat % n ≠ 0 then some fMisaligned else none

/-- A load: it parks for its reply (R241). -/
def loadAct (va : Word) (n : Nat) (s : State) (r : SlotRef) (c : Ctx) : Act :=
  match addrFault va n with
  | some f => .trap f va 0
  | none => withXlate s r c 0 va fun s pa =>
    match homeFor s r c pa false with
    | none => .trap fAccess va 0
    | some h =>
      let w := newWait s r c
      .wait (sendReq w.2 r c h.1 pa va (.load n) false w.1.id none) w.1.id .reply 0 0 va []
/-- A store: held in a region, else posted in its turn; with seq_cst the slot parks until its credit lands (R241, R242,
R296). A released store waits first for what its scope covers. -/
def storeAct (va : Word) (b : List Byte) (sc : Scope) (od : Ord) (s : State) (r : SlotRef) (c : Ctx) : Act :=
  match addrFault va b.length with
  | some f => .trap f va 0
  | none =>
    if c.region.isSome then withXlate s r c 1 va fun s pa =>
      match homeFor s r c pa true with
      | none => .trap fAccess va 0
      | some _ => holdStore s r c { va := va, data := b, scratch := false, sc := sc, od := od }
    else if storeWindow ≤ postedOut s r then .retry .cond 0 0 0
    else release s r c (if Ord.rel_ od then sc else .slot) r.node <| withXlate s r c 1 va fun s pa =>
      match homeFor s r c pa true with
      | none => .trap fAccess va 0
      | some h =>
        let w := newWait s r c
        let s := postStore w.2 r c h pa va b w.1.id
        if od = .sc then .wait s w.1.id .reply 0 0 va [] else .done s

/-- GLD (R241). -/
def execGld (h : Hdr) (sz : Sz) (sc : Scope) (od : Ord) (sx : Bool) (d a : SIx) (ofs : BitVec 32) : State → Outc :=
  runForm { i := .gld h sz sc od sx d a ofs, h := h, srcs := [.s a], dsts := [.s d], rgn := true }
    fun s r c => loadAct (eaOf c a ofs) sz.bytes s r c
/-- GLDV (R241). -/
def execGldv (h : Hdr) (sz : Sz) (sc : Scope) (od : Ord) (d : VIx) (a : SIx) (ofs : BitVec 32) : State → Outc :=
  runForm { i := .gldv h sz sc od d a ofs, h := h, srcs := [.s a], dsts := [.v d] }
    fun s r c => loadAct (eaOf c a ofs) sz.bytes s r c
/-- GST (R241). -/
def execGst (h : Hdr) (sz : Sz) (sc : Scope) (od : Ord) (a b : SIx) (ofs : BitVec 32) : State → Outc :=
  runForm { i := .gst h sz sc od a b ofs, h := h, srcs := [.s a, .s b], rgn := true }
    fun s r c => storeAct (eaOf c a ofs) (bytesOfNat sz.bytes (rs c b).toNat) sc od s r c
/-- GSTV (R241). -/
def execGstv (h : Hdr) (sz : Sz) (sc : Scope) (od : Ord) (a : SIx) (b : VIx) (ofs : BitVec 32) : State → Outc :=
  runForm { i := .gstv h sz sc od a b ofs, h := h, srcs := [.s a, .v b] }
    fun s r c => storeAct (eaOf c a ofs) (bytesOfNat sz.bytes (rv c b).toNat) sc od s r c
/-- GPREF translates, and does nothing where that fails; its hint changes no result (R241). -/
def execGpref (h : Hdr) (sz : Sz) (sc : Scope) (a : SIx) (ofs : BitVec 32) : State → Outc :=
  runForm { i := .gpref h sz sc a ofs, h := h, srcs := [.s a], rgn := true } fun s r c =>
    let e := xlErrs s r.node c.d.job c.d.det false (eaOf c a ofs).toNat (consumerOf c)
    match e.2, xlate e.1 r.node c.d.job c.d.det 0 (eaOf c a ofs).toNat with
    | none, .ok _ s' => .done s'
    | _, _ => .done e.1

/-! ### Atomics (R245, R246, R251) -/

/-- Whether a size is within an operation's column (Table 9). -/
def aopSize (op : AOp) (n : Nat) : Bool :=
  match op with
  | .fadd32 => n = 4
  | .fadd64 => n = 8
  | _ => true
/-- Whether an operation may act on a remote scratchpad. -/
def aopRemote : AOp → Bool
  | .fadd32 => false
  | _ => true
/-- The request of an atomic form with its operand and expected value. -/
def atomOp (i : Instr) (n : Nat) (v e : Word) : MemOp :=
  match i with
  | .atom _ _ _ _ op _ _ _ _ => .atom op n v
  | .atomDet _ _ _ _ op _ _ _ _ => .atomDet op n v
  | _ => .cas n (e &&& BitVec.ofNat 64 (2 ^ (8 * n) - 1)) v
/-- The request of an atomic form on a scratchpad word. -/
def atomSpOp (i : Instr) (v e : Word) : SpOp :=
  match i with
  | .atom _ _ _ _ op _ _ _ _ => .atom op v
  | _ => .cas e v
/-- AUX of an atomic form (R245). -/
def atomAux : Instr → Nat
  | .atom _ _ _ _ op _ _ _ _ => aopCode op
  | .atomDet _ _ _ _ op _ _ _ _ => aopCode op
  | .cas _ _ _ _ p _ _ _ _ => p.toNat
  | _ => 0
/-- Sources of an atomic form, on which its latency at the own scratchpad depends (R117). -/
def atomSrcs : Instr → List Reg
  | .atom _ _ _ _ _ _ a b _ => [.s a, .s b]
  | .cas _ _ _ _ _ d a b _ => [.s a, .s b, .s d]
  | _ => []
/-- Sends an atomic and parks for its reply. -/
def sendAtom (i : Instr) (va : Word) (n : Nat) (v e : Word) (s : State) (r : SlotRef) (c : Ctx) : Act :=
  if isRemote va then sendRemote s r c va (atomSpOp i v e) false
  else withXlate s r c 2 va fun s pa =>
    match homeFor s r c pa false with
    | none => .trap fAccess va 0
    | some h =>
      let w := newWait s r c
      .wait (sendReq w.2 r c h.1 pa va (atomOp i n v e) false w.1.id (recNo c)) w.1.id .reply 0 0 va []
/-- An atomic form: its checks, then it is held in a region, performed on the own scratchpad, or sent (R246, R251). -/
def atomAct (i : Instr) (va : Word) (n : Nat) (v e : Word) (sizeOk remoteOk : Bool) (sc : Scope) (od : Ord) (s : State)
    (r : SlotRef) (c : Ctx) : Act :=
  if !sizeOk then .trap fOperand 0 0
  else if va.toNat % n ≠ 0 then .trap fMisaligned va 0
  else if isRemote va ∧ (!remoteOk ∨ n ≠ 8) then .trap fOperand 0 0
  else
    let bad := if isRemote va then remoteFault s va true else if 2 ^ 56 ≤ va.toNat then some (fAccess, va) else none
    match bad with
    | some (f, x) => .trap f x 0
    | none => match c.region with
      | some g =>
        if g.atomic.isSome then .trap fRegion 0 0
        else .done (modCtx s r fun c => (heldDsts i).foldl (fun c d => if realReg d then setPres c d .pending else c)
          { c with region := some { g with atomic := some (i, va, v, e) } })
      | none => release s r c (if Ord.rel_ od then sc else .slot) r.node <|
        if isRemote va ∧ remoteHome va = r.node then
          let off := va.toNat % 2 ^ 20
          if !padOk (tileAt s r.node) off 8 then .trap fBounds va 0
          else syncLocal s r c off (atomSpOp i v e) va (fun x => spResults i x ++ casPred i (x = e)) (atomSrcs i)
        else sendAtom i va n v e s r c
/-- ATOM (R246). -/
def execAtom (h : Hdr) (sz : Sz) (sc : Scope) (od : Ord) (op : AOp) (d a b : SIx) (ofs : BitVec 32) : State → Outc :=
  let i := Instr.atom h sz sc od op d a b ofs
  runForm { i := i, h := h, srcs := [.s a, .s b], dsts := [.s d], rgn := true } fun s r c =>
    atomAct i (eaOf c a ofs) sz.bytes (rs c b) 0 (aopSize op sz.bytes) (aopRemote op) sc od s r c
/-- CAS reads its destination (R246). -/
def execCas (h : Hdr) (sz : Sz) (sc : Scope) (od : Ord) (p : BitVec 3) (d a b : SIx) (ofs : BitVec 32) : State → Outc :=
  let i := Instr.cas h sz sc od p d a b ofs
  runForm { i := i, h := h, srcs := [.s a, .s b, .s d], dsts := [.s d] ++ pDst p, rgn := true } fun s r c =>
    let e := rs c d &&& BitVec.ofNat 64 (2 ^ (8 * sz.bytes) - 1)
    atomAct i (eaOf c a ofs) sz.bytes (rs c b) e true true sc od s r c
/-- ATOM.DET (R246, R247). -/
def execAtomDet (h : Hdr) (sz : Sz) (sc : Scope) (od : Ord) (op : AOp) (d a b : SIx) (ofs : BitVec 32) : State → Outc :=
  let i := Instr.atomDet h sz sc od op d a b ofs
  runForm { i := i, h := h, srcs := [.s a, .s b], dsts := [.s d], rgn := true } fun s r c =>
    atomAct i (eaOf c a ofs) sz.bytes (rs c b) 0 (aopSize op sz.bytes) false sc od s r c

/-! ### Controllers (R243, R244, R247, R248, R332) -/

/-- The consumer that a request stands for. -/
def reqConsumer (s : State) (q : MemReq) : Consumer := ⟨q.job, ((unitAt s q.who.slot q.who.uid).map (·.d.unitix)).getD 0⟩
/-- Bytes at an address of a controller: memory, or the device registers of BAR 0. -/
def ctrlRead (s : State) (pa n : Nat) : List Byte :=
  if 0x3F0000000000 ≤ pa % 2 ^ 46 then cellsRead s.bar0 pa n else physRead s pa n
/-- Writes bytes at an address of a controller. -/
def ctrlWrite (s : State) (c : Node) (pa : Nat) (b : List Byte) : State :=
  if 0x3F0000000000 ≤ pa % 2 ^ 46 then { s with bar0 := cellsWrite s.bar0 pa b }
  else replaceUnits (physWrite s pa b) c (ctrlArr c) pa (pa + b.length)
/-- Kind and operation code of a recorded request. -/
def reqRec : MemOp → Option (Nat × Nat)
  | .atom op _ _ => some (0, aopCode op)
  | .cas _ _ _ => some (1, 0)
  | .atomDet op _ _ => some (2, aopCode op)
  | _ => none
/-- An atomic step at a controller: the old value is uncorrectable, and the step is not performed and is no recorded event; or the
record log holds it back; or the new value is written (R246, R336, R352). -/
def ctrlAtom (s : State) (c : Node) (q : MemReq) (n : Nat) (f : Nat → Nat) : State × Option MemReply :=
  let e := consume s c (ctrlArr c) q.pa (q.pa + n) (reqConsumer s q)
  match e.2 with
  | some _ => (e.1, some (.fail fData (BitVec.ofNat 64 (ctrlArr c))))
  | none =>
    let g := match reqRec q.op with
      | some (k, a) => recPoint e.1 c q.who q.job q.recSeq k a q.pa
      | none => (true, e.1)
    if !g.1 then (g.2, none)
    else
      let old := natOfBytes (ctrlRead g.2 q.pa n)
      (ctrlWrite g.2 c q.pa (bytesOfNat n (f old)), some (.old (BitVec.ofNat 64 old)))
/-- Performs a request: none where the record log holds it back. -/
def perform (s : State) (c : Node) (q : MemReq) : State × Option MemReply :=
  let atomic (n : Nat) (f : Nat → Nat) : State × Option MemReply :=
    if c.id = 2124 then (s, some (.fail fAtomic 0)) else ctrlAtom s c q n f
  match q.op with
  | .load n =>
    let e := consume s c (ctrlArr c) q.pa (q.pa + n) (reqConsumer s q)
    match e.2 with
    | some _ => (e.1, some (.fail fData (BitVec.ofNat 64 (ctrlArr c))))
    | none => (e.1, some (.data (ctrlRead e.1 q.pa n)))
  | .store b =>
    if partUnit (tileAt s c) (ctrlArr c) q.pa (q.pa + b.length) then (s, some (.fail fData (BitVec.ofNat 64 (ctrlArr c))))
    else (ctrlWrite s c q.pa b, some .done)
  | .atom op n v => atomic n fun old => atomNew op n old v.toNat
  | .atomDet op n v => atomic n fun old => atomNew op n old v.toNat
  | .cas n e v => atomic n fun old => if old = e.toNat then v.toNat % 2 ^ (8 * n) else old
  | .pull p =>
    let e := p.parts.foldl (fun (x : State × Bool) (pa, len) =>
      let e := consume x.1 c (ctrlArr c) pa (pa + len) (reqConsumer s q)
      (e.1, x.2 || e.2.isSome)) (s, false)
    if e.2 then (e.1, some (.fail fData (BitVec.ofNat 64 (ctrlArr c))))
    else (e.1, some (.data (p.parts.flatMap fun (pa, len) => ctrlRead e.1 pa len)))
/-- Whether a request is one of ATOM.DET. -/
def isDetAtom (q : MemReq) : Bool :=
  match q.op with
  | .atomDet _ _ _ => true
  | _ => false
/-- When a reply leaves: 112 cycles after its window for an ATOM.DET (R380; DEDUCED, log 39), fixed for deterministic launches; else unspecified, a
free value (R332, log 5). -/
def replyDue (s : State) (c : Node) (q : MemReq) : Nat × State :=
  if isDetAtom q ∧ c.id ≠ 2124 then (s.now + 112, s)
  else if q.det then (s.now + (if isCompute c.id ∨ c.id = 2124 then 112 else 232), s)
  else (s.now + Config.freeLatency s.freeCtr, stepFree s)
/-- Asks for the merge step of a cycle. -/
def askMerge (s : State) (c : Node) (t : Nat) : State := pushOnce s t phMerge (nodeKey c) (.memoryMergeStep c none)
/-- Performs a request and has its reply sent in time; one held back is presented again in the next cycle. -/
def performReply (s : State) (c : Node) (q : MemReq) : State :=
  let x := perform s c q
  match x.2 with
  | some a =>
    let d := replyDue x.1 c q
    push d.2 d.1 phLand (slotKey q.who.slot) (.controllerReplySend c q a)
  | none => askMerge (modCtrl x.1 c fun k => { k with landed := k.landed ++ [q] }) c (s.now + 1)
/-- Order of a merge step: issuer index, then request number (R243). -/
def reqBefore (a b : MemReq) : Bool :=
  slotKey a.who.slot < slotKey b.who.slot || (slotKey a.who.slot = slotKey b.who.slot && a.seq ≤ b.seq)
/-- Applies a window's entries in ascending issuer index (R247). -/
def applyWindow (s : State) (c : Node) (es : List MemReq) : State := (sortBy reqBefore es).foldl (fun s q => performReply s c q) s
/-- Opens a window with its first entry. -/
def openWindow (s : State) (c : Node) (q : MemReq) : State :=
  let n := (ctrlAt s c).winNo + 1
  let s := modCtrl s c fun k => { k with winNo := n, win := some (n, s.now + 63, [q]) }
  push s (s.now + 63) phMerge (2 ^ 41 + nodeKey c) (.atomDetWindowApply c n)
/-- An ATOM.DET enters the holding buffer (R247). -/
def enterWindow (s : State) (c : Node) (q : MemReq) : State :=
  match (ctrlAt s c).win with
  | none => openWindow s c q
  | some (n, fin, es) =>
    if es.length < 16 then modCtrl s c fun k => { k with win := some (n, fin, es ++ [q]) }
    else openWindow (applyWindow (modCtrl s c fun k => { k with win := none }) c es) c q
/-- ATOM_DET_WINDOW_APPLY (R247). -/
def evAtomDetWindowApply (c : Node) (win : Nat) (s : State) : State :=
  match (ctrlAt s c).win with
  | some (n, _, es) => if n = win then applyWindow (modCtrl s c fun k => { k with win := none }) c es else s
  | none => s
/-- Place of a cycle within the refresh period of a tile's vault; below 160 it lies in a window (Table 2 of chapter 14). -/
def refreshPhase (s : State) (c : Node) : Nat := (cycleOf s c.pkg + 2048 - c.id % 16 * 128) % 2048
/-- MEMORY_MERGE_STEP: a request has landed; or the end of the cycle, when those landed are applied in order (R243). One that
lands in a refresh window of a vault waits for its last cycle (R332). -/
def evMemoryMergeStep (c : Node) (q : Option MemReq) (s : State) : State :=
  match q with
  | some q =>
    if isCompute c.id ∧ refreshPhase s c < 160 then
      let fin := s.now + 159 - refreshPhase s c
      pushOnce (modCtrl s c fun k => { k with held := k.held ++ [q] }) fin phLand (2 ^ 41 + nodeKey c) (.refreshWindowEnd c)
    else askMerge (modCtrl s c fun k => { k with landed := k.landed ++ [q] }) c s.now
  | none =>
    let l := sortBy reqBefore (ctrlAt s c).landed
    let s := modCtrl s c fun k => { k with landed := [] }
    let s := (l.filter fun q => !isDetAtom q).foldl (fun s q => performReply s c q) s
    (l.filter isDetAtom).foldl (fun s q =>
      if c.id = 2124 then performReply s c q else enterWindow s c q) s
/-- REFRESH_WINDOW_END (R332). -/
def evRefreshWindowEnd (c : Node) (s : State) : State :=
  askMerge (modCtrl s c fun k => { k with landed := k.landed ++ k.held, held := [] }) c s.now
/-- Flits of a reply. -/
def replyFlits : MemReply → Nat
  | .data b => max 1 (ceilDiv b.length 32)
  | _ => 1
/-- The launch on whose behalf a deterministic request was made: of its command, its unbound store, or its unit. -/
def reqLaunch (s : State) (q : MemReq) : Option Word :=
  if q.engine then ((tileAt s q.who.slot.node).copy.find? fun x => x.id = q.who.id / 2 ^ 64).map (·.launch)
  else match unitAt s q.who.slot q.who.uid with
    | some u => some u.d.launch
    | none => (s.outs.find? fun o => o.id = q.who.id).map (·.launch)
/-- The pinned route of a reply: the way back of its request's, if that had one (R309). -/
def replyPin (s : State) (c : Node) (q : MemReq) : Option Word := (reqLaunch s q).bind fun h => (pinRoute s q.det h c).1
/-- The data flits of a copy or exchange packet, 32 bytes each (R304). -/
def packetFlits (p : CopyPkt) : Nat → List (Nat × Byte) → List (Nat × Option Ev)
  | 0, _ => []
  | n + 1, ws =>
    let fin := decide (ws.length ≤ 32)
    (6, some (.copyPacketLand { p with writes := ws.take 32, last := fin })) :: if fin then [] else packetFlits p n (ws.drop 32)
/-- Sends a copy or exchange packet: its head and its data flits (R272, R304). -/
def sendPacket (s : State) (src : SlotRef) (from_ : Node) (p : CopyPkt) (ws : List (Nat × Byte)) (space : List Nat) (pin : Option Word) : State :=
  sendParts s src from_ p.dst ((5, none) :: packetFlits p (ws.length + 1) ws) space pin false (.copyPacketLand p)
/-- Acknowledges a packet or store of a copy command. -/
def sendAck (s : State) (src : SlotRef) (from_ owner : Node) (cmd num code : Nat) (pin : Option Word) : State :=
  sendMsg s src from_ owner 4 1 [] pin true (.copyPacketAck owner cmd num code)
/-- CONTROLLER_REPLY_SEND: a reply leaves, or the packet of a pull (R276, R332). -/
def evControllerReplySend (c : Node) (q : MemReq) (a : MemReply) (s : State) : State :=
  let pin := replyPin s c q
  let r := q.who.slot
  match q.engine, q.op, a with
  | true, .pull p, .data b =>
    sendPacket s r c ⟨r.node, p.who.id, p.num, r.node, p.job, [], p.dst, true, p.rsem⟩ (p.dst.zip b) [5, p.who.id, 1, nodeKey c] pin
  | true, _, .fail code _ => sendAck s r c r.node (q.who.id / 2 ^ 64) (q.who.id % 2 ^ 64) code pin
  | true, _, _ => sendAck s r c r.node (q.who.id / 2 ^ 64) (q.who.id % 2 ^ 64) 0 pin
  | false, _, _ => sendMsg s r c r.node 4 (replyFlits a) [11, slotKey r, nodeKey c] pin true
    (if q.posted then .postedStoreCreditLand q.who a else .globalReplyLand q.who a)
/-- PULL_REQUEST_SERVE: a home controller takes the request for its part of a packet, in the merge step of its landing cycle, or of
the last cycle of a refresh window (R276, R332). -/
def evPullRequestServe (p : PullReq) (s : State) : State :=
  evMemoryMergeStep p.home (some ⟨{ p.who with id := p.who.id * 2 ^ 64 + p.num }, p.num, (p.parts.head?.map (·.1)).getD 0, 0, p.job, .pull p,
    p.det, none, false, true⟩) s
/-- POSTED_STORE_CREDIT_LAND: the store is known to be performed, or was dropped, which its supervisor is told (R241, R249,
R296). -/
def evPostedStoreCreditLand (w : Who) (a : MemReply) (s : State) : State :=
  let s := match a, s.outs.find? fun o => o.id = w.id with
    | .fail code _, some o => reportStore s o code
    | _, _ => s
  finish (performed s w.id) w id

/-! ### Remote regions (R250 to R252) -/

/-- RGN.BEGIN waits for every pending register, one that awaits a spawn return among them, under WAITLIM then (R91, R222, R250). -/
def execRgnBegin (h : Hdr) (d : SIx) (off : BitVec 48) : State → Outc :=
  runForm { i := .rgnBegin h d off, h := h, dsts := [.s d], rgn := true } fun s r c =>
    let t := branchTo c off
    if c.region.isSome then .trap fRegion 0 0
    else match targetFault t with
      | some f => .trap f t 0
      | none =>
        match (List.range 64).find? fun i => presOf c (.s (BitVec.ofNat 6 i)) = .ret with
        | some i => .retry .cond 4 i 0
        | none =>
        if c.sP.toList.contains .pending ∨ c.pP.toList.contains .pending ∨ c.kP.toList.contains .pending then .retry .cond 0 0 0
        else
          let g : Region := {
            beginPc := c.pc, handler := t, causeReg := d, s := c.s, sP := c.sP, k := c.k, kP := c.kP, p := c.p, pP := c.pP,
            stores := [], atomic := none }
          .done (modCtx s r fun c => { c with region := some g })
/-- RGN.ABORT (R252). -/
def execRgnAbort (h : Hdr) : State → Outc :=
  runForm { i := .rgnAbort h, h := h, rgn := true } fun s r c =>
    match c.region with
    | none => .trap fOperand 0 0
    | some g => rollAct s r g 0 1
/-- Removes the oldest held store. -/
def popStore (s : State) (r : SlotRef) : State :=
  modCtx s r fun c => { c with region := c.region.map fun g => { g with stores := g.stores.tail } }
/-- Notes under which identity the oldest held store was sent. -/
def markStore (s : State) (r : SlotRef) (id : Nat) : State :=
  modCtx s r fun c => { c with region := c.region.map fun g =>
    { g with stores := (g.stores.take 1).map (fun x => { x with sent := some id }) ++ g.stores.tail } }
/-- A commit that must wait parks, to be looked at again in each cycle; moved tells that something has been released since it was
last parked. -/
def drainPark (moved : Bool) (s : State) (r : SlotRef) : Act :=
  if moved then
    let w := newWait s r (ctxAt s r)
    .wait w.2 w.1.id .cond 0 0 0 []
  else .retry .cond 0 0 0
/-- A store of a committed region that cannot be performed is dropped and reported (R249). -/
def dropStore (s : State) (r : SlotRef) (c : Ctx) (va : Word) (code : Nat) : State :=
  reportStore (popStore s r) (storeOut r c 0 none false va) code
/-- Releases the held stores in program order, as far as their orders, the window and remote conversations allow, and then closes
the region (R252): one with a release order waits as a release does (R294), a seq_cst one until it is performed (R296), one that
misses translation as any store does (R238). -/
def drainStores : Nat → Bool → State → SlotRef → Act
  | 0, _, s, _ => .done s
  | fuel + 1, moved, s, r =>
    let c := ctxAt s r
    match heldOf c with
    | [] => .done (modCtx s r fun c => { c with region := none })
    | st :: _ =>
      match st.sent with
      | some id => if s.outs.any fun o => o.id = id then drainPark moved s r else drainStores fuel true (popStore s r) r
      | none =>
        if Ord.rel_ st.od && !releaseOk s r c.uid st.sc r.node then drainPark moved s r
        else if st.scratch then
          if isRemote st.va then sendRemote s r c st.va (.st (BitVec.ofNat 64 (natOfBytes st.data))) false
          else drainStores fuel true (padStore (popStore s r) r.node st.va.toNat st.data) r
        else if storeWindow ≤ postedOut s r then drainPark moved s r
        else
          let e := xlErrs s r.node c.d.job c.d.det false st.va.toNat (consumerOf c)
          let s := e.1
          if e.2.isSome then drainStores fuel true (dropStore s r c st.va fData) r
          else match xlate s r.node c.d.job c.d.det 1 st.va.toNat with
          | .ok pa s => match homeFor s r c pa true with
            | some h =>
              let w := newWait s r c
              let s := postStore w.2 r c h pa st.va st.data w.1.id
              drainStores fuel true (if st.od = .sc then markStore s r w.1.id else popStore s r) r
            | none => drainStores fuel true (dropStore s r c st.va fAccess) r
          | .slow => slowAct s r c st.va.toNat 1
          | .miss l =>
            if canAsk s r c.d then missAct s r c st.va.toNat 1 l else drainStores fuel true (dropStore s r c st.va fAccess) r
          | .bad => drainStores fuel true (dropStore s r c st.va fAccess) r
/-- Whether the held atomic is a CAS. -/
def heldCas (g : Region) : Bool :=
  match g.atomic with
  | some (.cas _ _ _ _ _ _ _ _ _, _, _, _) => true
  | _ => false
/-- Bytes of an atomic form. -/
def atomSize : Instr → Nat
  | .atom _ sz _ _ _ _ _ _ _ => sz.bytes
  | .cas _ sz _ _ _ _ _ _ _ => sz.bytes
  | .atomDet _ sz _ _ _ _ _ _ _ => sz.bytes
  | _ => 8
/-- Scope that an atomic form's release role waits for. -/
def atomScope : Instr → Scope
  | .atom _ _ sc od _ _ _ _ _ => if Ord.rel_ od then sc else .slot
  | .cas _ _ sc od _ _ _ _ _ => if Ord.rel_ od then sc else .slot
  | .atomDet _ _ sc od _ _ _ _ _ => if Ord.rel_ od then sc else .slot
  | _ => .slot
/-- A register that a commit's atomic writes. -/
def atomResults (i : Instr) (e old : Word) : List (Reg × VVal) :=
  spResults i old ++ casPred i (old = e) ++ match i with
    | .atomDet _ _ _ _ _ d _ _ _ => [(Reg.s d, sval old)]
    | _ => []
/-- The region of a commit whose atomic has been answered: its stores are to be released. -/
def Region.answered (g : Region) : Region := { g with atomic := none, committing := true }
/-- RGN.COMMIT: the held atomic is performed on the own scratchpad, or sent and awaited; then the stores are released (R214, R252). -/
def execRgnCommit (h : Hdr) (cc : Bool) : State → Outc :=
  runForm { i := .rgnCommit h cc, h := h, rgn := true } fun s r c =>
    match c.region with
    | none => .trap fOperand 0 0
    | some g =>
      if g.committing then drainStores 33 false s r
      else if cc && !heldCas g then .trap fOperand 0 0
      else match g.atomic with
        | none => drainStores 33 false (modCtx s r fun c => { c with region := some g.answered }) r
        | some (i, va, v, e) => release s r c (atomScope i) r.node <|
          if isRemote va ∧ remoteHome va = r.node then
            let off := va.toNat % 2 ^ 20
            if !padOk (tileAt s r.node) off 8 then .trap fBounds va 0
            else
              let w := newWait s r c
              let x := spServe w.2 ⟨w.1, r.node, off, c.d.job, atomSpOp i v e, recNo c⟩
              match x.2 with
              | .bad => .trapIn (fun s => (spServe s ⟨w.1, r.node, off, c.d.job, atomSpOp i v e, recNo c⟩).1) fData (BitVec.ofNat 64 off) 2
              | .held => if c.park.isSome then .retry .cond 0 0 0 else .wait x.1 w.1.id .cond 0 0 va []
              | .done old =>
                let s := countRec x.1 r c.uid
                if cc && old ≠ e then rollAct s r g 0 2
                else
                  let s := modCtx s r fun c => { c with region := some g.answered }
                  drainStores 33 true ((atomResults i e old).foldl (fun s (d, x) =>
                    land s r c.uid d x (6 + slowBy (atomSrcs i))) s) r
          else sendAtom i va (atomSize i) v e s r c
/-- The reply of a commit's atomic, a recorded event: its destination has its value, or the region rolls back (R252, R336). -/
def commitAtom (s : State) (w : Who) (g : Region) (cc : Bool) (old : Word) : State :=
  match g.atomic with
  | none => s
  | some (i, _, _, e) =>
    let s := countRec s w.slot w.uid
    if cc && old ≠ e then rollback s w.slot w.uid 0 2
    else
      goOn (modUnit s w.slot w.uid fun c =>
        (atomResults i e old).foldl (fun c (d, x) => if realReg d then putReg c d x else c)
          { c with region := some g.answered }) w
/-- The store of a commit that a remote tile has answered: it leaves the region, reported where it failed (R249, R252). -/
def storeAnswered (s : State) (w : Who) (c : Ctx) (p : Park) (code : Option Nat) : State :=
  let s := match code with
    | some k => reportStore s (storeOut w.slot c 0 none false (if p.va = 0 then ((heldOf c).head?.map (·.va)).getD 0 else p.va)) k
    | none => s
  goOn (modUnit s w.slot w.uid fun c => { c with region := c.region.map fun g => { g with stores := g.stores.tail } }) w
/-- Whether a park is a commit that releases its stores. -/
def drains (c : Ctx) (p : Park) : Bool :=
  match p.form, c.region with
  | .rgnCommit _ _, some g => g.committing
  | _, _ => false
/-- REMOTE_REPLY_LAND (R215, R252). -/
def evRemoteReplyLand (q : SpReq) (a : SpReply) (s : State) : State :=
  match waitOf s q.who with
  | none => s
  | some (c, p) =>
    match a with
    | .done x => match p.form, c.region with
      | .rgnCommit _ cc, some g => if g.committing then storeAnswered s q.who c p none else commitAtom s q.who g cc x
      | _, _ =>
        let s := finish s q.who fun c => (remoteResults c q p.form x p.va).foldl (fun c (g, v) => if realReg g then putReg c g v else c) c
        if q.recSeq.isSome then countRec s q.who.slot q.who.uid else s
    | .refused f =>
      if drains c p then storeAnswered s q.who c p (some f) else faultWait s q.who f p.va (if f = fData then 2 else 0)
    | .busy =>
      if p.kind = .withdraw then evRemoteWithdrawalAnswer q.who true s
      else
        let s := modUnit s q.who.slot q.who.uid fun _ => { c with park := some { p with aux := [1] } }
        push s (dueIn s q.who.slot.node 64) phLand (slotKey q.who.slot) (.remoteBusyResend q)

/-! ### Replies of loads and atomics (R241, R246, R249) -/

/-- What a global form writes when its reply lands. -/
def globalResults (c : Ctx) (i : Instr) (va : Word) (a : MemReply) : List (Reg × VVal) :=
  match i, a with
  | .gld _ sz _ _ sx d _ _, .data b => [(.s d, sval (extendTo sz.bytes sx (overlay false (heldOf c) va.toNat b)))]
  | .gldv _ _ _ _ d _ _, .data b => [(.v d, BitVec.ofNat 2048 (natOfBytes b))]
  | .atom _ _ _ _ _ d _ _ _, .old x => [(.s d, sval x)]
  | .atomDet _ _ _ _ _ d _ _ _, .old x => [(.s d, sval x)]
  | .cas _ sz _ _ _ d _ _ _, .old x => [(.s d, sval x)] ++ casPred i (x = rs c d &&& BitVec.ofNat 64 (2 ^ (8 * sz.bytes) - 1))
  | _, _ => []
/-- Whether a form is a recorded atomic. -/
def isAtomic : Instr → Bool
  | .atom _ _ _ _ _ _ _ _ _ => true
  | .cas _ _ _ _ _ _ _ _ _ => true
  | .atomDet _ _ _ _ _ _ _ _ _ => true
  | _ => false
/-- A failure reply: a region rolls back, else the slot faults (R248, R249, R252). Uncorrectable data is a fault of the slot
in a region too (R352), and so is a fetch (R41). A store that a commit releases is dropped and reported (R249). -/
def failReply (s : State) (w : Who) (c : Ctx) (p : Park) (code : Nat) (aux : Word) : State :=
  let i := match c.region.bind (·.atomic), p.form with
    | some (i, _, _, _), .rgnCommit _ _ => i
    | _, i => i
  let fetches := (parkToken p).isSome && p.aux.getD 0 0 = 3
  if drains c p then storeAnswered s w c p (some code)
  else if c.region.isSome ∧ code ≠ fData ∧ !fetches then
    rollback s w.slot w.uid code (if code = fPeerReset ∧ aux.toNat / 2 ^ 8 % 2 = 1 then 1 else 0)
  else faultWait s w code p.va (if code = fAtomic then BitVec.ofNat 64 (atomAux i) else aux)

end Sys2Proof.Machine
end

