-- ==== Sys2Proof/Machine/Protocols.lean ====
section
/-! DEFINITION. Protocol images, endpoints, the opening and closing of channels, message forms and delegation (R155 to R190). -/

namespace Sys2Proof.Machine

/-! ### Reads of virtual memory by pieces (R162, R263, R105) -/

/-- The bytes that a form has read so far: they are kept while it is parked for the next piece. -/
def gotBytes (c : Ctx) : List Byte := ((c.park.map (·.aux)).getD []).map fun x => x.setWidth 8
/-- The piece of a read that begins at an address: it ends at a page boundary at the latest. -/
def pieceLen (va left : Nat) : Nat := min left (4096 - va % 4096)
/-- A piece of a read has landed: the form goes on with all it has read (R162). -/
def morePiece (s : State) (w : Who) (b : List Byte) : State :=
  modUnit s w.slot w.uid fun c => { c with park := c.park.map fun p =>
    { p with kind := .cond, aux := p.aux ++ b.map fun x => x.setWidth 64 }, asked := none }
/-- Parks for the next piece of a read of so many bytes. -/
def readPiece (s : State) (r : SlotRef) (c : Ctx) (va : Word) (need : Nat) : Act :=
  let got := gotBytes c
  let a := va + BitVec.ofNat 64 got.length
  let n := pieceLen a.toNat (need - got.length)
  let keep (x : Act) : Act := match x with
    | .wait s id k lk lx va _ => .wait s id k lk lx va (got.map fun b => b.setWidth 64)
    | x => x
  if 2 ^ 56 ≤ a.toNat then .trap fAccess a 0
  else keep <| withXlate s r c 0 a fun s pa =>
    match homeFor s r c pa false with
    | none => .trap fAccess a 0
    | some h =>
      let w := newWait s r c
      .wait (sendReq w.2 r c h.1 pa a (.load n) false w.1.id none) w.1.id .reply 0 0 a []
/-- Goes on with so many bytes once they have been read. -/
def withBytes (s : State) (r : SlotRef) (c : Ctx) (va : Word) (need : Nat) (f : List Byte → Act) : Act :=
  if (gotBytes c).length < need then readPiece s r c va need else f (gotBytes c)

/-! ### Image checks (R157 to R162) -/

/-- Splits a list into runs of the lengths given. -/
def splitRuns {α : Type} : List Nat → List α → List (List α)
  | [], _ => []
  | n :: ns, l => l.take n :: splitRuns ns (l.drop n)
/-- Field checks of a transition: reason 3 of Table 7. -/
def Trans.ok (nsm1 : Nat) (t : Trans) : Bool :=
  let zero := t.ty = 0 && t.cls = 0 && t.size = 0
  t.next ≤ nsm1 && t.cls ≤ 4 && t.size ≤ 128 &&
  match t.act with
  | .send | .recv => t.ty ≤ 62 && (t.cls ≠ 1 || 1 ≤ t.size) && (t.cls ≠ 2 || 8 ≤ t.size)
  | .select | .offer | .close => zero
  | .delegOut | .delegIn => t.ty = 63 && t.cls = 0 && t.size = 1
/-- Whether the values of a function on the transitions of an action are distinct. -/
def distinctOn (ts : List Trans) (a : PAct) (f : Trans → Nat) : Bool := ((ts.filter fun t => t.act = a).map f).Nodup
/-- Whether the transitions of a state make one of the kinds of R158. -/
def kindOk (ts : List Trans) : Bool :=
  (ts.all fun t => t.act.active) && distinctOn ts .send (·.ty) && distinctOn ts .select (·.label) &&
      (ts.filter fun t => t.act = .delegOut).length ≤ 1 ||
  (ts.all fun t => t.act.passive) && distinctOn ts .recv (·.ty) && distinctOn ts .offer (·.label) &&
      (ts.filter fun t => t.act = .delegIn).length ≤ 1 ||
  ts.map (·.act) = [.close]
/-- The states reachable within so many edges. -/
def reach (m : PImage) : Nat → List Nat → List Nat
  | 0, l => l
  | n + 1, l => reach m n ((l ++ l.flatMap fun q => (m.edges q).map (·.next)).eraseDups)
/-- Whether every state has a path to a recovery state. -/
def recoverable (m : PImage) : Bool := (List.range m.states.length).all fun q => (reach m m.states.length [q]).any m.isRec
/-- Longest paths of so many edges at most, by state, over the edges chosen. -/
def longest (m : PImage) (ok : PAct → Bool) : Nat → List Nat
  | 0 => m.states.map fun _ => 0
  | n + 1 =>
    let d := longest m ok n
    m.states.map fun ts => ((ts.filter fun t => ok t.act).map fun t => 1 + d.getD t.next 0).foldl max 0
/-- The look-ahead over the edges chosen; none where they contain a cycle and there is no window (R161). -/
def lookAhead (m : PImage) (ok : PAct → Bool) : Option Nat :=
  if m.window ≠ 0 then some (if m.states.any fun ts => ts.any fun t => ok t.act then m.window else 0)
  else
    let d := (longest m ok (m.states.length + 1)).foldl max 0
    if m.states.length < d then none else some d

/-- What the bytes read so far allow: how many are needed, a failed check, or the image (R157, R162). -/
inductive ImgRead | need (n : Nat) | bad (reason : Nat) | ok (m : PImage)
/-- Reads an image from its bytes. Padding bytes of the state table that are not zero have no reason in Table 7 and are ignored, as the
digest is taken over an image whose padding is zero. DESIGN CHOICE, log 55. -/
def readImage (b : List Byte) : ImgRead :=
  if b.length < 16 then .need 16
  else
    let w := natOfBytes (b.take 8)
    let n := w / 2 ^ 6 % 32 + 1
    let init := w / 2 ^ 11 % 32
    let recm := w / 2 ^ 32
    let tbl := 16 + (n + 3) / 4 * 4
    if w % 16 ≠ 12 ∨ w / 16 % 4 ≠ 1 then .bad 1
    else if n ≤ init ∨ 2 ^ n ≤ recm then .bad 2
    else if b.length < tbl then .need tbl
    else
      let counts := ((b.drop 16).take n).map (·.toNat)
      if counts.any fun k => k < 1 ∨ 4 < k then .bad 2
      else if b.length < tbl + 4 * counts.sum then .need (tbl + 4 * counts.sum)
      else
        let words := (List.range counts.sum).map fun i => natOfBytes ((b.drop (tbl + 4 * i)).take 4)
        match words.mapM Trans.ofWord with
        | none => .bad 3
        | some ts =>
          let m : PImage := { PImage.none_ with
            states := splitRuns counts ts, recmask := recm, maxpay := w / 2 ^ 24 % 256, window := w / 2 ^ 16 % 256, init := init }
          if !ts.all (Trans.ok (n - 1)) then .bad 3
          else if m.maxpay ≠ (ts.map (·.size)).foldl max 0 then .bad 4
          else if !m.states.all kindOk then .bad 5
          else if !recoverable m then .bad 6
          else if m.digestOf.toNat ≠ natOfBytes ((b.drop 8).take 8) then .bad 7
          else .ok { m with digest := m.digestOf, dual := m.dualOf.digestOf }

/-- Where an image lies in array 5: 4096 bytes for each index, behind the descriptors (log 21). -/
def imgByte (i : Nat) : Nat := 4096 * (i + 1)
/-- Marks a slot's unit as a holder of an image. -/
def holdImage (s : State) (n : Node) (i : Nat) (h : Nat × Nat) : State :=
  modTile s n fun t => { t with images := t.images.map fun (k, m) =>
    (k, if k = i ∧ !m.holders.contains h then { m with holders := m.holders ++ [h] } else m) }
/-- Installs an image, or finds it among those that the job has loaded on the tile (R162). One with the digest of a built-in image
gets an index from 8 to 31 like any other: R162 does not say whether the job has a built-in image. DESIGN CHOICE, log 56. -/
def installImage (s : State) (r : SlotRef) (c : Ctx) (m : PImage) (d : SIx) : Act :=
  let t := tileAt s r.node
  let fin (s : State) (i : Nat) : Act :=
    .done (modCtx (holdImage s r.node i (r.slot, c.uid)) r fun c => putReg c (.s d) (BitVec.ofNat 2048 i))
  match t.images.find? fun x => x.2.job = c.d.job ∧ x.2.digest = m.digest with
  | some (i, _) => fin s i
  | none => match (List.range 24).find? fun k => !ahas t.images (8 + k) with
    | none => .trap fResource 0 0x10
    | some k => fin (modTile (replaceUnits s r.node 5 (imgByte (8 + k)) (imgByte (8 + k) + 560)) r.node fun t => { t with images := aset t.images (8 + k) { m with job := c.d.job } }) (8 + k)
/-- PROT.LOAD (R162): the slot parks for what the image needs, and its checks. -/
def execProtLoad (h : Hdr) (d a : SIx) (ofs : BitVec 32) : State → Outc :=
  runForm { i := .protLoad h d a ofs, h := h, srcs := [.s a], dsts := [.s d] } fun s r c =>
    let va := eaOf c a ofs
    if va.toNat % 16 ≠ 0 then .trap fMisaligned va 0
    else match readImage (gotBytes c) with
    | .need n => readPiece s r c va n
    | .bad k => .trap fDescriptor va (BitVec.ofNat 64 k)
    | .ok m => match lookAhead m PAct.active, lookAhead m PAct.passive with
      | some x, some y => installImage s r c { m with laSend := x, laRecv := y } d
      | _, _ => .trap fLookAhead va 0
/-- PROT.FREE (R163). -/
def execProtFree (h : Hdr) (a : SIx) : State → Outc :=
  runForm { i := .protFree h a, h := h, srcs := [.s a] } fun s r c =>
    let i := (rs c a).toNat
    if i < 8 ∨ 31 < i ∨ !(imageOf s r.node i).holders.contains (r.slot, c.uid) then .trap fOperand 0 0
    else .done (sweepImages (modTile s r.node fun t => { t with images := t.images.map fun (k, m) =>
      (k, if k = i then { m with holders := m.holders.filter fun h => h ≠ (r.slot, c.uid) } else m) }) r.node)

/-! ### Endpoints (R155, R156) -/

/-- Address of an endpoint (R164). -/
def epAddr (e : EpRef) : Word := BitVec.ofNat 64 (3 * 2 ^ 62 + e.pkg * 2 ^ 56 + e.tile * 2 ^ 44 + e.ep)
/-- The endpoint that an address names (R164). -/
def epOfAddr (x : Word) : Option EpRef :=
  let v := x.toNat
  if v / 2 ^ 62 ≠ 3 ∨ v / 2 ^ 7 % 2 ^ 37 ≠ 0 ∨ 2099 < v / 2 ^ 44 % 4096 then none
  else some ⟨v / 2 ^ 56 % 64, v / 2 ^ 44 % 4096, v % 128⟩
/-- An endpoint of a slot's tile. -/
def ownEp (r : SlotRef) (e : EIx) : EpRef := ⟨r.pkg, r.tile, e.toNat⟩
/-- The fault of an endpoint that is not owned (R155). -/
def notOwned (e : Nat) : Act := .trap fNotOwned 0 (BitVec.ofNat 64 e)

/-- EP.GET (R156). -/
def execEpGet (h : Hdr) (d a : SIx) : State → Outc :=
  runForm { i := .epGet h d a, h := h, srcs := [.s a], dsts := [.s d] } fun s r c =>
    let x := (rs c a).toNat
    let free (i : Nat) : Bool := ((tileAt s r.node).epAt i).st = .free
    let give (s : State) (v : Word) : Act := results s r c [.s a] 3 [(.s d, sval v)]
    if 128 < x then .trap fOperand 0 0
    else match (if x = 128 then (List.range 128).find? free else if free x then some x else none) with
      | none => give s (BitVec.allOnes 64)
      | some i => give (modEp s ⟨r.pkg, r.tile, i⟩ fun x => { x with st := .idle, owner := some (r.slot, c.uid), job := c.d.job })
          (BitVec.ofNat 64 i)
/-- EP.PUT (R156). -/
def execEpPut (h : Hdr) (a : SIx) : State → Outc :=
  runForm { i := .epPut h a, h := h, srcs := [.s a] } fun s r c =>
    let x := (rs c a).toNat
    if 127 < x then .trap fOperand 0 0
    else if !ownsEp s r c.uid x then notOwned x
    else if (c.packet.map (·.1)) = some x then .trap fOperand 0 0
    else .done (putEp s ⟨r.pkg, r.tile, x⟩ fClosed)

/-! ### Opening (R164 to R166) -/

/-- The image a slot may open a channel under (R165). -/
def heldImage (s : State) (r : SlotRef) (c : Ctx) (x : Word) : Option PImage :=
  let i := x.toNat
  if i = 7 then some (builtIn 7)
  else if i < 8 ∨ 31 < i then none
  else
    let m := imageOf s r.node i
    if m.holders.contains (r.slot, c.uid) then some m else none
/-- Returns an opening or accepting endpoint to idle, its buffer released (R165). -/
def revertEp (s : State) (e : EpRef) : State :=
  modEp (releaseBuf (dropMsgs s e) e) e fun x => { x with st := .idle, expect := none }
/-- The request of an opening endpoint. -/
def openReqOf (s : State) (w : Who) (e : EpRef) (job : Word) : OpenReq :=
  let x := epAt s e
  let m := imageOf s e.node x.img
  ⟨w, e, x.peer, job, m.digest, x.gen, decide (m.window ≠ 0)⟩
/-- Prepares an endpoint for a channel under an image, ok telling whether the address that the form names is valid: the image is read
(R352), and the buffer is carved last (R161, R165). -/
def prepEp (s : State) (r : SlotRef) (c : Ctx) (ep : EIx) (img : Word) (ok : Bool) (f : PImage → State → EpRef → Act) : Act :=
  let e := ownEp r ep
  if !ownsEp s r c.uid ep.toNat then notOwned ep.toNat
  else if (epAt s e).st ≠ .idle then .trap fOperand 0 0
  else match heldImage s r c img with
    | none => .trap fOperand 0 0
    | some m =>
      if !ok then .trap fOperand 0 0
      else arrayFind 5 (imgByte img.toNat) (imgByte img.toNat + 560) s r c fun s => match carve (tileAt s r.node) m.bufBytes with
      | none => .trap fBuffer 0 0
      | some g => f m (modEp s e fun x => { x with
          img := img.toNat, q := m.init, gran := g, inbox := [], part := none, early := [], rxSeq := 0, txSeq := 0, resv := [], cursor := 0,
          unread := 0, pkt := none, pstate := 0, cause := 0, fwd := none, parties := [] }) e
/-- The space in which a slot's open request and its withdrawal keep their order. -/
def openSpace (r : SlotRef) (t : EpRef) : List Nat := [1, slotKey r, nodeKey t.node]
/-- CH.OPEN (R165). -/
def execChOpen (h : Hdr) (ep : EIx) (a b : SIx) : State → Outc :=
  runForm { i := .chOpen h ep a b, h := h, srcs := [.s a, .s b] } fun s r c =>
    let addr := epOfAddr (rs c a)
    let t := addr.getD ⟨0, 0, 0⟩
    prepEp s r c ep (rs c b) addr.isSome fun _ s e =>
      let w := newWait s r c
      let s := modEp w.2 e fun x => { x with st := .opening, peer := t, gen := (x.gen + 1) % 256 }
      let q := openReqOf s w.1 e c.d.job
      let s := if hasPkg s t.pkg then
          sendMsg s r e.node t.node 1 1 (openSpace r t) (pinOf c) false (.openRequestLand q)
        else push s (s.now + 24) phLand (slotKey r) (.openReplyLand q (.refused 4))
      .wait (asks s r c.uid t.node) w.1.id .reply 5 0 0 []
/-- CH.ACCEPT (R165). A request held already is taken at the end of this cycle. -/
def execChAccept (h : Hdr) (ep : EIx) (d a b : SIx) : State → Outc :=
  runForm { i := .chAccept h ep d a b, h := h, srcs := [.s a, .s b], dsts := [.s d] } fun s r c =>
    prepEp s r c ep (rs c b) (rs c a = 0 || (epOfAddr (rs c a)).isSome) fun _ s e =>
      let w := newWait s r c
      let held := (epAt s e).held
      let s := modEp w.2 e fun x => { x with st := .accepting, expect := epOfAddr (rs c a), held := none }
      let s := match held with
        | some q => push s s.now phLand (slotKey r) (.openRequestLand q)
        | none => s
      .wait s w.1.id .reply 5 0 0 []
/-- The destination of a CH.ACCEPT. -/
def acceptDst : Instr → SIx
  | .chAccept _ _ d _ _ => d
  | _ => 0
/-- Sends the reply to an open request. -/
def replyOpen (s : State) (q : OpenReq) (o : OpenOutcome) : State :=
  sendMsg s q.who.slot q.target.node q.opener.node 4 1 [] (whoPin s q.who) true (.openReplyLand q o)
/-- An accepting endpoint takes a request (R165, R166). -/
def takeOpen (s : State) (e : EpRef) (q : OpenReq) (r : SlotRef) (uid : Nat) (p : Park) : State :=
  let x := epAt s e
  let m := imageOf s e.node x.img
  let w : Who := ⟨r, uid, p.id⟩
  if m.dual = q.digest then
    let s := modEp s e fun x => { x with st := .opened, peer := q.opener, peerGen := q.gen, gen := (x.gen + 1) % 256, expect := none }
    finish (replyOpen s q (.accepted (epAt s e).gen)) w fun c => putReg c (.s (acceptDst p.form)) (sval (epAddr q.opener))
  else faultWait (revertEp (replyOpen s q (.mismatch m.digest)) e) w fMismatch 0 q.digest
/-- An open request reaches an endpoint of a tile (R166). -/
def landOpen (s : State) (q : OpenReq) : State :=
  let e := q.target
  let x := epAt s e
  let no (k : Nat) : State := refuseOpen s e.node q k
  if x.st = .free then no 1
  else match x.owner with
  | none => no 2
  | some (l, u) =>
    let r : SlotRef := ⟨e.pkg, e.tile, l⟩
    match unitAt s r u with
    | none => no 1
    | some c =>
      if c.d.job ≠ q.job then no 1
      else match x.st with
      | .idle => if x.held.isSome then no 2 else modEp s e fun x => { x with held := some q }
      | .accepting =>
        if x.expect ≠ none ∧ x.expect ≠ some q.opener then no 5
        else match c.park with
          | some p => takeOpen s e q r u p
          | none => no 2
      | _ => no 2
/-- OPEN_REPLY_LAND (R165). -/
def evOpenReplyLand (q : OpenReq) (o : OpenOutcome) (s : State) : State :=
  let x := epAt s q.opener
  if x.st ≠ .opening ∨ x.gen ≠ q.gen ∨ (waitOf s q.who).isNone then s
  else match o with
  | .accepted g =>
    let s := modEp s q.opener fun x => { x with st := .opened, peer := q.target, peerGen := g }
    finish (applyFlits (x.early.length + 1) s q.opener) q.who id
  | .mismatch d => faultWait (revertEp s q.opener) q.who fMismatch 0 d
  | .refused k => faultWait (revertEp s q.opener) q.who fClosed 0 (BitVec.ofNat 64 k)
/-- OPEN_WITHDRAWAL_LAND (R165). -/
def evOpenWithdrawalLand (q : OpenReq) (s : State) : State :=
  let has : Bool := match (epAt s q.target).held with
    | some h => h.who = q.who
    | none => false
  let s := if has then modEp s q.target fun x => { x with held := none } else s
  sendMsg s q.who.slot q.target.node q.opener.node 4 1 [] (whoPin s q.who) true (.openWithdrawalAnswerLand q.who has)
/-- The endpoint that an opening form names. -/
def openEp (r : SlotRef) : Instr → EpRef
  | .chOpen _ ep _ _ => ownEp r ep
  | .chAccept _ ep _ _ _ => ownEp r ep
  | _ => ⟨0, 0, 0⟩
/-- OPEN_WITHDRAWAL_ANSWER_LAND: the open is off, or stands and completes by its reply (R165). -/
def evOpenWithdrawalAnswerLand (w : Who) (held : Bool) (s : State) : State :=
  match waitOf s w with
  | none => s
  | some (c, p) =>
    if held then
      let s := revertEp s (openEp w.slot p.form)
      if p.limitDue then takeFault s w.slot w.uid fPacket 0 (BitVec.ofNat 64 ((c.packet.map (·.1)).getD 0))
      else faultWait s w fWaitLimit 0 (limitAux p)
    else modUnit s w.slot w.uid fun c => { c with park := c.park.map fun p => { p with kind := .reply } }

/-! ### Closing and status (R185, R186, R190) -/

/-- FAULTAUX of the strainer (R167). -/
def strainAux (ep q step : Nat) : Word := BitVec.ofNat 64 (ep + q * 2 ^ 8 + step * 2 ^ 13)
/-- Makes an endpoint idle, its buffer and binding released. -/
def idleEp (s : State) (e : EpRef) : State :=
  let s := detachOf (releaseBuf (dropPacket (dropMsgs s e) e) e) e
  sweepImages (modEp s e fun x => { st := .idle, owner := x.owner, gen := x.gen, job := x.job, held := x.held }) e.node
/-- CH.CLOSE (R185). -/
def execChClose (h : Hdr) (ep : EIx) : State → Outc :=
  runForm { i := .chClose h ep, h := h } fun s r c =>
    let e := ownEp r ep
    let x := epAt s e
    if !ownsEp s r c.uid ep.toNat then notOwned ep.toNat
    else if x.st = .opened then
      if ((imageOf s e.node x.img).edges x.q).any fun t => t.act = .close then .done (idleEp s e)
      else .trap fProtocol 0 (strainAux ep.toNat x.q 6)
    else if x.st = .idle then .done s else .done (idleEp s e)
/-- CH.ABORT (R186). -/
def execChAbort (h : Hdr) (ep : EIx) : State → Outc :=
  runForm { i := .chAbort h ep, h := h } fun s r c =>
    if !ownsEp s r c.uid ep.toNat then notOwned ep.toNat else .done (abortEp s (ownEp r ep) fClosed)
/-- Kind of a message: 0 data, 1 label, 2 delegation; and its type or label (Table 10). -/
def msgKind : ChMsg → Nat × Nat
  | .data mt _ => (0, mt)
  | .label l => (1, l)
  | .deleg .. => (2, 63)
/-- The channel status word (Table 12). STATE and PIX of an idle endpoint are 0 after EP.GET and CH.CLOSE, and those of the attempt after an
open that has failed: R190 states them for no idle endpoint. DESIGN CHOICE, log 61. -/
def stateWord (x : Endpoint) : Nat :=
  let st := match x.st with
    | .opened => 1
    | .peerClosed => 2
    | .aborted => 3
    | _ => 0
  let head := match x.inbox with
    | m :: _ => (msgBytes m - x.cursor) * 2 ^ 14 + (msgKind m).2 * 2 ^ 8
    | [] => 0
  st * 2 ^ 60 + x.q * 2 ^ 55 + (if st = 2 then x.pstate else 0) * 2 ^ 50 + x.img * 2 ^ 45 + (if x.pkt.isSome then 2 ^ 44 else 0) +
    (if x.reg.isSome then 2 ^ 43 else 0) + x.unread % 256 * 2 ^ 35 + x.inbox.length % 256 * 2 ^ 27 + head +
    (if st = 2 ∨ st = 3 then x.cause % 256 else 0)
/-- CH.STATE (R190). -/
def execChState (h : Hdr) (ep : EIx) (d : SIx) : State → Outc :=
  runForm { i := .chState h ep d, h := h, dsts := [.s d] } fun s r c =>
    if !ownsEp s r c.uid ep.toNat then notOwned ep.toNat
    else results s r c [] 3 [(.s d, BitVec.ofNat 2048 (stateWord (epAt s (ownEp r ep))))]
/-- The register of a CH.BINDREG. -/
def BindDst.reg : BindDst → Option Reg
  | .none => Option.none
  | .s i => some (.s i)
  | .v i => some (.v i)
/-- CH.BINDREG (R179). A message deposited and not yet consumed when a binding ends stays the head and counts as deposited, so that
a new binding deposits the next one only after it: R180 does not say what becomes of it. DESIGN CHOICE, log 59. -/
def execChBindreg (h : Hdr) (ep : EIx) (d : BindDst) : State → Outc :=
  runForm { i := .chBindreg h ep d, h := h } fun s r c =>
    let e := ownEp r ep
    let x := epAt s e
    if !ownsEp s r c.uid ep.toNat then notOwned ep.toNat
    else if x.st ≠ .idle ∧ x.st ≠ .opened then .trap fOperand 0 0
    else match BindDst.reg d with
      | none => .done (modEp s e fun x => { x with reg := none })
      | some g =>
        if g = .s 0 ∨ (boundTo s r c.uid g).isSome ∨ x.reg.isSome then .trap fOperand 0 0
        else if presOf c g = .pending ∨ presOf c g = .ret then .retry (.regs [g]) 0 0 0
        else .done (askDeposit (modEp s e fun x => { x with reg := some g }) e s.now)

/-! ### The strainer (R167 to R171) -/

/-- What the strainer lets a form see: a peer-closed endpoint, or an edge of an open one. -/
inductive Strain | no (a : Act) | closed (x : Endpoint) | edge (s : State) (x : Endpoint) (t : Trans)

/-- Reads the image of an endpoint: the state after its errors are found, and whether one of them is uncorrectable (R352). -/
def readImg (s : State) (r : SlotRef) (c : Ctx) (i : Nat) : State × Bool :=
  let e := consume s r.node 5 (imgByte i) (imgByte i + 560) (consumerOf c)
  (e.1, e.2.isSome)
/-- The strainer, steps 1 to 6 (R167). lim is the outcome of step 4, with its FAULTAUX; find the edge of step 6, for which the image is read.
FAULTAUX of step 1 is the endpoint alone, as R155 and R340 have it, though R167 would add q and the step. DESIGN CHOICE, log 57. -/
def strain (s : State) (r : SlotRef) (c : Ctx) (ep : EIx) (active : Bool) (lim : Endpoint → Option Word)
    (find : PImage → Nat → Option Trans) : Strain :=
  let x := epAt s (ownEp r ep)
  let n := ep.toNat
  if !ownsEp s r c.uid n then .no (notOwned n)
  else if x.st = .peerClosed then .closed x
  else if x.st ≠ .opened then .no (.trap fClosed 0 (strainAux n x.q 2))
  else match lim x with
    | some aux => .no (.trap fOperand 0 aux)
    | none =>
      if active && (c.packet.any fun p => p.1 ≠ n) then .no (.trap fOperand 0 (strainAux n x.q 5))
      else if (readImg s r c x.img).2 then .no (.trapIn (fun s => (readImg s r c x.img).1) fData (BitVec.ofNat 64 (imgByte x.img)) 5)
      else match find (imageOf s r.node x.img) x.q with
        | none => .no (.trap fProtocol 0 (strainAux n x.q 6))
        | some t => .edge (readImg s r c x.img).1 x t
/-- Parks a message form under WAITLIM (R171, R173). -/
def chPark : Act := .retry .cond 5 0 0
/-- Whether the window of a channel is shut (R171). -/
def windowShut (s : State) (e : EpRef) : Bool :=
  let x := epAt s e
  let b := (imageOf s e.node x.img).window
  b ≠ 0 && b ≤ x.unread
/-- An active form with the sources src on a peer-closed endpoint (R175). -/
def sendClosed (src : List Reg) (s : State) (r : SlotRef) (c : Ctx) (p : BitVec 3) : Act := results s r c src 3 (pRes p false)
/-- Counts a message as unread where the image has a window (R171, R172). -/
def countSent (s : State) (e : EpRef) : State :=
  if (imageOf s e.node (epAt s e).img).window = 0 then s else modEp s e fun x => { x with unread := x.unread + 1 }
/-- The packet rules for a piece (R170). -/
def pieceOk (x : Endpoint) (t : Trans) (mt len : Nat) (fin : Bool) : Bool :=
  let k := x.pkt.getD (mt, 0, 0)
  k.1 = mt && k.2.1 < 16 && k.2.2 + len ≤ 32 * t.size && (!fin || t.fitsLen (k.2.2 + len))
/-- A piece is sent (R172): the packet opens, goes on or closes. -/
def sendPiece (s : State) (r : SlotRef) (e : EpRef) (t : Trans) (mt : Nat) (b : List Byte) (fin : Bool) : State :=
  let x := epAt s e
  let k := x.pkt.getD (mt, 0, 0)
  let s := sendData s e mt b fin
  if fin then
    let s := modCtx s r fun c => { c with packet := if x.pkt.isSome then none else c.packet }
    countSent (modEp s e fun x => { x with pkt := none, q := t.next }) e
  else
    let s := modCtx s r fun c => { c with packet := if x.pkt.isSome then c.packet else some (e.ep, 0) }
    modEp s e fun x => { x with pkt := some (mt, k.2.1 + 1, k.2.2 + b.length) }
/-- SEND and SENDV after their sources src are read (R168 to R172). -/
def sendAct (src : List Reg) (ep : EIx) (mt : BitVec 6) (fin rel : Bool) (p : BitVec 3) (len : Nat) (lim : Bool) (b : List Byte) (s : State)
    (r : SlotRef) (c : Ctx) : Act :=
  let e := ownEp r ep
  match strain s r c ep true (fun x => if lim then none else some (strainAux ep.toNat x.q 4))
      (fun m q => m.edge q .send mt.toNat) with
  | .no a => a
  | .closed _ => sendClosed src s r c p
  | .edge s x t =>
    if !pieceOk x t mt.toNat len fin then .trap fProtocol 0 (strainAux ep.toNat x.q 7)
    else if x.pkt.isNone && windowShut s e then chPark
    else release s r c (if rel then .dom else .slot) r.node
      (results (sendPiece s r e t mt.toNat b fin) r c src 3 (pRes p true))
/-- The s registers of a payload of so many bytes, as far as they exist. -/
def payRegs (a : SIx) (len : Nat) : List Reg := sRun a (min (ceilDiv len 8) (64 - a.toNat))
/-- SEND (R172). -/
def execSend (h : Hdr) (ep : EIx) (mt : BitVec 6) (fin rel : Bool) (p : BitVec 3) (len : BitVec 9) (a : SIx) : State → Outc :=
  let n := len.toNat
  runForm { i := .send h ep mt fin rel p len a, h := h, srcs := payRegs a n, dsts := pDst p, early := true } fun s r c =>
    let b := ((List.range (ceilDiv n 8)).flatMap fun k => bytesOfNat 8 (rs c (sNext a k)).toNat).take n
    sendAct (payRegs a n) ep mt fin rel p n (n ≤ 32 && a.toNat + ceilDiv n 8 ≤ 64) b s r c
/-- SENDV (R172). -/
def execSendv (h : Hdr) (ep : EIx) (mt : BitVec 6) (fin rel : Bool) (p : BitVec 3) (len : BitVec 9) (a : VIx) : State → Outc :=
  runForm { i := .sendv h ep mt fin rel p len a, h := h, srcs := [.v a], dsts := pDst p, early := true } fun s r c =>
    sendAct [.v a] ep mt fin rel p len.toNat (len.toNat ≤ 256) ((bytesOfNat 256 (rv c a).toNat).take len.toNat) s r c
/-- SELECT (R174). -/
def execSelect (h : Hdr) (ep : EIx) (lbl : BitVec 2) (rel : Bool) (p : BitVec 3) : State → Outc :=
  runForm { i := .select h ep lbl rel p, h := h, dsts := pDst p } fun s r c =>
    let e := ownEp r ep
    match strain s r c ep true (fun _ => none) (fun m q => m.labEdge q .select lbl.toNat) with
    | .no a => a
    | .closed _ => sendClosed [] s r c p
    | .edge s x t =>
      if x.pkt.isSome then .trap fProtocol 0 (strainAux ep.toNat x.q 7)
      else if windowShut s e then chPark
      else release s r c (if rel then .dom else .slot) r.node
        (results (countSent (modEp (sendSeq s e (.label lbl.toNat)) e fun x => { x with q := t.next }) e) r c [] 3 (pRes p true))

/-- The taken word (Table 10). -/
def takenWord (last : Bool) (info : Nat) : Word := BitVec.ofNat 64 ((if last then 2 ^ 16 else 0) + info)
/-- The declined word for a head message (Table 10). -/
def declinedWord (m : ChMsg) : Word := BitVec.ofNat 64 (2 ^ 62 + (msgKind m).1 * 2 ^ 8 + (msgKind m).2)
/-- The closed word (Table 10). -/
def closedWord (x : Endpoint) : Word := BitVec.ofNat 64 (2 ^ 63 + x.cause % 256)
/-- A result word register: s0 takes none. -/
def wordDst (b : SIx) : List Reg := if b = 0 then [] else [.s b]
/-- RECV and RECVV (R173): the bytes go to destinations by the function given. -/
def recvAct (ep : EIx) (mt : BitVec 6) (p : BitVec 3) (len l : Nat) (lim : Bool) (b : SIx) (put : List Byte → List (Reg × VVal))
    (s : State) (r : SlotRef) (c : Ctx) : Act :=
  let e := ownEp r ep
  let out (s : State) (bytes : List Byte) (w : Word) (ok : Bool) : Act :=
    results s r c [] l (put bytes ++ [(.s b, sval w)] ++ pRes p ok)
  match strain s r c ep false
      (fun x => if lim && x.reg.isNone then none else some (strainAux ep.toNat x.q 4)) (fun m q => m.edge q .recv mt.toNat) with
  | .no a => a
  | .closed x => out s [] (closedWord x) false
  | .edge s x t => match x.inbox with
    | [] => chPark
    | m :: _ => match m with
      | .data ty bytes =>
        if ty ≠ mt.toNat then out s [] (declinedWord m) false
        else
          let k := min len (bytes.length - x.cursor)
          let last := decide (x.cursor + k = bytes.length)
          let s := if last then finishHead s e t.next else modEp s e fun x => { x with cursor := x.cursor + k }
          out s ((bytes.drop x.cursor).take k) (takenWord last k) true
      | _ => out s [] (declinedWord m) false
/-- RECV (R173). -/
def execRecv (h : Hdr) (ep : EIx) (mt : BitVec 6) (p : BitVec 3) (len : BitVec 9) (d b : SIx) : State → Outc :=
  let n := len.toNat
  runForm { i := .recv h ep mt p len d b, h := h, dsts := payRegs d n ++ wordDst b ++ pDst p } fun s r c =>
    recvAct ep mt p n 6 (n ≤ 32 && d.toNat + ceilDiv n 8 ≤ 64) b
      (fun bytes => (payRegs d n).zipIdx.map fun (g, k) => (g, BitVec.ofNat 2048 (natOfBytes ((bytes.drop (8 * k)).take 8)))) s r c
/-- RECVV (R173). -/
def execRecvv (h : Hdr) (ep : EIx) (mt : BitVec 6) (p : BitVec 3) (len : BitVec 9) (d : VIx) (b : SIx) : State → Outc :=
  runForm { i := .recvv h ep mt p len d b, h := h, dsts := [.v d] ++ wordDst b ++ pDst p } fun s r c =>
    recvAct ep mt p len.toNat 8 (len.toNat ≤ 256) b (fun bytes => [(.v d, BitVec.ofNat 2048 (natOfBytes bytes))]) s r c
/-- OFFER (R174). -/
def execOffer (h : Hdr) (ep : EIx) (lbl : BitVec 2) (p : BitVec 3) (b : SIx) : State → Outc :=
  runForm { i := .offer h ep lbl p b, h := h, dsts := wordDst b ++ pDst p } fun s r c =>
    let e := ownEp r ep
    let out (s : State) (w : Word) (ok : Bool) : Act := results s r c [] 3 ([(.s b, sval w)] ++ pRes p ok)
    match strain s r c ep false (fun _ => none) (fun m q => m.labEdge q .offer lbl.toNat) with
    | .no a => a
    | .closed x => out s (closedWord x) false
    | .edge s x t => match x.inbox with
      | [] => chPark
      | m :: _ =>
        if m = .label lbl.toNat then out (askDeposit (finishHead s e t.next) e s.now) (takenWord true lbl.toNat) true
        else out s (declinedWord m) false

/-! ### Delegation (R181 to R184) -/

/-- Why an endpoint may not be delegated: a reason of R182. -/
def delegBar (s : State) (r : SlotRef) (c : Ctx) (ey : EIx) (ex : Nat) : Option Nat :=
  let x := epAt s ⟨r.pkg, r.tile, ex⟩
  if ex = ey.toNat then some 1
  else if !ownsEp s r c.uid ex ∨ x.st ≠ .opened then some 2
  else if x.inbox ≠ [] ∨ x.part.isSome ∨ x.early ≠ [] ∨ x.cursor ≠ 0 then some 3
  else if x.pkt.isSome then some 4
  else if x.reg.isSome then some 5
  else none
/-- The same once the form has passed and waits: what lands for the endpoint no longer bars it, only that it is open no more. -/
def leftBar (s : State) (x : EpRef) : Option Nat := if (epAt s x).st = .opened then none else some 2
/-- A CH.DELEG that has passed its checks waits for the carrier; what lands for its endpoint meanwhile is kept (R182, R184). -/
def delegPark (s : State) (r : SlotRef) (c : Ctx) (x : EpRef) (limKind : Nat) : Act :=
  if c.park.isSome then .retry .cond limKind 0 0
  else
    let w := newWait s r c
    .wait (modEp w.2 x fun z => { z with leaving := true }) w.1.id .cond limKind 0 0 []
/-- An endpoint is not delegated after all: what has landed for it is applied. -/
def stayEp (s : State) (x : EpRef) : State :=
  if (epAt s x).leaving then applyFlits ((epAt s x).early.length + 1) (modEp s x fun z => { z with leaving := false }) x else s
/-- CH.DELEG (R182). -/
def execChDeleg (h : Hdr) (ey : EIx) (rel : Bool) (p : BitVec 3) (ex : BitVec 7) : State → Outc :=
  runForm { i := .chDeleg h ey rel p ex, h := h, dsts := pDst p } fun s r c =>
    let y := ownEp r ey
    let xr : EpRef := ⟨r.pkg, r.tile, ex.toNat⟩
    match strain s r c ey true
        (fun _ => (if c.park.isSome then leftBar s xr else delegBar s r c ey ex.toNat).map fun k => BitVec.ofNat 64 (ey.toNat + k * 2 ^ 8))
        (fun m q => m.edge q .delegOut 63) with
    | .no a => a
    | .closed _ => sendClosed [] (stayEp s xr) r c p
    | .edge s x t =>
      if x.pkt.isSome then .trap fProtocol 0 (strainAux ey.toNat x.q 7)
      else if windowShut s y then delegPark s r c xr 5
      else if rel && !releaseOk s r c.uid .dom r.node then delegPark s r c xr 0
      else
        let s := detachOf s xr
        let z := epAt s xr
        let s := sendSeq s y (.deleg (imageOf s r.node z.img).digest z.q z.peer xr z.peerGen z.txSeq z.rxSeq z.unread)
        let s := countSent (modEp s y fun x => { x with q := t.next }) y
        let s := modEp s xr fun z => { z with st := .forwarding, leaving := false, owner := none, fwd := none, parties := x.peer.node :: z.parties }
        results s r c [] 3 (pRes p true)
/-- The image index of a slot with a digest, loaded or built in (R183, R191). -/
def imageByDigest (s : State) (r : SlotRef) (c : Ctx) (d : Word) : Option Nat :=
  match (tileAt s r.node).images.find? fun x => x.2.digest = d ∧ x.2.holders.contains (r.slot, c.uid) with
  | some x => some x.1
  | none => (List.range 8).find? fun i => (builtIn i).digest = d
/-- A tile becomes a party of a conversation, at an endpoint and wherever that forwards to (R184, R189). -/
def addParty (n : Node) : Nat → State → EpRef → State
  | 0, s, _ => s
  | fuel + 1, s, e =>
    let s := modEp s e fun x => { x with parties := n :: x.parties }
    match (epAt s e).st, (epAt s e).fwd with
    | .forwarding, some (z, _) => addParty n fuel s z
    | _, _ => s
/-- The conversation goes on at an adopting endpoint: notices to the old endpoint and to the peer (R183, R184). -/
def adoptAt (s : State) (z : EpRef) (img : Nat) (g : Option (Nat × Nat)) (state : Nat) (peer old : EpRef)
    (peerGen tx rx unread : Nat) : State :=
  let s := modEp s z fun x => { x with
    st := .opened, img := img, q := state, gran := g, peer := peer, peerGen := peerGen, gen := (x.gen + 1) % 256, txSeq := tx, resv := [],
    rxSeq := rx, unread := unread, inbox := [], part := none, early := [], cursor := 0, pkt := none, parties := old.node :: (epAt s old).parties,
    pstate := 0, cause := 0 }
  let s := addParty z.node 64 (modEp s old fun x => { x with parties := z.node :: x.parties }) peer
  let s := sendFlit s z old (epAt s old).gen 0 (.adopted z (epAt s z).gen)
  sendSeq s z (.redirect z (epAt s z).gen)
/-- CH.ADOPT (R183). -/
def execChAdopt (h : Hdr) (ey : EIx) (p : BitVec 3) (ez : BitVec 7) (d : SIx) : State → Outc :=
  runForm { i := .chAdopt h ey p ez d, h := h, dsts := [.s d] ++ pDst p } fun s r c =>
    let y := ownEp r ey
    let zr : EpRef := ⟨r.pkg, r.tile, ez.toNat⟩
    let z := epAt s zr
    let out (s : State) (w : Word) (ok : Bool) : Act := results s r c [] 3 ([(.s d, sval w)] ++ pRes p ok)
    match strain s r c ey false
        (fun x => if ownsEp s r c.uid ez.toNat && z.st = .idle && ez ≠ ey && z.reg.isNone then none
          else some (strainAux ey.toNat x.q 4))
        (fun m q => m.edge q .delegIn 63) with
    | .no a => a
    | .closed x => out s (closedWord x) false
    | .edge s x t => match x.inbox with
      | [] => chPark
      | m :: _ => match m with
        | .deleg dg q peer old pg tx rx un => match imageByDigest s r c dg with
          | none => .trap fMismatch 0 dg
          | some i => match carve (tileAt s r.node) (imageOf s r.node i).bufBytes with
            | none => .trap fBuffer 0 0
            | some g => out (adoptAt (askDeposit (finishHead s y t.next) y s.now) zr i g q peer old pg tx rx un) (takenWord true (i * 2 ^ 8 + q)) true
        | _ => out s (declinedWord m) false

/-! ### Events at endpoints (R171 to R189) -/

/-- CHANNEL_FLIT_LAND: data, a label or a delegation (R172, R189). -/
def evChannelFlitLand (f : ChFlit) (s : State) : State := landFlit s f
/-- DISCARD_MARKER_LAND (R186). -/
def evDiscardMarkerLand (f : ChFlit) (s : State) : State := landFlit s f
/-- ADOPTION_NOTICE_LAND (R184). -/
def evAdoptionNoticeLand (f : ChFlit) (s : State) : State := landFlit s f
/-- REDIRECT_LAND (R184). -/
def evRedirectLand (f : ChFlit) (s : State) : State := landFlit s f
/-- ACKNOWLEDGEMENT_LAND (R184). -/
def evAcknowledgementLand (f : ChFlit) (s : State) : State := landFlit s f
/-- DELEGATION_ABORT_LAND (R184). -/
def evDelegationAbortLand (f : ChFlit) (s : State) : State := landFlit s f
/-- REGISTER_DEPOSIT (R121, R180). -/
def evRegisterDeposit (e : EpRef) (s : State) : State := deposit s e

end Sys2Proof.Machine
end

