-- ==== Sys2Proof/Machine/Tensors.lean ====
section
/-! DEFINITION. Tensor descriptors: images, checks, the addresses of a region, and their forms (R259 to R263). -/

namespace Sys2Proof.Machine

/-! ### Images (R260) -/

/-- A descriptor taken apart from its eight words (Table 2). -/
def tdOf (w : List Nat) : TDesc :=
  let f (k lo n : Nat) : Nat := w.getD k 0 / 2 ^ lo % 2 ^ n
  { ty := f 0 0 5, rank := f 0 8 2 + 1, loc := f 0 16 2, blk := f 0 24 2, scale := toSigned 8 (f 0 32 8)
    ext := [f 1 0 16, f 1 16 16, f 1 32 16, f 1 48 16], str := [f 2 0 32, f 2 32 32, f 3 0 32, f 3 32 32]
    place := BitVec.ofNat 64 (w.getD 4 0), oh := f 5 48 16, ow := f 5 32 16, dw := f 5 28 4, dh := f 5 24 4, sw := f 5 20 4, sh := f 5 16 4
    pl := f 6 8 8, pt := f 6 0 8 }
/-- The element type; invalid codes do not pass the checks. -/
def TDesc.type (d : TDesc) : Ty := (Ty.ofCode d.ty).getD .i8
/-- Bytes of an element of a type that is no block type. -/
def tyBytes (t : Ty) : Nat := t.width / 8
/-- The base: WHERE (R261). -/
def TDesc.base (d : TDesc) : Nat := d.place.toNat
/-- An extent, 1 at or above the rank. -/
def TDesc.extent (d : TDesc) (i : Nat) : Nat := if i < d.rank then d.ext.getD i 0 else 1
/-- A stride. -/
def TDesc.stride (d : TDesc) (i : Nat) : Nat := d.str.getD i 0
/-- The number of elements. -/
def TDesc.count (d : TDesc) : Nat := d.extent 0 * d.extent 1 * d.extent 2 * d.extent 3
/-- The number of vectors along i0. -/
def TDesc.vectors (d : TDesc) : Nat := d.extent 1 * d.extent 2 * d.extent 3
/-- Blocks along i0. -/
def TDesc.blocks (d : TDesc) : Nat := d.extent 0 / blkLen d.type
/-- Byte length of a region (R261). -/
def TDesc.bytes (d : TDesc) : Nat :=
  if d.type.isBlock then d.vectors * d.blocks * blkBytes d.type else d.count * tyBytes d.type

/-! ### Addresses (R261) -/

/-- Where the vector of indices i1, i2, i3 begins. -/
def TDesc.vectorAt (d : TDesc) (i1 i2 i3 : Nat) : Nat := d.base + i1 * d.stride 1 + i2 * d.stride 2 + i3 * d.stride 3
/-- Where vector j of the linear order begins. -/
def TDesc.vector (d : TDesc) (j : Nat) : Nat :=
  d.vectorAt (j % d.extent 1) (j / d.extent 1 % d.extent 2) (j / d.extent 1 / d.extent 2)
/-- So many addresses upward. -/
def runOf (a n : Nat) : List Nat := (List.range n).map fun k => a + k
/-- Addresses of a block within a vector: its scale byte, then its field. -/
def blockAddrs (d : TDesc) (v b : Nat) : List Nat :=
  let t := d.type
  if d.blk = 0 then runOf (v + b * blkBytes t) (blkBytes t)
  else
    let img := v + b / blkCount t * 256
    let j := b % blkCount t
    if t = .tq4 then runOf (img + 3 * j) 3
    else (img + (if blkField t = 32 then 248 else 240) + j) :: runOf (img + blkField t * j) (blkField t)
/-- Addresses of a vector in the order in which an engine takes its elements: blocks come with their scale first. -/
def vectorAddrs (d : TDesc) (v : Nat) : List Nat :=
  if d.type.isBlock then (List.range d.blocks).flatMap (blockAddrs d v)
  else (List.range (d.extent 0)).flatMap fun i => runOf (v + i * d.stride 0) (tyBytes d.type)
/-- Sorted upward. -/
def ascending (l : List Nat) : List Nat := sortBy (fun a b => decide (a ≤ b)) l
/-- Addresses of a vector in linear byte order: within a register image they ascend. -/
def vectorLinear (d : TDesc) (v : Nat) : List Nat :=
  if d.type.isBlock && d.blk = 1 then
    (List.range (ceilDiv d.blocks (blkCount d.type))).flatMap fun m =>
      ascending ((List.range (min (blkCount d.type) (d.blocks - m * blkCount d.type))).flatMap fun j =>
        blockAddrs d v (m * blkCount d.type + j))
  else vectorAddrs d v
/-- The addresses of a region in its linear byte order. -/
def linearAddrs (d : TDesc) : List Nat := (List.range d.vectors).flatMap fun j => vectorLinear d (d.vector j)
/-- The highest address of a region. -/
def TDesc.top (d : TDesc) : Nat :=
  let last := d.vectorAt (d.extent 1 - 1) (d.extent 2 - 1) (d.extent 3 - 1)
  if d.type.isBlock then (blockAddrs d last (d.blocks - 1)).foldl max last
  else last + (d.extent 0 - 1) * d.stride 0 + tyBytes d.type - 1

/-! ### Checks (R262) -/

/-- The indices of extents and strides. -/
def dims : List Nat := [0, 1, 2, 3]
/-- The failed checks of an image, in the order of Table 3. -/
def tdChecks (w : List Nat) : List (Nat × Bool) :=
  let d := tdOf w
  let t := d.type
  let f (k lo n : Nat) : Bool := w.getD k 0 / 2 ^ lo % 2 ^ n ≠ 0
  let below (p : Nat → Bool) : Bool := dims.any fun i => i < d.rank && p i
  let above (p : Nat → Bool) : Bool := dims.any fun i => d.rank ≤ i && p i
  let eb := tyBytes t
  let w5 := w.getD 5 0 ≠ 0
  [(1, f 0 40 24 || f 0 26 6 || f 0 18 6 || f 0 10 6 || f 0 5 3 || f 5 0 16 || f 6 16 48 || f 7 0 64 ||
      23 ≤ d.ty || d.loc = 3 || 2 ≤ d.blk),
   (2, below (fun i => d.ext.getD i 0 = 0) || above fun i => d.ext.getD i 0 ≠ 0),
   (3, (!t.isBlock && below fun i => d.stride i = 0 || d.stride i % eb ≠ 0) || above fun i => d.stride i ≠ 0),
   (4, (d.loc = 0 && 2 ^ 20 ≤ d.top) || (d.loc = 1 && 2 ^ 56 ≤ d.base) ||
      (d.loc = 2 && (2 ^ 14 ≤ d.base || d.base / 2 ^ 7 % 2 = 1 || d.base / 2 ^ 8 % 64 = 63))),
   (5, d.scale ≠ 0 && !(t = .f16 || t = .bf16 || (12 ≤ d.ty && d.ty ≤ 16))),
   (6, (t.isBlock && (d.extent 0 % blkLen t ≠ 0 || d.stride 0 ≠ 0)) ||
      (d.blk = 1 && ((d.loc ≠ 2 && d.base % 256 ≠ 0) || [1, 2, 3].any fun i => d.stride i % 256 ≠ 0)) ||
      (d.blk ≠ 0 && !t.isBlock)),
   (7, (w5 && (d.rank ≠ 4 || d.sh = 0 || d.sw = 0 || d.dh = 0 || d.dw = 0 || d.oh = 0 || d.ow = 0)) ||
      (!w5 && w.getD 6 0 ≠ 0)),
   (8, d.loc ≤ 1 && !t.isBlock && d.base % eb ≠ 0)]
/-- Why an image is invalid; none where it is valid. -/
def tdBad (w : List Nat) : Option Nat := ((tdChecks w).find? (·.2)).map (·.1)

/-! ### The table and its forms (R259, R263) -/

/-- The image of a descriptor; zeros where it is cleared. -/
def tdAt (t : Tile) (i : Nat) : List Word := aget (List.replicate 8 0) t.tds i
/-- A slot reads bytes of a descriptor's image (R352). -/
def tdFind (s : State) (r : SlotRef) (c : Ctx) (i lo n : Nat) (f : State → Act) : Act :=
  arrayFind 5 (i * 64 + lo) (i * 64 + lo + n) s r c f
/-- The words of 64 bytes. -/
def wordsOf (b : List Byte) : List Nat := (List.range 8).map fun k => natOfBytes ((b.drop (8 * k)).take 8)
/-- Checks an image and installs it (R262, R263). -/
def installTd (s : State) (r : SlotRef) (d : DIx) (a : Word) (b : List Byte) : Act :=
  match tdBad (wordsOf b) with
  | some k => .trap fDescriptor a (BitVec.ofNat 64 (k + d.toNat * 2 ^ 8))
  | none =>
    .done (modTile (replaceUnits s r.node 5 (d.toNat * 64) (d.toNat * 64 + 64)) r.node fun t =>
      { t with tds := aset t.tds d.toNat ((wordsOf b).map (BitVec.ofNat 64)) })
/-- TD.SET (R263). -/
def execTdSet (h : Hdr) (sp : Bool) (d : DIx) (a : SIx) : State → Outc :=
  runForm { i := .tdSet h sp d a, h := h, srcs := [.s a] } fun s r c =>
    let x := rs c a
    if sp then
      if x.toNat % 8 ≠ 0 then .trap fMisaligned x 0
      else if !padOk (tileAt s r.node) x.toNat 64 then .trap fBounds x 0
      else padFind s r c x.toNat 64 fun s => installTd s r d x (padRead (tileAt s r.node) x.toNat 64)
    else match addrFault x 64 with
      | some f => .trap f x 0
      | none => withBytes s r c x 64 fun b => installTd s r d x b
/-- TD.GET (R263). -/
def execTdGet (h : Hdr) (w : BitVec 3) (d : SIx) (a : DIx) : State → Outc :=
  runForm { i := .tdGet h w d a, h := h, dsts := [.s d] } fun s r c =>
    tdFind s r c a.toNat (w.toNat * 8) 8 fun s =>
      results s r c [] 3 [(.s d, sval ((tdAt (tileAt s r.node) a.toNat).getD w.toNat 0))]
/-- TD.CLR (R263). -/
def execTdClr (h : Hdr) (d : DIx) : State → Outc :=
  runForm { i := .tdClr h d, h := h } fun s r _ =>
    .done (modTile (replaceUnits s r.node 5 (d.toNat * 64) (d.toNat * 64 + 64)) r.node fun t => { t with tds := aerase t.tds d.toNat })

end Sys2Proof.Machine
end

