-- ==== Sys2Proof/Machine/Engines.lean ====
section
/-! DEFINITION. The engines of a tile: roles, queues, starts, completions and stops, and the copy engine (R264 to R277, R325). -/

namespace Sys2Proof.Machine

/-! ### Queues (R266, R267) -/

/-- Entries of an engine's queue (Table 6). -/
def engEntries : Nat := 16
/-- The commands of an engine. -/
def cmdsOf (t : Tile) (mx : Bool) : List EngCmd := if mx then t.mx.cmds else t.copy
/-- A command. -/
def cmdAt (s : State) (n : Node) (mx : Bool) (id : Nat) : Option EngCmd := (cmdsOf (tileAt s n) mx).find? fun q => q.id = id
/-- The slot that issued a command. -/
def EngCmd.from_ (q : EngCmd) (n : Node) : SlotRef := ⟨n.pkg, n.id, q.slot⟩
/-- The launch whose pinned routes a command's flits take. -/
def EngCmd.pin (q : EngCmd) : Option Word := if q.det then some q.launch else none
/-- The consumer that a command is. -/
def cmdConsumer (s : State) (n : Node) (q : EngCmd) : Consumer := ⟨q.job, ((unitAt s (q.from_ n) q.uid).map (·.d.unitix)).getD 0⟩
/-- A command enters its queue, outstanding until it completes; the form waits while the queue is full, and then completes in
place (R76; DEDUCED, log 13). -/
def enqueue (s : State) (r : SlotRef) (c : Ctx) (mx : Bool) (sync : ESync) (fn : Nat) (kind : EngKind) (f : Nat → State → State) : Act :=
  if engEntries ≤ (cmdsOf (tileAt s r.node) mx).length then .retry .cond 0 0 0
  else
    let id := s.no
    let q : EngCmd := {
      id := id, slot := r.slot, uid := c.uid, job := c.d.job, launch := c.d.launch, sup := ⟨r.pkg, c.d.supTile, c.d.supSlot⟩,
      sync := sync, fn := fn, kind := kind, det := c.d.det }
    let s := addOut { s with no := s.no + 1 }
      { id := id, slot := r, uid := c.uid, job := c.d.job, launch := c.d.launch, home := none, host := false, va := 0 }
    let s := modTile s r.node fun t =>
      if mx then { t with mx := { t.mx with cmds := t.mx.cmds ++ [q] } } else { t with copy := t.copy ++ [q] }
    .done (askEngine (f id s) r.node mx)
/-- A command leaves its queue; its signal is given unless it was stopped (R267, R269). -/
def leaveQueue (s : State) (n : Node) (mx : Bool) (q : EngCmd) (signal : Bool) : State :=
  let s := if signal && q.sync.sinc ≠ 0 then semSignal s n q.sync.ssem.toNat q.sync.sinc.toNat else s
  let g (l : List EngCmd) := l.filter fun x => x.id ≠ q.id
  let s := modTile s n fun t => if mx then { t with mx := { t.mx with cmds := g t.mx.cmds } } else { t with copy := g t.copy }
  askEngine (performed s q.id) n mx
/-- Whether a token of an engine is outstanding (R269). -/
def engStopped (t : Tile) (mx : Bool) : Bool := (cmdsOf t mx).any fun q => q.stopped.isSome
/-- Whether the wait of a command is over (R267). -/
def semReady (t : Tile) (q : EngCmd) : Bool := q.sync.wth = 0 || q.sync.wth.toNat ≤ (semAt t q.sync.wsem.toNat).val
/-- The next command to start, and those before it. -/
def nextCmd : List EngCmd → List EngCmd → Option (List EngCmd × EngCmd)
  | _, [] => none
  | pre, q :: l => if q.started then nextCmd (pre ++ [q]) l else some (pre, q)

/-! ### Stops (R238, R269) -/

/-- Whether a supervisor can be asked about a command: about a translation never the issuer itself (R238, R269). -/
def canAskCmd (s : State) (n : Node) (q : EngCmd) (cls : Nat) : Bool :=
  q.launch = 0 || ((cls = 2 || q.sup ≠ q.from_ n) && holdsJob s q.sup q.job)
/-- Sends a supervisor message about a command, or refuses it at once. -/
def askSup (s : State) (n : Node) (mx : Bool) (q : EngCmd) (cls code : Nat) (w0 w1 : Word) : State :=
  if canAskCmd s n q cls then
    let m : SupMsg := ⟨q.sup, q.job, cls, code, w0, w1, q.from_ n, q.launch = 0⟩
    sendMsg (noteSent s m) m.src n q.sup.node 11 1 [] q.pin false (.supervisorMessageLand m)
  else push (modCmd s n mx q.id fun q => { q with refused := true }) s.now phEnd (nodeKey n) (.engineCommandComplete n mx q.id)
/-- Steps of a stream that are committed: 64 rows each (R287). -/
def stepsDone (q : EngCmd) : Nat := q.acked.length
/-- First accumulator row of a matrix command. -/
def cmdRow0 : EngKind → Nat
  | .stream _ r _ => r
  | .conv _ r _ _ => r
  | .drainV _ r _ _ _ _ => r
  | .drainD _ r _ _ _ _ => r
  | .clear r _ _ _ => r
  | _ => 0
/-- The resume record of a stopped matrix command (Table 13). -/
def resumeWord (q : EngCmd) (tok code : Nat) : Word :=
  BitVec.ofNat 64 (2 ^ 63 + q.fn * 2 ^ 60 + stepsDone q % 8 * 2 ^ 57 + cmdRow0 q.kind % 512 * 2 ^ 48 + code * 2 ^ 40 + tok)
/-- Marks a command as stopped under a token. -/
def haltCmd (s : State) (n : Node) (mx : Bool) (q : EngCmd) (tok code : Nat) (addr : Word) : State :=
  let s := modCmd s n mx q.id fun q => { q with stopped := some (tok, code, addr), buf := [], tries := q.tries + 1 }
  if mx then modTile s n fun t => { t with mx := { t.mx with resume := resumeWord q tok code } } else s
/-- Packets of a command that are not acknowledged. -/
def unacked (q : EngCmd) : List Nat := (List.range q.total).filter fun k => !q.acked.contains k
/-- ENGINE_FAULT_STOP (R269). What a reset peer has lost is to be sent again. -/
def evEngineFaultStop (n : Node) (mx : Bool) (id code : Nat) (addr : Word) (s : State) : State :=
  match cmdAt s n mx id with
  | none => s
  | some q =>
    if q.stopped.isSome then s
    else
      let tok := s.no % 2 ^ 32
      let s := haltCmd { s with no := s.no + 1 } n mx q tok code addr
      let s := if code = fPeerReset then modCmd s n mx id fun q => { q with todo := unacked q } else s
      let s := if q.det then setVoid s q.launch 1 else s
      askSup s n mx q 2 code addr (BitVec.ofNat 64
        (tok * 2 ^ 32 + code * 2 ^ 24 + n.id * 2 ^ 12 + q.slot * 2 ^ 8 + 2 ^ 7 + q.fn * 2 ^ 4 + mx.toNat * 2 ^ 3))
/-- Stops a command at the end of this cycle. -/
def stopCmd (s : State) (n : Node) (mx : Bool) (q : EngCmd) (code addr : Nat) : State :=
  push s s.now phEnd (nodeKey n) (.engineFaultStop n mx q.id code (BitVec.ofNat 64 addr))
/-- A translation miss of the copy engine: its supervisor is asked with ENG = 1 (R238, R269). -/
def missCmd (s : State) (n : Node) (q : EngCmd) (va kind lvl : Nat) : State :=
  let tok := s.no % 2 ^ 32
  let s := haltCmd { s with no := s.no + 1 } n false q tok 8 (BitVec.ofNat 64 va)
  let s := if q.det then setVoid s q.launch 0 else s
  askSup s n false q 1 8 (BitVec.ofNat 64 va) (missWord (q.from_ n) tok kind lvl true)

/-! ### Reading and writing the scratchpad (R216, R268) -/

/-- The first address that lies in a carved granule or beyond the scratchpad. -/
def badAddr (t : Tile) (l : List Nat) : Option Nat := l.find? fun a => !padOk t a 1
/-- What an engine's read of scratchpad bytes finds. -/
inductive PadRead | ok (b : List Byte) (s : State) | stop (code addr : Nat) (s : State)
/-- An engine reads bytes of its tile's scratchpad. -/
def engRead (s : State) (n : Node) (q : EngCmd) (l : List Nat) : PadRead :=
  match badAddr (tileAt s n) l with
  | some a => .stop fBounds a s
  | none =>
    if (tileAt s n).errs = [] then .ok (l.map (cellGet (tileAt s n).sp)) s
    else
      let x := l.foldl (fun (x : State × Option Nat) a =>
        let e := consume x.1 n 2 a (a + 1) (cmdConsumer s n q)
        (e.1, if e.2.isSome && x.2.isNone then some a else x.2)) (s, none)
      match x.2 with
      | some a => .stop fData a x.1
      | none => .ok (l.map (cellGet (tileAt x.1 n).sp)) x.1
/-- Bytes written at places of a scratchpad; presence bits stay (R268). -/
def engWrite (s : State) (n : Node) (ws : List (Nat × Byte)) : State :=
  let s := modTile s n fun t => { t with sp := ws.foldl (fun m w => cellSet m w.1 w.2) t.sp }
  if (tileAt s n).errs = [] then s
  else (ws.map fun w => w.1 / 8 * 8).eraseDups.foldl (fun s a =>
    if (List.range 8).all fun k => ws.any fun w => w.1 = a + k then replaceUnits s n 2 a (a + 8) else s) s

/-! ### What a copy carries (R272, R273, R275) -/

/-- The source and destination of a copying command. -/
def cmdRegions : EngKind → Option (TDesc × TDesc)
  | .push d a _ _ _ => some (d, a)
  | .pushChan d a _ _ => some (d, a)
  | .pull d a _ => some (d, a)
  | .xch d a _ _ _ _ _ _ => some (d, a)
  | _ => none
/-- Whether a command transposes. -/
def transposes : EngKind → Bool
  | .push _ _ _ tr _ => tr ≠ .none
  | _ => false
/-- Source addresses in the destination's linear order under transposition (R273). -/
def turnedAddrs (d a : TDesc) : List Nat :=
  (List.range (d.extent 2 * d.extent 3)).flatMap fun k => (List.range (d.extent 1)).flatMap fun i1 =>
    (List.range (d.extent 0)).flatMap fun i0 =>
      runOf (a.vectorAt i0 (k % d.extent 2) (k / d.extent 2) + i1 * a.stride 0) (tyBytes a.type)
/-- Source addresses of a command's bytes, in the destination's linear order. -/
def sourceAddrs (k : EngKind) (d a : TDesc) : List Nat := if transposes k then turnedAddrs d a else linearAddrs a
/-- The part of a list that packet k carries: 512 entries, fewer in the last (R272). -/
def packetOf {α : Type} (l : List α) (k : Nat) : List α := (l.drop (512 * k)).take 512
/-- Packets of so many bytes. -/
def packetCount (len : Nat) : Nat := ceilDiv len 512
/-- The stores that a region of virtual addresses takes, within 32-byte sectors: where each begins in the linear order, its
address and its length (R272, R275). -/
def sectors : Nat → List Nat → List (Nat × Nat × Nat)
  | _, [] => []
  | i, a :: l =>
    match sectors (i + 1) l with
    | (j, b, n) :: r => if b = a + 1 && b % 32 ≠ 0 then (i, a, n + 1) :: r else (i, a, 1) :: (j, b, n) :: r
    | [] => [(i, a, 1)]
/-- The bytes of a fill, in linear order (R275). -/
def fillBytes (d : TDesc) (pattern : Word) : List Byte :=
  (List.range d.count).flatMap fun _ => bytesOfNat (tyBytes d.type) pattern.toNat
/-- Where a packet's bytes go. -/
def cmdTarget (n : Node) : EngKind → Node
  | .push _ _ t _ _ => t
  | .xch _ _ t _ _ _ _ _ => t
  | _ => n
/-- The receiver's semaphore of a packet. -/
def cmdRsem : EngKind → Option Nat
  | .push _ _ _ _ r => r
  | .pull _ _ r => r
  | .xch _ _ _ _ _ _ _ r => r
  | _ => none

/-- Counts late granules at a package (R325). -/
def countLate (s : State) (pkg : Nat) (job : Word) (k : Nat) : State :=
  modPkg s pkg fun p => { p with exch := p.exch.map fun x => if x.job = job then { x with late := x.late + k } else x }
/-- Whether a packet leaves after the phase of its exchange has ended (R325). -/
def afterPhase (s : State) (n : Node) : EngKind → Bool
  | .xch _ _ _ _ _ _ fin _ => fin ≤ cycleOf s n.pkg
  | _ => false
/-- Counts the granule of a late packet, 8 packets each, once (R325, R335). -/
def lateGranule (s : State) (n : Node) (q : EngCmd) (k : Nat) : State :=
  if q.late.contains (k / 8) then s
  else setVoid (countLate (modCmd s n false q.id fun q => { q with late := k / 8 :: q.late }) n.pkg q.job 1) q.launch 2
/-- Sends packet k of a copy or exchange command, with its bytes; after the end of its phase in free mode (R272, R304, R325). -/
def sendCopy (s : State) (n : Node) (q : EngCmd) (k : Nat) (ws : List (Nat × Byte)) : State :=
  let t := cmdTarget n q.kind
  let late := afterPhase s n q.kind
  let s := if late then lateGranule s n q k else s
  sendPacket s (q.from_ n) n ⟨n, q.id, k, t, q.job, [], ws.map (·.1), false, cmdRsem q.kind⟩ ws [5, q.id, q.tries] (if late then none else q.pin)
/-- A byte of a local push whose source overlaps its destination: as the source stood before, or what the command wrote there
(R277). Free values, an element at a time, log 5. -/
def overlapByte (ctr eb : Nat) (dst src : List Nat) (old : List Byte) : Nat → Nat → Byte
  | 0, i => old.getD i 0
  | k + 1, i =>
    let j := dst.idxOf (src.getD i 0)
    if dst.length ≤ j then old.getD i 0
    else if Config.freeBool (ctr + i / eb) then old.getD i 0
    else overlapByte ctr eb dst src old k j
/-- Bytes of an element, or of a block. -/
def elemBytes (d : TDesc) : Nat := max 1 (if d.type.isBlock then blkBytes d.type else tyBytes d.type)
/-- The source of a push onto its own tile that overlaps its destination, as it stands before the command, and where the free values of
its bytes begin (R277). -/
def snapOf (s : State) (n : Node) (k : EngKind) : State × Option (Nat × List Byte) :=
  match k with
  | .push d a t _ _ =>
    let src := sourceAddrs k d a
    if d.loc = 0 ∧ t = n ∧ src.any (linearAddrs d).contains then
      ({ s with freeCtr := s.freeCtr + src.length }, some (s.freeCtr, src.map (cellGet (tileAt s n).sp)))
    else (s, none)
  | _ => (s, none)
/-- The bytes of a push that a read from byte i on has found, in its overlap as R277 has them. -/
def overlaid (q : EngCmd) (d : TDesc) (dst src : List Nat) (i : Nat) (b : List Byte) : List Byte :=
  match q.snap with
  | none => b
  | some (ctr, old) => b.zipIdx.map fun (x, j) =>
      if dst.contains (src.getD (i + j) 0) then overlapByte ctr (elemBytes d) dst src old dst.length (i + j) else x
/-- A cycle of a push or an exchange: 64 bytes of its packet in turn are read, and the packet is sent when it is read (R269, R272,
R275). -/
def packetStep (s : State) (n : Node) (q : EngCmd) (d a : TDesc) : State :=
  match q.todo with
  | [] => s
  | k :: l =>
    let all := sourceAddrs q.kind d a
    let src := packetOf all k
    match engRead s n q ((src.drop q.next).take 64) with
    | .stop code x s => stopCmd s n false q code x
    | .ok b s =>
      let got := q.buf.flatMap (·.2) ++ overlaid q d (linearAddrs d) all (512 * k + q.next) b
      if src.length ≤ q.next + 64 then
        sendCopy (modCmd s n false q.id fun q => { q with todo := l, next := 0, buf := [] }) n q k ((packetOf (linearAddrs d) k).zip got)
      else modCmd s n false q.id fun q => { q with next := q.next + 64, buf := [(0, got)] }
/-- A cycle of a channel push: 64 bytes are read and sent as two flits, whose numbers were taken at issue (R274, R275). A channel that
is open no more takes none. -/
def chanStep (s : State) (n : Node) (q : EngCmd) (a : TDesc) (ep mt : Nat) : State :=
  let e : EpRef := ⟨n.pkg, n.id, ep⟩
  let x := epAt s e
  let gone := push (modCmd s n false q.id fun q => { q with todo := [] }) s.now phEnd (nodeKey n) (.engineCommandComplete n false q.id)
  match x.resv.find? fun y => y.1 = q.id with
  | none => gone
  | some (_, seq) => if x.st ≠ .opened ∧ x.st ≠ .forwarding then gone else
    let k := q.todo.headD 0
    match engRead s n q (((linearAddrs a).drop (32 * k)).take 64) with
    | .stop code x s => stopCmd s n false q code x
    | .ok b s =>
      let fs : List ChFlit := (pieces b.length b).zipIdx.map fun (p, i) => ⟨n, x.peer, x.peerGen, seq + i, .data mt p (k + i + 1 = q.total)⟩
      let left := q.todo.drop 2
      let s := modCmd s n false q.id fun q => { q with marks := q.marks ++ fs.map chMark, todo := left }
      let s := modEp s e fun x => { x with resv :=
        if left = [] then (x.resv.filter fun y => y.1 ≠ q.id)
        else (x.resv.map fun y => if y.1 = q.id then (y.1, seq + fs.length) else y) }
      fs.foldl (fun s f => sendMsg s (q.from_ n) n f.dst.node 0 1 [] q.pin false (chEvent f)) s

/-! ### Virtual memory (R272, R275, R276, R325) -/

/-- What the translation of a part finds. -/
inductive PartXl | ok (home : Node) (pa : Nat) (s : State) | wait (s : State)
/-- Translates a part of a running command: its home, or the command waits or stops, at an uncorrectable error of the TLB or of the walk
too (R238, R325, R333, R352). -/
def partXlate (s : State) (n : Node) (q : EngCmd) (va kind : Nat) : PartXl :=
  let e := xlErrs s n q.job q.det q.walkTill.isSome va (cmdConsumer s n q)
  let s := modCmd e.1 n false q.id fun q => { q with walkTill := none }
  if e.2.isSome then .wait (stopCmd s n false q fData va)
  else match (match q.walkTill with
    | some _ => walkFill s n q.job true kind va
    | none => xlate s n q.job q.det kind va) with
  | .ok pa s =>
    match memHome s pa with
    | none => .wait (stopCmd s n false q fAccess va)
    | some (h, k) =>
      if k = .regs ∨ (q.det ∧ (h.pkg ≠ n.pkg ∨ (k = .host ∧ kind = 4))) then .wait (stopCmd s n false q fAccess va)
      else .ok h pa s
  | .slow =>
    let l := walkLate s q.launch
    let t := dueIn s n (640 + l.2)
    .wait (push (modCmd l.1 n false q.id fun q => { q with walkTill := some t }) t phStart (nodeKey n) (.engineCommandStart n false))
  | .miss l => .wait (missCmd s n q va kind l)
  | .bad => .wait (stopCmd s n false q fAccess va)
/-- Posts the store of one sector (R272, R309). -/
def postSector (s : State) (n : Node) (q : EngCmd) (i : Nat) (home : Node) (pa va : Nat) (b : List Byte) : State :=
  let r : MemReq := ⟨⟨q.from_ n, q.uid, q.id * 2 ^ 64 + i⟩, i, pa, BitVec.ofNat 64 va, q.job, .store b, q.det, none, true, true⟩
  let p := pinRoute s q.det q.launch home
  sendMsg p.2 (q.from_ n) n home 3 (reqFlits (.store b)) [5, q.id, nodeKey home] p.1 false (.memoryMergeStep home (some r))
/-- Takes a packet or store off those to be sent. -/
def didPart (s : State) (n : Node) (id k : Nat) : State := modCmd s n false id fun q => { q with todo := q.todo.filter fun x => x ≠ k }
/-- A cycle of a push to virtual memory: the sectors ss are read in order, 64 bytes at most, and posted, until a translation holds them
up (R272, R275). -/
def storeStep (n : Node) (id : Nat) (ss : List (Nat × Nat × Nat)) (src : List Nat) : Nat → Nat → State → State
  | 0, _, s => s
  | fuel + 1, room, s =>
    match cmdAt s n false id with
    | none => s
    | some q => match q.todo with
      | [] => s
      | i :: _ =>
        let x := ss.getD i (0, 0, 0)
        if room < x.2.2 then s
        else match partXlate s n q x.2.1 5 with
        | .wait s => s
        | .ok h pa s => match engRead s n q ((src.drop x.1).take x.2.2) with
          | .stop code a s => stopCmd s n false q code a
          | .ok b s => storeStep n id ss src fuel (room - x.2.2) (didPart (postSector s n q i h pa x.2.1 b) n id i)
/-- A cycle of a fill of virtual memory: one sector is posted (R275). -/
def fillStep (s : State) (n : Node) (q : EngCmd) (d : TDesc) (p : Word) : State :=
  match q.todo with
  | [] => s
  | i :: _ =>
    let x := (sectors 0 (linearAddrs d)).getD i (0, 0, 0)
    match partXlate s n q x.2.1 5 with
    | .wait s => s
    | .ok h pa s => didPart (postSector s n q i h pa x.2.1 (((fillBytes d p).drop x.1).take x.2.2)) n q.id i

/-- Runs of consecutive addresses that no page boundary of 4096 bytes cuts. -/
def pageRuns : List Nat → List (Nat × Nat)
  | [] => []
  | a :: l => match pageRuns l with
    | (b, n) :: r => if b = a + 1 && b % 4096 ≠ 0 then (a, n + 1) :: r else (a, 1) :: (b, n) :: r
    | [] => [(a, 1)]
/-- A part of a packet of a pull: its home, its physical address and length, and where its bytes go. -/
structure PullPart where
  home : Node
  pa : Nat
  len : Nat
  dst : List Nat
/-- Translates the runs of a packet, whose bytes go to dst: its parts, or none where a translation holds it up. -/
def pullParts (n : Node) (id : Nat) : List (Nat × Nat) → List Nat → State → Option (List PullPart) × State
  | [], _, s => (some [], s)
  | (a, len) :: l, dst, s =>
    match cmdAt s n false id with
    | none => (none, s)
    | some q => match partXlate s n q a 4 with
      | .wait s => (none, s)
      | .ok h pa s =>
        let x := pullParts n id l (dst.drop len) s
        (x.1.map fun r => ⟨h, pa, len, dst.take len⟩ :: r, x.2)
/-- Asks one home for its parts of a packet of a pull (R276, R309). -/
def askHome (s : State) (n : Node) (q : EngCmd) (k : Nat) (ps : List PullPart) (h : Node) : State :=
  let mine := ps.filter fun p => p.home = h
  let r : PullReq := ⟨⟨q.from_ n, q.uid, q.id⟩, k, h, q.job, mine.map fun p => (p.pa, p.len), mine.flatMap (·.dst), cmdRsem q.kind, q.det⟩
  let p := pinRoute s q.det q.launch h
  sendMsg p.2 (q.from_ n) n h 3 1 [5, q.id, 2, nodeKey h] p.1 false (.pullRequestServe r)
/-- Asks for the packets of a pull one after another, each of the homes of its parts, until a translation holds it up (R276). -/
def askPull (n : Node) (id : Nat) (dst src : List Nat) : Nat → State → State
  | 0, s => s
  | fuel + 1, s =>
    match cmdAt s n false id with
    | none => s
    | some q => match q.todo with
      | [] => s
      | k :: _ =>
        let x := pullParts n id (pageRuns (packetOf src k)) (packetOf dst k) s
        match x.1 with
        | some ps =>
          askPull n id dst src fuel (didPart ((ps.map (·.home)).eraseDups.foldl (fun s h => askHome s n q k ps h) x.2) n id k)
        | none => x.2
/-- Whether a command reads the tile's scratchpad through the engine's 64 bytes in a cycle (R275). -/
def readsPad : EngKind → Bool
  | .push .. | .pushChan .. | .xch .. => true
  | _ => false
/-- A cycle of a running command. -/
def goOnCmd (s : State) (n : Node) (q : EngCmd) : State :=
  match q.kind with
  | .push d a _ _ _ =>
    if d.loc = 1 then storeStep n q.id (sectors 0 (linearAddrs d)) (sourceAddrs q.kind d a) 64 64 s else packetStep s n q d a
  | .xch d a _ _ _ _ _ _ => packetStep s n q d a
  | .pushChan _ a ep mt => chanStep s n q a ep mt
  | .pull d a _ => askPull n q.id (linearAddrs d) (linearAddrs a) (q.total + 1) s
  | .fill d p => fillStep s n q d p
  | _ => s
/-- Whether a started command has packets, stores or requests still to send. -/
def EngCmd.busy (q : EngCmd) : Bool := q.started && q.stopped.isNone && !q.refused && q.todo ≠ []

/-! ### Landing and acknowledgement (R269, R272) -/

/-- Enters a number in an ascending list. -/
def addAscending (k : Nat) (l : List Nat) : List Nat := (l.filter (· < k)) ++ k :: l.filter fun x => k < x
/-- The acknowledgement of a packet: at once on its own tile, else by a flit (R272, R309). -/
def ackPacket (s : State) (p : CopyPkt) (code : Nat) : State :=
  let q := cmdAt s p.owner false p.cmd
  if p.dst = p.owner then push s s.now phEnd (nodeKey p.owner) (.copyPacketAck p.owner p.cmd p.num code)
  else sendAck s ⟨p.owner.pkg, p.owner.id, (q.map (·.slot)).getD 0⟩ p.dst p.owner p.cmd p.num code (q.bind EngCmd.pin)
/-- A packet has landed whole: the receiver's semaphore is told and the packet is acknowledged (R272). -/
def packetDone (s : State) (p : CopyPkt) : State :=
  ackPacket (match p.rsem with
    | some k => semSignal s p.dst k 1
    | none => s) p 0
/-- Bytes of the packets of a pull that have landed. -/
def gotOf (s : State) (p : CopyPkt) : Nat := ((cmdAt s p.owner false p.cmd).map fun q => aget 0 q.got p.num).getD 0
/-- Bytes of a packet of a pull; none for another command. -/
def pullSize (s : State) (p : CopyPkt) : Option Nat :=
  (cmdAt s p.owner false p.cmd).bind fun q => match q.kind with
    | .pull d _ _ => some (packetOf (linearAddrs d) p.num).length
    | _ => none
/-- COPY_PACKET_LAND: a data flit of a packet is written, if the packet fits; the last one tells the receiver's semaphore and has the
packet acknowledged (R269, R272, R304). The packet of a pull is whole when the parts of all its homes have landed (R276). -/
def evCopyPacketLand (p : CopyPkt) (s : State) : State :=
  let t := tileAt s p.dst
  let code := if t.tenant ≠ some p.job then fAccess else if (badAddr t p.all).isSome then fBounds else 0
  if p.dst = p.owner ∧ (cmdAt s p.owner false p.cmd).isNone then s
  else if code ≠ 0 then (if p.last then ackPacket s p code else s)
  else
    let s := engWrite s p.dst p.writes
    match pullSize s p with
    | some size =>
      let k := gotOf s p + p.writes.length
      let s := modCmd s p.owner false p.cmd fun q => { q with got := aset q.got p.num k }
      if k = size then packetDone s p else s
    | none => if p.last then packetDone s p else s
/-- Address that the fault message of a failed packet or sector shows (Table 7): for scratchpad_bounds the first that is out of bounds or
carved; else where its first byte goes, or for what a home of a pull has answered, the source of its first byte. -/
def packetAddr (s : State) (n : Node) (q : EngCmd) (num code : Nat) : Nat :=
  let sector (d : TDesc) : Nat := (((sectors 0 (linearAddrs d)).drop num).head?.map (·.2.1)).getD 0
  let place (d : TDesc) (t : Node) : Nat :=
    let l := packetOf (linearAddrs d) num
    let a := if code = fBounds then (badAddr (tileAt s t) l).getD (l.headD 0) else l.headD 0
    a + if t = n then 0 else 2 ^ 63 + t.pkg * 2 ^ 56 + t.id * 2 ^ 44
  match q.kind with
  | .fill d _ => sector d
  | .push d _ t _ _ => if d.loc = 1 then sector d else place d t
  | .xch d _ t _ _ _ _ _ => place d t
  | .pull d a _ => if code = fBounds ∨ code = fAccess then place d n else (packetOf (linearAddrs a) num).headD 0
  | _ => 0
/-- COPY_PACKET_ACK: a packet or store is done, or the command stops, to send it again (R269, R272). -/
def evCopyPacketAck (owner : Node) (cmd num code : Nat) (s : State) : State :=
  match cmdAt s owner false cmd with
  | none => s
  | some q =>
    if q.acked.contains num then s
    else if code ≠ 0 then
      stopCmd (modCmd s owner false cmd fun q => { q with todo := addAscending num q.todo, got := aerase q.got num }) owner false q code
        (packetAddr s owner q num code)
    else
      let s := modCmd s owner false cmd fun q => { q with acked := num :: q.acked, todo := q.todo.filter fun x => x ≠ num }
      if q.acked.length + 1 = q.total then push s s.now phEnd (nodeKey owner) (.engineCommandComplete owner false cmd) else s

/-! ### Starting and completing copy commands (R267, R275) -/

/-- Packets, stores or flits that a command takes; steps of 64 bytes of a fill of the scratchpad. -/
def cmdTotal (k : EngKind) : Nat :=
  match k with
  | .fill d _ => if d.loc = 1 then (sectors 0 (linearAddrs d)).length else ceilDiv d.bytes 64
  | .push d _ _ _ _ => if d.loc = 1 then (sectors 0 (linearAddrs d)).length else packetCount d.bytes
  | .pushChan d _ _ _ => max 1 (ceilDiv d.bytes 32)
  | .pull d _ _ => packetCount d.bytes
  | .xch d _ _ _ _ _ _ _ => packetCount d.bytes
  | _ => 0
/-- Whether a command fills the scratchpad, which the engine's write rate allows one at a time (R275; DEDUCED, log 22). -/
def fillsPad : EngKind → Bool
  | .fill d _ => d.loc = 0
  | _ => false
/-- Whether an exchange may start: its phase has begun (R325). -/
def phaseOpen (s : State) (n : Node) (k : EngKind) : Bool :=
  match k with
  | .xch _ _ _ _ _ start _ _ => start ≤ cycleOf s n.pkg
  | _ => true
/-- Whether a message that the issuing slot has sent before the command has not landed yet (R268, R293). -/
def messagesOut (s : State) (n : Node) (q : EngCmd) : Bool :=
  s.outs.any fun o => o.ofUnit (q.from_ n) q.uid && decide (o.id < q.id) && decide (2 ^ 62 ≤ o.va.toNat)
/-- A command of the copy engine as it starts. -/
def startedCmd (s : State) (n : Node) (q : EngCmd) : State :=
  let x := snapOf s n q.kind
  let s := modCmd x.1 n false q.id fun q => { q with
    started := true, start := s.now, total := cmdTotal q.kind, snap := x.2, todo := if fillsPad q.kind then [] else List.range (cmdTotal q.kind) }
  if fillsPad q.kind then push s s.now phEnd (nodeKey n) (.engineCommandComplete n false q.id) else s
/-- Whether a command of an engine stops at the end of this cycle, so that no later one starts in it (R269; DEDUCED, log 22). -/
def stopDue (s : State) (n : Node) (mx : Bool) : Bool := s.agenda.any fun e => match e.ev with
  | .engineFaultStop m x _ _ _ => m = n && x = mx && decide (e.at_ ≤ s.now)
  | _ => false
/-- Starts commands of the copy engine in order while their conditions hold, and each begins its work at once; free tells that the 64
bytes of the cycle have not been read (R267 to R269, R275). -/
def startCopies (n : Node) : Nat → Bool → State → State
  | 0, _, s => s
  | fuel + 1, free, s =>
    let t := tileAt s n
    match nextCmd [] t.copy with
    | none => s
    | some (pre, q) =>
      if engStopped t false || stopDue s n false || !semReady t q || messagesOut s n q || (fillsPad q.kind && pre.any fun x => fillsPad x.kind) then s
      else if !phaseOpen s n q.kind then match q.kind with
        | .xch _ _ _ _ _ start _ _ =>
          pushOnce s (s.now + (start - cycleOf s n.pkg)) phStart (nodeKey n) (.engineCommandStart n false)
        | _ => s
      else
        let s := startedCmd s n q
        let s := match cmdAt s n false q.id with
          | some q => if readsPad q.kind && !free then s else goOnCmd s n q
          | none => s
        startCopies n fuel (free && !readsPad q.kind) s
/-- A cycle of the copy engine: those that run go on, then others start; of those that read the scratchpad the oldest does, with all of
the 64 bytes (R275; DEDUCED, log 22). -/
def copyCycle (s : State) (n : Node) : State :=
  let now := s.now
  let run := (tileAt s n).copy.filter fun q => q.busy && (match q.walkTill with
    | some t => t ≤ now
    | none => true)
  let s := (run.filter fun q => !readsPad q.kind).foldl (fun s q => goOnCmd s n q) s
  let reader := run.find? fun q => readsPad q.kind
  let s := match reader with
    | some q => goOnCmd s n q
    | none => s
  let s := startCopies n (engEntries + 1) reader.isNone s
  if (tileAt s n).copy.any fun q => q.busy && q.walkTill.isNone then askEngine s n false else s
/-- The bytes that a fill of the scratchpad writes in one cycle; then it goes on, stops or completes (R275). -/
def fillCycle (s : State) (n : Node) (q : EngCmd) (d : TDesc) (p : Word) : State :=
  let ws := ((((linearAddrs d).zip (fillBytes d p)).drop (64 * q.next)).take 64)
  match badAddr (tileAt s n) (ws.map (·.1)) with
  | some a => stopCmd s n false q fBounds a
  | none =>
    let s := modCmd (engWrite s n ws) n false q.id fun q => { q with next := q.next + 1 }
    if q.total ≤ q.next + 1 then leaveQueue s n false q true
    else push s (dueIn s n 1) phEnd (nodeKey n) (.engineCommandComplete n false q.id)
/-- A copy command at a completion event: a refused one is stopped, and aborts its channel (R269, R274); a fill writes the
bytes of the cycle. -/
def finishCopy (s : State) (n : Node) (q : EngCmd) : State :=
  if q.refused then
    let s := leaveQueue s n false q false
    match q.kind, q.stopped with
    | .pushChan _ _ ep _, some (_, code, _) => abortEp s ⟨n.pkg, n.id, ep⟩ code
    | _, _ => s
  else if q.stopped.isSome then s
  else match q.kind with
    | .fill d p => if d.loc = 0 then fillCycle s n q d p else leaveQueue s n false q true
    | _ => leaveQueue s n false q true
/-- XLAT.resume of a copy command: it goes on from its recorded point, the first packet that is not acknowledged (R269). -/
def resumeCopy (s : State) (n : Node) (q : EngCmd) : State :=
  let fill := fillsPad q.kind
  let s := modCmd s n false q.id fun q => { q with stopped := none, next := if fill then q.next else 0 }
  askEngine (if fill ∨ (q.total ≠ 0 ∧ q.acked.length = q.total) then push s s.now phEnd (nodeKey n) (.engineCommandComplete n false q.id)
    else s) n false

/-! ### Copy forms (R265, R271 to R276) -/

/-- Why a captured pair of descriptors does not fit; indices say which (Table 5). -/
abbrev Bad := Option (Nat × Nat)
/-- The first of several checks that fails. -/
def firstBad : List (Bool × Nat × Nat) → Bad
  | [] => none
  | (b, x) :: l => if b then some x else firstBad l
/-- The fault of a failed check. -/
def badAct (x : Nat × Nat) : Act := .trap fDescriptor 0 (BitVec.ofNat 64 (x.1 + x.2 * 2 ^ 8))
/-- Captures a descriptor: it is cleared, uncorrectable, or goes on (R264, R265, R352). -/
def capture (s : State) (r : SlotRef) (c : Ctx) (i : DIx) (f : State → TDesc → Act) : Act :=
  tdFind s r c i.toNat 0 64 fun s =>
    if !ahas (tileAt s r.node).tds i.toNat then badAct (16, i.toNat)
    else f s (tdOf ((tdAt (tileAt s r.node) i.toNat).map (·.toNat)))
/-- Whether a slot may issue copy forms (R266). -/
def mayCopy (s : State) (r : SlotRef) (c : Ctx) : Bool :=
  match (tileAt s r.node).copyRole with
  | some h => h = (r.slot, c.uid)
  | none => true
/-- Whether two regions agree in shape without transposition (R272). -/
def sameShape (d a : TDesc) : Bool :=
  d.ty = a.ty && d.count = a.count && (!d.type.isBlock || (d.blk = a.blk && d.ext.getD 0 0 = a.ext.getD 0 0))
/-- Whether two regions agree in shape with transposition by units of so many bytes (R273). -/
def turnedShape (d a : TDesc) (u : Nat) : Bool :=
  d.ty = a.ty && !d.type.isBlock && tyBytes d.type = u && 2 ≤ d.rank && 2 ≤ a.rank &&
  d.extent 0 = a.extent 1 && d.extent 1 = a.extent 0 && d.extent 2 = a.extent 2 && d.extent 3 = a.extent 3
/-- The shape rule of a transposition unit. -/
def shapeOk (d a : TDesc) : Tr → Bool
  | .none => sameShape d a
  | .tr8 => turnedShape d a 1
  | .tr16 => turnedShape d a 2
/-- RSEM as captured. -/
def rsemOf (n : BitVec 8) (v : Bool) : Option Nat := if v then some n.toNat else none
/-- A push into a channel: checked as one complete SEND, then queued with its sequence numbers taken (R274). A packet of the slot that
is open on the endpoint refuses it at step 7: R178 does not say so. DESIGN CHOICE, log 58. -/
def pushChanAct (sync : ESync) (d a : TDesc) (di : DIx) (s : State) (r : SlotRef) (c : Ctx) : Act :=
  let ep := d.base % 128
  let mt := d.base / 2 ^ 8 % 64
  let e : EpRef := ⟨r.pkg, r.tile, ep⟩
  if 4096 < d.bytes then badAct (18, di.toNat)
  else match strain s r c (BitVec.ofNat 7 ep) true (fun _ => none) (fun m q => m.edge q .send mt) with
    | .no x => x
    | .closed _ => enqueue s r c false sync 0 (.pushChan d a ep mt) fun _ => id
    | .edge s x t =>
      if x.pkt.isSome || !pieceOk x t mt d.bytes true then .trap fProtocol 0 (strainAux ep x.q 7)
      else if windowShut s e then chPark
      else enqueue s r c false sync 0 (.pushChan d a ep mt) fun id s =>
        countSent (modEp s e fun x => { x with
          txSeq := x.txSeq + max 1 (ceilDiv d.bytes 32), resv := x.resv ++ [(id, x.txSeq)], q := t.next }) e
/-- The register check of a CP.PUSH to a destination: its fault, FAULTVA and FAULTAUX (R265, R272). -/
def pushFault (s : State) (dd : TDesc) (b : SIx) (x : Word) (rsv : Bool) : Option (Nat × Word) :=
  if dd.loc = 0 then
    if x = 0 then none else if !isRemote x ∨ x.toNat % 2 ^ 20 ≠ 0 then some (fOperand, 0) else remoteFault s x true
  else if b ≠ 0 ∨ rsv then some (fOperand, 0) else none
/-- CP.PUSH: its register checks, which the destination's kind decides, then the descriptor checks (R265, R272 to R274). -/
def execCpPush (h : Hdr) (sync : ESync) (rsem : BitVec 8) (rsv : Bool) (tr : Tr) (d a : DIx) (b : SIx) : State → Outc :=
  runForm { i := .cpPush h sync rsem rsv tr d a b, h := h, srcs := [.s b], early := true } fun s r c =>
    if !mayCopy s r c then .trap fOperand 0 0
    else capture s r c d fun s dd =>
      let x := rs c b
      match pushFault s dd b x rsv with
      | some (f, v) => .trap f v 0
      | none => capture s r c a fun s da =>
        let target : Node := if x = 0 then r.node else remoteHome x
        match firstBad [(da.loc ≠ 0, 17, a.toNat), (isSpout r.tile && dd.loc = 1, 17, d.toNat),
            (c.d.det && dd.loc = 0 && target.pkg ≠ r.pkg, 17, d.toNat), (!shapeOk dd da tr, 20, d.toNat)] with
        | some k => badAct k
        | none =>
          if dd.loc = 0 then enqueue s r c false sync 0 (.push dd da target tr (rsemOf rsem rsv)) fun _ => id
          else if dd.loc = 1 then enqueue s r c false sync 0 (.push dd da r.node tr none) fun _ => id
          else pushChanAct sync dd da d s r c
/-- CP.FILL (R275). -/
def execCpFill (h : Hdr) (sync : ESync) (d : DIx) (b : SIx) : State → Outc :=
  runForm { i := .cpFill h sync d b, h := h, srcs := [.s b] } fun s r c =>
    if !mayCopy s r c then .trap fOperand 0 0
    else capture s r c d fun s dd =>
      match firstBad [(dd.loc = 2 || (isSpout r.tile && dd.loc = 1), 17, d.toNat), (dd.type.isBlock, 19, d.toNat)] with
      | some k => badAct k
      | none => enqueue s r c false sync 1 (.fill dd (rs c b)) fun _ => id
/-- CP.PULLREQ (R276). -/
def execCpPullreq (h : Hdr) (sync : ESync) (rsem : BitVec 8) (rsv : Bool) (d a : DIx) : State → Outc :=
  runForm { i := .cpPullreq h sync rsem rsv d a, h := h } fun s r c =>
    if !mayCopy s r c then .trap fOperand 0 0
    else capture s r c d fun s dd => capture s r c a fun s da =>
      match firstBad [(da.loc ≠ 1 || isSpout r.tile, 17, a.toNat), (dd.loc ≠ 0, 17, d.toNat), (!sameShape dd da, 20, d.toNat)] with
      | some k => badAct k
      | none => enqueue s r c false sync 2 (.pull dd da (rsemOf rsem rsv)) fun _ => id

end Sys2Proof.Machine
end

