-- ==== Sys2Proof/Machine/Vector.lean ====
section
/-! DEFINITION. Vector forms: floating point, integer, movement, conversion, blocks, reductions (R133 to R144, R149). -/

namespace Sys2Proof.Machine

/-! ### Flags, draws and lanes -/

/-- What the rounding steps of a form leave: the generator, the flags raised, the lowest lane that raised an enabled one
(R27, R31). -/
structure FAcc where
  seed : Word
  flags : Nat
  bad : Option Nat
  deriving DecidableEq, Repr

/-- The enabled flags of FPFLAGS (R31). -/
def enabled (c : Ctx) : Nat := c.fpflags.toNat / 2 ^ 8 % 32
/-- Adds the flags of a step that is reported under a lane. -/
def FAcc.add (a : FAcc) (en lane fl : Nat) : FAcc :=
  { a with flags := a.flags ||| fl
           bad := if fl &&& en = 0 then a.bad else match a.bad with
             | some l => some (min l lane)
             | none => some lane }
/-- A step's rounding, its draw taken (R26, R27). -/
def FAcc.draw (a : FAcc) (rm : Rm) : Rnd × FAcc := ((takeDraw rm a.seed).1, { a with seed := (takeDraw rm a.seed).2 })
/-- The start of a form's steps. -/
def facc (c : Ctx) : FAcc := ⟨c.seed, 0, none⟩

/-- Completes a floating-point form: it traps, its flags ORed and its draws made, where an enabled flag was raised; else
its results land (R27, R31). -/
def fpEnd (s : State) (r : SlotRef) (c : Ctx) (a : FAcc) (srcs : List Reg) (l : Nat) (ws : List (Reg × VVal)) : Act :=
  let note (c : Ctx) : Ctx := { c with fpflags := c.fpflags ||| BitVec.ofNat 64 a.flags, seed := a.seed }
  match a.bad with
  | some lane => .trapIn (fun s => modUnit s r c.uid note) fFpTrap 0 (BitVec.ofNat 64 (a.flags + lane * 2 ^ 8))
  | none => results (modCtx s r note) r c srcs l ws

/-- Values of a vector's lanes: f on the active ones, which draw in ascending order, the idle ones by the mask. -/
def laneLoop (en : Nat) (on : Nat → Bool) (idle : Nat → Nat) (rm : Rm) (f : Nat → Rnd → Res) : Nat → Nat → FAcc → List Nat × FAcc
  | 0, _, a => ([], a)
  | n + 1, i, a =>
    if on i then
      let d := a.draw rm
      let x := f i d.1
      let t := laneLoop en on idle rm f n (i + 1) (d.2.add en i x.flags)
      (x.code :: t.1, t.2)
    else
      let t := laneLoop en on idle rm f n (i + 1) a
      (idle i :: t.1, t.2)

/-! ### The floating-point array (R134, R135) -/

/-- Beats of an operation on lanes of a width. -/
def beatsOf (w : Nat) : Nat := if w = 64 then 1 else if w = 32 then 2 else 4
/-- An array form of so many beats: it waits for the array, and the rest of its latency counts from its first beat (R135). -/
def arrayForm (beats : Nat) (body : State → SlotRef → Ctx → Nat → Act) (s : State) (r : SlotRef) (c : Ctx) : Act :=
  let b := (tileAt s r.node).beats
  if 15 < b then .retry .busy 0 0 0
  else
    let s := modTile s r.node fun t => { t with beats := b + beats }
    let s := pushOnce s (dueIn s r.node 1) phStart (nodeKey r.node) (.arrayBeatStart r.node)
    body s r c b
/-- ARRAY_BEAT_START: a beat of an earlier form has started (R135). -/
def evArrayBeatStart (n : Node) (s : State) : State :=
  let s := modTile s n fun t => { t with beats := t.beats - 1 }
  if (tileAt s n).beats = 0 then s
  else pushOnce s (dueIn s n 1) phStart (nodeKey n) (.arrayBeatStart n)

/-! ### Lane forms -/

/-- A lane-wise form of the array with a vector destination: f gives the result of a lane under a rounding. -/
def fpLanes (i : Instr) (h : Hdr) (t : Ty) (rm : Rm) (m : VMask) (d : VIx) (vs : List VIx) (l : Nat) (array : Bool)
    (f : (Nat → Nat → Nat) → Nat → Rnd → Res) : State → Outc :=
  let srcs := vs.map Reg.v ++ maskSrcs m (.v d)
  let go (s : State) (r : SlotRef) (c : Ctx) (b : Nat) : Act :=
    let w := t.width
    let src (k j : Nat) : Nat := laneAt w (rv c (vs.getD k 0)) j
    let o := laneLoop (enabled c) (laneOn c m.k) (fun j => idleLane m (laneAt w (rv c d) j)) (resolveRm rm c.rmode) (f src)
      (laneCount w) 0 (facc c)
    fpEnd s r c o.2 srcs (b + l) [(.v d, packLanes w o.1)]
  runForm { i := i, h := h, srcs := srcs, dsts := [.v d] }
    (if array then arrayForm (beatsOf t.width) go else fun s r c => go s r c 0)

/-- A form of two sources rounded lane by lane. -/
def fp2 (i : Instr) (h : Hdr) (t : Ty) (rm : Rm) (m : VMask) (d a b : VIx) (l : Nat) (op : Fmt → Rnd → Num → Num → Res) : State → Outc :=
  fpLanes i h t rm m d [a, b] l true fun src j rnd =>
    op (Fmt.of t) rnd ((Fmt.of t).read (src 0 j)) ((Fmt.of t).read (src 1 j))
/-- A fused form; sa and sc negate the product and the addend. -/
def fp3 (i : Instr) (h : Hdr) (t : Ty) (rm : Rm) (m : VMask) (d a b x : VIx) (sa sc : Bool) : State → Outc :=
  fpLanes i h t rm m d [a, b, x] 8 true fun src j rnd =>
    let f := Fmt.of t
    let na := f.read (src 0 j)
    let nc := f.read (src 2 j)
    fFma f rnd (if sa then na.negate else na) (f.read (src 1 j)) (if sc then nc.negate else nc)
/-- A form of one source. -/
def fp1 (i : Instr) (h : Hdr) (t : Ty) (rm : Rm) (m : VMask) (d a : VIx) (l : Nat) (array : Bool) (op : Fmt → Rnd → Num → Res) : State → Outc :=
  fpLanes i h t rm m d [a] l array fun src j rnd => op (Fmt.of t) rnd ((Fmt.of t).read (src 0 j))

/-- VADD (R138). -/
def execVadd (h : Hdr) (t : Ty) (rm : Rm) (m : VMask) (d a b : VIx) : State → Outc := fp2 (.vadd h t rm m d a b) h t rm m d a b 8 fAdd
/-- VSUB (R138). -/
def execVsub (h : Hdr) (t : Ty) (rm : Rm) (m : VMask) (d a b : VIx) : State → Outc := fp2 (.vsub h t rm m d a b) h t rm m d a b 8 fSub
/-- VMUL (R138). -/
def execVmul (h : Hdr) (t : Ty) (rm : Rm) (m : VMask) (d a b : VIx) : State → Outc := fp2 (.vmul h t rm m d a b) h t rm m d a b 8 fMul
/-- VFMA (R138). -/
def execVfma (h : Hdr) (t : Ty) (rm : Rm) (m : VMask) (d a b x : VIx) : State → Outc := fp3 (.vfma h t rm m d a b x) h t rm m d a b x false false
/-- VFMS (R138). -/
def execVfms (h : Hdr) (t : Ty) (rm : Rm) (m : VMask) (d a b x : VIx) : State → Outc := fp3 (.vfms h t rm m d a b x) h t rm m d a b x false true
/-- VFNMA (R138). -/
def execVfnma (h : Hdr) (t : Ty) (rm : Rm) (m : VMask) (d a b x : VIx) : State → Outc := fp3 (.vfnma h t rm m d a b x) h t rm m d a b x true false
/-- VDIV (R138). -/
def execVdiv (h : Hdr) (t : Ty) (rm : Rm) (m : VMask) (d a b : VIx) : State → Outc := fp2 (.vdiv h t rm m d a b) h t rm m d a b 32 fDiv
/-- VSQRT (R138). -/
def execVsqrt (h : Hdr) (t : Ty) (rm : Rm) (m : VMask) (d a : VIx) : State → Outc := fp1 (.vsqrt h t rm m d a) h t rm m d a 32 true fSqrt
/-- A number with its sign replaced; a NaN gives the canonical NaN and no flag (R138). -/
def withSign (neg : Bool) : Fmt → Rnd → Num → Res := fun f _ x =>
  match x with
  | .nan _ => ⟨f.nanCode, 0⟩
  | x => ⟨f.write (if x.sign = neg then x else x.negate), 0⟩
/-- A number with its sign inverted (R138). -/
def flipSign : Fmt → Rnd → Num → Res := fun f _ x => ⟨f.write x.negate, 0⟩
/-- VABS runs in the integer pipe (R138). -/
def execVabs (h : Hdr) (t : Ty) (m : VMask) (d a : VIx) : State → Outc := fp1 (.vabs h t m d a) h t .rne m d a 4 false (withSign false)
/-- VNEG runs in the integer pipe (R138). -/
def execVneg (h : Hdr) (t : Ty) (m : VMask) (d a : VIx) : State → Outc := fp1 (.vneg h t m d a) h t .rne m d a 4 false flipSign
/-- VMIN (R30, R138). -/
def execVmin (h : Hdr) (t : Ty) (m : VMask) (d a b : VIx) : State → Outc := fp2 (.vmin h t m d a b) h t .rne m d a b 8 fun f _ x y => fMinMax f false false x y
/-- VMAX (R30, R138). -/
def execVmax (h : Hdr) (t : Ty) (m : VMask) (d a b : VIx) : State → Outc := fp2 (.vmax h t m d a b) h t .rne m d a b 8 fun f _ x y => fMinMax f true false x y
/-- VMINNUM (R30, R138). -/
def execVminnum (h : Hdr) (t : Ty) (m : VMask) (d a b : VIx) : State → Outc := fp2 (.vminnum h t m d a b) h t .rne m d a b 8 fun f _ x y => fMinMax f false true x y
/-- VMAXNUM (R30, R138). -/
def execVmaxnum (h : Hdr) (t : Ty) (m : VMask) (d a b : VIx) : State → Outc := fp2 (.vmaxnum h t m d a b) h t .rne m d a b 8 fun f _ x y => fMinMax f true true x y
/-- VROUND (R138). -/
def execVround (h : Hdr) (t : Ty) (rm : Rm) (m : VMask) (d a : VIx) : State → Outc := fp1 (.vround h t rm m d a) h t rm m d a 8 true fRoundInt

/-- The mask that lane relations make: bits beyond the lanes 0, idle bits by the mask (R138). -/
def maskOut (c : Ctx) (m : VMask) (d : KIx) (n : Nat) (p : Nat → Bool) : VVal :=
  BitVec.ofNat 2048 ((List.range n).foldl (fun x i =>
    x + (if laneOn c m.k i then (p i).toNat else if m.z then 0 else ((rk c d).getLsbD i).toNat) * 2 ^ i) 0)
/-- VCMP; quiet: only a signalling NaN raises invalid (R30, R138). -/
def execVcmp (h : Hdr) (t : Ty) (x : FCond) (m : VMask) (d : KIx) (a b : VIx) : State → Outc :=
  let srcs := [.v a, .v b] ++ maskSrcs m (.k d)
  runForm { i := .vcmp h t x m d a b, h := h, srcs := srcs, dsts := [.k d] } <| arrayForm (beatsOf t.width) fun s r c b' =>
    let w := t.width
    let num (v : VIx) (j : Nat) : Num := (Fmt.of t).read (laneAt w (rv c v) j)
    let acc := (List.range (laneCount w)).foldl (fun acc j =>
      if laneOn c m.k j then acc.add (enabled c) j (sigFlags [num a j, num b j]) else acc) (facc c)
    fpEnd s r c acc srcs (b' + 4) [(.k d, maskOut c m d (laneCount w) fun j => fCmp x (num a j) (num b j))]

/-! ### Integer lanes (R139) -/

/-- A lane-wise integer form of two sources. -/
def intLanes (i : Instr) (h : Hdr) (t : Ty) (m : VMask) (d a b : VIx) (op : Nat → Nat → Nat) : State → Outc :=
  let srcs := [.v a, .v b] ++ maskSrcs m (.v d)
  runForm { i := i, h := h, srcs := srcs, dsts := [.v d] } fun s r c =>
    let w := t.width
    let lane (j : Nat) : Nat :=
      if laneOn c m.k j then op (laneAt w (rv c a) j) (laneAt w (rv c b) j) else idleLane m (laneAt w (rv c d) j)
    results s r c srcs 4 [(.v d, packLanes w ((List.range (laneCount w)).map lane))]
/-- A sum of lanes, wrapped or clamped. -/
def laneSum (t : Ty) (sat neg : Bool) (x y : Nat) : Nat :=
  let z := if neg then intLane t x - intLane t y else intLane t x + intLane t y
  ofSigned t.width (if sat then clampInt (loInt t) (hiInt t) z else z)
/-- VIADD (R139). -/
def execViadd (h : Hdr) (t : Ty) (sat : Bool) (m : VMask) (d a b : VIx) : State → Outc := intLanes (.viadd h t sat m d a b) h t m d a b (laneSum t sat false)
/-- VISUB (R139). -/
def execVisub (h : Hdr) (t : Ty) (sat : Bool) (m : VMask) (d a b : VIx) : State → Outc := intLanes (.visub h t sat m d a b) h t m d a b (laneSum t sat true)
/-- VIMUL (R139). -/
def execVimul (h : Hdr) (t : Ty) (m : VMask) (d a b : VIx) : State → Outc := intLanes (.vimul h t m d a b) h t m d a b fun x y => ofSigned t.width (intLane t x * intLane t y)
/-- VIMULH (R139). -/
def execVimulh (h : Hdr) (t : Ty) (m : VMask) (d a b : VIx) : State → Outc := intLanes (.vimulh h t m d a b) h t m d a b fun x y => ofSigned t.width (intLane t x * intLane t y / 2 ^ t.width)
/-- VIMIN (R139). -/
def execVimin (h : Hdr) (t : Ty) (m : VMask) (d a b : VIx) : State → Outc := intLanes (.vimin h t m d a b) h t m d a b fun x y => if intLane t x ≤ intLane t y then x else y
/-- VIMAX (R139). -/
def execVimax (h : Hdr) (t : Ty) (m : VMask) (d a b : VIx) : State → Outc := intLanes (.vimax h t m d a b) h t m d a b fun x y => if intLane t x ≤ intLane t y then y else x
/-- VAND (R139). -/
def execVand (h : Hdr) (t : Ty) (m : VMask) (d a b : VIx) : State → Outc := intLanes (.vand h t m d a b) h t m d a b fun x y => x &&& y
/-- VOR (R139). -/
def execVor (h : Hdr) (t : Ty) (m : VMask) (d a b : VIx) : State → Outc := intLanes (.vor h t m d a b) h t m d a b fun x y => x ||| y
/-- VXOR (R139). -/
def execVxor (h : Hdr) (t : Ty) (m : VMask) (d a b : VIx) : State → Outc := intLanes (.vxor h t m d a b) h t m d a b fun x y => x ^^^ y
/-- VSHL (R139). -/
def execVshl (h : Hdr) (t : Ty) (m : VMask) (d a b : VIx) : State → Outc := intLanes (.vshl h t m d a b) h t m d a b fun x y => x * 2 ^ (y % t.width) % 2 ^ t.width
/-- VSHR (R139). -/
def execVshr (h : Hdr) (t : Ty) (m : VMask) (d a b : VIx) : State → Outc := intLanes (.vshr h t m d a b) h t m d a b fun x y => x / 2 ^ (y % t.width)
/-- VSAR (R139). The sign is that of T: of an unsigned type zeros come in (DEDUCED, log 14). -/
def execVsar (h : Hdr) (t : Ty) (m : VMask) (d a b : VIx) : State → Outc := intLanes (.vsar h t m d a b) h t m d a b fun x y => ofSigned t.width (intLane t x / 2 ^ (y % t.width))
/-- The relation of an integer condition. -/
def icHolds (x : ICond) (a b : Int) : Bool :=
  match x with
  | .eq => a = b
  | .ne => a ≠ b
  | .lt => a < b
  | .le => a ≤ b
  | .gt => b < a
  | .ge => b ≤ a
/-- VICMP (R139). -/
def execVicmp (h : Hdr) (t : Ty) (x : ICond) (m : VMask) (d : KIx) (a b : VIx) : State → Outc :=
  let srcs := [.v a, .v b] ++ maskSrcs m (.k d)
  runForm { i := .vicmp h t x m d a b, h := h, srcs := srcs, dsts := [.k d] } fun s r c =>
    let w := t.width
    results s r c srcs 4 [(.k d, maskOut c m d (laneCount w) fun j => icHolds x (intLane t (laneAt w (rv c a) j)) (intLane t (laneAt w (rv c b) j)))]

/-! ### Movement (R140) -/

/-- Element bits of a lane of a plain type: the low 4 or 6 bits of an 8-bit lane for e2m1, e3m2, e2m3 (R133). -/
def elemBits (t : Ty) (x : Nat) : Nat := if t.isInt then x else x % 2 ^ (Fmt.of t).bits
/-- The element that a vector form reads in a lane: the bits above a narrow one are ignored (R133). -/
def eltAt (t : Ty) (x : VVal) (i : Nat) : Nat := elemBits t (laneAt t.width x i)
/-- A movement form under a mask: f gives an active lane, whose bits above a narrow element are written 0 (R133; log 41). -/
def moveLanes (i : Instr) (h : Hdr) (t : Ty) (m : VMask) (d : VIx) (ss : List Reg) (f : Ctx → Nat → Nat) : State → Outc :=
  let srcs := ss ++ maskSrcs m (.v d)
  runForm { i := i, h := h, srcs := srcs, dsts := [.v d] } fun s r c =>
    let lane (j : Nat) : Nat := if laneOn c m.k j then elemBits t (f c j) else idleLane m (laneAt t.width (rv c d) j)
    results s r c srcs 4 [(.v d, packLanes t.width ((List.range (laneCount t.width)).map lane))]
/-- VMOV (R140). -/
def execVmov (h : Hdr) (t : Ty) (m : VMask) (d a : VIx) : State → Outc := moveLanes (.vmov h t m d a) h t m d [.v a] fun c j => laneAt t.width (rv c a) j
/-- VBCAST (R140). -/
def execVbcast (h : Hdr) (t : Ty) (m : VMask) (d : VIx) (a : SIx) : State → Outc := moveLanes (.vbcast h t m d a) h t m d [.s a] fun c _ => (rs c a).toNat % 2 ^ t.width
/-- VSEL (R140). -/
def execVsel (h : Hdr) (t : Ty) (d a b : VIx) (x : KIx) : State → Outc :=
  runForm { i := .vsel h t d a b x, h := h, srcs := [.v a, .v b, .k x], dsts := [.v d] } fun s r c =>
    let lane (j : Nat) : Nat := eltAt t (if (rk c x).getLsbD j then rv c a else rv c b) j
    results s r c [.v a, .v b] 4 [(.v d, packLanes t.width ((List.range (laneCount t.width)).map lane))]
/-- VPERM (R140). -/
def execVperm (h : Hdr) (t : Ty) (m : VMask) (d a b : VIx) : State → Outc :=
  moveLanes (.vperm h t m d a b) h t m d [.v a, .v b] fun c j => laneAt t.width (rv c a) (eltAt t (rv c b) j % laneCount t.width)
/-- VEXTR (R140). -/
def execVextr (h : Hdr) (t : Ty) (d : SIx) (a : VIx) (b : SIx) : State → Outc :=
  runForm { i := .vextr h t d a b, h := h, srcs := [.v a, .s b], dsts := [.s d] } fun s r c =>
    if laneCount t.width ≤ (rs c b).toNat then .trap fOperand 0 (rs c b)
    else
      let x := eltAt t (rv c a) (rs c b).toNat
      results s r c [.v a, .s b] 4 [(.s d, sval (if t.isSigned then BitVec.ofInt 64 (toSigned t.width x) else BitVec.ofNat 64 x))]
/-- VINS reads its destination (R140). -/
def execVins (h : Hdr) (t : Ty) (d : VIx) (a b : SIx) : State → Outc :=
  runForm { i := .vins h t d a b, h := h, srcs := [.s a, .s b, .v d], dsts := [.v d] } fun s r c =>
    if laneCount t.width ≤ (rs c b).toNat then .trap fOperand 0 (rs c b)
    else
      let lane (j : Nat) : Nat := if j = (rs c b).toNat then elemBits t ((rs c a).toNat % 2 ^ t.width) else laneAt t.width (rv c d) j
      results s r c [.s a, .s b, .v d] 4 [(.v d, packLanes t.width ((List.range (laneCount t.width)).map lane))]
/-- VIOTA (R140). -/
def execViota (h : Hdr) (t : Ty) (m : VMask) (d : VIx) : State → Outc := moveLanes (.viota h t m d) h t m d [] fun _ j => j
/-- VCOMPRESS (R140). -/
def execVcompress (h : Hdr) (t : Ty) (k : KIx) (d a : VIx) : State → Outc :=
  runForm { i := .vcompress h t k d a, h := h, srcs := [.v a, .k k], dsts := [.v d] } fun s r c =>
    let on := (List.range (laneCount t.width)).filter (laneOn c k)
    results s r c [.v a] 4 [(.v d, packLanes t.width (on.map (eltAt t (rv c a))))]

/-! ### Conversion and blocks (R141, R142) -/

/-- VCVT (R141). -/
def execVcvt (h : Hdr) (t : Ty) (rm : Rm) (src : Ty) (hi : Bool) (m : VMask) (d a : VIx) : State → Outc :=
  let ws := src.width
  let wd := t.width
  let n := 2048 / max ws wd
  let base := if hi then n else 0
  let sBase := if ws < wd then base else 0
  let dBase := if wd < ws then base else 0
  let srcs := [.v a] ++ maskSrcs m (.v d) ++ if wd < ws then [.v d] else []
  runForm { i := .vcvt h t rm src hi m d a, h := h, srcs := srcs, dsts := [.v d] } <| arrayForm (ceilDiv n 32) fun s r c b =>
    let f (j : Nat) (rnd : Rnd) : Res := convert t rnd (readNum src (eltAt src (rv c a) (sBase + (j - dBase))))
    let mine (j : Nat) : Bool := dBase ≤ j && j < dBase + n
    let o := laneLoop (enabled c) (fun j => mine j && laneOn c m.k j)
      (fun j => if mine j then idleLane m (laneAt wd (rv c d) j) else laneAt wd (rv c d) j)
      (resolveRm rm c.rmode) f (laneCount wd) 0 (facc c)
    fpEnd s r c o.2 srcs (b + 8) [(.v d, packLanes wd o.1)]

/-- Code of a TQ4 type (R23). -/
def tqtCode : Tqt → Nat
  | .int => 0 | .e2m1 => 1 | .pow2 => 2 | .hyb => 3
/-- Blocks of a group: 2, or 16 for tq4 (R142). -/
def groupBlks (t : Ty) : Nat := if t = .tq4 then 16 else 2
/-- VQUANT (R142). -/
def execVquant (h : Hdr) (t : Ty) (pos : BitVec 4) (q : Tqt) (d a : VIx) : State → Outc :=
  runForm { i := .vquant h t pos q d a, h := h, srcs := [.v a, .v d], dsts := [.v d] } <| arrayForm 2 fun s r c b =>
    let g := groupBlks t
    let n := blkLen t
    let zs (k : Nat) : List Num := (List.range n).map fun j => (Fmt.of .f32).read (laneAt 32 (rv c a) (n * k + j))
    let ks := (List.range g).filter fun k => pos.toNat * g + k < blkCount t
    let o := ks.foldl (fun (x : Nat × FAcc) k =>
      let y := quantBlk t (tqtCode q) (zs k)
      (putBlk t x.1 y.1 (pos.toNat * g + k), x.2.add (enabled c) (n * k) y.2)) ((rv c d).toNat, facc c)
    fpEnd s r c o.2 [.v a, .v d] (b + 8) [(.v d, BitVec.ofNat 2048 (clearZeroBytes t o.1))]
/-- VDEQUANT (R142). -/
def execVdequant (h : Hdr) (t : Ty) (pos : BitVec 4) (d a : VIx) : State → Outc :=
  runForm { i := .vdequant h t pos d a, h := h, srcs := [.v a], dsts := [.v d] } <| arrayForm 2 fun s r c b =>
    let n := blkLen t
    let f (j : Nat) (rnd : Rnd) : Res :=
      let k := pos.toNat * groupBlks t + j / n
      if k < blkCount t then convert .f32 rnd ((imgBlk t (rv c a).toNat k).value t (j % n)) else ⟨0, 0⟩
    let o := laneLoop 0 (fun _ => true) (fun _ => 0) .rne f 64 0 (facc c)
    -- a flag is reported under the lowest lane of its block (R31)
    let acc := (List.range 64).foldl (fun x j => x.add (enabled c) (j / n * n) (f j Rnd.rne).flags) (facc c)
    fpEnd s r c acc [.v a] (b + 8) [(.v d, packLanes 32 o.1)]
/-- VBADDQ (R36, R142). -/
def execVbaddq (h : Hdr) (t : Ty) (pos : BitVec 4) (d a b : VIx) : State → Outc :=
  let beats := match t with
    | .mxfp8 | .mxint8 => 7
    | .mxfp6e3 | .mxfp6e2 => 10
    | .mxfp4 => 15
    | _ => 11
  runForm { i := .vbaddq h t pos d a b, h := h, srcs := [.v a, .v b], dsts := [.v d] } <| arrayForm beats fun s r c b' =>
    let o := (List.range (blkCount t)).foldl (fun (x : Nat × FAcc) k =>
      let ba := imgBlk t (rv c a).toNat k
      let bb := imgBlk t (rv c b).toNat k
      let sums := (List.range (blkLen t)).map fun j =>
        let ra := convert .f32 Rnd.rne (ba.value t j)
        let rb := convert .f32 Rnd.rne (bb.value t j)
        let z := fAdd (Fmt.of .f32) Rnd.rne ((Fmt.of .f32).read ra.code) ((Fmt.of .f32).read rb.code)
        ((Fmt.of .f32).read z.code, ra.flags ||| rb.flags ||| z.flags)
      let y := quantBlk t (ba.scale / 64) (sums.map (·.1))
      (putBlk t x.1 y.1 k, x.2.add (enabled c) k (sums.foldl (fun f p => f ||| p.2) y.2))) (0, facc c)
    fpEnd s r c o.2 [.v a, .v b] (b' + 12) [(.v d, BitVec.ofNat 2048 (clearZeroBytes t o.1))]

/-! ### Reductions (R32, R143) -/

/-- One step of a reduction of floating-point codes. -/
def fpStep (t : Ty) (rop : Rop) (rnd : Rnd) (x y : Nat) : Res :=
  let f := Fmt.of t
  match rop with
  | .add => fAdd f rnd (f.read x) (f.read y)
  | .mul => fMul f rnd (f.read x) (f.read y)
  | .min => fMinMax f false false (f.read x) (f.read y)
  | .max => fMinMax f true false (f.read x) (f.read y)
  | .minnum => fMinMax f false true (f.read x) (f.read y)
  | .maxnum => fMinMax f true true (f.read x) (f.read y)
/-- One step of a reduction of integer lanes. -/
def intStep (t : Ty) (rop : Rop) (x y : Nat) : Nat :=
  match rop with
  | .add => ofSigned t.width (intLane t x + intLane t y)
  | .mul => ofSigned t.width (intLane t x * intLane t y)
  | .min | .minnum => if intLane t x ≤ intLane t y then x else y
  | .max | .maxnum => if intLane t x ≤ intLane t y then y else x
/-- A step of either kind. -/
def redStep (t : Ty) (rop : Rop) (rnd : Rnd) (x y : Nat) : Res :=
  if t.isInt then ⟨intStep t rop x y, 0⟩ else fpStep t rop rnd x y
/-- The value of an empty sequence (R32, R143). -/
def redEmpty (t : Ty) (rop : Rop) : Nat :=
  match rop with
  | .add => 0
  | .mul => if t.isInt then 1 else ((Fmt.of t).round Rnd.rne ⟨false, 1, 0, false⟩).code
  | .min | .minnum => if t.isInt then ofSigned t.width (hiInt t) else (Fmt.of t).infCode
  | .max | .maxnum => if t.isInt then ofSigned t.width (loInt t) else (Fmt.of t).signed true (Fmt.of t).infCode
/-- A level of the lane tree over elements with their lowest lanes (R32). -/
def treeLevel (en : Nat) (rm : Rm) (op : Rnd → Nat → Nat → Res) : List (Nat × Nat) → FAcc → List (Nat × Nat) × FAcc
  | (l, x) :: (_, y) :: xs, a =>
    let d := a.draw rm
    let z := op d.1 x y
    let t := treeLevel en rm op xs (d.2.add en l z.flags)
    ((l, z.code) :: t.1, t.2)
  | xs, a => (xs, a)
/-- The lane tree (R32). A single active lane is the result as its bits are, a NaN too, and raises no flag: no step rounds it.
DESIGN CHOICE, log 42. -/
def laneTree (en : Nat) (rm : Rm) (op : Rnd → Nat → Nat → Res) (zero : Nat) : Nat → List (Nat × Nat) → FAcc → Nat × FAcc
  | 0, _, a => (zero, a)
  | _, [], a => (zero, a)
  | _, [(_, x)], a => (x, a)
  | n + 1, xs, a =>
    let t := treeLevel en rm op xs a
    laneTree en rm op zero n t.1 t.2
/-- A reduced value in an s register (R143). -/
def redOut (t : Ty) (x : Nat) : Word := if t.isSigned then BitVec.ofInt 64 (toSigned t.width x) else BitVec.ofNat 64 x
/-- Integer reductions run in the integer pipe, the others in the array. -/
def redForm (t : Ty) (body : State → SlotRef → Ctx → Nat → Act) : State → SlotRef → Ctx → Act :=
  if t.isInt then fun s r c => body s r c 0 else arrayForm (beatsOf t.width) body
/-- The rounding a reduction draws under: integer steps draw nothing. -/
def redRm (t : Ty) (rm : Rm) (c : Ctx) : Rm := if t.isInt then .rne else resolveRm rm c.rmode
/-- VRED (R143). -/
def execVred (h : Hdr) (t : Ty) (rm : Rm) (rop : Rop) (k : KIx) (d : SIx) (a : VIx) : State → Outc :=
  runForm { i := .vred h t rm rop k d a, h := h, srcs := [.v a, .k k], dsts := [.s d] } <| redForm t fun s r c b =>
    let xs := ((List.range (laneCount t.width)).filter (laneOn c k)).map fun j => (j, laneAt t.width (rv c a) j)
    let o := laneTree (enabled c) (redRm t rm c) (redStep t rop) (redEmpty t rop) 9 xs (facc c)
    fpEnd s r c o.2 [.v a] (b + if t.isInt then 4 else 16) [(.s d, sval (redOut t o.1))]
/-- VDOT (R143). -/
def execVdot (h : Hdr) (t : Ty) (rm : Rm) (k : KIx) (d : SIx) (a b : VIx) : State → Outc :=
  runForm { i := .vdot h t rm k d a b, h := h, srcs := [.v a, .v b, .k k], dsts := [.s d] } <| arrayForm (beatsOf t.width) fun s r c b' =>
    let w := t.width
    let rm := resolveRm rm c.rmode
    let on := (List.range (laneCount w)).filter (laneOn c k)
    let ps := on.foldl (fun (x : List (Nat × Nat) × FAcc) j =>
      let dr := x.2.draw rm
      let z := fpStep t .mul dr.1 (laneAt w (rv c a) j) (laneAt w (rv c b) j)
      (x.1 ++ [(j, z.code)], dr.2.add (enabled c) j z.flags)) ([], facc c)
    let o := laneTree (enabled c) rm (fpStep t .add) 0 9 ps.1 ps.2
    fpEnd s r c o.2 [.v a, .v b] (b' + 16) [(.s d, sval (redOut t o.1))]
/-- The scan over active lanes: lane by lane, with the last result (R32). The first active lane is copied as its bits are, a NaN
too, and raises no flag. DESIGN CHOICE, log 42. -/
def scanLoop (en : Nat) (rm : Rm) (op : Rnd → Nat → Nat → Res) (on : Nat → Bool) (idle src : Nat → Nat) :
    Nat → Nat → Option Nat → FAcc → List Nat × FAcc
  | 0, _, _, a => ([], a)
  | n + 1, i, last, a =>
    if on i then
      match last with
      | none =>
        let t := scanLoop en rm op on idle src n (i + 1) (some (src i)) a
        (src i :: t.1, t.2)
      | some y =>
        let d := a.draw rm
        let z := op d.1 y (src i)
        let t := scanLoop en rm op on idle src n (i + 1) (some z.code) (d.2.add en i z.flags)
        (z.code :: t.1, t.2)
    else
      let t := scanLoop en rm op on idle src n (i + 1) last a
      (idle i :: t.1, t.2)
/-- VSCAN (R143). -/
def execVscan (h : Hdr) (t : Ty) (rm : Rm) (rop : Rop) (m : VMask) (d a : VIx) : State → Outc :=
  let srcs := [.v a] ++ maskSrcs m (.v d)
  runForm { i := .vscan h t rm rop m d a, h := h, srcs := srcs, dsts := [.v d] } <| redForm t fun s r c b =>
    let w := t.width
    let o := scanLoop (enabled c) (redRm t rm c) (redStep t rop) (laneOn c m.k) (fun j => idleLane m (laneAt w (rv c d) j))
      (laneAt w (rv c a)) (laneCount w) 0 none (facc c)
    fpEnd s r c o.2 srcs (b + if t.isInt then 4 else 24) [(.v d, packLanes w o.1)]

/-! ### Masks (R149) -/

/-- A mask form of register sources. A parked one is retried from its fetch, so no form need be kept of it. -/
def maskForm (h : Hdr) (d : Reg) (ss : List Reg) (f : Ctx → VVal) : State → Outc :=
  runForm { i := .nop h, h := h, srcs := ss, dsts := [d] } fun s r c => results s r c ss 3 [(d, f c)]
/-- KAND (R149). -/
def execKand (h : Hdr) (d a b : KIx) : State → Outc := maskForm h (.k d) [.k a, .k b] fun c => (rk c a &&& rk c b).setWidth 2048
/-- KOR (R149). -/
def execKor (h : Hdr) (d a b : KIx) : State → Outc := maskForm h (.k d) [.k a, .k b] fun c => (rk c a ||| rk c b).setWidth 2048
/-- KNOT (R149). -/
def execKnot (h : Hdr) (d a : KIx) : State → Outc := maskForm h (.k d) [.k a] fun c => (~~~rk c a).setWidth 2048
/-- One bits of a mask below lane n. -/
def popMask (x : KVal) (n : Nat) : Nat := ((List.range n).filter fun i => x.getLsbD i).length
/-- KPOP (R149). -/
def execKpop (h : Hdr) (t : Ty) (d : SIx) (a : KIx) : State → Outc :=
  maskForm h (.s d) [.k a] fun c => BitVec.ofNat 2048 (popMask (rk c a) (laneCount t.width))
/-- The mask of lanes from lo below hi. -/
def laneRange (lo hi : Nat) : VVal := BitVec.ofNat 2048 (if lo < hi then 2 ^ hi - 2 ^ lo else 0)
/-- KSET (R149). -/
def execKset (h : Hdr) (t : Ty) (d : KIx) (a b : SIx) : State → Outc :=
  maskForm h (.k d) [.s a, .s b] fun c => laneRange (rs c a).toNat (min (rs c b).toNat (laneCount t.width))

end Sys2Proof.Machine
end

