-- ==== Sys2Proof/Machine/Matrix.lean ====
section
/-! DEFINITION. The matrix engine: operand pairs, accumulation, planes, streams, drains, microprograms and status (R33 to
R35, R278 to R288). -/

namespace Sys2Proof.Machine

/-! ### Operand pairs (R33, R281) -/

/-- How a pair accumulates: exact integers, 16-group trees of f32, or exact block sums. -/
inductive AccKind | int | tree | blocks
  deriving DecidableEq, Repr
/-- f16 and bf16. -/
def isHalf (t : Ty) : Bool := t = .f16 || t = .bf16
/-- i8 and n8. -/
def isByteInt (t : Ty) : Bool := t = .i8 || t = .n8
/-- e4m3, e5m2, e3m2 and e2m3. -/
def isByteFp (t : Ty) : Bool := 12 ≤ t.code && t.code ≤ 15
/-- MX types. -/
def isMx (t : Ty) : Bool := 18 ≤ t.code
/-- The kind and rate of a pair (Table 10 of chapter 02). -/
def pairOf (a w : Ty) : Option (AccKind × Nat) :=
  if isByteInt a && isByteInt w then some (.int, 2)
  else if isMx a && isMx w then some (.blocks, if a = .mxfp4 && w = .mxfp4 then 4 else 2)
  else if a = .tq4 && w = .tq4 then some (.blocks, 4)
  else if a = .e2m1 && w = .e2m1 then some (.tree, 4)
  else if (isHalf a && 8 ≤ w.code) || (isHalf w && 8 ≤ a.code) then some (.tree, 1)
  else if (isByteFp a && 12 ≤ w.code) || (isByteFp w && 12 ≤ a.code) then some (.tree, 2)
  else none
/-- Types a plane may hold: those of Table 10, f32 and f64 among them beside f16 and bf16 (R33, R281). -/
def weightType (t : Ty) : Bool := isByteInt t || 8 ≤ t.code
/-- Depth of a type's class (R281). R281 lists no depth for f32 and f64, whose pairs run at rate 1: 64. DEDUCED, log 43. -/
def depthOf (t : Ty) : Nat := if 8 ≤ t.code && t.code ≤ 11 then 64 else if t = .e2m1 || t = .mxfp4 || t = .tq4 then 256 else 128
/-- Kind and pass depth of a pair under a microprogram, or without one (R282, R286). -/
def pairUnder (on uty : Bool) (a w : Ty) : Option (AccKind × Nat) :=
  if !on then (pairOf a w).map fun p => (p.1, 64 * p.2)
  else if uty then (if isByteInt a && isByteInt w then some (.int, 64) else none)
  else if isHalf a && isHalf w then some (.tree, 64) else none

/-! ### Elements -/

/-- Cuts bytes into pieces of a size. -/
def chunks : Nat → Nat → List Byte → List (List Byte)
  | 0, _, _ => []
  | fuel + 1, n, b => if b = [] then [] else b.take n :: chunks fuel n (b.drop n)
/-- The codes of elements of a type that is no block type. -/
def plainCodes (t : Ty) (b : List Byte) : List Nat := (chunks b.length (tyBytes t) b).map natOfBytes
/-- A block from its bytes, scale first. -/
def blkOf (t : Ty) (b : List Byte) : Blk :=
  { scale := (b.headD 0).toNat
    codes := (List.range (blkLen t)).map fun i => natOfBytes b.tail / 2 ^ (blkBits t * i) % 2 ^ blkBits t }
/-- The blocks of bytes. -/
def blksOf (t : Ty) (b : List Byte) : List Blk := (chunks b.length (blkBytes t) b).map (blkOf t)
/-- The bytes of a block, scale first. -/
def blkBytesOf (t : Ty) (b : Blk) : List Byte :=
  bytesOfNat 1 b.scale ++ bytesOfNat (blkField t) ((b.codes.zipIdx.map fun (c, i) => c * 2 ^ (blkBits t * i)).sum)
/-- The format of FP32 sums. -/
def f32 : Fmt := Fmt.of .f32
/-- An f32 value by its code. -/
def f32Num (c : Nat) : Num := f32.read c
/-- Values of a vector for tree accumulation with the flags of replacing blocks (R34). -/
def treeVals (t : Ty) (b : List Byte) : List Num × Nat :=
  if t.isBlock then
    let rs := (blksOf t b).flatMap fun x => (List.range (blkLen t)).map fun i => convert .f32 Rnd.rne (x.value t i)
    (rs.map fun r => f32Num r.code, rs.foldl (fun f r => f ||| r.flags) 0)
  else ((plainCodes t b).map (readNum t), 0)
/-- Scales a value by a power of two. -/
def Num.scaleBy (k : Int) : Num → Num
  | .fin n m e => .fin n m (e + k)
  | x => x

/-! ### Accumulation (R34, R35) -/

/-- Bound of INT48 values. -/
def int48Max : Int := 2 ^ 47 - 1
/-- Saturates to INT48: the value, and whether it was cut. -/
def sat48 (x : Int) : Int × Bool := (clampInt (-int48Max) int48Max x, decide (clampInt (-int48Max) int48Max x ≠ x))
/-- Adds an f32 code to another. -/
def add32 (r : Rnd) (x y : Nat) : Res := fAdd f32 r (f32Num x) (f32Num y)
/-- Adds codes to an accumulator in order: code and flags. -/
def addAll (acc : Nat × Nat) (gs : List Nat) : Nat × Nat :=
  gs.foldl (fun a g => let r := add32 Rnd.rne a.1 g; (r.code, a.2 ||| r.flags)) acc
/-- Group sums of a pass by the lane tree, with their flags (R34). -/
def treeSums (ps : List Nat) : Nat → List Nat × Nat
  | 0 => ([], 0)
  | n + 1 =>
    let g := laneTree 0 .rne add32 0 5 ((ps.take 16 ++ List.replicate (16 - (ps.take 16).length) 0).map fun x => (0, x)) ⟨0, 0, none⟩
    let r := treeSums (ps.drop 16) n
    (g.1 :: r.1, g.2.flags ||| r.2)
/-- The exact sum of a pair of blocks, rounded (R35). -/
def blockSum (ta tw : Ty) (x y : Blk) : Res :=
  let form (t : Ty) (b : Blk) : Option (List (Bool × Nat × Nat)) := b.codes.mapM (codeForm t (b.scale / 64))
  match form ta x, form tw y with
  | some a, some w =>
    if x.isNan ta || y.isNan tw then ⟨f32.nanCode, 0⟩
    else
      let prods : List Int := (a.zip w).map fun (p, q) => (if p.1 != q.1 then -1 else 1) * ((p.2.1 * q.2.1 : Nat) : Int)
      let sum : Int := prods.foldl (· + ·) 0
      let q : Int := x.exp ta + y.exp tw - ((a.head?.map (·.2.2)).getD 0 : Nat) - ((w.head?.map (·.2.2)).getD 0 : Nat)
      if sum = 0 then ⟨0, 0⟩ else f32.round Rnd.rne ⟨sum < 0, sum.natAbs, q, false⟩
  | _, _ => ⟨f32.nanCode, 0⟩

/-- What a row adds to the columns of a plane: whole sums, or f32 codes in order; with flags. -/
inductive Feed | int (l : List Int) | fp (l : List (List Nat)) (flags : Nat)
/-- Bytes of column n of a plane. -/
def planeCol (p : Plane) (n : Nat) : List Byte := (p.bytes.drop (p.bytes.length / p.n * n)).take (p.bytes.length / p.n)
/-- The type of a plane's weights. -/
def Plane.type (p : Plane) : Ty := (Ty.ofCode p.ty).getD .i8
/-- What a row of activations, or a zero row, adds (R33 to R35, R283). -/
def feedOf (p : Plane) (ta : Ty) (sa : Int) (kind : AccKind) (rate : Nat) (row : List Byte) : Feed :=
  let tw := p.type
  let cols := (List.range p.n).map (planeCol p)
  match kind with
  | .int =>
    let ints (t : Ty) (b : List Byte) : List Int := (plainCodes t b).map (intLane t)
    .int (cols.map fun c => (((ints ta row).zip (ints tw c)).map fun (a, w) => a * w).foldl (· + ·) 0)
  | .tree =>
    let a := treeVals ta row
    let one (c : List Byte) : List Nat × Nat :=
      let w := treeVals tw c
      let ps := (a.1.zip w.1).map fun (x, y) => fMul f32 Rnd.rne (x.scaleBy (sa + p.scale)) y
      let g := treeSums (ps.map (·.code)) (4 * rate)
      (g.1, ps.foldl (fun f r => f ||| r.flags) (g.2 ||| (if row = [] then 0 else a.2 ||| w.2)))
    let l := cols.map one
    .fp (l.map (·.1)) (l.foldl (fun f x => f ||| x.2) 0)
  | .blocks =>
    let n := 64 * rate / blkLen tw
    let a := blksOf ta row
    let one (c : List Byte) : List Res := (a.zip (blksOf tw c)).map fun (x, y) => blockSum ta tw x y
    let l := cols.map one
    .fp (l.map fun rs => rs.map (·.code) ++ List.replicate (n - rs.length) 0)
      (l.foldl (fun f rs => rs.foldl (fun f r => f ||| r.flags) f) 0)

/-! ### Microprograms (R286) -/

/-- Operation j of a program word: SRC2, SRC1, DST, OPC. -/
def progOp (w : Word) (j : Nat) : Nat × Nat × Nat × Nat :=
  let x := w.toNat / 2 ^ (12 * j) % 2 ^ 12
  (x / 2 ^ 9, x / 2 ^ 6 % 8, x / 2 ^ 4 % 4, x % 16)
/-- Whether a program word has no reserved code. -/
def progOk (w : Word) : Bool :=
  w.toNat < 2 ^ 48 && [0, 1, 2, 3].all fun j =>
    let o := progOp w j
    o.1 ≤ 5 && o.2.1 ≤ 5 && o.2.2.1 ≤ 2 && o.2.2.2 ≤ 7
/-- The cell of a program: acc, t0, t1, its flag, and the flags or saturation raised. -/
structure Cell (α : Type) where
  acc : α
  t0 : α
  t1 : α
  flag : Bool
  raised : Nat
/-- One operation of a program over values of a kind: arithmetic answers its result and what it raises. -/
def cellOp {α : Type} (zero a w : α) (arith : Nat → α → α → α × Nat) (less : α → α → Bool) (o : Nat × Nat × Nat × Nat) (c : Cell α) : Cell α :=
  let src (k : Nat) : α := match k with
    | 0 => c.acc | 1 => a | 2 => w | 3 => c.t0 | 4 => c.t1 | _ => zero
  let y := src o.1
  let x := src o.2.1
  let put (v : α) (f : Nat) : Cell α := match o.2.2.1 with
    | 0 => { c with t0 := v, raised := c.raised ||| f }
    | 1 => { c with t1 := v, raised := c.raised ||| f }
    | _ => { c with acc := v, raised := c.raised ||| f }
  match o.2.2.2 with
  | 0 => c
  | 6 => { c with flag := less x y }
  | 7 => put (if c.flag then x else y) 0
  | k => let r := arith k x y; put r.1 r.2
/-- A K position of a cell (R286). -/
def cellStep {α : Type} (zero : α) (arith : Nat → α → α → α × Nat) (less : α → α → Bool) (prog : Word) (x : α × Nat) (a w : α) : α × Nat :=
  let c := [0, 1, 2, 3].foldl (fun c j => cellOp zero a w arith less (progOp prog j) c) ⟨x.1, zero, zero, false, x.2⟩
  (c.acc, c.raised)
/-- FP32 arithmetic of a program: add, sub, mul, min, max. -/
def arith32 (k : Nat) (x y : Nat) : Nat × Nat :=
  let a := f32Num x
  let b := f32Num y
  let r := match k with
    | 1 => fAdd f32 Rnd.rne a b
    | 2 => fSub f32 Rnd.rne a b
    | 3 => fMul f32 Rnd.rne a b
    | 4 => fMinMax f32 false false a b
    | _ => fMinMax f32 true false a b
  (r.code, r.flags)
/-- INT48 arithmetic of a program; bit 8 of what it raises is SAT. -/
def arith48 (k : Nat) (x y : Int) : Int × Nat :=
  let r := match k with
    | 1 => sat48 (x + y)
    | 2 => sat48 (x - y)
    | 3 => sat48 (x * y)
    | 4 => (min x y, false)
    | _ => (max x y, false)
  (r.1, if r.2 then 256 else 0)
/-- A column of an FP32 row under a program. -/
def progCol32 (prog : Word) (acc : Nat) (a w : List Res) : Nat × Nat :=
  (a.zip w).foldl (fun x (p, q) => cellStep 0 arith32 (fun a b => numLt (f32Num a) (f32Num b)) prog
    (x.1, x.2 ||| p.flags ||| q.flags) p.code q.code) (acc, 0)
/-- A column of an INT48 row under a program. -/
def progCol48 (prog : Word) (acc : Int) (a w : List Int) : Int × Nat :=
  (a.zip w).foldl (fun x (p, q) => cellStep 0 arith48 (fun a b => decide (a < b)) prog x p q) (acc, 0)

/-! ### Accumulator rows (R278) -/

/-- An accumulator row. -/
def accRow (m : Matrix) (t : Nat) : AccRow :=
  aget ⟨false, (List.range 64).map fun n => match m.freeBase with
    | some b => BitVec.ofNat 64 ((Config.freeWord (b + 64 * t + n)).toNat % 2 ^ 32)
    | none => 0⟩ m.rows t
/-- An entry as an integer. -/
def accInt (w : Word) : Int := w.toInt
/-- What a step has made of the engine: its rows, the flags with SAT in bit 8, and the overrun count. -/
def Matrix.put (m : Matrix) (t : Nat) (r : AccRow) (raised : Nat) : Matrix :=
  { m with rows := aset m.rows t r, flags := m.flags ||| raised % 32, sat := m.sat || raised / 256 % 2 = 1 }
/-- A row before a stream adds to it: zero of its kind where ACC = 0. -/
def accBase (m : Matrix) (t : Nat) (int acc : Bool) : AccRow := if acc then accRow m t else ⟨int, List.replicate 64 0⟩
/-- Replaces the leading entries. -/
def leading (l xs : List Word) : List Word := xs ++ l.drop xs.length
/-- Applies a row of a stream to its accumulator row (R282, R283). -/
def applyRow (m : Matrix) (p : Plane) (ta : Ty) (sa : Int) (acc : Bool) (t : Nat) (row : List Byte) : Matrix :=
  match pairUnder m.uon m.uty ta p.type with
  | none => m
  | some (kind, depth) =>
    let base := accBase m t (kind = .int) acc
    let cols := (List.range p.n).map (planeCol p)
    if m.uon then
      if row = [] then m.put t base 0
      else if m.uty then
        let ints (t : Ty) (b : List Byte) : List Int := (plainCodes t b).map (intLane t)
        let r := (base.e.zip cols).map fun (x, c) => progCol48 m.prog (accInt x) (ints ta row) (ints p.type c)
        m.put t { base with e := leading base.e (r.map fun x => BitVec.ofInt 64 x.1) } (r.foldl (fun f x => f ||| x.2) 0)
      else
        let vals (t : Ty) (b : List Byte) : List Res := (plainCodes t b).map fun c => convert .f32 Rnd.rne (readNum t c)
        let r := (base.e.zip cols).map fun (x, c) => progCol32 m.prog x.toNat (vals ta row) (vals p.type c)
        m.put t { base with e := leading base.e (r.map fun x => BitVec.ofNat 64 x.1) } (r.foldl (fun f x => f ||| x.2) 0)
    else match feedOf p ta sa kind (depth / 64) row with
      | .int l =>
        let r := (base.e.zip l).map fun (x, v) => sat48 (accInt x + v)
        m.put t { base with e := leading base.e (r.map fun x => BitVec.ofInt 64 x.1) } (if r.any (·.2) then 256 else 0)
      | .fp l fl =>
        let r := (base.e.zip l).map fun (x, gs) => addAll (x.toNat, 0) gs
        m.put t { base with e := leading base.e (r.map fun x => BitVec.ofNat 64 x.1) } (r.foldl (fun f x => f ||| x.2) fl)

/-! ### Rows of streams and convolutions (R282, R283) -/

/-- A convolution's position of row i: image, input row and column. -/
def convAt (d : TDesc) (geom : Word) (i : Nat) : Nat × Int × Int :=
  let g := geom.toNat
  let p := g % 2 ^ 32 + i
  let q := p % (d.oh * d.ow)
  (p / (d.oh * d.ow), (q / d.ow * d.sh + g / 2 ^ 48 % 2 ^ 8 * d.dh : Nat) - (d.pt : Int),
    (q % d.ow * d.sw + g / 2 ^ 56 * d.dw : Nat) - (d.pl : Int))
/-- Rows of a convolution. -/
def convRows (geom : Word) : Nat := geom.toNat / 2 ^ 32 % 2 ^ 16
/-- Addresses of row i of a stream or convolution; none for a zero row. -/
def rowAddrs (k : EngKind) (i : Nat) : Option (List Nat) :=
  match k with
  | .stream d _ _ => some (vectorAddrs d (d.vector i))
  | .conv d _ _ g =>
    let x := convAt d g i
    if d.extent 3 ≤ x.1 ∨ x.2.1 < 0 ∨ (d.extent 2 : Int) ≤ x.2.1 ∨ x.2.2 < 0 ∨ (d.extent 1 : Int) ≤ x.2.2 then none
    else some (vectorAddrs d (d.vectorAt x.2.2.toNat x.2.1.toNat x.1))
  | _ => none
/-- Whether row i of a convolution lies beyond the images. -/
def overruns (k : EngKind) (i : Nat) : Bool :=
  match k with
  | .conv d _ _ g => d.extent 3 ≤ (convAt d g i).1
  | _ => false
/-- Descriptor, first row and ACC of a stream or convolution. -/
def streamOf : EngKind → Option (TDesc × Nat × Bool)
  | .stream d r a => some (d, r, a)
  | .conv d r a _ => some (d, r, a)
  | _ => none
/-- Rows of a stream or convolution. -/
def streamRows : EngKind → Nat
  | .stream d _ _ => d.vectors
  | .conv _ _ _ g => convRows g
  | _ => 0

/-- Number of a feeding or committing event of the run in force. -/
def stepCode (q : EngCmd) (feed : Bool) (k : Nat) : Nat := (q.tries * 2 + feed.toNat) * 2 ^ 16 + k
/-- Changes the matrix engine. -/
def modMx (s : State) (n : Node) (f : Matrix → Matrix) : State := modTile s n fun t => { t with mx := f t.mx }
/-- A column of MX.LDS is read; after the last the plane completes at the end of cycle s + 71 (R281). -/
def feedColumn (s : State) (n : Node) (q : EngCmd) (d : TDesc) (k : Nat) : State :=
  match engRead s n q (vectorAddrs d (d.vector k)) with
  | .stop code a s => stopCmd s n true q code a
  | .ok b s =>
    let s := modCmd s n true q.id fun q => { q with buf := q.buf ++ [(k, b)] }
    if k + 1 < d.extent 1 then push s (dueIn s n 1) phStart (nodeKey n) (.matrixStepCommit n q.id (stepCode q true (k + 1)))
    else push s (dueIn s n (72 - d.extent 1)) phEnd (nodeKey n) (.engineCommandComplete n true q.id)
/-- A row of a stream is fed (R282, R283, R287). -/
def feedRow (s : State) (n : Node) (q : EngCmd) (k : Nat) : State :=
  let fed (s : State) (b : List Byte) : State :=
    let s := modCmd s n true q.id fun q => { q with buf := q.buf ++ [(k, b)], next := k + 1 }
    let s := if k % 64 = 63 ∨ k + 1 = q.total then
        push s (dueIn s n 48) phEnd (nodeKey n) (.matrixStepCommit n q.id (stepCode q false (k / 64)))
      else s
    if k + 1 < q.total then push s (dueIn s n 1) phStart (nodeKey n) (.matrixStepCommit n q.id (stepCode q true (k + 1)))
    else askEngine (modMx s n fun m => { m with lastFed := s.now }) n true
  match rowAddrs q.kind k with
  | none => fed s []
  | some l => match engRead s n q l with
    | .stop code a s => stopCmd s n true q code a
    | .ok b s => fed s b
/-- Reads accumulator rows, 512 bytes each from byte 512 x row on (log 21): the state after their errors are found, and the byte at which
the first uncorrectable row begins (R352). -/
def accErrs (s : State) (n : Node) (q : EngCmd) (rows : List Nat) : State × Option Nat :=
  if (tileAt s n).errs = [] then (s, none)
  else rows.foldl (fun x t =>
    let e := consume x.1 n 3 (512 * t) (512 * t + 512) (cmdConsumer s n q)
    (e.1, if e.2.isSome && x.2.isNone then some (512 * t) else x.2)) (s, none)
/-- Accumulator rows are written whole: errors in them are gone. -/
def freshRows (s : State) (n : Node) (rows : List Nat) : State := rows.foldl (fun s t => replaceUnits s n 3 (512 * t) (512 * t + 512)) s
/-- A step of a stream commits its rows (R287). One that adds to rows reads them, and stops the command where one is uncorrectable
(R269, R352). -/
def commitStep (s : State) (n : Node) (q : EngCmd) (j : Nat) : State :=
  match streamOf q.kind with
  | none => s
  | some (d, row0, acc) =>
    let rows := q.buf.filter fun x => x.1 / 64 = j
    let at_ := rows.map fun x => row0 + x.1
    let e := if acc then accErrs s n q at_ else (s, none)
    if e.2.isSome then stopCmd e.1 n true q fData (e.2.getD 0) else
    let s := modMx (if acc then e.1 else freshRows s n at_) n fun m => rows.foldl (fun m (i, b) =>
      let m := applyRow m ((m.planes[q.plane]?).getD {}) d.type d.scale acc (row0 + i) b
      { m with overrun := min (2 ^ 32 - 1) (m.overrun + (overruns q.kind i).toNat) }) m
    let q := { q with buf := q.buf.filter fun x => x.1 / 64 ≠ j, acked := j :: q.acked }
    let s := modCmd s n true q.id fun _ => q
    if stepsDone q = ceilDiv q.total 64 then leaveQueue s n true q true else s
/-- MATRIX_STEP_COMMIT: a row or column is fed, or a step of 64 rows commits. -/
def evMatrixStepCommit (n : Node) (id stepNo : Nat) (s : State) : State :=
  match cmdAt s n true id with
  | none => s
  | some q =>
    let k := stepNo % 2 ^ 16
    if q.stopped.isSome ∨ q.tries ≠ stepNo / 2 ^ 17 then s
    else if stepNo / 2 ^ 16 % 2 = 0 then commitStep s n q k
    else match q.kind with
      | .lds d => feedColumn s n q d k
      | _ => feedRow s n q k

/-! ### Starting (R281, R284 to R287) -/

/-- MX.LDS. -/
def isLds (q : EngCmd) : Bool :=
  match q.kind with
  | .lds _ => true
  | _ => false
/-- Rows an MX.DRAIN takes. -/
def drainRows : EngKind → Nat
  | .drainD d _ _ _ _ _ => d.extent 1
  | _ => 1
/-- Whether a command may start, those before it that have not completed given (R281, R284 to R287). -/
def mxReady (s : State) (m : Matrix) (pre : List EngCmd) (q : EngCmd) : Bool :=
  let streams := pre.filter fun x => (streamOf x.kind).isSome
  match q.kind with
  | .lds _ => !streams.any fun x => x.plane = 1 - m.active
  | .swap => !pre.any isLds
  | .stream _ _ _ | .conv _ _ _ _ => (streams.all fun x => x.next = x.total) && m.lastFed < s.now
  | _ => pre.all isLds
/-- What a command does as it starts. -/
def runMatrix (s : State) (n : Node) (q : EngCmd) : State :=
  let done (s : State) (c : Nat) : State := push s c phEnd (nodeKey n) (.engineCommandComplete n true q.id)
  let m := (tileAt s n).mx
  match q.kind with
  | .lds d =>
    let s := modMx s n fun m => { m with planes := m.planes.zipIdx.map fun (p, i) => if i = 1 - m.active then { p with valid := false } else p }
    feedColumn (modCmd s n true q.id fun q => { q with plane := 1 - m.active }) n { q with plane := 1 - m.active } d 0
  | .swap => done (modMx s n fun m => { m with active := 1 - m.active }) s.now
  | .uprog on uty prog => done (modMx s n fun m => { m with uon := on, uty := uty, prog := prog }) s.now
  | .clear _ k _ _ =>
    let c := dueIn s n (ceilDiv k 8)
    done (modMx s n fun m => { m with lastFed := c }) c
  | .drainV _ _ _ _ _ _ => done (modMx s n fun m => { m with lastFed := s.now }) (dueIn s n 8)
  | .drainD d _ _ _ _ _ =>
    match badAddr (tileAt s n) (linearAddrs d) with
    | some a => stopCmd (modMx s n fun m => { m with lastFed := s.now }) n true q fBounds a
    | none => done (modMx s n fun m => { m with lastFed := dueIn s n (d.extent 1 - 1) }) (dueIn s n (d.extent 1 + 7))
  | .stream _ _ _ | .conv _ _ _ _ =>
    if !((m.planes[m.active]?).getD {}).valid then leaveQueue s n true q false
    else
      let q := { q with plane := m.active, total := streamRows q.kind }
      feedRow (modCmd s n true q.id fun _ => q) n q 0
  | _ => done s s.now
/-- Starts commands of the matrix engine in order while their conditions hold. -/
def startMatrix (n : Node) : Nat → State → State
  | 0, s => s
  | fuel + 1, s =>
    let t := tileAt s n
    match nextCmd [] t.mx.cmds with
    | none => s
    | some (pre, q) =>
      if engStopped t true || stopDue s n true || !semReady t q || messagesOut s n q then s
      else if mxReady s t.mx pre q then
        let q := { q with started := true, start := s.now }
        startMatrix n fuel (runMatrix (modCmd s n true q.id fun _ => q) n q)
      else if s.now ≤ t.mx.lastFed then pushOnce s (t.mx.lastFed + 1) phStart (nodeKey n) (.engineCommandStart n true)
      else s
/-- ENGINE_COMMAND_START: an engine looks at its queue; a tile whose clock stands still does so later (R267). -/
def evEngineCommandStart (n : Node) (mx : Bool) (s : State) : State :=
  if isHeld s n then pushOnce s (s.now + 1) phStart (nodeKey n) (.engineCommandStart n mx)
  else if mx then startMatrix n (engEntries + 1) s else copyCycle s n

/-! ### Completing (R281, R284, R285) -/

/-- Fill value of MX.CLR. -/
def fillWord (int : Bool) (f : Fill) : Word :=
  match f with
  | .zero => 0
  | .pmax => if int then BitVec.ofInt 64 int48Max else BitVec.ofNat 64 f32.infCode
  | .nmax => if int then BitVec.ofInt 64 (-int48Max) else BitVec.ofNat 64 (f32.signed true f32.infCode)
/-- An entry as a number. -/
def accNum (int : Bool) (w : Word) : Num := if int then .fin (accInt w < 0) (accInt w).natAbs 0 else f32Num w.toNat
/-- Entries converted to a type, with draws in order: codes, the generator, flags (R284). -/
def drainLoop (t : Ty) (rm : Rm) (int : Bool) : List Word → Word → List Nat × Word × Nat
  | [], seed => ([], seed, 0)
  | w :: l, seed =>
    let d := takeDraw rm seed
    let r := convert t d.1 (accNum int w)
    let x := drainLoop t rm int l d.2
    (r.code :: x.1, x.2.1, r.flags ||| x.2.2)
/-- A row quantised in blocks: its bytes and flags (R36, R284). -/
def drainBlocks (t : Ty) (kind : Nat) (int : Bool) : Nat → List Word → List Byte × Nat
  | 0, _ => ([], 0)
  | fuel + 1, l =>
    if l = [] then ([], 0)
    else
      let rs := (l.take (blkLen t)).map fun w => if int then convert .f32 Rnd.rne (accNum int w) else ⟨w.toNat, 0⟩
      let b := quantBlk t kind (rs.map fun r => f32Num r.code)
      let x := drainBlocks t kind int fuel (l.drop (blkLen t))
      (blkBytesOf t b.1 ++ x.1, rs.foldl (fun f r => f ||| r.flags) (b.2 ||| x.2))
/-- Type of a VT field. -/
def vtTy : Vt → Ty
  | .f32 => .f32 | .f16 => .f16 | .bf16 => .bf16 | .i32 => .i32
/-- Clears drained rows to zero of their modes. -/
def clearDrained (m : Matrix) (row0 k : Nat) : Matrix :=
  (List.range k).foldl (fun m i => { m with rows := aset m.rows (row0 + i) ⟨(accRow m (row0 + i)).int, List.replicate 64 0⟩ }) m
/-- Rows of a drain to a descriptor: what is written, the generator, flags. -/
def drainTo (m : Matrix) (d : TDesc) (row0 : Nat) (rm : Rm) (tqt : Tqt) : Nat → Nat → Word → List (Nat × Byte) × Nat
  | 0, _, _ => ([], 0)
  | k + 1, i, seed =>
    let r := accRow m (row0 + i)
    let l := r.e.take (d.extent 0)
    let x := if d.type.isBlock then
        let b := drainBlocks d.type (tqtCode tqt) r.int 65 l
        (b.1, seed, b.2)
      else
        let b := drainLoop d.type rm r.int l seed
        (b.1.flatMap (bytesOfNat (tyBytes d.type)), b.2.1, b.2.2)
    let y := drainTo m d row0 rm tqt k (i + 1) x.2.1
    ((vectorAddrs d (d.vector i)).zip x.1 ++ y.1, x.2.2 ||| y.2)
/-- The v register of a drain: 64 lanes, and for 16-bit types zeros above (R284). -/
def drainVec (m : Matrix) (row0 : Nat) (rm : Rm) (vt : Vt) (seed : Word) : VVal × Nat :=
  let r := accRow m row0
  let x := drainLoop (vtTy vt) rm r.int r.e seed
  (packLanes (vtTy vt).width x.1, x.2.2)
/-- So many rows upward. -/
def rowSpan (row0 k : Nat) : List Nat := (List.range k).map fun i => row0 + i
/-- Rows that a drain reads. -/
def drainSpan : EngKind → List Nat
  | .drainV _ row0 _ _ _ _ => [row0]
  | .drainD d row0 _ _ _ _ => rowSpan row0 (d.extent 1)
  | _ => []
/-- Effects of a command that completes. -/
def matrixEffect (s : State) (n : Node) (q : EngCmd) : State :=
  match q.kind with
  | .lds d =>
    let p : Plane := { valid := true, loaded := true, ty := d.ty, scale := d.scale, k := d.extent 0, n := d.extent 1, bytes := q.buf.flatMap (·.2) }
    modMx s n fun m => { m with planes := m.planes.zipIdx.map fun (x, i) => if i = q.plane then p else x }
  | .clear row0 k int fill =>
    modMx (freshRows s n (rowSpan row0 k)) n fun m => (List.range k).foldl (fun m i =>
      { m with rows := aset m.rows (row0 + i) ⟨int, List.replicate 64 (fillWord int fill)⟩ }) m
  | .drainV v row0 rm clr vt seed =>
    let x := drainVec (tileAt s n).mx row0 rm vt seed
    let s := modMx (if clr then freshRows s n [row0] else s) n fun m =>
      let m := { m with flags := m.flags ||| x.2 }
      if clr then clearDrained m row0 1 else m
    landed s (q.from_ n) q.uid (.v v) x.1
  | .drainD d row0 rm clr tqt seed =>
    let x := drainTo (tileAt s n).mx d row0 rm tqt (d.extent 1) 0 seed
    let s := modMx (if clr then freshRows s n (rowSpan row0 (d.extent 1)) else s) n fun m =>
      let m := { m with flags := m.flags ||| x.2 }
      if clr then clearDrained m row0 (d.extent 1) else m
    engWrite s n x.1
  | _ => s
/-- The token of the resume record, if it is this one, is answered (Table 13). -/
def clearResume (s : State) (n : Node) (q : EngCmd) : State :=
  modMx s n fun m =>
    if (q.stopped.map (·.1)) = some (m.resume.toNat % 2 ^ 32) then { m with resume := m.resume &&& BitVec.ofNat 64 (2 ^ 63 - 1) } else m
/-- ENGINE_COMMAND_COMPLETE (R267, R269, R281, R284, R285). -/
def evEngineCommandComplete (n : Node) (mx : Bool) (id : Nat) (s : State) : State :=
  match cmdAt s n mx id with
  | none => s
  | some q =>
    if !mx then finishCopy s n q
    else if q.refused then leaveQueue (clearResume s n q) n true q false
    else if q.stopped.isSome then s
    else
      let e := accErrs s n q (drainSpan q.kind)
      if e.2.isSome then stopCmd e.1 n true q fData (e.2.getD 0) else leaveQueue (matrixEffect e.1 n q) n true q true
/-- XLAT.resume of a matrix command: a stream goes on from its first step that is not committed, another from its start
(R269). -/
def resumeMatrix (s : State) (n : Node) (q : EngCmd) : State :=
  let k := match q.kind with
    | .stream _ _ _ | .conv _ _ _ _ => 64 * stepsDone q
    | _ => 0
  let s := clearResume s n q
  let q := { q with stopped := none, next := k }
  let s := modCmd s n true q.id fun _ => q
  match q.kind with
  | .stream _ _ _ | .conv _ _ _ _ | .lds _ =>
    push s (dueIn s n 1) phStart (nodeKey n) (.matrixStepCommit n q.id (stepCode q true k))
  | _ => askEngine (modCmd s n true q.id fun q => { q with started := false }) n true

/-! ### Forms (R280 to R286, R288) -/

/-- A slot that has come to hold the matrix role: its planes are yet to be loaded, and rows another job wrote hold free
values (R278, R279). -/
def takeMatrix (s : State) (r : SlotRef) (c : Ctx) : State :=
  let m := (tileAt s r.node).mx
  if m.role = some (r.slot, c.uid) then s
  else
    let m := { m with role := some (r.slot, c.uid), issPlanes := m.issPlanes.map fun p => { p with loaded := false } }
    if m.lastJob = c.d.job then modMx s r.node fun _ => m
    else { modMx s r.node fun _ => { m with lastJob := c.d.job, rows := [], issInt := [], freeBase := some s.freeCtr } with
           freeCtr := s.freeCtr + 32768 }
/-- Goes on for the holder of the matrix role only (R12, R266). -/
def mxAct (f : State → Act) (s : State) (r : SlotRef) (c : Ctx) : Act :=
  if isSpout r.tile then .trap fIllegalInstruction 0 0
  else if (tileAt s r.node).matRole ≠ some (r.slot, c.uid) then .trap fOperand 0 0
  else f (takeMatrix s r c)
/-- A matrix command enters the queue. -/
def mxEnqueue (s : State) (r : SlotRef) (c : Ctx) (sync : ESync) (fn : Nat) (kind : EngKind) (f : State → State) : Act :=
  enqueue s r c true sync fn kind fun _ => f
/-- MX.LDS (R281). -/
def execMxLds (h : Hdr) (sync : ESync) (a : DIx) : State → Outc :=
  runForm { i := .mxLds h sync a, h := h } fun s r c => mxAct (fun s => capture s r c a fun s d =>
    match firstBad [(d.loc ≠ 0, 17, a.toNat), (!weightType d.type, 19, a.toNat),
        (d.rank ≠ 2 || 64 < d.extent 1 || depthOf d.type < d.extent 0, 18, a.toNat)] with
    | some k => badAct k
    | none => mxEnqueue s r c sync 0 (.lds d) fun s => modMx s r.node fun m =>
      { m with issPlanes := m.issPlanes.zipIdx.map fun (p, i) =>
          if i = 1 - m.issActive then { p with loaded := true, ty := d.ty, k := d.extent 0, n := d.extent 1 } else p }) s r c
/-- MX.SWAP (R279, R281). -/
def execMxSwap (h : Hdr) (sync : ESync) : State → Outc :=
  runForm { i := .mxSwap h sync, h := h } fun s r c => mxAct (fun s =>
    mxEnqueue s r c sync 1 .swap fun s => modMx s r.node fun m => { m with issActive := 1 - m.issActive }) s r c
/-- Sets the modes tracked at issue. -/
def trackRows (m : Matrix) (row0 k : Nat) (int : Bool) : Matrix :=
  let l := m.issInt.filter fun t => ¬(row0 ≤ t ∧ t < row0 + k)
  { m with issInt := if int then l ++ rowSpan row0 k else l }
/-- A stream or convolution, its own checks done (R278, R279, R282). -/
def streamAct (sync : ESync) (fn : Nat) (kind : EngKind) (d : TDesc) (a : DIx) (row0 : Nat) (acc : Bool) (s : State) (r : SlotRef)
    (c : Ctx) : Act :=
  let m := (tileAt s r.node).mx
  let p := (m.issPlanes[m.issActive]?).getD {}
  let k := streamRows kind
  if !p.loaded then badAct (16, a.toNat)
  else if d.extent 0 ≠ p.k then badAct (20, a.toNat)
  else match pairUnder m.issUon m.issUty d.type p.type with
    | none => badAct (19, a.toNat)
    | some (ak, depth) =>
      let int := decide (ak = .int)
      if depth < p.k then badAct (18, a.toNat)
      else if k = 0 ∨ 512 < row0 + k then .trap fOperand 0 0
      else match (if acc then (rowSpan row0 k).find? fun t => m.issInt.contains t != int else none) with
        | some t => .trap fOperand 0 (BitVec.ofNat 64 t)
        | none => mxEnqueue s r c sync fn kind fun s => if acc then s else modMx s r.node fun m => trackRows m row0 k int
/-- MX.STREAM (R282). -/
def execMxStream (h : Hdr) (sync : ESync) (row0 : BitVec 9) (acc : Bool) (a : DIx) : State → Outc :=
  runForm { i := .mxStream h sync row0 acc a, h := h } fun s r c => mxAct (fun s => capture s r c a fun s d =>
    if d.loc ≠ 0 then badAct (17, a.toNat)
    else streamAct sync 2 (.stream d row0.toNat acc) d a row0.toNat acc s r c) s r c
/-- MX.CONV (R283). -/
def execMxConv (h : Hdr) (sync : ESync) (row0 : BitVec 9) (acc : Bool) (a : DIx) (b : SIx) : State → Outc :=
  runForm { i := .mxConv h sync row0 acc a b, h := h, srcs := [.s b] } fun s r c => mxAct (fun s =>
    let m := convRows (rs c b)
    if m = 0 ∨ 512 < row0.toNat + m then .trap fOperand 0 0
    else capture s r c a fun s d =>
    match firstBad [(d.loc ≠ 0, 17, a.toNat), (d.rank ≠ 4, 18, a.toNat), (d.oh = 0, 21, a.toNat)] with
    | some k => badAct k
    | none => streamAct sync 3 (.conv d row0.toNat acc (rs c b)) d a row0.toNat acc s r c) s r c
/-- Takes the draws that a drain reserves (R264). -/
def reserveDraws (s : State) (r : SlotRef) (rm : Rm) (n : Nat) : State :=
  if rm = .sr then modCtx s r fun c => { c with seed := seedSkip n c.seed } else s
/-- MX.DRAIN to a v register (R284). -/
def execMxDrainV (h : Hdr) (sync : ESync) (row0 : BitVec 9) (rm : Rm) (clr : Bool) (vt : Vt) (d : VIx) : State → Outc :=
  runForm { i := .mxDrainV h sync row0 rm clr vt d, h := h, dsts := [.v d] } fun s r c => mxAct (fun s =>
    let rm' := resolveRm rm c.rmode
    mxEnqueue s r c sync 4 (.drainV d row0.toNat rm' clr vt c.seed) fun s =>
      modCtx (reserveDraws s r rm' 64) r fun c => setPres c (.v d) .pending) s r c
/-- Types that MX.DRAIN writes (R284). -/
def drainType (t : Ty) : Bool := t.code ≤ 2 || (4 ≤ t.code && t.code ≤ 6) || (8 ≤ t.code && t.code ≤ 10) || 12 ≤ t.code
/-- MX.DRAIN to a descriptor (R280, R284). -/
def execMxDrainD (h : Hdr) (sync : ESync) (row0 : BitVec 9) (rm : Rm) (clr : Bool) (tqt : Tqt) (d : DIx) : State → Outc :=
  runForm { i := .mxDrainD h sync row0 rm clr tqt d, h := h } fun s r c => mxAct (fun s => capture s r c d fun s dd =>
    match firstBad [(dd.loc ≠ 0, 17, d.toNat), (2 < dd.rank || 64 < dd.extent 0, 18, d.toNat), (!drainType dd.type, 19, d.toNat)] with
    | some k => badAct k
    | none =>
      let rm' := resolveRm rm c.rmode
      if tqt ≠ .int ∧ dd.type ≠ .tq4 then .trap fReserved 0 0
      else if 512 < row0.toNat + dd.extent 1 then .trap fOperand 0 0
      else mxEnqueue s r c sync 4 (.drainD dd row0.toNat rm' clr tqt c.seed) fun s =>
        if dd.type.isBlock then s else reserveDraws s r rm' (dd.extent 0 * dd.extent 1)) s r c
/-- MX.CLR (R285). -/
def execMxClr (h : Hdr) (sync : ESync) (row0 : BitVec 9) (int : Bool) (fill : Fill) (b : SIx) : State → Outc :=
  runForm { i := .mxClr h sync row0 int fill b, h := h, srcs := [.s b] } fun s r c => mxAct (fun s =>
    let k := (rs c b).toNat
    if k < 1 ∨ 512 < row0.toNat + k then .trap fOperand 0 0
    else mxEnqueue s r c sync 5 (.clear row0.toNat k int fill) fun s => modMx s r.node fun m => trackRows m row0.toNat k int) s r c
/-- MX.UPROG (R286). -/
def execMxUprog (h : Hdr) (sync : ESync) (on uty : Bool) (b : SIx) : State → Outc :=
  runForm { i := .mxUprog h sync on uty b, h := h, srcs := [.s b] } fun s r c => mxAct (fun s =>
    if on && !progOk (rs c b) then .trap fOperand 0 0
    else mxEnqueue s r c sync 6 (.uprog on uty (rs c b)) fun s => modMx s r.node fun m => { m with issUon := on, issUty := uty }) s r c
/-- The matrix status word (Table 12). -/
def mxState (m : Matrix) : Nat :=
  m.cmds.length * 2 ^ 48 + (m.cmds.any (·.started)).toNat * 2 ^ 39 + m.active * 2 ^ 38 + m.uon.toNat * 2 ^ 37 +
  m.uty.toNat * 2 ^ 36 + m.sat.toNat * 2 ^ 8 + m.flags
/-- MX.STAT (R288). -/
def execMxStat (h : Hdr) (w : MxW) (clr : Bool) (d : SIx) : State → Outc :=
  runForm { i := .mxStat h w clr d, h := h, dsts := [.s d] } fun s r c => mxAct (fun s =>
    let m := (tileAt s r.node).mx
    let v : Word := match w with
      | .state => BitVec.ofNat 64 (mxState m)
      | .over => BitVec.ofNat 64 m.overrun
      | .resume => m.resume
    let s := if clr && w ≠ .resume then modMx s r.node fun m => { m with flags := 0, sat := false, overrun := 0 } else s
    results s r c [] 3 [(.s d, sval v)]) s r c

end Sys2Proof.Machine
end

