-- ==== Sys2Proof/Machine/Service.lean ====
section
/-! DEFINITION. Conversations on the service endpoint and with the allocators: requests, service times, replies (R192, R397). -/

namespace Sys2Proof.Machine

/-- The number of a peer, for the order in which it serves: a place and one of its services. -/
def peerKey (n : Node) (service : Nat) : Nat := nodeKey n * 16 + service
/-- A request of a slot to a service. -/
def svcReq (s : State) (r : SlotRef) (c : Ctx) (peer : Node) (id : Nat) (rec_ : Option Nat) (k : SvcKind) : SvcReq :=
  let _ := s
  ⟨⟨r, c.uid, id⟩, peer, c.d.job, c.d.launch, c.d.root, systemMode r, rec_, k, false⟩
/-- Sends a request and parks for its reply; it is the slot's one outstanding access (R192). -/
def svcAct (s : State) (r : SlotRef) (c : Ctx) (peer : Node) (rec_ : Option Nat) (k : SvcKind) (limKind : Nat) (ev : SvcReq → Ev) : Act :=
  let w := newWait s r c
  let q := svcReq s r c peer w.1.id rec_ k
  .wait (asks (sendMsg w.2 r r.node peer 3 1 [3, 7, slotKey r] (pinOf c) false (ev q)) r c.uid peer) w.1.id .reply limKind 0 0 []
/-- A reply that says a value. -/
def svcVal (v : Nat) : SvcReply := ⟨BitVec.ofNat 64 v, true, 0, 0, 0⟩
/-- A reply that raises a fault at the slot. -/
def svcFault (code : Nat) (va aux : Word) : SvcReply := ⟨0, false, code, va, aux⟩
/-- Sends a reply at a cycle (R192, R397). -/
def svcReply (s : State) (q : SvcReq) (t : Nat) (a : SvcReply) : State :=
  sendAt s t ⟨q.who.slot, q.peer, q.who.slot.node, 4, 1, [4, 7, slotKey q.who.slot, nodeKey q.peer], some q.launch, true,
    .serviceReplyLand q.who a⟩
/-- A peer takes the request in its turn, one in a cycle and in the order of landing: now, or when ev presents it again (R397). -/
def serveTurn (s : State) (turn : Bool) (peer key : Nat) (ev : Ev) (f : State → State) : State :=
  if turn then f s
  else
    let t := serveSlot s peer
    if t.1 ≤ s.now then f t.2 else push t.2 t.1 phLand key ev
/-- Serves a request in its turn: the reply leaves the service time given after it (R397). -/
def svcServe (s : State) (q : SvcReq) (service time : Nat) (ev : SvcReq → Ev) (f : State → State × SvcReply) : State :=
  serveTurn s q.turn (peerKey q.peer service) (slotKey q.who.slot) (ev { q with turn := true }) fun s =>
    let x := f s
    svcReply x.1 q (dueFrom s q.peer s.now time) x.2
/-- What the requester's context says, if it is still there. -/
def svcCtx (s : State) (q : SvcReq) : Option Ctx := unitAt s q.who.slot q.who.uid

/-- Whether a request waits for an event and its form has been trapped by WAITLIM before it landed: it has no effect (R107, R109,
R222, R319). -/
def waitGone (s : State) (q : SvcReq) : Bool :=
  match q.kind with
  | .doneWait _ _ false | .phaseLeave | .phaseEnter _ | .demClose => (waitOf s q.who).isNone
  | _ => false
/-- The event that a request waited for has occurred: its reply is on its way, and the form completes by it, so WAITLIM no longer
bounds the wait (R109, R222, R319; DEDUCED, log 50). -/
def waitOver (s : State) (w : Who) : State :=
  modUnit s w.slot w.uid fun c => { c with park := c.park.map fun p => if p.id = w.id then { p with limKind := 0 } else p }

end Sys2Proof.Machine
end

