-- ==== Sys2Proof/Machine/Turns.lean ====
section
/-! DEFINITION. Ownership of turns, TURN forms and rate couplers (R193 to R209). -/

namespace Sys2Proof.Machine

/-! ### Turns (R72, R193 to R200) -/

/-- Number of members of a set of turns. -/
def turnCount (b : BitVec 16) : Nat := ((List.range 16).filter fun i => b.getLsbD i).length
/-- The home turn of a slot. -/
def homeTurn (i : Nat) : BitVec 16 := BitVec.ofNat 16 (2 ^ i)
/-- Whether a slot is free (R72). -/
def slotFree (l : Slot) : Bool := l.ph = .free && l.saved = [] && l.heldBy.isNone && l.owned ≠ 0
/-- Units for which a slot is bound or reserved. -/
def slotOf (l : Slot) (launch job : Word) : Bool := (slotUnits l).any fun c => c.d.launch = launch && c.d.job = job
/-- A slot loses one turn that it owns, from its base set too; one that does not own it stays as it is (R196). -/
def dropTurn (i : Nat) (l : Slot) : Slot :=
  if l.owned.getLsbD i then { l with owned := l.owned &&& ~~~homeTurn i, base := l.base &&& ~~~homeTurn i } else l
/-- A slot gets back its home turn alone, from the pool or its owner (R196, R199). -/
def takeHome (t : Tile) (i : Nat) : Tile :=
  let t := { t with slots := t.slots.map (dropTurn i) }
  t.modSlot i fun l => { l with owned := homeTurn i, base := homeTurn i, minT := 1, maxT := 16, heldBy := none }
/-- Fields of a limits word. -/
def limMin (x : Word) : Nat := x.toNat % 32
/-- MAX of a limits word. -/
def limMax (x : Word) : Nat := x.toNat / 2 ^ 8 % 32
/-- What TURN.SET checks at issue (R199). -/
def turnSetOk (a b x : Word) : Bool :=
  a.toNat ≤ 15 && b.toNat < 2 ^ 16 && (x &&& ~~~(BitVec.ofNat 64 0x1F1F)) = 0 &&
    (x = 0 || (1 ≤ limMin x && limMin x ≤ limMax x && limMax x ≤ 16))
/-- TURN.SET at a round boundary: the tile with the new ownership, or none where it faults (R199). -/
def turnApply (t : Tile) (launch job : Word) (i : Nat) (b : BitVec 16) (x : Word) : Option Tile :=
  let l := t.slots.toList.getD i (Slot.reset i)
  if slotOf l launch job then
    if x = 0 ∨ !b.getLsbD i ∨ turnCount b < limMin x ∨ limMax x < turnCount b ∨ b &&& ~~~(poolOf t ||| l.owned) ≠ 0 then none
    else some (t.modSlot i fun l => { l with owned := b, base := b, minT := limMin x, maxT := limMax x })
  else if slotFree l ∨ (l.ph = .free ∧ l.saved = [] ∧ l.heldBy = some launch) then
    if x ≠ 0 ∨ (b ≠ 0 ∧ b ≠ homeTurn i) then none
    else if b = 0 then some (t.modSlot i fun l => { l with owned := 0, base := 0, minT := 0, heldBy := some launch })
    else some (takeHome t i)
  else none
/-- TURN.SET (R199). -/
def execTurnSet (h : Hdr) (a b x : SIx) : State → Outc :=
  runForm { i := .turnSet h a b x, h := h, srcs := [.s a, .s b, .s x] } fun s r c =>
    if !turnSetOk (rs c a) (rs c b) (rs c x) then .trap fOperand 0 (BitVec.ofNat 64 ((rs c a).toNat % 16))
    else
      let w := newWait s r c
      .wait w.2 w.1.id .turnSet 0 0 0 [rs c a, rs c b, rs c x]
/-- The word of TURN.GET (Table 2). -/
def turnWord (t : Tile) (l : Slot) : Nat :=
  (poolOf t).toNat * 2 ^ 48 + l.maxT * 2 ^ 40 + (if l.heldBy.isSome then 0 else l.minT) * 2 ^ 32 + l.base.toNat * 2 ^ 16 + l.owned.toNat
/-- Where the words of a slot lie in array 5: the turn table stands behind the images (log 21). -/
def turnByte (i : Nat) : Nat := 2 ^ 18 + 8 * i
/-- TURN.GET (R200). -/
def execTurnGet (h : Hdr) (w : TurnW) (d a : SIx) : State → Outc :=
  runForm { i := .turnGet h w d a, h := h, srcs := [.s a], dsts := [.s d] } fun s r c =>
    let i := (rs c a).toNat
    let l := slotAt s ⟨r.pkg, r.tile, i⟩
    let cnt (n : Nat) : Nat := if l.ph ≠ .free ∧ l.ctx.d.job = c.d.job then n else 0
    if 15 < i then .trap fOperand 0 0
    else arrayFind 5 (turnByte i) (turnByte i + 8) s r c fun s => results s r c [.s a] 3 [(.s d, BitVec.ofNat 2048 (match w with
      | .own => turnWord (tileAt s r.node) l
      | .issued => cnt l.ctx.issued
      | .lost => cnt l.ctx.lost))]

/-- The TURN.SETs parked on a tile, in the order in which they issued (step 1 of R197). -/
def parkedSets (t : Tile) : List (Nat × Ctx × Park) :=
  sortBy (fun a b => a.2.2.id ≤ b.2.2.id) ((tileUnits t).filterMap fun (i, c) => c.park.bind fun p =>
    if p.kind = .turnSet then some (i, c, p) else none)
/-- One TURN.SET at the boundary. Its slot may issue in this very cycle. -/
def doTurnSet (n : Node) (s : State) (x : Nat × Ctx × Park) : State :=
  let w : Who := ⟨⟨n.pkg, n.id, x.1⟩, x.2.1.uid, x.2.2.id⟩
  let arg (k : Nat) : Word := x.2.2.aux.getD k 0
  match turnApply (tileAt s n) x.2.1.d.launch x.2.1.d.job (arg 0).toNat ((arg 1).setWidth 16) (arg 2) with
  | some t => modUnit (finish (setTile s n t) w id) w.slot w.uid fun c => { c with readyFrom := min c.readyFrom s.now }
  | none => faultWait s w fOperand 0 (arg 0)
/-- Whether no unit of a launch is on a tile, bound or away. -/
def launchGone (t : Tile) (launch : Word) (job : Option Word) : Bool :=
  !((tileUnits t).any fun x => x.2.d.launch = launch && job.all fun j => x.2.d.job = j)
/-- Slots to restore: those that a launch held, or to which its units were bound, where the launch has left the tile (R196). -/
def toRestore (t : Tile) : List Nat :=
  (t.slots.toList.zipIdx.filter fun (l, _) =>
    (l.past.any fun x => launchGone t x.1 (some x.2)) || (l.heldBy.any fun a => launchGone t a none)).map (·.2)
/-- Restores slots (R196). -/
def restoreSlots (t : Tile) (is : List Nat) : Tile :=
  let t := is.foldl (fun u i => u.modSlot i fun l =>
    { l with owned := 0, base := 0, terms := [], past := l.past.filter fun x => !launchGone t x.1 (some x.2) }) t
  is.foldl takeHome t
/-- The sum of the terms that act on a slot. -/
def Slot.contribution (l : Slot) : Int := (l.terms.map (·.2)).foldl (· + ·) 0
/-- The target of a slot (step 3 of R197). -/
def Slot.target (l : Slot) : Nat := (clampInt l.minT l.maxT (turnCount l.base + l.contribution)).toNat
/-- The highest member of a set of turns. -/
def highestTurn (b : BitVec 16) : Option Nat := (List.range 16).reverse.find? fun i => b.getLsbD i
/-- The lowest member of a set of turns. -/
def lowestTurn (b : BitVec 16) : Option Nat := (List.range 16).find? fun i => b.getLsbD i
/-- A slot releases turns down to its target (step 3 of R197). -/
def releaseTurns (i : Nat) : Nat → Slot → Slot
  | 0, l => l
  | n + 1, l =>
    if turnCount l.owned ≤ l.target then l
    else match highestTurn (l.owned &&& ~~~l.base &&& ~~~homeTurn i) with
      | some k => releaseTurns i n { l with owned := l.owned &&& ~~~homeTurn k }
      | none => match highestTurn (l.owned &&& l.base &&& ~~~homeTurn i) with
        | some k => releaseTurns i n { l with owned := l.owned &&& ~~~homeTurn k }
        | none => l
/-- A slot takes turns of the pool up to its target (step 4 of R197). -/
def takeTurns (i : Nat) : Nat → Tile → Tile
  | 0, t => t
  | n + 1, t =>
    let l := t.slots.toList.getD i (Slot.reset i)
    if l.target ≤ turnCount l.owned then t
    else match lowestTurn (poolOf t) with
      | some k => takeTurns i n (t.modSlot i fun l => { l with owned := l.owned ||| homeTurn k })
      | none => t
/-- Steps 3 and 4 of R197. -/
def moveTurns (t : Tile) : Tile :=
  let bound := (t.slots.toList.zipIdx.filter fun (l, _) => l.ph = .bound).map (·.2)
  let t := bound.foldl (fun t i => t.modSlot i (releaseTurns i 16)) t
  bound.foldl (fun t i => takeTurns i 16 t) t
/-- The words of the turn table that have changed are written: errors in them are gone. -/
def freshTurns (s : State) (n : Node) (old : List Slot) : State :=
  if (tileAt s n).errs = [] then s
  else ((tileAt s n).slots.toList.zip old).zipIdx.foldl (fun s ((l, o), i) =>
    if l.owned = o.owned ∧ l.base = o.base ∧ l.minT = o.minT ∧ l.maxT = o.maxT then s else replaceUnits s n 5 (turnByte i) (turnByte i + 8)) s
/-- The changes of a round boundary, in order (R197). -/
def boundaryTurns (s : State) (n : Node) : State :=
  let old := (tileAt s n).slots.toList
  let s := (parkedSets (tileAt s n)).foldl (doTurnSet n) s
  freshTurns (modTile s n fun t => moveTurns (restoreSlots t (toRestore t))) n old
/-- The free slots of a tile, slot by slot. -/
def freeSlots (s : State) (n : Node) : List Bool := (tileAt s n).slots.toList.map slotFree
/-- The changes of a round boundary; where they free a slot, or take one, nodes and spawn entries are looked at (R85, R90). -/
def turnBoundary (s : State) (n : Node) : State :=
  let x := boundaryTurns s n
  if freeSlots x n = freeSlots s n then x else askWork x n

/-! ### Couplers (R201 to R209) -/

/-- A signed field of 8 bits. -/
def signed8 (x : Nat) : Int := toSigned 8 (x % 256)
/-- Fields of a coupler's configuration word (Table 4). -/
def Coupler.kp (c : Coupler) : Int := signed8 c.conf.toNat
/-- KI. -/
def Coupler.ki (c : Coupler) : Int := signed8 (c.conf.toNat / 2 ^ 8)
/-- T = 2^(6 + TS). -/
def Coupler.period (c : Coupler) : Nat := 2 ^ (6 + c.conf.toNat / 2 ^ 16 % 8)
/-- UMAX. -/
def Coupler.umax (c : Coupler) : Nat := c.conf.toNat / 2 ^ 24 % 16
/-- SETPT. -/
def Coupler.setpt (c : Coupler) : Nat := c.conf.toNat / 2 ^ 32 % 2 ^ 16
/-- Capacity of a stream in units of 32 bytes (R202). -/
def streamCap (m : PImage) : Nat := m.window * max 1 m.maxpay
/-- Whether a stream is full (R202). -/
def streamFull (m : PImage) (x : Endpoint) : Bool := occupancy x = streamCap m || m.window ≤ landedMsgs x
/-- A number over 16, truncated toward zero. -/
def sixteenth (a : Int) : Int := if 0 ≤ a then a / 16 else -(-a / 16)
/-- One sample of a coupler at an endpoint (R203). -/
def sampleOnce (m : PImage) (x : Endpoint) (c : Coupler) : Coupler :=
  let o := occupancy x
  let e : Int := (o : Int) - c.setpt
  let d := c.kp * (e - c.eprev) + c.ki * e
  let d := if o = 0 then 0 else if streamFull m x ∧ d < 0 then 0 else d
  let a := clampInt (-(16 * (c.umax : Int))) (16 * (c.umax : Int)) (c.acc + d)
  { c with
    acc := a, eprev := e, u := sixteenth a, occ := o, samples := min (2 ^ 32 - 1) (c.samples + 1)
    atFull := if streamFull m x then min (2 ^ 16 - 1) (c.atFull + 1) else c.atFull
    atEmpty := if o = 0 then min (2 ^ 16 - 1) (c.atEmpty + 1) else c.atEmpty }
/-- The next sampling cycle after the present one. -/
def nextSample (s : State) (n : Node) (t : Nat) : Nat := s.now + (t - cycleOf s n.pkg % t)
/-- Asks for the next sample of a coupler. -/
def askSample (s : State) (n : Node) (i : Nat) (t : Nat) : State :=
  pushOnce s (nextSample s n t) phEnd (nodeKey n) (.couplerSample n i)
/-- Asks for the samples of a coupler anew: a sample of the present cycle is no longer due (R203, R209; DEDUCED, log 16). -/
def reSample (s : State) (n : Node) (i : Nat) (t : Nat) : State :=
  askSample { s with agenda := s.agenda.filter fun e => e.ev ≠ .couplerSample n i } n i t
/-- Whether a unit that a coupler joins is pre-empted (R203). -/
def couplerAway (s : State) (n : Node) (c : Coupler) : Bool :=
  (match c.holder with
    | some (l, u) => isAway s ⟨n.pkg, n.id, l⟩ u
    | none => false) || isAway s c.producer c.producerUid
/-- Whether a sample falls in the present cycle, or fell in the held rounds just before it (R365). -/
def sampleDue (s : State) (n : Node) (t : Nat) : Bool :=
  (List.range (cycleOf s n.pkg % t)).all fun k => holds (heldCount s n) ((cycleOf s n.pkg - 1 - k) / 16)
/-- COUPLER_SAMPLE (R203, R204). -/
def evCouplerSample (n : Node) (i : Nat) (s : State) : State :=
  let c := couplerAt s n i
  if c.st ≠ .running then s
  else if !sampleDue s n c.period ∨ couplerAway s n c then askSample s n i c.period
  else
    let x := epAt s ⟨n.pkg, n.id, c.ep⟩
    let d := sampleOnce (imageOf s n x.img) x c
    let key : EpRef := ⟨n.pkg, n.id, i⟩
    let s := match c.holder with
      | some (l, _) => setTerm s ⟨n.pkg, n.id, l⟩ key d.u
      | none => s
    let s := if d.u = c.sent then s else sendTerm s key c.producer (some d.u) (holderPin s n c)
    askSample (modCoupler s n i fun _ => { d with sent := d.u }) n i c.period
/-- COUPLER_CONTROL_FLIT_LAND: the remote entry of the producer's tile is written (R204); the flit of a release, with no output,
frees it (R205). -/
def evCouplerControlFlitLand (n : Node) (owner : EpRef) (u : Option Int) (s : State) : State :=
  match (tileAt s n).remotes.find? fun m => m.owner = owner with
  | some m =>
    let s := setTerm s ⟨n.pkg, n.id, m.slot⟩ (prodKey owner) (-(u.getD 0))
    if u.isNone then modTile s n fun t => { t with remotes := t.remotes.erase m } else s
  | none => s

/-- Whether a slot's unit holds a coupler. -/
def holdsCoupler (s : State) (r : SlotRef) (c : Ctx) (i : Nat) : Bool :=
  let k := couplerAt s r.node i
  k.holder = some (r.slot, c.uid) && k.st ≠ .reserved
/-- The fault of a coupler that is not held (R201). -/
def notHeld (n : BitVec 4) : Act := .trap fOperand 0 (BitVec.ofNat 64 n.toNat)
/-- Why a configuration word is refused: the item of R207. -/
def confBad (x : Word) (cap : Nat) : Option Nat :=
  let k : Coupler := { conf := x }
  let gain := k.kp.natAbs + k.ki.natAbs
  let rsv := x.toNat / 2 ^ 48 + x.toNat / 2 ^ 28 % 16 + x.toNat / 2 ^ 19 % 32
  if rsv ≠ 0 ∨ x.toNat / 2 ^ 16 % 8 = 7 ∨ k.umax < 1 ∨ 8 < k.umax ∨ cap < k.setpt then some 1
  else if gain = 0 then some 2
  else if 32 * cap < gain * k.umax * k.period then some 3
  else none
/-- RC.CONF (R207, R209). -/
def execRcConf (h : Hdr) (n : BitVec 4) (a : SIx) : State → Outc :=
  runForm { i := .rcConf h n a, h := h, srcs := [.s a] } fun s r c =>
    let i := n.toNat
    let k := couplerAt s r.node i
    if !holdsCoupler s r c i then notHeld n
    else if k.st = .detached then .trap fOperand 0 0
    else match confBad (rs c a) (streamCap (imageOf s r.node (epAt s ⟨r.pkg, r.tile, k.ep⟩).img)) with
      | some b => .trap fCoupler 0 (BitVec.ofNat 64 b)
      | none =>
        let k' : Coupler := { k with conf := rs c a, st := .running }
        let lim : Int := 16 * k'.umax
        let k' := if k.st = .bound then { k' with acc := 0, eprev := 0 } else { k' with acc := clampInt (-lim) lim k.acc }
        .done (reSample (modCoupler s r.node i fun _ => k') r.node i k'.period)
/-- RC.BIND (R209). -/
def execRcBind (h : Hdr) (n : BitVec 5) (ep : BitVec 7) (d : SIx) : State → Outc :=
  runForm { i := .rcBind h n ep d, h := h, dsts := [.s d] } fun s r c =>
    let x := epAt s (ownEp r ep)
    let m := imageOf s r.node x.img
    let free (i : Nat) : Bool := (couplerAt s r.node i).st = .free
    if 16 < n.toNat then .trap fOperand 0 0
    else if !ownsEp s r c.uid ep.toNat then notOwned ep.toNat
    else if x.st ≠ .opened ∨ m.window = 0 ∨ m.laRecv ≠ m.window ∨ x.coupler.isSome then .trap fOperand 0 0
    else match (if n.toNat = 16 then (List.range 16).find? free else if free n.toNat then some n.toNat else none) with
      | none => results s r c [] 3 [(.s d, sval (BitVec.allOnes 64))]
      | some i =>
        let s := modCoupler s r.node i fun _ => { st := .reserved, holder := some (r.slot, c.uid), ep := ep.toNat }
        let s := modEp s (ownEp r ep) fun x => { x with coupler := some i }
        svcAct s r c x.peer.node none (.rcBind x.peer i) 0 .rcBindRequest
/-- RC_BIND_REQUEST at the producer's tile (R209): value 1 says that the peer endpoint has no owner, 2 that there is no free
remote entry. -/
def evRcBindRequest (q : SvcReq) (s : State) : State :=
  match q.kind with
  | .rcBind peer i =>
    let at_ := q.who.slot.node
    let owner : EpRef := ⟨at_.pkg, at_.id, i⟩
    svcServe s q 1 16 .rcBindRequest fun s =>
      if (couplerAt s at_ i).holder ≠ some (q.who.slot.slot, q.who.uid) then (s, svcVal 1)
      else match (epAt s peer).owner with
        | none => (s, svcVal 1)
        | some (l, u) =>
          if 16 ≤ (tileAt s peer.node).remotes.length then (s, svcVal 2)
          else
            let s := modTile s peer.node fun t => { t with remotes := t.remotes ++ [⟨owner, l, u⟩] }
            (modCoupler s at_ i fun k => { k with producer := ⟨peer.pkg, peer.tile, l⟩, producerUid := u }, svcVal 0)
  | _ => s
/-- The reply to an RC.BIND (R209). -/
def bindReply (s : State) (w : Who) (c : Ctx) (d : SIx) (v : Nat) : State :=
  match (tileAt s w.slot.node).couplers.find? fun x => x.2.st = .reserved ∧ x.2.holder = some (w.slot.slot, c.uid) with
  | none => finish s w id
  | some (i, k) =>
    let n := w.slot.node
    let drop (s : State) : State :=
      modEp (modTile s n fun t => { t with couplers := aerase t.couplers i }) ⟨n.pkg, n.id, k.ep⟩ fun x => { x with coupler := none }
    let give (s : State) (x : Word) : State := finish s w fun c => putReg c (.s d) (sval x)
    match v with
    | 0 =>
      let open_ := (epAt s ⟨n.pkg, n.id, k.ep⟩).st = .opened
      give (modCoupler s n i fun k => { k with st := if open_ then .bound else .detached }) (BitVec.ofNat 64 i)
    | 1 => faultWait (drop s) w fOperand 0 1
    | _ => give (drop s) (BitVec.ofNat 64 (2 ^ 64 - 2))
/-- A two's complement field. -/
def fieldOf (w : Nat) (x : Int) : Nat := (x % 2 ^ w).toNat
/-- The words of RC.READ (R206, Table 6). -/
def rcWord (k : Coupler) : RcW → Nat
  | .state =>
    let st : Nat := match k.st with
      | .bound => 1
      | .running => 2
      | .detached => 3
      | _ => 0
    st * 2 ^ 61 + k.occ % 2 ^ 16 * 2 ^ 40 + fieldOf 8 k.u * 2 ^ 32 + fieldOf 16 k.acc * 2 ^ 16 + fieldOf 16 k.eprev
  | .conf => k.conf.toNat
  | .count => k.samples * 2 ^ 32 + k.atFull * 2 ^ 16 + k.atEmpty
/-- RC.READ (R208, R209). -/
def execRcRead (h : Hdr) (n : BitVec 4) (w : RcW) (d : SIx) : State → Outc :=
  runForm { i := .rcRead h n w d, h := h, dsts := [.s d] } fun s r c =>
    if !holdsCoupler s r c n.toNat then notHeld n
    else results s r c [] 3 [(.s d, BitVec.ofNat 2048 (rcWord (couplerAt s r.node n.toNat) w))]
/-- RC.FREE (R209). -/
def execRcFree (h : Hdr) (n : BitVec 4) : State → Outc :=
  runForm { i := .rcFree h n, h := h } fun s r c =>
    if !holdsCoupler s r c n.toNat then notHeld n else .done (freeCoupler s r.node n.toNat)

end Sys2Proof.Machine
end

