-- ==== Sys2Proof/Machine/Heaps.lean ====
section
/-! DEFINITION. Heaps and their allocators (R254 to R258). -/

namespace Sys2Proof.Machine

/-! ### Frames, tables and mappings (R258) -/

/-- An allocator of a package, by its place. -/
def allocAt (s : State) (n : Node) : Allocator := aget {} (pkgAt s n.pkg).allocs n.id
/-- Changes an allocator. -/
def modAlloc (s : State) (n : Node) (f : Allocator → Allocator) : State :=
  modPkg s n.pkg fun p => { p with allocs := aset p.allocs n.id (f (aget {} p.allocs n.id)) }
/-- Takes the first frame of a job's runs. -/
def takeFrame (job : Word) : List (Word × Nat × Nat) → Option (Nat × List (Word × Nat × Nat))
  | [] => none
  | (j, b, n) :: l =>
    if j = job ∧ 0 < n then some (b, if n = 1 then l else (j, b + 65536, n - 1) :: l)
    else (takeFrame job l).map fun x => (x.1, (j, b, n) :: x.2)
/-- Takes a given frame out of a job's runs. -/
def takeGiven (job : Word) (a : Nat) : List (Word × Nat × Nat) → List (Word × Nat × Nat)
  | [] => []
  | (j, b, n) :: l =>
    if j = job ∧ b ≤ a ∧ a < b + 65536 * n then
      [(j, b, (a - b) / 65536), (j, a + 65536, n - (a - b) / 65536 - 1)].filter (fun x => x.2.2 ≠ 0) ++ l
    else (j, b, n) :: takeGiven job a l
/-- A free frame of a job: the one a free value names, else the first (log 5). -/
def pickFrame (s : State) (al : Allocator) (job : Word) : Option (Nat × List (Word × Nat × Nat)) :=
  match takeFrame job al.frames with
  | none => none
  | some x =>
    let a := Config.freePick s.freeCtr / 65536 * 65536
    if al.frames.any fun (j, b, n) => j = job ∧ b ≤ a ∧ a < b + 65536 * n then some (a, takeGiven job a al.frames) else some x
/-- Number of free frames of a job. -/
def freeFrames (al : Allocator) (job : Word) : Nat := ((al.frames.filter fun x => x.1 = job).map (·.2.2)).sum
/-- Takes an 8 KiB table of zeros for a job; none where frames are short. -/
def takeTable (s : State) (n : Node) (job : Word) : Option (Nat × State) :=
  let al := allocAt s n
  let clear (s : State) (a : Nat) : State := { s with mem := s.mem.filter fun x => ¬(a ≤ x.1 ∧ x.1 < a + 8192) }
  match al.tables.find? fun x => x.1 = job with
  | some x => some (x.2, clear (modAlloc s n fun al => { al with tables := al.tables.erase x }) x.2)
  | none => (pickFrame s al job).map fun (a, rest) =>
    (a, clear (modAlloc (stepFree s) n fun al =>
      { al with frames := rest, tables := al.tables ++ (List.range 7).map fun k => (job, a + 8192 * (k + 1)) }) a)
/-- Writes the leaf of a page below a table, making the tables it needs. -/
def mapFrom (s : State) (n : Node) (job : Word) (va leaf : Nat) : Nat → Nat → Option State
  | 0, tbl => some (physWrite s (tbl + 8 * (va / 2 ^ 16 % 1024)) (bytesOfNat 8 leaf))
  | lvl + 1, tbl =>
    let e := tbl + 8 * (va / 2 ^ (16 + 10 * (lvl + 1)) % 1024)
    let w := physWord s e
    if pteKind w = 1 then mapFrom s n job va leaf lvl (pteAddr w)
    else if pteKind w ≠ 0 then none
    else match takeTable s n job with
      | none => none
      | some (a, s) => mapFrom (physWrite s e (bytesOfNat 8 (a + 32))) n job va leaf lvl a
/-- Writes the leaf of a page into the tables of a job, those of every package. -/
def mapPage (s : State) (n : Node) (j : Job) (va leaf : Nat) : Option State :=
  ((j.pkgs.map fun p => j.rootTables.getD p 0).eraseDups).foldlM (fun s root => mapFrom s n j.handle va leaf 3 root) s
/-- Word of a leaf with R and W. -/
def heapLeaf (j : Job) (frame : Nat) : Nat := j.key * 2 ^ 54 + frame + 128 + 16 + 8
/-- Maps those of so many pages from an address that are not yet mapped; none where frames are short. -/
def mapPages (s : State) (n : Node) (j : Job) : Nat → Nat → Option State
  | 0, _ => some s
  | k + 1, va =>
    if (allocAt s n).pages.contains (j.handle, va) then mapPages s n j k (va + 65536)
    else match pickFrame s (allocAt s n) j.handle with
      | none => none
      | some (a, rest) =>
        let s := modAlloc (stepFree s) n fun al => { al with frames := rest, pages := al.pages ++ [(j.handle, va)] }
        match mapPage s n j va (heapLeaf j a) with
        | none => none
        | some s => mapPages s n j k (va + 65536)
/-- The bytes at virtual addresses become unspecified (R255, R256). Free values, log 5. -/
def scrambleVa (s : State) (n : Node) (job : Word) : Nat → Nat → Nat → State
  | 0, _, _ => s
  | fuel + 1, va, len =>
    if len = 0 then s
    else
      let k := min len (65536 - va % 65536)
      let s := match walk s n.pkg job va with
        | .leaf w bits => { s with mem := scramble s.mem (leafPa w bits va) s.freeCtr k, freeCtr := s.freeCtr + k }
        | _ => s
      scrambleVa s n job fuel (va + k) (len - k)

/-! ### Blocks (R255, R256) -/

/-- The class of a request (R255). -/
def heapClass (size : Nat) : Nat :=
  if 2 ^ 20 < size then (size + 65535) / 65536 * 65536 else max 64 (2 ^ Nat.clog 2 size)
/-- First address and length of what an allocator places in a heap (R258). -/
def heapRange (j : Job) (n : Node) (heap : Nat) : Nat × Nat :=
  let base := j.r.heapva.toNat + heap * 2 ^ 44
  if isCompute n.id then (base + n.pkg * 2 ^ 37 + n.id * 2 ^ 26, 2 ^ 26) else (base + 2 ^ 43 + n.pkg * 2 ^ 37, 2 ^ 37)
/-- The heap of an allocator. -/
def heapOf (al : Allocator) (job : Word) (heap : Nat) : Heap :=
  (al.heaps.find? fun h => h.job = job ∧ h.n = heap).getD { job := job, n := heap }
/-- Replaces a heap of an allocator. -/
def setHeap (al : Allocator) (h : Heap) : Allocator :=
  { al with heaps := h :: al.heaps.filter fun x => ¬(x.job = h.job ∧ x.n = h.n) }
/-- Alignment of a block. -/
def heapAlign (size : Nat) : Nat := if 2 ^ 20 < size then 65536 else size
/-- Whether a block may be placed at an address. -/
def fitsAt (al : Allocator) (j : Job) (h : Heap) (rg : Nat × Nat) (size va : Nat) : Bool :=
  va % heapAlign size = 0 && rg.1 ≤ va && va + size ≤ rg.1 + rg.2 &&
  (h.blks.all fun b => b.va + b.size ≤ va || va + size ≤ b.va) &&
  ((List.range ((size + 65535) / 65536)).filter fun k => !al.pages.contains (j.handle, va / 65536 * 65536 + 65536 * k)).length ≤
    freeFrames al j.handle
/-- Addresses at which a block may be tried, beside the free one: in pages mapped already, and after all blocks. -/
def tryPlaces (al : Allocator) (j : Job) (h : Heap) (rg : Nat × Nat) (size : Nat) : List Nat :=
  let al_ := heapAlign size
  let top := (h.blks.map fun b => b.va + b.size).foldl max rg.1
  ((al.pages.filter fun p => p.1 = j.handle ∧ rg.1 ≤ p.2 ∧ p.2 < rg.1 + rg.2).flatMap fun p =>
    (List.range (max 1 (65536 / al_))).map fun k => p.2 + k * al_) ++ [(top + al_ - 1) / al_ * al_, (top + 65535) / 65536 * 65536]
/-- The address of a new block: the one a free value names where it can be had, else the first that can (log 5). -/
def pickPlace (s : State) (al : Allocator) (j : Job) (h : Heap) (rg : Nat × Nat) (size : Nat) : Option Nat :=
  let x := rg.1 + Config.freePick s.freeCtr % rg.2 / heapAlign size * heapAlign size
  if fitsAt al j h rg size x then some x else (tryPlaces al j h rg size).find? (fitsAt al j h rg size)
/-- Counts of a heap. -/
def countOf (j : Job) (heap : Nat) : HeapCount := (j.quota.find? fun q => q.n = heap).getD { n := heap }
/-- Changes the counts of a heap. -/
def modCount (s : State) (job : Word) (heap : Nat) (f : HeapCount → HeapCount) : State :=
  modJob s job fun j => { j with quota := f (countOf j heap) :: j.quota.filter fun q => q.n ≠ heap }
/-- A failed allocation (R255): 1 for quota, 2 for memory. -/
def allocFail (s : State) (job : Word) (heap why : Nat) : State × SvcReply :=
  (modCount s job heap fun q => { q with fails := q.fails + 1 },
    ⟨0, false, fHeap, 0, BitVec.ofNat 64 (heap + why * 2 ^ 4)⟩)
/-- Serves an ALLOC (R255). -/
def serveAlloc (s : State) (n : Node) (q : SvcReq) (heap : Nat) (size : Word) : State × SvcReply :=
  match jobAt s q.job with
  | none => (s, svcFault fOperand 0 0)
  | some j =>
    let size := heapClass size.toNat
    let cnt := countOf j heap
    if cnt.quota < cnt.used + size then allocFail s q.job heap 1
    else
      let al := allocAt s n
      let h := heapOf al q.job heap
      match pickPlace s al j h (heapRange j n heap) size with
      | none => allocFail s q.job heap 2
      | some va => match mapPages (stepFree s) n j ((size + 65535) / 65536) (va / 65536 * 65536) with
        | none => allocFail s q.job heap 2
        | some s =>
          let s := modAlloc s n fun al => setHeap al { heapOf al q.job heap with blks := ⟨va, size⟩ :: (heapOf al q.job heap).blks }
          let s := modCount s q.job heap fun c => { c with used := c.used + size, high := max c.high (c.used + size) }
          (scrambleVa s n q.job ((size + 65535) / 65536 + 1) va size, svcVal va)
/-- The allocators that hold a block of a heap at an address. -/
def holdersOf (s : State) (job : Word) (heap va : Nat) : List Node :=
  s.pkgs.flatMap fun (p, k) => (k.allocs.filter fun (_, al) => (heapOf al job heap).blks.any fun b => b.va = va).map fun (i, _) => ⟨p, i⟩
/-- Serves a FREE (R256). The block may be another allocator's of the job. -/
def serveFree (s : State) (q : SvcReq) (heap : Nat) (ptr : Word) : State × SvcReply :=
  match (holdersOf s q.job heap ptr.toNat).head? with
  | none => (s, svcFault fBadFree ptr 0)
  | some n =>
    let h := heapOf (allocAt s n) q.job heap
    let size := ((h.blks.find? fun b => b.va = ptr.toNat).map (·.size)).getD 0
    let s := modAlloc s n fun al => setHeap al { h with blks := h.blks.filter fun b => b.va ≠ ptr.toNat }
    let s := modCount s q.job heap fun c => { c with used := c.used - size }
    (scrambleVa s n q.job (size / 65536 + 2) ptr.toNat size, svcVal 0)
/-- A count of a heap (R257). -/
def heapWord (c : HeapCount) : HeapW → Nat
  | .used => c.used
  | .high => c.high
  | .avail => c.quota - c.used
  | .fails => c.fails
/-- Serves a request at an allocator. -/
def serveHeap (s : State) (n : Node) (q : SvcReq) : State × SvcReply :=
  match q.kind with
  | .alloc heap size => serveAlloc s n q heap size
  | .free heap ptr => serveFree s q heap ptr
  | .heapInfo heap w => (s, svcVal (((jobAt s q.job).map fun j => heapWord (countOf j heap) w).getD 0))
  | .heapQuota heap b => (modCount s q.job heap fun c => { c with quota := b.toNat }, svcVal 0)
  | _ => (s, svcVal 0)
/-- Whether a vault allocator forwards a request (R255). -/
def forwards (n : Node) (q : SvcReq) : Bool :=
  match q.kind with
  | .alloc _ size => isCompute n.id && 2 ^ 20 < size.toNat
  | _ => false
/-- Sends the reply of an allocator to the slot, 48 cycles on (R397). -/
def allocReply (s : State) (q : SvcReq) (a : SvcReply) : State :=
  sendAt s (s.now + 48) ⟨q.who.slot, q.peer, q.who.slot.node, 4, 1, [4, 6, slotKey q.who.slot], some q.launch, true, .allocatorReplyLand q.who a⟩
/-- ALLOCATOR_REQUEST: taken in its turn and served here, or forwarded to the far-memory allocator, whose answer comes back to the vault
allocator that has forwarded it (R254, R255, R397). -/
def evAllocatorRequest (peer : Node) (q : SvcReq) (s : State) : State :=
  let hop (s : State) (t : Nat) (a b : Node) (typ : Nat) (q : SvcReq) : State :=
    sendAt s t ⟨q.who.slot, a, b, typ, 1, [typ, 6, slotKey q.who.slot, 1], some q.launch, typ = 4, .allocatorRequest b { q with turn := false }⟩
  match q.kind with
  | .answered a => allocReply s q a
  | _ => serveTurn s q.turn (peerKey peer 2) (slotKey q.who.slot) (.allocatorRequest peer { q with turn := true }) fun s =>
      if forwards peer q then hop s s.now peer (svcN peer.pkg) 3 q
      else
        let x := serveHeap s peer q
        if peer = q.peer then allocReply x.1 q x.2 else hop x.1 (s.now + 48) peer q.peer 4 { q with kind := .answered x.2 }

/-! ### The forms (R254 to R257) -/

/-- The allocator of a tile (R254). -/
def allocPeer (r : SlotRef) : Node := if isCompute r.tile then r.node else svcN r.pkg
/-- Sends a heap request and parks. -/
def heapAct (s : State) (r : SlotRef) (c : Ctx) (k : SvcKind) : Act := svcAct s r c (allocPeer r) none k 0 (.allocatorRequest (allocPeer r))
/-- Checks of ALLOC (R255). -/
def allocAct (n : BitVec 4) (size : Word) (s : State) (r : SlotRef) (c : Ctx) : Act :=
  if size = 0 ∨ 2 ^ 36 < size.toNat then .trap fOperand 0 0 else heapAct s r c (.alloc n.toNat size)
/-- ALLOC.F (R255). -/
def execAllocF (h : Hdr) (n : BitVec 4) (d a : SIx) : State → Outc :=
  runForm { i := .allocF h n d a, h := h, srcs := [.s a], dsts := [.s d] } fun s r c => allocAct n (rs c a) s r c
/-- ALLOC.Q (R255). -/
def execAllocQ (h : Hdr) (n : BitVec 4) (p : BitVec 3) (d a : SIx) : State → Outc :=
  runForm { i := .allocQ h n p d a, h := h, srcs := [.s a], dsts := [.s d] ++ pDst p } fun s r c => allocAct n (rs c a) s r c
/-- FREE (R256). -/
def execFree (h : Hdr) (n : BitVec 4) (a : SIx) : State → Outc :=
  runForm { i := .free h n a, h := h, srcs := [.s a] } fun s r c =>
    if rs c a = 0 then .done s else release s r c .dom r.node (heapAct s r c (.free n.toNat (rs c a)))
/-- HEAP.INFO (R257). -/
def execHeapInfo (h : Hdr) (n : BitVec 4) (w : HeapW) (d : SIx) : State → Outc :=
  runForm { i := .heapInfo h n w d, h := h, dsts := [.s d] } fun s r c => heapAct s r c (.heapInfo n.toNat w)
/-- Whether a slot supervises a launch of a job. -/
def isSupervisor (s : State) (r : SlotRef) (job : Word) : Bool :=
  (pkgAt s r.pkg).launches.any fun l => l.job = job && !l.done && l.d.supT = r.tile && l.d.supS = r.slot
/-- HEAP.INFO.quota (R257). -/
def execHeapInfoQuota (h : Hdr) (n : BitVec 4) (a : SIx) : State → Outc :=
  runForm { i := .heapInfoQuota h n a, h := h, srcs := [.s a] } fun s r c =>
    if !c.d.root ∧ !isSupervisor s r c.d.job then .trap fOperand 0 0 else heapAct s r c (.heapQuota n.toNat (rs c a))
/-- What a heap form writes when its reply lands. -/
def heapResults (i : Instr) (a : SvcReply) : List (Reg × VVal) :=
  match i with
  | .allocF _ _ d _ => [(.s d, sval a.val)]
  | .allocQ _ _ p d _ => [(.s d, sval a.val)] ++ pRes p a.ok
  | .heapInfo _ _ _ d => [(.s d, sval a.val)]
  | _ => []
/-- Whether a form takes a failed allocation as a value. -/
def takesFail : Instr → Bool
  | .allocQ _ _ _ _ _ => true
  | _ => false
/-- ALLOCATOR_REPLY_LAND (R255, R256). -/
def evAllocatorReplyLand (w : Who) (a : SvcReply) (s : State) : State :=
  match waitOf s w with
  | none => s
  | some (_, p) =>
    if a.code ≠ 0 ∧ !(a.code = fHeap ∧ takesFail p.form) then faultWait s w a.code a.va a.aux
    else finish s w fun c => (heapResults p.form a).foldl (fun c (g, x) => if realReg g then putReg c g x else c) c

end Sys2Proof.Machine
end

