-- ==== Sys2Proof/Machine/Exchange.lean ====
section
/-! DEFINITION. Scheduled exchange: demand, the arbiter, calendars and their service, sends by the calendar, and the block
queue of the spouts (R317 to R329). -/

namespace Sys2Proof.Machine

/-! ### Groups and their records (R317, R327) -/

/-- What a package keeps of exchange for a job. -/
def exchAt (s : State) (pkg : Nat) (job : Word) : Option Exchange := (pkgAt s pkg).exch.find? fun x => x.job = job
/-- Changes it. -/
def modExch (s : State) (pkg : Nat) (job : Word) (f : Exchange → Exchange) : State :=
  modPkg s pkg fun p => { p with exch := p.exch.map fun x => if x.job = job then f x else x }
/-- The packages of a job that take part in exchange. -/
def groupOf (s : State) (job : Word) : List Nat := (allPkgs s).filter fun p => (exchAt s p job).isSome
/-- The arbiter or standby record of a package for a job. -/
def arbAt (s : State) (pkg : Nat) (job : Word) : Option Arbiter := (pkgAt s pkg).arbs.find? fun a => a.job = job
/-- Changes it. -/
def modArb (s : State) (pkg : Nat) (job : Word) (f : Arbiter → Arbiter) : State :=
  modPkg s pkg fun p => { p with arbs := p.arbs.map fun a => if a.job = job then f a else a }
/-- Sets it. -/
def putArb (s : State) (pkg : Nat) (a : Arbiter) : State :=
  modPkg s pkg fun p => { p with arbs := a :: p.arbs.filter fun b => b.job ≠ a.job }
/-- The package whose arbiter acts for a job. -/
def actingOf (s : State) (job : Word) : Option Nat := (allPkgs s).find? fun p => ((arbAt s p job).map (·.acting)).getD false
/-- The package after one in ascending order of a group, wrapping. -/
def nextOf (g : List Nat) (p : Nat) : Nat := ((g.filter fun q => p < q).head?).getD (g.headD p)
/-- Whether an event belongs to the exchange of a job: what is under way when its calendars are discarded (R317). -/
def exchEvent (job : Word) : Ev → Bool
  | .exchangePhaseEnd _ j _ _ | .calendarIssue j | .calendarDecompose j | .calendarLand _ j _ | .demandRowAccept j _ _ _
  | .heartbeatSend j | .heartbeatTimeout j => j = job
  | _ => false
/-- Arms the standby's timeout anew, from a cycle at which it has heard its arbiter (R327). -/
def armTimeout (s : State) (job : Word) : State :=
  push { s with agenda := s.agenda.filter fun d => ¬(d.ph = phEnd ∧ d.ev = .heartbeatTimeout job) } (s.now + 4096) phEnd job.toNat
    (.heartbeatTimeout job)
/-- Begins the heartbeats of an arbiter to its standby (R327). -/
def startBeats (s : State) (job : Word) : State :=
  push (armTimeout (cancelEvents s fun e => e = .heartbeatSend job) job) (s.now + 1024) phLand job.toNat (.heartbeatSend job)
/-- Flits that the tiles of a package have dropped as stale and deflected, those with any (R328). -/
def flitCounts (s : State) (pkg : Nat) : List (Nat × Nat × Nat) :=
  s.tiles.filterMap fun (k, t) => if (nodeOfKey k).pkg = pkg ∧ (t.stale ≠ 0 ∨ t.defl ≠ 0) then some ((nodeOfKey k).id, t.stale, t.defl) else none
/-- Begins exchange for a job, at a phase of its work hierarchy: what the phase before has under way is discarded; empty rows, period 0,
the arbiter on the lowest package and its standby on the next. A group of one keeps its records by itself (R317). -/
def startExchange (s : State) (j : Job) : State :=
  let s := cancelEvents s (exchEvent j.handle)
  let s := j.pkgs.foldl (fun s p =>
    let base := flitCounts s p
    modPkg s p fun k =>
    let subs := ((k.exch.find? fun x => x.job = j.handle).map (·.subs)).getD []
    { k with exch := { job := j.handle, subs := subs, base := base } :: k.exch.filter (fun x => x.job ≠ j.handle)
             arbs := k.arbs.filter fun a => a.job ≠ j.handle }) s
  match sortBy (fun a b => decide (a ≤ b)) j.pkgs with
  | [] => s
  | a :: l =>
    let b := nextOf (a :: l) a
    let s := putArb s a { job := j.handle, acting := true, other := b, beatAt := s.now }
    if l = [] then s else startBeats (putArb s b { job := j.handle, acting := false, other := a, beatAt := s.now }) j.handle
/-- Ends exchange for a job. -/
def endExchange (s : State) (job : Word) : State :=
  let s := cancelEvents s (exchEvent job)
  { s with pkgs := s.pkgs.map fun (i, k) =>
      (i, { k with exch := k.exch.filter fun x => x.job ≠ job, arbs := k.arbs.filter fun a => a.job ≠ job }) }
/-- Whether a package of a job is within a phase (R317). -/
def inPhase (s : State) (r : SlotRef) (c : Ctx) : Bool := ((jobAt s c.d.job).map fun j => j.phaseOpen.contains r.pkg).getD false

/-! ### Calendars (R312, R320 to R322) -/

/-- The directed links of the route from one package to another. -/
def linksOf (s : State) : Nat → Nat → Nat → List (Nat × Nat)
  | 0, _, _ => []
  | n + 1, p, q => match egressPort s p q with
    | none => []
    | some k => (p, k) :: linksOf s n (portPeer s p k) q
/-- Whether two pairs share a directed link. -/
def conflict (s : State) (a b : Nat × Nat) : Bool := (linksOf s 8 a.1 a.2).any fun l => (linksOf s 8 b.1 b.2).contains l
/-- A matching: pairs in order, none sharing a source or a destination with one before. -/
def matching (l : List (Nat × Nat)) : List (Nat × Nat) :=
  l.foldl (fun m p => if m.any fun q => q.1 = p.1 ∨ q.2 = p.2 then m else m ++ [p]) []
/-- Puts a pair into the first part without a conflict (R321). -/
def placePair (s : State) (p : Nat × Nat) : List (List (Nat × Nat)) → List (List (Nat × Nat))
  | [] => [[p]]
  | g :: l => if g.any (conflict s p) then g :: placePair s p l else (g ++ [p]) :: l
/-- The parts of a matching (R321). -/
def splitPairs (s : State) (m : List (Nat × Nat)) : List (List (Nat × Nat)) := m.foldl (fun ps p => placePair s p ps) []
/-- Order of pairs: by descending demand, then by 64 source + destination. -/
def demandBefore (a b : (Nat × Nat) × Nat) : Bool :=
  b.2 < a.2 || (a.2 = b.2 && 64 * a.1.1 + a.1.2 ≤ 64 * b.1.1 + b.1.2)
/-- The decomposition of a matrix of granules: phases as pairs and durations, and what remains (R320). -/
def decompose (s : State) : Nat → List ((Nat × Nat) × Nat) → List (List (Nat × Nat) × Nat) →
    List (List (Nat × Nat) × Nat) × List ((Nat × Nat) × Nat)
  | 0, d, ph => (ph, d)
  | n + 1, d, ph =>
    let d := sortBy demandBefore (d.filter fun x => 0 < x.2)
    if d = [] ∨ 128 ≤ ph.length then (ph, d)
    else
      let m := matching (d.map (·.1))
      let dur := ((d.filter fun x => m.contains x.1).map (·.2)).foldl min ((d.headD ((0, 0), 0)).2)
      let parts := (splitPairs s m).take (128 - ph.length)
      let did := parts.flatten
      decompose s n (d.map fun x => if did.contains x.1 then (x.1, x.2 - dur) else x) (ph ++ parts.map fun g => (g, dur))
/-- Phases with their starts (R322). -/
def schedule : Nat → List (List (Nat × Nat) × Nat) → List CalPhase
  | _, [] => []
  | t, (g, dur) :: l => ⟨g, dur, t⟩ :: schedule (t + 32 * dur + 64) l
/-- End of a phase. -/
def CalPhase.fin (p : CalPhase) : Nat := p.start + 32 * p.dur
/-- End of a calendar. -/
def Calendar.fin (c : Calendar) : Nat := (c.phases.map CalPhase.fin).foldl max 0
/-- The calendar of a period, its last row accepted at a cycle (R320 to R322). -/
def makeCalendar (s : State) (a : Arbiter) (t : Nat) : Calendar :=
  let d := (a.rows.filter fun x => x.1 = a.next).flatMap fun (_, p, row) => row.zipIdx.map fun (n, q) => ((p, q), n)
  let x := decompose s 129 d []
  let t0 := max (t + 4096) (a.lastEnd + 64)
  ⟨a.next, t0, schedule t0 x.1,
    (groupOf s a.job).map fun p => (p, ((x.2.filter fun y => y.1.1 = p).map (·.2)).sum)⟩

/-! ### Rows and calendars on their way (R319, R323, R327) -/

/-- The acknowledgement of a closed row goes to the slot that closed it (R397). -/
def ackRow (s : State) (arb pkg : Nat) (job : Word) (period : Nat) : State :=
  match (exchAt s pkg job).bind fun x => x.closed.find? fun y => y.1 = period with
  | none => s
  | some (_, _, q) =>
    let t := serveSlot s (peerKey (svcN arb) 5)
    let s := svcReply t.2 { q with peer := svcN arb } (t.1 + 16) (svcVal period)
    modExch s pkg job fun x => { x with closed := x.closed.filter fun y => y.1 ≠ period }
/-- Asks for the decomposition of the next period once every row is in. -/
def tryDecompose (s : State) (pkg : Nat) (job : Word) : State :=
  match arbAt s pkg job with
  | none => s
  | some a =>
    if a.acting && (groupOf s job).all (fun p => a.rows.any fun x => x.1 = a.next ∧ x.2.1 = p) &&
        !a.cals.any (fun c => c.period = a.next) then
      pushOnce s s.now phEnd job.toNat (.calendarDecompose job)
    else s
/-- A row enters a record. -/
def keepRow (period pkg : Nat) (row : List Nat) (a : Arbiter) : Arbiter :=
  if period < a.next then a
  else { a with rows := (period, pkg, row) :: a.rows.filter fun x => ¬(x.1 = period ∧ x.2.1 = pkg) }
/-- DEMAND_ROW_ACCEPT: a closed row lands at the arbiter and its standby; the one that acts acknowledges it (R319, R320). -/
def evDemandRowAccept (job : Word) (pkg period : Nat) (row : List Nat) (s : State) : State :=
  let s := (allPkgs s).foldl (fun s p => modArb s p job (keepRow period pkg row)) s
  match actingOf s job with
  | none => s
  | some a => tryDecompose (ackRow s a pkg job period) a job
/-- CALENDAR_DECOMPOSE: the calendar is made and its standby gets a copy, which it acknowledges (R320, R323). -/
def evCalendarDecompose (job : Word) (s : State) : State :=
  match actingOf s job with
  | none => s
  | some p => match arbAt s p job with
    | none => s
    | some a =>
      if a.cals.any fun c => c.period = a.next then s
      else
        let c := makeCalendar s a s.now
        let note (a : Arbiter) : Arbiter :=
          { a with cals := a.cals ++ [c], lastEnd := if c.phases = [] then a.lastEnd else c.fin
                   rows := a.rows.filter fun x => x.1 ≠ c.period }
        let s := modArb s p job note
        if a.other = p ∨ (arbAt s a.other job).isNone then push s s.now phEnd job.toNat (.calendarIssue job)
        else
          let s := modArb s a.other job fun b => { note b with next := c.period + 1 }
          push s (s.now + 2 * flight s (svcN p) (svcN a.other)) phLand job.toNat (.calendarIssue job)
/-- Sends a message between the exchange units of two packages, of so many flits (R303). -/
def sendUnit (s : State) (from_ to_ flits : Nat) (ev : Ev) : State :=
  sendMsg s ⟨from_, 2125, 0⟩ (svcN from_) (svcN to_) 9 flits [] none false ev
/-- Sends a calendar to packages, a flit for each phase (log 62). -/
def sendCalendar (s : State) (from_ : Nat) (job : Word) (c : Calendar) (g : List Nat) : State :=
  g.foldl (fun s p => sendUnit s from_ p (max 1 c.phases.length) (.calendarLand p job c.period)) s
/-- CALENDAR_ISSUE: the acting arbiter sends the next calendar to every package of the group (R323). -/
def evCalendarIssue (job : Word) (s : State) : State :=
  match actingOf s job with
  | none => s
  | some p => match arbAt s p job with
    | none => s
    | some a =>
      match a.cals.find? fun c => c.period = a.next with
      | some c => tryDecompose (modArb (sendCalendar s p job c (groupOf s job)) p job fun a => { a with next := a.next + 1 }) p job
      | none => s

/-! ### Demand (R319) -/

/-- A row as it is sent: granules for each package, capped; and the granules above the cap. -/
def closeRow (row : List (Nat × Nat)) : List Nat × Nat :=
  let g := (List.range 64).map fun p => ceilDiv (aget 0 row p) 4096
  (g.map (min 65535), (g.map fun n => n - 65535).sum)
/-- Sends a closed row, 64 entries of 16 bits, to the arbiter and its standby (log 62). -/
def sendRow (s : State) (pkg : Nat) (job : Word) (period : Nat) (row : List Nat) : State :=
  sendUnit s pkg ((actingOf s job).getD pkg) 4 (.demandRowAccept job pkg period row)
/-- Closes the open period of a package for a request that waits for the acknowledgement. -/
def closePeriod (s : State) (pkg : Nat) (q : SvcReq) : State :=
  match exchAt s pkg q.job with
  | none => s
  | some x =>
    let r := closeRow x.row
    let s := modExch (waitOver s q.who) pkg q.job fun x =>
      { x with period := x.period + 1, row := [], ungr := x.ungr + r.2, closed := x.closed ++ [(x.period, r.1, q)] }
    sendRow s pkg q.job x.period r.1
/-- DEMAND_POST_REQUEST: a post is added and acknowledged, or a close is served, once the calendar of the previous period has
landed (R319, R397). -/
def evDemandPostRequest (q : SvcReq) (s : State) : State :=
  let pkg := q.who.slot.pkg
  if waitGone s q then s
  else match q.kind with
  | .demPost dst bytes => svcServe s q 4 16 .demandPostRequest fun s =>
      (modExch s pkg q.job fun x => { x with row := aset x.row dst (min (2 ^ 48 - 1) (aget 0 x.row dst + bytes.toNat)) }, svcVal 0)
  | .demClose => match exchAt s pkg q.job with
    | none => s
    | some x =>
      if x.period ≤ x.have_ ∧ x.waitClose = [] then closePeriod s pkg q
      else modExch s pkg q.job fun x => { x with waitClose := x.waitClose ++ [q] }
  | _ => s
/-- DEM.POST (R319). -/
def execDemPost (h : Hdr) (a b : SIx) : State → Outc :=
  runForm { i := .demPost h a b, h := h, srcs := [.s a, .s b] } fun s r c =>
    let p := (rs c a).toNat
    if !inPhase s r c ∨ !(groupOf s c.d.job).contains p ∨ p = r.pkg ∨ 2 ^ 40 ≤ (rs c b).toNat then .trap fOperand 0 0
    else svcAct s r c (svcN r.pkg) none (.demPost p (rs c b)) 0 .demandPostRequest
/-- DEM.CLOSE (R319). -/
def execDemClose (h : Hdr) (d : SIx) : State → Outc :=
  runForm { i := .demClose h d, h := h, dsts := [.s d] } fun s r c =>
    if !inPhase s r c then .trap fOperand 0 0
    else svcAct s r c (svcN r.pkg) none .demClose 5 .demandPostRequest
/-- Takes a waiting DEM.CLOSE back when its wait limit passes (R222). -/
def dropClose (s : State) (w : Who) : State :=
  { s with pkgs := s.pkgs.map fun (i, k) => (i, { k with exch := k.exch.map fun x =>
      { x with waitClose := x.waitClose.filter fun q => q.who ≠ w } }) }

/-! ### The calendar service (R323) -/

/-- The address of the calendar service of a package. -/
def calService (pkg : Nat) : EpRef := ⟨pkg, 2096, 127⟩
/-- Whether an endpoint is one of the service's own, beyond those that a program can name. -/
def isService (e : EpRef) : Bool := e.tile = 2096 && epLimit ≤ e.ep
/-- Subscriptions a package can hold. -/
def subLimit : Nat := 4096
/-- An open request at the calendar service (R166, R323). The service's side of each subscription is an endpoint of its own. -/
def calOpen (s : State) (q : OpenReq) : State :=
  let n := q.target.node
  let t := tileAt s n
  let k := (List.range subLimit).find? fun k => (t.epAt (epLimit + k)).st = .free
  match k, exchAt s n.pkg q.job with
  | some k, some _ =>
    if q.digest ≠ calImage.digest then
      sendMsg s q.who.slot n q.opener.node 4 1 [] (whoPin s q.who) true (.openReplyLand q (.mismatch calImage.dual))
    else
      let e : EpRef := ⟨n.pkg, n.id, epLimit + k⟩
      let s := modEp s e fun x => { st := .opened, img := 7, peer := q.opener, peerGen := q.gen, gen := (x.gen + 1) % 256, job := q.job }
      let s := modExch s n.pkg q.job fun x => { x with subs := x.subs ++ [epLimit + k] }
      sendMsg s q.who.slot n q.opener.node 4 1 [] (whoPin s q.who) true (.openReplyLand { q with target := e } (.accepted (epAt s e).gen))
  | _, _ => refuseOpen s n q 3
/-- OPEN_REQUEST_LAND (R166, R323). -/
def evOpenRequestLand (q : OpenReq) (s : State) : State :=
  if q.target = calService q.target.pkg then calOpen s q else landOpen s q
/-- The service sends what the window allows: grants, then the label; then its side is closed. -/
def pumpGrants (e : EpRef) : Nat → State → State
  | 0, s => s
  | n + 1, s =>
    let x := epAt s e
    if x.st ≠ .opened ∨ calImage.window ≤ x.unread then s
    else match x.inbox with
      | .data mt b :: l =>
        pumpGrants e n (countSent (modEp (sendSeq s e (.data mt b true)) e fun x => { x with inbox := l }) e)
      | .label k :: _ => freeEp (sendSeq s e (.label k)) e
      | _ => s
/-- A subscription that is over is dropped. -/
def dropSub (s : State) (e : EpRef) : State :=
  modPkg (freeEp (modEp s e fun x => { x with inbox := [] }) e) e.pkg fun k =>
    { k with exch := k.exch.map fun x => { x with subs := x.subs.filter fun i => i ≠ e.ep } }
/-- CREDIT_LAND (R171, R323). -/
def evCreditLand (f : ChFlit) (s : State) : State :=
  let s := landFlit s f
  if isService f.dst then pumpGrants f.dst 130 s else s
/-- CLOSE_NOTICE_LAND (R188, R323). -/
def evCloseNoticeLand (f : ChFlit) (s : State) : State :=
  let s := landFlit s f
  if isService f.dst ∧ (epAt s f.dst).st = .peerClosed then dropSub s f.dst else s
/-- START as a package's own clock counts it (R322). -/
def startOf (s : State) (pkg t : Nat) : Nat := t - (pkgAt s pkg).cycleBase
/-- The grant of a phase for a package (Table 7). -/
def grantBytes (s : State) (pkg : Nat) (c : Calendar) (j : Nat) (p : CalPhase) : List Byte :=
  let snd := p.pairs.find? fun x => x.1 = pkg
  let rcv := p.pairs.find? fun x => x.2 = pkg
  let w1 := c.period % 2 ^ 16 * 2 ^ 48 + j * 2 ^ 40 + c.phases.length * 2 ^ 32 + p.dur * 2 ^ 16 + ((snd.map (·.2)).getD 0) * 2 ^ 8 +
    (if j + 1 = c.phases.length then 2 else 0) + snd.isSome.toNat
  let w2 := ((rcv.map (·.1)).getD 0) * 2 ^ 8 + rcv.isSome.toNat
  bytesOfNat 8 (startOf s pkg p.start) ++ bytesOfNat 8 w1 ++ bytesOfNat 8 w2
/-- The grants of a calendar for a package. -/
def grantsOf (s : State) (pkg : Nat) (c : Calendar) : List (List Byte) :=
  if c.phases = [] then
    [bytesOfNat 8 (startOf s pkg c.start0) ++ bytesOfNat 8 (c.period % 2 ^ 16 * 2 ^ 48 + 2) ++ bytesOfNat 8 0]
  else c.phases.zipIdx.map fun (p, j) => grantBytes s pkg c j p
/-- Gives a calendar to the subscriptions of a package. -/
def giveGrants (s : State) (pkg : Nat) (job : Word) (c : Calendar) : State :=
  let subs := ((exchAt s pkg job).map (·.subs)).getD []
  let s := modExch s pkg job fun x => { x with subs := [] }
  subs.foldl (fun s k =>
    let e : EpRef := ⟨pkg, 2096, k⟩
    pumpGrants e 130 (modEp s e fun x => { x with inbox := (grantsOf s pkg c).map (ChMsg.data 14) ++ [.label 0] })) s

/-! ### Calendars at a package (R323, R326 to R328) -/

/-- The current calendar of a package: the last that has landed there (DEDUCED, log 24). -/
def currentCal (x : Exchange) : Option Calendar := x.cals.getLast?
/-- Number of a phase of a period. -/
def phaseKey (period j : Nat) : Nat := period * 256 + j
/-- Whether a package runs a deterministic launch of a job. -/
def detLaunches (s : State) (pkg : Nat) (job : Word) : List Launch :=
  (pkgAt s pkg).launches.filter fun l => l.job = job && l.d.det && !l.done
/-- The handle of an object of a package. -/
def handleOf (lvl pkg serial : Nat) : Word := BitVec.ofNat 64 (lvl * 2 ^ 62 + pkg * 2 ^ 56 + serial)
/-- A calendar as a package's own clock has it: in free mode the clocks agree within 8 cycles (R322). Free value, log 5. -/
def skewed (c : Calendar) (ctr : Nat) (det : Bool) : Calendar :=
  if det then c
  else
    let k := Config.freePick ctr % 17
    { c with start0 := c.start0 + k - 8, phases := c.phases.map fun p => { p with start := p.start + k - 8 } }
/-- Ends of the phases in which a package sends, to be looked at (R326). -/
def askEnds (s : State) (pkg : Nat) (job : Word) (c : Calendar) : State :=
  c.phases.zipIdx.foldl (fun s (p, j) =>
    if p.pairs.any fun x => x.1 = pkg then push s (max s.now p.fin) phEnd pkg (.exchangePhaseEnd pkg job c.period j) else s) s
/-- CALENDAR_LAND: the package keeps its copy, notes the phases it has missed, counts, and gives grants (R323, R327, R328). -/
def evCalendarLand (pkg : Nat) (job : Word) (period : Nat) (s : State) : State :=
  let made := (allPkgs s).findSome? fun p => (arbAt s p job).bind fun a => a.cals.find? fun c => c.period = period
  match made, exchAt s pkg job with
  | some c, some x =>
    if period < x.have_ then s
    else
      let c := skewed c s.freeCtr ((groupOf s job).any fun p => detLaunches s p job ≠ [])
      let s := stepFree s
      let miss := (c.phases.zipIdx.filter fun (p, _) => p.start ≤ s.now).map (·.2)
      let mine := c.phases.filter fun p => p.pairs.any fun y => y.1 = pkg
      let s := modExch s pkg job fun x =>
        { x with
          cals := (x.cals.filter fun d => s.now ≤ d.fin) ++ [c]
          have_ := period + 1
          missedPh := x.missedPh ++ miss.map (phaseKey period)
          missed := x.missed + miss.length
          granted := x.granted + (mine.map (·.dur)).sum
          ungr := x.ungr + aget 0 c.ungranted pkg }
      let s := if miss = [] then s else (detLaunches s pkg job).foldl (fun s l => setVoid s (handleOf 0 pkg l.serial) 2) s
      let s := giveGrants (askEnds s pkg job c) pkg job c
      match x.waitClose with
      | q :: l => closePeriod (modExch s pkg job fun x => { x with waitClose := l }) pkg q
      | [] => s
  | _, _ => s
/-- EXCHANGE_PHASE_END: granules granted that carried nothing are counted as idle (R326). -/
def evExchangePhaseEnd (pkg : Nat) (job : Word) (period phase : Nat) (s : State) : State :=
  modExch s pkg job fun x =>
    match (x.cals.find? fun c => c.period = period).bind fun c => c.phases[phase]? with
    | some p => { x with idle := x.idle + (p.dur - ceilDiv (aget 0 x.resv (phaseKey period phase)) 4096) }
    | none => x

/-! ### Failover (R327) -/

/-- A standby takes over: rows not acknowledged come again, calendars it acknowledged go to the packages that lack them, and
the next package becomes the standby. -/
def takeOver (s : State) (pkg : Nat) (job : Word) : State :=
  let g := groupOf s job
  let nb := nextOf g pkg
  let s := (allPkgs s).foldl (fun s p => if p = pkg then s else modPkg s p fun k => { k with arbs := k.arbs.filter fun a => a.job ≠ job }) s
  let s := modArb s pkg job fun a => { a with acting := true, other := nb }
  let s := match arbAt s pkg job with
    | some a => if nb = pkg then s else putArb s nb { a with acting := false, other := pkg, beatAt := s.now }
    | none => s
  let s := g.foldl (fun s p => modExch s p job fun x => { x with tko := true }) s
  let cals := ((arbAt s pkg job).map (·.cals)).getD []
  let s := cals.foldl (fun s c => sendCalendar s pkg job c (g.filter fun p =>
    ((exchAt s p job).map fun x => decide (x.have_ ≤ c.period)).getD false)) s
  let s := g.foldl (fun s p => (((exchAt s p job).map (·.closed)).getD []).foldl (fun s x => sendRow s p job x.1 x.2.1) s) s
  startBeats (tryDecompose s pkg job) job
/-- HEARTBEAT_SEND: the arbiter tells its standby every 1024 cycles. -/
def evHeartbeatSend (job : Word) (s : State) : State :=
  match actingOf s job with
  | none => s
  | some p => match arbAt s p job with
    | none => s
    | some a =>
      push (sendUnit s p a.other 1 (.heartbeatTimeout job)) (s.now + 1024) phLand job.toNat (.heartbeatSend job)
/-- HEARTBEAT_TIMEOUT: a standby that has heard nothing for 4096 cycles takes over; a heartbeat that lands has the time counted anew. -/
def evHeartbeatTimeout (job : Word) (s : State) : State :=
  match (allPkgs s).find? fun p => ((arbAt s p job).map fun a => !a.acting).getD false with
  | none => s
  | some p =>
    if ((arbAt s p job).map fun a => decide (a.beatAt + 4096 ≤ s.now)).getD false then takeOver s p job
    else armTimeout (modArb s p job fun a => { a with beatAt := s.now }) job

/-! ### CAL.WAIT (R324) -/

/-- The words of a grant. -/
def grantWords (b : List Byte) : List Nat := (List.range 3).map fun k => natOfBytes ((b.drop (8 * k)).take 8)
/-- Results of a CAL.WAIT. -/
def calOut (d : SIx) (p : BitVec 3) (ws : List Nat) (ok : Bool) : List (Reg × VVal) :=
  (List.range 3).map (fun k => (Reg.s (sNext d k), BitVec.ofNat 2048 (ws.getD k 0))) ++ pRes p ok
/-- CAL.WAIT (R324). -/
def execCalWait (h : Hdr) (ep : EIx) (p : BitVec 3) (atStart : Bool) (d : SIx) : State → Outc :=
  let i := Instr.calWait h ep p atStart d
  runForm { i := i, h := h, dsts := sRun d (min 3 (64 - d.toNat)) ++ pDst p } fun s r c =>
    let e := ownEp r ep
    let out (s : State) (ws : List Nat) (ok : Bool) : Act := results s r c [] 3 (calOut d p ws ok)
    if !inPhase s r c then .trap fOperand 0 0
    else match strain s r c ep false
        (fun x => if d.toNat ≤ 61 && x.img = 7 && x.reg.isNone then none else some (strainAux ep.toNat x.q 4))
        (fun m q => m.edge q .recv 14) with
    | .no a => a
    | .closed x => out s [0, (closedWord x).toNat, 0] false
    | .edge s x t => match x.inbox with
      | [] => chPark
      | m :: _ => match m with
        | .data _ b =>
          let ws := grantWords b
          let start := (pkgAt s r.pkg).cycleBase + ws.getD 0 0
          if atStart && s.now < start then
            let w := newWait s r c
            let gs := (calOut d p ws true).map (·.1)
            let s := gs.foldl (fun s g => if realReg g then modCtx s r fun c => setPres c g .pending else s) w.2
            .wait (push s start phStart (slotKey r) (.calWaitAtWake w.1)) w.1.id (.calAt start) 0 0 0
              (ws.map (BitVec.ofNat 64) ++ gs.map fun g => if presOf c g = .full then 1 else 0)
          else out (finishHead s e t.next) ws true
        | _ => out s [0, (declinedWord m).toNat, 0] false
/-- A parked CAL.WAIT is abandoned: its destinations are as they were (R92). -/
def dropCalWait (s : State) (r : SlotRef) (uid : Nat) (p : Park) : State :=
  match p.form with
  | .calWait _ _ pr _ d =>
    modUnit s r uid fun c => (((calOut d pr [] true).map (·.1)).zip (p.aux.drop 3)).foldl (fun c (g, x) =>
      if realReg g then setPres c g (if x = 1 then .full else .empty) else c) c
  | _ => s
/-- CAL_WAIT_AT_WAKE: the start has come; the grant leaves the buffer, if its channel has not been closed meanwhile (log 46), and the
results land 3 cycles on (R324). -/
def evCalWaitAtWake (w : Who) (s : State) : State :=
  match waitOf s w with
  | none => s
  | some (_, p) => match p.form with
    | .calWait _ ep pr _ d =>
      let e := ownEp w.slot ep
      let s := match (epAt s e).inbox with
        | .data _ _ :: _ => finishHead s e ((((imageOf s e.node (epAt s e).img).edge (epAt s e).q .recv 14).map (·.next)).getD (epAt s e).q)
        | _ => s
      let s := (calOut d pr ((p.aux.take 3).map (·.toNat)) true).foldl (fun s (g, x) => land s w.slot w.uid g x 3) s
      modUnit (finish s w id) w.slot w.uid fun c => { c with readyFrom := min c.readyFrom s.now }
    | _ => s

/-! ### XCH.SEND (R325) -/

/-- Why the exchange unit of a package refuses a reservation; or the phase it grants, with its period. -/
def reserve (s : State) (x : Exchange) (pkg phase dst bytes : Nat) : Except Nat (Nat × CalPhase) :=
  match (currentCal x).bind fun c => c.phases[phase]?.map fun p => (c.period, p) with
  | none => .error 3
  | some (per, p) =>
    if p.fin ≤ s.now ∨ x.missedPh.contains (phaseKey per phase) then .error 3
    else if !p.pairs.contains (pkg, dst) then .error 2
    else if p.dur * 4096 < aget 0 x.resv (phaseKey per phase) + bytes then .error 1
    else .ok (per, p)
/-- EXCHANGE_RESERVATION. The reply names the start and the end of the phase by the package's clock, and the period. -/
def evExchangeReservation (q : SvcReq) (s : State) : State :=
  let pkg := q.who.slot.pkg
  match q.kind, exchAt s pkg q.job with
  | .xchReserve phase dst bytes, some x => svcServe s q 7 16 .exchangeReservation fun s =>
      match reserve s x pkg phase dst bytes with
      | .error k => (s, svcFault fCalendar 0 (BitVec.ofNat 64 k))
      | .ok (per, p) =>
        let k := phaseKey per phase
        (modExch s pkg q.job fun x => { x with resv := aset x.resv k (aget 0 x.resv k + bytes) },
          ⟨BitVec.ofNat 64 (startOf s pkg p.start), true, 0, BitVec.ofNat 64 (startOf s pkg p.fin), BitVec.ofNat 64 per⟩)
  | _, _ => s
/-- PHASE of a target word. -/
def targetPhase (x : Word) : Nat := x.toNat / 2 ^ 32 % 128
/-- A target word without its PHASE. -/
def targetBase (x : Word) : Word := x &&& ~~~(BitVec.ofNat 64 (127 * 2 ^ 32))
/-- The reservation of an XCH.SEND: the slot parks with the captured descriptors. -/
def askPhase (s : State) (r : SlotRef) (c : Ctx) (x : Word) (bytes : Nat) (words : List Word) : Act :=
  match svcAct s r c (svcN r.pkg) none (.xchReserve (targetPhase x) (remoteHome x).pkg bytes) 0 .exchangeReservation with
  | .wait s id k lk lx va _ => .wait s id k lk lx va words
  | a => a
/-- XCH.SEND (R325): the form is run once more when the reservation has been answered. -/
def execXchSend (h : Hdr) (sync : ESync) (rsem : BitVec 8) (rsv : Bool) (d a : DIx) (b : SIx) : State → Outc :=
  let i := Instr.xchSend h sync rsem rsv d a b
  runForm { i := i, h := h, srcs := [.s b] } fun s r c =>
    let x := rs c b
    let got := (c.park.map (·.aux)).getD []
    let td (k : Nat) : TDesc := tdOf (((got.drop (8 * k)).take 8).map (·.toNat))
    if got.length = 19 then
      let w (k : Nat) : Nat := (got.getD (16 + k) 0).toNat
      enqueue s r c false sync 3 (.xch (td 0) (td 1) (remoteHome x) (targetPhase x) (w 2) (w 0) (w 1) (rsemOf rsem rsv)) fun _ => id
    else if !inPhase s r c ∨ !mayCopy s r c then .trap fOperand 0 0
    else capture s r c d fun s dd => capture s r c a fun s da =>
      match firstBad [(da.loc ≠ 0, 17, a.toNat), (dd.loc ≠ 0, 17, d.toNat), (!sameShape dd da, 20, d.toNat)] with
      | some k => badAct k
      | none =>
        if !isRemote x ∨ (targetBase x).toNat % 2 ^ 44 ≠ 0 then .trap fOperand 0 0
        else match remoteFault s (targetBase x) true with
          | some (f, _) => .trap f (if f = fAccess then x else 0) 0
          | none =>
            if engEntries ≤ (tileAt s r.node).copy.length then .retry .cond 0 0 0
            else askPhase s r c x da.bytes (tdAt (tileAt s r.node) d.toNat ++ tdAt (tileAt s r.node) a.toNat)
/-- The reply to a reservation: the form goes on with the phase's start, end and period. -/
def phaseReply (s : State) (w : Who) (a : SvcReply) : State :=
  modUnit s w.slot w.uid fun c => { c with park := c.park.map fun p => { p with kind := .cond, aux := p.aux.take 16 ++ [a.val, a.va, a.aux] } }

/-! ### XCH.STAT (R328) -/

/-- The exchange status word (Table 8). -/
def statWord (s : State) (pkg : Nat) (x : Exchange) : Nat :=
  let c := currentCal x
  let ph := (c.map (·.phases)).getD []
  let multi := 1 < (groupOf s x.job).length
  let arb := arbAt s pkg x.job
  x.period % 2 ^ 16 * 2 ^ 48 + ((c.map (·.period)).getD 0) % 2 ^ 16 * 2 ^ 32 + ph.length * 2 ^ 24 +
    (ph.filter fun p => p.fin ≤ s.now).length * 2 ^ 16 +
    (if multi && (arb.map (·.acting)).getD false then 2 ^ 7 else 0) +
    (if multi && (arb.map fun a => !a.acting).getD false then 2 ^ 6 else 0) + (if x.tko then 2 ^ 5 else 0)
/-- The value that XCH.STAT reads. -/
def statValue (s : State) (r : SlotRef) (x : Exchange) : XchW → Nat
  | .stale => (tileAt s r.node).stale - (aget (0, 0) x.base r.tile).1
  | .deflections => (tileAt s r.node).defl - (aget (0, 0) x.base r.tile).2
  | .word => statWord s r.pkg x
  | .granted => x.granted
  | .idle => x.idle
  | .late => x.late
  | .ungranted => x.ungr
/-- XCH.STAT (R328). -/
def execXchStat (h : Hdr) (w : XchW) (d : SIx) : State → Outc :=
  runForm { i := .xchStat h w d, h := h, dsts := [.s d] } fun s r c =>
    if !inPhase s r c then .trap fOperand 0 0
    else results s r c [] 3 [(.s d, BitVec.ofNat 2048 (((exchAt s r.pkg c.d.job).map fun x => statValue s r x w).getD 0 % 2 ^ 64))]

/-! ### The block queue (R329) -/

/-- Spout index of a tile within a launch. -/
def spoutIx (s : State) (launch : Word) (tile : Nat) : Nat := tile - 2048 - ((launchAt s launch).map (·.d.x0)).getD 0
/-- Number of spouts of a launch. -/
def spoutCount (s : State) (launch : Word) : Nat := ((launchAt s launch).map (·.tiles.length)).getD 1
/-- Takes the lowest block of a spout that is returned or not yet given. -/
def takeBlock (q : BlockQ) (j g : Nat) : Option (Nat × BlockQ) :=
  match leastOf ((q.back.filter fun x => x.1 = j).map (·.2)) with
  | some b => some (b, { q with back := q.back.erase (j, b) })
  | none =>
    let n := aget 0 q.next j
    if j + n * g < q.nb then some (j + n * g, { q with next := aset q.next j (n + 1) }) else none
/-- Serves a GW.TAKE. -/
def serveTake (s : State) (q : SvcReq) (nb : Word) : State × SvcReply :=
  let pkg := q.peer.pkg
  let bq := (pkgAt s pkg).bq.getD ⟨q.launch, nb.toNat, [], []⟩
  if bq.launch ≠ q.launch then (s, ⟨BitVec.ofNat 64 (2 ^ 64 - 2), true, 0, 0, 0⟩)
  else if nb = 0 ∨ 2 ^ 24 < nb.toNat ∨ bq.nb ≠ nb.toNat then (s, svcFault fOperand 0 0)
  else match takeBlock bq (spoutIx s q.launch q.who.slot.tile) (max 1 (spoutCount s q.launch)) with
    | none => (modPkg s pkg fun p => { p with bq := some bq }, ⟨BitVec.allOnes 64, true, 0, 0, 0⟩)
    | some (b, bq) =>
      (modUnit (modPkg s pkg fun p => { p with bq := some bq }) q.who.slot q.who.uid fun c => { c with blk := some b }, svcVal b)
/-- BLOCK_QUEUE_REQUEST (R329, R397). -/
def evBlockQueueRequest (q : SvcReq) (s : State) : State :=
  match q.kind with
  | .gwTake nb => svcServe s q 6 16 .blockQueueRequest fun s => if (svcCtx s q).isNone then (s, svcVal 0) else serveTake s q nb
  | .gwDone _ => svcServe s q 6 16 .blockQueueRequest fun s => (modUnit s q.who.slot q.who.uid fun c => { c with blk := none }, svcVal 0)
  | _ => s
/-- Where GW forms may run: a unit of a launch, on a spout. -/
def mayTake (r : SlotRef) (c : Ctx) : Bool := !isCompute r.tile && !c.d.root
/-- GW.TAKE (R329). -/
def execGwTake (h : Hdr) (d a : SIx) : State → Outc :=
  runForm { i := .gwTake h d a, h := h, srcs := [.s a], dsts := [.s d] } fun s r c =>
    if !mayTake r c ∨ c.blk.isSome then .trap fOperand 0 0
    else svcAct s r c (svcN r.pkg) none (.gwTake (rs c a)) 0 .blockQueueRequest
/-- GW.DONE (R329). -/
def execGwDone (h : Hdr) (a : SIx) : State → Outc :=
  runForm { i := .gwDone h a, h := h, srcs := [.s a] } fun s r c =>
    if !mayTake r c ∨ c.blk.map (BitVec.ofNat 64) ≠ some (rs c a) then .trap fOperand 0 0
    else release s r c .pkg r.node (svcAct s r c (svcN r.pkg) none (.gwDone (rs c a)) 0 .blockQueueRequest)

end Sys2Proof.Machine
end

