-- ==== Sys2Proof/Machine/Placing.lean ====
section
/-! DEFINITION. Placement, binding, spawn queues, pinned routes, pre-emption and resumption (R72 to R74, R84 to R91, R118,
R212, R213, R308, R309, R331). -/

namespace Sys2Proof.Machine

/-! ### Tiles of a launch (R72 to R74, R79, R85) -/

/-- The compute rectangle of a descriptor, row by row. -/
def rectTiles (d : LaunchDesc) : List Nat :=
  (List.range d.h).flatMap fun y => (List.range d.w).map fun x => (d.y0 + y) * 64 + d.x0 + x
/-- The spouts of a descriptor: W for a gateway launch, W x H for one that may take either. -/
def spoutTiles (d : LaunchDesc) : List Nat := (List.range (if d.cls = 2 then d.w * d.h else d.w)).map fun i => 2048 + d.x0 + i
/-- The placements that a descriptor allows, in order of preference. -/
def placements (d : LaunchDesc) : List (List Nat) :=
  match d.cls with
  | 0 => [rectTiles d]
  | 1 => [spoutTiles d]
  | _ => [rectTiles d, spoutTiles d]
/-- Whether a tile may take units of a job: it is there, not retiring, and no other job's (R212). -/
def tileTakes (t : Tile) (job : Word) : Bool :=
  t.present && !t.retiring && (match t.tenant with
    | none => true
    | some j => j = job)
/-- Whether a slot may take a unit of a launch: it is free (R72), or its unit was pre-empted for that very launch and only waits to
resume on it (R87; DEDUCED, log 26). -/
def slotTakes (serial : Nat) (l : Slot) : Bool :=
  l.ph = .free && l.heldBy.isNone && l.owned ≠ 0 && (l.saved = [] || l.freedFor = some serial)
/-- The slots of a tile that may take a node's units. -/
def slotsFor (t : Tile) (serial : Nat) : List Nat := (List.range 16).filter fun i => slotTakes serial (t.slots.toList.getD i (Slot.reset i))
/-- The physical slots a node takes on a tile, if they are to be had (R73). -/
def chooseSlots (t : Tile) (l : Launch) : Option (List Nat) :=
  let is := slotsFor t l.serial
  if l.d.det then (if (List.range l.d.slots).all is.contains then some (List.range l.d.slots) else none)
  else if l.d.slots ≤ is.length then some (is.take l.d.slots) else none
/-- Whether a role can be had for a launch: nobody holds it, or its holder, which keeps it while away, was pre-empted for that
launch (R74, R87; DEDUCED, log 26). -/
def roleFree (t : Tile) (serial : Nat) (role : Option (Nat × Nat)) : Bool :=
  role.all fun (i, uid) =>
    let l := t.slots.toList.getD i (Slot.reset i)
    l.freedFor = some serial && l.saved.any fun c => c.uid = uid
/-- Whether no unit that is away, or is being restored, has to be back before a node of this priority is placed on the tile (R87). -/
def noneWait (t : Tile) (prio : Nat) : Bool := t.slots.toList.all fun l =>
  (l.saved.all fun c => c.d.prio < prio) && (l.ph ≠ .saving || l.ctx.preempting || decide (l.ctx.d.prio < prio))
/-- Whether a tile can take a node now. -/
def tileReady (s : State) (l : Launch) (n : Node) : Bool :=
  let t := tileAt s n
  tileTakes t l.job && noneWait t l.d.prio && (chooseSlots t l).isSome &&
  (l.d.matS.isNone || roleFree t l.serial t.matRole) && (l.d.copyS.isNone || roleFree t l.serial t.copyRole)

/-! ### Pinned routes (R308, R309) -/

/-- The directed links of the pinned route of a flit: at a tile of the torus, or within an I/O die, as so many hops are left; col is the
column by which it crosses from one I/O die to the other (R14). -/
def pinPath (s : State) (dst : Node) : Nat → Nat → Node → Bool → List Nat
  | 0, _, _, _ => []
  | fuel + 1, col, n, inDie =>
    let key (o : Nat) : Nat := nodeKey n * 16 + o
    if inDie then
      let die := n.id
      let enter (x : Nat) : List Nat :=
        let m : Node := ⟨n.pkg, bridgeRow die * 64 + x⟩
        (nodeKey m * 16 + 6) :: pinPath s dst fuel col m false
      if dst.pkg = n.pkg then
        if isCompute dst.id then enter (tileX dst.id)
        else if dieOf dst.id = die then []
        else enter col
      else
        let port := (egressPort s n.pkg dst.pkg).getD 0
        if portDie port = die then
          key (8 + port) :: pinPath s dst fuel (32 + otherPort port) ⟨portPeer s n.pkg port, portDie (otherPort port)⟩ true
        else enter col
    else match (productive s n dst).head? with
      | none => []
      | some 4 => []
      | some 5 => key 5 :: pinPath s dst fuel col ⟨n.pkg, if tileY n.id = 0 then 8 else 9⟩ true
      | some o => key o :: pinPath s dst fuel col ⟨n.pkg, neighbour n.id o⟩ false
/-- The links of a pinned route from a place to a place. -/
def pinLinks (s : State) (a b : Node) : List Nat :=
  if isCompute a.id then pinPath s b 400 (crossColumn a) a false else pinPath s b 400 (crossColumn a) ⟨a.pkg, dieOf a.id⟩ true
/-- The entries of a table that are not 0: index and word. -/
def tableWords (s : State) (tbl bytes : Nat) : List Nat :=
  (((s.mem.filter fun c => tbl ≤ c.1 ∧ c.1 < tbl + bytes).map fun c => (c.1 - tbl) / 8).eraseDups).map fun i => physWord s (tbl + 8 * i)
/-- The frames that a job's tables map, and those of the tables, as first and last addresses (R309). -/
def tableFrames (s : State) : Nat → Nat → List (Nat × Nat)
  | lvl, tbl =>
    let leafs (l : List Nat) (bits : Nat) : List (Nat × Nat) :=
      (l.filter fun w => pteKind w = 4).map fun w => (pteAddr w, pteAddr w + 2 ^ bits - 1)
    let sub (w n bits : Nat) : List (Nat × Nat) := (pteAddr w, pteAddr w) :: leafs (tableWords s (pteAddr w) n) bits
    let ws := tableWords s tbl 8192
    (tbl, tbl) :: match lvl with
      | 0 => leafs ws 16
      | l + 1 =>
        ((ws.filter fun w => pteKind w = 1).flatMap fun w => tableFrames s l (pteAddr w)) ++
        ((ws.filter fun w => pteKind w = 3 && l = 1).flatMap fun w => sub w 512 30) ++
        ((ws.filter fun w => pteKind w = 2 && l = 0).flatMap fun w => sub w 256 21)
/-- The places that a deterministic launch's routes reach (R309). -/
def routePlaces (s : State) (pkg : Nat) (job : Word) (tiles : List Nat) (sup : Nat) : List Nat :=
  let root := ((jobAt s job).map fun j => j.rootTables.getD pkg 0).getD 0
  let frames := tableFrames s 3 root
  let homes := frames.flatMap fun (a, b) =>
    (List.range ((b - a) / 2 ^ 26 + 1)).filterMap fun k => match memHome s (a + k * 2 ^ 26) with
      | some (n, .vault) => some (nodeKey n)
      | _ => none
  (tiles.map fun t => nodeKey ⟨pkg, t⟩) ++ homes ++ ((List.range 24).map fun j => nodeKey (farNode pkg j)) ++
    [nodeKey (cxlNode pkg), nodeKey (svcN pkg), nodeKey ⟨pkg, sup⟩]
/-- The links that a launch's routes and their returns cross. -/
def routeLinks (s : State) (pkg : Nat) (tiles places : List Nat) : List Nat :=
  (tiles.flatMap fun t => places.flatMap fun k => pinLinks s ⟨pkg, t⟩ (nodeOfKey k) ++ pinLinks s (nodeOfKey k) ⟨pkg, t⟩).eraseDups
/-- The links that deterministic launches hold in a parity. -/
def heldLinks (s : State) (half : Bool) : List Nat :=
  s.pkgs.flatMap fun (p, k) => (k.launches.filter fun l => l.parity = some half && !l.done).flatMap fun l => routeLinks s p l.tiles l.routes
/-- The parity a launch can have, with the places it reaches; even first (R309). -/
def chooseParity (s : State) (pkg : Nat) (job : Word) (tiles : List Nat) (sup : Nat) : Option (Bool × List Nat) :=
  let places := (routePlaces s pkg job tiles sup).eraseDups
  let links := routeLinks s pkg tiles places
  let free (half : Bool) : Bool := (heldLinks s half).all fun l => !links.contains l
  if free false then some (false, places) else if free true then some (true, places) else none

/-! ### Binding (R118, R212, R213, R331) -/

/-- What binding loads into an s register (R118). -/
def bindArg (d : UnitDesc) (i : Nat) : Word :=
  if i = 0 ∨ 5 < i then 0 else if i = 5 then d.unitix else d.args.getD (i - 1) 0
/-- The context that binding gives a unit (R118). -/
def boundCtx (uid : Nat) (d : UnitDesc) : Ctx :=
  { Ctx.reset with
    uid := uid, d := d, s := Vector.ofFn fun i => bindArg d i.val, pc := d.entry, waitlim := d.waitlim, handler := d.handler
    seed := seedAtBind d.seedL d.unitix }
/-- Tenancy begins where a tile has no tenant: presence bits full, semaphores 0, barriers disarmed (R212, R213). Descriptors
are cleared (R259). The scratchpad's contents are unspecified: free values, log 5. -/
def beginTenancy (ctr : Nat) (job : Word) (t : Tile) : Tile :=
  match t.tenant with
  | some _ => t
  | none => { t with tenant := some job, sp := freeCells ctr (2 ^ 20) [], spEmpty := [], sems := [], semAdds := [], bars := [], tds := [] }
/-- A unit begins to bind to a slot, so many cycles from now; it may not issue before the cycle given. -/
def bindUnit (s : State) (r : SlotRef) (d : UnitDesc) (delay : Nat) : State :=
  let uid := s.no
  let s := modTile { s with no := s.no + 1, freeCtr := s.freeCtr + 2 ^ 20 } r.node (beginTenancy s.freeCtr d.job)
  let s := modSlot s r fun l => { l with ph := .binding, ctx := boundCtx uid d }
  push s (dueFrom s r.node (s.now + delay) Config.bindCycles) phStart (slotKey r) (.bindComplete r uid)
/-- BIND_COMPLETE: the unit may issue at its first own turn after this; one of a deterministic launch from S0 on (R118,
R331). -/
def evBindComplete (r : SlotRef) (uid : Nat) (s : State) : State :=
  modTile (modSlot s r fun l =>
    if l.ph = .binding ∧ l.ctx.uid = uid then
      { l with ph := .bound
               ctx := { l.ctx with readyFrom := if l.ctx.d.det ∧ !l.ctx.d.origin.isSome then
                 (pkgAt s r.pkg).cycleBase + l.ctx.d.s0 else s.now + 1 } }
    else l) r.node fun t => { t with tlb := fitTlb (hasDet t) t.tlb }
/-- A slot bound to a unit of a launch issues from a cycle on. -/
def startAt (h : Word) (now : Nat) (x : Slot) : Slot :=
  if x.ph = .bound ∧ x.ctx.d.launch = h then { x with ctx := { x.ctx with readyFrom := min x.ctx.readyFrom now } } else x
/-- DETERMINISTIC_START: the first cycle of the launch has come; its units issue from now on (R331). -/
def evDeterministicStart (pkg serial : Nat) (s : State) : State :=
  match (pkgAt s pkg).launches.find? fun l => l.serial = serial with
  | none => s
  | some l => l.tiles.foldl (fun s t => modTile s ⟨pkg, t⟩ fun t =>
      { t with slots := t.slots.map (startAt (handleOf 0 pkg serial) s.now) }) s
/-- S0 of a deterministic launch: the first multiple of 4096 at least 32 cycles after placement (R331). -/
def firstCycle (s : State) (pkg : Nat) : Nat := (cycleOf s pkg + 32 + 4095) / 4096 * 4096
/-- The unit of local slot k on tile i of a placement (R73, R118). -/
def unitOf (pkg : Nat) (l : Launch) (s0 i k : Nat) : UnitDesc where
  entry := l.d.entry
  handler := l.d.handler
  args := l.d.args
  unitix := BitVec.ofNat 64 (i * l.d.slots + k)
  launch := handleOf 0 pkg l.serial
  job := l.job
  waitlim := l.d.waitlim
  seedL := l.d.seed
  prio := l.d.prio
  pre := l.d.pre
  det := l.d.det
  s0 := s0
  supTile := l.d.supT
  supSlot := l.d.supS
  root := false
  origin := none
/-- The holder of a role that goes to the launch for which it was pre-empted has it again later (R74). -/
def lendRole (t : Tile) (mx : Bool) : Tile :=
  match if mx then t.matRole else t.copyRole with
  | none => t
  | some (i, uid) => t.modSlot i fun l => { l with saved := l.saved.map fun c =>
      if c.uid = uid then (if mx then { c with keepsMat := true } else { c with keepsCopy := true }) else c }
/-- The slots that were freed for a launch are so no longer. -/
def dropFreed (t : Tile) (serial : Nat) : Tile :=
  { t with slots := t.slots.map fun l => if l.freedFor = some serial then { l with freedFor := none } else l }
/-- Binds a node's units on one tile, and gives its slots the roles (R73, R74). -/
def bindTile (s : State) (pkg : Nat) (l : Launch) (s0 i tile delay : Nat) : State :=
  let n : Node := ⟨pkg, tile⟩
  let ks := (chooseSlots (tileAt s n) l).getD []
  let s := if l.d.det then modTile s n fun t => { t with tlb := t.tlb.filter fun e => !e.det } else s
  let s := modTile s n fun t =>
    let t := if l.d.matS.isSome then lendRole t true else t
    dropFreed (if l.d.copyS.isSome then lendRole t false else t) l.serial
  ks.zipIdx.foldl (fun s (p, k) =>
    let uid := s.no
    let s := bindUnit s ⟨pkg, tile, p⟩ (unitOf pkg l s0 i k) delay
    modTile s n fun t =>
      { t with matRole := if l.d.matS = some k then some (p, uid) else t.matRole
               copyRole := if l.d.copyS = some k then some (p, uid) else t.copyRole }) s
/-- The tiles that a waiting node claims and pre-empts for: those of its placement. A CLASS 2 node's, while it waits, is taken to be
its compute rectangle, the one it prefers. DESIGN CHOICE, log 47. -/
def claimTiles (l : Launch) : List Nat := (placements l.d).headD []
/-- Asks the spawn queues of the tiles that a node claimed, which it no longer does (R90). -/
def askSpawns (s : State) (pkg : Nat) (l : Launch) : State :=
  (claimTiles l).foldl (fun s t =>
    let n : Node := ⟨pkg, t⟩
    if (tileAt s n).spawnQ = [] then s else pushOnce s s.now phEnd (nodeKey n) (.spawnEntryServe n)) s
/-- Places a node on tiles (R85). In free mode the skew between its tiles is unspecified. Free value, log 5. -/
def placeNode (s : State) (pkg : Nat) (l : Launch) (tiles : List Nat) (par : Option (Bool × List Nat)) : State :=
  let s0 := if l.d.det then firstCycle s pkg else 0
  let s := modPkg s pkg fun p =>
    { p with
      placeNo := p.placeNo + 1
      pool := p.pool.filter fun x => x.2.2.2 ≠ l.serial
      launches := p.launches.map fun x => if x.serial = l.serial then
        { x with placed := true, tiles := tiles, order := p.placeNo, live := tiles.length * l.d.slots, s0 := s0
                 parity := par.map (·.1), routes := (par.map (·.2)).getD [] } else x }
  let s := tiles.zipIdx.foldl (fun s (t, i) =>
    let skew := if l.d.det then 0 else Config.freeLatency s.freeCtr
    bindTile (if l.d.det then s else stepFree s) pkg l s0 i t skew) s
  let s := askSpawns s pkg l
  if l.d.det then push s ((pkgAt s pkg).cycleBase + s0) phStart pkg (.deterministicStart pkg l.serial) else s

/-! ### The pool (R84, R85, R87) -/

/-- A launch of a package. -/
def launchOf (s : State) (pkg serial : Nat) : Option Launch := (pkgAt s pkg).launches.find? fun l => l.serial = serial
/-- The pool in its order, with the launches. -/
def poolOrder (s : State) (pkg : Nat) : List Launch :=
  (sortBy (fun a b => decide (a.1 < b.1) || (a.1 = b.1 && (decide (a.2.1 < b.2.1) || (a.2.1 = b.2.1 && decide (a.2.2.1 ≤ b.2.2.1)))))
    (pkgAt s pkg).pool).filterMap fun x => launchOf s pkg x.2.2.2
/-- The nodes as they are considered: by descending priority, within one in pool order. -/
def considered (s : State) (pkg : Nat) : List Launch :=
  [3, 2, 1, 0].flatMap fun p => (poolOrder s pkg).filter fun l => l.d.prio = p
/-- The nodes that wait at the head of their priority. -/
def waitingHeads (s : State) (pkg : Nat) : List Launch := [3, 2, 1, 0].filterMap fun p => ((poolOrder s pkg).filter fun l => l.d.prio = p).head?
/-- Tries to place a node: the placement, and for a deterministic launch its parity. -/
def tryPlace (s : State) (pkg : Nat) (l : Launch) : Option (List Nat × Option (Bool × List Nat)) :=
  (placements l.d).findSome? fun ts =>
    if ts.all fun t => tileReady s l ⟨pkg, t⟩ then
      (if l.d.det then (chooseParity s pkg l.job ts l.d.supT).map fun p => (ts, some p) else some (ts, none))
    else none
/-- Considers nodes in order; prios are the priorities whose head waits, tiles those that waiting nodes claim (R85). -/
def placeAll (pkg : Nat) : List Launch → List Nat → List Nat → State → State
  | [], _, _, s => s
  | l :: ls, prios, tiles, s =>
    if prios.contains l.d.prio then placeAll pkg ls prios tiles s
    else if (claimTiles l).any tiles.contains then placeAll pkg ls (l.d.prio :: prios) (claimTiles l ++ tiles) s
    else match tryPlace s pkg l with
      | some (ts, par) => placeAll pkg ls prios tiles (placeNode s pkg l ts par)
      | none => placeAll pkg ls (l.d.prio :: prios) (claimTiles l ++ tiles) s

/-- Whether a bound unit may be pre-empted for a node of a job and priority (R87, R212). -/
def mayPreempt (job : Word) (prio : Nat) (l : Slot) : Bool :=
  l.ph = .bound && l.ctx.d.pre && !l.ctx.d.root && l.ctx.d.prio < prio && l.ctx.d.job = job
/-- Context records of a tile in use (R91). -/
def ctxRecords (t : Tile) : Nat := (t.slots.toList.map fun l => l.saved.length + (if l.ph = .saving then 1 else 0)).sum
/-- Order in which units are taken: lowest priority, then the launch placed last, then the highest slot. -/
def takeBefore (s : State) (pkg : Nat) (a b : Nat × Slot) : Bool :=
  let order (l : Slot) : Nat := ((launchOf s pkg (l.ctx.d.launch.toNat % 2 ^ 32)).map (·.order)).getD 0
  a.2.ctx.d.prio < b.2.ctx.d.prio || (a.2.ctx.d.prio = b.2.ctx.d.prio &&
    (order b.2 < order a.2 || (order a.2 = order b.2 && b.1 ≤ a.1)))
/-- Slots of a tile whose bound units are selected for pre-emption. -/
def leaving (t : Tile) : List (Nat × Slot) :=
  (t.slots.toList.zipIdx.map fun (x, i) => (i, x)).filter fun x => x.2.ctx.preempting && (x.2.ph = .bound || x.2.ph = .saving)
/-- The slot whose unit must be taken for a role that a launch needs, if any; 16, which is no slot, where the holder is not on its
slot (R87). -/
def roleSlot (t : Tile) (serial : Nat) (needed : Bool) (role : Option (Nat × Nat)) : List Nat :=
  match role with
  | some (i, uid) =>
    let l := t.slots.toList.getD i (Slot.reset i)
    if !needed ∨ roleFree t serial role ∨ (l.ctx.uid = uid ∧ l.ctx.preempting ∧ l.freedFor = some serial) then []
    else if l.ph = .bound ∧ l.ctx.uid = uid then [i] else [16]
  | none => []
/-- The slots whose units a tile takes for a waiting node, beside those it takes already, and slots that it freed for nodes of lower
priority, which have not had them: none where they would not free what the node needs, or no context record is left (R87,
Table 6). -/
def slotsToFree (s : State) (pkg : Nat) (l : Launch) (n : Node) : List Nat :=
  let t := tileAt s n
  let all := t.slots.toList.zipIdx.map fun (x, i) => (i, x)
  let lower (k : Nat) : Bool := (launchOf s pkg k).any fun x => x.d.prio < l.d.prio
  let freed := (all.filter fun x => x.2.ph = .free && x.2.saved ≠ [] && x.2.freedFor.any fun k => lower k).map (·.1)
  let cands := freed ++ (sortBy (takeBefore s pkg) (all.filter fun x => mayPreempt l.job l.d.prio x.2 && !x.2.ctx.preempting)).map (·.1)
  let have_ := slotsFor t l.serial ++ ((leaving t).filter fun x => x.2.freedFor = some l.serial).map (·.1)
  let roles := (roleSlot t l.serial l.d.matS.isSome t.matRole ++ roleSlot t l.serial l.d.copyS.isSome t.copyRole).eraseDups
  let more := if l.d.det then (List.range l.d.slots).filter fun i => !have_.contains i && !roles.contains i
    else (cands.filter fun i => !roles.contains i).take (l.d.slots - have_.length - roles.length)
  let need := roles ++ more
  let records := ctxRecords t + ((leaving t).filter fun x => x.2.ph = .bound).length
  if !tileTakes t l.job ∨ !(need.all cands.contains) ∨ (!l.d.det ∧ have_.length + need.length < l.d.slots) ∨ 32 < records + (need.filter fun i => !freed.contains i).length then []
  else need
/-- Selects units for pre-emption on behalf of a waiting head, tile by tile (R87). -/
def preemptFor (s : State) (pkg : Nat) (l : Launch) : State :=
  (claimTiles l).foldl (fun s t => (slotsToFree s pkg l ⟨pkg, t⟩).foldl (fun s i =>
    modSlot s ⟨pkg, t, i⟩ fun x => { x with freedFor := some l.serial, ctx := { x.ctx with preempting := x.ph = .bound } }) s) s
/-- The unit that resumes next on a slot: of the highest priority, the one saved last. -/
def nextSaved (l : Slot) : Option Ctx :=
  l.saved.foldl (fun (o : Option Ctx) c => match o with
    | some x => if x.d.prio ≤ c.d.prio then some c else some x
    | none => some c) none
/-- The accumulators of a unit that begins to resume are its own again, with what they held (R151). -/
def takeXas (s : State) (r : SlotRef) (c : Ctx) : State :=
  modTile s r.node fun t => { t with xas := c.savedXa.foldl (fun xs (i, n, st) =>
    xs.set! i { n := n, st := st, holder := some (r.slot, c.uid), busyUntil := 0, job := c.d.job }) t.xas }
/-- Whether the accumulators of a unit can be had again (R151). -/
def xaFree (t : Tile) (c : Ctx) : Bool := c.savedXa.all fun (i, _, _) => ((t.xas.toList[i]?).bind (·.holder)).isNone
/-- Whether a slot still waits for the node for which its unit was pre-empted (R87). -/
def awaited (s : State) (pkg : Nat) (l : Slot) : Bool :=
  l.freedFor.any fun k => (launchOf s pkg k).any fun x => !x.placed && !x.done
/-- Begins to resume the pre-empted units of a tile, each once the node for which it was taken has had its slot, and its roles and
accumulators can be had again (R74, R87, R91, R151). Restoring takes about 200 cycles, a time that is not fixed. Free value, log 5. -/
def resumeTile (s : State) (n : Node) : State :=
  (List.range 16).foldl (fun s i =>
    let r : SlotRef := ⟨n.pkg, n.id, i⟩
    let l := slotAt s r
    match l.ph, nextSaved l with
    | .free, some c =>
      if awaited s n.pkg l ∨ c.keepsMat ∨ c.keepsCopy ∨ !xaFree (tileAt s n) c then s
      else
        let s := modSlot (takeXas s r c) r fun l =>
          { l with ph := .saving, ctx := { c with savedXa := [] }, saved := l.saved.filter (fun x => x.uid ≠ c.uid), freedFor := none }
        push (stepFree s) (s.now + Config.freeLatency s.freeCtr) phStart (slotKey r) (.unitResume r c.uid)
    | _, _ => s) s
/-- UNIT_RESUME: the context is back, its accumulators with it; the wake flag is set (R91, R97, R151). Messages that waited are
deposited (R125), and nodes that waited for the unit are looked at (R85, R87). -/
def evUnitResume (r : SlotRef) (uid : Nat) (s : State) : State :=
  let l := slotAt s r
  if l.ph ≠ .saving ∨ l.ctx.uid ≠ uid then s
  else
    let s := modSlot s r fun l => { l with ph := .bound, ctx := { l.ctx with wake := true, preempting := false, readyFrom := s.now + 1 } }
    let mine := (tileAt s r.node).eps.filter fun x => x.2.owner = some (r.slot, uid)
    askWork (mine.foldl (fun s x => askDeposit s ⟨r.pkg, r.tile, x.1⟩ s.now) s) r.node
/-- Whether a result of fixed latency is still to land for a unit (R115). -/
def resultsDue (s : State) (r : SlotRef) (uid : Nat) : Bool := s.agenda.any fun x => match x.ev with
  | .resultLanding r' u _ _ => r' = r && u = uid
  | _ => false
/-- A context whose saving begins: its quiet count is discarded (R47), and a fence it is parked in is abandoned, to issue again after
resumption (R299, R300). -/
def leaveCore (c : Ctx) : Ctx :=
  { c with quiet := 0, park := c.park.filter fun p => match p.form with
      | .fence .. => false
      | .fenceEng .. => false
      | _ => true }
/-- A unit selected for pre-emption is at a boundary without an open packet: saving begins (R91, R115). -/
def startSave (s : State) (r : SlotRef) : State :=
  let c := ctxAt s r
  if !isBound s r ∨ !c.preempting ∨ c.packet.isSome ∨ resultsDue s r c.uid then s
  else push (stepFree (modSlot s r fun l => { l with ph := .saving, ctx := leaveCore l.ctx })) (s.now + Config.freeLatency s.freeCtr) phStart (slotKey r)
    (.contextSaveComplete r c.uid)
/-- CONTEXT_SAVE_COMPLETE: the context and its accumulators are away, the slot is free for the node that waits (R91, R151). -/
def evContextSaveComplete (r : SlotRef) (uid : Nat) (s : State) : State :=
  let l := slotAt s r
  if l.ph ≠ .saving ∨ l.ctx.uid ≠ uid then s
  else
    let mine := (tileAt s r.node).xas.toList.zipIdx.filter fun (x, _) => x.holder = some (r.slot, uid)
    let c := { l.ctx with preempting := false, savedXa := mine.map fun (x, i) => (i, x.n, x.st) }
    let s := modTile s r.node fun t => { t with xas := t.xas.map fun x => if x.holder = some (r.slot, uid) then { x with holder := none, job := c.d.job } else x }
    askWork (modSlot s r fun l => { l with ph := .free, saved := l.saved ++ [c] }) r.node
/-- Tiles of a package that hold pre-empted units. -/
def awayTiles (s : State) (pkg : Nat) : List Node :=
  (s.tiles.filter fun (k, t) => (nodeOfKey k).pkg = pkg && t.slots.toList.any fun l => l.saved ≠ []).map fun (k, _) => nodeOfKey k
/-- NODE_PLACEMENT: nodes are placed, units selected for pre-emption, and pre-empted units resumed (R85, R87). -/
def evNodePlacement (pkg : Nat) (s : State) : State :=
  let s := placeAll pkg (considered s pkg) [] [] s
  let s := (waitingHeads s pkg).foldl (fun s l => preemptFor s pkg l) s
  (awayTiles s pkg).foldl resumeTile s

/-! ### Spawn queues (R90, R101, R102, R336) -/

/-- Entries of a spawn queue. -/
def spawnLimit : Nat := 64
/-- Why a spawn request is refused: 2 not in the caller's placement, 3 the tile is retiring, 1 the queue is full. Where several
hold, the first of these is told: R101 gives no order. DESIGN CHOICE, log 48. -/
def spawnBar (s : State) (q : SpawnReq) : Option Nat :=
  let t := tileAt s q.target
  match launchAt s q.desc.launch with
  | none => some 2
  | some l =>
    if q.desc.launch = 0 ∨ !l.tiles.contains q.target.id ∨ l.done ∨ l.cancelled ∨ l.job ≠ q.desc.job then some 2
    else if t.retiring ∨ !t.present then some 3
    else if spawnLimit ≤ t.spawnQ.length then some 1
    else none
/-- The reply of a spawn queue, 16 cycles after it has taken the request (R397). -/
def spawnAnswer (s : State) (q : SpawnReq) (reason : Nat) : State :=
  sendAt s (dueFrom s q.target s.now 16) ⟨q.who.slot, q.target, q.who.slot.node, 4, 1, [4, 5, slotKey q.who.slot], some q.desc.launch, true,
    .spawnReplyLand q.who reason⟩
/-- SPAWN_REQUEST_LAND: in its turn the entry is queued, and recorded; or refused (R90, R101, R336, R397). The entry's ADDR in the log is 0
(log 27). -/
def evSpawnRequestLand (q : SpawnReq) (s : State) : State :=
  let q' := { q with turn := true }
  serveTurn s q.turn (peerKey q.target 11) (slotKey q.who.slot) (.spawnRequestLand q') fun s =>
    match spawnBar s q with
    | some k => spawnAnswer s q k
    | none =>
      let g := recPoint s q.target q.who q.desc.job q.recSeq 5 0 0
      if g.1 then
        let s := modTile { g.2 with no := g.2.no + 1 } q.target fun t => { t with spawnQ := t.spawnQ ++ [⟨q, g.2.no⟩] }
        let s := modLaunch s q.desc.launch fun l => { l with live := l.live + 1 }
        spawnAnswer (pushOnce s s.now phEnd (nodeKey q.target) (.spawnEntryServe q.target)) q 0
      else push g.2 (s.now + 1) phLand (slotKey q.who.slot) (.spawnRequestLand q')
/-- The slots of a tile that waiting heads claim (R90). -/
def claimedSlots (s : State) (n : Node) : List Nat :=
  ((waitingHeads s n.pkg).filter fun l => (claimTiles l).contains n.id).flatMap fun l =>
    if l.d.det then List.range l.d.slots else (slotsFor (tileAt s n) l.serial).take l.d.slots
/-- The slot to which the next spawn entry is bound, if any. -/
def spawnSlot (s : State) (n : Node) : Option Nat :=
  (List.range 16).find? fun i => slotFree (slotAt s ⟨n.pkg, n.id, i⟩) && !(claimedSlots s n).contains i
/-- Binds entries of a spawn queue in order while slots are free. -/
def serveSpawns (n : Node) : Nat → State → State
  | 0, s => s
  | fuel + 1, s =>
    let t := tileAt s n
    match t.spawnQ, spawnSlot s n with
    | e :: l, some i =>
      if tileTakes t e.q.desc.job then
        serveSpawns n fuel (bindUnit (modTile s n fun t => { t with spawnQ := l }) ⟨n.pkg, n.id, i⟩ e.q.desc 0)
      else s
    | _, _ => s
/-- SPAWN_ENTRY_SERVE (R90). -/
def evSpawnEntryServe (n : Node) (s : State) : State := serveSpawns n 16 s
/-- SPAWN_REPLY_LAND (R101). -/
def evSpawnReplyLand (w : Who) (reason : Nat) (s : State) : State :=
  match waitOf s w with
  | none => s
  | some (c, p) =>
    let s := if reason = 0 ∧ !c.d.det then countRec s w.slot w.uid else s
    match p.form with
    | .spawnAt _ d _ _ _ =>
      if reason ≠ 0 then faultWait s w fSpawn 0 (BitVec.ofNat 64 reason)
      else finish s w fun c => setPres c (.s d) .ret
    | .spawnQ _ d _ _ _ => finish s w fun c => if d = 0 then c else putReg c (.p d) (pval (reason = 0))
    | _ => s
/-- SPAWN_RETURN_LAND: the value fills the caller's register, where it still waits; the return is performed (R101, R102). -/
def evSpawnReturnLand (r : SlotRef) (uid : Nat) (dst : SIx) (v : Word) (s : State) : State :=
  let parked : Bool := match (unitAt s r uid).bind (·.park) with
    | some p => match p.form with
      | .spawnAt _ d _ _ _ => d = dst
      | _ => false
    | none => false
  if parked then push s (s.now + 1) phLand (slotKey r) (.spawnReturnLand r uid dst v)
  else
    let s := match s.outs.find? fun o => o.va = spawnMark uid dst.toNat ∧ o.home = some r.node with
      | some o => performed s o.id
      | none => s
    setWake (modUnit s r uid fun c => if presOf c (.s dst) = .ret then putReg c (.s dst) (sval v) else c) r uid

end Sys2Proof.Machine
end

