-- ==== Sys2Proof/Machine/Hierarchy.lean ====
section
/-! DEFINITION. The work hierarchy: launch descriptors, launches, graphs, phases, completion, DONE.WAIT and cancel (R79 to
R89, R103 to R109). -/

namespace Sys2Proof.Machine

/-! ### The descriptor (R79, R80) -/

/-- Word at an offset of a descriptor. -/
def descWord (b : List Byte) (o : Nat) : Nat := natOfBytes ((b.drop o).take 8)
/-- A field: the low w bits from bit p. -/
def bitField (x p w : Nat) : Nat := x / 2 ^ p % 2 ^ w
/-- The descriptor that 128 bytes hold (Table 3). -/
def descOf (b : List Byte) : LaunchDesc :=
  let g := descWord b 56
  let u := descWord b 64
  let word (o : Nat) : Word := BitVec.ofNat 64 (descWord b o)
  { entry := word 0
    handler := word 8
    seed := word 16
    args := [word 24, word 32, word 40, word 48]
    copyS := if bitField g 48 1 = 1 then some (bitField g 49 4) else none
    matS := if bitField g 43 1 = 1 then some (bitField g 44 4) else none
    pre := bitField g 42 1 = 1
    det := bitField g 41 1 = 1
    prio := bitField g 39 2
    cls := bitField g 37 2
    slots := bitField g 32 5
    h := bitField g 24 8
    w := bitField g 16 8
    y0 := bitField g 8 8
    x0 := bitField g 0 8
    supS := bitField u 44 4
    supT := bitField u 32 12
    waitlim := BitVec.ofNat 64 (bitField u 0 32) }
/-- Whether a PC field is valid. -/
def pcField (x : Nat) : Bool := x % 4 = 0 && x < 2 ^ 56
/-- Whether the local slot of a role is one of the launch. -/
def roleOk (o : Option Nat) (slots : Nat) : Bool :=
  match o with
  | some k => decide (k < slots)
  | none => true
/-- Whether the geometry word is valid (R80). -/
def geomOk (g : Nat) (d : LaunchDesc) : Bool :=
  bitField g 53 11 = 0 && d.cls ≠ 3 && 1 ≤ d.slots && d.slots ≤ 16 && roleOk d.copyS d.slots && roleOk d.matS d.slots &&
  1 ≤ d.w && 1 ≤ d.h &&
  (match d.cls with
    | 0 => decide (d.x0 + d.w ≤ 64) && decide (d.y0 + d.h ≤ 32)
    | 1 => d.y0 = 0 && d.h = 1 && decide (d.x0 + d.w ≤ 48)
    | _ => decide (d.x0 + d.w ≤ 64) && decide (d.y0 + d.h ≤ 32) && decide (d.x0 + d.w * d.h ≤ 48)) &&
  !(d.matS.isSome && d.cls ≠ 0) && !(d.copyS.isSome && d.cls = 2) && !(d.det && d.pre)
/-- The offset of the first word with an invalid field, if any (R80). -/
def descBad (b : List Byte) : Option Nat :=
  let d := descOf b
  let u := descWord b 64
  if !pcField (descWord b 0) then some 0
  else if !pcField (descWord b 8) then some 8
  else if !geomOk (descWord b 56) d then some 56
  else if bitField u 48 16 ≠ 0 ∨ 2099 < d.supT then some 64
  else ((List.range 7).map fun i => 72 + 8 * i).find? fun o => descWord b o ≠ 0

/-! ### Outcomes and waits (R82, R83, R107) -/

/-- Outcomes that a package retains for a job (R83). -/
def outcomeLimit : Nat := 4096
/-- Notes the outcome of a completed object. -/
def noteOutcome (s : State) (pkg : Nat) (o : Outcome) : State := modPkg s pkg fun p => { p with outcomes := p.outcomes ++ [o] }
/-- The status that an object of a job is reported with: its own while it is among those retained, then 3 (R83); none for an
object without an outcome. -/
def retained (l : List Outcome) (job : Word) (lvl : Level) (serial : Nat) : Option Nat :=
  let mine := l.filter fun x => x.job = job
  let is (o : Outcome) : Bool := o.lvl = lvl && o.serial = serial
  match (mine.drop (mine.length - outcomeLimit)).find? is with
  | some o => some o.status
  | none => if mine.any is then some 3 else none
/-- Answers a request that waited for an event, in the dispatcher's turn (R397). -/
def answerWait (s : State) (q : SvcReq) (a : SvcReply) : State :=
  let t := serveSlot (waitOver s q.who) (peerKey q.peer 10)
  svcReply t.2 q (t.1 + 64) a
/-- Answers the waits of a package that a test selects. -/
def answerWaits (s : State) (pkg : Nat) (sel : SvcReq → Bool) (v : Nat) : State :=
  let hit := (pkgAt s pkg).waits.filter fun w => sel w.q
  let s := modPkg s pkg fun p => { p with waits := p.waits.filter fun w => !sel w.q }
  hit.foldl (fun s w => answerWait s w.q (svcVal v)) s
/-- Whether a request waits for an object. -/
def waitsFor (lvl : Level) (serial : Nat) (job : Word) (q : SvcReq) : Bool :=
  match q.kind with
  | .doneWait l h _ => l = lvl && h.toNat % 2 ^ 32 = serial && q.job = job
  | _ => false
/-- An object is complete: its outcome is kept and those who wait are told; with status 1 its job has status 1 (R82; DEDUCED, log 64). -/
def completeObj (s : State) (pkg : Nat) (lvl : Level) (serial : Nat) (job : Word) (status : Nat) : State :=
  let s := if status = 1 then modJob s job fun j => { j with status := max 1 j.status } else s
  answerWaits (noteOutcome s pkg ⟨job, lvl, serial, status⟩) pkg (waitsFor lvl serial job) status
/-- Takes back the waits of a party (R107, R109). -/
def dropWaits (s : State) (w : Who) : State :=
  { s with pkgs := s.pkgs.map fun (i, p) => (i, { p with waits := p.waits.filter fun x => x.q.who ≠ w }) }

/-! ### Graphs (R82, R84, R88, R106) -/

/-- A graph of a package. -/
def graphOf (s : State) (pkg serial : Nat) : Option Graph := (pkgAt s pkg).graphs.find? fun g => g.serial = serial
/-- Changes a graph. -/
def modGraph (s : State) (pkg serial : Nat) (f : Graph → Graph) : State :=
  modPkg s pkg fun p => { p with graphs := p.graphs.map fun g => if g.serial = serial then f g else g }
/-- Changes a launch of a package. -/
def modLaunchOf (s : State) (pkg serial : Nat) (f : Launch → Launch) : State :=
  modPkg s pkg fun p => { p with launches := p.launches.map fun l => if l.serial = serial then f l else l }
/-- Asks for the completion of the phase of a job to be looked at. -/
def askPhaseEnd (s : State) (job : Word) : State := pushOnce s s.now phEnd (2 ^ 41 + job.toNat) (.phaseCompletion job)
/-- The launch of a node. -/
def nodeLaunch (s : State) (pkg : Nat) (g : Graph) (i : Nat) : Option Launch := (g.nodes[i]?).bind (launchOf s pkg)
/-- Launches of the predecessors of a node. -/
def nodePreds (s : State) (pkg : Nat) (g : Graph) (i : Nat) : List Launch :=
  ((g.edges.filter fun e => e.2 = i).map (·.1)).filterMap (nodeLaunch s pkg g)
/-- A launch that is complete: its pinned routes end, its block queue ends, its outcome is noted (R82, R309, R329). -/
def endLaunch (s : State) (pkg : Nat) (l : Launch) (status : Nat) : State :=
  let s := modLaunchOf s pkg l.serial fun x => { x with done := true, status := status, parity := none, routes := [] }
  let s := modPkg s pkg fun p =>
    { p with pool := p.pool.filter fun x => x.2.2.2 ≠ l.serial
             bq := p.bq.bind fun q => if q.launch = handleOf 0 pkg l.serial then none else some q }
  completeObj s pkg .launch l.serial l.job status
/-- Asks for placement. -/
def askPlace (s : State) (pkg : Nat) : State := pushOnce s s.now phEnd (2 ^ 30 + pkg) (.nodePlacement pkg)
/-- A node of a submitted graph becomes ready, or is cancelled after a predecessor with status 1 (R84, R88; DEDUCED, log 28). -/
def settleNode (pkg serial : Nat) (s : State) (i : Nat) : State :=
  match graphOf s pkg serial with
  | none => s
  | some g => match nodeLaunch s pkg g i with
    | none => s
    | some l =>
      let ps := nodePreds s pkg g i
      if l.done ∨ l.placed ∨ (pkgAt s pkg).pool.any (fun x => x.2.2.2 = l.serial) then s
      else if ps.any fun p => p.done && p.status = 1 then
        endLaunch (modLaunchOf s pkg l.serial fun x => { x with cancelled := true }) pkg l 1
      else if g.submitted && ps.all (fun p => p.done) then
        askPlace (modPkg s pkg fun p => { p with pool := p.pool ++ [(s.now, g.serial, i, l.serial)] }) pkg
      else s
/-- Looks at the nodes of a graph in order, and at the graph itself: it is complete when every node is (R82). -/
def settleGraph (s : State) (pkg serial : Nat) : State :=
  match graphOf s pkg serial with
  | none => s
  | some g =>
    let s := (List.range g.nodes.length).foldl (settleNode pkg serial) s
    let ls := g.nodes.filterMap (launchOf s pkg)
    if (g.submitted || g.givenUp) && !g.done && ls.all fun l => l.done then
      let st := if g.status = 1 ∨ ls.any (fun l => l.status = 1) then 1 else 0
      let s := modGraph s pkg serial fun g => { g with done := true, status := st }
      askPhaseEnd (completeObj s pkg .graph serial g.job st) g.job
    else s
/-- LAUNCH_COMPLETION: the units of the launch have ended, and what they issued is performed (R82). -/
def evLaunchCompletion (pkg serial : Nat) (s : State) : State :=
  match launchOf s pkg serial with
  | none => s
  | some l =>
    let h := handleOf 0 pkg serial
    if l.done ∨ !l.placed ∨ l.live ≠ 0 ∨ s.outs.any (fun o => o.launch = h) then s
    else askJob (askPlace (settleGraph (endLaunch s pkg l l.status) pkg l.graph) pkg) l.job

/-! ### Phases (R89, R109) -/

/-- Whether every package has left the current phase and every graph submitted in it is complete. -/
def phaseOver (s : State) (j : Job) : Bool :=
  j.pkgs.all fun p => j.left.contains p &&
    (pkgAt s p).graphs.all fun g => g.job ≠ j.handle || !g.submitted || g.phase ≠ j.phase || g.done
/-- Whether a package already has the outcome of a phase. -/
def phaseNoted (s : State) (j : Job) : Bool :=
  j.pkgs.any fun p => (pkgAt s p).outcomes.any fun o => o.job = j.handle && o.lvl = .phase && o.serial = j.phase + 1
/-- Opens the next phase when every package has entered it (R89; DEDUCED, log 29). -/
def openPhase (s : State) (job : Word) : State :=
  match jobAt s job with
  | none => s
  | some j =>
    if !(j.pkgs.all j.entered.contains) ∨ !phaseNoted s j then s
    else
      let s := modJob s job fun j => { j with phase := j.phase + 1, left := [], entered := [], phaseOpen := j.pkgs, phaseStatus := 0 }
      let enters (q : SvcReq) : Bool := q.job = job && match q.kind with
        | .phaseEnter _ => true
        | _ => false
      let hit := j.pkgs.flatMap fun p => (pkgAt s p).waits.filter fun w => enters w.q
      let s := j.pkgs.foldl (fun s p => modPkg s p fun k => { k with waits := k.waits.filter fun w => !enters w.q }) s
      hit.foldl (fun s w => answerWait s w.q ⟨handleOf 2 0 (j.phase + 2), true, 0, 0, 0⟩) s
/-- PHASE_COMPLETION (R82, R89, R109): the phase has its status, the root units that left are told, and its calendars are
discarded (R317). -/
def evPhaseCompletion (job : Word) (s : State) : State :=
  match jobAt s job with
  | none => s
  | some j =>
    if !phaseOver s j ∨ phaseNoted s j ∨ j.done then s
    else
      let bad := j.pkgs.any fun p => (pkgAt s p).graphs.any fun g => g.job = job && g.submitted && g.phase = j.phase && g.status = 1
      let st := if j.phaseStatus = 1 ∨ bad then 1 else 0
      let leaves (q : SvcReq) : Bool := q.job = job && q.kind = .phaseLeave
      let s := j.pkgs.foldl (fun s p =>
        answerWaits (completeObj s p .phase (j.phase + 1) job st) p leaves st) s
      openPhase (startExchange s j) job

/-! ### Cancel (R88, R108) -/

/-- Whether a launch holds nothing that a cancel could stop. -/
def launchOver (l : Launch) : Bool := l.done || (l.placed && l.live = 0)
/-- Commands of a launch at an engine: one that is stopped or has not begun ends without its signal; of another it is
unspecified whether it completes. Free value, log 5. -/
def cancelCmd (n : Node) (mx : Bool) (s : State) (q : EngCmd) : State :=
  let stop := Config.freeBool s.freeCtr
  let s := stepFree s
  if q.stopped.isSome ∨ !q.started ∨ stop then
    push (modCmd s n mx q.id fun q => { q with refused := true }) s.now phEnd (nodeKey n) (.engineCommandComplete n mx q.id)
  else s
/-- Stops the commands of a package that a test selects. -/
def cancelCmds (s : State) (pkg : Nat) (sel : EngCmd → Bool) : State :=
  (s.tiles.filter fun x => (nodeOfKey x.1).pkg = pkg).foldl (fun s x =>
    let n := nodeOfKey x.1
    (x.2.mx.cmds.filter sel).foldl (cancelCmd n true) ((x.2.copy.filter sel).foldl (cancelCmd n false) s)) s
/-- Ends the units of a package that a test selects. -/
def cancelUnits (s : State) (pkg : Nat) (sel : UnitDesc → Bool) : State :=
  (s.tiles.filter fun x => (nodeOfKey x.1).pkg = pkg).foldl (fun s x =>
    ((tileUnits x.2).filter fun u => sel u.2.d).foldl (fun s u =>
      endUnit s ⟨(nodeOfKey x.1).pkg, (nodeOfKey x.1).id, u.1⟩ u.2.uid fClosed false true) s) s
/-- Drops the spawn entries of a launch. -/
def dropSpawns (s : State) (pkg serial : Nat) : State :=
  let h := handleOf 0 pkg serial
  let n := (s.tiles.map fun x => (x.2.spawnQ.filter fun e => e.q.desc.launch = h).length).sum
  let s := { s with tiles := s.tiles.map fun (k, t) => (k, { t with spawnQ := t.spawnQ.filter fun e => e.q.desc.launch ≠ h }) }
  modLaunchOf s pkg serial fun l => { l with live := l.live - n }
/-- Cancels a launch (R88). -/
def cancelLaunch (s : State) (pkg serial : Nat) : State :=
  match launchOf s pkg serial with
  | none => s
  | some l =>
    let h := handleOf 0 pkg serial
    if launchOver l then s
    else
      let s := modLaunchOf s pkg serial fun l => { l with cancelled := true, status := 1 }
      if !l.placed then askPlace (askSpawns (settleGraph (endLaunch s pkg l 1) pkg l.graph) pkg l) pkg
      else
        let s := cancelUnits (dropSpawns s pkg serial) pkg fun d => d.launch = h
        askLaunch (cancelCmds s pkg fun q => q.launch = h) h
/-- Cancels a graph (R88). One that is not submitted is given up, and belongs to no phase. -/
def cancelGraph (s : State) (pkg serial : Nat) : State :=
  match graphOf s pkg serial with
  | none => s
  | some g =>
    let ls := g.nodes.filterMap (launchOf s pkg)
    if g.done ∨ (g.submitted ∧ ls.all launchOver) then s
    else
      let s := modGraph s pkg serial fun g => { g with givenUp := !g.submitted, status := 1 }
      settleGraph (g.nodes.foldl (fun s k => cancelLaunch s pkg k) s) pkg serial
/-- The graphs of a job on a package. -/
def graphsOf (s : State) (pkg : Nat) (job : Word) : List Graph := (pkgAt s pkg).graphs.filter fun g => g.job = job
/-- Whether a graph holds nothing that a cancel could stop. -/
def graphOver (s : State) (pkg : Nat) (g : Graph) : Bool := g.done || (g.submitted && (g.nodes.filterMap (launchOf s pkg)).all launchOver)
/-- A cancel begins the end of a job; where its last root unit has exited it does not make the status 1 (R361). -/
def beginEnd (s : State) (job : Word) : State :=
  match jobAt s job with
  | none => s
  | some j =>
    if j.ending ∨ j.done then s
    else
      let finished := j.started && j.pkgs.all j.rootExited.contains
      askJob (modJob s job fun j => { j with ending := true, status := if finished then j.status else max 1 j.status }) job
/-- CANCEL_APPLY (R88, R108). -/
def evCancelApply (pkg : Nat) (c : CancelReq) (s : State) : State :=
  let mine (l : Option Word) : Bool := l = some c.job
  match c.lvl with
  | .launch => if mine ((launchOf s pkg c.serial).map (·.job)) then cancelLaunch s pkg c.serial else s
  | .graph => if mine ((graphOf s pkg c.serial).map (·.job)) then cancelGraph s pkg c.serial else s
  | .phase => match jobAt s c.job with
    | none => s
    | some j =>
      let gs := (graphsOf s pkg c.job).filter fun g => g.submitted && g.phase = j.phase
      if j.phase + 1 ≠ c.serial ∨ phaseNoted s j then s
      else
        let live := gs.any fun g => !graphOver s pkg g
        let s := if live then modJob s c.job fun j => { j with phaseStatus := 1 } else s
        gs.foldl (fun s g => cancelGraph s pkg g.serial) s
  | .job => beginEnd s c.job

/-! ### The dispatcher's answers (R104 to R109, R397) -/

/-- resource_exhausted with a code. -/
def exhausted (k : Nat) : SvcReply := svcFault fResource 0 (BitVec.ofNat 64 k)
/-- illegal_operand. -/
def illegal : SvcReply := svcFault fOperand 0 0
/-- A reply of a handle. -/
def svcHandle (h : Word) : SvcReply := ⟨h, true, 0, 0, 0⟩
/-- Launches of a package that are not complete. -/
def liveLaunches (s : State) (pkg : Nat) : Nat := ((pkgAt s pkg).launches.filter fun l => !l.done).length
/-- Whether a package takes launches of a job (R89). -/
def takesWork (s : State) (pkg : Nat) (job : Word) : Bool := ((jobAt s job).map fun j => j.phaseOpen.contains pkg && !j.ending).getD false
/-- Whether a descriptor places on absent tiles (R366). -/
def absentTiles (s : State) (pkg : Nat) (d : LaunchDesc) : Bool :=
  ((placements d).headD []).any fun t => !(tileAt s ⟨pkg, t⟩).present
/-- The fault of a descriptor, or none. FAULTVA is the address that the form holds (R80). -/
def descFault (s : State) (pkg : Nat) (d : LaunchDesc) (bad : Option Nat) : Option SvcReply :=
  match bad with
  | some o => some (svcFault fDescriptor 0 (BitVec.ofNat 64 o))
  | none => if absentTiles s pkg d then some (svcFault fDescriptor 0 56) else none
/-- A new launch of a graph. -/
def addLaunch (s : State) (pkg : Nat) (job : Word) (graph node : Nat) (d : LaunchDesc) : State × Nat :=
  let k := (pkgAt s pkg).serial
  let l : Launch := { serial := k, job := job, graph := graph, node := node, d := d, supPkg := pkg, began := s.now }
  (modPkg s pkg fun p =>
    { p with serial := k + 1, launches := p.launches ++ [l]
             graphs := p.graphs.map fun g => if g.serial = graph then { g with nodes := g.nodes ++ [k] } else g }, k)
/-- A new graph. -/
def addGraph (s : State) (pkg : Nat) (job : Word) : State × Nat :=
  let k := (pkgAt s pkg).serial
  (modPkg s pkg fun p => { p with serial := k + 1, graphs := p.graphs ++ [{ serial := k, job := job }] }, k)
/-- Submits a graph to the current phase (R106). -/
def submitGraph (s : State) (pkg : Nat) (job : Word) (serial : Nat) : State :=
  let ph := ((jobAt s job).map (·.phase)).getD 0
  settleGraph (modGraph s pkg serial fun g => { g with submitted := true, phase := ph }) pkg serial
/-- An unsubmitted graph of a job that a handle names (R106). -/
def openGraph (s : State) (pkg : Nat) (job h : Word) : Option Graph :=
  if h.toNat ≠ 2 ^ 62 + pkg * 2 ^ 56 + h.toNat % 2 ^ 32 then none
  else (graphOf s pkg (h.toNat % 2 ^ 32)).bind fun g => if g.job = job ∧ !g.submitted ∧ !g.givenUp then some g else none
/-- LAUNCH at the dispatcher (R105). -/
def serveLaunch (s : State) (pkg : Nat) (job : Word) (d : LaunchDesc) (bad : Option Nat) : State × SvcReply :=
  match descFault s pkg d bad with
  | some a => (s, a)
  | none =>
    if !takesWork s pkg job then (s, illegal)
    else if 8192 ≤ liveLaunches s pkg then (s, exhausted 1)
    else
      let g := addGraph s pkg job
      let l := addLaunch g.1 pkg job g.2 0 d
      (submitGraph l.1 pkg job g.2, svcHandle (handleOf 0 pkg l.2))
/-- GRAPH.ADD at the dispatcher (R106). -/
def serveAdd (s : State) (pkg : Nat) (job h : Word) (d : LaunchDesc) (bad : Option Nat) : State × SvcReply :=
  match openGraph s pkg job h with
  | none => (s, illegal)
  | some g => match descFault s pkg d bad with
    | some a => (s, a)
    | none =>
      if 8192 ≤ liveLaunches s pkg then (s, exhausted 1)
      else if 256 ≤ g.nodes.length then (s, exhausted 3)
      else
        let l := addLaunch s pkg job g.serial g.nodes.length d
        (l.1, svcHandle (handleOf 0 pkg l.2))
/-- GRAPH.EDGE at the dispatcher (R106). -/
def serveEdge (s : State) (pkg : Nat) (job h a b : Word) : State × SvcReply :=
  match openGraph s pkg job h with
  | none => (s, illegal)
  | some g =>
    if b.toNat ≤ a.toNat ∨ g.nodes.length ≤ b.toNat then (s, illegal)
    else if 1024 ≤ g.edges.length then (s, exhausted 4)
    else (modGraph s pkg g.serial fun g => { g with edges := g.edges ++ [(a.toNat, b.toNat)] }, svcVal 0)
/-- The status of an object as a dispatcher knows it: a status, none while it is not complete; bad for no object of the job. -/
inductive Known | bad | live | over (status : Nat)
/-- What a dispatcher knows of an object (R83, R107). -/
def knownOf (s : State) (pkg : Nat) (job : Word) (lvl : Level) (serial : Nat) : Known :=
  match retained (pkgAt s pkg).outcomes job lvl serial with
  | some v => .over v
  | none => match lvl with
    | .launch => match launchOf s pkg serial with
      | some l => if l.job ≠ job then .bad else if l.done then .over 3 else .live
      | none => .bad
    | .graph => match graphOf s pkg serial with
      | some g => if g.job ≠ job then .bad else if g.done then .over 3 else .live
      | none => .bad
    | .phase => match jobAt s job with
      | some j => if serial = 0 ∨ j.phase + 1 < serial then .bad else if serial = j.phase + 1 then .live else .over 3
      | none => .bad
    | .job => .live
/-- Whether an object contains a unit of a launch (R107). -/
def containsUnit (s : State) (pkg : Nat) (lvl : Level) (serial : Nat) (launch : Word) : Bool :=
  match lvl with
  | .launch => launch = handleOf 0 pkg serial
  | .graph => match launchAt s launch with
    | some l => l.graph = serial && launch.toNat / 2 ^ 56 % 64 = pkg
    | none => false
  | _ => false
/-- Takes back a PHASE.LEAVE or PHASE.ENTER that waits under WAITLIM: the package has not left, or not entered (R109, R222). -/
def undoPhase (s : State) (w : Who) : State :=
  let own := w.slot.pkg
  match (((pkgAt s own).waits.find? fun x => x.q.who = w).map (·.q)) with
  | none => s
  | some q =>
    let s := match q.kind with
      | .phaseLeave => modJob s q.job fun j =>
          { j with left := j.left.filter fun p => p ≠ own, phaseOpen := own :: j.phaseOpen.filter fun p => p ≠ own }
      | .phaseEnter _ => modJob s q.job fun j => { j with entered := j.entered.filter fun p => p ≠ own }
      | _ => s
    dropWaits s w
/-- DISPATCHER_REQUEST: a form of OP 0x04 lands; its reply leaves 64 cycles after it is served, and one that waits is served
when its event occurs (R104 to R109, R397). -/
def evDispatcherRequest (q : SvcReq) (s : State) : State :=
  let pkg := q.peer.pkg
  let own := q.who.slot.pkg
  let go (f : State → State × SvcReply) : State := svcServe s q 10 64 .dispatcherRequest f
  let wait (s : State) : State := modPkg s pkg fun p => { p with waits := p.waits ++ [⟨q⟩] }
  if waitGone s q then s
  else match q.kind with
  | .launch d bad => go fun s => serveLaunch s pkg q.job d bad
  | .refused code va => go fun s => (s, svcFault code va 0)
  | .graphOpen => go fun s =>
      if 64 ≤ ((pkgAt s pkg).graphs.filter fun g => !g.submitted && !g.givenUp).length then (s, exhausted 2)
      else let g := addGraph s pkg q.job; (g.1, svcHandle (handleOf 1 pkg g.2))
  | .graphAdd g d bad => go fun s => serveAdd s pkg q.job g d bad
  | .graphEdge g a b => go fun s => serveEdge s pkg q.job g a b
  | .graphSubmit g => go fun s => match openGraph s pkg q.job g with
      | none => (s, illegal)
      | some x => if takesWork s pkg q.job then (submitGraph s pkg q.job x.serial, svcVal 0) else (s, illegal)
  | .doneWait lvl h poll =>
    let k := h.toNat % 2 ^ 32
    if containsUnit s pkg lvl k q.launch then go fun s => (s, illegal)
    else match knownOf s pkg q.job lvl k with
      | .bad => go fun s => (s, illegal)
      | .over st => go fun s => (s, svcVal st)
      | .live => if poll then go fun s => (s, svcVal 2) else wait s
  | .cancel lvl h =>
    let k := h.toNat % 2 ^ 32
    match knownOf s pkg q.job lvl k with
    | .bad => go fun s => (s, illegal)
    | _ => go fun s =>
      let c : CancelReq := ⟨q.job, lvl, k⟩
      let ps : List Nat := if lvl = .phase then ((jobAt s q.job).map (·.pkgs)).getD [] else [pkg]
      (ps.foldl (fun s p =>
        if p = pkg then push s s.now phEnd (2 ^ 42) (.cancelApply p c)
        else push s (s.now + flight s (svcN pkg) (svcN p)) phEnd (2 ^ 42) (.cancelApply p c)) s, svcVal 0)
  | .phaseLeave => match jobAt s q.job with
    | none => go fun s => (s, illegal)
    | some j =>
      if !q.root ∨ !j.phaseOpen.contains own then go fun s => (s, illegal)
      else askPhaseEnd (wait (modJob s q.job fun j =>
        { j with left := own :: j.left, phaseOpen := j.phaseOpen.filter fun p => p ≠ own })) q.job
  | .phaseEnter n => match jobAt s q.job with
    | none => go fun s => (s, illegal)
    | some j =>
      if !q.root ∨ !j.left.contains own ∨ n.toNat ≠ j.phase + 1 then go fun s => (s, illegal)
      else openPhase (wait (modJob s q.job fun j => { j with entered := if j.entered.contains own then j.entered else own :: j.entered })) q.job
  | _ => s

/-! ### Forms (R103 to R109) -/

/-- A conversation with a dispatcher. -/
def dispAct (pkg : Nat) (k : SvcKind) (limKind : Nat) (s : State) (r : SlotRef) (c : Ctx) : Act :=
  svcAct s r c (svcN pkg) none k limKind .dispatcherRequest
/-- A form that is refused by what it names: a conversation all the same, whose reply raises the fault (R104). -/
def refusedAct (code : Nat) (va : Word) (s : State) (r : SlotRef) (c : Ctx) : Act := dispAct r.pkg (.refused code va) 0 s r c
/-- Reads a descriptor and goes on with it (R105). -/
def withDesc (va : Word) (s : State) (r : SlotRef) (c : Ctx) (f : LaunchDesc → Option Nat → Act) : Act :=
  if va.toNat % 64 ≠ 0 then refusedAct fMisaligned va s r c
  else withBytes s r c va 128 fun b => f (descOf b) (descBad b)
/-- Keeps the descriptor's address with the wait: a fault of the descriptor tells it (R80). -/
def keepVa (va : Word) : Act → Act
  | .wait s id k lk lx _ aux => .wait s id k lk lx va aux
  | a => a
/-- LAUNCH (R105). -/
def execLaunch (h : Hdr) (d a : SIx) : State → Outc :=
  runForm { i := .launch h d a, h := h, srcs := [.s a], dsts := [.s d] } fun s r c =>
    withDesc (rs c a) s r c fun x bad => release s r c .dom r.node (keepVa (rs c a) (dispAct r.pkg (.launch x bad) 0 s r c))
/-- GRAPH.OPEN (R106). -/
def execGraphOpen (h : Hdr) (d : SIx) : State → Outc :=
  runForm { i := .graphOpen h d, h := h, dsts := [.s d] } fun s r c => dispAct r.pkg .graphOpen 0 s r c
/-- GRAPH.ADD (R106). -/
def execGraphAdd (h : Hdr) (d a b : SIx) : State → Outc :=
  runForm { i := .graphAdd h d a b, h := h, srcs := [.s a, .s b], dsts := [.s d] } fun s r c =>
    withDesc (rs c b) s r c fun x bad => keepVa (rs c b) (dispAct r.pkg (.graphAdd (rs c a) x bad) 0 s r c)
/-- GRAPH.EDGE (R106). -/
def execGraphEdge (h : Hdr) (a b x : SIx) : State → Outc :=
  runForm { i := .graphEdge h a b x, h := h, srcs := [.s a, .s b, .s x] } fun s r c =>
    dispAct r.pkg (.graphEdge (rs c a) (rs c b) (rs c x)) 0 s r c
/-- GRAPH.SUBMIT (R106). -/
def execGraphSubmit (h : Hdr) (a : SIx) : State → Outc :=
  runForm { i := .graphSubmit h a, h := h, srcs := [.s a] } fun s r c =>
    release s r c .dom r.node (dispAct r.pkg (.graphSubmit (rs c a)) 0 s r c)
/-- Code of a level. -/
def levelCode : Level → Nat
  | .launch => 0
  | .graph => 1
  | .phase => 2
  | .job => 3
/-- The own object of a unit at a level (R107). -/
def ownObject (s : State) (c : Ctx) (lvl : Level) : Word :=
  let pkg := c.d.launch.toNat / 2 ^ 56 % 64
  let g := ((launchAt s c.d.launch).map (·.graph)).getD 0
  match lvl with
  | .launch => c.d.launch
  | .graph => handleOf 1 pkg g
  | .phase => handleOf 2 0 (((graphOf s pkg g).map (·.phase)).getD 0 + 1)
  | .job => c.d.job
/-- The object that a form names, and the package whose dispatcher has it; none where that is illegal (R81, R107). -/
def objectOf (s : State) (r : SlotRef) (c : Ctx) (lvl : Level) (a : SIx) : Option (Word × Nat) :=
  if a = 0 ∧ c.d.root ∧ lvl ≠ .job then none
  else
    let h := if a = 0 then ownObject s c lvl else rs c a
    let pkg := h.toNat / 2 ^ 56 % 64
    if h.toNat / 2 ^ 62 ≠ levelCode lvl then none
    else match lvl with
      | .job => if h = c.d.job then some (h, r.pkg) else none
      | .phase => if h.toNat / 2 ^ 32 = 2 ^ 31 then some (h, r.pkg) else none
      | _ => if h.toNat / 2 ^ 32 % 2 ^ 24 ≠ 0 ∨ !hasPkg s pkg then none else some (h, pkg)
/-- DONE.WAIT (R107). -/
def execDoneWait (h : Hdr) (lvl : Level) (poll : Bool) (d a : SIx) : State → Outc :=
  runForm { i := .doneWait h lvl poll d a, h := h, srcs := [.s a], dsts := [.s d] } fun s r c =>
    match objectOf s r c lvl a with
    | none => refusedAct fOperand 0 s r c
    | some (x, pkg) =>
      if lvl = .job ∨ (lvl = .phase ∧ !c.d.root) then refusedAct fOperand 0 s r c
      else dispAct pkg (.doneWait lvl x poll) (if poll then 0 else 5) s r c
/-- CANCEL (R108). -/
def execCancel (h : Hdr) (lvl : Level) (a : SIx) : State → Outc :=
  runForm { i := .cancel h lvl a, h := h, srcs := [.s a] } fun s r c =>
    match objectOf s r c lvl a with
    | none => refusedAct fOperand 0 s r c
    | some (x, pkg) => dispAct pkg (.cancel lvl x) 0 s r c
/-- PHASE.ENTER (R109). -/
def execPhaseEnter (h : Hdr) (d a : SIx) : State → Outc :=
  runForm { i := .phaseEnter h d a, h := h, srcs := [.s a], dsts := [.s d] } fun s r c =>
    dispAct r.pkg (.phaseEnter (rs c a)) 5 s r c
/-- PHASE.LEAVE (R109). -/
def execPhaseLeave (h : Hdr) (d : SIx) : State → Outc :=
  runForm { i := .phaseLeave h d, h := h, dsts := [.s d] } fun s r c => dispAct r.pkg .phaseLeave 5 s r c

end Sys2Proof.Machine
end

