-- ==== Sys2Proof/Machine/Resets.lean ====
section
/-! DEFINITION. Resets and incarnations, stale conversations, flits held at ports, and the service of links (R249, R313 to
R316, R366). -/

namespace Sys2Proof.Machine

/-! ### What a slot waits for (R315) -/

/-- The places with which a parked slot is in conversation: where its request went, and for an invalidation of the domain the packages
that have not answered. -/
def peersOf (c : Ctx) (p : Park) : List Node :=
  if p.kind ≠ .reply ∧ p.kind ≠ .withdraw then []
  else
    let others : List Node := match p.form with
      | .tlbInv .. | .tlbInvAll .. => p.aux.map fun k => ⟨k.toNat, 2096⟩
      | _ => []
    c.asked.toList ++ others
/-- A reset as conversations see it: of a tile, or of a whole package, which the number of no tile stands for. -/
def wholePkg (pkg : Nat) : Node := ⟨pkg, 4095⟩
/-- Whether a reset concerns a place. -/
def concerns (about n : Node) : Bool := if about.id = 4095 then n.pkg = about.pkg else n = about
/-- The coupler that an RC.BIND has reserved is given back. -/
def dropReserved (s : State) (r : SlotRef) (uid : Nat) : State :=
  match (tileAt s r.node).couplers.find? fun x => x.2.st = .reserved ∧ x.2.holder = some (r.slot, uid) with
  | none => s
  | some (i, k) => modEp (freeCoupler s r.node i) ⟨r.pkg, r.tile, k.ep⟩ fun x => { x with coupler := none }
/-- A slot's conversation ends with peer_reset, aux telling of a link that went down: a region rolls back, else the slot faults; an open
toward a reset incarnation is refused with reason 4 (R166, R249, R252, R315). -/
def losePark (s : State) (r : SlotRef) (c : Ctx) (p : Park) (aux : Word) : State :=
  let w : Who := ⟨r, c.uid, p.id⟩
  match p.form with
  | .chOpen _ ep _ _ =>
    if aux = 0 then faultWait (revertEp s (ownEp r ep)) w fClosed 0 4 else faultWait (revertEp s (ownEp r ep)) w fPeerReset 0 aux
  | .rcBind _ _ _ _ => faultWait (dropReserved s r c.uid) w fPeerReset 0 aux
  | _ => failReply s w c p fPeerReset aux
/-- An outstanding write is given up: a posted store is reported, others are no longer waited for (R249). -/
def loseOut (s : State) (o : Out) : State :=
  if o.va.toNat < 2 ^ 62 then push s s.now phLand (slotKey o.slot) (.postedStoreCreditLand ⟨o.slot, o.uid, o.id⟩ (.fail fPeerReset 0))
  else performed s o.id
/-- Packets and stores of a command that have been sent and not acknowledged. -/
def sentParts (q : EngCmd) : List Nat := (unacked q).filter fun k => !q.todo.contains k
/-- The virtual addresses that a part of a command reaches. -/
def partAddrs (k : EngKind) (i : Nat) : List Nat :=
  match k with
  | .pull _ a _ => (pageRuns (packetOf (linearAddrs a) i)).map (·.1)
  | .push d _ _ _ _ => (((sectors 0 (linearAddrs d)).drop i).head?.map (·.2.1)).toList
  | .fill d _ => (((sectors 0 (linearAddrs d)).drop i).head?.map (·.2.1)).toList
  | _ => []
/-- The places with which a part of a command is in conversation: the target of its packet, or the homes of what it stores or asks for. -/
def partPeers (s : State) (n : Node) (q : EngCmd) (i : Nat) : List Node :=
  if cmdTarget n q.kind ≠ n then [cmdTarget n q.kind]
  else (partAddrs q.kind i).filterMap fun a => match walk s n.pkg q.job a with
    | .leaf w bits => (memHome s (leafPa w bits a)).map (·.1)
    | _ => none
/-- The first part of a command whose conversation a reset concerns. -/
def lostPart (s : State) (n : Node) (hits : Node → Bool) (q : EngCmd) : Option Nat :=
  if q.started && q.stopped.isNone then (sentParts q).find? fun i => (partPeers s n q i).any hits else none
/-- Ends every conversation of a tile with what has reset; a tile knows its own incarnation (R187, R205, R269, R315). -/
def loseTile (s : State) (n : Node) (about : Node) : State :=
  let t := tileAt s n
  let hits (x : Node) : Bool := x ≠ n && concerns about x
  let parks := (tileUnits t).filterMap fun (i, c) => c.park.bind fun p =>
    if (peersOf c p).any hits then some (i, c, p) else none
  let outs := s.outs.filter fun o => o.slot.node = n && o.home.any hits
  let eps := t.eps.filter fun (_, x) => x.st = .opened && hits x.peer.node
  let cmds := t.copy.filterMap fun q => (lostPart s n hits q).map fun i => (q, i)
  let rcs := t.couplers.filter fun (_, k) => (k.st = .bound || k.st = .running) && hits k.producer.node
  let hit := parks ≠ [] ∨ outs ≠ [] ∨ eps ≠ [] ∨ cmds ≠ []
  let s := if hit then ((tileUnits t).filter fun x => x.2.d.det).foldl (fun s x => setVoid s x.2.d.launch 5) s else s
  let s := parks.foldl (fun s (i, c, p) => losePark s ⟨n.pkg, n.id, i⟩ c p 0) s
  let s := outs.foldl loseOut s
  let s := eps.foldl (fun s (i, _) => peerClose s ⟨n.pkg, n.id, i⟩ 0 fPeerReset) s
  let s := cmds.foldl (fun s (q, i) => stopCmd s n false q fPeerReset (packetAddr s n q i fPeerReset)) s
  rcs.foldl (fun s (i, _) => detach s n i) s
/-- STALE_NOTICE_LAND: the tile learns the incarnation that the notice tells, and its conversations with the old one end (R314, R315). -/
def evStaleNoticeLand (dst about : Node) (inc : Nat) (s : State) : State :=
  let s := if about.id = 4095 then s
    else modTile s dst fun t => { t with known := (nodeKey about, inc, s.now) :: t.known.filter fun x => x.1 ≠ nodeKey about }
  loseTile s dst about
/-- INCARNATION_ANNOUNCEMENT_LAND: the service units of a package learn of a new incarnation and tell its tiles, each of which learns it
as that lands there (R314, R315; log 18). -/
def evIncarnationAnnouncementLand (pkg : Nat) (about : Node) (inc : Nat) (s : State) : State :=
  let news : List (Nat × Nat) := if about.id = 4095 then
      (List.range 2126).map fun i => (nodeKey ⟨about.pkg, i⟩, (tileAt s ⟨about.pkg, i⟩).inc)
    else [(nodeKey about, inc)]
  let s := modPkg s pkg fun p =>
    { p with known := news.map (fun x => (x.1, x.2, s.now, (aget (0, 0, 0) p.known x.1).1)) ++
        p.known.filter fun x => !concerns about (nodeOfKey x.1) }
  ((s.tiles.map fun x => nodeOfKey x.1).filter fun n => n.pkg = pkg).foldl (fun s n =>
    push s (s.now + flight s (svcN pkg) n) phLand (nodeKey n) (.staleNoticeLand n about inc)) s

/-! ### Flits that are lost (R249, R313, R315) -/

/-- The requester of a request, or of the reply to one, that is lost; and whether it is a posted store. -/
def requester : Ev → Option (Who × Bool)
  | .memoryMergeStep _ (some q) => if q.engine then none else some (q.who, q.posted)
  | .scratchpadCycleService _ (some (q, _)) => some (q.who, false)
  | .spawnRequestLand q => some (q.who, false)
  | .dispatcherRequest q => some (q.who, false)
  | .tlbInvRequest _ q => some (q.who, false)
  | .demandPostRequest q => some (q.who, false)
  | .exchangeReservation q => some (q.who, false)
  | .blockQueueRequest q => some (q.who, false)
  | .rcBindRequest q => some (q.who, false)
  | .recordSegmentRequest q => some (q.who, false)
  | .errorLogRequest q => some (q.who, false)
  | .allocatorRequest _ q => some (q.who, false)
  | .openRequestLand q => some (q.who, false)
  | .openWithdrawalLand q => some (q.who, false)
  | .globalReplyLand w _ => some (w, false)
  | .postedStoreCreditLand w _ => some (w, true)
  | .remoteReplyLand q _ => some (q.who, false)
  | .serviceReplyLand w _ => some (w, false)
  | .spawnReplyLand w _ => some (w, false)
  | .allocatorReplyLand w _ => some (w, false)
  | .openReplyLand q _ => some (q.who, false)
  | .openWithdrawalAnswerLand w _ => some (w, false)
  | _ => none
/-- The engine command that a lost packet, request or answer belongs to: its tile and number, and which packet or store. -/
def packetOwner : Ev → Option (Node × Nat × Nat)
  | .copyPacketLand p => some (p.owner, p.cmd, p.num)
  | .copyPacketAck n id k _ => some (n, id, k)
  | .pullRequestServe q => some (q.who.slot.node, q.who.id, q.num)
  | .memoryMergeStep _ (some q) => if q.engine then some (q.who.slot.node, q.who.id / 2 ^ 64, q.who.id % 2 ^ 64) else none
  | _ => none
/-- What the loss of a message does: a request completes as peer_reset, a channel closes as by a reset, an engine command
stops (DEDUCED, log 31), a spawn's return is no longer waited for, and any other is dropped and counted. -/
def loseEv (s : State) (src : Node) (ev : Ev) : State :=
  match requester ev, channelOf ev, packetOwner ev, ev with
  | some (w, posted), _, _, _ =>
    if posted then push s s.now phLand (slotKey w.slot) (.postedStoreCreditLand w (.fail fPeerReset 256))
    else match waitOf s w with
      | some (c, p) => losePark s w.slot c p 256
      | none => s
  | _, some f, _, _ =>
    let mine := (tileAt s f.src).eps.filter fun (_, x) => x.st = .opened && x.peer = f.dst
    mine.foldl (fun s (i, _) => peerClose s ⟨f.src.pkg, f.src.id, i⟩ 0 fPeerReset) s
  | _, _, some (n, id, k), _ => match cmdAt s n false id with
    | some q => stopCmd s n false q fPeerReset (packetAddr s n q k fPeerReset)
    | none => s
  | _, _, _, .spawnReturnLand r uid dst _ =>
    let s := modTile s src fun t => { t with stale := t.stale + 1 }
    match s.outs.find? fun o => o.va = spawnMark uid dst.toNat ∧ o.home = some r.node with
    | some o => performed s o.id
    | none => s
  | _, _, _, _ => modTile s src fun t => { t with stale := t.stale + 1 }
/-- Whether a parcel is a flit of a message that crosses a link. -/
def Parcel.isOf (mid : Nat) : Parcel → Bool
  | .cross _ _ f => f.mid = mid
  | .send _ => false
/-- Drops the flits of a message, one of which is lost, wherever they are; the flits behind them go on (R304). -/
def dropMessage (s : State) (mid : Nat) : State :=
  let is (f : Flit) : Bool := f.mid = mid
  let found := s.routers.flatMap (fun (_, r) => (r.arr.map (·.flit)).filter is ++ r.inj.filter is) ++
    s.pkgs.flatMap (fun (_, p) => p.ports.flatMap fun (_, x) => (x.held.map (·.2)).filter is) ++
    s.outbox.filterMap fun (_, p) => match p with
      | .cross _ _ f => if is f then some f else none
      | .send _ => none
  let s := { s with
    routers := s.routers.map fun (k, r) => (k, { r with arr := r.arr.filter fun a => !is a.flit, inj := r.inj.filter fun f => !is f })
    pkgs := s.pkgs.map fun (k, p) => (k, { p with ports := p.ports.map fun (i, x) => (i, { x with held := x.held.filter fun h => !is h.2 }) })
    outbox := s.outbox.filter fun x => !x.2.isOf mid
    spaces := s.spaces.map fun x => { x with wait := x.wait.map fun f => if is f then { f with ev := none } else f } }
  found.foldl (fun s f => takeFlit s s.now { f with ev := none }) s
/-- HELD_FLIT_TIMEOUT: a flit held for 4096 cycles is given up, and with it its message (R249, R313). -/
def evHeldFlitTimeout (pkg port fid : Nat) (s : State) : State :=
  match (aget {} (pkgAt s pkg).ports port).held.find? fun h => h.2.fid = fid with
  | none => s
  | some (_, f) => loseEv (dropMessage s f.mid) f.from_ f.whole

/-! ### Resets (R314, R316) -/

/-- The cycle at which an announcement of a package's management tiles lands at a package. -/
def announcedAt (s : State) (from_ to_ : Nat) : Nat := s.now + flight s (svcN from_) (svcN to_)
/-- The management tiles announce a new incarnation to every package. -/
def announce (s : State) (about : Node) (inc : Nat) : State :=
  (allPkgs s).foldl (fun s p =>
    push s (announcedAt s about.pkg p) phLand (2 ^ 41 + p) (.incarnationAnnouncementLand p about inc)) s
/-- A unit of a tile that resets is gone; its launch has status 1 (DESIGN CHOICE, log 30). -/
def loseUnit (s : State) (r : SlotRef) (c : Ctx) : State :=
  let s := dropUnitWaits s (fun _ => true) r c.uid
  let s := (s.outs.filter fun o => o.slot = r && o.uid = c.uid).foldl (fun s o => performed s o.id) s
  if c.d.root then
    askJob (modJob s c.d.job fun j => { j with rootExited := if j.rootExited.contains r.pkg then j.rootExited else r.pkg :: j.rootExited })
      c.d.job
  else askLaunch (modLaunch s c.d.launch fun l => { l with live := l.live - 1, status := 1 }) c.d.launch
/-- What a tile has begun to send and not sent is lost. -/
def dropUnsent (s : State) (n : Node) : State :=
  let inj := (routerAt s n).inj
  let s := if inj = [] then s else modRouter s n fun r => { r with inj := [] }
  let s := { s with outbox := s.outbox.filter fun x => match x.2 with
    | .send m => m.from_ ≠ n
    | .cross _ _ _ => true }
  inj.foldl (fun s f => takeFlit s s.now { f with ev := none }) s
/-- A tile resets: its state is that of reset under a new incarnation; what is in its vault stays, with its errors, and so do the error
logs and the counts of messages and flits lost, which are no state of a unit (R314, R328, R349, R353; log 30). -/
def resetTile (s : State) (n : Node) : State :=
  let t := tileAt s n
  let s := (tileUnits t).foldl (fun s (i, c) =>
    loseUnit (if c.d.det then setVoid s c.d.launch 5 else s) ⟨n.pkg, n.id, i⟩ c) s
  let s := t.spawnQ.foldl (fun s e =>
    askLaunch (modLaunch s e.q.desc.launch fun l => { l with live := l.live - 1, status := 1 }) e.q.desc.launch) s
  let s := (t.copy ++ t.mx.cmds).foldl (fun s q => performed s q.id) s
  dropUnsent (setTile s n { Tile.reset with
    inc := (t.inc + 1) % 256, present := t.present, retiring := t.retiring, logs := t.logs, lostMsgs := t.lostMsgs
    stale := t.stale, defl := t.defl
    errs := t.errs.filter fun e => e.arr = 8 ∨ e.arr = 9 }) n
/-- TILE_RESET (R75, R189, R193, R205, R314). -/
def evTileReset (n : Node) (s : State) : State :=
  if !isTile n.id ∨ !hasPkg s n.pkg then s
  else
    let s := resetTile s n
    announce s n (tileAt s n).inc
/-- Security state after a package reset (R364). -/
def secAfterReset (p : Pkg) : SecSt := if p.rtvEntered then .rtv else if p.identity then .provisioned else .locked
/-- What a package keeps over a reset: what is fused or loaded, its links, and what the host reads. It takes work again from the cycle
given (R316). -/
def resetPkg (now rejoin : Nat) (p : Pkg) : Pkg :=
  { cycleBase := now, serial := p.serial, sec := secAfterReset p, identity := p.identity, rtvEntered := p.rtvEntered,
    mgmtLog := p.mgmtLog ++ [(6, now)], firmware := p.firmware, chain := p.chain, trained := p.trained, lanes := p.lanes,
    ports := p.ports, known := p.known, rejoin := rejoin, spares := p.spares }
/-- The flits within a package, at its ports and on the links to it. -/
def flitsIn (s : State) (pkg : Nat) : List Flit :=
  (s.routers.filter fun x => (nodeOfKey x.1).pkg = pkg).flatMap (fun (_, r) => r.arr.map (·.flit) ++ r.inj) ++
  (pkgAt s pkg).ports.flatMap (fun (_, x) => x.held.map (·.2)) ++
  s.outbox.filterMap fun (_, p) => match p with
    | .cross q port f => if q = pkg ∨ portPeer s q port = pkg then some f else none
    | .send _ => none
/-- What is within a package is lost; a message that was passing through, as by a link that goes down (R249). -/
def loseFlits (s : State) (pkg : Nat) : State :=
  let fl := (flitsIn s pkg).foldl (fun l f => if l.any fun g => g.mid = f.mid then l else f :: l) []
  fl.foldl (fun s f =>
    let s := dropMessage s f.mid
    if f.from_.pkg = pkg ∨ f.dst.pkg = pkg then s else loseEv s f.from_ f.whole) s
/-- PACKAGE_RESET (R6, R314, R316, R364): every tile resets, the dispatcher's tables are gone, and the package leaves the jobs
it took part in. -/
def evPackageReset (pkg : Nat) (s : State) : State :=
  if !hasPkg s pkg then s
  else
    let s := (List.range 2126).foldl (fun s i => resetTile s ⟨pkg, i⟩) (loseFlits s pkg)
    let jobs := s.jobs.filter fun j => j.started && !j.done
    let s := { s with
      jobs := s.jobs.map fun j => { j with
        pkgs := j.pkgs.filter fun p => p ≠ pkg, left := j.left.filter fun p => p ≠ pkg, phaseOpen := j.phaseOpen.filter fun p => p ≠ pkg,
        entered := j.entered.filter fun p => p ≠ pkg, accepted := j.accepted.filter fun p => p ≠ pkg }
      ctrls := s.ctrls.filter fun x => (nodeOfKey x.1).pkg ≠ pkg
      routers := s.routers.filter fun x => (nodeOfKey x.1).pkg ≠ pkg
      bar0 := s.bar0.filter fun x => x.1 / 2 ^ 46 ≠ pkg }
    let s := modPkg s pkg (resetPkg s.now (((allPkgs s).map (announcedAt s pkg)).foldl max s.now))
    let s := jobs.foldl (fun s j =>
      let s := askPhaseEnd (askJob s j.handle) j.handle
      match actingOf s j.handle with
      | some a => tryDecompose s a j.handle
      | none => s) s
    announce s (wholePkg pkg) 0

/-! ### Service of links (R366) -/

/-- Writes an event to the management log. -/
def noteService (s : State) (pkg code : Nat) : State := modPkg s pkg fun p => { p with mgmtLog := p.mgmtLog ++ [(code, cycleOf s pkg)] }
/-- Whether a live deterministic launch has a pinned route over a port. -/
def portPinned (s : State) (pkg port : Nat) : Bool :=
  s.pkgs.any fun (p, k) => k.launches.any fun l =>
    l.parity.isSome && !l.done && (routeLinks s p l.tiles l.routes).contains (nodeKey ⟨pkg, portDie port⟩ * 16 + 8 + port)
/-- PORT_RETRAIN: without effect on traffic; it waits for the launches whose pinned routes use the port (R366). -/
def evPortRetrain (pkg port : Nat) (s : State) : State :=
  let set (s : State) (b : Bool) : State := modPkg s pkg fun k => { k with ports := aset k.ports port { aget {} k.ports port with retrain := b } }
  if portPinned s pkg port then push (set s true) (s.now + 1) phStart (2 ^ 41 + port) (.portRetrain pkg port)
  else noteService (set s false) pkg 2

end Sys2Proof.Machine
end

