-- ==== Sys2Proof/Machine/Host.lean ====
section
/-! DEFINITION. The host link, jobs from their records to their end, the root of trust, security, power and service (R258,
R356 to R366). -/

namespace Sys2Proof.Machine

/-! ### The host's queues (R356, R357) -/

/-- Physical address of a host address on a package (R232). -/
def hostPa (pkg a : Nat) : Nat := pkg * 2 ^ 46 + 0x200000000000 + a
/-- Bytes of the host window (Table 1 of chapter 10). -/
def hostBytes : Nat := 0x3F0000000000 - 0x200000000000
/-- Physical address of an offset of BAR 0. -/
def barPa (pkg off : Nat) : Nat := pkg * 2 ^ 46 + 0x3F0000000000 + off
/-- A queue as its four words in BAR 0 say: base and size of the ring, base and size of the completion ring. The spec gives
BAR 0 no map. DESIGN CHOICE, log 7. -/
def queueRegs (s : State) (pkg k : Nat) (q : HostQueue) : HostQueue :=
  let word (o : Nat) : Nat := natOfBytes (cellsRead s.bar0 (barPa pkg (64 * k + o)) 8)
  { q with base := word 0, size := word 8, cbase := word 16, csize := word 24 }
/-- BAR0_REGISTER_WRITE (R232, R356). -/
def evBar0RegisterWrite (pkg off : Nat) (data : List Byte) (s : State) : State :=
  if !hasPkg s pkg ∨ 2 ^ 40 < off + data.length then s
  else
    let s := { s with bar0 := cellsWrite s.bar0 (barPa pkg off) data }
    let hit := (List.range 64).filter fun k => off < 64 * k + 64 ∧ 64 * k < off + data.length
    hit.foldl (fun s k => modPkg s pkg fun p => { p with queues := aset p.queues k (queueRegs s pkg k (aget {} p.queues k)) }) s
/-- HOST_LINK_TRAINING: the link has 16 or 8 lanes (R356). -/
def evHostLinkTraining (pkg lanes : Nat) (s : State) : State :=
  if lanes = 16 ∨ lanes = 8 then modPkg s pkg fun p => { p with trained := true, lanes := lanes } else s
/-- HOST_CXL_MEM_ACCESS: the host reads, or writes, far memory of the package through the one decoder (R356); an address of 2^40 or more
is one of the host's own memory, behind the package's host window, 2^40 lower (R232, R301; log 63). -/
def evHostCxlMemAccess (pkg addr : Nat) (write : Option (List Byte)) (s : State) : State :=
  match write with
  | none => s
  | some b =>
    if hasPkg s pkg ∧ 2 ^ 40 ≤ addr then
      if addr + b.length ≤ 2 ^ 40 + hostBytes then physWrite s (hostPa pkg (addr - 2 ^ 40)) b else s
    else if !hasPkg s pkg ∨ 768 * 2 ^ 30 < addr + b.length then s
    else
      let pa := pkg * 2 ^ 46 + 0x100000000000 + addr
      match memHome s pa with
      | some (n, _) => replaceUnits (physWrite s pa b) n 9 pa (pa + b.length)
      | none => s

/-! ### Security, debug and power (R364) -/

/-- Jobs that a package takes part in and that have not ended. -/
def liveJobs (s : State) (pkg : Nat) : List Job := s.jobs.filter fun j => !j.done && j.accepted.contains pkg
/-- Whether a combination of security and debug may be entered (Table 4). -/
def comboOk (sec : SecSt) (debug : Nat) (allDbg : Bool) : Bool :=
  match sec, debug with
  | _, 0 => true
  | .provisioned, 1 => true
  | .attested, 1 => true
  | .locked, 2 => true
  | .provisioned, 2 => allDbg
  | .rtv, 2 => true
  | _, _ => false
/-- Whether a combination accepts a record; one with ATT = 1 takes a provisioned package to the attested-job state, where that
may be entered (Table 4; DEDUCED, log 32). -/
def acceptsJob (sec : SecSt) (debug : Nat) (att dbgok : Bool) : Bool :=
  match sec with
  | .locked => false
  | .rtv => false
  | .attested => true
  | .provisioned => if debug = 2 then !att && dbgok else true
/-- Whether the tiles of an island have no tenant. -/
def islandFree (s : State) (pkg i : Nat) : Bool :=
  s.tiles.all fun (k, t) => (nodeOfKey k).pkg ≠ pkg || islandOf (nodeOfKey k).id ≠ some i || t.tenant.isNone
/-- What a tile loses with its rail, or as it leaves service: its contents are unspecified, and their errors are gone but for those of its
vault. Free values, log 5. -/
def darkTile (ctr : Nat) (t : Tile) : Tile :=
  { t with sp := freeCells ctr (2 ^ 20) [], spEmpty := [], tlb := [], mx := { cmds := t.mx.cmds, freeBase := some ctr }
           errs := t.errs.filter fun e => e.arr = 8
           xas := Vector.ofFn fun i => { XAcc.reset with n := Config.freeAcc (ctr + i.val) } }
/-- Sets the power state of an island. -/
def setPower (s : State) (pkg i : Nat) (st : PowerSt) : State :=
  let s := modPkg s pkg fun p => { p with islands := aset p.islands i { aget {} p.islands i with power := st } }
  if st ≠ .off then s
  else
    let ctr := s.freeCtr
    { s with
      freeCtr := ctr + 2 ^ 20
      tiles := s.tiles.map fun (k, t) =>
        (k, if (nodeOfKey k).pkg = pkg ∧ islandOf (nodeOfKey k).id = some i then darkTile ctr t else t) }
/-- The power state that a request names. -/
def powerOf : Nat → Option PowerSt
  | 0 => some .active
  | 1 => some .idle
  | 2 => some .off
  | _ => none
/-- Whether package-standby may be entered (Table 4). -/
def standbyOk (s : State) (pkg : Nat) (p : Pkg) : Bool :=
  p.debug = 0 && (match p.sec with
    | .locked => true
    | .rtv => true
    | .provisioned => (liveJobs s pkg).isEmpty
    | .attested => false) && (List.range 32).all (islandFree s pkg)
/-- Whether a debug request is granted (R364). -/
def debugOk (s : State) (pkg : Nat) (p : Pkg) (st : Nat) (job : Word) (tile : Option Nat) : Bool :=
  st ≤ 2 && comboOk p.sec st ((liveJobs s pkg).all fun j => j.r.dbgok) &&
  (st ≠ 1 || (liveJobs s pkg).any fun j => j.handle = job && j.r.dbgok) &&
  (match tile.bind islandOf with
    | some i => (aget {} p.islands i).power ≠ .off
    | none => true)
/-- A request as Table 4 has it; one that is refused changes nothing. -/
def applySec (s : State) (pkg : Nat) (r : SecReq) : State :=
  let p := pkgAt s pkg
  match r with
  | .provision => if p.sec = .locked ∧ comboOk .provisioned p.debug true then
      modPkg s pkg fun p => { p with sec := .provisioned, identity := true } else s
  | .returnToVendor => if (liveJobs s pkg).isEmpty ∧ comboOk .rtv p.debug true then
      modPkg s pkg fun p => { p with sec := .rtv, rtvEntered := true } else s
  | .debug st job tile => if debugOk s pkg p st job tile then modPkg s pkg fun p => { p with debug := st } else s
  | .power i st => match powerOf st with
    | none => s
    | some x => if 32 ≤ i ∨ p.standbyOn ∨ (x = .off ∧ !islandFree s pkg i) then s else setPower s pkg i x
  | .standby on =>
    if on then
      (if standbyOk s pkg p then
        modPkg ((List.range 32).foldl (fun s i => setPower s pkg i .off) s) pkg fun p => { p with standbyOn := true }
      else s)
    else if p.standbyOn then
      modPkg ((List.range 32).foldl (fun s i => setPower s pkg i .active) s) pkg fun p => { p with standbyOn := false }
    else s
/-- SECURITY_REQUEST: after any record taken in the same cycle (R364). -/
def evSecurityRequest (pkg : Nat) (r : SecReq) (s : State) : State :=
  let first : Bool := s.agenda.any fun d => d.at_ = s.now && (match d.ev with
    | .jobRecordAccept p _ => p = pkg
    | _ => false)
  if first then push s s.now phEnd (2 ^ 43) (.securityRequest pkg r) else applySec s pkg r

/-! ### Operating points (R365) -/

/-- The tile whose advancing cycles an event of the agenda counts (R9, R116, R222). -/
def countsAt : Ev → Option Node
  | .resultLanding r _ _ _ | .bindComplete r _ => some r.node
  | .waitLimitExpiry w | .semWaitTimeout w => some w.slot.node
  | .globalReplyLand w .done => some w.slot.node
  | .remoteBusyResend q => some q.who.slot.node
  | .supervisorMessageResend m => some m.src.node
  | .sfuServiceStart n | .arrayBeatStart n => some n
  | .sfuResultLand n _ | .engineCommandStart n _ => some n
  | .engineCommandComplete n _ _ | .matrixStepCommit n _ _ => some n
  | _ => none
/-- A cycle to come, laid out anew: as many advancing cycles ahead under the new held count as under the old one (R9, R116). -/
def relay (h h' base now t : Nat) : Nat := if t ≤ now then t else dueHeld h' base now (advCount h base now t)
/-- What is to come at an island whose held count changes comes as many of its advancing cycles ahead as before (R9, R116, R222). -/
def relayIsland (s : State) (pkg island h h' : Nat) : State :=
  let f := relay h h' (pkgAt s pkg).cycleBase s.now
  let on (n : Node) : Bool := n.pkg = pkg && islandOf n.id = some island
  let x := s.agenda.partition fun d => ((countsAt d.ev).map on).getD false
  { s with
    agenda := x.1.foldl (fun l d => dueInsert { d with at_ := f d.at_ } l) x.2
    tiles := s.tiles.map fun (k, t) => (k, if on (nodeOfKey k) then
      { t with
        xas := t.xas.map fun x => { x with busyUntil := f x.busyUntil }
        sfuFree := f t.sfuFree
        copy := t.copy.map fun q => { q with walkTill := q.walkTill.map f }
        mx := { t.mx with lastFed := f t.mx.lastFed } } else t) }
/-- Whether a deterministic launch has an island's point pinned. -/
def pinsIsland (pkg i : Nat) (s : State) (l : Launch) : Bool :=
  let _ := (pkg, s)
  l.d.det && l.placed && !l.done && l.tiles.any fun t => islandOf t = some i
/-- OPERATING_POINT_CHANGE: at a round boundary, and not while a deterministic launch pins the point, unless it is forced
(R365). The cycles still to pass are counted anew (R9). -/
def evOperatingPointChange (pkg island point : Nat) (forced : Bool) (s : State) : State :=
  if 32 ≤ island ∨ 8 ≤ point ∨ !hasPkg s pkg then s
  else
    let pinned := (pkgAt s pkg).launches.filter (pinsIsland pkg island s)
    let set (w : Option (Nat × Bool)) (s : State) : State :=
      modPkg s pkg fun p => { p with islands := aset p.islands island { aget {} p.islands island with want := w } }
    if cycleOf s pkg % 16 ≠ 0 ∨ (pinned ≠ [] ∧ !forced) then
      push (set (some (point, forced)) s) (s.now + (16 - cycleOf s pkg % 16)) phStart (2 ^ 41 + island)
        (.operatingPointChange pkg island point forced)
    else
      let s := pinned.foldl (fun s l => setVoid s (handleOf 0 pkg l.serial) 6) (set none s)
      let old := (aget {} (pkgAt s pkg).islands island).point
      modPkg (relayIsland s pkg island (2 * old) (2 * point)) pkg fun p =>
        { p with islands := aset p.islands island { aget {} p.islands island with point := point } }

/-! ### Job records (R258, R357 to R360) -/

/-- A job record of 256 bytes (Table 2). -/
def recordOf (b : List Byte) : JobRec :=
  let x (o : Nat) : Nat := descWord b o
  let w (o : Nat) : Word := BitVec.ofNat 64 (x o)
  { rootTile := bitField (x 0) 48 16
    stop := bitField (x 0) 7 1 = 1
    rmode := bitField (x 0) 5 2
    dbgok := bitField (x 0) 4 1 = 1
    att := bitField (x 0) 3 1 = 1
    pkgset := x 8
    entry := w 16
    handler := w 24
    args := [w 32, w 40, w 48, w 56]
    sectab := w 64
    nsec := bitField (x 72) 32 32
    waitlim := BitVec.ofNat 64 (bitField (x 72) 0 32)
    roots := w 80
    logva := w 88
    loglen := x 96
    replim := x 104
    nonce := [w 112, w 120, w 128, w 136]
    seed := w 144
    extva := w 152
    next := bitField (x 160) 0 32
    heapva := w 168 }
/-- Whether a reserved field is set, or a field is out of its range (DEDUCED, log 33). -/
def recordBad (b : List Byte) : Bool :=
  let r := recordOf b
  bitField (descWord b 0) 8 40 ≠ 0 || bitField (descWord b 0) 0 3 ≠ 0 || r.rmode = 3 || bitField (descWord b 160) 32 32 ≠ 0 ||
  ((List.range 10).any fun i => descWord b (176 + 8 * i) ≠ 0) || r.nsec < 1 || 256 < r.nsec || 65536 < r.next ||
  r.heapva.toNat % 2 ^ 48 ≠ 0 || 2 ^ 56 ≤ r.heapva.toNat
/-- The packages of a set. -/
def pkgList (x : Nat) : List Nat := (List.range 64).filter fun i => x / 2 ^ i % 2 = 1
/-- A section: host source, virtual address, length, and whether its last word has only the three permission bits. -/
structure Section where
  src : Nat
  va : Nat
  len : Nat
  ok : Bool
/-- The section table of a record as a package reads it. -/
def sectionsOf (s : State) (pkg : Nat) (r : JobRec) : List Section := (List.range r.nsec).map fun i =>
  let w (o : Nat) : Nat := physWord s (hostPa pkg (r.sectab.toNat + 32 * i + o))
  ⟨w 0, w 8, w 16, decide (w 24 < 8)⟩
/-- Pieces of a run of virtual addresses, one for each page at most: address and length. -/
def pagePieces : Nat → Nat → Nat → List (Nat × Nat)
  | 0, _, _ => []
  | fuel + 1, va, len =>
    if len = 0 then []
    else
      let k := min len (65536 - va % 65536)
      (va, k) :: pagePieces fuel (va + k) (len - k)
/-- Whether every byte of a section is translated. -/
def sectionOk (s : State) (pkg : Nat) (job : Word) (x : Section) : Bool :=
  x.ok && x.va + x.len ≤ 2 ^ 56 && (pagePieces (x.len / 65536 + 2) x.va x.len).all fun (a, _) => match walk s pkg job a with
    | .leaf _ _ => true
    | _ => false
/-- Copies a section to its virtual address (R358). -/
def copySection (s : State) (pkg : Nat) (job : Word) (x : Section) : State :=
  (pagePieces (x.len / 65536 + 2) x.va x.len).foldl (fun s (a, k) => match walk s pkg job a with
    | .leaf w bits => physWrite s (leafPa w bits a) (physRead s (hostPa pkg (x.src + (a - x.va))) k)
    | _ => s) s
/-- An entry of an extent table (Table 16): use, first frame, number of frames; none where V = 0. -/
structure Extent where
  heap : Bool
  base : Nat
  n : Nat
  bad : Bool
/-- Reads an entry. -/
def extentOf (b : List Byte) : Option Extent :=
  let x := natOfBytes (b.take 8)
  let y := natOfBytes ((b.drop 8).take 8)
  if x % 2 = 0 then none
  else some ⟨x / 2 % 2 = 1, bitField x 16 36 * 2 ^ 16, bitField y 0 32, x / 2 ^ 52 ≠ 0 || bitField x 2 14 ≠ 0 || y / 2 ^ 32 ≠ 0 || bitField y 0 32 = 0⟩
/-- The extent table of a record; none where it is not mapped with R. -/
def extentsOf (s : State) (pkg : Nat) (job : Word) (r : JobRec) : Option (List Extent) :=
  if r.next = 0 then some []
  else if r.extva.toNat % 16 ≠ 0 then none
  else match virtRead s ⟨pkg, 2096⟩ job 0 (16 * r.next / 4096 + 4) r.extva.toNat (16 * r.next) with
    | .ok b => some ((splitRuns (List.replicate r.next 16) b).filterMap extentOf)
    | .error _ => none
/-- The allocator in whose memory frames lie: of one tile's vault, or of one package's far memory, of a package of the job. -/
def extentHome (s : State) (pkgs : List Nat) (e : Extent) : Option Node :=
  let last := e.base + e.n * 65536 - 1
  match memHome s e.base, memHome s last with
  | some (a, .vault), some (b, .vault) => if a = b ∧ pkgs.contains a.pkg then some a else none
  | some (a, .far), some (b, .far) => if a.pkg = b.pkg ∧ pkgs.contains a.pkg then some (svcN a.pkg) else none
  | _, _ => none
/-- Whether an extent table is in order (R258). -/
def extentsOk (s : State) (pkgs : List Nat) (es : List Extent) : Bool :=
  es.all (fun e => !e.bad && (extentHome s pkgs e).isSome) &&
  es.zipIdx.all fun (e, i) => (es.take i).all fun f => f.base + f.n * 65536 ≤ e.base || e.base + e.n * 65536 ≤ f.base
/-- Why a package refuses a record, with the job as it would be (Table 3). -/
def refusal (s : State) (pkg : Nat) (b : List Byte) (j : Job) : Nat :=
  let r := j.r
  let p := pkgAt s pkg
  if recordBad b then 1
  else if !(pkgList r.pkgset).all (hasPkg s) ∨ !(pkgList r.pkgset).contains pkg then 2
  else if 2095 < r.rootTile ∨ !(tileAt s ⟨pkg, r.rootTile⟩).present then 3
  else if !(sectionsOf s pkg r).all (sectionOk s pkg j.handle) then 4
  else if !acceptsJob p.sec p.debug r.att r.dbgok then 5
  else match extentsOf s pkg j.handle r with
    | none => 6
    | some es => if extentsOk s (pkgList r.pkgset) es then 0 else 6
/-- Writes a completion record (Table 3); it goes to the completion queue of the queue the record came from. -/
def writeCompletion (s : State) (pkg : Nat) (j : Job) (status reason : Nat) : State :=
  let k := aget 0 j.queueOf pkg
  let q := aget {} (pkgAt s pkg).queues k
  if q.csize = 0 then s
  else
    let b := bytesOfNat 8 j.handle.toNat ++ bytesOfNat 8 (status * 2 ^ 56 + reason * 2 ^ 48) ++ bytesOfNat 8 (cycleOf s pkg) ++
      bytesOfNat 8 (aget 0 j.supmsg pkg * 2 ^ 32)
    let s := physWrite s (q.cbase + 32 * (q.chead % q.csize)) b
    modPkg s pkg fun p => { p with queues := aset p.queues k { q with chead := (q.chead + 1) % q.csize } }
/-- The lowest key index that no live job has. -/
def freeKey (s : State) : Option Nat := (List.range 1024).find? fun k => s.jobs.all fun j => j.done || j.key ≠ k
/-- The handle of the next job. -/
def nextJob (s : State) : Word := handleOf 3 0 (s.jobs.length + 1)
/-- The root tables that a record names, as a package reads them. -/
def rootsOf (s : State) (pkg : Nat) (r : JobRec) : List Nat :=
  (List.range 64).map fun i => physWord s (hostPa pkg (r.roots.toNat + 8 * i))
/-- Measurement of an attested job (R362). -/
def jobMeasure (s : State) (pkg : Nat) (b : List Byte) (r : JobRec) : List Byte :=
  let m := ((pkgAt s pkg).chain.getLast?).getD (shake256 64 Config.romDigest)
  shake256 64 (m ++ b ++ (sectionsOf s pkg r).flatMap fun x => shake256 64 (physRead s (hostPa pkg x.src) x.len))
/-- Gives the allocators of a package the heap extents of a job (R258). -/
def giveExtents (s : State) (j : Job) (pkg : Nat) : State :=
  let es := (extentsOf s pkg j.handle j.r).getD []
  es.foldl (fun s e => match extentHome s j.pkgs e with
    | some n => if e.heap && n.pkg = pkg then modAlloc s n fun al => { al with frames := al.frames ++ [(j.handle, e.base, e.n)] } else s
    | none => s) s
/-- A job that every package has accepted starts: sections are copied, allocators filled, exchange begins, and root units are
to be bound (R317, R358). -/
def startJob (s : State) (job : Word) : State :=
  match jobAt s job with
  | none => s
  | some j =>
    let s := j.pkgs.foldl (fun s p => (sectionsOf s p j.r).foldl (fun s x => copySection s p job x) s) s
    let s := j.pkgs.foldl (fun s p => giveExtents s j p) s
    let s := modJob s job fun j => { j with started := true, phaseOpen := j.pkgs, began := s.now }
    let s := startExchange s j
    j.pkgs.foldl (fun s p => push s s.now phEnd (2 ^ 40 + p) (.rootUnitBind p job)) s
/-- A package refuses a record: nothing of the job starts on any package (R359). -/
def refuseJob (s : State) (job : Word) (reason : Nat) : State :=
  match jobAt s job with
  | none => s
  | some j =>
    let s := modJob s job fun j => { j with done := true, status := 2, reason := reason }
    j.accepted.foldl (fun s p => writeCompletion s p j 2 reason) s
/-- The head of a queue is taken. -/
def popQueue (s : State) (pkg k : Nat) : State :=
  let s := modPkg s pkg fun p => let q := aget {} p.queues k; { p with queues := aset p.queues k { q with head := (q.head + 1) % max 1 q.size } }
  push s s.now phEnd k (.jobRecordAccept pkg k)
/-- The slot for a root unit is free (R72, R212, R360). -/
def rootSlotFree (s : State) (pkg tile : Nat) (job : Word) : Bool :=
  slotFree (slotAt s ⟨pkg, tile, 0⟩) && tileTakes (tileAt s ⟨pkg, tile⟩) job
/-- The job of a record that other packages have taken, and the state that has it; or a new one. None while no key index is to
be had. -/
def jobFor (s : State) (pkg : Nat) (b : List Byte) (r : JobRec) : Option (State × Job) :=
  match s.jobs.find? fun j => j.r = r ∧ !j.started ∧ !j.accepted.contains pkg ∧ (!j.done ∨ j.reason ≠ 0) ∧ j.pkgs.contains pkg with
  | some j => some (s, j)
  | none => (freeKey s).map fun k =>
    let j : Job :=
      { handle := nextJob s, r := r, key := k, pkgs := (pkgList r.pkgset).filter (hasPkg s), rootTables := rootsOf s pkg r
        digest := if r.att then jobMeasure s pkg b r else [] }
    ({ s with jobs := s.jobs ++ [j] }, j)
/-- JOB_RECORD_ACCEPT: the record at the head of a queue is taken, refused, or waits (R357 to R360). -/
def evJobRecordAccept (pkg queue : Nat) (s : State) : State :=
  let q := aget {} (pkgAt s pkg).queues queue
  if q.size = 0 ∨ q.head % q.size = q.tail % q.size then s
  else
    let b := physRead s (q.base + 256 * (q.head % q.size)) 256
    let r := recordOf b
    let again := pushOnce s (s.now + 1) phEnd queue (.jobRecordAccept pkg queue)
    match jobFor s pkg b r with
    | none => again
    | some (s', j) =>
      let s' := modJob s' j.handle fun j => { j with rootTables := j.rootTables.set pkg ((rootsOf s pkg r).getD pkg 0) }
      let take (s : State) : State := popQueue (modJob s j.handle fun j =>
        { j with accepted := j.accepted ++ [pkg], queueOf := aset j.queueOf pkg queue }) pkg queue
      let why := if j.reason ≠ 0 then j.reason else refusal s' pkg b j
      if j.reason ≠ 0 then
        let s' := take s'
        match jobAt s' j.handle with
        | some j => writeCompletion s' pkg j 2 why
        | none => s'
      else if why ≠ 0 then refuseJob (take s') j.handle why
      else if !rootSlotFree s pkg r.rootTile j.handle then again
      else
        let s' := take s'
        let s' := if r.att then modPkg s' pkg fun p => { p with sec := .attested } else s'
        match jobAt s' j.handle with
        | some j => if j.pkgs.all j.accepted.contains then startJob s' j.handle else s'
        | none => s'
/-- SUBMISSION_TAIL_WRITE: records up to the tail are there to be taken (R301, R357); those placed before a package that has reset is
part of the domain again are never taken (R316; log 62). -/
def evSubmissionTailWrite (pkg queue tail : Nat) (s : State) : State :=
  if 64 ≤ queue ∨ !hasPkg s pkg then s
  else if s.now < (pkgAt s pkg).rejoin then
    modPkg s pkg fun p => { p with queues := aset p.queues queue { aget {} p.queues queue with head := tail, tail := tail } }
  else pushOnce (modPkg s pkg fun p => { p with queues := aset p.queues queue { aget {} p.queues queue with tail := tail } })
    s.now phEnd queue (.jobRecordAccept pkg queue)
/-- The root unit of a package (R359, R360). -/
def rootDesc (j : Job) : UnitDesc where
  entry := j.r.entry
  handler := j.r.handler
  args := j.r.args
  unitix := 0
  launch := 0
  job := j.handle
  waitlim := j.r.waitlim
  seedL := j.r.seed
  prio := 3
  pre := false
  det := false
  s0 := 0
  supTile := 2096
  supSlot := 0
  root := true
  origin := none
/-- ROOT_UNIT_BIND: in slot 0 of ROOTTILE, once it is free (R360). -/
def evRootUnitBind (pkg : Nat) (job : Word) (s : State) : State :=
  match jobAt s job with
  | none => s
  | some j =>
    if j.done ∨ j.ending ∨ !j.started then s
    else if rootSlotFree s pkg j.r.rootTile job then bindUnit s ⟨pkg, j.r.rootTile, 0⟩ (rootDesc j) 0
    else push s (s.now + 1) phEnd (2 ^ 40 + pkg) (.rootUnitBind pkg job)

/-! ### The end of a job (R361) -/

/-- The root unit of a job on a package is bound there. -/
def rootBound (s : State) (j : Job) (pkg : Nat) : Bool :=
  (slotUnits (slotAt s ⟨pkg, j.r.rootTile, 0⟩)).any fun c => c.d.root && c.d.job = j.handle
/-- Step 1: what remains is cancelled. -/
def stopJob (s : State) (j : Job) : State :=
  let s := j.pkgs.foldl (fun s p => (graphsOf s p j.handle).foldl (fun s g => cancelGraph s p g.serial) s) s
  let s := j.pkgs.foldl (fun s p =>
    let s := if rootBound s j p then s
      else modJob s j.handle fun j => { j with rootExited := if j.rootExited.contains p then j.rootExited else p :: j.rootExited }
    cancelCmds (cancelUnits s p fun d => d.root && d.job = j.handle) p fun q => q.job = j.handle && q.launch = 0 && !q.refused) s
  s
/-- Whether something of a job is still under way (step 2). -/
def jobBusy (s : State) (job : Word) : Bool :=
  s.outs.any (fun o => o.job = job) ||
  s.pkgs.any (fun (_, p) => p.launches.any fun l => l.job = job && !l.done) ||
  ((jobAt s job).map fun j => !j.pkgs.all j.rootExited.contains || j.pkgs.any fun p => aget 0 j.fwSent p ≠ 0).getD false
/-- A package after a job: nothing of it is left. -/
def forgetJob (job : Word) (p : Pkg) : Pkg :=
  { p with
    launches := p.launches.filter fun l => l.job ≠ job
    graphs := p.graphs.filter fun g => g.job ≠ job
    outcomes := p.outcomes.filter fun o => o.job ≠ job
    waits := p.waits.filter fun w => w.q.job ≠ job
    dieTlb := p.dieTlb.map fun (d, l) => (d, l.filter fun e => e.job ≠ job)
    allocs := p.allocs.map fun (i, al) => (i, { al with
      frames := al.frames.filter fun x => x.1 ≠ job, tables := al.tables.filter fun x => x.1 ≠ job
      pages := al.pages.filter fun x => x.1 ≠ job, heaps := al.heaps.filter fun h => h.job ≠ job })
    segs := p.segs.filter fun x => x.1 / 4096 ≠ job.toNat % 2 ^ 32 }
/-- Entries of a table that are not 0: their places, within so many bytes. -/
def tableEntries (s : State) (tbl bytes : Nat) : List Nat :=
  ((s.mem.filter fun x => tbl ≤ x.1 ∧ x.1 < tbl + bytes).map fun x => tbl + (x.1 - tbl) / 8 * 8).eraseDups
/-- The leaves in a table: base and size in bits. -/
def leavesIn (s : State) (key tbl bytes bits : Nat) : List (Nat × Nat) := (tableEntries s tbl bytes).filterMap fun e =>
  let w := physWord s e
  if pteKind w = 4 then (match checkLeaf s key w bits with
    | .leaf _ _ => some (pteAddr w, bits)
    | _ => none) else none
/-- The leaves below a table of a job's tree: base and size in bits (R234, R235). -/
def leavesBelow (s : State) (key : Nat) : Nat → Nat → List (Nat × Nat)
  | 0, tbl => leavesIn s key tbl 8192 16
  | n + 1, tbl => (tableEntries s tbl 8192).flatMap fun e =>
    let w := physWord s e
    if pteRsv w then []
    else if pteKind w = 1 ∧ pteAddr w % 8192 = 0 then leavesBelow s key n (pteAddr w)
    else if pteKind w = 3 ∧ n = 1 then leavesIn s key (pteAddr w) 512 30
    else if pteKind w = 2 ∧ n = 0 then leavesIn s key (pteAddr w) 256 21
    else []
/-- The key of a job is destroyed: what its frames hold in vaults and far memory nobody can read any more. Free values (R119,
R361, R363, log 5). -/
def dropKey (s : State) (j : Job) : State :=
  let leaves := (j.pkgs.map fun p => j.rootTables.getD p 0).eraseDups.flatMap fun r => leavesBelow s j.key 3 r
  let hit (a : Nat) : Bool := a % 2 ^ 46 < 0x200000000000 && leaves.any fun l => l.1 ≤ a && a < l.1 + 2 ^ l.2
  { s with mem := unknownBytes hit s.freeCtr s.mem, freeCtr := s.freeCtr + s.mem.length }
/-- Steps 3 to 5: translations, key, exchange and tables of the job are gone; each package writes its completion record, and
leaves the attested-job state with its last attested job. -/
def finishJob (s : State) (j : Job) : State :=
  let s := s.pkgs.foldl (fun s x => match exchAt s x.1 j.handle with
    | some e => e.subs.foldl (fun s i => freeEp s ⟨x.1, 2096, i⟩) s
    | none => s) s
  let s := endExchange s j.handle
  let s := { s with
    tiles := s.tiles.map fun (k, t) => (k, { t with tlb := t.tlb.filter fun e => e.job ≠ j.handle })
    pkgs := s.pkgs.map fun (i, p) => (i, forgetJob j.handle p) }
  let s := modJob (dropKey s j) j.handle fun j => { j with done := true }
  j.pkgs.foldl (fun s p =>
    let s := writeCompletion s p j j.status 0
    if (pkgAt s p).sec = .attested ∧ !(liveJobs s p).any (fun x => x.r.att) then
      modPkg s p fun k => { k with sec := .provisioned }
    else s) s
/-- JOB_END (R361). -/
def evJobEnd (job : Word) (s : State) : State :=
  match jobAt s job with
  | none => s
  | some j =>
    if j.done ∨ (!j.ending ∧ !(j.started ∧ j.pkgs.all j.rootExited.contains)) then s
    else
      let s := if j.ending then s else modJob s job fun j => { j with ending := true }
      let s := stopJob s j
      if jobBusy s job then s
      else match jobAt s job with
        | some j => finishJob s j
        | none => s
/-- HOST_CANCEL_WRITE: the cancel register of BAR 0 (R361). -/
def evHostCancelWrite (pkg : Nat) (handle : Word) (s : State) : State :=
  push s s.now phEnd (2 ^ 42) (.cancelApply pkg ⟨handle, .job, handle.toNat % 2 ^ 32⟩)

/-! ### Root of trust and service (R362, R366) -/

/-- The load order of firmware. -/
def firmwareOrder : List Firmware := [.management, .dispatcher, .arbiter, .linkCalibration]
/-- The measurement chain of a set of images (R362). -/
def measure (l : List (Firmware × Nat × List Byte)) : List (List Byte) :=
  let ds := firmwareOrder.filterMap fun f => (l.find? fun x => x.1 = f).map (·.2.2)
  ds.foldl (fun ms d => ms ++ [shake256 64 (ms.getLastD [] ++ d)]) [shake256 64 Config.romDigest]
/-- Jobs whose arbiter a package runs. -/
def arbiterJobs (s : State) (pkg : Nat) : List Arbiter := (pkgAt s pkg).arbs.filter fun a => a.acting && a.other ≠ pkg
/-- FIRMWARE_IMAGE_LOAD: verified against the vendor key and the fused minimum; a refused image leaves the one that runs. It
takes effect at a round boundary; meanwhile standbys answer (R327, R362, R366). -/
def evFirmwareImageLoad (pkg : Nat) (comp : Firmware) (image sig : List Byte) (version : Nat) (s : State) : State :=
  if !Config.sigVerifies (shake256 64 image) sig ∨ version < Config.fusedMinimum then noteService s pkg 7
  else if cycleOf s pkg % 16 ≠ 0 then
    push s (s.now + (16 - cycleOf s pkg % 16)) phStart (2 ^ 41) (.firmwareImageLoad pkg comp image sig version)
  else
    let s := modPkg s pkg fun p =>
      let l := (comp, version, shake256 64 image) :: p.firmware.filter fun x => x.1 ≠ comp
      { p with firmware := l, chain := measure l }
    let s := if comp = .arbiter then (arbiterJobs s pkg).foldl (fun s a => takeOver s a.other a.job) s else s
    noteService s pkg 1
/-- The attestation report of a job: measurement, chain, nonce and DBGOK, signed (R362). -/
def attestReport (s : State) (pkg : Nat) (j : Job) : List Byte :=
  let body := j.digest ++ (pkgAt s pkg).chain.flatten ++ j.r.nonce.flatMap (fun w => bytesOfNat 8 w.toNat) ++ bytesOfNat 1 j.r.dbgok.toNat
  body ++ Config.identitySign body
/-- SPDM_MESSAGE: the responder's answer, which may carry the reports of attested jobs (R356, R362). Free value, log 17. -/
def evSpdmMessage (pkg : Nat) (msg : List Byte) (s : State) : State :=
  let reports := ((liveJobs s pkg).filter fun j => j.r.att).flatMap (attestReport s pkg)
  modPkg s pkg fun p => { p with spdm := p.spdm ++ [Config.spdmAnswer (msg ++ reports)] }
/-- The die and row of a tile, as the number of its spare. -/
def spareOf (id : Nat) : Nat := dieOf id * 32 + tileY id
/-- TILE_RETIRE: a tile without tenant goes to the spare of its row, which takes its id and the contents of its vault; where
that spare is taken already, it is absent from then on (R6, R366). -/
def evTileRetire (n : Node) (s : State) : State :=
  let t := tileAt s n
  if !isCompute n.id ∨ !hasPkg s n.pkg ∨ !t.present then s
  else if t.tenant.isSome then
    push (modTile s n fun t => { t with retiring := true }) (s.now + (16 - cycleOf s n.pkg % 16)) phEnd (2 ^ 41 + nodeKey n) (.tileRetire n)
  else if ahas (pkgAt s n.pkg).spares (spareOf n.id) then
    noteService (modTile s n fun t => { t with present := false, retiring := false }) n.pkg 4
  else
    let s := modPkg s n.pkg fun p => { p with spares := aset p.spares (spareOf n.id) n.id }
    let ctr := s.freeCtr
    let s := modTile { s with freeCtr := ctr + 2 ^ 20 } n fun t => darkTile ctr { t with retiring := false }
    noteService s n.pkg 3
/-- VAULT_ROW_COPY: inside a refresh window; without effect on programs (R332, R366). -/
def evVaultRowCopy (n : Node) (row : Nat) (s : State) : State :=
  if !isCompute n.id then s
  else if 160 ≤ refreshPhase s n then push s (s.now + (2048 - refreshPhase s n)) phStart (nodeKey n) (.vaultRowCopy n row)
  else noteService s n.pkg 5

end Sys2Proof.Machine
end

