-- ==== Sys2Proof/Machine/Records.lean ====
section
/-! DEFINITION. The forms of determinism and of the record log, and of the error logs (R339, R351 to R355). -/

namespace Sys2Proof.Machine

/-! ### Determinism and the record log (R339) -/

/-- Whether a slot records or replays marks: the job does, and its launch is not deterministic (R336, R339). -/
def marksCount (s : State) (c : Ctx) : Bool :=
  !c.d.det && ((jobAt s c.d.job).map fun j => !recOff j).getD false
/-- REC.MARK (R339). -/
def execRecMark (h : Hdr) (a : SIx) : State → Outc :=
  runForm { i := .recMark h a, h := h, srcs := [.s a] } fun s r c =>
    if 2 ^ 48 ≤ (rs c a).toNat then .trap fOperand 0 0
    else if !marksCount s c then .done s
    else svcAct s r c r.node (recNo c) (.recMark (rs c a)) 0 .recordSegmentRequest
/-- The place of a segment (R336). -/
def segNode (pkg seg : Nat) : Node := if seg < 2048 then ⟨pkg, seg⟩ else ⟨pkg, 2100 + (seg - 2048)⟩
/-- Whether a slot holds a supervisor of a launch of a job. -/
def supervisesJob (s : State) (r : SlotRef) (job : Word) : Bool :=
  (pkgAt s r.pkg).launches.any fun l => l.job = job && !l.done && l.d.supT = r.tile && l.d.supS = r.slot
/-- REC.MARK.drain (R339). -/
def execRecMarkDrain (h : Hdr) (a : SIx) : State → Outc :=
  runForm { i := .recMarkDrain h a, h := h, srcs := [.s a] } fun s r c =>
    let seg := (rs c a).toNat
    if 2072 ≤ seg ∨ (!c.d.root ∧ !supervisesJob s r c.d.job) then .trap fOperand 0 0
    else svcAct s r c (segNode r.pkg seg) none (.recDrain seg) 0 .recordSegmentRequest
/-- RECORD_SEGMENT_REQUEST: a mark is taken in its turn and reaches its recording point, and is presented again while it is held there; or
a segment is emptied (R337 to R339, R397). -/
def evRecordSegmentRequest (q : SvcReq) (s : State) : State :=
  match q.kind with
  | .recMark v =>
    if (svcCtx s q).isNone then s
    else
      let q' := { q with turn := true }
      serveTurn s q.turn (peerKey q.peer 9) (slotKey q.who.slot) (.recordSegmentRequest q') fun s =>
        let g := recPoint s q.peer q.who q.job q.recSeq 6 0 v.toNat
        if g.1 then svcReply g.2 q (dueFrom s q.peer s.now 16) (svcVal 0)
        else push g.2 (s.now + 1) phLand (slotKey q.who.slot) (.recordSegmentRequest q')
  | .recDrain seg =>
    let n := (segAt s q.peer.pkg q.job seg).entries.length
    svcServe s q 9 (16 + n / 64) .recordSegmentRequest fun s =>
      (setSeg s q.peer.pkg q.job seg { loaded := (segAt s q.peer.pkg q.job seg).loaded }, svcVal 0)
  | _ => s
/-- The segment of a tile as its counts see it: in replay, its entries are those of the log. -/
def segNow (s : State) (j : Job) (n : Node) (i : Nat) : Segment :=
  let g := segAt s n.pkg j.handle i
  if j.r.rmode = 2 ∧ !g.loaded then { g with loaded := true, entries := readEntries s j n i (segSize j) 0 } else g
/-- Entries that a segment holds: those consumed in replay are gone (R338). -/
def segCount (s : State) (j : Job) (n : Node) : Nat :=
  match segIx n with
  | some i => if j.r.rmode = 0 then 0 else (segNow s j n i).entries.length - (segNow s j n i).pos
  | none => 0
/-- The value of REC.STAT. -/
def recWord (s : State) (j : Job) (n : Node) : RecW → Nat
  | .state =>
    let size := if (segIx n).isSome then segSize j else 0
    j.r.rmode + j.r.stop.toNat * 4 + j.recEnded.toNat * 8 +
      (decide (j.r.rmode ≠ 0 ∧ (segIx n).isSome ∧ size ≤ segCount s j n)).toNat * 16 + segSize j * 2 ^ 32
  | .count => segCount s j n
  | .free => if (segIx n).isSome then segSize j - segCount s j n else 0
/-- REC.STAT (R339). -/
def execRecStat (h : Hdr) (w : RecW) (d : SIx) : State → Outc :=
  runForm { i := .recStat h w d, h := h, dsts := [.s d] } fun s r c =>
    results s r c [] 3 [(.s d, BitVec.ofNat 2048 (((jobAt s c.d.job).map fun j => recWord s j r.node w).getD 0))]
/-- DET.CYCLE (R339). -/
def execDetCycle (h : Hdr) (vd : Bool) (d : SIx) : State → Outc :=
  runForm { i := .detCycle h vd d, h := h, dsts := [.s d] } fun s r c =>
    if vd then
      results s r c [] 3 [(.s d, sval (if c.d.det then ((launchAt s c.d.launch).map (·.void)).getD 0 else 0))]
    else if !c.d.det then .trap fOperand 0 0
    else results s r c [] 3 [(.s d, sval (BitVec.ofNat 64 (cycleOf s r.pkg) - BitVec.ofNat 64 c.d.s0))]

/-! ### Error logs (R353 to R355) -/

/-- Whether a tile has an array (R354). -/
def hasArray (id arr : Nat) : Bool :=
  if isCompute id then arr ≤ 8
  else if isSpout id then arr ≤ 7 && arr ≠ 3
  else arr = 0 || arr = 1 || arr = 5 || arr = 7
/-- The place, the array and the entry that a selector names; none where it is refused (R354). -/
def selector (pkg : Nat) (x : Word) : Option (Node × Nat × Nat) :=
  let v := x.toNat
  let t := v / 2 ^ 16 % 2 ^ 12
  let arr := v / 2 ^ 8 % 16
  if 2 ^ 28 ≤ v ∨ v / 2 ^ 12 % 16 ≠ 0 ∨ v / 2 ^ 4 % 16 ≠ 0 then none
  else if arr = 9 then (if t < 24 then some (farNode pkg t, arr, v % 16) else none)
  else if isTile t ∧ hasArray t arr then some (⟨pkg, t⟩, arr, v % 16) else none
/-- A word of an entry (Table 7). -/
def entryWord (e : LogEntry) (w : Nat) : Nat :=
  match w with
  | 0 => 2 ^ 63 + e.ue.toNat * 2 ^ 62 + e.arr * 2 ^ 56 + e.addr % 2 ^ 52
  | 1 => e.job * 2 ^ 32 + e.spawned.toNat * 2 ^ 31 + e.unitNo
  | _ => e.cycle * 2 ^ 32 + e.rept * 2 ^ 16 + e.synd
/-- A count for one job, or for all. -/
def countFor (l : List (Word × Nat)) : Option Word → Nat
  | some j => ((l.filter fun x => x.1 = j).map (·.2)).sum
  | none => (l.map (·.2)).sum
/-- What ELOG reads (R354); a job is given outside system mode. -/
def elogWord (t : Tile) (arr entry w : Nat) (job : Option Word) : Nat :=
  let g := aget {} t.logs arr
  if w = 3 then
    min (2 ^ 32 - 1) (countFor g.corrected job) * 2 ^ 32 + min (2 ^ 16 - 1) (countFor g.uncorrected job) * 2 ^ 16 +
      min (2 ^ 16 - 1) (countFor g.lost job + countFor t.lostMsgs job)
  else match g.entries.find? fun x => x.1 = entry with
    | none => 0
    | some (_, e) => match job with
      | some j => if e.job = j.toNat % 2 ^ 32 then entryWord e w else 0
      | none => entryWord e w
/-- What CLR clears. -/
def elogClear (t : Tile) (arr entry w : Nat) : Tile :=
  let g := aget {} t.logs arr
  if w = 3 then { t with logs := aset t.logs arr { g with corrected := [], uncorrected := [], lost := [] }, lostMsgs := [] }
  else { t with logs := aset t.logs arr { g with entries := aerase g.entries entry } }
/-- The job that a slot's reads of logs are confined to. -/
def logScope (sys : Bool) (job : Word) : Option Word := if sys then none else some job
/-- ELOG (R354). -/
def execElog (h : Hdr) (w : BitVec 2) (clr : Bool) (d a : SIx) : State → Outc :=
  runForm { i := .elog h w clr d a, h := h, srcs := [.s a], dsts := [.s d] } fun s r c =>
    match selector r.pkg (rs c a) with
    | none => .trap fOperand 0 0
    | some (n, arr, e) =>
      if clr && !systemMode r then .trap fOperand 0 0
      else if n = r.node then
        let x := elogWord (tileAt s n) arr e w.toNat (logScope (systemMode r) c.d.job)
        let s := if clr then modTile s n fun t => elogClear t arr e w.toNat else s
        results s r c [.s a] 3 [(.s d, BitVec.ofNat 2048 x)]
      else svcAct s r c n none (.elog arr e w.toNat clr (arr = 9)) 0 .errorLogRequest
/-- Whether a kind of injected error can be corrected in an array (R351, R355). The two bits of kind 1 lie in one symbol of a
vault or far-memory sector (DEDUCED, log 25). -/
def injectUe (arr : Nat) : EinjK → Bool
  | .bit0 => false
  | .bits01 => arr < 8
  | .symbol => arr < 8
/-- Plants an error; the same correctable bit flipped twice is as it was. -/
def plant (t : Tile) (e : ErrSite) : Tile :=
  match t.errs.find? fun x => x.arr = e.arr ∧ x.addr = e.addr ∧ !x.ue ∧ !e.ue with
  | some x => { t with errs := t.errs.erase x }
  | none => { t with errs := t.errs ++ [e] }
/-- EINJ outside system mode faults whatever its guard (step 5 of R44); in it, the slot parks for the array's answer (R355). -/
def execEinj (h : Hdr) (kind : EinjK) (a b : SIx) (s : State) : Outc :=
  if (slotAt s s.cur).ph = .bound ∧ !systemMode s.cur then .next (takeFault s s.cur (ctxAt s s.cur).uid fPrivilege 0 0)
  else
    runForm { i := .einj h kind a b, h := h, srcs := [.s a, .s b] } (fun s r c =>
      match selector r.pkg (rs c a) with
      | none => .trap fOperand 0 0
      | some (n, arr, _) =>
        if 2 ^ 52 ≤ (rs c b).toNat then .trap fOperand 0 0
        else svcAct s r c n none (.einj arr kind (rs c b).toNat (arr = 9)) 0 .errorLogRequest) s
/-- ERROR_LOG_REQUEST (R354, R355, R397). -/
def evErrorLogRequest (q : SvcReq) (s : State) : State :=
  match q.kind with
  | .elog arr e w clr _ => svcServe s q 8 16 .errorLogRequest fun s =>
      let x := elogWord (tileAt s q.peer) arr e w (logScope q.system q.job)
      (if clr then modTile s q.peer fun t => elogClear t arr e w else s, svcVal x)
  | .einj arr kind addr _ => svcServe s q 8 16 .errorLogRequest fun s =>
      (modTile (stepFree s) q.peer fun t => plant t ⟨q.peer, arr, addr, injectUe arr kind, Config.freeSyndrome s.freeCtr⟩, svcVal 0)
  | _ => s
/-- SOFT_ERROR: an error strikes a stored code word (R351). -/
def evSoftError (e : ErrSite) (s : State) : State := modTile s e.node fun t => { t with errs := t.errs ++ [e] }

end Sys2Proof.Machine
end

