-- ==== Sys2Proof/Machine/Special.lean ====
section
/-! DEFINITION. The special functions 2^x, log2 x, 1/x, 1/sqrt x, sin(pi x), cos(pi x) and tanh x (R145).
Each value is computed in fixed point with at least 256 bits beyond its leading bit and then rounded once: the
correctly rounded result, but for a real value within 2^-256 of a rounding boundary. DEDUCED, log 9. -/

namespace Sys2Proof.Machine

/-- sum of x^i / i! in fixed point 2^prec, from the term given, while terms are left. -/
def expSeries (prec x : Nat) : Nat → Nat → Nat → Nat → Nat
  | 0, _, _, acc => acc
  | fuel + 1, i, term, acc =>
    if term = 0 then acc else expSeries prec x fuel (i + 1) (term * x / 2 ^ prec / (i + 1)) (acc + term)

/-- e^x - 1 in fixed point for 0 <= x < 1. -/
def expm1Fix (prec x : Nat) : Nat := expSeries prec x 1000 1 x 0

/-- sin x in fixed point: the alternating series, evaluated with its sign carried. -/
def sinTerms (prec x2 : Nat) : Nat → Nat → Nat → Int
  | 0, _, _ => 0
  | fuel + 1, i, term =>
    if term = 0 then 0 else (term : Int) - sinTerms prec x2 fuel (i + 2) (term * x2 / 2 ^ prec / (i + 1) / (i + 2))

/-- sin x in fixed point for 0 <= x <= 2. -/
def sinFix (prec x : Nat) : Nat := (sinTerms prec (x * x / 2 ^ prec) 600 1 x).toNat
/-- cos x in fixed point for 0 <= x <= 1. -/
def cosFix (prec x : Nat) : Nat := (sinTerms prec (x * x / 2 ^ prec) 600 0 (2 ^ prec)).toNat

/-- sum of z^(2i+1) / (2i+1), terms given as powers. -/
def atanhSeries (prec z2 : Nat) : Nat → Nat → Nat → Nat → Nat
  | 0, _, _, acc => acc
  | fuel + 1, i, pw, acc =>
    if pw = 0 then acc else atanhSeries prec z2 fuel (i + 2) (pw * z2 / 2 ^ prec) (acc + pw / i)

/-- ln((1+z)/(1-z)) in fixed point. -/
def lnRatioFix (prec z : Nat) : Nat := 2 * atanhSeries prec (z * z / 2 ^ prec) 1000 1 z 0
/-- ln 2 in fixed point. -/
def ln2Fix (prec : Nat) : Nat := lnRatioFix prec (2 ^ prec / 3)

/-- sum of (-1)^i / ((2i+1) k^(2i+1)) in fixed point. -/
def atanInv (k2 : Nat) : Nat → Nat → Nat → Int
  | 0, _, _ => 0
  | fuel + 1, i, pw => if pw = 0 then 0 else ((pw / i : Nat) : Int) - atanInv k2 fuel (i + 2) (pw / k2)

/-- pi in fixed point, by Machin's formula. -/
def piFix (prec : Nat) : Nat :=
  (16 * atanInv 25 1000 1 (2 ^ prec / 5) - 4 * atanInv 57121 1000 1 (2 ^ prec / 239)).toNat

/-- m x 2^e in fixed point 2^prec, rounded down. -/
def toFix (prec m : Nat) (e : Int) : Nat := (shiftNat m (e + prec)).1

/-- Working precision for an argument of the given size: 320 bits beyond its leading bit. -/
def workPrec (m : Nat) (e : Int) : Nat := 320 + (-(e + Nat.log2 m)).toNat

/-- 2^x for finite non-zero x. -/
def exExp2 (neg : Bool) (m : Nat) (e : Int) : Ex :=
  if 20 < e + Nat.log2 m then ⟨false, 1, if neg then -1048576 else 1048576, true⟩
  else
    let s := shiftNat m e
    if s.2.1 = 0 then ⟨false, 1, if neg then -(s.1 : Int) else s.1, false⟩
    else
      let prec := 400
      let fr := toFix prec m e - s.1 * 2 ^ prec
      let n : Int := if neg then -(s.1 : Int) - 1 else s.1
      let fr := if neg then 2 ^ prec - 1 - fr else fr
      ⟨false, 2 ^ prec + expm1Fix prec (fr * ln2Fix prec / 2 ^ prec), n - prec, true⟩

/-- log2 x for finite x > 0. -/
def exLog2 (m : Nat) (e : Int) : Ex :=
  let lg := Nat.log2 m
  let n : Int := e + lg
  if m = 2 ^ lg then ⟨n < 0, n.natAbs, 0, false⟩
  else
    let prec := 420
    let y := toFix prec m (-(lg : Int))
    let z := (y - 2 ^ prec) * 2 ^ prec / (y + 2 ^ prec)
    let fr := lnRatioFix prec z * 2 ^ prec / ln2Fix prec
    let v : Int := n * 2 ^ prec + fr
    ⟨v < 0, v.natAbs - (if v < 0 then 1 else 0), -(prec : Int), true⟩

/-- Remainder of a finite magnitude modulo 2, in units of 2^e for e <= 0. -/
def modTwo (m : Nat) (e : Int) : Nat × Int :=
  if 1 ≤ e then (0, 0) else if e = 0 then (m % 2, 0) else (m % 2 ^ ((-e).toNat + 1), e)

/-- sin(pi t) for 0 <= t = m x 2^e <= 1/2: zero and one exactly. -/
def exSinPi (m : Nat) (e : Int) : Ex :=
  if m = 0 then ⟨false, 0, 0, false⟩
  else if e + Nat.log2 m = -1 then ⟨false, 1, 0, false⟩
  else
    let prec := workPrec m e
    let x := toFix prec m e * piFix prec / 2 ^ prec
    ⟨false, sinFix prec x, -(prec : Int), true⟩

/-- A value of [0, 2) in units of 2^e folded into [0, 1/2] for sine: sign and remaining part. -/
def foldSin (m : Nat) (e : Int) : Bool × Nat :=
  let one := 2 ^ (-e).toNat
  let neg := one ≤ m
  let m := if neg then m - one else m
  (neg, if 2 * m > one then one - m else m)

/-- tanh x for finite non-zero magnitude. -/
def exTanh (neg : Bool) (m : Nat) (e : Int) : Ex :=
  if 9 < e + Nat.log2 m then ⟨neg, 2 ^ 300 - 1, -300, true⟩
  else
    let prec := workPrec m e + 40
    let y := 2 * toFix prec m e
    let l2 := ln2Fix prec
    let n := y / l2
    let t := expm1Fix prec (y - n * l2)
    let em1 := (2 ^ prec + t) * 2 ^ n - 2 ^ prec
    ⟨neg, em1 * 2 ^ prec / (em1 + 2 * 2 ^ prec), -(prec : Int), true⟩

/-- The seven functions of OP 0x35. -/
inductive Sfn | exp2 | log2 | rcp | rsq | sin | cos | tanh
  deriving DecidableEq, Repr

/-- f(x) rounded, with the special operands of Table 8 of R145. -/
def sfuEval (fn : Sfn) (f : Fmt) (r : Rnd) (a : Num) : Res :=
  let one := f.round r ⟨false, 1, 0, false⟩
  match a with
  | .nan _ => ⟨f.nanCode, sigFlags [a]⟩
  | .inf n => match fn with
    | .exp2 => ⟨if n then 0 else f.infCode, 0⟩
    | .log2 => if n then f.invalid else ⟨f.infCode, 0⟩
    | .rcp => ⟨f.signed n 0, 0⟩
    | .rsq => if n then f.invalid else ⟨0, 0⟩
    | .sin => f.invalid
    | .cos => f.invalid
    | .tanh => f.round r ⟨n, 1, 0, false⟩
  | .fin n m e =>
    if m = 0 then match fn with
      | .exp2 => one
      | .log2 => ⟨f.signed true f.infCode, fDZ⟩
      | .rcp => ⟨f.signed n f.infCode, fDZ⟩
      | .rsq => ⟨f.signed n f.infCode, fDZ⟩
      | .sin => ⟨f.signed n 0, 0⟩
      | .cos => one
      | .tanh => ⟨f.signed n 0, 0⟩
    else match fn with
      | .exp2 => f.round r (exExp2 n m e)
      | .log2 => if n then f.invalid else f.round r (exLog2 m e)
      | .rcp => f.round r (exQuot n 1 0 m e)
      | .rsq => if n then f.invalid
          else if m = 2 ^ Nat.log2 m then f.round r (exSqrt 1 (-(e + Nat.log2 m)))
          else f.round r { exSqrt (2 ^ (Nat.log2 m + 500) / m) (-e - (Nat.log2 m + 500)) with rest := true }
      | .sin =>
          let t := modTwo m e
          let g := foldSin t.1 t.2
          if g.2 = 0 then ⟨f.signed n 0, 0⟩ else f.round r { exSinPi g.2 t.2 with neg := n != g.1 }
      | .cos =>
          let t := modTwo m e
          let e' := min t.2 (-1)
          let g := foldSin ((t.1 * 2 ^ (t.2 - e').toNat + 2 ^ ((-e').toNat - 1)) % 2 ^ ((-e').toNat + 1)) e'
          if g.2 = 0 then ⟨0, 0⟩ else
            let one := 2 ^ (-e').toNat
            let x := t.1 * 2 ^ (t.2 - e').toNat
            let near := min x (2 * one - x)
            if near ≠ 0 ∧ near * 2 ^ 100 < one then
              f.round r ⟨false, 2 ^ 400 - 1, -400, true⟩
            else f.round r { exSinPi g.2 e' with neg := g.1 }
      | .tanh => f.round r (exTanh n m e)

end Sys2Proof.Machine
end

