-- ==== Sys2Proof/Machine/Sfu.lean ====
section
/-! DEFINITION. The special-function queue: PMERGE and the forms of OP 0x35 (R37, R144 to R148). -/

namespace Sys2Proof.Machine

/-- Requests the queue holds (Table 7 of chapter 06). -/
def sfuEntries : Nat := 16
/-- Occupancy of a request in cycles (R146). -/
def sfuOcc (t : Ty) : Nat := if t = .f64 then 2 else if t = .f32 then 4 else 8

/-- Enters a request of the sources srcs: it parks while the queue is full, and parks to the end where a trap enable is set (R146,
R147). -/
def sfuIssue (srcs : List Reg) (occ : Nat) (a : FAcc) (ws : List (Reg × VVal)) (s : State) (r : SlotRef) (c : Ctx) : Act :=
  let t := tileAt s r.node
  if sfuEntries ≤ t.sfu.length then .retry .busy 0 0 0
  else
    let w := newWait s r c
    let q : SfuReq :=
      { id := w.1.id, slot := r.slot, uid := c.uid, occ := occ, issuedAt := s.now, started := false, dst := ws,
        old := ws.map fun x => (x.1, valOf c x.1), flags := a.flags, lane := a.bad.getD 0, trapping := a.bad.isSome, job := c.d.job, slow := slowBy srcs, seed := c.seed }
    let s := modTile w.2 r.node fun t => { t with sfu := t.sfu ++ [q] }
    let s := modCtx s r fun c => ws.foldl (fun c x => setPres c x.1 .pending) { c with seed := a.seed }
    let s := pushOnce s (max (dueIn s r.node 1) t.sfuFree) phStart (nodeKey r.node) (.sfuServiceStart r.node)
    if enabled c = 0 then .done s else .wait s w.1.id (.sfu w.1.id) 0 0 0 []

/-- SFU_SERVICE_START: the oldest waiting request is served where the previous occupancy has ended; slow sources delay
the landing of its result, as R117 says of every instruction (R146; DEDUCED, log 45). -/
def evSfuServiceStart (n : Node) (s : State) : State :=
  let t := tileAt s n
  if s.now < t.sfuFree then s
  else match t.sfu.find? fun q => !q.started with
    | none => s
    | some q =>
      let fin := dueIn s n q.occ
      let s := modTile s n fun t =>
        { t with sfuFree := fin, sfu := t.sfu.map fun x => if x.id = q.id then { x with started := true } else x }
      let s := push s (dueIn s n (q.occ + 20 + q.slow)) phStart (nodeKey n) (.sfuResultLand n q.id)
      pushOnce s fin phStart (nodeKey n) (.sfuServiceStart n)

/-- SFU_RESULT_LAND: the entry is freed; the result lands with its flags, is discarded with its unit gone, or the slot
that waited for it takes fp_trap (R146 to R148). -/
def evSfuResultLand (n : Node) (id : Nat) (s : State) : State :=
  match (tileAt s n).sfu.find? fun q => q.id = id with
  | none => s
  | some q =>
    let s := modTile s n fun t => { t with sfu := t.sfu.filter fun x => x.id ≠ id }
    let r : SlotRef := ⟨n.pkg, n.id, q.slot⟩
    let put (ws : List (Reg × VVal)) (c : Ctx) : Ctx :=
      ws.foldl (fun c x => putReg c x.1 x.2) { c with fpflags := c.fpflags ||| BitVec.ofNat 64 q.flags }
    let w : Who := ⟨r, q.uid, id⟩
    match waitOf s w with
    | some _ =>
      if q.trapping then
        faultWait (modUnit s r q.uid (put q.old)) w fFpTrap 0 (BitVec.ofNat 64 (q.flags + q.lane * 2 ^ 8))
      else finish s w (put q.dst)
    | none => modUnit s r q.uid (put q.dst)

/-- A parked request is abandoned with no effect: its entry is freed, its destinations are full with what they held (R92). -/
def dropSfu (s : State) (r : SlotRef) (id : Nat) : State :=
  match (tileAt s r.node).sfu.find? fun q => q.id = id with
  | none => s
  | some q =>
    modUnit (modTile s r.node fun t => { t with sfu := t.sfu.filter fun x => x.id ≠ id }) r q.uid fun c =>
      q.old.foldl (fun c x => putReg c x.1 x.2) { c with seed := q.seed }

/-- A form of OP 0x35 (R145). -/
def sfuForm (i : Instr) (h : Hdr) (t : Ty) (rm : Rm) (m : VMask) (d a : VIx) (fn : Sfn) : State → Outc :=
  let srcs := [.v a] ++ maskSrcs m (.v d)
  runForm { i := i, h := h, srcs := srcs, dsts := [.v d] } fun s r c =>
    let w := t.width
    let f (j : Nat) (rnd : Rnd) : Res := sfuEval fn (Fmt.of t) rnd ((Fmt.of t).read (laneAt w (rv c a) j))
    let o := laneLoop (enabled c) (laneOn c m.k) (fun j => idleLane m (laneAt w (rv c d) j)) (resolveRm rm c.rmode) f
      (laneCount w) 0 (facc c)
    sfuIssue srcs (sfuOcc t) o.2 [(.v d, packLanes w o.1)] s r c
/-- VEXP2 (R145). -/
def execVexp2 (h : Hdr) (t : Ty) (rm : Rm) (m : VMask) (d a : VIx) : State → Outc := sfuForm (.vexp2 h t rm m d a) h t rm m d a .exp2
/-- VLOG2 (R145). -/
def execVlog2 (h : Hdr) (t : Ty) (rm : Rm) (m : VMask) (d a : VIx) : State → Outc := sfuForm (.vlog2 h t rm m d a) h t rm m d a .log2
/-- VRCP (R145). -/
def execVrcp (h : Hdr) (t : Ty) (rm : Rm) (m : VMask) (d a : VIx) : State → Outc := sfuForm (.vrcp h t rm m d a) h t rm m d a .rcp
/-- VRSQ (R145). -/
def execVrsq (h : Hdr) (t : Ty) (rm : Rm) (m : VMask) (d a : VIx) : State → Outc := sfuForm (.vrsq h t rm m d a) h t rm m d a .rsq
/-- VSIN (R145). -/
def execVsin (h : Hdr) (t : Ty) (rm : Rm) (m : VMask) (d a : VIx) : State → Outc := sfuForm (.vsin h t rm m d a) h t rm m d a .sin
/-- VCOS (R145). -/
def execVcos (h : Hdr) (t : Ty) (rm : Rm) (m : VMask) (d a : VIx) : State → Outc := sfuForm (.vcos h t rm m d a) h t rm m d a .cos
/-- VTANH (R145). -/
def execVtanh (h : Hdr) (t : Ty) (rm : Rm) (m : VMask) (d a : VIx) : State → Outc := sfuForm (.vtanh h t rm m d a) h t rm m d a .tanh

/-! ### PMERGE (R37, R144) -/

/-- The merge of one lane: the two results and the steps' flags. The rounding of exp2 under SR takes a free value, since
R144 gives it no draw of its own (log 20). -/
def pmergeLane (f : Fmt) (rm : Rm) (free : Nat) (ma sa mb sb : Nat) (a : FAcc) : (Nat × Nat) × Nat × FAcc :=
  let na := f.read ma
  let nb := f.read mb
  if na.isNan || nb.isNan then ((f.nanCode, f.nanCode), sigFlags [na, nb], a)
  else if numEq na nb then
    let d := a.draw rm
    let z := fAdd f d.1 (f.read sa) (f.read sb)
    ((f.write na, z.code), z.flags, d.2)
  else
    let up := numLt nb na
    let m := if up then na else nb
    let sh := if up then sa else sb
    let sl := if up then sb else sa
    let ml := if up then nb else na
    let d1 := a.draw rm
    let d := fSub f d1.1 ml m
    let e := sfuEval .exp2 f ⟨d1.1.rm, free⟩ (f.read d.code)
    let d2 := d1.2.draw rm
    let p := fMul f d2.1 (f.read sl) (f.read e.code)
    let d3 := d2.2.draw rm
    let z := fAdd f d3.1 (f.read sh) (f.read p.code)
    ((f.write m, z.code), d.flags ||| e.flags ||| p.flags ||| z.flags, d3.2)
/-- The merges of the lanes. -/
def pmergeLoop (c : Ctx) (f : Fmt) (rm : Rm) (m : VMask) (w ctr : Nat) (src : Nat → Nat → Nat) : Nat → Nat → FAcc → (List Nat × List Nat) × FAcc
  | 0, _, a => (([], []), a)
  | n + 1, i, a =>
    if laneOn c m.k i then
      let x := pmergeLane f rm ((Config.freeWord (ctr + i)).toNat % 2 ^ 32) (src 0 i) (src 1 i) (src 2 i) (src 3 i) a
      let t := pmergeLoop c f rm m w ctr src n (i + 1) (x.2.2.add (enabled c) i x.2.1)
      ((x.1.1 :: t.1.1, x.1.2 :: t.1.2), t.2)
    else
      let t := pmergeLoop c f rm m w ctr src n (i + 1) a
      ((idleLane m (src 4 i) :: t.1.1, idleLane m (src 5 i) :: t.1.2), t.2)
/-- PMERGE (R37, R144). -/
def execPmerge (h : Hdr) (t : Ty) (rm : Rm) (m : VMask) (d a b : VIx) : State → Outc :=
  let srcs := [.v a, .v (a + 1), .v b, .v (b + 1)] ++ maskSrcs m (.v d) ++ (if VMask.merges m then [.v (d + 1)] else [])
  runForm { i := .pmerge h t rm m d a b, h := h, srcs := srcs, dsts := [.v d, .v (d + 1)] } fun s r c =>
    let w := t.width
    let regs : List VIx := [a, a + 1, b, b + 1, d, d + 1]
    let src (k j : Nat) : Nat := laneAt w (rv c (regs.getD k 0)) j
    let n := laneCount w
    let o := pmergeLoop c (Fmt.of t) (resolveRm rm c.rmode) m w s.freeCtr src n 0 (facc c)
    sfuIssue srcs (2 * sfuOcc t) o.2 [(.v d, packLanes w o.1.1), (.v (d + 1), packLanes w o.1.2)]
      { s with freeCtr := s.freeCtr + n } r c

end Sys2Proof.Machine
end

