-- ==== Sys2Proof/Machine/Xlat.lean ====
section
/-! DEFINITION. Invalidation of TLBs, walks on request, answers to tokens, and fences (R238, R239, R299, R300). -/

namespace Sys2Proof.Machine

/-! ### TLB.INV (R239, R397) -/

/-- Whether an invalidation takes an entry: those of the job, for one page or all. -/
def invTakes (job : Word) (va : Option Word) (e : TlbEntry) : Bool :=
  match va with
  | some a => TlbEntry.covers e job a.toNat
  | none => e.job = job
/-- Drops entries from the TLBs that a scope around a tile covers. -/
def dropEntries (s : State) (n : Node) (sc : TlbScope) (job : Word) (va : Option Word) : State :=
  let keep (l : List TlbEntry) := l.filter fun e => !invTakes job va e
  let inScope (k : Nat) : Bool := match sc with
    | .tile => nodeOfKey k = n
    | .die => (nodeOfKey k).pkg = n.pkg && dieOf (nodeOfKey k).id = dieOf n.id
    | .pkg | .dom => (nodeOfKey k).pkg = n.pkg
  let s := { s with tiles := s.tiles.map fun (k, t) => (k, if inScope k then { t with tlb := keep t.tlb } else t) }
  match sc with
  | .tile => s
  | .die => modPkg s n.pkg fun p => { p with dieTlb := p.dieTlb.map fun (d, l) => (d, if d = dieOf n.id then keep l else l) }
  | .pkg | .dom => modPkg s n.pkg fun p => { p with dieTlb := p.dieTlb.map fun (d, l) => (d, keep l) }
/-- Cycles that the TLBs of a scope take (R397). -/
def invCycles : TlbScope → Nat
  | .tile => 8 | .die => 32 | .pkg => 128 | .dom => 128
/-- Scope of the release that a TLB.INV is. -/
def invRelease : TlbScope → Scope
  | .tile => .tile | .die => .pkg | .pkg => .pkg | .dom => .dom
/-- The other packages that an invalidation goes to. -/
def invOthers (s : State) (sc : TlbScope) (own : Nat) : List Nat := if sc = .dom then (allPkgs s).filter fun p => p ≠ own else []
/-- TLB_INV_REQUEST: a package drops the entries. At the requester's own the reply is sent; at .dom the other packages are asked, and
answer the slot themselves (R239, R397). -/
def evTlbInvRequest (pkg : Nat) (q : SvcReq) (s : State) : State :=
  match q.kind with
  | .tlbInv sc va =>
    let r := q.who.slot
    let n : Node := if pkg = r.pkg then r.node else ⟨pkg, 2096⟩
    serveTurn s q.turn (peerKey n 3) (slotKey r) (.tlbInvRequest pkg { q with turn := true }) fun s =>
      let s := dropEntries s n (if pkg = r.pkg then sc else .pkg) q.job va
      if pkg ≠ r.pkg then svcReply s { q with peer := n } s.now (svcVal pkg)
      else
        let others := invOthers s sc pkg
        if others = [] then svcReply s q (dueFrom s n s.now (invCycles sc)) (svcVal 0)
        else
          let s := others.foldl (fun s p => sendMsg s r n ⟨p, 2096⟩ 3 1 [3, 7, slotKey r, p] (some q.launch) false
            (.tlbInvRequest p { q with turn := false })) s
          modUnit s r q.who.uid fun c => { c with park := c.park.map fun p => { p with aux := others.map (BitVec.ofNat 64) } }
  | _ => s
/-- A package has answered a TLB.INV at .dom, which completes 128 cycles after the last has; none for any other reply (R397). The park
lists the packages that have not answered. -/
def invAnswer (s : State) (w : Who) (c : Ctx) (p : Park) (a : SvcReply) : Option State :=
  match p.form, p.aux with
  | .tlbInv .., _ :: _ | .tlbInvAll .., _ :: _ =>
    let left := p.aux.filter fun k => k ≠ a.val
    let s := modUnit s w.slot w.uid fun _ => { c with park := some { p with aux := left } }
    some (if left = [] then push s (dueIn s w.slot.node (invCycles .dom)) phLand (slotKey w.slot) (.serviceReplyLand w a) else s)
  | _, _ => none
/-- An invalidation (R239). -/
def invAct (sc : TlbScope) (va : Option Word) (s : State) (r : SlotRef) (c : Ctx) : Act :=
  release s r c (invRelease sc) r.node (svcAct s r c r.node none (.tlbInv sc va) 0 (.tlbInvRequest r.pkg))
/-- TLB.INV (R239). -/
def execTlbInv (h : Hdr) (sc : TlbScope) (a : SIx) : State → Outc :=
  runForm { i := .tlbInv h sc a, h := h, srcs := [.s a] } fun s r c =>
    if 2 ^ 56 ≤ (rs c a).toNat then .trap fAccess (rs c a) 0 else invAct sc (some (rs c a)) s r c
/-- TLB.INV with ALL (R239). -/
def execTlbInvAll (h : Hdr) (sc : TlbScope) : State → Outc :=
  runForm { i := .tlbInvAll h sc, h := h } fun s r c => invAct sc none s r c

/-! ### XLAT (R239) -/

/-- The result word for a leaf (Table 6). -/
def leafWord (w bits va : Nat) : Word :=
  BitVec.ofNat 64 (2 ^ 63 + w / 2 ^ 2 % 8 * 2 ^ 60 + (if bits = 16 then 0 else if bits = 21 then 1 else 2) * 2 ^ 58 + leafPa w bits va % 2 ^ 52)
/-- The result word of a walk that uses the TLBs, and the state after a leaf is entered there. -/
def xlatWord (s : State) (n : Node) (job : Word) (det : Bool) (va : Nat) : Word × State :=
  match (tileAt s n).tlb.find? fun e => e.det = det && TlbEntry.covers e job va with
  | some e => (leafWord e.leaf.toNat e.bits va, s)
  | none => match walk s n.pkg job va with
    | .leaf w bits => (leafWord w bits va, fillTlb s n ⟨job, va / 2 ^ bits * 2 ^ bits, bits, BitVec.ofNat 64 w, det⟩)
    | .miss _ => (0, s)
    | .bad => (BitVec.ofNat 64 (2 ^ 57), s)
/-- XLAT parks; its word is formed when it completes: in its cycle, or 640 cycles on in a deterministic launch where the TLB
does not serve it (R333, log 18). -/
def execXlat (h : Hdr) (d a : SIx) : State → Outc :=
  runForm { i := .xlat h d a, h := h, srcs := [.s a], dsts := [.s d] } fun s r c =>
    let va := rs c a
    if 2 ^ 56 ≤ va.toNat then results s r c [.s a] 3 [(.s d, sval (BitVec.ofNat 64 (2 ^ 56)))]
    else
      let hit := (tileAt s r.node).tlb.any fun e => e.det = c.d.det && TlbEntry.covers e c.d.job va.toNat
      let l := if c.d.det && !hit then walkLate s c.d.launch else (s, 0)
      let w := newWait l.1 r c
      .wait (push w.2 (if c.d.det && !hit then dueIn s r.node (639 + l.2) else s.now) phEnd (slotKey r) (.globalReplyLand w.1 .done)) w.1.id
        .reply 0 0 va []
/-- The completion of an XLAT; an uncorrectable error of the entry that serves it, or on its walk, is a fault (R352). -/
def finishXlat (s : State) (w : Who) (c : Ctx) (d : SIx) (va : Word) : State :=
  let e := xlErrs s w.slot.node c.d.job c.d.det true va.toNat (consumerOf c)
  let s := e.1
  match e.2 with
  | some arr => faultWait s w fData va (BitVec.ofNat 64 arr)
  | none =>
  let x := xlatWord s w.slot.node c.d.job c.d.det va.toNat
  finish x.2 w fun c => if d = 0 then c else putReg c (.s d) (sval x.1)

/-! ### Tokens (R238, R239, R269, R349) -/

/-- A supervisor's answer is no longer due. -/
def dropToken (s : State) (r : SlotRef) (tok : Nat) : State :=
  modSlot s r fun l => { l with ctx := { l.ctx with tokens := l.ctx.tokens.filter fun t => t ≠ tok }
                                saved := l.saved.map fun c => { c with tokens := c.tokens.filter fun t => t ≠ tok } }
/-- The parked access of a token walks again; a fetch is made anew. In a deterministic launch that takes 640 cycles (R333). -/
def resumePark (s : State) (r : SlotRef) (c : Ctx) (p : Park) : State :=
  let w : Who := ⟨r, c.uid, p.id⟩
  if p.aux.getD 0 0 = 3 then modUnit s r c.uid fun c => { c with park := some { p with kind := .regs [] } }
  else
    let s := modUnit s r c.uid fun c => { c with park := some { p with kind := .reply } }
    let l := if c.d.det then walkLate s c.d.launch else (s, 0)
    if c.d.det then push l.1 (dueIn s r.node (639 + l.2)) phEnd (slotKey r) (.globalReplyLand w .done) else goOn s w
/-- Whether a slot supervises the party that a token names, and the state after f or g has answered it. -/
def answerToken (tok : Word) (f : State → SlotRef → Ctx → Park → State) (g : State → Node → Bool → EngCmd → State) (s : State)
    (r : SlotRef) (c : Ctx) : Act :=
  match tokenPark s tok.toNat with
  | some (r', c', p) =>
    if supervises r c'.d && r'.pkg = r.pkg && c'.d.job = c.d.job then .done (dropToken (f s r' c' p) r tok.toNat) else .trap fOperand 0 0
  | none => match tokenCmd s tok.toNat with
    | some (n, mx, q) =>
      if q.sup = r && q.job = c.d.job && !q.refused then .done (dropToken (g s n mx q) r tok.toNat) else .trap fOperand 0 0
    | none => .trap fOperand 0 0
/-- XLAT.resume (R239, R269). -/
def execXlatResume (h : Hdr) (a : SIx) : State → Outc :=
  runForm { i := .xlatResume h a, h := h, srcs := [.s a] } fun s r c =>
    answerToken (rs c a) resumePark (fun s n mx q => if mx then resumeMatrix s n q else resumeCopy s n q) s r c
/-- XLAT.refuse (R239, R269). -/
def execXlatRefuse (h : Hdr) (a : SIx) : State → Outc :=
  runForm { i := .xlatRefuse h a, h := h, srcs := [.s a] } fun s r c =>
    answerToken (rs c a) (fun s _ _ _ => refuseToken s (rs c a).toNat) (fun s _ _ _ => refuseToken s (rs c a).toNat) s r c

/-! ### Fences (R299, R300) -/

/-- FENCE (R299). -/
def execFence (h : Hdr) (sc : Scope) (eR eW lR lW : Bool) : State → Outc :=
  runForm { i := .fence h sc eR eW lR lW, h := h } fun s r c =>
    if eW && (lR || lW) && writesOut s r c.uid sc r.node then .retry .cond 0 0 0 else .done s
/-- FENCE.ENG (R300). -/
def execFenceEng (h : Hdr) (sc : Scope) (inn out : Bool) : State → Outc :=
  runForm { i := .fenceEng h sc inn out, h := h } fun s r c =>
    if (inn && writesOut s r c.uid sc r.node) || (out && cmdsOut s r c.uid) then .retry .cond 0 0 0 else .done s

end Sys2Proof.Machine
end

