-- ==== Sys2Proof/Machine/Replies.lean ====
section
/-! DEFINITION. What happens to a parked slot: its replies, its limits, its supervisor's messages; and round boundaries
(R77, R92, R104, R197, R212, R222, R223, R241, R348). -/

namespace Sys2Proof.Machine

/-! ### Replies (R104, R192, R241) -/

/-- Writes results full at once. -/
def putAll (ws : List (Reg × VVal)) (c : Ctx) : Ctx := ws.foldl (fun c (g, x) => if realReg g then putReg c g x else c) c
/-- A global form completes with what a reply brings; an atomic is a recorded event. -/
def finishGlobal (s : State) (w : Who) (c : Ctx) (p : Park) (a : MemReply) : State :=
  let s := finish s w (putAll (globalResults c p.form p.va a))
  if isAtomic p.form then countRec s w.slot w.uid else s
/-- Whether a form reads memory by pieces (R105, R162, R263). -/
def readsPieces : Instr → Bool
  | .protLoad _ _ _ _ => true
  | .tdSet _ _ _ _ => true
  | .launch _ _ _ => true
  | .graphAdd _ _ _ _ => true
  | _ => false
/-- GLOBAL_REPLY_LAND: a walk is done, a piece has been read, the atomic of a commit is answered, or the form completes or
faults (R238, R241, R246, R252). -/
def evGlobalReplyLand (w : Who) (a : MemReply) (s : State) : State :=
  match waitOf s w with
  | none => s
  | some (c, p) =>
    match a with
    | .done => match p.form with
      | .xlat _ d _ => finishXlat s w c d p.va
      | _ => walkNow s w
    | .fail code aux => failReply s w c p code aux
    | .data b => if readsPieces p.form then morePiece s w b else finishGlobal s w c p a
    | .old x => match p.form, c.region with
      | .rgnCommit _ cc, some g => commitAtom s w g cc x
      | _, _ => finishGlobal s w c p a

/-- Results of a service form. -/
def svcResults (i : Instr) (v : Word) : List (Reg × VVal) :=
  match i with
  | .launch _ d _ => [(.s d, sval v)]
  | .graphOpen _ d => [(.s d, sval v)]
  | .graphAdd _ d _ _ => [(.s d, sval v)]
  | .doneWait _ _ _ d _ => [(.s d, sval v)]
  | .phaseEnter _ d _ => [(.s d, sval v)]
  | .phaseLeave _ d => [(.s d, sval v)]
  | .demClose _ d => [(.s d, sval v)]
  | .gwTake _ d _ => [(.s d, sval v)]
  | .elog _ _ _ d _ => [(.s d, sval v)]
  | _ => []
/-- SERVICE_REPLY_LAND: every fault is raised when the reply lands, every result written full (R104). A descriptor's fault tells
the descriptor's address (R80); a LAUNCH reply sets the wake flag (R97); a mark is a recorded event (R339). -/
def evServiceReplyLand (w : Who) (a : SvcReply) (s : State) : State :=
  match waitOf s w with
  | none => s
  | some (c, p) =>
    match invAnswer s w c p a with
    | some s => s
    | none =>
    if a.code ≠ 0 then faultWait s w a.code (if a.code = fDescriptor then p.va else a.va) a.aux
    else match p.form with
      | .rcBind _ _ _ d => bindReply s w c d a.val.toNat
      | .xchSend _ _ _ _ _ _ _ => phaseReply s w a
      | .launch _ _ _ => finish s w fun c => { putAll (svcResults p.form a.val) c with wake := true }
      | .recMark _ _ => countRec (finish s w id) w.slot w.uid
      | _ => finish s w (putAll (svcResults p.form a.val))
/-- RESULT_LANDING (R113, R116). -/
def evResultLanding (r : SlotRef) (uid : Nat) (dst : Reg) (val : VVal) (s : State) : State := landed s r uid dst val

/-! ### Limits (R92, R222, R223) -/

/-- Takes back at once what a parked instruction has begun. -/
def takeBack (s : State) (w : Who) (p : Park) : State :=
  match p.kind, p.form with
  | .sync, _ => dropWaiter s w.slot.node w
  | .sfu id, _ => dropSfu s w.slot id
  | .calAt _, _ => dropCalWait s w.slot w.uid p
  | .cond, .chDeleg _ _ _ _ ex => stayEp s ⟨w.slot.pkg, w.slot.tile, ex.toNat⟩
  | .reply, .chAccept _ ep _ _ _ => revertEp s (ownEp w.slot ep)
  | .reply, .demClose _ _ => dropClose s w
  | .reply, .doneWait _ _ _ _ _ => dropWaits s w
  | .reply, .phaseEnter _ _ _ => undoPhase s w
  | .reply, .phaseLeave _ _ => undoPhase s w
  | _, _ => s
/-- Whether a parked instruction's request lies at another party, which must agree to give it back (R165, R223). -/
def mustWithdraw (p : Park) : Bool :=
  p.kind = .reply && match p.form with
    | .chOpen _ _ _ _ => true
    | _ => p.limKind = 1 && p.aux ≠ [1]
/-- Sends the withdrawal of a request that waits elsewhere; the slot stays parked until its answer (R165, R223). -/
def withdraw (s : State) (w : Who) (c : Ctx) (p : Park) : State :=
  let s := modUnit s w.slot w.uid fun c => { c with park := c.park.map fun p => { p with kind := .withdraw } }
  match p.form with
  | .chOpen _ ep _ _ =>
    let q := openReqOf s w (ownEp w.slot ep) c.d.job
    if hasPkg s q.target.pkg then
      sendMsg s w.slot w.slot.node q.target.node 1 1 (openSpace w.slot q.target) (pinOf c) false (.openWithdrawalLand q)
    else push s s.now phLand (slotKey w.slot) (.openWithdrawalAnswerLand w false)
  | _ => sendWithdrawal s w c p
/-- Whether a wait for a word of a scratchpad is over but for the record log, whose hold WAITLIM does not bound (R337). -/
def heldByLog (s : State) (w : Who) (p : Park) : Bool :=
  let n := if isRemote p.va then remoteHome p.va else w.slot.node
  let t := tileAt s n
  (t.waiters.any fun x => x.q.who = w && !spWaits t x.q) || (p.kind = .sync && match p.form with
    | .ldvSync _ _ _ _ _ _ _ => (ldvWords p.va.toNat).all (padFull t)
    | _ => false)
/-- WAIT_LIMIT_EXPIRY (R222, R223). For a unit that is away, or that only the record log holds, it is tried again: such a unit cannot
take a trap now (R337). -/
def evWaitLimitExpiry (w : Who) (s : State) : State :=
  match waitOf s w with
  | none => s
  | some (c, p) =>
    if isAway s w.slot w.uid ∨ heldByLog s w p then push s (s.now + 1) phStart (slotKey w.slot) (.waitLimitExpiry w)
    else if p.kind = .withdraw ∨ p.limKind = 0 then s
    else if mustWithdraw p then withdraw s w c p
    else faultWait (takeBack s w p) w fWaitLimit (if p.limKind = 1 then p.va else 0) (limitAux p)
/-- Whether a parked instruction cannot be taken back, so that the fault of an open packet is taken as it completes (R92). -/
def mustFinish (c : Ctx) (p : Park) : Bool :=
  match p.kind with
  | .reply => match p.form with
    | .chAccept _ _ _ _ _ => false
    | _ => p.limKind ≠ 1
  | .withdraw => true
  | _ => (c.region.map (·.committing)).getD false
/-- PACKET_OPEN_LIMIT: a parked round has made the count 65 (R92). -/
def evPacketOpenLimit (r : SlotRef) (uid : Nat) (s : State) : State :=
  match (unitAt s r uid).bind fun c => c.park.map fun p => (c, p) with
  | none => s
  | some (c, p) =>
    let due (s : State) : State := modUnit s r uid fun c => { c with park := c.park.map fun p => { p with limitDue := true } }
    match c.packet with
    | none => s
    | some (e, n) =>
      if n < 64 ∨ p.limitDue then s
      else if mustWithdraw p then withdraw (due s) ⟨r, uid, p.id⟩ c p
      else if mustFinish c p then due s
      else takeFault (takeBack s ⟨r, uid, p.id⟩ p) r uid fPacket 0 (BitVec.ofNat 64 e)

/-! ### Supervisor messages (R348) -/

/-- SUPERVISOR_MESSAGE_LAND (R348, R349). -/
def evSupervisorMessageLand (m : SupMsg) (s : State) : State := landMsg s m
/-- SUPERVISOR_MESSAGE_RESEND: 64 cycles after a busy reply the sender's tile sends the message again, pinned for a deterministic
unit (R309, R348). -/
def evSupervisorMessageResend (m : SupMsg) (s : State) : State :=
  let pin := ((slotUnits (slotAt s m.src)).find? fun c => c.d.job = m.job && c.d.det).bind pinOf
  sendMsg s m.src m.src.node m.dst.node 11 1 [] pin false (.supervisorMessageLand m)

/-! ### Round boundaries (R92, R197, R212) -/

/-- The last round before the present one in which a tile's clock went; a pattern of held rounds repeats after 16 (R365). -/
def lastRound (s : State) (n : Node) : Option Nat :=
  ((List.range 16).map fun k => roundOf s n.pkg - 1 - k).find? fun r => r < roundOf s n.pkg && !holds (heldCount s n) r
/-- Whether a slot owned turns and stayed parked for the whole of a round that is over. -/
def parkedRound (base round : Nat) (l : Slot) : Bool :=
  l.ph = .bound && l.owned ≠ 0 && match l.ctx.park with
    | some p => decide (p.since < base + 16 * round)
    | none => false
/-- Counts the round just over for the open packets of parked slots (R92). -/
def countParked (s : State) (n : Node) : State :=
  match lastRound s n with
  | none => s
  | some k => (List.range 16).foldl (fun s i =>
    let r : SlotRef := ⟨n.pkg, n.id, i⟩
    let l := slotAt s r
    match l.ctx.packet with
    | none => s
    | some (e, m) =>
      if parkedRound (pkgAt s n.pkg).cycleBase k l then
        if 64 ≤ m then push s s.now phStart (slotKey r) (.packetOpenLimit r l.ctx.uid)
        else modCtx s r fun c => { c with packet := some (e, m + 1) }
      else s) s
/-- Whether an endpoint keeps its tile's tenancy. -/
def epHolds (x : Endpoint) : Bool :=
  x.st = .opened || x.st = .peerClosed || x.st = .forwarding || x.held.isSome || x.gran.isSome
/-- Whether nothing of a tenant is left on a tile (R212). -/
def tenancyOver (t : Tile) (job : Word) : Bool :=
  (tileUnits t).all (fun x => x.2.d.job ≠ job) && t.slots.toList.all (fun l => l.heldBy.isNone) &&
  (t.copy ++ t.mx.cmds).all (fun q => q.job ≠ job) && t.sfu.all (fun q => q.job ≠ job) &&
  t.eps.all (fun x => !epHolds x.2) && t.waiters.all fun w => w.isLocal || w.q.job ≠ job
/-- Ends a tenancy that is over (R212). -/
def endTenancy (s : State) (n : Node) : State :=
  match (tileAt s n).tenant with
  | none => s
  | some job => if tenancyOver (tileAt s n) job then askWork (modTile s n fun t => { t with tenant := none }) n else s
/-- ROUND_BOUNDARY: ownership changes, open packets, the end of a tenancy. In a held round nothing in the island advances
(R365). -/
def evRoundBoundary (n : Node) (s : State) : State :=
  if isHeld s n then s else endTenancy (turnBoundary (countParked s n) n) n

end Sys2Proof.Machine
end

