-- ==== Sys2Proof/Machine/Events.lean ====
section
/-! DEFINITION. The events of the machine as rows of the opcode table: each has its effect on the whole state and answers a
next state. -/

namespace Sys2Proof.Machine

/-- RESULT_LANDING (R116). -/
def execResultLanding (r : SlotRef) (uid : Nat) (dst : Reg) (val : VVal) (s : State) : Outc := .next (evResultLanding r uid dst val s)
/-- ROUND_BOUNDARY (R197). -/
def execRoundBoundary (n : Node) (s : State) : Outc := .next (evRoundBoundary n s)
/-- SLEEPR_EXPIRY (R98). -/
def execSleeprExpiry (w : Who) (s : State) : Outc := .next (evSleeprExpiry w s)
/-- PACKET_OPEN_LIMIT (R92). -/
def execPacketOpenLimit (r : SlotRef) (uid : Nat) (s : State) : Outc := .next (evPacketOpenLimit r uid s)
/-- WAIT_LIMIT_EXPIRY (R222). -/
def execWaitLimitExpiry (w : Who) (s : State) : Outc := .next (evWaitLimitExpiry w s)
/-- REMOTE_WITHDRAWAL_ANSWER (R223). -/
def execRemoteWithdrawalAnswer (w : Who) (removed : Bool) (s : State) : Outc := .next (evRemoteWithdrawalAnswer w removed s)
/-- SEM_WAIT_TIMEOUT (R226). -/
def execSemWaitTimeout (w : Who) (s : State) : Outc := .next (evSemWaitTimeout w s)
/-- BIND_COMPLETE (R118). -/
def execBindComplete (r : SlotRef) (uid : Nat) (s : State) : Outc := .next (evBindComplete r uid s)
/-- NODE_PLACEMENT (R85). -/
def execNodePlacement (pkg : Nat) (s : State) : Outc := .next (evNodePlacement pkg s)
/-- DETERMINISTIC_START (R331). -/
def execDeterministicStart (pkg : Nat) (serial : Nat) (s : State) : Outc := .next (evDeterministicStart pkg serial s)
/-- CONTEXT_SAVE_COMPLETE (R91). -/
def execContextSaveComplete (r : SlotRef) (uid : Nat) (s : State) : Outc := .next (evContextSaveComplete r uid s)
/-- UNIT_RESUME (R87). -/
def execUnitResume (r : SlotRef) (uid : Nat) (s : State) : Outc := .next (evUnitResume r uid s)
/-- LAUNCH_COMPLETION (R82). -/
def execLaunchCompletion (pkg : Nat) (serial : Nat) (s : State) : Outc := .next (evLaunchCompletion pkg serial s)
/-- PHASE_COMPLETION (R89). -/
def execPhaseCompletion (job : Word) (s : State) : Outc := .next (evPhaseCompletion job s)
/-- CANCEL_APPLY (R88). -/
def execCancelApply (pkg : Nat) (c : CancelReq) (s : State) : Outc := .next (evCancelApply pkg c s)
/-- DISPATCHER_REQUEST (R397). -/
def execDispatcherRequest (q : SvcReq) (s : State) : Outc := .next (evDispatcherRequest q s)
/-- SERVICE_REPLY_LAND (R192). -/
def execServiceReplyLand (w : Who) (r : SvcReply) (s : State) : Outc := .next (evServiceReplyLand w r s)
/-- SPAWN_REQUEST_LAND (R90). -/
def execSpawnRequestLand (q : SpawnReq) (s : State) : Outc := .next (evSpawnRequestLand q s)
/-- SPAWN_ENTRY_SERVE (R90). -/
def execSpawnEntryServe (n : Node) (s : State) : Outc := .next (evSpawnEntryServe n s)
/-- SPAWN_RETURN_LAND (R102). -/
def execSpawnReturnLand (r : SlotRef) (uid : Nat) (dst : SIx) (val : Word) (s : State) : Outc := .next (evSpawnReturnLand r uid dst val s)
/-- SCRATCHPAD_CYCLE_SERVICE (R221). -/
def execScratchpadCycleService (n : Node) (q : Option (SpReq × Bool)) (s : State) : Outc := .next (evScratchpadCycleService n q s)
/-- REMOTE_REPLY_LAND (R215). -/
def execRemoteReplyLand (q : SpReq) (r : SpReply) (s : State) : Outc := .next (evRemoteReplyLand q r s)
/-- REMOTE_BUSY_RESEND (R215). -/
def execRemoteBusyResend (q : SpReq) (s : State) : Outc := .next (evRemoteBusyResend q s)
/-- BARRIER_TOKEN_LAND (R228). -/
def execBarrierTokenLand (n : Node) (b : Nat) (row : Bool) (job : Word) (s : State) : Outc := .next (evBarrierTokenLand n b row job s)
/-- BARRIER_RELEASE_LAND (R228). -/
def execBarrierReleaseLand (n : Node) (b : Nat) (job : Word) (s : State) : Outc := .next (evBarrierReleaseLand n b job s)
/-- MEMORY_MERGE_STEP (R243). -/
def execMemoryMergeStep (c : Node) (q : Option MemReq) (s : State) : Outc := .next (evMemoryMergeStep c q s)
/-- ATOM_DET_WINDOW_APPLY (R247). -/
def execAtomDetWindowApply (c : Node) (win : Nat) (s : State) : Outc := .next (evAtomDetWindowApply c win s)
/-- REFRESH_WINDOW_END (R332). -/
def execRefreshWindowEnd (c : Node) (s : State) : Outc := .next (evRefreshWindowEnd c s)
/-- CONTROLLER_REPLY_SEND (R332). -/
def execControllerReplySend (c : Node) (q : MemReq) (r : MemReply) (s : State) : Outc := .next (evControllerReplySend c q r s)
/-- GLOBAL_REPLY_LAND (R241). -/
def execGlobalReplyLand (w : Who) (r : MemReply) (s : State) : Outc := .next (evGlobalReplyLand w r s)
/-- POSTED_STORE_CREDIT_LAND (R241). -/
def execPostedStoreCreditLand (w : Who) (r : MemReply) (s : State) : Outc := .next (evPostedStoreCreditLand w r s)
/-- ALLOCATOR_REQUEST (R254). -/
def execAllocatorRequest (peer : Node) (q : SvcReq) (s : State) : Outc := .next (evAllocatorRequest peer q s)
/-- TLB_INV_REQUEST (R239). -/
def execTlbInvRequest (pkg : Nat) (q : SvcReq) (s : State) : Outc := .next (evTlbInvRequest pkg q s)
/-- SUPERVISOR_MESSAGE_LAND (R348). -/
def execSupervisorMessageLand (m : SupMsg) (s : State) : Outc := .next (evSupervisorMessageLand m s)
/-- SUPERVISOR_MESSAGE_RESEND (R348). -/
def execSupervisorMessageResend (m : SupMsg) (s : State) : Outc := .next (evSupervisorMessageResend m s)
/-- SFU_SERVICE_START (R146). -/
def execSfuServiceStart (n : Node) (s : State) : Outc := .next (evSfuServiceStart n s)
/-- SFU_RESULT_LAND (R146). -/
def execSfuResultLand (n : Node) (id : Nat) (s : State) : Outc := .next (evSfuResultLand n id s)
/-- ARRAY_BEAT_START (R135). -/
def execArrayBeatStart (n : Node) (s : State) : Outc := .next (evArrayBeatStart n s)
/-- OPEN_REQUEST_LAND (R166). -/
def execOpenRequestLand (q : OpenReq) (s : State) : Outc := .next (evOpenRequestLand q s)
/-- OPEN_REPLY_LAND (R165). -/
def execOpenReplyLand (q : OpenReq) (o : OpenOutcome) (s : State) : Outc := .next (evOpenReplyLand q o s)
/-- OPEN_WITHDRAWAL_LAND (R165). -/
def execOpenWithdrawalLand (q : OpenReq) (s : State) : Outc := .next (evOpenWithdrawalLand q s)
/-- CHANNEL_FLIT_LAND (R172). -/
def execChannelFlitLand (f : ChFlit) (s : State) : Outc := .next (evChannelFlitLand f s)
/-- CREDIT_LAND (R171). -/
def execCreditLand (f : ChFlit) (s : State) : Outc := .next (evCreditLand f s)
/-- CLOSE_NOTICE_LAND (R188). -/
def execCloseNoticeLand (f : ChFlit) (s : State) : Outc := .next (evCloseNoticeLand f s)
/-- DISCARD_MARKER_LAND (R186). -/
def execDiscardMarkerLand (f : ChFlit) (s : State) : Outc := .next (evDiscardMarkerLand f s)
/-- REGISTER_DEPOSIT (R121). -/
def execRegisterDeposit (e : EpRef) (s : State) : Outc := .next (evRegisterDeposit e s)
/-- ADOPTION_NOTICE_LAND (R184). -/
def execAdoptionNoticeLand (f : ChFlit) (s : State) : Outc := .next (evAdoptionNoticeLand f s)
/-- REDIRECT_LAND (R184). -/
def execRedirectLand (f : ChFlit) (s : State) : Outc := .next (evRedirectLand f s)
/-- ACKNOWLEDGEMENT_LAND (R184). -/
def execAcknowledgementLand (f : ChFlit) (s : State) : Outc := .next (evAcknowledgementLand f s)
/-- DELEGATION_ABORT_LAND (R184). -/
def execDelegationAbortLand (f : ChFlit) (s : State) : Outc := .next (evDelegationAbortLand f s)
/-- COUPLER_SAMPLE (R203). -/
def execCouplerSample (n : Node) (rc : Nat) (s : State) : Outc := .next (evCouplerSample n rc s)
/-- COUPLER_CONTROL_FLIT_LAND (R204). -/
def execCouplerControlFlitLand (n : Node) (owner : EpRef) (u : Option Int) (s : State) : Outc :=
  .next (evCouplerControlFlitLand n owner u s)
/-- RC_BIND_REQUEST (R209). -/
def execRcBindRequest (q : SvcReq) (s : State) : Outc := .next (evRcBindRequest q s)
/-- ENGINE_COMMAND_START (R267). -/
def execEngineCommandStart (n : Node) (mx : Bool) (s : State) : Outc := .next (evEngineCommandStart n mx s)
/-- ENGINE_COMMAND_COMPLETE (R267). -/
def execEngineCommandComplete (n : Node) (mx : Bool) (id : Nat) (s : State) : Outc := .next (evEngineCommandComplete n mx id s)
/-- COPY_PACKET_LAND (R272). -/
def execCopyPacketLand (p : CopyPkt) (s : State) : Outc := .next (evCopyPacketLand p s)
/-- COPY_PACKET_ACK (R272). -/
def execCopyPacketAck (owner : Node) (cmd : Nat) (num : Nat) (code : Nat) (s : State) : Outc := .next (evCopyPacketAck owner cmd num code s)
/-- PULL_REQUEST_SERVE (R276). -/
def execPullRequestServe (q : PullReq) (s : State) : Outc := .next (evPullRequestServe q s)
/-- ENGINE_FAULT_STOP (R269). -/
def execEngineFaultStop (n : Node) (mx : Bool) (id : Nat) (code : Nat) (addr : Word) (s : State) : Outc := .next (evEngineFaultStop n mx id code addr s)
/-- MATRIX_STEP_COMMIT (R287). -/
def execMatrixStepCommit (n : Node) (id : Nat) (stepNo : Nat) (s : State) : Outc := .next (evMatrixStepCommit n id stepNo s)
/-- FLIT_SLOT_ROUTING (R305). -/
def execFlitSlotRouting (n : Node) (half : Bool) (s : State) : Outc := .next (evFlitSlotRouting n half s)
/-- INJECTION_STARVATION_HOLD (R306). -/
def execInjectionStarvationHold (n : Node) (s : State) : Outc := .next (evInjectionStarvationHold n s)
/-- LINK_RETRY (R311). -/
def execLinkRetry (pkg : Nat) (port : Nat) (cycles : Nat) (s : State) : Outc := .next (evLinkRetry pkg port cycles s)
/-- LINK_PORT_DOWN (R313). -/
def execLinkPortDown (pkg : Nat) (port : Nat) (s : State) : Outc := .next (evLinkPortDown pkg port s)
/-- LINK_PORT_UP (R313). -/
def execLinkPortUp (pkg : Nat) (port : Nat) (s : State) : Outc := .next (evLinkPortUp pkg port s)
/-- HELD_FLIT_TIMEOUT (R313). -/
def execHeldFlitTimeout (pkg : Nat) (port : Nat) (fid : Nat) (s : State) : Outc := .next (evHeldFlitTimeout pkg port fid s)
/-- TILE_RESET (R314). -/
def execTileReset (n : Node) (s : State) : Outc := .next (evTileReset n s)
/-- PACKAGE_RESET (R316). -/
def execPackageReset (pkg : Nat) (s : State) : Outc := .next (evPackageReset pkg s)
/-- INCARNATION_ANNOUNCEMENT_LAND (R314). -/
def execIncarnationAnnouncementLand (pkg : Nat) (about : Node) (inc : Nat) (s : State) : Outc := .next (evIncarnationAnnouncementLand pkg about inc s)
/-- STALE_NOTICE_LAND (R315). -/
def execStaleNoticeLand (dst : Node) (about : Node) (inc : Nat) (s : State) : Outc := .next (evStaleNoticeLand dst about inc s)
/-- DEMAND_POST_REQUEST (R319). -/
def execDemandPostRequest (q : SvcReq) (s : State) : Outc := .next (evDemandPostRequest q s)
/-- DEMAND_ROW_ACCEPT (R319). -/
def execDemandRowAccept (job : Word) (pkg : Nat) (period : Nat) (row : List Nat) (s : State) : Outc := .next (evDemandRowAccept job pkg period row s)
/-- CALENDAR_DECOMPOSE (R320). -/
def execCalendarDecompose (job : Word) (s : State) : Outc := .next (evCalendarDecompose job s)
/-- CALENDAR_ISSUE (R323). -/
def execCalendarIssue (job : Word) (s : State) : Outc := .next (evCalendarIssue job s)
/-- CALENDAR_LAND (R323). -/
def execCalendarLand (pkg : Nat) (job : Word) (period : Nat) (s : State) : Outc := .next (evCalendarLand pkg job period s)
/-- CAL_WAIT_AT_WAKE (R324). -/
def execCalWaitAtWake (w : Who) (s : State) : Outc := .next (evCalWaitAtWake w s)
/-- EXCHANGE_RESERVATION (R325). -/
def execExchangeReservation (q : SvcReq) (s : State) : Outc := .next (evExchangeReservation q s)
/-- EXCHANGE_PHASE_END (R326). -/
def execExchangePhaseEnd (pkg : Nat) (job : Word) (period : Nat) (phase : Nat) (s : State) : Outc := .next (evExchangePhaseEnd pkg job period phase s)
/-- HEARTBEAT_SEND (R327). -/
def execHeartbeatSend (job : Word) (s : State) : Outc := .next (evHeartbeatSend job s)
/-- HEARTBEAT_TIMEOUT (R327). -/
def execHeartbeatTimeout (job : Word) (s : State) : Outc := .next (evHeartbeatTimeout job s)
/-- BLOCK_QUEUE_REQUEST (R329). -/
def execBlockQueueRequest (q : SvcReq) (s : State) : Outc := .next (evBlockQueueRequest q s)
/-- RECORD_SEGMENT_REQUEST (R339). -/
def execRecordSegmentRequest (q : SvcReq) (s : State) : Outc := .next (evRecordSegmentRequest q s)
/-- REPLAY_LIMIT_EXPIRY (R338). -/
def execReplayLimitExpiry (pkg : Nat) (job : Word) (seg : Nat) (entry : Nat) (s : State) : Outc := .next (evReplayLimitExpiry pkg job seg entry s)
/-- ERROR_LOG_REQUEST (R354). -/
def execErrorLogRequest (q : SvcReq) (s : State) : Outc := .next (evErrorLogRequest q s)
/-- SUBMISSION_TAIL_WRITE (R357). -/
def execSubmissionTailWrite (pkg : Nat) (queue : Nat) (tail : Nat) (s : State) : Outc := .next (evSubmissionTailWrite pkg queue tail s)
/-- JOB_RECORD_ACCEPT (R358). -/
def execJobRecordAccept (pkg : Nat) (queue : Nat) (s : State) : Outc := .next (evJobRecordAccept pkg queue s)
/-- ROOT_UNIT_BIND (R360). -/
def execRootUnitBind (pkg : Nat) (job : Word) (s : State) : Outc := .next (evRootUnitBind pkg job s)
/-- HOST_CANCEL_WRITE (R361). -/
def execHostCancelWrite (pkg : Nat) (handle : Word) (s : State) : Outc := .next (evHostCancelWrite pkg handle s)
/-- JOB_END (R361). -/
def execJobEnd (job : Word) (s : State) : Outc := .next (evJobEnd job s)
/-- BAR0_REGISTER_WRITE (R4). -/
def execBar0RegisterWrite (pkg : Nat) (off : Nat) (data : List Byte) (s : State) : Outc := .next (evBar0RegisterWrite pkg off data s)
/-- SPDM_MESSAGE (R356). -/
def execSpdmMessage (pkg : Nat) (msg : List Byte) (s : State) : Outc := .next (evSpdmMessage pkg msg s)
/-- FIRMWARE_IMAGE_LOAD (R362). -/
def execFirmwareImageLoad (pkg : Nat) (comp : Firmware) (image : List Byte) (sig : List Byte) (version : Nat) (s : State) : Outc := .next (evFirmwareImageLoad pkg comp image sig version s)
/-- SECURITY_REQUEST (R364). -/
def execSecurityRequest (pkg : Nat) (r : SecReq) (s : State) : Outc := .next (evSecurityRequest pkg r s)
/-- OPERATING_POINT_CHANGE (R365). -/
def execOperatingPointChange (pkg : Nat) (island : Nat) (point : Nat) (forced : Bool) (s : State) : Outc := .next (evOperatingPointChange pkg island point forced s)
/-- TILE_RETIRE (R366). -/
def execTileRetire (n : Node) (s : State) : Outc := .next (evTileRetire n s)
/-- PORT_RETRAIN (R366). -/
def execPortRetrain (pkg : Nat) (port : Nat) (s : State) : Outc := .next (evPortRetrain pkg port s)
/-- VAULT_ROW_COPY (R366). -/
def execVaultRowCopy (n : Node) (row : Nat) (s : State) : Outc := .next (evVaultRowCopy n row s)
/-- SPAWN_REPLY_LAND (R101). -/
def execSpawnReplyLand (w : Who) (reason : Nat) (s : State) : Outc := .next (evSpawnReplyLand w reason s)
/-- ALLOCATOR_REPLY_LAND (R255). -/
def execAllocatorReplyLand (w : Who) (r : SvcReply) (s : State) : Outc := .next (evAllocatorReplyLand w r s)
/-- OPEN_WITHDRAWAL_ANSWER_LAND (R165). -/
def execOpenWithdrawalAnswerLand (w : Who) (held : Bool) (s : State) : Outc := .next (evOpenWithdrawalAnswerLand w held s)
/-- SOFT_ERROR (R351). -/
def execSoftError (e : ErrSite) (s : State) : Outc := .next (evSoftError e s)
/-- HOST_CXL_MEM_ACCESS (R356). -/
def execHostCxlMemAccess (pkg : Nat) (addr : Nat) (write : Option (List Byte)) (s : State) : Outc := .next (evHostCxlMemAccess pkg addr write s)
/-- HOST_LINK_TRAINING (R356). -/
def execHostLinkTraining (pkg : Nat) (lanes : Nat) (s : State) : Outc := .next (evHostLinkTraining pkg lanes s)

end Sys2Proof.Machine
end

