-- ==== Sys2Proof/Machine/Exact.lean ====
section
/-! DEFINITION. Exact accumulators (R38, R39, R150 to R154). -/

namespace Sys2Proof.Machine

/-- The value of an accumulator in units of 2^-2148, its state, and the flags raised so far (R38). -/
structure XVal where
  n : Int
  st : Nat
  flags : Nat
  deriving DecidableEq, Repr

/-- Accumulator of a tile. -/
def xaAt (t : Tile) (i : BitVec 3) : XAcc := t.xas[i.toNat]
/-- Its value. -/
def xaVal (x : XAcc) : XVal := ⟨x.n.toInt, x.st, 0⟩
/-- Sets the state where a sum leaves the range (R39). -/
def xaBound (x : XVal) : XVal := if 2 ^ 4351 ≤ x.n.natAbs then { x with st := 3, flags := x.flags ||| fOF } else x
/-- Adds an infinity (R39). -/
def xaAddInf (x : XVal) (neg : Bool) : XVal :=
  let g := if neg then 2 else 1
  if x.st = 0 then { x with st := g } else if x.st = g ∨ x.st = 3 then x else { x with st := 3, flags := x.flags ||| fNV }
/-- Adds the exact product of two f64 values, negated or not (R38, R39). -/
def xaAddProd (x : XVal) (neg : Bool) (a b : Nat) : XVal :=
  let f := Fmt.of .f64
  let fl (v : Nat) : XVal := { x with flags := x.flags ||| v }
  match f.read a, f.read b with
  | .nan s, .nan s' => { fl (if s || s' then fNV else 0) with st := 3 }
  | .nan s, _ => { fl (if s then fNV else 0) with st := 3 }
  | _, .nan s => { fl (if s then fNV else 0) with st := 3 }
  | .inf p, .inf q => xaAddInf x ((p != q) != neg)
  | .inf p, .fin q m _ => if m = 0 then { fl fNV with st := 3 } else xaAddInf x ((p != q) != neg)
  | .fin p m _, .inf q => if m = 0 then { fl fNV with st := 3 } else xaAddInf x ((p != q) != neg)
  | .fin p m e, .fin q m' e' =>
    if x.st ≠ 0 then x
    else
      let v : Int := m * m' * 2 ^ (e + e' + 2148).toNat
      xaBound { x with n := if (p != q) != neg then x.n - v else x.n + v }
/-- Adds an accumulator's value (R39, R153). -/
def xaAddVal (x y : XVal) (neg : Bool) : XVal :=
  match y.st with
  | 0 => if x.st ≠ 0 then x else xaBound { x with n := if neg then x.n - y.n else x.n + y.n }
  | 1 => xaAddInf x neg
  | 2 => xaAddInf x !neg
  | _ => { x with st := 3 }

/-- The first of the accumulators named that the unit does not hold. -/
def xaNotHeld (t : Tile) (r : SlotRef) (c : Ctx) (xs : List (BitVec 3)) : Option (BitVec 3) :=
  xs.find? fun i => (xaAt t i).holder ≠ some (r.slot, c.uid)
/-- Whether one of the accumulators named is busy (R153). -/
def xaBusy (s : State) (r : SlotRef) (xs : List (BitVec 3)) : Bool := xs.any fun i => s.now < (xaAt (tileAt s r.node) i).busyUntil
/-- Changes an accumulator and keeps those named busy for l cycles. -/
def xaMod (s : State) (r : SlotRef) (xs : List (BitVec 3)) (l : Nat) (d : BitVec 3) (f : XAcc → XAcc) : State :=
  let busy := dueIn s r.node l
  let s := modTile s r.node fun t => { t with xas := t.xas.set d.toNat (f (xaAt t d)) }
  xs.foldl (fun s i => modTile s r.node fun t =>
    { t with xas := t.xas.set i.toNat { xaAt t i with busyUntil := max (xaAt t i).busyUntil busy } }) s
/-- An accumulator is replaced whole, and the errors in it with it (R352). -/
def xaFresh (s : State) (r : SlotRef) (x : BitVec 3) : State := replaceUnits s r.node 4 (552 * x.toNat) (552 * x.toNat + 552)
/-- The accumulators named are read (R351, R352). -/
def xaFind (f : State → Act) : List (BitVec 3) → State → SlotRef → Ctx → Act
  | [], s, _, _ => f s
  | i :: xs, s, r, c => arrayFind 4 (552 * i.toNat) (552 * i.toNat + 552) s r c fun s => xaFind f xs s r c
/-- Checks of a form that needs its accumulators held and free (R150, R153); it reads those given second. -/
def xaHeld (xs reads : List (BitVec 3)) (f : State → Act) (s : State) (r : SlotRef) (c : Ctx) : Act :=
  match xaNotHeld (tileAt s r.node) r c xs with
  | some i => .trap fOperand 0 (i.setWidth 64)
  | none => if xaBusy s r xs then .retry .busy 0 0 0 else xaFind f reads s r c
/-- Writes a sum back. N of a state that is not finite is unspecified (R39): a free value, log 5. -/
def xaStore (s : State) (y : XVal) (x : XAcc) : XAcc :=
  { x with st := y.st, n := if y.st = 0 then BitVec.ofInt 4352 y.n else Config.freeAcc s.freeCtr }
/-- Completes an addition, with its flags, or traps (R153). -/
def xaFinish (s : State) (r : SlotRef) (c : Ctx) (xs : List (BitVec 3)) (l : Nat) (d : BitVec 3) (y : XVal) (a : FAcc) (srcs : List Reg) : Act :=
  fpEnd (xaMod (stepFree s) r xs (l + slowBy srcs) d (xaStore s y)) r c a srcs l []

/-- XA.GET claims a free accumulator; one of another job's has unspecified contents (R150, R153). -/
def execXaGet (h : Hdr) (x : BitVec 3) (d : PIx) : State → Outc :=
  runForm { i := .xaGet h x d, h := h, dsts := [.p d] } fun s r c =>
    let a := xaAt (tileAt s r.node) x
    let me := some (r.slot, c.uid)
    if a.holder = me ∧ xaBusy s r [x] then .retry .busy 0 0 0
    else if a.holder = me ∨ a.holder = none then
      let claim (a : XAcc) : XAcc :=
        if a.holder = me ∨ a.job = c.d.job then { a with holder := me, job := c.d.job }
        else { a with holder := me, job := c.d.job, n := Config.freeAcc s.freeCtr, st := (Config.freeWord s.freeCtr).toNat % 4 }
      results (xaMod (stepFree s) r [x] 3 x claim) r c [] 3 [(.p d, pval true)]
    else results (xaMod s r [x] 3 x id) r c [] 3 [(.p d, pval false)]
/-- XA.PUT (R153). A pre-empted unit may wait for the accumulator (R151). -/
def execXaPut (h : Hdr) (x : BitVec 3) : State → Outc :=
  runForm { i := .xaPut h x, h := h } fun s r c =>
    xaHeld [x] [] (fun s => .done (askWork (xaMod s r [x] 3 x fun a => { a with holder := none, job := c.d.job }) r.node)) s r c
/-- XA.CLR (R153). -/
def execXaClr (h : Hdr) (x : BitVec 3) : State → Outc :=
  runForm { i := .xaClr h x, h := h } fun s r c =>
    xaHeld [x] [] (fun s => .done (xaMod (xaFresh s r x) r [x] 3 x fun a => { a with n := 0, st := 0 })) s r c
/-- XA.ADDP (R153). -/
def execXaAddp (h : Hdr) (x : BitVec 3) (neg : Bool) (a b : SIx) : State → Outc :=
  runForm { i := .xaAddp h x neg a b, h := h, srcs := [.s a, .s b] } fun s r c =>
    let y := xaAddProd (xaVal (xaAt (tileAt s r.node) x)) neg (rs c a).toNat (rs c b).toNat
    xaHeld [x] [x] (fun s => xaFinish s r c [x] 8 x y ((facc c).add (enabled c) 0 y.flags) [.s a, .s b]) s r c
/-- XA.ADDV adds the lane products in ascending order (R153). -/
def execXaAddv (h : Hdr) (x : BitVec 3) (neg : Bool) (k : KIx) (a b : VIx) : State → Outc :=
  runForm { i := .xaAddv h x neg k a b, h := h, srcs := [.v a, .v b, .k k] } fun s r c =>
    let o := (List.range 32).foldl (fun (y : XVal × FAcc) j =>
      if laneOn c k j then
        let z := xaAddProd { y.1 with flags := 0 } neg (laneAt 64 (rv c a) j) (laneAt 64 (rv c b) j)
        (z, y.2.add (enabled c) j z.flags)
      else y) (xaVal (xaAt (tileAt s r.node) x), facc c)
    xaHeld [x] [x] (fun s => xaFinish s r c [x] 16 x o.1 o.2 [.v a, .v b]) s r c
/-- XA.ADD (R153). -/
def execXaAdd (h : Hdr) (x y : BitVec 3) (neg : Bool) : State → Outc :=
  runForm { i := .xaAdd h x y neg, h := h } fun s r c =>
    let t := tileAt s r.node
    let z := xaAddVal (xaVal (xaAt t x)) (xaVal (xaAt t y)) neg
    xaHeld [x, y] [x, y] (fun s => xaFinish s r c [x, y] 8 x z ((facc c).add (enabled c) 0 z.flags) []) s r c
/-- The exact sign; none for a NaN state (R39). -/
def xaSignOf (x : XAcc) : Option Int :=
  match x.st with
  | 0 => some (if x.n.toInt = 0 then 0 else if x.n.toInt < 0 then -1 else 1)
  | 1 => some 1
  | 2 => some (-1)
  | _ => none
/-- XA.SIGN (R153). -/
def execXaSign (h : Hdr) (x : BitVec 3) (cond : XaCond) (d : PIx) : State → Outc :=
  runForm { i := .xaSign h x cond d, h := h, dsts := [.p d] } fun s r c =>
    let g := xaSignOf (xaAt (tileAt s r.node) x)
    let b := match g with
      | none => false
      | some v => match cond with
        | .gt => decide (0 < v)
        | .lt => decide (v < 0)
        | .eq => decide (v = 0)
    xaHeld [x] [x] (fun s => fpEnd (xaMod s r [x] 6 x id) r c ((facc c).add (enabled c) 0 (if g.isNone then fNV else 0)) [] 6 [(.p d, pval b)]) s r c
/-- XA.RND (R39, R153). An exact zero is +0, and -0 under rdn (R28). -/
def execXaRnd (h : Hdr) (t : Ty) (rm : Rm) (x : BitVec 3) (d : SIx) : State → Outc :=
  runForm { i := .xaRnd h t rm x d, h := h, dsts := [.s d] } fun s r c =>
    let a := xaAt (tileAt s r.node) x
    let f := Fmt.of t
    let o : Nat × FAcc := match a.st with
      | 0 =>
        let dr := (facc c).draw (resolveRm rm c.rmode)
        let z := f.round dr.1 ⟨a.n.toInt < 0 || (a.n.toInt = 0 && dr.1.rm = .rdn), a.n.toInt.natAbs, -2148, false⟩
        (z.code, dr.2.add (enabled c) 0 z.flags)
      | 1 => (f.infCode, facc c)
      | 2 => (f.signed true f.infCode, facc c)
      | _ => (f.nanCode, facc c)
    xaHeld [x] [x] (fun s => fpEnd (xaMod s r [x] 10 x id) r c o.2 [] 10 [(.s d, BitVec.ofNat 2048 o.1)]) s r c

/-- Checks of an image's address, then what is done at its offset (R154, R211). -/
def xaPad (ea : Word) (s : State) (r : SlotRef) (f : Nat → Act) : Act :=
  if isRemote ea then .trap fOperand 0 0
  else if ea.toNat % 8 ≠ 0 then .trap fMisaligned ea 0
  else if !padOk (tileAt s r.node) ea.toNat 552 then .trap fBounds ea 0
  else f ea.toNat
/-- XA.SAVE (R154). -/
def execXaSave (h : Hdr) (x : BitVec 3) (a : SIx) (ofs : BitVec 32) : State → Outc :=
  runForm { i := .xaSave h x a ofs, h := h, srcs := [.s a] } fun s r c =>
    let v := xaAt (tileAt s r.node) x
    xaHeld [x] [x] (fun s => xaPad (eaOf c a ofs) s r fun off =>
      .done (padStore (xaMod s r [x] (72 + slowBy [.s a]) x id) r.node off (bytesOfNat 544 v.n.toNat ++ bytesOfNat 8 v.st))) s r c
/-- XA.LOAD; of the finite images only -2^4351 is out of range (R154). -/
def execXaLoad (h : Hdr) (x : BitVec 3) (a : SIx) (ofs : BitVec 32) : State → Outc :=
  runForm { i := .xaLoad h x a ofs, h := h, srcs := [.s a] } fun s r c =>
    xaHeld [x] [] (fun s => xaPad (eaOf c a ofs) s r fun off => padFind s r c off 552 fun s =>
      let b := padRead (tileAt s r.node) off 552
      let y := xaBound ⟨(BitVec.ofNat 4352 (natOfBytes (b.take 544))).toInt, 0, 0⟩
      let st := natOfBytes (b.drop 544) % 4
      let z : XVal := if st = 0 then y else { y with st := st, flags := 0 }
      let put (v : XAcc) : XAcc := { v with st := z.st, n := BitVec.ofInt 4352 z.n }
      fpEnd (xaMod (xaFresh s r x) r [x] (72 + slowBy [.s a]) x put) r c ((facc c).add (enabled c) 0 z.flags) [.s a] 72 []) s r c

end Sys2Proof.Machine
end

