-- ==== Sys2Proof/Machine/Scalar.lean ====
section
/-! DEFINITION. Scalar arithmetic, bit fields, comparison, moves, predicates and presence (R126 to R132). -/

namespace Sys2Proof.Machine

/-! ### Shared operations -/

/-- A register form: d from a and b after l cycles (R126). -/
def alu (i : Instr) (h : Hdr) (d a b : SIx) (l : Nat) (op : Word → Word → Word) : State → Outc :=
  runForm { i := i, h := h, srcs := [.s a, .s b], dsts := [.s d], rgn := true }
    fun s r c => results s r c [.s a, .s b] l [(.s d, sval (op (rs c a) (rs c b)))]
/-- A register form that divides: divide_by_zero where b is 0 (R127). -/
def aluDiv (i : Instr) (h : Hdr) (d a b : SIx) (op : Word → Word → Word) : State → Outc :=
  runForm { i := i, h := h, srcs := [.s a, .s b], dsts := [.s d], rgn := true }
    fun s r c => if rs c b = 0 then .trap fDivZero 0 0
      else results s r c [.s a, .s b] 24 [(.s d, sval (op (rs c a) (rs c b)))]
/-- An immediate form: d from a and the extended immediate after l cycles (R126). -/
def aluImm (i : Instr) (h : Hdr) (d a : SIx) (imm : BitVec 48) (l : Nat) (op : Word → Word → Word) : State → Outc :=
  runForm { i := i, h := h, srcs := [.s a], dsts := [.s d], rgn := true }
    fun s r c => results s r c [.s a] l [(.s d, sval (op (rs c a) (sx48 imm)))]
/-- A form of one source (R128). -/
def alu1 (i : Instr) (h : Hdr) (d a : SIx) (op : Word → Word) : State → Outc :=
  runForm { i := i, h := h, srcs := [.s a], dsts := [.s d], rgn := true }
    fun s r c => results s r c [.s a] 3 [(.s d, sval (op (rs c a)))]

/-- High half of the signed product (Table 5 of chapter 05). -/
def mulhs (a b : Word) : Word := BitVec.ofInt 64 (a.toInt * b.toInt / 2 ^ 64)
/-- High half of the unsigned product. -/
def mulhu (a b : Word) : Word := BitVec.ofNat 64 (a.toNat * b.toNat / 2 ^ 64)
/-- Signed quotient, truncated toward zero; modulo 2^64 (R127). -/
def divs (a b : Word) : Word := BitVec.ofInt 64 (a.toInt.tdiv b.toInt)
/-- a - divs a b * b (Table 5). -/
def rems (a b : Word) : Word := BitVec.ofInt 64 (a.toInt.tmod b.toInt)
/-- The shift count of a register form: the low six bits. A well-formed immediate is 0 to 63, so it is the same (R127). -/
def cnt (b : Word) : Nat := b.toNat % 64
/-- Signed minimum. -/
def mins (a b : Word) : Word := if a.toInt ≤ b.toInt then a else b
/-- Signed maximum. -/
def maxs (a b : Word) : Word := if a.toInt ≤ b.toInt then b else a
/-- Unsigned minimum. -/
def minu (a b : Word) : Word := if a.toNat ≤ b.toNat then a else b
/-- Unsigned maximum. -/
def maxu (a b : Word) : Word := if a.toNat ≤ b.toNat then b else a
/-- Signed sum, saturated (R127). -/
def addSat (a b : Word) : Word := BitVec.ofInt 64 (clampInt (-(2 ^ 63)) (2 ^ 63 - 1) (a.toInt + b.toInt))

/-! ### OP 0x10 and 0x11 (R127) -/

/-- ADD (R127). -/
def execAdd (h : Hdr) (d a b : SIx) : State → Outc := alu (.add h d a b) h d a b 3 (fun x y => x + y)
/-- SUB (R127). -/
def execSub (h : Hdr) (d a b : SIx) : State → Outc := alu (.sub h d a b) h d a b 3 (fun x y => x - y)
/-- MUL (R127). -/
def execMul (h : Hdr) (d a b : SIx) : State → Outc := alu (.mul h d a b) h d a b 5 (fun x y => x * y)
/-- MULH (R127). -/
def execMulh (h : Hdr) (d a b : SIx) : State → Outc := alu (.mulh h d a b) h d a b 5 mulhs
/-- MULHN (R127). -/
def execMulhn (h : Hdr) (d a b : SIx) : State → Outc := alu (.mulhn h d a b) h d a b 5 mulhu
/-- DIV (R127). -/
def execDiv (h : Hdr) (d a b : SIx) : State → Outc := aluDiv (.div h d a b) h d a b divs
/-- DIVN (R127). -/
def execDivn (h : Hdr) (d a b : SIx) : State → Outc := aluDiv (.divn h d a b) h d a b (fun x y => x / y)
/-- REM (R127). -/
def execRem (h : Hdr) (d a b : SIx) : State → Outc := aluDiv (.rem h d a b) h d a b rems
/-- REMN (R127). -/
def execRemn (h : Hdr) (d a b : SIx) : State → Outc := aluDiv (.remn h d a b) h d a b (fun x y => x % y)
/-- AND (R127). -/
def execAnd (h : Hdr) (d a b : SIx) : State → Outc := alu (.and h d a b) h d a b 3 (fun x y => x &&& y)
/-- OR (R127). -/
def execOr (h : Hdr) (d a b : SIx) : State → Outc := alu (.or h d a b) h d a b 3 (fun x y => x ||| y)
/-- XOR (R127). -/
def execXor (h : Hdr) (d a b : SIx) : State → Outc := alu (.xor h d a b) h d a b 3 (fun x y => x ^^^ y)
/-- ANDN (R127). -/
def execAndn (h : Hdr) (d a b : SIx) : State → Outc := alu (.andn h d a b) h d a b 3 (fun x y => x &&& ~~~y)
/-- SHL (R127). -/
def execShl (h : Hdr) (d a b : SIx) : State → Outc := alu (.shl h d a b) h d a b 3 (fun x y => x <<< cnt y)
/-- SHR (R127). -/
def execShr (h : Hdr) (d a b : SIx) : State → Outc := alu (.shr h d a b) h d a b 3 (fun x y => x >>> cnt y)
/-- SAR (R127). -/
def execSar (h : Hdr) (d a b : SIx) : State → Outc := alu (.sar h d a b) h d a b 3 (fun x y => x.sshiftRight (cnt y))
/-- ROL (R127). -/
def execRol (h : Hdr) (d a b : SIx) : State → Outc := alu (.rol h d a b) h d a b 3 (fun x y => x.rotateLeft (cnt y))
/-- MIN (R127). -/
def execMin (h : Hdr) (d a b : SIx) : State → Outc := alu (.min h d a b) h d a b 3 mins
/-- MAX (R127). -/
def execMax (h : Hdr) (d a b : SIx) : State → Outc := alu (.max h d a b) h d a b 3 maxs
/-- MINN (R127). -/
def execMinn (h : Hdr) (d a b : SIx) : State → Outc := alu (.minn h d a b) h d a b 3 minu
/-- MAXN (R127). -/
def execMaxn (h : Hdr) (d a b : SIx) : State → Outc := alu (.maxn h d a b) h d a b 3 maxu
/-- ADDSAT (R127). -/
def execAddsat (h : Hdr) (d a b : SIx) : State → Outc := alu (.addsat h d a b) h d a b 3 addSat
/-- ADD with an immediate (R127). -/
def execAddImm (h : Hdr) (d a : SIx) (imm : BitVec 48) : State → Outc := aluImm (.addImm h d a imm) h d a imm 3 (fun x y => x + y)
/-- SUB with an immediate (R127). -/
def execSubImm (h : Hdr) (d a : SIx) (imm : BitVec 48) : State → Outc := aluImm (.subImm h d a imm) h d a imm 3 (fun x y => x - y)
/-- MUL with an immediate (R127). -/
def execMulImm (h : Hdr) (d a : SIx) (imm : BitVec 48) : State → Outc := aluImm (.mulImm h d a imm) h d a imm 5 (fun x y => x * y)
/-- MULH with an immediate (R127). -/
def execMulhImm (h : Hdr) (d a : SIx) (imm : BitVec 48) : State → Outc := aluImm (.mulhImm h d a imm) h d a imm 5 mulhs
/-- MULHN with an immediate (R127). -/
def execMulhnImm (h : Hdr) (d a : SIx) (imm : BitVec 48) : State → Outc := aluImm (.mulhnImm h d a imm) h d a imm 5 mulhu
/-- DIV with an immediate (R127). -/
def execDivImm (h : Hdr) (d a : SIx) (imm : BitVec 48) : State → Outc := aluImm (.divImm h d a imm) h d a imm 24 divs
/-- DIVN with an immediate (R127). -/
def execDivnImm (h : Hdr) (d a : SIx) (imm : BitVec 48) : State → Outc := aluImm (.divnImm h d a imm) h d a imm 24 (fun x y => x / y)
/-- REM with an immediate (R127). -/
def execRemImm (h : Hdr) (d a : SIx) (imm : BitVec 48) : State → Outc := aluImm (.remImm h d a imm) h d a imm 24 rems
/-- REMN with an immediate (R127). -/
def execRemnImm (h : Hdr) (d a : SIx) (imm : BitVec 48) : State → Outc := aluImm (.remnImm h d a imm) h d a imm 24 (fun x y => x % y)
/-- AND with an immediate (R127). -/
def execAndImm (h : Hdr) (d a : SIx) (imm : BitVec 48) : State → Outc := aluImm (.andImm h d a imm) h d a imm 3 (fun x y => x &&& y)
/-- OR with an immediate (R127). -/
def execOrImm (h : Hdr) (d a : SIx) (imm : BitVec 48) : State → Outc := aluImm (.orImm h d a imm) h d a imm 3 (fun x y => x ||| y)
/-- XOR with an immediate (R127). -/
def execXorImm (h : Hdr) (d a : SIx) (imm : BitVec 48) : State → Outc := aluImm (.xorImm h d a imm) h d a imm 3 (fun x y => x ^^^ y)
/-- ANDN with an immediate (R127). -/
def execAndnImm (h : Hdr) (d a : SIx) (imm : BitVec 48) : State → Outc := aluImm (.andnImm h d a imm) h d a imm 3 (fun x y => x &&& ~~~y)
/-- SHL with an immediate (R127). -/
def execShlImm (h : Hdr) (d a : SIx) (imm : BitVec 48) : State → Outc := aluImm (.shlImm h d a imm) h d a imm 3 (fun x y => x <<< cnt y)
/-- SHR with an immediate (R127). -/
def execShrImm (h : Hdr) (d a : SIx) (imm : BitVec 48) : State → Outc := aluImm (.shrImm h d a imm) h d a imm 3 (fun x y => x >>> cnt y)
/-- SAR with an immediate (R127). -/
def execSarImm (h : Hdr) (d a : SIx) (imm : BitVec 48) : State → Outc := aluImm (.sarImm h d a imm) h d a imm 3 (fun x y => x.sshiftRight (cnt y))
/-- ROL with an immediate (R127). -/
def execRolImm (h : Hdr) (d a : SIx) (imm : BitVec 48) : State → Outc := aluImm (.rolImm h d a imm) h d a imm 3 (fun x y => x.rotateLeft (cnt y))
/-- MIN with an immediate (R127). -/
def execMinImm (h : Hdr) (d a : SIx) (imm : BitVec 48) : State → Outc := aluImm (.minImm h d a imm) h d a imm 3 mins
/-- MAX with an immediate (R127). -/
def execMaxImm (h : Hdr) (d a : SIx) (imm : BitVec 48) : State → Outc := aluImm (.maxImm h d a imm) h d a imm 3 maxs
/-- MINN with an immediate (R127). -/
def execMinnImm (h : Hdr) (d a : SIx) (imm : BitVec 48) : State → Outc := aluImm (.minnImm h d a imm) h d a imm 3 minu
/-- MAXN with an immediate (R127). -/
def execMaxnImm (h : Hdr) (d a : SIx) (imm : BitVec 48) : State → Outc := aluImm (.maxnImm h d a imm) h d a imm 3 maxu
/-- ADDSAT with an immediate (R127). -/
def execAddsatImm (h : Hdr) (d a : SIx) (imm : BitVec 48) : State → Outc := aluImm (.addsatImm h d a imm) h d a imm 3 addSat

/-! ### Bit fields (R128) -/

/-- Leading zero bits, counted over the first n bits from the top. -/
def clzFrom (x : Word) : Nat → Nat
  | 0 => 0
  | n + 1 => if x.getLsbD n then 0 else 1 + clzFrom x n
/-- Trailing zero bits, counted over n bits from bit 64 - n. -/
def ctzFrom (x : Word) : Nat → Nat
  | 0 => 0
  | n + 1 => if x.getLsbD (63 - n) then 0 else 1 + ctzFrom x n
/-- One bits below bit n. -/
def popBelow (x : Nat) : Nat → Nat
  | 0 => 0
  | n + 1 => x / 2 ^ n % 2 + popBelow x n
/-- Bits in reverse order. -/
def bitRev (x : Word) : Word := BitVec.ofNat 64 ((List.range 64).foldl (fun n i => 2 * n + (x.getLsbD i).toNat) 0)
/-- Bytes in reverse order. -/
def byteRev (x : Word) : Word := BitVec.ofNat 64 (natOfBytes (bytesOfNat 8 x.toNat).reverse)
/-- A field, zero-extended. -/
def fieldU (x : Word) (pos len : Nat) : Word := BitVec.ofNat 64 (x.toNat / 2 ^ pos % 2 ^ len)
/-- A field, sign-extended. -/
def fieldS (x : Word) (pos len : Nat) : Word := BitVec.ofInt 64 (toSigned len (x.toNat / 2 ^ pos % 2 ^ len))
/-- A field replaced (R128). -/
def fieldIns (old x : Word) (pos len : Nat) : Word :=
  let m := BitVec.ofNat 64 ((2 ^ len - 1) * 2 ^ pos)
  (old &&& ~~~m) ||| (x <<< pos &&& m)

/-- CLZ (R128). -/
def execClz (h : Hdr) (d a : SIx) : State → Outc := alu1 (.clz h d a) h d a fun x => BitVec.ofNat 64 (clzFrom x 64)
/-- CTZ (R128). -/
def execCtz (h : Hdr) (d a : SIx) : State → Outc := alu1 (.ctz h d a) h d a fun x => BitVec.ofNat 64 (ctzFrom x 64)
/-- POPC (R128). -/
def execPopc (h : Hdr) (d a : SIx) : State → Outc := alu1 (.popc h d a) h d a fun x => BitVec.ofNat 64 (popBelow x.toNat 64)
/-- BREV (R128). -/
def execBrev (h : Hdr) (d a : SIx) : State → Outc := alu1 (.brev h d a) h d a bitRev
/-- EXT (R128). -/
def execExt (h : Hdr) (pos lenm1 : BitVec 6) (d a : SIx) : State → Outc :=
  alu1 (.ext h pos lenm1 d a) h d a fun x => fieldS x pos.toNat (lenm1.toNat + 1)
/-- EXTN (R128). -/
def execExtn (h : Hdr) (pos lenm1 : BitVec 6) (d a : SIx) : State → Outc :=
  alu1 (.extn h pos lenm1 d a) h d a fun x => fieldU x pos.toNat (lenm1.toNat + 1)
/-- INS reads its destination as well (R128). -/
def execIns (h : Hdr) (pos lenm1 : BitVec 6) (d a : SIx) : State → Outc :=
  runForm { i := .ins h pos lenm1 d a, h := h, srcs := [.s a, .s d], dsts := [.s d], rgn := true }
    fun s r c => results s r c [.s a, .s d] 3 [(.s d, sval (fieldIns (rs c d) (rs c a) pos.toNat (lenm1.toNat + 1)))]
/-- BSWAP (R128). -/
def execBswap (h : Hdr) (d a : SIx) : State → Outc := alu1 (.bswap h d a) h d a byteRev

/-! ### Compare, select, move (R130) -/

/-- The relation of a condition (R129). -/
def condHolds (x : Cond) (a b : Word) : Bool :=
  match x with
  | .eq => a = b
  | .ne => a ≠ b
  | .lt => a.toInt < b.toInt
  | .le => a.toInt ≤ b.toInt
  | .ltn => a.toNat < b.toNat
  | .len => a.toNat ≤ b.toNat

/-- CMP (R130). -/
def execCmp (h : Hdr) (x : Cond) (d : PIx) (a b : SIx) : State → Outc :=
  runForm { i := .cmp h x d a b, h := h, srcs := [.s a, .s b], dsts := [.p d], rgn := true }
    fun s r c => results s r c [.s a, .s b] 3 [(.p d, pval (condHolds x (rs c a) (rs c b)))]
/-- SEL (R130). -/
def execSel (h : Hdr) (d a b : SIx) (k : PIx) : State → Outc :=
  runForm { i := .sel h d a b k, h := h, srcs := [.s a, .s b, .p k], dsts := [.s d], rgn := true }
    fun s r c => results s r c [.s a, .s b] 3 [(.s d, sval (if rp c k then rs c a else rs c b))]
/-- MOV (R130). -/
def execMov (h : Hdr) (d a : SIx) : State → Outc := alu1 (.mov h d a) h d a fun x => x
/-- MOVI (R130). -/
def execMovi (h : Hdr) (d : SIx) (imm : BitVec 48) : State → Outc :=
  runForm { i := .movi h d imm, h := h, dsts := [.s d], rgn := true }
    fun s r c => results s r c [] 3 [(.s d, sval (sx48 imm))]
/-- MOVHI reads its destination as well (R130). -/
def execMovhi (h : Hdr) (d : SIx) (imm : BitVec 16) : State → Outc :=
  runForm { i := .movhi h d imm, h := h, srcs := [.s d], dsts := [.s d], rgn := true }
    fun s r c => results s r c [.s d] 3 [(.s d, sval (BitVec.ofNat 64 (imm.toNat * 2 ^ 48 + (rs c d).toNat % 2 ^ 48)))]
/-- LEA (R130). -/
def execLea (h : Hdr) (sz : Sz) (d a b : SIx) (ofs : BitVec 32) : State → Outc :=
  runForm { i := .lea h sz d a b ofs, h := h, srcs := [.s a, .s b], dsts := [.s d], rgn := true }
    fun s r c => results s r c [.s a, .s b] 3 [(.s d, sval (eaOf c a ofs + rs c b * BitVec.ofNat 64 sz.bytes))]

/-! ### Predicates (R131) -/

/-- A predicate form of two sources. A parked one is retried from its fetch, so no form need be kept of it. -/
def pred2 (h : Hdr) (d a b : PIx) (op : Bool → Bool → Bool) : State → Outc :=
  runForm { i := .nop h, h := h, srcs := [.p a, .p b], dsts := [.p d], rgn := true }
    fun s r c => results s r c [] 3 [(.p d, pval (op (rp c a) (rp c b)))]
/-- PAND (R131). -/
def execPand (h : Hdr) (d a b : PIx) : State → Outc := pred2 h d a b fun x y => x && y
/-- POR (R131). -/
def execPor (h : Hdr) (d a b : PIx) : State → Outc := pred2 h d a b fun x y => x || y
/-- PXOR (R131). -/
def execPxor (h : Hdr) (d a b : PIx) : State → Outc := pred2 h d a b fun x y => x ^^ y
/-- PNOT (R131). -/
def execPnot (h : Hdr) (d a : PIx) : State → Outc :=
  runForm { i := .nop h, h := h, srcs := [.p a], dsts := [.p d], rgn := true }
    fun s r c => results s r c [] 3 [(.p d, pval (!rp c a))]
/-- PMOV in its three shapes (R131). -/
def execPmov (h : Hdr) (o : PmovOps) : State → Outc :=
  match o with
  | .pp d a => runForm { i := .nop h, h := h, srcs := [.p a], dsts := [.p d], rgn := true }
      fun s r c => results s r c [] 3 [(.p d, pval (rp c a))]
  | .ps d a => runForm { i := .nop h, h := h, srcs := [.s a], dsts := [.p d], rgn := true }
      fun s r c => results s r c [.s a] 3 [(.p d, pval (rs c a ≠ 0))]
  | .sp d a => runForm { i := .nop h, h := h, srcs := [.p a], dsts := [.s d], rgn := true }
      fun s r c => results s r c [] 3 [(.s d, sval (BitVec.ofNat 64 (rp c a).toNat))]

/-! ### Presence (R132) -/

/-- Forms of OP 0x10 to 0x15 run inside a region only with a destination that is no v register (R251). -/
def notV : Reg → Bool
  | .v _ => false
  | _ => true

/-- ISFULL reads the presence bit and consumes nothing (R132); a full bound register stays full (R122). -/
def execIsfull (h : Hdr) (d : PIx) (a : Reg) : State → Outc :=
  runForm { i := .isfull h d a, h := h, dsts := [.p d], rgn := true }
    fun s r c => results s r c [] 3 [(.p d, pval (presOf c a = .full))]
/-- MKEMPTY (R132). -/
def execMkempty (h : Hdr) (d : Reg) : State → Outc :=
  runForm { i := .mkempty h d, h := h, dsts := [d], rgn := notV d }
    fun s r _ => .done (modCtx s r fun c => setPres c d .empty)
/-- MKFULL (R132). -/
def execMkfull (h : Hdr) (d : Reg) : State → Outc :=
  runForm { i := .mkfull h d, h := h, dsts := [d], rgn := notV d }
    fun s r _ => .done (modCtx s r fun c => setPres c d .full)

end Sys2Proof.Machine
end

