-- ==== Sys2Proof/Machine/Dispatch.lean ====
section
/-! DEFINITION. The meaning of every row of the opcode table. -/

namespace Sys2Proof.Machine

def exec (i : Instr) (s : State) : Host.Outcome State Fault Refusal :=
  match i with
  | .br h off => Sys2Proof.Machine.execBr h off s
  | .bri h a => Sys2Proof.Machine.execBri h a s
  | .call h d off => Sys2Proof.Machine.execCall h d off s
  | .calli h d a => Sys2Proof.Machine.execCalli h d a s
  | .ret h a => Sys2Proof.Machine.execRet h a s
  | .loop h d off => Sys2Proof.Machine.execLoop h d off s
  | .exit h => Sys2Proof.Machine.execExit h s
  | .yield h => Sys2Proof.Machine.execYield h s
  | .park h => Sys2Proof.Machine.execPark h s
  | .nop h => Sys2Proof.Machine.execNop h s
  | .sleepr h imm => Sys2Proof.Machine.execSleepr h imm s
  | .mfsr h d imm => Sys2Proof.Machine.execMfsr h d imm s
  | .mtsr h a imm => Sys2Proof.Machine.execMtsr h a imm s
  | .spawnAt h d a b c => Sys2Proof.Machine.execSpawnAt h d a b c s
  | .spawnRet h a => Sys2Proof.Machine.execSpawnRet h a s
  | .spawnQ h d a b c => Sys2Proof.Machine.execSpawnQ h d a b c s
  | .launch h d a => Sys2Proof.Machine.execLaunch h d a s
  | .graphOpen h d => Sys2Proof.Machine.execGraphOpen h d s
  | .graphAdd h d a b => Sys2Proof.Machine.execGraphAdd h d a b s
  | .graphEdge h a b c => Sys2Proof.Machine.execGraphEdge h a b c s
  | .graphSubmit h a => Sys2Proof.Machine.execGraphSubmit h a s
  | .doneWait h lvl poll d a => Sys2Proof.Machine.execDoneWait h lvl poll d a s
  | .cancel h lvl a => Sys2Proof.Machine.execCancel h lvl a s
  | .phaseEnter h d a => Sys2Proof.Machine.execPhaseEnter h d a s
  | .phaseLeave h d => Sys2Proof.Machine.execPhaseLeave h d s
  | .add h d a b => Sys2Proof.Machine.execAdd h d a b s
  | .sub h d a b => Sys2Proof.Machine.execSub h d a b s
  | .mul h d a b => Sys2Proof.Machine.execMul h d a b s
  | .mulh h d a b => Sys2Proof.Machine.execMulh h d a b s
  | .mulhn h d a b => Sys2Proof.Machine.execMulhn h d a b s
  | .div h d a b => Sys2Proof.Machine.execDiv h d a b s
  | .divn h d a b => Sys2Proof.Machine.execDivn h d a b s
  | .rem h d a b => Sys2Proof.Machine.execRem h d a b s
  | .remn h d a b => Sys2Proof.Machine.execRemn h d a b s
  | .and h d a b => Sys2Proof.Machine.execAnd h d a b s
  | .or h d a b => Sys2Proof.Machine.execOr h d a b s
  | .xor h d a b => Sys2Proof.Machine.execXor h d a b s
  | .andn h d a b => Sys2Proof.Machine.execAndn h d a b s
  | .shl h d a b => Sys2Proof.Machine.execShl h d a b s
  | .shr h d a b => Sys2Proof.Machine.execShr h d a b s
  | .sar h d a b => Sys2Proof.Machine.execSar h d a b s
  | .rol h d a b => Sys2Proof.Machine.execRol h d a b s
  | .min h d a b => Sys2Proof.Machine.execMin h d a b s
  | .max h d a b => Sys2Proof.Machine.execMax h d a b s
  | .minn h d a b => Sys2Proof.Machine.execMinn h d a b s
  | .maxn h d a b => Sys2Proof.Machine.execMaxn h d a b s
  | .addsat h d a b => Sys2Proof.Machine.execAddsat h d a b s
  | .addImm h d a imm => Sys2Proof.Machine.execAddImm h d a imm s
  | .subImm h d a imm => Sys2Proof.Machine.execSubImm h d a imm s
  | .mulImm h d a imm => Sys2Proof.Machine.execMulImm h d a imm s
  | .mulhImm h d a imm => Sys2Proof.Machine.execMulhImm h d a imm s
  | .mulhnImm h d a imm => Sys2Proof.Machine.execMulhnImm h d a imm s
  | .divImm h d a imm => Sys2Proof.Machine.execDivImm h d a imm s
  | .divnImm h d a imm => Sys2Proof.Machine.execDivnImm h d a imm s
  | .remImm h d a imm => Sys2Proof.Machine.execRemImm h d a imm s
  | .remnImm h d a imm => Sys2Proof.Machine.execRemnImm h d a imm s
  | .andImm h d a imm => Sys2Proof.Machine.execAndImm h d a imm s
  | .orImm h d a imm => Sys2Proof.Machine.execOrImm h d a imm s
  | .xorImm h d a imm => Sys2Proof.Machine.execXorImm h d a imm s
  | .andnImm h d a imm => Sys2Proof.Machine.execAndnImm h d a imm s
  | .shlImm h d a imm => Sys2Proof.Machine.execShlImm h d a imm s
  | .shrImm h d a imm => Sys2Proof.Machine.execShrImm h d a imm s
  | .sarImm h d a imm => Sys2Proof.Machine.execSarImm h d a imm s
  | .rolImm h d a imm => Sys2Proof.Machine.execRolImm h d a imm s
  | .minImm h d a imm => Sys2Proof.Machine.execMinImm h d a imm s
  | .maxImm h d a imm => Sys2Proof.Machine.execMaxImm h d a imm s
  | .minnImm h d a imm => Sys2Proof.Machine.execMinnImm h d a imm s
  | .maxnImm h d a imm => Sys2Proof.Machine.execMaxnImm h d a imm s
  | .addsatImm h d a imm => Sys2Proof.Machine.execAddsatImm h d a imm s
  | .clz h d a => Sys2Proof.Machine.execClz h d a s
  | .ctz h d a => Sys2Proof.Machine.execCtz h d a s
  | .popc h d a => Sys2Proof.Machine.execPopc h d a s
  | .brev h d a => Sys2Proof.Machine.execBrev h d a s
  | .ext h pos lenm1 d a => Sys2Proof.Machine.execExt h pos lenm1 d a s
  | .extn h pos lenm1 d a => Sys2Proof.Machine.execExtn h pos lenm1 d a s
  | .ins h pos lenm1 d a => Sys2Proof.Machine.execIns h pos lenm1 d a s
  | .bswap h d a => Sys2Proof.Machine.execBswap h d a s
  | .cmp h cond d a b => Sys2Proof.Machine.execCmp h cond d a b s
  | .sel h d a b c => Sys2Proof.Machine.execSel h d a b c s
  | .mov h d a => Sys2Proof.Machine.execMov h d a s
  | .movi h d imm => Sys2Proof.Machine.execMovi h d imm s
  | .movhi h d imm => Sys2Proof.Machine.execMovhi h d imm s
  | .lea h sz d a b ofs => Sys2Proof.Machine.execLea h sz d a b ofs s
  | .isfull h d a => Sys2Proof.Machine.execIsfull h d a s
  | .mkempty h d => Sys2Proof.Machine.execMkempty h d s
  | .mkfull h d => Sys2Proof.Machine.execMkfull h d s
  | .vadd h t rm m d a b => Sys2Proof.Machine.execVadd h t rm m d a b s
  | .vsub h t rm m d a b => Sys2Proof.Machine.execVsub h t rm m d a b s
  | .vmul h t rm m d a b => Sys2Proof.Machine.execVmul h t rm m d a b s
  | .vfma h t rm m d a b c => Sys2Proof.Machine.execVfma h t rm m d a b c s
  | .vfms h t rm m d a b c => Sys2Proof.Machine.execVfms h t rm m d a b c s
  | .vfnma h t rm m d a b c => Sys2Proof.Machine.execVfnma h t rm m d a b c s
  | .vdiv h t rm m d a b => Sys2Proof.Machine.execVdiv h t rm m d a b s
  | .vsqrt h t rm m d a => Sys2Proof.Machine.execVsqrt h t rm m d a s
  | .vabs h t m d a => Sys2Proof.Machine.execVabs h t m d a s
  | .vneg h t m d a => Sys2Proof.Machine.execVneg h t m d a s
  | .vmin h t m d a b => Sys2Proof.Machine.execVmin h t m d a b s
  | .vmax h t m d a b => Sys2Proof.Machine.execVmax h t m d a b s
  | .vminnum h t m d a b => Sys2Proof.Machine.execVminnum h t m d a b s
  | .vmaxnum h t m d a b => Sys2Proof.Machine.execVmaxnum h t m d a b s
  | .vcmp h t cond m d a b => Sys2Proof.Machine.execVcmp h t cond m d a b s
  | .vround h t rm m d a => Sys2Proof.Machine.execVround h t rm m d a s
  | .viadd h t sat m d a b => Sys2Proof.Machine.execViadd h t sat m d a b s
  | .visub h t sat m d a b => Sys2Proof.Machine.execVisub h t sat m d a b s
  | .vimul h t m d a b => Sys2Proof.Machine.execVimul h t m d a b s
  | .vimulh h t m d a b => Sys2Proof.Machine.execVimulh h t m d a b s
  | .vimin h t m d a b => Sys2Proof.Machine.execVimin h t m d a b s
  | .vimax h t m d a b => Sys2Proof.Machine.execVimax h t m d a b s
  | .vand h t m d a b => Sys2Proof.Machine.execVand h t m d a b s
  | .vor h t m d a b => Sys2Proof.Machine.execVor h t m d a b s
  | .vxor h t m d a b => Sys2Proof.Machine.execVxor h t m d a b s
  | .vshl h t m d a b => Sys2Proof.Machine.execVshl h t m d a b s
  | .vshr h t m d a b => Sys2Proof.Machine.execVshr h t m d a b s
  | .vsar h t m d a b => Sys2Proof.Machine.execVsar h t m d a b s
  | .vicmp h t cond m d a b => Sys2Proof.Machine.execVicmp h t cond m d a b s
  | .vmov h t m d a => Sys2Proof.Machine.execVmov h t m d a s
  | .vbcast h t m d a => Sys2Proof.Machine.execVbcast h t m d a s
  | .vsel h t d a b c => Sys2Proof.Machine.execVsel h t d a b c s
  | .vperm h t m d a b => Sys2Proof.Machine.execVperm h t m d a b s
  | .vextr h t d a b => Sys2Proof.Machine.execVextr h t d a b s
  | .vins h t d a b => Sys2Proof.Machine.execVins h t d a b s
  | .viota h t m d => Sys2Proof.Machine.execViota h t m d s
  | .vcompress h t k d a => Sys2Proof.Machine.execVcompress h t k d a s
  | .vcvt h t rm src hi m d a => Sys2Proof.Machine.execVcvt h t rm src hi m d a s
  | .vquant h t pos tqt d a => Sys2Proof.Machine.execVquant h t pos tqt d a s
  | .vdequant h t pos d a => Sys2Proof.Machine.execVdequant h t pos d a s
  | .vbaddq h t pos d a b => Sys2Proof.Machine.execVbaddq h t pos d a b s
  | .vred h t rm rop k d a => Sys2Proof.Machine.execVred h t rm rop k d a s
  | .vscan h t rm rop m d a => Sys2Proof.Machine.execVscan h t rm rop m d a s
  | .pmerge h t rm m d a b => Sys2Proof.Machine.execPmerge h t rm m d a b s
  | .vdot h t rm k d a b => Sys2Proof.Machine.execVdot h t rm k d a b s
  | .vexp2 h t rm m d a => Sys2Proof.Machine.execVexp2 h t rm m d a s
  | .vlog2 h t rm m d a => Sys2Proof.Machine.execVlog2 h t rm m d a s
  | .vrcp h t rm m d a => Sys2Proof.Machine.execVrcp h t rm m d a s
  | .vrsq h t rm m d a => Sys2Proof.Machine.execVrsq h t rm m d a s
  | .vsin h t rm m d a => Sys2Proof.Machine.execVsin h t rm m d a s
  | .vcos h t rm m d a => Sys2Proof.Machine.execVcos h t rm m d a s
  | .vtanh h t rm m d a => Sys2Proof.Machine.execVtanh h t rm m d a s
  | .xaGet h xd d => Sys2Proof.Machine.execXaGet h xd d s
  | .xaPut h xd => Sys2Proof.Machine.execXaPut h xd s
  | .xaClr h xd => Sys2Proof.Machine.execXaClr h xd s
  | .xaAddp h xd neg a b => Sys2Proof.Machine.execXaAddp h xd neg a b s
  | .xaAddv h xd neg k a b => Sys2Proof.Machine.execXaAddv h xd neg k a b s
  | .xaAdd h xd xs neg => Sys2Proof.Machine.execXaAdd h xd xs neg s
  | .xaSign h xd cond d => Sys2Proof.Machine.execXaSign h xd cond d s
  | .xaRnd h t rm xd d => Sys2Proof.Machine.execXaRnd h t rm xd d s
  | .xaSave h xd a ofs => Sys2Proof.Machine.execXaSave h xd a ofs s
  | .xaLoad h xd a ofs => Sys2Proof.Machine.execXaLoad h xd a ofs s
  | .protLoad h d a ofs => Sys2Proof.Machine.execProtLoad h d a ofs s
  | .protFree h a => Sys2Proof.Machine.execProtFree h a s
  | .epGet h d a => Sys2Proof.Machine.execEpGet h d a s
  | .epPut h a => Sys2Proof.Machine.execEpPut h a s
  | .chOpen h ep a b => Sys2Proof.Machine.execChOpen h ep a b s
  | .chAccept h ep d a b => Sys2Proof.Machine.execChAccept h ep d a b s
  | .chClose h ep => Sys2Proof.Machine.execChClose h ep s
  | .chAbort h ep => Sys2Proof.Machine.execChAbort h ep s
  | .chState h ep d => Sys2Proof.Machine.execChState h ep d s
  | .chBindreg h ep r => Sys2Proof.Machine.execChBindreg h ep r s
  | .send h ep mt fin rel p len a => Sys2Proof.Machine.execSend h ep mt fin rel p len a s
  | .sendv h ep mt fin rel p len a => Sys2Proof.Machine.execSendv h ep mt fin rel p len a s
  | .recv h ep mt p len d b => Sys2Proof.Machine.execRecv h ep mt p len d b s
  | .recvv h ep mt p len d b => Sys2Proof.Machine.execRecvv h ep mt p len d b s
  | .select h ep lbl rel p => Sys2Proof.Machine.execSelect h ep lbl rel p s
  | .offer h ep lbl p b => Sys2Proof.Machine.execOffer h ep lbl p b s
  | .chDeleg h ey rel p ex => Sys2Proof.Machine.execChDeleg h ey rel p ex s
  | .chAdopt h ey p ez d => Sys2Proof.Machine.execChAdopt h ey p ez d s
  | .turnSet h a b c => Sys2Proof.Machine.execTurnSet h a b c s
  | .turnGet h w d a => Sys2Proof.Machine.execTurnGet h w d a s
  | .rcConf h n a => Sys2Proof.Machine.execRcConf h n a s
  | .rcBind h n ep d => Sys2Proof.Machine.execRcBind h n ep d s
  | .rcRead h n w d => Sys2Proof.Machine.execRcRead h n w d s
  | .rcFree h n => Sys2Proof.Machine.execRcFree h n s
  | .ld h sz sc ord sx d a ofs => Sys2Proof.Machine.execLd h sz sc ord sx d a ofs s
  | .st h sz sc ord a b ofs => Sys2Proof.Machine.execSt h sz sc ord a b ofs s
  | .ldv h sc ord d a ofs => Sys2Proof.Machine.execLdv h sc ord d a ofs s
  | .stv h sc ord a b ofs => Sys2Proof.Machine.execStv h sc ord a b ofs s
  | .ldSync h sc ord cons d a ofs => Sys2Proof.Machine.execLdSync h sc ord cons d a ofs s
  | .stFill h sc ord ovr a b ofs => Sys2Proof.Machine.execStFill h sc ord ovr a b ofs s
  | .stReset h sc ord a b ofs => Sys2Proof.Machine.execStReset h sc ord a b ofs s
  | .ldvSync h sc ord cons d a ofs => Sys2Proof.Machine.execLdvSync h sc ord cons d a ofs s
  | .semWait h n dec a => Sys2Proof.Machine.execSemWait h n dec a s
  | .semWaitTo h n dec d a b => Sys2Proof.Machine.execSemWaitTo h n dec d a b s
  | .semSig h n a => Sys2Proof.Machine.execSemSig h n a s
  | .semSet h n a => Sys2Proof.Machine.execSemSet h n a s
  | .semRead h n d => Sys2Proof.Machine.execSemRead h n d s
  | .barArm h n a b => Sys2Proof.Machine.execBarArm h n a b s
  | .barArrive h n => Sys2Proof.Machine.execBarArrive h n s
  | .barWait h n => Sys2Proof.Machine.execBarWait h n s
  | .barSync h n => Sys2Proof.Machine.execBarSync h n s
  | .barDisarm h n => Sys2Proof.Machine.execBarDisarm h n s
  | .gld h sz sc ord sx d a ofs => Sys2Proof.Machine.execGld h sz sc ord sx d a ofs s
  | .gst h sz sc ord a b ofs => Sys2Proof.Machine.execGst h sz sc ord a b ofs s
  | .gldv h sz sc ord d a ofs => Sys2Proof.Machine.execGldv h sz sc ord d a ofs s
  | .gstv h sz sc ord a b ofs => Sys2Proof.Machine.execGstv h sz sc ord a b ofs s
  | .gpref h sz sc a ofs => Sys2Proof.Machine.execGpref h sz sc a ofs s
  | .atom h sz sc ord op d a b ofs => Sys2Proof.Machine.execAtom h sz sc ord op d a b ofs s
  | .cas h sz sc ord p d a b ofs => Sys2Proof.Machine.execCas h sz sc ord p d a b ofs s
  | .atomDet h sz sc ord op d a b ofs => Sys2Proof.Machine.execAtomDet h sz sc ord op d a b ofs s
  | .rgnBegin h d off => Sys2Proof.Machine.execRgnBegin h d off s
  | .rgnCommit h cc => Sys2Proof.Machine.execRgnCommit h cc s
  | .rgnAbort h => Sys2Proof.Machine.execRgnAbort h s
  | .allocF h n d a => Sys2Proof.Machine.execAllocF h n d a s
  | .allocQ h n p d a => Sys2Proof.Machine.execAllocQ h n p d a s
  | .free h n a => Sys2Proof.Machine.execFree h n a s
  | .heapInfo h n w d => Sys2Proof.Machine.execHeapInfo h n w d s
  | .heapInfoQuota h n a => Sys2Proof.Machine.execHeapInfoQuota h n a s
  | .tlbInv h sc a => Sys2Proof.Machine.execTlbInv h sc a s
  | .tlbInvAll h sc => Sys2Proof.Machine.execTlbInvAll h sc s
  | .xlat h d a => Sys2Proof.Machine.execXlat h d a s
  | .xlatResume h a => Sys2Proof.Machine.execXlatResume h a s
  | .xlatRefuse h a => Sys2Proof.Machine.execXlatRefuse h a s
  | .tdSet h sp d a => Sys2Proof.Machine.execTdSet h sp d a s
  | .tdGet h w d a => Sys2Proof.Machine.execTdGet h w d a s
  | .tdClr h d => Sys2Proof.Machine.execTdClr h d s
  | .cpPush h sync rsem rsv tr d a b => Sys2Proof.Machine.execCpPush h sync rsem rsv tr d a b s
  | .cpFill h sync d b => Sys2Proof.Machine.execCpFill h sync d b s
  | .cpPullreq h sync rsem rsv d a => Sys2Proof.Machine.execCpPullreq h sync rsem rsv d a s
  | .mxLds h sync a => Sys2Proof.Machine.execMxLds h sync a s
  | .mxSwap h sync => Sys2Proof.Machine.execMxSwap h sync s
  | .mxStream h sync row0 acc a => Sys2Proof.Machine.execMxStream h sync row0 acc a s
  | .mxConv h sync row0 acc a b => Sys2Proof.Machine.execMxConv h sync row0 acc a b s
  | .mxDrainV h sync row0 rm clr vt d => Sys2Proof.Machine.execMxDrainV h sync row0 rm clr vt d s
  | .mxDrainD h sync row0 rm clr tqt d => Sys2Proof.Machine.execMxDrainD h sync row0 rm clr tqt d s
  | .mxClr h sync row0 int fill b => Sys2Proof.Machine.execMxClr h sync row0 int fill b s
  | .mxUprog h sync on uty b => Sys2Proof.Machine.execMxUprog h sync on uty b s
  | .mxStat h w clr d => Sys2Proof.Machine.execMxStat h w clr d s
  | .fence h sc eR eW lR lW => Sys2Proof.Machine.execFence h sc eR eW lR lW s
  | .fenceEng h sc inn out => Sys2Proof.Machine.execFenceEng h sc inn out s
  | .demPost h a b => Sys2Proof.Machine.execDemPost h a b s
  | .demClose h d => Sys2Proof.Machine.execDemClose h d s
  | .calWait h ep p atStart d => Sys2Proof.Machine.execCalWait h ep p atStart d s
  | .xchSend h sync rsem rsv d a b => Sys2Proof.Machine.execXchSend h sync rsem rsv d a b s
  | .xchStat h w d => Sys2Proof.Machine.execXchStat h w d s
  | .gwTake h d a => Sys2Proof.Machine.execGwTake h d a s
  | .gwDone h a => Sys2Proof.Machine.execGwDone h a s
  | .recMark h a => Sys2Proof.Machine.execRecMark h a s
  | .recMarkDrain h a => Sys2Proof.Machine.execRecMarkDrain h a s
  | .recStat h w d => Sys2Proof.Machine.execRecStat h w d s
  | .detCycle h vd d => Sys2Proof.Machine.execDetCycle h vd d s
  | .trap h imm => Sys2Proof.Machine.execTrap h imm s
  | .eret h skip => Sys2Proof.Machine.execEret h skip s
  | .cause h wait p d => Sys2Proof.Machine.execCause h wait p d s
  | .einj h kind a b => Sys2Proof.Machine.execEinj h kind a b s
  | .elog h w clr d a => Sys2Proof.Machine.execElog h w clr d a s
  | .pand h d a b => Sys2Proof.Machine.execPand h d a b s
  | .por h d a b => Sys2Proof.Machine.execPor h d a b s
  | .pxor h d a b => Sys2Proof.Machine.execPxor h d a b s
  | .pnot h d a => Sys2Proof.Machine.execPnot h d a s
  | .pmov h o => Sys2Proof.Machine.execPmov h o s
  | .kand h d a b => Sys2Proof.Machine.execKand h d a b s
  | .kor h d a b => Sys2Proof.Machine.execKor h d a b s
  | .knot h d a => Sys2Proof.Machine.execKnot h d a s
  | .kpop h t d a => Sys2Proof.Machine.execKpop h t d a s
  | .kset h t d a b => Sys2Proof.Machine.execKset h t d a b s
  | .resultLanding r uid dst val => Sys2Proof.Machine.execResultLanding r uid dst val s
  | .roundBoundary n => Sys2Proof.Machine.execRoundBoundary n s
  | .sleeprExpiry w => Sys2Proof.Machine.execSleeprExpiry w s
  | .packetOpenLimit r uid => Sys2Proof.Machine.execPacketOpenLimit r uid s
  | .waitLimitExpiry w => Sys2Proof.Machine.execWaitLimitExpiry w s
  | .remoteWithdrawalAnswer w removed => Sys2Proof.Machine.execRemoteWithdrawalAnswer w removed s
  | .semWaitTimeout w => Sys2Proof.Machine.execSemWaitTimeout w s
  | .bindComplete r uid => Sys2Proof.Machine.execBindComplete r uid s
  | .nodePlacement pkg => Sys2Proof.Machine.execNodePlacement pkg s
  | .deterministicStart pkg serial => Sys2Proof.Machine.execDeterministicStart pkg serial s
  | .contextSaveComplete r uid => Sys2Proof.Machine.execContextSaveComplete r uid s
  | .unitResume r uid => Sys2Proof.Machine.execUnitResume r uid s
  | .launchCompletion pkg serial => Sys2Proof.Machine.execLaunchCompletion pkg serial s
  | .phaseCompletion job => Sys2Proof.Machine.execPhaseCompletion job s
  | .cancelApply pkg c => Sys2Proof.Machine.execCancelApply pkg c s
  | .dispatcherRequest q => Sys2Proof.Machine.execDispatcherRequest q s
  | .serviceReplyLand w r => Sys2Proof.Machine.execServiceReplyLand w r s
  | .spawnRequestLand q => Sys2Proof.Machine.execSpawnRequestLand q s
  | .spawnEntryServe n => Sys2Proof.Machine.execSpawnEntryServe n s
  | .spawnReturnLand r uid dst val => Sys2Proof.Machine.execSpawnReturnLand r uid dst val s
  | .scratchpadCycleService n q => Sys2Proof.Machine.execScratchpadCycleService n q s
  | .remoteReplyLand q r => Sys2Proof.Machine.execRemoteReplyLand q r s
  | .remoteBusyResend q => Sys2Proof.Machine.execRemoteBusyResend q s
  | .barrierTokenLand n b row job => Sys2Proof.Machine.execBarrierTokenLand n b row job s
  | .barrierReleaseLand n b job => Sys2Proof.Machine.execBarrierReleaseLand n b job s
  | .memoryMergeStep c q => Sys2Proof.Machine.execMemoryMergeStep c q s
  | .atomDetWindowApply c win => Sys2Proof.Machine.execAtomDetWindowApply c win s
  | .refreshWindowEnd c => Sys2Proof.Machine.execRefreshWindowEnd c s
  | .controllerReplySend c q r => Sys2Proof.Machine.execControllerReplySend c q r s
  | .globalReplyLand w r => Sys2Proof.Machine.execGlobalReplyLand w r s
  | .postedStoreCreditLand w r => Sys2Proof.Machine.execPostedStoreCreditLand w r s
  | .allocatorRequest peer q => Sys2Proof.Machine.execAllocatorRequest peer q s
  | .tlbInvRequest pkg q => Sys2Proof.Machine.execTlbInvRequest pkg q s
  | .supervisorMessageLand m => Sys2Proof.Machine.execSupervisorMessageLand m s
  | .supervisorMessageResend m => Sys2Proof.Machine.execSupervisorMessageResend m s
  | .sfuServiceStart n => Sys2Proof.Machine.execSfuServiceStart n s
  | .sfuResultLand n id => Sys2Proof.Machine.execSfuResultLand n id s
  | .arrayBeatStart n => Sys2Proof.Machine.execArrayBeatStart n s
  | .openRequestLand q => Sys2Proof.Machine.execOpenRequestLand q s
  | .openReplyLand q o => Sys2Proof.Machine.execOpenReplyLand q o s
  | .openWithdrawalLand q => Sys2Proof.Machine.execOpenWithdrawalLand q s
  | .channelFlitLand f => Sys2Proof.Machine.execChannelFlitLand f s
  | .creditLand f => Sys2Proof.Machine.execCreditLand f s
  | .closeNoticeLand f => Sys2Proof.Machine.execCloseNoticeLand f s
  | .discardMarkerLand f => Sys2Proof.Machine.execDiscardMarkerLand f s
  | .registerDeposit e => Sys2Proof.Machine.execRegisterDeposit e s
  | .adoptionNoticeLand f => Sys2Proof.Machine.execAdoptionNoticeLand f s
  | .redirectLand f => Sys2Proof.Machine.execRedirectLand f s
  | .acknowledgementLand f => Sys2Proof.Machine.execAcknowledgementLand f s
  | .delegationAbortLand f => Sys2Proof.Machine.execDelegationAbortLand f s
  | .couplerSample n rc => Sys2Proof.Machine.execCouplerSample n rc s
  | .couplerControlFlitLand n owner u => Sys2Proof.Machine.execCouplerControlFlitLand n owner u s
  | .rcBindRequest q => Sys2Proof.Machine.execRcBindRequest q s
  | .engineCommandStart n mx => Sys2Proof.Machine.execEngineCommandStart n mx s
  | .engineCommandComplete n mx id => Sys2Proof.Machine.execEngineCommandComplete n mx id s
  | .copyPacketLand p => Sys2Proof.Machine.execCopyPacketLand p s
  | .copyPacketAck owner cmd num code => Sys2Proof.Machine.execCopyPacketAck owner cmd num code s
  | .pullRequestServe q => Sys2Proof.Machine.execPullRequestServe q s
  | .engineFaultStop n mx id code addr => Sys2Proof.Machine.execEngineFaultStop n mx id code addr s
  | .matrixStepCommit n id stepNo => Sys2Proof.Machine.execMatrixStepCommit n id stepNo s
  | .flitSlotRouting n half => Sys2Proof.Machine.execFlitSlotRouting n half s
  | .injectionStarvationHold n => Sys2Proof.Machine.execInjectionStarvationHold n s
  | .linkRetry pkg port cycles => Sys2Proof.Machine.execLinkRetry pkg port cycles s
  | .linkPortDown pkg port => Sys2Proof.Machine.execLinkPortDown pkg port s
  | .linkPortUp pkg port => Sys2Proof.Machine.execLinkPortUp pkg port s
  | .heldFlitTimeout pkg port fid => Sys2Proof.Machine.execHeldFlitTimeout pkg port fid s
  | .tileReset n => Sys2Proof.Machine.execTileReset n s
  | .packageReset pkg => Sys2Proof.Machine.execPackageReset pkg s
  | .incarnationAnnouncementLand pkg about inc => Sys2Proof.Machine.execIncarnationAnnouncementLand pkg about inc s
  | .staleNoticeLand dst about inc => Sys2Proof.Machine.execStaleNoticeLand dst about inc s
  | .demandPostRequest q => Sys2Proof.Machine.execDemandPostRequest q s
  | .demandRowAccept job pkg period row => Sys2Proof.Machine.execDemandRowAccept job pkg period row s
  | .calendarDecompose job => Sys2Proof.Machine.execCalendarDecompose job s
  | .calendarIssue job => Sys2Proof.Machine.execCalendarIssue job s
  | .calendarLand pkg job period => Sys2Proof.Machine.execCalendarLand pkg job period s
  | .calWaitAtWake w => Sys2Proof.Machine.execCalWaitAtWake w s
  | .exchangeReservation q => Sys2Proof.Machine.execExchangeReservation q s
  | .exchangePhaseEnd pkg job period phase => Sys2Proof.Machine.execExchangePhaseEnd pkg job period phase s
  | .heartbeatSend job => Sys2Proof.Machine.execHeartbeatSend job s
  | .heartbeatTimeout job => Sys2Proof.Machine.execHeartbeatTimeout job s
  | .blockQueueRequest q => Sys2Proof.Machine.execBlockQueueRequest q s
  | .recordSegmentRequest q => Sys2Proof.Machine.execRecordSegmentRequest q s
  | .replayLimitExpiry pkg job seg entry => Sys2Proof.Machine.execReplayLimitExpiry pkg job seg entry s
  | .errorLogRequest q => Sys2Proof.Machine.execErrorLogRequest q s
  | .submissionTailWrite pkg queue tail => Sys2Proof.Machine.execSubmissionTailWrite pkg queue tail s
  | .jobRecordAccept pkg queue => Sys2Proof.Machine.execJobRecordAccept pkg queue s
  | .rootUnitBind pkg job => Sys2Proof.Machine.execRootUnitBind pkg job s
  | .hostCancelWrite pkg handle => Sys2Proof.Machine.execHostCancelWrite pkg handle s
  | .jobEnd job => Sys2Proof.Machine.execJobEnd job s
  | .bar0RegisterWrite pkg off data => Sys2Proof.Machine.execBar0RegisterWrite pkg off data s
  | .spdmMessage pkg msg => Sys2Proof.Machine.execSpdmMessage pkg msg s
  | .firmwareImageLoad pkg comp image sig version => Sys2Proof.Machine.execFirmwareImageLoad pkg comp image sig version s
  | .securityRequest pkg r => Sys2Proof.Machine.execSecurityRequest pkg r s
  | .operatingPointChange pkg island point forced => Sys2Proof.Machine.execOperatingPointChange pkg island point forced s
  | .tileRetire n => Sys2Proof.Machine.execTileRetire n s
  | .portRetrain pkg port => Sys2Proof.Machine.execPortRetrain pkg port s
  | .vaultRowCopy n row => Sys2Proof.Machine.execVaultRowCopy n row s
  | .illegalInstruction w => Sys2Proof.Machine.execIllegalInstruction w s
  | .spawnReplyLand w reason => Sys2Proof.Machine.execSpawnReplyLand w reason s
  | .allocatorReplyLand w r => Sys2Proof.Machine.execAllocatorReplyLand w r s
  | .openWithdrawalAnswerLand w held => Sys2Proof.Machine.execOpenWithdrawalAnswerLand w held s
  | .softError e => Sys2Proof.Machine.execSoftError e s
  | .hostCxlMemAccess pkg addr write => Sys2Proof.Machine.execHostCxlMemAccess pkg addr write s
  | .hostLinkTraining pkg lanes => Sys2Proof.Machine.execHostLinkTraining pkg lanes s

end Sys2Proof.Machine
end

