-- ==== Sys2Proof/Machine/Cycle.lean ====
section
/-! DEFINITION. The machine's cycle: which slot issues, its fetch, the parked slots whose cause has cleared, the events of
the agenda, and the clock (R40 to R44, R47, R75 to R77, R91, R96, R365, R366). -/

namespace Sys2Proof.Machine

/-! ### Fetch (R41, R44, R352) -/

/-- What a fetch finds: the bytes, a fault with its FAULTVA and FAULTAUX, or a miss at an address and level. -/
inductive Fetch | ok (s : State) (b : List Byte) | trap (s : State) (code : Nat) (va aux : Word) | miss (va lvl : Nat)

/-- The cycle of the LAUNCH that a unit's code belongs to; of its job's start for a root unit (R42, log 10). -/
def codeSince (s : State) (c : Ctx) : Nat :=
  match (s.pkgs.flatMap fun (p, k) => k.launches.filter fun l => handleOf 0 p l.serial = c.d.launch).head? with
  | some l => l.began
  | none => ((jobAt s c.d.job).map (·.began)).getD 0
/-- Words of code as a fetch finds them: each as it is, or as it was before a write made since the launch. Free values (R42,
log 10). -/
def codeWords (since : Nat) : Nat → Nat → State → State × List Byte
  | 0, _, s => (s, [])
  | n + 1, pa, s =>
    let olds := (s.oldWords.filter fun x => x.1 = pa ∧ since < x.2.2).map fun x => bytesOfNat 4 x.2.1
    let s' := if olds = [] then s else { s with freeCtr := s.freeCtr + 1 }
    let w := if olds = [] then ctrlRead s pa 4 else (ctrlRead s pa 4 :: olds).getD (Config.freePick s.freeCtr % (olds.length + 1)) []
    let x := codeWords since n (pa + 4) s'
    (x.1, w ++ x.2)
/-- Reads so many bytes of code within a page. A fetch costs no time and enters nothing in the TLBs (log 18). -/
def fetchPart (s : State) (r : SlotRef) (c : Ctx) (va n : Nat) : Fetch :=
  let e := if noErrs s then (s, none) else walkErrs s r.pkg c.d.job va (consumerOf c)
  let s := e.1
  match e.2 with
  | some arr => .trap s fData c.pc (BitVec.ofNat 64 arr)
  | none =>
  match walk s r.pkg c.d.job va with
  | .miss l => .miss va l
  | .bad => .trap s fAccess c.pc 0
  | .leaf w bits =>
    match permits w 3, homeFor s r c (leafPa w bits va) false with
    | true, some h =>
      let pa := leafPa w bits va
      let e := consume s h.1 (ctrlArr h.1) pa (pa + n) (consumerOf c)
      match e.2 with
      | some _ => .trap e.1 fData c.pc (BitVec.ofNat 64 (ctrlArr h.1))
      | none =>
        if s.oldWords = [] then .ok e.1 (ctrlRead e.1 pa n)
        else
          let x := codeWords (codeSince s c) (n / 4) pa e.1
          .ok x.1 x.2
    | _, _ => .trap s fAccess c.pc 0
/-- The 12 bytes at the PC, of one page or two (R40, R41). -/
def fetch (s : State) (r : SlotRef) (c : Ctx) : Fetch :=
  let va := c.pc.toNat
  let n := min 12 (65536 - va % 65536)
  match targetFault c.pc with
  | some f => .trap s f c.pc 0
  | none => match fetchPart s r c va n with
    | .ok s b =>
      if n = 12 then .ok s b
      else match fetchPart s r c (va + n) (12 - n) with
        | .ok s b' => .ok s (b ++ b')
        | x => x
    | x => x
/-- Parks a slot on a fetch that misses, as a load does (R41, R238). -/
def fetchMiss (s : State) (r : SlotRef) (c : Ctx) (va lvl : Nat) : State :=
  let a : Act := match missAct s r c va 3 lvl with
    | .wait s id k lk lx _ aux => .wait s id k lk lx c.pc aux
    | .trap code _ aux => .trap code c.pc aux
    | x => x
  applyAct s r c.uid { i := .nop ⟨0, false, 0, 0⟩, h := ⟨0, false, 0, 0⟩ } a
/-- Bits [95:88] of the word: OP. -/
def opOf (b : List Byte) : Nat := ((b.drop 11).headD 0).toNat

/-! ### Issue (R44, R47, R76, R77, R96) -/

/-- Issues the instruction of a slot (R44): step 1, step 2 where the tile's class decides, steps 3 and 4 by the decoder, and
the rest by the form's meaning. -/
noncomputable def issue (s : State) (r : SlotRef) : Outc :=
  let c := ctxAt s r
  match fetch s r c with
  | .trap s code va aux => .next (takeFault s r c.uid code va aux)
  | .miss va l => .next (fetchMiss s r c va l)
  | .ok s b =>
    if opOf b = 0x92 ∧ !isCompute r.tile then .next (takeFault s r c.uid fIllegalInstruction 0 0)
    else match decodeBytes b with
      | .error .reservedField => .next (takeFault s r c.uid fReserved 0 0)
      | .error .illegalOperand => .next (takeFault s r c.uid fOperand 0 0)
      | .ok i => exec i { s with cur := r }
/-- The slot of a tile that owns the turn of the present cycle (R75). -/
def turnOwner (s : State) (n : Node) : Option Nat :=
  (List.range 16).find? fun i => (slotAt s ⟨n.pkg, n.id, i⟩).owned.getLsbD (cycleOf s n.pkg % 16)
/-- What becomes of an own turn of a slot. -/
inductive Turn | empty | quiet | lost | issue
  deriving DecidableEq, Repr
/-- A turn is quiet by R47, lost while the slot is parked (R77), left empty by YIELD (R96), before the slot may issue, or while
its unit stops to be pre-empted (R91); else the slot issues. -/
def turnUse (s : State) (r : SlotRef) : Turn :=
  let l := slotAt s r
  let c := l.ctx
  if l.ph ≠ .bound then .empty
  else if c.quiet ≠ 0 then .quiet
  else if c.park.isSome then .lost
  else if c.yieldRound = some (roundOf s r.pkg) ∨ s.now < c.readyFrom ∨ (c.preempting ∧ c.packet.isNone) then .empty
  else .issue
/-- One core in one cycle (R76). -/
noncomputable def issueTile (s : State) (n : Node) : Outc :=
  if isHeld s n then .next s
  else match turnOwner s n with
    | none => .next s
    | some i =>
      let r : SlotRef := ⟨n.pkg, n.id, i⟩
      match turnUse s r with
      | .empty => .next s
      | .quiet => .next (modCtx s r fun c => { c with quiet := c.quiet - 1 })
      | .lost => .next (modCtx s r fun c => { c with lost := c.lost + 1 })
      | .issue => issue s r

/-! ### Parked slots whose cause has cleared (R77, R112) -/

/-- A slot is unparked, to issue its instruction at an own turn. -/
def unparkSlot (s : State) (r : SlotRef) : State :=
  modCtx s r fun c => { c with park := none, readyFrom := max c.readyFrom (s.now + 1) }
/-- Whether a slot is parked in a wait. -/
def parkedIn (s : State) (r : SlotRef) (uid id : Nat) : Bool := (waitOf s ⟨r, uid, id⟩).isSome
/-- The state after a parked slot goes on, if its cause has cleared: one that waits on registers or on a busy unit retries; one
that waits on a condition has its form run once more, and completes in place. -/
def settleSlot (s : State) (r : SlotRef) : Option State :=
  let c := ctxAt s r
  if !isBound s r ∨ isHeld s r.node then none
  else match c.park with
    | none => none
    | some p => match p.kind with
      | .regs gs => if gs.all fun g => presOf c g = .full then some (unparkSlot s r) else none
      | .busy => match exec p.form { s with cur := r } with
        | .next s' => if parkedIn s' r c.uid p.id then none else some (unparkSlot s r)
        | _ => none
      | .cond => match exec p.form { s with cur := r } with
        | .next s' =>
          if parkedIn s' r c.uid p.id then none
          else some (modUnit s' r c.uid fun x => { x with quiet := min x.quiet c.quiet })
        | _ => none
      | _ => none
/-- The slots of the domain, tile by tile. -/
def allSlots (s : State) : List SlotRef :=
  s.tiles.flatMap fun (k, _) => (List.range 16).map fun i => ⟨(nodeOfKey k).pkg, (nodeOfKey k).id, i⟩
/-- Forms whose wait ends with the end of a cycle, and which complete in the next one: those on a channel, whose events take effect at
the end of the cycle in which they land (R175, R176), and commands of engines, which capture the descriptors as that next
cycle finds them (R264). -/
def nextCycle : Instr → Bool
  | .send .. | .sendv .. | .select .. | .recv .. | .recvv .. | .offer .. | .chDeleg .. | .chAdopt .. | .calWait .. => true
  | .cpPush .. | .cpFill .. | .cpPullreq .. | .xchSend .. => true
  | .mxLds .. | .mxSwap .. | .mxStream .. | .mxConv .. | .mxDrainV .. | .mxDrainD .. | .mxClr .. | .mxUprog .. => true
  | _ => false
/-- Whether a slot is parked in such a form; one whose reply has landed goes on in that cycle. -/
def waitsNext (s : State) (r : SlotRef) : Bool := ((ctxAt s r).park.map fun p => nextCycle p.form && p.aux.isEmpty).getD false
/-- The first parked slot that can go on within the cycle does. -/
def settle (s : State) : Option State := ((allSlots s).filter fun r => !waitsNext s r).findSome? (settleSlot s)
/-- The slots whose waits ended with the cycle before complete. -/
def settleNext (s : State) : State :=
  (allSlots s).foldl (fun s r => if waitsNext s r then (settleSlot s r).getD s else s) s

/-! ### Events of the agenda -/

/-- The tile at whose island's edge an event waits while the island's clock stands still (R364, R365). Memory controllers,
the fabric and the units of I/O dies are no part of an island (DEDUCED, log 34). -/
def landsAt : Ev → Option Node
  | .resultLanding r _ _ _ => some r.node
  | .packetOpenLimit r _ => some r.node
  | .bindComplete r _ => some r.node
  | .contextSaveComplete r _ => some r.node
  | .unitResume r _ => some r.node
  | .spawnReturnLand r _ _ _ => some r.node
  | .sleeprExpiry w => some w.slot.node
  | .waitLimitExpiry w => some w.slot.node
  | .remoteWithdrawalAnswer w _ => some w.slot.node
  | .semWaitTimeout w => some w.slot.node
  | .serviceReplyLand w _ => some w.slot.node
  | .globalReplyLand w _ => some w.slot.node
  | .postedStoreCreditLand w _ => some w.slot.node
  | .calWaitAtWake w => some w.slot.node
  | .spawnReplyLand w _ => some w.slot.node
  | .allocatorReplyLand w _ => some w.slot.node
  | .openWithdrawalAnswerLand w _ => some w.slot.node
  | .remoteReplyLand q _ => some q.who.slot.node
  | .remoteBusyResend q => some q.who.slot.node
  | .spawnRequestLand q => some q.target
  | .spawnEntryServe n => some n
  | .scratchpadCycleService n _ => some n
  | .barrierTokenLand n _ _ _ => some n
  | .barrierReleaseLand n _ _ => some n
  | .sfuServiceStart n => some n
  | .sfuResultLand n _ => some n
  | .arrayBeatStart n => some n
  | .couplerSample n _ => some n
  | .couplerControlFlitLand n _ _ => some n
  | .engineCommandStart n _ => some n
  | .engineCommandComplete n _ _ => some n
  | .engineFaultStop n _ _ _ _ => some n
  | .matrixStepCommit n _ _ => some n
  | .copyPacketLand p => some p.dst
  | .copyPacketAck n _ _ _ => some n
  | .supervisorMessageLand m => some m.dst.node
  | .supervisorMessageResend m => some m.src.node
  | .openRequestLand q => some q.target.node
  | .openWithdrawalLand q => some q.target.node
  | .openReplyLand q _ => some q.opener.node
  | .channelFlitLand f => some f.dst.node
  | .creditLand f => some f.dst.node
  | .closeNoticeLand f => some f.dst.node
  | .discardMarkerLand f => some f.dst.node
  | .adoptionNoticeLand f => some f.dst.node
  | .redirectLand f => some f.dst.node
  | .acknowledgementLand f => some f.dst.node
  | .delegationAbortLand f => some f.dst.node
  | .registerDeposit e => some e.node
  | .rcBindRequest q => some q.peer
  | .recordSegmentRequest q => some q.peer
  | .errorLogRequest q => some q.peer
  | _ => none
/-- Whether an island is off. -/
def isOff (s : State) (n : Node) : Bool :=
  match islandOf n.id with
  | some i => (aget {} (pkgAt s n.pkg).islands i).power = .off
  | none => false
/-- The cycle to which an event is put off, if its tile stands still: the next round, or the next cycle of an idle island. A
landing at an island that is off is refused there, since its tiles have no tenant (R212). -/
def putOff (s : State) (e : Ev) : Option Nat :=
  match landsAt e with
  | none => none
  | some n =>
    if holds (heldCount s n) (roundOf s n.pkg) then some (s.now + (16 - cycleOf s n.pkg % 16))
    else if isHeld s n ∧ !isOff s n then some (s.now + 1)
    else none
/-- The head of the agenda happens, or is put off. -/
noncomputable def runDue (s : State) (d : Due) (l : List Due) : Outc :=
  let s' := { s with agenda := l }
  match putOff s d.ev with
  | some t => .next (pushOnce s' t d.ph d.key d.ev)
  | none => exec d.ev.toInstr s'

/-! ### The clock (R9, R75, R99) -/

/-- Saves the contexts of the units that may stop now (R91). -/
def saveAll (s : State) : State := (allSlots s).foldl startSave s
/-- Round boundaries of the tiles whose package begins a round (R75). -/
def boundaries (s : State) : State :=
  s.tiles.foldl (fun s (k, _) =>
    if cycleOf s (nodeOfKey k).pkg % 16 = 0 then push s s.now phStart k (.roundBoundary (nodeOfKey k)) else s) s
/-- The next cycle begins, with what enters the fabric and the parked forms that complete in it. -/
def tick (s : State) : State :=
  let s := saveAll s
  let s := boundaries (settleNext (sendDue { s with now := s.now + 1 }))
  { s with issueQ := s.tiles.map (·.1) }

/-- One step of the machine: of the events due at the start of a cycle, then each core in turn, then the later events, then the
parked slots whose cause has cleared, then the service of the scratchpads; and when nothing is left to do in the cycle, the clock
goes on. -/
noncomputable def cycleStep (s : State) : Outc :=
  let due (ph : Nat) : Option (Due × List Due) :=
    match s.agenda with
    | d :: l => if d.at_ ≤ s.now ∧ d.ph ≤ ph then some (d, l) else none
    | [] => none
  match due phStart with
  | some (d, l) => runDue s d l
  | none => match s.issueQ with
    | k :: l => issueTile { s with issueQ := l } (nodeOfKey k)
    | [] => match due phEnd with
      | some (d, l) => runDue s d l
      | none => match settle s with
        | some s' => .next s'
        | none => match due phLate with
          | some (d, l) => runDue s d l
          | none => .next (tick s)

/-! ### A machine about to run one instruction -/

/-- A unit of a job: root unit of package 0. -/
def demoUnit : UnitDesc := { UnitDesc.none with job := 1, root := true, supTile := 2096 }
/-- Words of the tables of the job: each level's first entry names the next table, and the last one a page at 0x10000 that may be
read, written and executed (R234, R235). -/
def demoTables : List (Nat × Nat) :=
  [(0x2000, 0x4000 + 0x20), (0x4000, 0x6000 + 0x20), (0x6000, 0x8000 + 0x20), (0x8000, 2 ^ 54 + 0x10000 + 0x80 + 0x1C)]
/-- A job record of zeros. -/
def demoRec : JobRec where
  rootTile := 0
  stop := false
  rmode := 0
  dbgok := false
  att := false
  pkgset := 1
  entry := 0
  handler := 0
  args := []
  sectab := 0
  nsec := 0
  waitlim := 0
  roots := 0
  logva := 0
  loglen := 0
  replim := 0
  nonce := []
  seed := 0
  extva := 0
  next := 0
  heapva := 0
/-- The job whose code the instruction is. -/
def demoJob : Job := { handle := 1, r := demoRec, key := 1, pkgs := [0], rootTables := [0x2000], started := true }
/-- A state with an instruction's bytes as the next that slot 0 of tile 0 issues: what the loading of a job record and its image
does (R357 to R360), at once. -/
def placeWord (s : State) (w : Nat) : State :=
  let m := demoTables.foldl (fun m x => cellsWrite m x.1 (bytesOfNat 8 x.2)) s.mem
  let s := { s with mem := cellsWrite m 0x10000 (bytesOfNat 12 w), oldWords := [], jobs := [demoJob], agenda := [], issueQ := [0] }
  modTile s ⟨0, 0⟩ fun t =>
    { t with
      tenant := some 1
      slots := t.slots.set 0 { Slot.reset 0 with ph := .bound, owned := BitVec.ofNat 16 (2 ^ (cycleOf s 0 % 16)), ctx := boundCtx 1 demoUnit } }

end Sys2Proof.Machine
end

