-- ==== Sys2Proof/Machine/Step.lean ====
section
/-! DEFINITION. One step of the machine, and the placing of an instruction where the next step fetches it. -/

namespace Sys2Proof.Machine

/-- One step: an event, one core's turn, a parked slot that goes on, or the next cycle. -/
noncomputable def step : State → Host.Outcome State Fault Refusal := cycleStep

/-- A state whose next step fetches and runs the instruction whose bits are w (log 35). -/
def State.withFetchWord (s : State) (nbits w : Nat) : State :=
  let _ := nbits
  placeWord s w

end Sys2Proof.Machine
end

