-- ==== Sys2Proof/Safety.lean ====
section
/-! DEFINITION. What the statements about the machine are made of: a slot that may run a form, what a form that completes or parks
leaves, and what it leaves alone. -/

namespace Sys2Proof.Machine

/-- The context of the unit that issues. -/
abbrev me (s : State) : Ctx := ctxAt s s.cur
/-- The tile on which it issues. -/
abbrev here (s : State) : Tile := tileAt s s.cur.node

/-- The slot that issues stands before a form with nothing in its way: it holds a unit, the form's guard is
true, a region that is open admits the form, its sources are full, its destinations await no result, no endpoint is
bound to a register it names, its packet may go on, and no error lies in its tile's arrays (steps 6 to 8 of R44, R112, R113,
R122, R251, R352). The slot may be parked in the very form, which then goes on. -/
structure Fit (s : State) (h : Hdr) (srcs dsts : List Reg) (rgn : Bool) : Prop where
  bound : (slotAt s s.cur).ph = .bound
  guardFull : presOf (me s) (.p h.g) = .full
  guardTrue : guardOf (me s) h = true
  region : (me s).region = none ∨ (rgn = true ∧ readsHeld (me s) srcs = false ∧ readsHeld (me s) [.p h.g] = false)
  sources : ∀ g ∈ srcs, presOf (me s) g = .full
  dests : ∀ g ∈ dsts, presOf (me s) g ≠ .pending ∧ presOf (me s) g ≠ .ret
  unbound : ∀ g ∈ srcs ++ dsts, boundTo s s.cur (me s).uid g = none
  packet : packetFull (me s) = none
  clean : (here s).errs = []
/-- The slot stands before a form with nothing in its way, and is not parked. -/
structure Ready (s : State) (h : Hdr) (srcs dsts : List Reg) (rgn : Bool) : Prop extends Fit s h srcs dsts rgn where
  notParked : (me s).park = none

/-- What a form that completes does to its unit, whose next instruction is at pc: the turn is counted, the quiet count of the form
begins, and an open packet counts the issue (R40, R47, R77, R92). -/
structure Completes (s t : State) (h : Hdr) (pc : Word) : Prop where
  pc : (ctxAt t s.cur).pc = pc
  issued : (ctxAt t s.cur).issued = (me s).issued + 1
  quiet : (ctxAt t s.cur).quiet = h.hq.toNat
  park : (ctxAt t s.cur).park = none
  packet : (ctxAt t s.cur).packet = (me s).packet.map fun x => (x.1, x.2 + 1)

/-- Each value named is on its way to its register, to land after l advancing cycles; writes to s0, p0 and k0 are discarded
(R49, R113, R116). -/
def OnTheWay (s t : State) (l : Nat) (ws : List (Reg × VVal)) : Prop :=
  ∀ w ∈ ws, realReg w.1 = true → presOf (ctxAt t s.cur) w.1 = .pending ∧
    ∃ e ∈ t.agenda, e.at_ = dueIn s s.cur.node l ∧ e.ev = .resultLanding s.cur (me s).uid w.1 w.2

/-- Nothing but the unit of a slot has changed: every byte of memory, every other field of its slot, every other slot, the
rest of its tile, every other tile, and the rest of the machine; events can only have been added. -/
structure OnlySlot (r : SlotRef) (s t : State) : Prop where
  mem : ∀ a, cellGet t.mem a = cellGet s.mem a
  pad : ∀ n a, cellGet (tileAt t n).sp a = cellGet (tileAt s n).sp a
  rest : { t with tiles := s.tiles, agenda := s.agenda, no := s.no } = s
  tiles : ∀ n, nodeKey n ≠ nodeKey r.node → tileAt t n = tileAt s n
  tile : { tileAt t r.node with slots := (tileAt s r.node).slots } = tileAt s r.node
  slots : ∀ i, i ≠ r.slot → slotAt t ⟨r.pkg, r.tile, i⟩ = slotAt s ⟨r.pkg, r.tile, i⟩
  slot : { slotAt t r with ctx := ctxAt s r } = slotAt s r
  agenda : ∀ e ∈ s.agenda, e ∈ t.agenda
/-- Nothing but the unit that issues has changed. -/
abbrev OnlyUnit (s t : State) : Prop := OnlySlot s.cur s t

/-- Within a unit's context nothing has changed but what completing changes and the presence of the registers named: every register
keeps its value, and every special register too. -/
structure OnlyPresence (c c' : Ctx) (ds : List Reg) : Prop where
  values : ∀ g, valOf c' g = valOf c g
  presence : ∀ g, g ∉ ds → presOf c' g = presOf c g
  specials : c'.waitlim = c.waitlim ∧ c'.rmode = c.rmode ∧ c'.fpflags = c.fpflags ∧ c'.seed = c.seed ∧ c'.trappc = c.trappc ∧
    c'.cause = c.cause ∧ c'.faultaux = c.faultaux ∧ c'.faultva = c.faultva ∧ c'.handler = c.handler
  rest : { c' with sP := c.sP, vP := c.vP, kP := c.kP, pP := c.pP, pc := c.pc, issued := c.issued, quiet := c.quiet,
                   park := c.park, packet := c.packet, readyFrom := c.readyFrom } = c

/-- A form completes, goes on at pc, has the results named under way, and changes nothing else. -/
def ResultsAt (s : State) (h : Hdr) (srcs : List Reg) (l : Nat) (ws : List (Reg × VVal)) (pc : Word) (o : Outc) : Prop :=
  ∃ t, o = .next t ∧ Completes s t h pc ∧ OnTheWay s t (l + slowBy srcs) ws ∧ OnlyUnit s t ∧
    OnlyPresence (me s) (ctxAt t s.cur) (ws.map (·.1))
/-- A form completes with results and goes on with the next instruction. -/
def Results (s : State) (h : Hdr) (srcs : List Reg) (l : Nat) (ws : List (Reg × VVal)) (o : Outc) : Prop :=
  ResultsAt s h srcs l ws ((me s).pc + 12) o

/-- The wait of a slot: since the present cycle, for a form, under an identity, for a kind of answer, with the kind and index that a
wait limit tells. -/
def waitBy (s : State) (i : Instr) (id : Nat) (k : ParkKind) (limKind limIx : Nat) (va : Word) (aux : List Word) : Park :=
  { id := id, since := s.now, kind := k, form := i, limKind := limKind, limIx := limIx, va := va, aux := aux }
/-- A form completes from a state s' in which it has had other effects, with its unit's context c there: its results are under way and
nothing else has changed. -/
def ResultsFrom (s s' : State) (c : Ctx) (h : Hdr) (srcs : List Reg) (l : Nat) (ws : List (Reg × VVal)) (o : Outc) : Prop :=
  ∃ t, o = .next t ∧ Completes s t h ((me s).pc + 12) ∧ OnTheWay s t (l + slowBy srcs) ws ∧ OnlySlot s.cur s' t ∧
    OnlyPresence c (ctxAt t s.cur) (ws.map (·.1))
/-- A context that has the flags and the draws of a form's steps (R27, R31). -/
def noted (c : Ctx) (a : FAcc) : Ctx := { c with fpflags := c.fpflags ||| BitVec.ofNat 64 a.flags, seed := a.seed }
/-- How a floating-point form ends: with its results under way and its flags and draws noted; or, where a flag was raised that
is enabled, by fp_trap, with the same noted, the flags and the lane in FAULTAUX, and no other effect (R27, R31). -/
def FpEnds (s s' : State) (h : Hdr) (srcs : List Reg) (l : Nat) (ws : List (Reg × VVal)) (a : FAcc) (o : Outc) : Prop :=
  (a.bad = none → ResultsFrom s s' (noted (me s) a) h srcs l ws o) ∧
  ∀ lane, a.bad = some lane →
    o = .next (takeFault (modUnit s s.cur (me s).uid fun c => noted c a) s.cur (me s).uid 0x18 0 (BitVec.ofNat 64 (a.flags + lane * 2 ^ 8)))
/-- The array of the tile has taken so many beats more (R135). -/
def arrayTaken (s : State) (beats : Nat) : State :=
  pushOnce (modTile s s.cur.node fun t => { t with beats := (here s).beats + beats }) (dueIn s s.cur.node 1) phStart (nodeKey s.cur.node)
    (.arrayBeatStart s.cur.node)
/-- A form of so many beats of the array ends as a floating-point form, its latency counted from its first beat; where 16 beats or
more wait before it, it does not issue (R135). -/
def ArrayEnds (s : State) (beats : Nat) (h : Hdr) (srcs : List Reg) (l : Nat) (ws : List (Reg × VVal)) (a : FAcc) (i : Instr) (o : Outc) : Prop :=
  ((here s).beats ≤ 15 → FpEnds s (arrayTaken s beats) h srcs ((here s).beats + l) ws a o) ∧
  (15 < (here s).beats → ∃ t, o = .next t ∧ OnlyUnit s t ∧
    ctxAt t s.cur = { me s with lost := (me s).lost + 1, park := some (waitBy s i s.no .busy 0 0 0 []) })
/-- The vector whose lanes are given on the active ones, and kept or 0 on the others (R51). -/
def underMask (c : Ctx) (w : Nat) (m : VMask) (d : VIx) (f : Nat → Nat) : VVal :=
  packLanes w ((List.range (laneCount w)).map fun j => if laneOn c m.k j then f j else if m.z then 0 else laneAt w (rv c d) j)
/-- The lanes of a form rounded step by step, in ascending order, with their flags and draws (R27). -/
def fpLoop (s : State) (t : Ty) (rm : Rm) (m : VMask) (d : VIx) (f : Nat → Rnd → Res) : List Nat × FAcc :=
  laneLoop (enabled (me s)) (laneOn (me s) m.k) (fun j => if m.z then 0 else laneAt t.width (rv (me s) d) j)
    (resolveRm rm (me s).rmode) f (laneCount t.width) 0 ⟨(me s).seed, 0, none⟩

/-- A form has issued in the state s', with the effects that has, and its slot is parked; nothing else has changed. Where WAITLIM
counts the wait, its expiry is on the agenda (R77, R222). -/
def Parks (s : State) (h : Hdr) (p : Park) (s' : State) (o : Outc) : Prop :=
  ∃ t, o = .next t ∧ OnlySlot s.cur s' t ∧
    ctxAt t s.cur = { ctxAt s' s.cur with quiet := h.hq.toNat, park := some p } ∧
    (p.limKind ≠ 0 → (ctxAt s' s.cur).waitlim.toNat % 2 ^ 32 ≠ 0 →
      ∃ e ∈ t.agenda, e.at_ = dueIn s' s.cur.node ((ctxAt s' s.cur).waitlim.toNat % 2 ^ 32 + 1) ∧
        e.ev = .waitLimitExpiry ⟨s.cur, (ctxAt s' s.cur).uid, p.id⟩)
/-- The wait a party names has ended: its unit's context is as f makes it, its instruction is counted, and it goes on with the
next one in the cycle after; nothing else has changed (R77). -/
def Finishes (s : State) (w : Who) (c : Ctx) (f : Ctx → Ctx) (t : State) : Prop :=
  OnlySlot w.slot s t ∧ ctxAt t w.slot = { f c with
    pc := c.pc + 12, issued := c.issued + 1, packet := c.packet.map fun x => (x.1, x.2 + 1), park := none, asked := none
    readyFrom := s.now + 1 }
/-- The unit of a slot waits as a party says, with nothing due at its end and no source bound. -/
structure Waits (s : State) (w : Who) (p : Park) : Prop where
  bound : (slotAt s w.slot).ph = .bound
  uid : (ctxAt s w.slot).uid = w.uid
  park : (ctxAt s w.slot).park = some p
  id : p.id = w.id
  due : p.limitDue = false
  held : p.held = []

/-- A form completes, its unit's context is c but for what completing changes, and nothing else has changed. -/
def UnitOnly (s : State) (h : Hdr) (c : Ctx) (o : Outc) : Prop :=
  ∃ t, o = .next t ∧ OnlyUnit s t ∧ ctxAt t s.cur = { c with
    pc := (me s).pc + 12, issued := (me s).issued + 1, quiet := h.hq.toNat, park := none,
    packet := (me s).packet.map fun x => (x.1, x.2 + 1), readyFrom := max (me s).readyFrom (s.now + 1) }

/-- A form has completed after changing the state to s'. -/
def DoneIn (s : State) (h : Hdr) (s' : State) (o : Outc) : Prop := o = .next (complete s' s.cur h.hq.toNat none)

/-- Memory after bytes are stored at an address, and at no other. -/
def Stored (old new : List Host.Cell) (at_ : Nat) (b : List Byte) : Prop :=
  ∀ a, cellGet new a = if at_ ≤ a ∧ a < at_ + b.length then b.getD (a - at_) 0 else cellGet old a
/-- Where an access of n bytes, to be aligned to al, lies in the scratchpad of its own tile (R214, R218); one says that the form
may name a tile by its address. -/
def PadAt (s : State) (ea : Word) (n al : Nat) (one : Bool) (off : Nat) : Prop :=
  ea.toNat % al = 0 ∧ padOk (here s) off n = true ∧
  ((isRemote ea = false ∧ off = ea.toNat) ∨
    (isRemote ea = true ∧ one = true ∧ n = 8 ∧ remoteFault s ea true = none ∧ remoteHome ea = s.cur.node ∧ off = ea.toNat % 2 ^ 20))
/-- An access of 8 bytes whose address names another tile (R214). -/
def PadAway (s : State) (ea : Word) (n al : Nat) : Prop :=
  isRemote ea = true ∧ n = 8 ∧ ea.toNat % al = 0 ∧ remoteFault s ea true = none ∧ remoteHome ea ≠ s.cur.node
/-- The request of such an access under way to its home tile (R215). -/
def padSent (s : State) (ea : Word) (op : SpOp) : State :=
  let q : SpReq := ⟨⟨s.cur, (me s).uid, s.no⟩, remoteHome ea, ea.toNat % 2 ^ 20, (me s).d.job, op, (spRecKind op).bind fun _ => recNo (me s)⟩
  sendMsg { s with no := s.no + 1 } s.cur s.cur.node q.home 3 1 [3, 1, slotKey s.cur] (pinOf (me s)) false
    (.scratchpadCycleService q.home (some (q, false)))
/-- That request under way, and its home noted as the place with which the unit is in conversation (R215, R315). -/
def padAsked (s : State) (ea : Word) (op : SpOp) : State := asks (padSent s ea op) s.cur (me s).uid (remoteHome ea)
/-- The machine has done no more than send: the cycle, every byte of memory and of the device registers, the jobs, and of every tile
all but its TLB and its count of stale flits (its scratchpad, its slots with their units, its endpoints, its engines) are as they were. -/
structure OnlySent (s t : State) : Prop where
  now : t.now = s.now
  cur : t.cur = s.cur
  mem : t.mem = s.mem
  bar0 : t.bar0 = s.bar0
  jobs : t.jobs = s.jobs
  tile : ∀ n, { tileAt t n with stale := (tileAt s n).stale, tlb := (tileAt s n).tlb } = tileAt s n
/-- A form sends such a request and waits for its reply; every byte stays as it is until the request lands. -/
def AsksPad (s : State) (h : Hdr) (i : Instr) (ea : Word) (op : SpOp) (limited : Bool) (o : Outc) : Prop :=
  Parks s h (waitBy s i s.no .reply (if limited then 1 else 0) 0 ea []) (padAsked s ea op) o ∧
  OnlySent s (padSent s ea op)
/-- A form completes once its bytes are stored at an offset of the scratchpad, with nothing else changed. -/
def StoresPad (s : State) (h : Hdr) (off : Nat) (b : List Byte) (o : Outc) : Prop :=
  ∃ m, Stored (here s).sp m off b ∧ DoneIn s h (modTile s s.cur.node fun t => { t with sp := m }) o
/-- No log is kept of what the unit does (R336, R337). -/
def Unrecorded (s : State) : Prop :=
  (me s).d.det = true ∨ ∀ j, jobAt s (me s).d.job = some j → recOff j = true
/-- A recorded event of the unit is counted (R336). -/
def counted (s : State) : State := if (me s).d.det then s else countRec s s.cur (me s).uid
/-- A synchronising form in the list of its word (R221). -/
def padWaits (s : State) (off : Nat) (op : SpOp) : State :=
  askServe (modTile { s with no := s.no + 1 } s.cur.node fun t => { t with waiters := t.waiters ++
    [⟨⟨⟨s.cur, (me s).uid, s.no⟩, s.cur.node, off, (me s).d.job, op, (spRecKind op).bind fun _ => recNo (me s)⟩, true⟩] }) s.cur.node

/-- A request of the unit that issues to a service (R192). -/
def svcOf (s : State) (peer : Node) (rec_ : Option Nat) (k : SvcKind) : SvcReq :=
  ⟨⟨s.cur, (me s).uid, s.no⟩, peer, (me s).d.job, (me s).d.launch, (me s).d.root, systemMode s.cur, rec_, k, false⟩
/-- That request under way. -/
def svcSent (s : State) (q : SvcReq) (ev : SvcReq → Ev) : State :=
  sendMsg { s with no := s.no + 1 } s.cur s.cur.node q.peer 3 1 [3, 7, slotKey s.cur] (pinOf (me s)) false (ev q)
/-- That request under way, and its peer noted as the place with which the unit is in conversation (R192, R315). -/
def svcAsked (s : State) (q : SvcReq) (ev : SvcReq → Ev) : State := asks (svcSent s q ev) s.cur (me s).uid q.peer
/-- A form sends a request to a service and waits for the reply; nothing else happens until the request lands (R104, R192). -/
def AsksSvc (s : State) (h : Hdr) (i : Instr) (q : SvcReq) (ev : SvcReq → Ev) (lim : Nat) (va : Word) (o : Outc) : Prop :=
  Parks s h (waitBy s i s.no .reply lim 0 va []) (svcAsked s q ev) o ∧ OnlySent s (svcSent s q ev)
/-- A form faults: handler entry, or the end of its unit, with nothing else done (R341). -/
def Faults (s : State) (code : Nat) (va aux : Word) (o : Outc) : Prop := o = .next (takeFault s s.cur (me s).uid code va aux)
/-- A form completes after changing the state to s', with the results named on their way. -/
def ResultsIn (s : State) (h : Hdr) (s' : State) (srcs : List Reg) (l : Nat) (ws : List (Reg × VVal)) (o : Outc) : Prop :=
  DoneIn s h (ws.foldl (fun u w => land u s.cur (me s).uid w.1 w.2 (l + slowBy srcs)) s') o
/-- An endpoint of the tile that the unit that issues owns, open, with no packet of the unit open elsewhere (steps 1 to 3 and 5 of R167). -/
structure OpenEp (s : State) (ep : EIx) : Prop where
  owned : ownsEp s s.cur (me s).uid ep.toNat = true
  opened : (epAt s (ownEp s.cur ep)).st = .opened
  packet : ∀ p, (me s).packet = some p → p.1 = ep.toNat
/-- FAULTAUX of a form that the strainer refuses (R167). -/
def refusedAux (s : State) (ep : EIx) (step : Nat) : Word :=
  BitVec.ofNat 64 (ep.toNat + (epAt s (ownEp s.cur ep)).q * 2 ^ 8 + step * 2 ^ 13)
/-- What the first steps of the strainer do for every message form, whose sources and destinations are given, and whose results are
those given on an endpoint that the peer has closed (steps 1 to 3 of R167, R175). -/
def Strained (s : State) (h : Hdr) (ep : EIx) (l : Nat) (closed : List (Reg × VVal)) (o : Outc) : Prop :=
  (ownsEp s s.cur (me s).uid ep.toNat = false → Faults s 0x0D 0 (BitVec.ofNat 64 ep.toNat) o) ∧
  (ownsEp s s.cur (me s).uid ep.toNat = true →
    ((epAt s (ownEp s.cur ep)).st = .peerClosed → Results s h [] l closed o) ∧
    ((epAt s (ownEp s.cur ep)).st ≠ .peerClosed → (epAt s (ownEp s.cur ep)).st ≠ .opened → Faults s 0x0C 0 (refusedAux s ep 2) o))
/-- The command of a form that issues, as it enters the queue of an engine (R265, R267). -/
def newCmd (s : State) (sync : ESync) (fn : Nat) (kind : EngKind) : EngCmd :=
  { id := s.no, slot := s.cur.slot, uid := (me s).uid, job := (me s).d.job, launch := (me s).d.launch,
    sup := ⟨s.cur.pkg, (me s).d.supTile, (me s).d.supSlot⟩, sync := sync, fn := fn, kind := kind, det := (me s).d.det }
/-- An engine's queue of the tile with a command at its end, outstanding until it completes (R266, R267). -/
def queued (s : State) (mx : Bool) (q : EngCmd) : State :=
  modTile (addOut { s with no := s.no + 1 } { id := q.id, slot := s.cur, uid := q.uid, job := q.job, launch := q.launch, home := none, host := false, va := 0 })
    s.cur.node fun t => if mx then { t with mx := { t.mx with cmds := t.mx.cmds ++ [q] } } else { t with copy := t.copy ++ [q] }
/-- A command form whose checks hold: with 16 commands in the queue it waits; otherwise its command is the last of the queue of
the state u, with the further effects f, and the engine looks at its queue in the next cycle (R266, R267). -/
def Queues (s u : State) (h : Hdr) (i : Instr) (mx : Bool) (sync : ESync) (fn : Nat) (kind : EngKind) (f : State → State) (o : Outc) : Prop :=
  (16 ≤ (cmdsOf (here s) mx).length → Parks s h (waitBy s i s.no .cond 0 0 0 []) { s with no := s.no + 1 } o) ∧
  ((cmdsOf (here s) mx).length < 16 → DoneIn s h (askEngine (f (queued u mx (newCmd s sync fn kind))) s.cur.node mx) o)
/-- A descriptor of the tile, taken apart (R260). -/
def tdHere (s : State) (i : DIx) : TDesc := tdOf ((tdAt (here s) i.toNat).map (·.toNat))

/-- A form that does not issue because a part of the tile is taken: its turn is lost and it waits to be retried (R112, R135). -/
def Busy (s : State) (i : Instr) (o : Outc) : Prop :=
  ∃ t, o = .next t ∧ OnlyUnit s t ∧
    ctxAt t s.cur = { me s with lost := (me s).lost + 1, park := some (waitBy s i s.no .busy 0 0 0 []) }
/-- The number that a lane of a vector register holds in a format. -/
def numAt (s : State) (t : Ty) (v : VIx) (j : Nat) : Num := (Fmt.of t).read (laneAt t.width (rv (me s) v) j)
/-- A request of so many cycles enters the special-function queue from the state u, with what its steps have left and its results: where 16
are held it does not issue; else its destinations are pending and its draws made, and the slot waits where a trap is enabled
(R117, R146, R147). -/
def SfuEnters (s u : State) (h : Hdr) (i : Instr) (srcs : List Reg) (occ : Nat) (a : FAcc) (ws : List (Reg × VVal)) (o : Outc) : Prop :=
  let q : SfuReq := { id := s.no, slot := s.cur.slot, uid := (me s).uid, occ := occ, issuedAt := s.now, started := false, dst := ws,
                      old := ws.map fun x => (x.1, valOf (me s) x.1), flags := a.flags, lane := a.bad.getD 0, trapping := a.bad.isSome, job := (me s).d.job
                      slow := slowBy srcs, seed := (me s).seed }
  let s1 := modTile { u with no := s.no + 1 } s.cur.node fun t => { t with sfu := t.sfu ++ [q] }
  let s2 := modCtx s1 s.cur fun c => ws.foldl (fun c x => setPres c x.1 .pending) { c with seed := a.seed }
  let s3 := pushOnce s2 (max (dueIn s s.cur.node 1) (here s).sfuFree) phStart (nodeKey s.cur.node) (.sfuServiceStart s.cur.node)
  ((here s).sfu.length < 16 →
    (enabled (me s) = 0 → DoneIn s h s3 o) ∧ (enabled (me s) ≠ 0 → Parks s h (waitBy s i s.no (.sfu s.no) 0 0 0 []) s3 o))
/-- The unit that issues holds the accumulators named, and none is busy (R150, R153). -/
def HoldsXa (s : State) (xs : List (BitVec 3)) : Prop :=
  ∀ i ∈ xs, (xaAt (here s) i).holder = some (s.cur.slot, (me s).uid) ∧ (xaAt (here s) i).busyUntil ≤ s.now
/-- What a form does that names an accumulator it does not hold, or one that is busy (R150, R153). -/
def XaGuarded (s : State) (i : Instr) (x : BitVec 3) (o : Outc) : Prop :=
  ((xaAt (here s) x).holder ≠ some (s.cur.slot, (me s).uid) → Faults s 0x03 0 (x.setWidth 64) o) ∧
  ((xaAt (here s) x).holder = some (s.cur.slot, (me s).uid) → s.now < (xaAt (here s) x).busyUntil → Busy s i o)

/-- An endpoint as it is prepared for a channel under an image of an index, its buffer carved (R161, R165). -/
def prepared (s : State) (e : EpRef) (img : Nat) (m : PImage) (g : Option (Nat × Nat)) : State :=
  modEp s e fun x => { x with img := img, q := m.init, gran := g, inbox := [], part := none, early := [], rxSeq := 0, txSeq := 0, resv := [],
                              cursor := 0, unread := 0, pkt := none, pstate := 0, cause := 0, fwd := none, parties := [] }
/-- The unit that issues owns an endpoint, which is open (steps 1 to 3 of R167). -/
def OwnOpen (s : State) (ep : EIx) : Prop :=
  ownsEp s s.cur (me s).uid ep.toNat = true ∧ (epAt s (ownEp s.cur ep)).st = .opened
/-- The image of an endpoint of the tile. -/
def epImg (s : State) (ep : EIx) : PImage := imageOf s s.cur.node (epAt s (ownEp s.cur ep)).img
/-- A message form waits for its channel, counted by WAITLIM (R171, R173). -/
def ChWaits (s : State) (h : Hdr) (i : Instr) (o : Outc) : Prop := Parks s h (waitBy s i s.no .cond 5 0 0 []) { s with no := s.no + 1 } o
/-- A release form waits until what precedes it is performed (R294). -/
def RelWaits (s : State) (h : Hdr) (i : Instr) (o : Outc) : Prop := Parks s h (waitBy s i s.no .cond 0 0 0 []) { s with no := s.no + 1 } o
/-- A channel flit in its turn at an endpoint that is open and not about to be delegated, none landed early; no push and no service awaits it. -/
structure FlitInTurn (s : State) (f : ChFlit) : Prop where
  fits : flitFits (epAt s f.dst) f = true
  opened : (epAt s f.dst).st = .opened
  staying : (epAt s f.dst).leaving = false
  early : (epAt s f.dst).early = []
  turn : f.seq = (epAt s f.dst).rxSeq
  noPush : ∀ q ∈ (tileAt s f.src).copy, chMark f ∉ q.marks
  noService : isService f.dst = false

/-- A place serves one request in a cycle, in the order of landing: a request whose turn has come is taken now, one that lands with none
before it too, the place's next turn being a cycle later, and another comes again in its turn; out tells what taking it does (R397). -/
def InTurn (s : State) (turn : Bool) (place key : Nat) (again : Ev) (out : State → Outc → Prop) (o : Outc) : Prop :=
  let c := max s.now (aget 0 s.served place)
  let u := { s with served := aset s.served place (c + 1) }
  (turn = true → out s o) ∧ (turn = false → (c ≤ s.now → out u o) ∧ (s.now < c → o = .next (push u c phLand key again)))
/-- A service that has taken a request in a state u answers it, with the state s' after it is served: the reply leaves the service time
later, in the advancing cycles of its place (R192, R397). -/
def Answered (u s' : State) (q : SvcReq) (time : Nat) (a : SvcReply) (o : Outc) : Prop :=
  o = .next (sendAt s' (dueFrom u q.peer u.now time) ⟨q.who.slot, q.peer, q.who.slot.node, 4, 1, [4, 7, slotKey q.who.slot, nodeKey q.peer],
    some q.launch, true, .serviceReplyLand q.who a⟩)
/-- A service takes a request in its turn, which its event presents, and answers it; f makes the state after it is served (R397). -/
def Serves (s : State) (q : SvcReq) (service time : Nat) (ev : SvcReq → Ev) (f : State → State) (a : SvcReply) (o : Outc) : Prop :=
  InTurn s q.turn (peerKey q.peer service) (slotKey q.who.slot) (ev { q with turn := true }) (fun u o => Answered u (f u) q time a o) o
/-- The turns of a tile are in order: none has two owners, and every bound slot owns its home turn (R193, R194). -/
def TurnsOk (t : Tile) : Prop :=
  (∀ i j : Fin 16, i ≠ j → (t.slots[i]).owned &&& (t.slots[j]).owned = 0) ∧
  ∀ i : Fin 16, (t.slots[i]).ph = .bound → (t.slots[i]).owned.getLsbD i = true
/-- What the address of a scratchpad form that it does not accept gives (R214, R218). -/
def PadRefuses (s : State) (ea : Word) (n al : Nat) (one : Bool) (o : Outc) : Prop :=
  (isRemote ea = false → ea.toNat % al ≠ 0 → Faults s 0x06 ea 0 o) ∧
  (isRemote ea = false → ea.toNat % al = 0 → padOk (here s) ea.toNat n = false → Faults s 0x07 ea 0 o) ∧
  (isRemote ea = true → ∀ f v, remoteFault s ea (one && n = 8) = some (f, v) → Faults s f v 0 o) ∧
  (isRemote ea = true → remoteFault s ea (one && n = 8) = none → ea.toNat % al ≠ 0 → Faults s 0x06 ea 0 o) ∧
  (isRemote ea = true → remoteFault s ea (one && n = 8) = none → ea.toNat % al = 0 → remoteHome ea = s.cur.node →
    padOk (here s) (ea.toNat % 2 ^ 20) n = false → Faults s 0x07 ea 0 o)

end Sys2Proof.Machine
end

