-- ==== Sys2Proof/Certificates/Slice0/Obligations.lean ====
section
/-! DEFINITION. What is to be proved of the machine, chapter by chapter: of every form what it does, when it faults and when it waits,
of every event what it does, and of the machine as a whole. -/

open Sys2Proof Sys2Proof.Machine

/-! ### The machine as a whole -/

/-- R44, R75 and R76: a step runs the decoded instruction. Where no event is due at the start of the cycle and a core is next, whose slot
owns the turn and may issue, the step is exec of the instruction that the twelve bytes at its PC decode to; a matrix form on a spout, a
reserved field, an operand that is not accepted and a fetch that faults fault, and a fetch that misses waits for its translation. An event
that is due is run by its own constructor, and the clock goes on when nothing is left to do in the cycle. -/
def Obligations.StepRunsTheDecodedInstruction : Prop :=
  ∀ (s : State),
    ((∀ d l, s.agenda = d :: l → ¬(d.at_ ≤ s.now ∧ d.ph = 0)) →
      ∀ k q, s.issueQ = k :: q →
        let s' := { s with issueQ := q }
        let n := nodeOfKey k
        (isHeld s' n = true ∨ turnOwner s' n = none → step s = .next s') ∧
        (isHeld s' n = false → ∀ i, turnOwner s' n = some i →
          let r : SlotRef := ⟨n.pkg, n.id, i⟩
          let uid := (ctxAt s' r).uid
          (turnUse s' r = .empty → step s = .next s') ∧
          (turnUse s' r = .quiet → step s = .next (modCtx s' r fun c => { c with quiet := c.quiet - 1 })) ∧
          (turnUse s' r = .lost → step s = .next (modCtx s' r fun c => { c with lost := c.lost + 1 })) ∧
          (turnUse s' r = .issue →
            (∀ u code va aux, fetch s' r (ctxAt s' r) = .trap u code va aux → step s = .next (takeFault u r uid code va aux)) ∧
            (∀ va l, fetch s' r (ctxAt s' r) = .miss va l → step s = .next (fetchMiss s' r (ctxAt s' r) va l)) ∧
            (∀ u b, fetch s' r (ctxAt s' r) = .ok u b →
              (opOf b = 0x92 ∧ isCompute n.id = false → step s = .next (takeFault u r uid 0x01 0 0)) ∧
              (¬(opOf b = 0x92 ∧ isCompute n.id = false) →
                (∀ x, decodeBytes b = .ok x → step s = exec x { u with cur := r }) ∧
                (decodeBytes b = .error .reservedField → step s = .next (takeFault u r uid 0x02 0 0)) ∧
                (decodeBytes b = .error .illegalOperand → step s = .next (takeFault u r uid 0x03 0 0))))))) ∧
    (∀ d l, s.agenda = d :: l → d.at_ ≤ s.now → (d.ph = 0 ∨ s.issueQ = []) → putOff { s with agenda := l } d.ev = none →
      step s = exec d.ev.toInstr { s with agenda := l }) ∧
    ((∀ d l, s.agenda = d :: l → s.now < d.at_) → s.issueQ = [] →
      (∀ u, settle s = some u → step s = .next u) ∧ (settle s = none → step s = .next (tick s)))

/-- R43 to R59: decode and encode agree, for every well-formed instruction that a word holds, at every value of every operand; and every
word that decodes is the encoding of the well-formed instruction it decodes to. -/
def Obligations.DecodeAndEncodeAgree : Prop :=
  (∀ (i : Instr) (w : IWord), i.wellFormed = true → encode i = some w → decode w = .ok i) ∧
  (∀ (i : Instr) (w : IWord), decode w = .ok i → i.wellFormed = true ∧ encode i = some w)

/-- R40, R43, R48, R50, R58 and R59: words written out field by field decode to the instructions they stand for, and words with a
reserved field, an operand out of its limits or an unassigned cell are told apart. -/
def Obligations.SampleWordsDecode : Prop :=
  decode 0x110000010100000000000008 = .ok (.addImm ⟨0, false, 0, 0⟩ 1 1 8) ∧
  decode 0x020DE5000000000000000000 = .ok (.nop ⟨3, true, 2, 5⟩) ∧
  decode 0x130000810928000000000004 = .ok (.cmp ⟨0, false, 0, 0⟩ .ltn 1 9 40) ∧
  decode 0xB80400000000000000000001 = .ok (.eret ⟨0, false, 0, 0⟩ true) ∧
  decode 0xB8000000000000000000002A = .ok (.trap ⟨0, false, 0, 0⟩ 0x2A) ∧
  decode 0x020C00010000000000000000 = .error .reservedField ∧
  decode 0x021400010000000000000014 = .error .illegalOperand ∧
  decode 0x000000000000000000000000 = .ok (.illegalInstruction 0) ∧
  decode 0x011800000000000000000000 = .ok (.illegalInstruction 0x011800000000000000000000)

/-- R59: every cell of the opcode map that is not assigned, with any other bits, is the form that faults with illegal_instruction, whatever
its guard field holds, whether or not the slot is parked, and in every mode; the fault is all that happens. The assigned cells are those of
Table 5 of the chapter on encoding. -/
def Obligations.UnassignedCellsFault : Prop :=
  (∀ w : IWord, assigned (w.extractLsb' 88 8).toNat (w.extractLsb' 82 6).toNat = false → decode w = .ok (.illegalInstruction w)) ∧
  (∀ (s : State) (w : IWord), (slotAt s s.cur).ph = .bound → Faults s 0x01 0 0 (exec (.illegalInstruction w) s)) ∧
  ∀ op fn : Nat, assigned op fn = true ↔ (op, fn) ∈
    ([(0x01, 6), (0x02, 7), (0x03, 3), (0x04, 9), (0x10, 22), (0x11, 22), (0x12, 8), (0x13, 6), (0x14, 5), (0x15, 3), (0x30, 16),
      (0x31, 13), (0x32, 8), (0x33, 4), (0x34, 4), (0x35, 7), (0x36, 5), (0x37, 10), (0x60, 4), (0x61, 6), (0x62, 6), (0x63, 2),
      (0x70, 6), (0x74, 4), (0x75, 4), (0x76, 4), (0x77, 5), (0x80, 5), (0x81, 3), (0x82, 3), (0x83, 3), (0x84, 2), (0x90, 3),
      (0x91, 3), (0x92, 8), (0xA0, 2), (0xA8, 5), (0xA9, 2), (0xB0, 3), (0xB8, 5)] : List (Nat × Nat)).flatMap
        fun x => (List.range x.2).map fun n => (x.1, n)

/-- Steps 5 to 7 of R44, with R112: a form whose guard is full and false completes with no effect of its own, whatever its operands hold:
the unit's next instruction follows, and nothing else has changed. (EINJ outside
system mode, which faults before its guard is read, is left to RecordAndErrorForms.) -/
def Obligations.GuardedOffFormsDoNothing : Prop :=
  ∀ (s : State) (i : Instr) (r : Raw), encodeRaw i = some r → (slotAt s s.cur).ph = .bound → (me s).park = none →
    presOf (me s) (.p r.h.g) = .full → guardOf (me s) r.h = false → packetFull (me s) = none →
    (∀ h k a b, i = .einj h k a b → systemMode s.cur = true) →
    UnitOnly s r.h (me s) (exec i s)

/-- R75, R118, R193 and R212: the machine right after reset. Nothing is bound, turn i is owned by slot i, no tile has a tenant, no
event is under way, and the first step is the clock's. That memory reads 0 is the model's own choice (log 3), as are the shape of the
domain (log 2) and the counters of the model (log 4). -/
def Obligations.ResetLeavesTheMachineIdle : Prop :=
  State.reset.now = 0 ∧ State.reset.jobs = [] ∧ State.reset.agenda = [] ∧
  (∀ r : SlotRef, r.slot < 16 →
    (slotAt State.reset r).ph = .free ∧ (slotAt State.reset r).owned = BitVec.ofNat 16 (2 ^ r.slot) ∧
    (slotAt State.reset r).base = BitVec.ofNat 16 (2 ^ r.slot) ∧ (slotAt State.reset r).minT = 1 ∧ (slotAt State.reset r).maxT = 16 ∧
    (slotAt State.reset r).terms = []) ∧
  (∀ n : Node, (tileAt State.reset n).tenant = none ∧ (tileAt State.reset n).eps = [] ∧ (tileAt State.reset n).errs = [] ∧
    TurnsOk (tileAt State.reset n)) ∧
  (∀ a, cellGet State.reset.mem a = 0) ∧ cellsWf State.reset.mem = true ∧ cellsWf State.reset.bar0 = true ∧
  step State.reset = .next { State.reset with now := 1 }

/-- The memory of the domain and the device registers keep their canonical form over every step, from every state that has it: addresses
rise strictly and no byte is listed that is what an unlisted address reads as. -/
def Obligations.StepKeepsMemoryCanonical : Prop :=
  ∀ (s t : State), step s = .next t → cellsWf s.mem = true ∧ cellsWf s.bar0 = true → cellsWf t.mem = true ∧ cellsWf t.bar0 = true

/-- R49 and R119: in every context s0 reads 0, p0 true and k0 all lanes active, none is ever empty, and what is written to them is
discarded; a write of any other register sets it and no other. -/
def Obligations.FixedRegistersNeverChange : Prop :=
  ∀ (c : Ctx) (g : Reg) (x : VVal) (p : Pres),
    rs c 0 = 0 ∧ rp c 0 = true ∧ rk c 0 = BitVec.allOnes 256 ∧
    presOf c (.s 0) = .full ∧ presOf c (.p 0) = .full ∧ presOf c (.k 0) = .full ∧
    (realReg g = false → setPres c g p = c ∧ putReg c g x = c) ∧
    (realReg g = true → presOf (setPres c g p) g = p) ∧
    (∀ g', g' ≠ g → valOf (putReg c g x) g' = valOf c g' ∧ presOf (setPres c g p) g' = presOf c g')

/-! ### Scalar, control and fault forms (chapters 04, 05 and 15) -/

/-- R127 with Table 5: every register form of OP 0x10 completes with the result of the table, after the latency of the table; s0 as a
destination discards it. The four that divide are stated for a divisor that is not 0.
R126 and R127: the immediate forms of OP 0x11, whose second operand is the 48-bit immediate sign-extended. The limits that step 4 of
R44 sets are assumed: a divisor that is not 0, a shift count of 0 to 63.
R127: a divisor register of 0 gives divide_by_zero at step 8, with FAULTVA and FAULTAUX 0 and nothing else done. -/
def Obligations.ScalarArithmeticResults : Prop :=
  (∀ (s : State) (h : Hdr) (d a b : SIx), Ready s h [.s a, .s b] [.s d] true →
     let x := rs (me s) a
     let y := rs (me s) b
     let n := y.toNat % 64
     let r := fun (l : Nat) (v : Word) (i : Instr) => Results s h [.s a, .s b] l [(.s d, sval v)] (exec i s)
     r 3 (x + y) (.add h d a b) ∧ r 3 (x - y) (.sub h d a b) ∧ r 5 (x * y) (.mul h d a b) ∧
     r 5 (BitVec.ofInt 64 (x.toInt * y.toInt / 2 ^ 64)) (.mulh h d a b) ∧
     r 5 (BitVec.ofNat 64 (x.toNat * y.toNat / 2 ^ 64)) (.mulhn h d a b) ∧
     (y ≠ 0 →
       r 24 (BitVec.ofInt 64 (x.toInt.tdiv y.toInt)) (.div h d a b) ∧
       r 24 (BitVec.ofNat 64 (x.toNat / y.toNat)) (.divn h d a b) ∧
       r 24 (x - BitVec.ofInt 64 (x.toInt.tdiv y.toInt) * y) (.rem h d a b) ∧
       r 24 (BitVec.ofNat 64 (x.toNat % y.toNat)) (.remn h d a b)) ∧
     r 3 (x &&& y) (.and h d a b) ∧ r 3 (x ||| y) (.or h d a b) ∧ r 3 (x ^^^ y) (.xor h d a b) ∧ r 3 (x &&& ~~~y) (.andn h d a b) ∧
     r 3 (x <<< n) (.shl h d a b) ∧ r 3 (x >>> n) (.shr h d a b) ∧ r 3 (x.sshiftRight n) (.sar h d a b) ∧
     r 3 (x <<< n ||| x >>> ((64 - n) % 64)) (.rol h d a b) ∧
     r 3 (BitVec.ofInt 64 (min x.toInt y.toInt)) (.min h d a b) ∧ r 3 (BitVec.ofInt 64 (max x.toInt y.toInt)) (.max h d a b) ∧
     r 3 (BitVec.ofNat 64 (min x.toNat y.toNat)) (.minn h d a b) ∧ r 3 (BitVec.ofNat 64 (max x.toNat y.toNat)) (.maxn h d a b) ∧
     r 3 (BitVec.ofInt 64 (max (-(2 ^ 63)) (min (2 ^ 63 - 1) (x.toInt + y.toInt)))) (.addsat h d a b)) ∧
  (∀ (s : State) (h : Hdr) (d a : SIx) (imm : BitVec 48), Ready s h [.s a] [.s d] true →
     let x := rs (me s) a
     let y := imm.signExtend 64
     let r := fun (l : Nat) (v : Word) (i : Instr) => Results s h [.s a] l [(.s d, sval v)] (exec i s)
     r 3 (x + y) (.addImm h d a imm) ∧ r 3 (x - y) (.subImm h d a imm) ∧ r 5 (x * y) (.mulImm h d a imm) ∧
     r 5 (BitVec.ofInt 64 (x.toInt * y.toInt / 2 ^ 64)) (.mulhImm h d a imm) ∧
     r 5 (BitVec.ofNat 64 (x.toNat * y.toNat / 2 ^ 64)) (.mulhnImm h d a imm) ∧
     (imm ≠ 0 →
       r 24 (BitVec.ofInt 64 (x.toInt.tdiv y.toInt)) (.divImm h d a imm) ∧
       r 24 (BitVec.ofNat 64 (x.toNat / y.toNat)) (.divnImm h d a imm) ∧
       r 24 (x - BitVec.ofInt 64 (x.toInt.tdiv y.toInt) * y) (.remImm h d a imm) ∧
       r 24 (BitVec.ofNat 64 (x.toNat % y.toNat)) (.remnImm h d a imm)) ∧
     r 3 (x &&& y) (.andImm h d a imm) ∧ r 3 (x ||| y) (.orImm h d a imm) ∧ r 3 (x ^^^ y) (.xorImm h d a imm) ∧
     r 3 (x &&& ~~~y) (.andnImm h d a imm) ∧
     (imm.toNat ≤ 63 →
       r 3 (x <<< imm.toNat) (.shlImm h d a imm) ∧ r 3 (x >>> imm.toNat) (.shrImm h d a imm) ∧
       r 3 (x.sshiftRight imm.toNat) (.sarImm h d a imm) ∧
       r 3 (x <<< imm.toNat ||| x >>> ((64 - imm.toNat) % 64)) (.rolImm h d a imm)) ∧
     r 3 (BitVec.ofInt 64 (min x.toInt y.toInt)) (.minImm h d a imm) ∧ r 3 (BitVec.ofInt 64 (max x.toInt y.toInt)) (.maxImm h d a imm) ∧
     r 3 (BitVec.ofNat 64 (min x.toNat y.toNat)) (.minnImm h d a imm) ∧ r 3 (BitVec.ofNat 64 (max x.toNat y.toNat)) (.maxnImm h d a imm) ∧
     r 3 (BitVec.ofInt 64 (max (-(2 ^ 63)) (min (2 ^ 63 - 1) (x.toInt + y.toInt)))) (.addsatImm h d a imm)) ∧
  (∀ (s : State) (h : Hdr) (d a b : SIx), Ready s h [.s a, .s b] [.s d] true → rs (me s) b = 0 →
     ∀ i ∈ [Instr.div h d a b, .divn h d a b, .rem h d a b, .remn h d a b], Faults s 0x19 0 0 (exec i s))

/-- R128 with Table 6: the bit-field forms, each result described bit by bit.
R130: compare, select and move.
R131 and R132: predicates, and the presence forms. ISFULL does not wait on its register; MKEMPTY and MKFULL change one presence bit, of
no register where they name s0, p0 or k0, and no value. -/
def Obligations.BitFieldMoveAndPredicateResults : Prop :=
  (∀ (s : State) (h : Hdr) (d a : SIx) (pos lenm1 : BitVec 6),
     let x := rs (me s) a
     let r := fun (v : Word) (i : Instr) => Results s h [.s a] 3 [(.s d, sval v)] (exec i s)
     let len := lenm1.toNat + 1
     (Ready s h [.s a] [.s d] true →
       (∃ n : Nat, r (BitVec.ofNat 64 n) (.clz h d a) ∧ n ≤ 64 ∧ (∀ j < 64, 64 - n ≤ j → x.getLsbD j = false) ∧
         (n < 64 → x.getLsbD (63 - n) = true)) ∧
       (∃ n : Nat, r (BitVec.ofNat 64 n) (.ctz h d a) ∧ n ≤ 64 ∧ (∀ j < n, x.getLsbD j = false) ∧ (n < 64 → x.getLsbD n = true)) ∧
       r (BitVec.ofNat 64 (((List.range 64).filter fun j => x.getLsbD j).length)) (.popc h d a) ∧
       (∃ v : Word, r v (.brev h d a) ∧ ∀ j < 64, v.getLsbD j = x.getLsbD (63 - j)) ∧
       (pos.toNat + len ≤ 64 →
         r (((x >>> pos.toNat).setWidth len).signExtend 64) (.ext h pos lenm1 d a) ∧
         r (((x >>> pos.toNat).setWidth len).setWidth 64) (.extn h pos lenm1 d a)) ∧
       (∃ v : Word, r v (.bswap h d a) ∧ ∀ j < 8, ∀ k < 8, v.getLsbD (8 * j + k) = x.getLsbD (8 * (7 - j) + k))) ∧
     (Ready s h [.s a, .s d] [.s d] true → pos.toNat + len ≤ 64 →
       ∃ v : Word, Results s h [.s a, .s d] 3 [(.s d, sval v)] (exec (.ins h pos lenm1 d a) s) ∧
         ∀ j < 64, v.getLsbD j = if pos.toNat ≤ j ∧ j < pos.toNat + len then x.getLsbD (j - pos.toNat) else (rs (me s) d).getLsbD j)) ∧
  (∀ (s : State) (h : Hdr) (d a b : SIx) (p q : PIx) (sz : Sz) (ofs : BitVec 32) (imm : BitVec 48) (imm16 : BitVec 16),
     let x := rs (me s) a
     let y := rs (me s) b
     (Ready s h [.s a, .s b] [.p p] true →
       let r := fun (v : Bool) (i : Instr) => Results s h [.s a, .s b] 3 [(.p p, pval v)] (exec i s)
       r (x = y) (.cmp h .eq p a b) ∧ r (x ≠ y) (.cmp h .ne p a b) ∧ r (x.toInt < y.toInt) (.cmp h .lt p a b) ∧
       r (x.toInt ≤ y.toInt) (.cmp h .le p a b) ∧ r (x.toNat < y.toNat) (.cmp h .ltn p a b) ∧ r (x.toNat ≤ y.toNat) (.cmp h .len p a b)) ∧
     (Ready s h [.s a, .s b, .p q] [.s d] true →
       Results s h [.s a, .s b] 3 [(.s d, sval (if rp (me s) q then x else y))] (exec (.sel h d a b q) s)) ∧
     (Ready s h [.s a] [.s d] true → Results s h [.s a] 3 [(.s d, sval x)] (exec (.mov h d a) s)) ∧
     (Ready s h [] [.s d] true → Results s h [] 3 [(.s d, sval (imm.signExtend 64))] (exec (.movi h d imm) s)) ∧
     (Ready s h [.s d] [.s d] true →
       Results s h [.s d] 3 [(.s d, sval (imm16 ++ (rs (me s) d).setWidth 48))] (exec (.movhi h d imm16) s)) ∧
     (Ready s h [.s a, .s b] [.s d] true →
       Results s h [.s a, .s b] 3 [(.s d, sval (x + y * BitVec.ofNat 64 sz.bytes + ofs.signExtend 64))] (exec (.lea h sz d a b ofs) s))) ∧
  (∀ (s : State) (h : Hdr) (d a b : PIx) (x : SIx) (g : Reg),
     (Ready s h [.p a, .p b] [.p d] true →
       let r := fun (v : Bool) (i : Instr) => Results s h [] 3 [(.p d, pval v)] (exec i s)
       r (rp (me s) a && rp (me s) b) (.pand h d a b) ∧ r (rp (me s) a || rp (me s) b) (.por h d a b) ∧
       r (rp (me s) a != rp (me s) b) (.pxor h d a b)) ∧
     (Ready s h [.p a] [.p d] true →
       Results s h [] 3 [(.p d, pval (!rp (me s) a))] (exec (.pnot h d a) s) ∧
       Results s h [] 3 [(.p d, pval (rp (me s) a))] (exec (.pmov h (.pp d a)) s)) ∧
     (Ready s h [.s x] [.p d] true → Results s h [.s x] 3 [(.p d, pval (rs (me s) x ≠ 0))] (exec (.pmov h (.ps d x)) s)) ∧
     (Ready s h [.p a] [.s x] true →
       Results s h [] 3 [(.s x, sval (if rp (me s) a then 1 else 0))] (exec (.pmov h (.sp x a)) s)) ∧
     (Ready s h [] [.p d] true → Results s h [] 3 [(.p d, pval (presOf (me s) g = .full))] (exec (.isfull h d g) s)) ∧
     (Ready s h [] [g] (notV g) →
       UnitOnly s h (setPres (me s) g .empty) (exec (.mkempty h g) s) ∧ UnitOnly s h (setPres (me s) g .full) (exec (.mkfull h g) s)) ∧
     ∀ p, presOf (setPres (me s) g p) g = (if realReg g then p else presOf (me s) g) ∧
       (∀ g', g' ≠ g → presOf (setPres (me s) g p) g' = presOf (me s) g') ∧ (∀ g', valOf (setPres (me s) g p) g' = valOf (me s) g'))

/-- R93: the control-flow forms, whose target is aligned and within the address space: the PC becomes the target, and the link or the
count is full after 3 cycles.
R41 and R93: a transfer to a target that is not aligned faults with misaligned, and one beyond the address space with
access_violation; FAULTVA is the target. -/
def Obligations.ControlFlowTransfers : Prop :=
  (∀ (s : State) (h : Hdr) (d a : SIx) (off : BitVec 48),
     let pc := (me s).pc
     let t := pc + 12 * off.signExtend 64
     let x := rs (me s) a
     let good := fun (w : Word) => w.toNat % 4 = 0 ∧ w.toNat < 2 ^ 56
     (Ready s h [] [] true → good t → ResultsAt s h [] 3 [] t (exec (.br h off) s)) ∧
     (Ready s h [.s a] [] true → good x → ResultsAt s h [] 3 [] x (exec (.bri h a) s) ∧ ResultsAt s h [] 3 [] x (exec (.ret h a) s)) ∧
     (Ready s h [] [.s d] true → good t → ResultsAt s h [] 3 [(.s d, sval (pc + 12))] t (exec (.call h d off) s)) ∧
     (Ready s h [.s a] [.s d] true → good x → ResultsAt s h [.s a] 3 [(.s d, sval (pc + 12))] x (exec (.calli h d a) s)) ∧
     (Ready s h [.s d] [.s d] true →
       let n := rs (me s) d - 1
       let u := if n = 0 then pc + 12 else t
       good u → ResultsAt s h [.s d] 3 [(.s d, sval n)] u (exec (.loop h d off) s))) ∧
  (∀ (s : State) (h : Hdr) (d a : SIx) (off : BitVec 48),
     let t := (me s).pc + 12 * off.signExtend 64
     let bad := fun (w : Word) (o : Outc) => (w.toNat % 4 ≠ 0 → Faults s 0x06 w 0 o) ∧
       (w.toNat % 4 = 0 → 2 ^ 56 ≤ w.toNat → Faults s 0x09 w 0 o)
     (Ready s h [] [] true → bad t (exec (.br h off) s)) ∧
     (Ready s h [.s a] [] true → bad (rs (me s) a) (exec (.bri h a) s) ∧ bad (rs (me s) a) (exec (.ret h a) s)) ∧
     (Ready s h [] [.s d] true → bad t (exec (.call h d off) s)) ∧
     (Ready s h [.s a] [.s d] true → bad (rs (me s) a) (exec (.calli h d a) s)) ∧
     (Ready s h [.s d] [.s d] true → rs (me s) d ≠ 1 → bad t (exec (.loop h d off) s)))

/-- R96 and R98: NOP does nothing, and YIELD leaves every own turn of the slot that remains in the round without an issue; both complete in
their turn. SLEEPR n, issued in cycle c, parks its slot, with no wait limit, until cycle 16 × (floor(c/16) + n), at the start of which it
completes, so that the slot may issue at its first own turn from that cycle on; SLEEPR 0 behaves as NOP. -/
def Obligations.NopYieldAndSleeprLeaveTurns : Prop :=
  (∀ (s : State) (h : Hdr), Ready s h [] [] true →
    UnitOnly s h (me s) (exec (.nop h) s)) ∧
  (∀ (s : State) (h : Hdr), Ready s h [] [] false →
    UnitOnly s h { me s with yieldRound := some (roundOf s s.cur.pkg) } (exec (.yield h) s) ∧
    UnitOnly s h (me s) (exec (.sleepr h 0) s) ∧
    ∀ n : BitVec 16, n ≠ 0 →
      let w : Who := ⟨s.cur, (me s).uid, s.no⟩
      let s' := push { s with no := s.no + 1 } ((pkgAt s s.cur.pkg).cycleBase + 16 * (cycleOf s s.cur.pkg / 16 + n.toNat)) phStart
        (slotKey s.cur) (.sleeprExpiry w)
      Parks s h (waitBy s (.sleepr h n) s.no .sleep 0 0 0 []) s' (exec (.sleepr h n) s)) ∧
  (∀ (s : State) (r : SlotRef), (ctxAt s r).yieldRound = some (roundOf s r.pkg) → turnUse s r ≠ .issue) ∧
  (∀ (s : State) (r : SlotRef), (ctxAt s r).park ≠ none → turnUse s r ≠ .issue) ∧
  (∀ (s : State) (w : Who) (p : Park), Waits s w p → ∃ t, exec (.sleeprExpiry w) s = .next t ∧ OnlySlot w.slot s t ∧
    let c := ctxAt s w.slot
    ctxAt t w.slot = { c with pc := c.pc + 12, issued := c.issued + 1, packet := c.packet.map fun x => (x.1, x.2 + 1), park := none, readyFrom := s.now })

/-- R97 and R95: PARK completes at once where the wake flag is set, and clears it, else it waits, counted by WAITLIM. EXIT is refused with an
open packet (FAULTAUX holds the endpoint) and inside a region; else the slot is unbound, its endpoints are no unit's, the accumulators it
held have no holder and their contents as they were, and no byte of memory has changed. -/
def Obligations.ParkAndExitForms : Prop :=
  (∀ (s : State) (h : Hdr), Ready s h [] [] false →
    ((me s).wake = true → UnitOnly s h { me s with wake := false } (exec (.park h) s)) ∧
    ((me s).wake = false → Parks s h (waitBy s (.park h) s.no .cond 5 0 0 []) { s with no := s.no + 1 } (exec (.park h) s))) ∧
  ∀ (s : State) (h : Hdr),
    let o := exec (.exit h) s
    (Ready s h [] [] false →
      (∀ e n, (me s).packet = some (e, n) → Faults s 0x03 0 (BitVec.ofNat 64 e) o) ∧
      ((me s).packet = none → ∃ t, o = .next t ∧ t.now = s.now ∧ t.mem = s.mem ∧ (slotAt t s.cur).ph = .free ∧
        (∀ i, ((tileAt t s.cur.node).epAt i).owner ≠ some (s.cur.slot, (me s).uid)) ∧
        ∀ (k : Fin 8), ((tileAt t s.cur.node).xas[k]).n = ((here s).xas[k]).n ∧
          ((tileAt t s.cur.node).xas[k]).holder ≠ some (s.cur.slot, (me s).uid))) ∧
    ((slotAt s s.cur).ph = .bound → (me s).park = none → presOf (me s) (.p h.g) = .full → guardOf (me s) h = true →
      (me s).region.isSome = true → Faults s 0x10 0 0 o)

/-- R99 with Table 9: what MFSR reads of every special register, full after 3 cycles.
R99 and R342: MTSR writes the register, and no other; a value with a reserved bit, or one the table excludes, faults with
illegal_operand and leaves the register as it was. A write of CAUSE leaves INH alone, and SEED takes a constant in place of 0 (R27). -/
def Obligations.SpecialRegistersReadAndWrite : Prop :=
  (∀ (s : State) (h : Hdr) (d : SIx), Ready s h [] [.s d] true →
     let c := me s
     let r := fun (n : SpReg) (v : Word) => Results s h [] 3 [(.s d, sval v)] (exec (.mfsr h d n) s)
     r .slotid (BitVec.ofNat 64 s.cur.slot) ∧ r .tileid (BitVec.ofNat 64 s.cur.tile) ∧ r .pkgid (BitVec.ofNat 64 s.cur.pkg) ∧
     r .unitix c.d.unitix ∧ r .launchid c.d.launch ∧ r .jobid c.d.job ∧
     r .cycle (BitVec.ofNat 64 (s.now - (pkgAt s s.cur.pkg).cycleBase)) ∧
     r .waitlim c.waitlim ∧ r .rmode c.rmode ∧ r .fpflags c.fpflags ∧ r .seed c.seed ∧ r .trappc c.trappc ∧ r .cause c.cause ∧
     r .faultaux c.faultaux ∧ r .faultva c.faultva ∧ r .handler c.handler ∧
     (∃ v : Word, r .turntab v ∧ v.toNat < 2 ^ 32 ∧ ∀ j < 16, v.getLsbD j = (slotAt s s.cur).owned.getLsbD j ∧
       v.getLsbD (16 + j) = (here s).slots.toList.all fun l => !l.owned.getLsbD j) ∧
     r .detmode (if c.d.det then 1 else 0) ∧
     (isCompute s.cur.tile = true → r .refwin (BitVec.ofNat 64 (160 * 2 ^ 32 + 2048 * 2 ^ 16 + s.cur.tile % 16 * 128))) ∧
     r .incarn (BitVec.ofNat 64 ((here s).inc % 256))) ∧
  (∀ (s : State) (h : Hdr) (a : SIx),
     let c := me s
     let x := rs c a
     let w := fun (n : SpReg) (c' : Ctx) => UnitOnly s h c' (exec (.mtsr h a n) s)
     let no := fun (n : SpReg) => Faults s 0x03 0 0 (exec (.mtsr h a n) s)
     Ready s h [.s a] [] false →
     (x.toNat < 2 ^ 32 → w .waitlim { c with waitlim := x }) ∧ (2 ^ 32 ≤ x.toNat → no .waitlim) ∧
     (x.toNat < 6 → w .rmode { c with rmode := x }) ∧ (6 ≤ x.toNat → no .rmode) ∧
     (x &&& 0x1F1F = x → w .fpflags { c with fpflags := x }) ∧ (x &&& 0x1F1F ≠ x → no .fpflags) ∧
     (x ≠ 0 → w .seed { c with seed := x }) ∧ (x = 0 → w .seed { c with seed := 0x9E3779B97F4A7C15 }) ∧ w .trappc { c with trappc := x } ∧
     (x.extractLsb' 8 55 = 0 → w .cause { c with cause := c.cause.extractLsb' 63 1 ++ (0 : BitVec 55) ++ x.setWidth 8 }) ∧
     (x.extractLsb' 8 55 ≠ 0 → no .cause) ∧
     w .faultaux { c with faultaux := x } ∧ w .faultva { c with faultva := x } ∧
     (x.toNat % 4 = 0 ∧ x.toNat < 2 ^ 56 → w .handler { c with handler := x }) ∧
     (x.toNat % 4 ≠ 0 ∨ 2 ^ 56 ≤ x.toNat → no .handler))

/-- R341: entry to the handler. With INH 0 and no region or packet open, a fault writes CAUSE with its code and INH, TRAPPC, FAULTVA and
FAULTAUX, and the PC becomes HANDLER; every register of the four files keeps its value and presence, and nothing else of the machine
changes. A quiet count in force is discarded. -/
def Obligations.FaultEntryWritesOnlyFaultRegisters : Prop :=
  ∀ (s : State) (r : SlotRef) (code : Nat) (va aux : Word),
    (slotAt s r).ph = .bound → (ctxAt s r).inh = false → (ctxAt s r).region = none → (ctxAt s r).packet = none →
    ((ctxAt s r).d.det = true → code ≠ 0x1A ∧ code ≠ 0x13) → code < 256 →
    let t := takeFault s r (ctxAt s r).uid code va aux
    let c := ctxAt s r
    OnlySlot r s t ∧ ctxAt t r = { c with
      cause := BitVec.ofNat 64 (2 ^ 63 + code), trappc := c.pc, faultva := va, faultaux := aux, pc := c.handler, park := none,
      quiet := 0, readyFrom := max c.readyFrom (s.now + 1) } ∧ t.agenda = s.agenda

/-- R346 and R347: TRAP faults with software_trap and its immediate in FAULTAUX, TRAPPC holding the TRAP, with no other effect; guarded off it
does nothing. ERET with INH 0 faults with illegal_operand; else it goes on at TRAPPC, or 12 bytes after it, and INH is 0; a target
that is not aligned or beyond the address space faults with INH 1. -/
def Obligations.TrapAndReturnForms : Prop :=
  ∀ (s : State) (h : Hdr),
    (∀ imm : BitVec 48, Ready s h [] [] false →
      Faults s 0x20 0 (imm.setWidth 64) (exec (.trap h imm) s) ∧
      ((me s).inh = false → ∃ t, exec (.trap h imm) s = .next t ∧ OnlyUnit s t ∧ t.agenda = s.agenda ∧
        ctxAt t s.cur = { me s with
          cause := BitVec.ofNat 64 (2 ^ 63 + 0x20), trappc := (me s).pc, faultva := 0, faultaux := imm.setWidth 64, pc := (me s).handler,
          park := none, quiet := 0, readyFrom := max (me s).readyFrom (s.now + 1) })) ∧
    (∀ imm : BitVec 48, (slotAt s s.cur).ph = .bound → (me s).park = none → presOf (me s) (.p h.g) = .full → guardOf (me s) h = false →
      packetFull (me s) = none → UnitOnly s h (me s) (exec (.trap h imm) s)) ∧
    ∀ skip : Bool, Ready s h [] [] false →
      let c := me s
      let t := c.trappc + if skip then 12 else 0
      (c.inh = false → Faults s 0x03 0 0 (exec (.eret h skip) s)) ∧
      (c.inh = true → t.toNat % 4 ≠ 0 → Faults s 0x06 t 0 (exec (.eret h skip) s)) ∧
      (c.inh = true → t.toNat % 4 = 0 → 2 ^ 56 ≤ t.toNat → Faults s 0x09 t 0 (exec (.eret h skip) s)) ∧
      (c.inh = true → t.toNat % 4 = 0 → t.toNat < 2 ^ 56 →
        ∃ u, exec (.eret h skip) s = .next u ∧ OnlyUnit s u ∧ (ctxAt u s.cur).inh = false ∧
          ctxAt u s.cur = { c with
            cause := c.cause &&& 0x7FFFFFFFFFFFFFFF, pc := t, issued := c.issued + 1, quiet := h.hq.toNat, park := none,
            packet := c.packet.map fun x => (x.1, x.2 + 1), readyFrom := max c.readyFrom (s.now + 1) })

/-! ### Spawning and binding (chapter 04) -/

/-- What a spawn form asks for: the caller's launch and job, the target PC, the four arguments, and the tag of the caller in UNITIX
(R90, R101). That an id which names no tile is refused after 24 cycles is the model's choice (log 48).
R102: SPAWN.RET. A unit that no spawn form created, or that has returned a value before, faults; one that SPAWN.Q created
completes and sends nothing; else the value is on its way to the caller's register once the release may be performed, and the unit is
marked as having returned. -/
def Obligations.SpawnFormsAskAndReturnOnce : Prop :=
  (∀ (s : State) (h : Hdr) (d a b x : SIx) (p : PIx), x.toNat ≤ 60 →
     let c := me s
     let t := rs c a
     let pc := rs c b
     let args := [rs c x, rs c (x + 1), rs c (x + 2), rs c (x + 3)]
     let form := fun (isAt : Bool) (ret : Option SIx) (dst : Reg) (i : Instr) =>
       Ready s h ([.s a, .s b] ++ sRun x 4) [dst] false →
       let o := exec i s
       let ok := t.toNat < 2 ^ 12 ∧ pc.toNat % 4 = 0 ∧ pc.toNat < 2 ^ 56
       let w : Who := ⟨s.cur, c.uid, s.no⟩
       let q : SpawnReq := ⟨w, ⟨s.cur.pkg, t.toNat⟩, { c.d with
         entry := pc, args := args, unitix := BitVec.ofNat 64 (2 ^ 63 + s.cur.tile * 16 + s.cur.slot), root := false,
         origin := some ⟨s.cur, c.uid, ret⟩ }, isAt, c.d.det, if c.d.det then none else some c.recSeq, false⟩
       let notes := fun (u : State) => asks u s.cur c.uid q.target
       let s1 := { s with no := s.no + 1 }
       (¬ ok → Faults s 0x03 0 0 o) ∧
       (ok → releaseOk s s.cur c.uid .dom s.cur.node = false → Parks s h (waitBy s i s.no .cond 0 0 0 []) s1 o) ∧
       (ok → releaseOk s s.cur c.uid .dom s.cur.node = true → isTile t.toNat = true →
         let s2 := sendMsg s1 s.cur s.cur.node q.target 3 2 [3, 5, slotKey s.cur] (pinOf c) false (.spawnRequestLand q)
         Parks s h (waitBy s i s.no .reply 0 0 0 []) (notes s2) o ∧ OnlySent s s2) ∧
       (ok → releaseOk s s.cur c.uid .dom s.cur.node = true → isTile t.toNat = false →
         Parks s h (waitBy s i s.no .reply 0 0 0 []) (notes (push s1 (s.now + 24) phLand (slotKey s.cur) (.spawnReplyLand w 2))) o)
     form true (some d) (.s d) (.spawnAt h d a b x) ∧ form false none (.p p) (.spawnQ h p a b x)) ∧
  (∀ (s : State) (h : Hdr) (a : SIx), Ready s h [.s a] [] false →
     let c := me s
     let o := exec (.spawnRet h a) s
     (c.d.origin = none → Faults s 0x03 0 0 o) ∧
     ∀ g, c.d.origin = some g →
       (c.retDone = true → Faults s 0x03 0 0 o) ∧
       (c.retDone = false → g.ret = none → UnitOnly s h { c with retDone := true } o) ∧
       ∀ d, c.retDone = false → g.ret = some d →
         (releaseOk s s.cur c.uid .dom s.cur.node = false →
           Parks s h (waitBy s (.spawnRet h a) s.no .cond 0 0 0 []) { s with no := s.no + 1 } o) ∧
         (releaseOk s s.cur c.uid .dom s.cur.node = true →
           let s1 := sendReturn s s.cur c g d (rs c a)
           DoneIn s h (modCtx s1 s.cur fun c => { c with retDone := true }) o ∧ OnlySent s s1))

/-- R90, R101 and R397: where a spawn request lands it is taken in its turn, one in a cycle: refused with reason 2 (the tile is not in
the launch's placement), 3 (it is retiring) or 1 (64 entries wait), in that order, which is the model's choice (log 48); or else the last
entry of the queue, counted by the launch. The reply leaves 16 cycles later in every case. Stated for a request that is not recorded.
R101 and R102: the reply to a spawn form and the landing of the value. SPAWN.AT leaves its destination to await the return, or faults
with spawn_refused and the reason; SPAWN.Q writes 1 or 0; a returned value fills the register that awaits it and sets the wake flag.
R118: binding. The context that binding gives a unit: arguments and UNITIX in s1 to s5, every other register 0 but k0 and p0, all
full; the PC, WAITLIM, HANDLER and SEED of the descriptor. When binding completes the slot is bound, and its unit may issue from the
next cycle on, or from S0 on in a deterministic launch.
R90: the first entry of a spawn queue is bound to the lowest free slot that no waiting node claims, of a tile that may take units of
its job; binding completes within 32 cycles of the tile (the number taken is the model's choice, log 8). Stated for a queue of one entry. -/
def Obligations.SpawnServiceAndBinding : Prop :=
  (∀ (s : State) (q : SpawnReq), q.recSeq = none →
     InTurn s q.turn (peerKey q.target 11) (slotKey q.who.slot) (.spawnRequestLand { q with turn := true }) (fun u o =>
       let T := tileAt u q.target
       let said := fun (v : State) (k : Nat) => o = .next (sendAt v (dueFrom v q.target v.now 16) ⟨q.who.slot, q.target, q.who.slot.node, 4, 1,
         [4, 5, slotKey q.who.slot], some q.desc.launch, true, .spawnReplyLand q.who k⟩)
       let placed := ∃ l, launchAt u q.desc.launch = some l ∧ q.desc.launch ≠ 0 ∧ q.target.id ∈ l.tiles ∧ l.done = false ∧
         l.cancelled = false ∧ l.job = q.desc.job
       (¬ placed → said u 2) ∧
       (placed → (T.retiring = true ∨ T.present = false) → said u 3) ∧
       (placed → T.retiring = false → T.present = true → 64 ≤ T.spawnQ.length → said u 1) ∧
       (placed → T.retiring = false → T.present = true → T.spawnQ.length < 64 → ∃ v, said v 0 ∧
         (∃ e ∈ v.agenda, e.at_ = u.now ∧ e.ev = .spawnEntryServe q.target) ∧
         tileAt v q.target = { T with spawnQ := T.spawnQ ++ [⟨q, u.no⟩] } ∧
         (∀ n, nodeKey n ≠ nodeKey q.target → tileAt v n = tileAt u n) ∧ v.mem = u.mem ∧
         ∀ l, launchAt u q.desc.launch = some l → launchAt v q.desc.launch = some { l with live := l.live + 1 }))
       (exec (.spawnRequestLand q) s)) ∧
  ((∀ (s : State) (w : Who) (p : Park) (h : Hdr) (d a b x : SIx), Waits s w p → p.form = .spawnAt h d a b x →
     let s1 := if (ctxAt s w.slot).d.det then s else countRec s w.slot w.uid
     (∃ t, exec (.spawnReplyLand w 0) s = .next t ∧ Finishes s1 w (ctxAt s1 w.slot) (fun c => setPres c (.s d) .ret) t) ∧
     ∀ k, k ≠ 0 → exec (.spawnReplyLand w k) s = .next (takeFault s w.slot w.uid 0x21 0 (BitVec.ofNat 64 k))) ∧
   (∀ (s : State) (w : Who) (p : Park) (h : Hdr) (d : PIx) (a b x : SIx), Waits s w p → p.form = .spawnQ h d a b x →
     let s1 := if (ctxAt s w.slot).d.det then s else countRec s w.slot w.uid
     let put := fun (v : Bool) (c : Ctx) => if d = 0 then c else putReg c (.p d) (pval v)
     (∃ t, exec (.spawnReplyLand w 0) s = .next t ∧ Finishes s1 w (ctxAt s1 w.slot) (put true) t) ∧
     ∀ k, k ≠ 0 → ∃ t, exec (.spawnReplyLand w k) s = .next t ∧ Finishes s w (ctxAt s w.slot) (put false) t) ∧
   ∀ (s : State) (r : SlotRef) (dst : SIx) (v : Word), dst ≠ 0 → (slotAt s r).ph = .bound → (ctxAt s r).park = none →
     presOf (ctxAt s r) (.s dst) = .ret →
     ∃ t, exec (.spawnReturnLand r (ctxAt s r).uid dst v) s = .next t ∧ rs (ctxAt t r) dst = v ∧ presOf (ctxAt t r) (.s dst) = .full ∧
       (ctxAt t r).wake = true ∧ t.mem = s.mem ∧ ∀ g, g ≠ .s dst → valOf (ctxAt t r) g = valOf (ctxAt s r) g ∧
         presOf (ctxAt t r) g = presOf (ctxAt s r) g) ∧
  ((∀ (uid : Nat) (d : UnitDesc),
     let c := boundCtx uid d
     (∀ i : SIx, rs c i = if i = 1 then d.args.getD 0 0 else if i = 2 then d.args.getD 1 0 else if i = 3 then d.args.getD 2 0
       else if i = 4 then d.args.getD 3 0 else if i = 5 then d.unitix else 0) ∧
     (∀ i, rv c i = 0) ∧ (∀ i, rk c i = if i = 0 then BitVec.allOnes 256 else 0) ∧ (∀ i, rp c i = decide (i = 0)) ∧
     (∀ g, presOf c g = .full) ∧ c.pc = d.entry ∧ c.waitlim = d.waitlim ∧ c.handler = d.handler ∧
     (let x := d.seedL ^^^ (d.unitix * 0x9E3779B97F4A7C15); c.seed = if x = 0 then 0x9E3779B97F4A7C15 else x) ∧
     c.rmode = 0 ∧ c.fpflags = 0 ∧ c.trappc = 0 ∧ c.cause = 0 ∧ c.faultaux = 0 ∧ c.faultva = 0 ∧ c.wake = false ∧ c.packet = none) ∧
   ∀ (s : State) (r : SlotRef), (slotAt s r).ph = .binding → ∃ t, exec (.bindComplete r (ctxAt s r).uid) s = .next t ∧
     slotAt t r = { slotAt s r with ph := .bound, ctx := { ctxAt s r with
       readyFrom := if (ctxAt s r).d.det ∧ !(ctxAt s r).d.origin.isSome then (pkgAt s r.pkg).cycleBase + (ctxAt s r).d.s0 else s.now + 1 } } ∧
     { t with tiles := s.tiles } = s ∧ ∀ n, nodeKey n ≠ nodeKey r.node → tileAt t n = tileAt s n) ∧
  (∀ (s : State) (n : Node) (e : SpawnEntry) (i : Nat), (tileAt s n).spawnQ = [e] → spawnSlot s n = some i →
     tileTakes (tileAt s n) e.q.desc.job = true →
     let r : SlotRef := ⟨n.pkg, n.id, i⟩
     ∃ t, exec (.spawnEntryServe n) s = .next t ∧ (tileAt t n).spawnQ = [] ∧ (slotAt t r).ph = .binding ∧
       ctxAt t r = boundCtx s.no e.q.desc ∧ (∀ j, j ≠ i → slotAt t ⟨n.pkg, n.id, j⟩ = slotAt s ⟨n.pkg, n.id, j⟩) ∧
       (∃ x ∈ t.agenda, x.at_ = dueIn s n Config.bindCycles ∧ x.ev = .bindComplete r s.no) ∧ Config.bindCycles ≤ 32 ∧
       (tileAt t n).tenant = some ((tileAt s n).tenant.getD e.q.desc.job))

/-! ### Global memory and regions (chapters 10 and 12) -/

/-- R241 and R242: GLD and GLDV. An address beyond the space faults with access_violation, one that is not a multiple of the size with
misaligned; one that is translated, no array of the domain holding an error, has its request under way to the controller of the byte's
home, and the slot waits for the reply. No byte changes.
R241: GPREF translates and completes, whatever its address: it neither faults nor waits, and, with no error in any array, changes no byte and no unit. -/
def Obligations.GlobalLoadAndPrefetchForms : Prop :=
  (∀ (s : State) (h : Hdr) (sz : Sz) (sc : Scope) (od : Ord) (sx : Bool) (d a : SIx) (v : VIx) (ofs : BitVec 32),
     let ea := rs (me s) a + ofs.signExtend 64
     let form := fun (i : Instr) =>
       let o := exec i s
       (2 ^ 56 ≤ ea.toNat → Faults s 0x09 ea 0 o) ∧
       (ea.toNat < 2 ^ 56 → ea.toNat % sz.bytes ≠ 0 → Faults s 0x06 ea 0 o) ∧
       ∀ pa s1 hm, ea.toNat < 2 ^ 56 → ea.toNat % sz.bytes = 0 → noErrs s = true →
         xlate s s.cur.node (me s).d.job (me s).d.det 0 ea.toNat = .ok pa s1 → homeFor s1 s.cur (me s) pa false = some hm →
         let s2 := sendReq { s1 with no := s1.no + 1 } s.cur (me s) hm.1 pa ea (.load sz.bytes) false s1.no none
         Parks s h (waitBy s i s1.no .reply 0 0 ea []) s2 o ∧ s2.mem = s.mem ∧
           ctxAt s2 s.cur = { me s with memSeq := (me s).memSeq + 1, asked := some hm.1 } ∧ ∀ n, (tileAt s2 n).sp = (tileAt s n).sp
     (sz.isScalar = true → Ready s h [.s a] [.s d] true → form (.gld h sz sc od sx d a ofs)) ∧
     (sz.isVec = true → Ready s h [.s a] [.v v] false → form (.gldv h sz sc od v a ofs))) ∧
  (∀ (s : State) (h : Hdr) (sz : Sz) (a : SIx) (ofs : BitVec 32), Ready s h [.s a] [] true →
     ∃ s1, DoneIn s h s1 (exec (.gpref h sz .slot a ofs) s) ∧ (noErrs s = true → OnlySent s s1))

/-- R241, R242 and Table 8: GST and GSTV outside a region. With 16 stores of the slot outstanding, and with release order until
what the scope covers is performed, the slot waits; else the bytes are under way and the form completes, with seq_cst once the store
is known to be performed. No byte has changed yet: the store is performed at its controller. -/
def Obligations.GlobalStoreFormsPost : Prop :=
  ∀ (s : State) (h : Hdr) (sz : Sz) (sc : Scope) (od : Ord) (a b : SIx) (v : VIx) (ofs : BitVec 32),
    (me s).region = none →
    let ea := rs (me s) a + ofs.signExtend 64
    let form := fun (i : Instr) (x : Nat) =>
      let o := exec i s
      let wide := if Ord.rel_ od then sc else .slot
      (2 ^ 56 ≤ ea.toNat → Faults s 0x09 ea 0 o) ∧
      (ea.toNat < 2 ^ 56 → ea.toNat % sz.bytes ≠ 0 → Faults s 0x06 ea 0 o) ∧
      (ea.toNat < 2 ^ 56 → ea.toNat % sz.bytes = 0 →
        ((16 ≤ postedOut s s.cur ∨ releaseOk s s.cur (me s).uid wide s.cur.node = false) →
          Parks s h (waitBy s i s.no .cond 0 0 0 []) { s with no := s.no + 1 } o) ∧
        ∀ pa s1 hm, postedOut s s.cur < 16 → releaseOk s s.cur (me s).uid wide s.cur.node = true → noErrs s = true →
          xlate s s.cur.node (me s).d.job (me s).d.det 1 ea.toNat = .ok pa s1 → homeFor s1 s.cur (me s) pa true = some hm →
          let s2 := postStore { s1 with no := s1.no + 1 } s.cur (me s) hm pa ea (bytesOfNat sz.bytes x) s1.no
          (od ≠ .sc → DoneIn s h s2 o) ∧ (od = .sc → Parks s h (waitBy s i s1.no .reply 0 0 ea []) s2 o) ∧
          s2.mem = s.mem ∧ ∀ n, (tileAt s2 n).sp = (tileAt s n).sp)
    (sz.isScalar = true → Ready s h [.s a, .s b] [] true → form (.gst h sz sc od a b ofs) (rs (me s) b).toNat) ∧
    (sz.isVec = true → Ready s h [.s a, .v v] [] false → form (.gstv h sz sc od a v ofs) (rv (me s) v).toNat)

/-- R245 and R246: the atomic forms outside a region. A size outside the column of the operation, and a scratchpad address that the form
does not accept, give illegal_operand, one that is not aligned misaligned; else the request is under way, to the controller of the
word's home or to the tile of another scratchpad, and the slot waits. -/
def Obligations.AtomicFormsRequest : Prop :=
  ∀ (s : State) (h : Hdr) (sz : Sz) (sc : Scope) (od : Ord) (op : AOp) (p : BitVec 3) (d a b : SIx) (ofs : BitVec 32),
    (me s).region = none → sz.isAtomic = true →
    let ea := rs (me s) a + ofs.signExtend 64
    let n := sz.bytes
    let old := rs (me s) d &&& BitVec.ofNat 64 (2 ^ (8 * n) - 1)
    let v := rs (me s) b
    let wide := if Ord.rel_ od then sc else .slot
    let global := fun (i : Instr) (q : MemOp) =>
      let o := exec i s
      (ea.toNat % n ≠ 0 → Faults s 0x06 ea 0 o) ∧
      (ea.toNat % n = 0 → isRemote ea = false → 2 ^ 56 ≤ ea.toNat → Faults s 0x09 ea 0 o) ∧
      (ea.toNat % n = 0 → isRemote ea = false → ea.toNat < 2 ^ 56 →
        (releaseOk s s.cur (me s).uid wide s.cur.node = false → Parks s h (waitBy s i s.no .cond 0 0 0 []) { s with no := s.no + 1 } o) ∧
        ∀ pa s1 hm, releaseOk s s.cur (me s).uid wide s.cur.node = true → noErrs s = true →
          xlate s s.cur.node (me s).d.job (me s).d.det 2 ea.toNat = .ok pa s1 → homeFor s1 s.cur (me s) pa false = some hm →
          let s2 := sendReq { s1 with no := s1.no + 1 } s.cur (me s) hm.1 pa ea q false s1.no (if (me s).d.det then none else some (me s).recSeq)
          Parks s h (waitBy s i s1.no .reply 0 0 ea []) s2 o ∧ s2.mem = s.mem)
    let pad := fun (i : Instr) (q : SpOp) =>
      n = 8 → PadAway s ea 8 8 → releaseOk s s.cur (me s).uid wide s.cur.node = true → AsksPad s h i ea q false (exec i s)
    (Ready s h [.s a, .s b] [.s d] true →
      let i := Instr.atom h sz sc od op d a b ofs
      let j := Instr.atomDet h sz sc od op d a b ofs
      (aopSize op n = false → Faults s 0x03 0 0 (exec i s) ∧ Faults s 0x03 0 0 (exec j s)) ∧
      (aopSize op n = true → global i (.atom op n v) ∧ global j (.atomDet op n v) ∧
        (aopRemote op = true → pad i (.atom op v)) ∧
        (ea.toNat % n = 0 → isRemote ea = true → Faults s 0x03 0 0 (exec j s) ∧
          (aopRemote op = false ∨ n ≠ 8 → Faults s 0x03 0 0 (exec i s))))) ∧
    (Ready s h [.s a, .s b, .s d] ([.s d] ++ pDst p) true →
      let i := Instr.cas h sz sc od p d a b ofs
      global i (.cas n old v) ∧ pad i (.cas old v) ∧
      (ea.toNat % n = 0 → isRemote ea = true → n ≠ 8 → Faults s 0x03 0 0 (exec i s)))

/-- R246 at a controller: the value that each atomic operation leaves, of n bytes, from the old value and the operand. Sums and the
bitwise operations; signed and unsigned minimum and maximum; exchange.
R243, R246, R247 and R332: a controller. A request that lands outside a refresh window of a vault awaits the merge step of its
cycle, one inside it the window's last cycle; a load, a store or an atomic that is alone is performed in the merge step, in one step,
and its reply leaves 112 or 232 cycles later for a deterministic launch; the first ATOM.DET opens a window of 64 cycles, whose end
applies what it holds, and 112 cycles after which the replies leave (R380).
R241 and R332: a reply leaves its controller and travels to the slot, or as a credit where the store was posted; where it lands, a
load writes its destination, zero- or sign-extended and full, an atomic the old value, and a failure faults with its code and the
address; a store is no longer outstanding. -/
def Obligations.ControllersServeRequests : Prop :=
  (∀ (n x y : Nat), (n = 4 ∨ n = 8) → x < 2 ^ (8 * n) →
     let w := 8 * n
     let sg := fun (z : Nat) => (BitVec.ofNat w z).toInt
     atomNew .add n x y = (x + y) % 2 ^ w ∧ atomNew .and n x y = x &&& (y % 2 ^ w) ∧ atomNew .or n x y = x ||| (y % 2 ^ w) ∧
     atomNew .xor n x y = x ^^^ (y % 2 ^ w) ∧ atomNew .xchg n x y = y % 2 ^ w ∧
     atomNew .minn n x y = min x (y % 2 ^ w) ∧ atomNew .maxn n x y = max x (y % 2 ^ w) ∧
     sg (atomNew .min n x y) = min (sg x) (sg y) ∧ sg (atomNew .max n x y) = max (sg x) (sg y)) ∧
  (∀ (s : State) (c : Node) (q : MemReq),
     let k := ctrlAt s c
     let alone := k.landed = [q] ∧ (tileAt s c).errs = [] ∧ q.pa % 2 ^ 46 < 0x3F0000000000 ∧ c.id ≠ 2124 ∧ q.recSeq = none
     let merged := fun (t : State) => exec (.memoryMergeStep c none) s = .next t ∧ (ctrlAt t c).landed = []
     let due := s.now + if isCompute c.id then 112 else 232
     let reply := fun (t : State) (a : MemReply) => ∃ e ∈ t.agenda, e.ev = .controllerReplySend c q a ∧ (q.det = true → e.at_ = due)
     (∃ t, exec (.memoryMergeStep c (some q)) s = .next t ∧ t.mem = s.mem ∧
       ((isCompute c.id = false ∨ 160 ≤ refreshPhase s c) → (ctrlAt t c).landed = k.landed ++ [q] ∧
         ∃ e ∈ t.agenda, e.at_ = s.now ∧ e.ev = .memoryMergeStep c none) ∧
       (isCompute c.id = true → refreshPhase s c < 160 → (ctrlAt t c).held = k.held ++ [q] ∧
         ∃ e ∈ t.agenda, e.at_ = s.now + 159 - refreshPhase s c ∧ e.ev = .refreshWindowEnd c)) ∧
     (∃ t, exec (.refreshWindowEnd c) s = .next t ∧ t.mem = s.mem ∧ (ctrlAt t c).landed = k.landed ++ k.held ∧ (ctrlAt t c).held = [] ∧
       ∃ e ∈ t.agenda, e.at_ = s.now ∧ e.ev = .memoryMergeStep c none) ∧
     (∀ n, alone → q.op = .load n → ∃ t, merged t ∧ t.mem = s.mem ∧
       reply t (.data ((List.range n).map fun j => cellGet s.mem (q.pa + j)))) ∧
     (∀ b, alone → q.op = .store b → ∃ t, merged t ∧ Stored s.mem t.mem q.pa b ∧ reply t .done) ∧
     (∀ op n v, alone → q.op = .atom op n v → ∃ t, merged t ∧
       let old := natOfBytes (cellsRead s.mem q.pa n)
       Stored s.mem t.mem q.pa (bytesOfNat n (atomNew op n old v.toNat)) ∧ reply t (.old (BitVec.ofNat 64 old))) ∧
     (∀ n x v, alone → q.op = .cas n x v → ∃ t, merged t ∧
       let old := natOfBytes (cellsRead s.mem q.pa n)
       Stored s.mem t.mem q.pa (bytesOfNat n (if old = x.toNat then v.toNat % 2 ^ (8 * n) else old)) ∧ reply t (.old (BitVec.ofNat 64 old))) ∧
     (∀ op n v, alone → q.op = .atomDet op n v → k.win = none → ∃ t, merged t ∧ t.mem = s.mem ∧
       (ctrlAt t c).win = some (k.winNo + 1, s.now + 63, [q]) ∧
       ∃ e ∈ t.agenda, e.at_ = s.now + 63 ∧ e.ev = .atomDetWindowApply c (k.winNo + 1)) ∧
     (∀ op n v w fin, k.win = some (w, fin, [q]) → (tileAt s c).errs = [] → q.pa % 2 ^ 46 < 0x3F0000000000 → c.id ≠ 2124 →
       q.recSeq = none → q.op = .atomDet op n v → ∃ t, exec (.atomDetWindowApply c w) s = .next t ∧ (ctrlAt t c).win = none ∧
       let old := natOfBytes (cellsRead s.mem q.pa n)
       Stored s.mem t.mem q.pa (bytesOfNat n (atomNew op n old v.toNat)) ∧
       ∃ e ∈ t.agenda, e.ev = .controllerReplySend c q (.old (BitVec.ofNat 64 old)) ∧ e.at_ = s.now + 112)) ∧
  ((∀ (s : State) (c : Node) (q : MemReq) (a : MemReply), q.engine = false → q.det = false →
     let t := sendMsg s q.who.slot c q.who.slot.node 4 (replyFlits a) [11, slotKey q.who.slot, nodeKey c] none true
       (if q.posted then .postedStoreCreditLand q.who a else .globalReplyLand q.who a)
     exec (.controllerReplySend c q a) s = .next t ∧ OnlySent s t) ∧
   (∀ (s : State) (w : Who) (p : Park) (h : Hdr) (sz : Sz) (sc : Scope) (od : Ord) (sx : Bool) (d a : SIx) (v : VIx) (ofs : BitVec 32) (b : List Byte),
     Waits s w p → (ctxAt s w.slot).region = none →
     (p.form = .gld h sz sc od sx d a ofs → sz.isScalar = true → b.length = sz.bytes →
       let n := 8 * sz.bytes
       let x := natOfBytes b
       let y := BitVec.ofNat 64 (if sx = true ∧ 2 ^ (n - 1) ≤ x then x + 2 ^ 64 - 2 ^ n else x)
       ∃ t, exec (.globalReplyLand w (.data b)) s = .next t ∧
         Finishes s w (ctxAt s w.slot) (fun c => if d = 0 then c else putReg c (.s d) (sval y)) t) ∧
     (p.form = .gldv h sz sc od v a ofs → ∃ t, exec (.globalReplyLand w (.data b)) s = .next t ∧
       Finishes s w (ctxAt s w.slot) (fun c => putReg c (.v v) (BitVec.ofNat 2048 (natOfBytes b))) t)) ∧
   (∀ (s : State) (w : Who) (p : Park) (h : Hdr) (sz : Sz) (sc : Scope) (od : Ord) (op : AOp) (q : BitVec 3) (d a b : SIx) (ofs : BitVec 32) (x : Word),
     Waits s w p → (ctxAt s w.slot).region = none →
     let done := fun (f : Ctx → Ctx) => ∃ t u, exec (.globalReplyLand w (.old x)) s = .next t ∧ t = countRec u w.slot w.uid ∧
       Finishes s w (ctxAt s w.slot) f u
     let put := fun (c : Ctx) => if d = 0 then c else putReg c (.s d) (sval x)
     (p.form = .atom h sz sc od op d a b ofs ∨ p.form = .atomDet h sz sc od op d a b ofs → done put) ∧
     (p.form = .cas h sz sc od q d a b ofs →
       let hit := decide (x = rs (ctxAt s w.slot) d &&& BitVec.ofNat 64 (2 ^ (8 * sz.bytes) - 1))
       done fun c => if q = 0 then put c else putReg (put c) (.p q) (pval hit))) ∧
   (∀ (s : State) (w : Who) (p : Park) (code : Nat) (aux : Word), Waits s w p → (ctxAt s w.slot).region = none → code ≠ 0x12 →
     exec (.globalReplyLand w (.fail code aux)) s = .next (takeFault s w.slot w.uid code p.va aux)) ∧
   ∀ (s : State) (w : Who), ∃ t, exec (.postedStoreCreditLand w .done) s = .next t ∧ t.mem = s.mem ∧
     t.outs = s.outs.filter (fun o => o.id ≠ w.id) ∧
     (∀ p, Waits s w p → ∃ u, OnlySlot w.slot u t ∧ Finishes u w (ctxAt s w.slot) id t))

/-- R250 and R252: remote regions. RGN.BEGIN waits while an s, p or k register is pending, counted by WAITLIM where one awaits a spawn
return, and then opens the region with its
checkpoint; inside a region it faults. RGN.ABORT restores the checkpoint, writes the cause word 0x100 to the cause register, closes the
region and goes on at its handler; the v registers keep what they have. RGN.COMMIT without a held atomic and without held stores closes
the region; outside a region both fault, and so does one with CC that finds no held CAS.
R251, R252 and R294: inside a region a GST takes a store entry with its scope and order and sends nothing, the 17th faults with
region_overflow; the commit of a region that holds one store to the own scratchpad performs it, if need be once what its release covers
is performed, and closes the region. -/
def Obligations.RegionsHoldAndReleaseStores : Prop :=
  (∀ (s : State) (h : Hdr) (d : SIx) (off : BitVec 48) (cc : Bool),
     let c := me s
     let t := c.pc + 12 * off.signExtend 64
     let pend := Pres.pending ∈ c.sP.toList ∨ Pres.pending ∈ c.pP.toList ∨ Pres.pending ∈ c.kP.toList
     let noRet := ∀ i : SIx, presOf c (.s i) ≠ .ret
     (Ready s h [] [.s d] true →
       let o := exec (.rgnBegin h d off) s
       (c.region.isSome = true → Faults s 0x10 0 0 o) ∧
       (c.region = none → t.toNat % 4 ≠ 0 → Faults s 0x06 t 0 o) ∧
       (c.region = none → t.toNat % 4 = 0 → 2 ^ 56 ≤ t.toNat → Faults s 0x09 t 0 o) ∧
       (c.region = none → t.toNat % 4 = 0 → t.toNat < 2 ^ 56 →
         (∀ i : SIx, presOf c (.s i) = .ret → (∀ j : SIx, j < i → presOf c (.s j) ≠ .ret) →
           Parks s h (waitBy s (.rgnBegin h d off) s.no .cond 4 i.toNat 0 []) { s with no := s.no + 1 } o) ∧
         (noRet → pend → Parks s h (waitBy s (.rgnBegin h d off) s.no .cond 0 0 0 []) { s with no := s.no + 1 } o) ∧
         (noRet → ¬ pend → UnitOnly s h { c with region := some {
           beginPc := c.pc, handler := t, causeReg := d, s := c.s, sP := c.sP, k := c.k, kP := c.kP, p := c.p, pP := c.pP,
           stores := [], atomic := none } } o))) ∧
     (Ready s h [] [] true →
       (c.region = none → Faults s 0x03 0 0 (exec (.rgnAbort h) s) ∧ Faults s 0x03 0 0 (exec (.rgnCommit h cc) s)) ∧
       ∀ g, c.region = some g →
         (∃ u, exec (.rgnAbort h) s = .next u ∧ OnlyUnit s u ∧
           let e := ctxAt u s.cur
           e.region = none ∧ e.pc = g.handler ∧ e.v = c.v ∧ e.vP = c.vP ∧ e.p = g.p ∧ e.pP = g.pP ∧ e.k = g.k ∧ e.kP = g.kP ∧
           (∀ i : SIx, i ≠ g.causeReg → rs e i = (if i = 0 then 0 else g.s[i.toNat]) ∧ e.sP[i.toNat] = g.sP[i.toNat]) ∧
           (g.causeReg ≠ 0 → rs e g.causeReg = 0x100 ∧ e.sP[g.causeReg.toNat] = .full)) ∧
         (g.committing = false → g.atomic = none → cc = true → Faults s 0x03 0 0 (exec (.rgnCommit h cc) s)) ∧
         (g.committing = false → g.atomic = none → cc = false → g.stores = [] →
           UnitOnly s h { c with region := none } (exec (.rgnCommit h cc) s)))) ∧
  (∀ (s : State) (h : Hdr) (sz : Sz) (sc : Scope) (od : Ord) (a b : SIx) (ofs : BitVec 32) (g : Region), (me s).region = some g →
     let ea := rs (me s) a + ofs.signExtend 64
     let st : HeldStore := { va := ea, data := bytesOfNat sz.bytes (rs (me s) b).toNat, scratch := false, sc := sc, od := od }
     (Ready s h [.s a, .s b] [] true → sz.isScalar = true → ea.toNat < 2 ^ 56 → ea.toNat % sz.bytes = 0 → noErrs s = true →
       ∀ pa s1 hm, xlate s s.cur.node (me s).d.job (me s).d.det 1 ea.toNat = .ok pa s1 → homeFor s1 s.cur (me s) pa true = some hm →
         (16 ≤ g.stores.length → Faults s 0x11 0 0 (exec (.gst h sz sc od a b ofs) s)) ∧
         (g.stores.length < 16 → OnlySent s s1 ∧ DoneIn s h (modCtx s1 s.cur fun c =>
           { c with region := some { g with stores := g.stores ++ [st] } }) (exec (.gst h sz sc od a b ofs) s))) ∧
     (Ready s h [] [] true → g.committing = false → g.atomic = none →
       ∀ x, g.stores = [x] → x.scratch = true → isRemote x.va = false → x.sent = none →
         (Ord.rel_ x.od = true → releaseOk s s.cur (me s).uid x.sc s.cur.node = true) →
         ∃ u, exec (.rgnCommit h false) s = .next u ∧ u.mem = s.mem ∧ (ctxAt u s.cur).region = none ∧
           (ctxAt u s.cur).pc = (me s).pc + 12 ∧ Stored (here s).sp (tileAt u s.cur.node).sp x.va.toNat x.data))

/-! ### Dispatch (chapter 04) -/

/-- R104 to R109: the forms of OP 0x04 that name no descriptor send their request to the dispatcher of their package, or of the object
they name, and wait for the reply; those that wait for an event are counted by WAITLIM. GRAPH.SUBMIT is a release. DONE.WAIT and CANCEL of
what is no object of the job, and DONE.WAIT of a job or, by a unit that is no root unit, of a phase, have the dispatcher refuse them: the
reply raises illegal_operand.
R79, R80 and R105: LAUNCH and GRAPH.ADD. A descriptor that is not aligned to 64 bytes is refused so with misaligned; else its bytes are
read, piece by piece, each at its home controller; once 128 have been read, the descriptor they make goes to the dispatcher, with the
offset of its first invalid word if there is one. LAUNCH is a release. -/
def Obligations.DispatcherAndLaunchForms : Prop :=
  (∀ (s : State) (h : Hdr) (d a b x : SIx) (lvl : Level) (poll : Bool),
     let c := me s
     let asks := fun (i : Instr) (pkg : Nat) (k : SvcKind) (lim : Nat) => AsksSvc s h i (svcOf s (svcN pkg) none k) .dispatcherRequest lim 0 (exec i s)
     let mine := s.cur.pkg
     (Ready s h [] [.s d] false → asks (.graphOpen h d) mine .graphOpen 0 ∧ asks (.phaseLeave h d) mine .phaseLeave 5) ∧
     (Ready s h [.s a] [.s d] false → asks (.phaseEnter h d a) mine (.phaseEnter (rs c a)) 5) ∧
     (Ready s h [.s a, .s b, .s x] [] false → asks (.graphEdge h a b x) mine (.graphEdge (rs c a) (rs c b) (rs c x)) 0) ∧
     (Ready s h [.s a] [] false →
       (releaseOk s s.cur c.uid .dom s.cur.node = true → asks (.graphSubmit h a) mine (.graphSubmit (rs c a)) 0) ∧
       (releaseOk s s.cur c.uid .dom s.cur.node = false →
         Parks s h (waitBy s (.graphSubmit h a) s.no .cond 0 0 0 []) { s with no := s.no + 1 } (exec (.graphSubmit h a) s))) ∧
     (Ready s h [.s a] [.s d] false →
       let i := Instr.doneWait h lvl poll d a
       ((objectOf s s.cur c lvl a = none ∨ lvl = .job ∨ (lvl = .phase ∧ c.d.root = false)) → asks i mine (.refused 0x03 0) 0) ∧
       ∀ v pkg, objectOf s s.cur c lvl a = some (v, pkg) → lvl ≠ .job → (lvl = .phase → c.d.root = true) →
         asks i pkg (.doneWait lvl v poll) (if poll then 0 else 5)) ∧
     (Ready s h [.s a] [] false →
       let i := Instr.cancel h lvl a
       (objectOf s s.cur c lvl a = none → asks i mine (.refused 0x03 0) 0) ∧
       ∀ v pkg, objectOf s s.cur c lvl a = some (v, pkg) → asks i pkg (.cancel lvl v) 0)) ∧
  ((∀ (s : State) (h : Hdr) (d a b : SIx),
     let form := fun (i : Instr) (va : Word) (k : LaunchDesc → Option Nat → SvcKind) (rel : Bool) (srcs : List Reg) =>
       (Ready s h srcs [.s d] false →
         (va.toNat % 64 ≠ 0 → AsksSvc s h i (svcOf s (svcN s.cur.pkg) none (.refused 0x06 va)) .dispatcherRequest 0 0 (exec i s)) ∧
         (va.toNat % 64 = 0 → 2 ^ 56 ≤ va.toNat → Faults s 0x09 va 0 (exec i s)) ∧
         ∀ pa s1 hm, va.toNat % 64 = 0 → va.toNat < 2 ^ 56 → noErrs s = true →
           xlate s s.cur.node (me s).d.job (me s).d.det 0 va.toNat = .ok pa s1 → homeFor s1 s.cur (me s) pa false = some hm →
           Parks s h (waitBy s i s1.no .reply 0 0 va [])
             (sendReq { s1 with no := s1.no + 1 } s.cur (me s) hm.1 pa va (.load (min 128 (4096 - va.toNat % 4096))) false s1.no none) (exec i s)) ∧
       (Fit s h srcs [.s d] false → va.toNat % 64 = 0 → 128 ≤ (gotBytes (me s)).length →
         (rel = true → releaseOk s s.cur (me s).uid .dom s.cur.node = true) →
         let b := gotBytes (me s)
         AsksSvc s h i (svcOf s (svcN s.cur.pkg) none (k (descOf b) (descBad b))) .dispatcherRequest 0 va (exec i s))
     form (.launch h d a) (rs (me s) a) .launch true [.s a] ∧
     form (.graphAdd h d a b) (rs (me s) b) (.graphAdd (rs (me s) a)) false [.s a, .s b]) ∧
   ∀ (s : State) (w : Who) (p : Park) (h : Hdr) (d a b : SIx) (bs : List Byte), Waits s w p →
     (p.form = .launch h d a ∨ p.form = .graphAdd h d a b) →
     ∃ t, exec (.globalReplyLand w (.data bs)) s = .next t ∧ OnlySlot w.slot s t ∧
       ctxAt t w.slot = { ctxAt s w.slot with park := some { p with kind := .cond, aux := p.aux ++ bs.map fun x => x.setWidth 64 }, asked := none })

/-- R83, R104 to R109 and R397: what a dispatcher answers to the requests that land, which it takes in turn, one in a cycle. Its reply
leaves 64 cycles after it is served. A request that waits for an event has no effect where its form has been trapped by WAITLIM.
R82, R88 and R89: completion and cancel. A launch that is placed and has no unit and nothing outstanding completes with its status, and
its outcome is noted; one that has is left alone. A phase that every package has left completes on every package, with status 1 where it
was cancelled or a graph of it has status 1. A cancelled launch that is not placed is complete with status 1; a cancelled job begins to end. -/
def Obligations.DispatcherAnswersAndCompletes : Prop :=
  (∀ (s : State) (q : SvcReq),
     let pkg := q.peer.pkg
     let P := pkgAt s pkg
     let answers := fun (f : State → State) (a : SvcReply) => Serves s q 10 64 .dispatcherRequest f a (exec (.dispatcherRequest q) s)
     let fails := fun (code : Nat) (aux : Nat) => answers id ⟨0, false, code, 0, BitVec.ofNat 64 aux⟩
     let tells := fun (v : Nat) => answers id ⟨BitVec.ofNat 64 v, true, 0, 0, 0⟩
     (waitGone s q = true → exec (.dispatcherRequest q) s = .next s) ∧
     (waitGone s q = false →
     (∀ code va, q.kind = .refused code va → answers id ⟨0, false, code, va, 0⟩) ∧
     (∀ d o, q.kind = .launch d (some o) → fails 0x16 o) ∧
     (∀ d, q.kind = .launch d none → absentTiles s pkg d = false →
       (takesWork s pkg q.job = false → fails 0x03 0) ∧
       (takesWork s pkg q.job = true → 8192 ≤ (P.launches.filter fun l => !l.done).length → fails 0x17 1)) ∧
     (q.kind = .graphOpen →
       let n := (P.graphs.filter fun g => !g.submitted && !g.givenUp).length
       (64 ≤ n → fails 0x17 2) ∧
       (n < 64 → answers (fun u => modPkg u pkg fun p => { p with serial := p.serial + 1, graphs := p.graphs ++ [{ serial := P.serial, job := q.job }] })
         ⟨BitVec.ofNat 64 (2 ^ 62 + pkg * 2 ^ 56 + P.serial), true, 0, 0, 0⟩)) ∧
     (∀ g d bad, q.kind = .graphAdd g d bad → openGraph s pkg q.job g = none → fails 0x03 0) ∧
     (∀ g d x, q.kind = .graphAdd g d none → openGraph s pkg q.job g = some x → absentTiles s pkg d = false → (P.launches.filter fun l => !l.done).length < 8192 →
       (256 ≤ x.nodes.length → fails 0x17 3) ∧
       (x.nodes.length < 256 → answers (fun u => (addLaunch u pkg q.job x.serial x.nodes.length d).1)
         ⟨BitVec.ofNat 64 (pkg * 2 ^ 56 + P.serial), true, 0, 0, 0⟩)) ∧
     (∀ g a b, q.kind = .graphEdge g a b →
       (openGraph s pkg q.job g = none → fails 0x03 0) ∧
       ∀ x, openGraph s pkg q.job g = some x →
         ((b.toNat ≤ a.toNat ∨ x.nodes.length ≤ b.toNat) → fails 0x03 0) ∧
         (a.toNat < b.toNat → b.toNat < x.nodes.length → 1024 ≤ x.edges.length → fails 0x17 4) ∧
         (a.toNat < b.toNat → b.toNat < x.nodes.length → x.edges.length < 1024 →
           answers (fun u => modGraph u pkg x.serial fun g => { g with edges := g.edges ++ [(a.toNat, b.toNat)] }) ⟨0, true, 0, 0, 0⟩)) ∧
     (∀ g, q.kind = .graphSubmit g → (openGraph s pkg q.job g = none ∨ takesWork s pkg q.job = false) → fails 0x03 0) ∧
     (∀ lvl v poll, q.kind = .doneWait lvl v poll →
       let k := v.toNat % 2 ^ 32
       (containsUnit s pkg lvl k q.launch = true → fails 0x03 0) ∧
       (containsUnit s pkg lvl k q.launch = false →
         (∀ n, knownOf s pkg q.job lvl k = .over n → tells n) ∧
         (knownOf s pkg q.job lvl k = .bad → fails 0x03 0) ∧
         (knownOf s pkg q.job lvl k = .live → poll = true → tells 2) ∧
         (knownOf s pkg q.job lvl k = .live → poll = false →
           exec (.dispatcherRequest q) s = .next (modPkg s pkg fun p => { p with waits := p.waits ++ [⟨q⟩] })))) ∧
     ∀ j, jobAt s q.job = some j →
       (q.kind = .phaseLeave → (q.root = false ∨ j.phaseOpen.contains q.who.slot.pkg = false) → fails 0x03 0) ∧
       ∀ n, q.kind = .phaseEnter n → (q.root = false ∨ j.left.contains q.who.slot.pkg = false ∨ n.toNat ≠ j.phase + 1) → fails 0x03 0)) ∧
  ((∀ (s : State) (pkg serial : Nat) (l : Launch), launchOf s pkg serial = some l →
     let busy := l.done = true ∨ l.placed = false ∨ l.live ≠ 0 ∨ ∃ o ∈ s.outs, o.launch = handleOf 0 pkg serial
     (busy → exec (.launchCompletion pkg serial) s = .next s) ∧
     (¬ busy → ∃ t, exec (.launchCompletion pkg serial) s = .next t ∧
       launchOf t pkg serial = some { l with done := true, parity := none, routes := [] } ∧
       ⟨l.job, .launch, serial, l.status⟩ ∈ (pkgAt t pkg).outcomes)) ∧
   (∀ (s : State) (job : Word) (j : Job), jobAt s job = some j →
     ((phaseOver s j = false ∨ phaseNoted s j = true ∨ j.done = true) → exec (.phaseCompletion job) s = .next s) ∧
     (phaseOver s j = true → phaseNoted s j = false → j.done = false → ∃ t, exec (.phaseCompletion job) s = .next t ∧
       let bad := j.phaseStatus = 1 ∨ ∃ p ∈ j.pkgs, ∃ g ∈ (pkgAt s p).graphs, g.job = job ∧ g.submitted = true ∧ g.phase = j.phase ∧ g.status = 1
       ∀ p ∈ j.pkgs, (bad → ⟨job, .phase, j.phase + 1, 1⟩ ∈ (pkgAt t p).outcomes) ∧ (¬ bad → ⟨job, .phase, j.phase + 1, 0⟩ ∈ (pkgAt t p).outcomes))) ∧
   (∀ (s : State) (pkg serial : Nat) (l : Launch), launchOf s pkg serial = some l →
     (l.done = true → exec (.cancelApply pkg ⟨l.job, .launch, serial⟩) s = .next s) ∧
     (l.done = false → l.placed = false → ∃ t, exec (.cancelApply pkg ⟨l.job, .launch, serial⟩) s = .next t ∧
       launchOf t pkg serial = some { l with cancelled := true, status := 1, done := true, parity := none, routes := [] } ∧
       ⟨l.job, .launch, serial, 1⟩ ∈ (pkgAt t pkg).outcomes)) ∧
   ∀ (s : State) (pkg serial : Nat) (j : Job), jobAt s j.handle = some j → j.ending = false → j.done = false →
     ∃ t, exec (.cancelApply pkg ⟨j.handle, .job, serial⟩) s = .next t ∧
       jobAt t j.handle = some { j with ending := true, status := if j.started && j.pkgs.all j.rootExited.contains then j.status else max 1 j.status } ∧
       ∃ e ∈ t.agenda, e.at_ = s.now ∧ e.ev = .jobEnd j.handle)

/-- R85, R91, R151 and R331: a node that is alone in the pool and fits is placed, its units bound; a unit whose saving is complete leaves
its slot with its context and accumulators; one that begins to resume has its context and its accumulators again, and its wake flag is
set when its restoring is complete; the units of a
deterministic launch issue from its first cycle on. -/
def Obligations.UnitsComeAndGo : Prop :=
  (∀ (s : State) (pkg : Nat) (x : Nat × Nat × Nat × Nat) (l : Launch) (ts : List Nat), (pkgAt s pkg).pool = [x] →
    launchOf s pkg x.2.2.2 = some l → l.d.prio ≤ 3 → l.d.det = false → tryPlace s pkg l = some (ts, none) →
    ∃ t, exec (.nodePlacement pkg) s = .next t ∧ (pkgAt t pkg).pool = [] ∧
      launchOf t pkg x.2.2.2 = some { l with placed := true, tiles := ts, order := (pkgAt s pkg).placeNo, live := ts.length * l.d.slots, s0 := 0,
                                             parity := none, routes := [] }) ∧
  (∀ (s : State) (pkg : Nat), (pkgAt s pkg).pool = [] → awayTiles s pkg = [] → exec (.nodePlacement pkg) s = .next s) ∧
  (∀ (s : State) (r : SlotRef), (slotAt s r).ph = .saving →
    ∃ t c, exec (.contextSaveComplete r (ctxAt s r).uid) s = .next t ∧ (slotAt t r).ph = .free ∧ (slotAt t r).saved = (slotAt s r).saved ++ [c] ∧
      { c with savedXa := (ctxAt s r).savedXa, preempting := (ctxAt s r).preempting } = ctxAt s r ∧ c.preempting = false ∧ t.mem = s.mem ∧
      ∀ (k : Fin 8),
        (((tileAt s r.node).xas[k]).holder = some (r.slot, (ctxAt s r).uid) →
          ((k : Nat), ((tileAt s r.node).xas[k]).n, ((tileAt s r.node).xas[k]).st) ∈ c.savedXa ∧ ((tileAt t r.node).xas[k]).holder = none) ∧
        (((tileAt s r.node).xas[k]).holder ≠ some (r.slot, (ctxAt s r).uid) → (tileAt t r.node).xas[k] = (tileAt s r.node).xas[k])) ∧
  (∀ (s : State) (r : SlotRef) (c : Ctx), (pkgAt s r.pkg).pool = [] → awayTiles s r.pkg = [r.node] → (slotAt s r).ph = .free →
    nextSaved (slotAt s r) = some c → (∀ i, i < 16 → i ≠ r.slot → nextSaved (slotAt s ⟨r.pkg, r.tile, i⟩) = none) → r.slot < 16 →
    awaited s r.pkg (slotAt s r) = false → c.keepsMat = false → c.keepsCopy = false → xaFree (tileAt s r.node) c = true →
    (c.savedXa.map (·.1)).Nodup →
    ∃ t, exec (.nodePlacement r.pkg) s = .next t ∧ (slotAt t r).ph = .saving ∧ ctxAt t r = { c with savedXa := [] } ∧ t.mem = s.mem ∧
      (slotAt t r).saved = (slotAt s r).saved.filter (fun x => x.uid ≠ c.uid) ∧ (∃ e ∈ t.agenda, e.ev = .unitResume r c.uid) ∧
      ∀ (k : Fin 8) (n : BitVec 4352) (st : Nat), ((k : Nat), n, st) ∈ c.savedXa →
        (tileAt t r.node).xas[k] = ⟨n, st, some (r.slot, c.uid), 0, c.d.job⟩) ∧
  (∀ (s : State) (r : SlotRef), (slotAt s r).ph = .saving →
    ∃ t, exec (.unitResume r (ctxAt s r).uid) s = .next t ∧
      slotAt t r = { slotAt s r with ph := .bound, ctx := { ctxAt s r with wake := true, preempting := false, readyFrom := s.now + 1 } } ∧
      t.mem = s.mem ∧ ∀ n, (tileAt t n).xas = (tileAt s n).xas) ∧
  ∀ (s : State) (pkg serial : Nat) (l : Launch), launchOf s pkg serial = some l → (∀ i ∈ l.tiles, i < 4096) →
    ∃ t, exec (.deterministicStart pkg serial) s = .next t ∧ ∀ i k, i < 4096 →
      let r : SlotRef := ⟨pkg, i, k⟩
      slotAt t r = if i ∈ l.tiles ∧ (slotAt s r).ph = .bound ∧ (ctxAt s r).d.launch = handleOf 0 pkg serial
        then { slotAt s r with ctx := { ctxAt s r with readyFrom := min (ctxAt s r).readyFrom s.now } } else slotAt s r

/-! ### Vector unit (chapters 02 and 06) -/

/-- R31, R134, R135 and R138: the lane-wise floating-point forms. Each rounds its active lanes in ascending order, takes the array for the
beats of its lane width, and ends with its results after its latency or by fp_trap; VABS and VNEG run in the integer pipe. -/
def Obligations.FloatLaneFormResults : Prop :=
  ∀ (s : State) (h : Hdr) (t : Ty) (rm : Rm) (m : VMask) (d a b x : VIx),
    let w := t.width
    let F := Fmt.of t
    let M := maskSrcs m (.v d)
    let ends := fun (S : List Reg) (rm : Rm) (l : Nat) (f : Nat → Rnd → Res) (i : Instr) =>
      ArrayEnds s (beatsOf w) h (S ++ M) l [(.v d, packLanes w (fpLoop s t rm m d f).1)] (fpLoop s t rm m d f).2 i (exec i s)
    (Ready s h ([.v a, .v b] ++ M) [.v d] false →
      let two := fun (rm : Rm) (l : Nat) (op : Fmt → Rnd → Machine.Num → Machine.Num → Res) =>
        ends [.v a, .v b] rm l fun j r => op F r (numAt s t a j) (numAt s t b j)
      two rm 8 fAdd (.vadd h t rm m d a b) ∧ two rm 8 fSub (.vsub h t rm m d a b) ∧ two rm 8 fMul (.vmul h t rm m d a b) ∧
      two rm 32 fDiv (.vdiv h t rm m d a b) ∧
      two .rne 8 (fun f _ y z => fMinMax f false false y z) (.vmin h t m d a b) ∧
      two .rne 8 (fun f _ y z => fMinMax f true false y z) (.vmax h t m d a b) ∧
      two .rne 8 (fun f _ y z => fMinMax f false true y z) (.vminnum h t m d a b) ∧
      two .rne 8 (fun f _ y z => fMinMax f true true y z) (.vmaxnum h t m d a b)) ∧
    (Ready s h ([.v a, .v b, .v x] ++ M) [.v d] false →
      let fma := fun (p q : Machine.Num → Machine.Num) => ends [.v a, .v b, .v x] rm 8 fun j r => fFma F r (p (numAt s t a j)) (numAt s t b j) (q (numAt s t x j))
      fma id id (.vfma h t rm m d a b x) ∧ fma id Machine.Num.negate (.vfms h t rm m d a b x) ∧ fma Machine.Num.negate id (.vfnma h t rm m d a b x)) ∧
    (Ready s h ([.v a] ++ M) [.v d] false →
      ends [.v a] rm 32 (fun j r => fSqrt F r (numAt s t a j)) (.vsqrt h t rm m d a) ∧
      ends [.v a] rm 8 (fun j r => fRoundInt F r (numAt s t a j)) (.vround h t rm m d a) ∧
      let pipe := fun (f : Nat → Rnd → Res) (i : Instr) =>
        FpEnds s s h ([.v a] ++ M) 4 [(.v d, packLanes w (fpLoop s t .rne m d f).1)] (fpLoop s t .rne m d f).2 (exec i s)
      pipe (fun j r => withSign false F r (numAt s t a j)) (.vabs h t m d a) ∧ pipe (fun j r => flipSign F r (numAt s t a j)) (.vneg h t m d a))

/-- R139 and R140: the integer lane forms and the movement forms: the value of every active lane, and under the mask of every other. The
movement forms take the element of a lane alone, and write 0 above a narrow one. -/
def Obligations.IntegerAndMoveLaneResults : Prop :=
  ∀ (s : State) (h : Hdr) (t : Ty) (sat : Bool) (m : VMask) (d a b : VIx) (g y : SIx) (k : KIx),
    let w := t.width
    let M := maskSrcs m (.v d)
    let A := fun j => laneAt w (rv (me s) a) j
    let B := fun j => laneAt w (rv (me s) b) j
    let E := elemBits t
    let lanes := fun (S : List Reg) (f : Nat → Nat) (i : Instr) => Results s h (S ++ M) 4 [(.v d, underMask (me s) w m d f)] (exec i s)
    (Ready s h ([.v a, .v b] ++ M) [.v d] false →
      let two := lanes [.v a, .v b]
      let fit := fun (z : Int) => ofSigned w (if sat then clampInt (loInt t) (hiInt t) z else z)
      two (fun j => fit (intLane t (A j) + intLane t (B j))) (.viadd h t sat m d a b) ∧
      two (fun j => fit (intLane t (A j) - intLane t (B j))) (.visub h t sat m d a b) ∧
      two (fun j => ofSigned w (intLane t (A j) * intLane t (B j))) (.vimul h t m d a b) ∧
      two (fun j => ofSigned w (intLane t (A j) * intLane t (B j) / 2 ^ w)) (.vimulh h t m d a b) ∧
      two (fun j => if intLane t (A j) ≤ intLane t (B j) then A j else B j) (.vimin h t m d a b) ∧
      two (fun j => if intLane t (A j) ≤ intLane t (B j) then B j else A j) (.vimax h t m d a b) ∧
      two (fun j => A j &&& B j) (.vand h t m d a b) ∧ two (fun j => A j ||| B j) (.vor h t m d a b) ∧ two (fun j => A j ^^^ B j) (.vxor h t m d a b) ∧
      two (fun j => A j * 2 ^ (B j % w) % 2 ^ w) (.vshl h t m d a b) ∧ two (fun j => A j / 2 ^ (B j % w)) (.vshr h t m d a b) ∧
      two (fun j => ofSigned w (intLane t (A j) / 2 ^ (B j % w))) (.vsar h t m d a b) ∧
      two (fun j => E (A (E (B j) % laneCount w))) (.vperm h t m d a b)) ∧
    (Ready s h ([.v a] ++ M) [.v d] false → lanes [.v a] (fun j => E (A j)) (.vmov h t m d a)) ∧
    (Ready s h ([.s g] ++ M) [.v d] false → lanes [.s g] (fun _ => E ((rs (me s) g).toNat % 2 ^ w)) (.vbcast h t m d g)) ∧
    (Ready s h M [.v d] false → lanes [] (fun j => E j) (.viota h t m d)) ∧
    (Ready s h [.v a, .v b, .k k] [.v d] false →
      Results s h [.v a, .v b] 4 [(.v d, packLanes w ((List.range (laneCount w)).map fun j => E (if (rk (me s) k).getLsbD j then A j else B j)))]
        (exec (.vsel h t d a b k) s)) ∧
    (Ready s h [.v a, .k k] [.v d] false →
      Results s h [.v a] 4 [(.v d, packLanes w (((List.range (laneCount w)).filter fun j => (rk (me s) k).getLsbD j).map fun j => E (A j)))]
        (exec (.vcompress h t k d a) s)) ∧
    (Ready s h [.v a, .s y] [.s g] false →
      let n := rs (me s) y
      (laneCount w ≤ n.toNat → Faults s 0x03 0 n (exec (.vextr h t g a y) s)) ∧
      (n.toNat < laneCount w →
        Results s h [.v a, .s y] 4 [(.s g, sval (if t.isSigned then BitVec.ofInt 64 (toSigned w (E (A n.toNat))) else BitVec.ofNat 64 (E (A n.toNat))))]
          (exec (.vextr h t g a y) s))) ∧
    (Ready s h [.s g, .s y, .v d] [.v d] false →
      let n := rs (me s) y
      (laneCount w ≤ n.toNat → Faults s 0x03 0 n (exec (.vins h t d g y) s)) ∧
      (n.toNat < laneCount w →
        Results s h [.s g, .s y, .v d] 4 [(.v d, packLanes w ((List.range (laneCount w)).map fun j =>
          if j = n.toNat then E ((rs (me s) g).toNat % 2 ^ w) else laneAt w (rv (me s) d) j))] (exec (.vins h t d g y) s)))

/-- R32, R138, R139, R143 and R149: comparisons into a mask, whose bits beyond the lanes are 0; reductions in the order of the lane tree
and scans in lane order; and the mask forms. -/
def Obligations.MaskAndReductionResults : Prop :=
  ∀ (s : State) (h : Hdr) (t : Ty) (rm : Rm) (op : Rop) (fc : FCond) (ic : ICond) (m : VMask) (k k' k2 : KIx) (a b d : VIx) (g x : SIx),
    let c := me s
    let w := t.width
    let A := fun j => laneAt w (rv c a) j
    let B := fun j => laneAt w (rv c b) j
    let on := (List.range (laneCount w)).filter fun j => laneOn c k j
    (∀ (v : VVal) (p : Nat → Bool), laneCount w ≤ 256 → v = maskOut c m k (laneCount w) p → ∀ j < 2048, v.getLsbD j =
      (decide (j < laneCount w) && if laneOn c m.k j then p j else !m.z && (rk c k).getLsbD j)) ∧
    (Ready s h ([.v a, .v b] ++ maskSrcs m (.k k)) [.k k] false →
      Results s h ([.v a, .v b] ++ maskSrcs m (.k k)) 4
        [(.k k, maskOut c m k (laneCount w) fun j => icHolds ic (intLane t (A j)) (intLane t (B j)))] (exec (.vicmp h t ic m k a b) s) ∧
      let acc := (List.range (laneCount w)).foldl (fun acc j =>
        if laneOn c m.k j then acc.add (enabled c) j (sigFlags [numAt s t a j, numAt s t b j]) else acc) (facc c)
      ArrayEnds s (beatsOf w) h ([.v a, .v b] ++ maskSrcs m (.k k)) 4
        [(.k k, maskOut c m k (laneCount w) fun j => fCmp fc (numAt s t a j) (numAt s t b j))] acc (.vcmp h t fc m k a b)
        (exec (.vcmp h t fc m k a b) s)) ∧
    (Ready s h [.v a, .k k] [.s g] false →
      let o := laneTree (enabled c) (redRm t rm c) (redStep t op) (redEmpty t op) 9 (on.map fun j => (j, A j)) (facc c)
      let ws := [(Reg.s g, sval (redOut t o.1))]
      let i := Instr.vred h t rm op k g a
      (t.isInt = true → FpEnds s s h [.v a] 4 ws o.2 (exec i s)) ∧
      (t.isInt = false → ArrayEnds s (beatsOf w) h [.v a] 16 ws o.2 i (exec i s))) ∧
    (Ready s h ([.v a] ++ maskSrcs m (.v d)) [.v d] false →
      let o := scanLoop (enabled c) (redRm t rm c) (redStep t op) (laneOn c m.k) (fun j => if m.z then 0 else laneAt w (rv c d) j) A (laneCount w) 0
        none (facc c)
      let ws := [(Reg.v d, packLanes w o.1)]
      let i := Instr.vscan h t rm op m d a
      (t.isInt = true → FpEnds s s h ([.v a] ++ maskSrcs m (.v d)) 4 ws o.2 (exec i s)) ∧
      (t.isInt = false → ArrayEnds s (beatsOf w) h ([.v a] ++ maskSrcs m (.v d)) 24 ws o.2 i (exec i s))) ∧
    (Ready s h [.v a, .v b, .k k] [.s g] false →
      let r := resolveRm rm c.rmode
      let ps := on.foldl (fun (x : List (Nat × Nat) × FAcc) j =>
        let z := fpStep t .mul (x.2.draw r).1 (A j) (B j)
        (x.1 ++ [(j, z.code)], (x.2.draw r).2.add (enabled c) j z.flags)) ([], facc c)
      let o := laneTree (enabled c) r (fpStep t .add) 0 9 ps.1 ps.2
      ArrayEnds s (beatsOf w) h [.v a, .v b] 16 [(.s g, sval (redOut t o.1))] o.2 (.vdot h t rm k g a b) (exec (.vdot h t rm k g a b) s)) ∧
    (Ready s h [.k k, .k k'] [.k k2] false →
      Results s h [] 3 [(.k k2, (rk c k &&& rk c k').setWidth 2048)] (exec (.kand h k2 k k') s) ∧
      Results s h [] 3 [(.k k2, (rk c k ||| rk c k').setWidth 2048)] (exec (.kor h k2 k k') s)) ∧
    (Ready s h [.k k] [.k k2] false → Results s h [] 3 [(.k k2, (~~~rk c k).setWidth 2048)] (exec (.knot h k2 k) s)) ∧
    (Ready s h [.k k] [.s g] false →
      Results s h [] 3 [(.s g, sval (BitVec.ofNat 64 (((List.range (laneCount w)).filter fun i => (rk c k).getLsbD i).length)))] (exec (.kpop h t g k) s)) ∧
    (Ready s h [.s g, .s x] [.k k2] false → laneCount w ≤ 256 → ∃ v : VVal,
      Results s h [.s g, .s x] 3 [(.k k2, v)] (exec (.kset h t k2 g x) s) ∧
      ∀ j < 2048, v.getLsbD j = decide ((rs c g).toNat ≤ j ∧ j < (rs c x).toNat ∧ j < laneCount w))

/-- R36, R141 and R142: conversions, whose lanes beyond the half that is written keep their values; quantising and dequantising of the blocks
of a register image, whose bytes of no block are 0; and the sum of block images. -/
def Obligations.ConversionAndBlockResults : Prop :=
  ∀ (s : State) (h : Hdr) (t u : Ty) (rm : Rm) (hi : Bool) (pos : BitVec 4) (q : Tqt) (m : VMask) (d a b : VIx),
    let c := me s
    (let ws := u.width
     let wd := t.width
     let n := 2048 / max ws wd
     let sB := if ws < wd ∧ hi then n else 0
     let dB := if wd < ws ∧ hi then n else 0
     let S := [.v a] ++ maskSrcs m (.v d) ++ if wd < ws then [.v d] else []
     Ready s h S [.v d] false →
     let mine := fun j => decide (dB ≤ j ∧ j < dB + n)
     let o := laneLoop (enabled c) (fun j => mine j && laneOn c m.k j)
       (fun j => if mine j ∧ m.z then 0 else laneAt wd (rv c d) j) (resolveRm rm c.rmode)
       (fun j r => convert t r (readNum u (elemBits u (laneAt ws (rv c a) (sB + (j - dB)))))) (laneCount wd) 0 (facc c)
     ArrayEnds s (ceilDiv n 32) h S 8 [(.v d, packLanes wd o.1)] o.2 (.vcvt h t rm u hi m d a) (exec (.vcvt h t rm u hi m d a) s)) ∧
    (Ready s h [.v a, .v d] [.v d] false →
      let zs := fun k => (List.range (blkLen t)).map fun j => numAt s .f32 a (blkLen t * k + j)
      let ks := (List.range (groupBlks t)).filter fun k => pos.toNat * groupBlks t + k < blkCount t
      let o := ks.foldl (fun (x : Nat × FAcc) k =>
        let y := quantBlk t (tqtCode q) (zs k)
        (putBlk t x.1 y.1 (pos.toNat * groupBlks t + k), x.2.add (enabled c) (blkLen t * k) y.2)) ((rv c d).toNat, facc c)
      ArrayEnds s 2 h [.v a, .v d] 8 [(.v d, BitVec.ofNat 2048 (clearZeroBytes t o.1))] o.2 (.vquant h t pos q d a) (exec (.vquant h t pos q d a) s)) ∧
    (Ready s h [.v a] [.v d] false →
      let n := blkLen t
      let f := fun (j : Nat) =>
        let k := pos.toNat * groupBlks t + j / n
        if k < blkCount t then convert .f32 Rnd.rne ((imgBlk t (rv c a).toNat k).value t (j % n)) else ⟨0, 0⟩
      let acc := (List.range 64).foldl (fun x j => x.add (enabled c) (j / n * n) (f j).flags) (facc c)
      ArrayEnds s 2 h [.v a] 8 [(.v d, packLanes 32 ((List.range 64).map fun j => (f j).code))] acc (.vdequant h t pos d a)
        (exec (.vdequant h t pos d a) s)) ∧
    (Ready s h [.v a, .v b] [.v d] false → t ∈ [Ty.mxfp8, .mxint8, .mxfp6e3, .mxfp6e2, .mxfp4, .tq4] →
      let beats := if t = .mxfp8 ∨ t = .mxint8 then 7 else if t = .mxfp6e3 ∨ t = .mxfp6e2 then 10 else if t = .mxfp4 then 15 else 11
      let add := fun (ba bb : Blk) (j : Nat) =>
        let ra := convert .f32 Rnd.rne (ba.value t j)
        let rb := convert .f32 Rnd.rne (bb.value t j)
        let z := fAdd (Fmt.of .f32) Rnd.rne ((Fmt.of .f32).read ra.code) ((Fmt.of .f32).read rb.code)
        ((Fmt.of .f32).read z.code, ra.flags ||| rb.flags ||| z.flags)
      let o := (List.range (blkCount t)).foldl (fun (x : Nat × FAcc) k =>
        let ba := imgBlk t (rv c a).toNat k
        let sums := (List.range (blkLen t)).map (add ba (imgBlk t (rv c b).toNat k))
        let y := quantBlk t (ba.scale / 64) (sums.map (·.1))
        (putBlk t x.1 y.1 k, x.2.add (enabled c) k (sums.foldl (fun f p => f ||| p.2) y.2))) (0, facc c)
      ArrayEnds s beats h [.v a, .v b] 12 [(.v d, BitVec.ofNat 2048 (clearZeroBytes t o.1))] o.2 (.vbaddq h t pos d a b)
        (exec (.vbaddq h t pos d a b) s))

/-- R144 to R147: the forms of the special functions enter the queue of their tile, which holds 16 requests; so does PMERGE, at twice the
occupancy. With the queue full none issues.
R135, R146 to R148: a beat of the array starts; the queue serves its oldest waiting request where the previous occupancy has ended,
and its result lands 20 advancing cycles after its own, and 2 more for a source of the slow partition (the model's reading of R117, log
45); the slot that waits for one that traps takes fp_trap. -/
def Obligations.SpecialFunctionQueue : Prop :=
  (∀ (s : State) (h : Hdr) (t : Ty) (rm : Rm) (m : VMask) (d a b : VIx),
     let w := t.width
     let M := maskSrcs m (.v d)
     let occ := if t = .f64 then 2 else if t = .f32 then 4 else 8
     (Ready s h ([.v a] ++ M) [.v d] false →
       let form := fun (g : Sfn) (i : Instr) =>
         let o := fpLoop s t rm m d fun j r => sfuEval g (Fmt.of t) r (numAt s t a j)
         SfuEnters s s h i ([.v a] ++ M) occ o.2 [(.v d, packLanes w o.1)] (exec i s) ∧ (16 ≤ (here s).sfu.length → Busy s i (exec i s))
       form .exp2 (.vexp2 h t rm m d a) ∧ form .log2 (.vlog2 h t rm m d a) ∧ form .rcp (.vrcp h t rm m d a) ∧ form .rsq (.vrsq h t rm m d a) ∧
       form .sin (.vsin h t rm m d a) ∧ form .cos (.vcos h t rm m d a) ∧ form .tanh (.vtanh h t rm m d a)) ∧
     (let S : List Reg := [.v a, .v (a + 1), .v b, .v (b + 1)] ++ M ++ (if VMask.merges m then [.v (d + 1)] else [])
      let src := fun (k j : Nat) => laneAt w (rv (me s) (([a, a + 1, b, b + 1, d, d + 1] : List VIx).getD k 0)) j
      let o := pmergeLoop (me s) (Fmt.of t) (resolveRm rm (me s).rmode) m w s.freeCtr src (laneCount w) 0 (facc (me s))
      let i := Instr.pmerge h t rm m d a b
      Ready s h S [.v d, .v (d + 1)] false →
        SfuEnters s { s with freeCtr := s.freeCtr + laneCount w } h i S (2 * occ) o.2 [(.v d, packLanes w o.1.1), (.v (d + 1), packLanes w o.1.2)] (exec i s) ∧
        (16 ≤ (here s).sfu.length → Busy s i (exec i s)))) ∧
  ((∀ (s : State) (n : Node), ∃ t, exec (.arrayBeatStart n) s = .next t ∧ tileAt t n = { tileAt s n with beats := (tileAt s n).beats - 1 } ∧
     t.mem = s.mem ∧ (2 ≤ (tileAt s n).beats → ∃ e ∈ t.agenda, e.at_ = dueIn s n 1 ∧ e.ev = .arrayBeatStart n)) ∧
   (∀ (s : State) (n : Node),
     let T := tileAt s n
     ((s.now < T.sfuFree ∨ ∀ q ∈ T.sfu, q.started = true) → exec (.sfuServiceStart n) s = .next s) ∧
     ∀ l1 q l2, T.sfu = l1 ++ q :: l2 → (∀ x ∈ l1, x.started = true) → q.started = false → T.sfuFree ≤ s.now →
       ∃ t, exec (.sfuServiceStart n) s = .next t ∧
         tileAt t n = { T with sfuFree := dueIn s n q.occ, sfu := T.sfu.map fun x => if x.id = q.id then { x with started := true } else x } ∧
         (∃ e ∈ t.agenda, e.at_ = dueIn s n (q.occ + 20 + q.slow) ∧ e.ev = .sfuResultLand n q.id) ∧
         ∃ e ∈ t.agenda, e.at_ = dueIn s n q.occ ∧ e.ev = .sfuServiceStart n) ∧
   ∀ (s : State) (n : Node) (q : SfuReq) (p : Park), (tileAt s n).sfu.find? (fun x => x.id = q.id) = some q →
     let r : SlotRef := ⟨n.pkg, n.id, q.slot⟩
     let w : Who := ⟨r, q.uid, q.id⟩
     let s1 := modTile s n fun t => { t with sfu := t.sfu.filter fun x => x.id ≠ q.id }
     let put := fun (ws : List (Reg × VVal)) (c : Ctx) =>
       ws.foldl (fun c x => putReg c x.1 x.2) { c with fpflags := c.fpflags ||| BitVec.ofNat 64 q.flags }
     (Waits s w p → q.trapping = false → ∃ t, exec (.sfuResultLand n q.id) s = .next t ∧ Finishes s1 w (ctxAt s r) (put q.dst) t) ∧
     (Waits s w p → q.trapping = true → exec (.sfuResultLand n q.id) s =
       .next (takeFault (modUnit s1 r q.uid (put q.old)) r q.uid 0x18 0 (BitVec.ofNat 64 (q.flags + q.lane * 2 ^ 8)))) ∧
     ((slotAt s r).ph = .bound → (ctxAt s r).uid = q.uid → (ctxAt s r).park = none →
       ∃ t, exec (.sfuResultLand n q.id) s = .next t ∧ OnlySlot r s1 t ∧ ctxAt t r = put q.dst (ctxAt s r)))

/-- R38, R39, R150, R153 and R154: the exact accumulators. A form on one that the unit does not hold faults with illegal_operand and its
number; on one that is busy it does not issue; else the accumulator has its new value and is busy for the form's latency. XA.RND of an exact
zero gives -0 under rounding down and +0 otherwise (R28). -/
def Obligations.AccumulatorFormResults : Prop :=
  ∀ (s : State) (h : Hdr) (x y : BitVec 3) (neg : Bool) (t : Ty) (rm : Rm) (k : KIx) (cond : XaCond) (a b : SIx) (v w : VIx) (d : PIx) (ofs : BitVec 32),
    let c := me s
    let X := xaAt (here s) x
    let ea := rs c a + ofs.signExtend 64
    let adds := fun (xs : List (BitVec 3)) (S : List Reg) (l : Nat) (z : XVal) (acc : FAcc) (o : Outc) =>
      FpEnds s (xaMod (stepFree s) s.cur xs (l + slowBy S) x (xaStore s z)) h S l [] acc o
    let once := fun (z : XVal) => (facc c).add (enabled c) 0 z.flags
    (Ready s h [] [.p d] false →
      let o := exec (.xaGet h x d) s
      let mine := some (s.cur.slot, c.uid)
      (X.holder ≠ none → X.holder ≠ mine → ResultsFrom s (xaMod s s.cur [x] 3 x id) c h [] 3 [(.p d, pval false)] o) ∧
      (X.holder = mine → s.now < X.busyUntil → Busy s (.xaGet h x d) o) ∧
      ((X.holder = none ∨ (X.holder = mine ∧ X.busyUntil ≤ s.now)) →
        let s' := xaMod (stepFree s) s.cur [x] 3 x fun A =>
          if A.holder = mine ∨ A.job = c.d.job then { A with holder := mine, job := c.d.job }
          else { A with holder := mine, job := c.d.job, n := Config.freeAcc s.freeCtr, st := (Config.freeWord s.freeCtr).toNat % 4 }
        ResultsFrom s s' c h [] 3 [(.p d, pval true)] o)) ∧
    (Ready s h [] [] false →
      XaGuarded s (.xaPut h x) x (exec (.xaPut h x) s) ∧ XaGuarded s (.xaClr h x) x (exec (.xaClr h x) s) ∧
      (HoldsXa s [x] →
        DoneIn s h (askWork (xaMod s s.cur [x] 3 x fun A => { A with holder := none, job := c.d.job }) s.cur.node) (exec (.xaPut h x) s) ∧
        DoneIn s h (xaMod s s.cur [x] 3 x fun A => { A with n := 0, st := 0 }) (exec (.xaClr h x) s)) ∧
      (let o := exec (.xaAdd h x y neg) s
       let Y := xaAt (here s) y
       let mine := some (s.cur.slot, c.uid)
       (X.holder ≠ mine → Faults s 0x03 0 (x.setWidth 64) o) ∧ (X.holder = mine → Y.holder ≠ mine → Faults s 0x03 0 (y.setWidth 64) o) ∧
       (X.holder = mine → Y.holder = mine → (s.now < X.busyUntil ∨ s.now < Y.busyUntil) → Busy s (.xaAdd h x y neg) o)) ∧
      (HoldsXa s [x, y] →
        let z := xaAddVal (xaVal X) (xaVal (xaAt (here s) y)) neg
        adds [x, y] [] 8 z (once z) (exec (.xaAdd h x y neg) s))) ∧
    (Ready s h [.s a, .s b] [] false → XaGuarded s (.xaAddp h x neg a b) x (exec (.xaAddp h x neg a b) s)) ∧
    (Ready s h [.s a, .s b] [] false → HoldsXa s [x] →
      let z := xaAddProd (xaVal X) neg (rs c a).toNat (rs c b).toNat
      adds [x] [.s a, .s b] 8 z (once z) (exec (.xaAddp h x neg a b) s)) ∧
    (Ready s h [.v v, .v w, .k k] [] false → XaGuarded s (.xaAddv h x neg k v w) x (exec (.xaAddv h x neg k v w) s)) ∧
    (Ready s h [.v v, .v w, .k k] [] false → HoldsXa s [x] →
      let o := (List.range 32).foldl (fun (y : XVal × FAcc) j =>
        if laneOn c k j then
          let z := xaAddProd { y.1 with flags := 0 } neg (laneAt 64 (rv c v) j) (laneAt 64 (rv c w) j)
          (z, y.2.add (enabled c) j z.flags)
        else y) (xaVal X, facc c)
      adds [x] [.v v, .v w] 16 o.1 o.2 (exec (.xaAddv h x neg k v w) s)) ∧
    (Ready s h [] [.p d] false → XaGuarded s (.xaSign h x cond d) x (exec (.xaSign h x cond d) s)) ∧
    (Ready s h [] [.s a] false → XaGuarded s (.xaRnd h t rm x a) x (exec (.xaRnd h t rm x a) s)) ∧
    (Ready s h [.s a] [] false → XaGuarded s (.xaSave h x a ofs) x (exec (.xaSave h x a ofs) s) ∧
      XaGuarded s (.xaLoad h x a ofs) x (exec (.xaLoad h x a ofs) s)) ∧
    (Ready s h [] [.p d] false → HoldsXa s [x] →
      let sign := fun (z : Int) => match cond with | .gt => decide (0 < z) | .lt => decide (z < 0) | .eq => decide (z = 0)
      let ends := fun (r : Bool) (fl : Nat) => FpEnds s (xaMod s s.cur [x] 6 x id) h [] 6 [(.p d, pval r)] ((facc c).add (enabled c) 0 fl) (exec (.xaSign h x cond d) s)
      (X.st = 0 → ends (sign X.n.toInt) 0) ∧ (X.st = 1 → ends (sign 1) 0) ∧ (X.st = 2 → ends (sign (-1)) 0) ∧ (3 ≤ X.st → ends false 1)) ∧
    (Ready s h [] [.s a] false → HoldsXa s [x] →
      let ends := fun (n : Nat) (acc : FAcc) => FpEnds s (xaMod s s.cur [x] 10 x id) h [] 10 [(.s a, BitVec.ofNat 2048 n)] acc (exec (.xaRnd h t rm x a) s)
      let F := Fmt.of t
      let dr := (facc c).draw (resolveRm rm c.rmode)
      let z := F.round dr.1 ⟨X.n.toInt < 0 || (X.n.toInt = 0 && dr.1.rm = .rdn), X.n.toInt.natAbs, -2148, false⟩
      (X.st = 0 → ends z.code (dr.2.add (enabled c) 0 z.flags)) ∧ (X.st = 1 → ends F.infCode (facc c)) ∧
      (X.st = 2 → ends (F.signed true F.infCode) (facc c)) ∧ (3 ≤ X.st → ends F.nanCode (facc c))) ∧
    (Ready s h [.s a] [] false → HoldsXa s [x] →
      let save := exec (.xaSave h x a ofs) s
      let load := exec (.xaLoad h x a ofs) s
      (∀ o ∈ [save, load], (isRemote ea = true → Faults s 0x03 0 0 o) ∧ (isRemote ea = false → ea.toNat % 8 ≠ 0 → Faults s 0x06 ea 0 o) ∧
        (isRemote ea = false → ea.toNat % 8 = 0 → padOk (here s) ea.toNat 552 = false → Faults s 0x07 ea 0 o)) ∧
      (isRemote ea = false → ea.toNat % 8 = 0 → padOk (here s) ea.toNat 552 = true →
        (let b := bytesOfNat 544 X.n.toNat ++ bytesOfNat 8 X.st
         Stored (here s).sp (padWrite (here s) ea.toNat b).sp ea.toNat b ∧
         DoneIn s h (modTile (xaMod s s.cur [x] (72 + slowBy [.s a]) x id) s.cur.node fun T => padWrite T ea.toNat b) save) ∧
        let b := padRead (here s) ea.toNat 552
        let n := (BitVec.ofNat 4352 (natOfBytes (b.take 544))).toInt
        let st := natOfBytes (b.drop 544) % 4
        let z : XVal := if st = 0 then xaBound ⟨n, 0, 0⟩ else ⟨n, st, 0⟩
        FpEnds s (xaMod s s.cur [x] (72 + slowBy [.s a]) x fun A => { A with st := z.st, n := BitVec.ofInt 4352 z.n }) h [.s a] 72 [] (once z) load))

/-! ### Channels (chapter 07) -/

/-- R156, R163, R179 and R190: the forms that take and give back endpoints and images, the status word, and the binding of a register.
R157 to R162: PROT.LOAD reads its image by pieces, 16 bytes first, checks it once it has what it needs, and installs it at the lowest
free index or finds it on the tile; a failed check faults with descriptor_invalid and its reason, an unbounded look-ahead with
look_ahead_unbounded, a full table with resource_exhausted. -/
def Obligations.EndpointImageAndProtocolForms : Prop :=
  (∀ (s : State) (h : Hdr) (ep : EIx) (d a : SIx) (g : BindDst),
     let c := me s
     let v := (rs c a).toNat
     let free := fun i => ((here s).epAt i).st = .free
     let notOwned := fun (o : Outc) => ownsEp s s.cur c.uid ep.toNat = false → Faults s 0x0D 0 (BitVec.ofNat 64 ep.toNat) o
     (Ready s h [.s a] [.s d] false →
       let o := exec (.epGet h d a) s
       (128 < v → Faults s 0x03 0 0 o) ∧
       (((v = 128 ∧ ∀ i < 128, ¬ free i) ∨ (v < 128 ∧ ¬ free v)) → Results s h [.s a] 3 [(.s d, sval (BitVec.allOnes 64))] o) ∧
       ∀ i < 128, free i → (v = i ∨ (v = 128 ∧ ∀ j < i, ¬ free j)) →
         ResultsFrom s (modEp s ⟨s.cur.pkg, s.cur.tile, i⟩ fun x => { x with st := .idle, owner := some (s.cur.slot, c.uid), job := c.d.job }) c h
           [.s a] 3 [(.s d, sval (BitVec.ofNat 64 i))] o) ∧
     (Ready s h [.s a] [] false →
       (let o := exec (.epPut h a) s
        let e : EpRef := ⟨s.cur.pkg, s.cur.tile, v⟩
        (127 < v → Faults s 0x03 0 0 o) ∧
        (v ≤ 127 → ownsEp s s.cur c.uid v = false → Faults s 0x0D 0 (BitVec.ofNat 64 v) o) ∧
        (v ≤ 127 → ownsEp s s.cur c.uid v = true → (c.packet.map (·.1)) = some v → Faults s 0x03 0 0 o) ∧
        (v ≤ 127 → ownsEp s s.cur c.uid v = true → (c.packet.map (·.1)) ≠ some v → ∃ u, DoneIn s h u o ∧
          (epAt u e).st = .free ∧ (epAt u e).owner = none ∧ (epAt u e).gran = none ∧ (epAt u e).gen = ((epAt s e).gen + 1) % 256 ∧ u.mem = s.mem)) ∧
       let o := exec (.protFree h a) s
       ((v < 8 ∨ 31 < v ∨ (s.cur.slot, c.uid) ∉ (imageOf s s.cur.node v).holders) → Faults s 0x03 0 0 o) ∧
       (8 ≤ v → v ≤ 31 → (s.cur.slot, c.uid) ∈ (imageOf s s.cur.node v).holders →
         DoneIn s h (sweepImages (modTile s s.cur.node fun T => { T with images := T.images.map fun (k, m) =>
           (k, if k = v then { m with holders := m.holders.filter fun x => x ≠ (s.cur.slot, c.uid) } else m) }) s.cur.node) o)) ∧
     (Ready s h [] [.s d] false →
       notOwned (exec (.chState h ep d) s) ∧
       (ownsEp s s.cur c.uid ep.toNat = true →
         Results s h [] 3 [(.s d, BitVec.ofNat 2048 (stateWord (epAt s (ownEp s.cur ep))))] (exec (.chState h ep d) s))) ∧
     (Ready s h [] [] false →
       let i := Instr.chBindreg h ep g
       let o := exec i s
       let e := ownEp s.cur ep
       let x := epAt s e
       notOwned o ∧
       (ownsEp s s.cur c.uid ep.toNat = true →
         (x.st ≠ .idle → x.st ≠ .opened → Faults s 0x03 0 0 o) ∧
         ((x.st = .idle ∨ x.st = .opened) →
           (Machine.BindDst.reg g = none → DoneIn s h (modEp s e fun x => { x with reg := none }) o) ∧
           ∀ q, Machine.BindDst.reg g = some q →
             ((q = .s 0 ∨ (boundTo s s.cur c.uid q).isSome = true ∨ x.reg.isSome = true) → Faults s 0x03 0 0 o) ∧
             (q ≠ .s 0 → boundTo s s.cur c.uid q = none → x.reg = none →
               ((presOf c q = .pending ∨ presOf c q = .ret) → ∃ t, o = .next t ∧ OnlyUnit s t ∧
                 ctxAt t s.cur = { c with park := some (waitBy s i s.no (.regs [q]) 0 0 0 []) }) ∧
               (presOf c q ≠ .pending → presOf c q ≠ .ret →
                 DoneIn s h (askDeposit (modEp s e fun x => { x with reg := some q }) e s.now) o)))))) ∧
  (∀ (s : State) (h : Hdr) (d a : SIx) (ofs : BitVec 32),
     let c := me s
     let va := rs c a + ofs.signExtend 64
     let i := Instr.protLoad h d a ofs
     let o := exec i s
     (Ready s h [.s a] [.s d] false →
       (va.toNat % 16 ≠ 0 → Faults s 0x06 va 0 o) ∧ (va.toNat % 16 = 0 → 2 ^ 56 ≤ va.toNat → Faults s 0x09 va 0 o) ∧
       ∀ pa s1 hm, va.toNat % 16 = 0 → va.toNat < 2 ^ 56 → noErrs s = true →
         xlate s s.cur.node c.d.job c.d.det 0 va.toNat = .ok pa s1 → homeFor s1 s.cur c pa false = some hm →
         Parks s h (waitBy s i s1.no .reply 0 0 va []) (sendReq { s1 with no := s1.no + 1 } s.cur c hm.1 pa va (.load 16) false s1.no none) o) ∧
     (Fit s h [.s a] [.s d] false → va.toNat % 16 = 0 →
       (∀ k, readImage (gotBytes c) = .bad k → Faults s 0x16 va (BitVec.ofNat 64 k) o) ∧
       ∀ m, readImage (gotBytes c) = .ok m →
         ((lookAhead m PAct.active = none ∨ lookAhead m PAct.passive = none) → Faults s 0x0F va 0 o) ∧
         ∀ x y, lookAhead m PAct.active = some x → lookAhead m PAct.passive = some y →
           let held := fun (u : State) (k : Nat) => DoneIn s h
             (modCtx (holdImage u s.cur.node k (s.cur.slot, c.uid)) s.cur fun c => putReg c (.s d) (BitVec.ofNat 2048 k)) o
           let isIt := fun (z : Nat × PImage) => decide (z.2.job = c.d.job ∧ z.2.digest = m.digest)
           (∀ z, (here s).images.find? isIt = some z → held s z.1) ∧
           ((here s).images.find? isIt = none →
             ((∀ k < 24, ahas (here s).images (8 + k) = true) → Faults s 0x17 0 0x10 o) ∧
             ∀ k < 24, ahas (here s).images (8 + k) = false → (∀ j < k, ahas (here s).images (8 + j) = true) →
               held (modTile s s.cur.node fun T => { T with images := aset T.images (8 + k) { m with laSend := x, laRecv := y, job := c.d.job } }) (8 + k))))

/-- R164 to R166: CH.OPEN and CH.ACCEPT. An endpoint that is not owned, not idle, under an image that is not held, with a bad address, or
without room for its buffer, faults; else it opens or accepts and the slot waits, counted by WAITLIM. The request of CH.OPEN is under way to the endpoint it names.
R165 and R166: where an open request lands it is refused, held at an idle endpoint, or taken by one that accepts: both become open, each with
the other's address and generation, where the images are duals of each other; else both forms fault with protocol_mismatch. A request is
withdrawn only where it is still held. -/
def Obligations.ChannelsOpenAndAccept : Prop :=
  (∀ (s : State) (h : Hdr) (ep : EIx) (d a b : SIx),
     let c := me s
     let e := ownEp s.cur ep
     let w : Who := ⟨s.cur, c.uid, s.no⟩
     let form := fun (dsts : List Reg) (i : Instr) (bad : Prop) (f : State → State) => Ready s h [.s a, .s b] dsts false →
       let o := exec i s
       (ownsEp s s.cur c.uid ep.toNat = false → Faults s 0x0D 0 (BitVec.ofNat 64 ep.toNat) o) ∧
       (ownsEp s s.cur c.uid ep.toNat = true →
         ((epAt s e).st ≠ .idle → Faults s 0x03 0 0 o) ∧
         ((epAt s e).st = .idle →
           (heldImage s s.cur c (rs c b) = none → Faults s 0x03 0 0 o) ∧
           ∀ m, heldImage s s.cur c (rs c b) = some m →
             (bad → Faults s 0x03 0 0 o) ∧
             (¬ bad → carve (here s) m.bufBytes = none → Faults s 0x0E 0 0 o) ∧
             ∀ g, ¬ bad → carve (here s) m.bufBytes = some g →
               (Parks s h (waitBy s i s.no .reply 5 0 0 []) (f { prepared s e (rs c b).toNat m g with no := s.no + 1 }) o)))
     form [] (.chOpen h ep a b) (epOfAddr (rs c a) = none) (fun u =>
       let t := (epOfAddr (rs c a)).getD ⟨0, 0, 0⟩
       let u := modEp u e fun x => { x with st := .opening, peer := t, gen := (x.gen + 1) % 256 }
       let q := openReqOf u w e c.d.job
       asks (if hasPkg u t.pkg then sendMsg u s.cur e.node t.node 1 1 (openSpace s.cur t) (pinOf c) false (.openRequestLand q)
         else push u (s.now + 24) phLand (slotKey s.cur) (.openReplyLand q (.refused 4))) s.cur c.uid t.node) ∧
     form [.s d] (.chAccept h ep d a b) (rs c a ≠ 0 ∧ epOfAddr (rs c a) = none) (fun u =>
       let held := (epAt u e).held
       let u := modEp u e fun x => { x with st := .accepting, expect := epOfAddr (rs c a), held := none }
       match held with
       | some q => push u s.now phLand (slotKey s.cur) (.openRequestLand q)
       | none => u)) ∧
  ((∀ (s : State) (q : OpenReq) (l u : Nat),
     let e := q.target
     let x := epAt s e
     let r : SlotRef := ⟨e.pkg, e.tile, l⟩
     let o := exec (.openRequestLand q) s
     e ≠ calService e.pkg →
     (x.st = .free → o = .next (refuseOpen s e.node q 1)) ∧
     (x.st ≠ .free → x.owner = none → o = .next (refuseOpen s e.node q 2)) ∧
     (x.st ≠ .free → x.owner = some (l, u) → (slotAt s r).ph = .bound → (ctxAt s r).uid = u →
       ((ctxAt s r).d.job ≠ q.job → o = .next (refuseOpen s e.node q 1)) ∧
       ((ctxAt s r).d.job = q.job → x.st = .idle → x.held = none → o = .next (modEp s e fun x => { x with held := some q })) ∧
       ((ctxAt s r).d.job = q.job → x.st = .idle → x.held.isSome = true → o = .next (refuseOpen s e.node q 2)) ∧
       ((ctxAt s r).d.job = q.job → x.st = .accepting → (x.expect ≠ none ∧ x.expect ≠ some q.opener) → o = .next (refuseOpen s e.node q 5)) ∧
       ∀ p h ep d a b, (ctxAt s r).d.job = q.job → x.st = .accepting → (x.expect = none ∨ x.expect = some q.opener) → Waits s ⟨r, u, p.id⟩ p →
         p.form = .chAccept h ep d a b →
         ((imageOf s e.node x.img).dual = q.digest →
           let s1 := modEp s e fun x => { x with st := .opened, peer := q.opener, peerGen := q.gen, gen := (x.gen + 1) % 256, expect := none }
           let s2 := replyOpen s1 q (.accepted ((x.gen + 1) % 256))
           ∃ t, o = .next t ∧ Finishes s2 ⟨r, u, p.id⟩ (ctxAt s r) (fun c => putReg c (.s d) (sval (epAddr q.opener))) t) ∧
         ((imageOf s e.node x.img).dual ≠ q.digest →
           o = .next (takeFault (revertEp (replyOpen s q (.mismatch (imageOf s e.node x.img).digest)) e) r u 0x0B 0 q.digest)))) ∧
   (∀ (s : State) (q : OpenReq) (p : Park), (epAt s q.opener).st = .opening → (epAt s q.opener).gen = q.gen → Waits s q.who p →
     (∀ g, (epAt s q.opener).early = [] → ∃ t, exec (.openReplyLand q (.accepted g)) s = .next t ∧
       Finishes (modEp s q.opener fun x => { x with st := .opened, peer := q.target, peerGen := g }) q.who (ctxAt s q.who.slot) id t) ∧
     (∀ k, exec (.openReplyLand q (.mismatch k)) s = .next (takeFault (revertEp s q.opener) q.who.slot q.who.uid 0x0B 0 k)) ∧
     ∀ k, exec (.openReplyLand q (.refused k)) s = .next (takeFault (revertEp s q.opener) q.who.slot q.who.uid 0x0C 0 (BitVec.ofNat 64 k))) ∧
   (∀ (s : State) (q : OpenReq), ∃ t, exec (.openWithdrawalLand q) s = .next t ∧
     let here_ := ∃ x, (epAt s q.target).held = some x ∧ x.who = q.who
     (here_ → epAt t q.target = { epAt s q.target with held := none }) ∧ (¬ here_ → epAt t q.target = epAt s q.target) ∧ t.mem = s.mem) ∧
   ∀ (s : State) (w : Who) (p : Park) (h : Hdr) (ep : EIx) (a b : SIx), Waits s w p → p.form = .chOpen h ep a b →
     exec (.openWithdrawalAnswerLand w true) s = .next (takeFault (revertEp s (ownEp w.slot ep)) w.slot w.uid 0x05 0 (limitAux p)) ∧
     ∃ t, exec (.openWithdrawalAnswerLand w false) s = .next t ∧ OnlySlot w.slot s t ∧
       ctxAt t w.slot = { ctxAt s w.slot with park := some { p with kind := .reply } })

/-- R167 to R172, R174 and R175: SEND, SENDV and SELECT pass the strainer step by step, wait while the window is shut or, with REL, until what
precedes is performed, and then send: the endpoint's state moves with the last piece, and one sequence number is taken for every 32 bytes. -/
def Obligations.SendFormsPassTheStrainer : Prop :=
  ∀ (s : State) (h : Hdr) (ep : EIx) (mt : BitVec 6) (fin rel : Bool) (p : BitVec 3) (len : BitVec 9) (a : SIx) (v : VIx) (lbl : BitVec 2),
    let c := me s
    let e := ownEp s.cur ep
    let x := epAt s e
    let n := len.toNat
    let shut := windowShut s e = true
    let ok := rel = false ∨ releaseOk s s.cur c.uid .dom s.cur.node = true
    let form := fun (i : Instr) (S : List Reg) (fits : Prop) (b : List Byte) => Ready s h S (pDst p) false →
      let o := exec i s
      Strained s h ep (3 + slowBy S) (pRes p false) o ∧
      (OwnOpen s ep →
        (¬ fits → Faults s 0x03 0 (refusedAux s ep 4) o) ∧
        (fits → (∃ y, c.packet = some y ∧ y.1 ≠ ep.toNat) → Faults s 0x03 0 (refusedAux s ep 5) o)) ∧
      (fits → OpenEp s ep →
        ((epImg s ep).edge x.q .send mt.toNat = none → Faults s 0x0A 0 (refusedAux s ep 6) o) ∧
        ∀ t, (epImg s ep).edge x.q .send mt.toNat = some t →
          (pieceOk x t mt.toNat n fin = false → Faults s 0x0A 0 (refusedAux s ep 7) o) ∧
          (pieceOk x t mt.toNat n fin = true →
            (x.pkt = none → shut → ChWaits s h i o) ∧
            ((x.pkt ≠ none ∨ ¬ shut) → ¬ ok → RelWaits s h i o) ∧
            ((x.pkt ≠ none ∨ ¬ shut) → ok →
              let u := sendPiece s s.cur e t mt.toNat b fin
              ResultsIn s h u S 3 (pRes p true) o ∧ u.mem = s.mem ∧ (epAt u e).txSeq = x.txSeq + max 1 (ceilDiv n 32) ∧
              (fin = true → (epAt u e).q = t.next ∧ (epAt u e).pkt = none) ∧
              (fin = false → (epAt u e).q = x.q ∧ (epAt u e).pkt.isSome = true))))
    form (.send h ep mt fin rel p len a) (payRegs a n) (n ≤ 32 ∧ a.toNat + ceilDiv n 8 ≤ 64)
      (((List.range (ceilDiv n 8)).flatMap fun k => bytesOfNat 8 (rs c (sNext a k)).toNat).take n) ∧
    form (.sendv h ep mt fin rel p len v) [.v v] (n ≤ 256) ((bytesOfNat 256 (rv c v).toNat).take n) ∧
    (Ready s h [] (pDst p) false →
      let i := Instr.select h ep lbl rel p
      let o := exec i s
      Strained s h ep 3 (pRes p false) o ∧
      (OpenEp s ep →
        ((epImg s ep).labEdge x.q .select lbl.toNat = none → Faults s 0x0A 0 (refusedAux s ep 6) o) ∧
        ∀ t, (epImg s ep).labEdge x.q .select lbl.toNat = some t →
          (x.pkt ≠ none → Faults s 0x0A 0 (refusedAux s ep 7) o) ∧
          (x.pkt = none → shut → ChWaits s h i o) ∧ (x.pkt = none → ¬ shut → ¬ ok → RelWaits s h i o) ∧
          (x.pkt = none → ¬ shut → ok →
            let u := countSent (modEp (sendSeq s e (.label lbl.toNat)) e fun x => { x with q := t.next }) e
            ResultsIn s h u [] 3 (pRes p true) o ∧ u.mem = s.mem ∧ (epAt u e).q = t.next ∧ (epAt u e).txSeq = x.txSeq + 1)))

/-- R167, R173 to R175: RECV, RECVV and OFFER. With no message they wait; a head message of another kind or type is declined and stays; one
that they take goes to the destinations, as far as LEN says, and leaves the buffer when all of it is taken, which moves the state. -/
def Obligations.ReceiveFormsTakeOrDecline : Prop :=
  ∀ (s : State) (h : Hdr) (ep : EIx) (mt : BitVec 6) (p : BitVec 3) (len : BitVec 9) (d b : SIx) (v : VIx) (lbl : BitVec 2),
    let e := ownEp s.cur ep
    let x := epAt s e
    let n := len.toNat
    let wd := fun (w : Word) (ok : Bool) => [(Reg.s b, sval w)] ++ pRes p ok
    let form := fun (i : Instr) (D : List Reg) (l : Nat) (fits : Prop) (put : List Byte → List (Reg × VVal)) =>
      Ready s h [] (D ++ wordDst b ++ pDst p) false →
      let o := exec i s
      Strained s h ep l (put [] ++ wd (closedWord x) false) o ∧
      (OwnOpen s ep → (¬ fits ∨ x.reg.isSome = true) → Faults s 0x03 0 (refusedAux s ep 4) o) ∧
      (OwnOpen s ep → fits → x.reg = none →
        ((epImg s ep).edge x.q .recv mt.toNat = none → Faults s 0x0A 0 (refusedAux s ep 6) o) ∧
        ∀ t, (epImg s ep).edge x.q .recv mt.toNat = some t →
          (x.inbox = [] → ChWaits s h i o) ∧
          (∀ m l', x.inbox = m :: l' → (∀ y, m ≠ .data mt.toNat y) → Results s h [] l (put [] ++ wd (declinedWord m) false) o) ∧
          ∀ y l', x.inbox = .data mt.toNat y :: l' →
            let k := min n (y.length - x.cursor)
            let taken := put ((y.drop x.cursor).take k)
            (x.cursor + k = y.length → ResultsIn s h (finishHead s e t.next) [] l (taken ++ wd (BitVec.ofNat 64 (2 ^ 16 + k)) true) o) ∧
            (x.cursor + k ≠ y.length →
              ResultsIn s h (modEp s e fun x => { x with cursor := x.cursor + k }) [] l (taken ++ wd (BitVec.ofNat 64 k) true) o))
    form (.recv h ep mt p len d b) (payRegs d n) 6 (n ≤ 32 ∧ d.toNat + ceilDiv n 8 ≤ 64)
      (fun y => (payRegs d n).zipIdx.map fun (g, k) => (g, BitVec.ofNat 2048 (natOfBytes ((y.drop (8 * k)).take 8)))) ∧
    form (.recvv h ep mt p len v b) [.v v] 8 (n ≤ 256) (fun y => [(.v v, BitVec.ofNat 2048 (natOfBytes y))]) ∧
    (Ready s h [] (wordDst b ++ pDst p) false →
      let i := Instr.offer h ep lbl p b
      let o := exec i s
      Strained s h ep 3 (wd (closedWord x) false) o ∧
      (OwnOpen s ep →
        ((epImg s ep).labEdge x.q .offer lbl.toNat = none → Faults s 0x0A 0 (refusedAux s ep 6) o) ∧
        ∀ t, (epImg s ep).labEdge x.q .offer lbl.toNat = some t →
          (x.inbox = [] → ChWaits s h i o) ∧
          (∀ m l', x.inbox = m :: l' → m ≠ .label lbl.toNat → Results s h [] 3 (wd (declinedWord m) false) o) ∧
          ∀ l', x.inbox = .label lbl.toNat :: l' → ResultsIn s h (askDeposit (finishHead s e t.next) e s.now) [] 3 (wd (BitVec.ofNat 64 (2 ^ 16 + lbl.toNat)) true) o)) ∧
    ∀ q, (epAt (finishHead s e q) e).q = q ∧ (epAt (finishHead s e q) e).inbox = x.inbox.tail ∧ (epAt (finishHead s e q) e).cursor = 0

/-- R181 to R187: CH.DELEG sends the delegation of an endpoint that forwards from then on, and while it waits for its carrier keeps what
lands there; CH.ADOPT takes one up at an idle endpoint;
CH.CLOSE closes only in a state with a close edge, and releases an endpoint that is not open; CH.ABORT leaves the endpoint aborted in the
nearest recovery state. -/
def Obligations.DelegationAndClosingForms : Prop :=
  ∀ (s : State) (h : Hdr) (ep : EIx) (rel : Bool) (p : BitVec 3) (ex : BitVec 7) (d : SIx),
    let c := me s
    let e := ownEp s.cur ep
    let x := epAt s e
    let other : EpRef := ⟨s.cur.pkg, s.cur.tile, ex.toNat⟩
    let z := epAt s other
    (Ready s h [] [] false →
      (∀ i ∈ [Instr.chClose h ep, .chAbort h ep], ownsEp s s.cur c.uid ep.toNat = false → Faults s 0x0D 0 (BitVec.ofNat 64 ep.toNat) (exec i s)) ∧
      (ownsEp s s.cur c.uid ep.toNat = true →
        let closes := ∃ t ∈ (epImg s ep).edges x.q, t.act = .close
        (x.st = .opened → ¬ closes → Faults s 0x0A 0 (refusedAux s ep 6) (exec (.chClose h ep) s)) ∧
        ((x.st = .opened ∧ closes) ∨ (x.st ≠ .opened ∧ x.st ≠ .idle) → DoneIn s h (idleEp s e) (exec (.chClose h ep) s) ∧
          (epAt (idleEp s e) e).st = .idle ∧ (epAt (idleEp s e) e).owner = x.owner ∧ (epAt (idleEp s e) e).gran = none) ∧
        (x.st = .idle → UnitOnly s h c (exec (.chClose h ep) s)) ∧
        DoneIn s h (abortEp s e 0x0C) (exec (.chAbort h ep) s) ∧
        ((x.st = .opened ∨ x.st = .peerClosed) → (epAt (abortEp s e 0x0C) e).st = .aborted ∧
          (epAt (abortEp s e 0x0C) e).q = nearestRec (epImg s ep) x.q ∧ (epAt (abortEp s e 0x0C) e).cause = 0x0C))) ∧
    (Ready s h [] (pDst p) false → z.leaving = false →
      let i := Instr.chDeleg h ep rel p ex
      let o := exec i s
      Strained s h ep 3 (pRes p false) o ∧
      (OwnOpen s ep → ∀ k, delegBar s s.cur c ep ex.toNat = some k → Faults s 0x03 0 (BitVec.ofNat 64 (ep.toNat + k * 2 ^ 8)) o) ∧
      (OpenEp s ep → delegBar s s.cur c ep ex.toNat = none →
        ((epImg s ep).edge x.q .delegOut 63 = none → Faults s 0x0A 0 (refusedAux s ep 6) o) ∧
        ∀ t, (epImg s ep).edge x.q .delegOut 63 = some t →
          (x.pkt ≠ none → Faults s 0x0A 0 (refusedAux s ep 7) o) ∧
          let waits := fun (lim : Nat) => Parks s h (waitBy s i s.no .cond lim 0 0 [])
            (modEp { s with no := s.no + 1 } other fun z => { z with leaving := true }) o
          (x.pkt = none → windowShut s e = true → waits 5) ∧
          (x.pkt = none → windowShut s e = false → rel = true → releaseOk s s.cur c.uid .dom s.cur.node = false → waits 0) ∧
          (x.pkt = none → windowShut s e = false → rel = false ∨ releaseOk s s.cur c.uid .dom s.cur.node = true → ∃ u,
            ResultsIn s h u [] 3 (pRes p true) o ∧ u.mem = s.mem ∧ (epAt u other).st = .forwarding ∧ (epAt u other).owner = none ∧
            (epAt u e).q = t.next ∧ (epAt u e).txSeq = x.txSeq + 1))) ∧
    (Ready s h [] ([.s d] ++ pDst p) false →
      let i := Instr.chAdopt h ep p ex d
      let o := exec i s
      let wd := fun (w : Word) (ok : Bool) => [(Reg.s d, sval w)] ++ pRes p ok
      let may := ownsEp s s.cur c.uid ex.toNat = true ∧ z.st = .idle ∧ ex ≠ ep ∧ z.reg = none
      Strained s h ep 3 (wd (closedWord x) false) o ∧
      (OwnOpen s ep → ¬ may → Faults s 0x03 0 (refusedAux s ep 4) o) ∧
      (OwnOpen s ep → may →
        ((epImg s ep).edge x.q .delegIn 63 = none → Faults s 0x0A 0 (refusedAux s ep 6) o) ∧
        ∀ t, (epImg s ep).edge x.q .delegIn 63 = some t →
          (x.inbox = [] → ChWaits s h i o) ∧
          (∀ m l', x.inbox = m :: l' → (∀ a1 a2 a3 a4 a5 a6 a7 a8, m ≠ .deleg a1 a2 a3 a4 a5 a6 a7 a8) → Results s h [] 3 (wd (declinedWord m) false) o) ∧
          ∀ dg q peer old pg tx rx un l', x.inbox = .deleg dg q peer old pg tx rx un :: l' →
            (imageByDigest s s.cur c dg = none → Faults s 0x0B 0 dg o) ∧
            ∀ j, imageByDigest s s.cur c dg = some j →
              (carve (here s) (imageOf s s.cur.node j).bufBytes = none → Faults s 0x0E 0 0 o) ∧
              ∀ g, carve (here s) (imageOf s s.cur.node j).bufBytes = some g →
                ResultsIn s h (adoptAt (askDeposit (finishHead s e t.next) e s.now) other j g q peer old pg tx rx un) [] 3
                  (wd (BitVec.ofNat 64 (2 ^ 16 + (j * 2 ^ 8 + q))) true) o))

/-- R121, R171 to R173, R180, R184 and R186 to R189: what a flit of each kind does where it lands, stated for an endpoint at which it is in
its turn, a register being bound there or not; one that fits no conversation changes no endpoint and is counted; and the
deposit of a message into its bound register, which is empty, no earlier than the end of the cycle after the last read. -/
def Obligations.ChannelFlitsLand : Prop :=
  ∀ (s : State) (f : ChFlit),
    let e := f.dst
    let x := epAt s e
    let leaves := fun (ev : ChFlit → Instr) (y : Endpoint) => ∃ t, exec (ev f) s = .next t ∧ epAt t e = y ∧ t.mem = s.mem
    let next : Endpoint := { x with rxSeq := x.rxSeq + 1 }
    (FlitInTurn s f →
      (∀ mt b, f.body = .data mt b true →
        leaves .channelFlitLand { next with inbox := x.inbox ++ [.data mt ((x.part.map (·.2)).getD [] ++ b)], part := none }) ∧
      (∀ mt b, f.body = .data mt b false → leaves .channelFlitLand { next with part := some (mt, (x.part.map (·.2)).getD [] ++ b) }) ∧
      (∀ k, f.body = .label k → leaves .channelFlitLand { next with inbox := x.inbox ++ [.label k], part := none }) ∧
      (f.body = .discard → leaves .discardMarkerLand { next with part := none }) ∧
      (∀ z g, f.body = .redirect z g → ∃ t, exec (.redirectLand f) s = .next t ∧ t.mem = s.mem ∧
        { epAt t e with coupler := x.coupler } = { next with peer := z, peerGen := g, parties := x.peer.node :: x.parties }) ∧
      (f.body = .credit → leaves .creditLand { x with unread := x.unread - 1 }) ∧
      ∀ q k, f.body = .close q k → ∃ t, exec (.closeNoticeLand f) s = .next t ∧ (epAt t e).st = .peerClosed ∧ (epAt t e).pstate = q ∧
        (epAt t e).cause = k ∧ (epAt t e).inbox = []) ∧
    (flitFits x f = true → x.st = .forwarding → x.early = [] → (∀ q ∈ (tileAt s f.src).copy, chMark f ∉ q.marks) →
      (f.body = .ack → ∃ t, exec (.acknowledgementLand f) s = .next t ∧ (epAt t e).st = .free ∧ (epAt t e).gen = (x.gen + 1) % 256) ∧
      (∀ z g, f.body = .adopted z g → leaves .adoptionNoticeLand { x with fwd := some (z, g), early := [] }) ∧
      (f.body = .abort → ∃ t, exec (.delegationAbortLand f) s = .next t ∧ (epAt t e).st = .free ∧ (epAt t e).gen = (x.gen + 1) % 256)) ∧
    (flitFits x f = false → (∀ q ∈ (tileAt s f.src).copy, chMark f ∉ q.marks) → isService e = false →
      ∀ ev ∈ [Instr.channelFlitLand, .creditLand, .closeNoticeLand, .discardMarkerLand, .redirectLand, .acknowledgementLand, .adoptionNoticeLand,
        .delegationAbortLand], ∃ t, exec (ev f) s = .next t ∧ (tileAt t e.node).stale = (tileAt s e.node).stale + 1 ∧ ∀ y, epAt t y = epAt s y) ∧
    ((x.reg = none ∨ x.deposited = true) → exec (.registerDeposit e) s = .next s) ∧
    ∀ (r : SlotRef) (g : Reg) (mt : Nat) (b : List Byte) (l : List ChMsg) (t : Trans), r.node = e.node → (slotAt s r).ph = .bound →
      x.st = .opened → x.reg = some g → x.owner = some (r.slot, (ctxAt s r).uid) → x.inbox = .data mt b :: l → x.deposited = false →
      x.noDep ≤ s.now → isAway s r (ctxAt s r).uid = false → (imageOf s e.node x.img).edge x.q .recv mt = some t → presOf (ctxAt s r) g = .empty → realReg g = true →
      ∃ u, exec (.registerDeposit e) s = .next u ∧ presOf (ctxAt u r) g = .full ∧ (ctxAt u r).wake = true ∧
        ctxAt u r = { setPres (setVal (ctxAt s r) g (BitVec.ofNat 2048 (natOfBytes (b.take (match g with | .v _ => 256 | _ => 8))))) g .full with
          wake := true, park := (ctxAt u r).park, readyFrom := (ctxAt u r).readyFrom } ∧
        epAt u e = { x with deposited := true } ∧ u.mem = s.mem

/-! ### Turns, scratchpad and synchronisation (chapters 08 and 09) -/

/-- R199 and R200: TURN.SET checks its operands as it issues and parks to the round boundary; TURN.GET reads the ownership of a slot, or the
turns that a slot of the job has issued and lost.
R193, R194 and R197: a round boundary keeps every turn with at most one owner, and every bound slot the owner of its home turn; in a held
round it changes nothing. -/
def Obligations.TurnFormsAndBoundary : Prop :=
  (∀ (s : State) (h : Hdr) (a b x d : SIx),
     let c := me s
     let y := rs c x
     (Ready s h [.s a, .s b, .s x] [] false →
       let ok := (rs c a).toNat ≤ 15 ∧ (rs c b).toNat < 2 ^ 16 ∧ y &&& 0x1F1F = y ∧
         (y = 0 ∨ (1 ≤ limMin y ∧ limMin y ≤ limMax y ∧ limMax y ≤ 16))
       let i := Instr.turnSet h a b x
       (¬ ok → Faults s 0x03 0 (BitVec.ofNat 64 ((rs c a).toNat % 16)) (exec i s)) ∧
       (ok → Parks s h (waitBy s i s.no .turnSet 0 0 0 [rs c a, rs c b, y]) { s with no := s.no + 1 } (exec i s))) ∧
     (Ready s h [.s a] [.s d] false →
       let k := (rs c a).toNat
       let l := slotAt s ⟨s.cur.pkg, s.cur.tile, k⟩
       let mine := l.ph ≠ .free ∧ l.ctx.d.job = c.d.job
       (15 < k → ∀ w, Faults s 0x03 0 0 (exec (.turnGet h w d a) s)) ∧
       (k ≤ 15 → ∀ v w, (w = .own ∧ v = (poolOf (here s)).toNat * 2 ^ 48 + l.maxT * 2 ^ 40 + (if l.heldBy.isSome then 0 else l.minT) * 2 ^ 32 +
           l.base.toNat * 2 ^ 16 + l.owned.toNat) ∨ (w = .issued ∧ mine ∧ v = l.ctx.issued) ∨ (w = .lost ∧ mine ∧ v = l.ctx.lost) ∨
           (w ≠ .own ∧ ¬ mine ∧ v = 0) →
         Results s h [.s a] 3 [(.s d, BitVec.ofNat 2048 v)] (exec (.turnGet h w d a) s)))) ∧
  (∀ (s : State) (n : Node),
     (isHeld s n = true → exec (.roundBoundary n) s = .next s) ∧
     (TurnsOk (tileAt s n) → ∃ t, exec (.roundBoundary n) s = .next t ∧ TurnsOk (tileAt t n)))

/-- R201 and R206 to R209: the forms on couplers. One on a coupler that the unit does not hold faults with its number; RC.CONF refuses a word by the
item of R207; RC.BIND reserves a coupler and asks the producer's tile, or writes all ones where there is none.
R202 to R205 and R209: a sample of a running coupler, whose output acts on the holder's slot and, negated, on the producer's; the remote
entry that takes it; and the answer of the producer's tile to RC.BIND. -/
def Obligations.CouplerFormsAndSamples : Prop :=
  (∀ (s : State) (h : Hdr) (n : BitVec 4) (m : BitVec 5) (ep : BitVec 7) (a d : SIx) (w : RcW),
     let c := me s
     let N := s.cur.node
     let k := couplerAt s N n.toNat
     let held := k.holder = some (s.cur.slot, c.uid) ∧ k.st ≠ .reserved
     let notHeld := fun (o : Outc) => ¬ held → Faults s 0x03 0 (BitVec.ofNat 64 n.toNat) o
     (Ready s h [.s a] [] false →
       let o := exec (.rcConf h n a) s
       let cap := streamCap (imageOf s N (epAt s ⟨s.cur.pkg, s.cur.tile, k.ep⟩).img)
       notHeld o ∧ (held → k.st = .detached → Faults s 0x03 0 0 o) ∧
       (held → k.st ≠ .detached → ∀ b, confBad (rs c a) cap = some b → Faults s 0x1E 0 (BitVec.ofNat 64 b) o) ∧
       (held → k.st ≠ .detached → confBad (rs c a) cap = none → ∃ u, DoneIn s h u o ∧ u.mem = s.mem ∧
         let k' := couplerAt u N n.toNat
         k'.conf = rs c a ∧ k'.st = .running ∧ (k.st = .bound → k'.acc = 0 ∧ k'.eprev = 0) ∧
         (k.st ≠ .bound → k'.eprev = k.eprev ∧ k'.acc = clampInt (-(16 * (Coupler.umax { conf := rs c a } : Int))) (16 * (Coupler.umax { conf := rs c a } : Int)) k.acc) ∧
         ∃ e ∈ u.agenda, e.ev = .couplerSample N n.toNat ∧ e.at_ = nextSample s N (Coupler.period { conf := rs c a }))) ∧
     (Ready s h [] [.s d] false →
       (notHeld (exec (.rcRead h n w d) s) ∧
        (held → Results s h [] 3 [(.s d, BitVec.ofNat 2048 (rcWord k w))] (exec (.rcRead h n w d) s))) ∧
       let e := ownEp s.cur ep
       let x := epAt s e
       let I := imageOf s N x.img
       let i := Instr.rcBind h m ep d
       let o := exec i s
       let free := fun j => (couplerAt s N j).st = .free
       (16 < m.toNat → Faults s 0x03 0 0 o) ∧
       (m.toNat ≤ 16 → ownsEp s s.cur c.uid ep.toNat = false → Faults s 0x0D 0 (BitVec.ofNat 64 ep.toNat) o) ∧
       (m.toNat ≤ 16 → ownsEp s s.cur c.uid ep.toNat = true →
         let good := x.st = .opened ∧ I.window ≠ 0 ∧ I.laRecv = I.window ∧ x.coupler = none
         (¬ good → Faults s 0x03 0 0 o) ∧
         (good → ((m.toNat = 16 ∧ ∀ j < 16, ¬ free j) ∨ (m.toNat < 16 ∧ ¬ free m.toNat)) →
           Results s h [] 3 [(.s d, sval (BitVec.allOnes 64))] o) ∧
         ∀ j < 16, good → free j → (m.toNat = j ∨ (m.toNat = 16 ∧ ∀ j' < j, ¬ free j')) →
           let u := modEp (modCoupler s N j fun _ => { st := .reserved, holder := some (s.cur.slot, c.uid), ep := ep.toNat }) e fun x => { x with coupler := some j }
           Parks s h (waitBy s i s.no .reply 0 0 0 []) (svcAsked u (svcOf s x.peer.node none (.rcBind x.peer j)) .rcBindRequest) o)) ∧
     (Ready s h [] [] false →
       let o := exec (.rcFree h n) s
       notHeld o ∧ (held → ∃ u, DoneIn s h u o ∧ couplerAt u N n.toNat = {} ∧ u.mem = s.mem ∧
         (k.st ≠ .free → (k.producer.node = N → ∀ m ∈ (tileAt u N).remotes, m.owner ≠ ⟨N.pkg, N.id, n.toNat⟩))))) ∧
  ((∀ (s : State) (n : Node) (i : Nat),
     let c := couplerAt s n i
     let x := epAt s ⟨n.pkg, n.id, c.ep⟩
     let d := sampleOnce (imageOf s n x.img) x c
     (c.st ≠ .running → exec (.couplerSample n i) s = .next s) ∧
     (c.st = .running → sampleDue s n c.period = true → couplerAway s n c = false → ∃ t, exec (.couplerSample n i) s = .next t ∧
       couplerAt t n i = { d with sent := d.u } ∧ t.mem = s.mem ∧
       (∃ e ∈ t.agenda, e.ev = .couplerSample n i ∧ e.at_ = nextSample s n c.period) ∧
       ∀ l u, c.holder = some (l, u) → l < 16 → d.u ≠ 0 → ((⟨n.pkg, n.id, i⟩ : EpRef), d.u) ∈ (slotAt t ⟨n.pkg, n.id, l⟩).terms)) ∧
   (∀ (s : State) (n : Node) (owner : EpRef) (u : Option Int),
     (∀ m, (tileAt s n).remotes.find? (fun m => m.owner = owner) = some m → m.slot < 16 → ∃ t, exec (.couplerControlFlitLand n owner u) s = .next t ∧
       (tileAt t n).remotes = (if u = none then (tileAt s n).remotes.erase m else (tileAt s n).remotes) ∧
       (slotAt t ⟨n.pkg, n.id, m.slot⟩).terms = (if u.getD 0 = 0 then [] else [(prodKey owner, -(u.getD 0))]) ++
         (slotAt s ⟨n.pkg, n.id, m.slot⟩).terms.filter fun x => x.1 ≠ prodKey owner) ∧
     ((tileAt s n).remotes.find? (fun m => m.owner = owner) = none → exec (.couplerControlFlitLand n owner u) s = .next s)) ∧
   ∀ (s : State) (q : SvcReq) (peer : EpRef) (i : Nat), q.kind = .rcBind peer i →
     let N := q.who.slot.node
     let answers := fun (f : State → State) (v : Word) => Serves s q 1 16 .rcBindRequest f ⟨v, true, 0, 0, 0⟩ (exec (.rcBindRequest q) s)
     let mine := (couplerAt s N i).holder = some (q.who.slot.slot, q.who.uid)
     ((¬ mine ∨ (epAt s peer).owner = none) → answers id 1) ∧
     ∀ l u, mine → (epAt s peer).owner = some (l, u) →
       (16 ≤ (tileAt s peer.node).remotes.length → answers id 2) ∧
       ((tileAt s peer.node).remotes.length < 16 → answers (fun v =>
         modCoupler (modTile v peer.node fun t => { t with remotes := t.remotes ++ [⟨⟨N.pkg, N.id, i⟩, l, u⟩] }) N i
           fun k => { k with producer := ⟨peer.pkg, peer.tile, l⟩, producerUid := u }) 0))

/-- R211, R214, R218 and R219: LD, ST, LDV, STV and ST.RESET. A local access reads or stores the bytes at its offset, and no other; one to another
tile's scratchpad sends its request and waits; addresses that a form does not accept fault. A store waits until what it releases is
performed. -/
def Obligations.ScratchpadAccessForms : Prop :=
  ∀ (s : State) (h : Hdr) (sz : Sz) (sc : Scope) (od : Ord) (sx : Bool) (d a b : SIx) (v : VIx) (ofs : BitVec 32),
    let c := me s
    let ea := rs c a + ofs.signExtend 64
    let n := sz.bytes
    let wide := if Ord.rel_ od then sc else .slot
    let relOk := fun (sc : Scope) (at_ : Node) => releaseOk s s.cur c.uid sc at_
    (sz.isScalar = true → Ready s h [.s a] [.s d] true →
      let i := Instr.ld h sz sc od sx d a ofs
      PadRefuses s ea n n true (exec i s) ∧
      (∀ off, PadAt s ea n n true off → Results s h [.s a] 6
        [(.s d, sval (extendTo n sx (overlay true (heldOf c) off ((List.range n).map fun k => cellGet (here s).sp (off + k)))))] (exec i s)) ∧
      (PadAway s ea n n → AsksPad s h i ea .ld false (exec i s))) ∧
    (sz.isScalar = true → Ready s h [.s a, .s b] [] true → c.region = none →
      let i := Instr.st h sz sc od a b ofs
      PadRefuses s ea n n true (exec i s) ∧
      (∀ off, PadAt s ea n n true off →
        (relOk wide s.cur.node = true → StoresPad s h off (bytesOfNat n (rs c b).toNat) (exec i s)) ∧
        (relOk wide s.cur.node = false → RelWaits s h i (exec i s))) ∧
      (PadAway s ea n n →
        (relOk wide s.cur.node = true → AsksPad s h i ea (.st (rs c b)) false (exec i s)) ∧
        (relOk wide s.cur.node = false → RelWaits s h i (exec i s)))) ∧
    (Ready s h [.s a] [.v v] false →
      let i := Instr.ldv h sc od v a ofs
      PadRefuses s ea 256 8 false (exec i s) ∧
      ∀ off, PadAt s ea 256 8 false off → Results s h [.s a] 8
        [(.v v, BitVec.ofNat 2048 (natOfBytes ((List.range 256).map fun k => cellGet (here s).sp (off + k))))] (exec i s)) ∧
    (Ready s h [.s a, .v v] [] false →
      let i := Instr.stv h sc od a v ofs
      PadRefuses s ea 256 8 false (exec i s) ∧
      ∀ off, PadAt s ea 256 8 false off →
        (relOk wide s.cur.node = true → StoresPad s h off (bytesOfNat 256 (rv c v).toNat) (exec i s)) ∧
        (relOk wide s.cur.node = false → RelWaits s h i (exec i s))) ∧
    (Ready s h [.s a, .s b] [] false →
      let i := Instr.stReset h sc od a b ofs
      let rel := relOk (atLeastTile sc) (padHome s.cur ea)
      PadRefuses s ea 8 8 true (exec i s) ∧
      (∀ off, PadAt s ea 8 8 true off → rel = true → ∃ u, DoneIn s h u (exec i s) ∧
        Stored (here s).sp (tileAt u s.cur.node).sp off (bytesOfNat 8 (rs c b).toNat) ∧ u.mem = s.mem ∧
        (∀ w, w ∈ (tileAt u s.cur.node).spEmpty ↔ (w = off / 8 ∨ w ∈ (here s).spEmpty)) ∧
        ∃ e ∈ u.agenda, e.at_ = max s.now (here s).servedAt ∧ e.ev = .scratchpadCycleService s.cur.node none) ∧
      (∀ off, PadAt s ea 8 8 true off → rel = false → RelWaits s h i (exec i s)) ∧
      (PadAway s ea 8 8 → rel = true → AsksPad s h i ea (.stReset (rs c b)) false (exec i s)))

/-- R219 to R221: LD.SYNC goes on where its word is full, and empties it if it consumes; ST.FILL goes on where the word is empty, or
overwrites; else they wait in the word's list, counted by WAITLIM. LDV.SYNC waits to be examined at the end of the cycle. Stated for units of
which no log is kept.
R215, R221 and R223: the service of a tile takes a request of its tenant at the end of the cycle it landed in, and serves a waiting form whose
word allows it; replies of remote accesses, busy ones among them, and answers to withdrawals land. Stated for requests that are not
recorded. -/
def Obligations.SynchronisingFormsAndService : Prop :=
  (∀ (s : State) (h : Hdr) (sc : Scope) (od : Ord) (cons ovr : Bool) (d a b : SIx) (v : VIx) (ofs : BitVec 32), Unrecorded s →
     let c := me s
     let ea := rs c a + ofs.signExtend 64
     let n := s.cur.node
     (Ready s h [.s a] [.s d] false →
       let i := Instr.ldSync h sc od cons d a ofs
       PadRefuses s ea 8 8 true (exec i s) ∧
       (∀ off, PadAt s ea 8 8 true off →
         (padFull (here s) off = true →
           ResultsIn s h (counted (modTile { s with no := s.no + 1 } n fun T => if cons then { T with spEmpty := insAsc (off / 8) T.spEmpty } else T)) [.s a] 6
             [(.s d, sval (padWord (here s) off))] (exec i s)) ∧
         (padFull (here s) off = false → Parks s h (waitBy s i s.no .sync 1 0 ea []) (padWaits s off (.ldSync cons)) (exec i s))) ∧
       (PadAway s ea 8 8 → AsksPad s h i ea (.ldSync cons) true (exec i s))) ∧
     (Ready s h [.s a, .s b] [] false →
       let i := Instr.stFill h sc od ovr a b ofs
       let rel := releaseOk s s.cur c.uid (atLeastTile sc) (padHome s.cur ea)
       PadRefuses s ea 8 8 true (exec i s) ∧
       (∀ off, PadAt s ea 8 8 true off → rel = false → RelWaits s h i (exec i s)) ∧
       (∀ off, PadAt s ea 8 8 true off → rel = true →
         ((padFull (here s) off = false ∨ ovr = true) →
           ResultsIn s h (counted (modTile { s with no := s.no + 1 } n fun T =>
             { T with sp := cellsWrite T.sp off (bytesOfNat 8 (rs c b).toNat), spEmpty := T.spEmpty.filter fun w => w ≠ off / 8 })) [] 6 [] (exec i s)) ∧
         (padFull (here s) off = true → ovr = false →
           Parks s h (waitBy s i s.no .sync 1 0 ea []) (padWaits s off (.stFill ovr (rs c b))) (exec i s))) ∧
       (PadAway s ea 8 8 → rel = true → AsksPad s h i ea (.stFill ovr (rs c b)) true (exec i s))) ∧
     (Ready s h [.s a] [.v v] false →
       let i := Instr.ldvSync h sc od cons v a ofs
       PadRefuses s ea 256 8 false (exec i s) ∧
       ∀ off, PadAt s ea 256 8 false off → Parks s h (waitBy s i s.no .sync 1 0 ea []) (askServe { s with no := s.no + 1 } n) (exec i s))) ∧
  ((∀ (s : State) (n : Node) (x : SpReq × Bool), ∃ t, exec (.scratchpadCycleService n (some x)) s = .next t ∧
     (tileAt t n).spIn = (tileAt s n).spIn ++ [x] ∧ (tileAt t n).sp = (tileAt s n).sp ∧
     ∃ e ∈ t.agenda, e.at_ = max s.now (tileAt s n).servedAt ∧ e.ev = .scratchpadCycleService n none) ∧
   (∀ (s : State) (n : Node),
     let T := tileAt s n
     T.semAdds = [] → semWaiters T = [] → ldvWaits T = false → T.errs = [] → isHeld s n = false →
     (∀ q : SpReq, T.waiters = [] → T.spIn = [(q, false)] → q.home = n → q.recSeq = none → padOk T q.off 8 = true → ∃ t,
       exec (.scratchpadCycleService n none) s = .next t ∧ (tileAt t n).spIn = [] ∧
       (T.tenant ≠ some q.job → (tileAt t n).sp = T.sp ∧ (tileAt t n).spEmpty = T.spEmpty ∧ (tileAt t n).waiters = []) ∧
       (T.tenant = some q.job → spWaits T q = true → (tileAt t n).sp = T.sp ∧ (tileAt t n).spEmpty = T.spEmpty ∧ (tileAt t n).waiters = [⟨q, false⟩]) ∧
       (T.tenant = some q.job → spWaits T q = false → (tileAt t n).sp = (spDo T q).1.sp ∧ (tileAt t n).spEmpty = (spDo T q).1.spEmpty ∧
         (tileAt t n).waiters = [])) ∧
     ∀ (q : SpReq) (p : Park) (h : Hdr) (sc : Scope) (od : Ord) (cons : Bool) (d a : SIx) (ofs : BitVec 32), T.waiters = [⟨q, true⟩] → T.spIn = [] →
       q.home = n → q.who.slot.node = n → q.recSeq = none → q.op = .ldSync cons → Waits s q.who p → p.form = .ldSync h sc od cons d a ofs →
       padFull T q.off = true → ∃ t, exec (.scratchpadCycleService n none) s = .next t ∧ (tileAt t n).waiters = [] ∧ (tileAt t n).sp = T.sp ∧
         (cons = true → q.off / 8 ∈ (tileAt t n).spEmpty) ∧ (ctxAt t q.who.slot).pc = (ctxAt s q.who.slot).pc + 12 ∧
         (ctxAt t q.who.slot).park = none ∧ (ctxAt t q.who.slot).readyFrom = s.now + 2 ∧
         (d ≠ 0 → presOf (ctxAt t q.who.slot) (.s d) = .pending ∧
           ∃ e ∈ t.agenda, e.ev = .resultLanding q.who.slot q.who.uid (.s d) (sval (padWord T q.off)))) ∧
   ∀ (s : State) (q : SpReq) (p : Park), Waits s q.who p →
     (∀ h sc od cons d a ofs x, p.form = .ldSync h sc od cons d a ofs → d ≠ 0 → q.recSeq = none → (∀ e v, q.op ≠ .cas e v) → q.op ≠ .ld → ∃ t,
       exec (.remoteReplyLand q (.done x)) s = .next t ∧ Finishes s q.who (ctxAt s q.who.slot) (fun c => putReg c (.s d) (sval x)) t) ∧
     ((∀ h cc, p.form ≠ .rgnCommit h cc) → ∀ f, exec (.remoteReplyLand q (.refused f)) s =
       .next (takeFault s q.who.slot q.who.uid f p.va (if f = 0x1A then 2 else 0))) ∧
     (p.kind ≠ .withdraw → ∃ t, exec (.remoteReplyLand q .busy) s = .next t ∧ OnlySlot q.who.slot s t ∧
       ctxAt t q.who.slot = { ctxAt s q.who.slot with park := some { p with aux := [1] } } ∧
       ∃ e ∈ t.agenda, e.at_ = dueIn s q.who.slot.node 64 ∧ e.ev = .remoteBusyResend q) ∧
     (∃ t, exec (.remoteBusyResend q) s = .next t ∧ t.mem = s.mem ∧
       ctxAt t q.who.slot = { ctxAt s q.who.slot with park := some { p with aux := [] } }) ∧
     exec (.remoteWithdrawalAnswer q.who true) s = .next (takeFault s q.who.slot q.who.uid 0x05 p.va (limitAux p)) ∧
     exec (.remoteWithdrawalAnswer q.who false) s = .next s)

/-- R224 to R226: the semaphore forms. An operand with a bit above 31 faults; additions saturate and set the overflow bit; a wait whose threshold is
reached completes, and takes it if it decrements; else it waits, under WAITLIM or its own limit, at whose end it writes false. -/
def Obligations.SemaphoreForms : Prop :=
  (∀ (s : State) (h : Hdr) (n : BitVec 8) (dec : Bool) (a b d : SIx) (p : PIx),
    let c := me s
    let N := s.cur.node
    let k := n.toNat
    let x := semAt (here s) k
    let v := (rs c a).toNat
    let taken := modTile s N fun T => if dec then setSem T k { x with val := x.val - v } else T
    (Ready s h [] [.s d] false → Results s h [] 3 [(.s d, BitVec.ofNat 2048 (x.val + if x.ovf then 2 ^ 32 else 0))] (exec (.semRead h n d) s)) ∧
    (Ready s h [.s a] [] false →
      (2 ^ 32 ≤ v → ∀ i ∈ [Instr.semSig h n a, .semSet h n a, .semWait h n dec a], Faults s 0x03 0 0 (exec i s)) ∧
      (v < 2 ^ 32 →
        let rel := releaseOk s s.cur c.uid .tile N
        (rel = false → RelWaits s h (.semSig h n a) (exec (.semSig h n a) s) ∧ RelWaits s h (.semSet h n a) (exec (.semSet h n a) s)) ∧
        (rel = true →
          DoneIn s h (askServe (modTile s N fun T => setSem T k ⟨min (2 ^ 32 - 1) (x.val + v), x.ovf || decide (2 ^ 32 - 1 < x.val + v)⟩) N) (exec (.semSig h n a) s) ∧
          DoneIn s h (askServe (modTile s N fun T => setSem T k ⟨v, false⟩) N) (exec (.semSet h n a) s)) ∧
        (v ≤ x.val → ResultsIn s h taken [.s a] 3 [] (exec (.semWait h n dec a) s)) ∧
        (x.val < v → Parks s h (waitBy s (.semWait h n dec a) s.no (.sem k v dec none) 2 k 0 []) { s with no := s.no + 1 } (exec (.semWait h n dec a) s)))) ∧
    (Ready s h [.s a, .s b] [.p p] false →
      let i := Instr.semWaitTo h n dec p a b
      let lim := rs c b
      ((2 ^ 32 ≤ v ∨ 2 ^ 32 ≤ lim.toNat) → Faults s 0x03 0 0 (exec i s)) ∧
      (v < 2 ^ 32 → lim.toNat < 2 ^ 32 →
        (v ≤ x.val → ResultsIn s h taken [.s a, .s b] 3 [(.p p, pval true)] (exec i s)) ∧
        (x.val < v → lim = 0 → Results s h [.s a, .s b] 3 [(.p p, pval false)] (exec i s)) ∧
        (x.val < v → lim ≠ 0 → Parks s h (waitBy s i s.no (.sem k v dec (some p)) 0 0 0 [])
          (push { s with no := s.no + 1 } (dueIn s N lim.toNat) phLate (slotKey s.cur) (.semWaitTimeout ⟨s.cur, c.uid, s.no⟩)) (exec i s))))) ∧
  ∀ (s : State) (w : Who) (p : Park) (k th : Nat) (dec : Bool) (d : PIx), Waits s w p → p.kind = .sem k th dec (some d) →
    let s1 := land s w.slot w.uid (.p d) (pval false) (3 + semSlow p.form)
    ∃ t, exec (.semWaitTimeout w) s = .next t ∧ Finishes s1 w (ctxAt s1 w.slot) id t

/-- R227 to R230: the barrier forms, and the tokens and releases that land. An arrival is counted once what it releases is performed and is
remembered by its unit until its episode is released; a release ends the episode and frees the slots that wait for it. -/
def Obligations.BarrierFormsAndFlits : Prop :=
  (∀ (s : State) (h : Hdr) (n : BitVec 7) (a b : SIx),
    let c := me s
    let N := s.cur.node
    let k := n.toNat
    let x := barAt s N k
    (Ready s h [.s a, .s b] [] false →
      let v := (rs c a).toNat
      let x0 := v % 256
      let y0 := v / 2 ^ 8 % 256
      let w := v / 2 ^ 16 % 256
      let ht := v / 2 ^ 24 % 256
      let bad := 96 ≤ k ∨ x.armed = true ∨ isCompute s.cur.tile = false ∨ w = 0 ∨ ht = 0 ∨ 64 < x0 + w ∨ 32 < y0 + ht ∨
        ¬ (x0 ≤ tileX s.cur.tile ∧ tileX s.cur.tile < x0 + w ∧ y0 ≤ tileY s.cur.tile ∧ tileY s.cur.tile < y0 + ht) ∨ 2 ^ 32 ≤ v ∨ 16 < (rs c b).toNat
      (bad → Faults s 0x03 0 0 (exec (.barArm h n a b) s)) ∧
      (¬ bad → DoneIn s h (barServe (modBar s N k fun x => { x with
        armed := true, x0 := x0, y0 := y0, w := w, h := ht, k := (rs c b).toNat, g := 0, arr0 := 0, arr1 := 0, sentRow := false, sentCol := false }) N k)
        (exec (.barArm h n a b) s))) ∧
    (Ready s h [] [] false →
      let arrive := Instr.barArrive h n
      let sync := Instr.barSync h n
      let wait := Instr.barWait h n
      let disarm := Instr.barDisarm h n
      let bad := 96 ≤ k ∨ x.armed = false ∨ x.k = 0
      let rel := releaseOk s s.cur c.uid .pkg N
      let room := x.arr0 < x.k ∨ x.arr1 < x.k
      let ep := if x.arr0 < x.k then x.g else x.g + 1
      let u := barServe (modCtx (modBar s N k fun x => if x.arr0 < x.k then { x with arr0 := x.arr0 + 1 } else { x with arr1 := x.arr1 + 1 }) s.cur
        fun c => { c with arrivals := (k, ep) :: c.arrivals.filter fun a => a.1 ≠ k }) N k
      (bad → Faults s 0x03 0 0 (exec arrive s) ∧ Faults s 0x03 0 0 (exec sync s)) ∧
      (¬ bad → (rel = false ∨ ¬ room) →
        Parks s h (waitBy s arrive s.no .cond 3 k 0 []) { s with no := s.no + 1 } (exec arrive s) ∧
        Parks s h (waitBy s sync s.no .cond 3 k 0 []) { s with no := s.no + 1 } (exec sync s)) ∧
      (¬ bad → rel = true → room → DoneIn s h u (exec arrive s) ∧
        ((ctxAt u s.cur).arrivals.find? (fun a => a.1 = k) = none → DoneIn s h u (exec sync s)) ∧
        ∀ e, (ctxAt u s.cur).arrivals.find? (fun a => a.1 = k) = some (k, e) →
          Parks s h (waitBy s sync u.no (.barrier k e) 3 k 0 []) { u with no := u.no + 1 } (exec sync s)) ∧
      (96 ≤ k → Faults s 0x03 0 0 (exec wait s) ∧ Faults s 0x03 0 0 (exec disarm s)) ∧
      (k < 96 → c.arrivals.find? (fun a => a.1 = k) = none → UnitOnly s h c (exec wait s)) ∧
      (∀ e, k < 96 → c.arrivals.find? (fun a => a.1 = k) = some (k, e) →
        Parks s h (waitBy s wait s.no (.barrier k e) 3 k 0 []) { s with no := s.no + 1 } (exec wait s)) ∧
      (let waits := ∃ y ∈ tileUnits (here s), ∃ p e, y.2.park = some p ∧ p.kind = .barrier k e
       k < 96 →
        ((x.arr0 + x.arr1 + x.row0 + x.row1 + x.col0 + x.col1 ≠ 0 ∨ waits) → Faults s 0x03 0 0 (exec disarm s)) ∧
        (x.arr0 + x.arr1 + x.row0 + x.row1 + x.col0 + x.col1 = 0 → ¬ waits →
          DoneIn s h (modTile s N fun t => { t with bars := aerase t.bars k }) (exec disarm s))))) ∧
  ∀ (s : State) (n : Node) (b : Nat) (job : Word),
    let x := barAt s n b
    (((tileAt s n).tenant ≠ some job) → exec (.barrierReleaseLand n b job) s = .next s ∧ ∀ row, exec (.barrierTokenLand n b row job) s = .next s) ∧
    ((tileAt s n).tenant = some job → x.armed = false →
      exec (.barrierReleaseLand n b job) s = .next s ∧
      (∃ t, exec (.barrierTokenLand n b true job) s = .next t ∧ barAt t n b = (if x.row0 = 0 then { x with row0 := 1 } else { x with row1 := 1 })) ∧
      ∃ t, exec (.barrierTokenLand n b false job) s = .next t ∧ barAt t n b = (if x.col0 = 0 then { x with col0 := 1 } else { x with col1 := 1 })) ∧
    ((tileAt s n).tenant = some job → x.armed = true → (∀ y ∈ tileUnits (tileAt s n), ∀ p, y.2.park = some p → p.limitDue = false) →
      ∃ t, exec (.barrierReleaseLand n b job) s = .next t ∧ x.g < (barAt t n b).g ∧ t.mem = s.mem ∧
        ∀ w p, w.slot.node = n → Waits s w p → p.kind = .barrier b x.g → (ctxAt t w.slot).park = none ∧ (ctxAt t w.slot).pc = (ctxAt s w.slot).pc + 12)

/-- R254 to R257 and R397: the heap forms ask the allocator of their tile; ALLOC of 0 bytes or more than 2^36 faults, FREE of 0 does nothing, and
HEAP.INFO.quota is for root units and supervisors. An allocator takes one request in a cycle and answers 48 cycles later; it forwards what is
for far memory, whose allocator answers through it; a block lies within its allocator's
range, aligned and clear of every other; a failed ALLOC.F faults and a failed ALLOC.Q completes with false. -/
def Obligations.HeapFormsAndAllocators : Prop :=
  (∀ (s : State) (h : Hdr) (n : BitVec 4) (p : BitVec 3) (d a : SIx) (w : HeapW),
    let c := me s
    let v := rs c a
    let P := if isCompute s.cur.tile then s.cur.node else svcN s.cur.pkg
    let asks := fun (i : Instr) (k : SvcKind) => AsksSvc s h i (svcOf s P none k) (.allocatorRequest P) 0 0 (exec i s)
    let alloc := fun (i : Instr) => ((v = 0 ∨ 2 ^ 36 < v.toNat) → Faults s 0x03 0 0 (exec i s)) ∧
      (v ≠ 0 → v.toNat ≤ 2 ^ 36 → asks i (.alloc n.toNat v))
    (Ready s h [.s a] [.s d] false → alloc (.allocF h n d a)) ∧ (Ready s h [.s a] ([.s d] ++ pDst p) false → alloc (.allocQ h n p d a)) ∧
    (Ready s h [] [.s d] false → asks (.heapInfo h n w d) (.heapInfo n.toNat w)) ∧
    (Ready s h [.s a] [] false →
      (v = 0 → UnitOnly s h c (exec (.free h n a) s)) ∧
      (v ≠ 0 → releaseOk s s.cur c.uid .dom s.cur.node = true → asks (.free h n a) (.free n.toNat v)) ∧
      (v ≠ 0 → releaseOk s s.cur c.uid .dom s.cur.node = false → RelWaits s h (.free h n a) (exec (.free h n a) s)) ∧
      ((c.d.root = true ∨ isSupervisor s s.cur c.d.job = true) → asks (.heapInfoQuota h n a) (.heapQuota n.toNat v)) ∧
      (c.d.root = false → isSupervisor s s.cur c.d.job = false → Faults s 0x03 0 0 (exec (.heapInfoQuota h n a) s)))) ∧
  (∀ (s : State) (N : Node) (q : SvcReq) (j : Job), jobAt s q.job = some j →
    let r := q.who.slot
    let sent := fun (u : State) (x : SvcReply) => sendAt u (u.now + 48) ⟨r, q.peer, r.node, 4, 1, [4, 6, slotKey r], some q.launch, true, .allocatorReplyLand q.who x⟩
    let back := fun (u : State) (x : SvcReply) => sendAt u (u.now + 48) ⟨r, N, q.peer, 4, 1, [4, 6, slotKey r, 1], some q.launch, true,
      .allocatorRequest q.peer { q with kind := .answered x, turn := false }⟩
    let answer := fun (u : State) (x : SvcReply) => if N = q.peer then sent u x else back u x
    let serves := fun (out : State → Outc → Prop) =>
      InTurn s q.turn (peerKey N 2) (slotKey r) (.allocatorRequest N { q with turn := true }) out (exec (.allocatorRequest N q) s)
    let tells := fun (f : State → State) (x : SvcReply) => serves fun u o => o = .next (answer (f u) x)
    let fails := fun (k why : Nat) => tells (fun u => modCount u q.job k fun y => { y with fails := y.fails + 1 })
      ⟨0, false, 0x14, 0, BitVec.ofNat 64 (k + 16 * why)⟩
    (∀ x, q.kind = .answered x → exec (.allocatorRequest N q) s = .next (sent s x)) ∧
    (∀ k w, q.kind = .heapInfo k w → tells id ⟨BitVec.ofNat 64 (heapWord (countOf j k) w), true, 0, 0, 0⟩) ∧
    (∀ k b, q.kind = .heapQuota k b → tells (fun u => modCount u q.job k fun y => { y with quota := b.toNat }) ⟨0, true, 0, 0, 0⟩) ∧
    (∀ k b, q.kind = .free k b →
      (holdersOf s q.job k b.toNat = [] → tells id ⟨0, false, 0x15, b, 0⟩) ∧
      ∀ n l, holdersOf s q.job k b.toNat = n :: l → serves fun _ o => ∃ t, o = .next (answer t ⟨0, true, 0, 0, 0⟩) ∧
        (heapOf (allocAt t n) q.job k).blks = (heapOf (allocAt s n) q.job k).blks.filter fun y => y.va ≠ b.toNat) ∧
    ∀ k size, q.kind = .alloc k size →
      (isCompute N.id = true → 2 ^ 20 < size.toNat → serves fun u o => o = .next (sendAt u u.now
        ⟨r, N, svcN N.pkg, 3, 1, [3, 6, slotKey r, 1], some q.launch, false, .allocatorRequest (svcN N.pkg) { q with turn := false }⟩)) ∧
      ((isCompute N.id = false ∨ size.toNat ≤ 2 ^ 20) →
        let sz := heapClass size.toNat
        let al := allocAt s N
        let rg := heapRange j N k
        let room := (countOf j k).used + sz ≤ (countOf j k).quota
        let place := pickPlace s al j (heapOf al q.job k) rg sz
        (¬ room → fails k 1) ∧ (room → place = none → fails k 2) ∧
        ∀ va, room → place = some va →
          (va % heapAlign sz = 0 ∧ rg.1 ≤ va ∧ va + sz ≤ rg.1 + rg.2 ∧
            ∀ b ∈ (heapOf al q.job k).blks, b.va + b.size ≤ va ∨ va + sz ≤ b.va) ∧
          serves fun u o => ∀ s1, mapPages (stepFree u) N j ((sz + 65535) / 65536) (va / 65536 * 65536) = some s1 →
            ∃ t, o = .next (answer t ⟨BitVec.ofNat 64 va, true, 0, 0, 0⟩) ∧ ∃ l, (heapOf (allocAt t N) q.job k).blks = ⟨va, sz⟩ :: l)) ∧
  ∀ (s : State) (w : Who) (p : Park) (a : SvcReply), Waits s w p →
    let o := exec (.allocatorReplyLand w a) s
    let ends := fun (f : Ctx → Ctx) => ∃ t, o = .next t ∧ Finishes s w (ctxAt s w.slot) f t
    (a.code ≠ 0 → (a.code ≠ 0x14 ∨ ∀ h n x d b, p.form ≠ .allocQ h n x d b) → o = .next (takeFault s w.slot w.uid a.code a.va a.aux)) ∧
    (∀ h n d b, a.code = 0 → p.form = .allocF h n d b → d ≠ 0 → ends fun c => putReg c (.s d) (sval a.val)) ∧
    (∀ h n d b x, (a.code = 0 ∨ a.code = 0x14) → p.form = .allocQ h n x d b → d ≠ 0 → x ≠ 0 →
      ends fun c => putReg (putReg c (.s d) (sval a.val)) (.p x) (pval a.ok)) ∧
    (∀ h n x d, a.code = 0 → p.form = .heapInfo h n x d → d ≠ 0 → ends fun c => putReg c (.s d) (sval a.val)) ∧
    (∀ h n b, a.code = 0 → (p.form = .free h n b ∨ p.form = .heapInfoQuota h n b) → ends id)

/-- R236 to R239 and R397: TLB.INV drops the entries of its job from the TLBs of its scope, in 8 cycles at its own tile, 32 on its die and 128 on
its package; XLAT writes the result word
of a walk, which faults nowhere; XLAT.resume and XLAT.refuse answer a token of a unit they supervise, and fault on any other. Stated where no error lies in an
array. -/
def Obligations.TranslationForms : Prop :=
  (∀ (s : State) (h : Hdr) (sc : TlbScope) (a d : SIx),
    let c := me s
    let v := rs c a
    let inv := fun (i : Instr) (va : Option Word) =>
      (releaseOk s s.cur c.uid (invRelease sc) s.cur.node = true →
        AsksSvc s h i (svcOf s s.cur.node none (.tlbInv sc va)) (.tlbInvRequest s.cur.pkg) 0 0 (exec i s)) ∧
      (releaseOk s s.cur c.uid (invRelease sc) s.cur.node = false → RelWaits s h i (exec i s))
    (Ready s h [.s a] [] false →
      (2 ^ 56 ≤ v.toNat → Faults s 0x09 v 0 (exec (.tlbInv h sc a) s)) ∧ (v.toNat < 2 ^ 56 → inv (.tlbInv h sc a) (some v)) ∧
      let f := fun (r : Bool) => if r then exec (.xlatResume h a) s else exec (.xlatRefuse h a) s
      (tokenPark s v.toNat = none → tokenCmd s v.toNat = none → ∀ r, Faults s 0x03 0 0 (f r)) ∧
      (tokenPark s v.toNat = none → ∀ n mx q, tokenCmd s v.toNat = some (n, mx, q) →
        let may := q.sup = s.cur ∧ q.job = c.d.job ∧ q.refused = false
        (¬ may → ∀ r, Faults s 0x03 0 0 (f r)) ∧
        (may → DoneIn s h (dropToken (if mx then resumeMatrix s n q else resumeCopy s n q) s.cur v.toNat) (exec (.xlatResume h a) s) ∧
          DoneIn s h (dropToken (refuseToken s v.toNat) s.cur v.toNat) (exec (.xlatRefuse h a) s))) ∧
      ∀ r' c' p, tokenPark s v.toNat = some (r', c', p) →
        let may := supervises s.cur c'.d = true ∧ r'.pkg = s.cur.pkg ∧ c'.d.job = c.d.job
        (¬ may → ∀ r, Faults s 0x03 0 0 (f r)) ∧
        (may → DoneIn s h (dropToken (resumePark s r' c' p) s.cur v.toNat) (exec (.xlatResume h a) s) ∧
          DoneIn s h (dropToken (refuseToken s v.toNat) s.cur v.toNat) (exec (.xlatRefuse h a) s))) ∧
    (Ready s h [] [] false → inv (.tlbInvAll h sc) none) ∧
    (Ready s h [.s a] [.s d] false →
      let i := Instr.xlat h d a
      let hit := (here s).tlb.any fun e => e.det = c.d.det && TlbEntry.covers e c.d.job v.toNat
      (2 ^ 56 ≤ v.toNat → Results s h [.s a] 3 [(.s d, sval (BitVec.ofNat 64 (2 ^ 56)))] (exec i s)) ∧
      (v.toNat < 2 ^ 56 →
        let ends := fun (u : State) (at_ : Nat) => Parks s h (waitBy s i u.no .reply 0 0 v [])
          (push { u with no := u.no + 1 } at_ phEnd (slotKey s.cur) (.globalReplyLand ⟨s.cur, c.uid, u.no⟩ .done)) (exec i s)
        let l := walkLate s c.d.launch
        ((c.d.det = false ∨ hit = true) → ends s s.now) ∧
        (c.d.det = true → hit = false → ends l.1 (dueIn s s.cur.node (639 + l.2)))))) ∧
  (∀ (s : State) (w : Who) (p : Park) (h : Hdr) (d a : SIx), Waits s w p → noErrs s = true → p.form = .xlat h d a → d ≠ 0 →
    let c := ctxAt s w.slot
    let x := xlatWord s w.slot.node c.d.job c.d.det p.va.toNat
    ∃ t, exec (.globalReplyLand w .done) s = .next t ∧ Finishes x.2 w c (fun c => putReg c (.s d) (sval x.1)) t) ∧
  ∀ (s : State) (q : SvcReq) (sc : TlbScope) (va : Option Word), q.kind = .tlbInv sc va → q.peer = q.who.slot.node → sc ≠ .dom →
    let N := q.peer
    let f := fun u => dropEntries u N sc q.job va
    Serves s q 3 (match sc with | .tile => 8 | .die => 32 | _ => 128) (.tlbInvRequest N.pkg) f ⟨0, true, 0, 0, 0⟩ (exec (.tlbInvRequest N.pkg q) s) ∧
    ∀ u : State, (f u).mem = u.mem ∧ ∀ n, ahas u.tiles (nodeKey n) = true → nodeOfKey (nodeKey n) = n →
      (n = N ∨ (n.pkg = N.pkg ∧ (sc = .pkg ∨ (sc = .die ∧ dieOf n.id = dieOf N.id)))) → nodeOfKey (nodeKey N) = N →
      (tileAt (f u) n).tlb = (tileAt u n).tlb.filter fun e => !invTakes q.job va e

/-! ### Engines (chapter 11) -/

/-- R262 and R263: TD.SET reads an image from the scratchpad at once, or 64 bytes of virtual memory as a load, checks it, and replaces the entry
only where it is valid; TD.GET reads a word, and TD.CLR clears. -/
def Obligations.DescriptorTableForms : Prop :=
  ∀ (s : State) (h : Hdr) (d : DIx) (a x : SIx) (w : BitVec 3),
    let c := me s
    let N := s.cur.node
    let va := rs c a
    let installs := fun (b : List Byte) (o : Outc) =>
      (∀ k, tdBad (wordsOf b) = some k → Faults s 0x16 va (BitVec.ofNat 64 (k + d.toNat * 2 ^ 8)) o) ∧
      (tdBad (wordsOf b) = none →
        DoneIn s h (modTile s N fun t => { t with tds := aset t.tds d.toNat ((wordsOf b).map (BitVec.ofNat 64)) }) o)
    (Ready s h [.s a] [] false →
      (let o := exec (.tdSet h true d a) s
       (va.toNat % 8 ≠ 0 → Faults s 0x06 va 0 o) ∧
       (va.toNat % 8 = 0 → padOk (here s) va.toNat 64 = false → Faults s 0x07 va 0 o) ∧
       (va.toNat % 8 = 0 → padOk (here s) va.toNat 64 = true →
         installs ((List.range 64).map fun k => cellGet (here s).sp (va.toNat + k)) o)) ∧
      let i := Instr.tdSet h false d a
      let o := exec i s
      (2 ^ 56 ≤ va.toNat → Faults s 0x09 va 0 o) ∧ (va.toNat < 2 ^ 56 → va.toNat % 64 ≠ 0 → Faults s 0x06 va 0 o) ∧
      ∀ pa s1 hm, va.toNat % 64 = 0 → va.toNat < 2 ^ 56 → noErrs s = true →
        xlate s N c.d.job c.d.det 0 va.toNat = .ok pa s1 → homeFor s1 s.cur c pa false = some hm →
        Parks s h (waitBy s i s1.no .reply 0 0 va []) (sendReq { s1 with no := s1.no + 1 } s.cur c hm.1 pa va (.load 64) false s1.no none) o) ∧
    (Fit s h [.s a] [] false → va.toNat % 64 = 0 → va.toNat < 2 ^ 56 → 64 ≤ (gotBytes c).length →
      installs (gotBytes c) (exec (.tdSet h false d a) s)) ∧
    (Ready s h [] [.s x] false → Results s h [] 3 [(.s x, sval ((tdAt (here s) d.toNat).getD w.toNat 0))] (exec (.tdGet h w x d) s)) ∧
    (Ready s h [] [] false → DoneIn s h (modTile s N fun t => { t with tds := aerase t.tds d.toNat }) (exec (.tdClr h d) s))

/-- R265 to R267 and R271 to R276: the copy forms. A slot without the copy role faults; so does a bad register of CP.PUSH; a descriptor that is
cleared, or a pair that does not fit, faults with descriptor_invalid, its reason and the index; else the command, its descriptors captured,
enters the queue, whose 16 entries hold the form up while they are full. A push into a channel is checked and numbered as one complete
SEND; that an open packet of the slot on its endpoint refuses it at step 7 is the model's choice (log 58). -/
def Obligations.CopyFormsQueueTheirCommands : Prop :=
  ∀ (s : State) (h : Hdr) (sync : ESync) (rsem : BitVec 8) (rsv : Bool) (tr : Tr) (d a : DIx) (b : SIx),
    let c := me s
    let x := rs c b
    let dd := tdHere s d
    let da := tdHere s a
    let bad := fun (k : Nat × Nat) (o : Outc) => Faults s 0x16 0 (BitVec.ofNat 64 (k.1 + k.2 * 2 ^ 8)) o
    let may := mayCopy s s.cur c = true
    let held := fun (i : DIx) => ahas (here s).tds i.toNat = true
    let q := fun (i : Instr) (fn : Nat) (k : EngKind) (f : State → State) => Queues s s h i false sync fn k f (exec i s)
    (Ready s h [.s b] [] false →
      (let i := Instr.cpPush h sync rsem rsv tr d a b
       let o := exec i s
       let target : Node := if x = 0 then s.cur.node else remoteHome x
       let checks := firstBad [(da.loc ≠ 0, 17, a.toNat), (isSpout s.cur.tile && dd.loc = 1, 17, d.toNat),
         (c.d.det && dd.loc = 0 && target.pkg ≠ s.cur.pkg, 17, d.toNat), (!shapeOk dd da tr, 20, d.toNat)]
       let named := isRemote x = true ∧ x.toNat % 2 ^ 20 = 0
       let fits := (dd.loc = 0 ∧ (x = 0 ∨ (named ∧ remoteFault s x true = none))) ∨ (dd.loc ≠ 0 ∧ b = 0 ∧ rsv = false)
       (¬ may → Faults s 0x03 0 0 o) ∧ (may → ¬ held d → bad (16, d.toNat) o) ∧
       (may → held d → ((dd.loc = 0 ∧ x ≠ 0 ∧ ¬ named) ∨ (dd.loc ≠ 0 ∧ (b ≠ 0 ∨ rsv = true))) → Faults s 0x03 0 0 o) ∧
       (may → held d → dd.loc = 0 → x ≠ 0 → named → ∀ f v, remoteFault s x true = some (f, v) → Faults s f v 0 o) ∧
       (may → held d → fits → ¬ held a → bad (16, a.toNat) o) ∧
       (may → held d → fits → held a →
         (∀ k, checks = some k → bad k o) ∧
         (checks = none → dd.loc = 0 → q i 0 (.push dd da target tr (rsemOf rsem rsv)) id) ∧
         (checks = none → dd.loc = 1 → q i 0 (.push dd da s.cur.node tr none) id) ∧
         (checks = none → dd.loc ≠ 0 → dd.loc ≠ 1 →
           let ep : EIx := BitVec.ofNat 7 (dd.base % 128)
           let mt := dd.base / 2 ^ 8 % 64
           let e := ownEp s.cur ep
           let y := epAt s e
           let k := EngKind.pushChan dd da ep.toNat mt
           (4096 < da.bytes → bad (18, d.toNat) o) ∧
           (da.bytes ≤ 4096 → ownsEp s s.cur c.uid ep.toNat = false → Faults s 0x0D 0 (BitVec.ofNat 64 ep.toNat) o) ∧
           (da.bytes ≤ 4096 → ownsEp s s.cur c.uid ep.toNat = true →
             (y.st = .peerClosed → q i 0 k id) ∧
             (y.st ≠ .peerClosed → y.st ≠ .opened → Faults s 0x0C 0 (refusedAux s ep 2) o) ∧
             (y.st = .opened → (∃ z, c.packet = some z ∧ z.1 ≠ ep.toNat) → Faults s 0x03 0 (refusedAux s ep 5) o)) ∧
           (da.bytes ≤ 4096 → OpenEp s ep →
             ((epImg s ep).edge y.q .send mt = none → Faults s 0x0A 0 (refusedAux s ep 6) o) ∧
             ∀ t, (epImg s ep).edge y.q .send mt = some t →
               ((y.pkt ≠ none ∨ pieceOk y t mt da.bytes true = false) → Faults s 0x0A 0 (refusedAux s ep 7) o) ∧
               (y.pkt = none → pieceOk y t mt da.bytes true = true → windowShut s e = true → ChWaits s h i o) ∧
               (y.pkt = none → pieceOk y t mt da.bytes true = true → windowShut s e = false →
                 q i 0 k fun u => countSent (modEp u e fun z => { z with
                   txSeq := z.txSeq + max 1 (ceilDiv da.bytes 32), resv := z.resv ++ [(s.no, z.txSeq)], q := t.next }) e))))) ∧
      let i := Instr.cpFill h sync d b
      let o := exec i s
      let checks := firstBad [(dd.loc = 2 || (isSpout s.cur.tile && dd.loc = 1), 17, d.toNat), (dd.type.isBlock, 19, d.toNat)]
      (¬ may → Faults s 0x03 0 0 o) ∧ (may → ¬ held d → bad (16, d.toNat) o) ∧ (may → held d → ∀ k, checks = some k → bad k o) ∧
      (may → held d → checks = none → q i 1 (.fill dd x) id)) ∧
    (Ready s h [] [] false →
      let i := Instr.cpPullreq h sync rsem rsv d a
      let o := exec i s
      let checks := firstBad [(da.loc ≠ 1 || isSpout s.cur.tile, 17, a.toNat), (dd.loc ≠ 0, 17, d.toNat), (!sameShape dd da, 20, d.toNat)]
      (¬ may → Faults s 0x03 0 0 o) ∧ (may → ¬ held d → bad (16, d.toNat) o) ∧ (may → held d → ¬ held a → bad (16, a.toNat) o) ∧
      (may → held d → held a → ∀ k, checks = some k → bad k o) ∧
      (may → held d → held a → checks = none → q i 2 (.pull dd da (rsemOf rsem rsv)) id))

/-- R12, R266, R278 to R288: the matrix forms. On a spout they are illegal, and a slot that does not hold the role faults; their checks are made as they
issue, against the planes, modes and program as they will be when the command starts; each then enters the queue, with what it changes
of those. MX.STAT reads a status word, and clears the flags and the overrun count where it says so. -/
def Obligations.MatrixFormsQueueTheirCommands : Prop :=
  ∀ (s : State) (h : Hdr) (sync : ESync) (row0 : BitVec 9) (acc clr int on uty : Bool) (rm : Rm) (vt : Vt) (tqt : Tqt) (fill : Fill)
    (a : DIx) (b x : SIx) (v : VIx) (w : MxW),
    let c := me s
    let N := s.cur.node
    let u := takeMatrix s s.cur c
    let m := (tileAt u N).mx
    let d := tdHere s a
    let k := (rs c b).toNat
    let r := row0.toNat
    let rm' := resolveRm rm c.rmode
    let bad := fun (k : Nat × Nat) (o : Outc) => Faults s 0x16 0 (BitVec.ofNat 64 (k.1 + k.2 * 2 ^ 8)) o
    let role := isSpout s.cur.tile = false ∧ (here s).matRole = some (s.cur.slot, c.uid)
    let held := ahas (here s).tds a.toNat = true
    let guarded := fun (i : Instr) =>
      (isSpout s.cur.tile = true → Faults s 0x01 0 0 (exec i s)) ∧
      (isSpout s.cur.tile = false → (here s).matRole ≠ some (s.cur.slot, c.uid) → Faults s 0x03 0 0 (exec i s))
    let captures := fun (i : Instr) => guarded i ∧ (role → ¬ held → bad (16, a.toNat) (exec i s))
    let q := fun (i : Instr) (fn : Nat) (kind : EngKind) (f : State → State) => Queues s u h i true sync fn kind f (exec i s)
    let streams := fun (i : Instr) (fn : Nat) (kind : EngKind) =>
      let o := exec i s
      let p := (m.issPlanes[m.issActive]?).getD {}
      let n := streamRows kind
      (p.loaded = false → bad (16, a.toNat) o) ∧ (p.loaded = true → d.extent 0 ≠ p.k → bad (20, a.toNat) o) ∧
      (p.loaded = true → d.extent 0 = p.k → pairUnder m.issUon m.issUty d.type p.type = none → bad (19, a.toNat) o) ∧
      ∀ ak depth, p.loaded = true → d.extent 0 = p.k → pairUnder m.issUon m.issUty d.type p.type = some (ak, depth) →
        let isInt := decide (ak = .int)
        let clash := if acc then (rowSpan r n).find? fun t => m.issInt.contains t != isInt else none
        (depth < p.k → bad (18, a.toNat) o) ∧ (p.k ≤ depth → (n = 0 ∨ 512 < r + n) → Faults s 0x03 0 0 o) ∧
        (p.k ≤ depth → n ≠ 0 → r + n ≤ 512 →
          (∀ t, clash = some t → Faults s 0x03 0 (BitVec.ofNat 64 t) o) ∧
          (clash = none → q i fn kind fun z => if acc then z else modMx z N fun m => trackRows m r n isInt))
    (Ready s h [] [] false →
      (let i := Instr.mxLds h sync a
       let checks := firstBad [(d.loc ≠ 0, 17, a.toNat), (!weightType d.type, 19, a.toNat),
         (d.rank ≠ 2 || 64 < d.extent 1 || depthOf d.type < d.extent 0, 18, a.toNat)]
       captures i ∧ (role → held → ∀ k, checks = some k → bad k (exec i s)) ∧
       (role → held → checks = none → q i 0 (.lds d) fun z => modMx z N fun m => { m with issPlanes := m.issPlanes.zipIdx.map fun (p, j) =>
         if j = 1 - m.issActive then { p with loaded := true, ty := d.ty, k := d.extent 0, n := d.extent 1 } else p })) ∧
      (let i := Instr.mxSwap h sync
       guarded i ∧ (role → q i 1 .swap fun z => modMx z N fun m => { m with issActive := 1 - m.issActive })) ∧
      (let i := Instr.mxStream h sync row0 acc a
       captures i ∧ (role → held → d.loc ≠ 0 → bad (17, a.toNat) (exec i s)) ∧ (role → held → d.loc = 0 → streams i 2 (.stream d r acc))) ∧
      let i := Instr.mxDrainD h sync row0 rm clr tqt a
      let o := exec i s
      let checks := firstBad [(d.loc ≠ 0, 17, a.toNat), (2 < d.rank || 64 < d.extent 0, 18, a.toNat), (!drainType d.type, 19, a.toNat)]
      captures i ∧ (role → held → ∀ k, checks = some k → bad k o) ∧
      (role → held → checks = none → tqt ≠ .int → d.type ≠ .tq4 → Faults s 0x02 0 0 o) ∧
      (role → held → checks = none → (tqt = .int ∨ d.type = .tq4) →
        (512 < r + d.extent 1 → Faults s 0x03 0 0 o) ∧
        (r + d.extent 1 ≤ 512 → q i 4 (.drainD d r rm' clr tqt c.seed) fun z =>
          if d.type.isBlock then z else reserveDraws z s.cur rm' (d.extent 0 * d.extent 1)))) ∧
    (Ready s h [.s b] [] false →
      (let i := Instr.mxConv h sync row0 acc a b
       let checks := firstBad [(d.loc ≠ 0, 17, a.toNat), (d.rank ≠ 4, 18, a.toNat), (d.oh = 0, 21, a.toNat)]
       let rows := convRows (rs c b)
       let inside := rows ≠ 0 ∧ r + rows ≤ 512
       guarded i ∧ (role → ¬ inside → Faults s 0x03 0 0 (exec i s)) ∧ (role → inside → ¬ held → bad (16, a.toNat) (exec i s)) ∧
       (role → inside → held → ∀ k, checks = some k → bad k (exec i s)) ∧
       (role → inside → held → checks = none → streams i 3 (.conv d r acc (rs c b)))) ∧
      (let i := Instr.mxClr h sync row0 int fill b
       guarded i ∧ (role → (k < 1 ∨ 512 < r + k) → Faults s 0x03 0 0 (exec i s)) ∧
       (role → 1 ≤ k → r + k ≤ 512 → q i 5 (.clear r k int fill) fun z => modMx z N fun m => trackRows m r k int)) ∧
      let i := Instr.mxUprog h sync on uty b
      guarded i ∧ (role → on = true → progOk (rs c b) = false → Faults s 0x03 0 0 (exec i s)) ∧
      (role → (on = false ∨ progOk (rs c b) = true) → q i 6 (.uprog on uty (rs c b)) fun z => modMx z N fun m => { m with issUon := on, issUty := uty })) ∧
    (Ready s h [] [.v v] false →
      let i := Instr.mxDrainV h sync row0 rm clr vt v
      guarded i ∧ (role → q i 4 (.drainV v r rm' clr vt c.seed) fun z =>
        modCtx (reserveDraws z s.cur rm' 64) s.cur fun c => setPres c (.v v) .pending)) ∧
    (Ready s h [] [.s x] false →
      let i := Instr.mxStat h w clr x
      let word : Word := match w with
        | .state => BitVec.ofNat 64 (mxState m)
        | .over => BitVec.ofNat 64 m.overrun
        | .resume => m.resume
      guarded i ∧
      (role → ResultsFrom s (if clr = true ∧ w ≠ .resume then modMx u N fun m => { m with flags := 0, sat := false, overrun := 0 } else u)
        c h [] 3 [(.s x, sval word)] (exec i s)))

/-- R267 to R269, R272, R275, R276 and R281 to R287: the work of the engines. Commands start in order, each once its semaphore has reached its threshold and none
is stopped; a stop leaves the command in the queue with a token, its code and its address; a completed command leaves the queue,
its effects done and its signal given, a refused one without. -/
def Obligations.EnginesWorkTheirQueues : Prop :=
  (∀ (s : State) (n : Node) (mx : Bool) (q : EngCmd),
    let o := exec (.engineCommandStart n mx) s
    let t := tileAt s n
    let awake := isHeld s n = false ∧ stopDue s n mx = false ∧ messagesOut s n q = false
    let ready := awake ∧ cmdsOf t mx = [q] ∧ q.started = false ∧ q.stopped = none ∧ semReady t q = true
    let done := fun (u : State) (at_ : Nat) => ∃ e ∈ u.agenda, e.at_ = at_ ∧ e.ev = .engineCommandComplete n mx q.id
    (isHeld s n = true → o = .next (pushOnce s (s.now + 1) phStart (nodeKey n) (.engineCommandStart n mx))) ∧
    (isHeld s n = false → mx = true → (cmdsOf t mx = [] ∨ engStopped t mx = true) → o = .next s) ∧
    (isHeld s n = false → mx = true → cmdsOf t mx = [q] → q.started = false → (semReady t q = false ∨ messagesOut s n q = true) → o = .next s) ∧
    (isHeld s n = false → cmdsOf t mx = [] → o = .next s) ∧
    (ready → mx = false → phaseOpen s n q.kind = true → ∃ u, o = .next u ∧ (cmdAt u n mx q.id).map (fun z => (z.started, z.start)) = some (true, s.now)) ∧
    (ready → mx = true →
      (q.kind = .swap → ∃ u, o = .next u ∧ (tileAt u n).mx.active = 1 - t.mx.active ∧ done u s.now) ∧
      (∀ on uty g, q.kind = .uprog on uty g → ∃ u, o = .next u ∧ (tileAt u n).mx.uon = on ∧ (tileAt u n).mx.uty = uty ∧ (tileAt u n).mx.prog = g ∧ done u s.now) ∧
      (∀ r k i f, q.kind = .clear r k i f → ∃ u, o = .next u ∧ done u (dueIn s n (ceilDiv k 8))) ∧
      (∀ v r rm c vt sd, q.kind = .drainV v r rm c vt sd → ∃ u, o = .next u ∧ done u (dueIn s n 8)) ∧
      (∀ d r rm c tq sd, q.kind = .drainD d r rm c tq sd → badAddr t (linearAddrs d) = none → ∃ u, o = .next u ∧ done u (dueIn s n (d.extent 1 + 7))) ∧
      (∀ d r c, (q.kind = .stream d r c ∨ ∃ g, q.kind = .conv d r c g) → t.mx.lastFed < s.now → ((t.mx.planes[t.mx.active]?).getD {}).valid = false →
        ∃ u, o = .next u ∧ cmdsOf (tileAt u n) mx = [] ∧ (tileAt u n).semAdds = t.semAdds))) ∧
  (∀ (s : State) (n : Node) (mx : Bool) (id : Nat),
    let o := exec (.engineCommandComplete n mx id) s
    let t := tileAt s n
    (cmdAt s n mx id = none → o = .next s) ∧
    ∀ q, cmdAt s n mx id = some q →
      let leaves := fun (u : State) (signal : Bool) => cmdAt u n mx id = none ∧
        (tileAt u n).semAdds = t.semAdds ++ (if signal = true ∧ q.sync.sinc ≠ 0 then [(q.sync.ssem.toNat, q.sync.sinc.toNat)] else [])
      let runs := q.refused = false ∧ q.stopped = none
      (q.refused = true → (∀ d a e k, q.kind ≠ .pushChan d a e k) → ∃ u, o = .next u ∧ leaves u false) ∧
      (q.refused = false → q.stopped.isSome = true → o = .next s) ∧
      (runs → mx = false → (∀ d p, q.kind = .fill d p → d.loc ≠ 0) → ∃ u, o = .next u ∧ leaves u true ∧ (tileAt u n).sp = t.sp) ∧
      (runs → mx = false → ∀ d p, q.kind = .fill d p → d.loc = 0 →
        let ws := (((linearAddrs d).zip (fillBytes d p)).drop (64 * q.next)).take 64
        (∀ z, badAddr t (ws.map (·.1)) = some z → o = .next (stopCmd s n false q 0x07 z)) ∧
        (badAddr t (ws.map (·.1)) = none → ∃ u, o = .next u ∧ (tileAt u n).sp = ws.foldl (fun M w => cellSet M w.1 w.2) t.sp ∧
          (q.total ≤ q.next + 1 → leaves u true) ∧
          (q.next + 1 < q.total → (cmdAt u n mx id).map (·.next) = some (q.next + 1) ∧
            ∃ e ∈ u.agenda, e.at_ = dueIn s n 1 ∧ e.ev = .engineCommandComplete n false id))) ∧
      (runs → mx = true → t.errs = [] → ∃ u, o = .next u ∧ leaves u true ∧
        (∀ d, q.kind = .lds d → ∀ j, q.plane = j → j < t.mx.planes.length → (tileAt u n).mx.planes[j]? =
          some { valid := true, loaded := true, ty := d.ty, scale := d.scale, k := d.extent 0, n := d.extent 1, bytes := q.buf.flatMap (·.2) }) ∧
        (∀ r k i f, q.kind = .clear r k i f → ∀ j < k, accRow (tileAt u n).mx (r + j) = ⟨i, List.replicate 64 (fillWord i f)⟩) ∧
        (∀ v r rm cl vt sd, q.kind = .drainV v r rm cl vt sd → (slotAt s (q.from_ n)).ph = .bound → (ctxAt s (q.from_ n)).uid = q.uid →
          rv (ctxAt u (q.from_ n)) v = (drainVec t.mx r rm vt sd).1 ∧ presOf (ctxAt u (q.from_ n)) (.v v) = .full) ∧
        (∀ d r rm cl tq sd, q.kind = .drainD d r rm cl tq sd →
          (tileAt u n).sp = (drainTo t.mx d r rm tq (d.extent 1) 0 sd).1.foldl (fun M w => cellSet M w.1 w.2) t.sp))) ∧
  (∀ (s : State) (n : Node) (mx : Bool) (id code : Nat) (addr : Word),
    let o := exec (.engineFaultStop n mx id code addr) s
    (cmdAt s n mx id = none → o = .next s) ∧
    ∀ q, cmdAt s n mx id = some q → (q.stopped.isSome = true → o = .next s) ∧
      (q.stopped = none → ∃ u, o = .next u ∧ (cmdAt u n mx id).map (·.stopped) = some (some (s.no % 2 ^ 32, code, addr)) ∧
        (mx = true → (tileAt u n).mx.resume = resumeWord q (s.no % 2 ^ 32) code))) ∧
  (∀ (s : State) (p : CopyPkt),
    let t := tileAt s p.dst
    let code := if t.tenant ≠ some p.job then 0x09 else if (badAddr t p.all).isSome then 0x07 else 0
    let o := exec (.copyPacketLand p) s
    let gone := p.dst = p.owner ∧ cmdAt s p.owner false p.cmd = none
    let whole := match pullSize s p with
      | some size => gotOf s p + p.writes.length = size
      | none => p.last = true
    let acks := fun (u : State) => p.dst = p.owner → ∃ e ∈ u.agenda, e.at_ = s.now ∧ e.ev = .copyPacketAck p.owner p.cmd p.num code
    (gone → o = .next s) ∧
    (¬ gone → code ≠ 0 → ∃ u, o = .next u ∧ (tileAt u p.dst).sp = t.sp ∧ (tileAt u p.dst).semAdds = t.semAdds ∧ (p.last = true → acks u)) ∧
    (¬ gone → code = 0 → ∃ u, o = .next u ∧ (tileAt u p.dst).sp = p.writes.foldl (fun M w => cellSet M w.1 w.2) t.sp ∧
      (whole → (tileAt u p.dst).semAdds = t.semAdds ++ (p.rsem.map fun k => (k, 1)).toList ∧ acks u) ∧
      (¬ whole → (tileAt u p.dst).semAdds = t.semAdds))) ∧
  (∀ (s : State) (n : Node) (id num code : Nat),
    let o := exec (.copyPacketAck n id num code) s
    (cmdAt s n false id = none → o = .next s) ∧
    ∀ q, cmdAt s n false id = some q →
      (num ∈ q.acked → o = .next s) ∧
      (num ∉ q.acked → code = 0 → ∃ u, o = .next u ∧ (cmdAt u n false id).map (·.acked) = some (num :: q.acked) ∧
        (q.acked.length + 1 = q.total → ∃ e ∈ u.agenda, e.at_ = s.now ∧ e.ev = .engineCommandComplete n false id)) ∧
      (num ∉ q.acked → code ≠ 0 → ∃ u, o = .next u ∧ (cmdAt u n false id).map (·.todo) = some (addAscending num q.todo) ∧
        ∃ e ∈ u.agenda, e.at_ = s.now ∧ e.ev = .engineFaultStop n false id code (BitVec.ofNat 64 (packetAddr s n q num code)))) ∧
  (∀ (s : State) (p : PullReq),
    let c := p.home
    let q : MemReq := ⟨{ p.who with id := p.who.id * 2 ^ 64 + p.num }, p.num, (p.parts.head?.map (·.1)).getD 0, 0, p.job, .pull p, p.det, none, false, true⟩
    let k := ctrlAt s c
    (∃ u, exec (.pullRequestServe p) s = .next u ∧ u.mem = s.mem ∧
      ((isCompute c.id = false ∨ 160 ≤ refreshPhase s c) → (ctrlAt u c).landed = k.landed ++ [q] ∧
        ∃ e ∈ u.agenda, e.at_ = s.now ∧ e.ev = .memoryMergeStep c none) ∧
      (isCompute c.id = true → refreshPhase s c < 160 → (ctrlAt u c).held = k.held ++ [q] ∧
        ∃ e ∈ u.agenda, e.at_ = s.now + 159 - refreshPhase s c ∧ e.ev = .refreshWindowEnd c)) ∧
    (k.landed = [q] → (tileAt s c).errs = [] → (∀ x ∈ p.parts, x.1 % 2 ^ 46 < 0x3F0000000000) → ∃ u, exec (.memoryMergeStep c none) s = .next u ∧
      u.mem = s.mem ∧ ∃ e ∈ u.agenda, e.ev = .controllerReplySend c q (.data (p.parts.flatMap fun x => physRead s x.1 x.2)) ∧
        (p.det = true → e.at_ = s.now + if isCompute c.id ∨ c.id = 2124 then 112 else 232)) ∧
    ∀ b, p.det = false → exec (.controllerReplySend c q (.data b)) s = .next (sendPacket s p.who.slot c
      ⟨p.who.slot.node, p.who.id, p.num, p.who.slot.node, p.job, [], p.dst, true, p.rsem⟩ (p.dst.zip b) [5, p.who.id, 1, nodeKey c] none)) ∧
  ∀ (s : State) (n : Node) (id stepNo : Nat),
    let o := exec (.matrixStepCommit n id stepNo) s
    let k := stepNo % 2 ^ 16
    let feed := stepNo / 2 ^ 16 % 2 = 1
    let M := (tileAt s n).mx
    (cmdAt s n true id = none → o = .next s) ∧
    ∀ q, cmdAt s n true id = some q →
      let runs := q.stopped = none ∧ q.tries = stepNo / 2 ^ 17
      (¬ runs → o = .next s) ∧
      (runs → feed → (tileAt s n).errs = [] →
        (∀ d, q.kind = .lds d → badAddr (tileAt s n) (vectorAddrs d (d.vector k)) = none → ∃ u, o = .next u ∧
          (cmdAt u n true id).map (·.buf) = some (q.buf ++ [(k, (vectorAddrs d (d.vector k)).map (cellGet (tileAt s n).sp))]) ∧
          ∃ e ∈ u.agenda, (k + 1 < d.extent 1 → e.at_ = dueIn s n 1 ∧ e.ev = .matrixStepCommit n q.id (stepCode q true (k + 1))) ∧
            (d.extent 1 ≤ k + 1 → e.at_ = dueIn s n (72 - d.extent 1) ∧ e.ev = .engineCommandComplete n true q.id)) ∧
        ((∀ d, q.kind ≠ .lds d) → ∀ l, rowAddrs q.kind k = some l → badAddr (tileAt s n) l = none → ∃ u, o = .next u ∧
          (cmdAt u n true id).map (fun z => (z.buf, z.next)) = some (q.buf ++ [(k, l.map (cellGet (tileAt s n).sp))], k + 1)) ∧
        ((∀ d, q.kind ≠ .lds d) → rowAddrs q.kind k = none → ∃ u, o = .next u ∧
          (cmdAt u n true id).map (fun z => (z.buf, z.next)) = some (q.buf ++ [(k, [])], k + 1))) ∧
      (runs → ¬ feed → (tileAt s n).errs = [] → ∀ d r acc, streamOf q.kind = some (d, r, acc) →
        let M' := (q.buf.filter fun x => x.1 / 64 = k).foldl (fun m x =>
          let m := applyRow m ((m.planes[q.plane]?).getD {}) d.type d.scale acc (r + x.1) x.2
          { m with overrun := min (2 ^ 32 - 1) (m.overrun + (overruns q.kind x.1).toNat) }) M
        ∃ u, o = .next u ∧ (tileAt u n).mx.rows = M'.rows ∧ (tileAt u n).mx.flags = M'.flags ∧ (tileAt u n).mx.sat = M'.sat ∧
          (q.acked.length + 1 = ceilDiv q.total 64 → cmdAt u n true id = none) ∧
          (q.acked.length + 1 ≠ ceilDiv q.total 64 → (cmdAt u n true id).map (·.acked) = some (k :: q.acked)))

/-! ### Replies, ordering, records and exchange (chapters 12 to 15) -/

/-- R77, R92, R98, R104, R113, R116, R222, R223, R239, R337, R339: what reaches a waiting unit. A reply of a service writes its results
full, or raises its fault; a domain's invalidation counts the packages that have answered; a result lands and its register is full; SLEEPR
ends in the very cycle of its round; WAITLIM ends a wait with wait_limit, its request taken back or, where that lies at another party,
withdrawn first, and is tried again where the unit is away or only the record log holds it; and a packet left open too long ends with
packet_open_limit where the wait can be taken back. -/
def Obligations.RepliesAndLimitsReachTheUnit : Prop :=
  (∀ (s : State) (w : Who) (p : Park) (a : SvcReply), Waits s w p →
    let o := exec (.serviceReplyLand w a) s
    let c := ctxAt s w.slot
    let parked := fun (p' : Park) (t : State) => OnlySlot w.slot s t ∧ ctxAt t w.slot = { c with park := some p' }
    let ends := fun (f : Ctx → Ctx) => ∃ t, o = .next t ∧ Finishes s w c f t
    let inv := (∃ h sc x, p.form = .tlbInv h sc x) ∨ ∃ h sc, p.form = .tlbInvAll h sc
    let left := p.aux.filter fun k => k ≠ a.val
    (inv → p.aux ≠ [] →
      (left ≠ [] → ∃ t, o = .next t ∧ parked { p with aux := left } t) ∧
      (left = [] → ∃ t, parked { p with aux := [] } t ∧
        o = .next (push t (dueIn t w.slot.node 128) phLand (slotKey w.slot) (.serviceReplyLand w a)))) ∧
    ((inv → p.aux = []) →
      (a.code ≠ 0 → o = .next (takeFault s w.slot w.uid a.code (if a.code = 0x16 then p.va else a.va) a.aux)) ∧
      (a.code = 0 →
        (∀ h d x, p.form = .launch h d x → ends fun c => { putAll [(.s d, sval a.val)] c with wake := true }) ∧
        (∀ h x, p.form = .recMark h x → ends fun c => { c with recSeq := c.recSeq + 1 }) ∧
        (∀ h sy rs v d x b, p.form = .xchSend h sy rs v d x b →
          ∃ t, o = .next t ∧ parked { p with kind := .cond, aux := p.aux.take 16 ++ [a.val, a.va, a.aux] } t) ∧
        ((∀ h d x, p.form ≠ .launch h d x) → (∀ h x, p.form ≠ .recMark h x) → (∀ h sy rs v d x b, p.form ≠ .xchSend h sy rs v d x b) →
          (∀ h m e d, p.form ≠ .rcBind h m e d) → ends (putAll (svcResults p.form a.val)))))) ∧
  (∀ (s : State) (r : SlotRef) (g : Reg) (v : VVal), (slotAt s r).ph = .bound → ∃ t, exec (.resultLanding r (ctxAt s r).uid g v) s = .next t ∧
    OnlySlot r s t ∧ ctxAt t r = putReg (ctxAt s r) g v) ∧
  (∀ (s : State) (w : Who) (p : Park), Waits s w p → ∃ t, exec (.sleeprExpiry w) s = .next t ∧ OnlySlot w.slot s t ∧
    let c := ctxAt s w.slot
    ctxAt t w.slot = { c with pc := c.pc + 12, issued := c.issued + 1, packet := c.packet.map fun x => (x.1, x.2 + 1), park := none,
                              asked := none, readyFrom := s.now }) ∧
  (∀ (s : State) (w : Who) (p : Park), Waits s w p →
    let o := exec (.waitLimitExpiry w) s
    let u := takeBack s w p
    let late := isAway s w.slot w.uid = true ∨ heldByLog s w p = true
    (late → o = .next (push s (s.now + 1) phStart (slotKey w.slot) (.waitLimitExpiry w))) ∧
    (¬ late →
      ((p.kind = .withdraw ∨ p.limKind = 0) → o = .next s) ∧
      (p.kind ≠ .withdraw → p.limKind ≠ 0 → mustWithdraw p = false → ∃ t, o = .next t ∧
        ((waitOf u w).isSome = true → t = takeFault u w.slot w.uid 0x05 (if p.limKind = 1 then p.va else 0) (limitAux p))) ∧
      (p.limKind ≠ 0 → mustWithdraw p = true → ∃ v t, OnlySlot w.slot s v ∧
        ctxAt v w.slot = { ctxAt s w.slot with park := some { p with kind := .withdraw } } ∧ o = .next t ∧ OnlySent v t))) ∧
  ∀ (s : State) (w : Who) (p : Park) (e n : Nat), Waits s w p → (ctxAt s w.slot).packet = some (e, n) →
    let o := exec (.packetOpenLimit w.slot w.uid) s
    (n < 64 → o = .next s) ∧
    (64 ≤ n → mustWithdraw p = false → mustFinish (ctxAt s w.slot) p = false →
      o = .next (takeFault (takeBack s w p) w.slot w.uid 0x1B 0 (BitVec.ofNat 64 e))) ∧
    (64 ≤ n → mustWithdraw p = false → mustFinish (ctxAt s w.slot) p = true → ∃ t, o = .next t ∧ OnlySlot w.slot s t ∧
      ctxAt t w.slot = { ctxAt s w.slot with park := some { p with limitDue := true } }) ∧
    (64 ≤ n → mustWithdraw p = true → ∃ v t, OnlySlot w.slot s v ∧
      ctxAt v w.slot = { ctxAt s w.slot with park := some { p with limitDue := true, kind := .withdraw } } ∧ o = .next t ∧ OnlySent v t)

/-- R348, R349 and R359: a message enters the queue of its supervisor's slot, is discarded where the slot holds no unit of the job, its token refused or
the loss counted, or comes again 64 cycles after a busy reply; one for the firmware supervisor is counted by package.
R350: CAUSE takes the oldest message of its slot, with class and code, its two words, and pP 1; without one it writes zeros and pP
0, or waits, counted by WAITLIM with kind 5. -/
def Obligations.SupervisorMessagesLandAndAreTaken : Prop :=
  (∀ (s : State) (m : SupMsg),
     let n := m.dst.node
     let o := exec (.supervisorMessageLand m) s
     (m.root = false → holdsJob s m.dst m.job = true → (tileAt s n).msgs.length < 32 →
       o = .next (modTile s n fun t => { t with msgs := t.msgs ++ [m] })) ∧
     (m.root = false → holdsJob s m.dst m.job = true → 32 ≤ (tileAt s n).msgs.length → ∃ t, o = .next t ∧ tileAt t n = tileAt s n ∧
       ∃ e ∈ t.agenda, e.at_ = dueFrom s m.src.node (s.now + flight s n m.src.node) 64 ∧ e.ev = .supervisorMessageResend m) ∧
     (m.root = false → holdsJob s m.dst m.job = false →
       (msgToken m = none → ∃ t, o = .next t ∧ (tileAt t n).msgs = (tileAt s n).msgs ∧
         (tileAt t n).lostMsgs = bump (tileAt s n).lostMsgs m.job (2 ^ 16 - 1)) ∧
       (∀ k, msgToken m = some k → o = .next (refuseToken s k))) ∧
     (m.root = true → msgToken m = none → ∀ j, jobAt s m.job = some j → ∃ t, o = .next t ∧ t.mem = s.mem ∧
       ∃ j', jobAt t m.job = some j' ∧ aget 0 j'.supmsg m.dst.pkg = min (2 ^ 32 - 1) (aget 0 j.supmsg m.dst.pkg + 1)) ∧
     ∃ t, exec (.supervisorMessageResend m) s = .next t ∧ OnlySent s t) ∧
  (∀ (s : State) (h : Hdr) (wait : Bool) (p : BitVec 3) (d : SIx), d.toNat ≤ 61 →
     Ready s h [] (sRun d 3 ++ pDst p) false →
     let o := exec (.cause h wait p d) s
     let ws := fun (x y z : Word) (b : Bool) => [(Reg.s d, sval x), (.s (d + 1), sval y), (.s (d + 2), sval z)] ++ pRes p b
     ((∀ m ∈ (here s).msgs, m.dst ≠ s.cur) → wait = false → Results s h [] 3 (ws 0 0 0 false) o) ∧
     ((∀ m ∈ (here s).msgs, m.dst ≠ s.cur) → wait = true →
       Parks s h (waitBy s (.cause h wait p d) s.no .cond 5 0 0 []) { s with no := s.no + 1 } o) ∧
     ∀ l1 m l2, (here s).msgs = l1 ++ m :: l2 → (∀ x ∈ l1, x.dst ≠ s.cur) → m.dst = s.cur →
       let s1 := modTile s s.cur.node fun t => { t with msgs := l1 ++ l2 }
       let s2 := modCtx s1 s.cur fun c => { c with tokens := c.tokens ++ (msgToken m).toList }
       ResultsFrom s s2 (ctxAt s2 s.cur) h [] 3 (ws (BitVec.ofNat 64 (m.cls * 2 ^ 56 + m.code)) m.w0 m.w1 true) o)

/-- R299 and R300: a fence completes at once, with no other effect, unless it orders earlier writes, or engine commands, of the unit that are still
outstanding within its scope; then the slot waits until none is. -/
def Obligations.FencesWaitForOutstandingWrites : Prop :=
  ∀ (s : State) (h : Hdr) (sc : Scope) (eR eW lR lW inn out : Bool), Ready s h [] [] false →
    let c := me s
    let writes := writesOut s s.cur c.uid sc s.cur.node = true
    let cmds := cmdsOut s s.cur c.uid = true
    let f := Instr.fence h sc eR eW lR lW
    let g := Instr.fenceEng h sc inn out
    let fWaits := eW = true ∧ (lR = true ∨ lW = true) ∧ writes
    let gWaits := (inn = true ∧ writes) ∨ (out = true ∧ cmds)
    (fWaits → RelWaits s h f (exec f s)) ∧ (¬ fWaits → UnitOnly s h c (exec f s)) ∧
    (gWaits → RelWaits s h g (exec g s)) ∧ (¬ gWaits → UnitOnly s h c (exec g s))

/-- R337 to R339, R354 and R355: the forms of the record log, of DET.CYCLE and of the error logs. EINJ outside system mode faults with privilege, whatever its
guard.
R337 to R339, R351, R354, R355 and R397: the services of the record segments and of the error logs, the limit of a replay, and an error that strikes. A mark is
recorded at its recording point, or presented again each cycle while it is held there; an unmatched replay ends with the phase cancelled. -/
def Obligations.RecordAndErrorForms : Prop :=
  (∀ (s : State) (h : Hdr) (a b d : SIx) (w : RecW) (vd clr : Bool) (k : BitVec 2) (kind : EinjK),
     let c := me s
     let N := s.cur.node
     let x := (rs c a).toNat
     let asks := fun (i : Instr) (n : Node) (rec_ : Option Nat) (k : SvcKind) (ev : SvcReq → Ev) => AsksSvc s h i (svcOf s n rec_ k) ev 0 0 (exec i s)
     (Ready s h [.s a] [] false →
       (let i := Instr.recMark h a
        (2 ^ 48 ≤ x → Faults s 0x03 0 0 (exec i s)) ∧ (x < 2 ^ 48 → marksCount s c = false → UnitOnly s h c (exec i s)) ∧
        (x < 2 ^ 48 → marksCount s c = true → asks i N (recNo c) (.recMark (rs c a)) .recordSegmentRequest)) ∧
       let i := Instr.recMarkDrain h a
       let may := c.d.root = true ∨ supervisesJob s s.cur c.d.job = true
       ((2072 ≤ x ∨ ¬ may) → Faults s 0x03 0 0 (exec i s)) ∧
       (x < 2072 → may → asks i (segNode s.cur.pkg x) none (.recDrain x) .recordSegmentRequest)) ∧
     (Ready s h [] [.s d] false →
       Results s h [] 3 [(.s d, BitVec.ofNat 2048 (((jobAt s c.d.job).map fun j => recWord s j N w).getD 0))] (exec (.recStat h w d) s) ∧
       (vd = true → Results s h [] 3 [(.s d, sval (if c.d.det then ((launchAt s c.d.launch).map (·.void)).getD 0 else 0))] (exec (.detCycle h vd d) s)) ∧
       (vd = false → c.d.det = false → Faults s 0x03 0 0 (exec (.detCycle h vd d) s)) ∧
       (vd = false → c.d.det = true →
         Results s h [] 3 [(.s d, sval (BitVec.ofNat 64 (cycleOf s s.cur.pkg) - BitVec.ofNat 64 c.d.s0))] (exec (.detCycle h vd d) s))) ∧
     (Ready s h [.s a] [.s d] false →
       let i := Instr.elog h k clr d a
       let o := exec i s
       (selector s.cur.pkg (rs c a) = none → Faults s 0x03 0 0 o) ∧
       ∀ n arr e, selector s.cur.pkg (rs c a) = some (n, arr, e) →
         (clr = true → systemMode s.cur = false → Faults s 0x03 0 0 o) ∧
         ((clr = false ∨ systemMode s.cur = true) →
           (n = N → ResultsFrom s (if clr then modTile s N fun t => elogClear t arr e k.toNat else s) c h [.s a] 3
             [(.s d, BitVec.ofNat 2048 (elogWord (here s) arr e k.toNat (logScope (systemMode s.cur) c.d.job)))] o) ∧
           (n ≠ N → asks i n none (.elog arr e k.toNat clr (arr = 9)) .errorLogRequest))) ∧
     ((slotAt s s.cur).ph = .bound → systemMode s.cur = false → Faults s 0x04 0 0 (exec (.einj h kind a b) s)) ∧
     (Ready s h [.s a, .s b] [] false → systemMode s.cur = true →
       let i := Instr.einj h kind a b
       ((selector s.cur.pkg (rs c a) = none ∨ 2 ^ 52 ≤ (rs c b).toNat) → Faults s 0x03 0 0 (exec i s)) ∧
       ∀ n arr e, selector s.cur.pkg (rs c a) = some (n, arr, e) → (rs c b).toNat < 2 ^ 52 →
         asks i n none (.einj arr kind (rs c b).toNat (arr = 9)) .errorLogRequest)) ∧
  ((∀ (s : State) (q : SvcReq),
     let o := exec (.recordSegmentRequest q) s
     (∀ v, q.kind = .recMark v → svcCtx s q = none → o = .next s) ∧
     (∀ v, q.kind = .recMark v → (svcCtx s q).isSome = true →
       let q' := { q with turn := true }
       InTurn s q.turn (peerKey q.peer 9) (slotKey q.who.slot) (.recordSegmentRequest q') (fun u o =>
         let g := recPoint u q.peer q.who q.job q.recSeq 6 0 v.toNat
         (g.1 = true → Answered u g.2 q 16 ⟨0, true, 0, 0, 0⟩ o) ∧
         (g.1 = false → o = .next (push g.2 (u.now + 1) phLand (slotKey q.who.slot) (.recordSegmentRequest q'))) ∧
         ∀ k i j, q.recSeq = some k → segIx q.peer = some i → jobAt u q.job = some j → recOff j = false → j.r.rmode = 1 →
           let S := segAt u q.peer.pkg q.job i
           S.entries.length < segSize j → ∃ t, o = .next t ∧
             (segAt t q.peer.pkg q.job i).entries = S.entries ++ [⟨q.who.slot, k % 2 ^ 32, 6, 0, v.toNat % 2 ^ 52⟩]) o) ∧
     ∀ i, q.kind = .recDrain i →
       let S := segAt s q.peer.pkg q.job i
       Serves s q 9 (16 + S.entries.length / 64) .recordSegmentRequest (fun u => setSeg u q.peer.pkg q.job i { loaded := S.loaded })
         ⟨0, true, 0, 0, 0⟩ o) ∧
   (∀ (s : State) (q : SvcReq),
     let o := exec (.errorLogRequest q) s
     (∀ arr e w clr f, q.kind = .elog arr e w clr f →
       Serves s q 8 16 .errorLogRequest (fun u => if clr then modTile u q.peer fun t => elogClear t arr e w else u)
         ⟨BitVec.ofNat 64 (elogWord (tileAt s q.peer) arr e w (logScope q.system q.job)), true, 0, 0, 0⟩ o) ∧
     ∀ arr k a f, q.kind = .einj arr k a f →
       Serves s q 8 16 .errorLogRequest
         (fun u => modTile (stepFree u) q.peer fun t => plant t ⟨q.peer, arr, a, injectUe arr k, Config.freeSyndrome s.freeCtr⟩)
         ⟨0, true, 0, 0, 0⟩ o) ∧
   (∀ (s : State) (e : ErrSite), exec (.softError e) s = .next (modTile s e.node fun t => { t with errs := t.errs ++ [e] })) ∧
   ∀ (s : State) (pkg i n : Nat) (j : Job) (e : RecEntry), jobAt s j.handle = some j → (segAt s pkg j.handle i).entries[n]? = some e →
     let o := exec (.replayLimitExpiry pkg j.handle i n) s
     let late := (segAt s pkg j.handle i).pos = n ∧ j.r.rmode = 2 ∧ recOff j = false
     (¬ late → o = .next s) ∧
     (late → ∃ t, o = .next t ∧ (jobAt t j.handle).map (·.diverged) = some (some j.phase) ∧
       ∀ p ∈ j.pkgs, ∃ x ∈ t.agenda, x.at_ = s.now ∧ x.ev = .cancelApply p ⟨j.handle, .phase, j.phase + 1⟩))

/-- R317, R319, R324, R325, R328 and R329: the exchange forms run within a phase only, and fault elsewhere. DEM.POST and DEM.CLOSE ask the package; CAL.WAIT takes a grant from its
subscription, and with AT waits for the start of the phase; XCH.SEND captures its descriptors, asks for a reservation and then queues its
command; XCH.STAT reads; GW.TAKE and GW.DONE ask the block queue.
R319, R320, R322 to R329 and R397: the services of exchange: demand and its rows, the arbiter, calendars at a package, the start of a phase that CAL.WAIT
awaits, reservations, idle granules, the heartbeat and the standby's take-over, and the block queue. -/
def Obligations.ExchangeFormsAndServices : Prop :=
  (∀ (s : State) (h : Hdr) (a b d : SIx) (ep : EIx) (p : BitVec 3) (atStart : Bool) (w : XchW) (sync : ESync) (rsem : BitVec 8) (rsv : Bool) (td ta : DIx),
     let c := me s
     let open_ := inPhase s s.cur c = true
     let S := svcN s.cur.pkg
     let asks := fun (i : Instr) (k : SvcKind) (ev : SvcReq → Ev) (lim : Nat) => AsksSvc s h i (svcOf s S none k) ev lim 0 (exec i s)
     (Ready s h [.s a, .s b] [] false →
       let i := Instr.demPost h a b
       let n := (rs c a).toNat
       let ok := open_ ∧ n ∈ groupOf s c.d.job ∧ n ≠ s.cur.pkg ∧ (rs c b).toNat < 2 ^ 40
       (¬ ok → Faults s 0x03 0 0 (exec i s)) ∧ (ok → asks i (.demPost n (rs c b)) .demandPostRequest 0)) ∧
     (Ready s h [] [.s d] false →
       (¬ open_ → Faults s 0x03 0 0 (exec (.demClose h d) s)) ∧ (open_ → asks (.demClose h d) .demClose .demandPostRequest 5) ∧
       (¬ open_ → Faults s 0x03 0 0 (exec (.xchStat h w d) s)) ∧
       (open_ → Results s h [] 3 [(.s d, BitVec.ofNat 2048 (((exchAt s s.cur.pkg c.d.job).map fun x => statValue s s.cur x w).getD 0 % 2 ^ 64))]
         (exec (.xchStat h w d) s))) ∧
     (Ready s h [.s a] [.s d] false →
       let i := Instr.gwTake h d a
       let ok := mayTake s.cur c = true ∧ c.blk = none
       (¬ ok → Faults s 0x03 0 0 (exec i s)) ∧ (ok → asks i (.gwTake (rs c a)) .blockQueueRequest 0)) ∧
     (Ready s h [.s a] [] false →
       let i := Instr.gwDone h a
       let ok := mayTake s.cur c = true ∧ c.blk.map (BitVec.ofNat 64) = some (rs c a)
       let rel := releaseOk s s.cur c.uid .pkg s.cur.node = true
       (¬ ok → Faults s 0x03 0 0 (exec i s)) ∧ (ok → ¬ rel → RelWaits s h i (exec i s)) ∧
       (ok → rel → asks i (.gwDone (rs c a)) .blockQueueRequest 0)) ∧
     (Ready s h [] (sRun d (min 3 (64 - d.toNat)) ++ pDst p) false →
       let i := Instr.calWait h ep p atStart d
       let o := exec i s
       let e := ownEp s.cur ep
       let x := epAt s e
       let fits := d.toNat ≤ 61 ∧ x.img = 7 ∧ x.reg = none
       (¬ open_ → Faults s 0x03 0 0 o) ∧
       (open_ → Strained s h ep 3 (calOut d p [0, (closedWord x).toNat, 0] false) o) ∧
       (open_ → OwnOpen s ep → ¬ fits → Faults s 0x03 0 (refusedAux s ep 4) o) ∧
       (open_ → OwnOpen s ep → fits →
         ((epImg s ep).edge x.q .recv 14 = none → Faults s 0x0A 0 (refusedAux s ep 6) o) ∧
         ∀ t, (epImg s ep).edge x.q .recv 14 = some t →
           (x.inbox = [] → ChWaits s h i o) ∧
           (∀ m l, x.inbox = m :: l → (∀ y z, m ≠ .data y z) → Results s h [] 3 (calOut d p [0, (declinedWord m).toNat, 0] false) o) ∧
           ∀ y z l, x.inbox = .data y z :: l →
             let ws := grantWords z
             let start := (pkgAt s s.cur.pkg).cycleBase + ws.getD 0 0
             ((atStart = false ∨ start ≤ s.now) → ResultsIn s h (finishHead s e t.next) [] 3 (calOut d p ws true) o) ∧
             (atStart = true → s.now < start →
               let gs := (calOut d p ws true).map (·.1)
               let v := gs.foldl (fun s g => if realReg g then modCtx s s.cur fun c => setPres c g .pending else s) { s with no := s.no + 1 }
               Parks s h (waitBy s i s.no (.calAt start) 0 0 0 (ws.map (BitVec.ofNat 64) ++ gs.map fun g => if presOf c g = .full then 1 else 0))
                 (push v start phStart (slotKey s.cur) (.calWaitAtWake ⟨s.cur, c.uid, s.no⟩)) o))) ∧
     let i := Instr.xchSend h sync rsem rsv td ta b
     let o := exec i s
     let x := rs c b
     let bad := fun (k : Nat × Nat) => Faults s 0x16 0 (BitVec.ofNat 64 (k.1 + k.2 * 2 ^ 8)) o
     (Ready s h [.s b] [] false →
       let dd := tdHere s td
       let da := tdHere s ta
       let may := open_ ∧ mayCopy s s.cur c = true
       let held := fun (i : DIx) => ahas (here s).tds i.toNat = true
       let checks := firstBad [(da.loc ≠ 0, 17, ta.toNat), (dd.loc ≠ 0, 17, td.toNat), (!sameShape dd da, 20, td.toNat)]
       (¬ may → Faults s 0x03 0 0 o) ∧ (may → ¬ held td → bad (16, td.toNat)) ∧ (may → held td → ¬ held ta → bad (16, ta.toNat)) ∧
       (may → held td → held ta → (∀ k, checks = some k → bad k) ∧
         (checks = none →
           ((isRemote x = false ∨ (targetBase x).toNat % 2 ^ 44 ≠ 0) → Faults s 0x03 0 0 o) ∧
           (isRemote x = true → (targetBase x).toNat % 2 ^ 44 = 0 →
             (∀ f v, remoteFault s (targetBase x) true = some (f, v) → Faults s f (if f = 0x09 then x else 0) 0 o) ∧
             (remoteFault s (targetBase x) true = none →
               (16 ≤ (here s).copy.length → RelWaits s h i o) ∧
               ((here s).copy.length < 16 →
                 Parks s h (waitBy s i s.no .reply 0 0 0 (tdAt (here s) td.toNat ++ tdAt (here s) ta.toNat))
                   (svcAsked s (svcOf s S none (.xchReserve (targetPhase x) (remoteHome x).pkg da.bytes)) .exchangeReservation) o)))))) ∧
     (Fit s h [.s b] [] false →
       let got := (c.park.map (·.aux)).getD []
       let part := fun (k : Nat) => tdOf (((got.drop (8 * k)).take 8).map (·.toNat))
       let z := fun (k : Nat) => (got.getD (16 + k) 0).toNat
       got.length = 19 → (here s).copy.length < 16 →
         DoneIn s h (askEngine (queued s false (newCmd s sync 3
           (.xch (part 0) (part 1) (remoteHome x) (targetPhase x) (z 2) (z 0) (z 1) (rsemOf rsem rsv)))) s.cur.node false) o)) ∧
  ((∀ (s : State) (q : SvcReq),
     let pkg := q.who.slot.pkg
     let o := exec (.demandPostRequest q) s
     (∀ dst b, q.kind = .demPost dst b → Serves s q 4 16 .demandPostRequest (fun u => modExch u pkg q.job fun x =>
       { x with row := aset x.row dst (min (2 ^ 48 - 1) (aget 0 x.row dst + b.toNat)) }) ⟨0, true, 0, 0, 0⟩ o) ∧
     (q.kind = .demClose → (waitGone s q = true → o = .next s) ∧ (exchAt s pkg q.job = none → o = .next s) ∧
       ∀ x, waitGone s q = false → exchAt s pkg q.job = some x →
         ((x.have_ < x.period ∨ x.waitClose ≠ []) → o = .next (modExch s pkg q.job fun x => { x with waitClose := x.waitClose ++ [q] })) ∧
         (x.period ≤ x.have_ → x.waitClose = [] →
           let u := modExch (waitOver s q.who) pkg q.job fun x =>
             { x with period := x.period + 1, row := [], ungr := x.ungr + (closeRow x.row).2,
                      closed := x.closed ++ [(x.period, (closeRow x.row).1, q)] }
           o = .next (sendRow u pkg q.job x.period (closeRow x.row).1)))) ∧
   (∀ (s : State) (job : Word) (pkg per : Nat) (row : List Nat),
     let o := exec (.demandRowAccept job pkg per row) s
     let u := (allPkgs s).foldl (fun s p => modArb s p job (keepRow per pkg row)) s
     (actingOf u job = none → o = .next u) ∧
     ∀ a n l q, actingOf u job = some a → (exchAt u pkg job).bind (fun x => x.closed.find? fun y => y.1 = per) = some (n, l, q) →
       let c := max u.now (aget 0 u.served (peerKey (svcN a) 5))
       let v := svcReply { u with served := aset u.served (peerKey (svcN a) 5) (c + 1) } { q with peer := svcN a } (c + 16)
         ⟨BitVec.ofNat 64 per, true, 0, 0, 0⟩
       o = .next (tryDecompose (modExch v pkg job fun x => { x with closed := x.closed.filter fun y => y.1 ≠ per }) a job)) ∧
   (∀ (s : State) (job : Word),
     (actingOf s job = none → (∀ ev ∈ [Instr.calendarDecompose job, .calendarIssue job, .heartbeatSend job], exec ev s = .next s)) ∧
     ∀ p a, actingOf s job = some p → arbAt s p job = some a →
       let made := a.cals.find? fun c => c.period = a.next
       (made ≠ none → exec (.calendarDecompose job) s = .next s) ∧
       (made = none →
         let c := makeCalendar s a s.now
         c.period = a.next ∧ c.start0 = max (s.now + 4096) (a.lastEnd + 64) ∧
         ∃ t, exec (.calendarDecompose job) s = .next t ∧ (arbAt t p job).map (·.cals) = some (a.cals ++ [c]) ∧
           ∃ e ∈ t.agenda, e.ev = .calendarIssue job ∧
             e.at_ = if a.other = p ∨ (arbAt s a.other job).isNone then s.now else s.now + 2 * flight s (svcN p) (svcN a.other)) ∧
       (made = none → exec (.calendarIssue job) s = .next s) ∧
       (∀ c, made = some c →
         let sent := (groupOf s job).foldl (fun s g => sendUnit s p g (max 1 c.phases.length) (.calendarLand g job a.next)) s
         exec (.calendarIssue job) s = .next (tryDecompose (modArb sent p job fun a => { a with next := a.next + 1 }) p job)) ∧
       exec (.heartbeatSend job) s =
         .next (push (sendUnit s p a.other 1 (.heartbeatTimeout job)) (s.now + 1024) phLand job.toNat (.heartbeatSend job))) ∧
   (∀ (s : State) (job : Word),
     let standby := (allPkgs s).find? fun p => ((arbAt s p job).map fun a => !a.acting).getD false
     let o := exec (.heartbeatTimeout job) s
     (standby = none → o = .next s) ∧
     ∀ p a, standby = some p → arbAt s p job = some a →
       (s.now < a.beatAt + 4096 → o = .next (armTimeout (modArb s p job fun a => { a with beatAt := s.now }) job)) ∧
       (a.beatAt + 4096 ≤ s.now → ∃ t, o = .next t ∧ (arbAt t p job).map (·.acting) = some true ∧
         ∀ g ∈ groupOf s job, (exchAt t g job).map (·.tko) = some true)) ∧
   (∀ (s : State) (pkg per : Nat) (job : Word) (c : Calendar) (x : Exchange),
     (allPkgs s).findSome? (fun p => (arbAt s p job).bind fun a => a.cals.find? fun c => c.period = per) = some c → exchAt s pkg job = some x →
     (per < x.have_ → exec (.calendarLand pkg job per) s = .next s) ∧
     (x.have_ ≤ per → ∃ t, exec (.calendarLand pkg job per) s = .next t ∧ (exchAt t pkg job).map (fun y => (y.have_, y.granted)) =
       some (per + 1, x.granted + ((c.phases.filter fun p => p.pairs.any fun y => y.1 = pkg).map (·.dur)).sum))) ∧
   (∀ (s : State) (w : Who) (p : Park) (h : Hdr) (ep : EIx) (pr : BitVec 3) (at_ : Bool) (d : SIx), Waits s w p → p.form = .calWait h ep pr at_ d →
     let c := ctxAt s w.slot
     let e := ownEp w.slot ep
     let x := epAt s e
     let next := ((((imageOf s e.node x.img).edge x.q .recv 14).map (·.next)).getD x.q)
     let u := if x.inbox.head?.any (fun m => match m with | .data _ _ => true | _ => false) then finishHead s e next else s
     ∃ t, exec (.calWaitAtWake w) s = .next t ∧ OnlySlot w.slot u t ∧ (ctxAt t w.slot).pc = c.pc + 12 ∧ (ctxAt t w.slot).park = none ∧
       ∀ g ∈ calOut d pr ((p.aux.take 3).map (·.toNat)) true, realReg g.1 = true → presOf (ctxAt t w.slot) g.1 = .pending ∧
         ∃ e ∈ t.agenda, e.at_ = dueIn u w.slot.node 3 ∧ e.ev = .resultLanding w.slot w.uid g.1 g.2) ∧
   (∀ (s : State) (q : SvcReq) (ph dst len : Nat) (x : Exchange), q.kind = .xchReserve ph dst len → exchAt s q.who.slot.pkg q.job = some x →
     let pkg := q.who.slot.pkg
     let o := exec (.exchangeReservation q) s
     (∀ k, reserve s x pkg ph dst len = .error k → Serves s q 7 16 .exchangeReservation id ⟨0, false, 0x1F, 0, BitVec.ofNat 64 k⟩ o) ∧
     ∀ per p, reserve s x pkg ph dst len = .ok (per, p) →
       Serves s q 7 16 .exchangeReservation
         (fun u => modExch u pkg q.job fun y => { y with resv := aset y.resv (phaseKey per ph) (aget 0 y.resv (phaseKey per ph) + len) })
         ⟨BitVec.ofNat 64 (startOf s pkg p.start), true, 0, BitVec.ofNat 64 (startOf s pkg p.fin), BitVec.ofNat 64 per⟩ o) ∧
   (∀ (s : State) (pkg per ph : Nat) (job : Word) (x : Exchange) (p : CalPhase), exchAt s pkg job = some x →
     (x.cals.find? fun c => c.period = per).bind (fun c => c.phases[ph]?) = some p →
     ∃ t, exec (.exchangePhaseEnd pkg job per ph) s = .next t ∧ t.mem = s.mem ∧
       exchAt t pkg job = some { x with idle := x.idle + (p.dur - ceilDiv (aget 0 x.resv (phaseKey per ph)) 4096) }) ∧
   ∀ (s : State) (q : SvcReq),
     let pkg := q.peer.pkg
     let o := exec (.blockQueueRequest q) s
     let says_ := fun (f : State → State) (v : Word) => Serves s q 6 16 .blockQueueRequest f ⟨v, true, 0, 0, 0⟩ o
     (∀ x, q.kind = .gwDone x → says_ (fun u => modUnit u q.who.slot q.who.uid fun c => { c with blk := none }) 0) ∧
     ∀ nb, q.kind = .gwTake nb →
       let bq := (pkgAt s pkg).bq.getD ⟨q.launch, nb.toNat, [], []⟩
       let n := max 1 (spoutCount s q.launch)
       let k := spoutIx s q.launch q.who.slot.tile
       (svcCtx s q = none → says_ id 0) ∧
       ((svcCtx s q).isSome = true → bq.launch ≠ q.launch → says_ id (BitVec.ofNat 64 (2 ^ 64 - 2))) ∧
       ((svcCtx s q).isSome = true → bq.launch = q.launch → (nb = 0 ∨ 2 ^ 24 < nb.toNat ∨ bq.nb ≠ nb.toNat) →
         Serves s q 6 16 .blockQueueRequest id ⟨0, false, 0x03, 0, 0⟩ o) ∧
       ((svcCtx s q).isSome = true → bq.launch = q.launch → nb ≠ 0 → nb.toNat ≤ 2 ^ 24 → bq.nb = nb.toNat →
         (takeBlock bq k n = none → says_ (fun u => modPkg u pkg fun p => { p with bq := some bq }) (BitVec.allOnes 64)) ∧
         ∀ b bq', takeBlock bq k n = some (b, bq') →
           says_ (fun u => modUnit (modPkg u pkg fun p => { p with bq := some bq' }) q.who.slot q.who.uid fun c => { c with blk := some b })
             (BitVec.ofNat 64 b)))

/-- R320 and R321: the phases into which a matrix of demands is decomposed. There are at most 128; within a phase no package sends twice or receives twice, and
no two pairs of it share a directed link. -/
def Obligations.CalendarPhasesAreConflictFree : Prop :=
  ∀ (s : State) (n : Nat) (d : List ((Nat × Nat) × Nat)),
    let phases := (decompose s n d []).1
    phases.length ≤ 128 ∧
    ∀ x ∈ phases, x.1.Pairwise fun a b => a.1 ≠ b.1 ∧ a.2 ≠ b.2 ∧ conflict s b a = false

/-! ### Fabric, resets and host (chapters 13 and 16) -/

/-- R303 to R308, R311, R313 and R315: a flit alone at a router takes the output chosen for it, one hop on or out of the network, where its
event is due if its incarnation is that of the tile, and it is dropped otherwise, with a notice to its sender where one is due; a starved
tile holds up its neighbours' injection; a retry delays a port and what is on its link, and a port that is down holds its flits until it
is up, or gives one up after its time, and with it its message and the request that the message carries. -/
def Obligations.NetworkMovesFlits : Prop :=
  (∀ (s : State) (n : Node) (half : Bool) (due : Nat) (f : Flit) (o : Nat), (routerAt s n).arr = [⟨due, half, f⟩] → due ≤ s.now →
    (routerAt s n).inj = [] → f.pin = none → chooseOut s n [] (ejectedNow s n) f = some o →
    let m : Node := ⟨n.pkg, neighbour n.id o⟩
    let at_ := s.now + hopCycles n.id m.id
    let f' := { f with age := min 1023 (f.age + 1), since := at_ }
    let x := tileAt s f.dst
    ∃ t, exec (.flitSlotRouting n half) s = .next t ∧ t.mem = s.mem ∧
      (o < 4 → (⟨at_, half, f'⟩ : Arrival) ∈ (routerAt t m).arr ∧ ∃ e ∈ t.agenda, e.at_ = at_ ∧ e.ev = .flitSlotRouting m half) ∧
      (o = 4 → f.space = [] → ∀ ev, f.ev = some ev →
        (f.inc = x.inc → ∃ e ∈ t.agenda, e.at_ = s.now + 2 ∧ e.ev = ev) ∧
        (f.inc ≠ x.inc → (tileAt t f.dst).stale = x.stale + 1 ∧
          (wantsNotice f = true → (s.now + 2, Parcel.send ⟨⟨f.dst.pkg, f.dst.id, 0⟩, f.dst, f.from_, 10, 1, [], none, true,
            .staleNoticeLand f.from_ f.dst x.inc⟩) ∈ t.outbox)))) ∧
  (∀ (s : State) (n : Node),
    let starved := ∃ f ∈ (routerAt s n).inj, f.pin = none ∧ f.since + 64 ≤ s.now
    (¬ starved → exec (.injectionStarvationHold n) s = .next s) ∧
    (starved → ∃ t, exec (.injectionStarvationHold n) s = .next t ∧
      (∀ d < 4, (routerAt t ⟨n.pkg, neighbour n.id d⟩).hold = s.now + 1) ∧
      ∃ e ∈ t.agenda, e.at_ = s.now + 1 ∧ e.ev = .injectionStarvationHold n)) ∧
  (∀ (s : State) (pkg k c : Nat),
    let p := aget {} (pkgAt s pkg).ports k
    let q := fun (t : State) => aget {} (pkgAt t pkg).ports k
    (∃ t, exec (.linkRetry pkg k c) s = .next t ∧ t.mem = s.mem ∧
      (slotsOf t [pkg, 0, k]).first = max s.now (slotsOf s [pkg, 0, k]).first + c ∧
      ∀ a f, (a, Parcel.cross pkg k f) ∈ s.outbox → (a + c, Parcel.cross pkg k f) ∈ t.outbox) ∧
    (∃ t, exec (.linkPortDown pkg k) s = .next t ∧ q t = { p with up := false } ∧ t.mem = s.mem) ∧
    (∃ t, exec (.linkPortUp pkg k) s = .next t ∧ (q t).up = true ∧ (q t).held = [] ∧ t.mem = s.mem)) ∧
  ∀ (s : State) (pkg k fid : Nat),
    let p := aget {} (pkgAt s pkg).ports k
    let o := exec (.heldFlitTimeout pkg k fid) s
    (p.held.find? (fun h => h.2.fid = fid) = none → o = .next s) ∧
    ∀ t0 f, p.held.find? (fun h => h.2.fid = fid) = some (t0, f) →
      let u := dropMessage s f.mid
      ∀ w q, requester f.whole = some (w, false) →
        (waitOf u w = none → o = .next u) ∧
        (Waits u w q → (ctxAt u w.slot).region = none →
          (∀ h e a b, q.form ≠ .chOpen h e a b) → (∀ h m e d, q.form ≠ .rcBind h m e d) →
          o = .next (takeFault u w.slot w.uid 0x13 q.va 256))

/-- R189, R205, R249, R314 to R316, R328 and R353: a tile that resets has the state of reset under the next incarnation, with its error
logs, its counts and the errors of its vault, and the domain is told; a package that resets does so with all its tiles and leaves its
jobs. Where the news lands the new incarnation is known, and the tiles of the package are told; where it lands at a tile, the tile knows it,
and open channels to the old one become peer-closed; a tile without conversations is otherwise as it was. -/
def Obligations.ResetsStartANewIncarnation : Prop :=
  let again := fun (x y : Tile) => { Tile.reset with
    inc := (x.inc + 1) % 256, present := x.present, retiring := x.retiring, logs := y.logs, lostMsgs := y.lostMsgs, stale := y.stale,
    defl := y.defl, errs := y.errs.filter fun e => e.arr = 8 ∨ e.arr = 9 }
  (∀ (s : State) (n : Node),
    let x := tileAt s n
    ((isTile n.id = false ∨ hasPkg s n.pkg = false) → exec (.tileReset n) s = .next s) ∧
    (isTile n.id = true → hasPkg s n.pkg = true → ∃ t, exec (.tileReset n) s = .next t ∧ t.mem = s.mem ∧ tileAt t n = again x x ∧
      ∀ p ∈ allPkgs s, ∃ e ∈ t.agenda, e.at_ = s.now + flight s (svcN n.pkg) (svcN p) ∧ e.ev = .incarnationAnnouncementLand p n ((x.inc + 1) % 256))) ∧
  (∀ (s : State) (pkg : Nat),
    (hasPkg s pkg = false → exec (.packageReset pkg) s = .next s) ∧
    (hasPkg s pkg = true → ∃ t, exec (.packageReset pkg) s = .next t ∧ t.mem = s.mem ∧ (pkgAt t pkg).cycleBase = s.now ∧
      (pkgAt t pkg).sec = secAfterReset (pkgAt s pkg) ∧ (pkgAt t pkg).launches = [] ∧ (∀ j ∈ t.jobs, pkg ∉ j.pkgs) ∧
      ∀ i < 2126, let x := tileAt s ⟨pkg, i⟩
        ∃ y, tileAt t ⟨pkg, i⟩ = again x y ∧ (flitsIn s pkg = [] → y = x))) ∧
  (∀ (s : State) (pkg inc : Nat) (n : Node), n.id ≠ 4095 → ∃ t, exec (.incarnationAnnouncementLand pkg n inc) s = .next t ∧
    aget (0, 0, 0) (pkgAt t pkg).known (nodeKey n) = (inc, s.now, (aget (0, 0, 0) (pkgAt s pkg).known (nodeKey n)).1) ∧ t.mem = s.mem ∧
    ∀ x ∈ s.tiles, (nodeOfKey x.1).pkg = pkg →
      ∃ e ∈ t.agenda, e.at_ = s.now + flight s (svcN pkg) (nodeOfKey x.1) ∧ e.ev = .staleNoticeLand (nodeOfKey x.1) n inc) ∧
  ∀ (s : State) (n about : Node) (inc : Nat),
    let x := tileAt s n
    let o := exec (.staleNoticeLand n about inc) s
    let u := if about.id = 4095 then s
      else modTile s n fun t => { t with known := (nodeKey about, inc, s.now) :: t.known.filter fun x => x.1 ≠ nodeKey about }
    let quiet := tileUnits x = [] ∧ (∀ z ∈ s.outs, z.slot.node ≠ n) ∧ x.copy = [] ∧ x.couplers = []
    (quiet → x.eps = [] → o = .next u) ∧
    (quiet → ∃ t, o = .next t ∧ t.mem = s.mem ∧ (tileAt t n).known = (tileAt u n).known ∧
      ∀ i, (x.epAt i).st = .opened → (x.epAt i).peer.node ≠ n → concerns about (x.epAt i).peer.node = true →
        ahas x.eps i = true → ((tileAt t n).epAt i).st = .peerClosed ∧ ((tileAt t n).epAt i).cause = 0x13)

/-- R232, R301, R316 and R356 to R361: the host's writes to BAR 0, its queues and its memory; the records placed while a package comes
back from a reset are never taken (the model's reading, log 62); a record at the head of a queue is refused with its reason, waits for its
root slot, or is taken, and its root units are bound; a job whose root units have ended is over once nothing of it is under way, and leaves
no translation and no launch. -/
def Obligations.HostQueuesStartAndEndJobs : Prop :=
  (∀ (s : State) (pkg off : Nat) (b : List Byte),
    let ok := hasPkg s pkg = true ∧ off + b.length ≤ 2 ^ 40
    (¬ ok → exec (.bar0RegisterWrite pkg off b) s = .next s) ∧
    (ok → ∃ t, exec (.bar0RegisterWrite pkg off b) s = .next t ∧ Stored s.bar0 t.bar0 (barPa pkg off) b ∧ t.mem = s.mem)) ∧
  (∀ (s : State) (pkg k v : Nat),
    ((64 ≤ k ∨ hasPkg s pkg = false) → exec (.submissionTailWrite pkg k v) s = .next s) ∧
    (k < 64 → hasPkg s pkg = true → ∃ t, exec (.submissionTailWrite pkg k v) s = .next t ∧ t.mem = s.mem ∧
      let q := aget {} (pkgAt s pkg).queues k
      let away := s.now < (pkgAt s pkg).rejoin
      aget {} (pkgAt t pkg).queues k = { q with tail := v, head := if away then v else q.head } ∧
      (¬ away → ∃ e ∈ t.agenda, e.at_ = s.now ∧ e.ev = .jobRecordAccept pkg k))) ∧
  (∀ (s : State) (pkg k : Nat),
    let q := aget {} (pkgAt s pkg).queues k
    let o := exec (.jobRecordAccept pkg k) s
    let b := physRead s (q.base + 256 * (q.head % q.size)) 256
    ((q.size = 0 ∨ q.head % q.size = q.tail % q.size) → o = .next s) ∧
    (q.size ≠ 0 → q.head % q.size ≠ q.tail % q.size →
      (jobFor s pkg b (recordOf b) = none → o = .next (pushOnce s (s.now + 1) phEnd k (.jobRecordAccept pkg k))) ∧
      ∀ s' j, jobFor s pkg b (recordOf b) = some (s', j) → j.reason = 0 →
        let u := modJob s' j.handle fun j => { j with rootTables := j.rootTables.set pkg ((rootsOf s pkg (recordOf b)).getD pkg 0) }
        let why := refusal u pkg b j
        let taken := fun (t : State) => (aget {} (pkgAt t pkg).queues k).head = (q.head + 1) % max 1 q.size ∧
          ∃ e ∈ t.agenda, e.at_ = s.now ∧ e.ev = .jobRecordAccept pkg k
        (why ≠ 0 → ∃ t, o = .next t ∧ taken t ∧ (jobAt t j.handle).map (fun j => (j.done, j.status, j.reason)) = some (true, 2, why)) ∧
        (why = 0 → rootSlotFree s pkg (recordOf b).rootTile j.handle = false →
          o = .next (pushOnce s (s.now + 1) phEnd k (.jobRecordAccept pkg k))) ∧
        (why = 0 → rootSlotFree s pkg (recordOf b).rootTile j.handle = true → ∃ t, o = .next t ∧ taken t ∧
          ∃ j', jobAt t j.handle = some j' ∧ pkg ∈ j'.accepted))) ∧
  (∀ (s : State) (pkg : Nat) (j : Job), jobAt s j.handle = some j →
    let o := exec (.rootUnitBind pkg j.handle) s
    let live := j.done = false ∧ j.ending = false ∧ j.started = true
    (¬ live → o = .next s) ∧
    (live → rootSlotFree s pkg j.r.rootTile j.handle = true → o = .next (bindUnit s ⟨pkg, j.r.rootTile, 0⟩ (rootDesc j) 0)) ∧
    (live → rootSlotFree s pkg j.r.rootTile j.handle = false →
      o = .next (push s (s.now + 1) phEnd (2 ^ 40 + pkg) (.rootUnitBind pkg j.handle)))) ∧
  (∀ (s : State) (pkg : Nat) (x : Word), exec (.hostCancelWrite pkg x) s =
    .next (push s s.now phEnd (2 ^ 42) (.cancelApply pkg ⟨x, .job, x.toNat % 2 ^ 32⟩))) ∧
  (∀ (s : State) (j : Job), jobAt s j.handle = some j →
    let o := exec (.jobEnd j.handle) s
    let ends := j.done = false ∧ (j.ending = true ∨ (j.started = true ∧ ∀ p ∈ j.pkgs, p ∈ j.rootExited))
    let u := stopJob (if j.ending then s else modJob s j.handle fun j => { j with ending := true }) j
    (¬ ends → o = .next s) ∧
    (ends → jobBusy u j.handle = true → o = .next u) ∧
    (ends → jobBusy u j.handle = false → ∃ t, o = .next t ∧ (jobAt t j.handle).map (·.done) = some true ∧
      (∀ n, ∀ e ∈ (tileAt t n).tlb, e.job ≠ j.handle) ∧ ∀ p, ∀ l ∈ (pkgAt t p).launches, l.job ≠ j.handle)) ∧
  (∀ (s : State) (pkg a : Nat),
    exec (.hostCxlMemAccess pkg a none) s = .next s ∧
    ∀ b, let far := a < 2 ^ 40 ∧ a + b.length ≤ 768 * 2 ^ 30
      let host := 2 ^ 40 ≤ a ∧ a + b.length ≤ 2 ^ 40 + hostBytes
      let o := exec (.hostCxlMemAccess pkg a (some b)) s
      let pa := pkg * 2 ^ 46 + 0x100000000000 + a
      ((hasPkg s pkg = false ∨ (¬ far ∧ ¬ host)) → o = .next s) ∧
      (hasPkg s pkg = true → far → ∀ h, memHome s pa = some h → ∃ t, o = .next t ∧ Stored s.mem t.mem pa b) ∧
      (hasPkg s pkg = true → host → ∃ t, o = .next t ∧ Stored s.mem t.mem (hostPa pkg (a - 2 ^ 40)) b)) ∧
  ∀ (s : State) (pkg lanes : Nat),
    ((lanes = 16 ∨ lanes = 8) → ∃ t, exec (.hostLinkTraining pkg lanes) s = .next t ∧ pkgAt t pkg = { pkgAt s pkg with trained := true, lanes := lanes }) ∧
    (lanes ≠ 16 → lanes ≠ 8 → exec (.hostLinkTraining pkg lanes) s = .next s)

/-- R327, R332, R362 and R364 to R366: security, debug and power requests change what Table 4 of chapter 16 lets them and nothing otherwise; an operating point changes at a
round boundary; an image is verified before it is loaded and measured; the responder answers; a tile is retired when it has no tenant; a
port is retrained when no pinned route uses it; and a vault row is copied inside a refresh window. -/
def Obligations.SecurityPowerAndServiceRequests : Prop :=
  (∀ (s : State) (pkg : Nat) (r : SecReq), (∀ e ∈ s.agenda, e.at_ = s.now → ∀ k, e.ev ≠ .jobRecordAccept pkg k) →
    let p := pkgAt s pkg
    let o := exec (.securityRequest pkg r) s
    let same := o = .next s
    (r = .provision →
      (p.sec = .locked ∧ comboOk .provisioned p.debug true = true → ∃ t, o = .next t ∧ pkgAt t pkg = { p with sec := .provisioned, identity := true }) ∧
      (¬ (p.sec = .locked ∧ comboOk .provisioned p.debug true = true) → same)) ∧
    (r = .returnToVendor →
      (liveJobs s pkg = [] ∧ comboOk .rtv p.debug true = true → ∃ t, o = .next t ∧ pkgAt t pkg = { p with sec := .rtv, rtvEntered := true }) ∧
      (¬ (liveJobs s pkg = [] ∧ comboOk .rtv p.debug true = true) → same)) ∧
    (∀ st job tile, r = .debug st job tile → (debugOk s pkg p st job tile = true → ∃ t, o = .next t ∧ pkgAt t pkg = { p with debug := st }) ∧
      (debugOk s pkg p st job tile = false → same)) ∧
    (∀ i st, r = .power i st →
      (∀ x, powerOf st = some x → i < 32 → p.standbyOn = false → (x = .off → islandFree s pkg i = true) →
        ∃ t, o = .next t ∧ (aget {} (pkgAt t pkg).islands i).power = x ∧ t.mem = s.mem) ∧
      ((powerOf st = none ∨ 32 ≤ i ∨ p.standbyOn = true ∨ (powerOf st = some .off ∧ islandFree s pkg i = false)) → same)) ∧
    (r = .standby true →
      (standbyOk s pkg p = true → ∃ t, o = .next t ∧ (pkgAt t pkg).standbyOn = true ∧ ∀ i < 32, (aget {} (pkgAt t pkg).islands i).power = .off) ∧
      (standbyOk s pkg p = false → same)) ∧
    (r = .standby false →
      (p.standbyOn = true → ∃ t, o = .next t ∧ (pkgAt t pkg).standbyOn = false ∧ ∀ i < 32, (aget {} (pkgAt t pkg).islands i).power = .active) ∧
      (p.standbyOn = false → same))) ∧
  (∀ (s : State) (pkg i pt : Nat) (forced : Bool),
    let o := exec (.operatingPointChange pkg i pt forced) s
    let ok := i < 32 ∧ pt < 8 ∧ hasPkg s pkg = true
    let pinned := ∃ l ∈ (pkgAt s pkg).launches, pinsIsland pkg i s l = true
    let isl := fun (t : State) => aget {} (pkgAt t pkg).islands i
    (¬ ok → o = .next s) ∧
    (ok → (cycleOf s pkg % 16 ≠ 0 ∨ (pinned ∧ forced = false)) → ∃ t, o = .next t ∧ isl t = { isl s with want := some (pt, forced) } ∧
      ∃ e ∈ t.agenda, e.at_ = s.now + (16 - cycleOf s pkg % 16) ∧ e.ev = .operatingPointChange pkg i pt forced) ∧
    (ok → cycleOf s pkg % 16 = 0 → (¬ pinned ∨ forced = true) → ∃ t, o = .next t ∧ isl t = { isl s with point := pt, want := none } ∧ t.mem = s.mem)) ∧
  (∀ (s : State) (pkg v : Nat) (f : Firmware) (image sig : List Byte),
    let o := exec (.firmwareImageLoad pkg f image sig v) s
    let ok := Config.sigVerifies (shake256 64 image) sig = true ∧ Config.fusedMinimum ≤ v
    (¬ ok → ∃ t, o = .next t ∧ (pkgAt t pkg).firmware = (pkgAt s pkg).firmware ∧ (pkgAt t pkg).mgmtLog = (pkgAt s pkg).mgmtLog ++ [(7, cycleOf s pkg)]) ∧
    (ok → cycleOf s pkg % 16 ≠ 0 →
      o = .next (push s (s.now + (16 - cycleOf s pkg % 16)) phStart (2 ^ 41) (.firmwareImageLoad pkg f image sig v))) ∧
    (ok → cycleOf s pkg % 16 = 0 → ∃ t, o = .next t ∧
      let l := (f, v, shake256 64 image) :: (pkgAt s pkg).firmware.filter fun x => x.1 ≠ f
      (pkgAt t pkg).firmware = l ∧ (pkgAt t pkg).chain = measure l)) ∧
  (∀ (s : State) (pkg : Nat) (m : List Byte),
    let reports := ((liveJobs s pkg).filter fun j => j.r.att).flatMap (attestReport s pkg)
    ∃ t, exec (.spdmMessage pkg m) s = .next t ∧
      pkgAt t pkg = { pkgAt s pkg with spdm := (pkgAt s pkg).spdm ++ [Config.spdmAnswer (m ++ reports)] }) ∧
  (∀ (s : State) (n : Node),
    let x := tileAt s n
    let o := exec (.tileRetire n) s
    let ok := isCompute n.id = true ∧ hasPkg s n.pkg = true ∧ x.present = true
    let taken := ahas (pkgAt s n.pkg).spares (spareOf n.id)
    (¬ ok → o = .next s) ∧
    (ok → x.tenant.isSome = true → ∃ t, o = .next t ∧ tileAt t n = { x with retiring := true } ∧
      ∃ e ∈ t.agenda, e.at_ = s.now + (16 - cycleOf s n.pkg % 16) ∧ e.ev = .tileRetire n) ∧
    (ok → x.tenant = none → taken = true → ∃ t, o = .next t ∧ tileAt t n = { x with present := false, retiring := false }) ∧
    (ok → x.tenant = none → taken = false → ∃ t, o = .next t ∧ aget 0 (pkgAt t n.pkg).spares (spareOf n.id) = n.id ∧
      (tileAt t n).present = true ∧ (tileAt t n).inc = x.inc ∧ t.mem = s.mem ∧
      (tileAt t n).errs = x.errs.filter fun e => e.arr = 8)) ∧
  (∀ (s : State) (pkg k : Nat), ∃ t, exec (.portRetrain pkg k) s = .next t ∧ t.mem = s.mem ∧
    aget {} (pkgAt t pkg).ports k = { aget {} (pkgAt s pkg).ports k with retrain := portPinned s pkg k } ∧
    (portPinned s pkg k = true → ∃ e ∈ t.agenda, e.at_ = s.now + 1 ∧ e.ev = .portRetrain pkg k)) ∧
  ∀ (s : State) (n : Node) (row : Nat),
    let o := exec (.vaultRowCopy n row) s
    (isCompute n.id = false → o = .next s) ∧
    (isCompute n.id = true → 160 ≤ refreshPhase s n → o = .next (push s (s.now + (2048 - refreshPhase s n)) phStart (nodeKey n) (.vaultRowCopy n row))) ∧
    (isCompute n.id = true → refreshPhase s n < 160 → ∃ t, o = .next t ∧ t.mem = s.mem ∧
      (pkgAt t n.pkg).mgmtLog = (pkgAt s n.pkg).mgmtLog ++ [(5, cycleOf s n.pkg)])
end

