-- ==== Sys2Proof/Laws/Store.lean ====
section
/-! SUPPORT. Laws of the named stores: keyed lists, bytes, tiles, slots and contexts, and the agenda. -/

namespace Sys2Proof.Machine

/-! ### Keyed lists -/

theorem aget_aset_self {α : Type} (d x : α) (l : List (Nat × α)) (i : Nat) : aget d (aset l i x) i = x := by
  induction l with
  | nil => simp [aset, aget]
  | cons e l ih =>
    obtain ⟨k, v⟩ := e
    simp only [aset]
    split
    · simp [aget]
    · split
      · simp [aget]
      · rename_i h1 h2
        simp [aget, ih, show k ≠ i from fun h => h2 h.symm]
theorem aget_aset_ne {α : Type} (d x : α) (l : List (Nat × α)) (i j : Nat) (h : j ≠ i) : aget d (aset l i x) j = aget d l j := by
  induction l with
  | nil => simp [aset, aget, h.symm]
  | cons e l ih =>
    obtain ⟨k, v⟩ := e
    simp only [aset]
    split
    · simp [aget, h.symm]
    · split
      · rename_i h1 h2
        subst h2
        simp [aget, h.symm]
      · simp only [aget, ih]

/-! ### Tiles, slots and contexts -/

@[simp] theorem tileAt_setTile_self (s : State) (n : Node) (t : Tile) : tileAt (setTile s n t) n = t := aget_aset_self ..
theorem tileAt_setTile_ne (s : State) (n m : Node) (t : Tile) (h : nodeKey m ≠ nodeKey n) : tileAt (setTile s n t) m = tileAt s m :=
  aget_aset_ne _ _ _ _ _ h
@[simp] theorem tileAt_modTile_self (s : State) (n : Node) (f : Tile → Tile) : tileAt (modTile s n f) n = f (tileAt s n) :=
  tileAt_setTile_self ..
theorem tileAt_modTile_ne (s : State) (n m : Node) (f : Tile → Tile) (h : nodeKey m ≠ nodeKey n) :
    tileAt (modTile s n f) m = tileAt s m := tileAt_setTile_ne _ _ _ _ h

theorem slots_modSlot_self (t : Tile) (i : Nat) (f : Slot → Slot) (h : i < 16) (d : Slot) :
    (t.modSlot i f).slots.toList.getD i d = f (t.slots.toList.getD i d) := by
  simp [Tile.modSlot, h, List.getD_eq_getElem?_getD]
theorem slots_modSlot_ne (t : Tile) (i j : Nat) (f : Slot → Slot) (h : j ≠ i) (d : Slot) :
    (t.modSlot i f).slots.toList.getD j d = t.slots.toList.getD j d := by
  unfold Tile.modSlot
  split
  · simp [List.getD_eq_getElem?_getD, h.symm]
  · rfl
theorem modSlot_rest (t : Tile) (i : Nat) (f : Slot → Slot) : { t.modSlot i f with slots := t.slots } = t := by
  unfold Tile.modSlot
  split <;> rfl

theorem slotAt_modSlot_self (s : State) (r : SlotRef) (f : Slot → Slot) (h : r.slot < 16) :
    slotAt (modSlot s r f) r = f (slotAt s r) := by
  show ((tileAt (modTile s r.node _) r.node).slots.toList.getD r.slot _) = _
  rw [tileAt_modTile_self, slots_modSlot_self _ _ _ h]
  rfl
theorem slotAt_modSlot_ne (s : State) (r : SlotRef) (f : Slot → Slot) (i : Nat) (h : i ≠ r.slot) :
    slotAt (modSlot s r f) ⟨r.pkg, r.tile, i⟩ = slotAt s ⟨r.pkg, r.tile, i⟩ := by
  show ((tileAt (modTile s r.node _) r.node).slots.toList.getD i _) = _
  rw [tileAt_modTile_self, slots_modSlot_ne _ _ _ _ h]
  rfl
theorem ctxAt_modCtx_self (s : State) (r : SlotRef) (f : Ctx → Ctx) (h : r.slot < 16) :
    ctxAt (modCtx s r f) r = f (ctxAt s r) := by
  simp [ctxAt, modCtx, slotAt_modSlot_self _ _ _ h]
/-- A slot that holds something has one of the 16 numbers. -/
theorem slot_lt (s : State) (r : SlotRef) (h : (slotAt s r).ph ≠ .free) : r.slot < 16 := by
  refine Classical.byContradiction fun k => h ?_
  have : (tileAt s r.node).slots.toList.length ≤ r.slot := by simp; omega
  simp [slotAt, List.getD_eq_getElem?_getD, List.getElem?_eq_none this, Slot.reset]

/-! ### The agenda -/

theorem mem_dueInsert (d e : Due) (l : List Due) : e ∈ dueInsert d l ↔ e = d ∨ e ∈ l := by
  induction l with
  | nil => simp [dueInsert]
  | cons x l ih =>
    simp only [dueInsert]
    split
    · simp
    · simp [ih]; grind
theorem mem_push_old (s : State) (a p k : Nat) (ev : Ev) (e : Due) (h : e ∈ s.agenda) : e ∈ (push s a p k ev).agenda :=
  (mem_dueInsert _ _ _).2 (.inr h)
theorem mem_push_new (s : State) (a p k : Nat) (ev : Ev) :
    ∃ e ∈ (push s a p k ev).agenda, e.at_ = a ∧ e.ev = ev :=
  ⟨⟨a, p, k, s.no, ev⟩, (mem_dueInsert _ _ _).2 (.inl rfl), rfl, rfl⟩

/-! ### Bytes -/

/-- Addresses rise strictly above a bound, and no byte listed is 0. -/
def cellsAbove : Nat → List Host.Cell → Prop
  | _, [] => True
  | n, (a, b) :: l => n ≤ a ∧ b ≠ 0 ∧ cellsAbove (a + 1) l
theorem cellsAbove_mono {n m : Nat} {l : List Host.Cell} (h : cellsAbove n l) (k : m ≤ n) : cellsAbove m l := by
  cases l with
  | nil => trivial
  | cons e l => exact ⟨Nat.le_trans k h.1, h.2⟩
theorem cellsWf_iff (l : List Host.Cell) : cellsWf l = true ↔ cellsAbove 0 l := by
  have step : ∀ (l : List Host.Cell) (a : Nat) (b : BitVec 8), cellsWf ((a, b) :: l) = true ↔ b ≠ 0 ∧ cellsAbove (a + 1) l := by
    intro l
    induction l with
    | nil => intro a b; simp [cellsWf, cellsAbove]
    | cons e l ih =>
      obtain ⟨a', b'⟩ := e
      intro a b
      simp only [cellsWf, Bool.and_eq_true, decide_eq_true_eq, ih, cellsAbove]
      constructor
      · rintro ⟨⟨h1, h2⟩, h3, h4⟩; exact ⟨h1, h2, h3, h4⟩
      · rintro ⟨h1, h2, h3, h4⟩; exact ⟨⟨h1, h2⟩, h3, h4⟩
  cases l with
  | nil => simp [cellsWf, cellsAbove]
  | cons e l => obtain ⟨a, b⟩ := e; simp [step, cellsAbove]
/-- Dropping entries keeps the canonical form. -/
theorem filter_above (p : Host.Cell → Bool) (m : List Host.Cell) (n : Nat) (h : cellsAbove n m) : cellsAbove n (m.filter p) := by
  induction m generalizing n with
  | nil => trivial
  | cons e l ih =>
    obtain ⟨a, b⟩ := e
    obtain ⟨h1, h2, h3⟩ := h
    simp only [List.filter]
    split
    · exact ⟨h1, h2, ih _ h3⟩
    · exact cellsAbove_mono (ih _ h3) (by omega)
theorem filter_wf (p : Host.Cell → Bool) (m : List Host.Cell) (h : cellsWf m = true) : cellsWf (m.filter p) = true :=
  (cellsWf_iff _).2 (filter_above p m 0 ((cellsWf_iff _).1 h))
theorem cellPut_above (m : List Host.Cell) (n a : Nat) (x : Byte) (h : cellsAbove n m) (k : n ≤ a) (hx : x ≠ 0) :
    cellsAbove n (cellPut m a x) := by
  induction m generalizing n with
  | nil => exact ⟨k, hx, trivial⟩
  | cons e l ih =>
    obtain ⟨a', b'⟩ := e
    obtain ⟨h1, h2, h3⟩ := h
    simp only [cellPut]
    split
    · exact ⟨k, hx, by omega, h2, h3⟩
    · split
      · subst_vars; exact ⟨h1, hx, h3⟩
      · exact ⟨h1, h2, ih (a' + 1) h3 (by omega)⟩
/-- Bytes that become unknown keep the canonical form. -/
theorem unknownBytes_above (p : Nat → Bool) (m : List Host.Cell) (c n : Nat) (h : cellsAbove n m) :
    cellsAbove n (unknownBytes p c m) := by
  induction m generalizing c n with
  | nil => trivial
  | cons e l ih =>
    obtain ⟨h1, h2, h3⟩ := h
    unfold unknownBytes
    dsimp only
    generalize (if p e.1 = true then Config.freeByte c else e.2) = x
    split
    · exact cellsAbove_mono (ih _ _ h3) (by omega)
    · exact ⟨h1, ‹_›, ih _ _ h3⟩
theorem unknownBytes_wf (p : Nat → Bool) (c : Nat) (m : List Host.Cell) (h : cellsWf m = true) :
    cellsWf (unknownBytes p c m) = true :=
  (cellsWf_iff _).2 (unknownBytes_above p m c 0 ((cellsWf_iff _).1 h))
/-- Writing a byte keeps the canonical form. -/
theorem cellSet_wf (m : List Host.Cell) (a : Nat) (x : Byte) (h : cellsWf m = true) : cellsWf (cellSet m a x) = true := by
  unfold cellSet
  split
  · exact filter_wf _ m h
  · exact (cellsWf_iff _).2 (cellPut_above m 0 a x ((cellsWf_iff _).1 h) (Nat.zero_le _) ‹_›)
/-- Writing bytes keeps the canonical form. -/
theorem cellsWrite_wf (bs : List Byte) (m : List Host.Cell) (a : Nat) (h : cellsWf m = true) : cellsWf (cellsWrite m a bs) = true := by
  induction bs generalizing m a with
  | nil => exact h
  | cons b bs ih => exact ih _ _ (cellSet_wf m a b h)
/-- A byte read after one is written. -/
theorem cellGet_cellSet (m : List Host.Cell) (a : Nat) (x : Byte) (a' : Nat) :
    cellGet (cellSet m a x) a' = if a' = a then x else cellGet m a' := by
  unfold cellSet
  split
  · subst_vars
    induction m with
    | nil => simp [cellGet]
    | cons e l ih =>
      obtain ⟨k, b⟩ := e
      simp only [List.filter_cons, cellGet]
      by_cases hk : k = a
      · subst hk
        simp only [ne_eq, not_true_eq_false, decide_false, Bool.false_eq_true, if_false, ih]
        by_cases h : a' = k
        · simp [h]
        · simp [h, Ne.symm h]
      · simp only [ne_eq, hk, not_false_eq_true, decide_true, if_true, cellGet, ih]
        by_cases h : k = a'
        · subst h; simp [hk]
        · simp [h]
  · induction m with
    | nil => simp only [cellPut, cellGet, eq_comm]
    | cons e l ih =>
      obtain ⟨k, b⟩ := e
      simp only [cellPut]
      split
      · simp only [cellGet, eq_comm (a := a) (b := a')]
      · split
        · subst_vars
          simp only [cellGet, eq_comm (a := k) (b := a')]
          split <;> rfl
        · simp only [cellGet, ih]
          by_cases h : k = a'
          · subst h; rw [if_pos rfl, if_neg (fun e => by omega), if_pos rfl]
          · simp [h]
/-- A byte read after bytes are written. -/
theorem cellGet_cellsWrite (bs : List Byte) (m : List Host.Cell) (a a' : Nat) :
    cellGet (cellsWrite m a bs) a' = if a ≤ a' ∧ a' < a + bs.length then bs.getD (a' - a) 0 else cellGet m a' := by
  induction bs generalizing m a with
  | nil => simp [cellsWrite]
  | cons b bs ih =>
    rw [cellsWrite, ih, cellGet_cellSet]
    simp only [List.length_cons]
    by_cases h : a' = a
    · subst h
      rw [if_neg (by omega), if_pos rfl, if_pos ⟨Nat.le_refl _, by omega⟩, Nat.sub_self]; rfl
    · rw [if_neg h]
      by_cases k : a + 1 ≤ a' ∧ a' < a + 1 + bs.length
      · rw [if_pos k, if_pos (by omega), show a' - a = (a' - (a + 1)) + 1 by omega]; rfl
      · rw [if_neg k, if_neg (by omega)]
theorem cellsRead_length (m : List Host.Cell) (a n : Nat) : (cellsRead m a n).length = n := by
  induction n generalizing a with
  | zero => rfl
  | succ n ih => simp [cellsRead, ih]
/-- Bytes read, one by one. -/
theorem cellsRead_get (m : List Host.Cell) (a n k : Nat) (h : k < n) : (cellsRead m a n).getD k 0 = cellGet m (a + k) := by
  induction n generalizing a k with
  | zero => omega
  | succ n ih =>
    cases k with
    | zero => rfl
    | succ k => simpa [cellsRead, Nat.add_assoc, Nat.add_comm 1] using ih (a + 1) k (by omega)

end Sys2Proof.Machine
end

