-- ==== Sys2Proof/Laws/State.lean ====
section
/-! SUPPORT. What each named update of the state leaves alone, one law per field per update. -/

namespace Sys2Proof.Machine

@[simp] theorem setTile_now (s : State) (n : Node) (t : Tile) : (setTile s n t).now = s.now := rfl
@[simp] theorem setTile_shape (s : State) (n : Node) (t : Tile) : (setTile s n t).shape = s.shape := rfl
@[simp] theorem setTile_cur (s : State) (n : Node) (t : Tile) : (setTile s n t).cur = s.cur := rfl
@[simp] theorem setTile_issueQ (s : State) (n : Node) (t : Tile) : (setTile s n t).issueQ = s.issueQ := rfl
@[simp] theorem setTile_agenda (s : State) (n : Node) (t : Tile) : (setTile s n t).agenda = s.agenda := rfl
@[simp] theorem setTile_no (s : State) (n : Node) (t : Tile) : (setTile s n t).no = s.no := rfl
@[simp] theorem setTile_freeCtr (s : State) (n : Node) (t : Tile) : (setTile s n t).freeCtr = s.freeCtr := rfl
@[simp] theorem setTile_mem (s : State) (n : Node) (t : Tile) : (setTile s n t).mem = s.mem := rfl
@[simp] theorem setTile_bar0 (s : State) (n : Node) (t : Tile) : (setTile s n t).bar0 = s.bar0 := rfl
@[simp] theorem setTile_oldWords (s : State) (n : Node) (t : Tile) : (setTile s n t).oldWords = s.oldWords := rfl
@[simp] theorem setTile_pkgs (s : State) (n : Node) (t : Tile) : (setTile s n t).pkgs = s.pkgs := rfl
@[simp] theorem setTile_ctrls (s : State) (n : Node) (t : Tile) : (setTile s n t).ctrls = s.ctrls := rfl
@[simp] theorem setTile_routers (s : State) (n : Node) (t : Tile) : (setTile s n t).routers = s.routers := rfl
@[simp] theorem setTile_spaces (s : State) (n : Node) (t : Tile) : (setTile s n t).spaces = s.spaces := rfl
@[simp] theorem setTile_txSeq (s : State) (n : Node) (t : Tile) : (setTile s n t).txSeq = s.txSeq := rfl
@[simp] theorem setTile_jobs (s : State) (n : Node) (t : Tile) : (setTile s n t).jobs = s.jobs := rfl
@[simp] theorem setTile_outs (s : State) (n : Node) (t : Tile) : (setTile s n t).outs = s.outs := rfl
@[simp] theorem setTile_served (s : State) (n : Node) (t : Tile) : (setTile s n t).served = s.served := rfl

@[simp] theorem modTile_now (s : State) (n : Node) (f : Tile → Tile) : (modTile s n f).now = s.now := rfl
@[simp] theorem modTile_shape (s : State) (n : Node) (f : Tile → Tile) : (modTile s n f).shape = s.shape := rfl
@[simp] theorem modTile_cur (s : State) (n : Node) (f : Tile → Tile) : (modTile s n f).cur = s.cur := rfl
@[simp] theorem modTile_issueQ (s : State) (n : Node) (f : Tile → Tile) : (modTile s n f).issueQ = s.issueQ := rfl
@[simp] theorem modTile_agenda (s : State) (n : Node) (f : Tile → Tile) : (modTile s n f).agenda = s.agenda := rfl
@[simp] theorem modTile_no (s : State) (n : Node) (f : Tile → Tile) : (modTile s n f).no = s.no := rfl
@[simp] theorem modTile_freeCtr (s : State) (n : Node) (f : Tile → Tile) : (modTile s n f).freeCtr = s.freeCtr := rfl
@[simp] theorem modTile_mem (s : State) (n : Node) (f : Tile → Tile) : (modTile s n f).mem = s.mem := rfl
@[simp] theorem modTile_bar0 (s : State) (n : Node) (f : Tile → Tile) : (modTile s n f).bar0 = s.bar0 := rfl
@[simp] theorem modTile_oldWords (s : State) (n : Node) (f : Tile → Tile) : (modTile s n f).oldWords = s.oldWords := rfl
@[simp] theorem modTile_pkgs (s : State) (n : Node) (f : Tile → Tile) : (modTile s n f).pkgs = s.pkgs := rfl
@[simp] theorem modTile_ctrls (s : State) (n : Node) (f : Tile → Tile) : (modTile s n f).ctrls = s.ctrls := rfl
@[simp] theorem modTile_routers (s : State) (n : Node) (f : Tile → Tile) : (modTile s n f).routers = s.routers := rfl
@[simp] theorem modTile_spaces (s : State) (n : Node) (f : Tile → Tile) : (modTile s n f).spaces = s.spaces := rfl
@[simp] theorem modTile_txSeq (s : State) (n : Node) (f : Tile → Tile) : (modTile s n f).txSeq = s.txSeq := rfl
@[simp] theorem modTile_jobs (s : State) (n : Node) (f : Tile → Tile) : (modTile s n f).jobs = s.jobs := rfl
@[simp] theorem modTile_outs (s : State) (n : Node) (f : Tile → Tile) : (modTile s n f).outs = s.outs := rfl
@[simp] theorem modTile_served (s : State) (n : Node) (f : Tile → Tile) : (modTile s n f).served = s.served := rfl

@[simp] theorem modSlot_now (s : State) (r : SlotRef) (f : Slot → Slot) : (modSlot s r f).now = s.now := rfl
@[simp] theorem modSlot_shape (s : State) (r : SlotRef) (f : Slot → Slot) : (modSlot s r f).shape = s.shape := rfl
@[simp] theorem modSlot_cur (s : State) (r : SlotRef) (f : Slot → Slot) : (modSlot s r f).cur = s.cur := rfl
@[simp] theorem modSlot_issueQ (s : State) (r : SlotRef) (f : Slot → Slot) : (modSlot s r f).issueQ = s.issueQ := rfl
@[simp] theorem modSlot_agenda (s : State) (r : SlotRef) (f : Slot → Slot) : (modSlot s r f).agenda = s.agenda := rfl
@[simp] theorem modSlot_no (s : State) (r : SlotRef) (f : Slot → Slot) : (modSlot s r f).no = s.no := rfl
@[simp] theorem modSlot_freeCtr (s : State) (r : SlotRef) (f : Slot → Slot) : (modSlot s r f).freeCtr = s.freeCtr := rfl
@[simp] theorem modSlot_mem (s : State) (r : SlotRef) (f : Slot → Slot) : (modSlot s r f).mem = s.mem := rfl
@[simp] theorem modSlot_bar0 (s : State) (r : SlotRef) (f : Slot → Slot) : (modSlot s r f).bar0 = s.bar0 := rfl
@[simp] theorem modSlot_oldWords (s : State) (r : SlotRef) (f : Slot → Slot) : (modSlot s r f).oldWords = s.oldWords := rfl
@[simp] theorem modSlot_pkgs (s : State) (r : SlotRef) (f : Slot → Slot) : (modSlot s r f).pkgs = s.pkgs := rfl
@[simp] theorem modSlot_ctrls (s : State) (r : SlotRef) (f : Slot → Slot) : (modSlot s r f).ctrls = s.ctrls := rfl
@[simp] theorem modSlot_routers (s : State) (r : SlotRef) (f : Slot → Slot) : (modSlot s r f).routers = s.routers := rfl
@[simp] theorem modSlot_spaces (s : State) (r : SlotRef) (f : Slot → Slot) : (modSlot s r f).spaces = s.spaces := rfl
@[simp] theorem modSlot_txSeq (s : State) (r : SlotRef) (f : Slot → Slot) : (modSlot s r f).txSeq = s.txSeq := rfl
@[simp] theorem modSlot_jobs (s : State) (r : SlotRef) (f : Slot → Slot) : (modSlot s r f).jobs = s.jobs := rfl
@[simp] theorem modSlot_outs (s : State) (r : SlotRef) (f : Slot → Slot) : (modSlot s r f).outs = s.outs := rfl
@[simp] theorem modSlot_served (s : State) (r : SlotRef) (f : Slot → Slot) : (modSlot s r f).served = s.served := rfl

@[simp] theorem modCtx_now (s : State) (r : SlotRef) (f : Ctx → Ctx) : (modCtx s r f).now = s.now := rfl
@[simp] theorem modCtx_shape (s : State) (r : SlotRef) (f : Ctx → Ctx) : (modCtx s r f).shape = s.shape := rfl
@[simp] theorem modCtx_cur (s : State) (r : SlotRef) (f : Ctx → Ctx) : (modCtx s r f).cur = s.cur := rfl
@[simp] theorem modCtx_issueQ (s : State) (r : SlotRef) (f : Ctx → Ctx) : (modCtx s r f).issueQ = s.issueQ := rfl
@[simp] theorem modCtx_agenda (s : State) (r : SlotRef) (f : Ctx → Ctx) : (modCtx s r f).agenda = s.agenda := rfl
@[simp] theorem modCtx_no (s : State) (r : SlotRef) (f : Ctx → Ctx) : (modCtx s r f).no = s.no := rfl
@[simp] theorem modCtx_freeCtr (s : State) (r : SlotRef) (f : Ctx → Ctx) : (modCtx s r f).freeCtr = s.freeCtr := rfl
@[simp] theorem modCtx_mem (s : State) (r : SlotRef) (f : Ctx → Ctx) : (modCtx s r f).mem = s.mem := rfl
@[simp] theorem modCtx_bar0 (s : State) (r : SlotRef) (f : Ctx → Ctx) : (modCtx s r f).bar0 = s.bar0 := rfl
@[simp] theorem modCtx_oldWords (s : State) (r : SlotRef) (f : Ctx → Ctx) : (modCtx s r f).oldWords = s.oldWords := rfl
@[simp] theorem modCtx_pkgs (s : State) (r : SlotRef) (f : Ctx → Ctx) : (modCtx s r f).pkgs = s.pkgs := rfl
@[simp] theorem modCtx_ctrls (s : State) (r : SlotRef) (f : Ctx → Ctx) : (modCtx s r f).ctrls = s.ctrls := rfl
@[simp] theorem modCtx_routers (s : State) (r : SlotRef) (f : Ctx → Ctx) : (modCtx s r f).routers = s.routers := rfl
@[simp] theorem modCtx_spaces (s : State) (r : SlotRef) (f : Ctx → Ctx) : (modCtx s r f).spaces = s.spaces := rfl
@[simp] theorem modCtx_txSeq (s : State) (r : SlotRef) (f : Ctx → Ctx) : (modCtx s r f).txSeq = s.txSeq := rfl
@[simp] theorem modCtx_jobs (s : State) (r : SlotRef) (f : Ctx → Ctx) : (modCtx s r f).jobs = s.jobs := rfl
@[simp] theorem modCtx_outs (s : State) (r : SlotRef) (f : Ctx → Ctx) : (modCtx s r f).outs = s.outs := rfl
@[simp] theorem modCtx_served (s : State) (r : SlotRef) (f : Ctx → Ctx) : (modCtx s r f).served = s.served := rfl

@[simp] theorem modUnit_now (s : State) (r : SlotRef) (u : Nat) (f : Ctx → Ctx) : (modUnit s r u f).now = s.now := rfl
@[simp] theorem modUnit_shape (s : State) (r : SlotRef) (u : Nat) (f : Ctx → Ctx) : (modUnit s r u f).shape = s.shape := rfl
@[simp] theorem modUnit_cur (s : State) (r : SlotRef) (u : Nat) (f : Ctx → Ctx) : (modUnit s r u f).cur = s.cur := rfl
@[simp] theorem modUnit_issueQ (s : State) (r : SlotRef) (u : Nat) (f : Ctx → Ctx) : (modUnit s r u f).issueQ = s.issueQ := rfl
@[simp] theorem modUnit_agenda (s : State) (r : SlotRef) (u : Nat) (f : Ctx → Ctx) : (modUnit s r u f).agenda = s.agenda := rfl
@[simp] theorem modUnit_no (s : State) (r : SlotRef) (u : Nat) (f : Ctx → Ctx) : (modUnit s r u f).no = s.no := rfl
@[simp] theorem modUnit_freeCtr (s : State) (r : SlotRef) (u : Nat) (f : Ctx → Ctx) : (modUnit s r u f).freeCtr = s.freeCtr := rfl
@[simp] theorem modUnit_mem (s : State) (r : SlotRef) (u : Nat) (f : Ctx → Ctx) : (modUnit s r u f).mem = s.mem := rfl
@[simp] theorem modUnit_bar0 (s : State) (r : SlotRef) (u : Nat) (f : Ctx → Ctx) : (modUnit s r u f).bar0 = s.bar0 := rfl
@[simp] theorem modUnit_oldWords (s : State) (r : SlotRef) (u : Nat) (f : Ctx → Ctx) : (modUnit s r u f).oldWords = s.oldWords := rfl
@[simp] theorem modUnit_pkgs (s : State) (r : SlotRef) (u : Nat) (f : Ctx → Ctx) : (modUnit s r u f).pkgs = s.pkgs := rfl
@[simp] theorem modUnit_ctrls (s : State) (r : SlotRef) (u : Nat) (f : Ctx → Ctx) : (modUnit s r u f).ctrls = s.ctrls := rfl
@[simp] theorem modUnit_routers (s : State) (r : SlotRef) (u : Nat) (f : Ctx → Ctx) : (modUnit s r u f).routers = s.routers := rfl
@[simp] theorem modUnit_spaces (s : State) (r : SlotRef) (u : Nat) (f : Ctx → Ctx) : (modUnit s r u f).spaces = s.spaces := rfl
@[simp] theorem modUnit_txSeq (s : State) (r : SlotRef) (u : Nat) (f : Ctx → Ctx) : (modUnit s r u f).txSeq = s.txSeq := rfl
@[simp] theorem modUnit_jobs (s : State) (r : SlotRef) (u : Nat) (f : Ctx → Ctx) : (modUnit s r u f).jobs = s.jobs := rfl
@[simp] theorem modUnit_outs (s : State) (r : SlotRef) (u : Nat) (f : Ctx → Ctx) : (modUnit s r u f).outs = s.outs := rfl
@[simp] theorem modUnit_served (s : State) (r : SlotRef) (u : Nat) (f : Ctx → Ctx) : (modUnit s r u f).served = s.served := rfl

@[simp] theorem modEp_now (s : State) (e : EpRef) (f : Endpoint → Endpoint) : (modEp s e f).now = s.now := rfl
@[simp] theorem modEp_shape (s : State) (e : EpRef) (f : Endpoint → Endpoint) : (modEp s e f).shape = s.shape := rfl
@[simp] theorem modEp_cur (s : State) (e : EpRef) (f : Endpoint → Endpoint) : (modEp s e f).cur = s.cur := rfl
@[simp] theorem modEp_issueQ (s : State) (e : EpRef) (f : Endpoint → Endpoint) : (modEp s e f).issueQ = s.issueQ := rfl
@[simp] theorem modEp_agenda (s : State) (e : EpRef) (f : Endpoint → Endpoint) : (modEp s e f).agenda = s.agenda := rfl
@[simp] theorem modEp_no (s : State) (e : EpRef) (f : Endpoint → Endpoint) : (modEp s e f).no = s.no := rfl
@[simp] theorem modEp_freeCtr (s : State) (e : EpRef) (f : Endpoint → Endpoint) : (modEp s e f).freeCtr = s.freeCtr := rfl
@[simp] theorem modEp_mem (s : State) (e : EpRef) (f : Endpoint → Endpoint) : (modEp s e f).mem = s.mem := rfl
@[simp] theorem modEp_bar0 (s : State) (e : EpRef) (f : Endpoint → Endpoint) : (modEp s e f).bar0 = s.bar0 := rfl
@[simp] theorem modEp_oldWords (s : State) (e : EpRef) (f : Endpoint → Endpoint) : (modEp s e f).oldWords = s.oldWords := rfl
@[simp] theorem modEp_pkgs (s : State) (e : EpRef) (f : Endpoint → Endpoint) : (modEp s e f).pkgs = s.pkgs := rfl
@[simp] theorem modEp_ctrls (s : State) (e : EpRef) (f : Endpoint → Endpoint) : (modEp s e f).ctrls = s.ctrls := rfl
@[simp] theorem modEp_routers (s : State) (e : EpRef) (f : Endpoint → Endpoint) : (modEp s e f).routers = s.routers := rfl
@[simp] theorem modEp_spaces (s : State) (e : EpRef) (f : Endpoint → Endpoint) : (modEp s e f).spaces = s.spaces := rfl
@[simp] theorem modEp_txSeq (s : State) (e : EpRef) (f : Endpoint → Endpoint) : (modEp s e f).txSeq = s.txSeq := rfl
@[simp] theorem modEp_jobs (s : State) (e : EpRef) (f : Endpoint → Endpoint) : (modEp s e f).jobs = s.jobs := rfl
@[simp] theorem modEp_outs (s : State) (e : EpRef) (f : Endpoint → Endpoint) : (modEp s e f).outs = s.outs := rfl
@[simp] theorem modEp_served (s : State) (e : EpRef) (f : Endpoint → Endpoint) : (modEp s e f).served = s.served := rfl

@[simp] theorem modPkg_now (s : State) (p : Nat) (f : Pkg → Pkg) : (modPkg s p f).now = s.now := rfl
@[simp] theorem modPkg_shape (s : State) (p : Nat) (f : Pkg → Pkg) : (modPkg s p f).shape = s.shape := rfl
@[simp] theorem modPkg_cur (s : State) (p : Nat) (f : Pkg → Pkg) : (modPkg s p f).cur = s.cur := rfl
@[simp] theorem modPkg_issueQ (s : State) (p : Nat) (f : Pkg → Pkg) : (modPkg s p f).issueQ = s.issueQ := rfl
@[simp] theorem modPkg_agenda (s : State) (p : Nat) (f : Pkg → Pkg) : (modPkg s p f).agenda = s.agenda := rfl
@[simp] theorem modPkg_no (s : State) (p : Nat) (f : Pkg → Pkg) : (modPkg s p f).no = s.no := rfl
@[simp] theorem modPkg_freeCtr (s : State) (p : Nat) (f : Pkg → Pkg) : (modPkg s p f).freeCtr = s.freeCtr := rfl
@[simp] theorem modPkg_mem (s : State) (p : Nat) (f : Pkg → Pkg) : (modPkg s p f).mem = s.mem := rfl
@[simp] theorem modPkg_bar0 (s : State) (p : Nat) (f : Pkg → Pkg) : (modPkg s p f).bar0 = s.bar0 := rfl
@[simp] theorem modPkg_oldWords (s : State) (p : Nat) (f : Pkg → Pkg) : (modPkg s p f).oldWords = s.oldWords := rfl
@[simp] theorem modPkg_tiles (s : State) (p : Nat) (f : Pkg → Pkg) : (modPkg s p f).tiles = s.tiles := rfl
@[simp] theorem modPkg_ctrls (s : State) (p : Nat) (f : Pkg → Pkg) : (modPkg s p f).ctrls = s.ctrls := rfl
@[simp] theorem modPkg_routers (s : State) (p : Nat) (f : Pkg → Pkg) : (modPkg s p f).routers = s.routers := rfl
@[simp] theorem modPkg_spaces (s : State) (p : Nat) (f : Pkg → Pkg) : (modPkg s p f).spaces = s.spaces := rfl
@[simp] theorem modPkg_txSeq (s : State) (p : Nat) (f : Pkg → Pkg) : (modPkg s p f).txSeq = s.txSeq := rfl
@[simp] theorem modPkg_jobs (s : State) (p : Nat) (f : Pkg → Pkg) : (modPkg s p f).jobs = s.jobs := rfl
@[simp] theorem modPkg_outs (s : State) (p : Nat) (f : Pkg → Pkg) : (modPkg s p f).outs = s.outs := rfl
@[simp] theorem modPkg_served (s : State) (p : Nat) (f : Pkg → Pkg) : (modPkg s p f).served = s.served := rfl

@[simp] theorem modCtrl_now (s : State) (n : Node) (f : Ctrl → Ctrl) : (modCtrl s n f).now = s.now := rfl
@[simp] theorem modCtrl_shape (s : State) (n : Node) (f : Ctrl → Ctrl) : (modCtrl s n f).shape = s.shape := rfl
@[simp] theorem modCtrl_cur (s : State) (n : Node) (f : Ctrl → Ctrl) : (modCtrl s n f).cur = s.cur := rfl
@[simp] theorem modCtrl_issueQ (s : State) (n : Node) (f : Ctrl → Ctrl) : (modCtrl s n f).issueQ = s.issueQ := rfl
@[simp] theorem modCtrl_agenda (s : State) (n : Node) (f : Ctrl → Ctrl) : (modCtrl s n f).agenda = s.agenda := rfl
@[simp] theorem modCtrl_no (s : State) (n : Node) (f : Ctrl → Ctrl) : (modCtrl s n f).no = s.no := rfl
@[simp] theorem modCtrl_freeCtr (s : State) (n : Node) (f : Ctrl → Ctrl) : (modCtrl s n f).freeCtr = s.freeCtr := rfl
@[simp] theorem modCtrl_mem (s : State) (n : Node) (f : Ctrl → Ctrl) : (modCtrl s n f).mem = s.mem := rfl
@[simp] theorem modCtrl_bar0 (s : State) (n : Node) (f : Ctrl → Ctrl) : (modCtrl s n f).bar0 = s.bar0 := rfl
@[simp] theorem modCtrl_oldWords (s : State) (n : Node) (f : Ctrl → Ctrl) : (modCtrl s n f).oldWords = s.oldWords := rfl
@[simp] theorem modCtrl_tiles (s : State) (n : Node) (f : Ctrl → Ctrl) : (modCtrl s n f).tiles = s.tiles := rfl
@[simp] theorem modCtrl_pkgs (s : State) (n : Node) (f : Ctrl → Ctrl) : (modCtrl s n f).pkgs = s.pkgs := rfl
@[simp] theorem modCtrl_routers (s : State) (n : Node) (f : Ctrl → Ctrl) : (modCtrl s n f).routers = s.routers := rfl
@[simp] theorem modCtrl_spaces (s : State) (n : Node) (f : Ctrl → Ctrl) : (modCtrl s n f).spaces = s.spaces := rfl
@[simp] theorem modCtrl_txSeq (s : State) (n : Node) (f : Ctrl → Ctrl) : (modCtrl s n f).txSeq = s.txSeq := rfl
@[simp] theorem modCtrl_jobs (s : State) (n : Node) (f : Ctrl → Ctrl) : (modCtrl s n f).jobs = s.jobs := rfl
@[simp] theorem modCtrl_outs (s : State) (n : Node) (f : Ctrl → Ctrl) : (modCtrl s n f).outs = s.outs := rfl
@[simp] theorem modCtrl_served (s : State) (n : Node) (f : Ctrl → Ctrl) : (modCtrl s n f).served = s.served := rfl

@[simp] theorem modRouter_now (s : State) (n : Node) (f : Router → Router) : (modRouter s n f).now = s.now := rfl
@[simp] theorem modRouter_shape (s : State) (n : Node) (f : Router → Router) : (modRouter s n f).shape = s.shape := rfl
@[simp] theorem modRouter_cur (s : State) (n : Node) (f : Router → Router) : (modRouter s n f).cur = s.cur := rfl
@[simp] theorem modRouter_issueQ (s : State) (n : Node) (f : Router → Router) : (modRouter s n f).issueQ = s.issueQ := rfl
@[simp] theorem modRouter_agenda (s : State) (n : Node) (f : Router → Router) : (modRouter s n f).agenda = s.agenda := rfl
@[simp] theorem modRouter_no (s : State) (n : Node) (f : Router → Router) : (modRouter s n f).no = s.no := rfl
@[simp] theorem modRouter_freeCtr (s : State) (n : Node) (f : Router → Router) : (modRouter s n f).freeCtr = s.freeCtr := rfl
@[simp] theorem modRouter_mem (s : State) (n : Node) (f : Router → Router) : (modRouter s n f).mem = s.mem := rfl
@[simp] theorem modRouter_bar0 (s : State) (n : Node) (f : Router → Router) : (modRouter s n f).bar0 = s.bar0 := rfl
@[simp] theorem modRouter_oldWords (s : State) (n : Node) (f : Router → Router) : (modRouter s n f).oldWords = s.oldWords := rfl
@[simp] theorem modRouter_tiles (s : State) (n : Node) (f : Router → Router) : (modRouter s n f).tiles = s.tiles := rfl
@[simp] theorem modRouter_pkgs (s : State) (n : Node) (f : Router → Router) : (modRouter s n f).pkgs = s.pkgs := rfl
@[simp] theorem modRouter_ctrls (s : State) (n : Node) (f : Router → Router) : (modRouter s n f).ctrls = s.ctrls := rfl
@[simp] theorem modRouter_spaces (s : State) (n : Node) (f : Router → Router) : (modRouter s n f).spaces = s.spaces := rfl
@[simp] theorem modRouter_txSeq (s : State) (n : Node) (f : Router → Router) : (modRouter s n f).txSeq = s.txSeq := rfl
@[simp] theorem modRouter_jobs (s : State) (n : Node) (f : Router → Router) : (modRouter s n f).jobs = s.jobs := rfl
@[simp] theorem modRouter_outs (s : State) (n : Node) (f : Router → Router) : (modRouter s n f).outs = s.outs := rfl
@[simp] theorem modRouter_served (s : State) (n : Node) (f : Router → Router) : (modRouter s n f).served = s.served := rfl

@[simp] theorem modJob_now (s : State) (h : Word) (f : Job → Job) : (modJob s h f).now = s.now := rfl
@[simp] theorem modJob_shape (s : State) (h : Word) (f : Job → Job) : (modJob s h f).shape = s.shape := rfl
@[simp] theorem modJob_cur (s : State) (h : Word) (f : Job → Job) : (modJob s h f).cur = s.cur := rfl
@[simp] theorem modJob_issueQ (s : State) (h : Word) (f : Job → Job) : (modJob s h f).issueQ = s.issueQ := rfl
@[simp] theorem modJob_agenda (s : State) (h : Word) (f : Job → Job) : (modJob s h f).agenda = s.agenda := rfl
@[simp] theorem modJob_no (s : State) (h : Word) (f : Job → Job) : (modJob s h f).no = s.no := rfl
@[simp] theorem modJob_freeCtr (s : State) (h : Word) (f : Job → Job) : (modJob s h f).freeCtr = s.freeCtr := rfl
@[simp] theorem modJob_mem (s : State) (h : Word) (f : Job → Job) : (modJob s h f).mem = s.mem := rfl
@[simp] theorem modJob_bar0 (s : State) (h : Word) (f : Job → Job) : (modJob s h f).bar0 = s.bar0 := rfl
@[simp] theorem modJob_oldWords (s : State) (h : Word) (f : Job → Job) : (modJob s h f).oldWords = s.oldWords := rfl
@[simp] theorem modJob_tiles (s : State) (h : Word) (f : Job → Job) : (modJob s h f).tiles = s.tiles := rfl
@[simp] theorem modJob_pkgs (s : State) (h : Word) (f : Job → Job) : (modJob s h f).pkgs = s.pkgs := rfl
@[simp] theorem modJob_ctrls (s : State) (h : Word) (f : Job → Job) : (modJob s h f).ctrls = s.ctrls := rfl
@[simp] theorem modJob_routers (s : State) (h : Word) (f : Job → Job) : (modJob s h f).routers = s.routers := rfl
@[simp] theorem modJob_spaces (s : State) (h : Word) (f : Job → Job) : (modJob s h f).spaces = s.spaces := rfl
@[simp] theorem modJob_txSeq (s : State) (h : Word) (f : Job → Job) : (modJob s h f).txSeq = s.txSeq := rfl
@[simp] theorem modJob_outs (s : State) (h : Word) (f : Job → Job) : (modJob s h f).outs = s.outs := rfl
@[simp] theorem modJob_served (s : State) (h : Word) (f : Job → Job) : (modJob s h f).served = s.served := rfl

@[simp] theorem push_now (s : State) (a p k : Nat) (ev : Ev) : (push s a p k ev).now = s.now := rfl
@[simp] theorem push_shape (s : State) (a p k : Nat) (ev : Ev) : (push s a p k ev).shape = s.shape := rfl
@[simp] theorem push_cur (s : State) (a p k : Nat) (ev : Ev) : (push s a p k ev).cur = s.cur := rfl
@[simp] theorem push_issueQ (s : State) (a p k : Nat) (ev : Ev) : (push s a p k ev).issueQ = s.issueQ := rfl
@[simp] theorem push_freeCtr (s : State) (a p k : Nat) (ev : Ev) : (push s a p k ev).freeCtr = s.freeCtr := rfl
@[simp] theorem push_mem (s : State) (a p k : Nat) (ev : Ev) : (push s a p k ev).mem = s.mem := rfl
@[simp] theorem push_bar0 (s : State) (a p k : Nat) (ev : Ev) : (push s a p k ev).bar0 = s.bar0 := rfl
@[simp] theorem push_oldWords (s : State) (a p k : Nat) (ev : Ev) : (push s a p k ev).oldWords = s.oldWords := rfl
@[simp] theorem push_tiles (s : State) (a p k : Nat) (ev : Ev) : (push s a p k ev).tiles = s.tiles := rfl
@[simp] theorem push_pkgs (s : State) (a p k : Nat) (ev : Ev) : (push s a p k ev).pkgs = s.pkgs := rfl
@[simp] theorem push_ctrls (s : State) (a p k : Nat) (ev : Ev) : (push s a p k ev).ctrls = s.ctrls := rfl
@[simp] theorem push_routers (s : State) (a p k : Nat) (ev : Ev) : (push s a p k ev).routers = s.routers := rfl
@[simp] theorem push_spaces (s : State) (a p k : Nat) (ev : Ev) : (push s a p k ev).spaces = s.spaces := rfl
@[simp] theorem push_txSeq (s : State) (a p k : Nat) (ev : Ev) : (push s a p k ev).txSeq = s.txSeq := rfl
@[simp] theorem push_jobs (s : State) (a p k : Nat) (ev : Ev) : (push s a p k ev).jobs = s.jobs := rfl
@[simp] theorem push_outs (s : State) (a p k : Nat) (ev : Ev) : (push s a p k ev).outs = s.outs := rfl
@[simp] theorem push_served (s : State) (a p k : Nat) (ev : Ev) : (push s a p k ev).served = s.served := rfl

@[simp] theorem addOut_now (s : State) (o : Out) : (addOut s o).now = s.now := rfl
@[simp] theorem addOut_shape (s : State) (o : Out) : (addOut s o).shape = s.shape := rfl
@[simp] theorem addOut_cur (s : State) (o : Out) : (addOut s o).cur = s.cur := rfl
@[simp] theorem addOut_issueQ (s : State) (o : Out) : (addOut s o).issueQ = s.issueQ := rfl
@[simp] theorem addOut_agenda (s : State) (o : Out) : (addOut s o).agenda = s.agenda := rfl
@[simp] theorem addOut_no (s : State) (o : Out) : (addOut s o).no = s.no := rfl
@[simp] theorem addOut_freeCtr (s : State) (o : Out) : (addOut s o).freeCtr = s.freeCtr := rfl
@[simp] theorem addOut_mem (s : State) (o : Out) : (addOut s o).mem = s.mem := rfl
@[simp] theorem addOut_bar0 (s : State) (o : Out) : (addOut s o).bar0 = s.bar0 := rfl
@[simp] theorem addOut_oldWords (s : State) (o : Out) : (addOut s o).oldWords = s.oldWords := rfl
@[simp] theorem addOut_tiles (s : State) (o : Out) : (addOut s o).tiles = s.tiles := rfl
@[simp] theorem addOut_pkgs (s : State) (o : Out) : (addOut s o).pkgs = s.pkgs := rfl
@[simp] theorem addOut_ctrls (s : State) (o : Out) : (addOut s o).ctrls = s.ctrls := rfl
@[simp] theorem addOut_routers (s : State) (o : Out) : (addOut s o).routers = s.routers := rfl
@[simp] theorem addOut_spaces (s : State) (o : Out) : (addOut s o).spaces = s.spaces := rfl
@[simp] theorem addOut_txSeq (s : State) (o : Out) : (addOut s o).txSeq = s.txSeq := rfl
@[simp] theorem addOut_jobs (s : State) (o : Out) : (addOut s o).jobs = s.jobs := rfl
@[simp] theorem addOut_served (s : State) (o : Out) : (addOut s o).served = s.served := rfl

@[simp] theorem dropOut_now (s : State) (i : Nat) : (dropOut s i).now = s.now := rfl
@[simp] theorem dropOut_shape (s : State) (i : Nat) : (dropOut s i).shape = s.shape := rfl
@[simp] theorem dropOut_cur (s : State) (i : Nat) : (dropOut s i).cur = s.cur := rfl
@[simp] theorem dropOut_issueQ (s : State) (i : Nat) : (dropOut s i).issueQ = s.issueQ := rfl
@[simp] theorem dropOut_agenda (s : State) (i : Nat) : (dropOut s i).agenda = s.agenda := rfl
@[simp] theorem dropOut_no (s : State) (i : Nat) : (dropOut s i).no = s.no := rfl
@[simp] theorem dropOut_freeCtr (s : State) (i : Nat) : (dropOut s i).freeCtr = s.freeCtr := rfl
@[simp] theorem dropOut_mem (s : State) (i : Nat) : (dropOut s i).mem = s.mem := rfl
@[simp] theorem dropOut_bar0 (s : State) (i : Nat) : (dropOut s i).bar0 = s.bar0 := rfl
@[simp] theorem dropOut_oldWords (s : State) (i : Nat) : (dropOut s i).oldWords = s.oldWords := rfl
@[simp] theorem dropOut_tiles (s : State) (i : Nat) : (dropOut s i).tiles = s.tiles := rfl
@[simp] theorem dropOut_pkgs (s : State) (i : Nat) : (dropOut s i).pkgs = s.pkgs := rfl
@[simp] theorem dropOut_ctrls (s : State) (i : Nat) : (dropOut s i).ctrls = s.ctrls := rfl
@[simp] theorem dropOut_routers (s : State) (i : Nat) : (dropOut s i).routers = s.routers := rfl
@[simp] theorem dropOut_spaces (s : State) (i : Nat) : (dropOut s i).spaces = s.spaces := rfl
@[simp] theorem dropOut_txSeq (s : State) (i : Nat) : (dropOut s i).txSeq = s.txSeq := rfl
@[simp] theorem dropOut_jobs (s : State) (i : Nat) : (dropOut s i).jobs = s.jobs := rfl
@[simp] theorem dropOut_served (s : State) (i : Nat) : (dropOut s i).served = s.served := rfl

@[simp] theorem stepFree_now (s : State) : (stepFree s).now = s.now := rfl
@[simp] theorem stepFree_shape (s : State) : (stepFree s).shape = s.shape := rfl
@[simp] theorem stepFree_cur (s : State) : (stepFree s).cur = s.cur := rfl
@[simp] theorem stepFree_issueQ (s : State) : (stepFree s).issueQ = s.issueQ := rfl
@[simp] theorem stepFree_agenda (s : State) : (stepFree s).agenda = s.agenda := rfl
@[simp] theorem stepFree_no (s : State) : (stepFree s).no = s.no := rfl
@[simp] theorem stepFree_mem (s : State) : (stepFree s).mem = s.mem := rfl
@[simp] theorem stepFree_bar0 (s : State) : (stepFree s).bar0 = s.bar0 := rfl
@[simp] theorem stepFree_oldWords (s : State) : (stepFree s).oldWords = s.oldWords := rfl
@[simp] theorem stepFree_tiles (s : State) : (stepFree s).tiles = s.tiles := rfl
@[simp] theorem stepFree_pkgs (s : State) : (stepFree s).pkgs = s.pkgs := rfl
@[simp] theorem stepFree_ctrls (s : State) : (stepFree s).ctrls = s.ctrls := rfl
@[simp] theorem stepFree_routers (s : State) : (stepFree s).routers = s.routers := rfl
@[simp] theorem stepFree_spaces (s : State) : (stepFree s).spaces = s.spaces := rfl
@[simp] theorem stepFree_txSeq (s : State) : (stepFree s).txSeq = s.txSeq := rfl
@[simp] theorem stepFree_jobs (s : State) : (stepFree s).jobs = s.jobs := rfl
@[simp] theorem stepFree_outs (s : State) : (stepFree s).outs = s.outs := rfl
@[simp] theorem stepFree_served (s : State) : (stepFree s).served = s.served := rfl

end Sys2Proof.Machine
end

