-- ==== Sys2Proof/Laws/Forms.lean ====
section
/-! SUPPORT. What the shared operations around a form do: presence and values of registers, landings, completing, parking, and
running a form whose slot is ready. -/

namespace Sys2Proof.Machine

/-! ### Presence and values -/

theorem realReg_s (i : SIx) : realReg (.s i) = true ↔ i ≠ 0 := by simp [realReg]
/-- What setting a presence bit does to every register. -/
theorem presOf_setPres (c : Ctx) (g g' : Reg) (x : Pres) :
    presOf (setPres c g x) g' = if g' = g ∧ realReg g = true then x else presOf c g' := by
  cases g <;> rename_i i <;> cases g' <;> rename_i j <;> by_cases h : i = 0 <;>
    simp only [setPres, presOf, realReg, Reg.s.injEq, Reg.v.injEq, Reg.k.injEq, Reg.p.injEq, reduceCtorEq, if_false, h,
      if_true, decide_true, ne_eq, not_true_eq_false, decide_false, Bool.false_eq_true, and_false, not_false_eq_true, and_true]
  all_goals
    by_cases k : j = i
    · subst k; first | simp_all; done | (simp_all; exact fun e => absurd e h)
    · have e : i.toNat ≠ j.toNat := fun e => k (BitVec.eq_of_toNat_eq e.symm)
      simp_all
theorem presOf_setPres_self (c : Ctx) (g : Reg) (x : Pres) (h : realReg g = true) : presOf (setPres c g x) g = x := by
  simp [presOf_setPres, h]
theorem presOf_setPres_ne (c : Ctx) (g g' : Reg) (x : Pres) (h : g' ≠ g) : presOf (setPres c g x) g' = presOf c g' := by
  simp [presOf_setPres, h]
@[simp] theorem valOf_setPres (c : Ctx) (g g' : Reg) (x : Pres) : valOf (setPres c g x) g' = valOf c g' := by
  cases g <;> simp only [setPres] <;> (try split) <;> cases g' <;> rfl
/-- What setting a value does to the register set. -/
theorem valOf_setVal_s (c : Ctx) (i : SIx) (x : VVal) (h : i ≠ 0) : valOf (setVal c (.s i) x) (.s i) = (x.setWidth 64).setWidth 2048 := by
  simp only [valOf, setVal, if_neg h, Vector.getElem_set_self]
theorem valOf_setVal_v (c : Ctx) (i : VIx) (x : VVal) : valOf (setVal c (.v i) x) (.v i) = x := by
  simp [valOf, setVal]
@[simp] theorem presOf_setVal (c : Ctx) (g g' : Reg) (x : VVal) : presOf (setVal c g x) g' = presOf c g' := by
  cases g <;> simp only [setVal] <;> (try split) <;> cases g' <;> rfl
/-- Setting a presence bit changes presence bits only. -/
theorem setPres_rest (c : Ctx) (g : Reg) (x : Pres) :
    { setPres c g x with sP := c.sP, vP := c.vP, kP := c.kP, pP := c.pP } = c := by
  cases g <;> simp only [setPres] <;> (try split) <;> rfl
@[simp] theorem setPres_uid (c : Ctx) (g : Reg) (x : Pres) : (setPres c g x).uid = c.uid := by
  cases g <;> simp only [setPres] <;> (try split) <;> rfl

/-! ### Only the unit has changed -/

theorem OnlySlot.cur {r : SlotRef} {s t : State} (h : OnlySlot r s t) : t.cur = s.cur := (congrArg State.cur h.rest :)
theorem OnlySlot.now {r : SlotRef} {s t : State} (h : OnlySlot r s t) : t.now = s.now := (congrArg State.now h.rest :)
theorem OnlySlot.pkgs {r : SlotRef} {s t : State} (h : OnlySlot r s t) : t.pkgs = s.pkgs := (congrArg State.pkgs h.rest :)
theorem OnlySlot.refl (r : SlotRef) (s : State) : OnlySlot r s s :=
  ⟨fun _ => rfl, fun _ _ => rfl, rfl, fun _ _ => rfl, rfl, fun _ _ => rfl, rfl, fun _ h => h⟩
theorem OnlySlot.trans {r : SlotRef} {s t u : State} (h : OnlySlot r s t) (k : OnlySlot r t u) : OnlySlot r s u := by
  refine ⟨fun a => (k.mem a).trans (h.mem a), fun n a => (k.pad n a).trans (h.pad n a), ?_, fun n hn => (k.tiles n hn).trans (h.tiles n hn),
    ?_, fun i hi => (k.slots i hi).trans (h.slots i hi), ?_, fun e he => k.agenda e (h.agenda e he)⟩
  · have a := congrArg (fun x : State => { x with tiles := s.tiles, agenda := s.agenda, no := s.no }) k.rest
    exact a.trans h.rest
  · have b := congrArg (fun x : Tile => { x with slots := (tileAt s r.node).slots }) k.tile
    exact b.trans h.tile
  · have b := congrArg (fun x : Slot => { x with ctx := ctxAt s r }) k.slot
    exact b.trans h.slot
/-- Changing the context of a slot. -/
theorem OnlySlot.modCtx (s : State) (r : SlotRef) (f : Ctx → Ctx) (h : r.slot < 16) : OnlySlot r s (modCtx s r f) := by
  have tile : { tileAt (Machine.modCtx s r f) r.node with slots := (tileAt s r.node).slots } = tileAt s r.node := by
    unfold Machine.modCtx modSlot
    rw [tileAt_modTile_self]
    exact modSlot_rest _ _ _
  have tiles : ∀ n, nodeKey n ≠ nodeKey r.node → tileAt (Machine.modCtx s r f) n = tileAt s n :=
    fun n hn => tileAt_modTile_ne _ _ _ _ hn
  refine ⟨fun _ => rfl, fun n a => ?_, rfl, tiles, tile, fun i hi => slotAt_modSlot_ne _ _ _ i hi, ?_, fun _ h => h⟩
  · by_cases k : nodeKey n = nodeKey r.node
    · have e : ∀ u : State, tileAt u n = tileAt u r.node := fun u => by unfold tileAt; rw [k]
      have := congrArg Tile.sp tile
      rw [e, e]
      exact congrArg (cellGet · a) this
    · rw [tiles n k]
  · simp [Machine.modCtx, slotAt_modSlot_self _ _ _ h, ctxAt]
theorem OnlySlot.push (r : SlotRef) (s : State) (a p k : Nat) (ev : Ev) : OnlySlot r s (push s a p k ev) :=
  ⟨fun _ => rfl, fun _ _ => rfl, rfl, fun _ _ => rfl, rfl, fun _ _ => rfl, rfl, fun e h => mem_push_old s a p k ev e h⟩
theorem OnlySlot.no (r : SlotRef) (s : State) (k : Nat) : OnlySlot r s { s with no := k } :=
  ⟨fun _ => rfl, fun _ _ => rfl, rfl, fun _ _ => rfl, rfl, fun _ _ => rfl, rfl, fun _ h => h⟩
theorem OnlySlot.bound {r : SlotRef} {s t : State} (h : OnlySlot r s t) : (slotAt t r).ph = (slotAt s r).ph := (congrArg Slot.ph h.slot :)

theorem OnlyPresence.refl (c : Ctx) : OnlyPresence c c [] :=
  ⟨fun _ => rfl, fun _ _ => rfl, ⟨rfl, rfl, rfl, rfl, rfl, rfl, rfl, rfl, rfl⟩, rfl⟩
theorem OnlyPresence.mk' {c c' : Ctx} {ds : List Reg} (v : ∀ g, valOf c' g = valOf c g)
    (p : ∀ g, g ∉ ds → presOf c' g = presOf c g)
    (r : { c' with sP := c.sP, vP := c.vP, kP := c.kP, pP := c.pP, pc := c.pc, issued := c.issued, quiet := c.quiet,
                   park := c.park, packet := c.packet, readyFrom := c.readyFrom } = c) : OnlyPresence c c' ds :=
  ⟨v, p, ⟨(congrArg Ctx.waitlim r :), (congrArg Ctx.rmode r :), (congrArg Ctx.fpflags r :), (congrArg Ctx.seed r :),
    (congrArg Ctx.trappc r :), (congrArg Ctx.cause r :), (congrArg Ctx.faultaux r :), (congrArg Ctx.faultva r :),
    (congrArg Ctx.handler r :)⟩, r⟩
theorem OnlyPresence.trans {c d e : Ctx} {l m : List Reg} (h : OnlyPresence c d l) (k : OnlyPresence d e m) :
    OnlyPresence c e (l ++ m) := by
  refine .mk' (fun g => (k.values g).trans (h.values g)) (fun g hg => ?_) ?_
  · simp only [List.mem_append, not_or] at hg
    exact (k.presence g hg.2).trans (h.presence g hg.1)
  · have a := congrArg (fun x : Ctx => { x with
      sP := c.sP, vP := c.vP, kP := c.kP, pP := c.pP, pc := c.pc, issued := c.issued, quiet := c.quiet, park := c.park, packet := c.packet, readyFrom := c.readyFrom }) k.rest
    exact a.trans h.rest
theorem OnlyPresence.setPres (c : Ctx) (g : Reg) (x : Pres) : OnlyPresence c (setPres c g x) [g] := by
  refine .mk' (fun g' => valOf_setPres c g g' x) (fun g' hg => presOf_setPres_ne c g g' x (by simpa using hg)) ?_
  cases g <;> simp only [Machine.setPres] <;> (try split) <;> rfl

/-! ### Landings -/

theorem dueIn_congr {s t : State} (n : Node) (l : Nat) (h : t.now = s.now) (k : t.pkgs = s.pkgs) : dueIn t n l = dueIn s n l := by
  unfold dueIn dueFrom heldCount pkgAt; rw [h, k]
/-- Changing a bound unit is changing the context of its slot. -/
theorem modUnit_bound (s : State) (r : SlotRef) (f : Ctx → Ctx) (h : (slotAt s r).ph = .bound) :
    modUnit s r (ctxAt s r).uid f = modCtx s r f := by
  have lt : r.slot < 16 := slot_lt s r (by rw [h]; decide)
  have key : (tileAt s r.node).modSlot r.slot
      (fun l => if l.ph ≠ .free ∧ l.ctx.uid = (ctxAt s r).uid then { l with ctx := f l.ctx }
        else { l with saved := l.saved.map fun c => if c.uid = (ctxAt s r).uid then f c else c }) =
      (tileAt s r.node).modSlot r.slot (fun l => { l with ctx := f l.ctx }) := by
    have e : (tileAt s r.node).slots[r.slot] = slotAt s r := by
      simp [slotAt, List.getD_eq_getElem?_getD, lt]
    simp only [Tile.modSlot, lt, dif_pos, e, h]
    simp [ctxAt]
  exact congrArg (setTile s r.node) key

theorem OnTheWay.mono {s t u : State} {l : Nat} {ws : List (Reg × VVal)} (h : OnTheWay s t l ws)
    (a : ∀ e ∈ t.agenda, e ∈ u.agenda)
    (p : ∀ g, realReg g = true → presOf (ctxAt t s.cur) g = .pending → presOf (ctxAt u s.cur) g = .pending) : OnTheWay s u l ws := by
  intro w hw hr
  obtain ⟨h1, e, he, h2⟩ := h w hw hr
  exact ⟨p _ hr h1, e, a e he, h2⟩

/-- What sending results on their way does. -/
theorem land_all (s : State) (l : Nat) (h : (slotAt s s.cur).ph = .bound) (ws : List (Reg × VVal)) :
    let t := ws.foldl (fun u w => land u s.cur (me s).uid w.1 w.2 l) s
    OnlyUnit s t ∧ OnTheWay s t l ws ∧ OnlyPresence (me s) (ctxAt t s.cur) (ws.map (·.1)) ∧
    (ctxAt t s.cur).pc = (me s).pc ∧ (ctxAt t s.cur).issued = (me s).issued ∧ (ctxAt t s.cur).packet = (me s).packet ∧
    (ctxAt t s.cur).uid = (me s).uid := by
  induction ws using List.reverseRecOn with
  | nil => exact ⟨.refl _ s, by intro w hw; simp at hw, .refl _, rfl, rfl, rfl, rfl⟩
  | append_singleton ws w ih =>
    simp only [List.foldl_append, List.foldl_cons, List.foldl_nil, List.map_append, List.map_cons, List.map_nil]
    generalize ws.foldl (fun u w => land u s.cur (me s).uid w.1 w.2 l) s = t at ih
    obtain ⟨a, b, c, p1, p2, p3, p4⟩ := ih
    have bd : (slotAt t s.cur).ph = .bound := a.bound.trans h
    have lt : s.cur.slot < 16 := slot_lt s _ (by rw [h]; decide)
    unfold land
    split
    · rename_i hr
      rw [← p4, modUnit_bound t s.cur _ bd]
      have e : ctxAt (modCtx t s.cur fun c => setPres c w.1 .pending) s.cur = setPres (ctxAt t s.cur) w.1 .pending :=
        ctxAt_modCtx_self _ _ _ lt
      have o1 : OnlySlot s.cur t (modCtx t s.cur fun c => setPres c w.1 .pending) := .modCtx _ _ _ lt
      generalize modCtx t s.cur (fun c => setPres c w.1 .pending) = u at e o1
      have o2 := OnlySlot.push s.cur u (dueIn t s.cur.node l) phStart (slotKey s.cur) (.resultLanding s.cur (ctxAt t s.cur).uid w.1 w.2)
      have hc : ctxAt (push u (dueIn t s.cur.node l) phStart (slotKey s.cur) (.resultLanding s.cur (ctxAt t s.cur).uid w.1 w.2)) s.cur =
          setPres (ctxAt t s.cur) w.1 .pending := e
      have d : dueIn t s.cur.node l = dueIn s s.cur.node l := dueIn_congr _ _ a.now a.pkgs
      refine ⟨(a.trans o1).trans o2, ?_, ?_, ?_, ?_, ?_, ?_⟩
      · intro x hx hxr
        rcases List.mem_append.1 hx with hx | hx
        · obtain ⟨q, e', he', q2⟩ := b x hx hxr
          refine ⟨?_, e', o2.agenda _ (o1.agenda _ he'), q2⟩
          rw [hc, presOf_setPres]; split <;> simp_all
        · simp only [List.mem_singleton] at hx
          subst hx
          refine ⟨by rw [hc, presOf_setPres_self _ _ _ hr], ?_⟩
          obtain ⟨e', he', q1, q2⟩ := mem_push_new u (dueIn t s.cur.node l) phStart (slotKey s.cur) (.resultLanding s.cur (ctxAt t s.cur).uid x.1 x.2)
          exact ⟨e', he', by rw [q1, d], by rw [q2, p4]⟩
      · rw [hc]; exact c.trans (.setPres _ _ _)
      all_goals
        rw [hc]
        have r := setPres_rest (ctxAt t s.cur) w.1 .pending
      · exact (congrArg Ctx.pc r :).trans p1
      · exact (congrArg Ctx.issued r :).trans p2
      · exact (congrArg Ctx.packet r :).trans p3
      · exact (congrArg Ctx.uid r :)
    · rename_i hr
      refine ⟨a, ?_, ?_, p1, p2, p3, p4⟩
      · intro x hx hxr
        rcases List.mem_append.1 hx with hx | hx
        · exact b x hx hxr
        · simp only [List.mem_singleton] at hx
          subst hx; exact absurd hxr hr
      · exact .mk' c.values (fun g hg => c.presence g (by simp at hg ⊢; exact hg.1)) c.rest

/-! ### Running a form -/

theorem boundSrcs_none (s : State) (r : SlotRef) (uid : Nat) (gs : List Reg) (h : ∀ g ∈ gs, boundTo s r uid g = none) :
    boundSrcs s r uid gs = [] := by
  unfold boundSrcs
  split
  · rfl
  · exact List.filter_eq_nil_iff.2 fun g hg => by simp [h g hg]
theorem consumeAll_none (s : State) (r : SlotRef) (uid : Nat) (gs : List Reg) (h : ∀ g ∈ gs, boundTo s r uid g = none) :
    consumeAll s r uid gs = s := by
  unfold consumeAll
  split
  · rfl
  · induction gs with
    | nil => rfl
    | cons g gs ih =>
      have : consumeReg s r uid g = s := by unfold consumeReg; rw [h g (by simp)]
      rw [List.foldl_cons, this]
      exact ih fun g' hg => h g' (by simp [hg])
theorem freshRegs_clean (s : State) (r : SlotRef) (gs : List Reg) (h : (tileAt s r.node).errs = []) : freshRegs s r gs = s := by
  unfold freshRegs
  induction gs with
  | nil => rfl
  | cons g gs ih =>
    have : replaceUnits s r.node (regArr g) (r.slot * 256 + specifier g) (r.slot * 256 + specifier g + 1) = s := by
      unfold replaceUnits; rw [h]; rfl
    rw [List.foldl_cons, this, ih]
theorem useSrcs_none (s s' : State) (r : SlotRef) (uid : Nat) (f : Form) (h : ∀ g ∈ f.srcs, boundTo s r uid g = none) :
    useSrcs s s' r uid f = s' := by
  have e : boundSrcs s r uid f.srcs = [] := boundSrcs_none s r uid f.srcs h
  unfold useSrcs consumeAll
  rw [e]
  simp
/-- Every source of a form, its guard among them, is read as it is. -/
theorem readRegs_clean (s : State) (r : SlotRef) (c : Ctx) (gs : List Reg) (h : (tileAt s r.node).errs = []) :
    readRegs s r c gs = (s, none) := by simp [readRegs, h]
/-- The checks before a form's own pass: what the shared step does with a form that has nothing in its way. -/
theorem runForm_guarded (f : Form) (body : State → SlotRef → Ctx → Act) (s : State) (b : (slotAt s s.cur).ph = .bound)
    (q : readsHeld (me s) [.p f.h.g] = false) (g : presOf (me s) (.p f.h.g) = .full) (c : (here s).errs = []) :
    runForm f body s = if guardOf (me s) f.h = false then
        (match packetFull (me s) with
        | some x => .next (takeFault s s.cur (me s).uid fPacket 0 (BitVec.ofNat 64 x))
        | none => .next (complete s s.cur f.h.hq.toNat none))
      else .next (runBody f body s s.cur (me s)) := by
  unfold me here at *
  unfold runForm
  simp only [b, ne_eq, not_true_eq_false, if_false, q, Bool.false_eq_true, g, readRegs_clean s s.cur (ctxAt s s.cur) [.p f.h.g] c,
    Option.isSome_none]
  cases guardOf (ctxAt s s.cur) f.h <;> rfl
theorem Fit.guardFree {s : State} {h : Hdr} {srcs dsts : List Reg} {rgn : Bool} (k : Fit s h srcs dsts rgn) :
    readsHeld (me s) [.p h.g] = false := by
  rcases k.region with k | k
  · simp [readsHeld, k]
  · exact k.2.2
/-- A form with nothing in its way runs its body on the state as it stands. -/
theorem runForm_fit (f : Form) (body : State → SlotRef → Ctx → Act) (s : State) (h : Fit s f.h f.srcs f.dsts f.rgn) :
    runForm f body s = .next (applyAct s s.cur (me s).uid f (body s s.cur (me s))) := by
  have hr : ((me s).region.isSome = true ∧ (!f.rgn) = true) = False := by
    rcases h.region with h | h
    · simp [h]
    · simp [h.1]
  have hh : readsHeld (me s) f.srcs = false := by
    rcases h.region with h | h
    · simp [readsHeld, h]
    · exact h.2.1
  have h1 : (f.srcs.filter fun g => decide ¬presOf (me s) g = .full) = [] :=
    List.filter_eq_nil_iff.2 fun g hg => by simpa using h.sources g hg
  have h2 : (f.dsts.find? fun g => decide (presOf (me s) g = .ret)) = none :=
    List.find?_eq_none.2 fun g hg => by simpa using (h.dests g hg).2
  have h3 : (f.dsts.find? fun g => realReg g && (boundTo s s.cur (me s).uid g).isSome) = none :=
    List.find?_eq_none.2 fun g hg => by simp [h.unbound g (by simp [hg])]
  have h4 : (f.dsts.filter fun g => decide (presOf (me s) g = .pending)) = [] :=
    List.filter_eq_nil_iff.2 fun g hg => by simpa using (h.dests g hg).1
  have u : ∀ g ∈ f.srcs, boundTo s s.cur (me s).uid g = none := fun g hg => h.unbound g (by simp [hg])
  rw [runForm_guarded f body s h.bound h.guardFree h.guardFull h.clean, h.guardTrue, if_neg (by decide)]
  unfold runBody
  simp only [hr, if_false, hh, Bool.false_eq_true, ne_eq, h1, not_true_eq_false, h2, h3, h4, h.packet,
    readRegs_clean s s.cur (me s) f.srcs h.clean, consumeAll_none s s.cur (me s).uid f.srcs u, ite_self,
    freshRegs_clean s s.cur f.dsts h.clean]

/-- A form whose slot is ready runs its body on the state as it stands. -/
theorem runForm_ready (f : Form) (body : State → SlotRef → Ctx → Act) (s : State) (h : Ready s f.h f.srcs f.dsts f.rgn) :
    runForm f body s = .next (applyAct s s.cur (me s).uid f (body s s.cur (me s))) := runForm_fit f body s h.toFit
/-- A form that has had its effect completes, its sources not being bound. -/
theorem applyAct_done (f : Form) (s s' : State) (h : Fit s f.h f.srcs f.dsts f.rgn) :
    applyAct s s.cur (me s).uid f (.done s') = complete s' s.cur f.h.hq.toNat none := by
  simp only [applyAct, useSrcs_none s s' s.cur (me s).uid f fun g hg => h.unbound g (by simp [hg])]
theorem applyAct_jump (f : Form) (s s' : State) (t : Word) (h : Fit s f.h f.srcs f.dsts f.rgn) :
    applyAct s s.cur (me s).uid f (.jump s' t) = complete s' s.cur f.h.hq.toNat (some t) := by
  simp only [applyAct, useSrcs_none s s' s.cur (me s).uid f fun g hg => h.unbound g (by simp [hg])]
/-- The context of a slot whose form completes. -/
theorem complete_ctx (s : State) (r : SlotRef) (hq : Nat) (t : Option Word) (h : r.slot < 16) :
    ctxAt (complete s r hq t) r = { countIssue hq (ctxAt s r) with
      pc := t.getD (nextPc (ctxAt s r)), park := none, readyFrom := max (ctxAt s r).readyFrom (s.now + 1) } :=
  ctxAt_modCtx_self _ _ _ h
/-- Results on their way, and the form completes: the shared conclusion of every form of registers. -/
theorem land_complete (s : State) (h : Hdr) (srcs : List Reg) (l : Nat) (ws : List (Reg × VVal)) (o : Option Word) (pc : Word)
    (b : (slotAt s s.cur).ph = .bound) (hp : o.getD ((me s).pc + 12) = pc) :
    ResultsAt s h srcs l ws pc
      (.next (complete (ws.foldl (fun u w => land u s.cur (me s).uid w.1 w.2 (l + slowBy srcs)) s) s.cur h.hq.toNat o)) := by
  have lt : s.cur.slot < 16 := slot_lt s _ (by rw [b]; decide)
  obtain ⟨a, w, p, q1, q2, q3, _⟩ := land_all s (l + slowBy srcs) b ws
  generalize ws.foldl (fun u w => land u s.cur (me s).uid w.1 w.2 (l + slowBy srcs)) s = t at *
  have e := complete_ctx t s.cur h.hq.toNat o lt
  have o1 : OnlySlot s.cur t (complete t s.cur h.hq.toNat o) := .modCtx _ _ _ lt
  refine ⟨_, rfl, ⟨?_, ?_, ?_, ?_, ?_⟩, w.mono o1.agenda ?_, a.trans o1, ?_⟩
  · rw [e, ← hp, ← q1]; rfl
  · rw [e, ← q2]; rfl
  · rw [e]; rfl
  · rw [e]
  · rw [e, ← q3]; rfl
  · intro g _ hg; rw [e]; exact hg
  · rw [e]
    refine .mk' p.values p.presence ?_
    exact p.rest

/-- A form of registers, ready, has its results. -/
theorem runForm_results (f : Form) (body : State → SlotRef → Ctx → Act) (s : State) (l : Nat) (ls : List Reg) (ws : List (Reg × VVal))
    (h : Ready s f.h f.srcs f.dsts f.rgn) (e : body s s.cur (me s) = results s s.cur (me s) ls l ws) :
    Results s f.h ls l ws (runForm f body s) := by
  rw [runForm_ready f body s h, e]
  unfold results
  rw [applyAct_done f s _ h.toFit]
  exact land_complete s f.h ls l ws none _ h.bound rfl
/-- A form that transfers control, with results, ready. -/
theorem runForm_jump (f : Form) (body : State → SlotRef → Ctx → Act) (s : State) (l : Nat) (ls : List Reg) (ws : List (Reg × VVal))
    (t : Word) (h : Ready s f.h f.srcs f.dsts f.rgn)
    (e : body s s.cur (me s) = .jump (ws.foldl (fun u w => land u s.cur (me s).uid w.1 w.2 (l + slowBy ls)) s) t) :
    ResultsAt s f.h ls l ws t (runForm f body s) := by
  rw [runForm_ready f body s h, e, applyAct_jump f s _ t h.toFit]
  exact land_complete s f.h ls l ws (some t) _ h.bound rfl
/-- A form that completes in a state, ready. -/
theorem runForm_done (f : Form) (body : State → SlotRef → Ctx → Act) (s s' : State) (h : Ready s f.h f.srcs f.dsts f.rgn)
    (e : body s s.cur (me s) = .done s') : DoneIn s f.h s' (runForm f body s) := by
  rw [runForm_ready f body s h, e, applyAct_done f s s' h.toFit]; rfl
/-- A form that goes on and completes in a state. -/
theorem runForm_doneOn (f : Form) (body : State → SlotRef → Ctx → Act) (s s' : State) (h : Fit s f.h f.srcs f.dsts f.rgn)
    (e : body s s.cur (me s) = .done s') : DoneIn s f.h s' (runForm f body s) := by
  rw [runForm_fit f body s h, e, applyAct_done f s s' h]; rfl
/-- What parking a slot does. -/
theorem parkSlot_spec (s : State) (r : SlotRef) (i : Instr) (id : Nat) (k : ParkKind) (lk lx : Nat) (va : Word) (aux : List Word)
    (lt : r.slot < 16) (hp : (ctxAt s r).park = none) :
    let t := parkSlot s r i id k lk lx va aux
    OnlySlot r s t ∧ ctxAt t r = { ctxAt s r with park := some (waitBy s i id k lk lx va aux) } ∧
    (lk ≠ 0 → (ctxAt s r).waitlim.toNat % 2 ^ 32 ≠ 0 →
      ∃ e ∈ t.agenda, e.at_ = dueIn s r.node ((ctxAt s r).waitlim.toNat % 2 ^ 32 + 1) ∧ e.ev = .waitLimitExpiry ⟨r, (ctxAt s r).uid, id⟩) := by
  have c1 : ctxAt (modCtx s r fun c => { c with park := some (waitBy s i id k lk lx va aux) }) r = _ := ctxAt_modCtx_self _ _ _ lt
  have o1 : OnlySlot r s (modCtx s r fun c => { c with park := some (waitBy s i id k lk lx va aux) }) := .modCtx _ _ _ lt
  have e : parkSlot s r i id k lk lx va aux =
      (let u := modCtx s r fun c => { c with park := some (waitBy s i id k lk lx va aux) }
       if lk = 0 ∨ (ctxAt s r).waitlim.toNat % 2 ^ 32 = 0 then u
       else push u (dueIn s r.node ((ctxAt s r).waitlim.toNat % 2 ^ 32 + 1)) phStart (slotKey r) (.waitLimitExpiry ⟨r, (ctxAt s r).uid, id⟩)) := by
    unfold parkSlot
    simp only [hp]
    rfl
  rw [e]
  simp only
  split
  · rename_i hl
    exact ⟨o1, c1, fun l1 l2 => absurd hl (not_or.2 ⟨l1, l2⟩)⟩
  · refine ⟨o1.trans (.push ..), c1, fun _ _ => ?_⟩
    obtain ⟨x, hx, q1, q2⟩ := mem_push_new (modCtx s r fun c => { c with park := some (waitBy s i id k lk lx va aux) })
      (dueIn s r.node ((ctxAt s r).waitlim.toNat % 2 ^ 32 + 1)) phStart (slotKey r) (.waitLimitExpiry ⟨r, (ctxAt s r).uid, id⟩)
    exact ⟨x, hx, q1, q2⟩
/-- A form that goes on and waits. -/
theorem runForm_waitOn (f : Form) (body : State → SlotRef → Ctx → Act) (s s' : State) (id : Nat) (k : ParkKind) (lk lx : Nat) (va : Word)
    (aux : List Word) (h : Fit s f.h f.srcs f.dsts f.rgn) (e : body s s.cur (me s) = .wait s' id k lk lx va aux)
    (hl : lk = 0 ∨ (me s).park = none) :
    Parks s f.h (waitBy s' f.i id k lk lx va aux) s' (runForm f body s) := by
  have lt : s.cur.slot < 16 := slot_lt s _ (by rw [h.bound]; decide)
  have hn : ((ctxAt s s.cur).park.filter fun p => decide (lk ≠ 0 ∧ p.limKind = lk)) = none := by
    rcases hl with hl | hl
    · cases hp : (ctxAt s s.cur).park <;> simp [hl]
    · unfold me at hl; simp [hl]
  rw [runForm_fit f body s h, e]
  simp only [applyAct, parkIssued, hn, boundSrcs_none s s.cur (me s).uid f.srcs fun g hg => h.unbound g (by simp [hg])]
  generalize g1 : modCtx s' s.cur (fun c => { c with quiet := f.h.hq.toNat, park := none }) = u
  have e1 : ctxAt u s.cur = { ctxAt s' s.cur with quiet := f.h.hq.toNat, park := none } := by
    rw [← g1]; exact ctxAt_modCtx_self _ _ _ lt
  have n1 : u.now = s'.now := by rw [← g1]; rfl
  have d1 : ∀ n l, dueIn u n l = dueIn s' n l := fun n l => dueIn_congr n l n1 (by rw [← g1]; rfl)
  have o1 : OnlySlot s.cur s' u := by rw [← g1]; exact .modCtx _ _ _ lt
  obtain ⟨o2, c2, l2⟩ := parkSlot_spec u s.cur f.i id k lk lx va aux lt (by rw [e1])
  have hh : (waitBy u f.i id k lk lx va aux).held = [] := rfl
  have hw : waitBy u f.i id k lk lx va aux = waitBy s' f.i id k lk lx va aux := by simp [waitBy, n1]
  generalize parkSlot u s.cur f.i id k lk lx va aux = v at o2 c2 l2
  refine ⟨_, rfl, (o1.trans o2).trans (.modCtx _ _ _ lt), ?_, fun a b => ?_⟩
  · rw [ctxAt_modCtx_self _ _ _ lt, c2, e1, ← hw]
    rfl
  · have := l2 a (by rw [e1]; exact b)
    rw [e1, d1] at this
    exact this
/-- A form that issues and waits, ready. -/
theorem runForm_wait (f : Form) (body : State → SlotRef → Ctx → Act) (s s' : State) (id : Nat) (k : ParkKind) (lk lx : Nat) (va : Word)
    (aux : List Word) (h : Ready s f.h f.srcs f.dsts f.rgn) (e : body s s.cur (me s) = .wait s' id k lk lx va aux) :
    Parks s f.h (waitBy s' f.i id k lk lx va aux) s' (runForm f body s) := runForm_waitOn f body s s' id k lk lx va aux h.toFit e (.inr h.notParked)
/-- A form that faults, ready. -/
theorem runForm_trap (f : Form) (body : State → SlotRef → Ctx → Act) (s : State) (code : Nat) (va aux : Word)
    (h : Ready s f.h f.srcs f.dsts f.rgn) (e : body s s.cur (me s) = .trap code va aux) :
    runForm f body s = .next (takeFault s s.cur (me s).uid code va aux) := by
  rw [runForm_ready f body s h, e]; rfl
/-- A form that only changes its unit's context, and completes. -/
theorem DoneIn.onlyCtx {s : State} {h : Hdr} {f : Ctx → Ctx} {o : Outc} (e : DoneIn s h (modCtx s s.cur f) o)
    (b : (slotAt s s.cur).ph = .bound)
    (q : (f (me s)).pc = (me s).pc ∧ (f (me s)).issued = (me s).issued ∧ (f (me s)).packet = (me s).packet ∧
      (f (me s)).readyFrom = (me s).readyFrom) : UnitOnly s h (f (me s)) o := by
  have lt : s.cur.slot < 16 := slot_lt s _ (by rw [b]; decide)
  have c2 := complete_ctx (modCtx s s.cur f) s.cur h.hq.toNat none lt
  rw [show ctxAt (modCtx s s.cur f) s.cur = f (me s) from ctxAt_modCtx_self _ _ _ lt] at c2
  refine ⟨_, e, (OnlySlot.modCtx s s.cur f lt).trans (.modCtx _ _ _ lt), ?_⟩
  rw [c2, ← q.1, ← q.2.1, ← q.2.2.1, ← q.2.2.2]
  rfl
/-- A form that changes nothing, and completes. -/
theorem DoneIn.onlyCtx' {s : State} {h : Hdr} {o : Outc} (e : DoneIn s h s o) (b : (slotAt s s.cur).ph = .bound) :
    UnitOnly s h (me s) o := by
  have lt : s.cur.slot < 16 := slot_lt s _ (by rw [b]; decide)
  exact ⟨_, e, .modCtx _ _ _ lt, complete_ctx s s.cur h.hq.toNat none lt⟩
/-- A form whose condition does not hold waits, ready. -/
theorem runForm_cond (f : Form) (body : State → SlotRef → Ctx → Act) (s : State) (lk lx : Nat) (va : Word)
    (h : Ready s f.h f.srcs f.dsts f.rgn) (e : body s s.cur (me s) = .retry .cond lk lx va) :
    Parks s f.h (waitBy s f.i s.no .cond lk lx va []) { s with no := s.no + 1 } (runForm f body s) := by
  have lt : s.cur.slot < 16 := slot_lt s _ (by rw [h.bound]; decide)
  rw [runForm_ready f body s h, e]
  simp only [applyAct]
  generalize g0 : ({ s with no := s.no + 1 } : State) = s'
  have k0 : ctxAt s' s.cur = me s := by rw [← g0]; rfl
  have n0 : s'.now = s.now := by rw [← g0]
  generalize g1 : modCtx s' s.cur _ = u
  have e1 : ctxAt u s.cur = { me s with quiet := f.h.hq.toNat } := by
    rw [← g1, ctxAt_modCtx_self _ _ _ lt, k0]
    simp [h.notParked]
  have n1 : u.now = s'.now := by rw [← g1]; rfl
  have d1 : ∀ n l, dueIn u n l = dueIn s' n l := fun n l => dueIn_congr n l n1 (by rw [← g1]; rfl)
  have o1 : OnlySlot s.cur s' u := by rw [← g1]; exact .modCtx _ _ _ lt
  obtain ⟨o2, c2, l2⟩ := parkSlot_spec u s.cur f.i s.no .cond lk lx va [] lt (by rw [e1]; exact h.notParked)
  have hw : waitBy u f.i s.no .cond lk lx va [] = waitBy s f.i s.no .cond lk lx va [] := by simp [waitBy, n1, n0]
  generalize parkSlot u s.cur f.i s.no .cond lk lx va [] = v at o2 c2 l2
  refine ⟨_, rfl, o1.trans o2, ?_, fun a b => ?_⟩
  · rw [c2, e1, ← hw, k0]
  · rw [k0] at b ⊢
    have := l2 a (by rw [e1]; exact b)
    rw [e1, d1] at this
    exact this

/-! ### The end of a wait -/

theorem unitAt_bound (s : State) (r : SlotRef) (h : (slotAt s r).ph = .bound) : unitAt s r (ctxAt s r).uid = some (ctxAt s r) := by
  simp [unitAt, h, ctxAt]
theorem waitOf_waits {s : State} {w : Who} {p : Park} (h : Waits s w p) : waitOf s w = some (ctxAt s w.slot, p) := by
  unfold waitOf
  rw [← h.uid, unitAt_bound s _ h.bound]
  simp [h.park, h.id]
/-- What ending a wait does. -/
theorem finish_spec {s : State} {w : Who} {p : Park} (h : Waits s w p) (f : Ctx → Ctx) :
    Finishes s w (ctxAt s w.slot) f (finish s w f) := by
  have lt : w.slot.slot < 16 := slot_lt s _ (by rw [h.bound]; decide)
  have e : finish s w f = modCtx s w.slot fun c =>
      { f c with pc := nextPc c, issued := c.issued + 1, packet := c.packet.map fun x => (x.1, x.2 + 1),
                 park := none, asked := none, readyFrom := s.now + 1 } := by
    unfold finish takeDue
    rw [waitOf_waits h]
    simp only [h.due, h.held, List.foldl_nil, Bool.false_eq_true, if_false]
    rw [← h.uid, modUnit_bound s _ _ h.bound]
  rw [e]
  exact ⟨.modCtx _ _ _ lt, by rw [ctxAt_modCtx_self _ _ _ lt]; rfl⟩

/-! ### Faults -/

/-- What taking a fault does where INH is 0. -/
theorem takeFault_entry (s : State) (r : SlotRef) (code : Nat) (va aux : Word) (b : (slotAt s r).ph = .bound)
    (hi : (ctxAt s r).inh = false) (hd : (ctxAt s r).d.det = false) (hp : code ≠ fPacket ∨ (ctxAt s r).packet = none) :
    takeFault s r (ctxAt s r).uid code va aux = modCtx s r fun c => enterHandler c s.now code va aux := by
  unfold takeFault
  rw [unitAt_bound s r b]
  simp only [voidOf, hd, Bool.not_false, if_true, hi, Bool.false_eq_true, if_false]
  rw [modUnit_bound s r _ b]
  split
  · rename_i x hx
    rcases hp with hp | hp
    · rw [if_neg hp]
    · rw [hp] at hx; cases hx
  · rfl
/-- What taking a fault does where INH is 1. -/
theorem takeFault_nested (s : State) (r : SlotRef) (code : Nat) (va aux : Word) (b : (slotAt s r).ph = .bound)
    (hi : (ctxAt s r).inh = true) (hd : (ctxAt s r).d.det = false) :
    takeFault s r (ctxAt s r).uid code va aux =
      endUnit (sendSup s r (ctxAt s r) 6 code (faultPc (ctxAt s r))
        (BitVec.ofNat 64 (r.tile * 2 ^ 20 + r.slot * 2 ^ 16 + (ctxAt s r).cause.toNat % 256 * 2 ^ 8 + code))) r (ctxAt s r).uid code true false := by
  unfold takeFault
  rw [unitAt_bound s r b]
  simp only [voidOf, hd, Bool.not_false, if_true, hi]

/-! ### What every form does before its body -/

/-- A form never stops for a slot that holds a unit. -/
theorem runForm_next (f : Form) (body : State → SlotRef → Ctx → Act) (s : State) (b : (slotAt s s.cur).ph = .bound) :
    ∃ t, runForm f body s = .next t := by
  unfold runForm
  simp only [b, ne_eq, not_true_eq_false, if_false]
  repeat' split
  all_goals exact ⟨_, rfl⟩
/-- A form whose guard is false completes with no effect (R45). -/
theorem runForm_skip (f : Form) (body : State → SlotRef → Ctx → Act) (s : State) (b : (slotAt s s.cur).ph = .bound)
    (n : readsHeld (me s) [.p f.h.g] = false) (e : (here s).errs = [])
    (g : presOf (me s) (.p f.h.g) = .full) (k : guardOf (me s) f.h = false) (q : packetFull (me s) = none) :
    DoneIn s f.h s (runForm f body s) := by
  rw [runForm_guarded f body s b n g e, if_pos k, q]
  rfl

/-! ### Results beside other effects -/

/-- A form that has had other effects, in the state s1, and completes with results, ready. -/
theorem runForm_resultsFrom (f : Form) (body : State → SlotRef → Ctx → Act) (s s1 : State) (l : Nat) (ls : List Reg) (ws : List (Reg × VVal))
    (h : Ready s f.h f.srcs f.dsts f.rgn) (e : body s s.cur (me s) = results s1 s.cur (me s) ls l ws)
    (k : s1.cur = s.cur ∧ s1.now = s.now ∧ s1.pkgs = s.pkgs) (b : (slotAt s1 s.cur).ph = .bound)
    (q : (ctxAt s1 s.cur).uid = (me s).uid ∧ (ctxAt s1 s.cur).pc = (me s).pc ∧ (ctxAt s1 s.cur).issued = (me s).issued ∧
      (ctxAt s1 s.cur).packet = (me s).packet) :
    ResultsFrom s s1 (ctxAt s1 s.cur) f.h ls l ws (runForm f body s) := by
  have b1 : (slotAt s1 s1.cur).ph = .bound := by rw [k.1]; exact b
  obtain ⟨t, q1, q2, q3, q4, q5⟩ := land_complete s1 f.h ls l ws none _ b1 rfl
  rw [runForm_ready f body s h, e]
  unfold results
  rw [applyAct_done f s _ h.toFit]
  have hm : me s1 = ctxAt s1 s.cur := by unfold me; rw [k.1]
  have hu : (me s1).uid = (me s).uid := by rw [hm]; exact q.1
  have d : ∀ n l, dueIn s1 n l = dueIn s n l := fun n l => dueIn_congr n l k.2.1 k.2.2
  rw [hu] at q1
  refine ⟨t, ?_, ⟨?_, ?_, ?_, ?_, ?_⟩, ?_, ?_, ?_⟩
  · rw [← q1, k.1]
  · rw [← k.1, q2.pc]; simp [hm, q.2.1]
  · rw [← k.1, q2.issued, hm, q.2.2.1]
  · rw [← k.1, q2.quiet]
  · rw [← k.1, q2.park]
  · rw [← k.1, q2.packet, hm, q.2.2.2]
  · intro w hw hr
    obtain ⟨p1, x, hx, p2, p3⟩ := q3 w hw hr
    rw [k.1] at p1 p2 p3
    rw [d] at p2; rw [hu] at p3
    exact ⟨p1, x, hx, p2, p3⟩
  · rw [← k.1]; exact q4
  · rw [← k.1]; exact q5

/-- How a form that rounds ends, ready, beside the effects of the state s1 that leave its unit as it was. -/
theorem runForm_fpEnd (f : Form) (body : State → SlotRef → Ctx → Act) (s s1 : State) (l : Nat) (ls : List Reg) (ws : List (Reg × VVal))
    (a : FAcc) (h : Ready s f.h f.srcs f.dsts f.rgn) (e : body s s.cur (me s) = fpEnd s1 s.cur (me s) a ls l ws)
    (k : s1.cur = s.cur ∧ s1.now = s.now ∧ s1.pkgs = s.pkgs) (b : slotAt s1 s.cur = slotAt s s.cur) :
    FpEnds s s1 f.h ls l ws a (runForm f body s) := by
  have lt : s.cur.slot < 16 := slot_lt s _ (by rw [h.bound]; decide)
  refine ⟨fun hb => ?_, fun lane hb => ?_⟩
  · simp only [fpEnd, hb] at e
    have ec : ctxAt s1 s.cur = me s := by unfold ctxAt me ctxAt; rw [b]
    have e2 : ctxAt (modCtx s1 s.cur fun c => { c with fpflags := c.fpflags ||| BitVec.ofNat 64 a.flags, seed := a.seed }) s.cur = noted (me s) a := by
      rw [ctxAt_modCtx_self _ _ _ lt, ec]; rfl
    have o1 : OnlySlot s.cur s1 (modCtx s1 s.cur fun c => { c with fpflags := c.fpflags ||| BitVec.ofNat 64 a.flags, seed := a.seed }) :=
      .modCtx _ _ _ lt
    have := runForm_resultsFrom f body s _ l ls ws h e k (o1.bound.trans (by rw [b]; exact h.bound)) (by rw [e2]; exact ⟨rfl, rfl, rfl, rfl⟩)
    rw [e2] at this
    obtain ⟨t, q1, q2, q3, q4, q5⟩ := this
    exact ⟨t, q1, q2, q3, o1.trans q4, q5⟩
  · simp only [fpEnd, hb] at e
    rw [runForm_ready f body s h, e]
    rfl
theorem pushOnce_agenda (s : State) (a p k : Nat) (ev : Ev) :
    { pushOnce s a p k ev with agenda := s.agenda, no := s.no } = s := by
  unfold pushOnce; split <;> rfl
/-- How a form of the array ends, ready. -/
theorem runForm_array (f : Form) (beats : Nat) (body : State → SlotRef → Ctx → Nat → Act) (s : State) (l : Nat) (ls : List Reg)
    (ws : List (Reg × VVal)) (a : FAcc) (h : Ready s f.h f.srcs f.dsts f.rgn)
    (e : body (arrayTaken s beats) s.cur (me s) (here s).beats = fpEnd (arrayTaken s beats) s.cur (me s) a ls ((here s).beats + l) ws) :
    ArrayEnds s beats f.h ls l ws a f.i (runForm f (arrayForm beats body) s) := by
  have lt : s.cur.slot < 16 := slot_lt s _ (by rw [h.bound]; decide)
  refine ⟨fun hb => ?_, fun hb => ?_⟩
  · have k := pushOnce_agenda (modTile s s.cur.node fun t => { t with beats := (here s).beats + beats }) (dueIn s s.cur.node 1) phStart
      (nodeKey s.cur.node) (.arrayBeatStart s.cur.node)
    refine runForm_fpEnd f _ s (arrayTaken s beats) _ ls ws a h ?_ ⟨(congrArg State.cur k :), (congrArg State.now k :), (congrArg State.pkgs k :)⟩ ?_
    · rw [← e]
      show (if 15 < (here s).beats then _ else _) = _
      rw [if_neg (by omega)]
      rfl
    · have t := (congrArg State.tiles k :)
      have : slotAt (arrayTaken s beats) s.cur = slotAt (modTile s s.cur.node fun t => { t with beats := (here s).beats + beats }) s.cur := by
        unfold slotAt tileAt; exact congrArg (fun x => ((aget Tile.reset x (nodeKey s.cur.node)).slots.toList.getD s.cur.slot (Slot.reset s.cur.slot))) t
      rw [this]
      simp [slotAt]
  · have e2 : arrayForm beats body s s.cur (me s) = .retry .busy 0 0 0 := if_pos hb
    rw [runForm_ready f _ s h, e2]
    simp only [applyAct]
    generalize g0 : ({ s with no := s.no + 1 } : State) = s'
    have k0 : ctxAt s' s.cur = me s := by rw [← g0]; rfl
    have o0 : OnlySlot s.cur s s' := by rw [← g0]; exact .no _ _ _
    have c1 : ctxAt (modCtx s' s.cur fun c => { c with lost := c.lost + 1 }) s.cur = { me s with lost := (me s).lost + 1 } := by
      rw [ctxAt_modCtx_self _ _ _ lt, k0]
    obtain ⟨q1, q2, _⟩ := parkSlot_spec (modCtx s' s.cur fun c => { c with lost := c.lost + 1 }) s.cur f.i s.no .busy 0 0 0 [] lt
      (by rw [c1]; exact h.notParked)
    refine ⟨_, rfl, (o0.trans (.modCtx _ _ _ lt)).trans q1, ?_⟩
    rw [q2, c1]
    simp only [waitBy, modCtx_now, o0.now]

end Sys2Proof.Machine
end

