-- ==== Sys2Proof/Laws/Pad.lean ====
section
/-! SUPPORT. What the operations of scratchpads do: where an access lies, what is stored, what is sent and what waits. -/

namespace Sys2Proof.Machine

theorem consume_clean (s : State) (n : Node) (arr lo hi : Nat) (w : Consumer) (h : (tileAt s n).errs = []) : consume s n arr lo hi w = (s, none) := by
  simp [consume, errSites, h]
theorem replaceUnits_clean (s : State) (n : Node) (arr lo hi : Nat) (h : (tileAt s n).errs = []) : replaceUnits s n arr lo hi = s := by
  simp [replaceUnits, h]
theorem padForm_at {s : State} {ea : Word} {n al off : Nat} {one : Bool} (h : PadAt s ea n al one off) (loc : Nat → Act) (rem : Act) :
    padForm ea n al one s s.cur loc rem = loc off := by
  obtain ⟨a, b, ⟨c, rfl⟩ | ⟨c, rfl, rfl, d, e, rfl⟩⟩ := h
  · simp [padForm, c, a, show padOk (tileAt s s.cur.node) ea.toNat n = true from b]
  · unfold padForm
    simp only [c, if_true, decide_true, Bool.and_true, d, a, ne_eq, not_true_eq_false, if_false, e]
    exact if_pos b
theorem padForm_away {s : State} {ea : Word} {n al : Nat} (h : PadAway s ea n al) (loc : Nat → Act) (rem : Act) :
    padForm ea n al true s s.cur loc rem = rem := by
  obtain ⟨a, rfl, b, c, d⟩ := h
  simp [padForm, a, b, c, d]
theorem padForm_remote (s : State) (ea : Word) (n al : Nat) (loc : Nat → Act) (rem : Act) (h : isRemote ea = true) :
    padForm ea n al false s s.cur loc rem = .trap fOperand 0 0 := by
  simp [padForm, h, remoteFault]
theorem padForm_misaligned (s : State) (ea : Word) (n al : Nat) (one : Bool) (loc : Nat → Act) (rem : Act) (h : isRemote ea = false) (k : ea.toNat % al ≠ 0) :
    padForm ea n al one s s.cur loc rem = .trap fMisaligned ea 0 := by
  simp [padForm, h, k]
theorem padForm_bounds (s : State) (ea : Word) (n al : Nat) (one : Bool) (loc : Nat → Act) (rem : Act) (h : isRemote ea = false) (k : ea.toNat % al = 0)
    (b : padOk (here s) ea.toNat n = false) : padForm ea n al one s s.cur loc rem = .trap fBounds ea 0 := by
  simp [padForm, h, k, show padOk (tileAt s s.cur.node) ea.toNat n = false from b]
/-- Bytes written are stored where they are written, and nowhere else. -/
theorem stored_cellsWrite (m : List Host.Cell) (a : Nat) (b : List Byte) : Stored m (cellsWrite m a b) a b := fun x => cellGet_cellsWrite b m a x
theorem cellsRead_eq (m : List Host.Cell) (a n : Nat) : cellsRead m a n = (List.range n).map fun k => cellGet m (a + k) := by
  refine List.ext_getElem (by simp [cellsRead_length]) fun k h1 h2 => ?_
  have h : k < n := by simpa using h2
  have := cellsRead_get m a n k h
  simp only [List.getElem_map, List.getElem_range]
  rw [← this]
  simp [List.getD_eq_getElem?_getD, h1]
theorem bytesOfNat_length (n x : Nat) : (bytesOfNat n x).length = n := by
  induction n generalizing x with
  | zero => rfl
  | succ n ih => simp [bytesOfNat, ih]
theorem natOfBytes_lt (b : List Byte) : natOfBytes b < 2 ^ (8 * b.length) := by
  induction b with
  | nil => simp [natOfBytes]
  | cons x b ih =>
    simp only [natOfBytes, List.length_cons]
    have : x.toNat < 256 := x.isLt
    rw [show 8 * (b.length + 1) = 8 * b.length + 8 from rfl, Nat.pow_add]
    omega
theorem bytesOfNat_natOfBytes (b : List Byte) : bytesOfNat b.length (natOfBytes b) = b := by
  induction b with
  | nil => rfl
  | cons x b ih =>
    have h : x.toNat < 256 := x.isLt
    simp only [List.length_cons, bytesOfNat, natOfBytes]
    rw [show (x.toNat + 256 * natOfBytes b) / 256 = natOfBytes b by omega, ih]
    congr 1
    apply BitVec.eq_of_toNat_eq
    simp only [BitVec.toNat_ofNat]
    omega
/-- Storing a word where it stands changes nothing. -/
theorem stored_same (t : Tile) (off : Nat) : Stored t.sp t.sp off (bytesOfNat 8 (padWord t off).toNat) := by
  have e : bytesOfNat 8 (padWord t off).toNat = cellsRead t.sp off 8 := by
    have l : natOfBytes (cellsRead t.sp off 8) < 2 ^ 64 := by
      have := natOfBytes_lt (cellsRead t.sp off 8)
      rwa [cellsRead_length] at this
    unfold padWord padRead
    rw [BitVec.toNat_ofNat, Nat.mod_eq_of_lt l]
    have := bytesOfNat_natOfBytes (cellsRead t.sp off 8)
    rwa [cellsRead_length] at this
  intro a
  rw [e, cellsRead_length]
  split
  · rw [cellsRead_get _ _ _ _ (by omega)]
    congr 1
    omega
  · rfl
/-- What SX makes of a loaded value. -/
theorem extendTo_eq (n : Nat) (sx : Bool) (b : List Byte) (h : b.length = n) (hn : n ≤ 8) :
    extendTo n sx b = BitVec.ofNat 64
      (if sx = true ∧ 2 ^ (8 * n - 1) ≤ natOfBytes b then natOfBytes b + 2 ^ 64 - 2 ^ (8 * n) else natOfBytes b) := by
  have lt := natOfBytes_lt b
  rw [h] at lt
  unfold extendTo
  cases sx
  · simp
  · simp only [if_true, true_and, toSigned]
    have m : 2 ^ (8 * n) ≤ 2 ^ 64 := Nat.pow_le_pow_right (by omega) (by omega)
    have e : ((2 : Int) ^ (8 * n)) = ((2 ^ (8 * n) : Nat) : Int) := by push_cast; rfl
    rw [e]
    generalize 2 ^ (8 * n) = k at *
    generalize 2 ^ (8 * n - 1) = l
    apply BitVec.eq_of_toNat_eq
    by_cases c : natOfBytes b < l
    · rw [if_pos c, if_neg (by omega)]
      simp
    · rw [if_neg c, if_pos (by omega)]
      simp only [BitVec.toNat_ofInt, BitVec.toNat_ofNat]
      omega

theorem Sz.bytes_scalar {sz : Sz} (h : sz.isScalar = true) : sz.bytes ≤ 8 := by
  cases sz <;> revert h <;> decide

/-! ### Sending leaves every byte and every unit -/

theorem OnlySent.refl (s : State) : OnlySent s s := ⟨rfl, rfl, rfl, rfl, rfl, fun _ => rfl⟩
theorem OnlySent.sp {s t : State} (h : OnlySent s t) (n : Node) : (tileAt t n).sp = (tileAt s n).sp := (congrArg Tile.sp (h.tile n) :)
theorem OnlySent.slots {s t : State} (h : OnlySent s t) (n : Node) : (tileAt t n).slots = (tileAt s n).slots := (congrArg Tile.slots (h.tile n) :)
theorem OnlySent.eps {s t : State} (h : OnlySent s t) (n : Node) : (tileAt t n).eps = (tileAt s n).eps := (congrArg Tile.eps (h.tile n) :)
theorem OnlySent.images {s t : State} (h : OnlySent s t) (n : Node) : (tileAt t n).images = (tileAt s n).images := (congrArg Tile.images (h.tile n) :)
theorem OnlySent.trans {s t u : State} (h : OnlySent s t) (k : OnlySent t u) : OnlySent s u :=
  ⟨k.now.trans h.now, k.cur.trans h.cur, k.mem.trans h.mem, k.bar0.trans h.bar0, k.jobs.trans h.jobs, fun n =>
    (congrArg (fun x : Tile => { x with stale := (tileAt s n).stale, tlb := (tileAt s n).tlb }) (k.tile n)).trans (h.tile n)⟩
theorem OnlySent.slotAt {s t : State} (h : OnlySent s t) (r : SlotRef) : slotAt t r = slotAt s r := by
  unfold Machine.slotAt; rw [h.slots]
theorem OnlySent.ctxAt {s t : State} (h : OnlySent s t) (r : SlotRef) : ctxAt t r = ctxAt s r := by
  unfold Machine.ctxAt; rw [h.slotAt]
theorem OnlySent.epAt {s t : State} (h : OnlySent s t) (e : EpRef) : epAt t e = epAt s e := by
  unfold Machine.epAt Tile.epAt; rw [h.eps]
theorem OnlySent.foldl {α : Type} (f : State → α → State) (h : ∀ s a, OnlySent s (f s a)) (l : List α) (s : State) : OnlySent s (l.foldl f s) := by
  induction l generalizing s with
  | nil => exact .refl s
  | cons a l ih => exact (h s a).trans (ih _)
theorem OnlySent.modRouter (s : State) (n : Node) (f : Router → Router) : OnlySent s (modRouter s n f) := ⟨rfl, rfl, rfl, rfl, rfl, fun _ => rfl⟩
theorem OnlySent.modPkg (s : State) (p : Nat) (f : Pkg → Pkg) : OnlySent s (modPkg s p f) := ⟨rfl, rfl, rfl, rfl, rfl, fun _ => rfl⟩
theorem OnlySent.push (s : State) (a p k : Nat) (e : Ev) : OnlySent s (push s a p k e) := ⟨rfl, rfl, rfl, rfl, rfl, fun _ => rfl⟩
theorem OnlySent.pushOnce (s : State) (a p k : Nat) (e : Ev) : OnlySent s (pushOnce s a p k e) := by
  unfold Machine.pushOnce; split
  · exact .refl s
  · exact .push ..
theorem OnlySent.modTile (s : State) (n : Node) (f : Tile → Tile)
    (h : { f (tileAt s n) with stale := (tileAt s n).stale, tlb := (tileAt s n).tlb } = tileAt s n) : OnlySent s (modTile s n f) := by
  have e : ∀ m, nodeKey m = nodeKey n → ∀ u : State, tileAt u m = tileAt u n := fun m k u => by unfold tileAt; rw [k]
  refine ⟨rfl, rfl, rfl, rfl, rfl, fun m => ?_⟩
  by_cases q : nodeKey m = nodeKey n
  · rw [e m q, e m q, tileAt_modTile_self]; exact h
  · rw [tileAt_modTile_ne _ _ _ _ q]
theorem OnlySent.spaces (s : State) (x : List Space) : OnlySent s { s with spaces := x } := ⟨rfl, rfl, rfl, rfl, rfl, fun _ => rfl⟩
theorem OnlySent.putBox (s : State) (t : Nat) (p : Parcel) : OnlySent s (putBox s t p) := ⟨rfl, rfl, rfl, rfl, rfl, fun _ => rfl⟩
theorem OnlySent.setSlots (s : State) (k : List Nat) (l : Lane) : OnlySent s (setSlots s k l) := ⟨rfl, rfl, rfl, rfl, rfl, fun _ => rfl⟩
theorem OnlySent.book (s : State) (k : List Nat) (cap t : Nat) (half : Option Bool) : OnlySent s (book s k cap t half).1 := .setSlots ..
theorem OnlySent.setVoid (s : State) (h : Word) (b : Nat) : OnlySent s (setVoid s h b) := by unfold Machine.setVoid modLaunch; exact .modPkg ..
theorem OnlySent.takeFlit (s : State) (t : Nat) (f : Flit) : OnlySent s (takeFlit s t f) := by
  have go : ∀ (s : State) (g : Flit), OnlySent s (match g.ev with | some ev => Machine.push s t phLand (slotKey g.src) ev | none => s) := by
    intro s g; split
    · exact .push ..
    · exact .refl s
  unfold Machine.takeFlit
  simp only
  split
  · exact go _ _
  · exact (OnlySent.spaces s _).trans (.foldl _ go _ _)
theorem OnlySent.ejectFlit (s : State) (t : Nat) (f : Flit) : OnlySent s (ejectFlit s t f) := by
  unfold Machine.ejectFlit
  simp only
  split
  · have h := (OnlySent.modTile s f.dst (fun t => { t with stale := t.stale + 1 }) rfl).trans (.takeFlit _ t { f with ev := none })
    split
    · exact h.trans (.putBox ..)
    · exact h
  · exact .takeFlit ..
theorem OnlySent.ejectDie (s : State) (t : Nat) (f : Flit) : OnlySent s (ejectDie s t f) := by
  unfold Machine.ejectDie
  split
  · exact (OnlySent.book ..).trans (.ejectFlit ..)
  · exact .ejectFlit ..
theorem OnlySent.arriveAt (s : State) (n : Node) (t : Nat) (half : Bool) (f : Flit) : OnlySent s (arriveAt s n t half f) :=
  (OnlySent.modRouter ..).trans (.pushOnce ..)
theorem OnlySent.askSlots (s : State) (n : Node) (t : Nat) : OnlySent s (askSlots s n t) := (OnlySent.pushOnce ..).trans (.pushOnce ..)
theorem OnlySent.portSend (s : State) (p port t : Nat) (f : Flit) : OnlySent s (portSend s p port t f) := by
  unfold Machine.portSend
  simp only
  split
  · have h : OnlySent s (match f.pin with | some h => if t < (slotsOf s [p, 0, port]).first then Machine.setVoid s h 4 else s | none => s) := by
      split
      · split
        · exact .setVoid ..
        · exact .refl s
      · exact .refl s
    exact (h.trans (.book ..)).trans (.putBox ..)
  · exact (OnlySent.modPkg ..).trans (.push ..)
theorem OnlySent.dieArrive (s : State) (p die t : Nat) (b : Bool) (f : Flit) : OnlySent s (dieArrive s p die t b f) := by
  unfold Machine.dieArrive
  simp only
  split
  · split
    · exact (OnlySent.book ..).trans (.arriveAt ..)
    · split
      · exact .ejectDie ..
      · exact (OnlySent.book ..).trans (.arriveAt ..)
  · split
    · exact .portSend ..
    · exact (OnlySent.book ..).trans (.arriveAt ..)
theorem OnlySent.leaveDie (s : State) (n : Node) (f : Flit) : OnlySent s (leaveDie s n f) := by
  unfold Machine.leaveDie
  generalize hu : (if isTile n.id = true then _ else _ : State × Nat × Bool) = x
  have h : OnlySent s x.1 := by
    subst hu; split
    · exact .book ..
    · exact .refl s
  simp only
  split
  · exact h.trans (.ejectDie ..)
  · split
    · exact h.trans (.ejectDie ..)
    · exact h.trans (.dieArrive ..)
/-- Sending a message leaves every byte and every unit as it is. -/
theorem OnlySent.sendParts (s : State) (src : SlotRef) (a b : Node) (l : List (Nat × Option Ev)) (sp : List Nat) (pin : Option Word) (r : Bool) (e : Ev) :
    OnlySent s (sendParts s src a b l sp pin r e) := by
  unfold Machine.sendParts
  simp only
  have fin : ∀ (u : State) (fl : List Flit) (n : Node), OnlySent s u → OnlySent s (if isCompute n.id = true then
      Machine.askSlots (Machine.modRouter u n fun r => { r with inj := r.inj ++ fl }) n (u.now + 2) else fl.foldl (fun s f => Machine.leaveDie s n f) u) := by
    intro u fl n h
    split
    · exact h.trans ((OnlySent.modRouter ..).trans (.askSlots ..))
    · exact h.trans (OnlySent.foldl _ (fun u f => .leaveDie ..) _ _)
  refine fin _ _ _ ?_
  split
  all_goals
    first
    | exact ⟨rfl, rfl, rfl, rfl, rfl, fun _ => rfl⟩
    | (split <;> exact ⟨rfl, rfl, rfl, rfl, rfl, fun _ => rfl⟩)
theorem OnlySent.sendMsg (s : State) (src : SlotRef) (a b : Node) (typ n : Nat) (sp : List Nat) (pin : Option Word) (r : Bool) (e : Ev) :
    OnlySent s (sendMsg s src a b typ n sp pin r e) := .sendParts ..
theorem OnlySent.no (s : State) (k : Nat) : OnlySent s { s with no := k } := ⟨rfl, rfl, rfl, rfl, rfl, fun _ => rfl⟩
theorem padSent_sent (s : State) (ea : Word) (op : SpOp) : OnlySent s (padSent s ea op) :=
  (OnlySent.no s _).trans (.sendMsg ..)
/-- A form that sends a request to another tile's scratchpad, ready. -/
theorem runForm_asks (f : Form) (body : State → SlotRef → Ctx → Act) (s : State) (ea : Word) (op : SpOp) (lim : Bool)
    (h : Ready s f.h f.srcs f.dsts f.rgn) (e : body s s.cur (me s) = sendRemote s s.cur (me s) ea op lim) :
    AsksPad s f.h f.i ea op lim (runForm f body s) := by
  refine ⟨?_, padSent_sent s ea op⟩
  have := runForm_wait f body s (padAsked s ea op) s.no .reply (if lim = true then 1 else 0) 0 ea [] h e
  rw [show waitBy (padAsked s ea op) f.i s.no .reply (if lim = true then 1 else 0) 0 ea [] =
    waitBy s f.i s.no .reply (if lim = true then 1 else 0) 0 ea [] by unfold waitBy padAsked asks; rw [modUnit_now, (padSent_sent s ea op).now]] at this
  exact this

/-! ### Synchronising forms -/

/-- Where no log is kept, nothing is recorded. -/
theorem recPoint_unrecorded (s : State) (u : State) (n : Node) (w : Who) (k a x : Nat) (h : Unrecorded s) (hj : u.jobs = s.jobs) :
    recPoint u n w (me s).d.job (recNo (me s)) k a x = (true, u) := by
  have e : jobAt u (me s).d.job = jobAt s (me s).d.job := by unfold jobAt; rw [hj]
  unfold recPoint
  rcases h with h | h
  · simp [recNo, h]
  · split
    · rename_i j hq _ hj
      rw [e] at hj
      rw [if_pos (h j hj)]
    · rfl
/-- An operation on a word leaves the units alone. -/
theorem spDo_slots (t : Tile) (q : SpReq) : (spDo t q).1.slots = t.slots := by
  unfold spDo
  cases q.op <;> simp only
  · rfl
  · split <;> rfl
  · rfl
  · rfl
  · rfl
  · split <;> rfl
theorem spDo_cas (t : Tile) (q : SpReq) (e v : Word) (h : q.op = .cas e v) : (spDo t q).1 =
    { t with sp := if padWord t q.off = e then cellsWrite t.sp q.off (bytesOfNat 8 v.toNat) else t.sp } := by
  unfold spDo
  simp only [h]
  split <;> rfl
/-- The request of a synchronising form on a local word. -/
def padOwn (s : State) (off : Nat) (op : SpOp) : SpReq :=
  ⟨⟨s.cur, (me s).uid, s.no⟩, s.cur.node, off, (me s).d.job, op, (spRecKind op).bind fun _ => recNo (me s)⟩
/-- A synchronising form whose word lets it go on. -/
theorem syncLocal_goes (s : State) (off : Nat) (op : SpOp) (ea : Word) (ws : Word → List (Reg × VVal)) (srcs : List Reg)
    (hu : Unrecorded s) (hr : spRecKind op ≠ none) (hc : (here s).errs = []) (hw : spWaits (here s) (padOwn s off op) = false) :
    syncLocal s s.cur (me s) off op ea ws srcs =
      results (counted (modTile { s with no := s.no + 1 } s.cur.node fun _ => (spDo (here s) (padOwn s off op)).1)) s.cur (me s) srcs 6
        (ws (spDo (here s) (padOwn s off op)).2) := by
  obtain ⟨⟨k1, k2⟩, hk⟩ := Option.ne_none_iff_exists'.1 hr
  have e1 : spRec { s with no := s.no + 1 } (padOwn s off op) = (true, { s with no := s.no + 1 }) := by
    unfold spRec
    rw [show (padOwn s off op).op = op from rfl, hk]
    show recPoint _ _ _ _ ((spRecKind op).bind fun _ => recNo (me s)) _ _ _ = _
    rw [hk]
    exact recPoint_unrecorded s { s with no := s.no + 1 } _ _ _ _ _ hu rfl
  have e2 : spServe { s with no := s.no + 1 } (padOwn s off op) =
      (modTile { s with no := s.no + 1 } s.cur.node fun _ => (spDo (here s) (padOwn s off op)).1, .done (spDo (here s) (padOwn s off op)).2) := by
    unfold spServe
    have c1 : ∀ w, consume { s with no := s.no + 1 } (padOwn s off op).home 2 (padOwn s off op).off ((padOwn s off op).off + 8) w =
      ({ s with no := s.no + 1 }, none) := fun w => consume_clean _ _ _ _ _ _ hc
    have c2 : replaceUnits { s with no := s.no + 1 } (padOwn s off op).home 2 (padOwn s off op).off ((padOwn s off op).off + 8) =
      { s with no := s.no + 1 } := replaceUnits_clean _ _ _ _ _ hc
    simp only [c1, ite_self, e1, c2]
    rfl
  have e3 : (padOwn s off op).recSeq = recNo (me s) := by unfold padOwn; simp only [hk]; rfl
  unfold syncLocal newWait
  show (if spWaits (here s) (padOwn s off op) = true then _ else
    match (spServe { s with no := s.no + 1 } (padOwn s off op)).2 with
    | .bad => _
    | .done v => results (if (padOwn s off op).recSeq.isSome = true then
        countRec (spServe { s with no := s.no + 1 } (padOwn s off op)).1 s.cur (me s).uid
        else (spServe { s with no := s.no + 1 } (padOwn s off op)).1) s.cur (me s) srcs 6 (ws v)
    | .held => _) = _
  rw [hw, e2]
  simp only [Bool.false_eq_true, if_false, e3]
  generalize hx : modTile { s with no := s.no + 1 } s.cur.node (fun _ => (spDo (here s) (padOwn s off op)).1) = x
  have e4 : me x = me s := by
    subst hx
    show ctxAt _ s.cur = ctxAt s s.cur
    unfold ctxAt slotAt
    rw [tileAt_modTile_self, spDo_slots]
  have e5 : x.cur = s.cur := by subst hx; rfl
  unfold counted
  rw [e4, e5]
  unfold recNo
  cases (me s).d.det <;> rfl
/-- A synchronising form whose word makes it wait. -/
theorem syncLocal_waits (s : State) (off : Nat) (op : SpOp) (ea : Word) (ws : Word → List (Reg × VVal)) (srcs : List Reg)
    (hw : spWaits (here s) (padOwn s off op) = true) :
    syncLocal s s.cur (me s) off op ea ws srcs = .wait (padWaits s off op) s.no .sync 1 0 ea [] := by
  unfold syncLocal newWait
  simp only
  show (if spWaits (here s) (padOwn s off op) = true then _ else _) = _
  rw [hw]
  rfl
theorem mem_insAsc (x y : Nat) (l : List Nat) : y ∈ insAsc x l ↔ y ∈ l ∨ y = x := by
  induction l with
  | nil => simp [insAsc]
  | cons z l ih =>
    simp only [insAsc]
    split
    · simp; tauto
    · split
      · rename_i h; subst h; simp; tauto
      · simp [ih]; tauto

end Sys2Proof.Machine
end

