-- ==== Sys2Proof/Laws/Global.lean ====
section
/-! SUPPORT. What translation and the requests of global memory leave alone. -/

namespace Sys2Proof.Machine

theorem fillTlb_sent (s : State) (n : Node) (e : TlbEntry) : OnlySent s (fillTlb s n e) := by
  unfold fillTlb
  simp only
  generalize hu : modTile s n _ = u
  have h : OnlySent s u := by subst hu; exact .modTile _ _ _ rfl
  split
  · exact h
  · exact ⟨h.now, h.cur, h.mem, h.bar0, h.jobs, h.tile⟩
/-- A translation changes nothing but the TLBs. -/
theorem xlate_sent {s s1 : State} {n : Node} {job : Word} {det : Bool} {kind va pa : Nat} (h : xlate s n job det kind va = .ok pa s1) : OnlySent s s1 := by
  have use : ∀ {u : State} {w bits : Nat}, OnlySent s u → useLeaf u kind va w bits = .ok pa s1 → OnlySent s s1 := by
    intro u w bits hu e
    unfold useLeaf at e
    split at e
    · cases e; exact hu
    · cases e
  unfold xlate at h
  split at h
  · cases h
  · split at h
    · exact use (.refl s) h
    · split at h
      · cases h
      · split at h
        · exact use (fillTlb_sent ..) h
        · unfold walkFill at h
          split at h
          · exact use (fillTlb_sent ..) h
          · cases h
          · cases h
theorem pinTo_sent (s : State) (c : Ctx) (n : Node) : OnlySent s (pinTo s c n).2 := by
  unfold pinTo pinRoute
  split
  · exact .refl s
  · split
    · split
      · exact .refl s
      · exact .setVoid ..
    · exact .refl s
theorem sendReq_mem (s : State) (r : SlotRef) (c : Ctx) (n : Node) (pa : Nat) (va : Word) (op : MemOp) (b : Bool) (id : Nat) (q : Option Nat) :
    (sendReq s r c n pa va op b id q).mem = s.mem := by
  unfold sendReq
  simp only
  rw [(OnlySent.sendMsg ..).mem, (pinTo_sent ..).mem]
  rfl
theorem postStore_mem (s : State) (r : SlotRef) (c : Ctx) (h : Node × MemKind) (pa : Nat) (va : Word) (b : List Byte) (id : Nat) :
    (postStore s r c h pa va b id).mem = s.mem := by
  unfold postStore
  simp only
  rw [sendReq_mem]
  rfl
theorem sendReq_now (s : State) (r : SlotRef) (c : Ctx) (n : Node) (pa : Nat) (va : Word) (op : MemOp) (b : Bool) (id : Nat) (q : Option Nat) :
    (sendReq s r c n pa va op b id q).now = s.now := by
  unfold sendReq
  simp only
  rw [(OnlySent.sendMsg ..).now, (pinTo_sent ..).now]
  rfl

/-! ### Stores held in a region -/

theorem slots_modTile_keep (s : State) (n : Node) (f : Tile → Tile) (m : Node) (h : (f (tileAt s n)).slots = (tileAt s n).slots) :
    (tileAt (modTile s n f) m).slots = (tileAt s m).slots := by
  by_cases k : nodeKey m = nodeKey n
  · have q : ∀ u : State, tileAt u m = tileAt u n := fun u => by unfold tileAt; rw [k]
    rw [q, q, tileAt_modTile_self, h]
  · rw [tileAt_modTile_ne _ _ _ _ k]
theorem slotAt_modTile_keep (s : State) (n : Node) (f : Tile → Tile) (r : SlotRef) (h : (f (tileAt s n)).slots = (tileAt s n).slots) :
    slotAt (modTile s n f) r = slotAt s r := by
  unfold slotAt
  rw [slots_modTile_keep s n f r.node h]
theorem ctxAt_modTile_keep (s : State) (n : Node) (f : Tile → Tile) (r : SlotRef) (h : (f (tileAt s n)).slots = (tileAt s n).slots) :
    ctxAt (modTile s n f) r = ctxAt s r := by
  unfold ctxAt; rw [slotAt_modTile_keep s n f r h]
theorem ctxAt_padStore (s : State) (n : Node) (off : Nat) (b : List Byte) (r : SlotRef) : ctxAt (padStore s n off b) r = ctxAt s r := by
  unfold padStore replaceUnits
  simp only
  split
  · exact ctxAt_modTile_keep _ _ _ _ rfl
  · rw [ctxAt_modTile_keep _ _ _ _ rfl]; exact ctxAt_modTile_keep _ _ _ _ rfl
theorem sp_padStore (s : State) (n : Node) (off : Nat) (b : List Byte) : (tileAt (padStore s n off b) n).sp = cellsWrite (tileAt s n).sp off b := by
  unfold padStore replaceUnits
  simp only
  split
  · rw [tileAt_modTile_self]; rfl
  · rw [tileAt_modTile_self, tileAt_modTile_self]; rfl
theorem mem_padStore (s : State) (n : Node) (off : Nat) (b : List Byte) : (padStore s n off b).mem = s.mem ∧ (padStore s n off b).now = s.now := by
  unfold padStore replaceUnits
  simp only
  split <;> exact ⟨rfl, rfl⟩
theorem sp_modCtx (s : State) (r : SlotRef) (f : Ctx → Ctx) (n : Node) : (tileAt (modCtx s r f) n).sp = (tileAt s n).sp := by
  unfold modCtx modSlot
  by_cases k : nodeKey n = nodeKey r.node
  · have q : ∀ u : State, tileAt u n = tileAt u r.node := fun u => by unfold tileAt; rw [k]
    rw [q, q, tileAt_modTile_self]
    exact (congrArg Tile.sp (modSlot_rest (tileAt s r.node) r.slot _) :)
  · rw [tileAt_modTile_ne _ _ _ _ k]
/-- A region that holds no store more is closed. -/
theorem drainStores_nil (n : Nat) (b : Bool) (s : State) (r : SlotRef) (h : heldOf (ctxAt s r) = []) :
    drainStores (n + 1) b s r = .done (modCtx s r fun c => { c with region := none }) := by
  unfold drainStores
  simp only [h]
/-- The oldest held store, where it goes to the own scratchpad and its order lets it, is performed. -/
theorem drainStores_pad (n : Nat) (b : Bool) (s : State) (r : SlotRef) (st : HeldStore) (l : List HeldStore) (h : heldOf (ctxAt s r) = st :: l)
    (k : st.scratch = true) (q : isRemote st.va = false) (e : st.sent = none)
    (o : Ord.rel_ st.od = true → releaseOk s r (ctxAt s r).uid st.sc r.node = true) :
    drainStores (n + 1) b s r = drainStores n true (padStore (popStore s r) r.node st.va.toNat st.data) r := by
  have o : ¬(Ord.rel_ st.od && !releaseOk s r (ctxAt s r).uid st.sc r.node) = true := by
    cases hr : Ord.rel_ st.od
    · simp
    · simp [o hr]
  conv => lhs; unfold drainStores
  simp only [h, k, e, q, if_true, if_neg o, Bool.false_eq_true, if_false]

end Sys2Proof.Machine
end

