-- ==== Sys2Proof/Laws/Scalar.lean ====
section
/-! SUPPORT. What the shared operations of the scalar forms answer for a slot that is ready. -/

namespace Sys2Proof.Machine

/-- A saturated sum, by minimum and maximum. -/
theorem clampInt_eq (x : Int) : clampInt (-(2 ^ 63)) (2 ^ 63 - 1) x = max (-(2 ^ 63)) (min (2 ^ 63 - 1) x) := by
  unfold clampInt; omega
/-- A remainder is what the quotient leaves. -/
theorem rems_eq (x y : Word) : rems x y = x - BitVec.ofInt 64 (x.toInt.tdiv y.toInt) * y := by
  have h := Int.tmod_add_mul_tdiv x.toInt y.toInt
  have e : rems x y = BitVec.ofInt 64 (x.toInt - y.toInt * x.toInt.tdiv y.toInt) := by unfold rems; congr 1; omega
  rw [e, Int.sub_eq_add_neg, BitVec.ofInt_add, BitVec.ofInt_neg, BitVec.ofInt_mul, BitVec.ofInt_toInt, BitVec.ofInt_toInt,
    BitVec.mul_comm, ← BitVec.sub_eq_add_neg]
theorem alu_results (i : Instr) (s : State) (h : Hdr) (d a b : SIx) (l : Nat) (op : Word → Word → Word)
    (hr : Ready s h [.s a, .s b] [.s d] true) :
    Results s h [.s a, .s b] l [(.s d, sval (op (rs (me s) a) (rs (me s) b)))] (alu i h d a b l op s) :=
  runForm_results _ _ s _ _ _ hr rfl
theorem aluDiv_results (i : Instr) (s : State) (h : Hdr) (d a b : SIx) (op : Word → Word → Word)
    (hr : Ready s h [.s a, .s b] [.s d] true) (hy : rs (me s) b ≠ 0) :
    Results s h [.s a, .s b] 24 [(.s d, sval (op (rs (me s) a) (rs (me s) b)))] (aluDiv i h d a b op s) :=
  runForm_results _ _ s _ _ _ hr (if_neg hy)
theorem aluDiv_zero (i : Instr) (s : State) (h : Hdr) (d a b : SIx) (op : Word → Word → Word)
    (hr : Ready s h [.s a, .s b] [.s d] true) (hy : rs (me s) b = 0) :
    aluDiv i h d a b op s = .next (takeFault s s.cur (me s).uid 0x19 0 0) :=
  runForm_trap _ _ s _ _ _ hr (if_pos hy)
theorem aluImm_results (i : Instr) (s : State) (h : Hdr) (d a : SIx) (m : BitVec 48) (l : Nat) (op : Word → Word → Word)
    (hr : Ready s h [.s a] [.s d] true) :
    Results s h [.s a] l [(.s d, sval (op (rs (me s) a) (m.signExtend 64)))] (aluImm i h d a m l op s) :=
  runForm_results _ _ s _ _ _ hr rfl
theorem alu1_results (i : Instr) (s : State) (h : Hdr) (d a : SIx) (op : Word → Word) (hr : Ready s h [.s a] [.s d] true) :
    Results s h [.s a] 3 [(.s d, sval (op (rs (me s) a)))] (alu1 i h d a op s) :=
  runForm_results _ _ s _ _ _ hr rfl

end Sys2Proof.Machine
end

