-- ==== Sys2Proof/Laws/Service.lean ====
section
/-! SUPPORT. What a form that asks a service does. -/

namespace Sys2Proof.Machine

theorem svcSent_sent (s : State) (q : SvcReq) (ev : SvcReq → Ev) : OnlySent s (svcSent s q ev) :=
  (OnlySent.no s _).trans (.sendMsg ..)
/-- A form that goes on and asks a service. -/
theorem runForm_svcOn (f : Form) (body : State → SlotRef → Ctx → Act) (s : State) (peer : Node) (rec_ : Option Nat) (k : SvcKind) (lim : Nat) (va : Word)
    (ev : SvcReq → Ev) (h : Fit s f.h f.srcs f.dsts f.rgn)
    (e : body s s.cur (me s) = .wait (svcAsked s (svcOf s peer rec_ k) ev) s.no .reply lim 0 va []) (n : lim = 0 ∨ (me s).park = none) :
    AsksSvc s f.h f.i (svcOf s peer rec_ k) ev lim va (runForm f body s) := by
  refine ⟨?_, svcSent_sent ..⟩
  have := runForm_waitOn f body s (svcAsked s (svcOf s peer rec_ k) ev) s.no .reply lim 0 va [] h e
  rw [show waitBy (svcAsked s (svcOf s peer rec_ k) ev) f.i s.no .reply lim 0 va [] = waitBy s f.i s.no .reply lim 0 va [] by
    unfold waitBy svcAsked asks; rw [modUnit_now, (svcSent_sent ..).now]] at this
  exact this n
/-- A form that asks a service, ready. -/
theorem runForm_svc (f : Form) (body : State → SlotRef → Ctx → Act) (s : State) (peer : Node) (rec_ : Option Nat) (k : SvcKind) (lim : Nat)
    (ev : SvcReq → Ev) (h : Ready s f.h f.srcs f.dsts f.rgn) (e : body s s.cur (me s) = svcAct s s.cur (me s) peer rec_ k lim ev) :
    AsksSvc s f.h f.i (svcOf s peer rec_ k) ev lim 0 (runForm f body s) := runForm_svcOn f body s peer rec_ k lim 0 ev h.toFit e (.inr h.notParked)

end Sys2Proof.Machine
end

