-- ==== Sys2Proof/Laws/Vector.lean ====
section
/-! SUPPORT. What the shared operations of the vector forms answer for a slot that is ready, and what lanes and draws are. -/

namespace Sys2Proof.Machine

/-! ### Lane forms -/

theorem fpLanes_array (i : Instr) (s : State) (h : Hdr) (t : Ty) (rm : Rm) (m : VMask) (d : VIx) (vs : List VIx) (l : Nat)
    (f : (Nat → Nat → Nat) → Nat → Rnd → Res) (hr : Ready s h (vs.map Reg.v ++ maskSrcs m (.v d)) [.v d] false) :
    let o := fpLoop s t rm m d (f fun k j => laneAt t.width (rv (me s) (vs.getD k 0)) j)
    ArrayEnds s (beatsOf t.width) h (vs.map Reg.v ++ maskSrcs m (.v d)) l [(.v d, packLanes t.width o.1)] o.2 i
      (fpLanes i h t rm m d vs l true f s) := by
  unfold fpLanes
  simp only [if_true]
  exact runForm_array { i := i, h := h, srcs := vs.map Reg.v ++ maskSrcs m (.v d), dsts := [.v d] } _ _ s l _ _ _ hr rfl
theorem fpLanes_pipe (i : Instr) (s : State) (h : Hdr) (t : Ty) (rm : Rm) (m : VMask) (d : VIx) (vs : List VIx) (l : Nat)
    (f : (Nat → Nat → Nat) → Nat → Rnd → Res) (hr : Ready s h (vs.map Reg.v ++ maskSrcs m (.v d)) [.v d] false) :
    let o := fpLoop s t rm m d (f fun k j => laneAt t.width (rv (me s) (vs.getD k 0)) j)
    FpEnds s s h (vs.map Reg.v ++ maskSrcs m (.v d)) l [(.v d, packLanes t.width o.1)] o.2
      (fpLanes i h t rm m d vs l false f s) := by
  unfold fpLanes
  simp only [Bool.false_eq_true, if_false, Nat.zero_add]
  exact runForm_fpEnd { i := i, h := h, srcs := vs.map Reg.v ++ maskSrcs m (.v d), dsts := [.v d] } _ s s l _ _ _ hr rfl ⟨rfl, rfl, rfl⟩ rfl
theorem fp1_array (i : Instr) (s : State) (h : Hdr) (t : Ty) (rm : Rm) (m : VMask) (d a : VIx) (l : Nat) (op : Fmt → Rnd → Num → Res)
    (hr : Ready s h ([.v a] ++ maskSrcs m (.v d)) [.v d] false) :
    let o := fpLoop s t rm m d fun j r => op (Fmt.of t) r ((Fmt.of t).read (laneAt t.width (rv (me s) a) j))
    ArrayEnds s (beatsOf t.width) h ([.v a] ++ maskSrcs m (.v d)) l [(.v d, packLanes t.width o.1)] o.2 i (fp1 i h t rm m d a l true op s) :=
  fpLanes_array i s h t rm m d [a] l (fun src j rnd => op (Fmt.of t) rnd ((Fmt.of t).read (src 0 j))) hr
theorem fp1_pipe (i : Instr) (s : State) (h : Hdr) (t : Ty) (rm : Rm) (m : VMask) (d a : VIx) (l : Nat) (op : Fmt → Rnd → Num → Res)
    (hr : Ready s h ([.v a] ++ maskSrcs m (.v d)) [.v d] false) :
    let o := fpLoop s t rm m d fun j r => op (Fmt.of t) r ((Fmt.of t).read (laneAt t.width (rv (me s) a) j))
    FpEnds s s h ([.v a] ++ maskSrcs m (.v d)) l [(.v d, packLanes t.width o.1)] o.2 (fp1 i h t rm m d a l false op s) :=
  fpLanes_pipe i s h t rm m d [a] l (fun src j rnd => op (Fmt.of t) rnd ((Fmt.of t).read (src 0 j))) hr
theorem fp2_array (i : Instr) (s : State) (h : Hdr) (t : Ty) (rm : Rm) (m : VMask) (d a b : VIx) (l : Nat) (op : Fmt → Rnd → Num → Num → Res)
    (hr : Ready s h ([.v a, .v b] ++ maskSrcs m (.v d)) [.v d] false) :
    let o := fpLoop s t rm m d fun j r => op (Fmt.of t) r ((Fmt.of t).read (laneAt t.width (rv (me s) a) j))
      ((Fmt.of t).read (laneAt t.width (rv (me s) b) j))
    ArrayEnds s (beatsOf t.width) h ([.v a, .v b] ++ maskSrcs m (.v d)) l [(.v d, packLanes t.width o.1)] o.2 i (fp2 i h t rm m d a b l op s) :=
  fpLanes_array i s h t rm m d [a, b] l (fun src j rnd => op (Fmt.of t) rnd ((Fmt.of t).read (src 0 j)) ((Fmt.of t).read (src 1 j))) hr
theorem fp3_array (i : Instr) (s : State) (h : Hdr) (t : Ty) (rm : Rm) (m : VMask) (d a b x : VIx) (sa sc : Bool)
    (hr : Ready s h ([.v a, .v b, .v x] ++ maskSrcs m (.v d)) [.v d] false) :
    let o := fpLoop s t rm m d fun j r =>
      let na := (Fmt.of t).read (laneAt t.width (rv (me s) a) j)
      let nc := (Fmt.of t).read (laneAt t.width (rv (me s) x) j)
      fFma (Fmt.of t) r (if sa then na.negate else na) ((Fmt.of t).read (laneAt t.width (rv (me s) b) j)) (if sc then nc.negate else nc)
    ArrayEnds s (beatsOf t.width) h ([.v a, .v b, .v x] ++ maskSrcs m (.v d)) 8 [(.v d, packLanes t.width o.1)] o.2 i
      (fp3 i h t rm m d a b x sa sc s) :=
  fpLanes_array i s h t rm m d [a, b, x] 8 (fun src j rnd =>
    let f := Fmt.of t
    let na := f.read (src 0 j)
    let nc := f.read (src 2 j)
    fFma f rnd (if sa then na.negate else na) (f.read (src 1 j)) (if sc then nc.negate else nc)) hr
theorem intLanes_results (i : Instr) (s : State) (h : Hdr) (t : Ty) (m : VMask) (d a b : VIx) (op : Nat → Nat → Nat)
    (hr : Ready s h ([.v a, .v b] ++ maskSrcs m (.v d)) [.v d] false) :
    Results s h ([.v a, .v b] ++ maskSrcs m (.v d)) 4
      [(.v d, underMask (me s) t.width m d fun j => op (laneAt t.width (rv (me s) a) j) (laneAt t.width (rv (me s) b) j))]
      (intLanes i h t m d a b op s) := by
  unfold intLanes
  exact runForm_results _ _ s _ _ _ hr rfl
theorem moveLanes_results (i : Instr) (s : State) (h : Hdr) (t : Ty) (m : VMask) (d : VIx) (ss : List Reg) (f : Ctx → Nat → Nat)
    (hr : Ready s h (ss ++ maskSrcs m (.v d)) [.v d] false) :
    Results s h (ss ++ maskSrcs m (.v d)) 4 [(.v d, underMask (me s) t.width m d fun j => elemBits t (f (me s) j))]
      (moveLanes i h t m d ss f s) := by
  unfold moveLanes
  exact runForm_results _ _ s _ _ _ hr rfl
theorem maskForm_results (s : State) (h : Hdr) (d : Reg) (ss : List Reg) (f : Ctx → VVal) (hr : Ready s h ss [d] false) :
    Results s h ss 3 [(d, f (me s))] (maskForm h d ss f s) :=
  runForm_results _ _ s _ _ _ hr rfl

/-! ### Lanes and draws -/

theorem packNat_lt (w : Nat) (l : List Nat) : packNat w l < 2 ^ (w * l.length) := by
  induction l with
  | nil => simp [packNat]
  | cons x l ih =>
    simp only [packNat, List.length_cons]
    have h := Nat.mod_lt x (Nat.two_pow_pos w)
    rw [Nat.mul_add, Nat.mul_one, Nat.pow_add]
    nlinarith [Nat.two_pow_pos w]
theorem packNat_lane (w : Nat) (l : List Nat) (j : Nat) : packNat w l / 2 ^ (w * j) % 2 ^ w = l.getD j 0 % 2 ^ w := by
  induction l generalizing j with
  | nil => simp [packNat]
  | cons x l ih =>
    simp only [packNat]
    cases j with
    | zero => simp
    | succ j =>
      rw [Nat.mul_add, Nat.mul_one, Nat.add_comm, Nat.pow_add, Nat.mul_comm (2 ^ (w * j)), ← Nat.div_div_eq_div_mul,
        Nat.add_comm, Nat.add_mul_div_left _ _ (Nat.two_pow_pos w), Nat.div_eq_of_lt (Nat.mod_lt _ (Nat.two_pow_pos w)), Nat.zero_add, ih]
      simp
/-- A lane of a vector that is put together. -/
theorem laneAt_packLanes (w : Nat) (l : List Nat) (j : Nat) (h : w * (j + 1) ≤ 2048) : laneAt w (packLanes w l) j = l.getD j 0 % 2 ^ w := by
  unfold laneAt packLanes
  rw [BitVec.toNat_ushiftRight, BitVec.toNat_ofNat, Nat.shiftRight_eq_div_pow]
  have e : 2 ^ 2048 = 2 ^ (w * j) * (2 ^ w * 2 ^ (2048 - w * (j + 1))) := by
    rw [← Nat.pow_add, ← Nat.pow_add]; congr 1; rw [Nat.mul_add, Nat.mul_one] at h ⊢; omega
  rw [e, Nat.mod_mul_right_div_self, Nat.mod_mul_right_mod, packNat_lane]

/-- The lanes and the accumulation of a form rounded lane by lane. -/
theorem laneLoop_length (en : Nat) (on : Nat → Bool) (idle : Nat → Nat) (rm : Rm) (f : Nat → Rnd → Res) (n i : Nat) (a : FAcc) :
    (laneLoop en on idle rm f n i a).1.length = n := by
  induction n generalizing i a with
  | zero => rfl
  | succ n ih => simp only [laneLoop]; split <;> simp [ih]

end Sys2Proof.Machine
end

