-- ==== Sys2Proof/Tests/Slice0.lean ====
section
/-! SUPPORT. Tests: words written out from the encodings, terms and words that are refused, states that meet the hypotheses of the statements, and
single steps whose results are the manual's worked examples or computed by hand. -/

namespace Sys2Proof.Tests
set_option Elab.async false
open Sys2Proof.Machine

/-! ### Words, written out field by field from the encodings (R43 to R58) -/

/-- `(!p3) loop s9, -2` with HL 2 and HQ 5 (R93). -/
theorem test_word_control : decode 0x0115E5090000FFFFFFFFFFFE = .ok (.loop ⟨3, true, 2, 5⟩ 9 0xFFFFFFFFFFFE) := by decide
/-- `mfsr s3, incarn` (R94, R99). -/
theorem test_word_unit : decode 0x021400030000000000000013 = .ok (.mfsr ⟨0, false, 0, 0⟩ 3 .incarn) := by decide
/-- `spawn.at s20, s21, s22, s24` (R100). -/
theorem test_word_spawn : decode 0x030000141516180000000000 = .ok (.spawnAt ⟨0, false, 0, 0⟩ 20 21 22 24) := by decide
/-- `done.wait.phase s5, s6.poll` (R103). -/
theorem test_word_hierarchy : decode 0x041400050600000000000006 = .ok (.doneWait ⟨0, false, 0, 0⟩ .phase true 5 6) := by decide
/-- `sub s63, s2, s31` (R126). -/
theorem test_word_arithmetic : decode 0x1004003F021F000000000000 = .ok (.sub ⟨0, false, 0, 0⟩ 63 2 31) := by decide
/-- `add s1, s1, 8` (R127). -/
theorem test_word_immediate : decode 0x110000010100000000000008 = .ok (.addImm ⟨0, false, 0, 0⟩ 1 1 8) := by decide
/-- `ext s10, s9, 12, 12` (R128). -/
theorem test_word_bits : decode 0x1210000A090000000000030B = .ok (.ext ⟨0, false, 0, 0⟩ 12 11 10 9) := by decide
/-- `cmp.ltn p1, s9, s40` (R130). -/
theorem test_word_compare : decode 0x130000810928000000000004 = .ok (.cmp ⟨0, false, 0, 0⟩ .ltn 1 9 40) := by decide
/-- `pand p1, p2, p7` (R131). -/
theorem test_word_predicate : decode 0x140000818287000000000000 = .ok (.pand ⟨0, false, 0, 0⟩ 1 2 7) := by decide
/-- `isfull p2, v5` (R132). -/
theorem test_word_presence : decode 0x150000824500000000000000 = .ok (.isfull ⟨0, false, 0, 0⟩ 2 (.v 5)) := by decide
/-- `vfma.f32.rtz v1:k3, v2, v30, v4`, zeroing (R51, R138). -/
theorem test_word_float : decode 0x300C0041425E445170000000 = .ok (.vfma ⟨0, false, 0, 0⟩ .f32 .rtz ⟨3, true⟩ 1 2 30 4) := by decide
/-- `viadd.i16.sat v1, v2, v3` (R139). -/
theorem test_word_integer : decode 0x310000414243000800000001 = .ok (.viadd ⟨0, false, 0, 0⟩ .i16 true ⟨0, false⟩ 1 2 3) := by decide
/-- `vsel.n8 v1, k7, v2, v3` (R140). -/
theorem test_word_movement : decode 0x3208004142438F2000000000 = .ok (.vsel ⟨0, false, 0, 0⟩ .n8 1 2 3 7) := by decide
/-- `vcvt.f32.sr v6:k1, v7` from bf16, upper half (R141). -/
theorem test_word_conversion : decode 0x330000464700005520000029 = .ok (.vcvt ⟨0, false, 0, 0⟩ .f32 .sr .bf16 true ⟨1, false⟩ 6 7) := by decide
/-- `vred.max.f64.rdn s4, v9` under k2 (R143). -/
theorem test_word_reduction : decode 0x340000044900005B40000003 = .ok (.vred ⟨0, false, 0, 0⟩ .f64 .rdn .max 2 4 9) := by decide
/-- `vtanh.f16.dyn v9, v8` (R145). -/
theorem test_word_special : decode 0x351800494800004600000000 = .ok (.vtanh ⟨0, false, 0, 0⟩ .f16 .dyn ⟨0, false⟩ 9 8) := by decide
/-- `kset.f32 k2, s0, s9` (R149). -/
theorem test_word_mask : decode 0x3610008A0009005000000000 = .ok (.kset ⟨0, false, 0, 0⟩ .f32 2 0 9) := by decide
/-- `xa.add.neg xa6, xa5` (R152). -/
theorem test_word_accumulator : decode 0x37140000000000000000006E = .ok (.xaAdd ⟨0, false, 0, 0⟩ 6 5 true) := by decide
/-- `prot.load s9, [s6 + 16]` (R162). -/
theorem test_word_endpoint : decode 0x600000090600000000000010 = .ok (.protLoad ⟨0, false, 0, 0⟩ 9 6 16) := by decide
/-- `ch.accept s1, e127, s2, s3` (R165). -/
theorem test_word_channel : decode 0x610400010203FE0000000000 = .ok (.chAccept ⟨0, false, 0, 0⟩ 127 1 2 3) := by decide
/-- `send.end.rel e5:62, s8, 32, p2` (R168). -/
theorem test_word_message : decode 0x6200000008000BF400001420 = .ok (.send ⟨0, false, 0, 0⟩ 5 62 true true 2 32 8) := by decide
/-- `ch.deleg.rel e4, e100, p1` (R181). -/
theorem test_word_delegation : decode 0x63000000000009F800001264 = .ok (.chDeleg ⟨0, false, 0, 0⟩ 4 true 1 100) := by decide
/-- `rc.bind s5, rc16, e9` (R208). -/
theorem test_word_turn : decode 0x700C00050000000000000910 = .ok (.rcBind ⟨0, false, 0, 0⟩ 16 9 5) := by decide
/-- `ld.b2.sx s5, [s6 - 4]`, acquire at .pkg (R217). -/
theorem test_word_pad : decode 0x7400000506001441FFFFFFFC = .ok (.ld ⟨0, false, 0, 0⟩ .b2 .pkg .acq true 5 6 0xFFFFFFFC) := by decide
/-- `ld.sync.b8.cons s9, [s6 + 0x100]` (R217). -/
theorem test_word_padSync : decode 0x750000090600300100000100 = .ok (.ldSync ⟨0, false, 0, 0⟩ .slot .rlx true 9 6 0x100) := by decide
/-- `sem.wait.to.dec p3, sem200, s4, s5` (R225). -/
theorem test_word_semaphore : decode 0x7600008304050000000003C8 = .ok (.semWaitTo ⟨0, false, 0, 0⟩ 200 true 3 4 5) := by decide
/-- `bar.arm b95, s1, s2` (R229). -/
theorem test_word_barrier : decode 0x77000000010200000000005F = .ok (.barArm ⟨0, false, 0, 0⟩ 95 1 2) := by decide
/-- `gld.b4 s8, [s6 + 4]`, seq_cst at .dom (R240). -/
theorem test_word_global : decode 0x800000080600270000000004 = .ok (.gld ⟨0, false, 0, 0⟩ .b4 .dom .sc false 8 6 4) := by decide
/-- `atom.det.fadd32.b4.dom s8, [s6 + 4], s7` (R247). -/
theorem test_word_atomic : decode 0x810800080607260100000004 = .ok (.atomDet ⟨0, false, 0, 0⟩ .b4 .dom .rlx .fadd32 8 6 7 4) := by decide
/-- `rgn.begin s9, handler` three instructions on (R250). -/
theorem test_word_region : decode 0x820000090000000000000003 = .ok (.rgnBegin ⟨0, false, 0, 0⟩ 9 3) := by decide
/-- `alloc.q s4, p5, s6, h15` (R254). -/
theorem test_word_heap : decode 0x8300000406000000000000BF = .ok (.allocQ ⟨0, false, 0, 0⟩ 15 5 4 6) := by decide
/-- `tlb.inv.dom s7` (R239). -/
theorem test_word_translation : decode 0x840000000700000000000006 = .ok (.tlbInv ⟨0, false, 0, 0⟩ .dom 7) := by decide
/-- `td.get s1, d63, 7` (R262). -/
theorem test_word_descriptor : decode 0x90040001FF00000000000007 = .ok (.tdGet ⟨0, false, 0, 0⟩ 7 1 63) := by decide
/-- `cp.push.tr16 d1, d2, s3, rsem=9, wait=sem1>=2, sig=sem3+4` (R54, R271). -/
theorem test_word_copy : decode 0x910000C1C203010203040509 = .ok (.cpPush ⟨0, false, 0, 0⟩ ⟨1, 2, 3, 4⟩ 9 true .tr16 1 2 3) := by decide
/-- `mx.stream.acc d2, 64, wait=sem3>=1, sig=sem4+1` (R280). -/
theorem test_word_matrix : decode 0x92080000C200030104010240 = .ok (.mxStream ⟨0, false, 0, 0⟩ ⟨3, 1, 4, 1⟩ 64 true 2) := by decide
/-- `fence.pkg.r2rw` (R298). -/
theorem test_word_fence : decode 0xA00000000000040D00000000 = .ok (.fence ⟨0, false, 0, 0⟩ .pkg true false true true) := by decide
/-- `cal.wait.at s61, e3, p2` (R318, R324). -/
theorem test_word_exchange : decode 0xA808003D0000060000002400 = .ok (.calWait ⟨0, false, 0, 0⟩ 3 2 true 61) := by decide
/-- `gw.take s1, s2` (R329). -/
theorem test_word_gateway : decode 0xA90000010200000000000000 = .ok (.gwTake ⟨0, false, 0, 0⟩ 1 2) := by decide
/-- `rec.stat.free s7` (R339). -/
theorem test_word_record : decode 0xB00400070000000000000002 = .ok (.recStat ⟨0, false, 0, 0⟩ .free 7) := by decide
/-- `cause.wait s61, p7` (R345). -/
theorem test_word_fault : decode 0xB808003D000000000000000F = .ok (.cause ⟨0, false, 0, 0⟩ true 7 61) := by decide

/-! ### States and what is asked of them -/

/-- A slot about to run a form: slot 0 of tile 0 holds a unit of a job that has a page of memory at 0; its context, its tile and
the machine changed as given. -/
noncomputable def tS (f : Ctx → Ctx) (g : Tile → Tile) (k : State → State) : State :=
  k (modTile (modCtx (State.reset.withFetchWord 96 0) ⟨0, 0, 0⟩ f) ⟨0, 0⟩ g)
/-- With values in registers s1 to s5 alone. -/
noncomputable def tR (x1 x2 x3 x4 x5 : Word) : State :=
  tS (fun c => { c with s := ((((c.s.set 1 x1).set 2 x2).set 3 x3).set 4 x4).set 5 x5 }) id id
/-- No guard. -/
def h0 : Hdr := ⟨0, false, 0, 0⟩
/-- What Fit asks, decided. -/
def fitB (s : State) (h : Hdr) (srcs dsts : List Reg) (rgn : Bool) : Bool :=
  decide ((slotAt s s.cur).ph = .bound) && decide (presOf (me s) (.p h.g) = .full) && guardOf (me s) h &&
  ((me s).region.isNone || (rgn && !readsHeld (me s) srcs && !readsHeld (me s) [.p h.g])) &&
  srcs.all (fun g => presOf (me s) g = .full) && dsts.all (fun g => presOf (me s) g ≠ .pending && presOf (me s) g ≠ .ret) &&
  (srcs ++ dsts).all (fun g => (boundTo s s.cur (me s).uid g).isNone) && (packetFull (me s)).isNone && decide ((here s).errs = [])
theorem fit_of {s : State} {h : Hdr} {srcs dsts : List Reg} {rgn : Bool} (e : fitB s h srcs dsts rgn = true) : Fit s h srcs dsts rgn := by
  simp only [fitB, Bool.and_eq_true, decide_eq_true_eq, List.all_eq_true, Bool.or_eq_true, Option.isNone_iff_eq_none,
    Bool.not_eq_true'] at e
  obtain ⟨⟨⟨⟨⟨⟨⟨⟨a, c⟩, d⟩, r⟩, f⟩, g⟩, i⟩, j⟩, k⟩ := e
  exact ⟨a, c, d, r.imp_right fun r => ⟨r.1.1, r.1.2, r.2⟩, f, by simpa using g, i, j, k⟩
theorem ready_of {s : State} {h : Hdr} {srcs dsts : List Reg} {rgn : Bool}
    (e : (fitB s h srcs dsts rgn && (me s).park.isNone) = true) : Ready s h srcs dsts rgn := by
  rw [Bool.and_eq_true, Option.isNone_iff_eq_none] at e
  exact ⟨fit_of e.1, e.2⟩
theorem test_ready : Ready (tR 1 2 3 4 5) h0 [.s 1, .s 2] [.s 3] true := ready_of (by decide)
/-- The results that an outcome has under way. -/
noncomputable def results (o : Outc) : List (Reg × VVal) :=
  match o with
  | .next t => t.agenda.filterMap fun e => match e.ev with
    | .resultLanding _ _ g x => some (g, x)
    | _ => none
  | _ => []
/-- The context of the unit after a step. -/
noncomputable def after (o : Outc) : Ctx :=
  match o with
  | .next t => ctxAt t ⟨0, 0, 0⟩
  | _ => Ctx.reset
/-- A state in which no form without a guard of its own has anything in its way, whatever its operands. -/
def calm (s : State) : Bool :=
  decide ((slotAt s s.cur).ph = .bound) && (me s).park.isNone && (me s).region.isNone && (me s).packet.isNone &&
  decide ((here s).errs = []) && (here s).eps.all (fun x => x.2.reg.isNone) && decide ((me s).sP = Vector.replicate 64 .full) &&
  decide ((me s).vP = Vector.replicate 32 .full) && decide ((me s).kP = Vector.replicate 8 .full) &&
  decide ((me s).pP = Vector.replicate 8 .full)
theorem presOf_calm {c : Ctx} (a : c.sP = Vector.replicate 64 .full) (b : c.vP = Vector.replicate 32 .full)
    (d : c.kP = Vector.replicate 8 .full) (e : c.pP = Vector.replicate 8 .full) (g : Reg) : presOf c g = .full := by
  cases g <;> simp [presOf, a, b, d, e]
theorem ready_all {s : State} (e : calm s = true) (S D : List Reg) (r : Bool) : Ready s h0 S D r := by
  simp only [calm, Bool.and_eq_true, decide_eq_true_eq, Option.isNone_iff_eq_none, List.all_eq_true] at e
  obtain ⟨⟨⟨⟨⟨⟨⟨⟨⟨a, b⟩, c⟩, d⟩, x⟩, y⟩, p⟩, q⟩, u⟩, v⟩ := e
  refine ⟨⟨a, presOf_calm p q u v _, by simp [guardOf, h0, rp], .inl c, fun g _ => presOf_calm p q u v g,
    fun g _ => by rw [presOf_calm p q u v g]; decide, fun g _ => ?_, by simp [packetFull, d], x⟩, b⟩
  have y' : ∀ a x, (a, x) ∈ (tileAt s s.cur.node).eps → x.reg = none := fun a x h => y (a, x) h
  simp only [boundTo, Option.map_eq_none_iff, List.find?_eq_none, decide_eq_true_eq]
  rintro ⟨a, x⟩ h ⟨-, h'⟩
  rw [y' a x h] at h'
  cases h'

/-! ### Witnesses: the machine as a whole -/

/-- What a fetch finds, as a number. -/
def fetched : Fetch → Nat
  | .ok _ _ => 0
  | .trap _ _ _ _ => 1
  | .miss _ _ => 2
/-- A slot that is to fetch a word, its slot and unit changed. -/
def tF (w : Nat) (f : Slot → Slot) (g : Ctx → Ctx) : State :=
  modSlot (State.reset.withFetchWord 96 w) ⟨0, 0, 0⟩ fun l => { f l with ctx := g l.ctx }
/-- What the step statement asks of such a state. -/
def tFetch (w : Nat) (g : Ctx → Ctx) : Nat × Bool × Option Nat × Turn :=
  let s := { tF w id g with issueQ := [] }
  (fetched (fetch s ⟨0, 0, 0⟩ (ctxAt s ⟨0, 0, 0⟩)), isHeld s ⟨0, 0⟩, turnOwner s ⟨0, 0⟩, turnUse s ⟨0, 0, 0⟩)
theorem test_hyp_StepRunsTheDecodedInstruction :
    (tF 0 id id).agenda = [] ∧ (tF 0 id id).issueQ = [0] ∧ tFetch 0x020C00000000000000000000 id = (0, false, some 0, .issue) ∧
    tFetch 0 (fun c => { c with pc := 2 }) = (1, false, some 0, .issue) ∧ tFetch 0 (fun c => { c with pc := 2 ^ 40 }) = (2, false, some 0, .issue) ∧
    (tFetch 0 fun c => { c with quiet := 1 }) = (0, false, some 0, .quiet) ∧
    (tFetch 0 fun c => { c with park := some (waitBy State.reset (.nop h0) 0 .cond 0 0 0 []) }) = (0, false, some 0, .lost) ∧
    (tFetch 0 fun c => { c with yieldRound := some 0 }) = (0, false, some 0, .empty) ∧
    turnOwner (tF 0 (fun l => { l with owned := 0 }) id) ⟨0, 0⟩ = none ∧
    isHeld (modPkg State.reset 0 fun p => { p with islands := [(0, { power := .idle })] }) ⟨0, 0⟩ = true ∧
    settle State.reset = none ∧ settle (tF 0 id fun c => { c with park := some (waitBy State.reset (.nop h0) 0 (.regs []) 0 0 0 []) }) ≠ none ∧
    putOff State.reset (.roundBoundary ⟨0, 0⟩) = none := by and_intros <;> decide +kernel
/-- A matrix form's word, a word with a reserved field and one with an operand out of its limits. -/
theorem test_hyp_StepRunsTheDecodedInstruction_Words :
    opOf (bytesOfNat 12 0x920400000000000000000000) = 0x92 ∧ isCompute 2048 = false ∧ isCompute 2047 = true ∧
    decodeBytes (bytesOfNat 12 0x020C00010000000000000000) = .error .reservedField ∧
    decodeBytes (bytesOfNat 12 0x021400010000000000000014) = .error .illegalOperand ∧
    decodeBytes (bytesOfNat 12 0x020C00000000000000000000) = .ok (.nop h0) := by and_intros <;> decide +kernel
/-- A clock with nothing to do in the cycle goes on. -/
theorem test_step_reset : step State.reset = .next { State.reset with now := 1 } := by rfl
theorem test_hyp_DecodeAndEncodeAgree :
    (Instr.addImm h0 1 1 8).wellFormed = true ∧ encode (.addImm h0 1 1 8) = some 0x110000010100000000000008 ∧
    (Instr.illegalInstruction 0).wellFormed = true ∧ encode (.illegalInstruction 0) = some 0 := by and_intros <;> decide +kernel
theorem test_hyp_UnassignedCellsFault : assigned 0 0 = false ∧ assigned 1 6 = false ∧ assigned 0xB8 63 = false ∧ assigned 0xB8 4 = true ∧
    (slotAt (tR 0 0 0 0 0) (tR 0 0 0 0 0).cur).ph = .bound := by and_intros <;> decide +kernel
/-- A guard that is the negation of p0. -/
def h1 : Hdr := ⟨0, true, 0, 0⟩
theorem test_hyp_GuardedOffFormsDoNothing :
    encodeRaw (.trap h1 5) ≠ none ∧ (slotAt (tR 0 0 0 0 0) (tR 0 0 0 0 0).cur).ph = .bound ∧ (me (tR 0 0 0 0 0)).park = none ∧
    presOf (me (tR 0 0 0 0 0)) (.p h1.g) = .full ∧ guardOf (me (tR 0 0 0 0 0)) h1 = false ∧ packetFull (me (tR 0 0 0 0 0)) = none := by
  and_intros <;> decide +kernel
theorem test_hyp_StepKeepsMemoryCanonical :
    cellsWf State.reset.mem = true ∧ cellsWf State.reset.bar0 = true ∧
    cellsWf [(3, 1), (4, 2)] = true ∧ cellsWf [(4, 1), (3, 2)] = false ∧ cellsWf [(4, 0)] = false := by and_intros <;> decide +kernel
theorem test_hyp_FixedRegistersNeverChange : realReg (.s 0) = false ∧ realReg (.p 0) = false ∧ realReg (.k 0) = false ∧ realReg (.v 0) = true ∧
    realReg (.s 63) = true := by decide

/-! ### Witnesses: scalar, control and fault forms -/

theorem test_hyp_ScalarArithmeticResults :
    (∀ S D r, Ready (tR 7 0 3 4 5) h0 S D r) ∧ rs (me (tR 7 0 3 4 5)) 1 ≠ 0 ∧ rs (me (tR 7 0 3 4 5)) 2 = 0 ∧ (1#48) ≠ 0 ∧ (63#48).toNat ≤ 63 :=
  ⟨ready_all (by decide +kernel), by and_intros <;> decide +kernel⟩
theorem test_hyp_BitFieldMoveAndPredicateResults :
    (∀ S D r, Ready (tR 7 0 3 4 5) h0 S D r) ∧ (63#6).toNat + ((0#6).toNat + 1) ≤ 64 ∧ (0#6).toNat + ((63#6).toNat + 1) ≤ 64 :=
  ⟨ready_all (by decide +kernel), by and_intros <;> decide +kernel⟩
theorem test_hyp_ControlFlowTransfers :
    (∀ S D r, Ready (tR 0xFFFFFFFFFFFFFC 2 0x100000000000000 1 0) h0 S D r) ∧
    (let x := fun i => rs (me (tR 0xFFFFFFFFFFFFFC 2 0x100000000000000 1 0)) i
     (x 1).toNat % 4 = 0 ∧ (x 1).toNat < 2 ^ 56 ∧ (x 2).toNat % 4 ≠ 0 ∧ (x 3).toNat % 4 = 0 ∧ 2 ^ 56 ≤ (x 3).toNat ∧ x 1 ≠ 1 ∧ x 4 = 1 ∧
     ((me (tR 0 0 0 0 0)).pc + 12 * (1#48).signExtend 64).toNat < 2 ^ 56 ∧ 2 ^ 56 ≤ ((me (tR 0 0 0 0 0)).pc + 12 * (0xFFFFFFFFFFFF#48).signExtend 64).toNat) :=
  ⟨ready_all (by decide +kernel), by and_intros <;> decide +kernel⟩
/-- A slot parked in a form, with a reply or other end to come. -/
noncomputable def tW (i : Instr) (k : ParkKind) (f : Ctx → Ctx) (g : State → State) : State :=
  tS (fun c => { f c with park := some (waitBy State.reset i 7 k 0 0 0 []) }) id g
/-- The party that waits there. -/
def w0 : Who := ⟨⟨0, 0, 0⟩, 1, 7⟩
/-- What Waits asks, decided. -/
theorem waits_of {s : State} {w : Who} {p : Park} (e : decide ((slotAt s w.slot).ph = .bound ∧ (ctxAt s w.slot).uid = w.uid ∧
    (ctxAt s w.slot).park = some p ∧ p.id = w.id ∧ p.limitDue = false ∧ p.held = []) = true) : Waits s w p := by
  obtain ⟨a, b, c, d, f, g⟩ := of_decide_eq_true e
  exact ⟨a, b, c, d, f, g⟩
theorem test_hyp_NopYieldAndSleeprLeaveTurns :
    (∀ S D r, Ready (tR 0 0 0 0 0) h0 S D r) ∧ (0xFFFF#16) ≠ 0 ∧ (ctxAt (tF 0 id fun c => { c with yieldRound := some 0 }) ⟨0, 0, 0⟩).yieldRound =
      some (roundOf (tF 0 id fun c => { c with yieldRound := some 0 }) 0) ∧ (ctxAt (tW (.sleepr h0 1) .sleep id id) ⟨0, 0, 0⟩).park ≠ none :=
  ⟨ready_all (by decide +kernel), by and_intros <;> decide +kernel⟩
theorem test_hyp_NopYieldAndSleeprLeaveTurns_Expiry : Waits (tW (.sleepr h0 1) .sleep id id) w0 (waitBy State.reset (.sleepr h0 1) 7 .sleep 0 0 0 []) :=
  waits_of (by decide +kernel)
theorem test_hyp_ParkAndExitForms :
    (∀ S D r, Ready (tR 0 0 0 0 0) h0 S D r) ∧ (me (tR 0 0 0 0 0)).wake = false ∧
    (me (tS (fun c => { c with wake := true }) id id)).wake = true ∧ (me (tR 0 0 0 0 0)).packet = none :=
  ⟨ready_all (by decide +kernel), by and_intros <;> decide +kernel⟩
theorem test_hyp_ParkAndExitForms_Packet :
    Ready (tS (fun c => { c with packet := some (127, 63) }) id id) h0 [] [] false ∧
    (me (tS (fun c => { c with packet := some (127, 63) }) id id)).packet = some (127, 63) := ⟨ready_of (by decide +kernel), by decide +kernel⟩
/-- A region that holds the registers of reset. -/
def g0 : Region := { beginPc := 0, handler := 24, causeReg := 9, s := Ctx.reset.s, sP := Ctx.reset.sP, k := Ctx.reset.k, kP := Ctx.reset.kP,
                     p := Ctx.reset.p, pP := Ctx.reset.pP, stores := [], atomic := none }
/-- A slot inside a region. -/
noncomputable def tG (g : Region) : State := tS (fun c => { c with region := some g }) id id
theorem test_hyp_ParkAndExitForms_Region :
    (slotAt (tG g0) (tG g0).cur).ph = .bound ∧ (me (tG g0)).park = none ∧ presOf (me (tG g0)) (.p h0.g) = .full ∧ guardOf (me (tG g0)) h0 = true ∧
    (me (tG g0)).region.isSome = true := by and_intros <;> decide +kernel
theorem test_hyp_SpecialRegistersReadAndWrite :
    let s := tR 0xFFFFFFFF 0x100000000 5 6 0x8000000000000000
    (∀ S D r, Ready s h0 S D r) ∧ (let x := fun i => rs (me s) i
      (x 1).toNat < 2 ^ 32 ∧ 2 ^ 32 ≤ (x 2).toNat ∧ (x 3).toNat < 6 ∧ 6 ≤ (x 4).toNat ∧ x 3 &&& 0x1F1F = x 3 ∧ x 5 &&& 0x1F1F ≠ x 5 ∧ x 0 = 0 ∧ x 1 ≠ 0 ∧
      (x 5).extractLsb' 8 55 = 0 ∧ (x 1).extractLsb' 8 55 ≠ 0 ∧ (x 0).toNat % 4 = 0 ∧ (x 0).toNat < 2 ^ 56 ∧ (x 3).toNat % 4 ≠ 0 ∧ 2 ^ 56 ≤ (x 5).toNat ∧
      isCompute s.cur.tile = true) :=
  ⟨ready_all (by decide +kernel), by and_intros <;> decide +kernel⟩
theorem test_hyp_FaultEntryWritesOnlyFaultRegisters :
    let s := tR 0 0 0 0 0
    (slotAt s s.cur).ph = .bound ∧ (ctxAt s s.cur).inh = false ∧ (ctxAt s s.cur).region = none ∧ (ctxAt s s.cur).packet = none ∧
    (ctxAt s s.cur).d.det = false := by and_intros <;> decide +kernel
theorem test_hyp_TrapAndReturnForms :
    (∀ S D r, Ready (tR 0 0 0 0 0) h0 S D r) ∧ (me (tR 0 0 0 0 0)).inh = false ∧ guardOf (me (tR 0 0 0 0 0)) h1 = false ∧
    (let inh := fun (x : Word) => (me (tS (fun c => { c with trappc := x, cause := 0x8000000000000020 }) id id)).inh
     inh 0 = true ∧ inh 1 = true ∧ inh 0x100000000000000 = true ∧ (0xFFFFFFFFFFFFF4#64 + 12).toNat = 2 ^ 56) :=
  ⟨ready_all (by decide +kernel), by and_intros <;> decide +kernel⟩
/-- A message for slot 0 of tile 0. -/
def m0 : SupMsg := ⟨⟨0, 0, 0⟩, 1, 3, 9, 5, 6, ⟨0, 1, 0⟩, false⟩
theorem test_hyp_SupervisorMessagesLandAndAreTaken :
    let s := tS id (fun t => { t with msgs := [m0] }) id
    (∀ S D r, Ready s h0 S D r) ∧ (here s).msgs = [] ++ m0 :: [] ∧ m0.dst = s.cur ∧ (∀ m ∈ (here (tR 0 0 0 0 0)).msgs, m.dst ≠ s.cur) ∧ (61#6).toNat ≤ 61 ∧
    holdsJob s m0.dst 1 = true ∧ holdsJob s m0.dst 2 = false ∧ (here s).msgs.length < 32 ∧
    32 ≤ (here (tS id (fun t => { t with msgs := List.replicate 32 m0 }) id)).msgs.length ∧ msgToken m0 = none ∧
    (∃ k, msgToken { m0 with cls := 1, w1 := 0x500000000 } = some k) ∧ (jobAt s 1).isSome = true :=
  ⟨ready_all (by decide +kernel), by decide +kernel, by decide +kernel, by decide +kernel, by decide, by decide +kernel, by decide +kernel, by decide +kernel,
    by decide +kernel, by decide +kernel, ⟨_, rfl⟩, by decide +kernel⟩

/-! ### Witnesses: spawning, global memory, dispatch -/

/-- An outstanding store of the unit. -/
def out0 : Out := ⟨9, ⟨0, 0, 0⟩, 1, 1, 0, some ⟨0, 0⟩, false, 64, ⟨0, 1, 0⟩, false⟩
/-- A launch of one slot on tile 1. -/
def d0 : LaunchDesc := { entry := 0, handler := 0, seed := 0, args := [], copyS := none, matS := none, pre := false, det := false, prio := 3, cls := 0,
                         slots := 1, h := 1, w := 1, y0 := 0, x0 := 1, supS := 0, supT := 0, waitlim := 0 }
/-- Its entry at the dispatcher. -/
def l0 : Launch := { serial := 1, job := 1, graph := 2, node := 0, d := d0, supPkg := 0, tiles := [1], placed := true, live := 1 }
/-- A package that knows it, changed as given. -/
noncomputable def tP (f : Pkg → Pkg) : State := tS id id fun s => modPkg s 0 fun p => f { p with launches := [l0] }
theorem test_hyp_SpawnFormsAskAndReturnOnce :
    (∀ S D r, Ready (tR 2099 8 2100 0x100000000000000 4095) h0 S D r) ∧ (60#6).toNat ≤ 60 ∧
    (let x := fun i => rs (me (tR 2099 8 2100 0x100000000000000 4095)) i
     (x 1).toNat < 2 ^ 12 ∧ (x 5).toNat < 2 ^ 12 ∧ 2 ^ 12 ≤ (x 4).toNat ∧ (x 2).toNat % 4 = 0 ∧ (x 2).toNat < 2 ^ 56 ∧ isTile (x 1).toNat = true ∧
     isTile (x 3).toNat = false) ∧
    releaseOk (tR 0 0 0 0 0) ⟨0, 0, 0⟩ 1 .dom ⟨0, 0⟩ = true ∧ releaseOk (tS id id fun s => { s with outs := [out0] }) ⟨0, 0, 0⟩ 1 .dom ⟨0, 0⟩ = false ∧
    (me (tR 0 0 0 0 0)).d.origin = none ∧ (me (tR 0 0 0 0 0)).retDone = false ∧
    (let o := fun (r : Option SIx) => (me (tS (fun c => { c with d := { c.d with origin := some ⟨⟨0, 1, 0⟩, 4, r⟩ } }) id id)).d.origin
     o none = some ⟨⟨0, 1, 0⟩, 4, none⟩ ∧ o (some 9) = some ⟨⟨0, 1, 0⟩, 4, some 9⟩) :=
  ⟨ready_all (by decide +kernel), by and_intros <;> decide +kernel⟩
/-- A spawn request of the launch for tile 1. -/
def sq0 : SpawnReq := ⟨w0, ⟨0, 1⟩, { demoUnit with launch := 1 }, true, false, none, false⟩
theorem test_hyp_SpawnServiceAndBinding :
    sq0.recSeq = none ∧ launchAt (tP id) sq0.desc.launch = some l0 ∧ sq0.desc.launch ≠ 0 ∧ sq0.target.id ∈ l0.tiles ∧ l0.done = false ∧ l0.cancelled = false ∧
    l0.job = sq0.desc.job ∧ (tileAt (tP id) ⟨0, 1⟩).retiring = false ∧ (tileAt (tP id) ⟨0, 1⟩).present = true ∧ (tileAt (tP id) ⟨0, 1⟩).spawnQ.length < 64 ∧
    (tileAt (modTile (tP id) ⟨0, 1⟩ fun t => { t with retiring := true }) ⟨0, 1⟩).retiring = true ∧
    64 ≤ (tileAt (modTile (tP id) ⟨0, 1⟩ fun t => { t with spawnQ := List.replicate 64 ⟨sq0, 0⟩ }) ⟨0, 1⟩).spawnQ.length ∧
    launchAt State.reset 1 = none ∧ (slotAt (modSlot State.reset ⟨0, 0, 0⟩ fun l => { l with ph := .binding }) ⟨0, 0, 0⟩).ph = .binding ∧
    (let s := modTile State.reset ⟨0, 1⟩ fun t => { t with spawnQ := [⟨sq0, 0⟩] }
     (tileAt s ⟨0, 1⟩).spawnQ = [⟨sq0, 0⟩] ∧ spawnSlot s ⟨0, 1⟩ = some 0 ∧ tileTakes (tileAt s ⟨0, 1⟩) 1 = true) ∧
    (let s := modCtx (tR 0 0 0 0 0) ⟨0, 0, 0⟩ fun c => setPres c (.s 63) .ret
     (slotAt s ⟨0, 0, 0⟩).ph = .bound ∧ (ctxAt s ⟨0, 0, 0⟩).park = none ∧ presOf (ctxAt s ⟨0, 0, 0⟩) (.s 63) = .ret) := by
  and_intros <;> decide +kernel
theorem test_hyp_SpawnServiceAndBinding_Replies :
    Waits (tW (.spawnAt h0 1 2 3 4) .reply id id) w0 (waitBy State.reset (.spawnAt h0 1 2 3 4) 7 .reply 0 0 0 []) ∧
    Waits (tW (.spawnQ h0 1 2 3 4) .reply id id) w0 (waitBy State.reset (.spawnQ h0 1 2 3 4) 7 .reply 0 0 0 []) :=
  ⟨waits_of (by decide +kernel), waits_of (by decide +kernel)⟩
/-- Whether an access of a kind at an address is translated and has a home. -/
noncomputable def homed (s : State) (kind va : Nat) : Bool :=
  match xlate s s.cur.node (me s).d.job (me s).d.det kind va with
  | .ok pa s1 => (homeFor s1 s.cur (me s) pa (kind = 1)).isSome
  | _ => false
theorem test_hyp_GlobalLoadAndPrefetchForms :
    (∀ S D r, Ready (tR 0xFFF8 6 0x100000000000000 0 0) h0 S D r) ∧ (me (tR 0xFFF8 6 0x100000000000000 0 0)).region = none ∧
    (let s := tR 0xFFF8 6 0x100000000000000 0 0
     let x := fun i => rs (me s) i + (0#32).signExtend 64
     homed s 0 (x 1).toNat = true ∧ homed s 1 (x 1).toNat = true ∧ homed s 2 (x 1).toNat = true ∧ (x 1).toNat % Sz.b8.bytes = 0 ∧ (x 1).toNat < 2 ^ 56 ∧
     (x 2).toNat % Sz.b8.bytes ≠ 0 ∧ (x 2).toNat < 2 ^ 56 ∧ 2 ^ 56 ≤ (x 3).toNat ∧ (x 3).toNat % 8 = 0 ∧ isRemote (x 3) = false ∧ isRemote (x 1) = false ∧
     homed s 0 (x 4).toNat = true ∧ (x 4).toNat % 256 = 0) ∧
    Sz.b8.isScalar = true ∧ Sz.b256.isVec = true ∧ Sz.b4.isAtomic = true ∧
    postedOut (tR 0 0 0 0 0) ⟨0, 0, 0⟩ = 0 ∧ 16 ≤ postedOut (tS id id fun s => { s with outs := List.replicate 16 out0 }) ⟨0, 0, 0⟩ ∧
    releaseOk (tR 0 0 0 0 0) ⟨0, 0, 0⟩ 1 .dom ⟨0, 0⟩ = true ∧ releaseOk (tS id id fun s => { s with outs := [out0] }) ⟨0, 0, 0⟩ 1 .dom ⟨0, 0⟩ = false ∧
    aopSize .add 4 = true ∧ aopSize .fadd32 8 = false ∧ aopRemote .add = true ∧ aopRemote .fadd32 = false :=
  ⟨ready_all (by decide +kernel), by and_intros <;> decide +kernel⟩
/-- The stores and the atomic forms meet their hypotheses in the same states. -/
theorem test_hyp_GlobalStoreFormsPost :
    let s := tR 0xFFF8 6 0x100000000000000 0 0
    (∀ S D r, Ready s h0 S D r) ∧ (me s).region = none ∧ homed s 1 (rs (me s) 1 + (0#32).signExtend 64).toNat = true ∧ postedOut s ⟨0, 0, 0⟩ < 16 ∧
    releaseOk s s.cur 1 .dom ⟨0, 0⟩ = true ∧ homed s 1 (rs (me s) 4).toNat = true ∧ (rs (me s) 4).toNat % 256 = 0 :=
  ⟨ready_all (by decide +kernel), by and_intros <;> decide +kernel⟩
theorem test_hyp_AtomicFormsRequest :
    let s := tR 0xFFF8 6 0x100000000000000 0 0
    (∀ S D r, Ready s h0 S D r) ∧ (me s).region = none ∧ homed s 2 (rs (me s) 1 + (0#32).signExtend 64).toNat = true ∧ aopSize .add 8 = true ∧
    (rs (me s) 1).toNat % Sz.b8.bytes = 0 ∧ (rs (me s) 2).toNat % Sz.b4.bytes ≠ 0 :=
  ⟨ready_all (by decide +kernel), by and_intros <;> decide +kernel⟩
/-- An address of the last word of the scratchpad of a tile. -/
def ra (tile : Nat) : Word := BitVec.ofNat 64 (2 ^ 63 + tile * 2 ^ 44 + 0xDFFF8)
theorem test_hyp_GlobalLoadAndPrefetchForms_PadAway : (PadAway (tR 0 0 0 0 0) (ra 1) 8 8) ∧ isRemote (ra 1) = true ∧ (ra 1).toNat % 8 = 0 :=
  ⟨⟨by decide +kernel, rfl, by decide, by decide +kernel, by decide +kernel⟩, by decide, by decide⟩
/-- A request of a unit at the controller of tile 0. -/
def q0 (op : MemOp) : MemReq := ⟨w0, 0, 0x10000, 0, 1, op, true, none, false, false⟩
/-- A controller that holds one request. -/
noncomputable def tC (op : MemOp) (w : Option (Nat × Nat × List MemReq)) : State := { State.reset with ctrls := [(0, { landed := [q0 op], win := w })] }
theorem test_hyp_ControllersServeRequests :
    (∀ op ∈ [MemOp.load 8, .store [1], .atom .add 8 1, .cas 4 0 1, .atomDet .add 4 1], (ctrlAt (tC op none) ⟨0, 0⟩).landed = [q0 op]) ∧
    (tileAt (tC (.load 8) none) ⟨0, 0⟩).errs = [] ∧ 0x10000 % 2 ^ 46 < 0x3F0000000000 ∧ (ctrlAt (tC (.load 8) none) ⟨0, 0⟩).win = none ∧
    (ctrlAt (tC (.load 8) (some (1, 63, [q0 (.atomDet .add 4 1)]))) ⟨0, 0⟩).win = some (1, 63, [q0 (.atomDet .add 4 1)]) ∧
    isCompute 0 = true ∧ isCompute 2100 = false ∧ refreshPhase State.reset ⟨0, 0⟩ < 160 ∧ 160 ≤ refreshPhase { State.reset with now := 160 } ⟨0, 0⟩ ∧
    0xFFFFFFFF < 2 ^ (8 * 4) := by and_intros <;> decide +kernel
theorem test_hyp_ControllersServeRequests_Replies :
    Waits (tW (.gld h0 .b8 .slot .rlx false 1 2 0) .reply id id) w0 (waitBy State.reset (.gld h0 .b8 .slot .rlx false 1 2 0) 7 .reply 0 0 0 []) ∧
    Waits (tW (.gldv h0 .b256 .slot .rlx 1 2 0) .reply id id) w0 (waitBy State.reset (.gldv h0 .b256 .slot .rlx 1 2 0) 7 .reply 0 0 0 []) ∧
    Waits (tW (.atom h0 .b8 .slot .rlx .add 1 2 3 0) .reply id id) w0 (waitBy State.reset (.atom h0 .b8 .slot .rlx .add 1 2 3 0) 7 .reply 0 0 0 []) ∧
    Waits (tW (.atomDet h0 .b8 .slot .rlx .add 1 2 3 0) .reply id id) w0 (waitBy State.reset (.atomDet h0 .b8 .slot .rlx .add 1 2 3 0) 7 .reply 0 0 0 []) ∧
    Waits (tW (.cas h0 .b8 .slot .rlx 0 1 2 3 0) .reply id id) w0 (waitBy State.reset (.cas h0 .b8 .slot .rlx 0 1 2 3 0) 7 .reply 0 0 0 []) ∧
    (ctxAt (tW (.nop h0) .reply id id) ⟨0, 0, 0⟩).region = none ∧ Sz.b8.isScalar = true ∧ (List.replicate 8 (0#8)).length = Sz.b8.bytes :=
  ⟨waits_of (by decide +kernel), waits_of (by decide +kernel), waits_of (by decide +kernel), waits_of (by decide +kernel), waits_of (by decide +kernel),
    by decide +kernel, rfl, rfl⟩
/-- A store held in a region. -/
def hs0 : HeldStore := { va := 0xDFFF8, data := [1, 2], scratch := true }
theorem test_hyp_RegionsHoldAndReleaseStores :
    (∀ S D r, Ready (tR 0xFFF8 0 0 0 0) h0 S D r) ∧ Ready (tG g0) h0 [] [] true ∧ Ready (tG g0) h0 [.s 1, .s 2] [] true ∧
    Ready (tG { g0 with stores := [hs0] }) h0 [] [] true ∧
    (me (tG g0)).region = some g0 ∧ g0.committing = false ∧ g0.atomic = none ∧ g0.stores = [] ∧ (me (tG { g0 with stores := [hs0] })).region = some { g0 with stores := [hs0] } ∧
    hs0.scratch = true ∧ isRemote hs0.va = false ∧ (here (tG g0)).errs = [] ∧ homed (tG g0) 1 0 = true ∧
    (me (tG { g0 with stores := List.replicate 16 hs0 })).region = some { g0 with stores := List.replicate 16 hs0 } ∧
    (let s := tS (fun c => { c with pP := c.pP.set 7 .pending }) id id
     fitB s h0 [] [.s 63] true = true ∧ Pres.pending ∈ (me s).pP.toList) :=
  ⟨ready_all (by decide +kernel), ready_of (by decide +kernel), ready_of (by decide +kernel), ready_of (by decide +kernel), by and_intros <;> decide +kernel⟩
/-- A graph of the job. -/
def gr0 : Graph := { serial := 2, job := 1 }
theorem test_hyp_DispatcherAndLaunchForms :
    (∀ S D r, Ready (tR 0 2 0x40 0x100000000000000 1) h0 S D r) ∧
    (let s := tR 0 2 0x40 0x100000000000000 1
     objectOf s s.cur (me s) .launch 5 = some (1, 0) ∧ objectOf s s.cur (me s) .launch 0 = none ∧ objectOf s s.cur (me s) .graph 5 = none ∧
     (rs (me s) 2).toNat % 64 ≠ 0 ∧ (rs (me s) 3).toNat % 64 = 0 ∧ (rs (me s) 4).toNat % 64 = 0 ∧ 2 ^ 56 ≤ (rs (me s) 4).toNat ∧ homed s 0 (rs (me s) 3).toNat = true) ∧
    releaseOk (tR 0 0 0 0 0) ⟨0, 0, 0⟩ 1 .dom ⟨0, 0⟩ = true ∧ releaseOk (tS id id fun s => { s with outs := [out0] }) ⟨0, 0, 0⟩ 1 .dom ⟨0, 0⟩ = false :=
  ⟨ready_all (by decide +kernel), by and_intros <;> decide +kernel⟩
/-- A LAUNCH that has read its 128 bytes. -/
noncomputable def tL : State :=
  tS (fun c => { c with park := some (waitBy State.reset (.launch h0 1 2) 7 .cond 0 0 0 (List.replicate 128 0)) }) id id
theorem test_hyp_DispatcherAndLaunchForms_HasRead :
    Fit tL h0 [.s 2] [.s 1] false ∧ (128 ≤ (gotBytes (me tL)).length ∧ (rs (me tL) 2).toNat % 64 = 0 ∧ releaseOk tL tL.cur (me tL).uid .dom tL.cur.node = true) ∧
    Waits tL w0 (waitBy State.reset (.launch h0 1 2) 7 .cond 0 0 0 (List.replicate 128 0)) :=
  ⟨fit_of (by decide +kernel), by and_intros <;> decide +kernel, waits_of (by decide +kernel)⟩
/-- A request at the dispatcher of package 0. -/
def v0 (k : SvcKind) : SvcReq := ⟨w0, svcN 0, 1, 0, true, false, none, k, false⟩
/-- What a dispatcher knows, as a number: nothing, live, or over with a status. -/
noncomputable def known (s : State) (lvl : Level) (n : Nat) : Nat :=
  match knownOf s 0 1 lvl n with
  | .bad => 0
  | .live => 1
  | .over v => 2 + v
theorem test_hyp_DispatcherAnswersAndCompletes :
    absentTiles (tP id) 0 d0 = false ∧ takesWork (tP id) 0 1 = false ∧
    takesWork { tP id with jobs := [{ demoJob with phaseOpen := [0] }] } 0 1 = true ∧
    (pkgAt (tP id) 0).launches.length < 8192 ∧ openGraph (tP id) 0 1 0x4000000000000002 = none ∧
    openGraph (tP fun p => { p with graphs := [gr0] }) 0 1 0x4000000000000002 = some gr0 ∧ gr0.nodes.length < 256 ∧ 256 ≤ (List.replicate 256 0).length ∧
    ((1 : Word).toNat ≤ (1 : Word).toNat) ∧ (0 : Word).toNat < (1 : Word).toNat ∧ (1 : Word).toNat < [0, 1].length ∧
    containsUnit (tP id) 0 .launch 1 0 = false ∧ containsUnit (tP id) 0 .launch 1 1 = true ∧
    known (tP id) .launch 1 = 1 ∧ known (tP id) .launch 9 = 0 ∧
    known (tP fun p => { p with outcomes := [⟨1, .launch, 7, 1⟩] }) .launch 7 = 3 ∧
    (jobAt (tP id) 1).isSome = true ∧ launchOf (tP id) 0 1 = some l0 ∧ l0.live ≠ 0 ∧
    launchOf (tP fun p => { p with launches := [{ l0 with live := 0 }] }) 0 1 = some { l0 with live := 0 } ∧ (tP id).outs = [] ∧
    phaseOver (tP id) demoJob = false ∧ phaseOver (tP id) { demoJob with left := [0] } = true ∧ phaseNoted (tP id) demoJob = false ∧ demoJob.done = false ∧
    launchOf (tP fun p => { p with launches := [{ l0 with placed := false }] }) 0 1 = some { l0 with placed := false } ∧
    jobAt (tP id) demoJob.handle = some demoJob ∧ demoJob.ending = false := by and_intros <;> decide +kernel
theorem test_hyp_UnitsComeAndGo :
    (let l := { l0 with placed := false, tiles := [] }
     let s := tP fun p => { p with launches := [l], pool := [(0, 2, 0, 1)] }
     (pkgAt s 0).pool = [(0, 2, 0, 1)] ∧ launchOf s 0 1 = some l ∧ l.d.prio ≤ 3 ∧ l.d.det = false ∧ tryPlace s 0 l = some ([1], none)) ∧
    (pkgAt (tP id) 0).pool = [] ∧ awayTiles (tP id) 0 = [] ∧
    (let s := modSlot (tR 0 0 0 0 0) ⟨0, 0, 15⟩ fun l => { l with ph := .saving, ctx := { l.ctx with savedXa := [(7, 5, 0)] } }
     (slotAt s ⟨0, 0, 15⟩).ph = .saving ∧ ((ctxAt s ⟨0, 0, 15⟩).savedXa.map (·.1)).Nodup ∧ (ctxAt s ⟨0, 0, 15⟩).savedXa = [(7, 5, 0)]) ∧
    launchOf (tP id) 0 1 = some l0 ∧ (∀ i ∈ l0.tiles, i < 4096) := by and_intros <;> decide +kernel

/-! ### Witnesses: the vector unit and the accumulators -/

/-- A unit with a few lanes in its vector registers, a special-function queue and beats under way as given. -/
noncomputable def tV (beats : Nat) (q : List SfuReq) : State :=
  tS (fun c => { c with v := ((c.v.set 1 0x3F8000003F800000#2048).set 2 0x40000000FF800000#2048).set 3 0x7FC00001#2048 })
    (fun t => { t with beats := beats, sfu := q }) id
theorem test_hyp_FloatLaneFormResults :
    (∀ S D r, Ready (tV 15 []) h0 S D r) ∧ (∀ S D r, Ready (tV 16 []) h0 S D r) ∧ (here (tV 15 [])).beats ≤ 15 ∧ 15 < (here (tV 16 [])).beats :=
  ⟨ready_all (by decide +kernel), ready_all (by decide +kernel), by decide +kernel, by decide +kernel⟩
theorem test_hyp_FloatLaneFormResults_Trap :
    let s := tS (fun c => { c with fpflags := 0x1F00, v := c.v.set 2 0#2048 }) id id
    (∀ S D r, Ready s h0 S D r) ∧ (fpLoop s .f32 .rne ⟨0, false⟩ 1 fun j r => fDiv (Fmt.of .f32) r (numAt s .f32 2 j) (numAt s .f32 2 j)).2.bad = some 0 :=
  ⟨ready_all (by decide +kernel), by decide +kernel⟩
theorem test_hyp_IntegerAndMoveLaneResults :
    (∀ S D r, Ready (tR 31 32 0 0 0) h0 S D r) ∧ (rs (me (tR 31 32 0 0 0)) 1).toNat < laneCount Ty.f64.width ∧
    laneCount Ty.f64.width ≤ (rs (me (tR 31 32 0 0 0)) 2).toNat := ⟨ready_all (by decide +kernel), by decide +kernel, by decide +kernel⟩
theorem test_hyp_MaskAndReductionResults :
    (∀ S D r, Ready (tV 0 []) h0 S D r) ∧ laneCount Ty.i8.width ≤ 256 ∧ Ty.i8.isInt = true ∧ Ty.f32.isInt = false ∧
    (0#2048) = maskOut (me (tV 0 [])) ⟨0, true⟩ 1 256 fun _ => false :=
  ⟨ready_all (by decide +kernel), by decide, by decide, by decide, by decide +kernel⟩
theorem test_hyp_ConversionAndBlockResults :
    (∀ S D r, Ready (tV 15 []) h0 S D r) ∧ (∀ t ∈ [Ty.mxfp8, .mxint8, .mxfp6e3, .mxfp6e2, .mxfp4, .tq4], t.isBlock = true) ∧
    (15#4).toNat * groupBlks .mxfp8 + 0 ≥ blkCount .mxfp8 ∧ 3 * groupBlks .mxfp8 + 0 < blkCount .mxfp8 :=
  ⟨ready_all (by decide +kernel), by decide +kernel, by decide +kernel, by decide +kernel⟩
/-- A request of the special-function queue. -/
def sr0 (id : Nat) (started trapping : Bool) : SfuReq := ⟨id, 0, 1, 8, 0, started, [(.v 1, 5)], [(.v 1, 0)], 0x10, 31, trapping, 1, 0, 0⟩
theorem test_hyp_SpecialFunctionQueue :
    (∀ S D r, Ready (tV 0 (List.replicate 15 (sr0 1 false false))) h0 S D r) ∧ (∀ S D r, Ready (tV 0 (List.replicate 16 (sr0 1 false false))) h0 S D r) ∧
    (here (tV 0 (List.replicate 15 (sr0 1 false false)))).sfu.length < 16 ∧ 16 ≤ (here (tV 0 (List.replicate 16 (sr0 1 false false)))).sfu.length ∧
    enabled (me (tV 0 [])) = 0 ∧ enabled (me (tS (fun c => { c with fpflags := 0x100 }) id id)) ≠ 0 :=
  ⟨ready_all (by decide +kernel), ready_all (by decide +kernel), by and_intros <;> decide +kernel⟩
theorem test_hyp_SpecialFunctionQueue_Service :
    let s := tV 2 [sr0 7 true false, sr0 8 false true]
    2 ≤ (here s).beats ∧ (here s).sfu = [sr0 7 true false] ++ sr0 8 false true :: [] ∧ (here s).sfuFree ≤ s.now ∧
    (here s).sfu.find? (fun x => x.id = 8) = some (sr0 8 false true) ∧ (here s).sfu.find? (fun x => x.id = 7) = some (sr0 7 true false) ∧
    (me s).park = none ∧ (me s).uid = 1 ∧ (slotAt s s.cur).ph = .bound ∧
    s.now < (here (tS id (fun t => { t with sfuFree := 1 }) id)).sfuFree := by and_intros <;> decide +kernel
theorem test_hyp_SpecialFunctionQueue_Wait :
    let s := modTile (tW (.vexp2 h0 .f32 .rne ⟨0, false⟩ 1 2) (.sfu 7) id id) ⟨0, 0⟩ fun t => { t with sfu := [sr0 7 true true] }
    Waits s w0 (waitBy State.reset (.vexp2 h0 .f32 .rne ⟨0, false⟩ 1 2) 7 (.sfu 7) 0 0 0 []) ∧ (tileAt s ⟨0, 0⟩).sfu.find? (fun x => x.id = 7) = some (sr0 7 true true) :=
  ⟨waits_of (by decide +kernel), by decide +kernel⟩
/-- An accumulator held by the unit of slot 0, or by another. -/
def xa0 (slot st busy : Nat) : XAcc := ⟨5, st, some (slot, 1), busy, 1⟩
/-- The tile holds accumulators: 0 of the unit, 1 of another, 2 busy, 3 that is a NaN, 4 that is +infinity. -/
noncomputable def tX (x1 : Word) : State :=
  tS (fun c => { c with s := c.s.set 1 x1 })
    (fun t => { t with xas := ((((t.xas.set 0 (xa0 0 0 0)).set 1 (xa0 1 0 0)).set 2 (xa0 0 0 1)).set 3 (xa0 0 3 0)).set 4 (xa0 0 1 0) }) id
theorem test_hyp_AccumulatorFormResults :
    (∀ S D r, Ready (tX 0xFFDD8) h0 S D r) ∧ (∀ S D r, Ready (tX 4) h0 S D r) ∧
    (let X := fun i : BitVec 3 => xaAt (here (tX 0)) i
     HoldsXa (tX 0) [0] ∧ HoldsXa (tX 0) [0, 3] ∧ HoldsXa (tX 0) [3] ∧ HoldsXa (tX 0) [4] ∧ (X 1).holder ≠ none ∧ (X 1).holder ≠ some (0, 1) ∧
     (X 2).holder = some (0, 1) ∧ (tX 0).now < (X 2).busyUntil ∧ (X 5).holder = none ∧ (X 0).st = 0 ∧ (X 4).st = 1 ∧ 3 ≤ (X 3).st ∧
     (xaAt (here (tS id (fun t => { t with xas := t.xas.set 0 (xa0 0 2 0) }) id)) 0).st = 2) ∧
    (let ea := rs (me (tX 0xFFDD8)) 1 + (0#32).signExtend 64
     isRemote ea = false ∧ ea.toNat % 8 = 0 ∧ padOk (here (tX 0xFFDD8)) ea.toNat 552 = true) ∧
    padOk (here (tX 0)) (0xFFDD8 + 8) 552 = false ∧ (rs (me (tX 4)) 1).toNat % 8 ≠ 0 ∧ isRemote (ra 1) = true := by
  refine ⟨ready_all (by decide +kernel), ready_all (by decide +kernel), ?_⟩
  and_intros <;> first | decide +kernel | (simp only [HoldsXa]; decide +kernel)

/-! ### Witnesses: channels -/

/-- A protocol with a window of 2: an active state, a passive one, and one that closes. -/
def im0 : PImage :=
  { states := [[⟨.send, 5, 1, 0, 0, 1⟩, ⟨.select, 0, 1, 2, 0, 0⟩, ⟨.delegOut, 63, 1, 0, 0, 1⟩],
               [⟨.recv, 5, 0, 0, 0, 1⟩, ⟨.offer, 0, 0, 2, 0, 0⟩, ⟨.delegIn, 63, 0, 0, 0, 1⟩], [⟨.close, 0, 2, 0, 0, 0⟩]]
    recmask := 1, maxpay := 1, window := 2, init := 0, digest := 77, dual := 88, laSend := 2, laRecv := 2, job := 1, holders := [(0, 1)] }
/-- An endpoint of the unit of slot 0 in a state of that protocol. -/
def e0 (st : EpSt) (q : Nat) (inbox : List ChMsg) : Endpoint :=
  { st := st, owner := some (0, 1), img := 8, q := q, peer := ⟨0, 1, 3⟩, gen := 4, peerGen := 5, inbox := inbox, job := 1 }
/-- A tile with that protocol, endpoint 127 as given and endpoint 0 open and idle in its first state; the unit as given. -/
noncomputable def tE (x : Endpoint) (f : Ctx → Ctx) : State :=
  tS f (fun t => { t with images := [(8, im0)], eps := [(0, e0 .opened 0 []), (1, e0 .idle 0 []), (2, { e0 .idle 0 [] with owner := some (1, 1) }), (127, x)] }) id
/-- With a few scalar registers. -/
noncomputable def tEr (x : Endpoint) (x1 x2 : Word) : State := tE x fun c => { c with s := (c.s.set 1 x1).set 2 x2 }
theorem test_hyp_EndpointImageAndProtocolForms :
    let s := tEr (e0 .opened 0 []) 127 8
    (∀ S D r, Ready s h0 S D r) ∧ ownsEp s s.cur (me s).uid 127 = true ∧ ownsEp s s.cur (me s).uid 2 = false ∧ (rs (me s) 1).toNat ≤ 127 ∧
    127 < (rs (me (tEr (e0 .opened 0 []) 128 8)) 1).toNat ∧ (rs (me (tEr (e0 .opened 0 []) 128 8)) 1).toNat = 128 ∧
    ((here s).epAt 3).st = .free ∧ (∀ j < 3, ((here s).epAt j).st ≠ .free) ∧ ((here s).epAt 127).st ≠ .free ∧ (me s).packet = none ∧
    8 ≤ (rs (me s) 2).toNat ∧ (s.cur.slot, (me s).uid) ∈ (imageOf s s.cur.node 8).holders ∧ (s.cur.slot, (me s).uid) ∉ (imageOf s s.cur.node 9).holders ∧
    ((me (tE (e0 .opened 0 []) fun c => { c with packet := some (127, 0) })).packet.map (·.1)) = some 127 ∧
    (epAt s (ownEp s.cur 127)).st = .opened ∧ (epAt s (ownEp s.cur 1)).st = .idle ∧ (epAt (tE (e0 .aborted 0 []) id) (ownEp s.cur 127)).st = .aborted ∧
    boundTo s s.cur (me s).uid (.s 63) = none ∧ (epAt s (ownEp s.cur 127)).reg = none ∧ Machine.BindDst.reg .none = none ∧
    Machine.BindDst.reg (.s 63) = some (.s 63) ∧ presOf (me s) (.s 63) ≠ .pending ∧ presOf (me s) (.s 63) ≠ .ret ∧
    presOf (me (tE (e0 .opened 0 []) fun c => setPres c (.s 63) .ret)) (.s 63) = .ret :=
  ⟨ready_all (by decide +kernel), by and_intros <;> decide +kernel⟩
/-- The bytes of an image with one state, which closes, and no valid digest. -/
def ib0 : List Byte := bytesOfNat 8 (12 + 16 + 2 ^ 32) ++ bytesOfNat 8 0 ++ bytesOfNat 4 1 ++ bytesOfNat 4 0
/-- What reading an image ends with, as a number. -/
def imageRead (b : List Byte) : Nat :=
  match readImage b with
  | .need n => 1000 + n
  | .bad k => k
  | .ok _ => 0
theorem test_hyp_EndpointImageAndProtocolForms_Load :
    (∀ S D r, Ready (tR 0x10 8 0x100000000000000 0 0) h0 S D r) ∧
    (let s := tR 0x10 8 0x100000000000000 0 0
     let va := fun i => rs (me s) i + (0#32).signExtend 64
     (va 1).toNat % 16 = 0 ∧ (va 1).toNat < 2 ^ 56 ∧ homed s 0 (va 1).toNat = true ∧ (va 2).toNat % 16 ≠ 0 ∧ (va 3).toNat % 16 = 0 ∧ 2 ^ 56 ≤ (va 3).toNat ∧
     (here s).images = [] ∧ ahas (here s).images (8 + 0) = false) ∧
    lookAhead im0 PAct.active = some 2 ∧ lookAhead im0 PAct.passive = some 2 ∧
    lookAhead { im0 with window := 0, states := [[⟨.send, 5, 0, 0, 0, 1⟩]] } PAct.active = none ∧
    (∀ k < 24, ahas (here (tS id (fun t => { t with images := (List.range 24).map fun k => (8 + k, im0) }) id)).images (8 + k) = true) ∧
    imageRead (List.replicate 16 0) = 1 ∧ imageRead [] = 1016 :=
  ⟨ready_all (by decide +kernel), by and_intros <;> decide +kernel⟩
/-- A load of an image that has read bytes. -/
noncomputable def tI (b : List Byte) : State :=
  tS (fun c => { c with park := some (waitBy State.reset (.protLoad h0 1 2 0) 7 .cond 0 0 0 (b.map fun x => x.setWidth 64)) }) id id
theorem test_hyp_EndpointImageAndProtocolForms_HasRead :
    Fit (tI (List.replicate 16 0)) h0 [.s 2] [.s 1] false ∧ ((rs (me (tI [])) 2) + (0#32).signExtend 64).toNat % 16 = 0 ∧
    imageRead (gotBytes (me (tI (List.replicate 16 0)))) = 1 := ⟨fit_of (by decide +kernel), by decide +kernel, by decide +kernel⟩
theorem test_hyp_ChannelsOpenAndAccept :
    let s := tEr (e0 .opened 0 []) 0xC000100000000003 8
    (∀ S D r, Ready s h0 S D r) ∧ ownsEp s s.cur (me s).uid 1 = true ∧ ownsEp s s.cur (me s).uid 2 = false ∧ (epAt s (ownEp s.cur 1)).st = .idle ∧
    (epAt s (ownEp s.cur 127)).st ≠ .idle ∧ heldImage s s.cur (me s) (rs (me s) 2) = some im0 ∧ heldImage s s.cur (me s) 9 = none ∧
    (carve (here s) im0.bufBytes).isSome = true ∧ carve (here s) (2 ^ 20) = none ∧ epOfAddr (rs (me s) 1) = some ⟨0, 1, 3⟩ ∧ epOfAddr 1 = none :=
  ⟨ready_all (by decide +kernel), by and_intros <;> decide +kernel⟩
/-- A request to open a channel to endpoint 127 of tile 0. -/
def or0 (dig : Word) : OpenReq := ⟨⟨⟨0, 1, 0⟩, 2, 9⟩, ⟨0, 1, 3⟩, ⟨0, 0, 127⟩, 1, dig, 5, true⟩
/-- A slot that waits in a form, its endpoint 127 as given. -/
noncomputable def tEw (x : Endpoint) (i : Instr) (k : ParkKind) : State := tE x fun c => { c with park := some (waitBy State.reset i 7 k 5 0 0 []) }
theorem test_hyp_ChannelsOpenAndAccept_Requests :
    let a := Instr.chAccept h0 127 1 0 2
    let s := tEw { e0 .accepting 0 [] with expect := none } a .reply
    Waits s ⟨⟨0, 0, 0⟩, 1, 7⟩ (waitBy State.reset a 7 .reply 5 0 0 []) ∧ (or0 88).target ≠ calService 0 ∧ (epAt s (or0 88).target).owner = some (0, 1) ∧
    (ctxAt s ⟨0, 0, 0⟩).d.job = (or0 88).job ∧ (epAt s (or0 88).target).st = .accepting ∧ (imageOf s ⟨0, 0⟩ (epAt s (or0 88).target).img).dual = (or0 88).digest ∧
    (imageOf s ⟨0, 0⟩ (epAt s (or0 87).target).img).dual ≠ (or0 87).digest ∧
    (epAt (tEw { e0 .accepting 0 [] with expect := some ⟨0, 2, 0⟩ } a .reply) (or0 88).target).expect ≠ some (or0 88).opener ∧
    (epAt (tE (e0 .idle 0 []) id) (or0 88).target).held = none ∧ (epAt (tE { e0 .idle 0 [] with held := some (or0 1) } id) (or0 88).target).held.isSome = true ∧
    (epAt State.reset (or0 88).target).st = .free ∧ (epAt (tE { e0 .idle 0 [] with owner := none } id) (or0 88).target).owner = none ∧
    (ctxAt (tE (e0 .idle 0 []) id) ⟨0, 0, 0⟩).d.job ≠ { or0 88 with job := 2 }.job :=
  ⟨waits_of (by decide +kernel), by and_intros <;> decide +kernel⟩
theorem test_hyp_ChannelsOpenAndAccept_Replies :
    let o := Instr.chOpen h0 127 1 2
    let s := tEw { e0 .opening 0 [] with gen := 5 } o .reply
    let q : OpenReq := { or0 88 with who := w0, opener := ⟨0, 0, 127⟩, target := ⟨0, 1, 3⟩ }
    Waits s q.who (waitBy State.reset o 7 .reply 5 0 0 []) ∧ (epAt s q.opener).st = .opening ∧ (epAt s q.opener).gen = q.gen ∧ (epAt s q.opener).early = [] :=
  ⟨waits_of (by decide +kernel), by and_intros <;> decide +kernel⟩
/-- Endpoint 127 open in its active state. -/
noncomputable def tA (f : Endpoint → Endpoint) : State := tE (f (e0 .opened 0 [])) id
theorem test_hyp_SendFormsPassTheStrainer :
    (∀ S D r, Ready (tA id) h0 S D r) ∧ OpenEp (tA id) 127 ∧ OwnOpen (tA id) 127 ∧
    (let s := tA id
     let x := epAt s (ownEp s.cur 127)
     ∃ t, (epImg s 127).edge x.q .send 5 = some t ∧ pieceOk x t 5 32 true = true ∧ pieceOk x t 5 33 true = false) ∧
    (∃ t, (epImg (tA id) 127).labEdge 0 .select 2 = some t) ∧ (epImg (tA id) 127).edge 0 .send 6 = none ∧ (epImg (tA id) 127).labEdge 0 .select 3 = none ∧
    windowShut (tA id) (ownEp (tA id).cur 127) = false ∧ windowShut (tA fun x => { x with unread := 2 }) (ownEp (tA id).cur 127) = true ∧
    (epAt (tA id) (ownEp (tA id).cur 127)).pkt = none ∧ (epAt (tA fun x => { x with pkt := some (5, 1, 8) }) (ownEp (tA id).cur 127)).pkt ≠ none ∧
    releaseOk (tA id) (tA id).cur 1 .dom ⟨0, 0⟩ = true ∧ (32#9).toNat ≤ 32 ∧ (60#6).toNat + ceilDiv 32 8 ≤ 64 ∧ ¬ (61#6).toNat + ceilDiv 32 8 ≤ 64 ∧ (256#9).toNat ≤ 256 :=
  ⟨ready_all (by decide +kernel), ⟨by decide +kernel, by decide +kernel, fun p h => by cases h⟩, ⟨by decide +kernel, by decide +kernel⟩,
    ⟨_, rfl, by decide +kernel, by decide +kernel⟩, ⟨_, rfl⟩, by and_intros <;> decide +kernel⟩
theorem test_hyp_SendFormsPassTheStrainer_Status :
    (epAt (tE (e0 .peerClosed 0 []) id) ⟨0, 0, 127⟩).st = .peerClosed ∧ (epAt (tE (e0 .idle 0 []) id) ⟨0, 0, 127⟩).st ≠ .opened ∧
    ownsEp (tE (e0 .peerClosed 0 []) id) ⟨0, 0, 0⟩ 1 127 = true ∧ ownsEp (tE (e0 .opened 0 []) id) ⟨0, 0, 0⟩ 1 3 = false ∧
    (∃ y, (me (tE (e0 .opened 0 []) fun c => { c with packet := some (0, 1) })).packet = some y ∧ y.1 ≠ (127#7).toNat) :=
  ⟨by decide +kernel, by decide +kernel, by decide +kernel, by decide +kernel, ⟨_, rfl, by decide⟩⟩
/-- Endpoint 127 open in its passive state, with messages. -/
noncomputable def tB (l : List ChMsg) : State := tE (e0 .opened 1 l) id
/-- A delegation of an endpoint under the protocol. -/
def dg0 : ChMsg := .deleg 77 0 ⟨0, 2, 4⟩ ⟨0, 3, 5⟩ 6 1 1 0
theorem test_hyp_ReceiveFormsTakeOrDecline :
    (∀ S D r, Ready (tB [.data 5 [1, 2]]) h0 S D r) ∧ OwnOpen (tB [.data 5 [1, 2]]) 127 ∧
    (∃ t, (epImg (tB []) 127).edge 1 .recv 5 = some t) ∧ (∃ t, (epImg (tB []) 127).labEdge 1 .offer 2 = some t) ∧
    (epImg (tB []) 127).edge 1 .recv 6 = none ∧ (epImg (tB []) 127).labEdge 1 .offer 3 = none ∧
    (let x := fun l => epAt (tB l) (ownEp (tB l).cur 127)
     (x []).inbox = [] ∧ (x [.data 5 [1, 2]]).inbox = .data 5 [1, 2] :: [] ∧ (x [.label 2]).inbox = .label 2 :: [] ∧
     (x [.data 5 [1, 2]]).cursor + min 2 ([1, 2].length - 0) = 2 ∧ (x [.data 5 [1, 2]]).cursor + min 1 ([1, 2].length - 0) ≠ 2 ∧
     (x []).reg = none ∧ (x []).q = 1) ∧
    (epAt (tE { e0 .opened 1 [] with reg := some (.s 9) } id) ⟨0, 0, 127⟩).reg.isSome = true :=
  ⟨ready_all (by decide +kernel), ⟨by decide +kernel, by decide +kernel⟩, ⟨_, rfl⟩, ⟨_, rfl⟩, by and_intros <;> decide +kernel⟩
theorem test_hyp_DelegationAndClosingForms :
    (∀ S D r, Ready (tA id) h0 S D r) ∧ OpenEp (tA id) 127 ∧ OwnOpen (tB [dg0]) 127 ∧
    (∃ t, (epImg (tA id) 127).edge 0 .delegOut 63 = some t) ∧ (∃ t, (epImg (tB [dg0]) 127).edge 1 .delegIn 63 = some t) ∧
    delegBar (tA id) (tA id).cur (me (tA id)) 127 0 = none ∧ delegBar (tA id) (tA id).cur (me (tA id)) 127 127 = some 1 ∧
    (let s := tB [dg0]
     ownsEp s s.cur (me s).uid 1 = true ∧ (epAt s ⟨0, 0, 1⟩).st = .idle ∧ (epAt s ⟨0, 0, 1⟩).reg = none ∧ (1#7) ≠ 127 ∧
     (epAt s ⟨0, 0, 127⟩).inbox = dg0 :: [] ∧ (carve (here s) (imageOf s s.cur.node 8).bufBytes).isSome = true) ∧
    (epAt (tE (e0 .opened 2 []) id) ⟨0, 0, 127⟩).q = 2 ∧ (∃ t ∈ (epImg (tE (e0 .opened 2 []) id) 127).edges 2, t.act = .close) ∧
    (∀ t ∈ (epImg (tA id) 127).edges 0, t.act ≠ .close) ∧ (epAt (tE (e0 .aborted 0 []) id) ⟨0, 0, 127⟩).st ≠ .idle ∧
    (epAt (tE (e0 .idle 0 []) id) ⟨0, 0, 127⟩).st = .idle :=
  ⟨ready_all (by decide +kernel), ⟨by decide +kernel, by decide +kernel, fun p h => by cases h⟩, ⟨by decide +kernel, by decide +kernel⟩, ⟨_, rfl⟩, ⟨_, rfl⟩,
    by and_intros <;> decide +kernel⟩
/-- A flit from tile 1 for endpoint 127. -/
def cf0 (b : ChBody) : ChFlit := ⟨⟨0, 1⟩, ⟨0, 0, 127⟩, 4, 0, b⟩
theorem test_hyp_ChannelFlitsLand :
    (∀ b ∈ [ChBody.data 5 [1] true, .data 5 [1] false, .label 2, .discard, .redirect ⟨0, 2, 0⟩ 1, .credit, .close 0 0x0C], FlitInTurn (tA id) (cf0 b)) ∧
    (epAt (tA id) ⟨0, 0, 127⟩).reg = none ∧ (epAt (tA id) ⟨0, 0, 127⟩).coupler = none ∧
    (let s := tE (e0 .forwarding 0 []) id
     ∀ b ∈ [ChBody.ack, .adopted ⟨0, 2, 0⟩ 1, .abort], flitFits (epAt s (cf0 b).dst) (cf0 b) = true ∧ (epAt s (cf0 b).dst).st = .forwarding ∧
       (epAt s (cf0 b).dst).early = [] ∧ (tileAt s (cf0 b).src).copy = []) ∧
    (let f := { cf0 .ack with gen := 9 }
     flitFits (epAt (tA id) f.dst) f = false ∧ (tileAt (tA id) f.src).copy = [] ∧ isService f.dst = false) ∧
    (let s := tE { e0 .opened 1 [.data 5 [1, 2]] with reg := some (.s 63) } fun c => setPres c (.s 63) .empty
     let x := epAt s ⟨0, 0, 127⟩
     (slotAt s ⟨0, 0, 0⟩).ph = .bound ∧ x.st = .opened ∧ x.reg = some (.s 63) ∧ x.owner = some (0, (ctxAt s ⟨0, 0, 0⟩).uid) ∧ x.inbox = .data 5 [1, 2] :: [] ∧
     x.deposited = false ∧ isAway s ⟨0, 0, 0⟩ 1 = false ∧ ((imageOf s ⟨0, 0⟩ x.img).edge x.q .recv 5).isSome = true ∧
     presOf (ctxAt s ⟨0, 0, 0⟩) (.s 63) = .empty ∧ realReg (.s 63) = true) := by
  refine ⟨fun b hb => ⟨?_, ?_, ?_, ?_, ?_, ?_, ?_⟩, ?_⟩
  · revert b; decide +kernel
  · revert b; decide +kernel
  · revert b; decide +kernel
  · revert b; decide +kernel
  · revert b; decide +kernel
  · intro q hq
    have : (tileAt (tA id) (cf0 b).src).copy = [] := (by decide +kernel : (tileAt (tA id) ⟨0, 1⟩).copy = [])
    rw [this] at hq; cases hq
  · revert b; decide +kernel
  · and_intros <;> decide +kernel

/-! ### Witnesses: turns, couplers, scratchpads, heaps and translation -/

theorem test_hyp_TurnFormsAndBoundary :
    let s := tR 15 0xFFFF 0x1001 0x100 16
    (∀ S D r, Ready s h0 S D r) ∧
    (let x := fun i => rs (me s) i
     (x 1).toNat ≤ 15 ∧ (x 2).toNat < 2 ^ 16 ∧ x 3 &&& 0x1F1F = x 3 ∧ 1 ≤ limMin (x 3) ∧ limMin (x 3) ≤ limMax (x 3) ∧ limMax (x 3) ≤ 16 ∧
     limMin (x 4) = 0 ∧ x 4 ≠ 0 ∧ 15 < (x 5).toNat ∧ x 0 = 0) ∧
    (slotAt s ⟨0, 0, 0⟩).ph ≠ .free ∧ (slotAt s ⟨0, 0, 0⟩).ctx.d.job = (me s).d.job ∧ (slotAt s ⟨0, 0, 15⟩).ph = .free :=
  ⟨ready_all (by decide +kernel), by and_intros <;> decide +kernel⟩
/-- The turns of a tile at reset are in order. -/
theorem test_hyp_TurnFormsAndBoundary_Boundary :
    TurnsOk Tile.reset ∧ isHeld State.reset ⟨0, 0⟩ = false ∧ isHeld (modPkg State.reset 0 fun p => { p with islands := [(0, { power := .off })] }) ⟨0, 0⟩ = true :=
  ⟨⟨by decide +kernel, by decide +kernel⟩, by decide +kernel, by decide +kernel⟩
/-- A coupler of the unit, in a state. -/
def rc0 (st : RcSt) : Coupler := { st := st, holder := some (0, 1), ep := 127, producer := ⟨0, 1, 0⟩, producerUid := 2, conf := 0x1000000000000, acc := 99 }
/-- A tile with couplers 0 to 3 of the unit, 15 of another, and endpoint 127 as given. -/
noncomputable def tK (x : Endpoint) (c : Word) : State :=
  modTile (tEr x c 0) ⟨0, 0⟩ fun t => { t with couplers := [(0, rc0 .running), (1, rc0 .bound), (2, rc0 .detached), (3, rc0 .reserved), (15, { rc0 .bound with holder := some (1, 2) })] }
theorem test_hyp_CouplerFormsAndSamples :
    let s := tK (e0 .opened 1 []) 0x0001000000010101
    (∀ S D r, Ready s h0 S D r) ∧
    (let k := fun i => couplerAt s s.cur.node i
     (∀ i ∈ [0, 1, 2], (k i).holder = some (s.cur.slot, (me s).uid) ∧ (k i).st ≠ .reserved) ∧ (k 2).st = .detached ∧ (k 3).st = .reserved ∧
     (k 15).holder ≠ some (s.cur.slot, (me s).uid) ∧ (k 4).st = .free ∧ (k 15).st ≠ .free ∧ (∀ j < 4, (k j).st ≠ .free)) ∧
    (let cap := streamCap im0
     (confBad 0 cap).isSome = true ∧ confBad 0x201000001 cap = none ∧ (16#5).toNat = 16 ∧ 16 < (17#5).toNat) ∧
    (epAt s (ownEp s.cur 127)).st = .opened ∧ im0.window ≠ 0 ∧ im0.laRecv = im0.window ∧ (epAt s (ownEp s.cur 127)).coupler = none ∧
    imageOf s s.cur.node (epAt s (ownEp s.cur 127)).img = im0 ∧ ownsEp s s.cur (me s).uid 127 = true ∧ ownsEp s s.cur (me s).uid 3 = false :=
  ⟨ready_all (by decide +kernel), by and_intros <;> decide +kernel⟩
/-- A request of the unit to a service. -/
def vq0 (peer : Node) (k : SvcKind) : SvcReq := { v0 k with peer := peer }
theorem test_hyp_CouplerFormsAndSamples_Samples :
    let s := tK (e0 .opened 1 [.data 5 [1, 2]]) 0
    (couplerAt s ⟨0, 0⟩ 0).st = .running ∧ (couplerAt s ⟨0, 0⟩ 1).st ≠ .running ∧ sampleDue s ⟨0, 0⟩ (couplerAt s ⟨0, 0⟩ 0).period = true ∧
    couplerAway s ⟨0, 0⟩ (couplerAt s ⟨0, 0⟩ 0) = false ∧ (couplerAt s ⟨0, 0⟩ 0).holder = some (0, 1) ∧
    (let t := modTile s ⟨0, 0⟩ fun t => { t with remotes := [⟨⟨0, 1, 4⟩, 15, 1⟩] }
     (tileAt t ⟨0, 0⟩).remotes.find? (fun m => m.owner = ⟨0, 1, 4⟩) = some ⟨⟨0, 1, 4⟩, 15, 1⟩ ∧
     (tileAt t ⟨0, 0⟩).remotes.find? (fun m => m.owner = ⟨0, 1, 5⟩) = none) ∧
    (vq0 ⟨0, 0⟩ (.rcBind ⟨0, 0, 127⟩ 1)).kind = .rcBind ⟨0, 0, 127⟩ 1 ∧ (couplerAt s ⟨0, 0⟩ 1).holder = some ((0 : Nat), 1) ∧
    (epAt s ⟨0, 0, 127⟩).owner = some (0, 1) ∧ (epAt s ⟨0, 0, 3⟩).owner = none ∧ (tileAt s ⟨0, 0⟩).remotes.length < 16 ∧
    16 ≤ (tileAt (modTile s ⟨0, 0⟩ fun t => { t with remotes := List.replicate 16 ⟨⟨0, 1, 4⟩, 15, 1⟩ }) ⟨0, 0⟩).remotes.length := by
  and_intros <;> decide +kernel
theorem test_hyp_ScratchpadAccessForms :
    let s := tR 0xFFFF8 0xFFF00 (ra 0) (ra 1) 0xFFFFC
    (∀ S D r, Ready s h0 S D r) ∧ (me s).region = none ∧ Ready (tG g0) h0 [.s 1] [.s 2] true ∧
    (let x := fun i => rs (me s) i + (0#32).signExtend 64
     PadAt s (x 1) 8 8 true 0xFFFF8 ∧ PadAt s (x 2) 256 8 false 0xFFF00 ∧ PadAt s (x 3) 8 8 true 0xDFFF8 ∧ PadAway s (x 4) 8 8 ∧
     isRemote (x 5) = false ∧ (x 5).toNat % 8 ≠ 0 ∧ (x 5).toNat % 4 = 0 ∧ padOk (here s) (x 5).toNat 8 = false ∧
     remoteFault s (x 4) false = some (0x03, 0)) ∧
    releaseOk s s.cur 1 .dom ⟨0, 0⟩ = true ∧ releaseOk (tS id id fun s => { s with outs := [out0] }) ⟨0, 0, 0⟩ 1 .dom ⟨0, 0⟩ = false ∧
    Sz.b1.isScalar = true ∧ padHome s.cur (ra 1) = ⟨0, 1⟩ := by
  refine ⟨ready_all (by decide +kernel), by decide +kernel, ready_of (by decide +kernel), ⟨⟨by decide +kernel, by decide +kernel, .inl (by decide +kernel)⟩,
    ⟨by decide +kernel, by decide +kernel, .inl (by decide +kernel)⟩,
    ⟨by decide +kernel, by decide +kernel, .inr ⟨by decide +kernel, rfl, rfl, by decide +kernel, by decide +kernel, by decide +kernel⟩⟩,
    ⟨by decide +kernel, rfl, by decide +kernel, by decide +kernel, by decide +kernel⟩, ?_⟩, ?_⟩ <;> and_intros <;> decide +kernel
/-- A unit of which no log is kept, before a word of its scratchpad that is full, and one that is empty. -/
theorem test_hyp_SynchronisingFormsAndService :
    let s := tS (fun c => { c with d := { c.d with det := true }, s := c.s.set 1 0xFFFF8 }) (fun t => { t with spEmpty := [0] }) id
    (∀ S D r, Ready s h0 S D r) ∧ Unrecorded s ∧ PadAt s (rs (me s) 1 + (0#32).signExtend 64) 8 8 true 0xFFFF8 ∧ padFull (here s) 0xFFFF8 = true ∧
    PadAt s (rs (me s) 0 + (0#32).signExtend 64) 8 8 true 0 ∧ padFull (here s) 0 = false ∧ releaseOk s s.cur 1 .tile ⟨0, 0⟩ = true :=
  ⟨ready_all (by decide +kernel), .inl (by decide +kernel), ⟨by decide +kernel, by decide +kernel, .inl (by decide +kernel)⟩, by decide +kernel,
    ⟨by decide +kernel, by decide +kernel, .inl (by decide +kernel)⟩, by decide +kernel, by decide +kernel⟩
/-- A request of another tile's unit for the scratchpad of tile 0. -/
def spq0 (op : SpOp) : SpReq := ⟨⟨⟨0, 1, 0⟩, 2, 9⟩, ⟨0, 0⟩, 0xFFFF8, 1, op, none⟩
theorem test_hyp_SynchronisingFormsAndService_Service :
    let s := tS id (fun t => { t with spIn := [(spq0 .ld, false)], spEmpty := [0x1FFFF] }) id
    (let T := tileAt s ⟨0, 0⟩
     T.semAdds = [] ∧ semWaiters T = [] ∧ ldvWaits T = false ∧ T.errs = [] ∧ isHeld s ⟨0, 0⟩ = false ∧ T.waiters = [] ∧ T.spIn = [(spq0 .ld, false)] ∧
     (spq0 .ld).home = ⟨0, 0⟩ ∧ (spq0 .ld).recSeq = none ∧ padOk T (spq0 .ld).off 8 = true ∧ T.tenant = some (spq0 .ld).job ∧
     T.tenant ≠ some { spq0 .ld with job := 2 }.job ∧ spWaits T (spq0 .ld) = false ∧ spWaits T (spq0 (.ldSync true)) = true) := by
  and_intros <;> decide +kernel
theorem test_hyp_SynchronisingFormsAndService_LocalWait :
    let q : SpReq := ⟨w0, ⟨0, 0⟩, 0xFFFF8, 1, .ldSync true, none⟩
    let i := Instr.ldSync h0 .tile .rlx true 1 2 0
    let s := modTile (tW i .sync id id) ⟨0, 0⟩ fun t => { t with waiters := [⟨q, true⟩] }
    Waits s q.who (waitBy State.reset i 7 .sync 0 0 0 []) ∧ (tileAt s ⟨0, 0⟩).waiters = [⟨q, true⟩] ∧ (tileAt s ⟨0, 0⟩).spIn = [] ∧ q.who.slot.node = ⟨0, 0⟩ ∧
    padFull (tileAt s ⟨0, 0⟩) q.off = true ∧ semWaiters (tileAt s ⟨0, 0⟩) = [] ∧ ldvWaits (tileAt s ⟨0, 0⟩) = false :=
  ⟨waits_of (by decide +kernel), by and_intros <;> decide +kernel⟩
theorem test_hyp_SemaphoreForms :
    let s := tS (fun c => { c with s := (c.s.set 1 7).set 2 0x100000000 }) (fun t => setSem t 255 ⟨7, false⟩) id
    (∀ S D r, Ready s h0 S D r) ∧ (rs (me s) 1).toNat ≤ (semAt (here s) 255).val ∧ (semAt (here s) 0).val < (rs (me s) 1).toNat ∧ (rs (me s) 1).toNat < 2 ^ 32 ∧
    2 ^ 32 ≤ (rs (me s) 2).toNat ∧ rs (me s) 0 = 0 ∧ releaseOk s s.cur 1 .tile ⟨0, 0⟩ = true ∧
    releaseOk (tS id id fun s => { s with outs := [out0] }) ⟨0, 0, 0⟩ 1 .tile ⟨0, 0⟩ = false :=
  ⟨ready_all (by decide +kernel), by and_intros <;> decide +kernel⟩
theorem test_hyp_SemaphoreForms_Timeout :
    Waits (tW (.semWaitTo h0 255 true 1 2 3) (.sem 255 7 true (some 1)) id id) w0 (waitBy State.reset (.semWaitTo h0 255 true 1 2 3) 7 (.sem 255 7 true (some 1)) 0 0 0 []) :=
  waits_of (by decide +kernel)
/-- A tile with barrier 0 armed for one arrival, 1 not armed, 95 at its last episode; the unit's arrivals as given. -/
noncomputable def tBar (l : List (Nat × Nat)) : State :=
  tS (fun c => { c with s := (c.s.set 1 0x01010000).set 2 16, arrivals := l })
    (fun t => { t with bars := [(0, { armed := true, w := 1, h := 1, k := 1 }), (95, { armed := true, w := 1, h := 1, k := 1, arr0 := 1, arr1 := 1 })] }) id
theorem test_hyp_BarrierFormsAndFlits :
    (∀ S D r, Ready (tBar []) h0 S D r) ∧ (∀ S D r, Ready (tBar [(0, 0)]) h0 S D r) ∧
    (let s := tBar []
     let v := (rs (me s) 1).toNat
     isCompute s.cur.tile = true ∧ v / 2 ^ 16 % 256 = 1 ∧ v / 2 ^ 24 % 256 = 1 ∧ v % 2 ^ 16 = 0 ∧ tileX s.cur.tile = 0 ∧ tileY s.cur.tile = 0 ∧ v < 2 ^ 32 ∧
     (rs (me s) 2).toNat ≤ 16 ∧ (barAt s ⟨0, 0⟩ 1).armed = false ∧ (barAt s ⟨0, 0⟩ 0).armed = true ∧ (barAt s ⟨0, 0⟩ 0).k ≠ 0 ∧
     (barAt s ⟨0, 0⟩ 0).arr0 < (barAt s ⟨0, 0⟩ 0).k ∧ ¬ (barAt s ⟨0, 0⟩ 95).arr0 < (barAt s ⟨0, 0⟩ 95).k ∧ ¬ (barAt s ⟨0, 0⟩ 95).arr1 < (barAt s ⟨0, 0⟩ 95).k ∧
     96 ≤ (96#7).toNat ∧ (95#7).toNat < 96 ∧ (me s).arrivals.find? (fun a => a.1 = 0) = none ∧
     (me (tBar [(0, 0)])).arrivals.find? (fun a => a.1 = 0) = some (0, 0) ∧ (tileAt s ⟨0, 0⟩).tenant = some 1 ∧ (tileAt s ⟨0, 0⟩).tenant ≠ some 2 ∧
     (barAt s ⟨0, 0⟩ 95).arr0 + (barAt s ⟨0, 0⟩ 95).arr1 ≠ 0 ∧ releaseOk s s.cur 1 .pkg ⟨0, 0⟩ = true) :=
  ⟨ready_all (by decide +kernel), ready_all (by decide +kernel), by and_intros <;> decide +kernel⟩
theorem test_hyp_BarrierFormsAndFlits_Release :
    let s := modTile (tW (.barWait h0 0) (.barrier 0 0) id id) ⟨0, 0⟩ fun t => { t with bars := [(0, { armed := true, w := 1, h := 1, k := 1 })] }
    Waits s w0 (waitBy State.reset (.barWait h0 0) 7 (.barrier 0 0) 0 0 0 []) ∧ (barAt s ⟨0, 0⟩ 0).armed = true ∧ (tileAt s ⟨0, 0⟩).tenant = some 1 ∧
    ∀ y ∈ tileUnits (tileAt s ⟨0, 0⟩), (y.2.park.map (·.limitDue)) ≠ some true :=
  ⟨waits_of (by decide +kernel), by decide +kernel, by decide +kernel, by decide +kernel⟩
theorem test_hyp_HeapFormsAndAllocators :
    let s := tR 0x1000000000 0x1000000001 1 0 0
    (∀ S D r, Ready s h0 S D r) ∧ (rs (me s) 1).toNat ≤ 2 ^ 36 ∧ rs (me s) 1 ≠ 0 ∧ 2 ^ 36 < (rs (me s) 2).toNat ∧ rs (me s) 0 = 0 ∧
    releaseOk s s.cur 1 .dom ⟨0, 0⟩ = true ∧ (me s).d.root = true ∧ (me (tS (fun c => { c with d := { c.d with root := false } }) id id)).d.root = false ∧
    isSupervisor s s.cur 1 = false ∧
    (jobAt s 1 = some demoJob ∧ holdersOf s 1 15 64 = [] ∧ isCompute 0 = true ∧ isCompute 2096 = false ∧ 2 ^ 20 < (0x100001 : Word).toNat ∧
     (0x100000 : Word).toNat ≤ 2 ^ 20 ∧ (countOf demoJob 15).quota < (countOf demoJob 15).used + heapClass 1 ∧
     (let j := { demoJob with quota := [{ n := 15, quota := 64 }] }
      (countOf j 15).used + heapClass 1 ≤ (countOf j 15).quota)) :=
  ⟨ready_all (by decide +kernel), by and_intros <;> decide +kernel⟩
theorem test_hyp_HeapFormsAndAllocators_Replies :
    Waits (tW (.allocF h0 15 1 2) .reply id id) w0 (waitBy State.reset (.allocF h0 15 1 2) 7 .reply 0 0 0 []) ∧
    Waits (tW (.allocQ h0 15 1 1 2) .reply id id) w0 (waitBy State.reset (.allocQ h0 15 1 1 2) 7 .reply 0 0 0 []) ∧
    Waits (tW (.free h0 15 1) .reply id id) w0 (waitBy State.reset (.free h0 15 1) 7 .reply 0 0 0 []) :=
  ⟨waits_of (by decide +kernel), waits_of (by decide +kernel), waits_of (by decide +kernel)⟩
/-- A unit of slot 1 whose translation fault waits under token 9, supervised from slot 0 of tile 0. -/
noncomputable def tTok : State :=
  tS (fun c => { c with s := (c.s.set 1 9).set 2 0xFFFFFFFFFFFFFF }) (fun t => { t with slots := t.slots.set 1 { Slot.reset 1 with
    ph := .bound, ctx := { Ctx.reset with uid := 2, d := { demoUnit with supTile := 0, supSlot := 0 }
                                          park := some (waitBy State.reset (.gld h0 .b8 .slot .rlx false 1 2 0) 7 (.xlat 0 9) 0 0 0 []) } } }) id
theorem test_hyp_TranslationForms :
    (∀ S D r, Ready tTok h0 S D r) ∧ (tokenPark tTok 9).isSome = true ∧ tokenPark tTok 8 = none ∧ tokenCmd tTok 8 = none ∧
    ((tokenPark tTok 9).map fun x => supervises tTok.cur x.2.1.d && decide (x.1.pkg = 0) && decide (x.2.1.d.job = (me tTok).d.job)) = some true ∧
    supervises tTok.cur demoUnit = false ∧ (rs (me tTok) 2).toNat < 2 ^ 56 ∧ 2 ^ 56 ≤ (0x100000000000000 : Word).toNat ∧
    releaseOk tTok tTok.cur 1 (invRelease .dom) ⟨0, 0⟩ = true ∧
    (vq0 ⟨0, 0⟩ (.tlbInv .tile none)).kind = .tlbInv .tile none ∧ ahas tTok.tiles (nodeKey ⟨0, 0⟩) = true ∧ nodeOfKey (nodeKey ⟨0, 0⟩) = ⟨0, 0⟩ :=
  ⟨ready_all (by decide +kernel), by and_intros <;> decide +kernel⟩
theorem test_hyp_TranslationForms_Reply :
    Waits (tW (.xlat h0 1 2) .reply id id) w0 (waitBy State.reset (.xlat h0 1 2) 7 .reply 0 0 0 []) := waits_of (by decide +kernel)

/-! ### Witnesses: engines -/

/-- The words of a descriptor of rank 1 or 2: type, rank less 1, location; extents; strides; base. -/
def td (ty rank loc e0 e1 s0 s1 base : Nat) : List Word :=
  [ty + rank * 2 ^ 8 + loc * 2 ^ 16, e0 + e1 * 2 ^ 16, s0 + s1 * 2 ^ 32, 0, base, 0, 0, 0].map (BitVec.ofNat 64)
/-- A convolution's region: 4 images of 2 by 2 with 8 channels of int8, a kernel placement with stride 1, an output of 2 by 2. -/
def tdConv : List Word := [0x300, 8 + 2 * 2 ^ 16 + 2 * 2 ^ 32 + 4 * 2 ^ 48, 1 + 8 * 2 ^ 32, 16 + 32 * 2 ^ 32, 0, 0x0002000211110000, 0, 0].map (BitVec.ofNat 64)
/-- A table: two byte regions of 32, one in memory, one that is a channel, weights, a float result, a convolution, a region whose elements are
no operands of a stream. -/
def tds0 : List (Nat × List Word) :=
  [(0, td 0 0 0 32 0 1 0 0), (1, td 0 0 0 32 0 1 0 64), (2, td 0 0 1 32 0 1 0 0x10000), (3, td 0 0 2 32 0 1 0 (127 + 5 * 256)),
   (4, td 0 1 0 8 4 1 8 0x100), (5, td 10 1 0 4 4 4 16 0x200), (6, tdConv), (7, td 2 0 0 8 0 4 0 0), (31, td 17 0 0 32 0 0 0 0)]
/-- A command of the unit. -/
def cm0 (kind : EngKind) : EngCmd := { id := 9, slot := 0, uid := 1, job := 1, launch := 0, sup := ⟨0, 2096, 0⟩, sync := ⟨0, 0, 5, 1⟩, fn := 0, kind := kind }
/-- A tile whose unit of slot 0 has both roles, its table, its copy queue of so many commands; changed as given. -/
noncomputable def tQ (n : Nat) (x : Word) (g : Tile → Tile) : State :=
  modTile (tEr (e0 .opened 0 []) x 0) ⟨0, 0⟩ fun t => g { t with
    tds := tds0, copy := List.replicate n (cm0 .swap), matRole := some (0, 1)
    mx := { t.mx with cmds := List.replicate n (cm0 .swap), role := some (0, 1), lastJob := 1,
                      issPlanes := [{ loaded := true, ty := 0, k := 8, n := 4 }, {}] } }
theorem test_hyp_DescriptorTableForms :
    let s := tQ 0 0xFFFC0 id
    (∀ S D r, Ready s h0 S D r) ∧ (∀ S D r, Ready (tR 0xFFFC8 0xFFC0 0xFFC8 0x100000000000000 0) h0 S D r) ∧
    (rs (me s) 1).toNat % 8 = 0 ∧ padOk (here s) (rs (me s) 1).toNat 64 = true ∧
    (let s := tR 0xFFFC8 0xFFC0 0xFFC8 0x100000000000000 0
     let x := fun i => (rs (me s) i).toNat
     x 1 % 8 = 0 ∧ padOk (here s) (x 1) 64 = false ∧ x 2 % 64 = 0 ∧ x 2 < 2 ^ 56 ∧ homed s 0 (x 2) = true ∧ x 3 % 64 ≠ 0 ∧ 2 ^ 56 ≤ x 4) ∧
    (∀ x ∈ tds0, tdBad (x.2.map (·.toNat)) = none) ∧ tdBad (wordsOf (List.replicate 64 0)) = some 2 :=
  ⟨ready_all (by decide +kernel), ready_all (by decide +kernel), by and_intros <;> decide +kernel⟩
theorem test_hyp_DescriptorTableForms_HasRead :
    let s := tS (fun c => { c with park := some (waitBy State.reset (.tdSet h0 false 0 0) 7 .cond 0 0 0 (List.replicate 64 0)) }) id id
    Fit s h0 [.s 0] [] false ∧ (rs (me s) 0).toNat % 64 = 0 ∧ (rs (me s) 0).toNat < 2 ^ 56 ∧ 64 ≤ (gotBytes (me s)).length :=
  ⟨fit_of (by decide +kernel), by decide +kernel, by decide +kernel, by decide +kernel⟩
theorem test_hyp_CopyFormsQueueTheirCommands :
    let s := tQ 15 (ra 1 - 0xDFFF8) id
    (∀ S D r, Ready s h0 S D r) ∧ (∀ S D r, Ready (tQ 16 0 id) h0 S D r) ∧ OpenEp s 127 ∧
    mayCopy s s.cur (me s) = true ∧ mayCopy (tQ 0 0 fun t => { t with copyRole := some (1, 1) }) s.cur (me s) = false ∧
    (∀ i ∈ [(0 : DIx), 1, 2, 3, 31], ahas (here s).tds i.toNat = true) ∧ ahas (here s).tds 30 = false ∧
    (let d := fun i => tdHere s i
     let checks := fun (dd da : TDesc) => firstBad [(da.loc ≠ 0, 17, (0#5).toNat), (isSpout s.cur.tile && dd.loc = 1, 17, (1#5).toNat),
       ((me s).d.det && dd.loc = 0 && (0 : Nat) ≠ 0, 17, (1#5).toNat), (!shapeOk dd da .none, 20, (1#5).toNat)]
     checks (d 0) (d 1) = none ∧ checks (d 2) (d 1) = none ∧ checks (d 3) (d 1) = none ∧ checks (d 0) (d 2) = some (17, 0) ∧ checks (d 4) (d 0) = none ∧
     checks (d 7) (d 0) = some (20, 1) ∧ (d 0).loc = 0 ∧ (d 2).loc = 1 ∧ (d 3).loc = 2 ∧ (d 3).base % 128 = 127 ∧ (d 3).base / 2 ^ 8 % 64 = 5 ∧
     (d 0).bytes = 32 ∧ (d 0).type.isBlock = false ∧ (d 31).type.isBlock = true ∧ sameShape (d 0) (d 2) = true) ∧
    isRemote (rs (me s) 1) = true ∧ (rs (me s) 1).toNat % 2 ^ 20 = 0 ∧ remoteFault s (rs (me s) 1) true = none ∧ isRemote (rs (me s) 0) = false ∧
    (∃ t, (epImg s 127).edge 0 .send 5 = some t ∧ pieceOk (epAt s ⟨0, 0, 127⟩) t 5 32 true = true ∧ pieceOk (epAt s ⟨0, 0, 127⟩) t 5 33 true = false) ∧
    windowShut s ⟨0, 0, 127⟩ = false ∧ (epAt s ⟨0, 0, 127⟩).pkt = none ∧ (cmdsOf (here s) false).length < 16 ∧ 16 ≤ (cmdsOf (here (tQ 16 0 id)) false).length := by
  refine ⟨ready_all (by decide +kernel), ready_all (by decide +kernel), ⟨by decide +kernel, by decide +kernel, fun p h => by cases h⟩, by decide +kernel,
    by decide +kernel, by decide +kernel, by decide +kernel, ?_, by decide +kernel, by decide +kernel, by decide +kernel, by decide +kernel,
    ⟨_, rfl, by decide +kernel, by decide +kernel⟩, ?_⟩ <;> and_intros <;> decide +kernel
/-- A machine that runs the unit of slot 0 of a tile other than a compute tile. -/
noncomputable def tAt (id : Nat) (f : Ctx → Ctx) (g : Tile → Tile) : State :=
  { modTile (State.reset.withFetchWord 96 0) ⟨0, id⟩ fun t =>
      g { t with tenant := some 1, slots := t.slots.set 0 { Slot.reset 0 with ph := .bound, ctx := f (boundCtx 1 demoUnit) } } with cur := ⟨0, id, 0⟩ }
theorem test_hyp_MatrixFormsQueueTheirCommands :
    let s := tQ 15 0x1234 id
    (∀ S D r, Ready s h0 S D r) ∧ (∀ S D r, Ready (tQ 16 1 id) h0 S D r) ∧ (∀ S D r, Ready (tAt 2048 id id) h0 S D r) ∧
    isSpout s.cur.tile = false ∧ isSpout (tAt 2048 id id).cur.tile = true ∧ (here s).matRole = some (s.cur.slot, (me s).uid) ∧
    (here (tR 0 0 0 0 0)).matRole ≠ some (0, 1) ∧
    (let u := takeMatrix s s.cur (me s)
     let m := (tileAt u ⟨0, 0⟩).mx
     let p := (m.issPlanes[m.issActive]?).getD {}
     let d := fun i => tdHere s i
     p.loaded = true ∧ (d 4).extent 0 = p.k ∧ (d 0).extent 0 ≠ p.k ∧ pairUnder m.issUon m.issUty (d 4).type p.type = some (.int, 128) ∧
     pairUnder m.issUon m.issUty (d 7).type p.type = none ∧ p.k ≤ 128 ∧ streamRows (.stream (d 4) 508 false) = 4 ∧ 508 + 4 ≤ 512 ∧ 512 < 509 + 4 ∧
     weightType (d 4).type = true ∧ weightType (d 7).type = false ∧ (d 4).rank = 2 ∧ (d 4).extent 1 ≤ 64 ∧ (d 4).extent 0 ≤ depthOf (d 4).type ∧
     drainType (d 5).type = true ∧ (d 5).rank ≤ 2 ∧ (d 5).extent 0 ≤ 64 ∧ (d 5).type ≠ .tq4 ∧ (d 31).type = .tq4 ∧ (d 6).rank = 4 ∧ (d 6).oh ≠ 0 ∧
     (d 6).loc = 0 ∧ (d 2).loc ≠ 0 ∧ (rowSpan 0 4).find? (fun t => m.issInt.contains t != true) = some 0) ∧
    ((here (tR 0 0 0 0 0)).mx.issPlanes[0]?).map (·.loaded) = some false ∧ 1 ≤ (rs (me (tQ 16 1 id)) 1).toNat ∧ 511 + (rs (me (tQ 16 1 id)) 1).toNat ≤ 512 ∧
    progOk 0 = true ∧ progOk (0xFFFFFFFFFFFFFFFF : Word) = false ∧ (cmdsOf (here s) true).length < 16 ∧ 16 ≤ (cmdsOf (here (tQ 16 1 id)) true).length :=
  ⟨ready_all (by decide +kernel), ready_all (by decide +kernel), ready_all (by decide +kernel), by and_intros <;> decide +kernel⟩
/-- A tile whose engine's queue holds one command, with the memory that the table's regions need. -/
noncomputable def tEng (mx : Bool) (q : EngCmd) : State :=
  tS id (fun t => if mx then { t with mx := { t.mx with cmds := [q] } } else { t with copy := [q] }) fun s => { s with now := 1 }
/-- The region of 32 bytes at 0, and one that leaves the scratchpad. -/
def rg0 : TDesc := tdOf ((td 0 0 0 32 0 1 0 0).map (·.toNat))
def rg1 : TDesc := tdOf ((td 0 0 0 32 0 1 0 0xFFFE1).map (·.toNat))
theorem test_hyp_EnginesWorkTheirQueues_Start :
    (∀ kind ∈ [EngKind.swap, .uprog true true 5, .clear 0 512 true .pmax, .drainV 1 0 .rne true .i32 0, .stream rg0 0 true, .conv rg0 0 false 0, .fill rg0 7],
      ∀ mx : Bool, let s := tEng mx (cm0 kind)
      isHeld s ⟨0, 0⟩ = false ∧ cmdsOf (tileAt s ⟨0, 0⟩) mx = [cm0 kind] ∧ (cm0 kind).started = false ∧ (cm0 kind).stopped = none ∧
      semReady (tileAt s ⟨0, 0⟩) (cm0 kind) = true) ∧
    phaseOpen (tEng false (cm0 (.fill rg0 7))) ⟨0, 0⟩ (.fill rg0 7) = true ∧
    (let s := tEng true (cm0 (.stream rg0 0 true))
     (tileAt s ⟨0, 0⟩).mx.lastFed < s.now ∧ (((tileAt s ⟨0, 0⟩).mx.planes[(tileAt s ⟨0, 0⟩).mx.active]?).getD {}).valid = false) ∧
    engStopped (tileAt (tEng true { cm0 .swap with stopped := some (1, 7, 0) }) ⟨0, 0⟩) true = true ∧
    semReady (tileAt (tEng true (cm0 .swap)) ⟨0, 0⟩) { cm0 .swap with sync := ⟨0, 1, 0, 0⟩ } = false := by and_intros <;> decide +kernel
theorem test_hyp_EnginesWorkTheirQueues :
    cmdAt (tEng true (cm0 .swap)) ⟨0, 0⟩ true 9 = some (cm0 .swap) ∧ cmdAt (tEng true (cm0 .swap)) ⟨0, 0⟩ true 8 = none ∧ (cm0 .swap).refused = false ∧
    badAddr (tileAt (tEng false (cm0 (.fill rg0 7))) ⟨0, 0⟩) ((linearAddrs rg0).take 64) = none ∧
    badAddr (tileAt (tEng false (cm0 (.fill rg1 7))) ⟨0, 0⟩) ((linearAddrs rg1).take 64) = some 0x100000 ∧
    (cm0 (.fill rg0 7)).total ≤ (cm0 (.fill rg0 7)).next + 1 ∧ { cm0 (.fill rg0 7) with total := 2 }.next + 1 < { cm0 (.fill rg0 7) with total := 2 }.total ∧
    (let s := tEng true (cm0 (.drainV 1 0 .rne true .i32 0))
     (slotAt s ((cm0 .swap).from_ ⟨0, 0⟩)).ph = .bound ∧ (ctxAt s ((cm0 .swap).from_ ⟨0, 0⟩)).uid = (cm0 .swap).uid) ∧
    (cm0 (.pull rg0 rg0 none)).acked.contains 0 = false ∧ [0].length = { cm0 (.pull rg0 rg0 none) with total := 1 }.total ∧
    cmdRegions (.pull rg0 rg0 none) = some (rg0, rg0) ∧ streamOf (.stream rg0 0 true) = some (rg0, 0, true) ∧
    (rowAddrs (.stream rg0 0 true) 0).isSome = true ∧ rowAddrs .swap 0 = none ∧ ({ cm0 (.stream rg0 0 true) with total := 1 }.acked.length + 1 = ceilDiv 1 64) ∧
    (cm0 (.stream rg0 0 true)).acked.length + 1 ≠ ceilDiv 128 64 ∧ (cm0 .swap).tries = (2 ^ 16 + 3) / 2 ^ 17 ∧ (2 ^ 16 + 3) / 2 ^ 16 % 2 = 1 ∧
    (tileAt (tEng true (cm0 .swap)) ⟨0, 0⟩).errs = [] ∧ (tileAt (tEng true (cm0 .swap)) ⟨0, 0⟩).tenant = some 1 ∧
    badAddr (tileAt State.reset ⟨0, 0⟩) [0x100000] = some 0x100000 := by and_intros <;> decide +kernel

/-! ### Witnesses: replies, messages, the record log and exchange -/

theorem test_hyp_RepliesAndLimitsReachTheUnit :
    (∀ i ∈ [Instr.launch h0 1 2, .recMark h0 1, .xchSend h0 ⟨0, 0, 0, 0⟩ 0 false 0 1 2, .graphOpen h0 1, .rcBind h0 16 0 1],
      let s := tW i .reply id id
      (slotAt s ⟨0, 0, 0⟩).ph = .bound ∧ (ctxAt s ⟨0, 0, 0⟩).uid = w0.uid ∧ (ctxAt s ⟨0, 0, 0⟩).park = some (waitBy State.reset i 7 .reply 0 0 0 [])) ∧
    (slotAt (tR 0 0 0 0 0) ⟨0, 0, 0⟩).ph = .bound := by and_intros <;> decide +kernel
/-- A wait that WAITLIM counts, with an open packet of so many issues. -/
noncomputable def tLim (k : ParkKind) (lim n : Nat) : State :=
  tS (fun c => { c with packet := some (127, n), park := some (waitBy State.reset (.ldSync h0 .tile .rlx true 1 2 0) 7 k lim 0 0 []) }) id id
theorem test_hyp_RepliesAndLimitsReachTheUnit_Limits :
    Waits (tLim .reply 1 64) w0 (waitBy State.reset (.ldSync h0 .tile .rlx true 1 2 0) 7 .reply 1 0 0 []) ∧
    Waits (tLim .sync 1 63) w0 (waitBy State.reset (.ldSync h0 .tile .rlx true 1 2 0) 7 .sync 1 0 0 []) ∧
    (let p := fun k lim => waitBy State.reset (.ldSync h0 .tile .rlx true 1 2 0) 7 k lim 0 0 []
     mustWithdraw (p .reply 1) = true ∧ mustWithdraw (p .sync 1) = false ∧ mustFinish (ctxAt (tLim .sync 1 64) ⟨0, 0, 0⟩) (p .sync 1) = false ∧
     mustWithdraw (p .reply 0) = false ∧ mustFinish (ctxAt (tLim .reply 0 64) ⟨0, 0, 0⟩) (p .reply 0) = true ∧ (p .withdraw 1).kind = .withdraw) ∧
    isAway (tLim .sync 1 63) ⟨0, 0, 0⟩ 1 = false ∧
    isAway (modSlot (tLim .sync 1 63) ⟨0, 0, 0⟩ fun l => { l with saved := [{ Ctx.reset with uid := 1 }] }) ⟨0, 0, 0⟩ 1 = true ∧
    (ctxAt (tLim .sync 1 63) ⟨0, 0, 0⟩).packet = some (127, 63) ∧ (ctxAt (tLim .sync 1 64) ⟨0, 0, 0⟩).packet = some (127, 64) :=
  ⟨waits_of (by decide +kernel), waits_of (by decide +kernel), by and_intros <;> decide +kernel⟩
theorem test_hyp_SupervisorMessagesLandAndAreTaken_Land :
    let s := tR 0 0 0 0 0
    let m := { m0 with root := true, dst := ⟨0, 2096, 0⟩ }
    m0.root = false ∧ holdsJob s m0.dst m0.job = true ∧ (tileAt s ⟨0, 0⟩).msgs.length < 32 ∧ holdsJob s ⟨0, 1, 0⟩ 1 = false ∧ m.root = true ∧
    msgToken m = none ∧ jobAt s m.job = some demoJob ∧ msgToken { m0 with cls := 2 } = some 0 ∧
    32 ≤ (tileAt (tS id (fun t => { t with msgs := List.replicate 32 m0 }) id) ⟨0, 0⟩).msgs.length := by and_intros <;> decide +kernel
/-- The unit with an outstanding store and an engine's command. -/
noncomputable def tOut : State := tS id id fun s => { s with outs := [out0, { out0 with id := 10, home := none }] }
theorem test_hyp_FencesWaitForOutstandingWrites :
    (∀ S D r, Ready tOut h0 S D r) ∧ writesOut tOut tOut.cur (me tOut).uid .tile tOut.cur.node = true ∧ cmdsOut tOut tOut.cur (me tOut).uid = true ∧
    (∀ S D r, Ready (tR 0 0 0 0 0) h0 S D r) ∧ writesOut (tR 0 0 0 0 0) ⟨0, 0, 0⟩ 1 .dom ⟨0, 0⟩ = false ∧ cmdsOut (tR 0 0 0 0 0) ⟨0, 0, 0⟩ 1 = false :=
  ⟨ready_all (by decide +kernel), by decide +kernel, by decide +kernel, ready_all (by decide +kernel), by decide +kernel, by decide +kernel⟩
/-- A job of which a log is kept, or which is replayed, with room for entries. -/
def rj0 (m : Nat) : Job := { demoJob with r := { demoRec with rmode := m, loglen := 2072 * 64 } }
/-- A machine that runs it. -/
noncomputable def tRec (m : Nat) : State := tS (fun c => { c with s := (c.s.set 1 2071).set 2 0x1000000000000 }) id fun s => { s with jobs := [rj0 m] }
theorem test_hyp_RecordAndErrorForms :
    (∀ S D r, Ready (tRec 1) h0 S D r) ∧
    (let s := tRec 1
     let x := fun i => (rs (me s) i).toNat
     x 1 < 2 ^ 48 ∧ 2 ^ 48 ≤ x 2 ∧ x 1 < 2072 ∧ marksCount s (me s) = true ∧ marksCount (tRec 0) (me (tRec 0)) = false ∧ (me s).d.root = true ∧
     (me s).d.det = false ∧ (me (tS (fun c => { c with d := { c.d with det := true } }) id id)).d.det = true ∧ systemMode s.cur = false) ∧
    selector 0 0 = some (⟨0, 0⟩, 0, 0) ∧ selector 0 0x10000 = some (⟨0, 1⟩, 0, 0) ∧ selector 0 0x10 = none ∧
    (∀ S D r, Ready (tAt 2096 id id) h0 S D r) ∧ systemMode (tAt 2096 id id).cur = true ∧ (slotAt (tAt 2096 id id) ⟨0, 2096, 0⟩).ph = .bound ∧
    (rs (me (tAt 2096 id id)) 1).toNat < 2 ^ 52 ∧ 2 ^ 52 ≤ (0x10000000000000 : Word).toNat :=
  ⟨ready_all (by decide +kernel), by decide +kernel, by decide +kernel, by decide +kernel, by decide +kernel, ready_all (by decide +kernel),
    by decide +kernel, by decide +kernel, by decide +kernel, by decide⟩
/-- An entry of a log. -/
def re0 : RecEntry := ⟨⟨0, 1, 0⟩, 3, 6, 0, 7⟩
theorem test_hyp_RecordAndErrorForms_Services :
    (let q := { vq0 ⟨0, 0⟩ (.recMark 7) with recSeq := some 3 }
     let s := tRec 1
     (svcCtx s q).isSome = true ∧ svcCtx s { q with who := { w0 with uid := 2 } } = none ∧ (recPoint s q.peer q.who q.job q.recSeq 6 0 7).1 = true ∧
     segIx q.peer = some 0 ∧ jobAt s q.job = some (rj0 1) ∧ (rj0 1).recEnded = false ∧ (rj0 1).r.rmode = 1 ∧
     (segAt s q.peer.pkg q.job 0).entries.length < segSize (rj0 1)) ∧
    (recPoint (setSeg (tRec 2) 0 1 0 { entries := [re0], loaded := true }) ⟨0, 0⟩ w0 1 (some 9) 6 0 7).1 = false ∧
    (let s := setSeg (tRec 2) 0 1 0 { entries := [re0], loaded := true }
     jobAt s (rj0 2).handle = some (rj0 2) ∧ (segAt s 0 1 0).entries[0]? = some re0 ∧ (segAt s 0 1 0).pos = 0 ∧ (rj0 2).r.rmode = 2) := by
  and_intros <;> decide +kernel
/-- Two packages, in an open phase of the job, with its arbiter on the first and its standby on the second. -/
noncomputable def tX2 (f : Ctx → Ctx) (g : Tile → Tile) (x : Exchange) (a : Arbiter) : State :=
  let s := tS f g fun s => { s with shape := (2, 1, 1), now := 5000, jobs := [{ demoJob with phaseOpen := [0, 1], pkgs := [0, 1] }] }
  modPkg (modPkg s 0 fun p => { p with exch := [x], arbs := [a] }) 1 fun p => { p with exch := [x], arbs := [{ job := 1, acting := false, other := 0 }] }
/-- A calendar of one phase, in which package 0 sends to package 1. -/
def ca0 : Calendar := ⟨0, 6000, [⟨[(0, 1)], 2, 6000⟩], []⟩
/-- An exchange that has it; the arbiter of the job, with calendars. -/
def ex0 : Exchange := { job := 1, cals := [ca0], have_ := 0 }
def ar0 (l : List Calendar) : Arbiter := { job := 1, acting := true, other := 1, cals := l }
/-- A subscription to the calendar service at endpoint 127, with messages. -/
def es0 (l : List ChMsg) : Endpoint := { e0 .opened 0 l with img := 7 }
/-- The form of a unit that runs in a phase. -/
noncomputable def tPh (l : List ChMsg) (x1 x2 : Word) (n : Nat) : State :=
  tX2 (fun c => { c with s := (c.s.set 1 x1).set 2 x2 })
    (fun t => { t with tds := tds0, copy := List.replicate n (cm0 .swap), eps := [(127, es0 l)] }) ex0 (ar0 [])
theorem test_hyp_ExchangeFormsAndServices :
    let s := tPh [.data 14 (bytesOfNat 8 6000 ++ bytesOfNat 16 0)] 1 0x8100000000000000 15
    (∀ S D r, Ready s h0 S D r) ∧ (∀ S D r, Ready (tPh [] 0 0 16) h0 S D r) ∧ inPhase s s.cur (me s) = true ∧
    inPhase (tR 0 0 0 0 0) ⟨0, 0, 0⟩ (me (tR 0 0 0 0 0)) = false ∧ (1 ∈ groupOf s 1) ∧ 1 ≠ s.cur.pkg ∧ (rs (me s) 1).toNat < 2 ^ 40 ∧
    OwnOpen s 127 ∧ (61#6).toNat ≤ 61 ∧ (epAt s ⟨0, 0, 127⟩).img = 7 ∧ (epAt s ⟨0, 0, 127⟩).reg = none ∧
    ((epImg s 127).edge (epAt s ⟨0, 0, 127⟩).q .recv 14).isSome = true ∧ (epAt (tPh [] 0 0 0) ⟨0, 0, 127⟩).inbox = [] ∧
    (epAt s ⟨0, 0, 127⟩).inbox = .data 14 (bytesOfNat 8 6000 ++ bytesOfNat 16 0) :: [] ∧
    s.now < (pkgAt s 0).cycleBase + (grantWords (bytesOfNat 8 6000 ++ bytesOfNat 16 0)).getD 0 0 ∧ (grantWords []).getD 0 0 ≤ s.now ∧
    mayCopy s s.cur (me s) = true ∧ ahas (here s).tds 0 = true ∧ ahas (here s).tds 30 = false ∧ (tdHere s 0).loc = 0 ∧ sameShape (tdHere s 0) (tdHere s 1) = true ∧
    isRemote (rs (me s) 2) = true ∧ (targetBase (rs (me s) 2)).toNat % 2 ^ 44 = 0 ∧ remoteFault s (targetBase (rs (me s) 2)) true = none ∧
    (here s).copy.length < 16 ∧ 16 ≤ (here (tPh [] 0 0 16)).copy.length := by
  refine ⟨ready_all (by decide +kernel), ready_all (by decide +kernel), by decide +kernel, by decide +kernel, by decide +kernel, by decide +kernel,
    by decide +kernel, ⟨by decide +kernel, by decide +kernel⟩, ?_⟩; and_intros <;> decide +kernel
theorem test_hyp_ExchangeFormsAndServices_Gateway :
    let s := tAt 2048 (fun c => { c with d := { c.d with root := false }, blk := some 5, s := c.s.set 1 5 }) id
    (∀ S D r, Ready s h0 S D r) ∧ mayTake s.cur (me s) = true ∧ (me s).blk.map (BitVec.ofNat 64) = some (rs (me s) 1) ∧ releaseOk s s.cur 1 .pkg s.cur.node = true ∧
    (me (tAt 2048 (fun c => { c with d := { c.d with root := false } }) id)).blk = none ∧ mayTake ⟨0, 0, 0⟩ (me s) = false :=
  ⟨ready_all (by decide +kernel), by and_intros <;> decide +kernel⟩
theorem test_hyp_ExchangeFormsAndServices_Reserved :
    let s := tS (fun c => { c with park := some (waitBy State.reset (.xchSend h0 ⟨0, 0, 0, 0⟩ 0 false 0 1 2) 7 .cond 0 0 0 (List.replicate 19 0)) }) id id
    Fit s h0 [.s 2] [] false ∧ ((me s).park.map (·.aux)).getD [] = List.replicate 19 0 ∧ (here s).copy.length < 16 :=
  ⟨fit_of (by decide +kernel), by decide +kernel, by decide +kernel⟩
theorem test_hyp_ExchangeFormsAndServices_Services :
    let s := tX2 id id ex0 (ar0 [])
    let made := tX2 id id ex0 (ar0 [ca0])
    exchAt s 0 1 = some ex0 ∧ exchAt s 0 2 = none ∧ ex0.period ≤ ex0.have_ ∧ ex0.waitClose = [] ∧ { ex0 with period := 1 }.have_ < { ex0 with period := 1 }.period ∧
    actingOf s 1 = some 0 ∧ actingOf s 2 = none ∧ arbAt s 0 1 = some (ar0 []) ∧ arbAt made 0 1 = some (ar0 [ca0]) ∧
    (ar0 []).cals.any (fun c => c.period = (ar0 []).next) = false ∧ (ar0 [ca0]).cals.any (fun c => c.period = (ar0 [ca0]).next) = true ∧
    (allPkgs s).find? (fun p => ((arbAt s p 1).map fun a => !a.acting && decide (a.beatAt + 4096 ≤ s.now)).getD false) = some 1 ∧
    (allPkgs State.reset).find? (fun p => ((arbAt State.reset p 1).map fun a => !a.acting && decide (a.beatAt + 4096 ≤ 0)).getD false) = none ∧
    (allPkgs made).findSome? (fun p => (arbAt made p 1).bind fun a => a.cals.find? fun c => c.period = 0) = some ca0 ∧ ex0.have_ ≤ 0 ∧
    { ex0 with have_ := 1 }.have_ = 0 + 1 ∧ (exchAt s 0 1).bind (fun x => (x.cals.find? fun c => c.period = 0).bind fun c => c.phases[0]?) = some ⟨[(0, 1)], 2, 6000⟩ ∧
    ((pkgAt s 0).bq.getD ⟨0, (0x1000000 : Word).toNat, [], []⟩).nb = 2 ^ 24 := by and_intros <;> decide +kernel
/-- What a reservation says, as a number: its reason, or 0. -/
noncomputable def reserved (len dst now : Nat) : Nat :=
  match reserve { tX2 id id ex0 (ar0 []) with now := now } ex0 0 0 dst len with
  | .ok _ => 0
  | .error k => k
theorem test_hyp_ExchangeFormsAndServices_Reservation :
    reserved 8192 1 6000 = 0 ∧ reserved 8193 1 6000 = 1 ∧ reserved 1 0 6000 = 2 ∧ reserved 1 1 6064 = 3 ∧ reserved 1 1 6063 = 0 := by and_intros <;> decide +kernel
theorem test_hyp_ExchangeFormsAndServices_CalWait :
    Waits (tW (.calWait h0 127 1 true 61) (.calAt 6000) id id) w0 (waitBy State.reset (.calWait h0 127 1 true 61) 7 (.calAt 6000) 0 0 0 []) :=
  waits_of (by decide +kernel)
theorem test_hyp_ExchangeFormsAndServices_BlockQueue :
    let s := tAt 2048 id id
    let q : SvcReq := { vq0 (svcN 0) (.gwTake 3) with who := ⟨⟨0, 2048, 0⟩, 1, 7⟩ }
    (svcCtx s q).isSome = true ∧ svcCtx s { q with who := ⟨⟨0, 2048, 0⟩, 2, 7⟩ } = none ∧ (takeBlock ⟨0, 3, [], []⟩ 0 1).map (·.1) = some 0 ∧ takeBlock ⟨0, 3, [(0, 3)], []⟩ 0 1 = none ∧
    ((modPkg s 0 fun p => { p with bq := some ⟨9, 3, [], []⟩ }).pkgs.map fun x => x.2.bq.map (·.launch)) = [some 9] := by and_intros <;> decide +kernel

/-! ### Witnesses: the network, resets and the host -/

/-- A flit for a tile, whose event is due where it is ejected. -/
def fl0 (dst : Node) (inc : Nat) (ev : Option Ev) : Flit :=
  { fid := 5, mid := 4, typ := 3, dst := dst, dep := 0, from_ := ⟨0, 1⟩, src := ⟨0, 1, 0⟩, inc := inc, pin := none, age := 1023, space := [], seq := 0
    tag := 0, last := true, ev := ev, whole := .spawnRequestLand { sq0 with who := w0 }, since := 0, isReply := false, col := 0 }
/-- A router with one arrival. -/
noncomputable def tN (id : Nat) (f : Flit) : State := { State.reset with now := 64, routers := [(nodeKey ⟨0, id⟩, { arr := [⟨64, false, f⟩] })] }
/-- The event of a request of the waiting unit. -/
def ev0 : Ev := .spawnRequestLand { sq0 with who := w0 }
theorem test_hyp_NetworkMovesFlits :
    (let f := fl0 ⟨0, 1⟩ 0 (some ev0)
     (routerAt (tN 0 f) ⟨0, 0⟩).arr = [⟨64, false, f⟩] ∧ 64 ≤ (tN 0 f).now ∧ (routerAt (tN 0 f) ⟨0, 0⟩).inj = [] ∧ f.pin = none ∧
     chooseOut (tN 0 f) ⟨0, 0⟩ [] 0 f = some 0 ∧ chooseOut (tN 1 f) ⟨0, 1⟩ [] 0 f = some 4 ∧ chooseOut (tN 1 f) ⟨0, 1⟩ [] 2 f = some 0 ∧ f.space = [] ∧
     isTile f.dst.id = true ∧ f.ev = some ev0 ∧ f.inc = (tileAt (tN 1 f) f.dst).inc ∧ { f with inc := 1 }.inc ≠ (tileAt (tN 1 f) f.dst).inc ∧ wantsNotice f = true) ∧
    (let s : State := { State.reset with now := 64, routers := [(0, { inj := [fl0 ⟨0, 1⟩ 0 none] })] }
     (fl0 ⟨0, 1⟩ 0 none) ∈ (routerAt s ⟨0, 0⟩).inj ∧ (fl0 ⟨0, 1⟩ 0 none).since + 64 ≤ s.now) := by and_intros <;> decide +kernel
theorem test_hyp_NetworkMovesFlits_Held :
    let f := fl0 ⟨1, 1⟩ 0 (some ev0)
    let i := Instr.spawnQ h0 1 2 3 4
    let s := modPkg (tW i .reply id id) 0 fun p => { p with ports := [(3, { up := false, held := [(9, f)] })] }
    Waits s w0 (waitBy State.reset i 7 .reply 0 0 0 []) ∧ (ctxAt s w0.slot).region = none ∧
    ((aget {} (pkgAt s 0).ports 3).held.find? fun h => h.2.fid = 5) = some (9, f) ∧ requester f.whole = some (w0, false) ∧
    waitOf (dropMessage s f.mid) w0 ≠ none ∧ waitOf s { w0 with id := 8 } = none ∧
    Waits (dropMessage s f.mid) w0 (waitBy State.reset i 7 .reply 0 0 0 []) :=
  ⟨waits_of (by decide +kernel), by decide +kernel, by decide +kernel, by decide +kernel, by decide +kernel, by decide +kernel, waits_of (by decide +kernel)⟩
theorem test_hyp_ResetsStartANewIncarnation :
    isTile 2099 = true ∧ isTile 2100 = false ∧ hasPkg State.reset 0 = true ∧ hasPkg State.reset 1 = false ∧
    (let s := modTile State.reset ⟨0, 0⟩ fun t => { t with eps := [(127, { e0 .opened 0 [] with owner := none })] }
     tileUnits (tileAt s ⟨0, 0⟩) = [] ∧ s.outs = [] ∧ (tileAt s ⟨0, 0⟩).copy = [] ∧ (tileAt s ⟨0, 0⟩).couplers = [] ∧
     ((tileAt s ⟨0, 0⟩).epAt 127).st = .opened ∧ concerns ⟨0, 1⟩ ((tileAt s ⟨0, 0⟩).epAt 127).peer.node = true ∧ concerns ⟨0, 2⟩ ⟨0, 1⟩ = false ∧
     ahas (tileAt s ⟨0, 0⟩).eps 127 = true) := by and_intros <;> decide +kernel
/-- A record of 256 bytes for package 0 with a section of no bytes; its word at 8 and its number of sections as given. -/
def rec0 (set n : Nat) : List Byte := bytesOfNat 8 0 ++ bytesOfNat 8 set ++ List.replicate 56 0 ++ bytesOfNat 8 (n * 2 ^ 32) ++ List.replicate 176 0
/-- A package whose submission queue 63 holds it, the unit on the root tile's slot 0 as the machine has it. -/
noncomputable def tJ (s : State) (b : List Byte) : State :=
  modPkg { s with mem := cellsWrite s.mem 0x40000 b } 0 fun p => { p with sec := .provisioned, queues := [(63, { base := 0x40000, size := 4, tail := 1 })] }
/-- What becomes of the record: the reason why it is refused, and whether the slot of its root unit is free. -/
noncomputable def accepts (s : State) : Option (Nat × Nat × Bool) :=
  let b := physRead s 0x40000 256
  (jobFor s 0 b (recordOf b)).map fun x =>
    (x.2.reason, refusal (modJob x.1 x.2.handle fun j => { j with rootTables := j.rootTables.set 0 ((rootsOf s 0 (recordOf b)).getD 0 0) }) 0 b x.2,
      rootSlotFree s 0 (recordOf b).rootTile x.2.handle)
theorem test_hyp_HostQueuesStartAndEndJobs :
    hasPkg State.reset 0 = true ∧ (2 ^ 40 - 8) + [0, 0, 0, 0, 0, 0, 0, (0 : Byte)].length ≤ 2 ^ 40 ∧
    accepts (tJ State.reset (rec0 1 1)) = some (0, 0, true) ∧
    accepts (modPkg (tJ State.reset (rec0 1 1)) 0 fun p => { p with sec := .locked }) = some (0, 5, true) ∧ accepts (tJ State.reset (rec0 1 0)) = some (0, 1, true) ∧
    accepts (tJ State.reset (rec0 3 1)) = some (0, 2, true) ∧ accepts (tJ (tR 0 0 0 0 0) (rec0 1 1)) = some (0, 0, false) ∧
    (let s := tR 0 0 0 0 0
     jobAt s demoJob.handle = some demoJob ∧ demoJob.done = false ∧ demoJob.ending = false ∧ demoJob.started = true ∧ rootSlotFree s 0 0 1 = false ∧
     rootSlotFree State.reset 0 0 1 = true ∧ (∀ p ∈ { demoJob with rootExited := [0] }.pkgs, p ∈ { demoJob with rootExited := [0] }.rootExited) ∧
     0 ∉ demoJob.rootExited ∧ jobBusy s 1 = true ∧ jobBusy { s with jobs := [{ demoJob with rootExited := [0] }] } 1 = false ∧
     (memHome s (0 * 2 ^ 46 + 0x100000000000 + 0)).isSome = true ∧ 768 * 2 ^ 30 - 1 + [(0 : Byte)].length ≤ 768 * 2 ^ 30) := by
  and_intros <;> decide +kernel
/-- A package changed as given. -/
noncomputable def tPk (f : Pkg → Pkg) : State := modPkg State.reset 0 f
theorem test_hyp_SecurityPowerAndServiceRequests :
    (pkgAt State.reset 0).sec = .locked ∧ comboOk .provisioned (pkgAt State.reset 0).debug true = true ∧ comboOk .attested 2 true = false ∧
    liveJobs State.reset 0 = [] ∧ comboOk .rtv 0 true = true ∧ (liveJobs { State.reset with jobs := [{ demoJob with accepted := [0] }] } 0).length = 1 ∧
    debugOk State.reset 0 (pkgAt State.reset 0) 2 0 none = true ∧ debugOk State.reset 0 (pkgAt State.reset 0) 3 0 none = false ∧
    powerOf 2 = some .off ∧ powerOf 3 = none ∧ islandFree State.reset 0 31 = true ∧ islandFree (tR 0 0 0 0 0) 0 0 = false ∧
    standbyOk State.reset 0 (pkgAt State.reset 0) = true ∧ standbyOk (tR 0 0 0 0 0) 0 (pkgAt (tR 0 0 0 0 0) 0) = false ∧
    (pkgAt (tPk fun p => { p with standbyOn := true }) 0).standbyOn = true ∧ (∀ e ∈ State.reset.agenda, e.at_ ≠ 0) ∧
    cycleOf State.reset 0 % 16 = 0 ∧ cycleOf { State.reset with now := 15 } 0 % 16 ≠ 0 ∧ Config.fusedMinimum ≤ 0 ∧
    (∃ l ∈ (pkgAt (tPk fun p => { p with launches := [{ l0 with d := { d0 with det := true } }] }) 0).launches, pinsIsland 0 0 State.reset l = true) ∧
    (pkgAt State.reset 0).launches = [] ∧ isCompute 2047 = true ∧ (tileAt State.reset ⟨0, 2047⟩).present = true ∧ (tileAt State.reset ⟨0, 0⟩).tenant = none ∧
    (tileAt (tR 0 0 0 0 0) ⟨0, 0⟩).tenant.isSome = true ∧ ahas (pkgAt State.reset 0).spares (spareOf 0) = false ∧
    ahas (pkgAt (tPk fun p => { p with spares := [(spareOf 0, 64)] }) 0).spares (spareOf 0) = true ∧ portPinned State.reset 0 0 = false ∧
    refreshPhase State.reset ⟨0, 0⟩ < 160 ∧ 160 ≤ refreshPhase { State.reset with now := 160 } ⟨0, 0⟩ := by and_intros <;> decide +kernel

/-! ### Witnesses: turns at a place, errors, and what several statements ask beside -/

/-- A place that has served a request in this cycle, and one that has not; a machine without errors. -/
theorem test_hyp_turns_and_errors :
    (∀ s ∈ [tR 1 2 3 4 5], max s.now (aget 0 s.served (peerKey ⟨0, 0⟩ 1)) ≤ s.now) ∧
    (let s : State := { tR 1 2 3 4 5 with served := [(peerKey ⟨0, 0⟩ 1, 1)] }
     s.now < max s.now (aget 0 s.served (peerKey ⟨0, 0⟩ 1))) ∧
    noErrs (tR 1 2 3 4 5) = true ∧ noErrs tL = true ∧ noErrs tTok = true ∧ noErrs (tG { g0 with stores := [hs0] }) = true ∧
    noErrs (tW (.xlat h0 1 2) .reply id id) = true ∧ (v0 .phaseLeave).turn = false ∧ { v0 .phaseLeave with turn := true }.turn = true ∧
    waitGone State.reset (v0 .phaseLeave) = true ∧ waitGone (tW (.phaseLeave h0 1) .reply id id) (v0 .phaseLeave) = false ∧
    waitGone State.reset (v0 .demClose) = true ∧ waitGone (tW (.demClose h0 1) .reply id id) (v0 .demClose) = false := by and_intros <;> decide +kernel
/-- A unit that waits to resume, with an accumulator. -/
theorem test_hyp_UnitsComeAndGo_Resume :
    let c : Ctx := { Ctx.reset with uid := 7, savedXa := [(7, 5, 0)] }
    let s := modSlot State.reset ⟨0, 0, 15⟩ fun l => { l with saved := [c] }
    (pkgAt s 0).pool = [] ∧ awayTiles s 0 = [⟨0, 0⟩] ∧ (slotAt s ⟨0, 0, 15⟩).ph = .free ∧ nextSaved (slotAt s ⟨0, 0, 15⟩) = some c ∧
    (∀ i < 16, i ≠ 15 → nextSaved (slotAt s ⟨0, 0, i⟩) = none) ∧ awaited s 0 (slotAt s ⟨0, 0, 15⟩) = false ∧ c.keepsMat = false ∧ c.keepsCopy = false ∧
    xaFree (tileAt s ⟨0, 0⟩) c = true ∧ (c.savedXa.map (·.1)).Nodup := by and_intros <;> decide +kernel
/-- A unit one of whose registers awaits a spawn return; a held store that is a release. -/
theorem test_hyp_RegionsHoldAndReleaseStores_Return :
    let s := tS (fun c => { c with sP := c.sP.set 7 .ret }) id id
    Ready s h0 [] [.s 63] true ∧ presOf (me s) (.s 7) = .ret ∧ (∀ j : SIx, j < 7 → presOf (me s) (.s j) ≠ .ret) ∧
    (∀ i : SIx, presOf (me (tR 0 0 0 0 0)) (.s i) ≠ .ret) ∧ hs0.sent = none ∧ Ord.rel_ hs0.od = false ∧ Ord.rel_ .rel = true :=
  ⟨ready_of (by decide +kernel), by and_intros <;> decide +kernel⟩
theorem test_hyp_DelegationAndClosingForms_Waits :
    (epAt (tA id) ⟨0, 0, 0⟩).leaving = false ∧ windowShut (tA fun x => { x with unread := 2 }) ⟨0, 0, 127⟩ = true ∧
    releaseOk { tA id with outs := [out0] } ⟨0, 0, 0⟩ 1 .dom ⟨0, 0⟩ = false ∧ (epAt (tA id) ⟨0, 0, 127⟩).noDep ≤ (tA id).now ∧
    (epAt (tA fun x => { x with deposited := true }) ⟨0, 0, 127⟩).deposited = true := by and_intros <;> decide +kernel
/-- A stopped command whose token a unit of slot 0 may answer, and a look for a page that the deterministic class has not. -/
theorem test_hyp_TranslationForms_Command :
    let q := { cm0 .swap with stopped := some (9, 7, 0), sup := ⟨0, 0, 0⟩ }
    let s := modTile (tR 9 0 0 0 0) ⟨0, 0⟩ fun t => { t with copy := [q] }
    (∀ S D r, Ready s h0 S D r) ∧ tokenPark s 9 = none ∧ tokenCmd s 9 = some (⟨0, 0⟩, false, q) ∧ q.sup = s.cur ∧ q.job = (me s).d.job ∧ q.refused = false ∧
    (let z := tS (fun c => { c with d := { c.d with det := true } }) id id
     (me z).d.det = true ∧ ((here z).tlb.any fun e => e.det = true && TlbEntry.covers e 1 0) = false) :=
  ⟨ready_all (by decide +kernel), by and_intros <;> decide +kernel⟩
/-- A wait of a domain's invalidation for two packages, and one that only the record log holds. -/
theorem test_hyp_RepliesAndLimitsReachTheUnit_Held :
    (let i := Instr.tlbInv h0 .dom 1
     let p : Park := { waitBy State.reset i 7 .reply 0 0 0 [] with aux := [1, 2] }
     let s := tS (fun c => { c with park := some p }) id id
     Waits s w0 p ∧ (p.aux.filter fun k => k ≠ 1) ≠ [] ∧ ([1].filter fun k => k ≠ (1 : Word)) = []) ∧
    (let i := Instr.ldSync h0 .tile .rlx true 1 2 0
     let p : Park := waitBy State.reset i 7 .sync 1 0 0 []
     let s := modTile (tLim .sync 1 63) ⟨0, 0⟩ fun t => { t with waiters := [⟨⟨w0, ⟨0, 0⟩, 0xFFFF8, 1, .ldSync true, none⟩, true⟩] }
     heldByLog s w0 p = true ∧ heldByLog (tLim .sync 1 63) w0 p = false ∧ (waitOf (takeBack (tLim .sync 1 63) w0 p) w0).isSome = true ∧
     p.limKind ≠ 0 ∧ (waitBy State.reset i 7 .sync 0 0 0 []).limKind = 0) := by
  refine ⟨⟨waits_of (by decide +kernel), by decide, by decide⟩, ?_⟩
  and_intros <;> decide +kernel
theorem test_hyp_RecordAndErrorForms_Off : recOff (rj0 1) = false ∧ recOff (rj0 2) = false ∧ recOff (rj0 0) = true := by decide
/-- Packets for the tile's own scratchpad: of a command that is not there, of a pull in part and whole, of a push, and one that does not fit. -/
theorem test_hyp_EnginesWorkTheirQueues_Packets :
    let s := tEng false (cm0 (.pull rg0 rg0 none))
    let p (cmd : Nat) (n : Nat) : CopyPkt := ⟨⟨0, 0⟩, cmd, 0, ⟨0, 0⟩, 1, (List.range n).map fun i => (i, 5), List.range n, true, some 5⟩
    let fits := fun (x : CopyPkt) => decide ((tileAt s x.dst).tenant = some x.job) && (badAddr (tileAt s x.dst) x.all).isNone
    cmdAt s (p 8 1).owner false (p 8 1).cmd = none ∧ cmdAt s (p 9 1).owner false (p 9 1).cmd ≠ none ∧ pullSize s (p 9 1) = some 32 ∧
    gotOf s (p 9 1) + (p 9 1).writes.length ≠ 32 ∧ gotOf s (p 9 32) + (p 9 32).writes.length = 32 ∧ pullSize s (p 8 1) = none ∧ fits (p 9 32) = true ∧
    fits { p 9 1 with job := 2 } = false ∧ fits { p 9 1 with all := [0x100000] } = false ∧ (0 : Nat) ∈ { cm0 .swap with acked := [0] }.acked := by
  and_intros <;> decide +kernel
/-- An engine that may start a command, and what holds one up: a message not yet performed, a stop at the end of the cycle. -/
theorem test_hyp_EnginesWorkTheirQueues_Awake :
    let s := tEng false (cm0 .swap)
    stopDue s ⟨0, 0⟩ false = false ∧ messagesOut s ⟨0, 0⟩ (cm0 .swap) = false ∧
    messagesOut { s with outs := [{ out0 with id := 8, va := 0x8000000000000000 }] } ⟨0, 0⟩ (cm0 .swap) = true ∧
    stopDue { s with agenda := [⟨1, phEnd, 0, 0, .engineFaultStop ⟨0, 0⟩ false 9 7 0⟩] } ⟨0, 0⟩ false = true := by and_intros <;> decide +kernel
/-- The request of a pull at the controller of tile 0. -/
theorem test_hyp_EnginesWorkTheirQueues_Pull :
    let p : PullReq := ⟨w0, 0, ⟨0, 0⟩, 1, [(0x10000, 8)], [0], none, false⟩
    let q : MemReq := ⟨{ w0 with id := 7 * 2 ^ 64 }, 0, 0x10000, 0, 1, .pull p, false, none, false, true⟩
    let s : State := { State.reset with ctrls := [(0, { landed := [q] })] }
    (ctrlAt s p.home).landed = [q] ∧ (tileAt s p.home).errs = [] ∧ (∀ x ∈ p.parts, x.1 % 2 ^ 46 < 0x3F0000000000) ∧ p.det = false := by
  and_intros <;> decide +kernel
/-- A convolution of no rows, of as many as fit, and of one too many; a bad register of CP.PUSH. -/
theorem test_hyp_engine_operands :
    convRows 0 = 0 ∧ convRows 0x20000000000 = 512 ∧ 0 + convRows 0x20000000000 ≤ 512 ∧ 512 < 1 + convRows 0x20000000000 ∧ isRemote 5 = false := by decide
/-- A row that is closed and awaits its acknowledgement, and a standby that has heard its arbiter. -/
theorem test_hyp_ExchangeFormsAndServices_Row :
    let s := tX2 id id { ex0 with closed := [(0, [], v0 .demClose)] } (ar0 [])
    let u := (allPkgs s).foldl (fun s p => modArb s p 1 (keepRow 0 0 [])) s
    actingOf u 1 = some 0 ∧ actingOf State.reset 1 = none ∧
    ((exchAt u 0 1).bind fun x => x.closed.find? fun y => y.1 = 0) = some (0, [], v0 .demClose) ∧
    ((allPkgs s).find? fun p => ((arbAt s p 1).map fun a => !a.acting).getD false) = some 1 ∧
    ((arbAt s 1 1).map fun a => decide (a.beatAt + 4096 ≤ s.now)) = some true ∧
    ((arbAt { s with now := 4095 } 1 1).map fun a => decide ({ s with now := 4095 }.now < a.beatAt + 4096)) = some true ∧
    ((ar0 []).cals.find? fun c => c.period = (ar0 []).next) = none ∧ ((ar0 [ca0]).cals.find? fun c => c.period = (ar0 [ca0]).next) = some ca0 := by
  and_intros <;> decide +kernel
theorem test_hyp_NetworkMovesFlits_More :
    ejectedNow (tN 0 (fl0 ⟨0, 1⟩ 0 none)) ⟨0, 0⟩ = 0 ∧ (fl0 ⟨0, 1⟩ 0 none).pin = none ∧
    (9, Parcel.cross 0 3 (fl0 ⟨1, 1⟩ 0 none)) ∈ ({ State.reset with outbox := [(9, .cross 0 3 (fl0 ⟨1, 1⟩ 0 none))] } : State).outbox ∧
    flitsIn State.reset 0 = [] ∧ (⟨0, 1⟩ : Node) ≠ ⟨0, 0⟩ ∧ wholePkg 0 = ⟨0, 4095⟩ := by and_intros <;> decide +kernel
theorem test_hyp_HostQueuesStartAndEndJobs_More :
    (pkgAt State.reset 0).rejoin ≤ State.reset.now ∧ State.reset.now < (pkgAt (tPk fun p => { p with rejoin := 5 }) 0).rejoin ∧
    2 ^ 40 ≤ 2 ^ 40 + 7 ∧ 2 ^ 40 + 7 + [(0 : Byte)].length ≤ 2 ^ 40 + hostBytes ∧ ¬ 2 ^ 40 + hostBytes + [(0 : Byte)].length ≤ 2 ^ 40 + hostBytes := by
  and_intros <;> decide +kernel

/-! ### Ill-formed terms, one for each check of WellFormed -/

/-- Every limit of inLimits, exceeded by one, with every other field accepted (step 4 of R44). -/
theorem test_illformed_limits : (([
    .mtsr h0 1 .slotid, .spawnAt h0 1 2 3 61, .spawnQ h0 1 2 3 61, .divImm h0 1 2 0, .divnImm h0 1 2 0, .remImm h0 1 2 0, .remnImm h0 1 2 0,
    .shlImm h0 1 2 64, .shrImm h0 1 2 64, .sarImm h0 1 2 64, .rolImm h0 1 2 64, .ext h0 63 1 1 2, .extn h0 1 63 1 2, .ins h0 32 32 1 2,
    .vquant h0 .mxfp8 4 .int 1 2, .vdequant h0 .tq4 6 1 2, .vbaddq h0 .mxfp4 1 1 2 3, .vred h0 .i8 .rne .minnum 0 1 2, .vscan h0 .n64 .rne .maxnum ⟨0, false⟩ 1 2,
    .pmerge h0 .f32 .rne ⟨0, false⟩ 1 2 4, .pmerge h0 .f32 .rne ⟨0, false⟩ 2 3 4, .pmerge h0 .f32 .rne ⟨0, false⟩ 2 4 5, .chBindreg h0 1 (.s 0), .rcBind h0 17 1 2,
    .barArm h0 96 1 2, .barArrive h0 96, .barWait h0 96, .barSync h0 96, .barDisarm h0 127, .gpref h0 .b8 .tile 1 0, .fence h0 .dom false false true true,
    .fence h0 .dom true true false false, .fenceEng h0 .dom false false, .calWait h0 1 0 false 62, .cause h0 false 0 62] : List Instr).map
    fun i => (i.fieldsOk, i.inLimits)) = List.replicate 35 (true, false) := by decide
/-- The same terms at the limits are well formed. -/
theorem test_wellformed_at_the_limits : ([
    .mtsr h0 1 .handler, .spawnAt h0 1 2 3 60, .divImm h0 1 2 1, .shlImm h0 1 2 63, .ext h0 63 0 1 2, .extn h0 0 63 1 2, .vquant h0 .mxfp8 3 .int 1 2,
    .vdequant h0 .tq4 5 1 2, .vbaddq h0 .mxfp4 0 1 2 3, .vred h0 .f32 .rne .minnum 0 1 2, .pmerge h0 .f64 .rne ⟨0, false⟩ 2 4 6, .chBindreg h0 1 (.s 1),
    .rcBind h0 16 1 2, .barArm h0 95 1 2, .gpref h0 .b8 .slot 1 0, .fence h0 .dom true false false true, .fenceEng h0 .dom true false, .calWait h0 1 0 false 61]
    : List Instr).all Instr.wellFormed = true := by decide
/-- Every kind of coded field with a value that the form does not accept (R50, R51, R54, R133 to R152, R217, R240, R245). -/
theorem test_illformed_fields : ([
    .vadd h0 .i32 .rne ⟨0, false⟩ 1 2 3, .vadd h0 .e4m3 .rne ⟨0, false⟩ 1 2 3, .vadd h0 .f32 .rne ⟨0, true⟩ 1 2 3, .viadd h0 .f16 false ⟨0, false⟩ 1 2 3,
    .vicmp h0 .i8 .eq ⟨0, true⟩ 1 2 3, .vmov h0 .mxfp8 ⟨0, false⟩ 1 2, .vsel h0 .tq4 1 2 3 1, .vcvt h0 .f32 .rne .tq4 false ⟨0, false⟩ 1 2,
    .vcvt h0 .f32 .rne .n32 true ⟨0, false⟩ 1 2, .vquant h0 .f32 0 .int 1 2, .vquant h0 .mxfp8 0 .pow2 1 2, .vdequant h0 .e2m1 0 1 2, .vbaddq h0 .i8 0 1 2 3,
    .vred h0 .e5m2 .rne .add 0 1 2, .vred h0 .i8 .rtz .add 0 1 2, .vscan h0 .i8 .rtz .add ⟨0, false⟩ 1 2, .pmerge h0 .f16 .rne ⟨0, false⟩ 2 4 6, .vdot h0 .i8 .rne 0 1 2 3,
    .vexp2 h0 .i32 .rne ⟨0, false⟩ 1 2, .xaRnd h0 .bf16 .rne 0 1, .send h0 1 63 true false 0 8 1, .sendv h0 1 63 true false 0 8 1, .recv h0 1 63 0 8 1 2, .recv h0 1 5 0 0 1 2,
    .recvv h0 1 63 0 8 1 2, .ld h0 .b16 .slot .rlx false 1 2 0, .ld h0 .b8 .slot .rel false 1 2 0, .st h0 .b8 .slot .acq 1 2 0, .ldv h0 .slot .sc 1 2 0, .stv h0 .slot .acqrel 1 2 0,
    .ldSync h0 .slot .rel true 1 2 0, .stFill h0 .slot .acq true 1 2 0, .gld h0 .b256 .slot .rlx false 1 2 0, .gld h0 .b8 .slot .rel false 1 2 0, .gst h0 .b8 .slot .acq 1 2 0,
    .gldv h0 .b8 .slot .rlx 1 2 0, .gstv h0 .b256 .slot .acqrel 1 2 0, .atom h0 .b2 .slot .rlx .add 1 2 3 0, .cas h0 .b1 .slot .rlx 0 1 2 3 0, .atomDet h0 .b16 .slot .rlx .add 1 2 3 0,
    .cpPush h0 ⟨1, 0, 0, 0⟩ 0 false .none 1 2 3, .cpFill h0 ⟨0, 0, 1, 0⟩ 1 2, .cpPush h0 ⟨0, 0, 0, 0⟩ 1 false .none 1 2 3, .mxSwap h0 ⟨1, 0, 0, 0⟩, .mxUprog h0 ⟨0, 0, 0, 0⟩ false true 1,
    .xchSend h0 ⟨0, 0, 0, 0⟩ 1 false 1 2 3, .kpop h0 .e4m3 1 1, .kset h0 .mxfp4 1 2 3, .illegalInstruction 0x020C00000000000000000000]
    : List Instr).map Instr.fieldsOk = List.replicate 49 false := by decide
/-- Words that steps 3 and 4 of R44 refuse, beside one of VADD and one of LD that they accept: a reserved type code (R16), rounding mode (R24), zeroing
without a mask (R51), a bit of an unused field (R49, R51), a reserved size, scope and order (R50), a reserved specifier (R48). -/
theorem test_reserved_words :
    decode 0x300000414243005000000000 = .ok (.vadd h0 .f32 .rne ⟨0, false⟩ 1 2 3) ∧ decode 0x740000010200300000000000 = .ok (.ld h0 .b8 .slot .rlx false 1 2 0) ∧
    ([0x30000041424300B800000000, 0x300000414243005700000000, 0x300000414243005010000000, 0x300000414243005000000001, 0x740000010201300000000000,
      0x740000010200700000000000, 0x740000010200380000000000, 0x740000010200314000000000, 0x300000604243005000000000, 0x150000900500000000000000] : List IWord).map decode =
      List.replicate 10 (.error .reservedField) := by and_intros <;> decide
/-- Words of fields that are defined and that the form does not accept: an integer type, a scalar destination, a size of 16 bytes, an order that releases, a
shift of 64 (step 4 of R44). -/
theorem test_unaccepted_words :
    ([0x300000414243001000000000, 0x300000014243005000000000, 0x740000010200400000000000, 0x740000010200308000000000, 0x113400010200000000000040] : List IWord).map decode =
      List.replicate 5 (.error .illegalOperand) := by decide

/-! ### Single steps: the manual's worked examples, and values computed by hand -/

/-- Cycles at which the results of a step land. -/
noncomputable def landings (o : Outc) : List Nat :=
  match o with
  | .next t => t.agenda.filterMap fun e => match e.ev with
    | .resultLanding _ _ _ _ => some e.at_
    | _ => none
  | _ => []
/-- The machine after a step that goes on. -/
noncomputable def next (o : Outc) : State :=
  match o with
  | .next t => t
  | _ => State.reset
/-- R6 to R8: the tile at x = 37, y = 20 has id 1317 and lies on die 6 and in island 24. -/
theorem test_tile_numbers : tileX 1317 = 37 ∧ tileY 1317 = 20 ∧ dieOf 1317 = 6 ∧ islandOf 1317 = some 24 ∧ pkgXyz 57 = (1, 2, 3) := by decide
/-- R19: the e4m3 byte 0x5C is 1.5 × 2^4. -/
theorem test_e4m3 : (convert .f32 .rne (readNum .e4m3 0x5C)) = ⟨0x41C00000, 0⟩ := by decide +kernel
/-- R29: f32 500 becomes 448 in e4m3, with overflow and inexact; -3.7 becomes -3 in i8 under RTZ, with inexact. -/
theorem test_conversions : convert .e4m3 .rne (readNum .f32 0x43FA0000) = ⟨0x7E, 0x14⟩ ∧ convert .i8 ⟨.rtz, 0⟩ (readNum .f32 0xC06CCCCD) = ⟨0xFD, 0x10⟩ := by
  and_intros <;> decide +kernel
/-- R28: 449 in e4m3 is 448, with inexact alone under RNE, with overflow too under RUP. -/
theorem test_saturation : convert .e4m3 .rne (readNum .f32 0x43E08000) = ⟨0x7E, 0x10⟩ ∧ convert .e4m3 ⟨.rup, 0⟩ (readNum .f32 0x43E08000) = ⟨0x7E, 0x14⟩ := by
  and_intros <;> decide +kernel
/-- R127: the worked examples of the arithmetic forms. -/
theorem test_add_overflow : results (exec (.addImm h0 4 3 0x20) (tR 0 0 0x7FFFFFFFFFFFFFF0 0 0)) = [(.s 4, sval 0x8000000000000010)] := by decide
theorem test_div : results (exec (.div h0 4 3 5) (tR 0 0 (-7) 0 2)) = [(.s 4, sval (-3))] := by decide
theorem test_rem : results (exec (.rem h0 4 3 5) (tR 0 0 (-7) 0 2)) = [(.s 4, sval (-1))] := by decide
theorem test_divn_imm : results (exec (.divnImm h0 4 3 0xFFFFFFFFFFFF) (tR 0 0 (-1) 0 0)) = [(.s 4, sval 1)] := by decide
theorem test_mulhn : results (exec (.mulhn h0 4 3 5) (tR 0 0 (-1) 0 (-1))) = [(.s 4, sval 0xFFFFFFFFFFFFFFFE)] := by decide
/-- R128: the worked examples of EXT and EXTN. -/
theorem test_ext : results (exec (.ext h0 12 11 4 3) (tR 0 0 0xABC123 0 0)) = [(.s 4, sval 0xFFFFFFFFFFFFFABC)] := by decide
theorem test_extn : results (exec (.extn h0 12 11 4 3) (tR 0 0 0xABC123 0 0)) = [(.s 4, sval 0xABC)] := by decide
/-- R130: the constant built by MOVI and MOVHI, and the address of LEA. -/
theorem test_movi : results (exec (.movi h0 3 0x79B97F4A7C15) (tR 0 0 0 0 0)) = [(.s 3, sval 0x79B97F4A7C15)] := by decide
theorem test_movhi : results (exec (.movhi h0 3 0x9E37) (tR 0 0 0x79B97F4A7C15 0 0)) = [(.s 3, sval 0x9E3779B97F4A7C15)] := by decide
theorem test_lea : results (exec (.lea h0 .b256 4 1 2 16) (tR 0x4000 3 0 0 0)) = [(.s 4, sval 0x4310)] := by decide
/-- R129: an unsigned comparison of a negative number. -/
theorem test_cmp_unsigned : results (exec (.cmp h0 .ltn 1 1 2) (tR (-1) 1 0 0 0)) = [(.p 1, pval false)] := by decide +kernel
theorem test_cmp_signed : results (exec (.cmp h0 .lt 1 1 2) (tR (-1) 1 0 0 0)) = [(.p 1, pval true)] := by decide +kernel
/-- R93: LOOP branches until its count reaches 0. -/
theorem test_loop_branches : results (exec (.loop h0 1 5) (tR 3 0 0 0 0)) = [(.s 1, sval 2)] ∧ (after (exec (.loop h0 1 5) (tR 3 0 0 0 0))).pc = 60 := by decide
theorem test_loop_falls_through : (after (exec (.loop h0 1 5) (tR 1 0 0 0 0))).pc = 12 := by decide
/-- Table 3 of chapter 05: an ADD that reads s40, issued in cycle 12, lands at 17. -/
theorem test_slow_source : landings (exec (.add h0 8 7 40) { tR 0 0 0 0 0 with now := 12 }) = [17] := by decide
/-- R135: VADD.f32 issued in cycle 10 is full at 18; VMUL.f64 in cycle 11, with one beat before it, at 20. -/
theorem test_array_timing : landings (exec (.vadd h0 .f32 .rne ⟨0, false⟩ 1 2 3) { tR 0 0 0 0 0 with now := 10 }) = [18] ∧
    landings (exec (.vmul h0 .f64 .rne ⟨0, false⟩ 4 5 6) { tV 1 [] with now := 11 }) = [20] := by and_intros <;> decide +kernel
/-- R139: 100 + 50 in i8. -/
theorem test_viadd : results (exec (.viadd h0 .i8 false ⟨0, true⟩ 1 2 3) (tS (fun c => { c with v := (c.v.set 2 100).set 3 50 }) id id)) = [(.v 1, 0x96)] := by decide +kernel
theorem test_viadd_sat : results (exec (.viadd h0 .i8 true ⟨0, true⟩ 1 2 3) (tS (fun c => { c with v := (c.v.set 2 100).set 3 50 }) id id)) = [(.v 1, 0x7F)] := by decide +kernel
/-- R149: KSET.f32 with 37 activates lanes 0 to 36. -/
theorem test_kset : results (exec (.kset h0 .f32 2 0 1) (tR 37 0 0 0 0)) = [(.k 2, 0x1FFFFFFFFF)] := by decide +kernel
/-- R307: a flit from tile 0 to tile 3 takes 7 cycles; R14: from tile 0 to the dispatcher by the bridge above it, 2 + 4 + 2. -/
theorem test_flight : flight State.reset ⟨0, 0⟩ ⟨0, 3⟩ = 7 ∧ flight State.reset ⟨0, 0⟩ (svcN 0) = 8 ∧ flight State.reset (svcN 0) ⟨0, 64⟩ = 9 := by
  decide +kernel
/-- R139: the signedness of VSAR comes from T (log 14). -/
theorem test_vsar : results (exec (.vsar h0 .n8 ⟨0, false⟩ 3 1 2) (tS (fun c => { c with v := (c.v.set 1 0x80).set 2 1 }) id id)) = [(.v 3, 0x40)] := by decide +kernel
/-- R36: the sum of two TQ4 blocks of E2M1 elements. -/
theorem test_vbaddq : results (exec (.vbaddq h0 .tq4 0 3 1 2) (tS (fun c => { c with v := (c.v.set 1 0x7C3260).set 2 0x71525F }) id id)) = [(.v 3, 0x6A3261)] := by decide +kernel
/-- R38, R152: 1.5 × 2 is accumulated exactly, and rounds to 3. -/
theorem test_xa : (let s := next (exec (.xaAddp h0 0 false 1 2) (tS (fun c => { c with s := (c.s.set 1 0x3FF8000000000000).set 2 0x4000000000000000 })
      (fun t => { t with xas := t.xas.set 0 { xa0 0 0 0 with n := 0 } }) id))
    (xaAt (tileAt s ⟨0, 0⟩) 0).n = BitVec.ofNat 4352 (3 * 2 ^ 2148) ∧
    results (exec (.xaRnd h0 .f64 .rne 0 3) { s with now := 20 }) = [(.s 3, sval 0x4008000000000000)]) := by and_intros <;> decide +kernel
/-- R28: an exact zero of XA.RND under rounding down is -0. -/
theorem test_xa_zero : results (exec (.xaRnd h0 .f64 .rdn 0 3) (tS id (fun t => { t with xas := t.xas.set 0 { xa0 0 0 0 with n := 0 } }) id)) =
    [(.s 3, sval 0x8000000000000000)] := by decide +kernel
/-- R217: a signed load of two bytes. -/
theorem test_ld_sign : results (exec (.ld h0 .b2 .slot .rlx true 3 1 0) (tS (fun c => { c with s := c.s.set 1 6 }) (fun t => { t with sp := [(6, 0xFE), (7, 0xFF)] }) id)) =
    [(.s 3, sval (-2))] := by decide
/-- R217: a store of four bytes writes no fifth. -/
theorem test_st : (tileAt (next (exec (.st h0 .b4 .slot .rlx 1 2 0) (tR 8 0x1122334455 0 0 0))) ⟨0, 0⟩).sp = [(8, 0x55), (9, 0x44), (10, 0x33), (11, 0x22)] := by decide
/-- R225: a signal saturates and sets the overflow bit. -/
theorem test_sem_sig : semAt (tileAt (next (exec (.semSig h0 5 1) (tS (fun c => { c with s := c.s.set 1 2 }) (fun t => setSem t 5 ⟨0xFFFFFFFE, false⟩) id))) ⟨0, 0⟩) 5 =
    ⟨0xFFFFFFFF, true⟩ := by decide
/-- R225: a wait takes its threshold. -/
theorem test_sem_wait_dec : semAt (tileAt (next (exec (.semWait h0 5 true 1) (tS (fun c => { c with s := c.s.set 1 2 }) (fun t => setSem t 5 ⟨7, false⟩) id))) ⟨0, 0⟩) 5 = ⟨5, false⟩ := by decide
/-- A request of a slot, as one lands at the controller of tile 0. -/
def rq (tile slot : Nat) (pa : Nat) (op : MemOp) : MemReq := ⟨⟨⟨0, tile, slot⟩, 1, 7⟩, 0, pa, BitVec.ofNat 64 pa, 1, op, false, none, true, false⟩
/-- R243: stores of one merge step are performed in the order of their issuers. -/
theorem test_merge_order : cellsRead (next (exec (.memoryMergeStep ⟨0, 0⟩ none) { State.reset with ctrls := [(0, { landed :=
      [rq 12 1 0x10004 (.store (bytesOfNat 4 0x22222222)), rq 10 3 0x10000 (.store (bytesOfNat 8 0x1111111111111111))] })] })).mem 0x10000 8 =
    bytesOfNat 8 0x2222222211111111 := by decide +kernel
/-- R247: the window's updates of a float word in the order of their issuers. -/
theorem test_atom_det_window : cellsRead (next (exec (.atomDetWindowApply ⟨0, 0⟩ 0) { State.reset with
      now := 163, mem := [(0x10002, 0x80), (0x10003, 0x4B)], ctrls := [(0, { win := some (0, 163,
      [rq 5 2 0x10000 (.atomDet .fadd32 4 0x3F800000), rq 3 0 0x10000 (.atomDet .fadd32 4 0x3F800000), rq 3 4 0x10000 (.atomDet .fadd32 4 0x40000000)]) })] })).mem 0x10000 4 =
    bytesOfNat 4 0x4B800002 := by decide +kernel
/-- R332: on tile 1317 cycle 4736 begins a refresh window. -/
theorem test_refresh : refreshPhase { State.reset with now := 4736 } ⟨0, 1317⟩ = 0 := by decide +kernel
/-- R320 to R322: the calendar of four packages in a ring. -/
theorem test_calendar : (decompose { State.reset with shape := (4, 1, 1) } 129 [((0, 2), 3), ((1, 3), 3), ((3, 1), 2), ((0, 1), 1), ((2, 0), 1)] []).1 =
    [([(0, 2), (2, 0)], 1), ([(1, 3), (3, 1)], 1), ([(0, 2)], 1), ([(1, 3), (3, 1)], 1), ([(0, 1), (1, 3)], 1), ([(0, 2)], 1)] := by decide +kernel
/-- R286: the program of min-plus is valid. -/
theorem test_program : progOk 0x624441 = true := by decide
/-- R193: after reset TURN.GET.own of slot 3 reads no free turn, MAX 16, MIN 1 and turn 3 twice. -/
theorem test_turn_get : results (exec (.turnGet h0 .own 4 1) (tR 3 0 0 0 0)) = [(.s 4, sval 0x0000100100080008)] := by decide +kernel
/-- R314: a tile that resets begins a new incarnation. -/
theorem test_tile_reset : (tileAt (next (exec (.tileReset ⟨0, 5⟩) (modTile State.reset ⟨0, 5⟩ fun t => { t with inc := 255 }))) ⟨0, 5⟩).inc = 0 := by decide +kernel
/-- R255: a size of 65 bytes counts 128, one of more than 1 MiB counts whole pages. -/
theorem test_heap_class : heapClass 65 = 128 ∧ heapClass 1 = 64 ∧ heapClass (2 ^ 20 + 1) = 17 * 65536 := by decide +kernel
theorem test_add_wraps : results (exec (.add h0 3 1 2) (tR 0xFFFFFFFFFFFFFFFF 2 0 0 0)) = [(.s 3, sval 1)] := by decide
theorem test_addsat : results (exec (.addsatImm h0 4 3 0x20) (tR 0 0 0x7FFFFFFFFFFFFFF0 0 0)) = [(.s 4, sval 0x7FFFFFFFFFFFFFFF)] := by decide
theorem test_vadd : results (exec (.vadd h0 .f32 .rne ⟨0,false⟩ 1 2 3) (tR 0 0 0x7FFFFFFFFFFFFFF0 0 0)) = [(.v 1, 0#2048)] := by decide +kernel
theorem test_trap : (after (exec (.trap h0 0x2A) (tR 0 0 0 0 0))).cause = 0x8000000000000020 := by decide

/-- R42: a write before the launch leaves a fetch no choice. -/
theorem test_code_since : (codeWords 5 1 0 { State.reset with mem := [(0, 9)], oldWords := [(0, 7, 5)] }).2 = [9, 0, 0, 0] ∧
    (codeWords 4 1 0 { State.reset with mem := [(0, 9)], oldWords := [(0, 7, 5)] }).1.freeCtr = 1 := by and_intros <;> decide +kernel
/-- R227: two tiles whose arms have different K do not agree. -/
theorem test_arms_disagree :
    let x : Barrier := { armed := true, w := 2, h := 1, k := 1 }
    let s (k : Nat) : State := modBar (modBar State.reset ⟨0, 0⟩ 95 fun _ => x) ⟨0, 1⟩ 95 fun _ => { x with k := k }
    barAgree (s 2) ⟨0, 0⟩ 95 = false ∧ barAgree (s 1) ⟨0, 0⟩ 95 = true := by and_intros <;> decide +kernel
end Sys2Proof.Tests
end

section
/-! The matrix forms (R12, R266, R278 to R288): what claiming the engine leaves alone, what a form does by the answer that its own part gives,
and each form. -/

namespace Sys2Proof.Machine

/-! ### Claiming the matrix engine -/

/-- Claiming the engine changes nothing, or the engine without its queue and the count of free values. -/
theorem takeMatrix_cases (s : State) (r : SlotRef) (c : Ctx) :
    takeMatrix s r c = s ∨
      ∃ m k, takeMatrix s r c = { modMx s r.node (fun _ => m) with freeCtr := k } ∧ m.cmds = (tileAt s r.node).mx.cmds := by
  unfold takeMatrix
  simp only
  split
  · exact .inl rfl
  · right
    split
    · exact ⟨_, s.freeCtr, rfl, rfl⟩
    · exact ⟨_, _, rfl, rfl⟩
theorem takeMatrix_rest (s : State) (r : SlotRef) (c : Ctx) : { takeMatrix s r c with tiles := s.tiles, freeCtr := s.freeCtr } = s := by
  obtain e | ⟨m, k, e, -⟩ := takeMatrix_cases s r c
  · rw [e]
  · rw [e]; rfl
@[simp] theorem takeMatrix_no (s : State) (r : SlotRef) (c : Ctx) : (takeMatrix s r c).no = s.no := (congrArg State.no (takeMatrix_rest s r c) :)
@[simp] theorem takeMatrix_cur (s : State) (r : SlotRef) (c : Ctx) : (takeMatrix s r c).cur = s.cur := (congrArg State.cur (takeMatrix_rest s r c) :)
@[simp] theorem takeMatrix_now (s : State) (r : SlotRef) (c : Ctx) : (takeMatrix s r c).now = s.now := (congrArg State.now (takeMatrix_rest s r c) :)
@[simp] theorem takeMatrix_pkgs (s : State) (r : SlotRef) (c : Ctx) : (takeMatrix s r c).pkgs = s.pkgs := (congrArg State.pkgs (takeMatrix_rest s r c) :)
/-- Of the tile, nothing but the engine. -/
theorem tileAt_takeMatrix (s : State) (r : SlotRef) (c : Ctx) :
    { tileAt (takeMatrix s r c) r.node with mx := (tileAt s r.node).mx } = tileAt s r.node := by
  obtain e | ⟨m, k, e, -⟩ := takeMatrix_cases s r c <;> rw [e]
  show { tileAt (modMx s r.node fun _ => m) r.node with mx := (tileAt s r.node).mx } = _
  unfold modMx
  rw [tileAt_modTile_self]
@[simp] theorem takeMatrix_tds (s : State) (r : SlotRef) (c : Ctx) : (tileAt (takeMatrix s r c) r.node).tds = (tileAt s r.node).tds :=
  (congrArg Tile.tds (tileAt_takeMatrix s r c) :)
@[simp] theorem takeMatrix_tdAt (s : State) (r : SlotRef) (c : Ctx) (i : Nat) :
    tdAt (tileAt (takeMatrix s r c) r.node) i = tdAt (tileAt s r.node) i := by rw [tdAt, tdAt, takeMatrix_tds]
@[simp] theorem takeMatrix_errs (s : State) (r : SlotRef) (c : Ctx) : (tileAt (takeMatrix s r c) r.node).errs = (tileAt s r.node).errs :=
  (congrArg Tile.errs (tileAt_takeMatrix s r c) :)
@[simp] theorem takeMatrix_cmds (s : State) (r : SlotRef) (c : Ctx) :
    cmdsOf (tileAt (takeMatrix s r c) r.node) true = cmdsOf (tileAt s r.node) true := by
  obtain e | ⟨m, k, e, hm⟩ := takeMatrix_cases s r c <;> rw [e]
  show (tileAt (modMx s r.node fun _ => m) r.node).mx.cmds = _
  unfold modMx
  rw [tileAt_modTile_self]
  exact hm
theorem slotAt_modMx (s : State) (n : Node) (f : Matrix → Matrix) (r : SlotRef) : slotAt (modMx s n f) r = slotAt s r :=
  slotAt_modTile_keep s n _ r rfl
@[simp] theorem slotAt_takeMatrix (s : State) (r : SlotRef) (c : Ctx) (q : SlotRef) : slotAt (takeMatrix s r c) q = slotAt s q := by
  obtain e | ⟨m, k, e, -⟩ := takeMatrix_cases s r c <;> rw [e]
  exact slotAt_modMx s r.node (fun _ => m) q

/-! ### What a matrix form does by the answer of its own part -/

/-- The unit that issues may use the matrix engine: its tile is no spout, and its slot holds the role (R12, R266). -/
def HoldsMatrix (s : State) : Prop := isSpout s.cur.tile = false ∧ (here s).matRole = some (s.cur.slot, (me s).uid)
/-- The state against which a matrix form is checked. -/
abbrev matrixTaken (s : State) : State := takeMatrix s s.cur (me s)
/-- The engine of the tile in that state. -/
abbrev matrixHere (s : State) : Matrix := (tileAt (matrixTaken s) s.cur.node).mx
/-- The answers of a matrix form to a unit that may not use the engine (R12, R266). -/
def MatrixGuarded (s : State) (o : Outc) : Prop :=
  (isSpout s.cur.tile = true → Faults s 0x01 0 0 o) ∧
  (isSpout s.cur.tile = false → (here s).matRole ≠ some (s.cur.slot, (me s).uid) → Faults s 0x03 0 0 o)
/-- A form faults for a descriptor, with a reason and its index (R265). -/
def FaultsTd (s : State) (k : Nat × Nat) (o : Outc) : Prop := Faults s 0x16 0 (BitVec.ofNat 64 (k.1 + k.2 * 2 ^ 8)) o
/-- A descriptor of the tile is installed (R260). -/
def TdHeld (s : State) (a : DIx) : Prop := ahas (here s).tds a.toNat = true
/-- The outcome of a matrix form that is ready: it is run, and its own part is g, on the state in which the engine is claimed. -/
structure MatrixForm (s : State) (f : Form) (g : State → Act) (o : Outc) : Prop where
  ready : Ready s f.h f.srcs f.dsts f.rgn
  runs : ∃ body, o = runForm f body s ∧ body s s.cur (me s) = mxAct g s s.cur (me s)

theorem MatrixForm.intro {s : State} {f : Form} {g : State → Act} {o : Outc} {body : State → SlotRef → Ctx → Act} (e : o = runForm f body s)
    (k : body s s.cur (me s) = mxAct g s s.cur (me s)) (h : Ready s f.h f.srcs f.dsts f.rgn) : MatrixForm s f g o := ⟨h, body, e, k⟩

theorem mxAct_holds {s : State} (hold : HoldsMatrix s) (g : State → Act) : mxAct g s s.cur (me s) = g (matrixTaken s) := by
  obtain ⟨spout, role⟩ := hold
  simp only [mxAct, spout, role, Bool.false_eq_true, if_false, ne_eq, not_true_eq_false]
/-- With 16 commands in the queue a form that would add one waits (R266, R76). -/
theorem mxEnqueue_full {s : State} {sync : ESync} {fn : Nat} {kind : EngKind} {q : State → State} (full : 16 ≤ (cmdsOf (here s) true).length) :
    mxEnqueue (matrixTaken s) s.cur (me s) sync fn kind q = .retry .cond 0 0 0 := by
  rw [mxEnqueue, enqueue, takeMatrix_cmds]
  exact if_pos full
/-- With fewer, its command is the last of the queue (R266, R267). -/
theorem mxEnqueue_room {s : State} {sync : ESync} {fn : Nat} {kind : EngKind} {q : State → State} (room : (cmdsOf (here s) true).length < 16) :
    mxEnqueue (matrixTaken s) s.cur (me s) sync fn kind q =
      .done (askEngine (q (queued (matrixTaken s) true (newCmd s sync fn kind))) s.cur.node true) := by
  rw [mxEnqueue, enqueue, takeMatrix_cmds]
  refine (if_neg (Nat.not_le.2 room)).trans ?_
  simp only [queued, newCmd, takeMatrix_no, takeMatrix_cur]
/-- A descriptor is captured from the table, whose array holds no error (R264, R265). -/
theorem capture_taken {s : State} (clean : (here s).errs = []) (a : DIx) (t : State → TDesc → Act) :
    capture (matrixTaken s) s.cur (me s) a t = if ahas (here s).tds a.toNat then t (matrixTaken s) (tdHere s a) else badAct (16, a.toNat) := by
  have none : errSites (tileAt (matrixTaken s) s.cur.node) 5 (a.toNat * 64 + 0) (a.toNat * 64 + 0 + 64) = [] := by
    simp [errSites, takeMatrix_errs, clean]
  rw [capture, tdFind, arrayFind, if_pos none, takeMatrix_tds, takeMatrix_tdAt, tdHere]
  cases ahas (tileAt s s.cur.node).tds a.toNat <;> rfl

section
variable {s : State} {f : Form} {g : State → Act} {o : Outc} (m : MatrixForm s f g o)
include m

theorem MatrixForm.guarded : MatrixGuarded s o := by
  obtain ⟨ready, body, rfl, k⟩ := m
  refine ⟨fun spout => runForm_trap f body s _ _ _ ready ?_, fun spout role => runForm_trap f body s _ _ _ ready ?_⟩
  · rw [k, mxAct, if_pos spout]; rfl
  · rw [k, mxAct, spout, if_neg Bool.false_ne_true, if_pos role]; rfl
theorem MatrixForm.faults {code : Nat} {va aux : Word} (hold : HoldsMatrix s) (e : g (matrixTaken s) = .trap code va aux) :
    Faults s code va aux o := by
  obtain ⟨ready, body, rfl, k⟩ := m
  exact runForm_trap f body s _ _ _ ready (by rw [k, mxAct_holds hold, e])
theorem MatrixForm.faultsTd {k : Nat × Nat} (hold : HoldsMatrix s) (e : g (matrixTaken s) = badAct k) : FaultsTd s k o := m.faults hold e
/-- A command that passes its checks enters the queue behind those there, or waits while 16 are. -/
theorem MatrixForm.queues {sync : ESync} {fn : Nat} {kind : EngKind} {q : State → State} (hold : HoldsMatrix s)
    (e : g (matrixTaken s) = mxEnqueue (matrixTaken s) s.cur (me s) sync fn kind q) :
    Queues s (matrixTaken s) f.h f.i true sync fn kind q o := by
  obtain ⟨ready, body, rfl, k⟩ := m
  rw [mxAct_holds hold, e] at k
  exact ⟨fun full => runForm_cond f body s 0 0 0 ready (k.trans (mxEnqueue_full full)),
    fun room => runForm_done f body s _ ready (k.trans (mxEnqueue_room room))⟩
/-- A form that captures a descriptor faults where it is cleared. -/
theorem MatrixForm.cleared {a : DIx} {t : State → TDesc → Act} (hold : HoldsMatrix s)
    (e : g (matrixTaken s) = capture (matrixTaken s) s.cur (me s) a t) (clear : ¬ TdHeld s a) : FaultsTd s (16, a.toNat) o :=
  m.faultsTd hold (e.trans ((capture_taken m.ready.clean a t).trans (if_neg clear)))
/-- Otherwise it goes on with the descriptor. -/
theorem MatrixForm.captured {a : DIx} {t : State → TDesc → Act} {x : Act}
    (e : g (matrixTaken s) = capture (matrixTaken s) s.cur (me s) a t) (held : TdHeld s a) (k : t (matrixTaken s) (tdHere s a) = x) :
    g (matrixTaken s) = x :=
  e.trans (((capture_taken m.ready.clean a t).trans (if_pos held)).trans k)
/-- A form that reads a word of the state s1, which is the claimed one but for the engine, completes with it. -/
theorem MatrixForm.reads {s1 : State} {ws : List (Reg × VVal)} (hold : HoldsMatrix s) (e : g (matrixTaken s) = results s1 s.cur (me s) [] 3 ws)
    (k : s1.cur = s.cur ∧ s1.now = s.now ∧ s1.pkgs = s.pkgs) (b : slotAt s1 s.cur = slotAt s s.cur) :
    ResultsFrom s s1 (me s) f.h [] 3 ws o := by
  obtain ⟨ready, body, rfl, eb⟩ := m
  have ctx : ctxAt s1 s.cur = me s := congrArg Slot.ctx b
  rw [← ctx]
  exact runForm_resultsFrom f body s s1 3 [] ws ready (eb.trans ((mxAct_holds hold g).trans e)) k (by rw [b]; exact ready.bound)
    (by rw [ctx]; exact ⟨rfl, rfl, rfl, rfl⟩)
end

/-! ### Streams and convolutions (R278, R279, R282) -/

/-- The plane from which a stream that issues will take its weights (R279). -/
abbrev planeHere (s : State) : Plane := ((matrixHere s).issPlanes[(matrixHere s).issActive]?).getD {}
/-- The first row to accumulate into whose mode, as it will be, is not the mode of the stream (R278). -/
abbrev modeClash (s : State) (acc : Bool) (r n : Nat) (int : Bool) : Option Nat :=
  if acc then (rowSpan r n).find? fun t => (matrixHere s).issInt.contains t != int else none
/-- How a stream or convolution ends whose own checks hold: its plane, its modes and its rows are checked as they will be when it starts,
and its command enters the queue, with the modes of the rows that it writes (R278, R279, R282). -/
def StreamEnds (s : State) (h : Hdr) (i : Instr) (sync : ESync) (fn : Nat) (kind : EngKind) (d : TDesc) (a : DIx) (r : Nat)
    (acc : Bool) (o : Outc) : Prop :=
  let m := matrixHere s
  let p := planeHere s
  let n := streamRows kind
  (p.loaded = false → FaultsTd s (16, a.toNat) o) ∧ (p.loaded = true → d.extent 0 ≠ p.k → FaultsTd s (20, a.toNat) o) ∧
  (p.loaded = true → d.extent 0 = p.k → pairUnder m.issUon m.issUty d.type p.type = none → FaultsTd s (19, a.toNat) o) ∧
  ∀ ak depth, p.loaded = true → d.extent 0 = p.k → pairUnder m.issUon m.issUty d.type p.type = some (ak, depth) →
    let clash := modeClash s acc r n (decide (ak = .int))
    (depth < p.k → FaultsTd s (18, a.toNat) o) ∧ (p.k ≤ depth → (n = 0 ∨ 512 < r + n) → Faults s 0x03 0 0 o) ∧
    (p.k ≤ depth → n ≠ 0 → r + n ≤ 512 →
      (∀ t, clash = some t → Faults s 0x03 0 (BitVec.ofNat 64 t) o) ∧
      (clash = none → Queues s (matrixTaken s) h i true sync fn kind (fun z => if acc then z else
        modMx z s.cur.node fun m => trackRows m r n (decide (ak = .int))) o))

section
variable {s : State} {sync : ESync} {fn : Nat} {kind : EngKind} {d : TDesc} {a : DIx} {r : Nat} {acc : Bool}

/-- A stream on the state in which the engine is claimed. -/
abbrev streamHere (s : State) (sync : ESync) (fn : Nat) (kind : EngKind) (d : TDesc) (a : DIx) (r : Nat) (acc : Bool) : Act :=
  streamAct sync fn kind d a r acc (matrixTaken s) s.cur (me s)
theorem streamHere_unloaded (l : (planeHere s).loaded = false) : streamHere s sync fn kind d a r acc = badAct (16, a.toNat) := by
  simp [streamAct, l]
theorem streamHere_unequal (l : (planeHere s).loaded = true) (x : d.extent 0 ≠ (planeHere s).k) :
    streamHere s sync fn kind d a r acc = badAct (20, a.toNat) := by
  simp [streamAct, l, x]
theorem streamHere_unpaired (l : (planeHere s).loaded = true) (x : d.extent 0 = (planeHere s).k)
    (p : pairUnder (matrixHere s).issUon (matrixHere s).issUty d.type (planeHere s).type = none) :
    streamHere s sync fn kind d a r acc = badAct (19, a.toNat) := by
  simp [streamAct, l, x, p]
/-- Where the types pair, the depth, the rows and their modes are left to check. -/
theorem streamHere_paired {ak : AccKind} {depth : Nat} (l : (planeHere s).loaded = true) (x : d.extent 0 = (planeHere s).k)
    (p : pairUnder (matrixHere s).issUon (matrixHere s).issUty d.type (planeHere s).type = some (ak, depth)) :
    streamHere s sync fn kind d a r acc =
      if depth < (planeHere s).k then badAct (18, a.toNat)
      else if streamRows kind = 0 ∨ 512 < r + streamRows kind then .trap fOperand 0 0
      else match modeClash s acc r (streamRows kind) (decide (ak = .int)) with
        | some t => .trap fOperand 0 (BitVec.ofNat 64 t)
        | none => mxEnqueue (matrixTaken s) s.cur (me s) sync fn kind fun z => if acc then z else
            modMx z s.cur.node fun m => trackRows m r (streamRows kind) (decide (ak = .int)) := by
  simp only [streamAct, l, x, p, Bool.not_true, Bool.false_eq_true, if_false, ne_eq, not_true_eq_false] <;> rfl
theorem MatrixForm.streams {f : Form} {g : State → Act} {o : Outc} (m : MatrixForm s f g o) (hold : HoldsMatrix s)
    (e : g (matrixTaken s) = streamHere s sync fn kind d a r acc) : StreamEnds s f.h f.i sync fn kind d a r acc o := by
  refine ⟨fun l => m.faultsTd hold (e.trans (streamHere_unloaded l)), fun l x => m.faultsTd hold (e.trans (streamHere_unequal l x)),
    fun l x p => m.faultsTd hold (e.trans (streamHere_unpaired l x p)), fun ak depth l x p => ?_⟩
  replace e := e.trans (streamHere_paired l x p)
  refine ⟨fun deep => m.faultsTd hold (e.trans (if_pos deep)), fun fits rows => m.faults hold ?_, fun fits nonempty inside => ?_⟩
  · exact e.trans ((if_neg (Nat.not_lt.2 fits)).trans (if_pos rows))
  replace e := e.trans ((if_neg (Nat.not_lt.2 fits)).trans (if_neg (by omega)))
  exact ⟨fun t k => m.faults hold (by rw [e, k]; rfl), fun k => m.queues hold (by rw [e, k])⟩
end

/-! ### The forms (R280 to R286, R288) -/

section
variable {s : State} {h : Hdr} {sync : ESync} {row0 : BitVec 9} {a : DIx}

/-- The answers of a form that first captures a descriptor. -/
def MatrixCaptures (s : State) (a : DIx) (o : Outc) : Prop :=
  MatrixGuarded s o ∧ (HoldsMatrix s → ¬ TdHeld s a → FaultsTd s (16, a.toNat) o)

/-- MX.LDS (R281). -/
theorem exec_mxLds (hr : Ready s h [] [] false) :
    let d := tdHere s a
    let i := Instr.mxLds h sync a
    let checks := firstBad [(d.loc ≠ 0, 17, a.toNat), (!weightType d.type, 19, a.toNat),
      (d.rank ≠ 2 || 64 < d.extent 1 || depthOf d.type < d.extent 0, 18, a.toNat)]
    MatrixCaptures s a (exec i s) ∧ (HoldsMatrix s → TdHeld s a → ∀ k, checks = some k → FaultsTd s k (exec i s)) ∧
    (HoldsMatrix s → TdHeld s a → checks = none → Queues s (matrixTaken s) h i true sync 0 (.lds d) (fun z => modMx z s.cur.node fun m =>
      { m with issPlanes := m.issPlanes.zipIdx.map fun (p, j) =>
          if j = 1 - m.issActive then { p with loaded := true, ty := d.ty, k := d.extent 0, n := d.extent 1 } else p }) (exec i s)) := by
  have m := MatrixForm.intro (rfl : exec (.mxLds h sync a) s = runForm _ _ s) rfl hr
  exact ⟨⟨m.guarded, fun hold => m.cleared hold rfl⟩, fun hold held k bad => m.faultsTd hold (m.captured rfl held (by rw [bad])),
    fun hold held ok => m.queues hold (m.captured rfl held (by rw [ok]))⟩
/-- MX.SWAP (R279, R281). -/
theorem exec_mxSwap (hr : Ready s h [] [] false) :
    let i := Instr.mxSwap h sync
    MatrixGuarded s (exec i s) ∧ (HoldsMatrix s → Queues s (matrixTaken s) h i true sync 1 .swap
      (fun z => modMx z s.cur.node fun m => { m with issActive := 1 - m.issActive }) (exec i s)) := by
  have m := MatrixForm.intro (rfl : exec (.mxSwap h sync) s = runForm _ _ s) rfl hr
  exact ⟨m.guarded, fun hold => m.queues hold rfl⟩
/-- MX.STREAM (R282). -/
theorem exec_mxStream {acc : Bool} (hr : Ready s h [] [] false) :
    let d := tdHere s a
    let i := Instr.mxStream h sync row0 acc a
    MatrixCaptures s a (exec i s) ∧ (HoldsMatrix s → TdHeld s a → d.loc ≠ 0 → FaultsTd s (17, a.toNat) (exec i s)) ∧
    (HoldsMatrix s → TdHeld s a → d.loc = 0 → StreamEnds s h i sync 2 (.stream d row0.toNat acc) d a row0.toNat acc (exec i s)) := by
  have m := MatrixForm.intro (rfl : exec (.mxStream h sync row0 acc a) s = runForm _ _ s) rfl hr
  exact ⟨⟨m.guarded, fun hold => m.cleared hold rfl⟩, fun hold held away => m.faultsTd hold (m.captured rfl held (if_pos away)),
    fun hold held near => m.streams hold (m.captured rfl held (if_neg (not_not.2 near)))⟩
/-- MX.CONV (R283): its rows are checked before its descriptor. -/
theorem exec_mxConv {acc : Bool} {b : SIx} (hr : Ready s h [.s b] [] false) :
    let d := tdHere s a
    let i := Instr.mxConv h sync row0 acc a b
    let checks := firstBad [(d.loc ≠ 0, 17, a.toNat), (d.rank ≠ 4, 18, a.toNat), (d.oh = 0, 21, a.toNat)]
    let rows := convRows (rs (me s) b)
    let inside := rows ≠ 0 ∧ row0.toNat + rows ≤ 512
    MatrixGuarded s (exec i s) ∧ (HoldsMatrix s → ¬ inside → Faults s 0x03 0 0 (exec i s)) ∧
    (HoldsMatrix s → inside → ¬ TdHeld s a → FaultsTd s (16, a.toNat) (exec i s)) ∧
    (HoldsMatrix s → inside → TdHeld s a → ∀ k, checks = some k → FaultsTd s k (exec i s)) ∧
    (HoldsMatrix s → inside → TdHeld s a → checks = none →
      StreamEnds s h i sync 3 (.conv d row0.toNat acc (rs (me s) b)) d a row0.toNat acc (exec i s)) := by
  have m := MatrixForm.intro (rfl : exec (.mxConv h sync row0 acc a b) s = runForm _ _ s) rfl hr
  have outside {n : Nat} (k : ¬ (n ≠ 0 ∧ row0.toNat + n ≤ 512)) : n = 0 ∨ 512 < row0.toNat + n := by omega
  have inside {n : Nat} (k : n ≠ 0 ∧ row0.toNat + n ≤ 512) : ¬ (n = 0 ∨ 512 < row0.toNat + n) := by omega
  exact ⟨m.guarded, fun hold k => m.faults hold (if_pos (outside k)), fun hold k => m.cleared hold (if_neg (inside k)),
    fun hold k held _ bad => m.faultsTd hold (m.captured (if_neg (inside k)) held (by rw [bad])),
    fun hold k held ok => m.streams hold (m.captured (if_neg (inside k)) held (by rw [ok]))⟩
/-- MX.DRAIN to a v register (R284). -/
theorem exec_mxDrainV {rm : Rm} {clr : Bool} {vt : Vt} {v : VIx} (hr : Ready s h [] [.v v] false) :
    let i := Instr.mxDrainV h sync row0 rm clr vt v
    let rm' := resolveRm rm (me s).rmode
    MatrixGuarded s (exec i s) ∧ (HoldsMatrix s → Queues s (matrixTaken s) h i true sync 4 (.drainV v row0.toNat rm' clr vt (me s).seed)
      (fun z => modCtx (reserveDraws z s.cur rm' 64) s.cur fun c => setPres c (.v v) .pending) (exec i s)) := by
  have m := MatrixForm.intro (rfl : exec (.mxDrainV h sync row0 rm clr vt v) s = runForm _ _ s) rfl hr
  exact ⟨m.guarded, fun hold => m.queues hold rfl⟩
/-- MX.DRAIN to a descriptor (R280, R284). -/
theorem exec_mxDrainD {rm : Rm} {clr : Bool} {tqt : Tqt} (hr : Ready s h [] [] false) :
    let d := tdHere s a
    let i := Instr.mxDrainD h sync row0 rm clr tqt a
    let rm' := resolveRm rm (me s).rmode
    let checks := firstBad [(d.loc ≠ 0, 17, a.toNat), (2 < d.rank || 64 < d.extent 0, 18, a.toNat), (!drainType d.type, 19, a.toNat)]
    MatrixCaptures s a (exec i s) ∧ (HoldsMatrix s → TdHeld s a → ∀ k, checks = some k → FaultsTd s k (exec i s)) ∧
    (HoldsMatrix s → TdHeld s a → checks = none → tqt ≠ .int → d.type ≠ .tq4 → Faults s 0x02 0 0 (exec i s)) ∧
    (HoldsMatrix s → TdHeld s a → checks = none → (tqt = .int ∨ d.type = .tq4) →
      (512 < row0.toNat + d.extent 1 → Faults s 0x03 0 0 (exec i s)) ∧
      (row0.toNat + d.extent 1 ≤ 512 → Queues s (matrixTaken s) h i true sync 4 (.drainD d row0.toNat rm' clr tqt (me s).seed)
        (fun z => if d.type.isBlock then z else reserveDraws z s.cur rm' (d.extent 0 * d.extent 1)) (exec i s))) := by
  have m := MatrixForm.intro (rfl : exec (.mxDrainD h sync row0 rm clr tqt a) s = runForm _ _ s) rfl hr
  refine ⟨⟨m.guarded, fun hold => m.cleared hold rfl⟩, fun hold held k bad => m.faultsTd hold (m.captured rfl held (by rw [bad])),
    fun hold held ok scaled plain => m.faults hold (m.captured rfl held ?_), fun hold held ok typed => ?_⟩
  · rw [ok]; exact if_pos ⟨scaled, plain⟩
  have typed' : ¬ (tqt ≠ .int ∧ (tdHere s a).type ≠ .tq4) := by rwa [not_and_or, not_not, not_not]
  refine ⟨fun beyond => m.faults hold (m.captured rfl held ?_), fun inside => m.queues hold (m.captured rfl held ?_)⟩
  · rw [ok]; exact (if_neg typed').trans (if_pos beyond)
  · rw [ok]; exact (if_neg typed').trans (if_neg (Nat.not_lt.2 inside))
/-- MX.CLR (R285). -/
theorem exec_mxClr {int : Bool} {fill : Fill} {b : SIx} (hr : Ready s h [.s b] [] false) :
    let i := Instr.mxClr h sync row0 int fill b
    let k := (rs (me s) b).toNat
    let r := row0.toNat
    MatrixGuarded s (exec i s) ∧ (HoldsMatrix s → (k < 1 ∨ 512 < r + k) → Faults s 0x03 0 0 (exec i s)) ∧
    (HoldsMatrix s → 1 ≤ k → r + k ≤ 512 → Queues s (matrixTaken s) h i true sync 5 (.clear r k int fill)
      (fun z => modMx z s.cur.node fun m => trackRows m r k int) (exec i s)) := by
  have m := MatrixForm.intro (rfl : exec (.mxClr h sync row0 int fill b) s = runForm _ _ s) rfl hr
  exact ⟨m.guarded, fun hold out => m.faults hold (if_pos out), fun hold nonempty inside => m.queues hold (if_neg (by omega))⟩
/-- MX.UPROG (R286). -/
theorem exec_mxUprog {on uty : Bool} {b : SIx} (hr : Ready s h [.s b] [] false) :
    let i := Instr.mxUprog h sync on uty b
    MatrixGuarded s (exec i s) ∧ (HoldsMatrix s → on = true → progOk (rs (me s) b) = false → Faults s 0x03 0 0 (exec i s)) ∧
    (HoldsMatrix s → (on = false ∨ progOk (rs (me s) b) = true) → Queues s (matrixTaken s) h i true sync 6 (.uprog on uty (rs (me s) b))
      (fun z => modMx z s.cur.node fun m => { m with issUon := on, issUty := uty }) (exec i s)) := by
  have m := MatrixForm.intro (rfl : exec (.mxUprog h sync on uty b) s = runForm _ _ s) rfl hr
  refine ⟨m.guarded, fun hold set bad => m.faults hold (if_pos ?_), fun hold ok => m.queues hold (if_neg ?_)⟩
  · rw [set, bad]; rfl
  · rcases ok with off | valid
    · rw [off]; exact Bool.false_ne_true
    · rw [valid, Bool.not_true, Bool.and_false]; exact Bool.false_ne_true
/-- A status word of the engine (Table 12, R288). -/
def matrixWord (m : Matrix) : MxW → Word
  | .state => BitVec.ofNat 64 (mxState m)
  | .over => BitVec.ofNat 64 m.overrun
  | .resume => m.resume
/-- MX.STAT (R288): it clears the flags and the overrun count where it says so, but for the resume record. -/
theorem exec_mxStat {w : MxW} {clr : Bool} {x : SIx} (hr : Ready s h [] [.s x] false) :
    let i := Instr.mxStat h w clr x
    MatrixGuarded s (exec i s) ∧
    (HoldsMatrix s → ResultsFrom s (if clr = true ∧ w ≠ .resume then modMx (matrixTaken s) s.cur.node fun m =>
        { m with flags := 0, sat := false, overrun := 0 } else matrixTaken s)
      (me s) h [] 3 [(.s x, sval (matrixWord (matrixHere s) w))] (exec i s)) := by
  have m := MatrixForm.intro (rfl : exec (.mxStat h w clr x) s = runForm _ _ s) rfl hr
  refine ⟨m.guarded, fun hold => ?_⟩
  by_cases clears : clr = true ∧ w ≠ .resume
  · rw [if_pos clears]
    refine m.reads hold ?_ ⟨takeMatrix_cur .., takeMatrix_now .., takeMatrix_pkgs ..⟩ ((slotAt_modMx ..).trans (slotAt_takeMatrix ..))
    simp only [Bool.and_eq_true, decide_eq_true_eq, if_pos clears]
    cases w <;> rfl
  · rw [if_neg clears]
    refine m.reads hold ?_ ⟨takeMatrix_cur .., takeMatrix_now .., takeMatrix_pkgs ..⟩ (slotAt_takeMatrix ..)
    simp only [Bool.and_eq_true, decide_eq_true_eq, if_neg clears]
    cases w <;> rfl
end

/-- Settles O49, form by form: each answers by its own part, run on the state in which the engine is claimed. -/
theorem matrixFormsQueueTheirCommands : Obligations.MatrixFormsQueueTheirCommands := by
  intro s h sync row0 acc clr int on uty rm vt tqt fill a b x v w
  exact ⟨fun hr => ⟨exec_mxLds hr, exec_mxSwap hr, exec_mxStream hr, exec_mxDrainD hr⟩,
    fun hr => ⟨exec_mxConv hr, exec_mxClr hr, exec_mxUprog hr⟩, fun hr => exec_mxDrainV hr, fun hr => exec_mxStat hr⟩

end Sys2Proof.Machine
end

section
/-! The special registers (R99, R342): what MFSR reads, what MTSR accepts, and what it writes. -/

namespace Sys2Proof.Machine

section
variable {s : State} {h : Hdr} {d a : SIx} {n : SpReg}

/-! ### What the forms do with the value of a register -/

/-- MFSR (R99). -/
theorem exec_mfsr (hr : Ready s h [] [.s d] true) : Results s h [] 3 [(.s d, sval (spRead s s.cur (me s) n))] (exec (.mfsr h d n) s) :=
  runForm_results { i := .mfsr h d n, h := h, dsts := [.s d], rgn := true } _ s _ _ _ hr rfl
/-- What MFSR reads, under another name for the value. -/
theorem exec_mfsr_of_eq {v : Word} (hr : Ready s h [] [.s d] true) (e : spRead s s.cur (me s) n = v) :
    Results s h [] 3 [(.s d, sval v)] (exec (.mfsr h d n) s) := e ▸ exec_mfsr hr
/-- The write of a special register is of nothing that completing a form changes. -/
theorem spWrite_keeps_progress (c : Ctx) (x : Word) (n : SpReg) :
    (spWrite c x n).pc = c.pc ∧ (spWrite c x n).issued = c.issued ∧ (spWrite c x n).packet = c.packet ∧
      (spWrite c x n).readyFrom = c.readyFrom := by
  cases n <;> exact ⟨rfl, rfl, rfl, rfl⟩
/-- MTSR of a value that its register accepts writes it (R99). -/
theorem exec_mtsr_accepted {c : Ctx} (hr : Ready s h [.s a] [] false) (e : spWrite (me s) (rs (me s) a) n = c)
    (ok : spAccepts (rs (me s) a) n = true) : UnitOnly s h c (exec (.mtsr h a n) s) := by
  subst e
  have done : DoneIn s h (modCtx s s.cur fun c => spWrite c (rs (me s) a) n) (exec (.mtsr h a n) s) :=
    runForm_done { i := .mtsr h a n, h := h, srcs := [.s a] } _ s _ hr (if_pos ok)
  exact done.onlyCtx hr.bound (spWrite_keeps_progress ..)
/-- MTSR of any other value faults (R342). -/
theorem exec_mtsr_refused (hr : Ready s h [.s a] [] false) (bad : ¬ spAccepts (rs (me s) a) n = true) :
    Faults s 0x03 0 0 (exec (.mtsr h a n) s) :=
  runForm_trap { i := .mtsr h a n, h := h, srcs := [.s a] } _ s _ _ _ hr (if_neg bad)
/-- Of a register that accepts the values of a predicate, MTSR writes those and refuses the others. -/
theorem exec_mtsr_iff {p : Prop} {c : Ctx} (hr : Ready s h [.s a] [] false) (e : spWrite (me s) (rs (me s) a) n = c)
    (k : spAccepts (rs (me s) a) n = true ↔ p) :
    (p → UnitOnly s h c (exec (.mtsr h a n) s)) ∧ (¬ p → Faults s 0x03 0 0 (exec (.mtsr h a n) s)) :=
  ⟨fun hp => exec_mtsr_accepted hr e (k.2 hp), fun hp => exec_mtsr_refused hr fun ok => hp (k.1 ok)⟩
end

/-! ### TURNTAB (R75, Table 9) -/

/-- A turn is of the free pool where no slot owns it. -/
theorem getLsbD_poolOf (t : Tile) {j : Nat} (hj : j < 16) :
    (poolOf t).getLsbD j = t.slots.toList.all fun l => !l.owned.getLsbD j := by
  have fold (l : List Slot) (p : BitVec 16) :
      (l.foldl (fun p x => p &&& ~~~x.owned) p).getLsbD j = (p.getLsbD j && l.all fun x => !x.owned.getLsbD j) := by
    induction l generalizing p with
    | nil => exact (Bool.and_true _).symm
    | cons x l ih => simp only [List.foldl_cons, List.all_cons, ih, BitVec.getLsbD_and, BitVec.getLsbD_not, hj, decide_true, Bool.true_and,
        Bool.and_assoc]
  rw [poolOf, fold, BitVec.getLsbD_allOnes, decide_eq_true hj, Bool.true_and]
/-- TURNTAB is the owned turns below the free pool. -/
theorem spRead_turntab (s : State) (r : SlotRef) (c : Ctx) :
    spRead s r c .turntab = (poolOf (tileAt s r.node) ++ (slotAt s r).owned).setWidth 64 := by
  have lt := (slotAt s r).owned.isLt
  apply BitVec.eq_of_toNat_eq
  rw [spRead, BitVec.toNat_ofNat, BitVec.toNat_setWidth, BitVec.toNat_append, ← Nat.shiftLeft_add_eq_or_of_lt lt, Nat.shiftLeft_eq, Nat.add_comm]
theorem spRead_turntab_bits (s : State) :
    (spRead s s.cur (me s) .turntab).toNat < 2 ^ 32 ∧ ∀ j < 16,
      (spRead s s.cur (me s) .turntab).getLsbD j = (slotAt s s.cur).owned.getLsbD j ∧
      (spRead s s.cur (me s) .turntab).getLsbD (16 + j) = (here s).slots.toList.all fun l => !l.owned.getLsbD j := by
  rw [spRead_turntab]
  refine ⟨?_, fun j hj => ⟨?_, ?_⟩⟩
  · rw [BitVec.toNat_setWidth_of_le (by decide)]
    exact BitVec.isLt _
  · rw [BitVec.getLsbD_setWidth, BitVec.getLsbD_append, if_pos hj, decide_eq_true (by omega), Bool.true_and]
  · rw [← getLsbD_poolOf _ hj, BitVec.getLsbD_setWidth, BitVec.getLsbD_append, if_neg (by omega), decide_eq_true (by omega), Bool.true_and,
      Nat.add_sub_cancel_left]

/-! ### What the registers accept (R25, R31, R41, R342) -/

theorem spAccepts_handler_iff (x : Word) : spAccepts x .handler = true ↔ x.toNat % 4 = 0 ∧ x.toNat < 2 ^ 56 := by
  simp only [spAccepts, targetFault]
  split
  · simp_all
  · split
    · simp; omega
    · simp_all
/-- FPFLAGS holds five flags and five enables, 8 bits apart (R31). -/
theorem spAccepts_fpflags_iff (x : Word) : spAccepts x .fpflags = true ↔ x &&& 0x1F1F = x := by
  have nat : x &&& 0x1F1F = x ↔ x.toNat &&& 0x1F1F = x.toNat := by
    rw [← BitVec.toNat_inj, BitVec.toNat_and]; rfl
  simp only [spAccepts, Bool.and_eq_true, decide_eq_true_eq, nat]
  generalize x.toNat = y
  constructor
  · rintro ⟨small, gap⟩
    have clear (i : Nat) (hi : i < 3) : y.testBit (i + 5) = false := by
      have := congrArg (Nat.testBit · i) gap
      rwa [show 8 = 2 ^ 3 from rfl, Nat.testBit_mod_two_pow, Nat.testBit_div_two_pow, decide_eq_true hi, Bool.true_and, Nat.zero_testBit] at this
    have allowed : ∀ i < 13, ¬ (5 ≤ i ∧ i < 8) → Nat.testBit 0x1F1F i = true := by decide
    refine Nat.eq_of_testBit_eq fun i => ?_
    rw [Nat.testBit_and]
    by_cases low : i < 13
    · by_cases between : 5 ≤ i ∧ i < 8
      · have off := clear (i - 5) (by omega)
        rw [Nat.sub_add_cancel between.1] at off
        rw [off, Bool.false_and]
      · rw [allowed i low between, Bool.and_true]
    · rw [Nat.testBit_lt_two_pow (small.trans_le (Nat.pow_le_pow_right (by decide) (Nat.not_lt.1 low))), Bool.false_and]
  · intro masked
    rw [← masked]
    refine ⟨Nat.and_lt_two_pow _ (by decide), ?_⟩
    rw [← Nat.shiftRight_eq_div_pow, Nat.shiftRight_and_distrib, Nat.and_mod_two_pow (n := 3)]
    exact Nat.and_zero _
theorem spAccepts_cause_iff (x : Word) : spAccepts x .cause = true ↔ x.extractLsb' 8 55 = 0 := by
  rw [← BitVec.toNat_inj, BitVec.extractLsb'_toNat, Nat.shiftRight_eq_div_pow]
  exact decide_eq_true_iff
/-- A write of CAUSE leaves INH, and takes the code alone (R342). -/
theorem spWrite_cause (c : Ctx) (x : Word) :
    spWrite c x .cause = { c with cause := c.cause.extractLsb' 63 1 ++ (0 : BitVec 55) ++ x.setWidth 8 } := by
  have bits : (c.cause &&& BitVec.ofNat 64 (2 ^ 63)) ||| BitVec.ofNat 64 (x.toNat % 256) =
      c.cause.extractLsb' 63 1 ++ (0 : BitVec 55) ++ x.setWidth 8 := by
    have inhBit : BitVec.ofNat 64 (2 ^ 63) = BitVec.twoPow 64 63 := rfl
    have code : BitVec.ofNat 64 (x.toNat % 256) = (x.setWidth 8).setWidth 64 := BitVec.eq_of_toNat_eq (by simp)
    rw [inhBit, code]
    refine BitVec.eq_of_getLsbD_eq fun i hi => ?_
    simp only [BitVec.getLsbD_or, BitVec.getLsbD_and, BitVec.getLsbD_twoPow, BitVec.getLsbD_setWidth, BitVec.getLsbD_append,
      BitVec.getLsbD_extractLsb']
    by_cases low : i < 8
    · simp [low, hi, show 63 ≠ i by omega]
    · by_cases inh : i = 63
      · subst inh; simp
      · simp [low, Ne.symm inh, show i - 8 < 55 by omega]
  exact congrArg (fun w => { c with cause := w }) bits

/-- Settles O14: MFSR register by register; MTSR by what each register accepts. -/
theorem specialRegistersReadAndWrite : Obligations.SpecialRegistersReadAndWrite := by
  constructor
  · intro s h d hr
    have detmode : spRead s s.cur (me s) .detmode = if (me s).d.det then 1 else 0 := by
      show BitVec.ofNat 64 (me s).d.det.toNat = _
      cases (me s).d.det <;> rfl
    have refwin (compute : isCompute s.cur.tile = true) : spRead s s.cur (me s) .refwin =
        BitVec.ofNat 64 (160 * 2 ^ 32 + 2048 * 2 ^ 16 + s.cur.tile % 16 * 128) := by
      simp only [spRead, refwinOf, if_pos compute]
    exact ⟨exec_mfsr hr, exec_mfsr hr, exec_mfsr hr, exec_mfsr hr, exec_mfsr hr, exec_mfsr hr, exec_mfsr hr, exec_mfsr hr, exec_mfsr hr,
      exec_mfsr hr, exec_mfsr hr, exec_mfsr hr, exec_mfsr hr, exec_mfsr hr, exec_mfsr hr, exec_mfsr hr,
      ⟨_, exec_mfsr hr, spRead_turntab_bits s⟩, exec_mfsr_of_eq hr detmode, fun compute => exec_mfsr_of_eq hr (refwin compute), exec_mfsr hr⟩
  · intro s h a c x w no hr
    have waitlim := exec_mtsr_iff (n := .waitlim) hr rfl (p := x.toNat < 2 ^ 32) decide_eq_true_iff
    have rmode := exec_mtsr_iff (n := .rmode) hr rfl (p := x.toNat < 6) decide_eq_true_iff
    have fpflags := exec_mtsr_iff (n := .fpflags) hr rfl (spAccepts_fpflags_iff x)
    have cause := exec_mtsr_iff (n := .cause) hr (spWrite_cause c x) (spAccepts_cause_iff x)
    have handler := exec_mtsr_iff (n := .handler) hr rfl (spAccepts_handler_iff x)
    have seedTaken (nonzero : x ≠ 0) : spWrite c x .seed = { c with seed := x } :=
      congrArg (fun w => { c with seed := w }) (if_neg nonzero)
    have seedFixed (null : x = 0) : spWrite c x .seed = { c with seed := 0x9E3779B97F4A7C15 } :=
      congrArg (fun w => { c with seed := w }) (if_pos null)
    exact ⟨waitlim.1, fun k => waitlim.2 (by omega), rmode.1, fun k => rmode.2 (by omega), fpflags.1, fpflags.2,
      fun k => exec_mtsr_accepted hr (seedTaken k) rfl, fun k => exec_mtsr_accepted hr (seedFixed k) rfl, exec_mtsr_accepted hr rfl rfl,
      cause.1, cause.2, exec_mtsr_accepted hr rfl rfl, exec_mtsr_accepted hr rfl rfl, handler.1, fun k => handler.2 (by omega)⟩

end Sys2Proof.Machine
end

section
/-! The lane-wise floating-point forms (R31, R134, R135, R138): each is its operation under the shared rounding of lanes. -/

namespace Sys2Proof.Machine

/-- Settles O27: VABS and VNEG end as forms of the integer pipe, and every other form as one of the array. -/
theorem floatLaneFormResults : Obligations.FloatLaneFormResults := by
  intro s h t rm m d a b x w F M ends
  refine ⟨fun hr => ?_, fun hr => ?_, fun hr => ?_⟩
  · exact ⟨fp2_array _ s h t rm m d a b 8 fAdd hr, fp2_array _ s h t rm m d a b 8 fSub hr, fp2_array _ s h t rm m d a b 8 fMul hr,
      fp2_array _ s h t rm m d a b 32 fDiv hr,
      fp2_array _ s h t .rne m d a b 8 (fun f _ y z => fMinMax f false false y z) hr,
      fp2_array _ s h t .rne m d a b 8 (fun f _ y z => fMinMax f true false y z) hr,
      fp2_array _ s h t .rne m d a b 8 (fun f _ y z => fMinMax f false true y z) hr,
      fp2_array _ s h t .rne m d a b 8 (fun f _ y z => fMinMax f true true y z) hr⟩
  · exact ⟨fp3_array _ s h t rm m d a b x false false hr, fp3_array _ s h t rm m d a b x false true hr,
      fp3_array _ s h t rm m d a b x true false hr⟩
  · exact ⟨fp1_array _ s h t rm m d a 32 fSqrt hr, fp1_array _ s h t rm m d a 8 fRoundInt hr,
      fp1_pipe _ s h t .rne m d a 4 (withSign false) hr, fp1_pipe _ s h t .rne m d a 4 flipSign hr⟩

end Sys2Proof.Machine
end

section
/-! Masks and reductions (R32, R138, R139, R143, R149): the bits of the masks that forms make, and the two pipes of a reduction. -/

namespace Sys2Proof.Machine

/-! ### Bits of masks -/

/-- The number of the bits given, below n. -/
def sumBits (b : Nat → Bool) (n : Nat) : Nat := (List.range n).foldl (fun x i => x + (b i).toNat * 2 ^ i) 0
theorem sumBits_succ (b : Nat → Bool) (n : Nat) : sumBits b (n + 1) = 2 ^ n * (b n).toNat + sumBits b n := by
  rw [sumBits, List.range_succ, List.foldl_append, Nat.add_comm, Nat.mul_comm]; rfl
theorem sumBits_lt (b : Nat → Bool) (n : Nat) : sumBits b n < 2 ^ n := by
  induction n with
  | zero => exact Nat.one_pos
  | succ n ih =>
    have top := Nat.mul_le_mul_left (2 ^ n) (Bool.toNat_le (b n))
    rw [sumBits_succ, Nat.pow_succ]
    omega
theorem testBit_sumBits (b : Nat → Bool) (n j : Nat) : (sumBits b n).testBit j = (decide (j < n) && b j) := by
  induction n with
  | zero => simp [sumBits]
  | succ n ih =>
    rw [sumBits_succ, Nat.testBit_two_pow_mul_add _ (sumBits_lt b n), ih, Nat.testBit_bool_toNat]
    rcases Nat.lt_trichotomy j n with low | rfl | high
    · simp [low, Nat.lt_succ_of_lt low]
    · simp
    · simp [show ¬ j < n by omega, show ¬ j < n + 1 by omega, show j - n ≠ 0 by omega]
/-- The mask that lane relations make (R51, R138). -/
theorem getLsbD_maskOut (c : Ctx) (m : VMask) (k : KIx) (n : Nat) (p : Nat → Bool) {j : Nat} (hj : j < 2048) :
    (maskOut c m k n p).getLsbD j = (decide (j < n) && if laneOn c m.k j then p j else !m.z && (rk c k).getLsbD j) := by
  have lane (i : Nat) : (if laneOn c m.k i then (p i).toNat else if m.z then 0 else ((rk c k).getLsbD i).toNat) =
      (if laneOn c m.k i then p i else !m.z && (rk c k).getLsbD i).toNat := by
    cases laneOn c m.k i <;> cases m.z <;> rfl
  simp only [maskOut, lane]
  rw [← sumBits, BitVec.getLsbD_ofNat, decide_eq_true hj, Bool.true_and, testBit_sumBits]
/-- The mask of a range of lanes (R149). -/
theorem getLsbD_laneRange (lo hi : Nat) {j : Nat} (hj : j < 2048) : (laneRange lo hi).getLsbD j = decide (lo ≤ j ∧ j < hi) := by
  rw [laneRange, BitVec.getLsbD_ofNat, decide_eq_true hj, Bool.true_and]
  split
  case isTrue lt =>
    have ones : 2 ^ hi - 2 ^ lo = 2 ^ lo * (2 ^ (hi - lo) - 1) := by
      rw [Nat.mul_sub, ← Nat.pow_add, Nat.mul_one, Nat.add_sub_cancel' lt.le]
    rw [ones, Nat.testBit_two_pow_mul, Nat.testBit_two_pow_sub_one, ← Bool.decide_and]
    exact decide_eq_decide.2 (by omega)
  case isFalse empty =>
    rw [Nat.zero_testBit, decide_eq_false (by omega)]
theorem laneCount_le (w : Nat) : laneCount w ≤ 2048 := by
  unfold laneCount
  split
  · exact Nat.zero_le _
  · exact Nat.div_le_self ..
/-- The one bits of a mask fit a word. -/
theorem sval_popMask (x : KVal) (w : Nat) :
    BitVec.ofNat 2048 (popMask x (laneCount w)) = sval (BitVec.ofNat 64 (popMask x (laneCount w))) := by
  have le : popMask x (laneCount w) ≤ laneCount w := (List.length_filter_le ..).trans (List.length_range ..).le
  have := laneCount_le w
  apply BitVec.eq_of_toNat_eq
  simp only [sval, BitVec.toNat_ofNat, BitVec.toNat_setWidth]
  rw [Nat.mod_eq_of_lt (a := popMask x (laneCount w)) (b := 2 ^ 64) (by omega)]

/-! ### The two pipes of a reduction (R135, R143) -/

section
variable {s : State} {f : Form} {t : Ty} {body : State → SlotRef → Ctx → Nat → Act} {l : Nat} {ls : List Reg} {ws : List (Reg × VVal)}
  {x : FAcc}

/-- An integer reduction ends as a form of the integer pipe. -/
theorem runForm_redForm_int (int : t.isInt = true) (hr : Ready s f.h f.srcs f.dsts f.rgn)
    (e : body s s.cur (me s) 0 = fpEnd s s.cur (me s) x ls l ws) : FpEnds s s f.h ls l ws x (runForm f (redForm t body) s) :=
  runForm_fpEnd f _ s s l ls ws x hr (by rw [redForm, if_pos int]; exact e) ⟨rfl, rfl, rfl⟩ rfl
/-- Any other takes the beats of its lane width. -/
theorem runForm_redForm_array (float : t.isInt = false) (hr : Ready s f.h f.srcs f.dsts f.rgn)
    (e : body (arrayTaken s (beatsOf t.width)) s.cur (me s) (here s).beats =
      fpEnd (arrayTaken s (beatsOf t.width)) s.cur (me s) x ls ((here s).beats + l) ws) :
    ArrayEnds s (beatsOf t.width) f.h ls l ws x f.i (runForm f (redForm t body) s) := by
  rw [redForm, float, if_neg Bool.false_ne_true]
  exact runForm_array f _ body s l ls ws x hr e
end
/-- The latency of a reduction by its pipe. -/
theorem fpEnd_latency {s : State} {r : SlotRef} {c : Ctx} {x : FAcc} {ls : List Reg} {l l' : Nat} {ws : List (Reg × VVal)} (e : l = l') :
    fpEnd s r c x ls l ws = fpEnd s r c x ls l' ws := e ▸ rfl

/-- Settles O29, form by form. -/
theorem maskAndReductionResults : Obligations.MaskAndReductionResults := by
  intro s h t rm op fc ic m k k' k2 a b d g x c w A B on
  refine ⟨fun v p _ e j hj => ?_, fun hr => ⟨?_, ?_⟩, fun hr => ⟨fun int => ?_, fun float => ?_⟩,
    fun hr => ⟨fun int => ?_, fun float => ?_⟩, fun hr => ?_, fun hr => ⟨?_, ?_⟩, fun hr => ?_, fun hr => ?_, fun hr _ =>
    ⟨laneRange (rs c g).toNat (min (rs c x).toNat (laneCount w)), ?_, fun j hj => ?_⟩⟩
  · rw [e, getLsbD_maskOut c m k _ p hj]
  -- VICMP and VCMP
  · exact runForm_results _ _ s _ _ _ hr rfl
  · exact runForm_array _ _ _ s _ _ _ _ hr rfl
  -- VRED
  · exact runForm_redForm_int int hr (fpEnd_latency ((Nat.zero_add _).trans (if_pos int)))
  · exact runForm_redForm_array float hr (fpEnd_latency (congrArg _ (if_neg (by rw [float]; decide))))
  -- VSCAN
  · exact runForm_redForm_int int hr (fpEnd_latency ((Nat.zero_add _).trans (if_pos int)))
  · exact runForm_redForm_array float hr (fpEnd_latency (congrArg _ (if_neg (by rw [float]; decide))))
  -- VDOT
  · exact runForm_array _ _ _ s _ _ _ _ hr rfl
  -- KAND, KOR, KNOT, KPOP and KSET
  · exact maskForm_results s h (.k k2) [.k k, .k k'] (fun c => (rk c k &&& rk c k').setWidth 2048) hr
  · exact maskForm_results s h (.k k2) [.k k, .k k'] (fun c => (rk c k ||| rk c k').setWidth 2048) hr
  · exact maskForm_results s h (.k k2) [.k k] (fun c => (~~~rk c k).setWidth 2048) hr
  · rw [← popMask, ← sval_popMask]
    exact maskForm_results s h (.s g) [.k k] (fun c => BitVec.ofNat 2048 (popMask (rk c k) (laneCount t.width))) hr
  · exact maskForm_results s h (.k k2) [.s g, .s x] (fun c => laneRange (rs c g).toNat (min (rs c x).toNat (laneCount t.width))) hr
  · rw [getLsbD_laneRange _ _ hj]
    exact decide_eq_decide.2 (and_congr_right' Nat.lt_min)

end Sys2Proof.Machine
end

section
/-! Conversions and blocks (R36, R141, R142): the lanes that a conversion writes, and the lanes of a block that is dequantised. -/

namespace Sys2Proof.Machine

/-- A loop over lanes that are all active and draw nothing gives every lane under round to nearest (R27). -/
theorem laneLoop_rne (en : Nat) (idle : Nat → Nat) (f : Nat → Rnd → Res) (n : Nat) (a : FAcc) :
    (laneLoop en (fun _ => true) idle .rne f n 0 a).1 = (List.range n).map fun j => (f j Rnd.rne).code := by
  have from_ (n i : Nat) (a : FAcc) :
      (laneLoop en (fun _ => true) idle .rne f n i a).1 = (List.range' i n).map fun j => (f j Rnd.rne).code := by
    induction n generalizing i a with
    | zero => rfl
    | succ n ih => exact congrArg ((f i Rnd.rne).code :: ·) (ih (i + 1) _)
  rw [from_, List.range_eq_range']

/-- Settles O30, form by form. -/
theorem conversionAndBlockResults : Obligations.ConversionAndBlockResults := by
  intro s h t u rm hi pos q m d a b c
  refine ⟨?_, fun hr => ?_, fun hr => ?_, fun hr types => ?_⟩
  -- VCVT
  · intro ws wd n sB dB S hr mine o
    simp only [sB, dB, mine, o, ite_and, Bool.decide_and]
    exact runForm_array _ _ _ s _ _ _ _ hr rfl
  -- VQUANT
  · exact runForm_array _ _ _ s _ _ _ _ hr rfl
  -- VDEQUANT
  · intro n f acc
    refine runForm_array _ _ _ s _ _ _ _ hr ?_
    exact congrArg (fun lanes => fpEnd (arrayTaken s 2) s.cur c acc [.v a] ((here s).beats + 8) [(.v d, packLanes 32 lanes)])
      (laneLoop_rne 0 (fun _ => 0) _ 64 (facc c))
  -- VBADDQ
  · simp only [List.mem_cons, List.not_mem_nil, or_false] at types
    rcases types with rfl | rfl | rfl | rfl | rfl | rfl <;> exact runForm_array _ _ _ s _ _ _ _ hr rfl

end Sys2Proof.Machine
end

section
/-! The exact accumulators (R38, R39, R150, R153, R154): what changing one leaves alone, what a form does by who holds the accumulators
that it names, and each form. -/

namespace Sys2Proof.Machine

/-! ### Changing an accumulator -/

/-- Of a state nothing but the accumulators of its tiles has changed, and the count of free values. -/
structure OnlyXas (s t : State) : Prop where
  rest : { t with tiles := s.tiles, freeCtr := s.freeCtr } = s
  tile : ∀ n, { tileAt t n with xas := (tileAt s n).xas } = tileAt s n

theorem OnlyXas.refl (s : State) : OnlyXas s s := ⟨rfl, fun _ => rfl⟩
theorem OnlyXas.stepFree (s : State) : OnlyXas s (stepFree s) := ⟨rfl, fun _ => rfl⟩
theorem OnlyXas.trans {s t u : State} (h : OnlyXas s t) (k : OnlyXas t u) : OnlyXas s u :=
  ⟨(congrArg (fun x : State => { x with tiles := s.tiles, freeCtr := s.freeCtr }) k.rest).trans h.rest,
    fun n => (congrArg (fun x : Tile => { x with xas := (tileAt s n).xas }) (k.tile n)).trans (h.tile n)⟩
theorem OnlyXas.modTile (s : State) (n : Node) (f : Tile → Vector XAcc 8) : OnlyXas s (modTile s n fun t => { t with xas := f t }) := by
  refine ⟨rfl, fun m => ?_⟩
  by_cases same : nodeKey m = nodeKey n
  · have e (u : State) : tileAt u m = tileAt u n := by unfold tileAt; rw [same]
    rw [e, e, tileAt_modTile_self]
  · rw [tileAt_modTile_ne _ _ _ _ same]
theorem OnlyXas.xaMod (s : State) (r : SlotRef) (xs : List (BitVec 3)) (l : Nat) (d : BitVec 3) (f : XAcc → XAcc) :
    OnlyXas s (xaMod s r xs l d f) := by
  unfold Machine.xaMod
  generalize dueIn s r.node l = busy
  refine (OnlyXas.modTile s r.node fun t => t.xas.set d.toNat (f (xaAt t d))).trans ?_
  generalize Machine.modTile s r.node _ = u
  induction xs generalizing u with
  | nil => exact .refl u
  | cons i xs ih =>
    exact (OnlyXas.modTile u r.node fun t => t.xas.set i.toNat { xaAt t i with busyUntil := max (xaAt t i).busyUntil busy }).trans (ih _)
theorem OnlyXas.errs {s t : State} (h : OnlyXas s t) (n : Node) : (tileAt t n).errs = (tileAt s n).errs := (congrArg Tile.errs (h.tile n) :)
theorem OnlyXas.slots {s t : State} (h : OnlyXas s t) (n : Node) : (tileAt t n).slots = (tileAt s n).slots := (congrArg Tile.slots (h.tile n) :)
theorem OnlyXas.slotAt {s t : State} (h : OnlyXas s t) (r : SlotRef) : slotAt t r = slotAt s r := by
  unfold Machine.slotAt; rw [h.slots]
theorem OnlyXas.sameCycle {s t : State} (h : OnlyXas s t) : t.cur = s.cur ∧ t.now = s.now ∧ t.pkgs = s.pkgs :=
  ⟨(congrArg State.cur h.rest :), (congrArg State.now h.rest :), (congrArg State.pkgs h.rest :)⟩

/-! ### Reading a tile without errors (R351, R352) -/

theorem arrayFind_clean {s : State} {r : SlotRef} (clean : (tileAt s r.node).errs = []) (arr lo hi : Nat) (c : Ctx) (f : State → Act) :
    arrayFind arr lo hi s r c f = f s := if_pos (by rw [errSites, clean]; rfl)
theorem xaFind_clean {s : State} {r : SlotRef} (clean : (tileAt s r.node).errs = []) (c : Ctx) (f : State → Act) (xs : List (BitVec 3)) :
    xaFind f xs s r c = f s := by
  induction xs with
  | nil => rfl
  | cons i xs ih => exact (arrayFind_clean clean ..).trans ih
theorem xaFresh_clean {s : State} {r : SlotRef} (clean : (tileAt s r.node).errs = []) (x : BitVec 3) : xaFresh s r x = s :=
  replaceUnits_clean s r.node _ _ _ clean

/-! ### Who holds the accumulators (R150, R153) -/

/-- The unit that issues holds an accumulator. -/
abbrev HoldsOne (s : State) (i : BitVec 3) : Prop := (xaAt (here s) i).holder = some (s.cur.slot, (me s).uid)

section
variable {s : State} {xs reads : List (BitVec 3)} {g : State → Act}

theorem xaNotHeld_cons_unheld {x : BitVec 3} (h : ¬ HoldsOne s x) : xaNotHeld (here s) s.cur (me s) (x :: xs) = some x :=
  List.find?_cons_of_pos (decide_eq_true h)
theorem xaNotHeld_cons_held {x : BitVec 3} (h : HoldsOne s x) :
    xaNotHeld (here s) s.cur (me s) (x :: xs) = xaNotHeld (here s) s.cur (me s) xs :=
  List.find?_cons_of_neg (by simpa using h)
theorem xaNotHeld_none (h : ∀ i ∈ xs, HoldsOne s i) : xaNotHeld (here s) s.cur (me s) xs = none :=
  List.find?_eq_none.2 fun i hi => by simpa using h i hi
theorem xaHeld_unheld {i : BitVec 3} (h : xaNotHeld (here s) s.cur (me s) xs = some i) :
    xaHeld xs reads g s s.cur (me s) = .trap fOperand 0 (i.setWidth 64) := by
  rw [xaHeld, h]
theorem xaHeld_busy {i : BitVec 3} (held : ∀ i ∈ xs, HoldsOne s i) (mem : i ∈ xs) (busy : s.now < (xaAt (here s) i).busyUntil) :
    xaHeld xs reads g s s.cur (me s) = .retry .busy 0 0 0 := by
  rw [xaHeld, xaNotHeld_none held]
  exact if_pos (List.any_eq_true.2 ⟨i, mem, decide_eq_true busy⟩)
theorem xaHeld_free (clean : (here s).errs = []) (hold : HoldsXa s xs) : xaHeld xs reads g s s.cur (me s) = g s := by
  have free : ¬ xaBusy s s.cur xs = true := fun b => by
    obtain ⟨i, mem, busy⟩ := List.any_eq_true.1 b
    exact absurd (of_decide_eq_true busy) (Nat.not_lt.2 (hold i mem).2)
  rw [xaHeld, xaNotHeld_none fun i mem => (hold i mem).1]
  exact (if_neg free).trans (xaFind_clean clean ..)
end

/-! ### How the forms end -/

/-- A form that finds a part of its tile taken does not issue, ready (R112). -/
theorem runForm_busy (f : Form) (body : State → SlotRef → Ctx → Act) (s : State) (hr : Ready s f.h f.srcs f.dsts f.rgn)
    (e : body s s.cur (me s) = .retry .busy 0 0 0) : Busy s f.i (runForm f body s) := by
  have lt : s.cur.slot < 16 := slot_lt s _ (by rw [hr.bound]; decide)
  let u := modCtx { s with no := s.no + 1 } s.cur fun c => { c with lost := c.lost + 1 }
  have ctx : ctxAt u s.cur = { me s with lost := (me s).lost + 1 } := ctxAt_modCtx_self _ _ _ lt
  obtain ⟨only, parked, -⟩ := parkSlot_spec u s.cur f.i s.no .busy 0 0 0 [] lt (by rw [ctx]; exact hr.notParked)
  rw [runForm_ready f body s hr, e]
  exact ⟨_, rfl, ((OnlySlot.no _ s _).trans (.modCtx _ _ _ lt)).trans only, parked.trans (by rw [ctx]; rfl)⟩

section
variable {s s1 : State} {f : Form} {body : State → SlotRef → Ctx → Act} {l : Nat} {ls : List Reg} {ws : List (Reg × VVal)} {acc : FAcc}
  {xs reads : List (BitVec 3)} {x : BitVec 3} {g : State → Act}

/-- A form of one accumulator that its unit does not hold, or that is busy. -/
theorem runForm_xaGuarded (hr : Ready s f.h f.srcs f.dsts f.rgn) (e : body s s.cur (me s) = xaHeld [x] reads g s s.cur (me s)) :
    XaGuarded s f.i x (runForm f body s) :=
  ⟨fun unheld => runForm_trap f body s _ _ _ hr (e.trans (xaHeld_unheld (xaNotHeld_cons_unheld unheld))),
    fun held busy => runForm_busy f body s hr (e.trans (xaHeld_busy (List.forall_mem_singleton.2 held) (List.mem_singleton.2 rfl) busy))⟩
/-- A form that rounds, beside a change of accumulators. -/
theorem runForm_fpEnd_xas (hr : Ready s f.h f.srcs f.dsts f.rgn) (only : OnlyXas s s1)
    (e : body s s.cur (me s) = fpEnd s1 s.cur (me s) acc ls l ws) : FpEnds s s1 f.h ls l ws acc (runForm f body s) :=
  runForm_fpEnd f body s s1 l ls ws acc hr e only.sameCycle (only.slotAt _)
/-- A form with results, beside a change of accumulators. -/
theorem runForm_results_xas (hr : Ready s f.h f.srcs f.dsts f.rgn) (only : OnlyXas s s1)
    (e : body s s.cur (me s) = results s1 s.cur (me s) ls l ws) : ResultsFrom s s1 (me s) f.h ls l ws (runForm f body s) := by
  have ctx : ctxAt s1 s.cur = me s := congrArg Slot.ctx (only.slotAt _)
  rw [← ctx]
  exact runForm_resultsFrom f body s s1 l ls ws hr e only.sameCycle (by rw [only.slotAt]; exact hr.bound)
    (by rw [ctx]; exact ⟨rfl, rfl, rfl, rfl⟩)
/-- A form that adds to an accumulator which its unit holds. -/
theorem runForm_xaAdds {z : XVal} (hr : Ready s f.h f.srcs f.dsts f.rgn) (hold : HoldsXa s xs)
    (e : body s s.cur (me s) = xaHeld xs reads (fun s' => xaFinish s' s.cur (me s) xs l x z acc ls) s s.cur (me s)) :
    FpEnds s (xaMod (stepFree s) s.cur xs (l + slowBy ls) x (xaStore s z)) f.h ls l [] acc (runForm f body s) :=
  runForm_fpEnd_xas hr ((OnlyXas.stepFree s).trans (.xaMod ..)) (e.trans (xaHeld_free hr.clean hold))
end

/-! ### The forms -/

section
variable {s : State} {h : Hdr} {x y : BitVec 3}

/-- XA.GET (R150, R153). -/
theorem exec_xaGet {d : PIx} (hr : Ready s h [] [.p d] false) :
    let c := me s
    let X := xaAt (here s) x
    let o := exec (.xaGet h x d) s
    let mine := some (s.cur.slot, c.uid)
    (X.holder ≠ none → X.holder ≠ mine → ResultsFrom s (xaMod s s.cur [x] 3 x id) c h [] 3 [(.p d, pval false)] o) ∧
    (X.holder = mine → s.now < X.busyUntil → Busy s (.xaGet h x d) o) ∧
    ((X.holder = none ∨ (X.holder = mine ∧ X.busyUntil ≤ s.now)) →
      ResultsFrom s (xaMod (stepFree s) s.cur [x] 3 x fun A =>
        if A.holder = mine ∨ A.job = c.d.job then { A with holder := mine, job := c.d.job }
        else { A with holder := mine, job := c.d.job, n := Config.freeAcc s.freeCtr, st := (Config.freeWord s.freeCtr).toNat % 4 })
        c h [] 3 [(.p d, pval true)] o) := by
  intro c X o mine
  have busy_iff : xaBusy s s.cur [x] = true ↔ s.now < X.busyUntil := by simp [xaBusy, X]
  refine ⟨fun taken others => ?_, fun held busy => ?_, fun claim => ?_⟩
  · exact runForm_results_xas hr (.xaMod ..) ((if_neg fun k => others k.1).trans (if_neg (not_or.2 ⟨others, taken⟩)))
  · exact runForm_busy _ _ s hr (if_pos ⟨held, busy_iff.2 busy⟩)
  · have free : ¬ (X.holder = mine ∧ xaBusy s s.cur [x] = true) := by
      rintro ⟨held, busy⟩
      rcases claim with idle | ⟨-, rested⟩
      · exact Option.some_ne_none _ (held.symm.trans idle)
      · exact absurd (busy_iff.1 busy) (Nat.not_lt.2 rested)
    exact runForm_results_xas hr ((OnlyXas.stepFree s).trans (.xaMod ..)) ((if_neg free).trans (if_pos (claim.symm.imp And.left id)))
/-- XA.PUT and XA.CLR (R153). -/
theorem exec_xaPut (hr : Ready s h [] [] false) (hold : HoldsXa s [x]) :
    DoneIn s h (askWork (xaMod s s.cur [x] 3 x fun A => { A with holder := none, job := (me s).d.job }) s.cur.node) (exec (.xaPut h x) s) :=
  runForm_done _ _ s _ hr (xaHeld_free hr.clean hold)
theorem exec_xaClr (hr : Ready s h [] [] false) (hold : HoldsXa s [x]) :
    DoneIn s h (xaMod s s.cur [x] 3 x fun A => { A with n := 0, st := 0 }) (exec (.xaClr h x) s) :=
  runForm_done _ _ s _ hr ((xaHeld_free hr.clean hold).trans (by rw [xaFresh_clean hr.clean]))
/-- XA.ADD on an accumulator that its unit does not hold, the first named first, or that is busy (R153). -/
theorem exec_xaAdd_guarded {neg : Bool} (hr : Ready s h [] [] false) :
    let o := exec (.xaAdd h x y neg) s
    (¬ HoldsOne s x → Faults s 0x03 0 (x.setWidth 64) o) ∧ (HoldsOne s x → ¬ HoldsOne s y → Faults s 0x03 0 (y.setWidth 64) o) ∧
    (HoldsOne s x → HoldsOne s y → (s.now < (xaAt (here s) x).busyUntil ∨ s.now < (xaAt (here s) y).busyUntil) →
      Busy s (.xaAdd h x y neg) o) := by
  refine ⟨fun unheld => ?_, fun held unheld => ?_, fun heldX heldY busy => ?_⟩
  · exact runForm_trap _ _ s _ _ _ hr (xaHeld_unheld (xaNotHeld_cons_unheld unheld))
  · exact runForm_trap _ _ s _ _ _ hr (xaHeld_unheld ((xaNotHeld_cons_held held).trans (xaNotHeld_cons_unheld unheld)))
  · have held : ∀ i ∈ [x, y], HoldsOne s i := List.forall_mem_cons.2 ⟨heldX, List.forall_mem_singleton.2 heldY⟩
    rcases busy with busy | busy
    · exact runForm_busy _ _ s hr (xaHeld_busy held (by simp) busy)
    · exact runForm_busy _ _ s hr (xaHeld_busy held (by simp) busy)
/-- What XA.SIGN tells of a sign, if there is one. -/
def signTest (cond : XaCond) : Option Int → Bool
  | none => false
  | some v => match cond with
    | .gt => decide (0 < v)
    | .lt => decide (v < 0)
    | .eq => decide (v = 0)
theorem xaSignOf_finite {X : XAcc} (finite : X.st = 0) : xaSignOf X = some X.n.toInt.sign := by
  rw [xaSignOf, finite]
  generalize X.n.toInt = n
  rcases Int.lt_trichotomy n 0 with neg | rfl | pos
  · simp [neg, neg.ne, Int.sign_eq_neg_one_of_neg neg]
  · rfl
  · simp [pos.ne', pos.not_gt, Int.sign_eq_one_of_pos pos]
/-- The sign of a value tells what the value does. -/
theorem signTest_sign (cond : XaCond) (n : Int) : signTest cond (some n.sign) = signTest cond (some n) := by
  cases cond with
  | gt => exact decide_eq_decide.2 Int.sign_pos_iff
  | lt => exact decide_eq_decide.2 Int.sign_neg_iff
  | eq => exact decide_eq_decide.2 Int.sign_eq_zero_iff_zero
/-- XA.SIGN (R39, R153). -/
theorem exec_xaSign {cond : XaCond} {d : PIx} {v : Option Int} (hr : Ready s h [] [.p d] false) (hold : HoldsXa s [x])
    (e : xaSignOf (xaAt (here s) x) = v) :
    FpEnds s (xaMod s s.cur [x] 6 x id) h [] 6 [(.p d, pval (signTest cond v))]
      ((facc (me s)).add (enabled (me s)) 0 (if v.isNone then fNV else 0)) (exec (.xaSign h x cond d) s) := by
  subst e
  exact runForm_fpEnd_xas hr (.xaMod ..) (xaHeld_free hr.clean hold)

/-- What XA.RND makes of an accumulator: a code, with the flags and draws of its step (R28, R39). -/
def xaRounded (c : Ctx) (t : Ty) (rm : Rm) (X : XAcc) : Nat × FAcc :=
  let F := Fmt.of t
  match X.st with
  | 0 =>
    let dr := (facc c).draw (resolveRm rm c.rmode)
    let z := F.round dr.1 ⟨X.n.toInt < 0 || (X.n.toInt = 0 && dr.1.rm = .rdn), X.n.toInt.natAbs, -2148, false⟩
    (z.code, dr.2.add (enabled c) 0 z.flags)
  | 1 => (F.infCode, facc c)
  | 2 => (F.signed true F.infCode, facc c)
  | _ => (F.nanCode, facc c)
/-- XA.RND (R39, R153). -/
theorem exec_xaRnd {t : Ty} {rm : Rm} {a : SIx} {code : Nat} {acc : FAcc} (hr : Ready s h [] [.s a] false) (hold : HoldsXa s [x])
    (e : xaRounded (me s) t rm (xaAt (here s) x) = (code, acc)) :
    FpEnds s (xaMod s s.cur [x] 10 x id) h [] 10 [(.s a, BitVec.ofNat 2048 code)] acc (exec (.xaRnd h t rm x a) s) := by
  have o := congrArg Prod.fst e
  have o' := congrArg Prod.snd e
  subst o o'
  exact runForm_fpEnd_xas hr (.xaMod ..) (xaHeld_free hr.clean hold)

/-! ### Images in the scratchpad (R154, R211) -/

theorem xaPad_remote {ea : Word} {r : SlotRef} {f : Nat → Act} (away : isRemote ea = true) : xaPad ea s r f = .trap fOperand 0 0 := if_pos away
theorem xaPad_misaligned {ea : Word} {r : SlotRef} {f : Nat → Act} (near : isRemote ea = false) (skew : ea.toNat % 8 ≠ 0) :
    xaPad ea s r f = .trap fMisaligned ea 0 := by
  rw [xaPad, near]
  exact if_pos skew
theorem xaPad_outside {ea : Word} {r : SlotRef} {f : Nat → Act} (near : isRemote ea = false) (aligned : ea.toNat % 8 = 0)
    (out : padOk (tileAt s r.node) ea.toNat 552 = false) : xaPad ea s r f = .trap fBounds ea 0 := by
  rw [xaPad, near, aligned, out]; rfl
theorem xaPad_inside {ea : Word} {r : SlotRef} {f : Nat → Act} (near : isRemote ea = false) (aligned : ea.toNat % 8 = 0)
    (fits : padOk (tileAt s r.node) ea.toNat 552 = true) : xaPad ea s r f = f ea.toNat := by
  rw [xaPad, near, aligned, fits]; rfl
theorem stored_padWrite (t : Tile) (off : Nat) (b : List Byte) : Stored t.sp (padWrite t off b).sp off b := stored_cellsWrite t.sp off b
theorem padStore_clean {n : Node} {off : Nat} {b : List Byte} (clean : (tileAt s n).errs = []) :
    padStore s n off b = modTile s n fun t => padWrite t off b :=
  replaceUnits_clean _ n _ _ _ (by rw [tileAt_modTile_self]; exact clean)
/-- An image's address is checked once the accumulator is held (R154). -/
theorem runForm_xaPad {f : Form} {body : State → SlotRef → Ctx → Act} {reads : List (BitVec 3)} {ea : Word} {g : State → Nat → Act}
    (hr : Ready s f.h f.srcs f.dsts f.rgn) (hold : HoldsXa s [x])
    (e : body s s.cur (me s) = xaHeld [x] reads (fun s' => xaPad ea s' s.cur (g s')) s s.cur (me s)) :
    let o := runForm f body s
    (isRemote ea = true → Faults s 0x03 0 0 o) ∧ (isRemote ea = false → ea.toNat % 8 ≠ 0 → Faults s 0x06 ea 0 o) ∧
    (isRemote ea = false → ea.toNat % 8 = 0 → padOk (here s) ea.toNat 552 = false → Faults s 0x07 ea 0 o) := by
  replace e := e.trans (xaHeld_free hr.clean hold)
  exact ⟨fun away => runForm_trap f body s _ _ _ hr (e.trans (xaPad_remote away)),
    fun near skew => runForm_trap f body s _ _ _ hr (e.trans (xaPad_misaligned near skew)),
    fun near aligned out => runForm_trap f body s _ _ _ hr (e.trans (xaPad_outside near aligned out))⟩
/-- XA.SAVE (R154). -/
theorem exec_xaSave {a : SIx} {ofs : BitVec 32} (hr : Ready s h [.s a] [] false) (hold : HoldsXa s [x]) :
    let ea := rs (me s) a + ofs.signExtend 64
    let X := xaAt (here s) x
    isRemote ea = false → ea.toNat % 8 = 0 → padOk (here s) ea.toNat 552 = true →
    DoneIn s h (modTile (xaMod s s.cur [x] (72 + slowBy [.s a]) x id) s.cur.node fun T =>
      padWrite T ea.toNat (bytesOfNat 544 X.n.toNat ++ bytesOfNat 8 X.st)) (exec (.xaSave h x a ofs) s) := by
  intro ea X near aligned fits
  have clean := ((OnlyXas.xaMod s s.cur [x] (72 + slowBy [.s a]) x id).errs s.cur.node).trans hr.clean
  exact runForm_done _ _ s _ hr ((xaHeld_free hr.clean hold).trans ((xaPad_inside near aligned fits).trans (by rw [padStore_clean clean])))
theorem xaBound_n (z : XVal) : (xaBound z).n = z.n := by
  unfold xaBound; split <;> rfl
/-- XA.LOAD (R154). -/
theorem exec_xaLoad {a : SIx} {ofs : BitVec 32} (hr : Ready s h [.s a] [] false) (hold : HoldsXa s [x]) :
    let ea := rs (me s) a + ofs.signExtend 64
    let b := padRead (here s) ea.toNat 552
    let n := (BitVec.ofNat 4352 (natOfBytes (b.take 544))).toInt
    let st := natOfBytes (b.drop 544) % 4
    let z : XVal := if st = 0 then xaBound ⟨n, 0, 0⟩ else ⟨n, st, 0⟩
    isRemote ea = false → ea.toNat % 8 = 0 → padOk (here s) ea.toNat 552 = true →
    FpEnds s (xaMod s s.cur [x] (72 + slowBy [.s a]) x fun A => { A with st := z.st, n := BitVec.ofInt 4352 z.n }) h [.s a] 72 []
      ((facc (me s)).add (enabled (me s)) 0 z.flags) (exec (.xaLoad h x a ofs) s) := by
  intro ea b n st z near aligned fits
  have loaded : (if st = 0 then xaBound ⟨n, 0, 0⟩ else { xaBound ⟨n, 0, 0⟩ with st := st, flags := 0 }) = z := by
    simp only [xaBound_n, z]
  refine runForm_fpEnd_xas hr (.xaMod ..) ((xaHeld_free hr.clean hold).trans ((xaPad_inside near aligned fits).trans ?_))
  refine (arrayFind_clean hr.clean ..).trans ?_
  rw [xaFresh_clean hr.clean, ← loaded]
end

/-- Settles O32, form by form. -/
theorem accumulatorFormResults : Obligations.AccumulatorFormResults := by
  intro s h x y neg t rm k cond a b v w d ofs c X ea adds once
  refine ⟨exec_xaGet, fun hr => ⟨runForm_xaGuarded hr rfl, runForm_xaGuarded hr rfl, fun hold => ⟨exec_xaPut hr hold, exec_xaClr hr hold⟩,
      exec_xaAdd_guarded hr, fun hold => runForm_xaAdds hr hold rfl⟩,
    fun hr => runForm_xaGuarded hr rfl, fun hr hold => runForm_xaAdds hr hold rfl,
    fun hr => runForm_xaGuarded hr rfl, fun hr hold => runForm_xaAdds hr hold rfl,
    fun hr => runForm_xaGuarded hr rfl, fun hr => runForm_xaGuarded hr rfl, fun hr => ⟨runForm_xaGuarded hr rfl, runForm_xaGuarded hr rfl⟩,
    fun hr hold => ?_, fun hr hold => ?_, fun hr hold => ?_⟩
  -- XA.SIGN
  · refine ⟨fun st => ?_, fun st => exec_xaSign (v := some 1) hr hold (by rw [xaSignOf, st]; rfl),
      fun st => exec_xaSign (v := some (-1)) hr hold (by rw [xaSignOf, st]; rfl), fun st => ?_⟩
    · have ends := exec_xaSign (cond := cond) hr hold (xaSignOf_finite st)
      rwa [signTest_sign] at ends
    · obtain ⟨k, e⟩ := Nat.exists_eq_add_of_le' st
      exact exec_xaSign (v := none) hr hold (by rw [xaSignOf, e]; rfl)
  -- XA.RND
  · refine ⟨fun st => exec_xaRnd hr hold (by rw [xaRounded, st]; rfl), fun st => exec_xaRnd hr hold (by rw [xaRounded, st]; rfl),
      fun st => exec_xaRnd hr hold (by rw [xaRounded, st]; rfl), fun st => ?_⟩
    obtain ⟨k, e⟩ := Nat.exists_eq_add_of_le' st
    exact exec_xaRnd hr hold (by rw [xaRounded, e]; rfl)
  -- XA.SAVE and XA.LOAD
  · intro save load
    refine ⟨List.forall_mem_cons.2 ⟨runForm_xaPad hr hold rfl, List.forall_mem_singleton.2 (runForm_xaPad hr hold rfl)⟩,
      fun near aligned fits => ⟨⟨stored_padWrite _ _ _, exec_xaSave hr hold near aligned fits⟩, exec_xaLoad hr hold near aligned fits⟩⟩

end Sys2Proof.Machine
end

section
/-! Decoding and encoding (R43 to R59): what each field of a word decodes to, what each form's row accepts, and that every word that
decodes is the encoding of what it decodes to. -/

namespace Sys2Proof

/-! ### What a decoded field gives -/

/-- Whatever a field decodes to satisfies P. -/
def Fld.Gives {α : Type} (f : Fld α) (P : α → Prop) : Prop := ∀ a, f = .ok a → P a

section
variable {α β : Type} {P : α → Prop}

@[simp] theorem Fld.gives_ok (a : α) : (Fld.ok a).Gives P ↔ P a := by simp [Fld.Gives]
@[simp] theorem Fld.gives_ap (f : Fld (β → α)) (x : Fld β) : (f.ap x).Gives P ↔ f.Gives fun g => x.Gives fun a => P (g a) := by
  cases f <;> cases x <;> simp [Fld.Gives, Fld.ap]

@[simp] theorem Fld.gives_chk (f : Fld α) (x : Fld Unit) : (f.chk x).Gives P ↔ x.Gives fun _ => f.Gives P := by
  cases f <;> cases x <;> simp [Fld.Gives, Fld.chk]

@[simp] theorem Fld.gives_mz (f : Fld α) (z : Bool) : (f.mz z).Gives P ↔ (z = true → f.Gives P) := by
  cases z <;> simp [Fld.Gives, Fld.mz]

@[simp] theorem Fld.gives_lim (f : Fld Instr) (P : Instr → Prop) : f.lim.Gives P ↔ f.Gives fun i => i.inLimits = true → P i := by
  cases f with
  | ok i => cases h : i.inLimits <;> simp [Fld.Gives, Fld.lim, h]
  | ill => simp [Fld.Gives, Fld.lim]
  | rsv => simp [Fld.Gives, Fld.lim]

@[simp] theorem Fld.gives_ill : (Fld.ill : Fld α).Gives P := nofun
@[simp] theorem Fld.gives_rsv : (Fld.rsv : Fld α).Gives P := nofun
@[simp] theorem Fld.gives_ite (c : Prop) [Decidable c] (f g : Fld α) :
    (if c then f else g).Gives P ↔ (c → f.Gives P) ∧ (¬c → g.Gives P) := by
  split <;> simp [*]

/-- A field that decodes exactly the values of which Q holds. -/
theorem Fld.gives_iff {f : Fld α} {Q : α → Prop} (h : ∀ a, f = .ok a ↔ Q a) : f.Gives P ↔ ∀ a, Q a → P a := by
  simp [Fld.Gives, h]

/-- A field with no value of its own. -/
theorem Fld.gives_unit {f : Fld Unit} {c : Prop} {P : Unit → Prop} (h : f = .ok () ↔ c) : f.Gives P ↔ (c → P ()) :=
  ⟨fun g hc => g () (h.2 hc), fun g _ e => g (h.1 e)⟩
end

@[simp] theorem Fld.ap_ok {α β : Type} (g : α → β) (a : α) : (Fld.ok g).ap (.ok a) = .ok (g a) := rfl
@[simp] theorem Fld.chk_ok {α : Type} (a : α) : (Fld.ok a).chk (.ok ()) = .ok a := rfl
@[simp] theorem Fld.mz_eq_ok {α : Type} (f : Fld α) (z : Bool) (a : α) : f.mz z = .ok a ↔ z = true ∧ f = .ok a := by
  cases z <;> simp [Fld.mz]

@[simp] theorem Fld.lim_eq_ok (f : Fld Instr) (i : Instr) : f.lim = .ok i ↔ f = .ok i ∧ i.inLimits = true := by
  cases f with
  | ok j => cases h : j.inLimits <;> simp [Fld.lim, h] <;> grind
  | ill => simp [Fld.lim]
  | rsv => simp [Fld.lim]

/-! ### Operand specifiers -/

@[simp] theorem asS_encS : ∀ i, asS (encS i) = .ok i := by decide
@[simp] theorem asV_encV : ∀ i, asV (encV i) = .ok i := by decide
@[simp] theorem asP_encP : ∀ i, asP (encP i) = .ok i := by decide
@[simp] theorem asK_encK : ∀ i, asK (encK i) = .ok i := by decide
@[simp] theorem asD_encD : ∀ i, asD (encD i) = .ok i := by decide
@[simp] theorem asAny_encS : ∀ i, asAny (encS i) = .ok (.s i) := by decide
@[simp] theorem asAny_encV : ∀ i, asAny (encV i) = .ok (.v i) := by decide
@[simp] theorem asAny_encP : ∀ i, asAny (encP i) = .ok (.p i) := by decide
@[simp] theorem asAny_encK : ∀ i, asAny (encK i) = .ok (.k i) := by decide
@[simp] theorem encS_eq_zero : ∀ i, encS i = 0#8 ↔ i = 0 := by decide
theorem encV_ne_zero : ∀ i, encV i ≠ 0#8 := by decide
@[simp] theorem kind_encV : ∀ i, (encV i).extractLsb' 6 2 = 1#2 := by decide
@[simp] theorem kind_encD : ∀ i, (encD i).extractLsb' 6 2 = 3#2 := by decide
@[simp] theorem asAny_encReg (g : Reg) : asAny (encReg g) = .ok g := by cases g <;> simp [encReg]

/-- Every specifier that decodes is the one its register has. -/
theorem eq_of_asS : ∀ b i, asS b = .ok i → b = encS i := by decide +kernel
theorem eq_of_asV : ∀ b i, asV b = .ok i → b = encV i := by decide +kernel
theorem eq_of_asP : ∀ b i, asP b = .ok i → b = encP i := by decide +kernel
theorem eq_of_asK : ∀ b i, asK b = .ok i → b = encK i := by decide +kernel
theorem eq_of_asD : ∀ b i, asD b = .ok i → b = encD i := by decide +kernel
theorem eq_of_asAny (b : BitVec 8) (g : Reg) (h : asAny b = .ok g) : b = encReg g := by
  have all : ∀ b, (match asAny b with | .ok g => decide (b = encReg g) | _ => true) = true := by decide +kernel
  have := all b
  rw [h] at this
  exact of_decide_eq_true this

section
variable (b : BitVec 8)
@[simp] theorem gives_asS (P : SIx → Prop) : (asS b).Gives P ↔ ∀ i, b = encS i → P i :=
  Fld.gives_iff fun i => ⟨eq_of_asS b i, fun h => h ▸ asS_encS i⟩

@[simp] theorem gives_asV (P : VIx → Prop) : (asV b).Gives P ↔ ∀ i, b = encV i → P i :=
  Fld.gives_iff fun i => ⟨eq_of_asV b i, fun h => h ▸ asV_encV i⟩

@[simp] theorem gives_asP (P : PIx → Prop) : (asP b).Gives P ↔ ∀ i, b = encP i → P i :=
  Fld.gives_iff fun i => ⟨eq_of_asP b i, fun h => h ▸ asP_encP i⟩

@[simp] theorem gives_asK (P : KIx → Prop) : (asK b).Gives P ↔ ∀ i, b = encK i → P i :=
  Fld.gives_iff fun i => ⟨eq_of_asK b i, fun h => h ▸ asK_encK i⟩

@[simp] theorem gives_asD (P : DIx → Prop) : (asD b).Gives P ↔ ∀ i, b = encD i → P i :=
  Fld.gives_iff fun i => ⟨eq_of_asD b i, fun h => h ▸ asD_encD i⟩

@[simp] theorem gives_asAny (P : Reg → Prop) : (asAny b).Gives P ↔ ∀ g, b = encReg g → P g :=
  Fld.gives_iff fun g => ⟨eq_of_asAny b g, fun h => h ▸ asAny_encReg g⟩

@[simp] theorem gives_asZero (P : Unit → Prop) : (asZero b).Gives P ↔ (b = 0 → P ()) :=
  Fld.gives_unit (by
    unfold asZero
    split
    case isTrue zero => exact iff_of_true rfl zero
    case isFalse nonzero => split <;> exact iff_of_false nofun nonzero)
end

/-- The register of CH.BINDREG is named by its specifier alone. -/
theorem asBind_eq_ok (b : BitVec 8) (d : BindDst) : asBind b = .ok d ↔ d.ok = true ∧ b = encBind d := by
  constructor
  · have all : ∀ b, (match asBind b with | .ok d => d.ok && decide (b = encBind d) | _ => true) = true := by
      decide +kernel
    intro h
    have := all b
    rw [h] at this
    simpa using this
  · rintro ⟨ok, rfl⟩
    cases d with
    | none => rfl
    | s i => simp_all [asBind, encBind, BindDst.ok]
    | v i => simp [asBind, encBind, encV_ne_zero]

@[simp] theorem gives_asBind (b : BitVec 8) (P : BindDst → Prop) :
    (asBind b).Gives P ↔ ∀ d, d.ok = true ∧ b = encBind d → P d :=
  Fld.gives_iff (asBind_eq_ok b)

/-- The operands of PMOV are named by their two specifiers. -/
theorem asPmov_eq_ok (r : Raw) (o : PmovOps) : asPmov r = .ok o ↔ r.d = o.encD ∧ r.a = o.encA := by
  constructor
  · unfold asPmov
    intro h
    split at h <;> cases h
    all_goals next hd ha => exact ⟨eq_of_asAny r.d _ hd, eq_of_asAny r.a _ ha⟩
  · rintro ⟨hd, ha⟩
    cases o <;> simp [asPmov, hd, ha, PmovOps.encD, PmovOps.encA]

@[simp] theorem asPmov_enc (op : BitVec 8) (fn : BitVec 6) (h : Hdr) (o : PmovOps) (b : BitVec 8) (x : BitVec 48) :
    asPmov ⟨op, fn, h, o.encD, o.encA, b, x⟩ = .ok o := (asPmov_eq_ok _ o).2 ⟨rfl, rfl⟩

@[simp] theorem gives_asPmov (r : Raw) (P : PmovOps → Prop) :
    (asPmov r).Gives P ↔ ∀ o, r.d = o.encD ∧ r.a = o.encA → P o :=
  Fld.gives_iff (asPmov_eq_ok r)

/-! ### Coded fields -/

/-- A field of so many bits holds a value exactly where it holds the value's code. (The first half, which the second implies, is what
rewrites a field that was encoded; the second one rewrites a field that decodes.) -/
abbrev Coded {α : Type} (w : Nat) (f : Nat → Option α) (c : α → Nat) : Prop :=
  (∀ a, f (BitVec.ofNat w (c a)).toNat = some a) ∧ ∀ (x : BitVec w) a, f x.toNat = some a ↔ x = BitVec.ofNat w (c a)

theorem Coded.of {α : Type} {w : Nat} {f : Nat → Option α} {c : α → Nat} [DecidableEq α]
    (named : ∀ a, f (BitVec.ofNat w (c a)).toNat = some a)
    (all : ∀ x : BitVec w, (f x.toNat).all (fun a => x = BitVec.ofNat w (c a)) = true) : Coded w f c := by
  refine ⟨named, fun x a => ⟨fun h => ?_, fun h => h ▸ named a⟩⟩
  have := all x
  rw [h] at this
  exact of_decide_eq_true this

@[simp] theorem Ty.coded : Coded 5 Ty.ofCode Ty.code := .of (by rintro ⟨⟩ <;> rfl) (by decide)
@[simp] theorem Rm.coded : Coded 3 Rm.ofCode Rm.code := .of (by rintro ⟨⟩ <;> rfl) (by decide)
@[simp] theorem Sz.coded : Coded 4 Sz.ofCode Sz.code := .of (by rintro ⟨⟩ <;> rfl) (by decide)
@[simp] theorem Scope.coded : Coded 3 Scope.ofCode Scope.code := .of (by rintro ⟨⟩ <;> rfl) (by decide)
@[simp] theorem Ord.coded : Coded 3 Ord.ofCode Ord.code := .of (by rintro ⟨⟩ <;> rfl) (by decide)
@[simp] theorem Cond.coded : Coded 3 Cond.ofCode Cond.code := .of (by rintro ⟨⟩ <;> rfl) (by decide)
@[simp] theorem FCond.coded : Coded 3 FCond.ofCode FCond.code := .of (by rintro ⟨⟩ <;> rfl) (by decide)
@[simp] theorem ICond.coded : Coded 3 ICond.ofCode ICond.code := .of (by rintro ⟨⟩ <;> rfl) (by decide)
@[simp] theorem Rop.coded : Coded 3 Rop.ofCode Rop.code := .of (by rintro ⟨⟩ <;> rfl) (by decide)
@[simp] theorem XaCond.coded : Coded 2 XaCond.ofCode XaCond.code := .of (by rintro ⟨⟩ <;> rfl) (by decide)
@[simp] theorem Level.coded : Coded 2 Level.ofCode Level.code := .of (by rintro ⟨⟩ <;> rfl) (by decide)
@[simp] theorem AOp.coded : Coded 6 AOp.ofCode AOp.code := .of (by rintro ⟨⟩ <;> rfl) (by decide)
@[simp] theorem Tqt.coded : Coded 2 Tqt.ofCode Tqt.code := .of (by rintro ⟨⟩ <;> rfl) (by decide)
@[simp] theorem Vt.coded : Coded 2 Vt.ofCode Vt.code := .of (by rintro ⟨⟩ <;> rfl) (by decide)
@[simp] theorem TurnW.coded : Coded 2 TurnW.ofCode TurnW.code := .of (by rintro ⟨⟩ <;> rfl) (by decide)
@[simp] theorem RcW.coded : Coded 2 RcW.ofCode RcW.code := .of (by rintro ⟨⟩ <;> rfl) (by decide)
@[simp] theorem TlbScope.coded : Coded 2 TlbScope.ofCode TlbScope.code := .of (by rintro ⟨⟩ <;> rfl) (by decide)
@[simp] theorem HeapW.coded : Coded 2 HeapW.ofCode HeapW.code := .of (by rintro ⟨⟩ <;> rfl) (by decide)
@[simp] theorem Tr.coded : Coded 2 Tr.ofCode Tr.code := .of (by rintro ⟨⟩ <;> rfl) (by decide)
@[simp] theorem Fill.coded : Coded 2 Fill.ofCode Fill.code := .of (by rintro ⟨⟩ <;> rfl) (by decide)
@[simp] theorem MxW.coded : Coded 2 MxW.ofCode MxW.code := .of (by rintro ⟨⟩ <;> rfl) (by decide)
@[simp] theorem XchW.coded : Coded 3 XchW.ofCode XchW.code := .of (by rintro ⟨⟩ <;> rfl) (by decide)
@[simp] theorem RecW.coded : Coded 2 RecW.ofCode RecW.code := .of (by rintro ⟨⟩ <;> rfl) (by decide)
@[simp] theorem EinjK.coded : Coded 2 EinjK.ofCode EinjK.code := .of (by rintro ⟨⟩ <;> rfl) (by decide)
theorem SpReg.code_of_ofCode {n : Nat} {p : SpReg} (h : SpReg.ofCode n = some p) : p.code = n := by
  unfold SpReg.ofCode at h
  split at h <;> cases h <;> rfl

@[simp] theorem SpReg.coded : Coded 48 SpReg.ofCode SpReg.code := by
  have named : ∀ p : SpReg, SpReg.ofCode (BitVec.ofNat 48 p.code).toNat = some p := by rintro ⟨⟩ <;> rfl
  refine ⟨named, fun x p => ⟨fun h => ?_, fun h => h ▸ named p⟩⟩
  rw [SpReg.code_of_ofCode h, BitVec.ofNat_toNat, BitVec.setWidth_eq]

@[simp] theorem Ty.code_mod (t : Ty) : t.code % 32 = t.code := by cases t <;> rfl
@[simp] theorem Ty.toNat_ofNat_code (t : Ty) : (BitVec.ofNat 5 t.code).toNat = t.code := by cases t <;> rfl
@[simp] theorem Ty.ofCode_code (t : Ty) : Ty.ofCode t.code = some t := by cases t <;> rfl
@[simp] theorem Ty.code_inj {t u : Ty} : t.code = u.code ↔ t = u :=
  ⟨fun h => Option.some.inj (by rw [← Ty.ofCode_code t, h, Ty.ofCode_code u]), congrArg _⟩

@[simp] theorem Rm.ofNat_code_eq_zero {rm : Rm} : BitVec.ofNat 3 rm.code = 0#3 ↔ rm = .rne := by cases rm <;> decide
@[simp] theorem Tqt.ofNat_code_eq_zero {q : Tqt} : BitVec.ofNat 2 q.code = 0#2 ↔ q = .int := by cases q <;> decide
@[simp] theorem Ord.ofCode_zero : Ord.ofCode 0 = some .rlx := rfl
@[simp] theorem Ord.ofNat_code_rlx : BitVec.ofNat 3 Ord.rlx.code = 0#3 := rfl

section
variable {α : Type} (f : Nat → Option α) (n : Nat)
@[simp] theorem gives_asCode (P : α → Prop) : (asCode f n).Gives P ↔ ∀ a, f n = some a → P a :=
  Fld.gives_iff fun a => by unfold asCode; cases f n <;> simp

@[simp] theorem gives_asCodeOf (acc : α → Bool) (P : α → Prop) :
    (asCodeOf f acc n).Gives P ↔ ∀ a, f n = some a ∧ acc a = true → P a :=
  Fld.gives_iff fun a => by
    unfold asCodeOf
    cases f n with
    | none => simp
    | some b =>
      show (if acc b then Fld.ok b else Fld.ill) = .ok a ↔ some b = some a ∧ acc a = true
      split <;> grind

@[simp] theorem gives_asCodeIs [DecidableEq α] (v : α) (P : Unit → Prop) : (asCodeIs f v n).Gives P ↔ (f n = some v → P ()) :=
  Fld.gives_unit (by unfold asCodeIs; cases f n <;> simp)

@[simp] theorem gives_asTy (acc : Ty → Bool) (P : Ty → Prop) :
    (asTy acc n).Gives P ↔ ∀ a, Ty.ofCode n = some a ∧ acc a = true → P a := gives_asCodeOf ..

@[simp] theorem gives_asSz (acc : Sz → Bool) (P : Sz → Prop) :
    (asSz acc n).Gives P ↔ ∀ a, Sz.ofCode n = some a ∧ acc a = true → P a := gives_asCodeOf ..

@[simp] theorem gives_asOrd (acc : Ord → Bool) (P : Ord → Prop) :
    (asOrd acc n).Gives P ↔ ∀ a, Ord.ofCode n = some a ∧ acc a = true → P a := gives_asCodeOf ..

@[simp] theorem gives_asTyIs (t : Ty) (P : Unit → Prop) : (asTyIs t n).Gives P ↔ (Ty.ofCode n = some t → P ()) :=
  gives_asCodeIs ..

@[simp] theorem gives_asSzIs (z : Sz) (P : Unit → Prop) : (asSzIs z n).Gives P ↔ (Sz.ofCode n = some z → P ()) :=
  gives_asCodeIs ..

@[simp] theorem gives_asOrdIs (o : Ord) (P : Unit → Prop) : (asOrdIs o n).Gives P ↔ (Ord.ofCode n = some o → P ()) :=
  gives_asCodeIs ..
end

section
variable (r : Raw)
@[simp] theorem gives_asB (i : Nat) (P : Bool → Prop) : (asB r i).Gives P ↔ P (extBit r i) := Fld.gives_ok _
@[simp] theorem gives_asMask (P : VMask → Prop) :
    (asMask r).Gives P ↔ (VMask.ok ⟨xf r 29 3, extBit r 28⟩ = true → P ⟨xf r 29 3, extBit r 28⟩) := by simp [asMask]

@[simp] theorem gives_asSync (P : ESync → Prop) : (asSync r).Gives P ↔
    (ESync.ok ⟨xf r 40 8, xf r 32 8, xf r 24 8, xf r 16 8⟩ = true → P ⟨xf r 40 8, xf r 32 8, xf r 24 8, xf r 16 8⟩) := by
  simp [asSync]

@[simp] theorem gives_asMt (m : BitVec 6) (P : BitVec 6 → Prop) : (asMt m).Gives P ↔ (m ≠ 63 → P m) := by simp [asMt]
@[simp] theorem gives_asMt63 (m : BitVec 6) (P : Unit → Prop) : (asMt63 m).Gives P ↔ (m = 63 → P ()) := by simp [asMt63]
@[simp] theorem gives_asU16 (P : BitVec 16 → Prop) : (asU16 r).Gives P ↔ (xf r 16 32 = 0 → P (xf r 0 16)) := by simp [asU16]
@[simp] theorem gives_asSpReg (P : SpReg → Prop) : (asSpReg r).Gives P ↔ ∀ p, r.x = BitVec.ofNat 48 p.code → P p :=
  Fld.gives_iff fun p => by
    rw [← SpReg.coded.2]
    unfold asSpReg
    cases SpReg.ofCode r.x.toNat <;> simp
end

/-! ### Fields of X -/

/-- A field that is two fields, the low one n bits wide. -/
theorem toNat_append_eq_xf {m n k s : Nat} (a : BitVec m) (b : BitVec n) (r : Raw) (h : k = m + n) :
    (a ++ b).toNat = (xf r s k).toNat ↔ a.toNat = (xf r (s + n) m).toNat ∧ b.toNat = (xf r s n).toNat := by
  subst h
  simp only [BitVec.toNat_inj, xf]
  rw [← BitVec.extractLsb'_append_extractLsb'_eq_extractLsb' (start₁ := s) rfl]
  constructor
  · intro h
    constructor
    · simpa [BitVec.extractLsb'_append_eq_of_le] using congrArg (BitVec.extractLsb' n m) h
    · simpa [BitVec.extractLsb'_append_eq_of_add_le] using congrArg (BitVec.extractLsb' 0 n) h
  · rintro ⟨rfl, rfl⟩
    rfl

theorem toNat_append_eq_x {m n : Nat} (a : BitVec m) (b : BitVec n) (r : Raw) (h : m + n = 48) :
    (a ++ b).toNat = r.x.toNat ↔ a.toNat = (xf r n m).toNat ∧ b.toNat = (xf r 0 n).toNat := by
  have := toNat_append_eq_xf (s := 0) a b r h.symm
  rwa [Nat.zero_add, xf, BitVec.extractLsb'_eq_self] at this

@[simp] theorem xf_all (r : Raw) : xf r 0 48 = r.x := BitVec.extractLsb'_eq_self
theorem ofBool_getLsbD {w : Nat} (x : BitVec w) (i : Nat) : BitVec.ofBool (x.getLsbD i) = x.extractLsb' i 1 := by
  ext j h
  obtain rfl : j = 0 := by omega
  simp

theorem ofBool_extBit (r : Raw) (i : Nat) : BitVec.ofBool (extBit r i) = xf r i 1 := ofBool_getLsbD r.x i
theorem extractLsb'_x (r : Raw) (lo n : Nat) : r.x.extractLsb' lo n = xf r lo n := rfl
@[simp] theorem toNat_xf_one (r : Raw) (i : Nat) : (xf r i 1).toNat = (extBit r i).toNat := by
  rw [← ofBool_extBit, BitVec.toNat_ofBool]

@[simp] theorem xf_one_eq_zero (r : Raw) (i : Nat) : xf r i 1 = 0#1 ↔ extBit r i = false := by
  rw [← ofBool_extBit]
  cases extBit r i <;> decide

@[simp] theorem ofBool_eq_zero {b : Bool} : BitVec.ofBool b = 0#1 ↔ b = false := by cases b <;> decide
theorem extBit_of_xf {r : Raw} {lo n : Nat} {v : BitVec n} (h : xf r lo n = v) {i : Nat} (lt : i < n) :
    extBit r (lo + i) = v.getLsbD i := by
  rw [← h, xf, BitVec.getLsbD_extractLsb', decide_eq_true lt, Bool.true_and, extBit]

/-- The two low bits of X, which choose between the forms of XLAT. -/
theorem xlatBits_eq (r : Raw) (v : BitVec 2) : xf r 0 2 = v ↔ extBit r 0 = v.getLsbD 0 ∧ extBit r 1 = v.getLsbD 1 := by
  refine ⟨fun h => ⟨extBit_of_xf h (i := 0) (by decide), extBit_of_xf h (i := 1) (by decide)⟩, fun ⟨h0, h1⟩ => ?_⟩
  ext i lt
  interval_cases i
  · simpa [xf, extBit] using h0
  · simpa [xf, extBit] using h1

theorem xlatBits_zero (r : Raw) : xf r 0 2 = 0#2 ↔ extBit r 0 = false ∧ extBit r 1 = false := xlatBits_eq r 0#2
theorem xlatBits_one (r : Raw) : xf r 0 2 = 1#2 ↔ extBit r 0 = true ∧ extBit r 1 = false := xlatBits_eq r 1#2
theorem extractLsb'_full {w s : Nat} (x : BitVec w) (h : s = 0) : x.extractLsb' s w = x := by
  rw [h, BitVec.extractLsb'_eq_self]

theorem getLsbD_append_low {m n i : Nat} {a : BitVec m} {b : BitVec n} (h : i < n) : (a ++ b).getLsbD i = b.getLsbD i := by
  rw [BitVec.getLsbD_append, if_pos h]

theorem getLsbD_append_high {m n i : Nat} {a : BitVec m} {b : BitVec n} (h : n ≤ i) : (a ++ b).getLsbD i = a.getLsbD (i - n) := by
  rw [BitVec.getLsbD_append, if_neg (by omega)]

theorem getLsbD_ofBool_zero {b : Bool} {i : Nat} (h : i = 0) : (BitVec.ofBool b).getLsbD i = b := by
  subst h
  cases b <;> rfl

/-! ### Rows of the decoder -/

/-- A form that is well formed and whose fields are those given. -/
structure Encodes (r : Raw) (i : Instr) : Prop where
  wellFormed : i.wellFormed = true
  fields : encodeRaw i = some r

/-- A row of the decoder gives only forms whose fields are those given. -/
def RowSound (r : Raw) (o : Option (Fld Instr)) : Prop := ∀ f, o = some f → f.Gives (Encodes r)
@[simp] theorem rowSound_some (r : Raw) (f : Fld Instr) : RowSound r (some f) ↔ f.Gives (Encodes r) := by simp [RowSound]
@[simp] theorem rowSound_none (r : Raw) : RowSound r none := by simp [RowSound]

/-- What a form's row shows field by field. -/
theorem Encodes.of {r : Raw} {i : Instr} {op fn h d a b x} (e : encodeRaw i = some ⟨op, fn, h, d, a, b, x⟩)
    (lim : i.inLimits = true) (fields : i.fieldsOk = true) (common : r.op.toNat = op.toNat ∧ r.fn.toNat = fn.toNat ∧ r.h = h)
    (operands : r.d = d ∧ r.a = a ∧ r.b = b) (ext : x.toNat = r.x.toNat) : Encodes r i := by
  refine ⟨by rw [Instr.wellFormed, fields, lim]; rfl, e.trans (congrArg some ?_)⟩
  cases r
  simp_all [BitVec.toNat_inj]

theorem decodeRaw_of_row {r : Raw} {f : Fld Instr} {i : Instr} (row : decodeRaw r = some f) (e : f = .ok i) :
    decodeRaw r = some (.ok i) := e ▸ row

/-- Rows in which one field limits another (R141 to R143, R171, R271). -/
theorem checkedRows_sound (r : Raw) :
    (r.op.toNat = 0x33 → RowSound r (decode33 r)) ∧ (r.op.toNat = 0x34 → RowSound r (decode34 r)) ∧
    (r.op.toNat = 0x62 → RowSound r (decode62 r)) ∧ (r.op.toNat = 0x91 → RowSound r (decode91 r)) ∧
    (r.op.toNat = 0xA8 → RowSound r (decodeA8 r)) := by
  refine ⟨fun _ => ?_, fun _ => ?_, fun _ => ?_, fun _ => ?_, fun _ => ?_⟩
  all_goals
    simp only [decode33, decode34, decode62, decode91, decodeA8]
    split
  all_goals
    simp only [rowSound_some, rowSound_none, Fld.gives_lim, Fld.gives_mz, Fld.gives_ap, Fld.gives_ok, gives_asS, gives_asV, gives_asD,
      gives_asTy, gives_asCode, gives_asMask, gives_asSync, gives_asMt, gives_asB, Ty.coded, Rm.coded, Rop.coded, Tqt.coded, Tr.coded,
      XchW.coded, xf_all, decide_eq_true_eq, and_imp]
  all_goals
    intros
    refine Encodes.of rfl ‹_› ?_ ⟨‹_›, ‹_›, rfl⟩ ⟨‹_›, ‹_›, ‹_›⟩ ?_
    · unfold Instr.fieldsOk
      simp_all [intRmBad, vcvtBad, vquantBad, rsemBad, Ty.isInt, extractLsb'_x, or_iff_not_imp_left]
    · simp (disch := decide) only [toNat_append_eq_x, toNat_append_eq_xf, ofBool_extBit, *]
      simp [*]

/-- Rows with cells of several forms, which bits of X or the kind of a specifier tell apart. -/
theorem chosenRows_sound (r : Raw) :
    (r.op.toNat = 0x76 → RowSound r (decode76 r)) ∧ (r.op.toNat = 0x83 → RowSound r (decode83 r)) ∧
    (r.op.toNat = 0x84 → RowSound r (decode84 r)) ∧ (r.op.toNat = 0x92 → RowSound r (decode92 r)) ∧
    (r.op.toNat = 0xB0 → RowSound r (decodeB0 r)) := by
  refine ⟨fun _ => ?_, fun _ => ?_, fun _ => ?_, fun _ => ?_, fun _ => ?_⟩
  all_goals
    simp only [decode76, decode83, decode84, decode92, decodeB0]
    split
  all_goals
    simp only [rowSound_some, rowSound_none, Fld.gives_lim, Fld.gives_mz, Fld.gives_ap, Fld.gives_chk, Fld.gives_ite, Fld.gives_ok,
      gives_asS, gives_asV, gives_asP, gives_asD, gives_asZero, gives_asCode, gives_asSync, gives_asB, Rm.coded, Tqt.coded, Vt.coded, TlbScope.coded,
      HeapW.coded, Fill.coded, MxW.coded, RecW.coded, xf_all, decide_eq_true_eq]
  all_goals and_intros
  all_goals intros
  all_goals and_intros
  all_goals
    intros
    refine Encodes.of rfl ‹_› ?_ ⟨‹_›, ‹_›, rfl⟩ ⟨‹_›, ‹_›, ‹_›⟩ ?_
    · unfold Instr.fieldsOk
      simp_all [extractLsb'_x, or_iff_not_imp_left]
    · simp (disch := decide) only [toNat_append_eq_x, toNat_append_eq_xf, ofBool_extBit, *]
      simp_all [extractLsb'_x, xlatBits_zero, xlatBits_one]

/-- Every row of the decoder gives only forms whose fields are those of the word. -/
theorem decodeRaw_sound (r : Raw) : RowSound r (decodeRaw r) := by
  obtain ⟨s33, s34, s62, s91, sA8⟩ := checkedRows_sound r
  obtain ⟨s76, s83, s84, s92, sB0⟩ := chosenRows_sound r
  unfold decodeRaw
  split
  case h_14 op => exact s33 op
  case h_15 op => exact s34 op
  case h_21 op => exact s62 op
  case h_26 op => exact s76 op
  case h_31 op => exact s83 op
  case h_32 op => exact s84 op
  case h_34 op => exact s91 op
  case h_35 op => exact s92 op
  case h_37 op => exact sA8 op
  case h_39 op => exact sB0 op
  all_goals
    simp only [decode01, decode02, decode03, decode04, decode10, decode11, decode12, decode13, decode14, decode15, decode30, decode31,
      decode32, decode35, decode36, decode37, decode60, decode61, decode63, decode70, decode74, decode75, decode77, decode80, decode81,
      decode82, decode90, decodeA0, decodeA9, decodeB8, rowSound_none]
  all_goals split
  all_goals
    simp only [rowSound_some, rowSound_none, Fld.gives_lim, Fld.gives_mz, Fld.gives_ap, Fld.gives_chk, Fld.gives_ok, gives_asS, gives_asV,
      gives_asP, gives_asK, gives_asD, gives_asAny, gives_asPmov, gives_asBind, gives_asTy, gives_asTyIs, gives_asSz, gives_asSzIs,
      gives_asOrd, gives_asOrdIs, gives_asCode, gives_asMask, gives_asMt63, gives_asB, gives_asU16, gives_asSpReg, Ty.coded, Rm.coded,
      Sz.coded, Scope.coded, Ord.coded, Cond.coded, FCond.coded, ICond.coded, XaCond.coded, Level.coded, AOp.coded, TurnW.coded,
      RcW.coded, EinjK.coded, xf_all, decide_eq_true_eq, and_imp]
  all_goals
    intros
    refine Encodes.of rfl ‹_› (by unfold Instr.fieldsOk; simp [*]) ⟨‹_›, ‹_›, rfl⟩ ⟨‹_›, ‹_›, ‹_›⟩ ?_
    simp (disch := decide) only [toNat_append_eq_x, toNat_append_eq_xf, ofBool_extBit, *] <;> simp [*]

/-- Form by form, the row of the form's cell reads back each operand from the field that holds it. -/
theorem decodeRaw_encodeRaw {i : Instr} {r : Raw} (fields : i.fieldsOk = true) (lim : i.inLimits = true) (e : encodeRaw i = some r) :
    decodeRaw r = some (.ok i) := by
  cases i <;> cases e
  case' chBindreg.refl ep d => have named : asBind (encBind d) = .ok d := (asBind_eq_ok _ d).2 ⟨lim, rfl⟩
  all_goals
    refine decodeRaw_of_row rfl ?_
    unfold Instr.fieldsOk at fields
    simp (disch := decide) only [BitVec.extractLsb'_append_eq_of_le, BitVec.extractLsb'_append_eq_of_add_le, extractLsb'_full,
      getLsbD_append_low, getLsbD_append_high, getLsbD_ofBool_zero, xf, asMask, asSync, asU16, asSpReg, intRmBad, vcvtBad, vquantBad,
      rsemBad, extBit, asB]
    simp_all [asTy, asSz, asOrd, asTyIs, asSzIs, asOrdIs, asCodeOf, asCode, asCodeIs, Sz.any, Ord.any, Ty.isInt,
      or_iff_not_imp_left, asMt, asMt63, asZero, -BitVec.toNat_ofNat]

/-! ### Words -/

/-- The fields that a word holds. -/
theorem unpack_pack (r : Raw) : Raw.unpack r.pack = r := by
  obtain ⟨op, fn, ⟨g, gn, hl, hq⟩, d, a, b, x⟩ := r
  simp (disch := decide) only [Raw.pack, Raw.unpack, BitVec.extractLsb'_append_eq_of_le, BitVec.extractLsb'_append_eq_of_add_le,
    getLsbD_append_low, getLsbD_append_high, getLsbD_ofBool_zero, extractLsb'_full]

/-- The fields of a word hold it all. -/
theorem pack_unpack (w : IWord) : (Raw.unpack w).pack = w := by
  simp (disch := decide) only [Raw.pack, Raw.unpack, ofBool_getLsbD, BitVec.extractLsb'_append_extractLsb'_eq_extractLsb']
  exact BitVec.extractLsb'_eq_self

/-- The assigned cells are those that have a row (R57, R59). -/
theorem isSome_decodeRaw (r : Raw) : (decodeRaw r).isSome = assigned r.op.toNat r.fn.toNat := by
  unfold decodeRaw assigned
  split
  case h_41 => rfl
  all_goals
    simp only [decode01, decode02, decode03, decode04, decode10, decode11, decode12, decode13, decode14, decode15, decode30, decode31,
      decode32, decode33, decode34, decode35, decode36, decode37, decode60, decode61, decode62, decode63, decode70, decode74,
      decode75, decode76, decode77, decode80, decode81, decode82, decode83, decode84, decode90, decode91, decode92, decodeA0,
      decodeA8, decodeA9, decodeB0, decodeB8]
    split
  all_goals simp only [Option.isSome_some, Option.isSome_none]
  all_goals grind

theorem decodeRaw_eq_none {r : Raw} : decodeRaw r = none ↔ assigned r.op.toNat r.fn.toNat = false := by
  rw [← isSome_decodeRaw, Option.isSome_eq_false_iff, Option.isNone_iff_eq_none]

theorem decode_unassigned {w : IWord} (h : assigned (w.extractLsb' 88 8).toNat (w.extractLsb' 82 6).toNat = false) :
    decode w = .ok (.illegalInstruction w) := by
  rw [decode, decodeRaw_eq_none.2 h]

theorem encode_of_encodeRaw {i : Instr} {r : Raw} (h : encodeRaw i = some r) : encode i = some r.pack := by
  unfold encode
  split
  case h_1 w => cases h
  case h_2 => rw [h]; rfl

theorem encodeRaw_of_encode {i : Instr} {w : IWord} (h : encode i = some w) :
    i = .illegalInstruction w ∨ encodeRaw i = some (Raw.unpack w) := by
  unfold encode at h
  split at h
  case h_1 w => cases h; exact .inl rfl
  case h_2 =>
    obtain ⟨r, e, rfl⟩ := Option.map_eq_some_iff.1 h
    exact .inr (by rw [e, unpack_pack])

/-- A word decodes to the form of its row, or, in an unassigned cell, to the form that faults. -/
theorem decode_eq_ok {w : IWord} {i : Instr} (h : decode w = .ok i) :
    decodeRaw (Raw.unpack w) = some (.ok i) ∨ decodeRaw (Raw.unpack w) = none ∧ i = .illegalInstruction w := by
  unfold decode at h
  split at h <;> cases h
  case h_1 none => exact .inr ⟨none, rfl⟩
  case h_2 row => exact .inl row

theorem wellFormed_eq {i : Instr} : i.wellFormed = true ↔ i.fieldsOk = true ∧ i.inLimits = true := Bool.and_eq_true_iff
theorem wellFormed_illegalInstruction {w : IWord} : (Instr.illegalInstruction w).wellFormed = true ↔
    assigned (w.extractLsb' 88 8).toNat (w.extractLsb' 82 6).toNat = false := by
  rw [wellFormed_eq, and_iff_left (show (Instr.illegalInstruction w).inLimits = true from rfl)]
  exact (Bool.not_eq_true' (assigned _ _)).to_iff

theorem decode_of_encode {i : Instr} {w : IWord} (wf : i.wellFormed = true) (h : encode i = some w) : decode w = .ok i := by
  rcases encodeRaw_of_encode h with rfl | fields
  · exact decode_unassigned (wellFormed_illegalInstruction.1 wf)
  · obtain ⟨ok, lim⟩ := wellFormed_eq.1 wf
    rw [decode, decodeRaw_encodeRaw ok lim fields]

theorem encode_of_decode {i : Instr} {w : IWord} (h : decode w = .ok i) : i.wellFormed = true ∧ encode i = some w := by
  rcases decode_eq_ok h with row | ⟨none, rfl⟩
  · obtain ⟨wf, fields⟩ := decodeRaw_sound _ _ row i rfl
    exact ⟨wf, by rw [encode_of_encodeRaw fields, pack_unpack]⟩
  · exact ⟨wellFormed_illegalInstruction.2 (decodeRaw_eq_none.1 none), rfl⟩

/-- Settles O2: the decoder gives back every form that a word holds, and the encoder every word that decodes. -/
theorem decodeAndEncodeAgree : Obligations.DecodeAndEncodeAgree :=
  ⟨fun _ _ => decode_of_encode, fun _ _ => encode_of_decode⟩

end Sys2Proof
end

section
/-! The control-flow forms (R41, R93): where a transfer goes, and what a target that is not aligned or beyond the address space does. -/

namespace Sys2Proof.Machine

/-- Whether a transfer may go to a target: it is aligned and within the address space (R41). -/
def GoodTarget (t : Word) : Prop := t.toNat % 4 = 0 ∧ t.toNat < 2 ^ 56
/-- What a transfer to a target that it may not go to does (R41). -/
def BadTarget (s : State) (t : Word) (o : Outc) : Prop :=
  (t.toNat % 4 ≠ 0 → Faults s 0x06 t 0 o) ∧ (t.toNat % 4 = 0 → 2 ^ 56 ≤ t.toNat → Faults s 0x09 t 0 o)

theorem targetFault_good {t : Word} (h : GoodTarget t) : targetFault t = none := by
  rw [targetFault, if_neg (not_not.2 h.1), if_neg (Nat.not_le.2 h.2)]
theorem targetFault_misaligned {t : Word} (h : t.toNat % 4 ≠ 0) : targetFault t = some 0x06 := if_pos h
theorem targetFault_beyond {t : Word} (h : t.toNat % 4 = 0) (far : 2 ^ 56 ≤ t.toNat) : targetFault t = some 0x09 := by
  rw [targetFault, if_neg (not_not.2 h), if_pos far]
  rfl

section
variable {f : Form} {body : State → SlotRef → Ctx → Act} {s : State} {t : Word} (hr : Ready s f.h f.srcs f.dsts f.rgn)
include hr

/-- A form that faults with what its target's check gives. -/
theorem badTarget_of_trap (e : ∀ c, targetFault t = some c → body s s.cur (me s) = .trap c t 0) : BadTarget s t (runForm f body s) :=
  ⟨fun h => runForm_trap f body s _ _ _ hr (e _ (targetFault_misaligned h)),
    fun h far => runForm_trap f body s _ _ _ hr (e _ (targetFault_beyond h far))⟩

/-- A form that only transfers. -/
theorem runForm_transfer (e : body s s.cur (me s) = transfer s t) :
    (GoodTarget t → ResultsAt s f.h [] 3 [] t (runForm f body s)) ∧ BadTarget s t (runForm f body s) :=
  ⟨fun good => runForm_jump f body s 3 [] [] t hr (by rw [e, transfer, targetFault_good good]; rfl),
    badTarget_of_trap hr fun c bad => by rw [e, transfer, bad]⟩
/-- A form that transfers and writes a register. -/
theorem runForm_linkTo {srcs : List Reg} {d : SIx} {x : Word} (e : body s s.cur (me s) = linkTo s s.cur (me s) srcs d x t) :
    (GoodTarget t → ResultsAt s f.h srcs 3 [(.s d, sval x)] t (runForm f body s)) ∧ BadTarget s t (runForm f body s) :=
  ⟨fun good => runForm_jump f body s 3 srcs [(.s d, sval x)] t hr (by rw [e, linkTo, targetFault_good good]; rfl),
    badTarget_of_trap hr fun c bad => by rw [e, linkTo, bad]⟩
end

section
variable (s : State) (h : Hdr) (d a : SIx) (off : BitVec 48)

theorem exec_br (hr : Ready s h [] [] true) :
    (GoodTarget (branchTo (me s) off) → ResultsAt s h [] 3 [] (branchTo (me s) off) (exec (.br h off) s)) ∧
    BadTarget s (branchTo (me s) off) (exec (.br h off) s) := runForm_transfer hr rfl
theorem exec_bri (hr : Ready s h [.s a] [] true) :
    (GoodTarget (rs (me s) a) → ResultsAt s h [] 3 [] (rs (me s) a) (exec (.bri h a) s)) ∧
    BadTarget s (rs (me s) a) (exec (.bri h a) s) := runForm_transfer hr rfl
theorem exec_ret (hr : Ready s h [.s a] [] true) :
    (GoodTarget (rs (me s) a) → ResultsAt s h [] 3 [] (rs (me s) a) (exec (.ret h a) s)) ∧
    BadTarget s (rs (me s) a) (exec (.ret h a) s) := runForm_transfer hr rfl
theorem exec_call (hr : Ready s h [] [.s d] true) :
    (GoodTarget (branchTo (me s) off) →
      ResultsAt s h [] 3 [(.s d, sval ((me s).pc + 12))] (branchTo (me s) off) (exec (.call h d off) s)) ∧
    BadTarget s (branchTo (me s) off) (exec (.call h d off) s) := runForm_linkTo hr rfl
theorem exec_calli (hr : Ready s h [.s a] [.s d] true) :
    (GoodTarget (rs (me s) a) →
      ResultsAt s h [.s a] 3 [(.s d, sval ((me s).pc + 12))] (rs (me s) a) (exec (.calli h d a) s)) ∧
    BadTarget s (rs (me s) a) (exec (.calli h d a) s) := runForm_linkTo hr rfl
theorem exec_loop {t : Word} (hr : Ready s h [.s d] [.s d] true)
    (e : (if rs (me s) d - 1 = 0 then (me s).pc + 12 else branchTo (me s) off) = t) :
    (GoodTarget t → ResultsAt s h [.s d] 3 [(.s d, sval (rs (me s) d - 1))] t (exec (.loop h d off) s)) ∧
    BadTarget s t (exec (.loop h d off) s) := runForm_linkTo hr (e ▸ rfl)
end

/-- Settles O11, form by form. -/
theorem controlFlowTransfers : Obligations.ControlFlowTransfers := by
  refine ⟨fun s h d a off => ⟨?_, ?_, ?_, ?_, ?_⟩, fun s h d a off => ⟨?_, ?_, ?_, ?_, ?_⟩⟩
  -- a good target
  · exact fun hr => (exec_br s h off hr).1
  · exact fun hr good => ⟨(exec_bri s h a hr).1 good, (exec_ret s h a hr).1 good⟩
  · exact fun hr => (exec_call s h d off hr).1
  · exact fun hr => (exec_calli s h d a hr).1
  · exact fun hr => (exec_loop s h d off hr rfl).1
  -- a bad one
  · exact fun hr => (exec_br s h off hr).2
  · exact fun hr => ⟨(exec_bri s h a hr).2, (exec_ret s h a hr).2⟩
  · exact fun hr => (exec_call s h d off hr).2
  · exact fun hr => (exec_calli s h d a hr).2
  · exact fun hr counts => (exec_loop s h d off hr (if_neg fun zero => counts (sub_eq_zero.1 zero))).2

end Sys2Proof.Machine
end

section
/-! The cells that are not assigned (R59), the order of events and slots within a cycle, and sample words. -/

namespace Sys2Proof.Machine

theorem exec_illegalInstruction {s : State} (w : IWord) (b : (slotAt s s.cur).ph = .bound) :
    Faults s 0x01 0 0 (exec (.illegalInstruction w) s) := if_neg (not_not.2 b)

/-- The number of assigned cells of each major opcode of Table 5, from FN 0 up (R57, R58). -/
def table5 : List (Nat × Nat) :=
  [(0x01, 6), (0x02, 7), (0x03, 3), (0x04, 9), (0x10, 22), (0x11, 22), (0x12, 8), (0x13, 6), (0x14, 5), (0x15, 3), (0x30, 16),
    (0x31, 13), (0x32, 8), (0x33, 4), (0x34, 4), (0x35, 7), (0x36, 5), (0x37, 10), (0x60, 4), (0x61, 6), (0x62, 6), (0x63, 2),
    (0x70, 6), (0x74, 4), (0x75, 4), (0x76, 4), (0x77, 5), (0x80, 5), (0x81, 3), (0x82, 3), (0x83, 3), (0x84, 2), (0x90, 3),
    (0x91, 3), (0x92, 8), (0xA0, 2), (0xA8, 5), (0xA9, 2), (0xB0, 3), (0xB8, 5)]

/-- The cells of a table that counts them opcode by opcode. -/
theorem mem_cells (l : List (Nat × Nat)) (op fn : Nat) :
    (op, fn) ∈ l.flatMap (fun x => (List.range x.2).map fun n => (x.1, n)) ↔ ∃ n, (op, n) ∈ l ∧ fn < n := by
  simp only [List.mem_flatMap, List.mem_map, List.mem_range, Prod.exists, Prod.mk.injEq]
  constructor
  · rintro ⟨_, n, mem, _, lt, rfl, rfl⟩
    exact ⟨n, mem, lt⟩
  · rintro ⟨n, mem, lt⟩
    exact ⟨op, n, mem, fn, lt, rfl, rfl⟩

/-- The assigned cells are those of Table 5. -/
theorem assigned_iff_table5 (op fn : Nat) : assigned op fn = true ↔ ∃ n, (op, n) ∈ table5 ∧ fn < n := by
  unfold assigned
  split
  case h_41 => simp_all [table5]
  all_goals simp [table5, Nat.lt_succ_iff]

/-- Settles O4: such a word has no row, its form faults before anything is read, and the assigned cells are those of Table 5. -/
theorem unassignedCellsFault : Obligations.UnassignedCellsFault :=
  ⟨fun _ => decode_unassigned, fun _ => exec_illegalInstruction,
    fun op fn => (assigned_iff_table5 op fn).trans (mem_cells table5 op fn).symm⟩

/-- A machine whose slot waits for no register any more, with a time limit of SEM.WAIT.to due in the last part of the cycle. -/
def lateTimeout : State :=
  let s := modCtx (State.reset.withFetchWord 96 0) ⟨0, 0, 0⟩ fun c =>
    { c with park := some (waitBy State.reset (.nop ⟨0, false, 0, 0⟩) 0 (.regs []) 0 0 0 []) }
  { s with issueQ := [], agenda := [⟨0, phLate, 0, 0, .semWaitTimeout ⟨⟨0, 0, 0⟩, 1, 7⟩⟩] }

/-- How many events a step leaves. -/
def eventsLeft : Outc → Option Nat
  | .next s => some s.agenda.length
  | _ => none

theorem step_lateTimeout : eventsLeft (step lateTimeout) = some 1 := by decide +kernel

theorem exec_lateTimeout :
    eventsLeft (exec (Ev.semWaitTimeout ⟨⟨0, 0, 0⟩, 1, 7⟩).toInstr { lateTimeout with agenda := [] }) = some 0 := by decide +kernel

theorem putOff_lateTimeout : putOff { lateTimeout with agenda := [] } (.semWaitTimeout ⟨⟨0, 0, 0⟩, 1, 7⟩) = none := by decide +kernel

/-- Refutes O1: an event of the last part of a cycle is due and no core is left to issue, but a parked slot can go on, which it does
first, and the event stays in the agenda. -/
theorem not_stepRunsTheDecodedInstruction : ¬ Obligations.StepRunsTheDecodedInstruction := by
  intro h
  have runs := (h lateTimeout).2.1 _ _ rfl (Nat.le_refl 0) (.inr rfl) putOff_lateTimeout
  have left := step_lateTimeout
  rw [runs, exec_lateTimeout] at left
  exact absurd left (by decide)

/-- Settles O3: each word is decoded. -/
theorem sampleWordsDecode : Obligations.SampleWordsDecode := ⟨rfl, rfl, rfl, rfl, rfl, rfl, rfl, rfl, rfl⟩

end Sys2Proof.Machine
end

section
/-! The machine right after reset (R75, R118, R193, R212). -/

namespace Sys2Proof.Machine

theorem tileAt_reset (n : Node) : tileAt State.reset n = Tile.reset := rfl
theorem slotAt_reset (r : SlotRef) : slotAt State.reset r = Slot.reset r.slot := by
  unfold slotAt
  rw [tileAt_reset]
  by_cases lt : r.slot < 16
  · simp [Tile.reset, List.getD_eq_getElem?_getD, lt]
  · simp [Tile.reset, List.getD_eq_getElem?_getD, lt]
theorem turnsOk_reset : TurnsOk Tile.reset := by unfold TurnsOk; decide +kernel

/-- Settles O6: a tile and a slot of the reset machine are those of a tile's reset, and its first step is the clock's. -/
theorem resetLeavesTheMachineIdle : Obligations.ResetLeavesTheMachineIdle := by
  refine ⟨rfl, rfl, rfl, fun r _ => ?_, fun n => ⟨rfl, rfl, rfl, turnsOk_reset⟩, fun _ => rfl, rfl, rfl, rfl⟩
  rw [slotAt_reset]
  exact ⟨rfl, rfl, rfl, rfl, rfl, rfl⟩

end Sys2Proof.Machine
end

section
/-! A unit that waits, as its replies and expiries find it: what changing its context and ending its wait do (R77, R98). -/

namespace Sys2Proof.Machine

/-- Changing, after what only concerned its slot, the unit that the slot then holds. -/
theorem OnlySlot.modUnit_named {r : SlotRef} {s t : State} {uid : Nat} (only : OnlySlot r s t) (bound : (slotAt s r).ph = .bound)
    (named : (ctxAt t r).uid = uid) (g : Ctx → Ctx) :
    OnlySlot r s (modUnit t r uid g) ∧ ctxAt (modUnit t r uid g) r = g (ctxAt t r) := by
  have lt : r.slot < 16 := slot_lt s _ (by rw [bound]; decide)
  rw [← named, modUnit_bound _ _ g (only.bound.trans bound)]
  exact ⟨only.trans (.modCtx _ _ _ lt), ctxAt_modCtx_self _ _ _ lt⟩

section
variable {s : State} {w : Who} {p : Park} (h : Waits s w p)
include h

theorem faultWait_waits (code : Nat) (va aux : Word) : faultWait s w code va aux = takeFault s w.slot w.uid code va aux := by
  unfold faultWait
  rw [waitOf_waits h]
theorem unitAt_waits : unitAt s w.slot w.uid = some (ctxAt s w.slot) := by rw [← h.uid, unitAt_bound s _ h.bound]
/-- Changing the unit that a party names changes the context of its slot, and nothing else. -/
theorem OnlySlot.modUnit_waits (f : Ctx → Ctx) :
    OnlySlot w.slot s (modUnit s w.slot w.uid f) ∧ ctxAt (modUnit s w.slot w.uid f) w.slot = f (ctxAt s w.slot) :=
  (OnlySlot.refl ..).modUnit_named h.bound h.uid f
/-- A change of the unit that keeps its identity and its wait: it still waits so. -/
theorem Waits.modUnit {f : Ctx → Ctx} (uid : (f (ctxAt s w.slot)).uid = (ctxAt s w.slot).uid) (park : (f (ctxAt s w.slot)).park = (ctxAt s w.slot).park) :
    Waits (modUnit s w.slot w.uid f) w p := by
  obtain ⟨only, ctx⟩ := OnlySlot.modUnit_waits h f
  exact ⟨only.bound.trans h.bound, by rw [ctx, uid, h.uid], by rw [ctx, park, h.park], h.id, h.due, h.held⟩
/-- The end of a wait, and another change of the unit after it. -/
theorem finish_then (f g : Ctx → Ctx) (uid : (f (ctxAt s w.slot)).uid = w.uid) :
    OnlySlot w.slot s (modUnit (finish s w f) w.slot w.uid g) ∧
    ctxAt (modUnit (finish s w f) w.slot w.uid g) w.slot = g (ctxAt (finish s w f) w.slot) := by
  obtain ⟨only, ctx⟩ := finish_spec h f
  exact only.modUnit_named h.bound (by rw [ctx]; exact uid) g
/-- SLEEPR ends in the cycle of its expiry (R98). -/
theorem evSleeprExpiry_spec :
    OnlySlot w.slot s (evSleeprExpiry w s) ∧ ctxAt (evSleeprExpiry w s) w.slot = { ctxAt s w.slot with
      pc := (ctxAt s w.slot).pc + 12, issued := (ctxAt s w.slot).issued + 1, packet := (ctxAt s w.slot).packet.map fun x => (x.1, x.2 + 1)
      park := none, asked := none, readyFrom := s.now } := by
  have e : evSleeprExpiry w s = modUnit (finish s w id) w.slot w.uid fun c => { c with readyFrom := min c.readyFrom s.now } := by
    unfold evSleeprExpiry
    rw [waitOf_waits h]
  rw [e]
  obtain ⟨only, ctx⟩ := finish_then h id (fun c => { c with readyFrom := min c.readyFrom s.now }) h.uid
  refine ⟨only, ctx.trans ?_⟩
  rw [(finish_spec h id).2]
  simp only [id, Nat.min_eq_right (Nat.le_succ s.now)]
end

/-! ### A sleeper whose last request had a peer -/

/-- What the sleeper waits for. -/
def sleeprPark : Park := waitBy State.reset (.sleepr ⟨0, false, 0, 0⟩ 1) 0 .sleep 0 0 0 []
/-- A machine whose unit in slot 0 of tile 0 waits in SLEEPR, a request of its having gone to tile 0 before. -/
def sleeper : State := modSlot State.reset ⟨0, 0, 0⟩ fun l =>
  { l with ph := .bound, ctx := { l.ctx with asked := some ⟨0, 0⟩, park := some sleeprPark } }
theorem waits_sleeper : Waits sleeper ⟨⟨0, 0, 0⟩, 0, 0⟩ sleeprPark := ⟨rfl, rfl, rfl, rfl, rfl, rfl⟩

/-- Refutes O12: the expiry that ends SLEEPR also forgets to which place the last request of the slot went, which the context that the
statement gives still holds. -/
theorem not_nopYieldAndSleeprLeaveTurns : ¬ Obligations.NopYieldAndSleeprLeaveTurns := by
  rintro ⟨-, -, -, -, expiry⟩
  obtain ⟨t, e, -, ctx⟩ := expiry sleeper _ _ waits_sleeper
  obtain rfl : evSleeprExpiry ⟨⟨0, 0, 0⟩, 0, 0⟩ sleeper = t := Host.Outcome.next.inj e
  have kept : (ctxAt (evSleeprExpiry ⟨⟨0, 0, 0⟩, 0, 0⟩ sleeper) ⟨0, 0, 0⟩).asked = some ⟨0, 0⟩ := congrArg Ctx.asked ctx
  rw [(evSleeprExpiry_spec waits_sleeper).2] at kept
  cases kept

end Sys2Proof.Machine
end

section
/-! The spawn forms (R90, R101, R102): when their operands are good, what they send, and the one value that SPAWN.RET returns. -/

namespace Sys2Proof.Machine

/-- A form that goes on and waits from a state of the same cycle, ready. -/
theorem runForm_waitSame {f : Form} {body : State → SlotRef → Ctx → Act} {s s' : State} {id : Nat} {k : ParkKind} {lk lx : Nat} {va : Word}
    {aux : List Word} (hr : Ready s f.h f.srcs f.dsts f.rgn) (e : body s s.cur (me s) = .wait s' id k lk lx va aux) (now : s'.now = s.now) :
    Parks s f.h (waitBy s f.i id k lk lx va aux) s' (runForm f body s) := by
  have parks := runForm_wait f body s s' id k lk lx va aux hr e
  rwa [show waitBy s' f.i id k lk lx va aux = waitBy s f.i id k lk lx va aux by unfold waitBy; rw [now]] at parks

/-! ### What a spawn form asks for (R90, R101) -/

/-- The operands that a spawn form accepts: the id of a tile, and a target PC. -/
def SpawnOk (t pc : Word) : Prop := t.toNat < 2 ^ 12 ∧ pc.toNat % 4 = 0 ∧ pc.toNat < 2 ^ 56
/-- The request of the unit that issues, for a unit that begins at pc with the arguments from x on. -/
def spawnAsked (s : State) (isAt : Bool) (ret : Option SIx) (t pc : Word) (x : SIx) : SpawnReq :=
  ⟨⟨s.cur, (me s).uid, s.no⟩, ⟨s.cur.pkg, t.toNat⟩, spawnDesc s.cur (me s) pc ((List.range 4).map fun k => rs (me s) (sNext x k)) ret, isAt,
    (me s).d.det, if (me s).d.det then none else some (me s).recSeq, false⟩

section
variable {s : State} {isAt : Bool} {ret : Option SIx} {a b x : SIx}

theorem targetFault_isSome (t : Word) : (targetFault t).isSome = true ↔ ¬ (t.toNat % 4 = 0 ∧ t.toNat < 2 ^ 56) := by
  unfold targetFault
  split
  · simp_all
  · split <;> simp_all
theorem spawnForm_bad (bad : ¬ SpawnOk (rs (me s) a) (rs (me s) b)) :
    spawnForm isAt ret a b x s s.cur (me s) = .trap 0x03 0 0 := by
  refine if_pos ?_
  rw [targetFault_isSome]
  unfold SpawnOk at bad
  omega
theorem spawnForm_good (room : x.toNat ≤ 60) (ok : SpawnOk (rs (me s) a) (rs (me s) b)) : spawnForm isAt ret a b x s s.cur (me s) =
    release s s.cur (me s) .dom s.cur.node
      (let q := spawnAsked s isAt ret (rs (me s) a) (rs (me s) b) x
       let u := { s with no := s.no + 1 }
       .wait (asks (if isTile (rs (me s) a).toNat = true then
          sendMsg u s.cur s.cur.node q.target 3 2 [3, 5, slotKey s.cur] (pinOf (me s)) false (.spawnRequestLand q)
        else push u (s.now + 24) phLand (slotKey s.cur) (.spawnReplyLand q.who 2)) s.cur (me s).uid q.target) s.no .reply 0 0 0 []) := by
  refine if_neg ?_
  rw [targetFault_isSome]
  unfold SpawnOk at ok
  omega
end

section
variable {s : State} {f : Form} {body : State → SlotRef → Ctx → Act} {isAt : Bool} {ret : Option SIx} {a b x : SIx}
  (hr : Ready s f.h f.srcs f.dsts f.rgn) (e : body = spawnForm isAt ret a b x)
include hr e

/-- What a spawn form does, by its operands, by what of its unit is outstanding, and by whether its id names a tile. -/
theorem runForm_spawn (room : x.toNat ≤ 60) :
    let t := rs (me s) a
    let ok := SpawnOk t (rs (me s) b)
    let q := spawnAsked s isAt ret t (rs (me s) b) x
    let u := { s with no := s.no + 1 }
    let o := runForm f body s
    (¬ ok → Faults s 0x03 0 0 o) ∧
    (ok → releaseOk s s.cur (me s).uid .dom s.cur.node = false → Parks s f.h (waitBy s f.i s.no .cond 0 0 0 []) u o) ∧
    (ok → releaseOk s s.cur (me s).uid .dom s.cur.node = true → isTile t.toNat = true →
      let v := sendMsg u s.cur s.cur.node q.target 3 2 [3, 5, slotKey s.cur] (pinOf (me s)) false (.spawnRequestLand q)
      Parks s f.h (waitBy s f.i s.no .reply 0 0 0 []) (asks v s.cur (me s).uid q.target) o ∧ OnlySent s v) ∧
    (ok → releaseOk s s.cur (me s).uid .dom s.cur.node = true → isTile t.toNat = false →
      Parks s f.h (waitBy s f.i s.no .reply 0 0 0 [])
        (asks (push u (s.now + 24) phLand (slotKey s.cur) (.spawnReplyLand q.who 2)) s.cur (me s).uid q.target) o) := by
  subst e
  refine ⟨fun bad => runForm_trap f _ s _ _ _ hr (spawnForm_bad bad), fun ok held => ?_, fun ok free tile => ?_, fun ok free none => ?_⟩
  · exact runForm_cond f _ s 0 0 0 hr ((spawnForm_good room ok).trans (if_neg (by simp [held])))
  · have sent := (OnlySent.no s (s.no + 1)).trans (.sendMsg _ s.cur s.cur.node (spawnAsked s isAt ret (rs (me s) a) (rs (me s) b) x).target 3 2
      [3, 5, slotKey s.cur] (pinOf (me s)) false (.spawnRequestLand (spawnAsked s isAt ret (rs (me s) a) (rs (me s) b) x)))
    refine ⟨runForm_waitSame hr ((spawnForm_good room ok).trans ((if_pos free).trans ?_)) sent.now, sent⟩
    simp only [tile, if_true]
  · refine runForm_waitSame hr ((spawnForm_good room ok).trans ((if_pos free).trans ?_)) rfl
    simp only [none, if_false, Bool.false_eq_true]
end

/-! ### What SPAWN.RET sends (R102) -/

theorem OnlySent.addOut (s : State) (o : Out) : OnlySent s (addOut s o) := ⟨rfl, rfl, rfl, rfl, rfl, fun _ => rfl⟩
theorem sendReturn_sent (s : State) (r : SlotRef) (c : Ctx) (o : SpawnOrigin) (d : SIx) (v : Word) : OnlySent s (sendReturn s r c o d v) := by
  exact ((OnlySent.no s (s.no + 1)).trans (.addOut ..)).trans (.sendMsg ..)

section
variable {s : State} {h : Hdr} {a : SIx} {g : SpawnOrigin} (hr : Ready s h [.s a] [] false)
include hr

theorem exec_spawnRet_unspawned (top : (me s).d.origin = none) : Faults s 0x03 0 0 (exec (.spawnRet h a) s) := by
  refine runForm_trap _ _ s _ _ _ hr ?_
  simp only [top]
  rfl
theorem exec_spawnRet_again (o : (me s).d.origin = some g) (done : (me s).retDone = true) : Faults s 0x03 0 0 (exec (.spawnRet h a) s) := by
  refine runForm_trap _ _ s _ _ _ hr ?_
  simp only [o, done, if_true]
  rfl
theorem exec_spawnRet_silent (o : (me s).d.origin = some g) (fresh : (me s).retDone = false) (quiet : g.ret = none) :
    UnitOnly s h { me s with retDone := true } (exec (.spawnRet h a) s) := by
  refine DoneIn.onlyCtx (f := fun c => { c with retDone := true }) (runForm_done _ _ s _ hr ?_) hr.bound ⟨rfl, rfl, rfl, rfl⟩
  simp only [o, fresh, quiet, Bool.false_eq_true, if_false]
theorem exec_spawnRet_waits {d : SIx} (o : (me s).d.origin = some g) (fresh : (me s).retDone = false) (back : g.ret = some d)
    (held : releaseOk s s.cur (me s).uid .dom s.cur.node = false) :
    Parks s h (waitBy s (.spawnRet h a) s.no .cond 0 0 0 []) { s with no := s.no + 1 } (exec (.spawnRet h a) s) := by
  refine runForm_cond _ _ s 0 0 0 hr ?_
  simp only [o, fresh, back, release, held, Bool.false_eq_true, if_false]
theorem exec_spawnRet_sends {d : SIx} (o : (me s).d.origin = some g) (fresh : (me s).retDone = false) (back : g.ret = some d)
    (free : releaseOk s s.cur (me s).uid .dom s.cur.node = true) :
    DoneIn s h (modCtx (sendReturn s s.cur (me s) g d (rs (me s) a)) s.cur fun c => { c with retDone := true }) (exec (.spawnRet h a) s) := by
  refine runForm_done _ _ s _ hr ?_
  simp only [o, fresh, back, release, free, if_true, Bool.false_eq_true, if_false]
end

/-- Settles O17. -/
theorem spawnFormsAskAndReturnOnce : Obligations.SpawnFormsAskAndReturnOnce := by
  refine ⟨fun s h d a b x p room => ?_, fun s h a hr => ⟨exec_spawnRet_unspawned hr, fun g o => ⟨exec_spawnRet_again hr o, exec_spawnRet_silent hr o,
    fun d fresh back => ⟨exec_spawnRet_waits hr o fresh back, fun free => ⟨exec_spawnRet_sends hr o fresh back free, sendReturn_sent ..⟩⟩⟩⟩⟩
  have srcs : spawnSrcs a b x = [.s a, .s b] ++ sRun x 4 := by rw [spawnSrcs, if_neg (by omega)]
  have args : [rs (me s) x, rs (me s) (x + 1), rs (me s) (x + 2), rs (me s) (x + 3)] = (List.range 4).map fun k => rs (me s) (sNext x k) := by
    simp [List.range, List.range.loop, sNext]
  dsimp only
  rw [← srcs, args]
  exact ⟨fun hr => runForm_spawn (f := { i := .spawnAt h d a b x, h := h, srcs := spawnSrcs a b x, dsts := [.s d] }) hr rfl room,
    fun hr => runForm_spawn (f := { i := .spawnQ h p a b x, h := h, srcs := spawnSrcs a b x, dsts := [.p p] }) hr rfl room⟩

end Sys2Proof.Machine
end

section
/-! The forms of the dispatcher (R104 to R109), and how LAUNCH and GRAPH.ADD read their descriptor (R79, R80, R105). -/

namespace Sys2Proof.Machine

/-- A form asks a dispatcher and waits for its reply (R104). -/
abbrev AsksDispatcher (s : State) (h : Hdr) (i : Instr) (pkg : Nat) (k : SvcKind) (lim : Nat) : Prop :=
  AsksSvc s h i (svcOf s (svcN pkg) none k) .dispatcherRequest lim 0 (exec i s)

/-! ### The forms that name no descriptor (R106 to R109) -/

section
variable {s : State} {h : Hdr} {d a b x : SIx} {lvl : Level} {poll : Bool}

theorem exec_graphOpen (hr : Ready s h [] [.s d] false) : AsksDispatcher s h (.graphOpen h d) s.cur.pkg .graphOpen 0 :=
  runForm_svc { i := .graphOpen h d, h := h, dsts := [.s d] } _ s (svcN s.cur.pkg) none .graphOpen 0 .dispatcherRequest hr rfl
theorem exec_phaseLeave (hr : Ready s h [] [.s d] false) : AsksDispatcher s h (.phaseLeave h d) s.cur.pkg .phaseLeave 5 :=
  runForm_svc { i := .phaseLeave h d, h := h, dsts := [.s d] } _ s (svcN s.cur.pkg) none .phaseLeave 5 .dispatcherRequest hr rfl
theorem exec_phaseEnter (hr : Ready s h [.s a] [.s d] false) : AsksDispatcher s h (.phaseEnter h d a) s.cur.pkg (.phaseEnter (rs (me s) a)) 5 :=
  runForm_svc { i := .phaseEnter h d a, h := h, srcs := [.s a], dsts := [.s d] } _ s (svcN s.cur.pkg) none (.phaseEnter (rs (me s) a)) 5
    .dispatcherRequest hr rfl
theorem exec_graphEdge (hr : Ready s h [.s a, .s b, .s x] [] false) :
    AsksDispatcher s h (.graphEdge h a b x) s.cur.pkg (.graphEdge (rs (me s) a) (rs (me s) b) (rs (me s) x)) 0 :=
  runForm_svc { i := .graphEdge h a b x, h := h, srcs := [.s a, .s b, .s x] } _ s (svcN s.cur.pkg) none
    (.graphEdge (rs (me s) a) (rs (me s) b) (rs (me s) x)) 0 .dispatcherRequest hr rfl
/-- GRAPH.SUBMIT is a release (R106). -/
theorem exec_graphSubmit (hr : Ready s h [.s a] [] false) :
    (releaseOk s s.cur (me s).uid .dom s.cur.node = true → AsksDispatcher s h (.graphSubmit h a) s.cur.pkg (.graphSubmit (rs (me s) a)) 0) ∧
    (releaseOk s s.cur (me s).uid .dom s.cur.node = false →
      Parks s h (waitBy s (.graphSubmit h a) s.no .cond 0 0 0 []) { s with no := s.no + 1 } (exec (.graphSubmit h a) s)) :=
  ⟨fun free => runForm_svc { i := .graphSubmit h a, h := h, srcs := [.s a] } _ s (svcN s.cur.pkg) none (.graphSubmit (rs (me s) a)) 0
      .dispatcherRequest hr (if_pos free),
    fun held => runForm_cond { i := .graphSubmit h a, h := h, srcs := [.s a] } _ s 0 0 0 hr (if_neg (by simp [held]))⟩

/-- The answer of DONE.WAIT's own part. -/
def doneWaitAct (lvl : Level) (poll : Bool) (a : SIx) (s : State) (r : SlotRef) (c : Ctx) : Act :=
  match objectOf s r c lvl a with
  | none => refusedAct fOperand 0 s r c
  | some (x, pkg) =>
    if lvl = .job ∨ (lvl = .phase ∧ !c.d.root) then refusedAct fOperand 0 s r c
    else dispAct pkg (.doneWait lvl x poll) (if poll then 0 else 5) s r c
theorem doneWaitAct_refused (bad : objectOf s s.cur (me s) lvl a = none ∨ lvl = .job ∨ (lvl = .phase ∧ (me s).d.root = false)) :
    doneWaitAct lvl poll a s s.cur (me s) = refusedAct fOperand 0 s s.cur (me s) := by
  unfold doneWaitAct
  split
  · rfl
  next e =>
    refine if_pos ?_
    rcases bad with bad | bad | ⟨phase, root⟩
    · rw [e] at bad; cases bad
    · exact .inl bad
    · exact .inr ⟨phase, by simp [root]⟩
theorem doneWaitAct_asked {v : Word} {pkg : Nat} (o : objectOf s s.cur (me s) lvl a = some (v, pkg)) (job : lvl ≠ .job)
    (root : lvl = .phase → (me s).d.root = true) :
    doneWaitAct lvl poll a s s.cur (me s) = dispAct pkg (.doneWait lvl v poll) (if poll then 0 else 5) s s.cur (me s) := by
  unfold doneWaitAct
  rw [o]
  refine if_neg ?_
  rintro (bad | ⟨phase, user⟩)
  · exact job bad
  · simp [root phase] at user
theorem exec_doneWait (hr : Ready s h [.s a] [.s d] false) :
    ((objectOf s s.cur (me s) lvl a = none ∨ lvl = .job ∨ (lvl = .phase ∧ (me s).d.root = false)) →
      AsksDispatcher s h (.doneWait h lvl poll d a) s.cur.pkg (.refused 0x03 0) 0) ∧
    ∀ v pkg, objectOf s s.cur (me s) lvl a = some (v, pkg) → lvl ≠ .job → (lvl = .phase → (me s).d.root = true) →
      AsksDispatcher s h (.doneWait h lvl poll d a) pkg (.doneWait lvl v poll) (if poll then 0 else 5) :=
  ⟨fun bad => runForm_svc { i := .doneWait h lvl poll d a, h := h, srcs := [.s a], dsts := [.s d] } (doneWaitAct lvl poll a) s (svcN s.cur.pkg) none
      (.refused 0x03 0) 0 .dispatcherRequest hr (doneWaitAct_refused bad),
    fun v pkg o job root => runForm_svc { i := .doneWait h lvl poll d a, h := h, srcs := [.s a], dsts := [.s d] } (doneWaitAct lvl poll a) s (svcN pkg)
      none (.doneWait lvl v poll) (if poll then 0 else 5) .dispatcherRequest hr (doneWaitAct_asked o job root)⟩
theorem exec_cancel (hr : Ready s h [.s a] [] false) :
    (objectOf s s.cur (me s) lvl a = none → AsksDispatcher s h (.cancel h lvl a) s.cur.pkg (.refused 0x03 0) 0) ∧
    ∀ v pkg, objectOf s s.cur (me s) lvl a = some (v, pkg) → AsksDispatcher s h (.cancel h lvl a) pkg (.cancel lvl v) 0 := by
  refine ⟨fun o => runForm_svc { i := .cancel h lvl a, h := h, srcs := [.s a] } _ s (svcN s.cur.pkg) none (.refused 0x03 0) 0 .dispatcherRequest hr ?_,
    fun v pkg o => runForm_svc { i := .cancel h lvl a, h := h, srcs := [.s a] } _ s (svcN pkg) none (.cancel lvl v) 0 .dispatcherRequest hr ?_⟩ <;>
  · simp only [o]; rfl
end

/-! ### Reading a descriptor (R79, R80, R105) -/

theorem withXlate_ok {s s1 : State} {r : SlotRef} {c : Ctx} {kind pa : Nat} {va : Word} (clean : noErrs s = true)
    (x : xlate s r.node c.d.job c.d.det kind va.toNat = .ok pa s1) (f : State → Nat → Act) : withXlate s r c kind va f = f s1 pa := by
  unfold withXlate xlFind
  simp only [clean, if_true, x]

section
variable {s : State} {va : Word} {f : LaunchDesc → Option Nat → Act}

theorem withDesc_misaligned (odd : va.toNat % 64 ≠ 0) : withDesc va s s.cur (me s) f = refusedAct fMisaligned va s s.cur (me s) := if_pos odd
theorem withDesc_begins (even : va.toNat % 64 = 0) (fresh : (me s).park = none) :
    withDesc va s s.cur (me s) f = readPiece s s.cur (me s) va 128 := by
  unfold withDesc
  rw [if_neg (by omega), withBytes, if_pos]
  simp [gotBytes, fresh]
theorem withDesc_read (even : va.toNat % 64 = 0) (all : 128 ≤ (gotBytes (me s)).length) :
    withDesc va s s.cur (me s) f = f (descOf (gotBytes (me s))) (descBad (gotBytes (me s))) := by
  unfold withDesc
  rw [if_neg (by omega), withBytes, if_neg (by omega)]
theorem readPiece_beyond (fresh : (me s).park = none) (far : 2 ^ 56 ≤ va.toNat) : readPiece s s.cur (me s) va 128 = .trap fAccess va 0 := by
  unfold readPiece
  simp only [gotBytes, fresh, Option.map_none, Option.getD_none, List.map_nil, List.length_nil, BitVec.ofNat_eq_ofNat, BitVec.add_zero]
  exact if_pos far
theorem readPiece_asks {s1 : State} {pa : Nat} {hm : Node × MemKind} (fresh : (me s).park = none) (near : va.toNat < 2 ^ 56) (clean : noErrs s = true)
    (x : xlate s s.cur.node (me s).d.job (me s).d.det 0 va.toNat = .ok pa s1) (home : homeFor s1 s.cur (me s) pa false = some hm) :
    readPiece s s.cur (me s) va 128 = .wait (sendReq { s1 with no := s1.no + 1 } s.cur (me s) hm.1 pa va (.load (min 128 (4096 - va.toNat % 4096)))
      false s1.no none) s1.no .reply 0 0 va [] := by
  unfold readPiece
  simp only [gotBytes, fresh, Option.map_none, Option.getD_none, List.map_nil, List.length_nil, BitVec.ofNat_eq_ofNat, BitVec.add_zero]
  rw [if_neg (by omega), withXlate_ok clean x]
  simp only [home]
  rfl
end

/-- What a form that reads a descriptor does: it is refused, faults, asks for a piece, or, once all is read, asks the dispatcher (R105). -/
def ReadsDesc (s : State) (f : Form) (va : Word) (k : LaunchDesc → Option Nat → SvcKind) (rel : Bool) : Prop :=
  let o := exec f.i s
  (Ready s f.h f.srcs f.dsts f.rgn →
    (va.toNat % 64 ≠ 0 → AsksSvc s f.h f.i (svcOf s (svcN s.cur.pkg) none (.refused 0x06 va)) .dispatcherRequest 0 0 o) ∧
    (va.toNat % 64 = 0 → 2 ^ 56 ≤ va.toNat → Faults s 0x09 va 0 o) ∧
    ∀ pa s1 hm, va.toNat % 64 = 0 → va.toNat < 2 ^ 56 → noErrs s = true →
      xlate s s.cur.node (me s).d.job (me s).d.det 0 va.toNat = .ok pa s1 → homeFor s1 s.cur (me s) pa false = some hm →
      Parks s f.h (waitBy s f.i s1.no .reply 0 0 va [])
        (sendReq { s1 with no := s1.no + 1 } s.cur (me s) hm.1 pa va (.load (min 128 (4096 - va.toNat % 4096))) false s1.no none) o) ∧
  (Fit s f.h f.srcs f.dsts f.rgn → va.toNat % 64 = 0 → 128 ≤ (gotBytes (me s)).length →
    (rel = true → releaseOk s s.cur (me s).uid .dom s.cur.node = true) →
    AsksSvc s f.h f.i (svcOf s (svcN s.cur.pkg) none (k (descOf (gotBytes (me s))) (descBad (gotBytes (me s))))) .dispatcherRequest 0 va o)
theorem readsDesc {s : State} {f : Form} {body : State → SlotRef → Ctx → Act} {va : Word} {k : LaunchDesc → Option Nat → SvcKind} {rel : Bool}
    {g : LaunchDesc → Option Nat → Act} (run : exec f.i s = runForm f body s) (e : body s s.cur (me s) = withDesc va s s.cur (me s) g)
    (goes : (rel = true → releaseOk s s.cur (me s).uid .dom s.cur.node = true) → ∀ x bad,
      g x bad = keepVa va (dispAct s.cur.pkg (k x bad) 0 s s.cur (me s))) : ReadsDesc s f va k rel := by
  unfold ReadsDesc
  rw [run]
  refine ⟨fun hr => ⟨fun odd => ?_, fun even far => ?_, fun pa s1 hm even near clean x home => ?_⟩, fun fit even all free => ?_⟩
  · exact runForm_svc f body s (svcN s.cur.pkg) none (.refused 0x06 va) 0 .dispatcherRequest hr (e.trans (withDesc_misaligned odd))
  · exact runForm_trap f body s _ _ _ hr (e.trans ((withDesc_begins even hr.notParked).trans (readPiece_beyond hr.notParked far)))
  · have parks := runForm_wait f body s _ _ _ _ _ _ _ hr
      (e.trans ((withDesc_begins even hr.notParked).trans (readPiece_asks hr.notParked near clean x home)))
    rwa [show ∀ u : State, u.now = s.now → waitBy u f.i s1.no .reply 0 0 va [] = waitBy s f.i s1.no .reply 0 0 va [] from
      fun u now => by unfold waitBy; rw [now]] at parks
    rw [sendReq_now]
    exact (xlate_sent x).now
  · refine runForm_svcOn f body s (svcN s.cur.pkg) none _ 0 va .dispatcherRequest fit (e.trans ((withDesc_read even all).trans ?_)) (.inl rfl)
    rw [goes free]
    rfl

section
variable {s : State} {h : Hdr} {d a b : SIx}

theorem launch_readsDesc : ReadsDesc s { i := .launch h d a, h := h, srcs := [.s a], dsts := [.s d] } (rs (me s) a) .launch true :=
  readsDesc rfl rfl fun free _ _ => if_pos (free rfl)
theorem graphAdd_readsDesc :
    ReadsDesc s { i := .graphAdd h d a b, h := h, srcs := [.s a, .s b], dsts := [.s d] } (rs (me s) b) (.graphAdd (rs (me s) a)) false :=
  readsDesc rfl rfl fun _ _ _ => rfl
end

/-- A piece of a descriptor that lands is kept with the wait, and the form goes on (R105). -/
theorem globalReplyLand_piece {s : State} {w : Who} {p : Park} (waits : Waits s w p) (reads : readsPieces p.form = true) (bs : List Byte) :
    ∃ t, exec (.globalReplyLand w (.data bs)) s = .next t ∧ OnlySlot w.slot s t ∧
      ctxAt t w.slot = { ctxAt s w.slot with park := some { p with kind := .cond, aux := p.aux ++ bs.map fun x => x.setWidth 64 }, asked := none } := by
  have e : evGlobalReplyLand w (.data bs) s = morePiece s w bs := by
    unfold evGlobalReplyLand
    rw [waitOf_waits waits]
    exact if_pos reads
  refine ⟨morePiece s w bs, congrArg Host.Outcome.next e, ?_⟩
  obtain ⟨only, ctx⟩ := OnlySlot.modUnit_waits waits fun c => { c with park := c.park.map fun p =>
    { p with kind := .cond, aux := p.aux ++ bs.map fun x => x.setWidth 64 }, asked := none }
  exact ⟨only, ctx.trans (by rw [waits.park]; rfl)⟩

/-- Settles O24, form by form. -/
theorem dispatcherAndLaunchForms : Obligations.DispatcherAndLaunchForms := by
  refine ⟨fun s h d a b x lvl poll => ⟨?_, ?_, ?_, ?_, ?_, ?_⟩, fun s h d a b => ⟨launch_readsDesc, graphAdd_readsDesc⟩,
    fun s w p h d a b bs waits form => globalReplyLand_piece waits ?_ bs⟩
  · exact fun hr => ⟨exec_graphOpen hr, exec_phaseLeave hr⟩
  · exact exec_phaseEnter
  · exact exec_graphEdge
  · exact exec_graphSubmit
  · exact exec_doneWait
  · exact exec_cancel
  · rcases form with form | form <;> rw [form] <;> rfl

end Sys2Proof.Machine
end

section
/-! What reaches a waiting unit (R77, R92, R98, R104, R113, R222, R223): the replies of services, results, and limits. -/

namespace Sys2Proof.Machine

/-! ### Replies of services (R104, R239) -/

/-- A form that asks packages to invalidate their TLBs (R239). -/
def IsInv (i : Instr) : Prop := (∃ h sc x, i = .tlbInv h sc x) ∨ ∃ h sc, i = .tlbInvAll h sc

/-- A reply whose wait is no invalidation with packages still to answer (R239). -/
theorem invAnswer_none {s : State} {w : Who} {c : Ctx} {p : Park} {a : SvcReply} (inv : IsInv p.form → p.aux = []) : invAnswer s w c p a = none := by
  unfold invAnswer
  split
  next form aux => exact absurd (inv (.inl ⟨_, _, _, form⟩)) (by simp [aux])
  next form aux => exact absurd (inv (.inr ⟨_, _, form⟩)) (by simp [aux])
  next => rfl
/-- An answer to an invalidation that other packages must answer too (R239). -/
theorem invAnswer_some {s : State} {w : Who} {c : Ctx} {p : Park} {a : SvcReply} (inv : IsInv p.form) (waiting : p.aux ≠ []) :
    let left := p.aux.filter fun k => k ≠ a.val
    let t := modUnit s w.slot w.uid fun _ => { c with park := some { p with aux := left } }
    invAnswer s w c p a =
      some (if left = [] then push t (dueIn t w.slot.node 128) phLand (slotKey w.slot) (.serviceReplyLand w a) else t) := by
  obtain ⟨k, l, aux⟩ := List.exists_cons_of_ne_nil waiting
  unfold invAnswer
  rcases inv with ⟨_, _, _, form⟩ | ⟨_, _, form⟩ <;> simp only [form, aux] <;> rfl

section
variable {s : State} {w : Who} {p : Park} {a : SvcReply} (h : Waits s w p)
include h

theorem serviceReply_inv {t : State} (e : invAnswer s w (ctxAt s w.slot) p a = some t) : evServiceReplyLand w a s = t := by
  unfold evServiceReplyLand
  rw [waitOf_waits h]
  simp only [e]

section
variable (inv : invAnswer s w (ctxAt s w.slot) p a = none)
include inv

theorem serviceReply_fault (bad : a.code ≠ 0) :
    evServiceReplyLand w a s = takeFault s w.slot w.uid a.code (if a.code = 0x16 then p.va else a.va) a.aux := by
  unfold evServiceReplyLand
  rw [waitOf_waits h]
  simp only [inv, if_pos bad]
  exact faultWait_waits h ..

section
variable (ok : a.code = 0)
include ok

/-- A LAUNCH reply sets the wake flag (R97). -/
theorem serviceReply_launch {hd : Hdr} {d x : SIx} (form : p.form = .launch hd d x) :
    evServiceReplyLand w a s = finish s w fun c => { putAll [(.s d, sval a.val)] c with wake := true } := by
  unfold evServiceReplyLand
  rw [waitOf_waits h]
  simp [inv, ok, form, svcResults]
theorem serviceReply_recMark {hd : Hdr} {x : SIx} (form : p.form = .recMark hd x) :
    evServiceReplyLand w a s = countRec (finish s w id) w.slot w.uid := by
  unfold evServiceReplyLand
  rw [waitOf_waits h]
  simp [inv, ok, form]
theorem serviceReply_xchSend {hd : Hdr} {sy : ESync} {n : BitVec 8} {v : Bool} {d x : DIx} {b : SIx} (form : p.form = .xchSend hd sy n v d x b) :
    evServiceReplyLand w a s = phaseReply s w a := by
  unfold evServiceReplyLand
  rw [waitOf_waits h]
  simp [inv, ok, form]
theorem serviceReply_results (launch : ∀ hd d x, p.form ≠ .launch hd d x) (mark : ∀ hd x, p.form ≠ .recMark hd x)
    (send : ∀ hd sy rs v d x b, p.form ≠ .xchSend hd sy rs v d x b) (bind : ∀ hd m e d, p.form ≠ .rcBind hd m e d) :
    evServiceReplyLand w a s = finish s w (putAll (svcResults p.form a.val)) := by
  unfold evServiceReplyLand
  rw [waitOf_waits h]
  simp only [inv, ok, ne_eq, not_true_eq_false, if_false]
end
end
end

section
variable {s : State} {w : Who} {p : Park} {a : SvcReply} (h : Waits s w p)
include h

/-- Of the packages asked, some have still to answer (R239). -/
theorem exec_serviceReply_partial (inv : IsInv p.form) (waiting : p.aux ≠ []) (left : (p.aux.filter fun k => k ≠ a.val) ≠ []) :
    ∃ t, exec (.serviceReplyLand w a) s = .next t ∧ OnlySlot w.slot s t ∧
      ctxAt t w.slot = { ctxAt s w.slot with park := some { p with aux := p.aux.filter fun k => k ≠ a.val } } := by
  have e := serviceReply_inv h (invAnswer_some (a := a) inv waiting)
  rw [if_neg left] at e
  exact ⟨_, congrArg Host.Outcome.next e, OnlySlot.modUnit_waits h _⟩
/-- The last package asked has answered (R239). -/
theorem exec_serviceReply_last (inv : IsInv p.form) (waiting : p.aux ≠ []) (none : (p.aux.filter fun k => k ≠ a.val) = []) :
    ∃ t, (OnlySlot w.slot s t ∧ ctxAt t w.slot = { ctxAt s w.slot with park := some { p with aux := [] } }) ∧
      exec (.serviceReplyLand w a) s = .next (push t (dueIn t w.slot.node 128) phLand (slotKey w.slot) (.serviceReplyLand w a)) := by
  have e := serviceReply_inv h (invAnswer_some (a := a) inv waiting)
  rw [if_pos none, none] at e
  exact ⟨_, OnlySlot.modUnit_waits h _, congrArg Host.Outcome.next e⟩
/-- A reply to a mark also counts it as a recorded event of the unit (R339). -/
theorem finishes_recMark : Finishes s w (ctxAt s w.slot) (fun c => { c with recSeq := c.recSeq + 1 }) (countRec (finish s w id) w.slot w.uid) := by
  obtain ⟨only, ctx⟩ := finish_then h id (fun c => { c with recSeq := c.recSeq + 1 }) h.uid
  exact ⟨only, ctx.trans (by rw [(finish_spec h id).2]; rfl)⟩
/-- The answer to a reservation is kept with the wait. -/
theorem phaseReply_spec : OnlySlot w.slot s (phaseReply s w a) ∧ ctxAt (phaseReply s w a) w.slot =
    { ctxAt s w.slot with park := some { p with kind := .cond, aux := p.aux.take 16 ++ [a.val, a.va, a.aux] } } := by
  obtain ⟨only, ctx⟩ := OnlySlot.modUnit_waits h fun c => { c with park := c.park.map fun p =>
    { p with kind := .cond, aux := p.aux.take 16 ++ [a.val, a.va, a.aux] } }
  exact ⟨only, ctx.trans (by rw [h.park]; rfl)⟩

/-! ### Limits (R92, R222, R223) -/

theorem waitLimit_waits : evWaitLimitExpiry w s =
    if isAway s w.slot w.uid = true ∨ heldByLog s w p = true then push s (s.now + 1) phStart (slotKey w.slot) (.waitLimitExpiry w)
    else if p.kind = .withdraw ∨ p.limKind = 0 then s
    else if mustWithdraw p = true then withdraw s w (ctxAt s w.slot) p
    else faultWait (takeBack s w p) w 0x05 (if p.limKind = 1 then p.va else 0) (limitAux p) := by
  unfold evWaitLimitExpiry
  rw [waitOf_waits h]
  rfl
omit h in
/-- A withdrawal is a change of the wait's kind, and a message (R165, R223). -/
theorem withdraw_sent (c : Ctx) :
    OnlySent (modUnit s w.slot w.uid fun c => { c with park := c.park.map fun p => { p with kind := .withdraw } }) (withdraw s w c p) := by
  unfold withdraw
  simp only
  split
  · split
    · exact .sendMsg ..
    · exact .push ..
  · exact .sendMsg ..
omit h in
theorem kind_of_mustWithdraw (q : Park) (must : mustWithdraw q = true) : q.kind = .reply := by
  unfold mustWithdraw at must
  exact of_decide_eq_true (Bool.and_eq_true_iff.1 must).1
theorem withdraw_spec : ∃ v, OnlySlot w.slot s v ∧ ctxAt v w.slot = { ctxAt s w.slot with park := some { p with kind := .withdraw } } ∧
    OnlySent v (withdraw s w (ctxAt s w.slot) p) := by
  obtain ⟨only, ctx⟩ := OnlySlot.modUnit_waits h fun c => { c with park := c.park.map fun p => { p with kind := .withdraw } }
  exact ⟨_, only, ctx.trans (by rw [h.park]; rfl), withdraw_sent _⟩

/-! ### Packets left open too long (R92) -/

/-- The fault of an open packet is due as the wait ends. -/
def dueLimit (s : State) (w : Who) : State := modUnit s w.slot w.uid fun c => { c with park := c.park.map fun p => { p with limitDue := true } }
theorem packetLimit_waits {e n : Nat} (packet : (ctxAt s w.slot).packet = some (e, n)) : evPacketOpenLimit w.slot w.uid s =
    if n < 64 then s
    else if mustWithdraw p = true then withdraw (dueLimit s w) w (ctxAt s w.slot) p
    else if mustFinish (ctxAt s w.slot) p = true then dueLimit s w
    else takeFault (takeBack s w p) w.slot w.uid 0x1B 0 (BitVec.ofNat 64 e) := by
  have named : (⟨w.slot, w.uid, p.id⟩ : Who) = w := by rw [h.id]
  unfold evPacketOpenLimit
  simp only [unitAt_waits h, h.park, Option.bind_some, Option.map_some, packet, h.due, or_false, Bool.false_eq_true, named]
  rfl
theorem dueLimit_spec : OnlySlot w.slot s (dueLimit s w) ∧
    ctxAt (dueLimit s w) w.slot = { ctxAt s w.slot with park := some { p with limitDue := true } } := by
  obtain ⟨only, ctx⟩ := OnlySlot.modUnit_waits h fun c => { c with park := c.park.map fun p => { p with limitDue := true } }
  exact ⟨only, ctx.trans (by rw [h.park]; rfl)⟩
theorem withdraw_due_spec : ∃ v, OnlySlot w.slot s v ∧
    ctxAt v w.slot = { ctxAt s w.slot with park := some { p with limitDue := true, kind := .withdraw } } ∧
    OnlySent v (withdraw (dueLimit s w) w (ctxAt s w.slot) p) := by
  obtain ⟨only, ctx⟩ := dueLimit_spec h
  obtain ⟨only', ctx'⟩ := only.modUnit_named (uid := w.uid) h.bound (by rw [ctx]; exact h.uid) fun c =>
    { c with park := c.park.map fun p => { p with kind := .withdraw } }
  exact ⟨_, only', ctx'.trans (by rw [ctx]; rfl), withdraw_sent _⟩
end

/-- Settles O51: each event finds the unit waiting, and does what its lemma says. -/
theorem repliesAndLimitsReachTheUnit : Obligations.RepliesAndLimitsReachTheUnit := by
  refine ⟨fun s w p a h => ⟨fun inv waiting => ⟨exec_serviceReply_partial h inv waiting, exec_serviceReply_last h inv waiting⟩, fun inv => ?_⟩,
    fun s r g v bound => ⟨_, rfl, (OnlySlot.refl ..).modUnit_named bound rfl _⟩, fun s w p h => ⟨_, rfl, evSleeprExpiry_spec h⟩,
    fun s w p h => ?_, fun s w p e n h packet => ?_⟩
  · have answered := invAnswer_none (s := s) (w := w) (c := ctxAt s w.slot) (a := a) inv
    have ends {f : Ctx → Ctx} (e : evServiceReplyLand w a s = finish s w f) :
        ∃ t, exec (.serviceReplyLand w a) s = .next t ∧ Finishes s w (ctxAt s w.slot) f t :=
      ⟨_, congrArg Host.Outcome.next e, finish_spec h f⟩
    refine ⟨fun bad => congrArg Host.Outcome.next (serviceReply_fault h answered bad), fun ok => ⟨?launch, ?mark, ?send, ?rest⟩⟩
    case launch => exact fun _ _ _ form => ends (serviceReply_launch h answered ok form)
    case mark => exact fun _ _ form => ⟨_, congrArg Host.Outcome.next (serviceReply_recMark h answered ok form), finishes_recMark h⟩
    case send =>
      exact fun _ _ _ _ _ _ _ form => ⟨_, congrArg Host.Outcome.next (serviceReply_xchSend h answered ok form), phaseReply_spec h⟩
    case rest => exact fun launch mark send bind => ends (serviceReply_results h answered ok launch mark send bind)
  · have run : exec (.waitLimitExpiry w) s = .next (evWaitLimitExpiry w s) := rfl
    rw [waitLimit_waits h] at run
    refine ⟨fun late => run.trans (by rw [if_pos late]), fun now => ?_⟩
    rw [if_neg now] at run
    refine ⟨fun gone => run.trans (by rw [if_pos gone]), fun kind lim stays => ?_, fun lim must => ?_⟩
    · rw [if_neg (not_or.2 ⟨kind, lim⟩), if_neg (by simp [stays])] at run
      refine ⟨_, run, fun still => ?_⟩
      obtain ⟨_, still⟩ := Option.isSome_iff_exists.1 still
      unfold faultWait
      rw [still]
    · rw [if_neg (not_or.2 ⟨by rw [kind_of_mustWithdraw p must]; decide, lim⟩), if_pos must] at run
      obtain ⟨v, only, ctx, sent⟩ := withdraw_spec h
      exact ⟨v, _, only, ctx, run, sent⟩
  · have run : exec (.packetOpenLimit w.slot w.uid) s = .next (evPacketOpenLimit w.slot w.uid s) := rfl
    rw [packetLimit_waits h packet] at run
    refine ⟨fun few => run.trans (by rw [if_pos few]), ?fault, ?due, ?back⟩
    case fault =>
      intro full stays free
      rw [if_neg (by omega), if_neg (by simp [stays]), if_neg (by simp [free])] at run
      exact run
    case due =>
      intro full stays must
      rw [if_neg (by omega), if_neg (by simp [stays]), if_pos must] at run
      exact ⟨_, run, dueLimit_spec h⟩
    case back =>
      intro full must
      rw [if_neg (by omega), if_pos must] at run
      obtain ⟨v, only, ctx, sent⟩ := withdraw_due_spec h
      exact ⟨v, _, only, ctx, run, sent⟩

end Sys2Proof.Machine
end

section
/-! Events that only ask for other events, and what a party does in its turn (R397). -/

namespace Sys2Proof.Machine

/-! ### What only asks for events -/

/-- Events were pushed, and nothing else changed. -/
structure OnlyAsked (s t : State) : Prop where
  rest : { t with agenda := s.agenda, no := s.no } = s
  agenda : ∀ e ∈ s.agenda, e ∈ t.agenda

theorem OnlyAsked.refl (s : State) : OnlyAsked s s := ⟨rfl, fun _ h => h⟩
theorem OnlyAsked.push (s : State) (a p k : Nat) (e : Ev) : OnlyAsked s (push s a p k e) := ⟨rfl, fun x h => mem_push_old _ _ _ _ _ x h⟩
theorem OnlyAsked.pushOnce (s : State) (a p k : Nat) (e : Ev) : OnlyAsked s (pushOnce s a p k e) := by
  unfold Machine.pushOnce
  split
  · exact .refl s
  · exact .push ..

section
variable {s t u : State} (h : OnlyAsked s t)
include h
theorem OnlyAsked.now : t.now = s.now := (congrArg State.now h.rest :)
theorem OnlyAsked.mem : t.mem = s.mem := (congrArg State.mem h.rest :)
theorem OnlyAsked.pkgs : t.pkgs = s.pkgs := (congrArg State.pkgs h.rest :)
theorem OnlyAsked.tiles : t.tiles = s.tiles := (congrArg State.tiles h.rest :)
theorem OnlyAsked.tileAt (n : Node) : tileAt t n = tileAt s n := by unfold Machine.tileAt; rw [h.tiles]
theorem OnlyAsked.slotAt (r : SlotRef) : slotAt t r = slotAt s r := by unfold Machine.slotAt; rw [h.tileAt]
theorem OnlyAsked.pkgAt (p : Nat) : pkgAt t p = pkgAt s p := by unfold Machine.pkgAt; rw [h.pkgs]
theorem OnlyAsked.jobAt (job : Word) : jobAt t job = jobAt s job := by
  unfold Machine.jobAt
  rw [(congrArg State.jobs h.rest :)]
theorem OnlyAsked.trans (k : OnlyAsked t u) : OnlyAsked s u := by
  refine ⟨?_, fun e m => k.agenda e (h.agenda e m)⟩
  have e := h.rest
  rw [← k.rest] at e
  exact e
end
theorem OnlyAsked.foldl {α : Type} (f : State → α → State) (h : ∀ s a, OnlyAsked s (f s a)) (l : List α) (s : State) : OnlyAsked s (l.foldl f s) := by
  induction l generalizing s with
  | nil => exact .refl s
  | cons a l ih => exact (h s a).trans (ih _)
/-- The event that is asked for once is in the agenda. -/
theorem mem_pushOnce (s : State) (a p k : Nat) (ev : Ev) : ∃ e ∈ (pushOnce s a p k ev).agenda, e.at_ = a ∧ e.ev = ev := by
  unfold pushOnce
  split
  next found =>
    obtain ⟨e, m, same⟩ := List.any_eq_true.1 found
    exact ⟨e, m, by simpa using same⟩
  · exact mem_push_new ..
theorem OnlyAsked.askEngine (s : State) (n : Node) (mx : Bool) : OnlyAsked s (askEngine s n mx) := .pushOnce ..
theorem OnlyAsked.unless {s t : State} (c : Prop) [Decidable c] (h : OnlyAsked s t) : OnlyAsked s (if c then s else t) := by
  split
  · exact .refl s
  · exact h
theorem OnlyAsked.wakeEngines (s : State) (n : Node) : OnlyAsked s (wakeEngines s n) :=
  (OnlyAsked.unless _ (.askEngine ..)).trans (.unless _ (.askEngine ..))
theorem OnlyAsked.askJob (s : State) (h : Word) : OnlyAsked s (askJob s h) := .pushOnce ..
theorem OnlyAsked.askLaunch (s : State) (h : Word) : OnlyAsked s (askLaunch s h) := .unless _ (.pushOnce ..)
/-- What only asks for events sends nothing that touches a tile. -/
theorem OnlyAsked.sent {s t : State} (h : OnlyAsked s t) : OnlySent s t :=
  ⟨h.now, (congrArg State.cur h.rest :), h.mem, (congrArg State.bar0 h.rest :), (congrArg State.jobs h.rest :), fun n => by rw [h.tileAt]⟩

/-! ### Turns -/

/-- A party that serves a request in its turn does so when the party is free, and else when it will be. -/
theorem serveTurn_inTurn {s : State} {turn : Bool} {peer key : Nat} {ev : Ev} {f : State → State} {out : State → Outc → Prop}
    (does : ∀ v, out { s with served := v } (.next (f { s with served := v }))) :
    InTurn s turn peer key ev out (.next (serveTurn s turn peer key ev f)) := by
  refine ⟨?_, ?_⟩
  · rintro rfl
    exact does s.served
  · rintro rfl
    refine ⟨fun free => ?_, fun busy => ?_⟩
    · have e : serveTurn s false peer key ev f = f (serveSlot s peer).2 := by unfold serveTurn serveSlot; exact if_pos free
      rw [e]
      exact does _
    · have e : serveTurn s false peer key ev f = push (serveSlot s peer).2 (serveSlot s peer).1 phLand key ev := by
        unfold serveTurn serveSlot; exact if_neg (Nat.not_le.2 busy)
      rw [e]
      rfl

/-! ### Launches of a package -/

theorem pkgAt_modPkg_self (s : State) (p : Nat) (f : Pkg → Pkg) : pkgAt (modPkg s p f) p = f (pkgAt s p) := aget_aset_self ..
theorem pkgAt_modPkg_ne (s : State) (p q : Nat) (f : Pkg → Pkg) (h : q ≠ p) : pkgAt (modPkg s p f) q = pkgAt s q := aget_aset_ne _ _ _ _ _ h
/-- Finding the launch of a serial number after changing that launch. -/
theorem find_map_serial (l : List Launch) (k : Nat) (f : Launch → Launch) (keeps : ∀ x, (f x).serial = x.serial) :
    (l.map fun x => if x.serial = k then f x else x).find? (fun x => x.serial = k) = (l.find? fun x => x.serial = k).map f := by
  induction l with
  | nil => rfl
  | cons x l ih =>
    by_cases e : x.serial = k
    · simp [e, keeps]
    · simp [e, ih]
theorem launchAt_modLaunch (s : State) (h : Word) (f : Launch → Launch) (keeps : ∀ x, (f x).serial = x.serial) :
    launchAt (modLaunch s h f) h = (launchAt s h).map f := by
  unfold launchAt modLaunch
  rw [pkgAt_modPkg_self]
  exact find_map_serial _ _ _ keeps

end Sys2Proof.Machine
end

section
/-! The service of spawn requests, and the binding of units (R90, R101, R102, R118). -/

namespace Sys2Proof.Machine

/-! ### Spawn requests where they land (R90, R101) -/

/-- The launch of a spawn request has the target among its tiles and may have more units (R90). -/
def SpawnPlaced (s : State) (q : SpawnReq) : Prop :=
  ∃ l, launchAt s q.desc.launch = some l ∧ q.desc.launch ≠ 0 ∧ q.target.id ∈ l.tiles ∧ l.done = false ∧ l.cancelled = false ∧ l.job = q.desc.job

theorem spawnBar_unplaced {s : State} {q : SpawnReq} (h : ¬ SpawnPlaced s q) : spawnBar s q = some 2 := by
  unfold spawnBar
  split
  · rfl
  next l found =>
    refine if_pos ?_
    by_contra all
    refine h ⟨l, found, ?_⟩
    simpa [not_or] using all
/-- For a placed request the tile decides. -/
theorem spawnBar_placed {s : State} {q : SpawnReq} (h : SpawnPlaced s q) :
    spawnBar s q = if (tileAt s q.target).retiring ∨ !(tileAt s q.target).present then some 3
      else if spawnLimit ≤ (tileAt s q.target).spawnQ.length then some 1 else none := by
  obtain ⟨l, found, hl⟩ := h
  unfold spawnBar
  rw [found]
  refine if_neg ?_
  simpa [not_or] using hl

/-- The queue of the target with the entry, and the launch counted: what taking a request does to the state. -/
def spawnTaken (s : State) (q : SpawnReq) : State :=
  pushOnce (modLaunch (modTile { s with no := s.no + 1 } q.target fun t => { t with spawnQ := t.spawnQ ++ [⟨q, s.no⟩] }) q.desc.launch
    fun l => { l with live := l.live + 1 }) s.now phEnd (nodeKey q.target) (.spawnEntryServe q.target)

theorem tileAt_spawnTaken (s : State) (q : SpawnReq) (n : Node) :
    tileAt (spawnTaken s q) n =
      tileAt (modTile { s with no := s.no + 1 } q.target fun t => { t with spawnQ := t.spawnQ ++ [⟨q, s.no⟩] }) n :=
  (OnlyAsked.pushOnce ..).tileAt n
theorem tileAt_spawnTaken_self (s : State) (q : SpawnReq) :
    tileAt (spawnTaken s q) q.target = { tileAt s q.target with spawnQ := (tileAt s q.target).spawnQ ++ [⟨q, s.no⟩] } := by
  rw [tileAt_spawnTaken, tileAt_modTile_self]
  rfl
theorem tileAt_spawnTaken_ne (s : State) (q : SpawnReq) (n : Node) (h : nodeKey n ≠ nodeKey q.target) : tileAt (spawnTaken s q) n = tileAt s n := by
  rw [tileAt_spawnTaken, tileAt_modTile_ne _ _ _ _ h]
  rfl
theorem launchAt_spawnTaken (s : State) (q : SpawnReq) :
    launchAt (spawnTaken s q) q.desc.launch = (launchAt s q.desc.launch).map fun l => { l with live := l.live + 1 } := by
  have e := launchAt_modLaunch (modTile { s with no := s.no + 1 } q.target fun t => { t with spawnQ := t.spawnQ ++ [⟨q, s.no⟩] }) q.desc.launch
    (fun l => { l with live := l.live + 1 }) fun _ => rfl
  refine Eq.trans ?_ e
  unfold launchAt spawnTaken
  rw [(OnlyAsked.pushOnce ..).pkgAt]

/-- What the tile does with a spawn request in its turn, when it is not recorded. -/
def spawnServed (s : State) (q : SpawnReq) : State :=
  match spawnBar s q with
  | some k => spawnAnswer s q k
  | none => spawnAnswer (spawnTaken s q) q 0

theorem spawnServed_refused {s : State} {q : SpawnReq} {k : Nat} (bar : spawnBar s q = some k) : spawnServed s q = spawnAnswer s q k := by
  unfold spawnServed
  rw [bar]
theorem spawnServed_taken {s : State} {q : SpawnReq} (bar : spawnBar s q = none) : spawnServed s q = spawnAnswer (spawnTaken s q) q 0 := by
  unfold spawnServed
  rw [bar]

theorem evSpawnRequestLand_unrecorded (q : SpawnReq) (s : State) (free : q.recSeq = none) :
    evSpawnRequestLand q s =
      serveTurn s q.turn (peerKey q.target 11) (slotKey q.who.slot) (.spawnRequestLand { q with turn := true }) (spawnServed · q) := by
  unfold evSpawnRequestLand
  rw [free]
  rfl

/-! ### Replies and returned values (R101, R102) -/

section
variable {s : State} {w : Who} {p : Park} (h : Waits s w p)
include h

/-- The request of a launch that is not deterministic is counted when its reply lands. -/
def countedSpawn (s : State) (w : Who) : State := if (ctxAt s w.slot).d.det then s else countRec s w.slot w.uid

theorem waits_countedSpawn : Waits (countedSpawn s w) w p := by
  unfold countedSpawn countRec
  split
  · exact h
  · exact Waits.modUnit h rfl rfl
theorem spawnReply_at_taken {hd : Hdr} {d a b x : SIx} (form : p.form = .spawnAt hd d a b x) :
    evSpawnReplyLand w 0 s = finish (countedSpawn s w) w fun c => setPres c (.s d) .ret := by
  unfold evSpawnReplyLand countedSpawn
  rw [waitOf_waits h]
  cases det : (ctxAt s w.slot).d.det <;> simp [form, det]
theorem spawnReply_at_refused {hd : Hdr} {d a b x : SIx} (form : p.form = .spawnAt hd d a b x) {k : Nat} (refused : k ≠ 0) :
    evSpawnReplyLand w k s = takeFault s w.slot w.uid 0x21 0 (BitVec.ofNat 64 k) := by
  unfold evSpawnReplyLand
  rw [waitOf_waits h]
  simp only [form, refused, false_and, if_false, ne_eq, not_false_eq_true, if_true]
  exact faultWait_waits h ..
theorem spawnReply_q_taken {hd : Hdr} {d : PIx} {a b x : SIx} (form : p.form = .spawnQ hd d a b x) :
    evSpawnReplyLand w 0 s = finish (countedSpawn s w) w fun c => if d = 0 then c else putReg c (.p d) (pval true) := by
  unfold evSpawnReplyLand countedSpawn
  rw [waitOf_waits h]
  cases det : (ctxAt s w.slot).d.det <;> simp [form, det]
theorem spawnReply_q_refused {hd : Hdr} {d : PIx} {a b x : SIx} (form : p.form = .spawnQ hd d a b x) {k : Nat} (refused : k ≠ 0) :
    evSpawnReplyLand w k s = finish s w fun c => if d = 0 then c else putReg c (.p d) (pval false) := by
  unfold evSpawnReplyLand
  rw [waitOf_waits h]
  simp [form, refused]
end

theorem OnlySent.dropOut (s : State) (id : Nat) : OnlySent s (dropOut s id) := ⟨rfl, rfl, rfl, rfl, rfl, fun _ => rfl⟩
/-- That a store is performed asks for what may wait for it, and touches no tile. -/
theorem OnlySent.performed (s : State) (id : Nat) : OnlySent s (performed s id) := by
  unfold Machine.performed
  split
  next o _ =>
    refine (OnlySent.dropOut s id).trans ?_
    refine OnlySent.trans (t := if o.va.toNat < 2 ^ 62 then Machine.dropOut s id else wakeEngines (Machine.dropOut s id) o.slot.node)
      (OnlyAsked.unless _ (.wakeEngines ..)).sent ?_
    dsimp only
    generalize (if o.va.toNat < 2 ^ 62 then Machine.dropOut s id else wakeEngines (Machine.dropOut s id) o.slot.node) = u
    split
    · exact (OnlyAsked.unless _ (.askJob ..)).sent
    · exact (OnlyAsked.askLaunch ..).sent
  · exact .refl s

/-- The state in which the message of a returned value is no longer outstanding. -/
def returnPerformed (s : State) (r : SlotRef) (uid : Nat) (dst : SIx) : State :=
  match s.outs.find? fun o => o.va = spawnMark uid dst.toNat ∧ o.home = some r.node with
  | some o => performed s o.id
  | none => s
theorem OnlySent.returnPerformed (s : State) (r : SlotRef) (uid : Nat) (dst : SIx) : OnlySent s (returnPerformed s r uid dst) := by
  unfold Machine.returnPerformed
  split
  · exact .performed ..
  · exact .refl s

theorem valOf_setVal_s_ne (c : Ctx) (i : SIx) (x : VVal) (g : Reg) (h : g ≠ .s i) : valOf (setVal c (.s i) x) g = valOf c g := by
  by_cases zero : i = 0
  · simp [setVal, zero]
  cases g with
  | s j =>
    have ne : i.toNat ≠ j.toNat := fun e => h (by rw [BitVec.eq_of_toNat_eq e])
    simp only [valOf, setVal, if_neg zero, Vector.getElem_set_ne _ _ ne]
  | v j => simp only [valOf, setVal, if_neg zero]
  | k j => simp only [valOf, setVal, if_neg zero]
  | p j => simp only [valOf, setVal, if_neg zero]
theorem rs_putReg (c : Ctx) (i : SIx) (x : Word) (h : i ≠ 0) : rs (putReg c (.s i) (sval x)) i = x := by
  have narrow : (sval x).setWidth 64 = x := by unfold sval; simp
  simp only [rs, putReg, setPres, setVal, if_neg h, Vector.getElem_set_self, narrow]

theorem uid_putReg (c : Ctx) (g : Reg) (x : VVal) : (putReg c g x).uid = c.uid := by
  have val : (setVal c g x).uid = c.uid := by cases g <;> simp only [setVal] <;> split <;> rfl
  rw [← val]
  exact (congrArg Ctx.uid (setPres_rest (setVal c g x) g .full) :)
/-- Where a returned value lands on a unit that does not wait and whose register awaits it (R102). -/
theorem evSpawnReturnLand_awaited {s : State} {r : SlotRef} {dst : SIx} {v : Word} (bound : (slotAt s r).ph = .bound)
    (runs : (ctxAt s r).park = none) (awaits : presOf (ctxAt s r) (.s dst) = .ret) :
    (evSpawnReturnLand r (ctxAt s r).uid dst v s).mem = s.mem ∧
    ctxAt (evSpawnReturnLand r (ctxAt s r).uid dst v s) r = { putReg (ctxAt s r) (.s dst) (sval v) with wake := true } := by
  have e : evSpawnReturnLand r (ctxAt s r).uid dst v s =
      setWake (modUnit (returnPerformed s r (ctxAt s r).uid dst) r (ctxAt s r).uid fun c =>
        if presOf c (.s dst) = .ret then putReg c (.s dst) (sval v) else c) r (ctxAt s r).uid := by
    unfold evSpawnReturnLand
    simp only [unitAt_bound s _ bound, Option.bind_some, runs]
    rfl
  have sent := OnlySent.returnPerformed s r (ctxAt s r).uid dst
  generalize returnPerformed s r (ctxAt s r).uid dst = u at e sent
  have slot : slotAt u r = slotAt s r := sent.slotAt r
  have ctx : ctxAt u r = ctxAt s r := congrArg Slot.ctx slot
  obtain ⟨only, put⟩ := (OnlySlot.refl r u).modUnit_named (slot.symm ▸ bound) (congrArg Ctx.uid ctx)
    (fun c => if presOf c (.s dst) = .ret then putReg c (.s dst) (sval v) else c)
  rw [ctx, if_pos awaits] at put
  have named : (putReg (ctxAt s r) (.s dst) (sval v)).uid = (ctxAt s r).uid := uid_putReg ..
  have woken := (only.modUnit_named (slot.symm ▸ bound) ((congrArg Ctx.uid put).trans named) fun c => { c with wake := true }).2
  rw [put] at woken
  rw [e]
  exact ⟨sent.mem, woken⟩

/-! ### Binding (R90, R118) -/

/-- The arguments and UNITIX stand in s1 to s5 (R118). -/
theorem rs_boundCtx (uid : Nat) (d : UnitDesc) (i : SIx) : rs (boundCtx uid d) i =
    if i = 1 then d.args.getD 0 0 else if i = 2 then d.args.getD 1 0 else if i = 3 then d.args.getD 2 0
    else if i = 4 then d.args.getD 3 0 else if i = 5 then d.unitix else 0 := by
  have arg : rs (boundCtx uid d) i = bindArg d i.toNat := by
    unfold rs
    split
    next zero => subst zero; rfl
    · simp [boundCtx]
  have is : ∀ k : SIx, (i = k) = (i.toNat = k.toNat) := fun k => propext BitVec.toNat_inj.symm
  simp only [arg, is]
  change _ = if i.toNat = 1 then _ else if i.toNat = 2 then _ else if i.toNat = 3 then _ else if i.toNat = 4 then _ else if i.toNat = 5 then _ else _
  generalize i.toNat = n
  by_cases small : n ≤ 5
  · interval_cases n <;> rfl
  · simp only [bindArg, if_pos (Or.inr (Nat.lt_of_not_le small) : n = 0 ∨ 5 < n)]
    repeat rw [if_neg (by omega)]
theorem rv_boundCtx (uid : Nat) (d : UnitDesc) (i : VIx) : rv (boundCtx uid d) i = 0 := by
  simp [rv, boundCtx, Ctx.reset]
theorem rk_boundCtx (uid : Nat) (d : UnitDesc) (i : KIx) : rk (boundCtx uid d) i = if i = 0 then BitVec.allOnes 256 else 0 := by
  by_cases zero : i = 0
  · simp [rk, zero]
  · have ne : 0 ≠ i.toNat := fun e => zero (BitVec.eq_of_toNat_eq e.symm)
    simp [rk, boundCtx, Ctx.reset, Vector.getElem_set_ne _ _ ne]
theorem rp_boundCtx (uid : Nat) (d : UnitDesc) (i : PIx) : rp (boundCtx uid d) i = decide (i = 0) := by
  by_cases zero : i = 0
  · simp [rp, zero]
  · have ne : 0 ≠ i.toNat := fun e => zero (BitVec.eq_of_toNat_eq e.symm)
    simp [rp, boundCtx, Ctx.reset, Vector.getElem_set_ne _ _ ne]
theorem presOf_boundCtx (uid : Nat) (d : UnitDesc) (g : Reg) : presOf (boundCtx uid d) g = .full := by
  cases g <;> simp [presOf, boundCtx, Ctx.reset]
/-- A slot that is binding to a unit is bound when the binding completes (R118). -/
theorem evBindComplete_binding {s : State} {r : SlotRef} (binding : (slotAt s r).ph = .binding) :
    slotAt (evBindComplete r (ctxAt s r).uid s) r = { slotAt s r with ph := .bound, ctx := { ctxAt s r with
      readyFrom := if (ctxAt s r).d.det ∧ !(ctxAt s r).d.origin.isSome then (pkgAt s r.pkg).cycleBase + (ctxAt s r).d.s0 else s.now + 1 } } ∧
    ∀ n, nodeKey n ≠ nodeKey r.node → tileAt (evBindComplete r (ctxAt s r).uid s) n = tileAt s n := by
  have lt : r.slot < 16 := slot_lt s r (by rw [binding]; decide)
  refine ⟨?_, fun n ne => ?_⟩
  · refine (slotAt_modTile_keep _ _ _ _ rfl).trans ((slotAt_modSlot_self _ _ _ lt).trans ?_)
    exact if_pos ⟨binding, rfl⟩
  · unfold evBindComplete
    rw [tileAt_modTile_ne _ _ _ _ ne]
    exact tileAt_modTile_ne _ _ _ _ ne

/-! ### Spawn queues (R90) -/

/-- A tile with another spawn queue. -/
def requeued (s : State) (n : Node) (rest : List SpawnEntry) : State := modTile s n fun t => { t with spawnQ := rest }
theorem tileAt_requeued (s : State) (n : Node) (rest : List SpawnEntry) : tileAt (requeued s n rest) n = { tileAt s n with spawnQ := rest } :=
  tileAt_modTile_self ..
theorem slotAt_requeued (s : State) (n : Node) (rest : List SpawnEntry) (r : SlotRef) : slotAt (requeued s n rest) r = slotAt s r :=
  slotAt_modTile_keep _ _ _ _ rfl
/-- The first entry of a spawn queue, bound to the slot found for it. -/
def boundFirst (s : State) (n : Node) (e : SpawnEntry) (i : Nat) (rest : List SpawnEntry) : State :=
  bindUnit (requeued s n rest) ⟨n.pkg, n.id, i⟩ e.q.desc 0

theorem beginTenancy_slots (k : Nat) (job : Word) (t : Tile) : (beginTenancy k job t).slots = t.slots := by
  unfold beginTenancy
  split <;> rfl
theorem beginTenancy_spawnQ (k : Nat) (job : Word) (t : Tile) : (beginTenancy k job t).spawnQ = t.spawnQ := by
  unfold beginTenancy
  split <;> rfl
theorem beginTenancy_tenant (k : Nat) (job : Word) (t : Tile) : (beginTenancy k job t).tenant = some (t.tenant.getD job) := by
  unfold beginTenancy
  split
  next j e => rw [e]; rfl
  next e => rw [e]; rfl

theorem spawnSlot_lt {s : State} {n : Node} {i : Nat} (h : spawnSlot s n = some i) : i < 16 := List.mem_range.1 (List.mem_of_find?_eq_some h)

section
variable (s : State) (r : SlotRef) (d : UnitDesc) (delay : Nat)
/-- The tile of a bound slot belongs to the job of the unit (R90). -/
def tenanted (s : State) (r : SlotRef) (d : UnitDesc) : State :=
  modTile { s with no := s.no + 1, freeCtr := s.freeCtr + 2 ^ 20 } r.node (beginTenancy s.freeCtr d.job)
theorem slotAt_tenanted (q : SlotRef) : slotAt (tenanted s r d) q = slotAt s q :=
  slotAt_modTile_keep _ _ _ _ (beginTenancy_slots ..)
theorem tileAt_bindUnit : tileAt (bindUnit s r d delay) r.node =
    (beginTenancy s.freeCtr d.job (tileAt s r.node)).modSlot r.slot fun l => { l with ph := .binding, ctx := boundCtx s.no d } := by
  show tileAt (modTile (tenanted s r d) r.node fun t => t.modSlot r.slot _) r.node = _
  rw [tileAt_modTile_self, tenanted, tileAt_modTile_self]
  rfl
theorem bindUnit_due : ∃ e ∈ (bindUnit s r d delay).agenda, e.at_ = dueFrom s r.node (s.now + delay) Config.bindCycles ∧ e.ev = .bindComplete r s.no :=
  mem_push_new ..
theorem spawnQ_bindUnit : (tileAt (bindUnit s r d delay) r.node).spawnQ = (tileAt s r.node).spawnQ := by
  rw [tileAt_bindUnit]
  exact (congrArg Tile.spawnQ (modSlot_rest ..) :).trans (beginTenancy_spawnQ ..)
theorem tenant_bindUnit : (tileAt (bindUnit s r d delay) r.node).tenant = some ((tileAt s r.node).tenant.getD d.job) := by
  rw [tileAt_bindUnit]
  exact (congrArg Tile.tenant (modSlot_rest ..) :).trans (beginTenancy_tenant ..)
theorem slotAt_bindUnit_self (lt : r.slot < 16) :
    slotAt (bindUnit s r d delay) r = { slotAt s r with ph := .binding, ctx := boundCtx s.no d } :=
  (slotAt_modSlot_self (tenanted s r d) r _ lt).trans (by rw [slotAt_tenanted])
theorem slotAt_bindUnit_ne (i : Nat) (ne : i ≠ r.slot) : slotAt (bindUnit s r d delay) ⟨r.pkg, r.tile, i⟩ = slotAt s ⟨r.pkg, r.tile, i⟩ :=
  (slotAt_modSlot_ne (tenanted s r d) r _ i ne).trans (slotAt_tenanted ..)
end

theorem left_boundFirst (s : State) (n : Node) (e : SpawnEntry) (i : Nat) (rest : List SpawnEntry) :
    (tileAt (boundFirst s n e i rest) n).spawnQ = rest :=
  (spawnQ_bindUnit (requeued s n rest) ⟨n.pkg, n.id, i⟩ e.q.desc 0).trans (congrArg Tile.spawnQ (tileAt_requeued ..) :)
theorem tenant_boundFirst (s : State) (n : Node) (e : SpawnEntry) (i : Nat) (rest : List SpawnEntry) :
    (tileAt (boundFirst s n e i rest) n).tenant = some ((tileAt s n).tenant.getD e.q.desc.job) := by
  have same : (tileAt (requeued s n rest) n).tenant = (tileAt s n).tenant := (congrArg Tile.tenant (tileAt_requeued ..) :)
  rw [← same]
  exact tenant_bindUnit (requeued s n rest) ⟨n.pkg, n.id, i⟩ e.q.desc 0
/-- A queue of one entry: the entry is bound to the slot found for it, and no entry is left (R90). -/
theorem evSpawnEntryServe_one {s : State} {n : Node} {e : SpawnEntry} {i : Nat} (q : (tileAt s n).spawnQ = [e]) (slot : spawnSlot s n = some i)
    (takes : tileTakes (tileAt s n) e.q.desc.job = true) : evSpawnEntryServe n s = boundFirst s n e i [] := by
  have left : (tileAt (boundFirst s n e i []) n).spawnQ = [] := left_boundFirst ..
  have first : evSpawnEntryServe n s = serveSpawns n 15 (boundFirst s n e i []) := by
    unfold evSpawnEntryServe serveSpawns
    simp only [q, slot, takes, if_true]
    rfl
  rw [first]
  unfold serveSpawns
  simp only [left]

/-- Settles O18: a request is served in its turn as the bar and the queue say; replies, returned values and binding change the unit that
waits, or the slot that binds, and nothing else. -/
theorem spawnServiceAndBinding : Obligations.SpawnServiceAndBinding := by
  refine ⟨fun s q free => ?_, ⟨fun s w p hd d a b x h form => ?_, fun s w p hd d a b x h form => ?_, fun s r dst v real bound runs awaits => ?_⟩,
    ⟨fun uid d => ?_, fun s r binding => ?_⟩, fun s n e i q slot takes => ?_⟩
  · rw [show exec (.spawnRequestLand q) s = .next (evSpawnRequestLand q s) from rfl, evSpawnRequestLand_unrecorded q s free]
    refine serveTurn_inTurn fun v => ?_
    generalize { s with served := v } = u
    refine ⟨fun unplaced => ?_, fun placed gone => ?_, fun placed stays has full => ?_, fun placed stays has room => ?_⟩
    · rw [spawnServed_refused (spawnBar_unplaced unplaced)]
      rfl
    · rw [spawnServed_refused ((spawnBar_placed placed).trans (if_pos ?_))]
      · rfl
      · simpa using gone
    · rw [spawnServed_refused ((spawnBar_placed placed).trans ((if_neg ?_).trans (if_pos full)))]
      · rfl
      · simp [stays, has]
    · rw [spawnServed_taken ((spawnBar_placed placed).trans ((if_neg ?_).trans (if_neg (Nat.not_le.2 room))))]
      · refine ⟨spawnTaken u q, rfl, mem_pushOnce .., tileAt_spawnTaken_self u q, tileAt_spawnTaken_ne u q, (OnlyAsked.pushOnce ..).mem, fun l found => ?_⟩
        rw [launchAt_spawnTaken, found]
        rfl
      · simp [stays, has]
  · exact ⟨⟨_, congrArg Host.Outcome.next (spawnReply_at_taken h form), finish_spec (waits_countedSpawn h) _⟩, fun k refused =>
      congrArg Host.Outcome.next (spawnReply_at_refused h form refused)⟩
  · exact ⟨⟨_, congrArg Host.Outcome.next (spawnReply_q_taken h form), finish_spec (waits_countedSpawn h) _⟩, fun k refused =>
      ⟨_, congrArg Host.Outcome.next (spawnReply_q_refused h form refused), finish_spec h _⟩⟩
  · obtain ⟨mem, ctx⟩ := evSpawnReturnLand_awaited (v := v) bound runs awaits
    refine ⟨_, rfl, ?_, ?_, ?_, mem, fun g other => ?_⟩
    all_goals rw [ctx]
    · exact rs_putReg _ _ _ real
    · exact presOf_setPres_self (setVal (ctxAt s r) (.s dst) (sval v)) (.s dst) .full (decide_eq_true real)
    · exact ⟨(valOf_setPres ..).trans (valOf_setVal_s_ne _ _ _ _ other), (presOf_setPres_ne _ _ _ _ other).trans (presOf_setVal ..)⟩
  · exact ⟨rs_boundCtx uid d, rv_boundCtx uid d, rk_boundCtx uid d, rp_boundCtx uid d, presOf_boundCtx uid d, rfl, rfl, rfl, rfl, rfl, rfl, rfl, rfl,
      rfl, rfl, rfl, rfl⟩
  · obtain ⟨bound, others⟩ := evBindComplete_binding binding
    exact ⟨_, rfl, bound, rfl, others⟩
  · have lt := spawnSlot_lt slot
    refine ⟨_, congrArg Host.Outcome.next (evSpawnEntryServe_one q slot takes), ?_⟩
    have self := slotAt_bindUnit_self (requeued s n []) ⟨n.pkg, n.id, i⟩ e.q.desc 0 lt
    exact ⟨left_boundFirst .., congrArg Slot.ph self, congrArg Slot.ctx self, fun j ne =>
      (slotAt_bindUnit_ne _ ⟨n.pkg, n.id, i⟩ _ _ j ne).trans (slotAt_requeued ..), bindUnit_due .., by decide, tenant_boundFirst ..⟩

end Sys2Proof.Machine
end

section
/-! Units come and go: placement, pre-emption, resumption and the first cycle of a deterministic launch (R85, R91, R151, R331). -/

namespace Sys2Proof.Machine

/-! ### Folds of which one step acts -/

theorem foldl_idle {σ α : Type} {f : σ → α → σ} {l : List α} {s : σ} (idle : ∀ a ∈ l, f s a = s) : l.foldl f s = s := by
  induction l with
  | nil => rfl
  | cons a l ih =>
    rw [List.foldl_cons, idle a List.mem_cons_self]
    exact ih fun b m => idle b (List.mem_cons_of_mem a m)
/-- Where only the step of one element changes anything, that step is the whole fold. -/
theorem foldl_one {σ α : Type} {f : σ → α → σ} {l : List α} {s : σ} {k : α} (nodup : l.Nodup) (m : k ∈ l)
    (before : ∀ a ∈ l, a ≠ k → f s a = s)
    (after : ∀ a ∈ l, a ≠ k → f (f s k) a = f s k) : l.foldl f s = f s k := by
  obtain ⟨a, b, rfl⟩ := List.append_of_mem m
  have apart := List.nodup_middle.1 nodup
  have notIn : k ∉ a ++ b := (List.nodup_cons.1 apart).1
  have ne : ∀ x ∈ a ++ b, x ≠ k := fun x mx e => notIn (e ▸ mx)
  rw [List.foldl_append, List.foldl_cons, foldl_idle fun x mx => before x (List.mem_append_left _ mx) (ne x (List.mem_append_left _ mx)),
    foldl_idle fun x mx => after x (List.mem_append_right _ (List.mem_cons_of_mem _ mx)) (ne x (List.mem_append_right _ mx))]
/-- A part of the state that no step changes. -/
theorem foldl_keeps {σ α β : Type} (g : σ → β) {f : σ → α → σ} (keeps : ∀ s a, g (f s a) = g s) (l : List α) (s : σ) : g (l.foldl f s) = g s := by
  induction l generalizing s with
  | nil => rfl
  | cons a l ih => rw [List.foldl_cons, ih, keeps]

/-- A part of a tile that the change of a tile keeps. -/
theorem modTile_keeps {α : Type} (g : Tile → α) (s : State) (n : Node) (f : Tile → Tile) (m : Node) (keeps : g (f (tileAt s n)) = g (tileAt s n)) :
    g (tileAt (modTile s n f) m) = g (tileAt s m) := by
  by_cases k : nodeKey m = nodeKey n
  · have same : ∀ u : State, tileAt u m = tileAt u n := fun u => by unfold tileAt; rw [k]
    rw [same, same, tileAt_modTile_self, keeps]
  · rw [tileAt_modTile_ne _ _ _ _ k]
theorem xas_modSlot (s : State) (r : SlotRef) (f : Slot → Slot) (n : Node) : (tileAt (modSlot s r f) n).xas = (tileAt s n).xas :=
  modTile_keeps Tile.xas s r.node _ n (congrArg Tile.xas (modSlot_rest ..) :)
theorem OnlyAsked.askWork (s : State) (n : Node) : OnlyAsked s (askWork s n) := (OnlyAsked.pushOnce ..).trans (.pushOnce ..)
theorem OnlyAsked.askDeposit (s : State) (e : EpRef) (c : Nat) : OnlyAsked s (askDeposit s e c) := by
  unfold Machine.askDeposit
  split
  · exact .pushOnce ..
  · exact .refl s

/-! ### Placing a node changes its package, and resuming no package (R85) -/

theorem pkgs_bindTile (s : State) (pkg : Nat) (l : Launch) (s0 i tile delay : Nat) : (bindTile s pkg l s0 i tile delay).pkgs = s.pkgs := by
  unfold bindTile
  dsimp only
  rw [foldl_keeps State.pkgs]
  · split <;> rfl
  · exact fun _ _ => rfl
theorem OnlyAsked.askSpawns (s : State) (pkg : Nat) (l : Launch) : OnlyAsked s (askSpawns s pkg l) :=
  .foldl _ (fun _ _ => .unless _ (.pushOnce ..)) _ _

theorem pkgAt_congr {s t : State} (same : t.pkgs = s.pkgs) (p : Nat) : pkgAt t p = pkgAt s p := by
  unfold pkgAt
  rw [same]
/-- A launch once it is placed on tiles in free mode, as the n-th of its package (R85). -/
def placedLaunch (slots : Nat) (tiles : List Nat) (n : Nat) (l : Launch) : Launch :=
  { l with placed := true, tiles := tiles, order := n, live := tiles.length * slots, s0 := 0, parity := none, routes := [] }
/-- A package in which a node is placed: the node is in the pool no longer, and its launch stands on its tiles (R85). -/
def placedPkg (l : Launch) (tiles : List Nat) (p : Pkg) : Pkg :=
  { p with
    placeNo := p.placeNo + 1
    pool := p.pool.filter fun x => x.2.2.2 ≠ l.serial
    launches := p.launches.map fun x => if x.serial = l.serial then placedLaunch l.d.slots tiles p.placeNo x else x }
theorem pkgAt_placeNode {s : State} {pkg : Nat} {l : Launch} {tiles : List Nat} (free : l.d.det = false) :
    pkgAt (placeNode s pkg l tiles none) pkg = placedPkg l tiles (pkgAt s pkg) := by
  have same : (placeNode s pkg l tiles none).pkgs = (modPkg s pkg (placedPkg l tiles)).pkgs := by
    unfold placeNode
    simp only [free, Bool.false_eq_true, if_false]
    rw [(OnlyAsked.askSpawns ..).pkgs, foldl_keeps State.pkgs]
    · rfl
    · exact fun u x => pkgs_bindTile (stepFree u) ..
  rw [pkgAt_congr same, pkgAt_modPkg_self]
theorem launchOf_placeNode {s : State} {pkg : Nat} {l : Launch} {tiles : List Nat} (free : l.d.det = false) :
    launchOf (placeNode s pkg l tiles none) pkg l.serial =
      (launchOf s pkg l.serial).map (placedLaunch l.d.slots tiles (pkgAt s pkg).placeNo) := by
  unfold launchOf
  rw [pkgAt_placeNode free]
  exact find_map_serial _ _ _ fun _ => rfl

/-- A unit begins to resume on its slot: what the slot then holds, and its accumulators (R91, R151). -/
def resumed (s : State) (r : SlotRef) (c : Ctx) : State :=
  let s := modSlot (takeXas s r c) r fun l =>
    { l with ph := .saving, ctx := { c with savedXa := [] }, saved := l.saved.filter (fun x => x.uid ≠ c.uid), freedFor := none }
  push (stepFree s) (s.now + Config.freeLatency s.freeCtr) phStart (slotKey r) (.unitResume r c.uid)
/-- What resuming does on one slot of a tile. -/
def resumeSlot (n : Node) (s : State) (i : Nat) : State :=
  match (slotAt s ⟨n.pkg, n.id, i⟩).ph, nextSaved (slotAt s ⟨n.pkg, n.id, i⟩) with
  | .free, some c =>
    if awaited s n.pkg (slotAt s ⟨n.pkg, n.id, i⟩) ∨ c.keepsMat ∨ c.keepsCopy ∨ !xaFree (tileAt s n) c then s else resumed s ⟨n.pkg, n.id, i⟩ c
  | _, _ => s
theorem resumeTile_eq (s : State) (n : Node) : resumeTile s n = (List.range 16).foldl (resumeSlot n) s := rfl

theorem resumeSlot_none {s : State} {n : Node} {i : Nat} (none : nextSaved (slotAt s ⟨n.pkg, n.id, i⟩) = none) : resumeSlot n s i = s := by
  unfold resumeSlot
  rw [none]
  split
  next e => cases e
  next => rfl
theorem resumeSlot_some {s : State} {n : Node} {i : Nat} {c : Ctx} (free : (slotAt s ⟨n.pkg, n.id, i⟩).ph = .free)
    (next : nextSaved (slotAt s ⟨n.pkg, n.id, i⟩) = some c) :
    resumeSlot n s i = if awaited s n.pkg (slotAt s ⟨n.pkg, n.id, i⟩) ∨ c.keepsMat ∨ c.keepsCopy ∨ !xaFree (tileAt s n) c then s
      else resumed s ⟨n.pkg, n.id, i⟩ c := by
  unfold resumeSlot
  rw [free, next]
theorem pkgs_resumeSlot (n : Node) (s : State) (i : Nat) : (resumeSlot n s i).pkgs = s.pkgs := by
  unfold resumeSlot
  split
  · split <;> rfl
  · rfl
theorem pkgs_resumeTiles (s : State) (l : List Node) : (l.foldl resumeTile s).pkgs = s.pkgs :=
  foldl_keeps State.pkgs (fun u n => by rw [resumeTile_eq]; exact foldl_keeps State.pkgs (pkgs_resumeSlot n) _ u) l s

/-! ### The pool (R84, R85) -/

theorem poolOrder_empty {s : State} {pkg : Nat} (empty : (pkgAt s pkg).pool = []) : poolOrder s pkg = [] := by
  unfold poolOrder
  rw [empty]
  rfl
theorem poolOrder_single {s : State} {pkg : Nat} {x : Nat × Nat × Nat × Nat} {l : Launch} (one : (pkgAt s pkg).pool = [x])
    (found : launchOf s pkg x.2.2.2 = some l) : poolOrder s pkg = [l] := by
  unfold poolOrder
  rw [one]
  show List.filterMap _ [x] = [l]
  simp only [List.filterMap_cons, found, List.filterMap_nil]
theorem waitingHeads_empty {s : State} {pkg : Nat} (empty : (pkgAt s pkg).pool = []) : waitingHeads s pkg = [] := by
  unfold waitingHeads
  rw [poolOrder_empty empty]
  rfl
theorem considered_empty {s : State} {pkg : Nat} (empty : (pkgAt s pkg).pool = []) : considered s pkg = [] := by
  unfold considered
  rw [poolOrder_empty empty]
  rfl
theorem considered_single {s : State} {pkg : Nat} {x : Nat × Nat × Nat × Nat} {l : Launch} (one : (pkgAt s pkg).pool = [x])
    (found : launchOf s pkg x.2.2.2 = some l) (prio : l.d.prio ≤ 3) : considered s pkg = [l] := by
  unfold considered
  rw [poolOrder_single one found]
  generalize e : l.d.prio = p at prio
  interval_cases p <;> simp [e]
/-- With nothing in the pool, only units that are away are looked at. -/
theorem evNodePlacement_empty {s : State} {pkg : Nat} (empty : (pkgAt s pkg).pool = []) :
    evNodePlacement pkg s = (awayTiles s pkg).foldl resumeTile s := by
  unfold evNodePlacement
  simp only [considered_empty empty, placeAll, waitingHeads_empty empty, List.foldl_nil]
/-- A node that is alone in the pool and fits is placed. -/
theorem evNodePlacement_single {s : State} {pkg : Nat} {x : Nat × Nat × Nat × Nat} {l : Launch} {ts : List Nat} (one : (pkgAt s pkg).pool = [x])
    (found : launchOf s pkg x.2.2.2 = some l) (prio : l.d.prio ≤ 3) (fits : tryPlace s pkg l = some (ts, none))
    (alone : (pkgAt (placeNode s pkg l ts none) pkg).pool = []) :
    (evNodePlacement pkg s).pkgs = (placeNode s pkg l ts none).pkgs := by
  have placed : placeAll pkg [l] [] [] s = placeNode s pkg l ts none := by simp [placeAll, fits]
  unfold evNodePlacement
  simp only [considered_single one found prio, placed, waitingHeads_empty alone, List.foldl_nil]
  exact pkgs_resumeTiles ..

/-! ### Saving and resuming a context (R91, R151) -/

/-- An accumulator that holds what a saved unit's entry says. -/
def savedXAcc (r : SlotRef) (c : Ctx) (n : BitVec 4352) (st : Nat) : XAcc := ⟨n, st, some (r.slot, c.uid), 0, c.d.job⟩
/-- An entry of a saved unit goes back to its accumulator. -/
def putXa (r : SlotRef) (c : Ctx) (xs : Vector XAcc 8) (e : Nat × BitVec 4352 × Nat) : Vector XAcc 8 := xs.set! e.1 (savedXAcc r c e.2.1 e.2.2)
theorem putXas_ne (r : SlotRef) (c : Ctx) (l : List (Nat × BitVec 4352 × Nat)) (xs : Vector XAcc 8) (k : Fin 8) (ne : ∀ e ∈ l, e.1 ≠ k) :
    (l.foldl (putXa r c) xs)[k] = xs[k] := by
  induction l generalizing xs with
  | nil => rfl
  | cons e l ih =>
    rw [List.foldl_cons, ih _ fun x m => ne x (List.mem_cons_of_mem _ m)]
    exact Vector.getElem_set!_ne k.isLt (ne e List.mem_cons_self)
/-- Where no accumulator is named twice, each entry is back in its own. -/
theorem putXas_mem (r : SlotRef) (c : Ctx) (l : List (Nat × BitVec 4352 × Nat)) (xs : Vector XAcc 8) (k : Fin 8) (n : BitVec 4352) (st : Nat)
    (nodup : (l.map (·.1)).Nodup) (m : ((k : Nat), n, st) ∈ l) : (l.foldl (putXa r c) xs)[k] = savedXAcc r c n st := by
  obtain ⟨a, b, rfl⟩ := List.append_of_mem m
  have apart : ∀ e ∈ b, e.1 ≠ k := by
    rw [List.map_append, List.map_cons] at nodup
    have notIn := (List.nodup_cons.1 (List.nodup_append.1 nodup).2.1).1
    exact fun e me same => notIn (List.mem_map.2 ⟨e, me, same⟩)
  rw [List.foldl_append, List.foldl_cons, putXas_ne r c b _ k apart]
  exact Vector.getElem_set!_self k.isLt

section
variable (s : State) (r : SlotRef) (c : Ctx)
theorem takeXas_eq : takeXas s r c = modTile s r.node fun t => { t with xas := c.savedXa.foldl (putXa r c) t.xas } := rfl
theorem slotAt_takeXas (q : SlotRef) : slotAt (takeXas s r c) q = slotAt s q := slotAt_modTile_keep _ _ _ _ rfl
theorem slotAt_resumed_self (lt : r.slot < 16) : slotAt (resumed s r c) r = { slotAt s r with
    ph := .saving, ctx := { c with savedXa := [] }, saved := (slotAt s r).saved.filter (fun x => x.uid ≠ c.uid), freedFor := none } :=
  (slotAt_modSlot_self (takeXas s r c) r _ lt).trans (by rw [slotAt_takeXas])
theorem slotAt_resumed_ne (i : Nat) (ne : i ≠ r.slot) : slotAt (resumed s r c) ⟨r.pkg, r.tile, i⟩ = slotAt s ⟨r.pkg, r.tile, i⟩ :=
  (slotAt_modSlot_ne (takeXas s r c) r _ i ne).trans (slotAt_takeXas ..)
theorem mem_resumed : (resumed s r c).mem = s.mem := rfl
theorem resumed_due : ∃ e ∈ (resumed s r c).agenda, e.ev = .unitResume r c.uid := by
  obtain ⟨e, m, -, ev⟩ := mem_push_new (stepFree (modSlot (takeXas s r c) r fun l =>
    { l with ph := .saving, ctx := { c with savedXa := [] }, saved := l.saved.filter (fun x => x.uid ≠ c.uid), freedFor := none }))
    (s.now + Config.freeLatency s.freeCtr) phStart (slotKey r) (.unitResume r c.uid)
  exact ⟨e, m, ev⟩
theorem xas_resumed : (tileAt (resumed s r c) r.node).xas = c.savedXa.foldl (putXa r c) (tileAt s r.node).xas := by
  refine (xas_modSlot (takeXas s r c) r _ r.node).trans ?_
  rw [takeXas_eq, tileAt_modTile_self]
end

/-- On a tile on which one unit alone waits to resume, and may, that unit resumes. -/
theorem resumeTile_one {s : State} {r : SlotRef} {c : Ctx} (lt : r.slot < 16) (free : (slotAt s r).ph = .free) (next : nextSaved (slotAt s r) = some c)
    (others : ∀ i, i < 16 → i ≠ r.slot → nextSaved (slotAt s ⟨r.pkg, r.tile, i⟩) = none) (may : awaited s r.pkg (slotAt s r) = false)
    (mat : c.keepsMat = false) (copy : c.keepsCopy = false) (xa : xaFree (tileAt s r.node) c = true) :
    resumeTile s r.node = resumed s r c := by
  have go : ¬ (awaited s r.pkg (slotAt s r) = true ∨ c.keepsMat = true ∨ c.keepsCopy = true ∨ (!xaFree (tileAt s r.node) c) = true) := by
    simp [may, mat, copy, xa]
  have self : resumeSlot r.node s r.slot = resumed s r c :=
    (resumeSlot_some (n := r.node) (i := r.slot) free next).trans (if_neg go)
  rw [resumeTile_eq, foldl_one List.nodup_range (List.mem_range.2 lt), self]
  · exact fun i m ne => resumeSlot_none (others i (List.mem_range.1 m) ne)
  · intro i m ne
    rw [self]
    refine resumeSlot_none ?_
    rw [← others i (List.mem_range.1 m) ne, ← slotAt_resumed_ne s r c i ne]
    rfl

/-- The context of a unit whose saving is complete: with its accumulators (R151). -/
def savedCtx (s : State) (r : SlotRef) : Ctx :=
  { ctxAt s r with
    preempting := false
    savedXa := (((tileAt s r.node).xas.toList.zipIdx.filter fun (x, _) => x.holder = some (r.slot, (ctxAt s r).uid)).map fun (x, i) => (i, x.n, x.st)) }
theorem mem_savedXa {s : State} {r : SlotRef} {k : Fin 8} (held : ((tileAt s r.node).xas[k]).holder = some (r.slot, (ctxAt s r).uid)) :
    ((k : Nat), ((tileAt s r.node).xas[k]).n, ((tileAt s r.node).xas[k]).st) ∈ (savedCtx s r).savedXa := by
  refine List.mem_map.2 ⟨((tileAt s r.node).xas[k], k), List.mem_filter.2 ⟨?_, ?_⟩, rfl⟩
  · simp [List.mk_mem_zipIdx_iff_getElem?]
  · simpa using held
/-- An accumulator after the saving of the unit that may hold it. -/
def leftXa (r : SlotRef) (uid : Nat) (job : Word) (x : XAcc) : XAcc :=
  if x.holder = some (r.slot, uid) then { x with holder := none, job := job } else x

section
variable {s : State} {r : SlotRef} (saving : (slotAt s r).ph = .saving)
include saving

/-- The saved context leaves the slot, and its accumulators are nobody's (R91, R151). -/
theorem evContextSaveComplete_saving : OnlyAsked (modSlot (modTile s r.node fun t =>
      { t with xas := t.xas.map (leftXa r (ctxAt s r).uid (ctxAt s r).d.job) }) r fun l => { l with ph := .free, saved := l.saved ++ [savedCtx s r] })
    (evContextSaveComplete r (ctxAt s r).uid s) := by
  unfold evContextSaveComplete
  rw [if_neg (by simp [saving, ctxAt])]
  exact OnlyAsked.askWork ..
theorem evUnitResume_saving : OnlyAsked (modSlot s r fun l =>
      { l with ph := .bound, ctx := { l.ctx with wake := true, preempting := false, readyFrom := s.now + 1 } })
    (evUnitResume r (ctxAt s r).uid s) := by
  unfold evUnitResume
  rw [if_neg (by simp [saving, ctxAt])]
  exact (OnlyAsked.foldl _ (fun _ _ => .askDeposit ..) _ _).trans (.askWork ..)
end

/-! ### The first cycle of a deterministic launch (R331) -/

/-- A tile on which the units of a launch issue from a cycle on. -/
def startTile (h : Word) (now : Nat) (t : Tile) : Tile := { t with slots := t.slots.map (startAt h now) }
theorem startAt_idem (h : Word) (now : Nat) (x : Slot) : startAt h now (startAt h now x) = startAt h now x := by
  unfold startAt
  by_cases c : x.ph = .bound ∧ x.ctx.d.launch = h
  · simp [c]
  · simp [c]
theorem slotAt_startTile (s : State) (h : Word) (now : Nat) (r : SlotRef) :
    slotAt (modTile s r.node (startTile h now)) r = startAt h now (slotAt s r) := by
  unfold slotAt
  rw [tileAt_modTile_self]
  by_cases lt : r.slot < 16
  · simp [startTile, List.getD_eq_getElem?_getD, lt]
  · simp [startTile, List.getD_eq_getElem?_getD, lt, startAt, Slot.reset]
theorem slotAt_modTile_ne (s : State) (n : Node) (f : Tile → Tile) (r : SlotRef) (ne : nodeKey r.node ≠ nodeKey n) :
    slotAt (modTile s n f) r = slotAt s r := by
  unfold slotAt
  rw [tileAt_modTile_ne _ _ _ _ ne]
theorem slotAt_startTiles (s : State) (h : Word) (pkg i k : Nat) (l : List Nat) :
    slotAt (l.foldl (fun u t => modTile u ⟨pkg, t⟩ (startTile h u.now)) s) ⟨pkg, i, k⟩ =
      if i ∈ l then startAt h s.now (slotAt s ⟨pkg, i, k⟩) else slotAt s ⟨pkg, i, k⟩ := by
  induction l generalizing s with
  | nil => rfl
  | cons j l ih =>
    rw [List.foldl_cons, ih, modTile_now]
    by_cases e : i = j
    · subst e
      rw [if_pos List.mem_cons_self, show slotAt (modTile s ⟨pkg, i⟩ _) ⟨pkg, i, k⟩ = _ from slotAt_startTile s h s.now ⟨pkg, i, k⟩,
        startAt_idem, ite_self]
    · have ne : nodeKey (SlotRef.node ⟨pkg, i, k⟩) ≠ nodeKey ⟨pkg, j⟩ := fun same => e (Nat.add_left_cancel same)
      rw [slotAt_modTile_ne _ _ _ _ ne]
      simp only [List.mem_cons, e, false_or]
theorem evDeterministicStart_found {s : State} {pkg serial : Nat} {l : Launch} (found : launchOf s pkg serial = some l) :
    evDeterministicStart pkg serial s = l.tiles.foldl (fun u t => modTile u ⟨pkg, t⟩ (startTile (handleOf 0 pkg serial) u.now)) s := by
  unfold launchOf at found
  unfold evDeterministicStart
  rw [found]
  rfl
theorem serial_launchOf {s : State} {pkg serial : Nat} {l : Launch} (found : launchOf s pkg serial = some l) : l.serial = serial := by
  unfold launchOf at found
  exact of_decide_eq_true (List.find?_some found :)

/-- Settles O26: with the pool's one node placed nothing waits in it, and resuming leaves the packages; a context that is saved or resumed takes
its accumulators along; the first cycle of a launch lets its bound units issue. -/
theorem unitsComeAndGo : Obligations.UnitsComeAndGo := by
  refine ⟨fun s pkg x l ts one found prio free fits => ?_, fun s pkg empty none => ?_, fun s r saving => ?_,
    fun s r c empty away free next others lt may mat copy xa nodup => ?_, fun s r saving => ?_, fun s pkg serial l found _ => ?_⟩
  · have serial : x.2.2.2 = l.serial := (serial_launchOf found).symm
    have pool : (pkgAt (placeNode s pkg l ts none) pkg).pool = [] := by
      rw [pkgAt_placeNode free]
      simp [placedPkg, one, serial]
    have same := evNodePlacement_single one found prio fits pool
    refine ⟨_, rfl, by rw [pkgAt_congr same, pool], ?_⟩
    have on := launchOf_placeNode (s := s) (pkg := pkg) (tiles := ts) free
    rw [← serial, found] at on
    unfold launchOf at on ⊢
    rw [pkgAt_congr same]
    exact on
  · exact congrArg Host.Outcome.next ((evNodePlacement_empty empty).trans (by rw [none]; rfl))
  · have lt : r.slot < 16 := slot_lt s r (by rw [saving]; decide)
    have asked := evContextSaveComplete_saving saving
    have slot := (asked.slotAt r).trans (slotAt_modSlot_self _ _ _ lt)
    rw [slotAt_modTile_keep _ _ _ _ rfl] at slot
    have xas : (tileAt (evContextSaveComplete r (ctxAt s r).uid s) r.node).xas = (tileAt s r.node).xas.map (leftXa r (ctxAt s r).uid (ctxAt s r).d.job) := by
      rw [asked.tileAt, xas_modSlot, tileAt_modTile_self]
    refine ⟨_, savedCtx s r, rfl, by rw [slot], by rw [slot], rfl, rfl, asked.mem, fun k => ⟨fun held => ⟨mem_savedXa held, ?_⟩, fun other => ?_⟩⟩
    all_goals rw [xas, Fin.getElem_fin, Vector.getElem_map]
    · exact congrArg XAcc.holder (if_pos held)
    · exact if_neg other
  · have e : evNodePlacement r.pkg s = resumed s r c := by
      rw [evNodePlacement_empty empty, away, List.foldl_cons, List.foldl_nil]
      exact resumeTile_one lt free next others may mat copy xa
    have slot := slotAt_resumed_self s r c lt
    have ph : (slotAt (resumed s r c) r).ph = .saving := by rw [slot]
    have ctx : ctxAt (resumed s r c) r = { c with savedXa := [] } := by unfold ctxAt; rw [slot]
    have saved : (slotAt (resumed s r c) r).saved = (slotAt s r).saved.filter fun x => x.uid ≠ c.uid := by rw [slot]
    refine ⟨resumed s r c, congrArg Host.Outcome.next e, ph, ctx, mem_resumed .., saved,
      resumed_due s r c, fun k n st m => ?_⟩
    rw [xas_resumed]
    exact putXas_mem r c _ _ k n st nodup m
  · have lt : r.slot < 16 := slot_lt s r (by rw [saving]; decide)
    have asked := evUnitResume_saving saving
    exact ⟨_, rfl, (asked.slotAt r).trans (slotAt_modSlot_self _ _ _ lt), asked.mem, fun n => (congrArg Tile.xas (asked.tileAt n) :).trans (xas_modSlot ..)⟩
  · refine ⟨_, congrArg Host.Outcome.next (evDeterministicStart_found found), fun i k _ => ?_⟩
    refine (slotAt_startTiles ..).trans ?_
    by_cases m : i ∈ l.tiles
    · simp only [m, if_true, true_and]
      rfl
    · simp only [m, if_false, false_and]

end Sys2Proof.Machine
end

section
/-! What a dispatcher answers, and how launches, phases and jobs complete (R82, R83, R88, R89, R104 to R109, R397). -/

namespace Sys2Proof.Machine

/-! ### What a dispatcher answers (R104 to R109, R397) -/

/-- A dispatcher whose answer is known for every state of the same machine, whatever it has served, gives it in its turn. -/
theorem svcServe_serves {s : State} {q : SvcReq} {g : State → State × SvcReply} {f : State → State} {a : SvcReply}
    (gives : ∀ v, g { s with served := v } = (f { s with served := v }, a)) :
    Serves s q 10 64 .dispatcherRequest f a (.next (svcServe s q 10 64 .dispatcherRequest g)) := by
  refine serveTurn_inTurn fun v => ?_
  dsimp only
  rw [gives v]
  rfl

section
variable {s : State} {pkg : Nat} {job : Word}

theorem serveLaunch_bad (d : LaunchDesc) (o : Nat) : serveLaunch s pkg job d (some o) = (s, svcFault 0x16 0 (BitVec.ofNat 64 o)) := rfl
theorem descFault_good {d : LaunchDesc} (there : absentTiles s pkg d = false) : descFault s pkg d none = none := by
  unfold descFault
  rw [there]
  rfl
theorem serveLaunch_closed {d : LaunchDesc} (there : absentTiles s pkg d = false) (closed : takesWork s pkg job = false) :
    serveLaunch s pkg job d none = (s, illegal) := by
  unfold serveLaunch
  rw [descFault_good there, closed]
  rfl
theorem serveLaunch_full {d : LaunchDesc} (there : absentTiles s pkg d = false) (takes : takesWork s pkg job = true)
    (full : 8192 ≤ liveLaunches s pkg) : serveLaunch s pkg job d none = (s, exhausted 1) := by
  unfold serveLaunch
  rw [descFault_good there, takes]
  exact if_pos full
theorem serveAdd_closed {h : Word} {d : LaunchDesc} {bad : Option Nat} (closed : openGraph s pkg job h = none) :
    serveAdd s pkg job h d bad = (s, illegal) := by
  unfold serveAdd
  rw [closed]
/-- GRAPH.ADD with a good descriptor and room among the launches of the package: the nodes of the graph decide (R106). -/
theorem serveAdd_open {h : Word} {d : LaunchDesc} {g : Graph} (is : openGraph s pkg job h = some g) (there : absentTiles s pkg d = false)
    (room : liveLaunches s pkg < 8192) : serveAdd s pkg job h d none =
      if 256 ≤ g.nodes.length then (s, exhausted 3)
      else ((addLaunch s pkg job g.serial g.nodes.length d).1, svcHandle (handleOf 0 pkg (pkgAt s pkg).serial)) := by
  unfold serveAdd
  rw [is, descFault_good there]
  exact if_neg (Nat.not_le.2 room)
theorem serveEdge_closed {h a b : Word} (closed : openGraph s pkg job h = none) : serveEdge s pkg job h a b = (s, illegal) := by
  unfold serveEdge
  rw [closed]
theorem serveEdge_open {h a b : Word} {g : Graph} (is : openGraph s pkg job h = some g) : serveEdge s pkg job h a b =
    if b.toNat ≤ a.toNat ∨ g.nodes.length ≤ b.toNat then (s, illegal)
    else if 1024 ≤ g.edges.length then (s, exhausted 4)
    else (modGraph s pkg g.serial fun g => { g with edges := g.edges ++ [(a.toNat, b.toNat)] }, svcVal 0) := by
  unfold serveEdge
  rw [is]
/-- GRAPH.SUBMIT at the dispatcher (R106). -/
def serveSubmit (s : State) (pkg : Nat) (job h : Word) : State × SvcReply :=
  match openGraph s pkg job h with
  | none => (s, illegal)
  | some x => if takesWork s pkg job then (submitGraph s pkg job x.serial, svcVal 0) else (s, illegal)
theorem serveSubmit_refused {h : Word} (may : openGraph s pkg job h = none ∨ takesWork s pkg job = false) :
    serveSubmit s pkg job h = (s, illegal) := by
  unfold serveSubmit
  split
  · rfl
  next x is =>
    rcases may with none | closed
    · rw [is] at none
      cases none
    · rw [closed]
      rfl
/-- What DONE.WAIT is answered when the dispatcher knows so much of the object (R83, R107). -/
def doneWaitAnswer (s : State) (q : SvcReq) (poll : Bool) : Known → State
  | .bad => svcServe s q 10 64 .dispatcherRequest fun s => (s, illegal)
  | .over n => svcServe s q 10 64 .dispatcherRequest fun s => (s, svcVal n)
  | .live => if poll then svcServe s q 10 64 .dispatcherRequest fun s => (s, svcVal 2)
    else modPkg s q.peer.pkg fun p => { p with waits := p.waits ++ [⟨q⟩] }
/-- The handle of a launch (R82). -/
theorem handleOf_launch (k : Nat) : handleOf 0 pkg k = BitVec.ofNat 64 (pkg * 2 ^ 56 + k) := by
  unfold handleOf
  rw [Nat.zero_mul, Nat.zero_add]
theorem handleOf_graph (k : Nat) : handleOf 1 pkg k = BitVec.ofNat 64 (2 ^ 62 + pkg * 2 ^ 56 + k) := by
  unfold handleOf
  rw [Nat.one_mul]
end

section
variable {s : State} {q : SvcReq}

theorem dispatcher_gone (gone : waitGone s q = true) : evDispatcherRequest q s = s := by
  unfold evDispatcherRequest
  exact if_pos gone

/-- Whatever a dispatcher serves, its answer stands in the outcome (R397). -/
theorem dispatcher_serves {g : State → State × SvcReply} {f : State → State} {a : SvcReply}
    (e : evDispatcherRequest q s = svcServe s q 10 64 .dispatcherRequest g) (gives : ∀ v, g { s with served := v } = (f { s with served := v }, a)) :
    Serves s q 10 64 .dispatcherRequest f a (exec (.dispatcherRequest q) s) := by
  rw [show exec (.dispatcherRequest q) s = .next (evDispatcherRequest q s) from rfl, e]
  exact svcServe_serves gives

variable (waits : waitGone s q = false)
include waits

theorem dispatcher_refused {code : Nat} {va : Word} (kind : q.kind = .refused code va) :
    evDispatcherRequest q s = svcServe s q 10 64 .dispatcherRequest fun s => (s, svcFault code va 0) := by
  unfold evDispatcherRequest
  simp only [waits, kind, Bool.false_eq_true, if_false]
theorem dispatcher_launch {d : LaunchDesc} {bad : Option Nat} (kind : q.kind = .launch d bad) :
    evDispatcherRequest q s = svcServe s q 10 64 .dispatcherRequest fun s => serveLaunch s q.peer.pkg q.job d bad := by
  unfold evDispatcherRequest
  simp only [waits, kind, Bool.false_eq_true, if_false]
theorem dispatcher_graphOpen (kind : q.kind = .graphOpen) :
    evDispatcherRequest q s = svcServe s q 10 64 .dispatcherRequest fun s =>
      if 64 ≤ ((pkgAt s q.peer.pkg).graphs.filter fun g => !g.submitted && !g.givenUp).length then (s, exhausted 2)
      else ((addGraph s q.peer.pkg q.job).1, svcHandle (handleOf 1 q.peer.pkg (addGraph s q.peer.pkg q.job).2)) := by
  unfold evDispatcherRequest
  simp only [waits, kind, Bool.false_eq_true, if_false]
theorem dispatcher_graphAdd {g : Word} {d : LaunchDesc} {bad : Option Nat} (kind : q.kind = .graphAdd g d bad) :
    evDispatcherRequest q s = svcServe s q 10 64 .dispatcherRequest fun s => serveAdd s q.peer.pkg q.job g d bad := by
  unfold evDispatcherRequest
  simp only [waits, kind, Bool.false_eq_true, if_false]
theorem dispatcher_graphEdge {g a b : Word} (kind : q.kind = .graphEdge g a b) :
    evDispatcherRequest q s = svcServe s q 10 64 .dispatcherRequest fun s => serveEdge s q.peer.pkg q.job g a b := by
  unfold evDispatcherRequest
  simp only [waits, kind, Bool.false_eq_true, if_false]
theorem dispatcher_graphSubmit {g : Word} (kind : q.kind = .graphSubmit g) :
    evDispatcherRequest q s = svcServe s q 10 64 .dispatcherRequest fun s => serveSubmit s q.peer.pkg q.job g := by
  unfold evDispatcherRequest
  rw [waits, kind]
  rfl
/-- DONE.WAIT: refused to a unit of the object; else what the dispatcher knows of the object decides (R107). The proof names the function that
tells what is known, so that the kernel does not evaluate it. -/
theorem dispatcher_doneWait {lvl : Level} {h : Word} {poll : Bool} (kind : q.kind = .doneWait lvl h poll) :
    evDispatcherRequest q s =
      if containsUnit s q.peer.pkg lvl (h.toNat % 2 ^ 32) q.launch then svcServe s q 10 64 .dispatcherRequest fun s => (s, illegal)
      else doneWaitAnswer s q poll (knownOf s q.peer.pkg q.job lvl (h.toNat % 2 ^ 32)) := by
  unfold evDispatcherRequest
  obtain ⟨known, same⟩ : ∃ known, known = knownOf := ⟨_, rfl⟩
  rw [← same, waits, kind]
  rfl
theorem dispatcher_phaseLeave_refused {j : Job} (kind : q.kind = .phaseLeave) (job : jobAt s q.job = some j)
    (may : q.root = false ∨ j.phaseOpen.contains q.who.slot.pkg = false) :
    evDispatcherRequest q s = svcServe s q 10 64 .dispatcherRequest fun s => (s, illegal) := by
  unfold evDispatcherRequest
  simp only [waits, kind, Bool.false_eq_true, if_false, job]
  exact if_pos (by simpa using may)
theorem dispatcher_phaseEnter_refused {j : Job} {n : Word} (kind : q.kind = .phaseEnter n) (job : jobAt s q.job = some j)
    (may : q.root = false ∨ j.left.contains q.who.slot.pkg = false ∨ n.toNat ≠ j.phase + 1) :
    evDispatcherRequest q s = svcServe s q 10 64 .dispatcherRequest fun s => (s, illegal) := by
  unfold evDispatcherRequest
  simp only [waits, kind, Bool.false_eq_true, if_false, job]
  exact if_pos (by simpa using may)
end

/-! ### Each answer in its turn -/

/-- What a request that lands at a dispatcher does there, and the answer. -/
abbrev Answers (s : State) (q : SvcReq) (f : State → State) (a : SvcReply) : Prop :=
  Serves s q 10 64 .dispatcherRequest f a (exec (.dispatcherRequest q) s)

section
variable {s : State} {q : SvcReq} (waits : waitGone s q = false)
include waits

theorem answers_refused {code : Nat} {va : Word} (kind : q.kind = .refused code va) : Answers s q id ⟨0, false, code, va, 0⟩ :=
  dispatcher_serves (dispatcher_refused waits kind) fun _ => rfl

section
variable {d : LaunchDesc}
theorem answers_launch_bad {o : Nat} (kind : q.kind = .launch d (some o)) : Answers s q id ⟨0, false, 0x16, 0, BitVec.ofNat 64 o⟩ :=
  dispatcher_serves (dispatcher_launch waits kind) fun _ => serveLaunch_bad d o
variable (kind : q.kind = .launch d none) (there : absentTiles s q.peer.pkg d = false)
include kind there
theorem answers_launch_closed (closed : takesWork s q.peer.pkg q.job = false) : Answers s q id illegal :=
  dispatcher_serves (dispatcher_launch waits kind) fun v => serveLaunch_closed (s := { s with served := v }) there closed
theorem answers_launch_full (takes : takesWork s q.peer.pkg q.job = true) (full : 8192 ≤ liveLaunches s q.peer.pkg) : Answers s q id (exhausted 1) :=
  dispatcher_serves (dispatcher_launch waits kind) fun v => serveLaunch_full (s := { s with served := v }) there takes full
end

/-- The graphs of a package to which nodes may still be added (R106). -/
abbrev openGraphs (s : State) (pkg : Nat) : Nat := ((pkgAt s pkg).graphs.filter fun g => !g.submitted && !g.givenUp).length
theorem answers_graphOpen_full (kind : q.kind = .graphOpen) (full : 64 ≤ openGraphs s q.peer.pkg) : Answers s q id (exhausted 2) :=
  dispatcher_serves (dispatcher_graphOpen waits kind) fun _ => if_pos full
theorem answers_graphOpen (kind : q.kind = .graphOpen) (room : openGraphs s q.peer.pkg < 64) :
    Answers s q (fun u => (addGraph u q.peer.pkg q.job).1)
      ⟨BitVec.ofNat 64 (2 ^ 62 + q.peer.pkg * 2 ^ 56 + (pkgAt s q.peer.pkg).serial), true, 0, 0, 0⟩ := by
  refine dispatcher_serves (dispatcher_graphOpen waits kind) fun v => (if_neg (Nat.not_le.2 room)).trans ?_
  rw [handleOf_graph]
  rfl

theorem answers_graphAdd_closed {g : Word} {d : LaunchDesc} {bad : Option Nat} (kind : q.kind = .graphAdd g d bad)
    (closed : openGraph s q.peer.pkg q.job g = none) : Answers s q id illegal :=
  dispatcher_serves (dispatcher_graphAdd waits kind) fun v => serveAdd_closed (s := { s with served := v }) closed
section
variable {g : Word} {d : LaunchDesc} {x : Graph} (kind : q.kind = .graphAdd g d none) (is : openGraph s q.peer.pkg q.job g = some x)
  (there : absentTiles s q.peer.pkg d = false) (room : liveLaunches s q.peer.pkg < 8192)
include kind is there room
theorem answers_graphAdd_full (full : 256 ≤ x.nodes.length) : Answers s q id (exhausted 3) :=
  dispatcher_serves (dispatcher_graphAdd waits kind) fun v => (serveAdd_open (s := { s with served := v }) is there room).trans (if_pos full)
theorem answers_graphAdd (free : x.nodes.length < 256) :
    Answers s q (fun u => (addLaunch u q.peer.pkg q.job x.serial x.nodes.length d).1)
      ⟨BitVec.ofNat 64 (q.peer.pkg * 2 ^ 56 + (pkgAt s q.peer.pkg).serial), true, 0, 0, 0⟩ := by
  refine dispatcher_serves (dispatcher_graphAdd waits kind) fun v =>
    (serveAdd_open (s := { s with served := v }) is there room).trans ((if_neg (Nat.not_le.2 free)).trans ?_)
  rw [handleOf_launch]
  rfl
end

section
variable {g a b : Word} (kind : q.kind = .graphEdge g a b)
include kind
theorem answers_graphEdge_closed (closed : openGraph s q.peer.pkg q.job g = none) : Answers s q id illegal :=
  dispatcher_serves (dispatcher_graphEdge waits kind) fun v => serveEdge_closed (s := { s with served := v }) closed
variable {x : Graph} (is : openGraph s q.peer.pkg q.job g = some x)
include is
theorem answers_graphEdge_bad (bad : b.toNat ≤ a.toNat ∨ x.nodes.length ≤ b.toNat) : Answers s q id illegal :=
  dispatcher_serves (dispatcher_graphEdge waits kind) fun v => (serveEdge_open (s := { s with served := v }) is).trans (if_pos bad)
variable (good : ¬ (b.toNat ≤ a.toNat ∨ x.nodes.length ≤ b.toNat))
include good
theorem answers_graphEdge_full (full : 1024 ≤ x.edges.length) : Answers s q id (exhausted 4) :=
  dispatcher_serves (dispatcher_graphEdge waits kind) fun v =>
    (serveEdge_open (s := { s with served := v }) is).trans ((if_neg good).trans (if_pos full))
theorem answers_graphEdge (free : x.edges.length < 1024) :
    Answers s q (fun u => modGraph u q.peer.pkg x.serial fun g => { g with edges := g.edges ++ [(a.toNat, b.toNat)] }) ⟨0, true, 0, 0, 0⟩ :=
  dispatcher_serves (dispatcher_graphEdge waits kind) fun v =>
    (serveEdge_open (s := { s with served := v }) is).trans ((if_neg good).trans (if_neg (Nat.not_le.2 free)))
end

theorem answers_graphSubmit_refused {g : Word} (kind : q.kind = .graphSubmit g)
    (may : openGraph s q.peer.pkg q.job g = none ∨ takesWork s q.peer.pkg q.job = false) : Answers s q id illegal :=
  dispatcher_serves (dispatcher_graphSubmit waits kind) fun v => serveSubmit_refused (s := { s with served := v }) may

section
variable {lvl : Level} {h : Word} {poll : Bool} (kind : q.kind = .doneWait lvl h poll)
include kind
theorem answers_doneWait_inside (inside : containsUnit s q.peer.pkg lvl (h.toNat % 2 ^ 32) q.launch = true) : Answers s q id illegal :=
  dispatcher_serves ((dispatcher_doneWait waits kind).trans (if_pos inside)) fun _ => rfl
variable (outside : containsUnit s q.peer.pkg lvl (h.toNat % 2 ^ 32) q.launch = false)
include outside
theorem dispatcher_doneWait_known {k : Known} (is : knownOf s q.peer.pkg q.job lvl (h.toNat % 2 ^ 32) = k) :
    evDispatcherRequest q s = doneWaitAnswer s q poll k := by
  rw [dispatcher_doneWait waits kind, outside, is]
  rfl
theorem answers_doneWait_over {n : Nat} (is : knownOf s q.peer.pkg q.job lvl (h.toNat % 2 ^ 32) = .over n) : Answers s q id (svcVal n) :=
  dispatcher_serves (dispatcher_doneWait_known waits kind outside is) fun _ => rfl
theorem answers_doneWait_bad (is : knownOf s q.peer.pkg q.job lvl (h.toNat % 2 ^ 32) = .bad) : Answers s q id illegal :=
  dispatcher_serves (dispatcher_doneWait_known waits kind outside is) fun _ => rfl
theorem answers_doneWait_poll (is : knownOf s q.peer.pkg q.job lvl (h.toNat % 2 ^ 32) = .live) (polls : poll = true) : Answers s q id (svcVal 2) :=
  dispatcher_serves ((dispatcher_doneWait_known waits kind outside is).trans (if_pos polls)) fun _ => rfl
theorem dispatcher_doneWait_waits (is : knownOf s q.peer.pkg q.job lvl (h.toNat % 2 ^ 32) = .live) (blocks : poll = false) :
    evDispatcherRequest q s = modPkg s q.peer.pkg fun p => { p with waits := p.waits ++ [⟨q⟩] } := by
  rw [dispatcher_doneWait_known waits kind outside is, blocks]
  rfl
end

theorem answers_phaseLeave_refused {j : Job} (kind : q.kind = .phaseLeave) (job : jobAt s q.job = some j)
    (may : q.root = false ∨ j.phaseOpen.contains q.who.slot.pkg = false) : Answers s q id illegal :=
  dispatcher_serves (dispatcher_phaseLeave_refused waits kind job may) fun _ => rfl
theorem answers_phaseEnter_refused {j : Job} {n : Word} (kind : q.kind = .phaseEnter n) (job : jobAt s q.job = some j)
    (may : q.root = false ∨ j.left.contains q.who.slot.pkg = false ∨ n.toNat ≠ j.phase + 1) : Answers s q id illegal :=
  dispatcher_serves (dispatcher_phaseEnter_refused waits kind job may) fun _ => rfl
end

end Sys2Proof.Machine
end

section
/-! Launches and phases complete, and are cancelled (R82, R88, R89). -/

namespace Sys2Proof.Machine

/-! ### What leaves the launches and keeps the outcomes -/

/-- The launches of every package are as before, and no outcome is lost. -/
structure OnlyNoted (s t : State) : Prop where
  launches : ∀ p, (pkgAt t p).launches = (pkgAt s p).launches
  outcomes : ∀ p, ∀ o ∈ (pkgAt s p).outcomes, o ∈ (pkgAt t p).outcomes

theorem OnlyNoted.refl (s : State) : OnlyNoted s s := ⟨fun _ => rfl, fun _ _ m => m⟩
theorem OnlyNoted.trans {s t u : State} (h : OnlyNoted s t) (k : OnlyNoted t u) : OnlyNoted s u :=
  ⟨fun p => (k.launches p).trans (h.launches p), fun p o m => k.outcomes p o (h.outcomes p o m)⟩
theorem OnlyNoted.foldl {α : Type} {f : State → α → State} (each : ∀ s a, OnlyNoted s (f s a)) (l : List α) (s : State) :
    OnlyNoted s (l.foldl f s) := by
  induction l generalizing s with
  | nil => exact .refl s
  | cons a l ih => exact (each s a).trans (ih _)
theorem OnlyNoted.ofPkgs {s t : State} (same : t.pkgs = s.pkgs) : OnlyNoted s t :=
  ⟨fun p => by rw [pkgAt_congr same], fun p o m => by rwa [pkgAt_congr same]⟩
theorem OnlyNoted.asked {s t : State} (h : OnlyAsked s t) : OnlyNoted s t := .ofPkgs h.pkgs
/-- A change of one package. -/
theorem OnlyNoted.modPkg (s : State) (p : Nat) (f : Pkg → Pkg) (launches : (f (pkgAt s p)).launches = (pkgAt s p).launches)
    (outcomes : ∀ o ∈ (pkgAt s p).outcomes, o ∈ (f (pkgAt s p)).outcomes) : OnlyNoted s (modPkg s p f) := by
  have at_ : ∀ q, pkgAt (Machine.modPkg s p f) q = if q = p then f (pkgAt s p) else pkgAt s q := fun q => by
    split
    next e => rw [e, pkgAt_modPkg_self]
    next ne => exact pkgAt_modPkg_ne _ _ _ _ ne
  refine ⟨fun q => ?_, fun q o m => ?_⟩ <;> rw [at_] <;> split
  · next e => rw [e, launches]
  · rfl
  · next e => exact outcomes o (e ▸ m)
  · exact m

/-- An answer leaves 64 cycles after the dispatcher is free, so that no package changes at once (R397). -/
theorem pkgs_answerWait (s : State) (q : SvcReq) (a : SvcReply) : (answerWait s q a).pkgs = s.pkgs := by
  have late : ¬ (serveSlot (waitOver s q.who) (peerKey q.peer 10)).1 + 64 ≤ (serveSlot (waitOver s q.who) (peerKey q.peer 10)).2.now :=
    fun h => absurd (Nat.le_max_left (waitOver s q.who).now (aget 0 (waitOver s q.who).served (peerKey q.peer 10))) (by
      have h' : max (waitOver s q.who).now (aget 0 (waitOver s q.who).served (peerKey q.peer 10)) + 64 ≤ (waitOver s q.who).now := h
      omega)
  unfold answerWait svcReply sendAt
  rw [if_neg late]
  rfl
theorem OnlyNoted.answerWaits (s : State) (pkg : Nat) (sel : SvcReq → Bool) (v : Nat) : OnlyNoted s (answerWaits s pkg sel v) :=
  (OnlyNoted.modPkg s pkg (fun p => { p with waits := p.waits.filter fun w => !sel w.q }) rfl fun _ m => m).trans
    (.foldl (fun _ _ => .ofPkgs (pkgs_answerWait ..)) _ _)
theorem OnlyNoted.noteOutcome (s : State) (pkg : Nat) (o : Outcome) : OnlyNoted s (noteOutcome s pkg o) :=
  .modPkg s pkg _ rfl fun _ m => List.mem_append_left _ m
theorem mem_noteOutcome (s : State) (pkg : Nat) (o : Outcome) : o ∈ (pkgAt (noteOutcome s pkg o) pkg).outcomes := by
  unfold noteOutcome
  rw [pkgAt_modPkg_self]
  exact List.mem_append_right _ List.mem_cons_self

section
variable (s : State) (pkg : Nat) (lvl : Level) (serial : Nat) (job : Word) (status : Nat)
/-- A job of which an object ends with status 1 has status 1 (R82). -/
def jobStatus (s : State) (job : Word) (status : Nat) : State := if status = 1 then modJob s job fun j => { j with status := max 1 j.status } else s
theorem pkgs_jobStatus : (jobStatus s job status).pkgs = s.pkgs := by
  unfold jobStatus
  split <;> rfl
theorem OnlyNoted.completeObj : OnlyNoted s (completeObj s pkg lvl serial job status) :=
  (OnlyNoted.ofPkgs (pkgs_jobStatus s job status)).trans ((OnlyNoted.noteOutcome ..).trans (.answerWaits ..))
theorem completeObj_notes : ⟨job, lvl, serial, status⟩ ∈ (pkgAt (completeObj s pkg lvl serial job status) pkg).outcomes :=
  (OnlyNoted.answerWaits ..).outcomes pkg _ (mem_noteOutcome (jobStatus s job status) pkg ⟨job, lvl, serial, status⟩)
end

/-! ### Launches end (R82, R88) -/

/-- A launch of a package is as given, and its outcome is noted. -/
structure Ended (pkg : Nat) (l : Launch) (o : Outcome) (s : State) : Prop where
  launch : launchOf s pkg l.serial = some l
  outcome : o ∈ (pkgAt s pkg).outcomes

theorem find_map_serial_ne (l : List Launch) (k m : Nat) (f : Launch → Launch) (keeps : ∀ x, (f x).serial = x.serial) (ne : k ≠ m) :
    (l.map fun x => if x.serial = k then f x else x).find? (fun x => x.serial = m) = l.find? fun x => x.serial = m := by
  induction l with
  | nil => rfl
  | cons x l ih =>
    rw [List.map_cons, List.find?_cons, List.find?_cons, ih]
    by_cases e : x.serial = k
    · simp [e, keeps, ne]
    · simp [e]
theorem launchOf_modLaunchOf_self (s : State) (pkg serial : Nat) (f : Launch → Launch) (keeps : ∀ x, (f x).serial = x.serial) :
    launchOf (modLaunchOf s pkg serial f) pkg serial = (launchOf s pkg serial).map f := by
  unfold launchOf modLaunchOf
  rw [pkgAt_modPkg_self]
  exact find_map_serial _ _ _ keeps
theorem launchOf_modLaunchOf_ne (s : State) (pkg serial m : Nat) (f : Launch → Launch) (keeps : ∀ x, (f x).serial = x.serial) (ne : serial ≠ m) :
    launchOf (modLaunchOf s pkg serial f) pkg m = launchOf s pkg m := by
  unfold launchOf modLaunchOf
  rw [pkgAt_modPkg_self]
  exact find_map_serial_ne _ _ _ _ keeps ne
theorem OnlyNoted.launchOf {s t : State} (h : OnlyNoted s t) (pkg serial : Nat) : launchOf t pkg serial = launchOf s pkg serial := by
  unfold Machine.launchOf
  rw [h.launches]
theorem Ended.noted {pkg : Nat} {l : Launch} {o : Outcome} {s t : State} (h : Ended pkg l o s) (k : OnlyNoted s t) : Ended pkg l o t :=
  ⟨(k.launchOf ..).trans h.launch, k.outcomes pkg o h.outcome⟩

/-- A launch that is done, of a status. -/
def doneLaunch (status : Nat) (x : Launch) : Launch := { x with done := true, status := status, parity := none, routes := [] }
/-- What ending a launch does after the launch itself is marked. -/
theorem endLaunch_noted (s : State) (pkg : Nat) (l : Launch) (status : Nat) :
    OnlyNoted (modLaunchOf s pkg l.serial (doneLaunch status)) (endLaunch s pkg l status) :=
  (OnlyNoted.modPkg _ pkg (fun p => { p with
    pool := p.pool.filter fun x => x.2.2.2 ≠ l.serial
    bq := p.bq.bind fun q => if q.launch = handleOf 0 pkg l.serial then none else some q }) rfl fun _ m => m).trans (.completeObj ..)
theorem endLaunch_ends {s : State} {pkg : Nat} {l x : Launch} (found : launchOf s pkg l.serial = some x) (status : Nat) :
    Ended pkg (doneLaunch status x) ⟨l.job, .launch, l.serial, status⟩ (endLaunch s pkg l status) := by
  have serial : (doneLaunch status x).serial = l.serial := (serial_launchOf found :)
  refine ⟨?_, completeObj_notes ..⟩
  rw [serial, (endLaunch_noted ..).launchOf, launchOf_modLaunchOf_self _ _ _ (doneLaunch status) fun _ => rfl, found]
  rfl

section
variable {pkg : Nat} {l : Launch} {o : Outcome}
theorem Ended.modLaunchOf_ne {s : State} (h : Ended pkg l o s) {k : Nat} (ne : k ≠ l.serial) {f : Launch → Launch}
    (keeps : ∀ x, (f x).serial = x.serial) : Ended pkg l o (modLaunchOf s pkg k f) := by
  refine ⟨(launchOf_modLaunchOf_ne _ _ _ _ _ keeps ne).trans h.launch, ?_⟩
  unfold modLaunchOf
  rw [pkgAt_modPkg_self]
  exact h.outcome
theorem Ended.endLaunch_ne {s : State} (h : Ended pkg l o s) {x : Launch} (ne : x.serial ≠ l.serial) (status : Nat) :
    Ended pkg l o (endLaunch s pkg x status) :=
  (h.modLaunchOf_ne (f := doneLaunch status) ne fun _ => rfl).noted (endLaunch_noted ..)
theorem OnlyAsked.askPlace (s : State) (pkg : Nat) : OnlyAsked s (askPlace s pkg) := .pushOnce ..
theorem OnlyAsked.askPhaseEnd (s : State) (job : Word) : OnlyAsked s (askPhaseEnd s job) := .pushOnce ..
omit pkg l o in
theorem nodeLaunch_found {s : State} {pkg : Nat} {g : Graph} {i : Nat} {x : Launch} (found : nodeLaunch s pkg g i = some x) :
    launchOf s pkg x.serial = some x := by
  obtain ⟨k, -, at_⟩ := Option.bind_eq_some_iff.1 found
  rw [serial_launchOf at_]
  exact at_
/-- Looking at a node of a graph leaves a launch that is done (R84). -/
theorem Ended.settleNode {s : State} (h : Ended pkg l o s) (done : l.done = true) (serial i : Nat) : Ended pkg l o (settleNode pkg serial s i) := by
  unfold Machine.settleNode
  split
  · exact h
  next g _ =>
    split
    · exact h
    next x found =>
      dsimp only
      split
      · exact h
      next live =>
        have ne : x.serial ≠ l.serial := fun same => by
          have is : x = l := Option.some.inj ((nodeLaunch_found found).symm.trans (same ▸ h.launch))
          exact live (.inl (is ▸ done))
        have cancelled : Ended pkg l o (modLaunchOf s pkg x.serial fun y => { y with cancelled := true }) := h.modLaunchOf_ne ne fun _ => rfl
        split
        · exact cancelled.endLaunch_ne ne 1
        · split
          · exact (h.noted (.modPkg _ _ _ rfl fun _ m => m)).noted (.asked (.askPlace ..))
          · exact h
theorem Ended.settleNodes {s : State} (h : Ended pkg l o s) (done : l.done = true) (serial : Nat) (is : List Nat) :
    Ended pkg l o (is.foldl (Machine.settleNode pkg serial) s) := by
  induction is generalizing s with
  | nil => exact h
  | cons i is ih => exact ih (h.settleNode done serial i)
theorem Ended.settleGraph {s : State} (h : Ended pkg l o s) (done : l.done = true) (serial : Nat) : Ended pkg l o (settleGraph s pkg serial) := by
  unfold Machine.settleGraph
  split
  · exact h
  next g _ =>
    have nodes := h.settleNodes done serial (List.range g.nodes.length)
    dsimp only
    split
    · exact ((nodes.noted (.modPkg _ _ _ rfl fun _ m => m)).noted (.completeObj ..)).noted (.asked (.askPhaseEnd ..))
    · exact nodes
end

/-- A launch completes: it is done with its status, and its outcome is noted (R82). -/
theorem evLaunchCompletion_idle {s : State} {pkg serial : Nat} {l : Launch} (found : launchOf s pkg serial = some l)
    (idle : ¬ (l.done = true ∨ l.placed = false ∨ l.live ≠ 0 ∨ ∃ o ∈ s.outs, o.launch = handleOf 0 pkg serial)) :
    Ended pkg (doneLaunch l.status l) ⟨l.job, .launch, l.serial, l.status⟩ (evLaunchCompletion pkg serial s) := by
  unfold evLaunchCompletion
  rw [found]
  dsimp only
  rw [if_neg (by simpa [not_or] using idle)]
  have ended := endLaunch_ends (l := l) ((serial_launchOf found).symm ▸ found) l.status
  exact ((ended.settleGraph rfl l.graph).noted (.asked (.askPlace ..))).noted (.asked (.askJob ..))
theorem evLaunchCompletion_busy {s : State} {pkg serial : Nat} {l : Launch} (found : launchOf s pkg serial = some l)
    (busy : l.done = true ∨ l.placed = false ∨ l.live ≠ 0 ∨ ∃ o ∈ s.outs, o.launch = handleOf 0 pkg serial) :
    evLaunchCompletion pkg serial s = s := by
  unfold evLaunchCompletion
  rw [found]
  exact if_pos (by simpa using busy)

/-! ### Cancelled launches and jobs (R88) -/

/-- A launch that a cancel has reached. -/
def cancelledLaunch (x : Launch) : Launch := { x with cancelled := true, status := 1 }
theorem cancelApply_launch {s : State} {pkg serial : Nat} {l : Launch} (found : launchOf s pkg serial = some l) :
    evCancelApply pkg ⟨l.job, .launch, serial⟩ s = cancelLaunch s pkg serial := by
  unfold evCancelApply
  exact if_pos (by simp [found])
theorem cancelLaunch_over {s : State} {pkg serial : Nat} {l : Launch} (found : launchOf s pkg serial = some l) (stopped : launchOver l = true) :
    cancelLaunch s pkg serial = s := by
  unfold cancelLaunch
  rw [found]
  exact if_pos stopped
/-- A launch that is not placed is complete with status 1 once it is cancelled (R88). -/
theorem cancelLaunch_unplaced {s : State} {pkg serial : Nat} {l : Launch} (found : launchOf s pkg serial = some l) (live : l.done = false)
    (unplaced : l.placed = false) :
    Ended pkg (doneLaunch 1 (cancelledLaunch l)) ⟨l.job, .launch, l.serial, 1⟩ (cancelLaunch s pkg serial) := by
  have marked : launchOf (modLaunchOf s pkg serial cancelledLaunch) pkg l.serial = some (cancelledLaunch l) := by
    rw [serial_launchOf found, launchOf_modLaunchOf_self _ _ _ cancelledLaunch fun _ => rfl, found]
    rfl
  have ended := (endLaunch_ends (l := l) marked 1).settleGraph rfl l.graph
  have all := (ended.noted (.asked (.askSpawns _ pkg l))).noted (.asked (.askPlace _ pkg))
  unfold cancelLaunch
  rw [found]
  dsimp only
  rw [if_neg (by simp [launchOver, live, unplaced]), if_pos (by simp [unplaced])]
  exact all

theorem jobAt_modJob (s : State) (job : Word) (f : Job → Job) (keeps : ∀ j, (f j).handle = j.handle) :
    jobAt (modJob s job f) job = (jobAt s job).map f := by
  unfold jobAt modJob
  dsimp only
  induction s.jobs with
  | nil => rfl
  | cons j l ih =>
    rw [List.map_cons, List.find?_cons, List.find?_cons, ih]
    by_cases e : j.handle = job
    · simp [e, keeps]
    · simp [e]

/-- A job whose end a cancel begins: the cancel does not make the status 1 where the job has finished (R88, R361). -/
def endingJob (finished : Bool) (j : Job) : Job := { j with ending := true, status := if finished then j.status else max 1 j.status }
/-- A cancelled job begins to end: it is so marked, and its end is looked at in the same cycle (R88). -/
theorem beginEnd_running {s : State} {j : Job} (found : jobAt s j.handle = some j) (running : j.ending = false) (live : j.done = false) :
    jobAt (beginEnd s j.handle) j.handle = some (endingJob (j.started && j.pkgs.all j.rootExited.contains) j) ∧
    ∃ e ∈ (beginEnd s j.handle).agenda, e.at_ = s.now ∧ e.ev = .jobEnd j.handle := by
  have e : beginEnd s j.handle = askJob (modJob s j.handle (endingJob (j.started && j.pkgs.all j.rootExited.contains))) j.handle := by
    unfold beginEnd
    rw [found]
    exact if_neg (by simp [running, live])
  rw [e]
  refine ⟨?_, mem_pushOnce ..⟩
  have marked := jobAt_modJob s j.handle (endingJob (j.started && j.pkgs.all j.rootExited.contains)) fun _ => rfl
  rw [(OnlyAsked.askJob ..).jobAt, marked, found]
  rfl

/-! ### Phases (R89, R109) -/

theorem aget_map_keeps {α β : Type} (d : α) (g : α → α) (part : α → β) (keeps : ∀ x, part (g x) = part x) (l : List (Nat × α)) (i : Nat) :
    part (aget d (l.map fun (k, x) => (k, g x)) i) = part (aget d l i) := by
  induction l with
  | nil => rfl
  | cons e l ih =>
    obtain ⟨k, x⟩ := e
    simp only [List.map_cons, aget]
    split
    · exact keeps x
    · exact ih
/-- A package whose ports hold other flits. -/
def withFlits (g : Flit → Flit) (p : Pkg) : Pkg :=
  { p with ports := p.ports.map fun (i, x) => (i, { x with held := x.held.map fun h => (h.1, g h.2) }) }
theorem pkgs_mapFlits (s : State) (g : Flit → Flit) : (mapFlits s g).pkgs = s.pkgs.map fun (k, p) => (k, withFlits g p) := rfl
theorem OnlyNoted.mapFlits (s : State) (g : Flit → Flit) : OnlyNoted s (mapFlits s g) := by
  refine ⟨fun p => ?_, fun p o m => ?_⟩ <;> unfold pkgAt at * <;> rw [pkgs_mapFlits]
  · exact aget_map_keeps {} (withFlits g) Pkg.launches (fun _ => rfl) s.pkgs p
  · rwa [aget_map_keeps {} (withFlits g) Pkg.outcomes (fun _ => rfl) s.pkgs p]
theorem OnlyNoted.cancelEvents (s : State) (is : Ev → Bool) : OnlyNoted s (cancelEvents s is) :=
  (OnlyNoted.mapFlits s fun f => if (f.ev.map is).getD false then { f with ev := none } else f).trans (.ofPkgs rfl)
theorem OnlyNoted.putArb (s : State) (p : Nat) (a : Arbiter) : OnlyNoted s (putArb s p a) := .modPkg _ _ _ rfl fun _ m => m
theorem OnlyNoted.startBeats (s : State) (job : Word) : OnlyNoted s (startBeats s job) :=
  (OnlyNoted.cancelEvents s fun e => e = .heartbeatSend job).trans (.ofPkgs rfl)
theorem OnlyNoted.startExchange (s : State) (j : Job) : OnlyNoted s (startExchange s j) := by
  unfold Machine.startExchange
  dsimp only
  have fresh : ∀ (u : State) (p : Nat), OnlyNoted u (Machine.modPkg u p fun k => { k with
      exch := { job := j.handle, subs := ((k.exch.find? fun x => x.job = j.handle).map (·.subs)).getD [], base := flitCounts u p } ::
        k.exch.filter fun x => x.job ≠ j.handle
      arbs := k.arbs.filter fun a => a.job ≠ j.handle }) := fun u p => .modPkg _ _ _ rfl fun _ m => m
  have cleared := (OnlyNoted.cancelEvents s (exchEvent j.handle)).trans (.foldl fresh j.pkgs _)
  split
  · exact cleared
  · split
    · exact cleared.trans (.putArb ..)
    · exact ((cleared.trans (.putArb ..)).trans (.putArb ..)).trans (.startBeats ..)
theorem OnlyNoted.openPhase (s : State) (job : Word) : OnlyNoted s (openPhase s job) := by
  unfold Machine.openPhase
  split
  · exact .refl s
  next j _ =>
    dsimp only
    split
    · exact .refl s
    · refine OnlyNoted.trans ?_ (.foldl (fun _ _ => .ofPkgs (pkgs_answerWait ..)) _ _)
      refine OnlyNoted.trans (.ofPkgs (modJob_pkgs s job fun j => { j with
        phase := j.phase + 1, left := [], entered := [], phaseOpen := j.pkgs, phaseStatus := 0 })) ?_
      exact .foldl (fun u p => .modPkg _ _ _ rfl fun _ m => m) _ _

/-- A phase ends on every package of its job (R89). -/
def endPhase (job : Word) (phase status : Nat) (leaves : SvcReq → Bool) (s : State) (p : Nat) : State :=
  answerWaits (completeObj s p .phase phase job status) p leaves status
theorem OnlyNoted.endPhase (job : Word) (phase status : Nat) (leaves : SvcReq → Bool) (s : State) (p : Nat) :
    OnlyNoted s (endPhase job phase status leaves s p) := (OnlyNoted.completeObj ..).trans (.answerWaits ..)
theorem endPhases_note (job : Word) (phase status : Nat) (leaves : SvcReq → Bool) (l : List Nat) (s : State) :
    ∀ p ∈ l, ⟨job, .phase, phase, status⟩ ∈ (pkgAt (l.foldl (endPhase job phase status leaves) s) p).outcomes := by
  induction l generalizing s with
  | nil => exact fun p m => absurd m List.not_mem_nil
  | cons q l ih =>
    intro p m
    rcases List.mem_cons.1 m with rfl | m
    · exact (OnlyNoted.foldl (OnlyNoted.endPhase job phase status leaves) l _).outcomes p _
        ((OnlyNoted.answerWaits ..).outcomes p _ (completeObj_notes ..))
    · exact ih _ p m

/-- Whether a phase ends with status 1: it was cancelled, or a graph of it has status 1 (R89). -/
def phaseBad (s : State) (j : Job) (job : Word) : Prop :=
  j.phaseStatus = 1 ∨ ∃ p ∈ j.pkgs, ∃ g ∈ (pkgAt s p).graphs, g.job = job ∧ g.submitted = true ∧ g.phase = j.phase ∧ g.status = 1
theorem evPhaseCompletion_left {s : State} {job : Word} {j : Job} (found : jobAt s job = some j)
    (left : phaseOver s j = false ∨ phaseNoted s j = true ∨ j.done = true) : evPhaseCompletion job s = s := by
  unfold evPhaseCompletion
  rw [found]
  exact if_pos (by simpa using left)
theorem evPhaseCompletion_notes {s : State} {job : Word} {j : Job} (found : jobAt s job = some j) (all : phaseOver s j = true)
    (fresh : phaseNoted s j = false) (live : j.done = false) : ∀ p ∈ j.pkgs,
      (phaseBad s j job → ⟨job, .phase, j.phase + 1, 1⟩ ∈ (pkgAt (evPhaseCompletion job s) p).outcomes) ∧
      (¬ phaseBad s j job → ⟨job, .phase, j.phase + 1, 0⟩ ∈ (pkgAt (evPhaseCompletion job s) p).outcomes) := by
  unfold evPhaseCompletion
  rw [found]
  dsimp only
  rw [if_neg (by simp [all, fresh, live])]
  have ends := fun st : Nat => endPhases_note job (j.phase + 1) st (fun q => q.job = job && q.kind = .phaseLeave) j.pkgs s
  have kept := fun u : State => (OnlyNoted.startExchange u j).trans (.openPhase _ job)
  refine fun p m => ⟨fun bad => ?_, fun good => ?_⟩
  · rw [if_pos (by simpa [phaseBad, and_assoc] using bad)]
    exact (kept _).outcomes p _ (ends 1 p m)
  · rw [if_neg (by simpa [phaseBad, and_assoc] using good)]
    exact (kept _).outcomes p _ (ends 0 p m)

/-- Settles O25: every answer is given in its turn from a state of the same machine; what completes is noted, and no later step of the
same event loses the launch or the outcome. -/
theorem dispatcherAnswersAndCompletes : Obligations.DispatcherAnswersAndCompletes := by
  refine ⟨fun s q => ⟨fun gone => congrArg Host.Outcome.next (dispatcher_gone gone), fun waits => ?_⟩,
    fun s pkg serial l found => ⟨fun busy => ?_, fun idle => ?_⟩, fun s job j found => ⟨fun left => ?_, fun all fresh live => ?_⟩,
    fun s pkg serial l found => ⟨fun done => ?_, fun live unplaced => ?_⟩,
    fun s pkg serial j found running live => ?_⟩
  · exact ⟨fun _ _ => answers_refused waits, fun _ _ => answers_launch_bad waits,
      fun _ kind there => ⟨answers_launch_closed waits kind there, answers_launch_full waits kind there⟩,
      fun kind => ⟨answers_graphOpen_full waits kind, answers_graphOpen waits kind⟩,
      fun _ _ _ => answers_graphAdd_closed waits,
      fun _ _ _ kind is there room => ⟨answers_graphAdd_full waits kind is there room, answers_graphAdd waits kind is there room⟩,
      fun _ _ _ kind => ⟨answers_graphEdge_closed waits kind, fun _ is => ⟨answers_graphEdge_bad waits kind is,
        fun lt inside => answers_graphEdge_full waits kind is (by omega), fun lt inside => answers_graphEdge waits kind is (by omega)⟩⟩,
      fun _ => answers_graphSubmit_refused waits,
      fun _ _ _ kind => ⟨answers_doneWait_inside waits kind, fun outside => ⟨fun _ => answers_doneWait_over waits kind outside,
        answers_doneWait_bad waits kind outside, answers_doneWait_poll waits kind outside,
        fun is blocks => congrArg Host.Outcome.next (dispatcher_doneWait_waits waits kind outside is blocks)⟩⟩,
      fun _ job => ⟨fun kind => answers_phaseLeave_refused waits kind job, fun _ kind => answers_phaseEnter_refused waits kind job⟩⟩
  · exact congrArg Host.Outcome.next (evLaunchCompletion_busy found busy)
  · have ended := evLaunchCompletion_idle found idle
    obtain rfl := serial_launchOf found
    exact ⟨_, rfl, ended.launch, ended.outcome⟩
  · exact congrArg Host.Outcome.next (evPhaseCompletion_left found left)
  · exact ⟨_, rfl, evPhaseCompletion_notes found all fresh live⟩
  · exact congrArg Host.Outcome.next ((cancelApply_launch found).trans (cancelLaunch_over found (by simp [launchOver, done])))
  · have ended := cancelLaunch_unplaced found live unplaced
    have e := cancelApply_launch found
    obtain rfl := serial_launchOf found
    exact ⟨_, congrArg Host.Outcome.next e, ended.launch, ended.outcome⟩
  · obtain ⟨job, due⟩ := beginEnd_running found running live
    exact ⟨_, rfl, job, due⟩

end Sys2Proof.Machine
end

section
/-! The scalar arithmetic and logic forms (R126, R127): each operation as Table 5 of chapter 05 writes it, and each form. -/

namespace Sys2Proof.Machine

/-! ### The operations -/

section
variable (x y : Word)

theorem mins_eq : mins x y = BitVec.ofInt 64 (min x.toInt y.toInt) := by
  rw [mins, min_def]
  split <;> exact (BitVec.ofInt_toInt ..).symm
theorem maxs_eq : maxs x y = BitVec.ofInt 64 (max x.toInt y.toInt) := by
  rw [maxs, max_def]
  split <;> exact (BitVec.ofInt_toInt ..).symm
theorem minu_eq : minu x y = BitVec.ofNat 64 (min x.toNat y.toNat) := by
  rw [minu, min_def]
  split <;> simp only [BitVec.ofNat_toNat, BitVec.setWidth_eq]
theorem maxu_eq : maxu x y = BitVec.ofNat 64 (max x.toNat y.toNat) := by
  rw [maxu, max_def]
  split <;> simp only [BitVec.ofNat_toNat, BitVec.setWidth_eq]
theorem addSat_eq : addSat x y = BitVec.ofInt 64 (max (-(2 ^ 63)) (min (2 ^ 63 - 1) (x.toInt + y.toInt))) := by
  rw [addSat, clampInt_eq]
end
/-- A rotation by less than the width; by 0 it is no rotation. -/
theorem rotateLeft_eq (x : Word) {n : Nat} (lt : n < 64) : x.rotateLeft n = x <<< n ||| x >>> ((64 - n) % 64) := by
  rw [BitVec.rotateLeft_def, Nat.mod_eq_of_lt lt]
  rcases n.eq_zero_or_pos with rfl | pos
  · rw [BitVec.ushiftRight_eq_zero (n := 64 - 0) (Nat.le_refl 64), Nat.sub_zero, Nat.mod_self, BitVec.shiftLeft_zero,
      BitVec.ushiftRight_zero, BitVec.or_self, BitVec.or_zero]
  · rw [Nat.mod_eq_of_lt (a := 64 - n) (by omega)]
theorem cnt_lt (y : Word) : cnt y < 64 := Nat.mod_lt _ (by decide)
/-- The shift count of an immediate form is the immediate (R44). -/
theorem cnt_signExtend {imm : BitVec 48} (le : imm.toNat ≤ 63) : cnt (imm.signExtend 64) = imm.toNat := by
  have positive : imm.msb = false := BitVec.msb_eq_false_iff_two_mul_lt.2 (by omega)
  rw [cnt, BitVec.signExtend_eq_setWidth_of_msb_false positive, BitVec.toNat_setWidth]
  omega

/-! ### The forms -/

section
variable {s : State} {h : Hdr} {d a b : SIx} {imm : BitVec 48}

theorem alu_results_of_eq (i : Instr) (l : Nat) (op : Word → Word → Word) {v : Word} (hr : Ready s h [.s a, .s b] [.s d] true)
    (e : op (rs (me s) a) (rs (me s) b) = v) : Results s h [.s a, .s b] l [(.s d, sval v)] (alu i h d a b l op s) :=
  e ▸ alu_results i s h d a b l op hr
theorem aluDiv_results_of_eq (i : Instr) (op : Word → Word → Word) {v : Word} (hr : Ready s h [.s a, .s b] [.s d] true)
    (divides : rs (me s) b ≠ 0) (e : op (rs (me s) a) (rs (me s) b) = v) :
    Results s h [.s a, .s b] 24 [(.s d, sval v)] (aluDiv i h d a b op s) :=
  e ▸ aluDiv_results i s h d a b op hr divides
theorem aluImm_results_of_eq (i : Instr) (l : Nat) (op : Word → Word → Word) {v : Word} (hr : Ready s h [.s a] [.s d] true)
    (e : op (rs (me s) a) (imm.signExtend 64) = v) : Results s h [.s a] l [(.s d, sval v)] (aluImm i h d a imm l op s) :=
  e ▸ aluImm_results i s h d a imm l op hr
end

/-- Settles O9, form by form: each shared operation gives what the table writes. -/
theorem scalarArithmeticResults : Obligations.ScalarArithmeticResults := by
  refine ⟨?register, ?immediate, ?zero⟩
  case register =>
    intro s h d a b hr x y n r
    have form (l : Nat) (op : Word → Word → Word) {v : Word} (i : Instr) (e : op x y = v) :
        Results s h [.s a, .s b] l [(.s d, sval v)] (alu i h d a b l op s) := alu_results_of_eq i l op hr e
    refine ⟨form 3 (· + ·) _ rfl, form 3 (· - ·) _ rfl, form 5 (· * ·) _ rfl, form 5 mulhs _ rfl, form 5 mulhu _ rfl, fun divides => ?_,
      form 3 (· &&& ·) _ rfl, form 3 (· ||| ·) _ rfl, form 3 (· ^^^ ·) _ rfl, form 3 (fun x y => x &&& ~~~y) _ rfl,
      form 3 (fun x y => x <<< cnt y) _ rfl, form 3 (fun x y => x >>> cnt y) _ rfl, form 3 (fun x y => x.sshiftRight (cnt y)) _ rfl,
      form 3 (fun x y => x.rotateLeft (cnt y)) _ (rotateLeft_eq x (cnt_lt y)), form 3 mins _ (mins_eq x y), form 3 maxs _ (maxs_eq x y),
      form 3 minu _ (minu_eq x y), form 3 maxu _ (maxu_eq x y), form 3 addSat _ (addSat_eq x y)⟩
    exact ⟨aluDiv_results_of_eq _ divs hr divides rfl, aluDiv_results_of_eq _ (· / ·) hr divides BitVec.udiv_def,
      aluDiv_results_of_eq _ rems hr divides (rems_eq x y), aluDiv_results_of_eq _ (· % ·) hr divides BitVec.umod_def⟩
  case immediate =>
    intro s h d a imm hr x y r
    have form (l : Nat) (op : Word → Word → Word) {v : Word} (i : Instr) (e : op x y = v) :
        Results s h [.s a] l [(.s d, sval v)] (aluImm i h d a imm l op s) := aluImm_results_of_eq i l op hr e
    refine ⟨form 3 (· + ·) _ rfl, form 3 (· - ·) _ rfl, form 5 (· * ·) _ rfl, form 5 mulhs _ rfl, form 5 mulhu _ rfl, fun _ => ?_,
      form 3 (· &&& ·) _ rfl, form 3 (· ||| ·) _ rfl, form 3 (· ^^^ ·) _ rfl, form 3 (fun x y => x &&& ~~~y) _ rfl, fun le => ?_,
      form 3 mins _ (mins_eq x y), form 3 maxs _ (maxs_eq x y), form 3 minu _ (minu_eq x y), form 3 maxu _ (maxu_eq x y),
      form 3 addSat _ (addSat_eq x y)⟩
    · exact ⟨form 24 divs _ rfl, form 24 (· / ·) _ BitVec.udiv_def, form 24 rems _ (rems_eq x y), form 24 (· % ·) _ BitVec.umod_def⟩
    · have count : cnt y = imm.toNat := cnt_signExtend le
      rw [← count]
      exact ⟨form 3 (fun x y => x <<< cnt y) _ rfl, form 3 (fun x y => x >>> cnt y) _ rfl, form 3 (fun x y => x.sshiftRight (cnt y)) _ rfl,
        form 3 (fun x y => x.rotateLeft (cnt y)) _ (rotateLeft_eq x (cnt_lt y))⟩
  case zero =>
    intro s h d a b hr zero i mem
    simp only [List.mem_cons, List.not_mem_nil, or_false] at mem
    rcases mem with rfl | rfl | rfl | rfl <;> exact aluDiv_zero _ s h d a b _ hr zero

end Sys2Proof.Machine
end

section
/-! Bit fields, compare, select, move, predicates and presence (R128 to R132): each operation bit by bit, and each form. -/

namespace Sys2Proof.Machine

/-! ### Counts of bits (R128) -/

section
variable (x : Word)

theorem clzFrom_le (n : Nat) : clzFrom x n ≤ n := by
  induction n with
  | zero => exact Nat.le_refl 0
  | succ n ih => rw [clzFrom]; split <;> omega
theorem getLsbD_above_clzFrom {n j : Nat} (below : j < n) (above : n - clzFrom x n ≤ j) : x.getLsbD j = false := by
  induction n with
  | zero => omega
  | succ n ih =>
    rw [clzFrom] at above
    split at above
    next => omega
    next top =>
      rcases Nat.lt_succ_iff_lt_or_eq.1 below with lower | rfl
      · exact ih lower (by omega)
      · simpa using top
theorem getLsbD_at_clzFrom {n : Nat} (some : clzFrom x n < n) : x.getLsbD (n - 1 - clzFrom x n) = true := by
  induction n with
  | zero => omega
  | succ n ih =>
    rw [clzFrom] at some ⊢
    split at some
    next top => rw [if_pos top]; exact top
    next top =>
      rw [if_neg top, show n + 1 - 1 - (1 + clzFrom x n) = n - 1 - clzFrom x n by omega]
      exact ih (by omega)

theorem ctzFrom_le (n : Nat) : ctzFrom x n ≤ n := by
  induction n with
  | zero => exact Nat.le_refl 0
  | succ n ih => rw [ctzFrom]; split <;> omega
theorem getLsbD_below_ctzFrom {n j : Nat} (le : n ≤ 64) (from_ : 64 - n ≤ j) (below : j < 64 - n + ctzFrom x n) : x.getLsbD j = false := by
  induction n with
  | zero => simp only [ctzFrom] at below; omega
  | succ n ih =>
    rw [ctzFrom] at below
    split at below
    next => omega
    next low =>
      rcases Nat.eq_or_lt_of_le from_ with first | later
      · rw [← first, show 64 - (n + 1) = 63 - n by omega]; simpa using low
      · exact ih (by omega) (by omega) (by omega)
theorem getLsbD_at_ctzFrom {n : Nat} (le : n ≤ 64) (some : ctzFrom x n < n) : x.getLsbD (64 - n + ctzFrom x n) = true := by
  induction n with
  | zero => omega
  | succ n ih =>
    rw [ctzFrom] at some ⊢
    split at some
    next low => rw [if_pos low, show 64 - (n + 1) + 0 = 63 - n by omega]; exact low
    next low =>
      rw [if_neg low, show 64 - (n + 1) + (1 + ctzFrom x n) = 64 - n + ctzFrom x n by omega]
      exact ih (by omega) (by omega)
theorem popBelow_eq (n : Nat) : popBelow x.toNat n = ((List.range n).filter fun j => x.getLsbD j).length := by
  induction n with
  | zero => rfl
  | succ n ih =>
    have bit : x.toNat / 2 ^ n % 2 = (x.getLsbD n).toNat := (Nat.toNat_testBit ..).symm
    rw [popBelow, ih, bit, List.range_succ, List.filter_append, List.length_append, Nat.add_comm]
    cases is : x.getLsbD n <;> simp [is]
end

/-! ### Bits and bytes in reverse order (R128) -/

/-- A number is built from its bits, the highest first. -/
theorem testBit_foldl_bits (b : Nat → Bool) (n j : Nat) :
    ((List.range n).foldl (fun v i => 2 * v + (b i).toNat) 0).testBit j = (decide (j < n) && b (n - 1 - j)) := by
  induction n generalizing j with
  | zero => simp
  | succ n ih =>
    rw [List.range_succ, List.foldl_append, List.foldl_cons, List.foldl_nil]
    have lt : (b n).toNat < 2 ^ 1 := Bool.toNat_lt ..
    cases j with
    | zero => rw [Nat.testBit_two_pow_mul_add (i := 1) _ lt, if_pos (by decide), Nat.testBit_bool_toNat]; simp
    | succ j =>
      rw [Nat.testBit_two_pow_mul_add (i := 1) _ lt, if_neg (by omega), Nat.add_sub_cancel, ih, show n + 1 - 1 - (j + 1) = n - 1 - j by omega]
      simp
theorem getLsbD_bitRev (x : Word) {j : Nat} (lt : j < 64) : (bitRev x).getLsbD j = x.getLsbD (63 - j) := by
  rw [bitRev, BitVec.getLsbD_ofNat, testBit_foldl_bits, decide_eq_true lt, Bool.true_and, Bool.true_and]
/-- A bit of a number that bytes stand for (R3). -/
theorem testBit_natOfBytes (l : List Byte) (i : Nat) {k : Nat} (lt : k < 8) : (natOfBytes l).testBit (8 * i + k) = (l.getD i 0).getLsbD k := by
  induction l generalizing i with
  | nil => simp [natOfBytes]
  | cons b l ih =>
    rw [natOfBytes, Nat.add_comm b.toNat, Nat.testBit_two_pow_mul_add (i := 8) _ b.isLt]
    cases i with
    | zero => rw [if_pos (by omega), Nat.mul_zero, Nat.zero_add]; rfl
    | succ i => rw [if_neg (by omega), show 8 * (i + 1) + k - 8 = 8 * i + k by omega, ih]; rfl
theorem natOfBytes_bytesOfNat (n x : Nat) (lt : x < 2 ^ (8 * n)) : natOfBytes (bytesOfNat n x) = x := by
  induction n generalizing x with
  | zero => simp only [bytesOfNat, natOfBytes]; omega
  | succ n ih =>
    rw [bytesOfNat, natOfBytes, ih, BitVec.toNat_ofNat]
    · omega
    · rw [Nat.mul_succ, Nat.pow_add] at lt
      omega
theorem getLsbD_byteRev (x : Word) {j k : Nat} (byte : j < 8) (bit : k < 8) :
    (byteRev x).getLsbD (8 * j + k) = x.getLsbD (8 * (7 - j) + k) := by
  have len : (bytesOfNat 8 x.toNat).length = 8 := bytesOfNat_length ..
  have reversed : (bytesOfNat 8 x.toNat).reverse.getD j 0 = (bytesOfNat 8 x.toNat).getD (7 - j) 0 := by
    rw [List.getD_eq_getElem?_getD, List.getElem?_reverse (by omega), len, List.getD_eq_getElem?_getD]
  rw [byteRev, BitVec.getLsbD_ofNat, decide_eq_true (by omega), Bool.true_and, testBit_natOfBytes _ _ bit, reversed,
    ← testBit_natOfBytes _ _ bit, natOfBytes_bytesOfNat 8 x.toNat x.isLt]
  rfl

/-! ### Fields (R128) -/

/-- The signed value of a bit pattern. -/
theorem toSigned_toNat {w : Nat} (y : BitVec w) (pos : 0 < w) : toSigned w y.toNat = y.toInt := by
  rw [toSigned, BitVec.toInt_eq_toNat_cond]
  have double : 2 * 2 ^ (w - 1) = 2 ^ w := mul_pow_sub_one pos.ne' 2
  push_cast
  split <;> split <;> omega
theorem toNat_field (x : Word) (pos len : Nat) : x.toNat / 2 ^ pos % 2 ^ len = ((x >>> pos).setWidth len).toNat := by
  rw [BitVec.toNat_setWidth, BitVec.toNat_ushiftRight, Nat.shiftRight_eq_div_pow]
theorem fieldU_eq (x : Word) (pos len : Nat) : fieldU x pos len = ((x >>> pos).setWidth len).setWidth 64 := by
  rw [fieldU, toNat_field, BitVec.ofNat_toNat]
theorem fieldS_eq (x : Word) (pos : Nat) {len : Nat} (some : 0 < len) :
    fieldS x pos len = ((x >>> pos).setWidth len).signExtend 64 := by
  rw [fieldS, toNat_field, toSigned_toNat _ some]
  rfl
/-- The bits of a field, as INS masks them. -/
theorem getLsbD_fieldMask (pos len : Nat) {j : Nat} (lt : j < 64) :
    (BitVec.ofNat 64 ((2 ^ len - 1) * 2 ^ pos)).getLsbD j = decide (pos ≤ j ∧ j < pos + len) := by
  rw [BitVec.getLsbD_ofNat, decide_eq_true lt, Bool.true_and, Nat.mul_comm, Nat.testBit_two_pow_mul, Nat.testBit_two_pow_sub_one,
    ← Bool.decide_and]
  exact decide_eq_decide.2 (by omega)
theorem getLsbD_fieldIns (old x : Word) (pos len : Nat) {j : Nat} (lt : j < 64) :
    (fieldIns old x pos len).getLsbD j = if pos ≤ j ∧ j < pos + len then x.getLsbD (j - pos) else old.getLsbD j := by
  rw [fieldIns, BitVec.getLsbD_or, BitVec.getLsbD_and, BitVec.getLsbD_and, BitVec.getLsbD_not, getLsbD_fieldMask _ _ lt,
    BitVec.getLsbD_shiftLeft, decide_eq_true lt]
  split
  next inside => simp [inside, Nat.not_lt.2 inside.1]
  next outside => simp [outside]
/-- A word whose high bits are replaced (R130). -/
theorem append_setWidth (imm : BitVec 16) (x : Word) :
    BitVec.ofNat 64 (imm.toNat * 2 ^ 48 + x.toNat % 2 ^ 48) = imm ++ x.setWidth 48 := by
  apply BitVec.eq_of_toNat_eq
  have := imm.isLt
  rw [BitVec.toNat_append, BitVec.toNat_setWidth, ← Nat.shiftLeft_add_eq_or_of_lt (Nat.mod_lt _ (Nat.two_pow_pos 48)), Nat.shiftLeft_eq,
    BitVec.toNat_ofNat]
  omega

/-! ### The forms -/

section
variable {s : State} {h : Hdr}

theorem alu1_results_of_eq {d a : SIx} (i : Instr) (op : Word → Word) {v : Word} (hr : Ready s h [.s a] [.s d] true)
    (e : op (rs (me s) a) = v) : Results s h [.s a] 3 [(.s d, sval v)] (alu1 i h d a op s) :=
  e ▸ alu1_results i s h d a op hr

section
variable {d a : SIx} (hr : Ready s h [.s a] [.s d] true)
include hr

theorem exec_clz : ∃ n : Nat, Results s h [.s a] 3 [(.s d, sval (BitVec.ofNat 64 n))] (exec (.clz h d a) s) ∧ n ≤ 64 ∧
    (∀ j < 64, 64 - n ≤ j → (rs (me s) a).getLsbD j = false) ∧ (n < 64 → (rs (me s) a).getLsbD (63 - n) = true) :=
  ⟨clzFrom (rs (me s) a) 64, alu1_results_of_eq _ (fun x => BitVec.ofNat 64 (clzFrom x 64)) hr rfl, clzFrom_le ..,
    fun _ below above => getLsbD_above_clzFrom _ below above, getLsbD_at_clzFrom _⟩
theorem exec_ctz : ∃ n : Nat, Results s h [.s a] 3 [(.s d, sval (BitVec.ofNat 64 n))] (exec (.ctz h d a) s) ∧ n ≤ 64 ∧
    (∀ j < n, (rs (me s) a).getLsbD j = false) ∧ (n < 64 → (rs (me s) a).getLsbD n = true) := by
  refine ⟨ctzFrom (rs (me s) a) 64, alu1_results_of_eq _ (fun x => BitVec.ofNat 64 (ctzFrom x 64)) hr rfl, ctzFrom_le ..,
    fun j below => ?_, fun some => ?_⟩
  · exact getLsbD_below_ctzFrom _ (Nat.le_refl 64) (Nat.zero_le j) (by omega)
  · rw [← getLsbD_at_ctzFrom _ (Nat.le_refl 64) some, Nat.sub_self, Nat.zero_add]
end
end

/-- A form that sets the presence bit of its destination (R132). -/
theorem exec_setPres {s : State} {h : Hdr} {g : Reg} (hr : Ready s h [] [g] (notV g)) (i : Instr) (p : Pres)
    (e : exec i s = runForm { i := i, h := h, dsts := [g], rgn := notV g } (fun s r _ => .done (modCtx s r fun c => setPres c g p)) s) :
    UnitOnly s h (setPres (me s) g p) (exec i s) := by
  have rest := setPres_rest (me s) g p
  rw [e]
  exact (runForm_done _ _ s _ hr rfl).onlyCtx (f := fun c => setPres c g p) hr.bound
    ⟨(congrArg Ctx.pc rest :), (congrArg Ctx.issued rest :), (congrArg Ctx.packet rest :), (congrArg Ctx.readyFrom rest :)⟩

/-- Settles O10, form by form. -/
theorem bitFieldMoveAndPredicateResults : Obligations.BitFieldMoveAndPredicateResults := by
  refine ⟨?fields, ?moves, ?predicates⟩
  case fields =>
    intro s h d a pos lenm1 x r len
    refine ⟨fun hr => ⟨exec_clz hr, exec_ctz hr, ?_, ?_, fun _ => ⟨?_, ?_⟩, ?_⟩, fun hr _ => ?_⟩
    · exact alu1_results_of_eq _ (fun x => BitVec.ofNat 64 (popBelow x.toNat 64)) hr (congrArg (BitVec.ofNat 64) (popBelow_eq x 64))
    · exact ⟨bitRev x, alu1_results_of_eq _ bitRev hr rfl, fun j => getLsbD_bitRev x⟩
    · exact alu1_results_of_eq _ (fun x => fieldS x pos.toNat (lenm1.toNat + 1)) hr (fieldS_eq x pos.toNat (Nat.succ_pos _))
    · exact alu1_results_of_eq _ (fun x => fieldU x pos.toNat (lenm1.toNat + 1)) hr (fieldU_eq x pos.toNat len)
    · exact ⟨byteRev x, alu1_results_of_eq _ byteRev hr rfl, fun j byte k bit => getLsbD_byteRev x byte bit⟩
    · exact ⟨fieldIns (rs (me s) d) x pos.toNat len, runForm_results _ _ s _ _ _ hr rfl, fun j => getLsbD_fieldIns _ _ _ _⟩
  case moves =>
    intro s h d a b p q sz ofs imm imm16 x y
    refine ⟨fun hr => ?_, fun hr => ?_, fun hr => ?_, fun hr => ?_, fun hr => ?_, fun hr => ?_⟩
    · have compare (c : Cond) : Results s h [.s a, .s b] 3 [(.p p, pval (condHolds c x y))] (exec (.cmp h c p a b) s) :=
        runForm_results _ _ s _ _ _ hr rfl
      exact ⟨compare .eq, compare .ne, compare .lt, compare .le, compare .ltn, compare .len⟩
    · exact runForm_results _ _ s _ _ _ hr rfl
    · exact alu1_results_of_eq _ (fun x => x) hr rfl
    · exact runForm_results _ _ s _ _ _ hr rfl
    · rw [← append_setWidth]
      exact runForm_results _ _ s _ _ _ hr rfl
    · rw [add_right_comm]
      exact runForm_results _ _ s _ _ _ hr rfl
  case predicates =>
    intro s h d a b x g
    refine ⟨fun hr => ?_, fun hr => ⟨?_, ?_⟩, fun hr => ?_, fun hr => ?_, fun hr => ?_, fun hr => ⟨?_, ?_⟩, fun p => ⟨?_, ?_, ?_⟩⟩
    · have combine (op : Bool → Bool → Bool) : Results s h [] 3 [(.p d, pval (op (rp (me s) a) (rp (me s) b)))] (pred2 h d a b op s) :=
        runForm_results _ _ s _ _ _ hr rfl
      exact ⟨combine (· && ·), combine (· || ·), combine (· ^^ ·)⟩
    · exact runForm_results _ _ s _ _ _ hr rfl
    · exact runForm_results _ _ s _ _ _ hr rfl
    · exact runForm_results _ _ s _ _ _ hr rfl
    · have bit : BitVec.ofNat 64 (rp (me s) a).toNat = if rp (me s) a then 1 else 0 := by cases rp (me s) a <;> rfl
      rw [← bit]
      exact runForm_results _ _ s _ _ _ hr rfl
    · exact runForm_results _ _ s _ _ _ hr rfl
    · exact exec_setPres hr (.mkempty h g) .empty rfl
    · exact exec_setPres hr (.mkfull h g) .full rfl
    · rw [presOf_setPres]; simp
    · exact fun g' ne => presOf_setPres_ne _ _ _ _ ne
    · exact fun g' => valOf_setPres ..

end Sys2Proof.Machine
end

section
/-! The special-function queue (R135, R144 to R148): what enters it, how it is served, and what a result does where it lands. -/

namespace Sys2Proof.Machine

/-! ### Entering the queue (R146, R147) -/

section
variable {s : State} {f : Form} {body : State → SlotRef → Ctx → Act} {srcs : List Reg} {occ ctr : Nat} {a : FAcc} {ws : List (Reg × VVal)}
  (hr : Ready s f.h f.srcs f.dsts f.rgn)
  (e : body s s.cur (me s) = sfuIssue srcs occ a ws { s with freeCtr := ctr } s.cur (me s))
include hr e

theorem runForm_sfuEnters : SfuEnters s { s with freeCtr := ctr } f.h f.i srcs occ a ws (runForm f body s) := by
  unfold SfuEnters
  extract_lets q s1 s2 s3
  intro room
  have issue : body s s.cur (me s) = if enabled (me s) = 0 then .done s3 else .wait s3 s.no (.sfu s.no) 0 0 0 [] :=
    e.trans (if_neg (Nat.not_le.2 room))
  refine ⟨fun off => ?_, fun on => ?_⟩
  · exact runForm_done f body s s3 hr (issue.trans (if_pos off))
  · have now : s3.now = s.now := (OnlyAsked.pushOnce s2 ..).now
    have parks := runForm_wait f body s s3 _ _ _ _ _ _ hr (issue.trans (if_neg on))
    rwa [show waitBy s3 f.i s.no (.sfu s.no) 0 0 0 [] = waitBy s f.i s.no (.sfu s.no) 0 0 0 [] by rw [waitBy, waitBy, now]] at parks
theorem runForm_sfuFull (full : 16 ≤ (here s).sfu.length) : Busy s f.i (runForm f body s) :=
  runForm_busy f body s hr (e.trans (if_pos full))
theorem runForm_sfu : SfuEnters s { s with freeCtr := ctr } f.h f.i srcs occ a ws (runForm f body s) ∧
    (16 ≤ (here s).sfu.length → Busy s f.i (runForm f body s)) := ⟨runForm_sfuEnters hr e, runForm_sfuFull hr e⟩
end
/-- A lane-wise form of the special functions (R145). -/
theorem sfuForm_enters {s : State} {h : Hdr} {t : Ty} {rm : Rm} {m : VMask} {d a : VIx} (i : Instr) (g : Sfn)
    (hr : Ready s h ([.v a] ++ maskSrcs m (.v d)) [.v d] false) :
    let o := fpLoop s t rm m d fun j r => sfuEval g (Fmt.of t) r (numAt s t a j)
    SfuEnters s s h i ([.v a] ++ maskSrcs m (.v d)) (sfuOcc t) o.2 [(.v d, packLanes t.width o.1)] (sfuForm i h t rm m d a g s) ∧
    (16 ≤ (here s).sfu.length → Busy s i (sfuForm i h t rm m d a g s)) :=
  runForm_sfu (f := { i := i, h := h, srcs := [.v a] ++ maskSrcs m (.v d), dsts := [.v d] }) (ctr := s.freeCtr) hr rfl

/-! ### Beats and service (R135, R146) -/

theorem exec_arrayBeatStart (s : State) (n : Node) : ∃ t, exec (.arrayBeatStart n) s = .next t ∧
    tileAt t n = { tileAt s n with beats := (tileAt s n).beats - 1 } ∧ t.mem = s.mem ∧
    (2 ≤ (tileAt s n).beats → ∃ e ∈ t.agenda, e.at_ = dueIn s n 1 ∧ e.ev = .arrayBeatStart n) := by
  let u := modTile s n fun t => { t with beats := t.beats - 1 }
  have beats : tileAt u n = { tileAt s n with beats := (tileAt s n).beats - 1 } := tileAt_modTile_self ..
  have asked : OnlyAsked u (evArrayBeatStart n s) := .unless _ (.pushOnce ..)
  refine ⟨_, rfl, (asked.tileAt n).trans beats, asked.mem, fun more => ?_⟩
  have next : evArrayBeatStart n s = pushOnce u (dueIn s n 1) phStart (nodeKey n) (.arrayBeatStart n) :=
    if_neg (by rw [beats]; exact Nat.sub_ne_zero_of_lt more)
  rw [next]
  exact mem_pushOnce ..

section
variable {s : State} {n : Node}

theorem evSfuServiceStart_busy (busy : s.now < (tileAt s n).sfuFree) : evSfuServiceStart n s = s := if_pos busy
theorem evSfuServiceStart_none (none : ∀ q ∈ (tileAt s n).sfu, q.started = true) : evSfuServiceStart n s = s := by
  have waiting : (tileAt s n).sfu.find? (fun q => !q.started) = .none := List.find?_eq_none.2 fun q mem => by simp [none q mem]
  simp only [evSfuServiceStart, waiting, ite_self]
/-- The tile as a request's service starts in it. -/
def sfuServed (s : State) (n : Node) (q : SfuReq) : State := modTile s n fun t =>
  { t with sfuFree := dueIn s n q.occ, sfu := t.sfu.map fun x => if x.id = q.id then { x with started := true } else x }
theorem evSfuServiceStart_oldest {l1 l2 : List SfuReq} {q : SfuReq} (queue : (tileAt s n).sfu = l1 ++ q :: l2)
    (older : ∀ x ∈ l1, x.started = true) (waits : q.started = false) (free : (tileAt s n).sfuFree ≤ s.now) :
    evSfuServiceStart n s =
      pushOnce (push (sfuServed s n q) (dueIn s n (q.occ + 20 + q.slow)) phStart (nodeKey n) (.sfuResultLand n q.id)) (dueIn s n q.occ)
        phStart (nodeKey n) (.sfuServiceStart n) := by
  have oldest : (tileAt s n).sfu.find? (fun q => !q.started) = some q :=
    List.find?_eq_some_iff_append.2 ⟨by simp [waits], l1, l2, queue, fun x mem => by simp [older x mem]⟩
  unfold evSfuServiceStart
  simp only [oldest, if_neg (Nat.not_lt.2 free)]
  rfl
theorem exec_sfuServiceStart_oldest {l1 l2 : List SfuReq} {q : SfuReq} (queue : (tileAt s n).sfu = l1 ++ q :: l2)
    (older : ∀ x ∈ l1, x.started = true) (waits : q.started = false) (free : (tileAt s n).sfuFree ≤ s.now) :
    ∃ t, exec (.sfuServiceStart n) s = .next t ∧ tileAt t n = tileAt (sfuServed s n q) n ∧
      (∃ e ∈ t.agenda, e.at_ = dueIn s n (q.occ + 20 + q.slow) ∧ e.ev = .sfuResultLand n q.id) ∧
      ∃ e ∈ t.agenda, e.at_ = dueIn s n q.occ ∧ e.ev = .sfuServiceStart n := by
  have result := OnlyAsked.push (sfuServed s n q) (dueIn s n (q.occ + 20 + q.slow)) phStart (nodeKey n) (.sfuResultLand n q.id)
  obtain ⟨lands, mem, is⟩ := mem_push_new (sfuServed s n q) (dueIn s n (q.occ + 20 + q.slow)) phStart (nodeKey n) (.sfuResultLand n q.id)
  have next := OnlyAsked.pushOnce (push (sfuServed s n q) (dueIn s n (q.occ + 20 + q.slow)) phStart (nodeKey n) (.sfuResultLand n q.id))
    (dueIn s n q.occ) phStart (nodeKey n) (.sfuServiceStart n)
  exact ⟨_, congrArg Host.Outcome.next (evSfuServiceStart_oldest queue older waits free), (result.trans next).tileAt n,
    ⟨lands, next.agenda lands mem, is⟩, mem_pushOnce ..⟩
end

/-! ### Landing (R146 to R148) -/

/-- A result as it lands in a unit's context, with the flags of its steps. -/
def sfuPut (q : SfuReq) (ws : List (Reg × VVal)) (c : Ctx) : Ctx :=
  ws.foldl (fun c x => putReg c x.1 x.2) { c with fpflags := c.fpflags ||| BitVec.ofNat 64 q.flags }
theorem park_putReg (c : Ctx) (g : Reg) (x : VVal) : (putReg c g x).park = c.park := by
  have rest := setPres_rest (setVal c g x) g .full
  have set : (setVal c g x).park = c.park := by cases g <;> simp only [setVal] <;> split <;> rfl
  exact (congrArg Ctx.park rest :).trans set
theorem foldl_putReg_keeps {α : Type} (part : Ctx → α) (keeps : ∀ c g x, part (putReg c g x) = part c) (ws : List (Reg × VVal)) (c : Ctx) :
    part (ws.foldl (fun c x => putReg c x.1 x.2) c) = part c := by
  induction ws generalizing c with
  | nil => rfl
  | cons w ws ih => exact (ih _).trans (keeps ..)
theorem uid_sfuPut (q : SfuReq) (ws : List (Reg × VVal)) (c : Ctx) : (sfuPut q ws c).uid = c.uid := foldl_putReg_keeps Ctx.uid uid_putReg ..
theorem park_sfuPut (q : SfuReq) (ws : List (Reg × VVal)) (c : Ctx) : (sfuPut q ws c).park = c.park := foldl_putReg_keeps Ctx.park park_putReg ..
/-- A change of a tile that keeps its slots: a unit that waits still waits so. -/
theorem Waits.modTile {s : State} {w : Who} {p : Park} (h : Waits s w p) (n : Node) (f : Tile → Tile)
    (keeps : (f (tileAt s n)).slots = (tileAt s n).slots) : Waits (modTile s n f) w p := by
  have ctx := ctxAt_modTile_keep s n f w.slot keeps
  exact ⟨by rw [slotAt_modTile_keep s n f w.slot keeps, h.bound], by rw [ctx, h.uid], by rw [ctx, h.park], h.id, h.due, h.held⟩

section
variable {s : State} {n : Node} {q : SfuReq} {p : Park}

/-- The state in which a request has left the queue of its tile. -/
def sfuLeft (s : State) (n : Node) (q : SfuReq) : State := modTile s n fun t => { t with sfu := t.sfu.filter fun x => x.id ≠ q.id }
/-- The wait for a request. -/
def sfuWho (n : Node) (q : SfuReq) : Who := ⟨⟨n.pkg, n.id, q.slot⟩, q.uid, q.id⟩

theorem ctxAt_sfuLeft (r : SlotRef) : ctxAt (sfuLeft s n q) r = ctxAt s r := ctxAt_modTile_keep _ _ _ _ rfl
theorem slotAt_sfuLeft (r : SlotRef) : slotAt (sfuLeft s n q) r = slotAt s r := slotAt_modTile_keep _ _ _ _ rfl
theorem Waits.sfuLeft (h : Waits s (sfuWho n q) p) : Waits (sfuLeft s n q) (sfuWho n q) p := h.modTile _ _ rfl
variable (found : (tileAt s n).sfu.find? (fun x => x.id = q.id) = some q)
include found

/-- The slot that waits for a request goes on with its result, or faults (R146, R147). -/
theorem evSfuResultLand_waits (h : Waits s (sfuWho n q) p) : evSfuResultLand n q.id s =
    if q.trapping then
      faultWait (modUnit (sfuLeft s n q) (sfuWho n q).slot q.uid (sfuPut q q.old)) (sfuWho n q) 0x18 0 (BitVec.ofNat 64 (q.flags + q.lane * 2 ^ 8))
    else finish (sfuLeft s n q) (sfuWho n q) (sfuPut q q.dst) := by
  have waits := waitOf_waits h.sfuLeft
  unfold sfuLeft sfuWho at waits
  unfold evSfuResultLand
  simp only [found, waits]
  rfl
/-- A result for which no slot waits lands in its unit (R148). -/
theorem evSfuResultLand_alone (alone : waitOf (sfuLeft s n q) (sfuWho n q) = none) :
    evSfuResultLand n q.id s = modUnit (sfuLeft s n q) (sfuWho n q).slot q.uid (sfuPut q q.dst) := by
  unfold sfuLeft sfuWho at alone
  unfold evSfuResultLand
  simp only [found, alone]
  rfl
theorem exec_sfuResultLand_finishes (h : Waits s (sfuWho n q) p) (good : q.trapping = false) :
    ∃ t, exec (.sfuResultLand n q.id) s = .next t ∧
      Finishes (sfuLeft s n q) (sfuWho n q) (ctxAt s (sfuWho n q).slot) (sfuPut q q.dst) t := by
  have run := (evSfuResultLand_waits found h).trans (if_neg (by rw [good]; decide))
  have finishes := finish_spec h.sfuLeft (sfuPut q q.dst)
  rw [ctxAt_sfuLeft] at finishes
  exact ⟨_, congrArg Host.Outcome.next run, finishes⟩
theorem exec_sfuResultLand_traps (h : Waits s (sfuWho n q) p) (bad : q.trapping = true) :
    exec (.sfuResultLand n q.id) s = .next (takeFault (modUnit (sfuLeft s n q) (sfuWho n q).slot q.uid (sfuPut q q.old)) (sfuWho n q).slot q.uid
      0x18 0 (BitVec.ofNat 64 (q.flags + q.lane * 2 ^ 8))) := by
  have still := h.sfuLeft.modUnit (f := sfuPut q q.old) (uid_sfuPut ..) (park_sfuPut ..)
  have run := (evSfuResultLand_waits found h).trans (if_pos bad)
  exact congrArg Host.Outcome.next (run.trans (faultWait_waits still ..))
theorem exec_sfuResultLand_alone (bound : (slotAt s (sfuWho n q).slot).ph = .bound) (uid : (ctxAt s (sfuWho n q).slot).uid = q.uid)
    (idle : (ctxAt s (sfuWho n q).slot).park = none) :
    ∃ t, exec (.sfuResultLand n q.id) s = .next t ∧ OnlySlot (sfuWho n q).slot (sfuLeft s n q) t ∧
      ctxAt t (sfuWho n q).slot = sfuPut q q.dst (ctxAt s (sfuWho n q).slot) := by
  have bound' : (slotAt (sfuLeft s n q) (sfuWho n q).slot).ph = .bound := by rw [slotAt_sfuLeft, bound]
  have named : (ctxAt (sfuLeft s n q) (sfuWho n q).slot).uid = (sfuWho n q).uid := by rw [ctxAt_sfuLeft]; exact uid
  have waits : waitOf (sfuLeft s n q) (sfuWho n q) = none := by
    rw [waitOf, ← named, unitAt_bound _ _ bound', Option.bind_some, ctxAt_sfuLeft, idle]
    rfl
  obtain ⟨only, ctx⟩ := (OnlySlot.refl ..).modUnit_named bound' named (sfuPut q q.dst)
  rw [ctxAt_sfuLeft] at ctx
  exact ⟨_, congrArg Host.Outcome.next (evSfuResultLand_alone found waits), only, ctx⟩
end

/-- Settles O31: each form enters by its own part, and each event does what its lemma says. -/
theorem specialFunctionQueue : Obligations.SpecialFunctionQueue := by
  refine ⟨fun s h t rm m d a b => ⟨fun hr => ?_, ?_⟩, exec_arrayBeatStart, fun s n => ⟨fun idle => ?_, ?_⟩, fun s n q p found =>
    ⟨exec_sfuResultLand_finishes found, exec_sfuResultLand_traps found, exec_sfuResultLand_alone found⟩⟩
  · exact ⟨sfuForm_enters _ .exp2 hr, sfuForm_enters _ .log2 hr, sfuForm_enters _ .rcp hr, sfuForm_enters _ .rsq hr, sfuForm_enters _ .sin hr,
      sfuForm_enters _ .cos hr, sfuForm_enters _ .tanh hr⟩
  · intro S src o i hr
    exact runForm_sfu hr rfl
  · exact congrArg Host.Outcome.next (idle.elim evSfuServiceStart_busy evSfuServiceStart_none)
  · intro l1 q l2 queue older waits free
    obtain ⟨t, run, tile, due⟩ := exec_sfuServiceStart_oldest queue older waits free
    exact ⟨t, run, tile.trans (tileAt_modTile_self ..), due⟩

end Sys2Proof.Machine
end

section
/-! Endpoints under the operations of channels (R171 to R189): what leaves every endpoint as it was, and what each operation makes of one. -/

namespace Sys2Proof.Machine

/-! ### What leaves every endpoint as it was -/

/-- Every byte of memory and every endpoint is as it was. -/
structure SameEps (s t : State) : Prop where
  mem : t.mem = s.mem
  ep : ∀ e, epAt t e = epAt s e

theorem SameEps.refl (s : State) : SameEps s s := ⟨rfl, fun _ => rfl⟩
theorem SameEps.trans {s t u : State} (h : SameEps s t) (k : SameEps t u) : SameEps s u :=
  ⟨k.mem.trans h.mem, fun e => (k.ep e).trans (h.ep e)⟩
theorem SameEps.foldl {α : Type} (f : State → α → State) (h : ∀ s a, SameEps s (f s a)) (l : List α) (s : State) : SameEps s (l.foldl f s) := by
  induction l generalizing s with
  | nil => exact .refl s
  | cons a l ih => exact (h s a).trans (ih _)
theorem OnlySent.sameEps {s t : State} (h : OnlySent s t) : SameEps s t := ⟨h.mem, h.epAt⟩
theorem OnlyAsked.sameEps {s t : State} (h : OnlyAsked s t) : SameEps s t := h.sent.sameEps
/-- What the endpoints of a tile hold in a part that a change of a tile keeps. -/
theorem epAt_modTile_keeps {α : Type} (part : Endpoint → α) (s : State) (n : Node) (f : Tile → Tile)
    (keeps : ∀ i, part ((f (tileAt s n)).epAt i) = part ((tileAt s n).epAt i)) (e : EpRef) :
    part (epAt (modTile s n f) e) = part (epAt s e) := by
  by_cases k : nodeKey e.node = nodeKey n
  · have at_ (u : State) : tileAt u e.node = tileAt u n := by unfold tileAt; rw [k]
    unfold epAt
    rw [at_, at_, tileAt_modTile_self, keeps]
  · unfold epAt
    rw [tileAt_modTile_ne _ _ _ _ k]
theorem SameEps.modTile (s : State) (n : Node) (f : Tile → Tile) (keeps : (f (tileAt s n)).eps = (tileAt s n).eps) :
    SameEps s (modTile s n f) :=
  ⟨rfl, epAt_modTile_keeps id s n f fun i => by unfold Tile.epAt; rw [keeps]⟩
theorem SameEps.modSlot (s : State) (r : SlotRef) (f : Slot → Slot) : SameEps s (modSlot s r f) :=
  .modTile _ _ _ (congrArg Tile.eps (modSlot_rest (tileAt s r.node) r.slot f) :)
theorem SameEps.modUnit (s : State) (r : SlotRef) (uid : Nat) (f : Ctx → Ctx) : SameEps s (modUnit s r uid f) := .modSlot ..
theorem SameEps.setWake (s : State) (r : SlotRef) (uid : Nat) : SameEps s (setWake s r uid) := .modUnit ..
theorem SameEps.wakeOwner (s : State) (e : EpRef) : SameEps s (wakeOwner s e) := by
  unfold Machine.wakeOwner
  split
  · exact .setWake ..
  · exact .refl s
theorem SameEps.sweepImages (s : State) (n : Node) : SameEps s (sweepImages s n) := .modTile _ _ _ rfl
theorem SameEps.staleFlit (s : State) (n : Node) : SameEps s (staleFlit s n) := .modTile _ _ _ rfl
theorem SameEps.noteSend (s : State) (e : EpRef) (f : ChFlit) : SameEps s (noteSend s e f) := by
  unfold Machine.noteSend
  split
  iterate 3 exact ⟨rfl, fun _ => rfl⟩
  exact .refl s
theorem SameEps.sendFlit (s : State) (e dst : EpRef) (gen seq : Nat) (b : ChBody) : SameEps s (sendFlit s e dst gen seq b) :=
  (SameEps.noteSend ..).trans (OnlySent.sendMsg ..).sameEps
/-- A landing flit that no push awaits: its send is performed, and events are asked for (R272, R294). -/
theorem sendLanded_asked (s : State) (f : ChFlit) (noPush : ∀ q ∈ (tileAt s f.src).copy, chMark f ∉ q.marks) :
    OnlyAsked { s with outs := s.outs.filter fun o => ¬(o.home = some f.dst.node ∧ o.va = chMark f) } (sendLanded s f) := by
  have woken := OnlyAsked.wakeEngines { s with outs := s.outs.filter fun o => ¬(o.home = some f.dst.node ∧ o.va = chMark f) } f.src
  have copy := congrArg Tile.copy (woken.tileAt f.src)
  unfold sendLanded
  generalize wakeEngines _ f.src = u at woken copy
  have none : (tileAt u f.src).copy.find? (fun q => q.marks.contains (chMark f)) = .none :=
    List.find?_eq_none.2 fun q mem => by simpa using noPush q (by rw [copy] at mem; exact mem)
  simp only [none]
  exact woken
theorem SameEps.sendLanded (s : State) (f : ChFlit) (noPush : ∀ q ∈ (tileAt s f.src).copy, chMark f ∉ q.marks) :
    SameEps s (sendLanded s f) :=
  have asked := sendLanded_asked s f noPush
  ⟨asked.mem, asked.sent.epAt⟩

/-! ### What each operation makes of its endpoint -/

theorem epAt_modEp_self (s : State) (e : EpRef) (f : Endpoint → Endpoint) : epAt (modEp s e f) e = f (epAt s e) := by
  unfold epAt modEp
  rw [tileAt_modTile_self]
  exact aget_aset_self ..
/-- A part of the endpoints that a change of one keeps. -/
theorem epAt_modEp_keeps {α : Type} (part : Endpoint → α) (s : State) (e : EpRef) (f : Endpoint → Endpoint)
    (keeps : ∀ x, part (f x) = part x) (e' : EpRef) : part (epAt (modEp s e f) e') = part (epAt s e') := by
  refine epAt_modTile_keeps part s e.node _ (fun i => ?_) e'
  unfold Tile.epAt
  by_cases same : i = e.ep
  · rw [same, aget_aset_self, keeps]
  · rw [aget_aset_ne _ _ _ _ _ same]

/-- Memory is as it was, and an endpoint is as given. -/
structure EpIs (s : State) (e : EpRef) (y : Endpoint) (t : State) : Prop where
  mem : t.mem = s.mem
  ep : epAt t e = y

theorem EpIs.of_modEp (s : State) (e : EpRef) (f : Endpoint → Endpoint) : EpIs s e (f (epAt s e)) (modEp s e f) :=
  ⟨rfl, epAt_modEp_self ..⟩
theorem EpIs.before {s t u : State} {e : EpRef} {y : Endpoint} (h : EpIs t e y u) (k : SameEps s t) : EpIs s e y u :=
  ⟨h.mem.trans k.mem, h.ep⟩
section
variable {s t u : State} {e : EpRef} {y : Endpoint} (h : EpIs s e y t)
include h
theorem EpIs.after (k : SameEps t u) : EpIs s e y u := ⟨k.mem.trans h.mem, (k.ep e).trans h.ep⟩
theorem EpIs.thenModEp (f : Endpoint → Endpoint) : EpIs s e (f y) (modEp t e f) := ⟨h.mem, by rw [epAt_modEp_self, h.ep]⟩
theorem EpIs.gotMsg (m : ChMsg) : EpIs s e { y with inbox := y.inbox ++ [m], part := none } (gotMsg t e m) :=
  ((h.thenModEp fun x => { x with inbox := x.inbox ++ [m], part := none }).after (.wakeOwner ..)).after (OnlyAsked.askDeposit ..).sameEps
theorem EpIs.dropMsgs : EpIs s e { y with inbox := [], part := none, early := [], cursor := 0, deposited := false } (dropMsgs t e) :=
  (h.after (.foldl _ (fun s o => .sendFlit s e o (epAt s o).gen 0 .abort) _ _)).thenModEp
    fun x => { x with inbox := [], part := none, early := [], cursor := 0, deposited := false }
theorem EpIs.sendSeq (b : ChBody) : EpIs s e { y with txSeq := y.txSeq + 1 } (sendSeq t e b) :=
  (h.thenModEp fun x => { x with txSeq := x.txSeq + 1 }).after (.sendFlit ..)
theorem EpIs.dropPacket : EpIs s e { y with pkt := none } (dropPacket t e) := by
  unfold Machine.dropPacket
  refine EpIs.thenModEp (f := fun x => { x with pkt := none }) (h.after ?_)
  split
  · exact .modUnit ..
  · exact .refl t
end
/-- Releasing the buffer of an endpoint keeps all of it but its granules (R216). -/
theorem gen_releaseBuf (s : State) (e : EpRef) : (epAt (releaseBuf s e) e).gen = (epAt s e).gen := by
  unfold releaseBuf
  split
  · rfl
  · extract_lets lo u
    have kept : SameEps s u := .modTile _ _ _ rfl
    rw [epAt_modEp_self]
    exact (congrArg Endpoint.gen (kept.ep e) :)
/-- An endpoint that is freed (R189). -/
theorem epAt_freeEp (s : State) (e : EpRef) : epAt (freeEp s e) e = { gen := ((epAt s e).gen + 1) % 256 } := by
  unfold freeEp
  rw [(SameEps.sweepImages ..).ep, epAt_modEp_self, gen_releaseBuf]

/-! ### Detaching a coupler (R205) -/

/-- An endpoint without its coupler. -/
def uncoupled (x : Endpoint) : Endpoint := { x with coupler := none }
/-- Every byte of memory is as it was, and every endpoint but for its coupler. -/
structure OnlyCouplers (s t : State) : Prop where
  mem : t.mem = s.mem
  ep : ∀ e, uncoupled (epAt t e) = uncoupled (epAt s e)

theorem SameEps.onlyCouplers {s t : State} (h : SameEps s t) : OnlyCouplers s t := ⟨h.mem, fun e => congrArg uncoupled (h.ep e)⟩
theorem OnlyCouplers.trans {s t u : State} (h : OnlyCouplers s t) (k : OnlyCouplers t u) : OnlyCouplers s u :=
  ⟨k.mem.trans h.mem, fun e => (k.ep e).trans (h.ep e)⟩
theorem SameEps.setTerm (s : State) (r : SlotRef) (key : EpRef) (u : Int) : SameEps s (setTerm s r key u) := .modSlot ..
theorem SameEps.sendTerm (s : State) (c : EpRef) (p : SlotRef) (u : Option Int) (pin : Option Word) : SameEps s (sendTerm s c p u pin) := by
  unfold Machine.sendTerm
  split
  · dsimp only
    split
    · exact (SameEps.setTerm ..).trans (.modTile _ _ _ rfl)
    · exact .setTerm ..
  · exact (OnlySent.sendMsg ..).sameEps
theorem OnlyCouplers.detach (s : State) (n : Node) (i : Nat) : OnlyCouplers s (detach s n i) := by
  unfold Machine.detach
  extract_lets c key s1 s2 s3
  split
  · exact (SameEps.refl s).onlyCouplers
  · have held : SameEps s s1 := by
      unfold s1
      split
      · exact .setTerm ..
      · exact .refl s
    have sent : SameEps s1 s2 := by
      unfold s2
      split
      · exact .refl s1
      · exact .sendTerm ..
    have stopped : SameEps s2 s3 := .modTile _ _ _ rfl
    exact ((held.trans sent).trans stopped).onlyCouplers.trans ⟨rfl, epAt_modEp_keeps uncoupled _ _ _ fun _ => rfl⟩
theorem OnlyCouplers.detachOf (s : State) (e : EpRef) : OnlyCouplers s (detachOf s e) := by
  unfold Machine.detachOf
  split
  · exact .detach ..
  · exact (SameEps.refl s).onlyCouplers
theorem EpIs.detachOf {s u : State} {e : EpRef} {y : Endpoint} (h : EpIs s e y u) : ∃ c, EpIs s e { y with coupler := c } (detachOf u e) := by
  have detached := OnlyCouplers.detachOf u e
  have free : uncoupled (epAt (Machine.detachOf u e) e) = uncoupled y := by rw [detached.ep, h.ep]
  exact ⟨(epAt (Machine.detachOf u e) e).coupler, detached.mem.trans h.mem,
    (congrArg (fun x : Endpoint => { x with coupler := (epAt (Machine.detachOf u e) e).coupler }) free :)⟩

end Sys2Proof.Machine
end

section
/-! Channel flits where they land (R121, R171 to R173, R180, R184 to R189), and the deposit of a message into its bound register. -/

namespace Sys2Proof.Machine

/-! ### A flit in its turn (R184, R304) -/

/-- With nothing landed early, no flit's turn has come. -/
theorem applyFlits_none {n : Nat} {s : State} {e : EpRef} (early : (epAt s e).early = []) : applyFlits n s e = s := by
  cases n with
  | zero => rfl
  | succ n => simp only [applyFlits, early, List.find?_nil]
/-- A sequenced flit that fits is put among those landed, and those whose turn has come are applied. -/
theorem landFlit_seq {s : State} {f : ChFlit} (fits : flitFits (epAt (sendLanded s f) f.dst) f = true) (seq : isSeq f.body = true) :
    landFlit s f = applyFlits ((epAt (sendLanded s f) f.dst).early.length + 2)
      (modEp (sendLanded s f) f.dst fun x => { x with early := x.early ++ [f] }) f.dst := by
  unfold landFlit
  simp only [fits, Bool.not_true, Bool.false_eq_true, if_false]
  cases is : f.body with
  | credit | ack | adopted | abort => rw [is] at seq; cases seq
  | data | label | deleg | redirect | close | discard => rfl

/-- The flit whose turn has come at an open endpoint, counted. -/
def flitCounted (s : State) (e : EpRef) (f : ChFlit) : State :=
  modEp s e fun x => { x with rxSeq := x.rxSeq + 1, early := x.early.filter fun g => ¬(isSeq g.body ∧ g.seq = f.seq) }
theorem applyFlits_opened {n : Nat} {s : State} {e : EpRef} {f : ChFlit} (opened : (epAt s e).st = .opened)
    (first : (epAt s e).early.find? (fun f => isSeq f.body ∧ f.seq = (epAt s e).rxSeq ∧ !(epAt s e).leaving) = some f) :
    applyFlits (n + 1) s e = applyFlits n (takeBody (flitCounted s e f) e f.body) e := by
  simp only [applyFlits, first, opened]
  rfl

section
variable {s : State} {f : ChFlit} (h : FlitInTurn s f)
include h

theorem FlitInTurn.landed : SameEps s (sendLanded s f) := .sendLanded s f h.noPush
/-- The flit's number is counted and its body taken, by an endpoint that is still open. -/
theorem FlitInTurn.takes (seq : isSeq f.body = true) : ∃ u, EpIs s f.dst { epAt s f.dst with rxSeq := (epAt s f.dst).rxSeq + 1 } u ∧
    landFlit s f = applyFlits 1 (takeBody u f.dst f.body) f.dst := by
  have same := h.landed.ep f.dst
  have inQueue := (EpIs.of_modEp (sendLanded s f) f.dst fun x => { x with early := x.early ++ [f] }).before h.landed
  have counted := inQueue.thenModEp fun x => { x with rxSeq := x.rxSeq + 1, early := x.early.filter fun g => ¬(isSeq g.body ∧ g.seq = f.seq) }
  have emptied : [f].filter (fun g => ¬(isSeq g.body ∧ g.seq = f.seq)) = (epAt s f.dst).early := by simp [seq, h.early]
  have lands := landFlit_seq (by rw [same]; exact h.fits) seq
  simp only [same, h.early, List.nil_append, List.length_nil] at inQueue counted lands
  rw [emptied] at counted
  refine ⟨_, counted, lands.trans (applyFlits_opened ?_ ?_)⟩
  · rw [inQueue.ep]; exact h.opened
  · rw [inQueue.ep]
    simp [seq, h.turn, h.staying]
/-- With its body taken, nothing is left to apply. -/
theorem FlitInTurn.lands {b : ChBody} (is : f.body = b) (seq : isSeq b = true) {P : Endpoint → Prop}
    (takes : ∀ u, EpIs s f.dst { epAt s f.dst with rxSeq := (epAt s f.dst).rxSeq + 1 } u →
      ∃ y, EpIs s f.dst y (takeBody u f.dst b) ∧ y.early = [] ∧ P y) : ∃ y, EpIs s f.dst y (landFlit s f) ∧ P y := by
  obtain ⟨u, counted, lands⟩ := h.takes (is ▸ seq)
  obtain ⟨y, taken, early, does⟩ := takes u counted
  rw [is, applyFlits_none (by rw [taken.ep, early])] at lands
  exact ⟨y, lands ▸ taken, does⟩
/-- A credit is no part of the sequence (R171). -/
theorem FlitInTurn.landsCredit (is : f.body = .credit) :
    EpIs s f.dst { epAt s f.dst with unread := (epAt s f.dst).unread - 1 } (landFlit s f) := by
  have credited := (EpIs.of_modEp (sendLanded s f) f.dst fun x => { x with unread := x.unread - 1 }).before h.landed
  rw [h.landed.ep] at credited
  have run : landFlit s f = takeCredit (sendLanded s f) f.dst := by
    unfold landFlit
    simp only [h.landed.ep, h.fits, is, h.opened, Bool.not_true, Bool.false_eq_true, reduceCtorEq, if_false]
  exact run ▸ credited
end

/-! ### What an open endpoint makes of a body (R172, R173, R184, R188) -/

section
variable {s u : State} {e : EpRef} {y : Endpoint} (h : EpIs s e y u) (opened : y.st = .opened)
include h opened

theorem EpIs.notPeerClosed : ¬ (epAt u e).st = .peerClosed := by rw [h.ep, opened]; decide
theorem EpIs.takeData (mt : Nat) (b : List Byte) (last : Bool) :
    EpIs s e (if last then { y with inbox := y.inbox ++ [.data mt ((y.part.map (·.2)).getD [] ++ b)], part := none }
      else { y with part := some (mt, (y.part.map (·.2)).getD [] ++ b) }) (takeBody u e (.data mt b last)) := by
  have part : (epAt u e).part = y.part := by rw [h.ep]
  unfold takeBody
  simp only [if_neg (h.notPeerClosed opened), part]
  split
  · exact h.gotMsg _
  · exact h.thenModEp fun x => { x with part := some (mt, (y.part.map (·.2)).getD [] ++ b) }
theorem EpIs.takeLabel (k : Nat) : EpIs s e { y with inbox := y.inbox ++ [.label k], part := none } (takeBody u e (.label k)) := by
  unfold takeBody
  simp only [if_neg (h.notPeerClosed opened)]
  exact h.gotMsg _
theorem EpIs.takeDiscard : EpIs s e { y with part := none } (takeBody u e .discard) := by
  unfold takeBody
  simp only [if_neg (h.notPeerClosed opened)]
  exact h.thenModEp fun x => { x with part := none }
/-- The peer of a channel has been delegated: the endpoint turns to the adopter, and its coupler is detached (R184, R205). -/
theorem EpIs.takeRedirect (z : EpRef) (g : Nat) : ∃ c, EpIs s e
    { y with peer := z, peerGen := g, parties := y.peer.node :: y.parties, coupler := c } (takeBody u e (.redirect z g)) := by
  have old : epAt u e = y := h.ep
  obtain ⟨c, detached⟩ := h.detachOf
  have run : takeBody u e (.redirect z g) = sendFlit (modEp (Machine.detachOf u e) e fun x => { x with
      peer := z, peerGen := g, parties := y.peer.node :: x.parties }) e y.peer y.peerGen 0 .ack := by
    unfold takeBody
    simp only [old, opened, reduceCtorEq, if_false]
  rw [run]
  exact ⟨c, (detached.thenModEp fun x => { x with peer := z, peerGen := g, parties := y.peer.node :: x.parties }).after (.sendFlit ..)⟩
/-- A channel that its peer has closed (R188). -/
theorem EpIs.takeClose (q k : Nat) : ∃ x, EpIs s e x (takeBody u e (.close q k)) ∧ x.st = .peerClosed ∧ x.pstate = q ∧ x.cause = k ∧
    x.inbox = [] ∧ x.early = [] := by
  obtain ⟨c, detached⟩ := h.dropMsgs.dropPacket.detachOf
  have run : takeBody u e (.close q k) = peerClose u e q k := by
    unfold takeBody
    simp only [if_neg (h.notPeerClosed opened)]
  rw [run, peerClose, if_neg (not_not.2 (by rw [h.ep]; exact opened))]
  exact ⟨_, (detached.thenModEp fun x => { x with st := .peerClosed, pstate := q, cause := k }).after (.sweepImages ..), rfl, rfl, rfl, rfl, rfl⟩
end

/-! ### Flits at a forwarding endpoint, and flits that fit nothing (R184, R189) -/

section
variable {s : State} {f : ChFlit} (noPush : ∀ q ∈ (tileAt s f.src).copy, chMark f ∉ q.marks)
include noPush

section
variable (fits : flitFits (epAt s f.dst) f = true) (forwards : (epAt s f.dst).st = .forwarding)
include fits forwards

theorem landFlit_ack (is : f.body = .ack) : epAt (landFlit s f) f.dst = { gen := ((epAt s f.dst).gen + 1) % 256 } := by
  have same := SameEps.sendLanded s f noPush
  unfold landFlit
  simp only [same.ep, fits, is, forwards, Bool.not_true, Bool.false_eq_true, if_false, if_true]
  rw [epAt_freeEp, same.ep]
theorem landFlit_abort (is : f.body = .abort) : epAt (landFlit s f) f.dst = { gen := ((epAt s f.dst).gen + 1) % 256 } := by
  have same := SameEps.sendLanded s f noPush
  have run : landFlit s f = freeEp (dropMsgs (sendSeq (sendLanded s f) f.dst
      (.close (nearestRec (imageOf (sendLanded s f) f.dst.node (epAt s f.dst).img) (epAt s f.dst).q) 0x0C)) f.dst) f.dst := by
    unfold landFlit
    simp only [same.ep, fits, is, forwards, Bool.not_true, Bool.false_eq_true, if_false, if_true]
  have dropped := ((EpIs.mk same.mem (same.ep f.dst)).sendSeq
    (.close (nearestRec (imageOf (sendLanded s f) f.dst.node (epAt s f.dst).img) (epAt s f.dst).q) 0x0C)).dropMsgs
  rw [run, epAt_freeEp, dropped.ep]
theorem landFlit_adopted {z : EpRef} {g : Nat} (early : (epAt s f.dst).early = []) (is : f.body = .adopted z g) :
    EpIs s f.dst { epAt s f.dst with fwd := some (z, g), early := [] } (landFlit s f) := by
  have same := SameEps.sendLanded s f noPush
  have adopted := ((EpIs.of_modEp (sendLanded s f) f.dst fun x => { x with
    fwd := some (z, g), early := x.early.filter fun f => isSeq f.body }).before same)
  rw [same.ep, early] at adopted
  have run : landFlit s f = applyFlits 1 (modEp (sendLanded s f) f.dst fun x => { x with
      fwd := some (z, g), early := x.early.filter fun f => isSeq f.body }) f.dst := by
    unfold landFlit
    simp only [same.ep, fits, is, forwards, early, Bool.not_true, Bool.false_eq_true, if_false, if_true, List.filter_nil, List.foldl_nil]
    rfl
  rw [run, applyFlits_none (by rw [adopted.ep]; rfl)]
  exact adopted
end
/-- A flit that fits no conversation is counted, and changes no endpoint (R189). -/
theorem landFlit_stale (fits : flitFits (epAt s f.dst) f = false) :
    (tileAt (landFlit s f) f.dst.node).stale = (tileAt s f.dst.node).stale + 1 ∧ ∀ y, epAt (landFlit s f) y = epAt s y := by
  have same := SameEps.sendLanded s f noPush
  have run : landFlit s f = staleFlit (sendLanded s f) f.dst.node := by
    unfold landFlit
    simp only [same.ep, fits, Bool.not_false, if_true]
  rw [run]
  refine ⟨?_, (same.trans (.staleFlit ..)).ep⟩
  have counted : (tileAt (sendLanded s f) f.dst.node).stale = (tileAt s f.dst.node).stale :=
    congrArg Tile.stale ((sendLanded_asked s f noPush).tileAt f.dst.node)
  rw [staleFlit, tileAt_modTile_self, counted]
end

/-! ### Deposits (R121, R180) -/

/-- With no register bound, or with its message deposited, an endpoint deposits nothing. -/
theorem deposit_idle {s : State} {e : EpRef} (idle : (epAt s e).reg = none ∨ (epAt s e).deposited = true) : deposit s e = s := by
  unfold deposit
  rcases idle with unbound | done
  · simp only [unbound]
  · dsimp only
    split
    · split
      · exact if_neg fun ready => by simp [done] at ready
      · rfl
    · rfl
/-- Unparking changes the wait of a unit and when it issues, and nothing else (R123). -/
theorem unparkRegs_spec {r : SlotRef} {s t : State} {uid : Nat} (only : OnlySlot r s t) (bound : (slotAt s r).ph = .bound)
    (named : (ctxAt t r).uid = uid) : ctxAt (unparkRegs t r uid) r =
      { ctxAt t r with park := (ctxAt (unparkRegs t r uid) r).park, readyFrom := (ctxAt (unparkRegs t r uid) r).readyFrom } := by
  have ctx : ctxAt (unparkRegs t r uid) r = _ := (only.modUnit_named bound named _).2
  rw [ctx]
  split
  · split
    · split <;> rfl
    · rfl
  · rfl
/-- What a message of bytes is in a register (R121). -/
def depositVal (g : Reg) (b : List Byte) : VVal := BitVec.ofNat 2048 (natOfBytes (b.take (match g with | .v _ => 256 | _ => 8)))
/-- A unit's context with a message deposited into a register. -/
def depositIn (g : Reg) (b : List Byte) (c : Ctx) : Ctx := setPres (setVal c g (depositVal g b)) g .full
theorem uid_depositIn (g : Reg) (b : List Byte) (c : Ctx) : (depositIn g b c).uid = c.uid := uid_putReg ..

section
variable {s : State} {e : EpRef} {l : Nat} {g : Reg} {mt : Nat} {b : List Byte} {ms : List ChMsg} {t : Trans}

/-- The slot of an endpoint's tile that owns it. -/
abbrev ownerSlot (e : EpRef) (l : Nat) : SlotRef := ⟨e.pkg, e.tile, l⟩
/-- The conditions of a deposit (R121, R180): the endpoint is open with a data message, at its head, that the image receives, and the
register of its owner is empty. -/
structure Deposits (s : State) (e : EpRef) (l : Nat) (g : Reg) (mt : Nat) (b : List Byte) (ms : List ChMsg) (t : Trans) : Prop where
  bound : (slotAt s (ownerSlot e l)).ph = .bound
  opened : (epAt s e).st = .opened
  reg : (epAt s e).reg = some g
  owner : (epAt s e).owner = some (l, (ctxAt s (ownerSlot e l)).uid)
  inbox : (epAt s e).inbox = .data mt b :: ms
  waiting : (epAt s e).deposited = false
  due : (epAt s e).noDep ≤ s.now
  here : isAway s (ownerSlot e l) (ctxAt s (ownerSlot e l)).uid = false
  edge : (imageOf s e.node (epAt s e).img).edge (epAt s e).q .recv mt = some t
  empty : presOf (ctxAt s (ownerSlot e l)) g = .empty

variable (h : Deposits s e l g mt b ms t)
include h

theorem Deposits.run : deposit s e = unparkRegs (setWake (modUnit (modEp s e fun x => { x with deposited := true }) (ownerSlot e l)
    (ctxAt s (ownerSlot e l)).uid (depositIn g b)) (ownerSlot e l) (ctxAt s (ownerSlot e l)).uid) (ownerSlot e l)
    (ctxAt s (ownerSlot e l)).uid := by
  unfold deposit
  simp only [h.reg, h.owner, h.inbox, h.edge, h.opened, h.waiting, h.due, h.here, unitAt_bound s _ h.bound, h.empty, Bool.not_false,
    and_self, if_true]
  rfl
theorem Deposits.ctx : ctxAt (deposit s e) (ownerSlot e l) = { depositIn g b (ctxAt s (ownerSlot e l)) with
    wake := true, park := (ctxAt (deposit s e) (ownerSlot e l)).park, readyFrom := (ctxAt (deposit s e) (ownerSlot e l)).readyFrom } := by
  let r := ownerSlot e l
  let v := modEp s e fun x => { x with deposited := true }
  have slot : slotAt v r = slotAt s r := slotAt_modTile_keep s e.node _ r rfl
  have ctx : ctxAt v r = ctxAt s r := congrArg Slot.ctx slot
  have bound : (slotAt v r).ph = .bound := by rw [slot]; exact h.bound
  obtain ⟨filled, in_⟩ := (OnlySlot.refl r v).modUnit_named bound (congrArg Ctx.uid ctx) (depositIn g b)
  rw [ctx] at in_
  have uid := (congrArg Ctx.uid in_).trans (uid_depositIn ..)
  obtain ⟨woken, wake⟩ := filled.modUnit_named bound uid fun c => { c with wake := true }
  rw [in_] at wake
  have unparked := unparkRegs_spec woken bound ((congrArg Ctx.uid wake).trans (uid_depositIn ..))
  rw [wake] at unparked
  rw [h.run]
  exact unparked
theorem Deposits.ep : EpIs s e { epAt s e with deposited := true } (deposit s e) := by
  rw [h.run]
  exact (((EpIs.of_modEp s e fun x => { x with deposited := true }).after (.modUnit ..)).after (.setWake ..)).after (.modUnit ..)
theorem Deposits.full (real : realReg g = true) : presOf (ctxAt (deposit s e) (ownerSlot e l)) g = .full := by
  have pres : presOf (ctxAt (deposit s e) (ownerSlot e l)) g = presOf (depositIn g b (ctxAt s (ownerSlot e l))) g := by
    rw [h.ctx]
    cases g <;> rfl
  rw [pres, depositIn, presOf_setPres_self _ _ _ real]
theorem Deposits.wake : (ctxAt (deposit s e) (ownerSlot e l)).wake = true := by rw [h.ctx]
end

/-! ### The events -/

theorem EpIs.leaves {s t : State} {e : EpRef} {y : Endpoint} {o : Outc} (h : EpIs s e y t) (run : o = .next t) :
    ∃ t, o = .next t ∧ epAt t e = y ∧ t.mem = s.mem := ⟨t, run, h.ep, h.mem⟩
theorem exec_creditLand {s : State} {f : ChFlit} (plain : isService f.dst = false) : exec (.creditLand f) s = .next (landFlit s f) :=
  congrArg Host.Outcome.next (if_neg (by rw [plain]; decide))
theorem exec_closeNoticeLand {s : State} {f : ChFlit} (plain : isService f.dst = false) :
    exec (.closeNoticeLand f) s = .next (landFlit s f) :=
  congrArg Host.Outcome.next (if_neg fun service => by rw [plain] at service; cases service.1)
/-- The event of a flit of any kind, at an endpoint that is not the calendar service's, lands it. -/
theorem exec_land {s : State} {f : ChFlit} (plain : isService f.dst = false) :
    ∀ ev ∈ [Instr.channelFlitLand, .creditLand, .closeNoticeLand, .discardMarkerLand, .redirectLand, .acknowledgementLand,
      .adoptionNoticeLand, .delegationAbortLand], exec (ev f) s = .next (landFlit s f) := by
  simp only [List.forall_mem_cons, List.not_mem_nil, false_implies, implies_true, and_true]
  exact ⟨rfl, exec_creditLand plain, exec_closeNoticeLand plain, rfl, rfl, rfl, rfl, rfl⟩

/-- Settles O38: a flit in its turn by its body; one at a forwarding endpoint, or that fits nothing, by what its lemma says; a deposit. -/
theorem channelFlitsLand : Obligations.ChannelFlitsLand := by
  intro s f e x leaves next
  refine ⟨fun h => ?turn, fun fits forwards early noPush => ?forwarding, fun fits noPush plain ev mem => ?stale, fun idle => ?idle, ?deposit⟩
  case turn =>
    -- a body that the open endpoint makes y of
    have exactly {b : ChBody} {y : Endpoint} (ev : ChFlit → Instr) (run : exec (ev f) s = .next (landFlit s f)) (is : f.body = b)
        (seq : isSeq b = true) (early : y.early = []) (takes : ∀ u, EpIs s e next u → EpIs s e y (takeBody u e b)) : leaves ev y := by
      obtain ⟨_, lands, rfl⟩ := h.lands is seq (P := (· = y)) fun u counted => ⟨y, takes u counted, early, rfl⟩
      exact lands.leaves run
    refine ⟨fun mt b is => ?_, fun mt b is => ?_, fun k is => ?_, fun is => ?_, fun z g is => ?_, fun is => ?_, fun q k is => ?_⟩
    · exact exactly _ rfl is rfl h.early fun u counted => counted.takeData h.opened mt b true
    · exact exactly _ rfl is rfl h.early fun u counted => counted.takeData h.opened mt b false
    · exact exactly _ rfl is rfl h.early fun u counted => counted.takeLabel h.opened k
    · exact exactly _ rfl is rfl h.early fun u counted => counted.takeDiscard h.opened
    · obtain ⟨_, lands, c, rfl⟩ := h.lands is rfl (P := fun y => ∃ c, y = { next with
        peer := z, peerGen := g, parties := x.peer.node :: x.parties, coupler := c }) fun u counted => by
          obtain ⟨c, turned⟩ := counted.takeRedirect h.opened z g
          exact ⟨_, turned, h.early, c, rfl⟩
      exact ⟨_, rfl, lands.mem, (congrArg (fun y : Endpoint => { y with coupler := x.coupler }) lands.ep :)⟩
    · exact (h.landsCredit is).leaves (exec_creditLand h.noService)
    · obtain ⟨_, lands, closed⟩ := h.lands is rfl (P := fun y => y.st = .peerClosed ∧ y.pstate = q ∧ y.cause = k ∧ y.inbox = [])
        fun u counted => by
          obtain ⟨y, taken, st, pstate, cause, inbox, early⟩ := counted.takeClose h.opened q k
          exact ⟨y, taken, early, st, pstate, cause, inbox⟩
      exact ⟨_, exec_closeNoticeLand h.noService, by rw [lands.ep]; exact closed⟩
  case forwarding =>
    have freed {y : Endpoint} (is : y = { gen := (x.gen + 1) % 256 }) : y.st = .free ∧ y.gen = (x.gen + 1) % 256 := is ▸ ⟨rfl, rfl⟩
    exact ⟨fun is => ⟨landFlit s f, rfl, freed (landFlit_ack noPush fits forwards is)⟩,
      fun z g is => (landFlit_adopted noPush fits forwards early is).leaves rfl,
      fun is => ⟨landFlit s f, rfl, freed (landFlit_abort noPush fits forwards is)⟩⟩
  case stale => exact ⟨_, exec_land plain ev mem, landFlit_stale noPush fits⟩
  case idle => exact congrArg Host.Outcome.next (deposit_idle idle)
  case deposit =>
    rintro ⟨_, _, l⟩ g mt b ms t place bound opened reg owner inbox waiting due here edge empty real
    cases place
    have h : Deposits s e l g mt b ms t := ⟨bound, opened, reg, owner, inbox, waiting, due, here, edge, empty⟩
    exact ⟨_, rfl, h.full real, h.wake, h.ctx, h.ep.ep, h.ep.mem⟩

end Sys2Proof.Machine
end

section
/-! The integer lane forms and the movement forms (R139, R140): those under a mask cite what the shared forms give; VSEL, VCOMPRESS, VEXTR and
VINS, which have no such mask, are given here. -/

namespace Sys2Proof.Machine

/-- The lane of the vector that a mask chooses is the lane chosen (R140). -/
theorem eltAt_ite (t : Ty) (p : Prop) [Decidable p] (x y : VVal) (j : Nat) :
    eltAt t (if p then x else y) j = elemBits t (if p then laneAt t.width x j else laneAt t.width y j) := by
  rw [eltAt, apply_ite (laneAt t.width · j)]

section
variable {s : State} {h : Hdr} {t : Ty} {d a b : VIx} {g y : SIx} {k : KIx}

theorem exec_vsel (hr : Ready s h [.v a, .v b, .k k] [.v d] false) :
    Results s h [.v a, .v b] 4 [(.v d, packLanes t.width ((List.range (laneCount t.width)).map fun j =>
        elemBits t (if (rk (me s) k).getLsbD j then laneAt t.width (rv (me s) a) j else laneAt t.width (rv (me s) b) j)))]
      (exec (.vsel h t d a b k) s) := by
  simp only [← eltAt_ite]
  exact runForm_results _ _ s _ _ _ hr rfl
theorem exec_vcompress (hr : Ready s h [.v a, .k k] [.v d] false) :
    Results s h [.v a] 4 [(.v d, packLanes t.width
        (((List.range (laneCount t.width)).filter (laneOn (me s) k)).map (eltAt t (rv (me s) a))))]
      (exec (.vcompress h t k d a) s) :=
  runForm_results _ _ s _ _ _ hr rfl
theorem exec_vextr_outside (hr : Ready s h [.v a, .s y] [.s g] false) (out : laneCount t.width ≤ (rs (me s) y).toNat) :
    Faults s fOperand 0 (rs (me s) y) (exec (.vextr h t g a y) s) :=
  runForm_trap _ _ s _ _ _ hr (if_pos out)
theorem exec_vextr_lane (hr : Ready s h [.v a, .s y] [.s g] false) (lane : (rs (me s) y).toNat < laneCount t.width) :
    Results s h [.v a, .s y] 4 [(.s g, sval (redOut t (eltAt t (rv (me s) a) (rs (me s) y).toNat)))] (exec (.vextr h t g a y) s) :=
  runForm_results _ _ s _ _ _ hr (if_neg lane.not_ge)
theorem exec_vins_outside (hr : Ready s h [.s g, .s y, .v d] [.v d] false) (out : laneCount t.width ≤ (rs (me s) y).toNat) :
    Faults s fOperand 0 (rs (me s) y) (exec (.vins h t d g y) s) :=
  runForm_trap _ _ s _ _ _ hr (if_pos out)
theorem exec_vins_lane (hr : Ready s h [.s g, .s y, .v d] [.v d] false) (lane : (rs (me s) y).toNat < laneCount t.width) :
    Results s h [.s g, .s y, .v d] 4 [(.v d, packLanes t.width ((List.range (laneCount t.width)).map fun j =>
        if j = (rs (me s) y).toNat then elemBits t ((rs (me s) g).toNat % 2 ^ t.width) else laneAt t.width (rv (me s) d) j))]
      (exec (.vins h t d g y) s) :=
  runForm_results _ _ s _ _ _ hr (if_neg lane.not_ge)
end

/-- Settles O28, form by form. -/
theorem integerAndMoveLaneResults : Obligations.IntegerAndMoveLaneResults := by
  intro s h t sat m d a b g y k w M A B E lanes
  refine ⟨fun hr => ?integer, fun hr => ?vmov, fun hr => ?vbcast, fun hr => ?viota, exec_vsel, exec_vcompress,
    fun hr => ⟨exec_vextr_outside hr, exec_vextr_lane hr⟩, fun hr => ⟨exec_vins_outside hr, exec_vins_lane hr⟩⟩
  case integer =>
    intro two fit
    have form (i : Instr) (op : Nat → Nat → Nat) :
        Results s h ([.v a, .v b] ++ M) 4 [(.v d, underMask (me s) w m d fun j => op (A j) (B j))] (intLanes i h t m d a b op s) :=
      intLanes_results i s h t m d a b op hr
    refine ⟨form _ (laneSum t sat false), form _ (laneSum t sat true), form _ fun x y => ofSigned w (intLane t x * intLane t y),
      form _ fun x y => ofSigned w (intLane t x * intLane t y / 2 ^ w), form _ fun x y => if intLane t x ≤ intLane t y then x else y,
      form _ fun x y => if intLane t x ≤ intLane t y then y else x, form _ (· &&& ·), form _ (· ||| ·), form _ (· ^^^ ·),
      form _ fun x y => x * 2 ^ (y % w) % 2 ^ w, form _ fun x y => x / 2 ^ (y % w),
      form _ fun x y => ofSigned w (intLane t x / 2 ^ (y % w)), ?vperm⟩
    exact moveLanes_results _ s h t m d [.v a, .v b] (fun c j => laneAt w (rv c a) (eltAt t (rv c b) j % laneCount w)) hr
  case vmov => exact moveLanes_results _ s h t m d [.v a] (fun c j => laneAt w (rv c a) j) hr
  case vbcast => exact moveLanes_results _ s h t m d [.s g] (fun c _ => (rs c g).toNat % 2 ^ w) hr
  case viota => exact moveLanes_results _ s h t m d [] (fun _ j => j) hr

end Sys2Proof.Machine
end

section
/-! What the message forms share: the strainer step by step (R167), and what a form does that it refuses (R155, R175). -/

namespace Sys2Proof.Machine

/-! ### The strainer (R167) -/

section
variable {s : State} {ep : EIx} {active : Bool} {lim : Endpoint → Option Word} {find : PImage → Nat → Option Trans}

theorem strain_notOwned (no : ownsEp s s.cur (me s).uid ep.toNat = false) :
    strain s s.cur (me s) ep active lim find = .no (notOwned ep.toNat) := by simp [strain, no]
theorem strain_peerClosed (owned : ownsEp s s.cur (me s).uid ep.toNat = true) (closed : (epAt s (ownEp s.cur ep)).st = .peerClosed) :
    strain s s.cur (me s) ep active lim find = .closed (epAt s (ownEp s.cur ep)) := by simp [strain, owned, closed]
theorem strain_notOpen (owned : ownsEp s s.cur (me s).uid ep.toNat = true) (some : (epAt s (ownEp s.cur ep)).st ≠ .peerClosed)
    (shut : (epAt s (ownEp s.cur ep)).st ≠ .opened) :
    strain s s.cur (me s) ep active lim find = .no (.trap fClosed 0 (refusedAux s ep 2)) := by
  simp [strain, owned, some, shut, refusedAux, strainAux]
theorem strain_limited {aux : Word} (own : OwnOpen s ep) (limited : lim (epAt s (ownEp s.cur ep)) = some aux) :
    strain s s.cur (me s) ep active lim find = .no (.trap fOperand 0 aux) := by
  obtain ⟨owned, opened⟩ := own
  simp [strain, owned, opened, limited]
theorem strain_packetElsewhere (own : OwnOpen s ep) (free : lim (epAt s (ownEp s.cur ep)) = none)
    (elsewhere : ∃ y, (me s).packet = some y ∧ y.1 ≠ ep.toNat) :
    strain s s.cur (me s) ep true lim find = .no (.trap fOperand 0 (refusedAux s ep 5)) := by
  obtain ⟨owned, opened⟩ := own
  obtain ⟨y, packet, other⟩ := elsewhere
  simp [strain, owned, opened, free, packet, other, refusedAux, strainAux]
/-- With nothing in the way, the edge of step 6 decides: the image has no errors to be found. -/
theorem strain_edge (own : OwnOpen s ep) (free : lim (epAt s (ownEp s.cur ep)) = none)
    (packet : active = true → ∀ y, (me s).packet = some y → y.1 = ep.toNat) (clean : (here s).errs = []) :
    strain s s.cur (me s) ep active lim find = (find (epImg s ep) (epAt s (ownEp s.cur ep)).q).elim
      (.no (.trap fProtocol 0 (refusedAux s ep 6))) (.edge s (epAt s (ownEp s.cur ep))) := by
  obtain ⟨owned, opened⟩ := own
  have here_ : (active && ((me s).packet.any fun p => p.1 ≠ ep.toNat)) = false := by
    cases active with
    | false => rfl
    | true =>
      cases is : (me s).packet with
      | none => rfl
      | some y => simp [packet rfl y is]
  have read : readImg s s.cur (me s) (epAt s (ownEp s.cur ep)).img = (s, false) := by
    simp only [readImg, consume_clean _ _ _ _ _ _ clean, Option.isSome_none]
  unfold strain
  simp only [owned, opened, free, here_, read, Bool.not_true, Bool.false_eq_true, reduceCtorEq, if_false, not_true_eq_false, ne_eq]
  change (match find (epImg s ep) (epAt s (ownEp s.cur ep)).q with | none => _ | some t => _) = _
  cases find (epImg s ep) (epAt s (ownEp s.cur ep)).q <;> rfl
end

theorem OpenEp.ownOpen {s : State} {ep : EIx} (h : OpenEp s ep) : OwnOpen s ep := ⟨h.owned, h.opened⟩

/-! ### A form that the strainer refuses, or that finds its endpoint closed -/

section
variable {s : State} {f : Form} {body : State → SlotRef → Ctx → Act} {ep : EIx} {active : Bool} {lim : Endpoint → Option Word}
  {find : PImage → Nat → Option Trans} (hr : Ready s f.h f.srcs f.dsts f.rgn)
  (refuses : ∀ a, strain s s.cur (me s) ep active lim find = .no a → body s s.cur (me s) = a)
include hr refuses

theorem runForm_strained {l : Nat} {ls : List Reg} {closed : Endpoint → List (Reg × VVal)}
    (closes : ∀ x, strain s s.cur (me s) ep active lim find = .closed x → body s s.cur (me s) = results s s.cur (me s) ls l (closed x)) :
    Strained s f.h ep (l + slowBy ls) (closed (epAt s (ownEp s.cur ep))) (runForm f body s) :=
  ⟨fun no => runForm_trap f body s _ _ _ hr (refuses _ (strain_notOwned no)), fun owned =>
    ⟨fun closed => runForm_results f body s l ls _ hr (closes _ (strain_peerClosed owned closed)),
     fun some shut => runForm_trap f body s _ _ _ hr (refuses _ (strain_notOpen owned some shut))⟩⟩
theorem runForm_limited {aux : Word} (own : OwnOpen s ep) (limited : lim (epAt s (ownEp s.cur ep)) = some aux) :
    Faults s 0x03 0 aux (runForm f body s) := runForm_trap f body s _ _ _ hr (refuses _ (strain_limited own limited))
theorem runForm_noEdge (own : OwnOpen s ep) (free : lim (epAt s (ownEp s.cur ep)) = none)
    (packet : active = true → ∀ y, (me s).packet = some y → y.1 = ep.toNat)
    (none : find (epImg s ep) (epAt s (ownEp s.cur ep)).q = none) : Faults s 0x0A 0 (refusedAux s ep 6) (runForm f body s) :=
  runForm_trap f body s _ _ _ hr (refuses _ (by rw [strain_edge own free packet hr.clean, none]; rfl))
end

end Sys2Proof.Machine
end

section
/-! SEND, SENDV and SELECT (R168 to R175): what a piece leaves of its endpoint, and the forms case by case. -/

namespace Sys2Proof.Machine

/-! ### What a piece leaves of its endpoint (R170, R172) -/

theorem pieces_length (n : Nat) (l : List Byte) (enough : l.length ≤ n) : (pieces n l).length = max 1 (ceilDiv l.length 32) := by
  induction n generalizing l with
  | zero =>
    have none : l.length = 0 := by omega
    simp [pieces, none, ceilDiv]
  | succ n ih =>
    unfold pieces
    split
    next short => simp only [List.length_singleton, ceilDiv]; omega
    next long =>
      rw [List.length_cons, ih _ (by rw [List.length_drop]; omega), List.length_drop]
      simp only [ceilDiv]
      omega

section
variable {s t : State} {e : EpRef} {y : Endpoint} (h : EpIs s e y t)
include h

theorem EpIs.sendSeqs {α : Type} (body : α → ChBody) (l : List α) :
    EpIs s e { y with txSeq := y.txSeq + l.length } (l.foldl (fun u a => Machine.sendSeq u e (body a)) t) := by
  induction l generalizing t y with
  | nil => exact h
  | cons a l ih =>
    have rest := ih (h.sendSeq (body a))
    rwa [show y.txSeq + 1 + l.length = y.txSeq + (a :: l).length by rw [List.length_cons]; omega] at rest
theorem EpIs.sendData (mt : Nat) (b : List Byte) (fin : Bool) :
    EpIs s e { y with txSeq := y.txSeq + max 1 (ceilDiv b.length 32) } (Machine.sendData t e mt b fin) := by
  have count : (pieces b.length b).zipIdx.length = max 1 (ceilDiv b.length 32) := by rw [List.length_zipIdx, pieces_length _ _ le_rfl]
  rw [← count]
  exact h.sendSeqs (fun a : List Byte × Nat => .data mt a.1 (fin && a.2 + 1 = (pieces b.length b).length)) _
theorem EpIs.countSent : ∃ n, EpIs s e { y with unread := n } (Machine.countSent t e) := by
  unfold Machine.countSent
  split
  · exact ⟨y.unread, h⟩
  · exact ⟨y.unread + 1, h.thenModEp fun x => { x with unread := x.unread + 1 }⟩
end
theorem SameEps.modCtx (s : State) (r : SlotRef) (f : Ctx → Ctx) : SameEps s (modCtx s r f) := .modSlot ..

/-- The last piece closes the packet and moves the state (R170, R172). -/
theorem sendPiece_last (s : State) (r : SlotRef) (e : EpRef) (t : Trans) (mt : Nat) (b : List Byte) : ∃ n, EpIs s e
    { epAt s e with txSeq := (epAt s e).txSeq + max 1 (ceilDiv b.length 32), pkt := none, q := t.next, unread := n }
    (sendPiece s r e t mt b true) :=
  (((EpIs.sendData ⟨rfl, rfl⟩ mt b true).after (.modCtx _ r _)).thenModEp fun x => { x with pkt := none, q := t.next }).countSent
/-- Any other piece leaves the packet open and the state as it is (R170, R172). -/
theorem sendPiece_more (s : State) (r : SlotRef) (e : EpRef) (t : Trans) (mt : Nat) (b : List Byte) : ∃ k, EpIs s e
    { epAt s e with txSeq := (epAt s e).txSeq + max 1 (ceilDiv b.length 32), pkt := some k } (sendPiece s r e t mt b false) :=
  ⟨_, ((EpIs.sendData ⟨rfl, rfl⟩ mt b false).after (.modCtx _ r _)).thenModEp fun x => { x with pkt := some _ }⟩
/-- SELECT takes one number and moves the state (R174). -/
theorem select_sent (s : State) (e : EpRef) (lbl q : Nat) : ∃ n, EpIs s e
    { epAt s e with txSeq := (epAt s e).txSeq + 1, q := q, unread := n }
    (countSent (modEp (sendSeq s e (.label lbl)) e fun x => { x with q := q }) e) :=
  ((EpIs.sendSeq ⟨rfl, rfl⟩ (.label lbl)).thenModEp fun x => { x with q := q }).countSent

/-! ### SEND and SENDV (R168 to R172) -/

/-- A send without REL waits for nothing (R294). -/
theorem releaseOk_rel {s : State} {r : SlotRef} {uid : Nat} {rel : Bool} {n : Node} :
    releaseOk s r uid (if rel then .dom else .slot) n = true ↔ rel = false ∨ releaseOk s r uid .dom n = true := by
  cases rel <;> simp [releaseOk]
theorem OpenEp.packetHere {s : State} {ep : EIx} (h : OpenEp s ep) (active : Bool) :
    active = true → ∀ y, (me s).packet = some y → y.1 = ep.toNat := fun _ => h.packet

/-- Step 4 for SEND and SENDV: whether their length fits (R168). -/
abbrev sendLim (ep : EIx) (fits : Bool) (x : Endpoint) : Option Word := if fits then none else some (strainAux ep.toNat x.q 4)

section
variable {s : State} {f : Form} {body : State → SlotRef → Ctx → Act} {S : List Reg} {ep : EIx} {mt : BitVec 6} {fin rel : Bool}
  {p : BitVec 3} {n : Nat} {fits : Bool} {b : List Byte}
  (is : body s s.cur (me s) = sendAct S ep mt fin rel p n fits b s s.cur (me s))
include is

theorem send_refuses (a : Act) (no : strain s s.cur (me s) ep true (sendLim ep fits) (fun m q => m.edge q .send mt.toNat) = .no a) :
    body s s.cur (me s) = a := by
  rw [is]
  simp only [sendAct, no]
variable (hr : Ready s f.h f.srcs f.dsts f.rgn)
include hr

theorem send_strained : Strained s f.h ep (3 + slowBy S) (pRes p false) (runForm f body s) := by
  refine runForm_strained hr (send_refuses is) (closed := fun _ => pRes p false) fun x closed => ?_
  rw [is]
  simp only [sendAct, closed]
  rfl
theorem send_unfit (own : OwnOpen s ep) (no : fits = false) : Faults s 0x03 0 (refusedAux s ep 4) (runForm f body s) :=
  runForm_limited hr (send_refuses is) own (by rw [no]; rfl)
variable (some : fits = true)
include some

theorem send_elsewhere (own : OwnOpen s ep) (elsewhere : ∃ y, (me s).packet = .some y ∧ y.1 ≠ ep.toNat) :
    Faults s 0x03 0 (refusedAux s ep 5) (runForm f body s) :=
  runForm_trap f body s _ _ _ hr (send_refuses is _ (strain_packetElsewhere own (if_pos some) elsewhere))
variable (own : OpenEp s ep)
include own

theorem send_noEdge (none : (epImg s ep).edge (epAt s (ownEp s.cur ep)).q .send mt.toNat = none) :
    Faults s 0x0A 0 (refusedAux s ep 6) (runForm f body s) :=
  runForm_noEdge hr (send_refuses is) own.ownOpen (if_pos some) (own.packetHere true) none
variable {t : Trans} (edge : (epImg s ep).edge (epAt s (ownEp s.cur ep)).q .send mt.toNat = .some t)
include edge

/-- What the body does once the strainer has found the edge. -/
theorem send_edge : body s s.cur (me s) =
    if !pieceOk (epAt s (ownEp s.cur ep)) t mt.toNat n fin then .trap fProtocol 0 (refusedAux s ep 7)
    else if (epAt s (ownEp s.cur ep)).pkt.isNone && windowShut s (ownEp s.cur ep) then chPark
    else release s s.cur (me s) (if rel then .dom else .slot) s.cur.node
      (results (sendPiece s s.cur (ownEp s.cur ep) t mt.toNat b fin) s.cur (me s) S 3 (pRes p true)) := by
  rw [is]
  simp only [sendAct, strain_edge own.ownOpen (lim := sendLim ep fits) (if_pos some) (own.packetHere true) hr.clean, edge]
  rfl
theorem send_badPiece (bad : pieceOk (epAt s (ownEp s.cur ep)) t mt.toNat n fin = false) :
    Faults s 0x0A 0 (refusedAux s ep 7) (runForm f body s) :=
  runForm_trap f body s _ _ _ hr (by rw [send_edge is hr some own edge, bad]; rfl)
variable (ok : pieceOk (epAt s (ownEp s.cur ep)) t mt.toNat n fin = true)
include ok

theorem send_shut (first : (epAt s (ownEp s.cur ep)).pkt = none) (shut : windowShut s (ownEp s.cur ep) = true) :
    ChWaits s f.h f.i (runForm f body s) :=
  runForm_cond f body s 5 0 0 hr (by rw [send_edge is hr some own edge, ok, first, shut]; rfl)
variable (may : (epAt s (ownEp s.cur ep)).pkt ≠ none ∨ ¬ windowShut s (ownEp s.cur ep) = true)
include may

theorem send_open : body s s.cur (me s) = release s s.cur (me s) (if rel then .dom else .slot) s.cur.node
    (results (sendPiece s s.cur (ownEp s.cur ep) t mt.toNat b fin) s.cur (me s) S 3 (pRes p true)) := by
  have goes : ((epAt s (ownEp s.cur ep)).pkt.isNone && windowShut s (ownEp s.cur ep)) = false := by
    rcases may with more | unshut
    · rw [Option.isNone_eq_false_iff.2 (Option.isSome_iff_ne_none.2 more), Bool.false_and]
    · rw [Bool.eq_false_of_not_eq_true unshut, Bool.and_false]
  rw [send_edge is hr some own edge, ok, goes]
  rfl
theorem send_waits (before : ¬ (rel = false ∨ releaseOk s s.cur (me s).uid .dom s.cur.node = true)) :
    RelWaits s f.h f.i (runForm f body s) :=
  runForm_cond f body s 0 0 0 hr (by rw [send_open is hr some own edge ok may, release, if_neg fun free => before (releaseOk_rel.1 free)])
theorem send_sends (performed : rel = false ∨ releaseOk s s.cur (me s).uid .dom s.cur.node = true) :
    ResultsIn s f.h (sendPiece s s.cur (ownEp s.cur ep) t mt.toNat b fin) S 3 (pRes p true) (runForm f body s) :=
  runForm_done f body s _ hr (by rw [send_open is hr some own edge ok may, release, if_pos (releaseOk_rel.2 performed)]; rfl)
end

/-! ### SELECT (R174) -/

/-- A form for which step 4 of the strainer checks nothing. -/
abbrev noLim (_ : Endpoint) : Option Word := none
/-- The edge that SELECT takes (R174). -/
abbrev selectEdge (lbl : BitVec 2) (m : PImage) (q : Nat) : Option Trans := m.labEdge q .select lbl.toNat

section
variable {s : State} {h : Hdr} {ep : EIx} {lbl : BitVec 2} {rel : Bool} {p : BitVec 3} (hr : Ready s h [] (pDst p) false)
include hr

theorem select_strained : Strained s h ep 3 (pRes p false) (exec (.select h ep lbl rel p) s) :=
  runForm_strained hr (active := true) (lim := noLim) (find := selectEdge lbl) (fun a no => by simp only [no])
    (ls := []) (closed := fun _ => pRes p false) fun x closed => by simp only [closed]; rfl
variable (own : OpenEp s ep)
include own

theorem select_noEdge (none : (epImg s ep).labEdge (epAt s (ownEp s.cur ep)).q .select lbl.toNat = none) :
    Faults s 0x0A 0 (refusedAux s ep 6) (exec (.select h ep lbl rel p) s) :=
  runForm_noEdge hr (lim := noLim) (find := selectEdge lbl) (fun a no => by simp only [no]) own.ownOpen rfl (own.packetHere true) none
variable {t : Trans} (edge : (epImg s ep).labEdge (epAt s (ownEp s.cur ep)).q .select lbl.toNat = some t)
include edge

omit hr in
theorem select_strain (clean : (here s).errs = []) :
    strain s s.cur (me s) ep true noLim (selectEdge lbl) = .edge s (epAt s (ownEp s.cur ep)) t := by
  rw [strain_edge own.ownOpen rfl (own.packetHere true) clean, selectEdge, edge]
  rfl
theorem select_inPacket (inside : (epAt s (ownEp s.cur ep)).pkt ≠ none) :
    Faults s 0x0A 0 (refusedAux s ep 7) (exec (.select h ep lbl rel p) s) :=
  runForm_trap _ _ s _ _ _ hr (by
    simp only [select_strain own edge hr.clean, Option.isSome_iff_ne_none.2 inside, if_true]
    rfl)
variable (outside : (epAt s (ownEp s.cur ep)).pkt = none)
include outside

theorem select_shut (shut : windowShut s (ownEp s.cur ep) = true) :
    ChWaits s h (.select h ep lbl rel p) (exec (.select h ep lbl rel p) s) :=
  runForm_cond _ _ s 5 0 0 hr (by
    simp only [select_strain own edge hr.clean, outside, shut]
    rfl)
variable (unshut : ¬ windowShut s (ownEp s.cur ep) = true)
include unshut

theorem select_waits (before : ¬ (rel = false ∨ releaseOk s s.cur (me s).uid .dom s.cur.node = true)) :
    RelWaits s h (.select h ep lbl rel p) (exec (.select h ep lbl rel p) s) :=
  runForm_cond _ _ s 0 0 0 hr (by
    simp only [select_strain own edge hr.clean, outside, unshut, release, if_neg fun free => before (releaseOk_rel.1 free)]
    rfl)
theorem select_sends (performed : rel = false ∨ releaseOk s s.cur (me s).uid .dom s.cur.node = true) :
    ResultsIn s h (countSent (modEp (sendSeq s (ownEp s.cur ep) (.label lbl.toNat)) (ownEp s.cur ep) fun x => { x with q := t.next })
      (ownEp s.cur ep)) [] 3 (pRes p true) (exec (.select h ep lbl rel p) s) :=
  runForm_done _ _ s _ hr (by
    simp only [select_strain own edge hr.clean, outside, unshut, release, if_pos (releaseOk_rel.2 performed)]
    rfl)
end

theorem length_sendBytes (c : Ctx) (a : SIx) (n : Nat) :
    (((List.range (ceilDiv n 8)).flatMap fun k => bytesOfNat 8 (rs c (sNext a k)).toNat).take n).length = n := by
  simp only [List.length_take, List.length_flatMap, bytesOfNat_length, List.map_const', List.length_range, List.sum_replicate, ceilDiv, smul_eq_mul]
  omega

/-- Settles O35: SEND and SENDV case by case with what their piece leaves of the endpoint, and SELECT in the same way. -/
theorem sendFormsPassTheStrainer : Obligations.SendFormsPassTheStrainer := by
  unfold Obligations.SendFormsPassTheStrainer
  intro s h ep mt fin rel p len a v lbl c e x n shut ok form
  have sends (i : Instr) (body : State → SlotRef → Ctx → Act) (S : List Reg) (fits : Prop) (d : Bool) (b : List Byte)
      (run : exec i s = runForm { i := i, h := h, srcs := S, dsts := pDst p, early := true } body s) (decides : (d = true) = fits)
      (length : fits → b.length = n) (is : body s s.cur (me s) = sendAct S ep mt fin rel p n d b s s.cur (me s)) : form i S fits b := by
    subst decides
    intro hr
    dsimp only
    rw [run]
    refine ⟨send_strained is hr, fun own => ⟨fun no => send_unfit is hr own (Bool.eq_false_of_not_eq_true no),
      fun some => send_elsewhere is hr some own⟩, fun some own => ⟨send_noEdge is hr some own, fun t edge =>
      ⟨send_badPiece is hr some own edge, fun good => ⟨send_shut is hr some own edge good, send_waits is hr some own edge good,
        fun may performed => ⟨send_sends is hr some own edge good may performed, ?_⟩⟩⟩⟩⟩
    cases fin with
    | true =>
      obtain ⟨_, sent⟩ := sendPiece_last s s.cur e t mt.toNat b
      rw [length some] at sent
      exact ⟨sent.mem, by rw [sent.ep], fun _ => by rw [sent.ep]; exact ⟨rfl, rfl⟩, nofun⟩
    | false =>
      obtain ⟨_, sent⟩ := sendPiece_more s s.cur e t mt.toNat b
      rw [length some] at sent
      exact ⟨sent.mem, by rw [sent.ep], nofun, fun _ => by rw [sent.ep]; exact ⟨rfl, rfl⟩⟩
  refine ⟨sends _ _ _ _ (n ≤ 32 && a.toNat + ceilDiv n 8 ≤ 64) _ rfl (by simp) (fun _ => length_sendBytes c a n) rfl,
    sends _ _ _ _ (n ≤ 256) _ rfl (by simp) (fun fits => ?_) rfl,
    fun hr => ⟨select_strained hr, fun own => ⟨select_noEdge hr own, fun t edge =>
      ⟨select_inPacket hr own edge, select_shut hr own edge, select_waits hr own edge,
        fun outside unshut performed => ⟨select_sends hr own edge outside unshut performed, ?_⟩⟩⟩⟩⟩
  · rw [List.length_take, bytesOfNat_length, min_eq_left fits]
  · obtain ⟨_, sent⟩ := select_sent s e lbl.toNat t.next
    exact ⟨sent.mem, by rw [sent.ep], by rw [sent.ep]⟩

end Sys2Proof.Machine
end

section
/-! RECV, RECVV and OFFER (R167, R173 to R175) case by case. -/

namespace Sys2Proof.Machine

/-- The passive forms have no packet of their own to keep to (step 5 of R167). -/
theorem passive_packet {s : State} {ep : EIx} : false = true → ∀ y, (me s).packet = some y → y.1 = ep.toNat := nofun

/-! ### RECV and RECVV (R173) -/

/-- Step 4 for RECV and RECVV: whether their length fits, and no register is bound (R168, R179). -/
abbrev recvLim (ep : EIx) (fits : Bool) (x : Endpoint) : Option Word :=
  if fits && x.reg.isNone then none else some (strainAux ep.toNat x.q 4)
/-- The edge that a receive takes (R173). -/
abbrev recvEdge (mt : BitVec 6) (m : PImage) (q : Nat) : Option Trans := m.edge q .recv mt.toNat
/-- What a receive writes: the bytes, its result word and its predicate. -/
abbrev recvOut (put : List Byte → List (Reg × VVal)) (b : SIx) (p : BitVec 3) (bytes : List Byte) (w : Word) (ok : Bool) : List (Reg × VVal) :=
  put bytes ++ ([(.s b, sval w)] ++ pRes p ok)

section
variable {s : State} {f : Form} {body : State → SlotRef → Ctx → Act} {ep : EIx} {mt : BitVec 6} {p : BitVec 3} {n l : Nat} {fits : Bool}
  {b : SIx} {put : List Byte → List (Reg × VVal)}
  (is : body s s.cur (me s) = recvAct ep mt p n l fits b put s s.cur (me s))
include is

theorem recv_refuses (a : Act) (no : strain s s.cur (me s) ep false (recvLim ep fits) (recvEdge mt) = .no a) : body s s.cur (me s) = a := by
  rw [is]
  simp only [recvAct, no]
variable (hr : Ready s f.h f.srcs f.dsts f.rgn)
include hr

theorem recv_strained :
    Strained s f.h ep l (recvOut put b p [] (closedWord (epAt s (ownEp s.cur ep))) false) (runForm f body s) := by
  refine runForm_strained hr (recv_refuses is) (ls := []) (closed := fun x => recvOut put b p [] (closedWord x) false) fun x closed => ?_
  rw [is]
  simp only [recvAct, closed, List.append_assoc]
variable (own : OwnOpen s ep)
include own

theorem recv_unfit (no : ¬ fits = true ∨ (epAt s (ownEp s.cur ep)).reg.isSome = true) :
    Faults s 0x03 0 (refusedAux s ep 4) (runForm f body s) := by
  refine runForm_limited hr (recv_refuses is) own (if_neg ?_)
  rw [Bool.and_eq_true, Option.isNone_iff_eq_none]
  exact fun both => no.elim (fun unfit => unfit both.1) fun bound => by rw [both.2] at bound; cases bound
variable (some : fits = true) (unbound : (epAt s (ownEp s.cur ep)).reg = none)
include some unbound

omit is hr own in
theorem recvLim_none : recvLim ep fits (epAt s (ownEp s.cur ep)) = none := if_pos (by rw [some, unbound]; rfl)
theorem recv_noEdge (none : (epImg s ep).edge (epAt s (ownEp s.cur ep)).q .recv mt.toNat = none) :
    Faults s 0x0A 0 (refusedAux s ep 6) (runForm f body s) :=
  runForm_noEdge hr (recv_refuses is) own (recvLim_none some unbound) passive_packet none
variable {t : Trans} (edge : (epImg s ep).edge (epAt s (ownEp s.cur ep)).q .recv mt.toNat = .some t)
include edge

omit is in
theorem recv_strain : strain s s.cur (me s) ep false (recvLim ep fits) (recvEdge mt) = .edge s (epAt s (ownEp s.cur ep)) t := by
  rw [strain_edge own (recvLim_none some unbound) passive_packet hr.clean, recvEdge, edge]
  rfl
theorem recv_empty (empty : (epAt s (ownEp s.cur ep)).inbox = []) : ChWaits s f.h f.i (runForm f body s) :=
  runForm_cond f body s 5 0 0 hr (by
    rw [is]
    simp only [recvAct, recv_strain hr own some unbound edge, empty]
    rfl)
variable {m : ChMsg} {rest : List ChMsg}

theorem recv_declines (head : (epAt s (ownEp s.cur ep)).inbox = m :: rest) (other : ∀ y, m ≠ .data mt.toNat y) :
    Results s f.h [] l (recvOut put b p [] (declinedWord m) false) (runForm f body s) := by
  refine runForm_results f body s l [] _ hr ?_
  rw [is]
  simp only [recvAct, recv_strain hr own some unbound edge, head]
  cases m with
  | data ty y =>
    have type : ty ≠ mt.toNat := fun same => other y (by rw [same])
    simp only [if_pos type, List.append_assoc]
  | label | deleg => simp only [List.append_assoc]
variable {y : List Byte} (head : (epAt s (ownEp s.cur ep)).inbox = .data mt.toNat y :: rest)
include head

theorem recv_takesAll (all : (epAt s (ownEp s.cur ep)).cursor + min n (y.length - (epAt s (ownEp s.cur ep)).cursor) = y.length) :
    ResultsIn s f.h (finishHead s (ownEp s.cur ep) t.next) [] l
      (recvOut put b p ((y.drop (epAt s (ownEp s.cur ep)).cursor).take (min n (y.length - (epAt s (ownEp s.cur ep)).cursor)))
        (BitVec.ofNat 64 (2 ^ 16 + min n (y.length - (epAt s (ownEp s.cur ep)).cursor))) true) (runForm f body s) := by
  refine runForm_done f body s _ hr ?_
  rw [is]
  simp only [recvAct, recv_strain hr own some unbound edge, head, all, ne_eq, not_true_eq_false, if_false, decide_true, if_true, List.append_assoc]
  rfl
theorem recv_takesPart (part : (epAt s (ownEp s.cur ep)).cursor + min n (y.length - (epAt s (ownEp s.cur ep)).cursor) ≠ y.length) :
    ResultsIn s f.h (modEp s (ownEp s.cur ep) fun x => { x with
        cursor := x.cursor + min n (y.length - (epAt s (ownEp s.cur ep)).cursor) }) [] l
      (recvOut put b p ((y.drop (epAt s (ownEp s.cur ep)).cursor).take (min n (y.length - (epAt s (ownEp s.cur ep)).cursor)))
        (BitVec.ofNat 64 (min n (y.length - (epAt s (ownEp s.cur ep)).cursor))) true) (runForm f body s) := by
  refine runForm_done f body s _ hr ?_
  rw [is]
  simp only [recvAct, recv_strain hr own some unbound edge, head, decide_eq_false part, ne_eq, not_true_eq_false, if_false, Bool.false_eq_true,
    List.append_assoc]
  rw [show ∀ k, takenWord false k = BitVec.ofNat 64 k from fun k => by simp [takenWord]]
  rfl
end

/-! ### OFFER (R174) -/

/-- The edge that OFFER takes (R174). -/
abbrev offerEdge (lbl : BitVec 2) (m : PImage) (q : Nat) : Option Trans := m.labEdge q .offer lbl.toNat
/-- What OFFER writes: its result word and its predicate. -/
abbrev offerOut (b : SIx) (p : BitVec 3) (w : Word) (ok : Bool) : List (Reg × VVal) := [(.s b, sval w)] ++ pRes p ok

section
variable {s : State} {h : Hdr} {ep : EIx} {lbl : BitVec 2} {p : BitVec 3} {b : SIx} (hr : Ready s h [] (wordDst b ++ pDst p) false)
include hr

theorem offer_strained :
    Strained s h ep 3 (offerOut b p (closedWord (epAt s (ownEp s.cur ep))) false) (exec (.offer h ep lbl p b) s) :=
  runForm_strained hr (active := false) (lim := noLim) (find := offerEdge lbl) (fun a no => by simp only [no])
    (ls := []) (closed := fun x => offerOut b p (closedWord x) false) fun x closed => by simp only [closed]
variable (own : OwnOpen s ep)
include own

theorem offer_noEdge (none : (epImg s ep).labEdge (epAt s (ownEp s.cur ep)).q .offer lbl.toNat = none) :
    Faults s 0x0A 0 (refusedAux s ep 6) (exec (.offer h ep lbl p b) s) :=
  runForm_noEdge hr (lim := noLim) (find := offerEdge lbl) (fun a no => by simp only [no]) own rfl passive_packet none
variable {t : Trans} (edge : (epImg s ep).labEdge (epAt s (ownEp s.cur ep)).q .offer lbl.toNat = some t)
include edge

omit hr in
theorem offer_strain (clean : (here s).errs = []) :
    strain s s.cur (me s) ep false noLim (offerEdge lbl) = .edge s (epAt s (ownEp s.cur ep)) t := by
  rw [strain_edge own rfl passive_packet clean, offerEdge, edge]
  rfl
theorem offer_empty (empty : (epAt s (ownEp s.cur ep)).inbox = []) :
    ChWaits s h (.offer h ep lbl p b) (exec (.offer h ep lbl p b) s) :=
  runForm_cond _ _ s 5 0 0 hr (by
    simp only [offer_strain own edge hr.clean, empty]
    rfl)
variable {m : ChMsg} {rest : List ChMsg}

theorem offer_declines (head : (epAt s (ownEp s.cur ep)).inbox = m :: rest) (other : m ≠ .label lbl.toNat) :
    Results s h [] 3 (offerOut b p (declinedWord m) false) (exec (.offer h ep lbl p b) s) :=
  runForm_results _ _ s 3 [] _ hr (by simp only [offer_strain own edge hr.clean, head, if_neg other])
theorem offer_takes (head : (epAt s (ownEp s.cur ep)).inbox = .label lbl.toNat :: rest) :
    ResultsIn s h (askDeposit (finishHead s (ownEp s.cur ep) t.next) (ownEp s.cur ep) s.now) [] 3
      (offerOut b p (BitVec.ofNat 64 (2 ^ 16 + lbl.toNat)) true) (exec (.offer h ep lbl p b) s) :=
  runForm_done _ _ s _ hr (by
    simp only [offer_strain own edge hr.clean, head, if_true]
    rfl)
end

/-! ### The head message leaves the buffer (R173) -/

theorem SameEps.sendCredit (s : State) (e : EpRef) : SameEps s (sendCredit s e) := by
  unfold Machine.sendCredit
  split
  · exact .refl s
  · exact .sendFlit ..
theorem finishHead_ep (s : State) (e : EpRef) (q : Nat) : EpIs s e
    { epAt s e with inbox := (epAt s e).inbox.tail, cursor := 0, deposited := false, q := q } (finishHead s e q) :=
  (EpIs.of_modEp s e fun x => { x with inbox := x.inbox.tail, cursor := 0, deposited := false, q := q }).after (.sendCredit ..)

/-- Settles O36: RECV and RECVV case by case, and OFFER in the same way. -/
theorem receiveFormsTakeOrDecline : Obligations.ReceiveFormsTakeOrDecline := by
  unfold Obligations.ReceiveFormsTakeOrDecline
  intro s h ep mt p len d b v lbl e x n wd form
  have receives (i : Instr) (body : State → SlotRef → Ctx → Act) (D : List Reg) (l : Nat) (fits : Prop) (put : List Byte → List (Reg × VVal))
      (g : Bool) (run : exec i s = runForm { i := i, h := h, dsts := D ++ wordDst b ++ pDst p } body s) (decides : (g = true) = fits)
      (is : body s s.cur (me s) = recvAct ep mt p n l g b put s s.cur (me s)) : form i D l fits put := by
    subst decides
    intro hr
    dsimp only
    rw [run]
    exact ⟨recv_strained is hr, recv_unfit is hr, fun own fits unbound => ⟨recv_noEdge is hr own fits unbound, fun t edge =>
      ⟨recv_empty is hr own fits unbound edge, fun m rest head => recv_declines is hr own fits unbound edge head,
        fun y rest head => ⟨recv_takesAll is hr own fits unbound edge head, recv_takesPart is hr own fits unbound edge head⟩⟩⟩⟩
  refine ⟨receives (.recv h ep mt p len d b) _ _ 6 (n ≤ 32 ∧ d.toNat + ceilDiv n 8 ≤ 64) _ (n ≤ 32 && d.toNat + ceilDiv n 8 ≤ 64) rfl (by simp) rfl,
    receives (.recvv h ep mt p len v b) _ [.v v] 8 (n ≤ 256) _ (n ≤ 256) rfl (by simp) rfl,
    fun hr => ⟨offer_strained hr, fun own => ⟨offer_noEdge hr own, fun t edge =>
      ⟨offer_empty hr own edge, fun m rest head => offer_declines hr own edge head, fun rest head => offer_takes hr own edge head⟩⟩⟩,
    fun q => ?_⟩
  rw [(finishHead_ep s e q).ep]
  exact ⟨rfl, rfl, rfl⟩

end Sys2Proof.Machine
end

section
/-! Delegation and closing (R181 to R187): what the operations leave of their endpoints, and the forms case by case. -/

namespace Sys2Proof.Machine

/-! ### What closing, aborting and delegating leave of endpoints -/

theorem mem_modEp (s : State) (e : EpRef) (f : Endpoint → Endpoint) : (modEp s e f).mem = s.mem := rfl
/-- A change of one endpoint leaves every endpoint of another index. -/
theorem epAt_modEp_ne (s : State) (e e' : EpRef) (f : Endpoint → Endpoint) (other : e'.ep ≠ e.ep) : epAt (modEp s e f) e' = epAt s e' := by
  by_cases same : nodeKey e'.node = nodeKey e.node
  · have at_ (u : State) : tileAt u e'.node = tileAt u e.node := by unfold tileAt; rw [same]
    unfold epAt modEp
    rw [at_, at_, tileAt_modTile_self]
    exact aget_aset_ne _ _ _ _ _ other
  · unfold epAt modEp
    rw [tileAt_modTile_ne _ _ _ _ same]
theorem EpIs.releaseBuf {s t : State} {e : EpRef} {y : Endpoint} (h : EpIs s e y t) :
    EpIs s e { y with gran := none } (releaseBuf t e) := by
  unfold Machine.releaseBuf
  split
  next none =>
    rw [h.ep] at none
    exact ⟨h.mem, by rw [h.ep, ← none]⟩
  next a n _ =>
    extract_lets lo u
    have pool : SameEps t u := .modTile _ _ _ rfl
    have counted : SameEps u { u with freeCtr := u.freeCtr + 512 * n } := ⟨rfl, fun _ => rfl⟩
    exact (h.after (pool.trans counted)).thenModEp fun x => { x with gran := none }
/-- What a closed conversation leaves of its endpoint, its coupler apart: no message, no packet, no buffer (R185, R186). -/
theorem EpIs.cleared {s t : State} {e : EpRef} {y : Endpoint} (h : EpIs s e y t) : ∃ c, EpIs s e
    { y with inbox := [], part := none, early := [], cursor := 0, deposited := false, pkt := none, gran := none, coupler := c }
    (Machine.detachOf (Machine.releaseBuf (Machine.dropPacket (Machine.dropMsgs t e) e) e) e) := h.dropMsgs.dropPacket.releaseBuf.detachOf
/-- An endpoint made idle keeps its owner, its generation, its job and a request held at it (R185). -/
theorem idleEp_ep (s : State) (e : EpRef) : EpIs s e
    { st := .idle, owner := (epAt s e).owner, gen := (epAt s e).gen, job := (epAt s e).job, held := (epAt s e).held } (idleEp s e) := by
  have self : EpIs s e (epAt s e) s := ⟨rfl, rfl⟩
  obtain ⟨c, cleared⟩ := self.cleared
  unfold idleEp
  extract_lets u
  exact (cleared.thenModEp fun x => { st := .idle, owner := x.owner, gen := x.gen, job := x.job, held := x.held }).after (.sweepImages ..)
/-- An abort keeps the generation; where the channel stood it leaves the endpoint aborted, in the nearest recovery state (R186). -/
theorem abortEp_ep (s : State) (e : EpRef) (cause : Nat) : ∃ y, EpIs s e y (abortEp s e cause) ∧ y.gen = (epAt s e).gen ∧
    ((epAt s e).st = .opened ∨ (epAt s e).st = .peerClosed → y.st = .aborted ∧
      y.q = nearestRec (imageOf s e.node (epAt s e).img) (epAt s e).q ∧ y.cause = cause) := by
  unfold abortEp
  extract_lets x m q s1 s2 s3 s4
  split
  next closed => exact ⟨_, ⟨rfl, rfl⟩, rfl, fun stood => (stood.elim closed.1 closed.2).elim⟩
  next stood =>
    have first : EpIs s e { x with txSeq := x.resv.foldl (fun n y => min n y.2) x.txSeq, resv := [] } s1 :=
      .of_modEp s e fun x => { x with txSeq := x.resv.foldl (fun n y => min n y.2) x.txSeq, resv := [] }
    have marked : ∃ k, EpIs s e { x with txSeq := k, resv := [] } s2 := by
      unfold s2
      split
      · exact ⟨_, first.sendSeq _⟩
      · exact ⟨_, first⟩
    obtain ⟨_, marked⟩ := marked
    have told : ∃ k, EpIs s e { x with txSeq := k, resv := [] } s3 := by
      unfold s3
      split
      · exact ⟨_, marked.sendSeq _⟩
      · exact ⟨_, marked⟩
    obtain ⟨_, told⟩ := told
    obtain ⟨c, cleared⟩ := told.cleared
    exact ⟨_, (cleared.thenModEp fun x => { x with st := .aborted, q := q, cause := cause, reg := none }).after (.sweepImages ..), rfl,
      fun _ => ⟨rfl, rfl, rfl⟩⟩

/-! ### CH.CLOSE and CH.ABORT (R185, R186) -/

section
variable {s : State} {h : Hdr} {ep : EIx} (hr : Ready s h [] [] false)
include hr

theorem chClose_notOwned (no : ownsEp s s.cur (me s).uid ep.toNat = false) :
    Faults s 0x0D 0 (BitVec.ofNat 64 ep.toNat) (exec (.chClose h ep) s) :=
  runForm_trap _ _ s _ _ _ hr (by simp only [no, Bool.not_false, if_true]; rfl)
theorem chAbort_notOwned (no : ownsEp s s.cur (me s).uid ep.toNat = false) :
    Faults s 0x0D 0 (BitVec.ofNat 64 ep.toNat) (exec (.chAbort h ep) s) :=
  runForm_trap _ _ s _ _ _ hr (by simp only [no, Bool.not_false, if_true]; rfl)
variable (owned : ownsEp s s.cur (me s).uid ep.toNat = true)
include owned

theorem chAbort_done : DoneIn s h (abortEp s (ownEp s.cur ep) 0x0C) (exec (.chAbort h ep) s) :=
  runForm_done _ _ s _ hr (by simp only [owned, Bool.not_true, Bool.false_eq_true, if_false]; rfl)
theorem chClose_idle (idle : (epAt s (ownEp s.cur ep)).st = .idle) : UnitOnly s h (me s) (exec (.chClose h ep) s) :=
  (runForm_done _ _ s s hr (by simp [owned, idle])).onlyCtx' hr.bound
theorem chClose_refused (opened : (epAt s (ownEp s.cur ep)).st = .opened)
    (none : ¬ ∃ t ∈ (epImg s ep).edges (epAt s (ownEp s.cur ep)).q, t.act = .close) :
    Faults s 0x0A 0 (refusedAux s ep 6) (exec (.chClose h ep) s) := by
  have bar : (((imageOf s (ownEp s.cur ep).node (epAt s (ownEp s.cur ep)).img).edges (epAt s (ownEp s.cur ep)).q).any
      fun t => t.act = .close) = false := Bool.eq_false_of_not_eq_true fun some => by
    obtain ⟨t, mem, closes⟩ := List.any_eq_true.1 some
    exact none ⟨t, mem, of_decide_eq_true closes⟩
  exact runForm_trap _ _ s _ _ _ hr (by
    simp only [owned, opened, bar, Bool.not_true, Bool.false_eq_true, if_false, if_true]
    rfl)
theorem chClose_done (may : ((epAt s (ownEp s.cur ep)).st = .opened ∧ ∃ t ∈ (epImg s ep).edges (epAt s (ownEp s.cur ep)).q, t.act = .close) ∨
      ((epAt s (ownEp s.cur ep)).st ≠ .opened ∧ (epAt s (ownEp s.cur ep)).st ≠ .idle)) :
    DoneIn s h (idleEp s (ownEp s.cur ep)) (exec (.chClose h ep) s) := by
  refine runForm_done _ _ s _ hr ?_
  simp only [owned, Bool.not_true, Bool.false_eq_true, if_false]
  rcases may with ⟨opened, t, mem, closes⟩ | ⟨notOpened, notIdle⟩
  · have edge : (((imageOf s (ownEp s.cur ep).node (epAt s (ownEp s.cur ep)).img).edges (epAt s (ownEp s.cur ep)).q).any
        fun t => t.act = .close) = true :=
      List.any_eq_true.2 ⟨t, mem, decide_eq_true closes⟩
    simp only [opened, edge, if_true]
  · simp only [if_neg notOpened, if_neg notIdle]
end

/-! ### CH.DELEG (R181, R182) -/

/-- The endpoint of the issuing tile that a delegation form names besides its carrier. -/
abbrev localEp (s : State) (i : BitVec 7) : EpRef := ⟨s.cur.pkg, s.cur.tile, i.toNat⟩
/-- Step 4 for CH.DELEG that has not waited: why the endpoint may not be delegated (R182). -/
abbrev delegLim (s : State) (ep : EIx) (ex : BitVec 7) (_ : Endpoint) : Option Word :=
  (if (me s).park.isSome then leftBar s (localEp s ex) else delegBar s s.cur (me s) ep ex.toNat).map fun k =>
    BitVec.ofNat 64 (ep.toNat + k * 2 ^ 8)
/-- The edge that CH.DELEG takes (R182). -/
abbrev delegEdge (m : PImage) (q : Nat) : Option Trans := m.edge q .delegOut 63
/-- The state in which a delegation has left: the delegated endpoint forwards from now on, to the peer that its carrier has (R181, R182). -/
def delegated (s : State) (y x : EpRef) (next : Nat) : State :=
  let u := detachOf s x
  let z := epAt u x
  let u := sendSeq u y (.deleg (imageOf u s.cur.node z.img).digest z.q z.peer x z.peerGen z.txSeq z.rxSeq z.unread)
  let u := countSent (modEp u y fun x => { x with q := next }) y
  modEp u x fun z => { z with st := .forwarding, leaving := false, owner := none, fwd := none, parties := (epAt s y).peer.node :: z.parties }

theorem delegated_ep (s : State) (y x : EpRef) (next : Nat) (other : y.ep ≠ x.ep) :
    (delegated s y x next).mem = s.mem ∧ (epAt (delegated s y x next) x).st = .forwarding ∧ (epAt (delegated s y x next) x).owner = none ∧
    (epAt (delegated s y x next) y).q = next ∧ (epAt (delegated s y x next) y).txSeq = (epAt s y).txSeq + 1 := by
  have detached := OnlyCouplers.detachOf s x
  have number : (epAt (detachOf s x) y).txSeq = (epAt s y).txSeq := (congrArg Endpoint.txSeq (detached.ep y) :)
  unfold delegated
  extract_lets u z u1 u2
  obtain ⟨_, sent⟩ : ∃ n, EpIs u y { epAt u y with txSeq := (epAt u y).txSeq + 1, q := next, unread := n } u2 :=
    ((EpIs.sendSeq ⟨rfl, rfl⟩ _).thenModEp fun x => { x with q := next }).countSent
  rw [mem_modEp, epAt_modEp_self, epAt_modEp_ne _ _ _ _ other, sent.ep]
  exact ⟨sent.mem.trans detached.mem, rfl, rfl, rfl, by rw [number]⟩
theorem delegBar_none {s : State} {r : SlotRef} {c : Ctx} {ep : EIx} {ex : Nat} (free : delegBar s r c ep ex = none) : ep.toNat ≠ ex := by
  intro same
  rw [delegBar, if_pos same.symm] at free
  cases free

section
variable {s : State} {h : Hdr} {ep : EIx} {rel : Bool} {p : BitVec 3} {ex : BitVec 7} (hr : Ready s h [] (pDst p) false)
include hr

theorem delegLim_ready (x : Endpoint) : delegLim s ep ex x = (delegBar s s.cur (me s) ep ex.toNat).map fun k => BitVec.ofNat 64 (ep.toNat + k * 2 ^ 8) := by
  simp only [delegLim, hr.notParked, Option.isSome_none, Bool.false_eq_true, if_false]
theorem deleg_strained (stays : (epAt s (localEp s ex)).leaving = false) :
    Strained s h ep 3 (pRes p false) (exec (.chDeleg h ep rel p ex) s) :=
  runForm_strained hr (active := true) (lim := delegLim s ep ex) (find := delegEdge) (fun a no => by simp only [no])
    (ls := []) (closed := fun _ => pRes p false) fun x closed => by
      simp only [closed, stayEp, stays, Bool.false_eq_true, if_false]
      rfl
theorem deleg_barred (own : OwnOpen s ep) (k : Nat) (barred : delegBar s s.cur (me s) ep ex.toNat = some k) :
    Faults s 0x03 0 (BitVec.ofNat 64 (ep.toNat + k * 2 ^ 8)) (exec (.chDeleg h ep rel p ex) s) :=
  runForm_limited hr (active := true) (lim := delegLim s ep ex) (find := delegEdge) (fun a no => by simp only [no]) own
    (by rw [delegLim_ready hr, barred]; rfl)
variable (own : OpenEp s ep) (free : delegBar s s.cur (me s) ep ex.toNat = none)
include own free

theorem deleg_noEdge (none : (epImg s ep).edge (epAt s (ownEp s.cur ep)).q .delegOut 63 = none) :
    Faults s 0x0A 0 (refusedAux s ep 6) (exec (.chDeleg h ep rel p ex) s) :=
  runForm_noEdge hr (lim := delegLim s ep ex) (find := delegEdge) (fun a no => by simp only [no]) own.ownOpen
    (by rw [delegLim_ready hr, free]; rfl) (own.packetHere true) none
variable {t : Trans} (edge : (epImg s ep).edge (epAt s (ownEp s.cur ep)).q .delegOut 63 = some t)
include edge

theorem deleg_strain : strain s s.cur (me s) ep true (delegLim s ep ex) delegEdge = .edge s (epAt s (ownEp s.cur ep)) t := by
  rw [strain_edge own.ownOpen (by rw [delegLim_ready hr, free]; rfl) (own.packetHere true) hr.clean, delegEdge, edge]
  rfl
theorem deleg_inPacket (inside : (epAt s (ownEp s.cur ep)).pkt ≠ none) :
    Faults s 0x0A 0 (refusedAux s ep 7) (exec (.chDeleg h ep rel p ex) s) :=
  runForm_trap _ _ s _ _ _ hr (by
    simp only [deleg_strain hr own free edge, Option.isSome_iff_ne_none.2 inside, if_true]
    rfl)
variable (outside : (epAt s (ownEp s.cur ep)).pkt = none)
include outside

/-- A delegation that waits for its carrier keeps from now on what lands for its endpoint (R182, R184). -/
theorem deleg_shut (shut : windowShut s (ownEp s.cur ep) = true) :
    Parks s h (waitBy s (.chDeleg h ep rel p ex) s.no .cond 5 0 0 [])
      (modEp { s with no := s.no + 1 } (localEp s ex) fun z => { z with leaving := true }) (exec (.chDeleg h ep rel p ex) s) :=
  runForm_wait _ _ s _ s.no .cond 5 0 0 [] hr (by
    simp only [deleg_strain hr own free edge, outside, shut, if_true]
    simp only [delegPark, hr.notParked]
    rfl)
variable (unshut : windowShut s (ownEp s.cur ep) = false)
include unshut

theorem deleg_waits (waits : rel = true) (before : releaseOk s s.cur (me s).uid .dom s.cur.node = false) :
    Parks s h (waitBy s (.chDeleg h ep rel p ex) s.no .cond 0 0 0 [])
      (modEp { s with no := s.no + 1 } (localEp s ex) fun z => { z with leaving := true }) (exec (.chDeleg h ep rel p ex) s) :=
  runForm_wait _ _ s _ s.no .cond 0 0 0 [] hr (by
    simp only [deleg_strain hr own free edge, outside, unshut, waits, before]
    simp only [delegPark, hr.notParked]
    rfl)
theorem deleg_sends (performed : rel = false ∨ releaseOk s s.cur (me s).uid .dom s.cur.node = true) :
    ResultsIn s h (delegated s (ownEp s.cur ep) (localEp s ex) t.next) [] 3 (pRes p true) (exec (.chDeleg h ep rel p ex) s) := by
  have goes : (rel && !releaseOk s s.cur (me s).uid .dom s.cur.node) = false := by
    rcases performed with plain | done
    · rw [plain, Bool.false_and]
    · rw [done, Bool.not_true, Bool.and_false]
  exact runForm_done _ _ s _ hr (by
    simp only [deleg_strain hr own free edge, outside, unshut, goes]
    rfl)
end

/-! ### CH.ADOPT (R183) -/

/-- Step 4 for CH.ADOPT: whether the endpoint named may take a conversation up (R183). -/
abbrev adoptLim (s : State) (ep : EIx) (ez : BitVec 7) (x : Endpoint) : Option Word :=
  if ownsEp s s.cur (me s).uid ez.toNat && (epAt s (localEp s ez)).st = .idle && ez ≠ ep && (epAt s (localEp s ez)).reg.isNone then none
  else some (strainAux ep.toNat x.q 4)
/-- The edge that CH.ADOPT takes (R183). -/
abbrev adoptEdge (m : PImage) (q : Nat) : Option Trans := m.edge q .delegIn 63
/-- What CH.ADOPT writes: its result word and its predicate. -/
abbrev adoptOut (d : SIx) (p : BitVec 3) (w : Word) (ok : Bool) : List (Reg × VVal) := [(.s d, sval w)] ++ pRes p ok
/-- Whether CH.ADOPT may use an endpoint (R183). -/
abbrev MayAdopt (s : State) (ep : EIx) (ez : BitVec 7) : Prop :=
  ownsEp s s.cur (me s).uid ez.toNat = true ∧ (epAt s (localEp s ez)).st = .idle ∧ ez ≠ ep ∧ (epAt s (localEp s ez)).reg = none

theorem adoptLim_eq (s : State) (ep : EIx) (ez : BitVec 7) (x : Endpoint) [Decidable (MayAdopt s ep ez)] :
    adoptLim s ep ez x = if MayAdopt s ep ez then none else some (strainAux ep.toNat x.q 4) := by
  simp only [adoptLim, Bool.and_eq_true, decide_eq_true_eq, Option.isNone_iff_eq_none, and_assoc]

section
variable {s : State} {h : Hdr} {ep : EIx} {p : BitVec 3} {ez : BitVec 7} {d : SIx} (hr : Ready s h [] ([.s d] ++ pDst p) false)
include hr

theorem adopt_strained :
    Strained s h ep 3 (adoptOut d p (closedWord (epAt s (ownEp s.cur ep))) false) (exec (.chAdopt h ep p ez d) s) :=
  runForm_strained hr (active := false) (lim := adoptLim s ep ez) (find := adoptEdge) (fun a no => by simp only [no])
    (ls := []) (closed := fun x => adoptOut d p (closedWord x) false) fun x closed => by simp only [closed]
variable (own : OwnOpen s ep)
include own

theorem adopt_unfit (no : ¬ MayAdopt s ep ez) : Faults s 0x03 0 (refusedAux s ep 4) (exec (.chAdopt h ep p ez d) s) :=
  runForm_limited hr (active := false) (lim := adoptLim s ep ez) (find := adoptEdge) (fun a no => by simp only [no]) own
    (by rw [adoptLim_eq, if_neg no]; rfl)
variable (may : MayAdopt s ep ez)
include may

theorem adopt_noEdge (none : (epImg s ep).edge (epAt s (ownEp s.cur ep)).q .delegIn 63 = none) :
    Faults s 0x0A 0 (refusedAux s ep 6) (exec (.chAdopt h ep p ez d) s) :=
  runForm_noEdge hr (lim := adoptLim s ep ez) (find := adoptEdge) (fun a no => by simp only [no]) own
    (by rw [adoptLim_eq, if_pos may]) passive_packet none
variable {t : Trans} (edge : (epImg s ep).edge (epAt s (ownEp s.cur ep)).q .delegIn 63 = some t)
include edge

omit hr in
theorem adopt_strain (clean : (here s).errs = []) :
    strain s s.cur (me s) ep false (adoptLim s ep ez) adoptEdge = .edge s (epAt s (ownEp s.cur ep)) t := by
  rw [strain_edge own (by rw [adoptLim_eq, if_pos may]) passive_packet clean, adoptEdge, edge]
  rfl
theorem adopt_empty (empty : (epAt s (ownEp s.cur ep)).inbox = []) :
    ChWaits s h (.chAdopt h ep p ez d) (exec (.chAdopt h ep p ez d) s) :=
  runForm_cond _ _ s 5 0 0 hr (by
    simp only [adopt_strain own may edge hr.clean, empty]
    rfl)
variable {m : ChMsg} {rest : List ChMsg}

theorem adopt_declines (head : (epAt s (ownEp s.cur ep)).inbox = m :: rest)
    (other : ∀ dg q peer old pg tx rx un, m ≠ .deleg dg q peer old pg tx rx un) :
    Results s h [] 3 (adoptOut d p (declinedWord m) false) (exec (.chAdopt h ep p ez d) s) :=
  runForm_results _ _ s 3 [] _ hr (by
    simp only [adopt_strain own may edge hr.clean, head])
variable {dg : Word} {q : Nat} {peer old : EpRef} {pg tx rx un : Nat}
  (head : (epAt s (ownEp s.cur ep)).inbox = .deleg dg q peer old pg tx rx un :: rest)
include head

theorem adopt_noImage (none : imageByDigest s s.cur (me s) dg = none) : Faults s 0x0B 0 dg (exec (.chAdopt h ep p ez d) s) :=
  runForm_trap _ _ s _ _ _ hr (by
    simp only [adopt_strain own may edge hr.clean, head, none]
    rfl)
variable {j : Nat} (image : imageByDigest s s.cur (me s) dg = some j)
include image

theorem adopt_noRoom (none : carve (here s) (imageOf s s.cur.node j).bufBytes = none) :
    Faults s 0x0E 0 0 (exec (.chAdopt h ep p ez d) s) :=
  runForm_trap _ _ s _ _ _ hr (by
    simp only [adopt_strain own may edge hr.clean, head, image, none]
    rfl)
theorem adopt_takes {g : Option (Nat × Nat)} (room : carve (here s) (imageOf s s.cur.node j).bufBytes = some g) :
    ResultsIn s h (adoptAt (askDeposit (finishHead s (ownEp s.cur ep) t.next) (ownEp s.cur ep) s.now) (localEp s ez) j g q peer old pg tx rx un)
      [] 3 (adoptOut d p (BitVec.ofNat 64 (2 ^ 16 + (j * 2 ^ 8 + q))) true) (exec (.chAdopt h ep p ez d) s) :=
  runForm_done _ _ s _ hr (by
    simp only [adopt_strain own may edge hr.clean, head, image, room]
    rfl)
end

/-- Settles O37, form by form. -/
theorem delegationAndClosingForms : Obligations.DelegationAndClosingForms := by
  unfold Obligations.DelegationAndClosingForms
  intro s h ep rel p ex d c e x other z
  refine ⟨fun hr => ⟨fun i mem no => ?_, fun owned => ⟨chClose_refused hr owned, fun may => ⟨chClose_done hr owned may, ?_⟩,
      chClose_idle hr owned, chAbort_done hr owned, fun stood => ?_⟩⟩,
    fun hr stays => ⟨deleg_strained hr stays, deleg_barred hr, fun own free => ⟨deleg_noEdge hr own free, fun t edge =>
      ⟨deleg_inPacket hr own free edge, deleg_shut hr own free edge, deleg_waits hr own free edge, fun outside unshut performed =>
        ⟨_, deleg_sends hr own free edge outside unshut performed, delegated_ep s e other t.next (delegBar_none free)⟩⟩⟩⟩,
    fun hr => ⟨adopt_strained hr, adopt_unfit hr, fun own may => ⟨adopt_noEdge hr own may, fun t edge =>
      ⟨adopt_empty hr own may edge, fun m rest head => adopt_declines hr own may edge head, fun dg q peer old pg tx rx un rest head =>
        ⟨adopt_noImage hr own may edge head, fun j image => ⟨adopt_noRoom hr own may edge head image,
          fun g room => adopt_takes hr own may edge head image room⟩⟩⟩⟩⟩⟩
  · rcases List.mem_pair.1 mem with rfl | rfl
    · exact chClose_notOwned hr no
    · exact chAbort_notOwned hr no
  · rw [(idleEp_ep s e).ep]
    exact ⟨rfl, rfl, rfl⟩
  · obtain ⟨y, aborted, -, does⟩ := abortEp_ep s e 0x0C
    rw [aborted.ep]
    exact does stood

end Sys2Proof.Machine
end

section
/-! Endpoints and images taken and given back, the status word, bindings and PROT.LOAD (R156 to R163, R179, R190). -/

namespace Sys2Proof.Machine

/-! ### What freeing and putting back leave of an endpoint (R156, R189) -/

theorem EpIs.freeEp {s t : State} {e : EpRef} {y : Endpoint} (h : EpIs s e y t) : EpIs s e { gen := (y.gen + 1) % 256 } (freeEp t e) :=
  (h.releaseBuf.thenModEp fun x => { gen := (x.gen + 1) % 256 }).after (.sweepImages ..)
/-- EP.PUT ends the conversation, refuses a request held, and frees the endpoint under its next generation (R156). -/
theorem putEp_ep (s : State) (e : EpRef) (cause : Nat) : EpIs s e { gen := ((epAt s e).gen + 1) % 256 } (putEp s e cause) := by
  obtain ⟨y, aborted, gen, -⟩ := abortEp_ep s e cause
  unfold putEp
  extract_lets s1 s2
  have refused : EpIs s e y s2 := by
    unfold s2
    split
    · exact aborted.after (OnlySent.sendMsg ..).sameEps
    · exact aborted
  rw [← gen]
  exact refused.dropMsgs.dropPacket.freeEp

/-! ### EP.GET and EP.PUT (R156) -/

/-- Results of a form that has changed an endpoint alone, beside that change. -/
theorem runForm_resultsEp {f : Form} {body : State → SlotRef → Ctx → Act} {s : State} {l : Nat} {ls : List Reg} {ws : List (Reg × VVal)}
    {e : EpRef} {g : Endpoint → Endpoint} (hr : Ready s f.h f.srcs f.dsts f.rgn)
    (is : body s s.cur (me s) = results (modEp s e g) s.cur (me s) ls l ws) :
    ResultsFrom s (modEp s e g) (me s) f.h ls l ws (runForm f body s) := by
  have slot : slotAt (modEp s e g) s.cur = slotAt s s.cur := slotAt_modTile_keep _ _ _ _ rfl
  have ctx : ctxAt (modEp s e g) s.cur = me s := congrArg Slot.ctx slot
  have from_ := runForm_resultsFrom f body s _ l ls ws hr is ⟨rfl, rfl, rfl⟩ (by rw [slot]; exact hr.bound)
    (by rw [ctx]; exact ⟨rfl, rfl, rfl, rfl⟩)
  rwa [ctx] at from_

/-- An endpoint of the issuing tile is free (R156). -/
abbrev FreeEp (s : State) (i : Nat) : Prop := ((here s).epAt i).st = .free

section
variable {s : State} {h : Hdr} {d a : SIx} (hr : Ready s h [.s a] [.s d] false)
include hr

theorem epGet_beyond (far : 128 < (rs (me s) a).toNat) : Faults s 0x03 0 0 (exec (.epGet h d a) s) :=
  runForm_trap _ _ s _ _ _ hr (by simp only [far, if_true]; rfl)
theorem epGet_none (none : ((rs (me s) a).toNat = 128 ∧ ∀ i < 128, ¬ FreeEp s i) ∨ ((rs (me s) a).toNat < 128 ∧ ¬ FreeEp s (rs (me s) a).toNat)) :
    Results s h [.s a] 3 [(.s d, sval (BitVec.allOnes 64))] (exec (.epGet h d a) s) := by
  refine runForm_results _ _ s 3 [.s a] _ hr ?_
  rcases none with ⟨any, taken⟩ | ⟨one, taken⟩
  · have found : (List.range 128).find? (fun i => decide (FreeEp s i)) = .none :=
      List.find?_range_eq_none.2 fun i lt => by simpa using taken i lt
    simp only [any, lt_irrefl, if_false, if_true, found]
  · simp only [if_neg (show ¬ 128 < (rs (me s) a).toNat by omega), if_neg (show ¬ (rs (me s) a).toNat = 128 by omega),
      decide_eq_false taken, Bool.false_eq_true, if_false]
theorem epGet_takes (i : Nat) (lt : i < 128) (free : FreeEp s i)
    (named : (rs (me s) a).toNat = i ∨ ((rs (me s) a).toNat = 128 ∧ ∀ j < i, ¬ FreeEp s j)) :
    ResultsFrom s (modEp s ⟨s.cur.pkg, s.cur.tile, i⟩ fun x => { x with st := .idle, owner := some (s.cur.slot, (me s).uid), job := (me s).d.job })
      (me s) h [.s a] 3 [(.s d, sval (BitVec.ofNat 64 i))] (exec (.epGet h d a) s) := by
  refine runForm_resultsEp hr ?_
  rcases named with is | ⟨any, first⟩
  · simp only [is, if_neg (show ¬ 128 < i by omega), if_neg (show ¬ i = 128 by omega), decide_eq_true free, if_true]
  · have found : (List.range 128).find? (fun i => decide (FreeEp s i)) = some i :=
      List.find?_range_eq_some.2 ⟨decide_eq_true free, List.mem_range.2 lt, fun j below => by simpa using first j below⟩
    simp only [any, lt_irrefl, if_false, if_true, found]
end

section
variable {s : State} {h : Hdr} {a : SIx} (hr : Ready s h [.s a] [] false)
include hr

theorem epPut_beyond (far : 127 < (rs (me s) a).toNat) : Faults s 0x03 0 0 (exec (.epPut h a) s) :=
  runForm_trap _ _ s _ _ _ hr (by simp only [far, if_true]; rfl)
variable (near : (rs (me s) a).toNat ≤ 127)
include near

theorem epPut_notOwned (no : ownsEp s s.cur (me s).uid (rs (me s) a).toNat = false) :
    Faults s 0x0D 0 (BitVec.ofNat 64 (rs (me s) a).toNat) (exec (.epPut h a) s) :=
  runForm_trap _ _ s _ _ _ hr (by simp only [if_neg (Nat.not_lt.2 near), no, Bool.not_false, if_true]; rfl)
variable (owned : ownsEp s s.cur (me s).uid (rs (me s) a).toNat = true)
include owned

theorem epPut_packet (packet : ((me s).packet.map (·.1)) = some (rs (me s) a).toNat) : Faults s 0x03 0 0 (exec (.epPut h a) s) :=
  runForm_trap _ _ s _ _ _ hr (by
    simp only [if_neg (Nat.not_lt.2 near), owned, packet, Bool.not_true, Bool.false_eq_true, if_false, if_true]
    rfl)
theorem epPut_done (packet : ((me s).packet.map (·.1)) ≠ some (rs (me s) a).toNat) :
    DoneIn s h (putEp s ⟨s.cur.pkg, s.cur.tile, (rs (me s) a).toNat⟩ 0x0C) (exec (.epPut h a) s) :=
  runForm_done _ _ s _ hr (by
    simp only [if_neg (Nat.not_lt.2 near), owned, if_neg packet, Bool.not_true, Bool.false_eq_true, if_false]
    rfl)
end

/-! ### PROT.FREE (R163) -/

section
variable {s : State} {h : Hdr} {a : SIx} (hr : Ready s h [.s a] [] false)
include hr

theorem protFree_faults (bad : (rs (me s) a).toNat < 8 ∨ 31 < (rs (me s) a).toNat ∨
      (s.cur.slot, (me s).uid) ∉ (imageOf s s.cur.node (rs (me s) a).toNat).holders) : Faults s 0x03 0 0 (exec (.protFree h a) s) := by
  refine runForm_trap _ _ s _ _ _ hr (if_pos ?_)
  simpa using bad
theorem protFree_done (low : 8 ≤ (rs (me s) a).toNat) (high : (rs (me s) a).toNat ≤ 31)
    (holds : (s.cur.slot, (me s).uid) ∈ (imageOf s s.cur.node (rs (me s) a).toNat).holders) :
    DoneIn s h (sweepImages (modTile s s.cur.node fun T => { T with images := T.images.map fun (k, m) =>
      (k, if k = (rs (me s) a).toNat then { m with holders := m.holders.filter fun x => x ≠ (s.cur.slot, (me s).uid) } else m) }) s.cur.node)
      (exec (.protFree h a) s) := by
  refine runForm_done _ _ s _ hr (if_neg ?_)
  rw [not_or, not_or]
  exact ⟨by omega, by omega, by simpa using holds⟩
end

/-! ### CH.STATE and CH.BINDREG (R179, R190) -/

section
variable {s : State} {h : Hdr} {ep : EIx} {d : SIx} (hr : Ready s h [] [.s d] false)
include hr

theorem chState_notOwned (no : ownsEp s s.cur (me s).uid ep.toNat = false) :
    Faults s 0x0D 0 (BitVec.ofNat 64 ep.toNat) (exec (.chState h ep d) s) :=
  runForm_trap _ _ s _ _ _ hr (by simp only [no, Bool.not_false, if_true]; rfl)
theorem chState_results (owned : ownsEp s s.cur (me s).uid ep.toNat = true) :
    Results s h [] 3 [(.s d, BitVec.ofNat 2048 (stateWord (epAt s (ownEp s.cur ep))))] (exec (.chState h ep d) s) :=
  runForm_results _ _ s 3 [] _ hr (by simp only [owned, Bool.not_true, Bool.false_eq_true, if_false])
end

/-- A form that awaits registers parks without its turn being lost, and nothing else changes (R112, R113). -/
theorem runForm_regs (f : Form) (body : State → SlotRef → Ctx → Act) (s : State) (gs : List Reg) (hr : Ready s f.h f.srcs f.dsts f.rgn)
    (e : body s s.cur (me s) = .retry (.regs gs) 0 0 0) : ∃ t, runForm f body s = .next t ∧ OnlyUnit s t ∧
      ctxAt t s.cur = { me s with park := some (waitBy s f.i s.no (.regs gs) 0 0 0 []) } := by
  have lt : s.cur.slot < 16 := slot_lt s _ (by rw [hr.bound]; decide)
  let u := modCtx { s with no := s.no + 1 } s.cur id
  have ctx : ctxAt u s.cur = me s := ctxAt_modCtx_self _ _ _ lt
  obtain ⟨only, parked, -⟩ := parkSlot_spec u s.cur f.i s.no (.regs gs) 0 0 0 [] lt (by rw [ctx]; exact hr.notParked)
  rw [runForm_ready f body s hr, e]
  exact ⟨_, rfl, ((OnlySlot.no _ s _).trans (.modCtx _ _ _ lt)).trans only, parked.trans (by rw [ctx]; rfl)⟩

section
variable {s : State} {h : Hdr} {ep : EIx} {g : BindDst} (hr : Ready s h [] [] false)
include hr

theorem bindreg_notOwned (no : ownsEp s s.cur (me s).uid ep.toNat = false) :
    Faults s 0x0D 0 (BitVec.ofNat 64 ep.toNat) (exec (.chBindreg h ep g) s) :=
  runForm_trap _ _ s _ _ _ hr (by simp only [no, Bool.not_false, if_true]; rfl)
variable (owned : ownsEp s s.cur (me s).uid ep.toNat = true)
include owned

theorem bindreg_badState (notIdle : (epAt s (ownEp s.cur ep)).st ≠ .idle) (notOpened : (epAt s (ownEp s.cur ep)).st ≠ .opened) :
    Faults s 0x03 0 0 (exec (.chBindreg h ep g) s) :=
  runForm_trap _ _ s _ _ _ hr (by
    simp only [owned, if_pos (And.intro notIdle notOpened), Bool.not_true, Bool.false_eq_true, if_false]
    rfl)
variable (may : (epAt s (ownEp s.cur ep)).st = .idle ∨ (epAt s (ownEp s.cur ep)).st = .opened)
include may

omit hr owned in
theorem bindreg_goodState : ¬ ((epAt s (ownEp s.cur ep)).st ≠ .idle ∧ (epAt s (ownEp s.cur ep)).st ≠ .opened) :=
  fun both => may.elim both.1 both.2
theorem bindreg_ends (none : Machine.BindDst.reg g = none) :
    DoneIn s h (modEp s (ownEp s.cur ep) fun x => { x with reg := .none }) (exec (.chBindreg h ep g) s) :=
  runForm_done _ _ s _ hr (by simp only [owned, if_neg (bindreg_goodState may), none, Bool.not_true, Bool.false_eq_true, if_false])
variable {q : Reg} (some : Machine.BindDst.reg g = some q)
include some

theorem bindreg_taken (taken : q = .s 0 ∨ (boundTo s s.cur (me s).uid q).isSome = true ∨ (epAt s (ownEp s.cur ep)).reg.isSome = true) :
    Faults s 0x03 0 0 (exec (.chBindreg h ep g) s) :=
  runForm_trap _ _ s _ _ _ hr (by
    simp only [owned, if_neg (bindreg_goodState may), some, if_pos taken, Bool.not_true, Bool.false_eq_true, if_false]
    rfl)
variable (real : q ≠ .s 0) (unbound : boundTo s s.cur (me s).uid q = none) (unused : (epAt s (ownEp s.cur ep)).reg = none)
include real unbound unused

omit hr owned may some in
theorem bindreg_free : ¬ (q = .s 0 ∨ (boundTo s s.cur (me s).uid q).isSome = true ∨ (epAt s (ownEp s.cur ep)).reg.isSome = true) := by
  simpa [unbound, unused] using real
theorem bindreg_waits (awaited : presOf (me s) q = .pending ∨ presOf (me s) q = .ret) : ∃ t, exec (.chBindreg h ep g) s = .next t ∧ OnlyUnit s t ∧
    ctxAt t s.cur = { me s with park := .some (waitBy s (.chBindreg h ep g) s.no (.regs [q]) 0 0 0 []) } :=
  runForm_regs _ _ s [q] hr (by
    simp only [owned, if_neg (bindreg_goodState may), some, if_neg (bindreg_free real unbound unused), if_pos awaited, Bool.not_true,
      Bool.false_eq_true, if_false])
theorem bindreg_binds (settled : presOf (me s) q ≠ .pending) (kept : presOf (me s) q ≠ .ret) :
    DoneIn s h (askDeposit (modEp s (ownEp s.cur ep) fun x => { x with reg := .some q }) (ownEp s.cur ep) s.now) (exec (.chBindreg h ep g) s) :=
  runForm_done _ _ s _ hr (by
    simp only [owned, if_neg (bindreg_goodState may), some, if_neg (bindreg_free real unbound unused), settled, kept, or_self, Bool.not_true,
      Bool.false_eq_true, if_false])
end

/-! ### PROT.LOAD (R157 to R162) -/

section
variable {s s1 : State} {va : Word} {need pa : Nat} {hm : Node × MemKind} (fresh : (me s).park = none)
include fresh

theorem gotBytes_fresh : gotBytes (me s) = [] := by rw [gotBytes, fresh]; rfl
theorem firstPiece_beyond (far : 2 ^ 56 ≤ va.toNat) : readPiece s s.cur (me s) va need = .trap fAccess va 0 := by
  unfold readPiece
  simp only [gotBytes_fresh fresh, List.length_nil, BitVec.ofNat_eq_ofNat, BitVec.add_zero]
  exact if_pos far
/-- The first piece of a read is asked for where its address is translated to (R162). -/
theorem firstPiece_asks (near : va.toNat < 2 ^ 56) (clean : noErrs s = true)
    (x : xlate s s.cur.node (me s).d.job (me s).d.det 0 va.toNat = .ok pa s1) (home : homeFor s1 s.cur (me s) pa false = some hm) :
    readPiece s s.cur (me s) va need = .wait (sendReq { s1 with no := s1.no + 1 } s.cur (me s) hm.1 pa va (.load (pieceLen va.toNat need))
      false s1.no none) s1.no .reply 0 0 va [] := by
  unfold readPiece
  simp only [gotBytes_fresh fresh, List.length_nil, BitVec.ofNat_eq_ofNat, BitVec.add_zero]
  rw [if_neg (by omega), withXlate_ok clean x]
  simp only [home]
  rfl
end

/-- A form that goes on and faults. -/
theorem runForm_trapOn (f : Form) (body : State → SlotRef → Ctx → Act) (s : State) (code : Nat) (va aux : Word)
    (fit : Fit s f.h f.srcs f.dsts f.rgn) (is : body s s.cur (me s) = .trap code va aux) : Faults s code va aux (runForm f body s) := by
  rw [runForm_fit f body s fit, is]; rfl

/-- A form that issues and waits, in a state of the same cycle. -/
theorem runForm_waitNow (f : Form) (body : State → SlotRef → Ctx → Act) (s s' : State) (id : Nat) (k : ParkKind) (lk lx : Nat) (va : Word)
    (aux : List Word) (hr : Ready s f.h f.srcs f.dsts f.rgn) (now : s'.now = s.now)
    (is : body s s.cur (me s) = .wait s' id k lk lx va aux) : Parks s f.h (waitBy s f.i id k lk lx va aux) s' (runForm f body s) := by
  have parks := runForm_wait f body s s' id k lk lx va aux hr is
  unfold waitBy at parks ⊢
  rwa [now] at parks

section
variable {s : State} {h : Hdr} {d a : SIx} {ofs : BitVec 32}

section
variable (hr : Ready s h [.s a] [.s d] false)
include hr

theorem protLoad_misaligned (odd : (eaOf (me s) a ofs).toNat % 16 ≠ 0) :
    Faults s 0x06 (eaOf (me s) a ofs) 0 (exec (.protLoad h d a ofs) s) := runForm_trap _ _ s _ _ _ hr (if_pos odd)
theorem protLoad_beyond (even : (eaOf (me s) a ofs).toNat % 16 = 0) (far : 2 ^ 56 ≤ (eaOf (me s) a ofs).toNat) :
    Faults s 0x09 (eaOf (me s) a ofs) 0 (exec (.protLoad h d a ofs) s) :=
  runForm_trap _ _ s _ _ _ hr (by
    simp only [if_neg (not_not.2 even), gotBytes_fresh hr.notParked]
    exact firstPiece_beyond hr.notParked far)
theorem protLoad_asks {s1 : State} {pa : Nat} {hm : Node × MemKind} (even : (eaOf (me s) a ofs).toNat % 16 = 0)
    (near : (eaOf (me s) a ofs).toNat < 2 ^ 56) (clean : noErrs s = true)
    (x : xlate s s.cur.node (me s).d.job (me s).d.det 0 (eaOf (me s) a ofs).toNat = .ok pa s1)
    (home : homeFor s1 s.cur (me s) pa false = some hm) :
    Parks s h (waitBy s (.protLoad h d a ofs) s1.no .reply 0 0 (eaOf (me s) a ofs) [])
      (sendReq { s1 with no := s1.no + 1 } s.cur (me s) hm.1 pa (eaOf (me s) a ofs) (.load 16) false s1.no none)
      (exec (.protLoad h d a ofs) s) := by
  have whole : pieceLen (eaOf (me s) a ofs).toNat 16 = 16 := min_eq_left (by omega)
  have now : (sendReq { s1 with no := s1.no + 1 } s.cur (me s) hm.1 pa (eaOf (me s) a ofs) (.load 16) false s1.no none).now = s.now := by
    rw [sendReq_now]
    exact (xlate_sent x).now
  exact runForm_waitNow _ _ s _ _ _ _ _ _ _ hr now (by
    simp only [if_neg (not_not.2 even), gotBytes_fresh hr.notParked]
    exact (firstPiece_asks hr.notParked near clean x home).trans (by rw [whole]))
end

variable (fit : Fit s h [.s a] [.s d] false) (even : (eaOf (me s) a ofs).toNat % 16 = 0)
include fit even

theorem protLoad_bad (k : Nat) (bad : readImage (gotBytes (me s)) = .bad k) :
    Faults s 0x16 (eaOf (me s) a ofs) (BitVec.ofNat 64 k) (exec (.protLoad h d a ofs) s) :=
  runForm_trapOn _ _ s _ _ _ fit (by
    simp only [if_neg (not_not.2 even), bad]
    rfl)
variable {m : PImage} (read : readImage (gotBytes (me s)) = .ok m)
include read

theorem protLoad_unbounded (none : lookAhead m PAct.active = none ∨ lookAhead m PAct.passive = none) :
    Faults s 0x0F (eaOf (me s) a ofs) 0 (exec (.protLoad h d a ofs) s) :=
  runForm_trapOn _ _ s _ _ _ fit (by
    simp only [if_neg (not_not.2 even), read]
    split
    next x y active passive => rw [active, passive] at none; exact none.elim nofun nofun
    next => rfl)
variable {x y : Nat} (active : lookAhead m PAct.active = some x) (passive : lookAhead m PAct.passive = some y)
include active passive

/-- The state in which an image of the tile is held by the issuing unit, and its index is the form's result. -/
def imageHeld (s u : State) (d : SIx) (k : Nat) : State :=
  modCtx (holdImage u s.cur.node k (s.cur.slot, (me s).uid)) s.cur fun c => putReg c (.s d) (BitVec.ofNat 2048 k)
/-- An image of the tile is one that the unit's job has loaded, with a digest (R162). -/
abbrev isLoaded (s : State) (digest : Word) (z : Nat × PImage) : Bool := decide (z.2.job = (me s).d.job ∧ z.2.digest = digest)

theorem protLoad_finds (z : Nat × PImage) (found : (here s).images.find? (isLoaded s m.digest) = some z) :
    DoneIn s h (imageHeld s s d z.1) (exec (.protLoad h d a ofs) s) :=
  runForm_doneOn _ _ s _ fit (by
    simp only [if_neg (not_not.2 even), read, active, passive, installImage, found]
    rfl)
variable (none : (here s).images.find? (isLoaded s m.digest) = none)
include none

theorem protLoad_full (full : ∀ k < 24, ahas (here s).images (8 + k) = true) :
    Faults s 0x17 0 0x10 (exec (.protLoad h d a ofs) s) := by
  have room : (List.range 24).find? (fun k => !ahas (here s).images (8 + k)) = .none :=
    List.find?_range_eq_none.2 fun k lt => by rw [full k lt]; rfl
  exact runForm_trapOn _ _ s _ _ _ fit (by
    simp only [if_neg (not_not.2 even), read, active, passive, installImage, none, room]
    rfl)
theorem protLoad_installs (k : Nat) (lt : k < 24) (free : ahas (here s).images (8 + k) = false)
    (first : ∀ j < k, ahas (here s).images (8 + j) = true) :
    DoneIn s h (imageHeld s (modTile s s.cur.node fun T => { T with
      images := aset T.images (8 + k) { m with laSend := x, laRecv := y, job := (me s).d.job } }) d (8 + k)) (exec (.protLoad h d a ofs) s) := by
  have room : (List.range 24).find? (fun k => !ahas (here s).images (8 + k)) = some k :=
    List.find?_range_eq_some.2 ⟨by rw [free]; rfl, List.mem_range.2 lt, fun j below => by rw [first j below]; rfl⟩
  exact runForm_doneOn _ _ s _ fit (by
    simp only [if_neg (not_not.2 even), read, active, passive, installImage, none, room, replaceUnits_clean _ _ _ _ _ fit.clean]
    rfl)
end

/-- Settles O33, form by form. -/
theorem endpointImageAndProtocolForms : Obligations.EndpointImageAndProtocolForms := by
  unfold Obligations.EndpointImageAndProtocolForms
  refine ⟨fun s h ep d a g => ?_, fun s h d a ofs => ?_⟩
  · intro c v free notOwned
    refine ⟨fun hr => ⟨epGet_beyond hr, epGet_none hr, epGet_takes hr⟩,
      fun hr => ⟨⟨epPut_beyond hr, epPut_notOwned hr, epPut_packet hr, fun near owned packet => ?_⟩, protFree_faults hr, protFree_done hr⟩,
      fun hr => ⟨chState_notOwned hr, chState_results hr⟩,
      fun hr => ⟨bindreg_notOwned hr, fun owned => ⟨bindreg_badState hr owned, fun may => ⟨bindreg_ends hr owned may, fun q some =>
        ⟨bindreg_taken hr owned may some, fun real unbound unused => ⟨bindreg_waits hr owned may some real unbound unused,
          bindreg_binds hr owned may some real unbound unused⟩⟩⟩⟩⟩⟩
    have put := putEp_ep s ⟨s.cur.pkg, s.cur.tile, v⟩ 0x0C
    refine ⟨_, epPut_done hr near owned packet, ?_⟩
    rw [put.ep]
    exact ⟨rfl, rfl, rfl, rfl, put.mem⟩
  · intro c va i o
    exact ⟨fun hr => ⟨protLoad_misaligned hr, protLoad_beyond hr, fun pa s1 hm even near clean x home => protLoad_asks hr even near clean x home⟩,
      fun fit even => ⟨protLoad_bad fit even, fun m read => ⟨protLoad_unbounded fit even read, fun x y active passive =>
        ⟨protLoad_finds fit even read active passive, fun none => ⟨protLoad_full fit even read active passive none,
          protLoad_installs fit even read active passive none⟩⟩⟩⟩⟩

end Sys2Proof.Machine
end

section
/-! CH.OPEN and CH.ACCEPT, and the open requests, replies and withdrawals where they land (R164 to R166). -/

namespace Sys2Proof.Machine

/-! ### The endpoint is prepared (R161, R165) -/

section
variable {s : State} {f : Form} {body : State → SlotRef → Ctx → Act} {ep : EIx} {img : Word} {ok : Bool} {k : PImage → State → EpRef → Act}
  (is : body s s.cur (me s) = prepEp s s.cur (me s) ep img ok k) (hr : Ready s f.h f.srcs f.dsts f.rgn)
include is hr

theorem prep_notOwned (no : ownsEp s s.cur (me s).uid ep.toNat = false) : Faults s 0x0D 0 (BitVec.ofNat 64 ep.toNat) (runForm f body s) :=
  runForm_trap f body s _ _ _ hr (is.trans (if_pos (by rw [no]; rfl)))
variable (owned : ownsEp s s.cur (me s).uid ep.toNat = true)
include owned

theorem prep_notIdle (busy : (epAt s (ownEp s.cur ep)).st ≠ .idle) : Faults s 0x03 0 0 (runForm f body s) :=
  runForm_trap f body s fOperand 0 0 hr (is.trans (by simp [prepEp, owned, busy]))
variable (idle : (epAt s (ownEp s.cur ep)).st = .idle)
include idle

theorem prep_notHeld (none : heldImage s s.cur (me s) img = none) : Faults s 0x03 0 0 (runForm f body s) :=
  runForm_trap f body s fOperand 0 0 hr (is.trans (by simp [prepEp, owned, idle, none]))
variable {m : PImage} (held : heldImage s s.cur (me s) img = some m)
include held

theorem prep_badAddress (bad : ok = false) : Faults s 0x03 0 0 (runForm f body s) :=
  runForm_trap f body s fOperand 0 0 hr (is.trans (by simp [prepEp, owned, idle, held, bad]))
variable (good : ok = true)
include good

theorem prep_noRoom (none : carve (here s) m.bufBytes = none) : Faults s 0x0E 0 0 (runForm f body s) :=
  runForm_trap f body s fBuffer 0 0 hr (is.trans (by simp [prepEp, owned, idle, held, good, arrayFind_clean hr.clean, none]))
/-- With nothing in the way, the form goes on with its endpoint prepared. -/
theorem prep_goes {g : Option (Nat × Nat)} (room : carve (here s) m.bufBytes = some g) :
    body s s.cur (me s) = k m (prepared s (ownEp s.cur ep) img.toNat m g) (ownEp s.cur ep) := by
  rw [is]
  unfold prepEp
  simp only [owned, idle, held, good, arrayFind_clean hr.clean, room, Bool.not_true, Bool.false_eq_true, if_false, ne_eq, not_true_eq_false]
  rfl
end

/-! ### What the opening forms leave (R165) -/

/-- An endpoint that opens toward another, and its request on the way; to a package that is not there it is refused 24 cycles later. -/
def openSent (s u : State) (e t : EpRef) : State :=
  let u := modEp u e fun x => { x with st := .opening, peer := t, gen := (x.gen + 1) % 256 }
  let q := openReqOf u ⟨s.cur, (me s).uid, s.no⟩ e (me s).d.job
  asks (if hasPkg u t.pkg then sendMsg u s.cur e.node t.node 1 1 (openSpace s.cur t) (pinOf (me s)) false (.openRequestLand q)
    else push u (s.now + 24) phLand (slotKey s.cur) (.openReplyLand q (.refused 4))) s.cur (me s).uid t.node
/-- An endpoint that accepts; a request held at it is taken at the end of the cycle. -/
def acceptBegun (s u : State) (e : EpRef) (expect : Option EpRef) : State :=
  match (epAt u e).held with
  | some q => push (modEp u e fun x => { x with st := .accepting, expect := expect, held := none }) s.now phLand (slotKey s.cur) (.openRequestLand q)
  | none => modEp u e fun x => { x with st := .accepting, expect := expect, held := none }

theorem openSent_now (s u : State) (e t : EpRef) : (openSent s u e t).now = u.now := by
  unfold openSent
  extract_lets u1 q
  split
  · exact (OnlySent.sendMsg ..).now
  · rfl
theorem acceptBegun_now (s u : State) (e : EpRef) (x : Option EpRef) : (acceptBegun s u e x).now = u.now := by
  unfold acceptBegun
  split <;> rfl

/-! ### What leaves every slot as it was -/

theorem OnlySent.noteSend (s : State) (e : EpRef) (f : ChFlit) : OnlySent s (noteSend s e f) := by
  unfold Machine.noteSend
  split
  iterate 3 exact (OnlySent.no ..).trans (.addOut ..)
  exact .refl s
theorem OnlySent.sendFlit (s : State) (e dst : EpRef) (gen seq : Nat) (b : ChBody) : OnlySent s (sendFlit s e dst gen seq b) :=
  (OnlySent.noteSend ..).trans (.sendMsg ..)
/-- A slot waits as it did wherever its slot is as it was. -/
theorem Waits.of_slotAt {s t : State} {w : Who} {p : Park} (h : Waits s w p) (same : slotAt t w.slot = slotAt s w.slot) : Waits t w p :=
  ⟨by rw [same]; exact h.bound, (congrArg (fun l => l.ctx.uid) same).trans h.uid, (congrArg (fun l => l.ctx.park) same).trans h.park,
    h.id, h.due, h.held⟩
theorem slotAt_modEp (s : State) (e : EpRef) (f : Endpoint → Endpoint) (r : SlotRef) : slotAt (modEp s e f) r = slotAt s r :=
  slotAt_modTile_keep _ _ _ _ rfl
theorem slotAt_dropMsgs (s : State) (e : EpRef) (r : SlotRef) : slotAt (dropMsgs s e) r = slotAt s r := by
  unfold dropMsgs
  rw [slotAt_modEp]
  exact (OnlySent.foldl _ (fun u o => .sendFlit u e o _ _ _) _ s).slotAt r
theorem slotAt_releaseBuf (s : State) (e : EpRef) (r : SlotRef) : slotAt (releaseBuf s e) r = slotAt s r := by
  unfold releaseBuf
  split
  · rfl
  · extract_lets lo u
    have pool : slotAt u r = slotAt s r := slotAt_modTile_keep _ _ _ _ rfl
    rw [slotAt_modEp]
    exact pool
theorem slotAt_revertEp (s : State) (e : EpRef) (r : SlotRef) : slotAt (revertEp s e) r = slotAt s r := by
  unfold revertEp
  rw [slotAt_modEp, slotAt_releaseBuf, slotAt_dropMsgs]
theorem replyOpen_sent (s : State) (q : OpenReq) (o : OpenOutcome) : OnlySent s (replyOpen s q o) := .sendMsg ..

/-! ### An open request lands (R166) -/

section
variable {s : State} {q : OpenReq}

theorem exec_openRequestLand (plain : q.target ≠ calService q.target.pkg) : exec (.openRequestLand q) s = .next (landOpen s q) :=
  congrArg Host.Outcome.next (if_neg plain)
theorem landOpen_free (free : (epAt s q.target).st = .free) : landOpen s q = refuseOpen s q.target.node q 1 := if_pos free
variable (taken : (epAt s q.target).st ≠ .free)
include taken

theorem landOpen_unowned (none : (epAt s q.target).owner = none) : landOpen s q = refuseOpen s q.target.node q 2 := by
  unfold landOpen
  simp only [if_neg taken, none]
variable {l u : Nat} (owner : (epAt s q.target).owner = some (l, u)) (bound : (slotAt s ⟨q.target.pkg, q.target.tile, l⟩).ph = .bound)
  (uid : (ctxAt s ⟨q.target.pkg, q.target.tile, l⟩).uid = u)
include owner bound uid

omit owner taken in
theorem ownerUnit : unitAt s ⟨q.target.pkg, q.target.tile, l⟩ u = some (ctxAt s ⟨q.target.pkg, q.target.tile, l⟩) := by
  rw [← uid, unitAt_bound s _ bound]
theorem landOpen_otherJob (other : (ctxAt s ⟨q.target.pkg, q.target.tile, l⟩).d.job ≠ q.job) :
    landOpen s q = refuseOpen s q.target.node q 1 := by
  unfold landOpen
  simp only [if_neg taken, owner, ownerUnit bound uid, if_pos other]
variable (job : (ctxAt s ⟨q.target.pkg, q.target.tile, l⟩).d.job = q.job)
include job

omit taken in
theorem landOpen_idle (idle : (epAt s q.target).st = .idle) (none : (epAt s q.target).held = none) :
    landOpen s q = modEp s q.target fun x => { x with held := some q } := by
  unfold landOpen
  simp only [reduceCtorEq, if_false, owner, ownerUnit bound uid, if_neg (not_not.2 job), idle, none, Option.isSome_none, Bool.false_eq_true]
omit taken in
theorem landOpen_second (idle : (epAt s q.target).st = .idle) (some : (epAt s q.target).held.isSome = true) :
    landOpen s q = refuseOpen s q.target.node q 2 := by
  unfold landOpen
  simp only [reduceCtorEq, if_false, owner, ownerUnit bound uid, if_neg (not_not.2 job), idle, some, if_true]
variable (accepting : (epAt s q.target).st = .accepting)
include accepting

omit taken in
theorem landOpen_unexpected (other : (epAt s q.target).expect ≠ none ∧ (epAt s q.target).expect ≠ some q.opener) :
    landOpen s q = refuseOpen s q.target.node q 5 := by
  unfold landOpen
  simp only [reduceCtorEq, if_false, owner, ownerUnit bound uid, if_neg (not_not.2 job), accepting, if_pos other]
omit taken in
/-- An endpoint that accepts takes a request that it does not refuse. -/
theorem landOpen_takes {p : Park} (expected : (epAt s q.target).expect = none ∨ (epAt s q.target).expect = some q.opener)
    (park : (ctxAt s ⟨q.target.pkg, q.target.tile, l⟩).park = some p) :
    landOpen s q = takeOpen s q.target q ⟨q.target.pkg, q.target.tile, l⟩ u p := by
  have may : ¬ ((epAt s q.target).expect ≠ none ∧ (epAt s q.target).expect ≠ some q.opener) := fun both => expected.elim both.1 both.2
  unfold landOpen
  simp only [reduceCtorEq, if_false, owner, ownerUnit bound uid, if_neg (not_not.2 job), accepting, if_neg may, park]
end

section
variable {s : State} {e : EpRef} {q : OpenReq} {r : SlotRef} {u : Nat} {p : Park} (waits : Waits s ⟨r, u, p.id⟩ p)
include waits

/-- Between dual images the accepting endpoint opens, the opener is told, and the form ends with the opener's address (R166). -/
theorem takeOpen_dual {h : Hdr} {ep : EIx} {d a b : SIx} (dual : (imageOf s e.node (epAt s e).img).dual = q.digest)
    (form : p.form = .chAccept h ep d a b) :
    Finishes (replyOpen (modEp s e fun x => { x with
        st := .opened, peer := q.opener, peerGen := q.gen, gen := (x.gen + 1) % 256, expect := none }) q
        (.accepted (((epAt s e).gen + 1) % 256))) ⟨r, u, p.id⟩ (ctxAt s r) (fun c => putReg c (.s d) (sval (epAddr q.opener)))
      (takeOpen s e q r u p) := by
  unfold takeOpen
  simp only [if_pos dual, form, acceptDst, epAt_modEp_self]
  have same := ((replyOpen_sent (modEp s e fun x => { x with
    st := .opened, peer := q.opener, peerGen := q.gen, gen := (x.gen + 1) % 256, expect := none }) q
    (.accepted (((epAt s e).gen + 1) % 256))).slotAt r).trans (slotAt_modEp ..)
  have ends := finish_spec (waits.of_slotAt same) fun c => putReg c (.s d) (sval (epAddr q.opener))
  rwa [show ctxAt _ r = ctxAt s r from congrArg Slot.ctx same] at ends
/-- Between other images both forms fault with protocol_mismatch (R166). -/
theorem takeOpen_mismatch (other : (imageOf s e.node (epAt s e).img).dual ≠ q.digest) :
    takeOpen s e q r u p = takeFault (revertEp (replyOpen s q (.mismatch (imageOf s e.node (epAt s e).img).digest)) e) r u 0x0B 0 q.digest := by
  unfold takeOpen
  simp only [if_neg other]
  exact faultWait_waits (waits.of_slotAt ((slotAt_revertEp ..).trans ((replyOpen_sent ..).slotAt r))) _ _ _
end

/-! ### The reply to an open request lands (R165) -/

section
variable {s : State} {q : OpenReq} {p : Park} (opening : (epAt s q.opener).st = .opening) (gen : (epAt s q.opener).gen = q.gen)
  (waits : Waits s q.who p)
include opening gen waits

theorem openReply_awaited : ¬ ((epAt s q.opener).st ≠ .opening ∨ (epAt s q.opener).gen ≠ q.gen ∨ (waitOf s q.who).isNone) := by
  rw [opening, gen, waitOf_waits waits]
  simp
theorem openReply_accepted (g : Nat) (early : (epAt s q.opener).early = []) : ∃ t, exec (.openReplyLand q (.accepted g)) s = .next t ∧
    Finishes (modEp s q.opener fun x => { x with st := .opened, peer := q.target, peerGen := g }) q.who (ctxAt s q.who.slot) id t := by
  have slot := slotAt_modEp s q.opener (fun x => { x with st := .opened, peer := q.target, peerGen := g }) q.who.slot
  have none : (epAt (modEp s q.opener fun x => { x with st := .opened, peer := q.target, peerGen := g }) q.opener).early = [] := by
    rw [epAt_modEp_self]
    exact early
  have ends := finish_spec (waits.of_slotAt slot) id
  rw [show ctxAt _ q.who.slot = ctxAt s q.who.slot from congrArg Slot.ctx slot] at ends
  refine ⟨_, congrArg Host.Outcome.next ?_, ends⟩
  unfold evOpenReplyLand
  simp only [if_neg (openReply_awaited opening gen waits), applyFlits_none none]
theorem openReply_mismatch (k : Word) :
    exec (.openReplyLand q (.mismatch k)) s = .next (takeFault (revertEp s q.opener) q.who.slot q.who.uid 0x0B 0 k) := by
  refine congrArg Host.Outcome.next ?_
  unfold evOpenReplyLand
  simp only [if_neg (openReply_awaited opening gen waits)]
  exact faultWait_waits (waits.of_slotAt (slotAt_revertEp ..)) _ _ _
theorem openReply_refused (k : Nat) :
    exec (.openReplyLand q (.refused k)) s = .next (takeFault (revertEp s q.opener) q.who.slot q.who.uid 0x0C 0 (BitVec.ofNat 64 k)) := by
  refine congrArg Host.Outcome.next ?_
  unfold evOpenReplyLand
  simp only [if_neg (openReply_awaited opening gen waits)]
  exact faultWait_waits (waits.of_slotAt (slotAt_revertEp ..)) _ _ _
end

/-! ### A request is withdrawn (R165) -/

/-- A request of a party is held at the endpoint that it names. -/
abbrev HeldThere (s : State) (q : OpenReq) : Prop := ∃ x, (epAt s q.target).held = some x ∧ x.who = q.who

theorem openWithdrawalLand_held (s : State) (q : OpenReq) (held : HeldThere s q) :
    EpIs s q.target { epAt s q.target with held := none } (evOpenWithdrawalLand q s) := by
  obtain ⟨x, is, who⟩ := held
  unfold evOpenWithdrawalLand
  simp only [is, who, decide_true, if_true]
  exact (EpIs.of_modEp s q.target fun x => { x with held := none }).after (OnlySent.sendMsg ..).sameEps
theorem openWithdrawalLand_gone (s : State) (q : OpenReq) (gone : ¬ HeldThere s q) : SameEps s (evOpenWithdrawalLand q s) := by
  unfold evOpenWithdrawalLand
  cases is : (epAt s q.target).held with
  | none => exact (OnlySent.sendMsg ..).sameEps
  | some x =>
    have other : x.who ≠ q.who := fun who => gone ⟨x, is, who⟩
    simp only [other, decide_false, Bool.false_eq_true, if_false]
    exact (OnlySent.sendMsg ..).sameEps

section
variable {s : State} {w : Who} {p : Park} (waits : Waits s w p)
include waits

theorem openWithdrawn {h : Hdr} {ep : EIx} {a b : SIx} (form : p.form = .chOpen h ep a b) : exec (.openWithdrawalAnswerLand w true) s =
    .next (takeFault (revertEp s (ownEp w.slot ep)) w.slot w.uid 0x05 0 (limitAux p)) := by
  refine congrArg Host.Outcome.next ?_
  unfold evOpenWithdrawalAnswerLand
  simp only [waitOf_waits waits, waits.due, form, openEp, if_true, Bool.false_eq_true, if_false]
  exact faultWait_waits (waits.of_slotAt (slotAt_revertEp ..)) _ _ _
theorem openStands : ∃ t, exec (.openWithdrawalAnswerLand w false) s = .next t ∧ OnlySlot w.slot s t ∧
    ctxAt t w.slot = { ctxAt s w.slot with park := some { p with kind := .reply } } := by
  obtain ⟨only, ctx⟩ := OnlySlot.modUnit_waits waits fun c => { c with park := c.park.map fun p => { p with kind := .reply } }
  refine ⟨_, congrArg Host.Outcome.next ?_, only, ctx.trans (by rw [waits.park]; rfl)⟩
  unfold evOpenWithdrawalAnswerLand
  simp only [waitOf_waits waits, Bool.false_eq_true, if_false]
end

/-- Settles O34: the two forms that open, a request that lands, its reply, its withdrawal, and the answer to that. -/
theorem channelsOpenAndAccept : Obligations.ChannelsOpenAndAccept := by
  unfold Obligations.ChannelsOpenAndAccept
  refine ⟨fun s h ep d a b => ?_, fun s q l u => ?_, fun s q p opening gen waits => ⟨openReply_accepted opening gen waits,
    openReply_mismatch opening gen waits, openReply_refused opening gen waits⟩, fun s q => ⟨_, rfl, fun held => ?_, fun gone => ?_, ?_⟩,
    fun s w p h ep a b waits form => ⟨openWithdrawn waits form, openStands waits⟩⟩
  · intro c e w form
    have opens (dsts : List Reg) (i : Instr) (bad : Prop) (f : State → State) (ok : Bool) (body : State → SlotRef → Ctx → Act)
        (k : PImage → State → EpRef → Act) (run : exec i s = runForm { i := i, h := h, srcs := [.s a, .s b], dsts := dsts } body s)
        (is : body s s.cur c = prepEp s s.cur c ep (rs c b) ok k) (address : bad ↔ ok = false) (now : ∀ u, (f u).now = u.now)
        (waits : ∀ m g, k m (prepared s e (rs c b).toNat m g) e =
          .wait (f { prepared s e (rs c b).toNat m g with no := s.no + 1 }) s.no .reply 5 0 0 []) : form dsts i bad f := by
      intro hr
      dsimp only
      rw [run]
      refine ⟨prep_notOwned is hr, fun owned => ⟨prep_notIdle is hr owned, fun idle => ⟨prep_notHeld is hr owned idle, fun m held =>
        ⟨fun no => prep_badAddress is hr owned idle held (address.1 no), fun good => ?_, fun g good room => ?_⟩⟩⟩⟩
      · exact prep_noRoom is hr owned idle held (Bool.eq_true_of_not_eq_false (mt address.2 good))
      · exact runForm_waitNow { i := i, h := h, srcs := [.s a, .s b], dsts := dsts } body s _ _ _ _ _ _ _ hr (now _)
          ((prep_goes (f := { i := i, h := h, srcs := [.s a, .s b], dsts := dsts }) is hr owned idle held (Bool.eq_true_of_not_eq_false (mt address.2 good)) room).trans (waits m g))
    refine ⟨opens _ _ _ (fun u => openSent s u e ((epOfAddr (rs c a)).getD ⟨0, 0, 0⟩)) (epOfAddr (rs c a)).isSome _ _ rfl rfl (by simp)
        (fun u => openSent_now ..) fun m g => rfl,
      opens _ _ _ (fun u => acceptBegun s u e (epOfAddr (rs c a))) (rs c a = 0 || (epOfAddr (rs c a)).isSome) _ _ rfl rfl (by simp)
        (fun u => acceptBegun_now ..) fun m g => rfl⟩
  · intro e x r o plain
    have run := exec_openRequestLand (s := s) plain
    have lands {u : State} (is : landOpen s q = u) : o = .next u := run.trans (congrArg Host.Outcome.next is)
    refine ⟨fun free => lands (landOpen_free free), fun taken none => lands (landOpen_unowned taken none),
      fun taken owner bound uid => ⟨fun other => lands (landOpen_otherJob taken owner bound uid other),
        fun job idle none => lands (landOpen_idle owner bound uid job idle none),
        fun job idle some => lands (landOpen_second owner bound uid job idle some),
        fun job accepting other => lands (landOpen_unexpected owner bound uid job accepting other),
        fun p h ep d a b job accepting expected waits form => ?_⟩⟩
    have takes := landOpen_takes owner bound uid job accepting expected waits.park
    exact ⟨fun dual => ⟨_, lands takes, takeOpen_dual waits dual form⟩, fun other => lands (takes.trans (takeOpen_mismatch waits other))⟩
  · exact (openWithdrawalLand_held s q held).ep
  · exact (openWithdrawalLand_gone s q gone).ep q.target
  · by_cases held : HeldThere s q
    · exact (openWithdrawalLand_held s q held).mem
    · exact (openWithdrawalLand_gone s q held).mem

end Sys2Proof.Machine
end

section
/-! What no loss of a message, a unit or a conversation touches: the cycle, memory, the domain's shape, each tile's incarnation and presence,
and what is fused in each package (R249, R313 to R316, R364). -/

namespace Sys2Proof.Machine

/-- What a tile has whatever is lost: its incarnation, whether it is present, whether it is being retired, and the incarnations it knows. -/
def lasting (t : Tile) : Nat × Bool × Bool × List (Nat × Nat × Nat) := (t.inc, t.present, t.retiring, t.known)
/-- What a package has whatever is lost: its identity, and whether the root of trust was entered. -/
def fused (p : Pkg) : Bool × Bool := (p.identity, p.rtvEntered)
/-- Nothing has changed of the cycle, memory, the shape, and what packages have whatever is lost. -/
structure Steady (s t : State) : Prop where
  now : t.now = s.now
  mem : t.mem = s.mem
  shape : t.shape = s.shape
  pkg : ∀ p, fused (pkgAt t p) = fused (pkgAt s p)
/-- Nothing has changed of these, and of what tiles have whatever is lost. -/
structure Kept (s t : State) : Prop extends Steady s t where
  tile : ∀ n, lasting (tileAt t n) = lasting (tileAt s n)

/-! ### Parts of the state (R249) -/

theorem Steady.trans {s t u : State} (h : Steady s t) (k : Steady t u) : Steady s u :=
  ⟨k.now.trans h.now, k.mem.trans h.mem, k.shape.trans h.shape, fun p => (k.pkg p).trans (h.pkg p)⟩
theorem Kept.refl (s : State) : Kept s s := ⟨⟨rfl, rfl, rfl, fun _ => rfl⟩, fun _ => rfl⟩
theorem Kept.trans {s t u : State} (h : Kept s t) (k : Kept t u) : Kept s u :=
  ⟨h.toSteady.trans k.toSteady, fun n => (k.tile n).trans (h.tile n)⟩
theorem Kept.foldl {α : Type} {f : State → α → State} (each : ∀ s a, Kept s (f s a)) (l : List α) (s : State) : Kept s (l.foldl f s) := by
  induction l generalizing s with
  | nil => exact .refl s
  | cons a l ih => exact (each s a).trans (ih _)
/-- A change of other parts of the state. -/
theorem Kept.of_eq {s t : State} (now : t.now = s.now) (mem : t.mem = s.mem) (shape : t.shape = s.shape) (tiles : t.tiles = s.tiles)
    (pkgs : t.pkgs = s.pkgs) : Kept s t :=
  ⟨⟨now, mem, shape, fun p => by unfold pkgAt; rw [pkgs]⟩, fun n => by unfold tileAt; rw [tiles]⟩
theorem OnlyAsked.kept {s t : State} (h : OnlyAsked s t) : Kept s t := .of_eq h.now h.mem (congrArg State.shape h.rest :) h.tiles h.pkgs
theorem Kept.modTile (s : State) (n : Node) (f : Tile → Tile) (keeps : lasting (f (tileAt s n)) = lasting (tileAt s n)) :
    Kept s (modTile s n f) := by
  refine ⟨⟨rfl, rfl, rfl, fun _ => rfl⟩, fun m => ?_⟩
  by_cases same : nodeKey m = nodeKey n
  · have at_ (u : State) : tileAt u m = tileAt u n := by unfold tileAt; rw [same]
    rw [at_, at_, tileAt_modTile_self, keeps]
  · rw [tileAt_modTile_ne _ _ _ _ same]
theorem Kept.modPkg (s : State) (p : Nat) (f : Pkg → Pkg) (keeps : ∀ x, fused (f x) = fused x) : Kept s (modPkg s p f) := by
  refine ⟨⟨rfl, rfl, rfl, fun q => ?_⟩, fun _ => rfl⟩
  by_cases same : q = p
  · rw [same, pkgAt_modPkg_self, keeps]
  · rw [pkgAt_modPkg_ne _ _ _ _ same]
theorem Kept.modSlot (s : State) (r : SlotRef) (f : Slot → Slot) : Kept s (modSlot s r f) :=
  .modTile _ _ _ (congrArg lasting (modSlot_rest (tileAt s r.node) r.slot f) :)
theorem Kept.modUnit (s : State) (r : SlotRef) (uid : Nat) (f : Ctx → Ctx) : Kept s (modUnit s r uid f) := .modSlot ..
theorem Kept.modEp (s : State) (e : EpRef) (f : Endpoint → Endpoint) : Kept s (modEp s e f) := .modTile _ _ _ rfl
theorem Kept.modJob (s : State) (h : Word) (f : Job → Job) : Kept s (modJob s h f) := .of_eq rfl rfl rfl rfl rfl
theorem Kept.no (s : State) (k : Nat) : Kept s { s with no := k } := .of_eq rfl rfl rfl rfl rfl
theorem Kept.addOut (s : State) (o : Out) : Kept s (addOut s o) := .of_eq rfl rfl rfl rfl rfl
theorem Kept.push (s : State) (a p k : Nat) (e : Ev) : Kept s (push s a p k e) := (OnlyAsked.push ..).kept
theorem Kept.pushOnce (s : State) (a p k : Nat) (e : Ev) : Kept s (pushOnce s a p k e) := (OnlyAsked.pushOnce ..).kept
theorem Kept.modLaunch (s : State) (h : Word) (f : Launch → Launch) : Kept s (modLaunch s h f) := .modPkg _ _ _ fun _ => rfl
theorem Kept.setVoid (s : State) (h : Word) (b : Nat) : Kept s (setVoid s h b) := .modLaunch ..

/-! ### Sending (R303 to R315) -/

theorem Kept.modRouter (s : State) (n : Node) (f : Router → Router) : Kept s (modRouter s n f) := .of_eq rfl rfl rfl rfl rfl
theorem Kept.book (s : State) (k : List Nat) (cap t : Nat) (half : Option Bool) : Kept s (book s k cap t half).1 := .of_eq rfl rfl rfl rfl rfl
theorem Kept.putBox (s : State) (t : Nat) (p : Parcel) : Kept s (putBox s t p) := .of_eq rfl rfl rfl rfl rfl
theorem Kept.spaces (s : State) (x : List Space) : Kept s { s with spaces := x } := .of_eq rfl rfl rfl rfl rfl
theorem Kept.takeFlit (s : State) (t : Nat) (f : Flit) : Kept s (takeFlit s t f) := by
  have go (s : State) (g : Flit) : Kept s (match g.ev with | some ev => Machine.push s t phLand (slotKey g.src) ev | none => s) := by
    split
    · exact .push ..
    · exact .refl s
  unfold Machine.takeFlit
  dsimp only
  split
  · exact go _ _
  · exact (Kept.spaces ..).trans (.foldl go _ _)
theorem Kept.ejectFlit (s : State) (t : Nat) (f : Flit) : Kept s (ejectFlit s t f) := by
  have stale := (Kept.modTile s f.dst (fun t => { t with stale := t.stale + 1 }) rfl).trans (.takeFlit _ t { f with ev := none })
  unfold Machine.ejectFlit
  dsimp only
  split
  · split
    · exact stale.trans (.putBox ..)
    · exact stale
  · exact .takeFlit ..
theorem Kept.ejectDie (s : State) (t : Nat) (f : Flit) : Kept s (ejectDie s t f) := by
  unfold Machine.ejectDie
  split
  · exact (Kept.book ..).trans (.ejectFlit ..)
  · exact .ejectFlit ..
theorem Kept.arriveAt (s : State) (n : Node) (t : Nat) (half : Bool) (f : Flit) : Kept s (arriveAt s n t half f) :=
  (Kept.modRouter ..).trans (.pushOnce ..)
theorem Kept.portSend (s : State) (p port t : Nat) (f : Flit) : Kept s (portSend s p port t f) := by
  unfold Machine.portSend
  extract_lets p' s1 x
  split
  · have late : Kept s s1 := by
      unfold s1
      split
      · split
        · exact .setVoid ..
        · exact .refl s
      · exact .refl s
    exact (late.trans (.book ..)).trans (.putBox ..)
  · refine Kept.trans ?_ (.push ..)
    exact .modPkg _ _ _ fun _ => rfl
theorem Kept.dieArrive (s : State) (p die t : Nat) (b : Bool) (f : Flit) : Kept s (dieArrive s p die t b f) := by
  unfold Machine.dieArrive
  extract_lets pass enter port
  have entered (col : Nat) : Kept s (enter col) := (Kept.book ..).trans (.arriveAt ..)
  split
  · split
    · exact entered _
    · split
      · exact .ejectDie ..
      · exact entered _
  · split
    · exact .portSend ..
    · exact entered _
theorem Kept.leaveDie (s : State) (n : Node) (f : Flit) : Kept s (leaveDie s n f) := by
  unfold Machine.leaveDie
  extract_lets x
  have left : Kept s x.1 := by
    unfold x
    split
    · exact .book ..
    · exact .refl s
  split
  · exact left.trans (.ejectDie ..)
  · split
    · exact left.trans (.ejectDie ..)
    · exact left.trans (.dieArrive ..)
theorem Kept.sendMsg (s : State) (src : SlotRef) (a b : Node) (typ n : Nat) (sp : List Nat) (pin : Option Word) (r : Bool) (e : Ev) :
    Kept s (sendMsg s src a b typ n sp pin r e) := by
  unfold Machine.sendMsg sendParts
  extract_lets sp' q pin' base fl s1 s2
  have numbered : Kept s s2 := by
    unfold s2 s1
    split <;> exact .of_eq rfl rfl rfl rfl rfl
  split
  · exact ((numbered.trans (.modRouter ..)).trans (.pushOnce ..)).trans (.pushOnce ..)
  · exact numbered.trans (.foldl (fun u f => .leaveDie u a f) _ _)

/-! ### Channels (R184 to R189, R205) -/

theorem Kept.sendFlit (s : State) (e dst : EpRef) (gen seq : Nat) (b : ChBody) : Kept s (sendFlit s e dst gen seq b) := by
  have noted (u : State) (f : ChFlit) : Kept u (noteSend u e f) := by
    unfold noteSend
    split
    iterate 3 exact .of_eq rfl rfl rfl rfl rfl
    exact .refl u
  exact (noted ..).trans (.sendMsg ..)
theorem Kept.sendSeq (s : State) (e : EpRef) (b : ChBody) : Kept s (sendSeq s e b) := (Kept.modEp ..).trans (.sendFlit ..)
theorem Kept.dropMsgs (s : State) (e : EpRef) : Kept s (dropMsgs s e) := by
  unfold Machine.dropMsgs
  refine Kept.trans ?_ (.modEp ..)
  exact .foldl (fun u o => .sendFlit u e o _ _ _) _ _
theorem Kept.dropPacket (s : State) (e : EpRef) : Kept s (dropPacket s e) := by
  unfold Machine.dropPacket
  refine Kept.trans ?_ (.modEp ..)
  split
  · exact .modUnit ..
  · exact .refl s
theorem Kept.releaseBuf (s : State) (e : EpRef) : Kept s (releaseBuf s e) := by
  unfold Machine.releaseBuf
  split
  · exact .refl s
  · extract_lets lo u
    have pool : Kept s u := .modTile _ _ _ rfl
    refine Kept.trans (pool.trans ?_) (.modEp ..)
    exact .of_eq rfl rfl rfl rfl rfl
theorem Kept.sweepImages (s : State) (n : Node) : Kept s (sweepImages s n) := .modTile _ _ _ rfl
theorem Kept.sendTerm (s : State) (c : EpRef) (p : SlotRef) (u : Option Int) (pin : Option Word) : Kept s (sendTerm s c p u pin) := by
  unfold Machine.sendTerm
  split
  · dsimp only
    split
    · exact (Kept.modSlot ..).trans (.modTile _ _ _ rfl)
    · exact .modSlot ..
  · exact .sendMsg ..
theorem Kept.detach (s : State) (n : Node) (i : Nat) : Kept s (detach s n i) := by
  unfold Machine.detach
  extract_lets c key s1 s2 s3
  split
  · exact .refl s
  · have held : Kept s s1 := by
      unfold s1
      split
      · exact .modSlot ..
      · exact .refl s
    have sent : Kept s1 s2 := by
      unfold s2
      split
      · exact .refl s1
      · exact .sendTerm ..
    have stopped : Kept s2 s3 := .modTile _ _ _ rfl
    exact ((held.trans sent).trans stopped).trans (.modEp ..)
theorem Kept.detachOf (s : State) (e : EpRef) : Kept s (detachOf s e) := by
  unfold Machine.detachOf
  split
  · exact .detach ..
  · exact .refl s
theorem Kept.freeCoupler (s : State) (n : Node) (i : Nat) : Kept s (freeCoupler s n i) := by
  unfold Machine.freeCoupler
  extract_lets c s1 s2
  have told : Kept s1 s2 := by
    unfold s2
    split
    · exact .refl s1
    · exact .refl s1
    · exact .sendTerm ..
  exact ((Kept.detach ..).trans told).trans (.modTile _ _ _ rfl)
theorem Kept.abortEp (s : State) (e : EpRef) (cause : Nat) : Kept s (abortEp s e cause) := by
  unfold Machine.abortEp
  extract_lets x m q s1 s2 s3 s4
  split
  · exact .refl s
  · have marked : Kept s1 s2 := by
      unfold s2
      split
      · exact .sendSeq ..
      · exact .refl s1
    have told : Kept s2 s3 := by
      unfold s3
      split
      · exact .sendSeq ..
      · exact .refl s2
    have cleared : Kept s3 s4 := (((Kept.dropMsgs ..).trans (.dropPacket ..)).trans (.releaseBuf ..)).trans (.detachOf ..)
    have first : Kept s s1 := .modEp ..
    exact ((((first.trans marked).trans told).trans cleared).trans (.modEp ..)).trans (.sweepImages ..)
theorem Kept.putEp (s : State) (e : EpRef) (cause : Nat) : Kept s (putEp s e cause) := by
  unfold Machine.putEp freeEp
  extract_lets s1 s2 s3
  have refused : Kept s1 s2 := by
    unfold s2
    split
    · exact .sendMsg ..
    · exact .refl s1
  exact (((((Kept.abortEp ..).trans refused).trans (.dropMsgs ..)).trans (.dropPacket ..)).trans (.releaseBuf ..)).trans
    ((Kept.modEp ..).trans (.sweepImages ..))
theorem Kept.peerClose (s : State) (e : EpRef) (q cause : Nat) : Kept s (peerClose s e q cause) := by
  unfold Machine.peerClose
  dsimp only
  split
  · exact .refl s
  · exact (((Kept.dropMsgs ..).trans (.dropPacket ..)).trans (.detachOf ..)).trans ((Kept.modEp ..).trans (.sweepImages ..))
theorem Kept.revertEp (s : State) (e : EpRef) : Kept s (revertEp s e) := ((Kept.dropMsgs ..).trans (.releaseBuf ..)).trans (.modEp ..)

/-! ### Units that end, and waits that fail (R95, R249, R252, R343) -/

theorem Kept.performed (s : State) (id : Nat) : Kept s (performed s id) := by
  unfold Machine.performed
  split
  · extract_lets s1 s2
    have dropped : Kept s s1 := .of_eq rfl rfl rfl rfl rfl
    have woken : Kept s1 s2 := (OnlyAsked.unless _ (.wakeEngines ..)).kept
    refine (dropped.trans woken).trans ?_
    split
    · exact (OnlyAsked.unless _ (.askJob ..)).kept
    · exact (OnlyAsked.askLaunch ..).kept
  · exact .refl s
theorem Kept.refuseToken (s : State) (tok : Nat) : Kept s (refuseToken s tok) := by
  unfold Machine.refuseToken
  split
  · exact .push ..
  · split
    · refine Kept.trans (Kept.modTile _ _ _ ?_) (.push ..)
      split <;> rfl
    · exact .refl s
theorem Kept.discardMsg (s : State) (n : Node) (m : SupMsg) : Kept s (discardMsg s n m) := by
  unfold Machine.discardMsg
  split
  · exact .refuseToken ..
  · exact .modTile _ _ _ rfl
theorem Kept.endSupervisor (s : State) (r : SlotRef) (c : Ctx) : Kept s (endSupervisor s r c) :=
  ((Kept.modTile _ _ _ rfl).trans (.foldl (fun u m => .discardMsg u r.node m) _ _)).trans (.foldl .refuseToken _ _)
theorem Kept.releaseCouplers (s : State) (r : SlotRef) (uid : Nat) : Kept s (releaseCouplers s r uid) := by
  have freed (u : State) (x : Nat × Coupler) : Kept u (if x.2.holder = some (r.slot, uid) then Machine.freeCoupler u r.node x.1 else u) := by
    split
    · exact .freeCoupler ..
    · exact .refl u
  have left (u : State) (m : RemoteEntry) : Kept u (if m.slot = r.slot ∧ m.uid = uid then Machine.detach u m.owner.node m.owner.ep else u) := by
    split
    · exact .detach ..
    · exact .refl u
  exact (Kept.foldl freed _ _).trans (.foldl left _ _)
theorem Kept.releaseBlk (s : State) (r : SlotRef) (c : Ctx) (cancelled : Bool) : Kept s (releaseBlk s r c cancelled) := by
  unfold Machine.releaseBlk
  split
  · exact .refl s
  · split
    · exact .refl s
    · exact .modPkg _ _ _ fun _ => rfl
theorem Kept.sendReturn (s : State) (r : SlotRef) (c : Ctx) (o : SpawnOrigin) (d : SIx) (v : Word) : Kept s (sendReturn s r c o d v) :=
  ((Kept.no ..).trans (.addOut ..)).trans (.sendMsg ..)
theorem lasting_unsplitTlb (t : Tile) : lasting (unsplitTlb t) = lasting t := by
  unfold unsplitTlb
  split <;> rfl
theorem lasting_dropRoles (t : Tile) (slot uid : Nat) : lasting (dropRoles t slot uid) = lasting t := rfl
/-- A unit that ends, but is not cancelled (R95, R343). -/
theorem Kept.endUnit (s : State) (r : SlotRef) (uid cause : Nat) (nested : Bool) : Kept s (endUnit s r uid cause nested false) := by
  unfold Machine.endUnit
  split
  · exact .refl s
  next c _ =>
    extract_lets s1 s2 s3 s4 s5 s6 s7 s8
    have put : Kept s s1 := .foldl (fun u x => .putEp ..) _ _
    have released : Kept s1 s2 := Kept.trans (.modTile _ _ _ rfl) (.releaseCouplers ..)
    have returned : Kept s3 s4 := by
      unfold s4
      split
      · split
        · split
          · exact .refl s3
          · exact .sendReturn ..
        · exact .refl s3
      · exact .refl s3
    have swept : Kept s4 s5 := .modTile _ _ _ rfl
    have block : Kept s5 s6 := (Kept.sweepImages ..).trans (.releaseBlk ..)
    have unbound : Kept s6 s7 := ((Kept.endSupervisor ..).trans (.modSlot ..)).trans
      (.modTile _ _ _ ((lasting_unsplitTlb _).trans (lasting_dropRoles ..)))
    have told : Kept s7 s8 := by
      unfold s8
      split
      · exact (Kept.modJob ..).trans (OnlyAsked.askJob ..).kept
      · exact (Kept.modLaunch ..).trans (OnlyAsked.askLaunch ..).kept
    exact (((((put.trans released).trans returned).trans swept).trans block).trans unbound).trans
      (told.trans (OnlyAsked.askWork ..).kept)
theorem Kept.voidOf (s : State) (c : Ctx) (code : Nat) : Kept s (voidOf s c code) := by
  unfold Machine.voidOf
  split
  · exact .refl s
  · split
    · exact .setVoid ..
    · split
      · exact .setVoid ..
      · exact .refl s
theorem Kept.noteSent (s : State) (m : SupMsg) : Kept s (noteSent s m) := by
  unfold Machine.noteSent
  split
  · exact .modJob ..
  · exact .refl s
theorem Kept.takeFault (s : State) (r : SlotRef) (uid code : Nat) (va aux : Word) : Kept s (takeFault s r uid code va aux) := by
  unfold Machine.takeFault
  split
  · exact .refl s
  next c _ =>
    extract_lets s1 w s2
    have voided : Kept s s1 := .voidOf ..
    split
    · exact ((voided.trans (.noteSent ..)).trans (.sendMsg ..)).trans (.endUnit ..)
    · have entered : Kept s s2 := voided.trans (.modUnit ..)
      split
      · split
        · exact entered.trans (.abortEp ..)
        · exact entered
      · exact entered
theorem Kept.faultWait (s : State) (w : Who) (code : Nat) (va aux : Word) : Kept s (faultWait s w code va aux) := by
  unfold Machine.faultWait
  split
  · exact .refl s
  · exact .takeFault ..
theorem Kept.failReply (s : State) (w : Who) (c : Ctx) (p : Park) (code : Nat) (aux : Word) : Kept s (failReply s w c p code aux) := by
  unfold Machine.failReply
  extract_lets i fetches
  split
  · exact (((Kept.noteSent ..).trans (.sendMsg ..)).trans (.modUnit ..)).trans (.modUnit ..)
  · split
    · exact .modUnit ..
    · exact .faultWait ..

/-! ### What is lost (R249, R313, R315) -/

theorem Kept.dropReserved (s : State) (r : SlotRef) (uid : Nat) : Kept s (dropReserved s r uid) := by
  unfold Machine.dropReserved
  split
  · exact .refl s
  · exact (Kept.freeCoupler ..).trans (.modEp ..)
theorem Kept.losePark (s : State) (r : SlotRef) (c : Ctx) (p : Park) (aux : Word) : Kept s (losePark s r c p aux) := by
  unfold Machine.losePark
  extract_lets w
  split
  · split
    · exact (Kept.revertEp ..).trans (.faultWait ..)
    · exact (Kept.revertEp ..).trans (.faultWait ..)
  · exact (Kept.dropReserved ..).trans (.faultWait ..)
  · exact .failReply ..
theorem Kept.loseEv (s : State) (src : Node) (ev : Ev) : Kept s (loseEv s src ev) := by
  unfold Machine.loseEv
  split
  · split
    · exact .push ..
    · split
      · exact .losePark ..
      · exact .refl s
  · exact .foldl (fun u x => .peerClose ..) _ _
  · split
    · exact .push ..
    · exact .refl s
  · have counted : Kept s (Machine.modTile s src fun t => { t with stale := t.stale + 1 }) := .modTile _ _ _ rfl
    dsimp only
    split
    · exact counted.trans (.performed ..)
    · exact counted
  · exact .modTile _ _ _ rfl
theorem fused_pkgAt_map (s : State) (p : Nat) (g : Pkg → Pkg) (keeps : ∀ x, fused (g x) = fused x) :
    fused (aget {} (s.pkgs.map fun (k, x) => (k, g x)) p) = fused (pkgAt s p) := aget_map_keeps {} g fused keeps s.pkgs p
theorem Kept.dropMessage (s : State) (mid : Nat) : Kept s (dropMessage s mid) := by
  unfold Machine.dropMessage
  extract_lets is found s1
  have dropped : Kept s s1 := ⟨⟨rfl, rfl, rfl, fun p => fused_pkgAt_map s p (fun x => { x with
    ports := x.ports.map fun (i, y) => (i, { y with held := y.held.filter fun h => !is h.2 }) }) fun _ => rfl⟩, fun _ => rfl⟩
  exact dropped.trans (.foldl (fun u f => .takeFlit ..) _ _)
theorem Kept.loseFlits (s : State) (pkg : Nat) : Kept s (loseFlits s pkg) := by
  refine .foldl (fun u f => ?_) _ s
  dsimp only
  split
  · exact .dropMessage ..
  · exact (Kept.dropMessage ..).trans (.loseEv ..)
theorem loseFlits_none {s : State} {pkg : Nat} (none : flitsIn s pkg = []) : loseFlits s pkg = s := by rw [loseFlits, none]; rfl

end Sys2Proof.Machine
end

section
/-! Resets of tiles and packages, and the news of them (R189, R205, R249, R314 to R316, R328, R353). -/

namespace Sys2Proof.Machine

/-! ### What a tile's reset does elsewhere: units no longer wait at scratchpads -/

/-- A tile without what waits at its scratchpad. -/
def unwaited (t : Tile) : Tile := { t with waiters := [] }
/-- Of the tiles nothing has changed but what waits at their scratchpads, and nothing waits where nothing did. -/
structure OnlyWaits (s t : State) : Prop extends Steady s t where
  tile : ∀ n, unwaited (tileAt t n) = unwaited (tileAt s n)
  quiet : ∀ n, (tileAt s n).waiters = [] → (tileAt t n).waiters = []

theorem OnlyWaits.trans {s t u : State} (h : OnlyWaits s t) (k : OnlyWaits t u) : OnlyWaits s u :=
  ⟨h.toSteady.trans k.toSteady, fun n => (k.tile n).trans (h.tile n), fun n empty => k.quiet n (h.quiet n empty)⟩
/-- What leaves every tile. -/
theorem Kept.waits {s t : State} (h : Kept s t) (tiles : t.tiles = s.tiles) : OnlyWaits s t := by
  have same (n : Node) : tileAt t n = tileAt s n := by unfold tileAt; rw [tiles]
  exact ⟨h.toSteady, fun n => by rw [same], fun n empty => by rw [same, empty]⟩
theorem OnlyWaits.refl (s : State) : OnlyWaits s s := (Kept.refl s).waits rfl
theorem OnlyAsked.waits {s t : State} (h : OnlyAsked s t) : OnlyWaits s t := h.kept.waits h.tiles
theorem OnlyWaits.foldl {α : Type} {f : State → α → State} (each : ∀ s a, OnlyWaits s (f s a)) (l : List α) (s : State) :
    OnlyWaits s (l.foldl f s) := by
  induction l generalizing s with
  | nil => exact .refl s
  | cons a l ih => exact (each s a).trans (ih _)
theorem OnlyWaits.setVoid (s : State) (h : Word) (b : Nat) : OnlyWaits s (setVoid s h b) := (Kept.setVoid ..).waits rfl
theorem OnlyWaits.modLaunch (s : State) (h : Word) (f : Launch → Launch) : OnlyWaits s (modLaunch s h f) := (Kept.modLaunch ..).waits rfl
theorem OnlyWaits.modJob (s : State) (h : Word) (f : Job → Job) : OnlyWaits s (modJob s h f) := (Kept.modJob ..).waits rfl
theorem OnlyWaits.takeFlit (s : State) (t : Nat) (f : Flit) : OnlyWaits s (takeFlit s t f) := by
  have go (s : State) (g : Flit) : OnlyWaits s (match g.ev with | some ev => push s t phLand (slotKey g.src) ev | none => s) := by
    split
    · exact (OnlyAsked.push ..).waits
    · exact .refl s
  have spaces (x : List Space) : OnlyWaits s { s with spaces := x } := (Kept.spaces ..).waits rfl
  unfold Machine.takeFlit
  dsimp only
  split
  · exact go _ _
  · exact (spaces _).trans (.foldl go _ _)
theorem OnlyWaits.performed (s : State) (id : Nat) : OnlyWaits s (performed s id) := by
  unfold Machine.performed
  split
  · extract_lets s1 s2
    have dropped : OnlyWaits s s1 := Kept.waits (t := s1) (.of_eq rfl rfl rfl rfl rfl) rfl
    have woken : OnlyWaits s1 s2 := (OnlyAsked.unless _ (.wakeEngines ..)).waits
    refine (dropped.trans woken).trans ?_
    split
    · exact (OnlyAsked.unless _ (.askJob ..)).waits
    · exact (OnlyAsked.askLaunch ..).waits
  · exact .refl s
/-- The tiles with some of what waits taken away. -/
def dropped (sel : Waiter → Bool) (r : SlotRef) (uid : Nat) (t : Tile) : Tile :=
  { t with waiters := t.waiters.filter fun w => ¬(w.q.who.slot = r ∧ w.q.who.uid = uid ∧ sel w) }
theorem tileAt_dropUnitWaits (s : State) (sel : Waiter → Bool) (r : SlotRef) (uid : Nat) (n : Node) :
    tileAt (dropUnitWaits s sel r uid) n = dropped sel r uid (tileAt s n) := by
  unfold tileAt dropUnitWaits
  induction s.tiles with
  | nil => rfl
  | cons e l ih =>
    simp only [List.map_cons, aget]
    split
    · rfl
    · exact ih
theorem OnlyWaits.dropUnitWaits (s : State) (sel : Waiter → Bool) (r : SlotRef) (uid : Nat) : OnlyWaits s (dropUnitWaits s sel r uid) :=
  ⟨⟨rfl, rfl, rfl, fun _ => rfl⟩, fun n => by rw [tileAt_dropUnitWaits]; rfl, fun n empty => by
    rw [tileAt_dropUnitWaits, dropped, empty]
    rfl⟩
theorem OnlyWaits.loseUnit (s : State) (r : SlotRef) (c : Ctx) : OnlyWaits s (loseUnit s r c) := by
  unfold Machine.loseUnit
  extract_lets s1 s2
  have off : OnlyWaits s s1 := .dropUnitWaits ..
  have done : OnlyWaits s1 s2 := .foldl (fun u o => .performed ..) _ _
  refine (off.trans done).trans ?_
  split
  · exact (OnlyWaits.modJob ..).trans (OnlyAsked.askJob ..).waits
  · exact (OnlyWaits.modLaunch ..).trans (OnlyAsked.askLaunch ..).waits
theorem OnlyWaits.dropUnsent (s : State) (n : Node) : OnlyWaits s (dropUnsent s n) := by
  unfold Machine.dropUnsent
  extract_lets inj s1 s2
  have emptied : OnlyWaits s s1 := by
    unfold s1
    split
    · exact .refl s
    · exact (Kept.modRouter ..).waits rfl
  have unsent : OnlyWaits s1 s2 := Kept.waits (t := s2) (.of_eq rfl rfl rfl rfl rfl) rfl
  exact (emptied.trans unsent).trans (.foldl (fun u f => .takeFlit ..) _ _)
/-- A tile at which nothing waits is as it was. -/
theorem OnlyWaits.same {s t : State} (h : OnlyWaits s t) {n : Node} (empty : (tileAt s n).waiters = []) : tileAt t n = tileAt s n := by
  calc tileAt t n = { unwaited (tileAt t n) with waiters := (tileAt t n).waiters } := rfl
    _ = { unwaited (tileAt s n) with waiters := (tileAt s n).waiters } := by rw [h.tile n, h.quiet n empty, empty]
    _ = tileAt s n := rfl

/-! ### A tile resets (R314, R328, R353) -/

/-- A tile after its reset: the state of reset under the incarnation after that of x, with what outlives a reset of y. -/
def reborn (x y : Tile) : Tile := { Tile.reset with
  inc := (x.inc + 1) % 256, present := x.present, retiring := x.retiring, logs := y.logs, lostMsgs := y.lostMsgs, stale := y.stale,
  defl := y.defl, errs := y.errs.filter fun e => e.arr = 8 ∨ e.arr = 9 }

theorem resetTile_eq (s : State) (n : Node) : ∃ u, OnlyWaits s u ∧
    resetTile s n = dropUnsent (setTile u n (reborn (tileAt s n) (tileAt s n))) n := by
  unfold resetTile
  extract_lets t s1 s2 s3
  have units : OnlyWaits s s1 := by
    refine .foldl (fun u x => ?_) _ _
    dsimp only
    split
    · exact (OnlyWaits.setVoid ..).trans (.loseUnit ..)
    · exact .loseUnit ..
  have spawns : OnlyWaits s1 s2 := .foldl (fun u e => (OnlyWaits.modLaunch ..).trans (OnlyAsked.askLaunch ..).waits) _ _
  have commands : OnlyWaits s2 s3 := .foldl (fun u q => .performed ..) _ _
  exact ⟨s3, (units.trans spawns).trans commands, rfl⟩
theorem resetTile_steady (s : State) (n : Node) : Steady s (resetTile s n) := by
  obtain ⟨u, before, is⟩ := resetTile_eq s n
  have set : Steady u (setTile u n (reborn (tileAt s n) (tileAt s n))) := ⟨rfl, rfl, rfl, fun _ => rfl⟩
  rw [is]
  exact (before.toSteady.trans set).trans (OnlyWaits.dropUnsent ..).toSteady
theorem resetTile_self (s : State) (n : Node) : tileAt (resetTile s n) n = reborn (tileAt s n) (tileAt s n) := by
  obtain ⟨u, -, is⟩ := resetTile_eq s n
  have set : tileAt (setTile u n (reborn (tileAt s n) (tileAt s n))) n = reborn (tileAt s n) (tileAt s n) := tileAt_setTile_self ..
  rw [is, (OnlyWaits.dropUnsent ..).same (by rw [set]; rfl), set]
theorem resetTile_other (s : State) {n m : Node} (other : nodeKey m ≠ nodeKey n) :
    unwaited (tileAt (resetTile s n) m) = unwaited (tileAt s m) ∧ ((tileAt s m).waiters = [] → (tileAt (resetTile s n) m).waiters = []) := by
  obtain ⟨u, before, is⟩ := resetTile_eq s n
  have after := OnlyWaits.dropUnsent (setTile u n (reborn (tileAt s n) (tileAt s n))) n
  have set := tileAt_setTile_ne u n m (reborn (tileAt s n) (tileAt s n)) other
  rw [is]
  exact ⟨by rw [after.tile, set, before.tile], fun empty => after.quiet m (by rw [set]; exact before.quiet m empty)⟩

/-! ### The news (R314, R315) -/

theorem egressPort_congr {s t : State} (shape : t.shape = s.shape) (p q : Nat) : egressPort t p q = egressPort s p q := by
  unfold egressPort
  rw [shape]
theorem portPeer_congr {s t : State} (shape : t.shape = s.shape) (p port : Nat) : portPeer t p port = portPeer s p port := by
  unfold portPeer
  rw [shape]
theorem dieWay_congr {s t : State} (shape : t.shape = s.shape) (k pkg die : Nat) (port : Bool) (n : Node) :
    dieWay k t pkg die port n = dieWay k s pkg die port n := by
  induction k generalizing pkg die port with
  | zero => rfl
  | succ k ih => simp only [dieWay, egressPort_congr shape, portPeer_congr shape, ih]
theorem flight_congr {s t : State} (shape : t.shape = s.shape) (a b : Node) : flight t a b = flight s a b := by
  unfold flight
  simp only [dieWay_congr shape, egressPort_congr shape]
theorem allPkgs_congr {s t : State} (shape : t.shape = s.shape) : allPkgs t = allPkgs s := by
  unfold allPkgs
  congr 1
  funext p
  simp only [hasPkg, shape]
/-- What a step of a fold asks for is on the agenda at its end. -/
theorem OnlyAsked.foldl_mem {α : Type} {f : State → α → State} (each : ∀ s a, OnlyAsked s (f s a)) {P : Due → Prop} {l : List α} {a : α}
    (mem : a ∈ l) {s : State} (asks : ∀ u, OnlyAsked s u → ∃ e ∈ (f u a).agenda, P e) : ∃ e ∈ (l.foldl f s).agenda, P e := by
  obtain ⟨l1, l2, rfl⟩ := List.mem_iff_append.1 mem
  rw [List.foldl_append, List.foldl_cons]
  obtain ⟨e, found, is⟩ := asks _ (OnlyAsked.foldl f each l1 s)
  exact ⟨e, (OnlyAsked.foldl f each l2 _).agenda e found, is⟩
theorem announce_asked (s : State) (about : Node) (inc : Nat) : OnlyAsked s (announce s about inc) := .foldl _ (fun _ _ => .push ..) _ _
theorem announce_mem {s : State} {p : Nat} (mem : p ∈ allPkgs s) (about : Node) (inc : Nat) : ∃ e ∈ (announce s about inc).agenda,
    e.at_ = s.now + flight s (svcN about.pkg) (svcN p) ∧ e.ev = .incarnationAnnouncementLand p about inc := by
  refine OnlyAsked.foldl_mem (fun _ _ => .push ..) mem fun u asked => ?_
  rw [← asked.now, ← flight_congr asked.kept.shape]
  exact mem_push_new ..

theorem evTileReset_none (s : State) (n : Node) (none : isTile n.id = false ∨ hasPkg s n.pkg = false) : evTileReset n s = s :=
  if_pos (by simpa using none)
theorem evTileReset_resets (s : State) (n : Node) (tile : isTile n.id = true) (here_ : hasPkg s n.pkg = true) :
    evTileReset n s = announce (resetTile s n) n ((((tileAt s n).inc + 1) % 256)) := by
  have inc : (tileAt (resetTile s n) n).inc = ((tileAt s n).inc + 1) % 256 := by rw [resetTile_self]; rfl
  unfold evTileReset
  rw [if_neg (by simp [tile, here_]), ← inc]

/-- The service units of a package learn of a tile's new incarnation, and tell every tile of the package (R314, R315). -/
theorem announcementLand_lands (s : State) (pkg inc : Nat) (n : Node) (one : n.id ≠ 4095) :
    let t := evIncarnationAnnouncementLand pkg n inc s
    aget (0, 0, 0) (pkgAt t pkg).known (nodeKey n) = (inc, s.now, (aget (0, 0, 0) (pkgAt s pkg).known (nodeKey n)).1) ∧ t.mem = s.mem ∧
    ∀ x ∈ s.tiles, (nodeOfKey x.1).pkg = pkg →
      ∃ e ∈ t.agenda, e.at_ = s.now + flight s (svcN pkg) (nodeOfKey x.1) ∧ e.ev = .staleNoticeLand (nodeOfKey x.1) n inc := by
  unfold evIncarnationAnnouncementLand
  rw [if_neg one]
  extract_lets news u t
  have asked : OnlyAsked u t := .foldl _ (fun _ _ => .push ..) _ _
  refine ⟨?_, asked.mem, fun x mem in_ => ?_⟩
  · rw [asked.pkgAt, pkgAt_modPkg_self]
    simp [news, aget]
  · have told : nodeOfKey x.1 ∈ (s.tiles.map fun x => nodeOfKey x.1).filter fun n => n.pkg = pkg :=
      List.mem_filter.2 ⟨List.mem_map.2 ⟨x, mem, rfl⟩, by simpa using in_⟩
    refine OnlyAsked.foldl_mem (fun _ _ => .push ..) told fun v later => ?_
    have now : v.now = s.now := later.now
    have shape : v.shape = s.shape := later.kept.shape
    rw [← now, ← flight_congr shape]
    exact mem_push_new ..

/-! ### A package resets (R316, R364) -/

theorem resetTiles_other (s : State) (pkg i : Nat) (l : List Nat) (others : i ∉ l) :
    unwaited (tileAt (l.foldl (fun s i => resetTile s ⟨pkg, i⟩) s) ⟨pkg, i⟩) = unwaited (tileAt s ⟨pkg, i⟩) ∧
    ((tileAt s ⟨pkg, i⟩).waiters = [] → (tileAt (l.foldl (fun s i => resetTile s ⟨pkg, i⟩) s) ⟨pkg, i⟩).waiters = []) := by
  induction l generalizing s with
  | nil => exact ⟨rfl, id⟩
  | cons a l ih =>
    obtain ⟨first, rest⟩ := not_or.1 (mt List.mem_cons.2 others)
    have keys : nodeKey ⟨pkg, i⟩ ≠ nodeKey ⟨pkg, a⟩ := fun same => first (Nat.add_left_cancel same)
    obtain ⟨tile, none⟩ := resetTile_other s keys
    obtain ⟨tile', none'⟩ := ih (resetTile s ⟨pkg, a⟩) rest
    exact ⟨tile'.trans tile, fun empty => none' (none empty)⟩
/-- Each tile of a list resets once. -/
theorem resetTiles_each (s : State) (pkg i : Nat) (l : List Nat) (mem : i ∈ l) (once : l.Nodup) :
    tileAt (l.foldl (fun s i => resetTile s ⟨pkg, i⟩) s) ⟨pkg, i⟩ = reborn (tileAt s ⟨pkg, i⟩) (tileAt s ⟨pkg, i⟩) := by
  obtain ⟨l1, l2, rfl⟩ := List.mem_iff_append.1 mem
  obtain ⟨-, once2, apart⟩ := List.nodup_append.1 once
  have before : i ∉ l1 := fun also => apart i also i (List.mem_cons_self ..) rfl
  have after : i ∉ l2 := (List.nodup_cons.1 once2).1
  rw [List.foldl_append, List.foldl_cons]
  generalize first : l1.foldl (fun s i => resetTile s ⟨pkg, i⟩) s = u
  obtain ⟨same, -⟩ := resetTiles_other s pkg i l1 before
  rw [first] at same
  obtain ⟨kept, none⟩ := resetTiles_other (resetTile u ⟨pkg, i⟩) pkg i l2 after
  rw [resetTile_self] at kept none
  generalize l2.foldl (fun s i => resetTile s ⟨pkg, i⟩) (resetTile u ⟨pkg, i⟩) = v at kept none
  calc tileAt v ⟨pkg, i⟩ = { unwaited (tileAt v ⟨pkg, i⟩) with waiters := (tileAt v ⟨pkg, i⟩).waiters } := rfl
    _ = reborn (unwaited (tileAt u ⟨pkg, i⟩)) (unwaited (tileAt u ⟨pkg, i⟩)) := by rw [kept, none rfl]; rfl
    _ = reborn (tileAt s ⟨pkg, i⟩) (tileAt s ⟨pkg, i⟩) := by rw [same]; rfl
theorem resetTiles_steady (s : State) (pkg : Nat) (l : List Nat) : Steady s (l.foldl (fun s i => resetTile s ⟨pkg, i⟩) s) := by
  induction l generalizing s with
  | nil => exact (Kept.refl s).toSteady
  | cons a l ih => exact (resetTile_steady ..).trans (ih _)
/-- A tile that has lost no more than what every loss takes is reborn under the same incarnation. -/
theorem reborn_lasting {x y : Tile} (same : lasting y = lasting x) : reborn y y = reborn x y := by
  simp only [lasting, Prod.mk.injEq] at same
  obtain ⟨inc, present, retiring, -⟩ := same
  simp only [reborn, inc, present, retiring]

/-- The jobs of the domain without a package that has reset. -/
def leftJob (pkg : Nat) (j : Job) : Job := { j with
  pkgs := j.pkgs.filter fun p => p ≠ pkg, left := j.left.filter fun p => p ≠ pkg, phaseOpen := j.phaseOpen.filter fun p => p ≠ pkg,
  entered := j.entered.filter fun p => p ≠ pkg, accepted := j.accepted.filter fun p => p ≠ pkg }
theorem tryDecompose_asked (s : State) (pkg : Nat) (job : Word) : OnlyAsked s (tryDecompose s pkg job) := by
  unfold tryDecompose
  split
  · exact .refl s
  · split
    · exact .pushOnce ..
    · exact .refl s
theorem pkg_leftJob (pkg : Nat) (j : Job) : pkg ∉ (leftJob pkg j).pkgs := fun mem => of_decide_eq_true (List.mem_filter.1 mem).2 rfl

/-- What a package's reset does once its tiles have reset: its parts outside the tiles go, it leaves its jobs, which look at what that
completes, and the domain is told (R316, R364). -/
def packageLeft (s : State) (pkg : Nat) : State :=
  let jobs := s.jobs.filter fun j => j.started && !j.done
  let s := { s with
    jobs := s.jobs.map (leftJob pkg)
    ctrls := s.ctrls.filter fun x => (nodeOfKey x.1).pkg ≠ pkg
    routers := s.routers.filter fun x => (nodeOfKey x.1).pkg ≠ pkg
    bar0 := s.bar0.filter fun x => x.1 / 2 ^ 46 ≠ pkg }
  let s := modPkg s pkg (resetPkg s.now (((allPkgs s).map (announcedAt s pkg)).foldl max s.now))
  let s := jobs.foldl (fun s j =>
    let s := askPhaseEnd (askJob s j.handle) j.handle
    match actingOf s j.handle with
    | some a => tryDecompose s a j.handle
    | none => s) s
  announce s (wholePkg pkg) 0
theorem evPackageReset_none (s : State) (pkg : Nat) (none : hasPkg s pkg = false) : evPackageReset pkg s = s := by
  unfold evPackageReset
  exact if_pos (by simp [none])
theorem evPackageReset_eq (s : State) (pkg : Nat) (here_ : hasPkg s pkg = true) :
    evPackageReset pkg s = packageLeft ((List.range 2126).foldl (fun s i => resetTile s ⟨pkg, i⟩) (loseFlits s pkg)) pkg := by
  unfold evPackageReset
  exact if_neg (by simp [here_])
theorem packageLeft_asked (s : State) (pkg : Nat) : ∃ v rejoin, v.now = s.now ∧ v.mem = s.mem ∧ v.tiles = s.tiles ∧ v.pkgs = s.pkgs ∧
    v.jobs = s.jobs.map (leftJob pkg) ∧ OnlyAsked (modPkg v pkg (resetPkg v.now rejoin)) (packageLeft s pkg) := by
  unfold packageLeft
  extract_lets jobs v w x
  refine ⟨v, ((allPkgs v).map (announcedAt v pkg)).foldl max v.now, rfl, rfl, rfl, rfl, rfl, OnlyAsked.trans (t := x) ?_ (announce_asked ..)⟩
  refine .foldl _ (fun y j => ?_) _ _
  have asked : OnlyAsked y (askPhaseEnd (askJob y j.handle) j.handle) := (OnlyAsked.pushOnce ..).trans (.pushOnce ..)
  dsimp only
  split
  · exact asked.trans (tryDecompose_asked ..)
  · exact asked
/-- The state that a package's reset leaves, but for the tiles (R316, R364). -/
theorem packageLeft_leaves (s : State) (pkg : Nat) : let t := packageLeft s pkg
    t.mem = s.mem ∧ (∀ n, tileAt t n = tileAt s n) ∧ (∃ rejoin, pkgAt t pkg = resetPkg s.now rejoin (pkgAt s pkg)) ∧ ∀ j ∈ t.jobs, pkg ∉ j.pkgs := by
  obtain ⟨v, rejoin, now, mem, tiles, pkgs, jobs, asked⟩ := packageLeft_asked s pkg
  have jobs' : (packageLeft s pkg).jobs = s.jobs.map (leftJob pkg) := (congrArg State.jobs asked.rest :).trans jobs
  refine ⟨asked.mem.trans mem, fun n => (asked.tileAt n).trans (by unfold tileAt; exact congrArg (aget _ · _) tiles), ⟨rejoin, ?_⟩, fun j member => ?_⟩
  · rw [asked.pkgAt, pkgAt_modPkg_self, now]
    unfold pkgAt
    rw [pkgs]
  · rw [jobs'] at member
    obtain ⟨k, -, rfl⟩ := List.mem_map.1 member
    exact pkg_leftJob pkg k

/-- The state between the reset of a package's tiles and what the package itself leaves. -/
structure TilesReset (s : State) (pkg : Nat) (u : State) : Prop where
  steady : Steady s u
  each : ∀ i < 2126, tileAt u ⟨pkg, i⟩ = reborn (tileAt (loseFlits s pkg) ⟨pkg, i⟩) (tileAt (loseFlits s pkg) ⟨pkg, i⟩)
  is : evPackageReset pkg s = packageLeft u pkg
theorem tilesReset_exists (s : State) (pkg : Nat) (here_ : hasPkg s pkg = true) : ∃ u, TilesReset s pkg u :=
  ⟨_, (Kept.loseFlits s pkg).toSteady.trans (resetTiles_steady (loseFlits s pkg) pkg (List.range 2126)),
    fun i lt => resetTiles_each (loseFlits s pkg) pkg i _ (List.mem_range.2 lt) List.nodup_range, evPackageReset_eq s pkg here_⟩
/-- A package that resets, with all its tiles (R314, R316, R364). -/
theorem evPackageReset_leaves (s : State) (pkg : Nat) (here_ : hasPkg s pkg = true) : let t := evPackageReset pkg s
    t.mem = s.mem ∧ (pkgAt t pkg).cycleBase = s.now ∧ (pkgAt t pkg).sec = secAfterReset (pkgAt s pkg) ∧ (pkgAt t pkg).launches = [] ∧
    (∀ j ∈ t.jobs, pkg ∉ j.pkgs) ∧
    ∀ i < 2126, let x := tileAt s ⟨pkg, i⟩
      ∃ y, tileAt t ⟨pkg, i⟩ = reborn x y ∧ (flitsIn s pkg = [] → y = x) := by
  obtain ⟨u, steady, each, is⟩ := tilesReset_exists s pkg here_
  obtain ⟨mem, tile, ⟨rejoin, left⟩, jobs⟩ := packageLeft_leaves u pkg
  have kept := steady.pkg pkg
  simp only [fused, Prod.mk.injEq] at kept
  obtain ⟨identity, entered⟩ := kept
  rw [is]
  dsimp only
  rw [left]
  refine ⟨mem.trans steady.mem, steady.now, ?_, rfl, jobs, fun i lt => ⟨tileAt (loseFlits s pkg) ⟨pkg, i⟩, ?_, fun none => ?_⟩⟩
  · simp only [resetPkg, secAfterReset, identity, entered]
  · rw [tile, each i lt]
    exact reborn_lasting ((Kept.loseFlits s pkg).tile ⟨pkg, i⟩)
  · rw [loseFlits_none none]

/-! ### A stale notice lands (R189, R205, R315) -/

/-- A tile with nothing in conversation but its endpoints. -/
structure QuietTile (s : State) (n : Node) : Prop where
  units : tileUnits (tileAt s n) = []
  outs : ∀ z ∈ s.outs, z.slot.node ≠ n
  copy : (tileAt s n).copy = []
  couplers : (tileAt s n).couplers = []
/-- The tile learns the incarnation that the notice tells; that a whole package has reset is told to it alone. -/
def learned (s : State) (n about : Node) (inc : Nat) : State :=
  if about.id = 4095 then s
  else modTile s n fun t => { t with known := (nodeKey about, inc, s.now) :: t.known.filter fun x => x.1 ≠ nodeKey about }
/-- The endpoints of a tile whose conversations a reset ends. -/
def lostEps (t : Tile) (n about : Node) : List (Nat × Endpoint) :=
  t.eps.filter fun (_, x) => x.st = .opened && (x.peer.node ≠ n && concerns about x.peer.node)

theorem learned_tile (s : State) (n about : Node) (inc : Nat) :
    { tileAt (learned s n about inc) n with known := (tileAt s n).known } = tileAt s n := by
  unfold learned
  split
  · rfl
  · rw [tileAt_modTile_self]
theorem QuietTile.learned {s : State} {n : Node} (h : QuietTile s n) (about : Node) (inc : Nat) : QuietTile (learned s n about inc) n := by
  have tile := learned_tile s n about inc
  have outs : (Machine.learned s n about inc).outs = s.outs := by
    unfold Machine.learned
    split <;> rfl
  refine ⟨?_, by rw [outs]; exact h.outs, (congrArg Tile.copy tile :).trans h.copy, (congrArg Tile.couplers tile :).trans h.couplers⟩
  have slots : (tileAt (Machine.learned s n about inc) n).slots = (tileAt s n).slots := (congrArg Tile.slots tile :)
  have units := h.units
  unfold tileUnits at units ⊢
  rw [slots]
  exact units
/-- In a quiet tile a reset ends no more than channels. -/
theorem loseTile_quiet {s : State} {n : Node} (h : QuietTile s n) (about : Node) : loseTile s n about =
    (lostEps (tileAt s n) n about).foldl (fun s x => peerClose s ⟨n.pkg, n.id, x.1⟩ 0 fPeerReset) s := by
  have outs : (s.outs.filter fun o => o.slot.node = n && o.home.any fun x => x ≠ n && concerns about x) = [] :=
    List.filter_eq_nil_iff.2 fun z mem => by simp [h.outs z mem]
  unfold loseTile
  simp only [h.units, h.copy, h.couplers, outs, List.filterMap_nil, List.filter_nil, List.foldl_nil, ite_self]
  rfl

/-- An open endpoint becomes peer-closed with the cause given (R188). -/
theorem peerClose_opened {s : State} {e : EpRef} (opened : (epAt s e).st = .opened) (q cause : Nat) :
    (epAt (peerClose s e q cause) e).st = .peerClosed ∧ (epAt (peerClose s e q cause) e).cause = cause := by
  unfold peerClose
  rw [if_neg (not_not.2 opened), (SameEps.sweepImages ..).ep, epAt_modEp_self]
  exact ⟨rfl, rfl⟩
theorem peerClose_other {s : State} {e e' : EpRef} (other : e'.ep ≠ e.ep) (q cause : Nat) :
    uncoupled (epAt (peerClose s e q cause) e') = uncoupled (epAt s e') := by
  have messages (u : State) : epAt (dropMsgs u e) e' = epAt u e' := by
    unfold dropMsgs
    rw [epAt_modEp_ne _ _ _ _ other]
    exact (SameEps.foldl _ (fun u o => .sendFlit u e o _ _ _) _ u).ep e'
  have packet (u : State) : epAt (dropPacket u e) e' = epAt u e' := by
    unfold dropPacket
    rw [epAt_modEp_ne _ _ _ _ other]
    split
    · exact (SameEps.modUnit ..).ep e'
    · rfl
  unfold peerClose
  dsimp only
  split
  · rfl
  · rw [(SameEps.sweepImages ..).ep, epAt_modEp_ne _ _ _ _ other, (OnlyCouplers.detachOf ..).ep, packet, messages]

/-- An endpoint that a loss has peer-closed (R315). -/
abbrev PeerLost (s : State) (e : EpRef) : Prop := (epAt s e).st = .peerClosed ∧ (epAt s e).cause = 0x13
section
variable {s : State} {n : Node} {i : Nat} (l : List (Nat × Endpoint))

theorem closeEps_lost (lost : PeerLost s ⟨n.pkg, n.id, i⟩) :
    PeerLost (l.foldl (fun s x => peerClose s ⟨n.pkg, n.id, x.1⟩ 0 fPeerReset) s) ⟨n.pkg, n.id, i⟩ := by
  induction l generalizing s with
  | nil => exact lost
  | cons x l ih =>
    refine ih ?_
    by_cases same : i = x.1
    · have closed : peerClose s ⟨n.pkg, n.id, i⟩ 0 fPeerReset = s := if_pos (by rw [lost.1]; decide)
      dsimp only
      rw [← same, closed]
      exact lost
    · have kept := peerClose_other (s := s) (e := ⟨n.pkg, n.id, x.1⟩) (e' := ⟨n.pkg, n.id, i⟩) same 0 fPeerReset
      exact ⟨(congrArg Endpoint.st kept :).trans lost.1, (congrArg Endpoint.cause kept :).trans lost.2⟩
/-- Every endpoint of a list that is open becomes peer-closed, whether it stands there once or more often. -/
theorem closeEps_opened (opened : (epAt s ⟨n.pkg, n.id, i⟩).st = .opened) (mem : i ∈ l.map (·.1)) :
    PeerLost (l.foldl (fun s x => peerClose s ⟨n.pkg, n.id, x.1⟩ 0 fPeerReset) s) ⟨n.pkg, n.id, i⟩ := by
  induction l generalizing s with
  | nil => cases mem
  | cons x l ih =>
    rw [List.foldl_cons]
    by_cases same : i = x.1
    · rw [← same]
      exact closeEps_lost l (peerClose_opened opened 0 fPeerReset)
    · have kept := peerClose_other (s := s) (e := ⟨n.pkg, n.id, x.1⟩) (e' := ⟨n.pkg, n.id, i⟩) same 0 fPeerReset
      exact ih ((congrArg Endpoint.st kept :).trans opened) ((List.mem_cons.1 mem).resolve_left same)
end
/-- The entry of a key that a list has is in it. -/
theorem aget_mem {α : Type} (d : α) (l : List (Nat × α)) (i : Nat) (has : ahas l i = true) : (i, aget d l i) ∈ l := by
  induction l with
  | nil => cases has
  | cons x l ih =>
    obtain ⟨k, v⟩ := x
    unfold aget
    split
    next same => rw [same]; exact List.mem_cons_self ..
    next other =>
      have rest : ahas l i = true := by simpa [ahas, other] using has
      exact List.mem_cons_of_mem _ (ih rest)

/-- Settles O58: a tile's reset, a package's, the announcement that lands at a package, and the notice that lands at a tile. -/
theorem resetsStartANewIncarnation : Obligations.ResetsStartANewIncarnation := by
  unfold Obligations.ResetsStartANewIncarnation
  intro again
  refine ⟨fun s n => ?_, fun s pkg => ?_, fun s pkg inc n one => ⟨_, rfl, announcementLand_lands s pkg inc n one⟩, fun s n about inc => ?_⟩
  · intro x
    refine ⟨fun none => congrArg Host.Outcome.next (evTileReset_none s n none), fun tile here_ => ⟨_, rfl, ?_⟩⟩
    have asked := announce_asked (resetTile s n) n ((x.inc + 1) % 256)
    have steady := resetTile_steady s n
    rw [evTileReset_resets s n tile here_]
    refine ⟨asked.mem.trans steady.mem, (asked.tileAt n).trans (resetTile_self s n), fun p mem => ?_⟩
    rw [← steady.now, ← flight_congr steady.shape]
    exact announce_mem (by rw [allPkgs_congr steady.shape]; exact mem) ..
  · exact ⟨fun none => congrArg Host.Outcome.next (evPackageReset_none s pkg none), fun here_ => ⟨_, rfl, evPackageReset_leaves s pkg here_⟩⟩
  · intro x o u quiet
    have ends (is : quiet) : evStaleNoticeLand n about inc s =
        (lostEps (tileAt u n) n about).foldl (fun s x => peerClose s ⟨n.pkg, n.id, x.1⟩ 0 fPeerReset) u := by
      obtain ⟨units, outs, copy, couplers⟩ := is
      exact loseTile_quiet (QuietTile.learned ⟨units, outs, copy, couplers⟩ about inc) about
    have tile := learned_tile s n about inc
    have eps : (tileAt u n).eps = x.eps := (congrArg Tile.eps tile :)
    refine ⟨fun is none => ?_, fun is => ⟨_, rfl, ?_⟩⟩
    · have empty : lostEps (tileAt u n) n about = [] := by rw [lostEps, eps, none]; rfl
      exact congrArg Host.Outcome.next ((ends is).trans (by rw [empty]; rfl))
    · have kept : Kept u (evStaleNoticeLand n about inc s) := ends is ▸ .foldl (fun v x => .peerClose ..) _ _
      have same := kept.tile n
      simp only [lasting, Prod.mk.injEq] at same
      obtain ⟨-, -, -, known⟩ := same
      have mem : u.mem = s.mem := by
        unfold u
        split <;> rfl
      refine ⟨kept.mem.trans mem, known, fun i opened away concerned has => ?_⟩
      have at_ : (tileAt u n).epAt i = x.epAt i := by unfold Tile.epAt; rw [eps]
      have listed : i ∈ (lostEps (tileAt u n) n about).map (·.1) := by
        rw [lostEps, eps]
        refine List.mem_map.2 ⟨(i, x.epAt i), List.mem_filter.2 ⟨aget_mem _ _ _ has, ?_⟩, rfl⟩
        simp [opened, away, concerned]
      rw [ends is]
      exact closeEps_opened _ ((congrArg Endpoint.st at_).trans opened) listed

end Sys2Proof.Machine
end

section
/-! The forms on couplers (R201, R206 to R209): each case of RC.CONF, RC.READ, RC.BIND and RC.FREE, and what each leaves of its coupler. -/

namespace Sys2Proof.Machine

/-! ### The couplers of a tile (R201) -/

theorem aget_aerase_self {α : Type} (d : α) (l : List (Nat × α)) (i : Nat) : aget d (aerase l i) i = d := by
  induction l with
  | nil => rfl
  | cons e l ih =>
    unfold aerase at ih ⊢
    by_cases same : e.1 = i
    · rw [List.filter_cons_of_neg (by simpa using same)]
      exact ih
    · rw [List.filter_cons_of_pos (by simpa using same)]
      exact (if_neg same).trans ih
theorem couplerAt_modCoupler_self (s : State) (n : Node) (i : Nat) (f : Coupler → Coupler) :
    couplerAt (modCoupler s n i f) n i = f (couplerAt s n i) := by
  unfold couplerAt modCoupler
  rw [tileAt_modTile_self]
  exact aget_aset_self ..
theorem OnlyAsked.couplerAt {s t : State} (h : OnlyAsked s t) (n : Node) (i : Nat) : couplerAt t n i = couplerAt s n i := by
  unfold Machine.couplerAt
  rw [h.tileAt]

/-- The unit that issues holds a coupler of its tile (R201). -/
abbrev HoldsRc (s : State) (i : Nat) : Prop :=
  (couplerAt s s.cur.node i).holder = some (s.cur.slot, (me s).uid) ∧ (couplerAt s s.cur.node i).st ≠ .reserved

theorem holdsCoupler_iff (s : State) (i : Nat) : holdsCoupler s s.cur (me s) i = true ↔ HoldsRc s i := by
  unfold holdsCoupler
  simp

section
variable {s : State} {n : BitVec 4}

/-- A form on a coupler that its unit does not hold faults with the coupler's number (R201). -/
theorem runForm_rcNotHeld {f : Form} {body : State → SlotRef → Ctx → Act} {a : Act} (hr : Ready s f.h f.srcs f.dsts f.rgn)
    (is : body s s.cur (me s) = if !holdsCoupler s s.cur (me s) n.toNat then notHeld n else a) (no : ¬ HoldsRc s n.toNat) :
    Faults s 0x03 0 (BitVec.ofNat 64 n.toNat) (runForm f body s) :=
  runForm_trap f body s _ _ _ hr (is.trans (if_pos (by simpa using mt (holdsCoupler_iff s n.toNat).1 no)))
theorem rcAct_held (held : HoldsRc s n.toNat) (a : Act) :
    (if !holdsCoupler s s.cur (me s) n.toNat then notHeld n else a) = a := by
  rw [(holdsCoupler_iff s n.toNat).2 held]
  rfl
end

/-! ### Asking for samples (R203) -/

theorem nextSample_congr {s t : State} {n : Node} (now : t.now = s.now) (base : (pkgAt t n.pkg).cycleBase = (pkgAt s n.pkg).cycleBase)
    (p : Nat) : nextSample t n p = nextSample s n p := by
  unfold nextSample cycleOf
  rw [now, base]
theorem mem_askSample (s : State) (n : Node) (i p : Nat) :
    ∃ e ∈ (askSample s n i p).agenda, e.ev = .couplerSample n i ∧ e.at_ = nextSample s n p := by
  obtain ⟨e, mem, at_, ev⟩ := mem_pushOnce s (nextSample s n p) phEnd (nodeKey n) (.couplerSample n i)
  exact ⟨e, mem, ev, at_⟩
theorem OnlyAsked.askSample (s : State) (n : Node) (i p : Nat) : OnlyAsked s (askSample s n i p) := .pushOnce ..

/-! ### RC.CONF (R207, R209) -/

/-- A coupler under a new configuration word: the first starts its accumulator, a later one cuts it to its bound (R209). -/
def configured (k : Coupler) (x : Word) : Coupler :=
  let y : Coupler := { k with conf := x, st := .running }
  let lim : Int := 16 * y.umax
  if k.st = .bound then { y with acc := 0, eprev := 0 } else { y with acc := clampInt (-lim) lim k.acc }
/-- The state in which a coupler has its new configuration, and its samples are asked for anew. -/
def rcConfigured (s : State) (i : Nat) (x : Word) : State :=
  reSample (modCoupler s s.cur.node i fun _ => configured (couplerAt s s.cur.node i) x) s.cur.node i (Coupler.period { conf := x })

section
variable (k : Coupler) (x : Word)

theorem configured_conf : (configured k x).conf = x := by unfold configured; extract_lets; split <;> rfl
theorem configured_st : (configured k x).st = .running := by unfold configured; extract_lets; split <;> rfl
theorem configured_first (first : k.st = .bound) : (configured k x).acc = 0 ∧ (configured k x).eprev = 0 := by
  unfold configured
  simp [first]
theorem configured_later (later : k.st ≠ .bound) : (configured k x).eprev = k.eprev ∧
    (configured k x).acc = clampInt (-(16 * (Coupler.umax { conf := x } : Int))) (16 * (Coupler.umax { conf := x } : Int)) k.acc := by
  unfold configured
  simp only [later, if_false, true_and]
  rfl
theorem configured_period : (configured k x).period = Coupler.period { conf := x } := by
  unfold Coupler.period
  rw [configured_conf]
end
theorem couplerAt_rcConfigured (s : State) (i : Nat) (x : Word) :
    couplerAt (rcConfigured s i x) s.cur.node i = configured (couplerAt s s.cur.node i) x :=
  ((OnlyAsked.askSample ..).couplerAt ..).trans (couplerAt_modCoupler_self s s.cur.node i fun _ => configured (couplerAt s s.cur.node i) x)

section
variable {s : State} {h : Hdr} {n : BitVec 4} {a : SIx} (hr : Ready s h [.s a] [] false)
include hr

theorem rcConf_notHeld (no : ¬ HoldsRc s n.toNat) : Faults s 0x03 0 (BitVec.ofNat 64 n.toNat) (exec (.rcConf h n a) s) :=
  runForm_rcNotHeld (f := { i := .rcConf h n a, h := h, srcs := [.s a] }) hr rfl no
variable (held : HoldsRc s n.toNat)
include held

theorem rcConf_detached (detached : (couplerAt s s.cur.node n.toNat).st = .detached) : Faults s 0x03 0 0 (exec (.rcConf h n a) s) :=
  runForm_trap _ _ s fOperand 0 0 hr ((rcAct_held held _).trans (if_pos detached))
variable (attached : (couplerAt s s.cur.node n.toNat).st ≠ .detached)
include attached

theorem rcConf_refused (b : Nat) (bad : confBad (rs (me s) a) (streamCap (imageOf s s.cur.node
      (epAt s ⟨s.cur.pkg, s.cur.tile, (couplerAt s s.cur.node n.toNat).ep⟩).img)) = some b) :
    Faults s 0x1E 0 (BitVec.ofNat 64 b) (exec (.rcConf h n a) s) :=
  runForm_trap _ _ s fCoupler 0 _ hr ((rcAct_held held _).trans ((if_neg attached).trans (by simp only [bad])))
theorem rcConf_done (good : confBad (rs (me s) a) (streamCap (imageOf s s.cur.node
      (epAt s ⟨s.cur.pkg, s.cur.tile, (couplerAt s s.cur.node n.toNat).ep⟩).img)) = none) :
    DoneIn s h (rcConfigured s n.toNat (rs (me s) a)) (exec (.rcConf h n a) s) := by
  refine runForm_done _ _ s _ hr ((rcAct_held held _).trans ((if_neg attached).trans ?_))
  simp only [good]
  unfold rcConfigured
  rw [← configured_period (couplerAt s s.cur.node n.toNat) (rs (me s) a)]
  rfl
end

/-! ### RC.READ (R208, R209) -/

section
variable {s : State} {h : Hdr} {n : BitVec 4} {w : RcW} {d : SIx} (hr : Ready s h [] [.s d] false)
include hr

theorem rcRead_notHeld (no : ¬ HoldsRc s n.toNat) : Faults s 0x03 0 (BitVec.ofNat 64 n.toNat) (exec (.rcRead h n w d) s) :=
  runForm_rcNotHeld (f := { i := .rcRead h n w d, h := h, dsts := [.s d] }) hr rfl no
theorem rcRead_results (held : HoldsRc s n.toNat) :
    Results s h [] 3 [(.s d, BitVec.ofNat 2048 (rcWord (couplerAt s s.cur.node n.toNat) w))] (exec (.rcRead h n w d) s) :=
  runForm_results _ _ s 3 [] _ hr (rcAct_held held _)
end

/-! ### RC.BIND (R201, R209) -/

/-- A coupler of the issuing tile is free. -/
abbrev FreeRc (s : State) (i : Nat) : Prop := (couplerAt s s.cur.node i).st = .free
/-- An endpoint is one of a stream that a coupler can join: open, under an image with a window, and without a coupler (R201). -/
abbrev StreamEp (s : State) (ep : EIx) : Prop :=
  (epAt s (ownEp s.cur ep)).st = .opened ∧ (epImg s ep).window ≠ 0 ∧ (epImg s ep).laRecv = (epImg s ep).window ∧
    (epAt s (ownEp s.cur ep)).coupler = none
/-- The coupler that RC.BIND takes: the one named, or for 16 the first free one. -/
def rcPick (s : State) (m : Nat) : Option Nat :=
  if m = 16 then (List.range 16).find? fun i => decide (FreeRc s i) else if decide (FreeRc s m) then some m else none
/-- The state in which a coupler is reserved for an endpoint of the unit that issues. -/
def rcReserved (s : State) (ep : EIx) (j : Nat) : State :=
  modEp (modCoupler s s.cur.node j fun _ => { st := .reserved, holder := some (s.cur.slot, (me s).uid), ep := ep.toNat }) (ownEp s.cur ep)
    fun x => { x with coupler := some j }

theorem rcPick_none {s : State} {m : Nat} (taken : (m = 16 ∧ ∀ j < 16, ¬ FreeRc s j) ∨ (m < 16 ∧ ¬ FreeRc s m)) : rcPick s m = none := by
  unfold rcPick
  rcases taken with ⟨any, taken⟩ | ⟨one, taken⟩
  · rw [if_pos any]
    exact List.find?_range_eq_none.2 fun j lt => by simpa using taken j lt
  · rw [if_neg (by omega), decide_eq_false taken]
    rfl
theorem rcPick_some {s : State} {m j : Nat} (lt : j < 16) (free : FreeRc s j) (named : m = j ∨ (m = 16 ∧ ∀ i < j, ¬ FreeRc s i)) :
    rcPick s m = some j := by
  unfold rcPick
  rcases named with rfl | ⟨any, first⟩
  · rw [if_neg (by omega), decide_eq_true free]
    rfl
  · rw [if_pos any]
    exact List.find?_range_eq_some.2 ⟨decide_eq_true free, List.mem_range.2 lt, fun i below => by simpa using first i below⟩

/-- What a form answers that asks a service in a state in which its unit is as it was. -/
theorem svcAct_asked {s u : State} (cur : u.cur = s.cur) (no : u.no = s.no) (ctx : ctxAt u s.cur = me s) (peer : Node) (k : SvcKind) (lim : Nat)
    (ev : SvcReq → Ev) :
    svcAct u s.cur (me s) peer none k lim ev = .wait (svcAsked u (svcOf s peer none k) ev) s.no .reply lim 0 0 [] := by
  unfold svcAct svcAsked svcSent svcOf newWait svcReq me
  rw [cur, ctx, no]
theorem svcAsked_now (s : State) (q : SvcReq) (ev : SvcReq → Ev) : (svcAsked s q ev).now = s.now := by
  unfold svcAsked asks
  rw [modUnit_now, (svcSent_sent ..).now]
theorem ctxAt_rcReserved (s : State) (ep : EIx) (j : Nat) (r : SlotRef) : ctxAt (rcReserved s ep j) r = ctxAt s r :=
  (congrArg Slot.ctx (slotAt_modEp ..)).trans (ctxAt_modTile_keep _ _ _ _ rfl)

section
variable {s : State} {h : Hdr} {m : BitVec 5} {ep : EIx} {d : SIx} (hr : Ready s h [] [.s d] false)
include hr

theorem rcBind_beyond (far : 16 < m.toNat) : Faults s 0x03 0 0 (exec (.rcBind h m ep d) s) :=
  runForm_trap _ _ s fOperand 0 0 hr (if_pos far)
variable (near : m.toNat ≤ 16)
include near

theorem rcBind_notOwned (no : ownsEp s s.cur (me s).uid ep.toNat = false) :
    Faults s 0x0D 0 (BitVec.ofNat 64 ep.toNat) (exec (.rcBind h m ep d) s) :=
  runForm_trap _ _ s fNotOwned 0 _ hr ((if_neg (Nat.not_lt.2 near)).trans (if_pos (by rw [no]; rfl)))
variable (owned : ownsEp s s.cur (me s).uid ep.toNat = true)
include owned

theorem rcBind_notStream (bad : ¬ StreamEp s ep) : Faults s 0x03 0 0 (exec (.rcBind h m ep d) s) := by
  refine runForm_trap _ _ s fOperand 0 0 hr ((if_neg (Nat.not_lt.2 near)).trans ((if_neg (by simp [owned])).trans (if_pos ?_)))
  rw [StreamEp, not_and_or, not_and_or, not_and_or, not_not] at bad
  simpa [Option.isSome_iff_ne_none, epImg] using bad
variable (good : StreamEp s ep)
include good

omit near owned hr in
theorem streamEp_passes : ¬ ((epAt s (ownEp s.cur ep)).st ≠ .opened ∨ (epImg s ep).window = 0 ∨ (epImg s ep).laRecv ≠ (epImg s ep).window ∨
    (epAt s (ownEp s.cur ep)).coupler.isSome = true) := by
  simpa [not_or] using good
theorem rcBind_none (none : rcPick s m.toNat = none) :
    Results s h [] 3 [(.s d, sval (BitVec.allOnes 64))] (exec (.rcBind h m ep d) s) := by
  refine runForm_results _ _ s 3 [] _ hr ((if_neg (Nat.not_lt.2 near)).trans ((if_neg (by simp [owned])).trans
    ((if_neg (streamEp_passes good)).trans ?_)))
  unfold rcPick at none
  simp only [none]
theorem rcBind_reserves (j : Nat) (some : rcPick s m.toNat = some j) :
    Parks s h (waitBy s (.rcBind h m ep d) s.no .reply 0 0 0 []) (svcAsked (rcReserved s ep j) (svcOf s (epAt s (ownEp s.cur ep)).peer.node none
      (.rcBind (epAt s (ownEp s.cur ep)).peer j)) .rcBindRequest) (exec (.rcBind h m ep d) s) := by
  refine runForm_waitNow { i := .rcBind h m ep d, h := h, dsts := [.s d] } _ s _ s.no .reply 0 0 0 [] hr (svcAsked_now ..) ?_
  refine (if_neg (Nat.not_lt.2 near)).trans ((if_neg (by simp [owned])).trans ((if_neg (streamEp_passes good)).trans ?_))
  unfold rcPick at some
  simp only [some]
  exact svcAct_asked (s := s) (u := rcReserved s ep j) rfl rfl (ctxAt_rcReserved ..) _ _ 0 _
end

/-! ### RC.FREE (R205, R209) -/

section
variable {s : State} {h : Hdr} {n : BitVec 4} (hr : Ready s h [] [] false)
include hr

theorem rcFree_notHeld (no : ¬ HoldsRc s n.toNat) : Faults s 0x03 0 (BitVec.ofNat 64 n.toNat) (exec (.rcFree h n) s) :=
  runForm_rcNotHeld (f := { i := .rcFree h n, h := h }) hr rfl no
theorem rcFree_done (held : HoldsRc s n.toNat) : DoneIn s h (freeCoupler s s.cur.node n.toNat) (exec (.rcFree h n) s) :=
  runForm_done _ _ s _ hr (rcAct_held held _)
end
theorem couplerAt_freeCoupler (s : State) (n : Node) (i : Nat) : couplerAt (freeCoupler s n i) n i = {} := by
  unfold freeCoupler couplerAt
  extract_lets
  rw [tileAt_modTile_self]
  exact aget_aerase_self ..
/-- The last message of a coupler whose producer lies on its tile frees its remote entry at once (R205). -/
theorem sendTerm_releases (s : State) (c : EpRef) (p : SlotRef) (pin : Option Word) (same : p.node = c.node) :
    ∀ m ∈ (tileAt (sendTerm s c p none pin) c.node).remotes, m.owner ≠ c := by
  unfold sendTerm
  simp only [if_pos same, Option.isNone_none, if_true, tileAt_modTile_self]
  intro m mem
  simpa using (List.mem_filter.1 mem).2
theorem freeCoupler_releases {s : State} {n : Node} {i : Nat} (used : (couplerAt s n i).st ≠ .free) (taken : (couplerAt s n i).st ≠ .reserved)
    (same : (couplerAt s n i).producer.node = n) : ∀ m ∈ (tileAt (freeCoupler s n i) n).remotes, m.owner ≠ ⟨n.pkg, n.id, i⟩ := by
  unfold freeCoupler
  extract_lets c s1 s2
  rw [tileAt_modTile_self]
  have told : s2 = sendTerm s1 ⟨n.pkg, n.id, i⟩ c.producer none (holderPin s1 n c) := by
    unfold s2
    split
    · exact absurd ‹_› used
    · exact absurd ‹_› taken
    · rfl
  rw [told]
  exact sendTerm_releases _ _ _ _ same

end Sys2Proof.Machine
end

section
/-! Samples of couplers, and the messages between the tiles of a coupler (R202 to R205, R209). -/

namespace Sys2Proof.Machine

/-! ### Sending leaves the clocks of the packages (R99) -/

/-- CYCLE counts from the same cycle as before in every package (R99). -/
structure SameBase (s t : State) : Prop where
  base : ∀ p, (pkgAt t p).cycleBase = (pkgAt s p).cycleBase

theorem SameBase.of_pkgs {s t : State} (same : t.pkgs = s.pkgs) : SameBase s t := ⟨fun p => by rw [pkgAt_congr same]⟩
theorem SameBase.trans {s t u : State} (h : SameBase s t) (k : SameBase t u) : SameBase s u := ⟨fun p => (k.base p).trans (h.base p)⟩
theorem SameBase.refl (s : State) : SameBase s s := ⟨fun _ => rfl⟩
theorem SameBase.foldl {α : Type} {f : State → α → State} (each : ∀ s a, SameBase s (f s a)) (l : List α) (s : State) : SameBase s (l.foldl f s) := by
  induction l generalizing s with
  | nil => exact ⟨fun _ => rfl⟩
  | cons a l ih => exact (each s a).trans (ih _)
theorem SameBase.modPkg (s : State) (p : Nat) (f : Pkg → Pkg) (keeps : ∀ x, (f x).cycleBase = x.cycleBase) : SameBase s (modPkg s p f) := by
  refine ⟨fun q => ?_⟩
  by_cases same : q = p
  · rw [same, pkgAt_modPkg_self, keeps]
  · rw [pkgAt_modPkg_ne _ _ _ _ same]
theorem SameBase.setVoid (s : State) (h : Word) (b : Nat) : SameBase s (setVoid s h b) := by
  unfold Machine.setVoid modLaunch
  exact .modPkg _ _ _ fun _ => rfl
theorem SameBase.modRouter (s : State) (n : Node) (f : Router → Router) : SameBase s (modRouter s n f) := .of_pkgs rfl
theorem SameBase.book (s : State) (k : List Nat) (cap t : Nat) (half : Option Bool) : SameBase s (book s k cap t half).1 := .of_pkgs rfl
theorem SameBase.push (s : State) (a p k : Nat) (e : Ev) : SameBase s (push s a p k e) := .of_pkgs rfl
theorem SameBase.pushOnce (s : State) (a p k : Nat) (e : Ev) : SameBase s (pushOnce s a p k e) := .of_pkgs (OnlyAsked.pushOnce ..).pkgs
theorem pkgs_takeFlit (s : State) (t : Nat) (f : Flit) : (takeFlit s t f).pkgs = s.pkgs := by
  have go (u : State) (g : Flit) : State.pkgs (match g.ev with | some ev => Machine.push u t phLand (slotKey g.src) ev | none => u) = u.pkgs := by
    split <;> rfl
  unfold takeFlit
  dsimp only
  split
  · exact go _ _
  · exact foldl_keeps State.pkgs go _ _
theorem pkgs_ejectFlit (s : State) (t : Nat) (f : Flit) : (ejectFlit s t f).pkgs = s.pkgs := by
  unfold ejectFlit
  dsimp only
  split
  · split <;> exact pkgs_takeFlit ..
  · exact pkgs_takeFlit ..
theorem pkgs_ejectDie (s : State) (t : Nat) (f : Flit) : (ejectDie s t f).pkgs = s.pkgs := by
  unfold ejectDie
  split <;> exact pkgs_ejectFlit ..
theorem SameBase.arriveAt (s : State) (n : Node) (t : Nat) (half : Bool) (f : Flit) : SameBase s (arriveAt s n t half f) :=
  (SameBase.modRouter ..).trans (.pushOnce ..)
theorem SameBase.portSend (s : State) (p port t : Nat) (f : Flit) : SameBase s (portSend s p port t f) := by
  unfold Machine.portSend
  extract_lets p' s1 x
  split
  · have late : SameBase s s1 := by
      unfold s1
      split
      · split
        · exact .setVoid ..
        · exact .refl s
      · exact .refl s
    exact late.trans (.of_pkgs rfl)
  · refine SameBase.trans ?_ (.push ..)
    exact .modPkg _ _ _ fun _ => rfl
theorem SameBase.dieArrive (s : State) (p die t : Nat) (b : Bool) (f : Flit) : SameBase s (dieArrive s p die t b f) := by
  unfold Machine.dieArrive
  extract_lets pass enter port
  have entered (col : Nat) : SameBase s (enter col) := (SameBase.book ..).trans (.arriveAt ..)
  split
  · split
    · exact entered _
    · split
      · exact .of_pkgs (pkgs_ejectDie ..)
      · exact entered _
  · split
    · exact .portSend ..
    · exact entered _
theorem SameBase.leaveDie (s : State) (n : Node) (f : Flit) : SameBase s (leaveDie s n f) := by
  unfold Machine.leaveDie
  extract_lets x
  have left : SameBase s x.1 := by
    unfold x
    split <;> exact ⟨fun _ => rfl⟩
  split
  · exact left.trans (.of_pkgs (pkgs_ejectDie ..))
  · split
    · exact left.trans (.of_pkgs (pkgs_ejectDie ..))
    · exact left.trans (.dieArrive ..)
theorem SameBase.sendMsg (s : State) (src : SlotRef) (a b : Node) (typ n : Nat) (sp : List Nat) (pin : Option Word) (r : Bool) (e : Ev) :
    SameBase s (sendMsg s src a b typ n sp pin r e) := by
  unfold Machine.sendMsg sendParts
  extract_lets sp' q pin' base fl s1 s2
  have numbered : SameBase s s2 := by
    unfold s2 s1
    split <;> exact ⟨fun _ => rfl⟩
  split
  · exact ((numbered.trans (.modRouter ..)).trans (.pushOnce ..)).trans (.pushOnce ..)
  · exact numbered.trans (.foldl (fun u f => .leaveDie u a f) _ _)

/-! ### Terms on slots (R203, R204) -/

theorem terms_setTerm_self (s : State) (r : SlotRef) (key : EpRef) (u : Int) (lt : r.slot < 16) :
    (slotAt (setTerm s r key u) r).terms = (if u = 0 then [] else [(key, u)]) ++ (slotAt s r).terms.filter fun t => t.1 ≠ key := by
  unfold setTerm
  rw [slotAt_modSlot_self _ _ _ lt]
/-- Setting the term of a coupler leaves every other coupler's on the slots of the tile. -/
theorem mem_terms_setTerm {s : State} {r : SlotRef} {key : EpRef} {u : Int} {l : Nat} {x : EpRef × Int} (lt : l < 16) (other : x.1 ≠ key)
    (mem : x ∈ (slotAt s ⟨r.pkg, r.tile, l⟩).terms) : x ∈ (slotAt (setTerm s r key u) ⟨r.pkg, r.tile, l⟩).terms := by
  by_cases same : l = r.slot
  · subst same
    rw [terms_setTerm_self s r key u lt]
    exact List.mem_append.2 (.inr (List.mem_filter.2 ⟨mem, decide_eq_true other⟩))
  · rwa [setTerm, slotAt_modSlot_ne _ _ _ _ same]
/-- What a coupler sends its producer's side leaves every other term on the slots of its tile. -/
theorem mem_terms_sendTerm {s : State} {c : EpRef} {p : SlotRef} {u : Option Int} {pin : Option Word} {l : Nat} {x : EpRef × Int} (lt : l < 16)
    (other : x.1 ≠ prodKey c) (mem : x ∈ (slotAt s ⟨c.pkg, c.tile, l⟩).terms) :
    x ∈ (slotAt (sendTerm s c p u pin) ⟨c.pkg, c.tile, l⟩).terms := by
  unfold sendTerm
  split
  next same =>
    obtain ⟨pkg, tile⟩ : c.pkg = p.pkg ∧ c.tile = p.tile := by
      injection same with pkg tile
      exact ⟨pkg.symm, tile.symm⟩
    rw [pkg, tile] at mem ⊢
    have kept := mem_terms_setTerm (u := -(u.getD 0)) lt other mem
    dsimp only
    split
    · rwa [slotAt_modTile_keep _ _ _ _ rfl]
    · exact kept
  · rwa [(OnlySent.sendMsg ..).slotAt]
theorem SameBase.sendTerm (s : State) (c : EpRef) (p : SlotRef) (u : Option Int) (pin : Option Word) : SameBase s (sendTerm s c p u pin) := by
  unfold Machine.sendTerm
  split
  · dsimp only
    split <;> exact ⟨fun _ => rfl⟩
  · exact .sendMsg ..
theorem prodKey_ne (c : EpRef) : c ≠ prodKey c := fun same => absurd (congrArg EpRef.ep same) (Nat.ne_of_lt (Nat.lt_add_of_pos_right (by decide)))

/-! ### Samples (R203) -/

section
variable {s : State} {n : Node} {i : Nat}

theorem couplerSample_idle (idle : (couplerAt s n i).st ≠ .running) : exec (.couplerSample n i) s = .next s :=
  congrArg Host.Outcome.next (if_pos idle)

/-- A coupler after a sample of it. -/
def sampled (s : State) (n : Node) (i : Nat) : Coupler :=
  sampleOnce (imageOf s n (epAt s ⟨n.pkg, n.id, (couplerAt s n i).ep⟩).img) (epAt s ⟨n.pkg, n.id, (couplerAt s n i).ep⟩) (couplerAt s n i)
/-- The state in which the output of a sample acts on the holder's slot, and the producer's side is told where it has changed (R203, R204). -/
def outputSent (s : State) (n : Node) (i : Nat) : State :=
  let c := couplerAt s n i
  let d := sampled s n i
  let s := match c.holder with
    | some (l, _) => setTerm s ⟨n.pkg, n.id, l⟩ ⟨n.pkg, n.id, i⟩ d.u
    | none => s
  if d.u = c.sent then s else sendTerm s ⟨n.pkg, n.id, i⟩ c.producer (some d.u) (holderPin s n c)

theorem outputSent_kept (s : State) (n : Node) (i : Nat) : Kept s (outputSent s n i) ∧ SameBase s (outputSent s n i) := by
  unfold outputSent
  extract_lets c d s1
  have held : Kept s s1 ∧ SameBase s s1 := by
    unfold s1
    split
    · exact ⟨.modSlot .., ⟨fun _ => rfl⟩⟩
    · exact ⟨.refl s, .refl s⟩
  split
  · exact held
  · exact ⟨held.1.trans (.sendTerm ..), held.2.trans (.sendTerm ..)⟩
/-- The output of a sample is among the terms of the holder's slot. -/
theorem mem_terms_outputSent {l u : Nat} (holder : (couplerAt s n i).holder = some (l, u)) (lt : l < 16) (some : (sampled s n i).u ≠ 0) :
    ((⟨n.pkg, n.id, i⟩ : EpRef), (sampled s n i).u) ∈ (slotAt (outputSent s n i) ⟨n.pkg, n.id, l⟩).terms := by
  unfold outputSent
  simp only [holder]
  have held : ((⟨n.pkg, n.id, i⟩ : EpRef), (sampled s n i).u) ∈
      (slotAt (setTerm s ⟨n.pkg, n.id, l⟩ ⟨n.pkg, n.id, i⟩ (sampled s n i).u) ⟨n.pkg, n.id, l⟩).terms := by
    rw [terms_setTerm_self _ _ _ _ lt, if_neg some]
    exact List.mem_cons_self
  split
  · exact held
  · exact mem_terms_sendTerm (c := ⟨n.pkg, n.id, i⟩) lt (prodKey_ne _) held
/-- A sample of a running coupler that is due (R203). -/
theorem couplerSample_runs (running : (couplerAt s n i).st = .running) (due : sampleDue s n (couplerAt s n i).period = true)
    (here : couplerAway s n (couplerAt s n i) = false) : exec (.couplerSample n i) s = .next (askSample
      (modCoupler (outputSent s n i) n i fun _ => { sampled s n i with sent := (sampled s n i).u }) n i (couplerAt s n i).period) := by
  refine congrArg Host.Outcome.next ((if_neg (not_not.2 running)).trans (if_neg ?_))
  rw [due, here]
  simp
end

/-! ### The remote entry of the producer's tile (R204, R205) -/

section
variable {s : State} {n : Node} {owner : EpRef}

theorem controlFlit_none (u : Option Int) (none : ((tileAt s n).remotes.find? fun m => m.owner = owner) = none) :
    exec (.couplerControlFlitLand n owner u) s = .next s := by
  refine congrArg Host.Outcome.next ?_
  unfold evCouplerControlFlitLand
  rw [none]
theorem remotes_setTerm (s : State) (r : SlotRef) (key : EpRef) (u : Int) (n : Node) : (tileAt (setTerm s r key u) n).remotes = (tileAt s n).remotes :=
  modTile_keeps Tile.remotes s r.node _ n (congrArg Tile.remotes (modSlot_rest ..) :)
theorem controlFlit_some (u : Option Int) {m : RemoteEntry} (found : ((tileAt s n).remotes.find? fun m => m.owner = owner) = some m)
    (lt : m.slot < 16) : ∃ t, exec (.couplerControlFlitLand n owner u) s = .next t ∧
      (tileAt t n).remotes = (if u = none then (tileAt s n).remotes.erase m else (tileAt s n).remotes) ∧
      (slotAt t ⟨n.pkg, n.id, m.slot⟩).terms = (if u.getD 0 = 0 then [] else [(prodKey owner, -(u.getD 0))]) ++
        (slotAt s ⟨n.pkg, n.id, m.slot⟩).terms.filter fun x => x.1 ≠ prodKey owner := by
  have terms := terms_setTerm_self s ⟨n.pkg, n.id, m.slot⟩ (prodKey owner) (-(u.getD 0)) lt
  rw [if_congr neg_eq_zero rfl rfl] at terms
  cases u with
  | none =>
    refine ⟨modTile (setTerm s ⟨n.pkg, n.id, m.slot⟩ (prodKey owner) 0) n fun t => { t with remotes := t.remotes.erase m }, ?_, ?_, ?_⟩
    · refine congrArg Host.Outcome.next ?_
      unfold evCouplerControlFlitLand
      rw [found]
      rfl
    · rw [tileAt_modTile_self, remotes_setTerm, if_pos rfl]
    · rw [slotAt_modTile_keep _ _ _ _ rfl]
      exact terms
  | some v =>
    refine ⟨setTerm s ⟨n.pkg, n.id, m.slot⟩ (prodKey owner) (-v), ?_, ?_, terms⟩
    · refine congrArg Host.Outcome.next ?_
      unfold evCouplerControlFlitLand
      rw [found]
      rfl
    · rw [remotes_setTerm, if_neg nofun]
end

/-! ### RC.BIND at the producer's tile (R209) -/

/-- What the producer's tile does with a request for a coupler of a stream's peer, and its answer: 1 where the coupler is no longer reserved or
the peer has no owner, 2 where no remote entry is free. -/
def rcBindAnswer (q : SvcReq) (peer : EpRef) (i : Nat) (s : State) : State × SvcReply :=
  let n := q.who.slot.node
  if (couplerAt s n i).holder ≠ some (q.who.slot.slot, q.who.uid) then (s, svcVal 1)
  else match (epAt s peer).owner with
    | none => (s, svcVal 1)
    | some (l, u) =>
      if 16 ≤ (tileAt s peer.node).remotes.length then (s, svcVal 2)
      else (modCoupler (modTile s peer.node fun t => { t with remotes := t.remotes ++ [⟨⟨n.pkg, n.id, i⟩, l, u⟩] }) n i
        fun k => { k with producer := ⟨peer.pkg, peer.tile, l⟩, producerUid := u }, svcVal 0)

section
variable {s : State} {q : SvcReq} {peer : EpRef} {i : Nat}

theorem rcBindRequest_serves (kind : q.kind = .rcBind peer i) {f : State → State} {a : SvcReply}
    (gives : ∀ v, rcBindAnswer q peer i { s with served := v } = (f { s with served := v }, a)) :
    Serves s q 1 16 .rcBindRequest f a (exec (.rcBindRequest q) s) := by
  have run : evRcBindRequest q s = svcServe s q 1 16 .rcBindRequest (rcBindAnswer q peer i) := by
    unfold evRcBindRequest
    rw [kind]
    rfl
  show Serves _ _ _ _ _ _ _ (.next (evRcBindRequest q s))
  rw [run]
  refine serveTurn_inTurn fun v => ?_
  dsimp only
  rw [gives v]
  rfl
theorem rcBindAnswer_unheld (gone : (couplerAt s q.who.slot.node i).holder ≠ some (q.who.slot.slot, q.who.uid)) :
    rcBindAnswer q peer i s = (s, svcVal 1) := if_pos gone
theorem rcBindAnswer_unowned (none : (epAt s peer).owner = none) : rcBindAnswer q peer i s = (s, svcVal 1) := by
  unfold rcBindAnswer
  rw [none]
  exact ite_self _
variable (held : (couplerAt s q.who.slot.node i).holder = some (q.who.slot.slot, q.who.uid)) {l u : Nat} (owner : (epAt s peer).owner = some (l, u))
include held owner

theorem rcBindAnswer_full (full : 16 ≤ (tileAt s peer.node).remotes.length) : rcBindAnswer q peer i s = (s, svcVal 2) := by
  unfold rcBindAnswer
  rw [if_neg (not_not.2 held), owner]
  exact if_pos full
theorem rcBindAnswer_binds (room : (tileAt s peer.node).remotes.length < 16) : rcBindAnswer q peer i s =
    (modCoupler (modTile s peer.node fun t => { t with remotes := t.remotes ++ [⟨⟨q.who.slot.node.pkg, q.who.slot.node.id, i⟩, l, u⟩] })
      q.who.slot.node i fun k => { k with producer := ⟨peer.pkg, peer.tile, l⟩, producerUid := u }, svcVal 0) := by
  unfold rcBindAnswer
  rw [if_neg (not_not.2 held), owner]
  exact if_neg (Nat.not_le.2 room)
end

/-- Settles O40: the forms case by case; a sample; the flit at the remote entry; and the request of RC.BIND. -/
theorem couplerFormsAndSamples : Obligations.CouplerFormsAndSamples := by
  unfold Obligations.CouplerFormsAndSamples
  refine ⟨fun s h n m ep a d w => ?_, fun s n i => ?_, fun s n owner u => ⟨fun m => controlFlit_some u, controlFlit_none u⟩,
    fun s q peer i kind => ?_⟩
  · intro c N k held notHeld
    refine ⟨fun hr => ⟨rcConf_notHeld hr, rcConf_detached hr, rcConf_refused hr, fun held attached good => ?_⟩,
      fun hr => ⟨⟨rcRead_notHeld hr, rcRead_results hr⟩, rcBind_beyond hr, rcBind_notOwned hr, fun near owned =>
        ⟨rcBind_notStream hr near owned, fun good none => rcBind_none hr near owned good (rcPick_none none), fun j lt good free named =>
          rcBind_reserves hr near owned good j (rcPick_some lt free named)⟩⟩,
      fun hr => ⟨rcFree_notHeld hr, fun held => ⟨_, rcFree_done hr held, couplerAt_freeCoupler .., (Kept.freeCoupler ..).mem, fun used same =>
        freeCoupler_releases used held.2 same⟩⟩⟩
    refine ⟨_, rcConf_done hr held attached good, (OnlyAsked.askSample ..).mem, ?_⟩
    rw [couplerAt_rcConfigured]
    exact ⟨configured_conf .., configured_st .., configured_first _ _, configured_later _ _, mem_askSample ..⟩
  · intro c x d
    refine ⟨couplerSample_idle, fun running due here => ⟨_, couplerSample_runs running due here, ?_, ?_, ?_, fun l u holder lt some => ?_⟩⟩
    · exact ((OnlyAsked.askSample ..).couplerAt ..).trans (couplerAt_modCoupler_self ..)
    · exact (OnlyAsked.askSample ..).mem.trans (outputSent_kept s n i).1.mem
    · obtain ⟨kept, base⟩ := outputSent_kept s n i
      rw [← nextSample_congr (t := modCoupler (outputSent s n i) n i fun _ => { sampled s n i with sent := (sampled s n i).u }) kept.now
        (base.base n.pkg)]
      exact mem_askSample ..
    · rw [(OnlyAsked.askSample ..).slotAt]
      unfold modCoupler
      rw [slotAt_modTile_keep _ _ _ _ rfl]
      exact mem_terms_outputSent holder lt some
  · intro N answers mine
    refine ⟨fun no => rcBindRequest_serves kind fun v => no.elim (fun gone => rcBindAnswer_unheld gone) fun none => rcBindAnswer_unowned none,
      fun l u held owner => ⟨fun full => rcBindRequest_serves kind fun v => rcBindAnswer_full held owner full,
        fun room => rcBindRequest_serves kind fun v => rcBindAnswer_binds (s := { s with served := v }) held owner room⟩⟩

end Sys2Proof.Machine
end

section
/-! TURN.SET and TURN.GET where they issue (R199, R200). -/

namespace Sys2Proof.Machine

/-! ### Sets of turns -/

/-- A set of bits has nothing outside another where each of its members is one of the other's. -/
theorem and_not_eq_zero_iff {w : Nat} (x m : BitVec w) : x &&& ~~~m = 0 ↔ ∀ k, x.getLsbD k = true → m.getLsbD k = true := by
  constructor
  · intro none k has
    have lt : k < w := BitVec.lt_of_getLsbD has
    have bit := congrArg (BitVec.getLsbD · k) none
    simpa [has, lt] using bit
  · intro sub
    refine BitVec.eq_of_getLsbD_eq fun k lt => ?_
    cases has : x.getLsbD k with
    | false => simp [has]
    | true => simp [sub k has]
theorem and_eq_self_iff {w : Nat} (x m : BitVec w) : x &&& m = x ↔ ∀ k, x.getLsbD k = true → m.getLsbD k = true := by
  constructor
  · intro same k has
    rw [← same, BitVec.getLsbD_and, Bool.and_eq_true] at has
    exact has.2
  · intro sub
    refine BitVec.eq_of_getLsbD_eq fun k lt => ?_
    cases has : x.getLsbD k with
    | false => simp [has]
    | true => simp [has, sub k has]
/-- What TURN.SET checks at issue (R199). -/
theorem turnSetOk_iff (a b x : Word) : turnSetOk a b x = true ↔ a.toNat ≤ 15 ∧ b.toNat < 2 ^ 16 ∧ x &&& 0x1F1F = x ∧
    (x = 0 ∨ (1 ≤ limMin x ∧ limMin x ≤ limMax x ∧ limMax x ≤ 16)) := by
  have mask : x &&& ~~~(BitVec.ofNat 64 0x1F1F) = 0 ↔ x &&& 0x1F1F = x := (and_not_eq_zero_iff ..).trans (and_eq_self_iff ..).symm
  unfold turnSetOk
  simp only [mask, Bool.and_eq_true, Bool.or_eq_true, decide_eq_true_eq, and_assoc]

/-! ### The forms -/

section
variable {s : State} {h : Hdr} {a b x : SIx} (hr : Ready s h [.s a, .s b, .s x] [] false)
include hr

theorem turnSet_refused (bad : turnSetOk (rs (me s) a) (rs (me s) b) (rs (me s) x) = false) :
    Faults s 0x03 0 (BitVec.ofNat 64 ((rs (me s) a).toNat % 16)) (exec (.turnSet h a b x) s) :=
  runForm_trap _ _ s fOperand 0 _ hr (if_pos (by rw [bad]; rfl))
theorem turnSet_parks (ok : turnSetOk (rs (me s) a) (rs (me s) b) (rs (me s) x) = true) :
    Parks s h (waitBy s (.turnSet h a b x) s.no .turnSet 0 0 0 [rs (me s) a, rs (me s) b, rs (me s) x]) { s with no := s.no + 1 }
      (exec (.turnSet h a b x) s) :=
  runForm_waitNow { i := .turnSet h a b x, h := h, srcs := [.s a, .s b, .s x] } _ s _ _ _ _ _ _ _ hr rfl (if_neg (by rw [ok]; decide))
end

/-- The value that TURN.GET reads of a slot (R200). -/
def turnValue (s : State) (w : TurnW) (l : Slot) : Nat :=
  let cnt (n : Nat) : Nat := if l.ph ≠ .free ∧ l.ctx.d.job = (me s).d.job then n else 0
  match w with
  | .own => turnWord (here s) l
  | .issued => cnt l.ctx.issued
  | .lost => cnt l.ctx.lost
/-- That value by its cases: the word of the slot, or a count that is 0 where the slot has no unit of the job (R200). -/
theorem turnValue_eq {s : State} {w : TurnW} {l : Slot} {v : Nat}
    (is : (w = .own ∧ v = turnWord (here s) l) ∨ (w = .issued ∧ (l.ph ≠ .free ∧ l.ctx.d.job = (me s).d.job) ∧ v = l.ctx.issued) ∨
      (w = .lost ∧ (l.ph ≠ .free ∧ l.ctx.d.job = (me s).d.job) ∧ v = l.ctx.lost) ∨
      (w ≠ .own ∧ ¬ (l.ph ≠ .free ∧ l.ctx.d.job = (me s).d.job) ∧ v = 0)) : turnValue s w l = v := by
  rcases is with ⟨rfl, rfl⟩ | ⟨rfl, mine, rfl⟩ | ⟨rfl, mine, rfl⟩ | ⟨counts, other, rfl⟩
  · rfl
  · exact if_pos mine
  · exact if_pos mine
  · cases w with
    | own => exact absurd rfl counts
    | issued => exact if_neg other
    | lost => exact if_neg other

section
variable {s : State} {h : Hdr} {w : TurnW} {a d : SIx} (hr : Ready s h [.s a] [.s d] false)
include hr

theorem turnGet_beyond (far : 15 < (rs (me s) a).toNat) : Faults s 0x03 0 0 (exec (.turnGet h w d a) s) :=
  runForm_trap _ _ s fOperand 0 0 hr (if_pos far)
theorem turnGet_results (near : (rs (me s) a).toNat ≤ 15) : Results s h [.s a] 3
    [(.s d, BitVec.ofNat 2048 (turnValue s w (slotAt s ⟨s.cur.pkg, s.cur.tile, (rs (me s) a).toNat⟩)))] (exec (.turnGet h w d a) s) :=
  runForm_results _ _ s 3 [.s a] _ hr ((if_neg (Nat.not_lt.2 near)).trans (arrayFind_clean hr.clean ..))
end

end Sys2Proof.Machine
end

section
/-! The turns of a tile: what TURN.SET, the restorations and the targets make of them at a round boundary (R193 to R197, R199). -/

namespace Sys2Proof.Machine

/-! ### Owners of turns (R193) -/

/-- A slot of a tile. -/
def tileSlot (t : Tile) (i : Nat) : Slot := t.slots.toList.getD i (Slot.reset i)
/-- No turn has two owners (R193). -/
def OneOwner (t : Tile) : Prop :=
  ∀ i < 16, ∀ j < 16, i ≠ j → ∀ k, (tileSlot t i).owned.getLsbD k = true → (tileSlot t j).owned.getLsbD k = false
/-- A slot owns its home turn if it is bound (R194). -/
def AtHome (t : Tile) (i : Nat) : Prop := (tileSlot t i).ph = .bound → (tileSlot t i).owned.getLsbD i = true

theorem tileSlot_fin (t : Tile) (i : Fin 16) : tileSlot t i = t.slots[i] := by
  unfold tileSlot
  simp [List.getD_eq_getElem?_getD]
theorem tileSlot_far (t : Tile) {i : Nat} (far : 16 ≤ i) : tileSlot t i = Slot.reset i :=
  List.getD_eq_default _ _ (by simpa using far)
theorem turnsOk_iff (t : Tile) : TurnsOk t ↔ OneOwner t ∧ ∀ i < 16, AtHome t i := by
  unfold TurnsOk OneOwner AtHome
  refine and_congr ⟨fun apart i hi j hj ne k has => ?_, fun one i j ne => ?_⟩
    ⟨fun home i hi => ?_, fun home i => ?_⟩
  · have none := congrArg (BitVec.getLsbD · k) (apart ⟨i, hi⟩ ⟨j, hj⟩ fun same => ne (congrArg Fin.val same))
    rw [← tileSlot_fin, ← tileSlot_fin] at none
    simpa [has] using none
  · refine BitVec.eq_of_getLsbD_eq fun k _ => ?_
    rw [← tileSlot_fin, ← tileSlot_fin]
    cases has : (tileSlot t i).owned.getLsbD k with
    | false => simp [has]
    | true => simp [one i i.isLt j j.isLt (fun same => ne (Fin.ext same)) k has]
  · rw [tileSlot_fin t ⟨i, hi⟩]
    exact home ⟨i, hi⟩
  · rw [← tileSlot_fin]
    exact home i i.isLt
theorem tileSlot_modSlot_self (t : Tile) {i : Nat} (f : Slot → Slot) (lt : i < 16) : tileSlot (t.modSlot i f) i = f (tileSlot t i) :=
  slots_modSlot_self t i f lt _
theorem tileSlot_modSlot_ne (t : Tile) {i j : Nat} (f : Slot → Slot) (ne : j ≠ i) : tileSlot (t.modSlot i f) j = tileSlot t j :=
  slots_modSlot_ne t i j f ne _
theorem AtHome.modSlot_ne {t : Tile} {i j : Nat} (h : AtHome t j) (f : Slot → Slot) (ne : j ≠ i) : AtHome (t.modSlot i f) j := by
  unfold AtHome
  rwa [tileSlot_modSlot_ne t f ne]
/-- A slot may get turns that no other slot owns, and lose any. -/
theorem OneOwner.modSlot {t : Tile} (h : OneOwner t) {i : Nat} {f : Slot → Slot}
    (alone : ∀ k, (f (tileSlot t i)).owned.getLsbD k = true → ∀ j < 16, j ≠ i → (tileSlot t j).owned.getLsbD k = false) :
    OneOwner (t.modSlot i f) := by
  intro a ha b hb ne k has
  by_cases isA : a = i
  · subst isA
    rw [tileSlot_modSlot_self t f ha] at has
    rw [tileSlot_modSlot_ne t f ne.symm]
    exact alone k has b hb ne.symm
  · rw [tileSlot_modSlot_ne t f isA] at has
    by_cases isB : b = i
    · subst isB
      rw [tileSlot_modSlot_self t f hb]
      refine Bool.eq_false_of_not_eq_true fun mine => ?_
      rw [alone k mine a ha isA] at has
      cases has
    · rw [tileSlot_modSlot_ne t f isB]
      exact h a ha b hb ne k has
/-- The turns of a tile stay in order where a slot gets turns that no other owns, its home turn among them if it is bound. -/
theorem TurnsOk.modSlot {t : Tile} (h : TurnsOk t) {i : Nat} {f : Slot → Slot}
    (alone : ∀ k, (f (tileSlot t i)).owned.getLsbD k = true → ∀ j < 16, j ≠ i → (tileSlot t j).owned.getLsbD k = false)
    (home : i < 16 → (f (tileSlot t i)).ph = .bound → (f (tileSlot t i)).owned.getLsbD i = true) : TurnsOk (t.modSlot i f) := by
  obtain ⟨one, homes⟩ := (turnsOk_iff t).1 h
  refine (turnsOk_iff _).2 ⟨one.modSlot alone, fun j lt => ?_⟩
  by_cases same : j = i
  · subst same
    unfold AtHome
    rw [tileSlot_modSlot_self t f lt]
    exact home lt
  · exact (homes j lt).modSlot_ne f same

/-- No slot owns a turn of the pool (R193). -/
theorem pool_unowned {t : Tile} {k : Nat} (pool : (poolOf t).getLsbD k = true) {j : Nat} (lt : j < 16) :
    (tileSlot t j).owned.getLsbD k = false := by
  rw [getLsbD_poolOf t (BitVec.lt_of_getLsbD pool)] at pool
  have mem : t.slots[(⟨j, lt⟩ : Fin 16)] ∈ t.slots.toList := by simp
  have free := List.all_eq_true.1 pool _ mem
  rw [← tileSlot_fin] at free
  simpa using free

/-! ### A home turn is given back (R196, R199) -/

theorem getLsbD_homeTurn (i k : Nat) : (homeTurn i).getLsbD k = (decide (k < 16) && decide (i = k)) := by
  rw [homeTurn, BitVec.getLsbD_ofNat, Nat.testBit_two_pow]
theorem getLsbD_without (b : BitVec 16) (i k : Nat) : (b &&& ~~~homeTurn i).getLsbD k = (b.getLsbD k && decide (k ≠ i)) := by
  rw [BitVec.getLsbD_and, BitVec.getLsbD_not, getLsbD_homeTurn]
  cases has : b.getLsbD k with
  | false => rfl
  | true => simp [BitVec.lt_of_getLsbD has, eq_comm]
theorem getLsbD_dropTurn (i : Nat) (l : Slot) (k : Nat) : (dropTurn i l).owned.getLsbD k = (l.owned.getLsbD k && decide (k ≠ i)) := by
  unfold dropTurn
  split
  · exact getLsbD_without ..
  next lacks =>
    by_cases same : k = i
    · simp [same, lacks]
    · simp [same]
theorem ph_dropTurn (i : Nat) (l : Slot) : (dropTurn i l).ph = l.ph := by
  unfold dropTurn
  split <;> rfl
/-- A tile of which every slot has lost a turn. -/
def dropAll (t : Tile) (i : Nat) : Tile := { t with slots := t.slots.map (dropTurn i) }
theorem tileSlot_dropAll (t : Tile) (i : Nat) {j : Nat} (lt : j < 16) : tileSlot (dropAll t i) j = dropTurn i (tileSlot t j) := by
  rw [tileSlot_fin _ ⟨j, lt⟩, tileSlot_fin t ⟨j, lt⟩]
  exact Vector.getElem_map ..
theorem takeHome_eq (t : Tile) (i : Nat) : takeHome t i =
    (dropAll t i).modSlot i fun l => { l with owned := homeTurn i, base := homeTurn i, minT := 1, maxT := 16, heldBy := none } := rfl
theorem OneOwner.dropAll {t : Tile} (h : OneOwner t) (i : Nat) : OneOwner (dropAll t i) := by
  intro a ha b hb ne k has
  rw [tileSlot_dropAll t i ha, getLsbD_dropTurn, Bool.and_eq_true] at has
  rw [tileSlot_dropAll t i hb, getLsbD_dropTurn, h a ha b hb ne k has.1, Bool.false_and]
theorem OneOwner.takeHome {t : Tile} (h : OneOwner t) (i : Nat) : OneOwner (takeHome t i) := by
  rw [takeHome_eq]
  refine (h.dropAll i).modSlot fun k mine j lt _ => ?_
  rw [getLsbD_homeTurn, Bool.and_eq_true, decide_eq_true_eq, decide_eq_true_eq] at mine
  rw [tileSlot_dropAll t i lt, getLsbD_dropTurn]
  simp [mine.2]
theorem takeHome_atHome (t : Tile) {i : Nat} (lt : i < 16) : AtHome (takeHome t i) i := by
  intro _
  rw [takeHome_eq, tileSlot_modSlot_self _ _ lt]
  simp [getLsbD_homeTurn, lt]
theorem AtHome.takeHome {t : Tile} {j : Nat} (h : AtHome t j) (i : Nat) (lt : j < 16) : AtHome (takeHome t i) j := by
  by_cases same : j = i
  · exact same ▸ takeHome_atHome t (same ▸ lt)
  · rw [takeHome_eq]
    refine AtHome.modSlot_ne ?_ _ same
    unfold AtHome
    rw [tileSlot_dropAll t i lt, getLsbD_dropTurn, ph_dropTurn, decide_eq_true same, Bool.and_true]
    exact h
theorem TurnsOk.takeHome {t : Tile} (h : TurnsOk t) (i : Nat) : TurnsOk (takeHome t i) := by
  obtain ⟨one, homes⟩ := (turnsOk_iff t).1 h
  exact (turnsOk_iff _).2 ⟨one.takeHome i, fun j lt => (homes j lt).takeHome i lt⟩

/-! ### TURN.SET at the boundary (R199) -/

theorem lt_of_owned {t : Tile} {i k : Nat} (own : (tileSlot t i).owned.getLsbD k = true) : i < 16 := by
  refine Classical.byContradiction fun far => ?_
  rw [tileSlot_far t (Nat.not_lt.1 far)] at own
  have bit := getLsbD_homeTurn i k
  rw [show (homeTurn i).getLsbD k = true from own, eq_comm, Bool.and_eq_true, decide_eq_true_eq, decide_eq_true_eq] at bit
  omega
/-- A TURN.SET that passes gives its slot turns of its own or of the pool, its home turn among them; or holds a free slot; or gives it back
its home turn (R199). -/
theorem turnApply_cases {t u : Tile} {launch job x : Word} {i : Nat} {b : BitVec 16} (is : turnApply t launch job i b x = some u) :
    (b.getLsbD i = true ∧ (∀ k, b.getLsbD k = true → (poolOf t ||| (tileSlot t i).owned).getLsbD k = true) ∧
      u = t.modSlot i fun l => { l with owned := b, base := b, minT := limMin x, maxT := limMax x }) ∨
    ((tileSlot t i).ph = .free ∧ u = t.modSlot i fun l => { l with owned := 0, base := 0, minT := 0, heldBy := some launch }) ∨
    u = takeHome t i := by
  unfold turnApply at is
  extract_lets l at is
  split at is
  · split at is
    · cases is
    next ok =>
      cases is
      simp only [not_or] at ok
      obtain ⟨-, home, -, -, owned⟩ := ok
      exact .inl ⟨by simpa using home, (and_not_eq_zero_iff ..).1 (not_not.1 owned), rfl⟩
  · split at is
    next free =>
      have ph : l.ph = .free := by
        rcases free with free | held
        · unfold slotFree at free
          simp only [Bool.and_eq_true, decide_eq_true_eq, and_assoc] at free
          exact free.1
        · exact held.1
      split at is
      · cases is
      · split at is
        · exact .inr (.inl ⟨ph, (Option.some.inj is).symm⟩)
        · exact .inr (.inr (Option.some.inj is).symm)
    · cases is
theorem TurnsOk.turnApply {t u : Tile} {launch job x : Word} {i : Nat} {b : BitVec 16} (h : TurnsOk t)
    (is : turnApply t launch job i b x = some u) : TurnsOk u := by
  rcases turnApply_cases is with ⟨home, within, rfl⟩ | ⟨free, rfl⟩ | rfl
  · refine h.modSlot (fun k mine j lt ne => ?_) fun _ _ => home
    have from_ := within k mine
    rw [BitVec.getLsbD_or, Bool.or_eq_true] at from_
    rcases from_ with pool | own
    · exact pool_unowned pool lt
    · exact ((turnsOk_iff t).1 h).1 i (lt_of_owned own) j lt ne.symm k own
  · exact h.modSlot (fun k mine => by simp at mine) fun _ bound => by rw [free] at bound; cases bound
  · exact h.takeHome i

/-! ### Restorations (R196) -/

/-- Slots that lose every turn leave the other slots' turns as they are. -/
theorem OneOwner.clear {t : Tile} (h : OneOwner t) {f : Slot → Slot} (clears : ∀ l, (f l).owned = 0) (is : List Nat) :
    OneOwner (is.foldl (fun u i => u.modSlot i f) t) :=
  List.foldlRecOn is _ h fun _ one _ _ => one.modSlot fun k mine => by simp [clears] at mine
theorem AtHome.clear {t : Tile} {j : Nat} (h : AtHome t j) (f : Slot → Slot) {is : List Nat} (other : j ∉ is) :
    AtHome (is.foldl (fun u i => u.modSlot i f) t) j :=
  List.foldlRecOn (motive := fun u => AtHome u j) is _ h fun _ home _ mem => home.modSlot_ne f (ne_of_mem_of_not_mem mem other).symm
/-- Slots that get back their home turns have them, and keep the turns in order. -/
theorem turnsOk_foldl_takeHome (is : List Nat) {t : Tile} (one : OneOwner t) (home : ∀ j < 16, j ∈ is ∨ AtHome t j) :
    TurnsOk (is.foldl takeHome t) := by
  induction is generalizing t with
  | nil => exact (turnsOk_iff t).2 ⟨one, fun j lt => (home j lt).resolve_left List.not_mem_nil⟩
  | cons i is ih =>
    refine ih (one.takeHome i) fun j lt => ?_
    rcases home j lt with mem | own
    · rcases List.mem_cons.1 mem with rfl | rest
      · exact .inr (takeHome_atHome t lt)
      · exact .inl rest
    · exact .inr (own.takeHome i lt)
theorem TurnsOk.restoreSlots {t : Tile} (h : TurnsOk t) (is : List Nat) : TurnsOk (restoreSlots t is) := by
  obtain ⟨one, homes⟩ := (turnsOk_iff t).1 h
  refine turnsOk_foldl_takeHome is (one.clear (fun _ => rfl) is) fun j lt => ?_
  by_cases mem : j ∈ is
  · exact .inl mem
  · exact .inr ((homes j lt).clear _ mem)

/-! ### Steps toward the targets (R197) -/

/-- The highest turn of a set without a home turn is another. -/
theorem highestTurn_ne {b : BitVec 16} {i k : Nat} (is : highestTurn (b &&& ~~~homeTurn i) = some k) : k ≠ i := by
  have bit := List.find?_some is
  rw [getLsbD_without, Bool.and_eq_true, decide_eq_true_eq] at bit
  exact bit.2
/-- What a slot has left after it has released turns: some that it owned, and its home turn if it owned that. -/
theorem releaseTurns_owned (i n : Nat) (l : Slot) : ∃ b, releaseTurns i n l = { l with owned := b } ∧
    (∀ k, b.getLsbD k = true → l.owned.getLsbD k = true) ∧ (l.owned.getLsbD i = true → b.getLsbD i = true) := by
  induction n generalizing l with
  | zero => exact ⟨l.owned, rfl, fun _ => id, id⟩
  | succ n ih =>
    have without (k : Nat) (ne : k ≠ i) : ∃ b, releaseTurns i n { l with owned := l.owned &&& ~~~homeTurn k } = { l with owned := b } ∧
        (∀ j, b.getLsbD j = true → l.owned.getLsbD j = true) ∧ (l.owned.getLsbD i = true → b.getLsbD i = true) := by
      obtain ⟨b, is, sub, home⟩ := ih { l with owned := l.owned &&& ~~~homeTurn k }
      refine ⟨b, is, fun j has => ?_, fun own => home ?_⟩
      · have was := sub j has
        rw [getLsbD_without, Bool.and_eq_true] at was
        exact was.1
      · rw [getLsbD_without, own, decide_eq_true ne.symm]
        rfl
    unfold releaseTurns
    split
    · exact ⟨l.owned, rfl, fun _ => id, id⟩
    · split
      next k extra => exact without k (highestTurn_ne extra)
      · split
        next k base => exact without k (highestTurn_ne base)
        · exact ⟨l.owned, rfl, fun _ => id, id⟩
theorem TurnsOk.releaseTurns {t : Tile} (h : TurnsOk t) (i : Nat) : TurnsOk (t.modSlot i (releaseTurns i 16)) := by
  obtain ⟨one, homes⟩ := (turnsOk_iff t).1 h
  obtain ⟨b, is, sub, home⟩ := releaseTurns_owned i 16 (tileSlot t i)
  refine h.modSlot (fun k mine j lt ne => ?_) fun lt bound => ?_
  · rw [is] at mine
    have own := sub k mine
    exact one i (lt_of_owned own) j lt ne.symm k own
  · rw [is] at bound ⊢
    exact home (homes i lt bound)
theorem TurnsOk.takeTurns (i n : Nat) {t : Tile} (h : TurnsOk t) : TurnsOk (takeTurns i n t) := by
  induction n generalizing t with
  | zero => exact h
  | succ n ih =>
    unfold Machine.takeTurns
    extract_lets l
    split
    · exact h
    · split
      next k lowest =>
        obtain ⟨one, homes⟩ := (turnsOk_iff t).1 h
        have pool : (poolOf t).getLsbD k = true := List.find?_some lowest
        refine ih (h.modSlot (fun j mine m lt ne => ?_) fun lt bound => ?_)
        · rw [BitVec.getLsbD_or, Bool.or_eq_true, getLsbD_homeTurn, Bool.and_eq_true, decide_eq_true_eq, decide_eq_true_eq] at mine
          rcases mine with own | ⟨-, rfl⟩
          · exact one i (lt_of_owned own) m lt ne.symm j own
          · exact pool_unowned pool lt
        · rw [BitVec.getLsbD_or, homes i lt bound, Bool.true_or]
      · exact h
theorem TurnsOk.moveTurns {t : Tile} (h : TurnsOk t) : TurnsOk (moveTurns t) := by
  unfold Machine.moveTurns
  extract_lets bound u
  have released : TurnsOk u := List.foldlRecOn bound _ h fun _ ok i _ => ok.releaseTurns i
  exact List.foldlRecOn bound _ released fun _ ok i _ => ok.takeTurns i 16

end Sys2Proof.Machine
end

section
/-! What a round boundary does beside its turns leaves the turns of every slot, and binds none (R92, R197, R212). -/

namespace Sys2Proof.Machine

/-- A slot owns the turns that it owned, and is not newly bound. -/
structure SlotKept (l m : Slot) : Prop where
  owned : m.owned = l.owned
  bound : m.ph = .bound → l.ph = .bound
/-- So is every slot. -/
structure TurnsKept (s t : State) : Prop where
  slot : ∀ r, SlotKept (slotAt s r) (slotAt t r)

theorem SlotKept.refl (l : Slot) : SlotKept l l := ⟨rfl, id⟩
theorem SlotKept.trans {l m n : Slot} (h : SlotKept l m) (k : SlotKept m n) : SlotKept l n := ⟨k.owned.trans h.owned, h.bound ∘ k.bound⟩
theorem TurnsKept.refl (s : State) : TurnsKept s s := ⟨fun _ => .refl _⟩
theorem TurnsKept.trans {s t u : State} (h : TurnsKept s t) (k : TurnsKept t u) : TurnsKept s u := ⟨fun r => (h.slot r).trans (k.slot r)⟩
theorem TurnsKept.foldl {α : Type} {f : State → α → State} (each : ∀ s a, TurnsKept s (f s a)) (l : List α) (s : State) :
    TurnsKept s (l.foldl f s) := by
  induction l generalizing s with
  | nil => exact .refl s
  | cons a l ih => exact (each s a).trans (ih _)
theorem TurnsKept.turnsOk {s t : State} (h : TurnsKept s t) (n : Node) (ok : TurnsOk (tileAt s n)) : TurnsOk (tileAt t n) := by
  have slot (i : Nat) : SlotKept (tileSlot (tileAt s n) i) (tileSlot (tileAt t n) i) := h.slot ⟨n.pkg, n.id, i⟩
  obtain ⟨one, homes⟩ := (turnsOk_iff _).1 ok
  refine (turnsOk_iff _).2 ⟨fun i hi j hj ne k has => ?_, fun i lt bound => ?_⟩
  · rw [(slot i).owned] at has
    rw [(slot j).owned]
    exact one i hi j hj ne k has
  · rw [(slot i).owned]
    exact homes i lt ((slot i).bound bound)

/-! ### Parts of the state -/

theorem TurnsKept.of_slotAt {s t : State} (same : ∀ r, slotAt t r = slotAt s r) : TurnsKept s t :=
  ⟨fun r => by rw [same]; exact .refl _⟩
theorem TurnsKept.of_tiles {s t : State} (same : t.tiles = s.tiles) : TurnsKept s t :=
  .of_slotAt fun r => by unfold slotAt tileAt; rw [same]
theorem OnlySent.turnsKept {s t : State} (h : OnlySent s t) : TurnsKept s t := .of_slotAt h.slotAt
theorem OnlyAsked.turnsKept {s t : State} (h : OnlyAsked s t) : TurnsKept s t := .of_slotAt h.slotAt
/-- A change of a tile that keeps the turns of its slots. -/
theorem TurnsKept.modTile (s : State) (n : Node) (f : Tile → Tile)
    (keeps : ∀ i, SlotKept (tileSlot (tileAt s n) i) (tileSlot (f (tileAt s n)) i)) : TurnsKept s (modTile s n f) := by
  refine ⟨fun r => ?_⟩
  by_cases same : nodeKey r.node = nodeKey n
  · have at_ (u : State) : slotAt u r = tileSlot (tileAt u n) r.slot := by unfold slotAt tileSlot tileAt; rw [same]
    rw [at_, at_, tileAt_modTile_self]
    exact keeps r.slot
  · unfold slotAt
    rw [tileAt_modTile_ne _ _ _ _ same]
    exact .refl _
/-- A change of a tile beside its slots. -/
theorem TurnsKept.beside (s : State) (n : Node) (f : Tile → Tile) (keeps : (f (tileAt s n)).slots = (tileAt s n).slots) :
    TurnsKept s (Machine.modTile s n f) := .of_slotAt fun r => slotAt_modTile_keep s n f r keeps
theorem TurnsKept.modSlot (s : State) (r : SlotRef) (f : Slot → Slot) (keeps : ∀ l, SlotKept l (f l)) : TurnsKept s (modSlot s r f) := by
  refine .modTile _ _ _ fun i => ?_
  by_cases named : i = r.slot ∧ r.slot < 16
  · rw [named.1, tileSlot_modSlot_self _ _ named.2]
    exact keeps _
  · by_cases same : i = r.slot
    · unfold Tile.modSlot
      rw [dif_neg fun lt => named ⟨same, lt⟩]
      exact .refl _
    · rw [tileSlot_modSlot_ne _ _ same]
      exact .refl _
theorem TurnsKept.modUnit (s : State) (r : SlotRef) (uid : Nat) (f : Ctx → Ctx) : TurnsKept s (modUnit s r uid f) :=
  .modSlot _ _ _ fun l => by split <;> exact ⟨rfl, id⟩
theorem TurnsKept.modCtx (s : State) (r : SlotRef) (f : Ctx → Ctx) : TurnsKept s (modCtx s r f) := .modSlot _ _ _ fun _ => ⟨rfl, id⟩
theorem TurnsKept.modEp (s : State) (e : EpRef) (f : Endpoint → Endpoint) : TurnsKept s (modEp s e f) := .beside _ _ _ rfl
theorem TurnsKept.modJob (s : State) (h : Word) (f : Job → Job) : TurnsKept s (modJob s h f) := .of_tiles rfl
theorem TurnsKept.modLaunch (s : State) (h : Word) (f : Launch → Launch) : TurnsKept s (modLaunch s h f) := .of_tiles rfl

/-! ### Channels (R122, R184 to R189, R205) -/

theorem TurnsKept.sendSeq (s : State) (e : EpRef) (b : ChBody) : TurnsKept s (sendSeq s e b) :=
  (TurnsKept.modEp ..).trans (OnlySent.sendFlit ..).turnsKept
theorem TurnsKept.dropMsgs (s : State) (e : EpRef) : TurnsKept s (dropMsgs s e) := .of_slotAt (slotAt_dropMsgs s e)
theorem TurnsKept.releaseBuf (s : State) (e : EpRef) : TurnsKept s (releaseBuf s e) := .of_slotAt (slotAt_releaseBuf s e)
theorem TurnsKept.sweepImages (s : State) (n : Node) : TurnsKept s (sweepImages s n) := .beside _ _ _ rfl
theorem TurnsKept.dropPacket (s : State) (e : EpRef) : TurnsKept s (dropPacket s e) := by
  unfold Machine.dropPacket
  refine TurnsKept.trans ?_ (.modEp ..)
  split
  · exact .modUnit ..
  · exact .refl s
theorem TurnsKept.setTerm (s : State) (r : SlotRef) (key : EpRef) (u : Int) : TurnsKept s (setTerm s r key u) :=
  .modSlot _ _ _ fun _ => ⟨rfl, id⟩
theorem TurnsKept.sendTerm (s : State) (c : EpRef) (p : SlotRef) (u : Option Int) (pin : Option Word) : TurnsKept s (sendTerm s c p u pin) := by
  unfold Machine.sendTerm
  split
  · dsimp only
    split
    · exact (TurnsKept.setTerm ..).trans (.beside _ _ _ rfl)
    · exact .setTerm ..
  · exact (OnlySent.sendMsg ..).turnsKept
theorem TurnsKept.detach (s : State) (n : Node) (i : Nat) : TurnsKept s (detach s n i) := by
  unfold Machine.detach
  extract_lets c key s1 s2 s3
  split
  · exact .refl s
  · have held : TurnsKept s s1 := by
      unfold s1
      split
      · exact .setTerm ..
      · exact .refl s
    have sent : TurnsKept s1 s2 := by
      unfold s2
      split
      · exact .refl s1
      · exact .sendTerm ..
    have stopped : TurnsKept s2 s3 := .beside _ _ _ rfl
    exact ((held.trans sent).trans stopped).trans (.modEp ..)
theorem TurnsKept.detachOf (s : State) (e : EpRef) : TurnsKept s (detachOf s e) := by
  unfold Machine.detachOf
  split
  · exact .detach ..
  · exact .refl s
theorem TurnsKept.freeCoupler (s : State) (n : Node) (i : Nat) : TurnsKept s (freeCoupler s n i) := by
  unfold Machine.freeCoupler
  extract_lets c s1 s2
  have told : TurnsKept s1 s2 := by
    unfold s2
    split
    · exact .refl s1
    · exact .refl s1
    · exact .sendTerm ..
  exact ((TurnsKept.detach ..).trans told).trans (.beside _ _ _ rfl)
theorem TurnsKept.abortEp (s : State) (e : EpRef) (cause : Nat) : TurnsKept s (abortEp s e cause) := by
  unfold Machine.abortEp
  extract_lets x m q s1 s2 s3 s4
  split
  · exact .refl s
  · have first : TurnsKept s s1 := .modEp ..
    have marked : TurnsKept s1 s2 := by
      unfold s2
      split
      · exact .sendSeq ..
      · exact .refl s1
    have told : TurnsKept s2 s3 := by
      unfold s3
      split
      · exact .sendSeq ..
      · exact .refl s2
    have cleared : TurnsKept s3 s4 := (((TurnsKept.dropMsgs ..).trans (.dropPacket ..)).trans (.releaseBuf ..)).trans (.detachOf ..)
    exact ((((first.trans marked).trans told).trans cleared).trans (.modEp ..)).trans (.sweepImages ..)
theorem TurnsKept.putEp (s : State) (e : EpRef) (cause : Nat) : TurnsKept s (putEp s e cause) := by
  unfold Machine.putEp freeEp
  extract_lets s1 s2 s3
  have refused : TurnsKept s1 s2 := by
    unfold s2
    split
    · exact (OnlySent.sendMsg ..).turnsKept
    · exact .refl s1
  exact (((((TurnsKept.abortEp ..).trans refused).trans (.dropMsgs ..)).trans (.dropPacket ..)).trans (.releaseBuf ..)).trans
    ((TurnsKept.modEp ..).trans (.sweepImages ..))
theorem TurnsKept.finishHead (s : State) (e : EpRef) (next : Nat) : TurnsKept s (finishHead s e next) := by
  unfold Machine.finishHead sendCredit
  split
  · exact .modEp ..
  · exact (TurnsKept.modEp ..).trans (OnlySent.sendFlit ..).turnsKept
theorem TurnsKept.consumeReg (s : State) (r : SlotRef) (uid : Nat) (g : Reg) : TurnsKept s (consumeReg s r uid g) := by
  unfold Machine.consumeReg
  split
  · exact .refl s
  · have emptied := (TurnsKept.modUnit s r uid fun c => setPres c g .empty).trans (.modEp _ ‹_› fun x => { x with noDep := s.now + 1 })
    dsimp only
    split
    · exact (emptied.trans (.finishHead ..)).trans (OnlyAsked.askDeposit ..).turnsKept
    · exact emptied.trans (OnlyAsked.askDeposit ..).turnsKept

/-! ### Units that end (R95, R343) -/

theorem TurnsKept.modCmd (s : State) (n : Node) (mx : Bool) (id : Nat) (f : EngCmd → EngCmd) : TurnsKept s (modCmd s n mx id f) := by
  unfold Machine.modCmd
  refine .beside _ _ _ ?_
  dsimp only
  split <;> rfl
theorem TurnsKept.refuseToken (s : State) (tok : Nat) : TurnsKept s (refuseToken s tok) := by
  unfold Machine.refuseToken
  split
  · exact (OnlyAsked.push ..).turnsKept
  · split
    · exact (TurnsKept.modCmd ..).trans (OnlyAsked.push ..).turnsKept
    · exact .refl s
theorem TurnsKept.endSupervisor (s : State) (r : SlotRef) (c : Ctx) : TurnsKept s (endSupervisor s r c) := by
  have discarded (u : State) (m : SupMsg) : TurnsKept u (discardMsg u r.node m) := by
    unfold discardMsg
    split
    · exact .refuseToken ..
    · exact .beside _ _ _ rfl
  exact ((TurnsKept.beside _ _ _ rfl).trans (.foldl discarded _ _)).trans (.foldl .refuseToken _ _)
theorem TurnsKept.releaseCouplers (s : State) (r : SlotRef) (uid : Nat) : TurnsKept s (releaseCouplers s r uid) := by
  have freed (u : State) (x : Nat × Coupler) :
      TurnsKept u (if x.2.holder = some (r.slot, uid) then Machine.freeCoupler u r.node x.1 else u) := by
    split
    · exact .freeCoupler ..
    · exact .refl u
  have left (u : State) (m : RemoteEntry) :
      TurnsKept u (if m.slot = r.slot ∧ m.uid = uid then Machine.detach u m.owner.node m.owner.ep else u) := by
    split
    · exact .detach ..
    · exact .refl u
  exact (TurnsKept.foldl freed _ _).trans (.foldl left _ _)
theorem TurnsKept.releaseBlk (s : State) (r : SlotRef) (c : Ctx) (cancelled : Bool) : TurnsKept s (releaseBlk s r c cancelled) := by
  unfold Machine.releaseBlk
  split
  · exact .refl s
  · split
    · exact .refl s
    · exact .of_tiles rfl
theorem OnlySent.sendReturn (s : State) (r : SlotRef) (c : Ctx) (o : SpawnOrigin) (d : SIx) (v : Word) : OnlySent s (sendReturn s r c o d v) :=
  ((OnlySent.no ..).trans (.addOut ..)).trans (.sendMsg ..)
theorem TurnsKept.unbind (s : State) (r : SlotRef) (uid : Nat) : TurnsKept s (unbind s r uid) := by
  refine .modSlot _ _ _ fun l => ?_
  dsimp only
  split
  · exact ⟨rfl, nofun⟩
  · split <;> exact ⟨rfl, id⟩
/-- Roles given up, and the TLB whole again, change pre-empted units alone. -/
theorem TurnsKept.dropRoles (s : State) (n : Node) (slot uid : Nat) :
    TurnsKept s (Machine.modTile s n fun t => unsplitTlb (dropRoles t slot uid)) := by
  refine .modTile _ _ _ fun i => ?_
  have whole : (unsplitTlb (Machine.dropRoles (tileAt s n) slot uid)).slots = (Machine.dropRoles (tileAt s n) slot uid).slots := by
    unfold unsplitTlb
    split <;> rfl
  by_cases lt : i < 16
  · rw [tileSlot_fin _ ⟨i, lt⟩, tileSlot_fin _ ⟨i, lt⟩, whole]
    unfold Machine.dropRoles
    simp only [Fin.getElem_fin, Vector.getElem_ofFn]
    exact ⟨rfl, id⟩
  · rw [tileSlot_far _ (Nat.not_lt.1 lt), tileSlot_far _ (Nat.not_lt.1 lt)]
    exact .refl _
/-- A unit that ends, but is not cancelled (R95, R343). -/
theorem TurnsKept.endUnit (s : State) (r : SlotRef) (uid cause : Nat) (nested : Bool) : TurnsKept s (endUnit s r uid cause nested false) := by
  unfold Machine.endUnit
  split
  · exact .refl s
  next c _ =>
    extract_lets s1 s2 s3 s4 s5 s6 s7 s8
    have put : TurnsKept s s1 := .foldl (fun u x => .putEp ..) _ _
    have released : TurnsKept s1 s2 := TurnsKept.trans (.beside _ _ _ rfl) (.releaseCouplers ..)
    have returned : TurnsKept s3 s4 := by
      unfold s4
      split
      · split
        · split
          · exact .refl s3
          · exact (OnlySent.sendReturn ..).turnsKept
        · exact .refl s3
      · exact .refl s3
    have swept : TurnsKept s4 s5 := .beside _ _ _ rfl
    have block : TurnsKept s5 s6 := (TurnsKept.sweepImages ..).trans (.releaseBlk ..)
    have unbound : TurnsKept s6 s7 := ((TurnsKept.endSupervisor ..).trans (.unbind ..)).trans (.dropRoles ..)
    have told : TurnsKept s7 s8 := by
      unfold s8
      split
      · exact (TurnsKept.modJob ..).trans (OnlyAsked.askJob ..).turnsKept
      · exact (TurnsKept.modLaunch ..).trans (OnlyAsked.askLaunch ..).turnsKept
    exact (((((put.trans released).trans returned).trans swept).trans block).trans unbound).trans
      (told.trans (OnlyAsked.askWork ..).turnsKept)
theorem TurnsKept.takeFault (s : State) (r : SlotRef) (uid code : Nat) (va aux : Word) : TurnsKept s (takeFault s r uid code va aux) := by
  unfold Machine.takeFault
  split
  · exact .refl s
  next c _ =>
    extract_lets s1 w s2
    have voided : TurnsKept s s1 := by
      unfold s1 voidOf
      split
      · exact .refl s
      · split
        · exact (OnlySent.setVoid ..).turnsKept
        · split
          · exact (OnlySent.setVoid ..).turnsKept
          · exact .refl s
    have noted (u : State) (m : SupMsg) : TurnsKept u (noteSent u m) := by
      unfold noteSent
      split
      · exact .modJob ..
      · exact .refl u
    split
    · exact ((voided.trans (noted ..)).trans (OnlySent.sendMsg ..).turnsKept).trans (.endUnit ..)
    · have entered : TurnsKept s s2 := voided.trans (.modUnit ..)
      split
      · split
        · exact entered.trans (.abortEp ..)
        · exact entered
      · exact entered

/-! ### The ends of TURN.SETs (R199) -/

theorem TurnsKept.faultWait (s : State) (w : Who) (code : Nat) (va aux : Word) : TurnsKept s (faultWait s w code va aux) := by
  unfold Machine.faultWait
  split
  · exact .refl s
  · exact .takeFault ..
theorem TurnsKept.finish (s : State) (w : Who) (f : Ctx → Ctx) : TurnsKept s (finish s w f) := by
  unfold Machine.finish
  split
  · exact .refl s
  next c p _ =>
    have due (u : State) : TurnsKept u (takeDue u w.slot w.uid p) := by
      unfold takeDue
      split
      · split
        · exact .takeFault ..
        · exact .refl u
      · exact .refl u
    exact ((TurnsKept.modUnit ..).trans (.foldl (fun u g => .consumeReg ..) _ _)).trans (due _)
theorem turnsOk_doTurnSet {s : State} {n : Node} (ok : TurnsOk (tileAt s n)) (x : Nat × Ctx × Park) : TurnsOk (tileAt (doTurnSet n s x) n) := by
  unfold doTurnSet
  extract_lets w arg
  split
  next t applied =>
    have set_ : TurnsOk (tileAt (setTile s n t) n) := by
      rw [tileAt_setTile_self]
      exact ok.turnApply applied
    exact ((TurnsKept.finish ..).trans (.modUnit ..)).turnsOk n set_
  · exact (TurnsKept.faultWait ..).turnsOk n ok

/-! ### The boundary (R92, R197, R212) -/

theorem TurnsKept.freshTurns (s : State) (n : Node) (old : List Slot) : TurnsKept s (freshTurns s n old) := by
  have replaced (u : State) (lo hi : Nat) : TurnsKept u (replaceUnits u n 5 lo hi) := by
    unfold replaceUnits
    dsimp only
    split
    · exact .refl u
    · exact .beside _ _ _ rfl
  unfold Machine.freshTurns
  split
  · exact .refl s
  · refine .foldl (fun u x => ?_) _ s
    dsimp only
    split
    · exact .refl u
    · exact replaced ..
theorem turnsOk_boundaryTurns {s : State} {n : Node} (ok : TurnsOk (tileAt s n)) : TurnsOk (tileAt (boundaryTurns s n) n) := by
  unfold boundaryTurns
  extract_lets old u
  have set_ : TurnsOk (tileAt u n) :=
    List.foldlRecOn (motive := fun v => TurnsOk (tileAt v n)) _ _ ok fun _ ok x _ => turnsOk_doTurnSet ok x
  refine (TurnsKept.freshTurns ..).turnsOk n ?_
  rw [tileAt_modTile_self]
  exact (set_.restoreSlots _).moveTurns
theorem turnsOk_turnBoundary {s : State} {n : Node} (ok : TurnsOk (tileAt s n)) : TurnsOk (tileAt (turnBoundary s n) n) := by
  unfold turnBoundary
  extract_lets x
  exact (OnlyAsked.unless _ (.askWork x n)).turnsKept.turnsOk n (turnsOk_boundaryTurns ok)
theorem TurnsKept.countParked (s : State) (n : Node) : TurnsKept s (countParked s n) := by
  unfold Machine.countParked
  split
  · exact .refl s
  · refine .foldl (fun u i => ?_) _ s
    dsimp only
    split
    · exact .refl u
    · split
      · split
        · exact (OnlyAsked.push ..).turnsKept
        · exact .modCtx ..
      · exact .refl u
theorem TurnsKept.endTenancy (s : State) (n : Node) : TurnsKept s (endTenancy s n) := by
  unfold Machine.endTenancy
  split
  · exact .refl s
  · split
    · exact (TurnsKept.beside _ _ _ rfl).trans (OnlyAsked.askWork ..).turnsKept
    · exact .refl s
theorem roundBoundary_held {s : State} {n : Node} (held : isHeld s n = true) : exec (.roundBoundary n) s = .next s :=
  congrArg Host.Outcome.next (if_pos held)
/-- A round boundary keeps the turns of its tile in order (R193, R194, R197). -/
theorem roundBoundary_turnsOk {s : State} {n : Node} (ok : TurnsOk (tileAt s n)) :
    ∃ t, exec (.roundBoundary n) s = .next t ∧ TurnsOk (tileAt t n) := by
  refine ⟨evRoundBoundary n s, rfl, ?_⟩
  unfold evRoundBoundary
  split
  · exact ok
  · exact (TurnsKept.endTenancy ..).turnsOk n (turnsOk_turnBoundary ((TurnsKept.countParked s n).turnsOk n ok))

/-- Settles O39: TURN.SET by what it checks, TURN.GET by the cases of its value, and a boundary by its parts. -/
theorem turnFormsAndBoundary : Obligations.TurnFormsAndBoundary := by
  unfold Obligations.TurnFormsAndBoundary
  refine ⟨fun s h a b x d => ?_, fun s n => ⟨roundBoundary_held, roundBoundary_turnsOk⟩⟩
  intro c y
  refine ⟨fun hr => ⟨fun bad => ?_, fun ok => ?_⟩, fun hr => ⟨fun far w => turnGet_beyond hr far, fun near v w is => ?_⟩⟩
  · exact turnSet_refused hr (Bool.eq_false_of_not_eq_true (mt (turnSetOk_iff ..).1 bad))
  · exact turnSet_parks hr ((turnSetOk_iff ..).2 ok)
  · rw [← turnValue_eq is]
    exact turnGet_results hr near

end Sys2Proof.Machine
end

section
/-! The access forms of scratchpads (R211, R214, R218, R219): what a refused address does, and LD, ST, LDV, STV and ST.RESET case by case. -/

namespace Sys2Proof.Machine

/-! ### Addresses (R214, R218) and releases (R294) -/

section
variable {f : Form} {body : State → SlotRef → Ctx → Act} {s : State} (hr : Ready s f.h f.srcs f.dsts f.rgn)
include hr

/-- A form whose own part is an access to a scratchpad faults on the addresses that the access does not accept. -/
theorem runForm_padRefuses {ea : Word} {n al : Nat} {one : Bool} {loc : Nat → Act} {rem : Act}
    (e : body s s.cur (me s) = padForm ea n al one s s.cur loc rem) : PadRefuses s ea n al one (runForm f body s) := by
  have faults {code : Nat} {va : Word} (is : padForm ea n al one s s.cur loc rem = .trap code va 0) : Faults s code va 0 (runForm f body s) :=
    runForm_trap f body s _ _ _ hr (e.trans is)
  refine ⟨fun near skew => faults (padForm_misaligned _ _ _ _ _ _ _ near skew),
    fun near aligned out => faults (padForm_bounds _ _ _ _ _ _ _ near aligned out),
    fun away code va bad => faults ?_, fun away good skew => faults ?_, fun away good aligned home out => faults ?_⟩
  · simp only [padForm, away, if_true, bad]
  · simp only [padForm, away, if_true, good, if_pos skew]
    rfl
  · have outside : ¬ padOk (tileAt s s.cur.node) (ea.toNat % 2 ^ 20) n = true := Bool.eq_false_iff.1 out
    simp only [padForm, away, if_true, good, aligned, ne_eq, not_true_eq_false, if_false, if_pos home, if_neg outside]
    rfl
/-- A release waits until what it releases is performed. -/
theorem runForm_relWaits {sc : Scope} {at_ : Node} {a : Act} (held : releaseOk s s.cur (me s).uid sc at_ = false)
    (e : body s s.cur (me s) = release s s.cur (me s) sc at_ a) : RelWaits s f.h f.i (runForm f body s) :=
  runForm_cond f body s 0 0 0 hr (e.trans (if_neg (Bool.eq_false_iff.1 held)))
end
theorem release_performed {s : State} {r : SlotRef} {c : Ctx} {sc : Scope} {at_ : Node} (free : releaseOk s r c.uid sc at_ = true) (a : Act) :
    release s r c sc at_ a = a := if_pos free

/-! ### LD and LDV -/

section
variable {s : State} {h : Hdr} {sz : Sz} {sc : Scope} {od : Ord} {sx : Bool} {d a b : SIx} {v : VIx} {ofs : BitVec 32} {off : Nat}

theorem exec_ld_at (hr : Ready s h [.s a] [.s d] true) (at_ : PadAt s (eaOf (me s) a ofs) sz.bytes sz.bytes true off) :
    Results s h [.s a] 6 [(.s d, sval (extendTo sz.bytes sx (overlay true (heldOf (me s)) off
      ((List.range sz.bytes).map fun k => cellGet (here s).sp (off + k)))))] (exec (.ld h sz sc od sx d a ofs) s) := by
  rw [← cellsRead_eq]
  exact runForm_results _ _ s _ _ _ hr ((padForm_at at_ _ _).trans (arrayFind_clean hr.clean ..))
theorem exec_ld_away (hr : Ready s h [.s a] [.s d] true) (away : PadAway s (eaOf (me s) a ofs) sz.bytes sz.bytes) :
    AsksPad s h (.ld h sz sc od sx d a ofs) (eaOf (me s) a ofs) .ld false (exec (.ld h sz sc od sx d a ofs) s) :=
  runForm_asks _ _ s _ _ _ hr (padForm_away away _ _)
theorem exec_ldv_at (hr : Ready s h [.s a] [.v v] false) (at_ : PadAt s (eaOf (me s) a ofs) 256 8 false off) :
    Results s h [.s a] 8 [(.v v, BitVec.ofNat 2048 (natOfBytes ((List.range 256).map fun k => cellGet (here s).sp (off + k))))]
      (exec (.ldv h sc od v a ofs) s) := by
  rw [← cellsRead_eq]
  exact runForm_results _ _ s _ _ _ hr ((padForm_at at_ _ _).trans (arrayFind_clean hr.clean ..))

/-! ### ST and STV -/

/-- Bytes stored at an offset of the own scratchpad, and the form completes. -/
theorem runForm_storesPad {f : Form} {body : State → SlotRef → Ctx → Act} {bytes : List Byte} (hr : Ready s f.h f.srcs f.dsts f.rgn)
    (e : body s s.cur (me s) = .done (padStore s s.cur.node off bytes)) : StoresPad s f.h off bytes (runForm f body s) :=
  ⟨_, stored_cellsWrite _ _ _, runForm_done f body s _ hr (e.trans (congrArg Act.done (padStore_clean hr.clean)))⟩

/-- The part of ST that is the same for every place: outside a region it is a release. -/
theorem st_put (closed : (me s).region = none) (va : Word) (act : Act) : (if (me s).region.isSome then
      holdStore s s.cur (me s) { va := va, data := bytesOfNat sz.bytes (rs (me s) b).toNat, scratch := true, sc := sc, od := od }
      else release s s.cur (me s) (if Ord.rel_ od then sc else .slot) s.cur.node act) =
    release s s.cur (me s) (if Ord.rel_ od then sc else .slot) s.cur.node act := by
  rw [closed]
  rfl

section
variable (hr : Ready s h [.s a, .s b] [] true) (closed : (me s).region = none)
include hr closed

theorem exec_st_at (at_ : PadAt s (eaOf (me s) a ofs) sz.bytes sz.bytes true off) :
    (releaseOk s s.cur (me s).uid (if Ord.rel_ od then sc else .slot) s.cur.node = true →
      StoresPad s h off (bytesOfNat sz.bytes (rs (me s) b).toNat) (exec (.st h sz sc od a b ofs) s)) ∧
    (releaseOk s s.cur (me s).uid (if Ord.rel_ od then sc else .slot) s.cur.node = false →
      RelWaits s h (.st h sz sc od a b ofs) (exec (.st h sz sc od a b ofs) s)) :=
  ⟨fun free => runForm_storesPad hr ((padForm_at at_ _ _).trans ((st_put closed _ _).trans (release_performed free _))),
    fun held => runForm_relWaits hr held ((padForm_at at_ _ _).trans (st_put closed _ _))⟩
theorem exec_st_away (away : PadAway s (eaOf (me s) a ofs) sz.bytes sz.bytes) :
    (releaseOk s s.cur (me s).uid (if Ord.rel_ od then sc else .slot) s.cur.node = true →
      AsksPad s h (.st h sz sc od a b ofs) (eaOf (me s) a ofs) (.st (rs (me s) b)) false (exec (.st h sz sc od a b ofs) s)) ∧
    (releaseOk s s.cur (me s).uid (if Ord.rel_ od then sc else .slot) s.cur.node = false →
      RelWaits s h (.st h sz sc od a b ofs) (exec (.st h sz sc od a b ofs) s)) :=
  ⟨fun free => runForm_asks _ _ s _ _ _ hr ((padForm_away away _ _).trans ((st_put closed _ _).trans (release_performed free _))),
    fun held => runForm_relWaits hr held ((padForm_away away _ _).trans (st_put closed _ _))⟩
end

theorem exec_stv_at (hr : Ready s h [.s a, .v v] [] false) (at_ : PadAt s (eaOf (me s) a ofs) 256 8 false off) :
    (releaseOk s s.cur (me s).uid (if Ord.rel_ od then sc else .slot) s.cur.node = true →
      StoresPad s h off (bytesOfNat 256 (rv (me s) v).toNat) (exec (.stv h sc od a v ofs) s)) ∧
    (releaseOk s s.cur (me s).uid (if Ord.rel_ od then sc else .slot) s.cur.node = false →
      RelWaits s h (.stv h sc od a v ofs) (exec (.stv h sc od a v ofs) s)) :=
  ⟨fun free => runForm_storesPad hr ((padForm_at at_ _ _).trans (release_performed free _)),
    fun held => runForm_relWaits hr held (padForm_at at_ _ _)⟩

/-! ### ST.RESET -/

theorem mem_spEmpty_padPut (t : Tile) (off : Nat) (x : Word) (w : Nat) :
    w ∈ (padPut t off x false).spEmpty ↔ w = off / 8 ∨ w ∈ t.spEmpty :=
  (mem_insAsc ..).trans or_comm
theorem mem_askServe (s : State) (n : Node) :
    ∃ e ∈ (askServe s n).agenda, e.at_ = max s.now (tileAt s n).servedAt ∧ e.ev = .scratchpadCycleService n none := mem_pushOnce ..
theorem OnlyAsked.askServe (s : State) (n : Node) : OnlyAsked s (askServe s n) := .pushOnce ..

section
variable (hr : Ready s h [.s a, .s b] [] false)
include hr

theorem exec_stReset_at (at_ : PadAt s (eaOf (me s) a ofs) 8 8 true off)
    (free : releaseOk s s.cur (me s).uid (atLeastTile sc) (padHome s.cur (eaOf (me s) a ofs)) = true) :
    DoneIn s h (askServe (modTile s s.cur.node fun t => padPut t off (rs (me s) b) false) s.cur.node) (exec (.stReset h sc od a b ofs) s) := by
  refine runForm_done _ _ s _ hr ((padForm_at at_ _ _).trans ((release_performed free _).trans ?_))
  rw [replaceUnits_clean _ _ _ _ _ (by rw [tileAt_modTile_self]; exact hr.clean)]
theorem exec_stReset_stores (at_ : PadAt s (eaOf (me s) a ofs) 8 8 true off)
    (free : releaseOk s s.cur (me s).uid (atLeastTile sc) (padHome s.cur (eaOf (me s) a ofs)) = true) :
    ∃ u, DoneIn s h u (exec (.stReset h sc od a b ofs) s) ∧
      Stored (here s).sp (tileAt u s.cur.node).sp off (bytesOfNat 8 (rs (me s) b).toNat) ∧ u.mem = s.mem ∧
      (∀ w, w ∈ (tileAt u s.cur.node).spEmpty ↔ (w = off / 8 ∨ w ∈ (here s).spEmpty)) ∧
      ∃ e ∈ u.agenda, e.at_ = max s.now (here s).servedAt ∧ e.ev = .scratchpadCycleService s.cur.node none := by
  have asked := OnlyAsked.askServe (modTile s s.cur.node fun t => padPut t off (rs (me s) b) false) s.cur.node
  have tile := (asked.tileAt s.cur.node).trans (tileAt_modTile_self ..)
  have due := mem_askServe (modTile s s.cur.node fun t => padPut t off (rs (me s) b) false) s.cur.node
  rw [tileAt_modTile_self] at due
  exact ⟨_, exec_stReset_at hr at_ free, by rw [tile]; exact stored_cellsWrite _ _ _, asked.mem, fun w => by rw [tile]; exact mem_spEmpty_padPut .., due⟩
theorem exec_stReset_waits (at_ : PadAt s (eaOf (me s) a ofs) 8 8 true off)
    (held : releaseOk s s.cur (me s).uid (atLeastTile sc) (padHome s.cur (eaOf (me s) a ofs)) = false) :
    RelWaits s h (.stReset h sc od a b ofs) (exec (.stReset h sc od a b ofs) s) := runForm_relWaits hr held (padForm_at at_ _ _)
theorem exec_stReset_away (away : PadAway s (eaOf (me s) a ofs) 8 8)
    (free : releaseOk s s.cur (me s).uid (atLeastTile sc) (padHome s.cur (eaOf (me s) a ofs)) = true) :
    AsksPad s h (.stReset h sc od a b ofs) (eaOf (me s) a ofs) (.stReset (rs (me s) b)) false (exec (.stReset h sc od a b ofs) s) :=
  runForm_asks _ _ s _ _ _ hr ((padForm_away away _ _).trans (release_performed free _))
end
end

/-- Settles O41, form by form. -/
theorem scratchpadAccessForms : Obligations.ScratchpadAccessForms := by
  intro s h sz sc od sx d a b v ofs c ea n wide relOk
  exact ⟨fun _ hr => ⟨runForm_padRefuses hr rfl, fun _ => exec_ld_at hr, exec_ld_away hr⟩,
    fun _ hr closed => ⟨runForm_padRefuses hr rfl, fun _ => exec_st_at hr closed, exec_st_away hr closed⟩,
    fun hr => ⟨runForm_padRefuses hr rfl, fun _ => exec_ldv_at hr⟩,
    fun hr => ⟨runForm_padRefuses hr rfl, fun _ => exec_stv_at hr⟩,
    fun hr => ⟨runForm_padRefuses hr rfl, fun _ => exec_stReset_stores hr, fun _ => exec_stReset_waits hr, exec_stReset_away hr⟩⟩

end Sys2Proof.Machine
end

section
/-! The semaphore forms (R224 to R226): additions and waits case by case, and the end of a wait that has its own limit. -/

namespace Sys2Proof.Machine

/-! ### Operands and additions (R224, R225) -/

theorem semArg_small {x : Word} (small : x.toNat < 2 ^ 32) : semArg x = true := decide_eq_true small
theorem semArg_large {x : Word} (large : 2 ^ 32 ≤ x.toNat) : semArg x = false := decide_eq_false (Nat.not_lt.2 large)
/-- An addition saturates, and sets the overflow bit where it does. -/
theorem addSem_eq (t : Tile) (n k : Nat) : addSem t n k =
    setSem t n ⟨min (2 ^ 32 - 1) ((semAt t n).val + k), (semAt t n).ovf || decide (2 ^ 32 - 1 < (semAt t n).val + k)⟩ := by
  unfold addSem semMax
  dsimp only
  split
  next above => rw [Nat.min_eq_left (Nat.le_of_lt above), decide_eq_true above, Bool.or_true]
  next fits => rw [Nat.min_eq_right (Nat.not_lt.1 fits), decide_eq_false fits, Bool.or_false]

section
variable {s : State} {h : Hdr} {n : BitVec 8} {dec : Bool} {a b d : SIx} {p : PIx}

theorem exec_semRead (hr : Ready s h [] [.s d] false) :
    Results s h [] 3 [(.s d, BitVec.ofNat 2048 ((semAt (here s) n.toNat).val + if (semAt (here s) n.toNat).ovf then 2 ^ 32 else 0))]
      (exec (.semRead h n d) s) := runForm_results _ _ s _ _ _ hr rfl

/-! ### SEM.SIG and SEM.SET (R226) -/

/-- SEM.SIG and SEM.SET: a form whose operand has no bit above 31 is a release; then it changes the semaphores of its tile. -/
def semPut (f : Tile → Tile) (x : Word) (s : State) (r : SlotRef) (c : Ctx) : Act :=
  if !semArg x then .trap fOperand 0 0 else release s r c .tile r.node (.done (askServe (modTile s r.node f) r.node))

section
variable {f : Form} {body : State → SlotRef → Ctx → Act} {g : Tile → Tile} {x : Word} (hr : Ready s f.h f.srcs f.dsts f.rgn)
  (e : body s s.cur (me s) = semPut g x s s.cur (me s))
include hr e

theorem runForm_semPut_large (large : 2 ^ 32 ≤ x.toNat) : Faults s 0x03 0 0 (runForm f body s) :=
  runForm_trap f body s _ _ _ hr (e.trans (by rw [semPut, semArg_large large]; rfl))
theorem runForm_semPut_waits (small : x.toNat < 2 ^ 32) (held : releaseOk s s.cur (me s).uid .tile s.cur.node = false) :
    RelWaits s f.h f.i (runForm f body s) :=
  runForm_relWaits hr held (e.trans (by rw [semPut, semArg_small small]; rfl))
theorem runForm_semPut_done (small : x.toNat < 2 ^ 32) (free : releaseOk s s.cur (me s).uid .tile s.cur.node = true) :
    DoneIn s f.h (askServe (modTile s s.cur.node g) s.cur.node) (runForm f body s) :=
  runForm_done f body s _ hr (e.trans (by rw [semPut, semArg_small small, release_performed free]; rfl))
end

/-! ### SEM.WAIT and SEM.WAIT.to (R226) -/

/-- The state in which a wait that decrements has taken its threshold. -/
def semTaken (s : State) (n : BitVec 8) (dec : Bool) (th : Nat) : State :=
  modTile s s.cur.node fun T => if dec then setSem T n.toNat { semAt (here s) n.toNat with val := (semAt (here s) n.toNat).val - th } else T

section
variable {src : List Reg} {th : Word} {too : Option (PIx × Word)}

theorem semWaitAct_refused (bad : semArg th = false ∨ (too.map fun o => semArg o.2).getD true = false) :
    semWaitAct src n dec th too s s.cur (me s) = .trap fOperand 0 0 :=
  if_pos (bad.imp (by simp [·]) (by simp [·]))
variable (small : th.toNat < 2 ^ 32)
include small
theorem semWaitAct_reached (limit : (too.map fun o => semArg o.2).getD true = true) (reached : th.toNat ≤ (semAt (here s) n.toNat).val) :
    semWaitAct src n dec th too s s.cur (me s) =
      results (semTaken s n dec th.toNat) s.cur (me s) src 3 ((too.map fun o => (Reg.p o.1, pval true)).toList) := by
  unfold semWaitAct
  dsimp only
  rw [if_neg (by simp [semArg_small small, limit]), if_pos reached]
  rfl
/-- A wait whose threshold is not reached waits without end, gives up at once, or waits for its own limit. -/
theorem semWaitAct_below (below : (semAt (here s) n.toNat).val < th.toNat) :
    semWaitAct src n dec th none s s.cur (me s) = .wait { s with no := s.no + 1 } s.no (.sem n.toNat th.toNat dec none) 2 n.toNat 0 [] := by
  unfold semWaitAct
  dsimp only
  rw [if_neg (by simp [semArg_small small]), if_neg (Nat.not_le.2 below)]
  rfl
theorem semWaitAct_below_limited {lim : Word} (short : lim.toNat < 2 ^ 32) (below : (semAt (here s) n.toNat).val < th.toNat) :
    semWaitAct src n dec th (some (p, lim)) s s.cur (me s) = if lim = 0 then results s s.cur (me s) src 3 [(.p p, pval false)]
      else .wait (push { s with no := s.no + 1 } (dueIn s s.cur.node lim.toNat) phLate (slotKey s.cur) (.semWaitTimeout ⟨s.cur, (me s).uid, s.no⟩))
        s.no (.sem n.toNat th.toNat dec (some p)) 0 0 0 [] := by
  unfold semWaitAct
  dsimp only
  rw [if_neg (by simp [semArg_small small, semArg_small short]), if_neg (Nat.not_le.2 below)]
  rfl
end

section
variable (hr : Ready s h [.s a] [] false)
include hr

theorem exec_semWait_large (large : 2 ^ 32 ≤ (rs (me s) a).toNat) : Faults s 0x03 0 0 (exec (.semWait h n dec a) s) :=
  runForm_trap _ _ s _ _ _ hr (semWaitAct_refused (.inl (semArg_large large)))
theorem exec_semWait_reached (small : (rs (me s) a).toNat < 2 ^ 32) (reached : (rs (me s) a).toNat ≤ (semAt (here s) n.toNat).val) :
    ResultsIn s h (semTaken s n dec (rs (me s) a).toNat) [.s a] 3 [] (exec (.semWait h n dec a) s) :=
  runForm_done _ _ s _ hr (semWaitAct_reached small rfl reached)
theorem exec_semWait_waits (small : (rs (me s) a).toNat < 2 ^ 32) (below : (semAt (here s) n.toNat).val < (rs (me s) a).toNat) :
    Parks s h (waitBy s (.semWait h n dec a) s.no (.sem n.toNat (rs (me s) a).toNat dec none) 2 n.toNat 0 []) { s with no := s.no + 1 }
      (exec (.semWait h n dec a) s) :=
  runForm_wait _ _ s _ _ _ _ _ _ _ hr (semWaitAct_below small below)
end

section
variable (hr : Ready s h [.s a, .s b] [.p p] false)
include hr

theorem exec_semWaitTo_large (large : 2 ^ 32 ≤ (rs (me s) a).toNat ∨ 2 ^ 32 ≤ (rs (me s) b).toNat) :
    Faults s 0x03 0 0 (exec (.semWaitTo h n dec p a b) s) :=
  runForm_trap _ _ s _ _ _ hr (semWaitAct_refused (large.imp semArg_large semArg_large))
variable (small : (rs (me s) a).toNat < 2 ^ 32) (short : (rs (me s) b).toNat < 2 ^ 32)
include small short
theorem exec_semWaitTo_reached (reached : (rs (me s) a).toNat ≤ (semAt (here s) n.toNat).val) :
    ResultsIn s h (semTaken s n dec (rs (me s) a).toNat) [.s a, .s b] 3 [(.p p, pval true)] (exec (.semWaitTo h n dec p a b) s) :=
  runForm_done _ _ s _ hr (semWaitAct_reached small (semArg_small short) reached)
variable (below : (semAt (here s) n.toNat).val < (rs (me s) a).toNat)
include below
theorem exec_semWaitTo_gives_up (never : rs (me s) b = 0) :
    Results s h [.s a, .s b] 3 [(.p p, pval false)] (exec (.semWaitTo h n dec p a b) s) :=
  runForm_results _ _ s _ _ _ hr ((semWaitAct_below_limited small short below).trans (if_pos never))
theorem exec_semWaitTo_waits (some : rs (me s) b ≠ 0) :
    Parks s h (waitBy s (.semWaitTo h n dec p a b) s.no (.sem n.toNat (rs (me s) a).toNat dec (Option.some p)) 0 0 0 [])
      (push { s with no := s.no + 1 } (dueIn s s.cur.node (rs (me s) b).toNat) phLate (slotKey s.cur) (.semWaitTimeout ⟨s.cur, (me s).uid, s.no⟩))
      (exec (.semWaitTo h n dec p a b) s) :=
  runForm_wait _ _ s _ _ _ _ _ _ _ hr ((semWaitAct_below_limited small short below).trans (if_neg some))
end
end

/-! ### The limit of SEM.WAIT.to is over -/

section
variable {s : State} {w : Who} {p : Park} (h : Waits s w p)
include h

/-- A result on its way to a register of a unit that waits: it still waits so. -/
theorem Waits.land (g : Reg) (x : VVal) (l : Nat) : Waits (land s w.slot w.uid g x l) w p := by
  unfold Machine.land
  split
  · have awaits := h.modUnit (f := fun c => setPres c g .pending) (setPres_uid ..) (congrArg Ctx.park (setPres_rest ..) :)
    exact awaits.of_slotAt rfl
  · exact h
theorem semWaitTimeout_finishes {k th : Nat} {dec : Bool} {d : PIx} (kind : p.kind = .sem k th dec (some d)) :
    let s1 := land s w.slot w.uid (.p d) (pval false) (3 + semSlow p.form)
    ∃ t, exec (.semWaitTimeout w) s = .next t ∧ Finishes s1 w (ctxAt s1 w.slot) id t := by
  refine ⟨_, ?_, finish_spec (h.land (.p d) (pval false) (3 + semSlow p.form)) id⟩
  show Host.Outcome.next (evSemWaitTimeout w s) = _
  unfold evSemWaitTimeout
  rw [waitOf_waits h]
  dsimp only
  rw [kind]
end

/-- Settles O43, form by form. -/
theorem semaphoreForms : Obligations.SemaphoreForms := by
  refine ⟨fun s h n dec a b d p => ?_, fun s w p k th dec d h kind => semWaitTimeout_finishes h kind⟩
  intro c N k x v taken
  refine ⟨exec_semRead, fun hr => ⟨fun large => ?_, fun small => ⟨fun held => ?_, fun free => ?_, exec_semWait_reached hr small,
      exec_semWait_waits hr small⟩⟩,
    fun hr => ⟨exec_semWaitTo_large hr, fun small short => ⟨exec_semWaitTo_reached hr small short, exec_semWaitTo_gives_up hr small short,
      exec_semWaitTo_waits hr small short⟩⟩⟩
  · exact List.forall_mem_cons.2 ⟨runForm_semPut_large hr rfl large, List.forall_mem_cons.2 ⟨runForm_semPut_large hr rfl large,
      List.forall_mem_singleton.2 (exec_semWait_large hr large)⟩⟩
  · exact ⟨runForm_semPut_waits hr rfl small held, runForm_semPut_waits hr rfl small held⟩
  · refine ⟨?_, runForm_semPut_done hr rfl small free⟩
    have added : modTile s N (fun t => addSem t k v) = modTile s N fun T =>
        setSem T k ⟨min (2 ^ 32 - 1) (x.val + v), x.ovf || decide (2 ^ 32 - 1 < x.val + v)⟩ := congrArg (setTile s N) (addSem_eq ..)
    rw [← added]
    exact runForm_semPut_done hr rfl small free

end Sys2Proof.Machine
end

section
/-! The barrier forms (R227 to R230): BAR.ARM by what it checks, and the others by what their barrier and their unit's arrivals allow. -/

namespace Sys2Proof.Machine

/-! ### What a release leaves of the cycle and of memory (R228) -/

theorem Kept.consumeReg (s : State) (r : SlotRef) (uid : Nat) (g : Reg) : Kept s (consumeReg s r uid g) := by
  unfold Machine.consumeReg
  split
  · exact .refl s
  next e _ =>
    have emptied := (Kept.modUnit s r uid fun c => setPres c g .empty).trans (.modEp _ e fun x => { x with noDep := s.now + 1 })
    have headDone (u : State) (q : Nat) : Kept u (finishHead u e q) := by
      unfold finishHead sendCredit
      split
      · exact .modEp ..
      · exact (Kept.modEp ..).trans (.sendFlit ..)
    dsimp only
    split
    · exact (emptied.trans (headDone ..)).trans (OnlyAsked.askDeposit ..).kept
    · exact emptied.trans (OnlyAsked.askDeposit ..).kept
theorem Kept.finish (s : State) (w : Who) (f : Ctx → Ctx) : Kept s (finish s w f) := by
  unfold Machine.finish takeDue
  split
  · exact .refl s
  next p _ =>
    have ended := (Kept.modUnit s w.slot w.uid fun c => { f c with
      pc := nextPc c, issued := c.issued + 1, packet := c.packet.map fun (e, n) => (e, n + 1), park := none, asked := none
      readyFrom := s.now + 1 }).trans (.foldl (fun u g => .consumeReg u w.slot w.uid g) p.held _)
    dsimp only
    split
    · split
      · exact ended.trans (.takeFault ..)
      · exact ended
    · exact ended
theorem Kept.modBar (s : State) (n : Node) (b : Nat) (f : Barrier → Barrier) : Kept s (modBar s n b f) := .modTile _ _ _ rfl
theorem Kept.barSend (s : State) (n : Node) (dst : Nat) (ev : Ev) : Kept s (barSend s n dst ev) := .sendMsg ..
theorem Kept.barRelease (s : State) (n : Node) (b : Nat) : Kept s (barRelease s n b) := by
  unfold Machine.barRelease
  extract_lets x ws s1 s2 s3 tx ty go s4
  have ended : Kept s s1 := .foldl (fun u w => .finish u w id) _ _
  have forgotten : Kept s1 s2 := .foldl (fun u y => .modUnit ..) _ _
  have down : Kept s3 s4 := by
    unfold s4
    split
    · exact .barSend ..
    · exact .refl s3
  have released := ((ended.trans forgotten).trans (.modBar ..)).trans down
  split
  · exact released.trans (.barSend ..)
  · exact released
theorem Kept.barProgress (fuel : Nat) (s : State) (n : Node) (b : Nat) : Kept s (barProgress fuel s n b) := by
  induction fuel generalizing s with
  | zero => exact .refl s
  | succ fuel ih =>
    unfold Machine.barProgress
    extract_lets x tx ty row s1 s2
    have sent (v : State) (dst : Nat) (ev : Ev) (h : Kept s v) : Kept s (Machine.barSend v n dst ev) := h.trans (.barSend ..)
    split
    · exact .refl s
    · split
      · split
        · exact .refl s
        · exact sent _ _ _ (.modBar ..)
      · split
        · split
          · split
            · exact .refl s
            · exact sent _ _ _ (.modBar ..)
          · exact (Kept.barRelease ..).trans (ih _)
        · exact .refl s
theorem Kept.stepFree (s : State) : Kept s (stepFree s) := .of_eq rfl rfl rfl rfl rfl
theorem Kept.barServe (s : State) (n : Node) (b : Nat) : Kept s (barServe s n b) := by
  unfold Machine.barServe
  split
  · exact .barProgress ..
  · split
    · exact (Kept.stepFree s).trans (.barRelease ..)
    · exact .stepFree s

/-! ### BAR.ARM (R230) -/

section
variable {s : State} {h : Hdr} {n : BitVec 7} {a b : SIx}

/-- What BAR.ARM refuses: a barrier that is not there or is armed, a tile that is no compute tile, a rectangle with no tile, outside the
die or without this tile, and an operand out of range. -/
abbrev BadArm (s : State) (k v most : Nat) : Prop :=
  96 ≤ k ∨ (barAt s s.cur.node k).armed = true ∨ isCompute s.cur.tile = false ∨ v / 2 ^ 16 % 256 = 0 ∨ v / 2 ^ 24 % 256 = 0 ∨
    64 < v % 256 + v / 2 ^ 16 % 256 ∨ 32 < v / 2 ^ 8 % 256 + v / 2 ^ 24 % 256 ∨
    ¬ (v % 256 ≤ tileX s.cur.tile ∧ tileX s.cur.tile < v % 256 + v / 2 ^ 16 % 256 ∧
      v / 2 ^ 8 % 256 ≤ tileY s.cur.tile ∧ tileY s.cur.tile < v / 2 ^ 8 % 256 + v / 2 ^ 24 % 256) ∨ 2 ^ 32 ≤ v ∨ 16 < most
/-- A barrier that is armed for a rectangle and so many arrivals. -/
def armedBar (v most : Nat) (x : Barrier) : Barrier := { x with
  armed := true, x0 := v % 256, y0 := v / 2 ^ 8 % 256, w := v / 2 ^ 16 % 256, h := v / 2 ^ 24 % 256, k := most, g := 0, arr0 := 0, arr1 := 0
  sentRow := false, sentCol := false }

section
variable (hr : Ready s h [.s a, .s b] [] false)
include hr
theorem exec_barArm_refused (bad : BadArm s n.toNat (rs (me s) a).toNat (rs (me s) b).toNat) : Faults s 0x03 0 0 (exec (.barArm h n a b) s) := by
  refine runForm_trap _ _ s _ _ _ hr (if_pos ?_)
  rw [Bool.not_eq_true']
  exact bad
theorem exec_barArm_done (good : ¬ BadArm s n.toNat (rs (me s) a).toNat (rs (me s) b).toNat) :
    DoneIn s h (barServe (modBar s s.cur.node n.toNat (armedBar (rs (me s) a).toNat (rs (me s) b).toNat)) s.cur.node n.toNat)
      (exec (.barArm h n a b) s) := by
  refine runForm_done _ _ s _ hr (if_neg ?_)
  rw [Bool.not_eq_true']
  exact good
end

/-! ### Arrivals (R228, R230) -/

/-- What an arrival refuses: a barrier that is not there, is not armed, or expects none. -/
abbrev BadArrive (s : State) (k : Nat) : Prop := 96 ≤ k ∨ (barAt s s.cur.node k).armed = false ∨ (barAt s s.cur.node k).k = 0
/-- The barrier has room for an arrival, for the present episode or the next. -/
abbrev BarRoom (s : State) (k : Nat) : Prop :=
  (barAt s s.cur.node k).arr0 < (barAt s s.cur.node k).k ∨ (barAt s s.cur.node k).arr1 < (barAt s s.cur.node k).k
/-- The episode for which an arrival counts. -/
abbrev arrivalEpisode (s : State) (k : Nat) : Nat :=
  if (barAt s s.cur.node k).arr0 < (barAt s s.cur.node k).k then (barAt s s.cur.node k).g else (barAt s s.cur.node k).g + 1
/-- The state in which an arrival is counted and remembered by its unit. -/
def arrived (s : State) (k : Nat) : State :=
  barServe (modCtx (modBar s s.cur.node k fun x => if x.arr0 < x.k then { x with arr0 := x.arr0 + 1 } else { x with arr1 := x.arr1 + 1 }) s.cur
    fun c => { c with arrivals := (k, arrivalEpisode s k) :: c.arrivals.filter fun a => a.1 ≠ k }) s.cur.node k
theorem arrived_now (s : State) (k : Nat) : (arrived s k).now = s.now := (((Kept.modBar ..).trans (.modSlot ..)).trans (.barServe ..)).now

theorem barArriveAct_refused (bad : BadArrive s n.toNat) (f : State → Nat → Act) : barArriveAct n s s.cur (me s) f = .trap fOperand 0 0 := by
  refine if_pos ?_
  rw [Bool.not_eq_true']
  exact bad
section
variable (good : ¬ BadArrive s n.toNat)
include good
theorem barArriveAct_good (f : State → Nat → Act) : barArriveAct n s s.cur (me s) f =
    if !releaseOk s s.cur (me s).uid .pkg s.cur.node then .retry .cond 3 n.toNat 0
    else if BarRoom s n.toNat then f (arrived s n.toNat) (arrivalEpisode s n.toNat) else .retry .cond 3 n.toNat 0 := by
  refine if_neg ?_
  rw [Bool.not_eq_true']
  exact good
theorem barArriveAct_waits (f : State → Nat → Act) (held : releaseOk s s.cur (me s).uid .pkg s.cur.node = false ∨ ¬ BarRoom s n.toNat) :
    barArriveAct n s s.cur (me s) f = .retry .cond 3 n.toNat 0 := by
  rw [barArriveAct_good good]
  rcases held with held | full
  · rw [held]; rfl
  · rw [if_neg full, ite_self]
theorem barArriveAct_counts (f : State → Nat → Act) (free : releaseOk s s.cur (me s).uid .pkg s.cur.node = true) (room : BarRoom s n.toNat) :
    barArriveAct n s s.cur (me s) f = f (arrived s n.toNat) (arrivalEpisode s n.toNat) := by
  rw [barArriveAct_good good, free, if_pos room]; rfl
end

/-! ### Waits for an episode (R230) -/

/-- The arrival at a barrier that a unit remembers. -/
abbrev arrivalOf (c : Ctx) (k : Nat) : Option (Nat × Nat) := c.arrivals.find? fun a => a.1 = k
theorem barWaitAct_none {u : State} {r : SlotRef} (none : arrivalOf (ctxAt u r) n.toNat = none) : barWaitAct n u r = .done u := by
  unfold barWaitAct
  unfold arrivalOf at none
  dsimp only
  rw [none]
theorem barWaitAct_some {u : State} {r : SlotRef} {k e : Nat} (some : arrivalOf (ctxAt u r) n.toNat = some (k, e)) :
    barWaitAct n u r = .wait { u with no := u.no + 1 } u.no (.barrier n.toNat e) 3 n.toNat 0 [] := by
  unfold barWaitAct
  unfold arrivalOf at some
  dsimp only
  rw [some]
  rfl

section
variable (hr : Ready s h [] [] false)
include hr

theorem exec_barArrive_refused (bad : BadArrive s n.toNat) :
    Faults s 0x03 0 0 (exec (.barArrive h n) s) ∧ Faults s 0x03 0 0 (exec (.barSync h n) s) :=
  ⟨runForm_trap _ _ s _ _ _ hr (barArriveAct_refused bad _), runForm_trap _ _ s _ _ _ hr (barArriveAct_refused bad _)⟩
section
variable (good : ¬ BadArrive s n.toNat)
include good
theorem exec_barArrive_waits (held : releaseOk s s.cur (me s).uid .pkg s.cur.node = false ∨ ¬ BarRoom s n.toNat) :
    Parks s h (waitBy s (.barArrive h n) s.no .cond 3 n.toNat 0 []) { s with no := s.no + 1 } (exec (.barArrive h n) s) ∧
    Parks s h (waitBy s (.barSync h n) s.no .cond 3 n.toNat 0 []) { s with no := s.no + 1 } (exec (.barSync h n) s) :=
  ⟨runForm_cond _ _ s _ _ _ hr (barArriveAct_waits good _ held), runForm_cond _ _ s _ _ _ hr (barArriveAct_waits good _ held)⟩
variable (free : releaseOk s s.cur (me s).uid .pkg s.cur.node = true) (room : BarRoom s n.toNat)
include free room
theorem exec_barArrive_counts : DoneIn s h (arrived s n.toNat) (exec (.barArrive h n) s) :=
  runForm_done _ _ s _ hr (barArriveAct_counts good _ free room)
/-- BAR.SYNC goes on where the arrival it has counted has released its episode. -/
theorem exec_barSync_released (none : arrivalOf (ctxAt (arrived s n.toNat) s.cur) n.toNat = none) :
    DoneIn s h (arrived s n.toNat) (exec (.barSync h n) s) :=
  runForm_done _ _ s _ hr ((barArriveAct_counts good _ free room).trans (barWaitAct_none none))
theorem exec_barSync_waits {k e : Nat} (some : arrivalOf (ctxAt (arrived s n.toNat) s.cur) n.toNat = some (k, e)) :
    Parks s h (waitBy s (.barSync h n) (arrived s n.toNat).no (.barrier n.toNat e) 3 n.toNat 0 [])
      { arrived s n.toNat with no := (arrived s n.toNat).no + 1 } (exec (.barSync h n) s) := by
  have since : waitBy { arrived s n.toNat with no := (arrived s n.toNat).no + 1 } (.barSync h n) (arrived s n.toNat).no (.barrier n.toNat e) 3 n.toNat 0 [] =
      waitBy s (.barSync h n) (arrived s n.toNat).no (.barrier n.toNat e) 3 n.toNat 0 [] := by
    unfold waitBy
    rw [arrived_now]
  rw [← since]
  exact runForm_wait _ _ s _ _ _ _ _ _ _ hr ((barArriveAct_counts good _ free room).trans (barWaitAct_some some))
end

/-! ### BAR.WAIT and BAR.DISARM (R230) -/

theorem exec_barWait_beyond (far : 96 ≤ n.toNat) : Faults s 0x03 0 0 (exec (.barWait h n) s) := runForm_trap _ _ s _ _ _ hr (if_pos far)
theorem exec_barWait_released (near : n.toNat < 96) (none : arrivalOf (me s) n.toNat = none) : UnitOnly s h (me s) (exec (.barWait h n) s) :=
  DoneIn.onlyCtx' (runForm_done _ _ s _ hr ((if_neg (Nat.not_le.2 near)).trans (barWaitAct_none none))) hr.bound
theorem exec_barWait_waits {k e : Nat} (near : n.toNat < 96) (some : arrivalOf (me s) n.toNat = some (k, e)) :
    Parks s h (waitBy s (.barWait h n) s.no (.barrier n.toNat e) 3 n.toNat 0 []) { s with no := s.no + 1 } (exec (.barWait h n) s) :=
  runForm_wait _ _ s _ _ _ _ _ _ _ hr ((if_neg (Nat.not_le.2 near)).trans (barWaitAct_some some))

/-- What BAR.DISARM refuses: a barrier that is not there, that holds an arrival or a token, or at which a unit of the tile waits. -/
abbrev BadDisarm (s : State) (k : Nat) : Prop :=
  let x := barAt s s.cur.node k
  96 ≤ k ∨ x.arr0 + x.arr1 + x.row0 + x.row1 + x.col0 + x.col1 ≠ 0 ∨ ∃ y ∈ tileUnits (here s), ∃ p e, y.2.park = some p ∧ p.kind = .barrier k e
theorem exec_barDisarm_refused (bad : BadDisarm s n.toNat) : Faults s 0x03 0 0 (exec (.barDisarm h n) s) := by
  refine runForm_trap _ _ s _ _ _ hr (if_pos (bad.imp_right (Or.imp_right ?_)))
  rintro ⟨y, mem, p, e, park, kind⟩
  refine List.any_eq_true.2 ⟨y, mem, ?_⟩
  dsimp only
  rw [park]
  dsimp only
  rw [kind]
  exact decide_eq_true rfl
theorem exec_barDisarm_done (good : ¬ BadDisarm s n.toNat) :
    DoneIn s h (modTile s s.cur.node fun t => { t with bars := aerase t.bars n.toNat }) (exec (.barDisarm h n) s) := by
  refine runForm_done _ _ s _ hr (if_neg fun bad => good (bad.imp_right (Or.imp_right fun waits => ?_)))
  obtain ⟨y, mem, waits⟩ := List.any_eq_true.1 waits
  dsimp only at waits
  split at waits
  next p park =>
    split at waits
    next k e kind => exact ⟨y, mem, p, e, park, by rw [kind, of_decide_eq_true waits]⟩
    · cases waits
  · cases waits
end
end

end Sys2Proof.Machine
end

section
/-! Tokens and releases that land (R227, R228, R230): the units of the tile whose episode a release ends go on, and every other unit waits as it did. -/

namespace Sys2Proof.Machine

/-! ### Units that wait, and units that go on -/

/-- A context has gone on from its wait, or it waits where it did. -/
structure Goes (c c' : Ctx) : Prop where
  uid : c'.uid = c.uid
  wait : (c'.park = c.park ∧ c'.pc = c.pc) ∨ (c.park ≠ none ∧ c'.park = none ∧ c'.pc = c.pc + 12)
/-- So has the context of a slot; a context that is away waits as one did before, or for nothing. -/
structure SlotGoes (l m : Slot) : Prop where
  ph : m.ph = l.ph
  ctx : Goes l.ctx m.ctx
  saved : ∀ c ∈ m.saved, ∀ p, c.park = some p → ∃ d ∈ l.saved, d.park = some p
theorem Goes.same {c c' : Ctx} (uid : c'.uid = c.uid) (park : c'.park = c.park) (pc : c'.pc = c.pc) : Goes c c' := ⟨uid, .inl ⟨park, pc⟩⟩
theorem Goes.trans {c d e : Ctx} (h : Goes c d) (k : Goes d e) : Goes c e := by
  refine ⟨k.uid.trans h.uid, ?_⟩
  rcases k.wait with ⟨park, pc⟩ | ⟨waits, gone, pc⟩
  · rcases h.wait with ⟨before, at_⟩ | ⟨waited, gone', at_⟩
    · exact .inl ⟨park.trans before, pc.trans at_⟩
    · exact .inr ⟨waited, park.trans gone', by rw [pc, at_]⟩
  · rcases h.wait with ⟨before, at_⟩ | ⟨-, before, -⟩
    · exact .inr ⟨before ▸ waits, gone, by rw [pc, at_]⟩
    · exact absurd before waits
/-- Once its wait has ended, it does not wait again. -/
theorem Goes.stopped {c c' : Ctx} (h : Goes c c') (gone : c.park = none) : c'.park = none := by
  rcases h.wait with ⟨same, -⟩ | ⟨waits, -⟩
  · exact same.trans gone
  · exact absurd gone waits
/-- Where its wait has ended, it stands at its next instruction. -/
theorem Goes.pc_stopped {c c' : Ctx} (h : Goes c c') (waits : c.park ≠ none) (gone : c'.park = none) : c'.pc = c.pc + 12 := by
  rcases h.wait with ⟨same, -⟩ | ⟨-, -, pc⟩
  · exact absurd (same.symm.trans gone) waits
  · exact pc
theorem SlotGoes.refl (l : Slot) : SlotGoes l l := ⟨rfl, .same rfl rfl rfl, fun c mem _ park => ⟨c, mem, park⟩⟩
theorem SlotGoes.trans {l m n : Slot} (h : SlotGoes l m) (k : SlotGoes m n) : SlotGoes l n :=
  ⟨k.ph.trans h.ph, h.ctx.trans k.ctx, fun c mem p park => by
    obtain ⟨d, has, was⟩ := k.saved c mem p park
    exact h.saved d has p was⟩
/-- A unit of a slot is changed: what holds of it, where the slot holds it, and of the waits of those that are away. -/
theorem SlotGoes.unit {l : Slot} {uid : Nat} {f : Ctx → Ctx} (ctx : l.ph ≠ .free → l.ctx.uid = uid → Goes l.ctx (f l.ctx))
    (park : ∀ c, (f c).park = none ∨ (f c).park = c.park) :
    SlotGoes l (if l.ph ≠ .free ∧ l.ctx.uid = uid then { l with ctx := f l.ctx }
      else { l with saved := l.saved.map fun c => if c.uid = uid then f c else c }) := by
  split
  next is => exact ⟨rfl, ctx is.1 is.2, (SlotGoes.refl l).saved⟩
  · refine ⟨rfl, .same rfl rfl rfl, fun c mem p waits => ?_⟩
    obtain ⟨d, has, rfl⟩ := List.mem_map.1 mem
    refine ⟨d, has, ?_⟩
    split at waits
    · rcases park d with gone | same
      · rw [gone] at waits; cases waits
      · rw [← same, waits]
    · exact waits

/-- Every slot has gone on so, and the episode of a barrier has not gone back. -/
structure BarGoes (n : Node) (b : Nat) (s t : State) : Prop where
  slot : ∀ r, SlotGoes (slotAt s r) (slotAt t r)
  episode : (barAt s n b).g ≤ (barAt t n b).g
/-- No unit of a tile has a fault that is due as its wait ends. -/
def NoneDue (s : State) (n : Node) : Prop := ∀ i, ∀ c ∈ slotUnits (slotAt s ⟨n.pkg, n.id, i⟩), ∀ p, c.park = some p → p.limitDue = false

theorem mem_slotUnits {l : Slot} {c : Ctx} : c ∈ slotUnits l ↔ (l.ph ≠ .free ∧ c = l.ctx) ∨ c ∈ l.saved := by
  unfold slotUnits
  by_cases free : l.ph = .free <;> simp [free]
theorem mem_tileUnits {t : Tile} {i : Nat} {c : Ctx} : (i, c) ∈ tileUnits t ↔ c ∈ slotUnits (tileSlot t i) := by
  have at_ (l : Slot) : (l, i) ∈ t.slots.toList.zipIdx ↔ t.slots.toList[i]? = some l := by rw [List.mem_zipIdx_iff_getElem?]
  have found : (i, c) ∈ tileUnits t ↔ ∃ l, t.slots.toList[i]? = some l ∧ c ∈ slotUnits l := by
    simp only [tileUnits, List.mem_flatMap, List.mem_map, Prod.mk.injEq, Prod.exists, ← at_]
    constructor
    · rintro ⟨l, j, has, d, unit, rfl, rfl⟩
      exact ⟨l, has, unit⟩
    · rintro ⟨l, has, unit⟩
      exact ⟨l, i, has, c, unit, rfl, rfl⟩
  rw [found, tileSlot, List.getD_eq_getElem?_getD]
  cases t.slots.toList[i]? with
  | none => simp [slotUnits, Slot.reset]
  | some l => simp

section
variable {n : Node} {b : Nat} {s t u : State}

theorem BarGoes.refl (n : Node) (b : Nat) (s : State) : BarGoes n b s s := ⟨fun _ => .refl _, Nat.le_refl _⟩
theorem BarGoes.trans (h : BarGoes n b s t) (k : BarGoes n b t u) : BarGoes n b s u :=
  ⟨fun r => (h.slot r).trans (k.slot r), h.episode.trans k.episode⟩
theorem BarGoes.ctx (h : BarGoes n b s t) (r : SlotRef) : Goes (ctxAt s r) (ctxAt t r) := (h.slot r).ctx
theorem NoneDue.after (none : NoneDue s n) (h : BarGoes n b s t) : NoneDue t n := by
  intro i c unit p park
  have went := h.slot ⟨n.pkg, n.id, i⟩
  rcases mem_slotUnits.1 unit with ⟨held, rfl⟩ | away
  · rcases went.ctx.wait with ⟨same, -⟩ | ⟨-, gone, -⟩
    · exact none i _ (mem_slotUnits.2 (.inl ⟨went.ph ▸ held, rfl⟩)) p (same ▸ park)
    · rw [gone] at park; cases park
  · obtain ⟨d, has, was⟩ := went.saved c away p park
    exact none i d (mem_slotUnits.2 (.inr has)) p was
theorem BarGoes.foldl {α : Type} {f : State → α → State} {l : List α} (each : ∀ u, ∀ a ∈ l, NoneDue u n → BarGoes n b u (f u a)) (none : NoneDue s n) :
    BarGoes n b s (l.foldl f s) := by
  induction l generalizing s with
  | nil => exact .refl n b s
  | cons a l ih =>
    have first := each s a List.mem_cons_self none
    exact first.trans (ih (fun u x mem => each u x (List.mem_cons_of_mem _ mem)) (none.after first))

/-! ### Parts of the state -/

/-- A change of a tile beside its slots and its barriers. -/
theorem BarGoes.beside (s : State) (m : Node) (f : Tile → Tile) (slots : (f (tileAt s m)).slots = (tileAt s m).slots)
    (bars : (f (tileAt s m)).bars = (tileAt s m).bars) : BarGoes n b s (modTile s m f) :=
  ⟨fun r => by rw [slotAt_modTile_keep s m f r slots]; exact .refl _,
    by unfold barAt; rw [modTile_keeps Tile.bars s m f n bars]⟩
theorem OnlySent.barGoes (h : OnlySent s t) : BarGoes n b s t :=
  ⟨fun r => by rw [h.slotAt]; exact .refl _, by unfold barAt; rw [(congrArg Tile.bars (h.tile n) :)]⟩
theorem barAt_modBar_self (s : State) (n : Node) (b : Nat) (f : Barrier → Barrier) : barAt (modBar s n b f) n b = f (barAt s n b) := by
  unfold barAt modBar
  rw [tileAt_modTile_self, aget_aset_self]
theorem BarGoes.modBar (s : State) (f : Barrier → Barrier) (grows : (barAt s n b).g ≤ (f (barAt s n b)).g) :
    BarGoes n b s (modBar s n b f) :=
  ⟨fun r => by
    have same : slotAt (Machine.modBar s n b f) r = slotAt s r := slotAt_modTile_keep _ _ _ _ rfl
    rw [same]
    exact .refl _, by rw [barAt_modBar_self]; exact grows⟩
/-- What a change of a slot makes of every slot. -/
theorem slotAt_modSlot_cases {R : Slot → Slot → Prop} (refl : ∀ l, R l l) (s : State) (r q : SlotRef) (f : Slot → Slot)
    (does : R (slotAt s r) (f (slotAt s r))) : R (slotAt s q) (slotAt (modSlot s r f) q) := by
  by_cases same : nodeKey q.node = nodeKey r.node
  · have at_ (u : State) : slotAt u q = tileSlot (tileAt u r.node) q.slot := by unfold slotAt tileSlot tileAt; rw [same]
    rw [at_, at_]
    unfold modSlot
    rw [tileAt_modTile_self]
    by_cases named : q.slot = r.slot ∧ r.slot < 16
    · rw [named.1, tileSlot_modSlot_self _ _ named.2]
      exact does
    · by_cases one : q.slot = r.slot
      · unfold Tile.modSlot
        rw [dif_neg fun lt => named ⟨one, lt⟩]
        exact refl _
      · rw [tileSlot_modSlot_ne _ _ one]
        exact refl _
  · unfold slotAt modSlot
    rw [tileAt_modTile_ne _ _ _ _ same]
    exact refl _
theorem BarGoes.modUnit (s : State) (r : SlotRef) (uid : Nat) (f : Ctx → Ctx)
    (ctx : (slotAt s r).ph ≠ .free → (ctxAt s r).uid = uid → Goes (ctxAt s r) (f (ctxAt s r)))
    (park : ∀ c, (f c).park = none ∨ (f c).park = c.park) : BarGoes n b s (modUnit s r uid f) :=
  ⟨fun q => slotAt_modSlot_cases .refl s r q _ (.unit ctx park), by
    have bars : (tileAt (Machine.modUnit s r uid f) n).bars = (tileAt s n).bars :=
      modTile_keeps Tile.bars s r.node _ n (congrArg Tile.bars (modSlot_rest (tileAt s r.node) r.slot _) :)
    unfold barAt
    rw [bars]⟩
theorem BarGoes.modEp (s : State) (e : EpRef) (f : Endpoint → Endpoint) : BarGoes n b s (modEp s e f) := .beside _ _ _ rfl rfl
theorem BarGoes.consumeReg (s : State) (r : SlotRef) (uid : Nat) (g : Reg) : BarGoes n b s (consumeReg s r uid g) := by
  unfold Machine.consumeReg
  split
  · exact .refl n b s
  next e _ =>
    have park (c : Ctx) : (setPres c g .empty).park = c.park := (congrArg Ctx.park (setPres_rest c g .empty) :)
    have pc (c : Ctx) : (setPres c g .empty).pc = c.pc := (congrArg Ctx.pc (setPres_rest c g .empty) :)
    have emptied := (BarGoes.modUnit (n := n) (b := b) s r uid (fun c => setPres c g .empty) (fun _ _ => .same (setPres_uid ..) (park _) (pc _))
      fun c => .inr (park c)).trans (.modEp _ e fun x => { x with noDep := s.now + 1 })
    have headDone (u : State) (q : Nat) : BarGoes n b u (finishHead u e q) := by
      unfold finishHead sendCredit
      split
      · exact .modEp ..
      · exact (BarGoes.modEp ..).trans (OnlySent.sendFlit ..).barGoes
    dsimp only
    split
    · exact (emptied.trans (headDone ..)).trans (OnlyAsked.askDeposit ..).sent.barGoes
    · exact emptied.trans (OnlyAsked.askDeposit ..).sent.barGoes

/-! ### A release (R228) -/

theorem waitOf_eq_some {w : Who} {c : Ctx} {p : Park} (is : waitOf s w = some (c, p)) : unitAt s w.slot w.uid = some c ∧ c.park = some p := by
  obtain ⟨d, unit, parked⟩ := Option.bind_eq_some_iff.1 is
  obtain ⟨q, park, named⟩ := Option.bind_eq_some_iff.1 parked
  split at named
  · cases named
    exact ⟨unit, park⟩
  · cases named
theorem mem_slotUnits_unitAt {r : SlotRef} {uid : Nat} {c : Ctx} (is : unitAt s r uid = some c) : c ∈ slotUnits (slotAt s r) := by
  unfold unitAt at is
  dsimp only at is
  split at is
  next held => exact mem_slotUnits.2 (.inl ⟨held.1, (Option.some.inj is).symm⟩)
  · exact mem_slotUnits.2 (.inr (List.mem_of_find?_eq_some is))
/-- A unit whose wait ends goes on; no fault is due then. -/
theorem BarGoes.finish (s : State) (w : Who) (at_ : w.slot.node = n) (none : NoneDue s n) : BarGoes n b s (finish s w id) := by
  unfold Machine.finish
  split
  · exact .refl n b s
  next c p waits =>
    obtain ⟨unit, park⟩ := waitOf_eq_some waits
    have free : p.limitDue = false := by
      subst at_
      exact none w.slot.slot c (mem_slotUnits_unitAt unit) p park
    have held (bound : (slotAt s w.slot).ph ≠ .free) (uid : (ctxAt s w.slot).uid = w.uid) : ctxAt s w.slot = c :=
      Option.some.inj ((if_pos ⟨bound, uid⟩).symm.trans unit)
    unfold takeDue
    rw [free]
    refine BarGoes.trans (.modUnit s w.slot w.uid _ (fun bound uid => ⟨rfl, .inr ⟨?_, rfl, rfl⟩⟩) fun _ => .inl rfl)
      (List.foldlRecOn p.held _ (.refl ..) fun _ went g _ => went.trans (.consumeReg ..))
    rw [held bound uid, park]
    exact Option.some_ne_none p
/-- The units that wait at a barrier of a tile for an episode. -/
def barWaiters (s : State) (n : Node) (b e : Nat) : List Who :=
  (tileUnits (tileAt s n)).filterMap fun (i, c) => c.park.bind fun p =>
    if p.kind = .barrier b e then some (⟨⟨n.pkg, n.id, i⟩, c.uid, p.id⟩ : Who) else none
theorem mem_barWaiters {e : Nat} {w : Who} {p : Park} (h : Waits s w p) (at_ : w.slot.node = n) (kind : p.kind = .barrier b e) :
    w ∈ barWaiters s n b e := by
  subst at_
  have unit : (w.slot.slot, ctxAt s w.slot) ∈ tileUnits (tileAt s w.slot.node) :=
    mem_tileUnits.2 (mem_slotUnits.2 (.inl ⟨show (slotAt s w.slot).ph ≠ .free by rw [h.bound]; decide, rfl⟩))
  refine List.mem_filterMap.2 ⟨_, unit, ?_⟩
  dsimp only
  rw [h.park, Option.bind_some, if_pos kind, h.uid, h.id]
  rfl
theorem slot_of_mem_barWaiters {e : Nat} {w : Who} (mem : w ∈ barWaiters s n b e) : w.slot.node = n := by
  obtain ⟨⟨i, c⟩, -, is⟩ := List.mem_filterMap.1 mem
  obtain ⟨p, -, named⟩ := Option.bind_eq_some_iff.1 is
  split at named
  · cases named
    rfl
  · cases named
/-- Ending waits of a tile, one after another. -/
def finishAll (s : State) (ws : List Who) : State := ws.foldl (fun s w => finish s w id) s
theorem BarGoes.finishAll {ws : List Who} (at_ : ∀ w ∈ ws, w.slot.node = n) (none : NoneDue s n) : BarGoes n b s (finishAll s ws) :=
  .foldl (fun u w mem none => .finish u w (at_ w mem) none) none
/-- A unit that waits, and whose wait is among those that end, waits no more. -/
theorem park_finishAll {ws : List Who} {w : Who} {p : Park} (at_ : ∀ w ∈ ws, w.slot.node = n) (none : NoneDue s n) (h : Waits s w p)
    (mem : w ∈ ws) : (ctxAt (finishAll s ws) w.slot).park = Option.none := by
  obtain ⟨before, after, rfl⟩ := List.append_of_mem mem
  have split_ : finishAll s (before ++ w :: after) = finishAll (finish (finishAll s before) w id) after := by
    unfold finishAll
    rw [List.foldl_append, List.foldl_cons]
  have went : BarGoes n 0 s (finishAll s before) := .finishAll (fun x m => at_ x (List.mem_append_left _ m)) none
  have last : BarGoes n 0 (finishAll s before) (finish (finishAll s before) w id) := .finish _ w (at_ w mem) (none.after went)
  rw [split_]
  have rest : BarGoes n 0 _ (finishAll (finish (finishAll s before) w id) after) :=
    .finishAll (fun x m => at_ x (List.mem_append_right _ (List.mem_cons_of_mem _ m))) ((none.after went).after last)
  refine (rest.ctx w.slot).stopped ?_
  rcases (went.ctx w.slot).wait with ⟨same, -⟩ | ⟨-, gone, -⟩
  · have still : Waits (finishAll s before) w p :=
      ⟨(went.slot w.slot).ph.trans h.bound, (went.ctx w.slot).uid.trans h.uid, same.trans h.park, h.id, h.due, h.held⟩
    rw [(finish_spec still id).2]
  · exact (last.ctx w.slot).stopped gone

/-- The next episode of a barrier. -/
def nextEpisode (x : Barrier) : Barrier :=
  { x with g := x.g + 1, arr0 := x.arr1, arr1 := 0, row0 := x.row1, row1 := 0, col0 := x.col1, col1 := 0, sentRow := false, sentCol := false }
theorem barSend_sent (s : State) (n : Node) (dst : Nat) (ev : Ev) : OnlySent s (barSend s n dst ev) := .sendMsg ..
/-- A release ends the waits for the present episode; then units forget their arrivals, the barrier goes to its next episode, and the
release is sent on. -/
theorem barRelease_goes (none : NoneDue s n) : ∃ u, BarGoes n b (finishAll s (barWaiters s n b (barAt s n b).g)) u ∧
    BarGoes n b (modBar u n b nextEpisode) (barRelease s n b) := by
  unfold barRelease
  extract_lets x ws s1 s2 s3 tx ty go s4
  have forgotten : BarGoes n b s1 s2 :=
    .foldl (fun u y _ _ => .modUnit u _ _ _ (fun _ _ => .same rfl rfl rfl) fun _ => .inr rfl)
      (none.after (.finishAll (b := b) (fun _ => slot_of_mem_barWaiters) none))
  have down : BarGoes n b s3 s4 := by
    unfold s4
    split
    · exact (barSend_sent ..).barGoes
    · exact .refl n b s3
  refine ⟨s2, forgotten, ?_⟩
  split
  · exact down.trans (barSend_sent ..).barGoes
  · exact down
section
variable (none : NoneDue s n)
include none
theorem BarGoes.finishWaiters : BarGoes n b s (Machine.finishAll s (barWaiters s n b (barAt s n b).g)) :=
  .finishAll (fun _ => slot_of_mem_barWaiters) none
theorem BarGoes.barRelease : BarGoes n b s (barRelease s n b) := by
  obtain ⟨u, first, rest⟩ := barRelease_goes (b := b) none
  exact ((BarGoes.finishWaiters none).trans first).trans (.trans (.modBar u nextEpisode (Nat.le_succ _)) rest)
/-- A release goes to a later episode. -/
theorem barRelease_later : (barAt s n b).g < (barAt (Machine.barRelease s n b) n b).g := by
  obtain ⟨u, first, rest⟩ := barRelease_goes (b := b) none
  have before := ((BarGoes.finishWaiters none).trans first).episode
  have after := rest.episode
  rw [barAt_modBar_self] at after
  exact Nat.lt_of_lt_of_le (Nat.lt_succ_of_le before) after
/-- A unit that waits for the episode that a release ends waits no more. -/
theorem park_barRelease {w : Who} {p : Park} (h : Waits s w p) (at_ : w.slot.node = n) (kind : p.kind = .barrier b (barAt s n b).g) :
    (ctxAt (Machine.barRelease s n b) w.slot).park = Option.none := by
  obtain ⟨u, first, rest⟩ := barRelease_goes (b := b) none
  have later := first.trans (.trans (.modBar u nextEpisode (Nat.le_succ _)) rest)
  exact (later.ctx w.slot).stopped (park_finishAll (fun _ => slot_of_mem_barWaiters) none h (mem_barWaiters h at_ kind))
end
theorem BarGoes.barProgress (fuel : Nat) (none : NoneDue s n) : BarGoes n b s (barProgress fuel s n b) := by
  induction fuel generalizing s with
  | zero => exact .refl n b s
  | succ fuel ih =>
    unfold Machine.barProgress
    extract_lets x tx ty row s1 s2
    split
    · exact .refl n b s
    · split
      · split
        · exact .refl n b s
        · exact (BarGoes.modBar s _ (Nat.le_refl _)).trans (barSend_sent ..).barGoes
      · split
        · split
          · split
            · exact .refl n b s
            · exact (BarGoes.modBar s _ (Nat.le_refl _)).trans (barSend_sent ..).barGoes
          · exact (BarGoes.barRelease none).trans (ih (none.after (.barRelease none)))
        · exact .refl n b s
theorem BarGoes.stepFree (s : State) : BarGoes n b s (stepFree s) := ⟨fun _ => .refl _, Nat.le_refl _⟩
theorem BarGoes.barServe (none : NoneDue s n) : BarGoes n b s (barServe s n b) := by
  unfold Machine.barServe
  split
  · exact .barProgress 3 none
  · split
    · exact (BarGoes.stepFree s).trans (.barRelease (none.after (.stepFree (b := b) s)))
    · exact .stepFree s

/-! ### The events (R227, R228, R230) -/

theorem barServe_disarmed (off : (barAt s n b).armed = false) : barServe s n b = s := by
  unfold barServe barProgress
  simp only [off, Bool.not_false, true_or, if_true]
variable {job : Word}
theorem barrierReleaseLand_elsewhere (other : (tileAt s n).tenant ≠ some job ∨ (barAt s n b).armed = false) :
    exec (.barrierReleaseLand n b job) s = .next s :=
  congrArg Host.Outcome.next (if_pos (other.imp_right fun off => by rw [off]; rfl))
theorem barrierTokenLand_elsewhere (row : Bool) (other : (tileAt s n).tenant ≠ some job) : exec (.barrierTokenLand n b row job) s = .next s :=
  congrArg Host.Outcome.next (if_pos other)
/-- A token that lands at a barrier that is not armed is held. -/
theorem barrierTokenLand_held {row : Bool} {y : Barrier} (tenant : (tileAt s n).tenant = some job) (off : (barAt s n b).armed = false)
    (held : (if row then (if (barAt s n b).row0 = 0 then { barAt s n b with row0 := 1 } else { barAt s n b with row1 := 1 })
      else if (barAt s n b).col0 = 0 then { barAt s n b with col0 := 1 } else { barAt s n b with col1 := 1 }) = y) :
    ∃ t, exec (.barrierTokenLand n b row job) s = .next t ∧ barAt t n b = y := by
  refine ⟨_, rfl, ?_⟩
  unfold evBarrierTokenLand
  rw [if_neg (not_not.2 tenant)]
  dsimp only
  rw [barServe_disarmed, barAt_modBar_self, held]
  rw [barAt_modBar_self, held, ← off, ← held]
  split <;> split <;> rfl
theorem barrierReleaseLand_armed (tenant : (tileAt s n).tenant = some job) (on : (barAt s n b).armed = true) :
    exec (.barrierReleaseLand n b job) s = .next (barServe (barRelease s n b) n b) :=
  congrArg Host.Outcome.next (if_neg (not_or.2 ⟨not_not.2 tenant, by rw [on]; decide⟩))
theorem noneDue_of_tileUnits (none : ∀ y ∈ tileUnits (tileAt s n), ∀ p, y.2.park = some p → p.limitDue = false) : NoneDue s n :=
  fun i c unit p park => none (i, c) (mem_tileUnits.2 unit) p park
/-- A release that lands at a barrier that is armed ends its episode, and the units that wait for it go on. -/
theorem barrierReleaseLand_releases (none : NoneDue s n) : let t := barServe (barRelease s n b) n b
    (barAt s n b).g < (barAt t n b).g ∧ t.mem = s.mem ∧ ∀ w p, w.slot.node = n → Waits s w p → p.kind = .barrier b (barAt s n b).g →
      (ctxAt t w.slot).park = Option.none ∧ (ctxAt t w.slot).pc = (ctxAt s w.slot).pc + 12 := by
  have served : BarGoes n b (barRelease s n b) (barServe (barRelease s n b) n b) := .barServe (none.after (.barRelease (b := b) none))
  refine ⟨Nat.lt_of_lt_of_le (barRelease_later none) served.episode, ((Kept.barRelease ..).trans (.barServe ..)).mem, fun w p at_ h kind => ?_⟩
  have gone := (served.ctx w.slot).stopped (park_barRelease none h at_ kind)
  exact ⟨gone, (((BarGoes.barRelease none).trans served).ctx w.slot).pc_stopped (by rw [h.park]; exact Option.some_ne_none p) gone⟩
end

/-- Settles O44: the forms case by case; tokens and releases by the tenant and by whether the barrier is armed. -/
theorem barrierFormsAndFlits : Obligations.BarrierFormsAndFlits := by
  refine ⟨fun s h n a b => ?_, fun s n b job => ?_⟩
  · intro c N k x
    refine ⟨fun hr => ⟨exec_barArm_refused hr, exec_barArm_done hr⟩, fun hr => ⟨exec_barArrive_refused hr, exec_barArrive_waits hr,
      fun good free room => ⟨exec_barArrive_counts hr good free room, exec_barSync_released hr good free room,
        fun e => exec_barSync_waits hr good free room⟩,
      fun far => ⟨exec_barWait_beyond hr far, exec_barDisarm_refused hr (.inl far)⟩, exec_barWait_released hr, fun e => exec_barWait_waits hr,
      fun near => ⟨fun bad => exec_barDisarm_refused hr (.inr bad), fun empty alone => exec_barDisarm_done hr ?_⟩⟩⟩
    rintro (far | holds | waits)
    · exact absurd far (Nat.not_le.2 near)
    · exact holds empty
    · exact alone waits
  · refine ⟨fun other => ⟨barrierReleaseLand_elsewhere (.inl other), fun row => barrierTokenLand_elsewhere row other⟩,
      fun tenant off => ⟨barrierReleaseLand_elsewhere (.inr off), barrierTokenLand_held tenant off rfl, barrierTokenLand_held tenant off rfl⟩,
      fun tenant on none => ⟨_, barrierReleaseLand_armed tenant on, barrierReleaseLand_releases (noneDue_of_tileUnits none)⟩⟩

end Sys2Proof.Machine
end

section
/-! The synchronising forms (R219 to R221): LD.SYNC, ST.FILL and LDV.SYNC by what their word allows. -/

namespace Sys2Proof.Machine

section
variable {s : State} {h : Hdr} {sc : Scope} {od : Ord} {cons ovr : Bool} {d a b : SIx} {v : VIx} {ofs : BitVec 32} {off : Nat}

/-! ### Waiting -/

theorem askServe_now (s : State) (n : Node) : (askServe s n).now = s.now := (OnlyAsked.askServe s n).now
/-- A form that waits at its own tile, counted by WAITLIM with the address it waits for. -/
theorem runForm_syncWaits {f : Form} {body : State → SlotRef → Ctx → Act} {u : State} {ea : Word} (hr : Ready s f.h f.srcs f.dsts f.rgn)
    (now : u.now = s.now) (e : body s s.cur (me s) = .wait u s.no .sync 1 0 ea []) :
    Parks s f.h (waitBy s f.i s.no .sync 1 0 ea []) u (runForm f body s) := by
  have since : waitBy u f.i s.no .sync 1 0 ea [] = waitBy s f.i s.no .sync 1 0 ea [] := by unfold waitBy; rw [now]
  rw [← since]
  exact runForm_wait f body s _ _ _ _ _ _ _ hr e
theorem padWaits_now (s : State) (off : Nat) (op : SpOp) : (padWaits s off op).now = s.now := askServe_now ..

/-! ### LD.SYNC -/

section
variable (hr : Ready s h [.s a] [.s d] false) (at_ : PadAt s (eaOf (me s) a ofs) 8 8 true off)
include hr at_

theorem exec_ldSync_full (log : Unrecorded s) (full : padFull (here s) off = true) :
    ResultsIn s h (counted (modTile { s with no := s.no + 1 } s.cur.node fun T => if cons then { T with spEmpty := insAsc (off / 8) T.spEmpty } else T))
      [.s a] 6 [(.s d, sval (padWord (here s) off))] (exec (.ldSync h sc od cons d a ofs) s) :=
  runForm_done _ _ s _ hr ((padForm_at at_ _ _).trans
    (syncLocal_goes s off (.ldSync cons) _ _ _ log nofun hr.clean (congrArg not full)))
theorem exec_ldSync_empty (empty : padFull (here s) off = false) :
    Parks s h (waitBy s (.ldSync h sc od cons d a ofs) s.no .sync 1 0 (eaOf (me s) a ofs) []) (padWaits s off (.ldSync cons))
      (exec (.ldSync h sc od cons d a ofs) s) :=
  runForm_syncWaits hr (padWaits_now ..) ((padForm_at at_ _ _).trans (syncLocal_waits s off (.ldSync cons) _ _ _ (congrArg not empty)))
end
theorem exec_ldSync_away (hr : Ready s h [.s a] [.s d] false) (away : PadAway s (eaOf (me s) a ofs) 8 8) :
    AsksPad s h (.ldSync h sc od cons d a ofs) (eaOf (me s) a ofs) (.ldSync cons) true (exec (.ldSync h sc od cons d a ofs) s) :=
  runForm_asks _ _ s _ _ _ hr (padForm_away away _ _)

/-! ### ST.FILL -/

section
variable (hr : Ready s h [.s a, .s b] [] false)
include hr

theorem exec_stFill_held (at_ : PadAt s (eaOf (me s) a ofs) 8 8 true off)
    (held : releaseOk s s.cur (me s).uid (atLeastTile sc) (padHome s.cur (eaOf (me s) a ofs)) = false) :
    RelWaits s h (.stFill h sc od ovr a b ofs) (exec (.stFill h sc od ovr a b ofs) s) := runForm_relWaits hr held (padForm_at at_ _ _)
variable (free : releaseOk s s.cur (me s).uid (atLeastTile sc) (padHome s.cur (eaOf (me s) a ofs)) = true)
include free
theorem exec_stFill_away (away : PadAway s (eaOf (me s) a ofs) 8 8) :
    AsksPad s h (.stFill h sc od ovr a b ofs) (eaOf (me s) a ofs) (.stFill ovr (rs (me s) b)) true (exec (.stFill h sc od ovr a b ofs) s) :=
  runForm_asks _ _ s _ _ _ hr ((padForm_away away _ _).trans (release_performed free _))
variable (at_ : PadAt s (eaOf (me s) a ofs) 8 8 true off)
include at_
theorem exec_stFill_fills (log : Unrecorded s) (may : padFull (here s) off = false ∨ ovr = true) :
    ResultsIn s h (counted (modTile { s with no := s.no + 1 } s.cur.node fun T =>
      { T with sp := cellsWrite T.sp off (bytesOfNat 8 (rs (me s) b).toNat), spEmpty := T.spEmpty.filter fun w => w ≠ off / 8 })) [] 6 []
      (exec (.stFill h sc od ovr a b ofs) s) := by
  have goes : spWaits (here s) (padOwn s off (.stFill ovr (rs (me s) b))) = false := by
    show (padFull (here s) off && !ovr) = false
    rcases may with empty | over'
    · rw [empty]; rfl
    · rw [over', Bool.not_true, Bool.and_false]
  exact runForm_done _ _ s _ hr ((padForm_at at_ _ _).trans ((release_performed free _).trans
    (syncLocal_goes s off (.stFill ovr (rs (me s) b)) _ _ _ log nofun hr.clean goes)))
theorem exec_stFill_full (full : padFull (here s) off = true) (keeps : ovr = false) :
    Parks s h (waitBy s (.stFill h sc od ovr a b ofs) s.no .sync 1 0 (eaOf (me s) a ofs) []) (padWaits s off (.stFill ovr (rs (me s) b)))
      (exec (.stFill h sc od ovr a b ofs) s) := by
  have waits : spWaits (here s) (padOwn s off (.stFill ovr (rs (me s) b))) = true := by
    show (padFull (here s) off && !ovr) = true
    rw [full, keeps]
    rfl
  exact runForm_syncWaits hr (padWaits_now ..) ((padForm_at at_ _ _).trans ((release_performed free _).trans
    (syncLocal_waits s off (.stFill ovr (rs (me s) b)) _ _ _ waits)))
end

/-! ### LDV.SYNC -/

theorem exec_ldvSync_waits (hr : Ready s h [.s a] [.v v] false) (at_ : PadAt s (eaOf (me s) a ofs) 256 8 false off) :
    Parks s h (waitBy s (.ldvSync h sc od cons v a ofs) s.no .sync 1 0 (eaOf (me s) a ofs) []) (askServe { s with no := s.no + 1 } s.cur.node)
      (exec (.ldvSync h sc od cons v a ofs) s) := runForm_syncWaits hr (askServe_now ..) (padForm_at at_ _ _)
end

end Sys2Proof.Machine
end

section
/-! The service of a scratchpad at the end of a cycle (R215, R221): what it makes of one request that has landed, and of one form that waits. -/

namespace Sys2Proof.Machine

/-! ### Operations on a word (R214, R219) -/

/-- An operation changes bytes and presence bits alone. -/
theorem spDo_rest (t : Tile) (q : SpReq) : { (spDo t q).1 with sp := t.sp, spEmpty := t.spEmpty } = t := by
  unfold spDo
  cases q.op with
  | ld | st | stFill | stReset | atom => rfl
  | ldSync | cas => dsimp only; split <;> rfl
/-- What it makes of them rests on the bytes and the presence bits alone. -/
theorem spDo_taken (t : Tile) (q : SpReq) (l : List (SpReq × Bool)) (k : Nat) :
    spDo { t with spIn := l, servedAt := k } q = ({ (spDo t q).1 with spIn := l, servedAt := k }, (spDo t q).2) := by
  unfold spDo
  cases q.op with
  | ld | st | stFill | stReset | atom => rfl
  | ldSync cons => cases cons <;> rfl
  | cas e v =>
    have word : padWord { t with spIn := l, servedAt := k } q.off = padWord t q.off := rfl
    dsimp only
    rw [word]
    split <;> rfl
/-- An operation that is not recorded, at a tile without errors, is performed. -/
theorem spServe_performs {s : State} {q : SpReq} (clean : (tileAt s q.home).errs = []) (log : q.recSeq = none) :
    spServe s q = (setTile s q.home (spDo (tileAt s q.home) q).1, .done (spDo (tileAt s q.home) q).2) := by
  have passes : spRec s q = (true, s) := by
    unfold spRec
    split
    · unfold recPoint
      rw [log]
    · rfl
  unfold spServe
  simp only [consume_clean _ _ _ _ _ _ clean, ite_self, Option.isSome_none, Bool.false_eq_true, if_false, passes, Bool.not_true,
    replaceUnits_clean _ _ _ _ _ clean]

/-! ### Step 1: a request is taken (R215) -/

theorem spReply_sent (s : State) (q : SpReq) (r : SpReply) : OnlySent s (spReply s q r) := .sendMsg ..

section
variable {s : State} {n : Node} {q : SpReq}

theorem takeRemote_refused (other : (tileAt s n).tenant ≠ some q.job) : takeRemote s n (q, false) = spReply s q (.refused fAccess) := by
  unfold takeRemote
  dsimp only
  rw [if_neg Bool.false_ne_true, if_pos other]
section
variable (tenant : (tileAt s n).tenant = some q.job) (fits : padOk (tileAt s n) q.off 8 = true)
include tenant fits
theorem takeRemote_waits (waits : spWaits (tileAt s n) q = true) (room : (tileAt s n).waiters = []) :
    takeRemote s n (q, false) = modTile s n fun t => { t with waiters := t.waiters ++ [⟨q, false⟩] } := by
  unfold takeRemote
  simp only [Bool.false_eq_true, if_false, tenant, ne_eq, not_true_eq_false, fits, Bool.not_true, waits, if_true, room, List.filter_nil]
  rfl
theorem takeRemote_performs (home : q.home = n) (clean : (tileAt s n).errs = []) (log : q.recSeq = none) (goes : spWaits (tileAt s n) q = false) :
    takeRemote s n (q, false) = spReply (setTile s n (spDo (tileAt s n) q).1) q (.done (spDo (tileAt s n) q).2) := by
  subst home
  unfold takeRemote
  simp only [Bool.false_eq_true, if_false, tenant, ne_eq, not_true_eq_false, fits, Bool.not_true, goes, spServe_performs clean log]
end

/-! ### Step 2: the lists of words (R221) -/

theorem serveWords_none (none : (tileAt s n).waiters = []) : serveWords s n = s := by
  unfold serveWords
  rw [none]
  rfl
theorem serveWords_one {w : Waiter} (one : (tileAt s n).waiters = [w]) :
    serveWords s n = serveWord n (padFull (tileAt s n) w.q.off) [w] s := by
  unfold serveWords
  rw [one]
  simp [List.eraseDups_cons, one]
/-- A request that must wait for its word is left in its list. -/
theorem serveWord_waits {w : Waiter} (waits : spWaits (tileAt s n) w.q = true) : serveWord n (padFull (tileAt s n) w.q.off) [w] s = s := by
  unfold spWaits at waits
  cases op : w.q.op with
  | ldSync =>
    rw [op] at waits
    have empty : padFull (tileAt s n) w.q.off = false := by simpa using waits
    unfold serveWord
    rw [op, empty]
    rfl
  | stFill =>
    rw [op] at waits
    have full : padFull (tileAt s n) w.q.off = true := (Bool.and_eq_true_iff.1 waits).1
    unfold serveWord
    rw [op, full]
    rfl
  | ld | st | stReset | atom | cas => rw [op] at waits; cases waits
theorem serveWord_ldSync {w : Waiter} {cons : Bool} (op : w.q.op = .ldSync cons) : serveWord n true [w] s = (serveWaiter s n w).1 := by
  unfold serveWord
  rw [op]
  dsimp only
  rw [if_pos rfl]
  split <;> rfl
end

/-! ### Steps 3 and 4: LDV.SYNC and the semaphores -/

/-- A wait that is neither an LDV.SYNC's nor one for a semaphore. -/
structure Unserved (p : Park) : Prop where
  vector : p.kind = .sync → ∀ h sc od cons d a ofs, p.form ≠ .ldvSync h sc od cons d a ofs
  semaphore : ∀ k th dec d, p.kind ≠ .sem k th dec d
/-- A tile with no addition to a semaphore, and whose units wait for nothing of that kind. -/
structure PadIdle (t : Tile) : Prop where
  adds : t.semAdds = []
  units : ∀ y ∈ tileUnits t, ∀ p, y.2.park = some p → Unserved p

theorem sortBy_eq_nil {α : Type} {lt : α → α → Bool} {l : List α} : sortBy lt l = [] ↔ l = [] := by
  cases l with
  | nil => exact iff_of_true rfl rfl
  | cons x l =>
    refine iff_of_false (fun nil => ?_) (List.cons_ne_nil x l)
    unfold sortBy at nil
    rw [List.foldr_cons] at nil
    cases sorted : l.foldr (insertBy lt) [] with
    | nil => rw [sorted] at nil; cases nil
    | cons y m =>
      rw [sorted] at nil
      unfold insertBy at nil
      split at nil <;> cases nil
theorem semWaiters_eq_nil {t : Tile} : semWaiters t = [] ↔ ∀ y ∈ tileUnits t, ∀ p, y.2.park = some p → ∀ k th dec d, p.kind ≠ .sem k th dec d := by
  unfold semWaiters
  rw [sortBy_eq_nil, List.filterMap_eq_nil_iff]
  refine forall₂_congr fun y _ => ?_
  obtain ⟨i, c⟩ := y
  dsimp only
  rw [Option.bind_eq_none_iff]
  refine forall₂_congr fun p _ => ?_
  cases kind : p.kind with
  | sem k th dec d => exact iff_of_false nofun fun none => none k th dec d rfl
  | _ => exact iff_of_true rfl nofun
theorem ldvWaits_eq_false {t : Tile} : ldvWaits t = false ↔
    ∀ y ∈ tileUnits t, ∀ p, y.2.park = some p → p.kind = .sync → ∀ h sc od cons d a ofs, p.form ≠ .ldvSync h sc od cons d a ofs := by
  unfold ldvWaits
  rw [List.any_eq_false]
  refine forall₂_congr fun y _ => ?_
  obtain ⟨i, c⟩ := y
  dsimp only
  constructor
  · intro none p park kind h sc od cons d a ofs form
    rw [park] at none
    dsimp only at none
    rw [form] at none
    exact none (decide_eq_true kind)
  · intro none waits
    split at waits
    next p park =>
      split at waits
      next form => exact none p park (of_decide_eq_true waits) _ _ _ _ _ _ _ form
      · cases waits
    · cases waits
theorem padIdle_iff {t : Tile} : PadIdle t ↔ t.semAdds = [] ∧ semWaiters t = [] ∧ ldvWaits t = false := by
  rw [semWaiters_eq_nil, ldvWaits_eq_false]
  exact ⟨fun h => ⟨h.adds, fun y mem p park => (h.units y mem p park).semaphore, fun y mem p park => (h.units y mem p park).vector⟩,
    fun ⟨adds, semaphores, vectors⟩ => ⟨adds, fun y mem p park => ⟨vectors y mem p park, semaphores y mem p park⟩⟩⟩
theorem PadIdle.congr {t t' : Tile} (h : PadIdle t) (adds : t'.semAdds = t.semAdds) (slots : t'.slots = t.slots) : PadIdle t' := by
  have units : tileUnits t' = tileUnits t := by unfold tileUnits; rw [slots]
  exact ⟨adds.trans h.adds, by rw [units]; exact h.units⟩
/-- A unit of the tile has gone on, and nothing but its slot has changed. -/
theorem PadIdle.of_onlySlot {r : SlotRef} {s t : State} {n : Node} (h : PadIdle (tileAt s n)) (only : OnlySlot r s t) (at_ : r.node = n)
    (gone : (ctxAt t r).park = none) : PadIdle (tileAt t n) := by
  subst at_
  refine ⟨(congrArg Tile.semAdds only.tile :).trans h.adds, fun ⟨i, c⟩ mem p park => ?_⟩
  have still (unit : c ∈ slotUnits (slotAt s ⟨r.pkg, r.tile, i⟩)) : Unserved p := h.units (i, c) (mem_tileUnits.2 unit) p park
  have unit : c ∈ slotUnits (slotAt t ⟨r.pkg, r.tile, i⟩) := mem_tileUnits.1 mem
  by_cases other : i = r.slot
  · subst other
    rcases mem_slotUnits.1 unit with ⟨-, is⟩ | away
    · have parked : c.park = none := is ▸ gone
      rw [parked] at park
      cases park
    · have saved : (slotAt t r).saved = (slotAt s r).saved := (congrArg Slot.saved only.slot :)
      exact still (mem_slotUnits.2 (.inr (saved ▸ away)))
  · rw [only.slots i other] at unit
    exact still unit

section
variable {u : State} {n : Node}

theorem examineLdv_idle {y : Nat × Ctx} (idle : ∀ p, y.2.park = some p → Unserved p) : examineLdv u n y = u := by
  unfold examineLdv
  split
  next p park =>
    split
    next form =>
      have other : p.kind ≠ .sync := fun kind => (idle p park).vector kind _ _ _ _ _ _ _ form
      dsimp only
      rw [decide_eq_false other, Bool.false_and]
      exact if_neg Bool.false_ne_true
    · rfl
  · rfl
theorem OnlyAsked.askEngines (s : State) (n : Node) : OnlyAsked s (askEngines s n) := by
  unfold Machine.askEngines
  dsimp only
  split
  · split
    · exact (OnlyAsked.pushOnce ..).trans (.pushOnce ..)
    · exact .pushOnce ..
  · split
    · exact .pushOnce ..
    · exact .refl s
theorem serveSems_idle (idle : PadIdle (tileAt u n)) : serveSems u n = askEngines (modTile u n fun t => { t with semAdds := [] }) n := by
  have still : PadIdle (tileAt (modTile u n fun t => { t with semAdds := [] }) n) := by
    rw [tileAt_modTile_self]
    exact idle.congr idle.adds.symm rfl
  unfold serveSems
  simp only [idle.adds, List.map_nil, List.eraseDups_nil, List.foldl_nil, (padIdle_iff.1 still).2.1]

/-! ### A cycle of the service -/

/-- The requests that have landed are taken. -/
def spTaken (s : State) (n : Node) : State := modTile s n fun t => { t with spIn := [], servedAt := s.now + 1 }
/-- The requests that have landed, in the order in which they are taken. -/
def spRequests (t : Tile) : List (SpReq × Bool) := sortBy (fun a b => slotKey a.1.who.slot ≤ slotKey b.1.who.slot) t.spIn
theorem tileAt_spTaken (s : State) (n : Node) : tileAt (spTaken s n) n = { tileAt s n with spIn := [], servedAt := s.now + 1 } := tileAt_modTile_self ..

/-- Where no LDV.SYNC and no semaphore waits, a cycle of the service sends and asks, and nothing more, once the lists of words are served. -/
theorem service_idle {s : State} (runs : isHeld s n = false)
    (served : serveWords ((spRequests (tileAt s n)).foldl (fun s x => takeRemote s n x) (spTaken s n)) n = u) (idle : PadIdle (tileAt u n)) :
    ∃ t, exec (.scratchpadCycleService n none) s = .next t ∧ OnlySent u t ∧ ∀ e ∈ u.agenda, e ∈ t.agenda := by
  have vectors : (tileUnits (tileAt u n)).foldl (fun s x => examineLdv s n x) u = u :=
    List.foldlRecOn (motive := (· = u)) _ _ rfl fun v is y mem => by rw [is]; exact examineLdv_idle (idle.units y mem)
  have cleared : OnlySent u (modTile u n fun t => { t with semAdds := [] }) := .modTile u n _ (by rw [← idle.adds])
  have asked : OnlyAsked (modTile u n fun t => { t with semAdds := [] }) (serveSems u n) := serveSems_idle idle ▸ .askEngines ..
  refine ⟨_, rfl, ?_⟩
  unfold evScratchpadCycleService
  dsimp only
  rw [runs, if_neg Bool.false_ne_true]
  unfold spRequests spTaken at served
  rw [served, vectors]
  split
  · have again := asked.trans (.pushOnce (serveSems u n) ((serveSems u n).now + 1) phServe (nodeKey n) (.scratchpadCycleService n none))
    exact ⟨cleared.trans again.sent, again.agenda⟩
  · exact ⟨cleared.trans asked.sent, asked.agenda⟩

end
end Sys2Proof.Machine
end

section
/-! The service of a scratchpad case by case (R215, R221): a request that lands, a request that is taken, and a form whose word allows it. -/

namespace Sys2Proof.Machine

section
variable {s : State} {n : Node}

/-! ### A request that lands -/

theorem scratchpadCycleService_lands (s : State) (n : Node) (x : SpReq × Bool) : ∃ t, exec (.scratchpadCycleService n (some x)) s = .next t ∧
    (tileAt t n).spIn = (tileAt s n).spIn ++ [x] ∧ (tileAt t n).sp = (tileAt s n).sp ∧
    ∃ e ∈ t.agenda, e.at_ = max s.now (tileAt s n).servedAt ∧ e.ev = .scratchpadCycleService n none := by
  have due := mem_askServe (modTile s n fun t => { t with spIn := t.spIn ++ [x] }) n
  have tile := ((OnlyAsked.askServe (modTile s n fun t => { t with spIn := t.spIn ++ [x] }) n).tileAt n).trans (tileAt_modTile_self ..)
  rw [tileAt_modTile_self] at due
  exact ⟨_, rfl, (congrArg Tile.spIn tile :), (congrArg Tile.sp tile :), due⟩

/-! ### A request that is taken -/

theorem OnlySent.spEmpty {s t : State} (h : OnlySent s t) (n : Node) : (tileAt t n).spEmpty = (tileAt s n).spEmpty := (congrArg Tile.spEmpty (h.tile n) :)
theorem OnlySent.spIn {s t : State} (h : OnlySent s t) (n : Node) : (tileAt t n).spIn = (tileAt s n).spIn := (congrArg Tile.spIn (h.tile n) :)
theorem OnlySent.waiters {s t : State} (h : OnlySent s t) (n : Node) : (tileAt t n).waiters = (tileAt s n).waiters := (congrArg Tile.waiters (h.tile n) :)
theorem OnlySent.padIdle {s t : State} (h : OnlySent s t) (idle : PadIdle (tileAt s n)) : PadIdle (tileAt t n) :=
  idle.congr (congrArg Tile.semAdds (h.tile n) :) (h.slots n)

/-- What the service leaves of a scratchpad: bytes, presence bits and waiting requests as named, and no request that has landed. -/
structure PadLeft (t : Tile) (sp : List Host.Cell) (spEmpty : List Nat) (waiters : List Waiter) : Prop where
  spIn : t.spIn = []
  sp : t.sp = sp
  spEmpty : t.spEmpty = spEmpty
  waiters : t.waiters = waiters
theorem OnlySent.padLeft {s t : State} {sp : List Host.Cell} {empty : List Nat} {ws : List Waiter} (h : OnlySent s t)
    (left : PadLeft (tileAt s n) sp empty ws) : PadLeft (tileAt t n) sp empty ws :=
  ⟨(h.spIn n).trans left.spIn, (h.sp n).trans left.sp, (h.spEmpty n).trans left.spEmpty, (h.waiters n).trans left.waiters⟩

section
variable {q : SpReq} (runs : isHeld s n = false) (one : (tileAt s n).spIn = [(q, false)])
include runs one

/-- A cycle in which one request is taken, whatever is made of it. -/
theorem service_takes {t : State} {sp : List Host.Cell} {spEmpty : List Nat} {ws : List Waiter} (taken : takeRemote (spTaken s n) n (q, false) = t)
    (left : PadLeft (tileAt t n) sp spEmpty ws) (still : PadIdle (tileAt t n)) (served : serveWords t n = t) :
    ∃ t, exec (.scratchpadCycleService n none) s = .next t ∧ PadLeft (tileAt t n) sp spEmpty ws := by
  obtain ⟨t', is, sent, -⟩ := service_idle (u := t) runs (by unfold spRequests; rw [one]; exact (congrArg (serveWords · n) taken).trans served) still
  exact ⟨t', is, sent.padLeft left⟩

variable (idle : PadIdle (tileAt s n)) (empty : (tileAt s n).waiters = [])
include idle empty

theorem service_refuses (other : (tileAt s n).tenant ≠ some q.job) : ∃ t, exec (.scratchpadCycleService n none) s = .next t ∧
    PadLeft (tileAt t n) (tileAt s n).sp (tileAt s n).spEmpty [] := by
  have tile := tileAt_spTaken s n
  have sent := spReply_sent (spTaken s n) q (.refused fAccess)
  have left : PadLeft (tileAt (spTaken s n) n) (tileAt s n).sp (tileAt s n).spEmpty [] := by
    rw [tile]
    exact ⟨rfl, rfl, rfl, empty⟩
  exact service_takes runs one (takeRemote_refused (by rw [tile]; exact other)) (sent.padLeft left)
    (sent.padIdle (by rw [tile]; exact idle.congr rfl rfl)) (serveWords_none (sent.padLeft left).waiters)
variable (tenant : (tileAt s n).tenant = some q.job) (fits : padOk (tileAt s n) q.off 8 = true)
include tenant fits
theorem service_keeps (waits : spWaits (tileAt s n) q = true) : ∃ t, exec (.scratchpadCycleService n none) s = .next t ∧
    PadLeft (tileAt t n) (tileAt s n).sp (tileAt s n).spEmpty [⟨q, false⟩] := by
  have tile := tileAt_spTaken s n
  have kept : tileAt (modTile (spTaken s n) n fun t => { t with waiters := t.waiters ++ [⟨q, false⟩] }) n =
      { tileAt s n with spIn := [], servedAt := s.now + 1, waiters := [⟨q, false⟩] } := by
    rw [tileAt_modTile_self, tile, empty]
    rfl
  refine service_takes runs one (takeRemote_waits (by rw [tile]; exact tenant) (by rw [tile]; exact fits) (by rw [tile]; exact waits)
    (by rw [tile]; exact empty)) (by rw [kept]; exact ⟨rfl, rfl, rfl, rfl⟩) (by rw [kept]; exact idle.congr rfl rfl) ?_
  exact (serveWords_one (w := ⟨q, false⟩) (by rw [kept])).trans (serveWord_waits (by rw [kept]; exact waits))
theorem service_performs (home : q.home = n) (clean : (tileAt s n).errs = []) (log : q.recSeq = none) (goes : spWaits (tileAt s n) q = false) :
    ∃ t, exec (.scratchpadCycleService n none) s = .next t ∧ PadLeft (tileAt t n) (spDo (tileAt s n) q).1.sp (spDo (tileAt s n) q).1.spEmpty [] := by
  have tile := tileAt_spTaken s n
  have done : spDo (tileAt (spTaken s n) n) q = ({ (spDo (tileAt s n) q).1 with spIn := [], servedAt := s.now + 1 }, (spDo (tileAt s n) q).2) := by
    rw [tile]
    exact spDo_taken ..
  have rest := spDo_rest (tileAt s n) q
  have sent := spReply_sent (setTile (spTaken s n) n (spDo (tileAt (spTaken s n) n) q).1) q (.done (spDo (tileAt (spTaken s n) n) q).2)
  have left : PadLeft (tileAt (setTile (spTaken s n) n (spDo (tileAt (spTaken s n) n) q).1) n) (spDo (tileAt s n) q).1.sp
      (spDo (tileAt s n) q).1.spEmpty [] := by
    rw [tileAt_setTile_self, done]
    exact ⟨rfl, rfl, rfl, (congrArg Tile.waiters rest :).trans empty⟩
  have still : PadIdle (tileAt (setTile (spTaken s n) n (spDo (tileAt (spTaken s n) n) q).1) n) := by
    rw [tileAt_setTile_self, done]
    exact idle.congr (congrArg Tile.semAdds rest :) (congrArg Tile.slots rest :)
  exact service_takes runs one (takeRemote_performs (by rw [tile]; exact tenant) (by rw [tile]; exact fits) home (by rw [tile]; exact clean) log
    (by rw [tile]; exact goes)) (sent.padLeft left) (sent.padIdle still) (serveWords_none (sent.padLeft left).waiters)
end

/-! ### A form whose word allows it (R221) -/

section
variable {w : Who} {p : Park} (h : Waits s w p)
include h

theorem OnlySlot.land (g : Reg) (x : VVal) (l : Nat) : OnlySlot w.slot s (land s w.slot w.uid g x l) := by
  unfold Machine.land
  split
  · exact (OnlySlot.modUnit_waits h _).1.trans (.push ..)
  · exact .refl ..
theorem ctxAt_land (g : Reg) (x : VVal) (l : Nat) :
    ctxAt (land s w.slot w.uid g x l) w.slot = if realReg g then setPres (ctxAt s w.slot) g .pending else ctxAt s w.slot := by
  unfold land
  split
  · exact (OnlySlot.modUnit_waits h fun c => setPres c g .pending).2
  · rfl
theorem pc_land (g : Reg) (x : VVal) (l : Nat) : (ctxAt (land s w.slot w.uid g x l) w.slot).pc = (ctxAt s w.slot).pc := by
  rw [ctxAt_land h]
  split
  · exact (congrArg Ctx.pc (setPres_rest ..) :)
  · rfl
/-- The register of a result on its way is pending, and its landing is due. -/
theorem land_pends {g : Reg} (real : realReg g = true) (x : VVal) (l : Nat) : presOf (ctxAt (land s w.slot w.uid g x l) w.slot) g = .pending ∧
    ∃ e ∈ (land s w.slot w.uid g x l).agenda, e.ev = .resultLanding w.slot w.uid g x := by
  obtain ⟨e, mem, -, is⟩ := mem_push_new (modUnit s w.slot w.uid fun c => setPres c g .pending) (dueIn s w.slot.node l) phStart (slotKey w.slot)
    (.resultLanding w.slot w.uid g x)
  refine ⟨?_, e, ?_, is⟩
  · rw [ctxAt_land h, if_pos real]
    exact presOf_setPres_self _ _ _ real
  · unfold land
    rw [if_pos real]
    exact mem
/-- The context of a unit whose form the service has ended: it is recorded, and the unit issues from a cycle on. -/
def servedCtx (c : Ctx) (from_ : Nat) : Ctx :=
  { c with pc := c.pc + 12, issued := c.issued + 1, packet := c.packet.map fun x => (x.1, x.2 + 1), park := none, asked := none,
           recSeq := c.recSeq + 1, readyFrom := from_ }
theorem finish_recorded (from_ : Nat) :
    OnlySlot w.slot s (modUnit (countRec (finish s w id) w.slot w.uid) w.slot w.uid fun c => { c with readyFrom := from_ }) ∧
    ctxAt (modUnit (countRec (finish s w id) w.slot w.uid) w.slot w.uid fun c => { c with readyFrom := from_ }) w.slot =
      servedCtx (ctxAt s w.slot) from_ := by
  unfold countRec
  obtain ⟨counts, counted⟩ := finish_then h id (fun c => { c with recSeq := c.recSeq + 1 }) h.uid
  have ended := (finish_spec h id).2
  obtain ⟨only, ctx⟩ := counts.modUnit_named (uid := w.uid) h.bound (by rw [counted, ended]; exact h.uid) fun c => { c with readyFrom := from_ }
  exact ⟨only, by rw [ctx, counted, ended]; rfl⟩
/-- A form that waits, and that the service ends with one result. -/
theorem serveLocal_ends (g : Reg) (x : VVal) (l : Nat) : ∃ k, OnlySlot w.slot (land s w.slot w.uid g x k) (serveLocal s w l [(g, x)]) ∧
    ctxAt (serveLocal s w l [(g, x)]) w.slot = servedCtx (ctxAt (land s w.slot w.uid g x k) w.slot) (s.now + 2) := by
  have now := (OnlySlot.land h g x (l + slowBy (spSrcs p.form))).now
  refine ⟨l + slowBy (spSrcs p.form), ?_⟩
  unfold serveLocal
  rw [waitOf_waits h, ← now]
  exact finish_recorded (h.land g x (l + slowBy (spSrcs p.form))) _
end

/-- A form of the tile's own unit that need not wait for its word is performed, leaves its list, and ends. -/
theorem serveWaiter_own {q : SpReq} (home : q.home = n) (clean : (tileAt s n).errs = []) (log : q.recSeq = none)
    (goes : spWaits (tileAt s n) q = false) {p : Park} (h : Waits (dropWaiter (setTile s n (spDo (tileAt s n) q).1) n q.who) q.who p) :
    (serveWaiter s n ⟨q, true⟩).1 =
      serveLocal (dropWaiter (setTile s n (spDo (tileAt s n) q).1) n q.who) q.who 6 (spResults p.form (spDo (tileAt s n) q).2) := by
  subst home
  unfold serveWaiter
  dsimp only
  rw [goes, spServe_performs clean log]
  dsimp only
  rw [waitOf_waits h]
  rfl

section
variable {q : SpReq} {p : Park} {h : Hdr} {sc : Scope} {od : Ord} {cons : Bool} {d a : SIx} {ofs : BitVec 32}

theorem spDo_ldSync {t : Tile} (op : q.op = .ldSync cons) : spDo t q = (if cons then padSet t q.off false else t, padWord t q.off) := by
  unfold spDo
  rw [op]
/-- A cycle of the service in which an operation of the tile's own unit is performed and leaves its list. -/
def ownDone (s : State) (q : SpReq) : State :=
  dropWaiter (setTile (spTaken s q.who.slot.node) q.who.slot.node (spDo (tileAt (spTaken s q.who.slot.node) q.who.slot.node) q).1) q.who.slot.node q.who
theorem tileAt_ownDone (one : (tileAt s q.who.slot.node).waiters = [⟨q, true⟩]) : tileAt (ownDone s q) q.who.slot.node =
    { (spDo (tileAt s q.who.slot.node) q).1 with spIn := [], servedAt := s.now + 1, waiters := [] } := by
  have kept : (spDo (tileAt s q.who.slot.node) q).1.waiters = [⟨q, true⟩] := (congrArg Tile.waiters (spDo_rest (tileAt s q.who.slot.node) q) :).trans one
  unfold ownDone dropWaiter
  rw [tileAt_modTile_self, tileAt_setTile_self, tileAt_spTaken, spDo_taken]
  dsimp only
  rw [kept]
  simp only [ne_eq, not_true_eq_false, decide_false, List.filter_cons, Bool.false_eq_true, if_false, List.filter_nil]
theorem slotAt_ownDone (r : SlotRef) : slotAt (ownDone s q) r = slotAt s r := by
  have slots : (spDo (tileAt (spTaken s q.who.slot.node) q.who.slot.node) q).1.slots = (tileAt (spTaken s q.who.slot.node) q.who.slot.node).slots :=
    (congrArg Tile.slots (spDo_rest ..) :)
  calc slotAt (ownDone s q) r
    _ = slotAt (modTile (spTaken s q.who.slot.node) q.who.slot.node fun t => (spDo t q).1) r := slotAt_modTile_keep _ _ _ _ rfl
    _ = slotAt (spTaken s q.who.slot.node) r := slotAt_modTile_keep _ _ _ _ slots
    _ = slotAt s r := slotAt_modTile_keep _ _ _ _ rfl

section
variable (waits : Waits s q.who p) (log : q.recSeq = none) (op : q.op = .ldSync cons) (form : p.form = .ldSync h sc od cons d a ofs)
  (one : (tileAt s q.who.slot.node).waiters = [⟨q, true⟩])
include waits

theorem Waits.ownDone : Waits (ownDone s q) q.who p := waits.of_slotAt (slotAt_ownDone _)
include log op form one
/-- The word is full: the service performs the operation, and its unit's form ends. -/
theorem serveWords_ldSync (home : q.home = q.who.slot.node) (clean : (tileAt s q.who.slot.node).errs = [])
    (full : padFull (tileAt s q.who.slot.node) q.off = true) : serveWords (spTaken s q.who.slot.node) q.who.slot.node =
      serveLocal (Machine.ownDone s q) q.who 6 [(.s d, sval (padWord (tileAt s q.who.slot.node) q.off))] := by
  have tile := tileAt_spTaken s q.who.slot.node
  have full' : padFull (tileAt (spTaken s q.who.slot.node) q.who.slot.node) q.off = true := by rw [tile]; exact full
  have goes : spWaits (tileAt (spTaken s q.who.slot.node) q.who.slot.node) q = false := by
    unfold spWaits
    rw [op]
    exact congrArg not full'
  have word : (spDo (tileAt (spTaken s q.who.slot.node) q.who.slot.node) q).2 = padWord (tileAt s q.who.slot.node) q.off := by
    rw [spDo_ldSync op, tile]
    rfl
  rw [serveWords_one (w := ⟨q, true⟩) (by rw [tile]; exact one), full', serveWord_ldSync op,
    serveWaiter_own home (by rw [tile]; exact clean) log goes waits.ownDone, word, form]
  rfl
/-- The end of the form: its unit issues two cycles later, and its result is on its way. -/
theorem service_ldSync (runs : isHeld s q.who.slot.node = false) (idle : PadIdle (tileAt s q.who.slot.node))
    (clean : (tileAt s q.who.slot.node).errs = []) (empty : (tileAt s q.who.slot.node).spIn = []) (home : q.home = q.who.slot.node)
    (full : padFull (tileAt s q.who.slot.node) q.off = true) : ∃ t, exec (.scratchpadCycleService q.who.slot.node none) s = .next t ∧
      PadLeft (tileAt t q.who.slot.node) (spDo (tileAt s q.who.slot.node) q).1.sp (spDo (tileAt s q.who.slot.node) q).1.spEmpty [] ∧
      (ctxAt t q.who.slot).pc = (ctxAt s q.who.slot).pc + 12 ∧ (ctxAt t q.who.slot).park = none ∧ (ctxAt t q.who.slot).readyFrom = s.now + 2 ∧
      (d ≠ 0 → presOf (ctxAt t q.who.slot) (.s d) = .pending ∧
        ∃ e ∈ t.agenda, e.ev = .resultLanding q.who.slot q.who.uid (.s d) (sval (padWord (tileAt s q.who.slot.node) q.off))) := by
  have tile := tileAt_ownDone one
  have ready := waits.ownDone
  obtain ⟨k, ends, ended⟩ := serveLocal_ends ready (.s d) (sval (padWord (tileAt s q.who.slot.node) q.off)) 6
  have only := (OnlySlot.land ready (.s d) (sval (padWord (tileAt s q.who.slot.node) q.off)) k).trans ends
  have still : PadIdle (tileAt (Machine.ownDone s q) q.who.slot.node) := by
    rw [tile]
    exact idle.congr (congrArg Tile.semAdds (spDo_rest ..) :) (congrArg Tile.slots (spDo_rest ..) :)
  obtain ⟨t, is, sent, agenda⟩ := service_idle runs (by unfold spRequests; rw [empty]; exact serveWords_ldSync waits log op form one home clean full)
    (still.of_onlySlot only rfl (by rw [ended]; rfl))
  have left := only.tile
  rw [tile] at left
  have pc : (ctxAt (Machine.ownDone s q) q.who.slot).pc = (ctxAt s q.who.slot).pc := congrArg (fun l => l.ctx.pc) (slotAt_ownDone q.who.slot)
  refine ⟨t, is, sent.padLeft ⟨(congrArg Tile.spIn left :), (congrArg Tile.sp left :), (congrArg Tile.spEmpty left :), (congrArg Tile.waiters left :)⟩, ?_⟩
  rw [sent.ctxAt, ended]
  refine ⟨?_, rfl, rfl, fun real => ?_⟩
  · show (ctxAt (land _ _ _ _ _ k) q.who.slot).pc + 12 = _
    rw [pc_land ready, pc]
  · obtain ⟨pends, e, due, lands⟩ := land_pends ready ((realReg_s d).2 real) (sval (padWord (tileAt s q.who.slot.node) q.off)) k
    exact ⟨pends, e, agenda e (ends.agenda e due), lands⟩
end
end
end
end Sys2Proof.Machine
end

section
/-! Replies of remote accesses that land (R215, R223), and the forms and the service together. -/

namespace Sys2Proof.Machine

/-! ### Replies (R215, R223) -/

section
variable {s : State} {q : SpReq} {p : Park} (waits : Waits s q.who p)
include waits

/-- The value of an LD.SYNC lands. -/
theorem remoteReplyLand_ldSync {h : Hdr} {sc : Scope} {od : Ord} {cons : Bool} {d a : SIx} {ofs : BitVec 32} {x : Word}
    (form : p.form = .ldSync h sc od cons d a ofs) (real : d ≠ 0) (log : q.recSeq = none) (noCas : ∀ e v, q.op ≠ .cas e v) (noLd : q.op ≠ .ld) :
    ∃ t, exec (.remoteReplyLand q (.done x)) s = .next t ∧ Finishes s q.who (ctxAt s q.who.slot) (fun c => putReg c (.s d) (sval x)) t := by
  have result (c : Ctx) : remoteResults c q p.form x p.va = [(.s d, sval x)] := by
    unfold remoteResults
    rw [form]
    cases op : q.op with
    | ld => exact absurd op noLd
    | cas e v => exact absurd op (noCas e v)
    | st | ldSync | stFill | stReset | atom => rfl
  have written : (fun c => (remoteResults c q p.form x p.va).foldl (fun c y => if realReg y.1 then putReg c y.1 y.2 else c) c) =
      fun c => putReg c (.s d) (sval x) := funext fun c => by
    rw [result, List.foldl_cons, List.foldl_nil, if_pos ((realReg_s d).2 real)]
  refine ⟨_, rfl, ?_⟩
  unfold evRemoteReplyLand
  rw [waitOf_waits waits]
  dsimp only
  split
  next commits _ => rw [form] at commits; cases commits
  · rw [log, if_neg (by decide), written]
    exact finish_spec waits _
/-- A refusal is the fault it names. -/
theorem remoteReplyLand_refused (other : ∀ h cc, p.form ≠ .rgnCommit h cc) (f : Nat) : exec (.remoteReplyLand q (.refused f)) s =
    .next (takeFault s q.who.slot q.who.uid f p.va (if f = 0x1A then 2 else 0)) := by
  have alone : drains (ctxAt s q.who.slot) p = false := by
    unfold drains
    split
    next commits _ => exact absurd commits (other _ _)
    · rfl
  refine congrArg Host.Outcome.next ?_
  unfold evRemoteReplyLand
  rw [waitOf_waits waits]
  dsimp only
  rw [alone, if_neg Bool.false_ne_true]
  exact faultWait_waits waits ..
/-- A busy reply: the request is sent again 64 cycles later. -/
theorem remoteReplyLand_busy (keeps : p.kind ≠ .withdraw) : ∃ t, exec (.remoteReplyLand q .busy) s = .next t ∧ OnlySlot q.who.slot s t ∧
    ctxAt t q.who.slot = { ctxAt s q.who.slot with park := some { p with aux := [1] } } ∧
    ∃ e ∈ t.agenda, e.at_ = dueIn s q.who.slot.node 64 ∧ e.ev = .remoteBusyResend q := by
  obtain ⟨only, ctx⟩ := OnlySlot.modUnit_waits waits fun _ => { ctxAt s q.who.slot with park := some { p with aux := [1] } }
  refine ⟨_, rfl, ?_⟩
  unfold evRemoteReplyLand
  rw [waitOf_waits waits]
  dsimp only
  rw [if_neg keeps, dueIn_congr (s := s) _ _ rfl rfl]
  exact ⟨only.trans (.push ..), ctx, mem_push_new ..⟩
/-- The request is sent again. -/
theorem remoteBusyResend_sends : ∃ t, exec (.remoteBusyResend q) s = .next t ∧ t.mem = s.mem ∧
    ctxAt t q.who.slot = { ctxAt s q.who.slot with park := some { p with aux := [] } } := by
  have ctx := (OnlySlot.modUnit_waits waits fun _ => { ctxAt s q.who.slot with park := some { p with aux := [] } }).2
  refine ⟨_, rfl, ?_⟩
  unfold evRemoteBusyResend
  rw [waitOf_waits waits]
  exact ⟨(OnlySent.sendMsg ..).mem, ((OnlySent.sendMsg ..).ctxAt _).trans ctx⟩
theorem remoteWithdrawalAnswer_removed : exec (.remoteWithdrawalAnswer q.who true) s =
    .next (takeFault s q.who.slot q.who.uid 0x05 p.va (limitAux p)) := by
  refine congrArg Host.Outcome.next ?_
  unfold evRemoteWithdrawalAnswer
  rw [waitOf_waits waits]
  dsimp only
  rw [waits.due]
  exact faultWait_waits waits ..
theorem remoteWithdrawalAnswer_missed : exec (.remoteWithdrawalAnswer q.who false) s = .next s := by
  refine congrArg Host.Outcome.next ?_
  unfold evRemoteWithdrawalAnswer
  rw [waitOf_waits waits]
  rfl
end

/-- Settles O42: the forms by what their word allows, then the service request by request, then the replies. -/
theorem synchronisingFormsAndService : Obligations.SynchronisingFormsAndService := by
  refine ⟨fun s h sc od cons ovr d a b v ofs log => ?_, scratchpadCycleService_lands, fun s n => ?_, fun s q p waits => ?_⟩
  · intro c ea n
    exact ⟨fun hr => ⟨runForm_padRefuses hr rfl, fun off at_ => ⟨exec_ldSync_full hr at_ log, exec_ldSync_empty hr at_⟩, exec_ldSync_away hr⟩,
      fun hr => ⟨runForm_padRefuses hr rfl, fun off at_ => exec_stFill_held hr at_,
        fun off at_ free => ⟨exec_stFill_fills hr free at_ log, exec_stFill_full hr free at_⟩, fun away free => exec_stFill_away hr free away⟩,
      fun hr => ⟨runForm_padRefuses hr rfl, fun off at_ => exec_ldvSync_waits hr at_⟩⟩
  · intro T adds semaphores vectors clean runs
    have idle : PadIdle T := padIdle_iff.2 ⟨adds, semaphores, vectors⟩
    refine ⟨fun q empty one home log fits => ?_, fun q p h sc od cons d a ofs one empty home own log op waits form full => ?_⟩
    · by_cases tenant : T.tenant = some q.job
      · cases goes : spWaits T q with
        | true =>
          obtain ⟨t, is, left⟩ := service_keeps runs one idle empty tenant fits goes
          exact ⟨t, is, left.spIn, fun other => absurd tenant other, fun _ _ => ⟨left.sp, left.spEmpty, left.waiters⟩, nofun⟩
        | false =>
          obtain ⟨t, is, left⟩ := service_performs runs one idle empty tenant fits home clean log goes
          exact ⟨t, is, left.spIn, fun other => absurd tenant other, nofun, fun _ _ => ⟨left.sp, left.spEmpty, left.waiters⟩⟩
      · obtain ⟨t, is, left⟩ := service_refuses runs one idle empty tenant
        exact ⟨t, is, left.spIn, fun _ => ⟨left.sp, left.spEmpty, left.waiters⟩, fun same => absurd same tenant, fun same => absurd same tenant⟩
    · subst own
      obtain ⟨t, is, left, rest⟩ := service_ldSync waits log op form one runs idle clean empty home full
      rw [spDo_ldSync op] at left
      refine ⟨t, is, left.waiters, left.sp.trans ?_, fun consumes => ?_, rest⟩
      · cases cons <;> rfl
      · rw [left.spEmpty, consumes]
        exact (mem_insAsc ..).2 (.inr rfl)
  · exact ⟨fun h sc od cons d a ofs x form real log noCas noLd => remoteReplyLand_ldSync waits form real log noCas noLd, remoteReplyLand_refused waits,
      remoteReplyLand_busy waits, remoteBusyResend_sends waits, remoteWithdrawalAnswer_removed waits, remoteWithdrawalAnswer_missed waits⟩

end Sys2Proof.Machine
end

section
/-! Every step keeps the canonical form of memory and of the device registers (log 3). Most of what the model defines leaves both lists of bytes
as they are, and the handles of the jobs: a simp lemma `coreOf_f` for each function f says so. The few that
write do it byte by byte, and keep the form (`canon_f`). An act whose states keep it is `Sound`, and so is each form and each event. -/

namespace Sys2Proof.Machine

/-! ### What leaves memory, the device registers and the jobs' handles alone, in the order of the model's definitions -/

/-- Memory and the device registers of a state, and the jobs it knows by their handles. -/
def coreOf (s : State) : List Host.Cell × List Host.Cell × List Word := (s.mem, s.bar0, s.jobs.map (·.handle))
@[simp] theorem coreOf_mk (s : State) (now no free : Nat) (shape : Nat × Nat × Nat) (cur : SlotRef) (issueQ : List Nat) (agenda : List Due)
    (old : List (Nat × Nat × Nat)) (tiles : List (Nat × Tile)) (pkgs : List (Nat × Pkg)) (ctrls : List (Nat × Ctrl))
    (routers : List (Nat × Router)) (lanes : List (List Nat × Lane)) (outbox : List (Nat × Parcel)) (spaces : List Space)
    (txSeq : List (List Nat × Nat)) (outs : List Out) (served : List (Nat × Nat)) :
    coreOf ⟨now, shape, cur, issueQ, agenda, no, free, s.mem, s.bar0, old, tiles, pkgs, ctrls, routers, lanes, outbox, spaces, txSeq, s.jobs,
      outs, served⟩ = coreOf s := rfl
@[simp] theorem coreOf_ite (p : Prop) [Decidable p] (s t : State) : coreOf (if p then s else t) = if p then coreOf s else coreOf t :=
  apply_ite coreOf p s t
@[simp] theorem coreOf_foldl {α : Type} (f : State → α → State) (l : List α) (s : State) (h : ∀ s a, coreOf (f s a) = coreOf s) :
    coreOf (l.foldl f s) = coreOf s := by
  induction l generalizing s with
  | nil => rfl
  | cons a l ih => rw [List.foldl_cons, ih, h]
theorem coreOf_foldl_fst {α β : Type} (f : State × β → α → State × β) (l : List α) (x : State × β)
    (h : ∀ x a, coreOf (f x a).1 = coreOf x.1) : coreOf (l.foldl f x).1 = coreOf x.1 := by
  induction l generalizing x with
  | nil => rfl
  | cons a l ih => rw [List.foldl_cons, ih, h]

/-! #### Store -/
@[simp] theorem coreOf_setTile (s : State) (n : Node) (t : Tile) : coreOf (setTile s n t) = coreOf s := by simp [setTile]
@[simp] theorem coreOf_modTile (s : State) (n : Node) (f : Tile → Tile) : coreOf (modTile s n f) = coreOf s := by simp [modTile]
@[simp] theorem coreOf_modPkg (s : State) (p : Nat) (f : Pkg → Pkg) : coreOf (modPkg s p f) = coreOf s := by simp [modPkg]
@[simp] theorem coreOf_modCtrl (s : State) (n : Node) (f : Ctrl → Ctrl) : coreOf (modCtrl s n f) = coreOf s := by simp [modCtrl]
@[simp] theorem coreOf_modRouter (s : State) (n : Node) (f : Router → Router) : coreOf (modRouter s n f) = coreOf s := by simp [modRouter]
@[simp] theorem coreOf_modSlot (s : State) (r : SlotRef) (f : Slot → Slot) : coreOf (modSlot s r f) = coreOf s := by simp [modSlot]
@[simp] theorem coreOf_modCtx (s : State) (r : SlotRef) (f : Ctx → Ctx) : coreOf (modCtx s r f) = coreOf s := by simp [modCtx]
@[simp] theorem coreOf_modUnit (s : State) (r : SlotRef) (uid : Nat) (f : Ctx → Ctx) : coreOf (modUnit s r uid f) = coreOf s := by
  simp [modUnit]
@[simp] theorem coreOf_modEp (s : State) (e : EpRef) (f : Endpoint → Endpoint) : coreOf (modEp s e f) = coreOf s := by simp [modEp]
/-- A change of a job that keeps its handle. -/
@[simp] theorem coreOf_modJob (s : State) (h : Word) (f : Job → Job) (keeps : ∀ j, (f j).handle = j.handle) :
    coreOf (modJob s h f) = coreOf s := by
  have handles : (modJob s h f).jobs.map (·.handle) = s.jobs.map (·.handle) := by
    simp only [modJob, List.map_map]
    exact List.map_congr_left fun j _ => by dsimp only [Function.comp]; split <;> simp [keeps]
  unfold coreOf
  rw [handles]
  rfl
@[simp] theorem coreOf_stepFree (s : State) : coreOf (stepFree s) = coreOf s := by simp [stepFree]
@[simp] theorem coreOf_push (s : State) (at_ ph key : Nat) (ev : Ev) : coreOf (push s at_ ph key ev) = coreOf s := by
  simp [push]
@[simp] theorem coreOf_pushOnce (s : State) (at_ ph key : Nat) (ev : Ev) : coreOf (pushOnce s at_ ph key ev) = coreOf s := by
  simp [pushOnce]
@[simp] theorem coreOf_serveSlot (s : State) (peer : Nat) : coreOf (serveSlot s peer).2 = coreOf s := by simp [serveSlot]
@[simp] theorem coreOf_addOut (s : State) (o : Out) : coreOf (addOut s o) = coreOf s := by simp [addOut]
@[simp] theorem coreOf_dropOut (s : State) (id : Nat) : coreOf (dropOut s id) = coreOf s := by simp [dropOut]

/-! #### Errors -/
@[simp] theorem coreOf_logAt (s : State) (n : Node) (e : ErrSite) (w : Consumer) : coreOf (logAt s n e w) = coreOf s := by simp [logAt]
@[simp] theorem coreOf_consume (s : State) (n : Node) (arr lo hi : Nat) (w : Consumer) :
    coreOf (consume s n arr lo hi w).1 = coreOf s := by
  unfold consume
  dsimp only
  split <;> simp
@[simp] theorem coreOf_replaceUnits (s : State) (n : Node) (arr lo hi : Nat) :
    coreOf (replaceUnits s n arr lo hi) = coreOf s := by simp [replaceUnits]

/-! #### Fabric -/
@[simp] theorem coreOf_modLaunch (s : State) (h : Word) (f : Launch → Launch) : coreOf (modLaunch s h f) = coreOf s := by simp [modLaunch]
@[simp] theorem coreOf_setVoid (s : State) (h : Word) (bit : Nat) : coreOf (setVoid s h bit) = coreOf s := by simp [setVoid]
@[simp] theorem coreOf_setSlots (s : State) (k : List Nat) (l : Lane) : coreOf (setSlots s k l) = coreOf s := by simp [setSlots]
@[simp] theorem coreOf_book (s : State) (k : List Nat) (cap t : Nat) (half : Option Bool) :
    coreOf (book s k cap t half).1 = coreOf s := by simp [book]
@[simp] theorem coreOf_putBox (s : State) (t : Nat) (p : Parcel) : coreOf (putBox s t p) = coreOf s := by simp [putBox]
@[simp] theorem coreOf_takeFlit (s : State) (t : Nat) (f : Flit) : coreOf (takeFlit s t f) = coreOf s := by
  unfold takeFlit
  dsimp only
  split
  · split <;> simp
  · refine (coreOf_foldl _ _ _ fun s g => ?_).trans rfl
    split <;> simp
@[simp] theorem coreOf_ejectFlit (s : State) (t : Nat) (f : Flit) : coreOf (ejectFlit s t f) = coreOf s := by simp [ejectFlit]
@[simp] theorem coreOf_ejectDie (s : State) (t : Nat) (f : Flit) : coreOf (ejectDie s t f) = coreOf s := by simp [ejectDie]
@[simp] theorem coreOf_arriveAt (s : State) (n : Node) (t : Nat) (half : Bool) (f : Flit) : coreOf (arriveAt s n t half f) = coreOf s := by
  simp [arriveAt]
@[simp] theorem coreOf_portSend (s : State) (pkg port t : Nat) (f : Flit) : coreOf (portSend s pkg port t f) = coreOf s := by
  unfold portSend
  split <;> simp
@[simp] theorem coreOf_dieArrive (s : State) (pkg die t : Nat) (fromPort : Bool) (f : Flit) :
    coreOf (dieArrive s pkg die t fromPort f) = coreOf s := by simp [dieArrive]
@[simp] theorem coreOf_crossed (s : State) (pkg port : Nat) (f : Flit) : coreOf (crossed s pkg port f) = coreOf s := by simp [crossed]
@[simp] theorem coreOf_askSlots (s : State) (n : Node) (t : Nat) : coreOf (askSlots s n t) = coreOf s := by simp [askSlots]
@[simp] theorem coreOf_leaveDie (s : State) (from_ : Node) (f : Flit) : coreOf (leaveDie s from_ f) = coreOf s := by
  unfold leaveDie
  split <;> simp
@[simp] theorem coreOf_sendParts (s : State) (src : SlotRef) (from_ dst : Node) (parts : List (Nat × Option Ev)) (space : List Nat)
    (pin : Option Word) (isReply : Bool) (whole : Ev) :
    coreOf (sendParts s src from_ dst parts space pin isReply whole) = coreOf s := by simp [sendParts]
@[simp] theorem coreOf_sendMsg (s : State) (src : SlotRef) (from_ dst : Node) (typ n : Nat) (space : List Nat) (pin : Option Word)
    (isReply : Bool) (ev : Ev) :
    coreOf (sendMsg s src from_ dst typ n space pin isReply ev) = coreOf s := by simp [sendMsg]
@[simp] theorem coreOf_Msg_sent (m : Msg) (s : State) : coreOf (Msg.sent m s) = coreOf s := by simp [Msg.sent]
@[simp] theorem coreOf_sendAt (s : State) (t : Nat) (m : Msg) : coreOf (sendAt s t m) = coreOf s := by simp [sendAt]
@[simp] theorem coreOf_sendDue (s : State) : coreOf (sendDue s) = coreOf s := by
  refine (coreOf_foldl _ _ _ fun s x => ?_).trans rfl
  split <;> simp
@[simp] theorem coreOf_mapFlits (s : State) (g : Flit → Flit) : coreOf (mapFlits s g) = coreOf s := by simp [mapFlits]
@[simp] theorem coreOf_cancelEvents (s : State) (is : Ev → Bool) : coreOf (cancelEvents s is) = coreOf s := by simp [cancelEvents]
@[simp] theorem coreOf_flitOut (s : State) (n : Node) (half : Bool) (o : Nat) (f : Flit) : coreOf (flitOut s n half o f) = coreOf s := by
  unfold flitOut
  dsimp only
  split <;> simp
@[simp] theorem coreOf_countDefl (s : State) (n : Node) (o : Nat) (f : Flit) : coreOf (countDefl s n o f) = coreOf s := by simp [countDefl]
@[simp] theorem coreOf_countFlit (s : State) (n : Node) (eject inject pinned : Nat) :
    coreOf (countFlit s n eject inject pinned) = coreOf s := by simp [countFlit]
@[simp] theorem coreOf_routeAll (n : Node) (half : Bool) (l : List (Bool × Flit)) (used : List Nat) (s : State) :
    coreOf (routeAll n half l used s).2 = coreOf s := by
  induction l generalizing used s with
  | nil => rfl
  | cons x l ih =>
    unfold routeAll
    dsimp only
    (repeat' split) <;> simp [ih]
@[simp] theorem coreOf_routeSlot (s : State) (n : Node) (half : Bool) : coreOf (routeSlot s n half) = coreOf s := by simp [routeSlot]
@[simp] theorem coreOf_evFlitSlotRouting (n : Node) (half : Bool) (s : State) : coreOf (evFlitSlotRouting n half s) = coreOf s := by
  simp [evFlitSlotRouting]
@[simp] theorem coreOf_evInjectionStarvationHold (n : Node) (s : State) : coreOf (evInjectionStarvationHold n s) = coreOf s := by
  simp [evInjectionStarvationHold]
@[simp] theorem coreOf_evLinkRetry (pkg port cycles : Nat) (s : State) : coreOf (evLinkRetry pkg port cycles s) = coreOf s := by
  unfold evLinkRetry
  dsimp only
  refine (coreOf_foldl _ _ _ fun s x => ?_).trans (by simp)
  (repeat' split) <;> simp
@[simp] theorem coreOf_evLinkPortDown (pkg port : Nat) (s : State) : coreOf (evLinkPortDown pkg port s) = coreOf s := by
  simp [evLinkPortDown]
@[simp] theorem coreOf_evLinkPortUp (pkg port : Nat) (s : State) : coreOf (evLinkPortUp pkg port s) = coreOf s := by
  simp [evLinkPortUp]

/-! #### Channels -/
@[simp] theorem coreOf_setWake (s : State) (r : SlotRef) (uid : Nat) : coreOf (setWake s r uid) = coreOf s := by simp [setWake]
@[simp] theorem coreOf_wakeOwner (s : State) (e : EpRef) : coreOf (wakeOwner s e) = coreOf s := by
  unfold wakeOwner
  split <;> simp
@[simp] theorem coreOf_releaseBuf (s : State) (e : EpRef) : coreOf (releaseBuf s e) = coreOf s := by
  unfold releaseBuf
  split <;> simp
@[simp] theorem coreOf_sweepImages (s : State) (n : Node) : coreOf (sweepImages s n) = coreOf s := by simp [sweepImages]
@[simp] theorem coreOf_noteSend (s : State) (e : EpRef) (f : ChFlit) : coreOf (noteSend s e f) = coreOf s := by
  unfold noteSend
  split <;> simp
@[simp] theorem coreOf_askEngine (s : State) (n : Node) (mx : Bool) : coreOf (askEngine s n mx) = coreOf s := by simp [askEngine]
@[simp] theorem coreOf_wakeEngines (s : State) (n : Node) : coreOf (wakeEngines s n) = coreOf s := by simp [wakeEngines]
@[simp] theorem coreOf_sendLanded (s : State) (f : ChFlit) : coreOf (sendLanded s f) = coreOf s := by
  unfold sendLanded
  dsimp only
  split <;> simp
@[simp] theorem coreOf_sendFlit (s : State) (e dst : EpRef) (gen seq : Nat) (body : ChBody) :
    coreOf (sendFlit s e dst gen seq body) = coreOf s := by simp [sendFlit]
@[simp] theorem coreOf_sendSeq (s : State) (e : EpRef) (body : ChBody) : coreOf (sendSeq s e body) = coreOf s := by simp [sendSeq]
@[simp] theorem coreOf_sendPeer (s : State) (e : EpRef) (body : ChBody) : coreOf (sendPeer s e body) = coreOf s := by simp [sendPeer]
@[simp] theorem coreOf_sendCredit (s : State) (e : EpRef) : coreOf (sendCredit s e) = coreOf s := by simp [sendCredit]
@[simp] theorem coreOf_sendData (s : State) (e : EpRef) (mt : Nat) (bytes : List Byte) (fin : Bool) :
    coreOf (sendData s e mt bytes fin) = coreOf s := by simp [sendData]
@[simp] theorem coreOf_setTerm (s : State) (r : SlotRef) (key : EpRef) (u : ℤ) : coreOf (setTerm s r key u) = coreOf s := by simp [setTerm]
@[simp] theorem coreOf_sendTerm (s : State) (c : EpRef) (p : SlotRef) (u : Option ℤ) (pin : Option Word) :
    coreOf (sendTerm s c p u pin) = coreOf s := by simp [sendTerm]
@[simp] theorem coreOf_modCoupler (s : State) (n : Node) (i : Nat) (f : Coupler → Coupler) : coreOf (modCoupler s n i f) = coreOf s := by
  simp [modCoupler]
@[simp] theorem coreOf_detach (s : State) (n : Node) (i : Nat) : coreOf (detach s n i) = coreOf s := by
  unfold detach
  dsimp only
  (repeat' split) <;> simp
@[simp] theorem coreOf_detachOf (s : State) (e : EpRef) : coreOf (detachOf s e) = coreOf s := by
  unfold detachOf
  split <;> simp
@[simp] theorem coreOf_freeCoupler (s : State) (n : Node) (i : Nat) : coreOf (freeCoupler s n i) = coreOf s := by
  unfold freeCoupler
  dsimp only
  split <;> simp
@[simp] theorem coreOf_dropMsgs (s : State) (e : EpRef) : coreOf (dropMsgs s e) = coreOf s := by simp [dropMsgs]
@[simp] theorem coreOf_dropPacket (s : State) (e : EpRef) : coreOf (dropPacket s e) = coreOf s := by
  unfold dropPacket
  dsimp only
  split <;> simp
@[simp] theorem coreOf_abortEp (s : State) (e : EpRef) (cause : Nat) : coreOf (abortEp s e cause) = coreOf s := by simp [abortEp]
@[simp] theorem coreOf_freeEp (s : State) (e : EpRef) : coreOf (freeEp s e) = coreOf s := by simp [freeEp]
@[simp] theorem coreOf_refuseOpen (s : State) (at_ : Node) (q : OpenReq) (reason : Nat) : coreOf (refuseOpen s at_ q reason) = coreOf s := by
  simp [refuseOpen]
@[simp] theorem coreOf_putEp (s : State) (e : EpRef) (cause : Nat) : coreOf (putEp s e cause) = coreOf s := by
  unfold putEp
  dsimp only
  split <;> simp
@[simp] theorem coreOf_peerClose (s : State) (e : EpRef) (pstate cause : Nat) : coreOf (peerClose s e pstate cause) = coreOf s := by
  simp [peerClose]
@[simp] theorem coreOf_askDeposit (s : State) (e : EpRef) (c : Nat) : coreOf (askDeposit s e c) = coreOf s := by simp [askDeposit]
@[simp] theorem coreOf_gotMsg (s : State) (e : EpRef) (m : ChMsg) : coreOf (gotMsg s e m) = coreOf s := by simp [gotMsg]
@[simp] theorem coreOf_takeBody (s : State) (e : EpRef) (b : ChBody) : coreOf (takeBody s e b) = coreOf s := by
  unfold takeBody
  (repeat' split) <;> simp
@[simp] theorem coreOf_applyFlits (n : Nat) (s : State) (e : EpRef) : coreOf (applyFlits n s e) = coreOf s := by
  induction n generalizing s with
  | zero => rfl
  | succ n ih =>
    unfold applyFlits
    dsimp only
    (repeat' split) <;> simp [ih]
@[simp] theorem coreOf_takeCredit (s : State) (e : EpRef) : coreOf (takeCredit s e) = coreOf s := by simp [takeCredit]
@[simp] theorem coreOf_staleFlit (s : State) (n : Node) : coreOf (staleFlit s n) = coreOf s := by simp [staleFlit]
@[simp] theorem coreOf_landFlit (s : State) (f : ChFlit) : coreOf (landFlit s f) = coreOf s := by
  unfold landFlit
  dsimp only
  (repeat' split) <;> simp
@[simp] theorem coreOf_unparkRegs (s : State) (r : SlotRef) (uid : Nat) : coreOf (unparkRegs s r uid) = coreOf s := by simp [unparkRegs]
@[simp] theorem coreOf_deposit (s : State) (e : EpRef) : coreOf (deposit s e) = coreOf s := by
  unfold deposit
  dsimp only
  (repeat' split) <;> simp
@[simp] theorem coreOf_finishHead (s : State) (e : EpRef) (next : Nat) : coreOf (finishHead s e next) = coreOf s := by simp [finishHead]
@[simp] theorem coreOf_consumeReg (s : State) (r : SlotRef) (uid : Nat) (g : Reg) : coreOf (consumeReg s r uid g) = coreOf s := by
  unfold consumeReg
  dsimp only
  (repeat' split) <;> simp

/-! #### Units -/
@[simp] theorem coreOf_noteSent (s : State) (m : SupMsg) : coreOf (noteSent s m) = coreOf s := by simp [noteSent]
@[simp] theorem coreOf_sendSup (s : State) (r : SlotRef) (c : Ctx) (cls code : Nat) (w0 w1 : Word) :
    coreOf (sendSup s r c cls code w0 w1) = coreOf s := by simp [sendSup]
@[simp] theorem coreOf_reportStore (s : State) (o : Out) (code : Nat) : coreOf (reportStore s o code) = coreOf s := by simp [reportStore]
@[simp] theorem coreOf_modCmd (s : State) (n : Node) (mx : Bool) (id : Nat) (f : EngCmd → EngCmd) : coreOf (modCmd s n mx id f) = coreOf s := by
  simp [modCmd]
@[simp] theorem coreOf_refuseToken (s : State) (tok : Nat) : coreOf (refuseToken s tok) = coreOf s := by
  unfold refuseToken
  (repeat' split) <;> simp
@[simp] theorem coreOf_discardMsg (s : State) (n : Node) (m : SupMsg) : coreOf (discardMsg s n m) = coreOf s := by
  unfold discardMsg
  split <;> simp
@[simp] theorem coreOf_askJob (s : State) (h : Word) : coreOf (askJob s h) = coreOf s := by simp [askJob]
@[simp] theorem coreOf_firmwareMsg (s : State) (m : SupMsg) : coreOf (firmwareMsg s m) = coreOf s := by
  unfold firmwareMsg
  split <;> simp
@[simp] theorem coreOf_landMsg (s : State) (m : SupMsg) : coreOf (landMsg s m) = coreOf s := by simp [landMsg]
@[simp] theorem coreOf_sendReturn (s : State) (r : SlotRef) (c : Ctx) (o : SpawnOrigin) (d : SIx) (v : Word) :
    coreOf (sendReturn s r c o d v) = coreOf s := by simp [sendReturn]
@[simp] theorem coreOf_askLaunch (s : State) (h : Word) : coreOf (askLaunch s h) = coreOf s := by simp [askLaunch]
@[simp] theorem coreOf_performed (s : State) (id : Nat) : coreOf (performed s id) = coreOf s := by
  unfold performed
  split <;> simp
@[simp] theorem coreOf_askWork (s : State) (n : Node) : coreOf (askWork s n) = coreOf s := by simp [askWork]
@[simp] theorem coreOf_releaseXa (s : State) (r : SlotRef) (uid : Nat) (job : Word) : coreOf (releaseXa s r uid job) = coreOf s := by
  simp [releaseXa]
@[simp] theorem coreOf_releaseCouplers (s : State) (r : SlotRef) (uid : Nat) : coreOf (releaseCouplers s r uid) = coreOf s := by
  simp [releaseCouplers]
@[simp] theorem coreOf_sendWithdrawal (s : State) (w : Who) (c : Ctx) (p : Park) : coreOf (sendWithdrawal s w c p) = coreOf s := by
  simp [sendWithdrawal]
@[simp] theorem coreOf_dropUnitWaits (s : State) (sel : Waiter → Bool) (r : SlotRef) (uid : Nat) :
    coreOf (dropUnitWaits s sel r uid) = coreOf s := by simp [dropUnitWaits]
@[simp] theorem coreOf_withdrawWaits (s : State) (r : SlotRef) (c : Ctx) : coreOf (withdrawWaits s r c) = coreOf s := by
  unfold withdrawWaits
  split <;> simp
@[simp] theorem coreOf_releaseBlk (s : State) (r : SlotRef) (c : Ctx) (cancelled : Bool) : coreOf (releaseBlk s r c cancelled) = coreOf s := by
  unfold releaseBlk
  split
  · rfl
  · split <;> simp
@[simp] theorem coreOf_endSupervisor (s : State) (r : SlotRef) (c : Ctx) : coreOf (endSupervisor s r c) = coreOf s := by simp [endSupervisor]
@[simp] theorem coreOf_unbind (s : State) (r : SlotRef) (uid : Nat) : coreOf (unbind s r uid) = coreOf s := by simp [unbind]
@[simp] theorem coreOf_endUnit (s : State) (r : SlotRef) (uid cause : Nat) (nested cancelled : Bool) :
    coreOf (endUnit s r uid cause nested cancelled) = coreOf s := by
  unfold endUnit
  (repeat' split) <;> simp

/-! #### Ops -/
@[simp] theorem coreOf_voidOf (s : State) (c : Ctx) (code : Nat) : coreOf (voidOf s c code) = coreOf s := by simp [voidOf]
@[simp] theorem coreOf_takeFault (s : State) (r : SlotRef) (uid code : Nat) (va aux : Word) :
    coreOf (takeFault s r uid code va aux) = coreOf s := by
  unfold takeFault
  (repeat' split) <;> simp
@[simp] theorem coreOf_parkSlot (s : State) (r : SlotRef) (i : Instr) (id : Nat) (k : ParkKind) (limKind limIx : Nat) (va : Word)
    (aux : List Word) :
    coreOf (parkSlot s r i id k limKind limIx va aux) = coreOf s := by
  unfold parkSlot
  dsimp only
  split <;> simp
@[simp] theorem coreOf_complete (s : State) (r : SlotRef) (hq : Nat) (t : Option Word) : coreOf (complete s r hq t) = coreOf s := by
  simp [complete]
@[simp] theorem coreOf_takeDue (s : State) (r : SlotRef) (uid : Nat) (p : Park) : coreOf (takeDue s r uid p) = coreOf s := by
  unfold takeDue
  (repeat' split) <;> simp
@[simp] theorem coreOf_finish (s : State) (w : Who) (f : Ctx → Ctx) : coreOf (finish s w f) = coreOf s := by
  unfold finish
  split <;> simp
@[simp] theorem coreOf_faultWait (s : State) (w : Who) (code : Nat) (va aux : Word) : coreOf (faultWait s w code va aux) = coreOf s := by
  unfold faultWait
  split <;> simp
@[simp] theorem coreOf_asks (s : State) (r : SlotRef) (uid : Nat) (n : Node) : coreOf (asks s r uid n) = coreOf s := by simp [asks]
@[simp] theorem coreOf_newWait (s : State) (r : SlotRef) (c : Ctx) : coreOf (newWait s r c).2 = coreOf s := by simp [newWait]
@[simp] theorem coreOf_land (s : State) (r : SlotRef) (uid : Nat) (g : Reg) (x4 : VVal) (l : Nat) : coreOf (land s r uid g x4 l) = coreOf s := by
  simp [land]
@[simp] theorem coreOf_landed (s : State) (r : SlotRef) (uid : Nat) (g : Reg) (x4 : VVal) : coreOf (landed s r uid g x4) = coreOf s := by
  simp [landed]
@[simp] theorem coreOf_parkRegs (s : State) (r : SlotRef) (c : Ctx) (h : Hdr) (gs : List Reg) : coreOf (parkRegs s r c h gs) = coreOf s := by
  simp [parkRegs]
@[simp] theorem coreOf_consumeAll (s : State) (r : SlotRef) (uid : Nat) (gs : List Reg) : coreOf (consumeAll s r uid gs) = coreOf s := by
  simp [consumeAll]
@[simp] theorem coreOf_useSrcs (s : State) (s' : State) (r : SlotRef) (uid : Nat) (f : Form) : coreOf (useSrcs s s' r uid f) = coreOf s' := by
  simp [useSrcs]
@[simp] theorem coreOf_keepLimit (s : State) (r : SlotRef) (uid : Nat) (old : Park) (id : Nat) :
    coreOf (keepLimit s r uid old id) = coreOf s := by simp [keepLimit]
@[simp] theorem coreOf_parkIssued (s : State) (r : SlotRef) (uid : Nat) (i : Instr) (old : Option Park) (id : Nat) (k : ParkKind) (lk lx : Nat)
    (va : Word) (aux : List Word) :
    coreOf (parkIssued s r uid i old id k lk lx va aux) = coreOf s := by
  unfold parkIssued
  split <;> simp
@[simp] theorem coreOf_readRegs (s : State) (r : SlotRef) (c : Ctx) (gs : List Reg) : coreOf (readRegs s r c gs).1 = coreOf s := by
  unfold readRegs
  split
  · rfl
  · exact coreOf_foldl_fst _ _ _ fun x g => coreOf_consume ..
@[simp] theorem coreOf_freshRegs (s : State) (r : SlotRef) (gs : List Reg) : coreOf (freshRegs s r gs) = coreOf s := by simp [freshRegs]

/-! #### Control -/
@[simp] theorem coreOf_evSleeprExpiry (w : Who) (s : State) : coreOf (evSleeprExpiry w s) = coreOf s := by
  unfold evSleeprExpiry
  split <;> simp

/-! #### Memory -/
@[simp] theorem coreOf_fillTlb (s : State) (n : Node) (e : TlbEntry) : coreOf (fillTlb s n e) = coreOf s := by simp [fillTlb]
theorem coreOf_walkFill {s t : State} {n : Node} {job : Word} {det : Bool} {kind va pa : Nat} (h : walkFill s n job det kind va = .ok pa t) :
    coreOf t = coreOf s := by
  unfold walkFill useLeaf at h
  split at h
  · split at h
    · cases h; simp
    · cases h
  all_goals cases h
theorem coreOf_xlate {s t : State} {n : Node} {job : Word} {det : Bool} {kind va pa : Nat} (h : xlate s n job det kind va = .ok pa t) :
    coreOf t = coreOf s := by
  have sent := xlate_sent h
  unfold coreOf
  rw [sent.mem, sent.bar0, sent.jobs]
@[simp] theorem coreOf_walkErrs (s : State) (pkg : Nat) (job : Word) (va : Nat) (w : Consumer) :
    coreOf (walkErrs s pkg job va w).1 = coreOf s := by
  unfold walkErrs
  split
  · rfl
  · refine coreOf_foldl_fst _ _ _ fun x a => ?_
    dsimp only
    split <;> simp
@[simp] theorem coreOf_xlErrs (s : State) (n : Node) (job : Word) (det walks : Bool) (va : Nat) (w : Consumer) :
    coreOf (xlErrs s n job det walks va w).1 = coreOf s := by
  unfold xlErrs
  (repeat' split) <;> simp
@[simp] theorem coreOf_tellMiss (s : State) (r : SlotRef) (c : Ctx) (va tok kind lvl : Nat) (eng : Bool) :
    coreOf (tellMiss s r c va tok kind lvl eng) = coreOf s := by simp [tellMiss]
@[simp] theorem coreOf_rollback (s : State) (r : SlotRef) (uid code detail : Nat) :
    coreOf (rollback s r uid code detail) = coreOf s := by simp [rollback]
@[simp] theorem coreOf_walkLate (s : State) (launch : Word) : coreOf (walkLate s launch).1 = coreOf s := by simp [walkLate]
@[simp] theorem coreOf_goOn (s : State) (w : Who) : coreOf (goOn s w) = coreOf s := by simp [goOn]
@[simp] theorem coreOf_walkNow (s : State) (w : Who) : coreOf (walkNow s w) = coreOf s := by
  unfold walkNow
  split
  · rfl
  · dsimp only
    split
    · simp
    · split
      · simp
      · rename_i h
        simp [coreOf_walkFill h]
      · rfl
      · simp
      · split <;> simp
@[simp] theorem coreOf_setSeg (s : State) (pkg : Nat) (job : Word) (seg : Nat) (g : Segment) : coreOf (setSeg s pkg job seg g) = coreOf s := by
  simp [setSeg]
@[simp] theorem coreOf_tellSeg (s : State) (w : Who) (cls code w0 w1 : Nat) :
    coreOf (tellSeg s w cls code w0 w1) = coreOf s := by
  unfold tellSeg
  split <;> simp
@[simp] theorem coreOf_tellLaunch (s : State) (r : SlotRef) (j : Job) (l : Option Launch) (cls code w0 w1 : Nat) :
    coreOf (tellLaunch s r j l cls code w0 w1) = coreOf s := by simp [tellLaunch]
@[simp] theorem coreOf_tellIssuer (s : State) (r : SlotRef) (j : Job) (cls code w0 w1 : Nat) :
    coreOf (tellIssuer s r j cls code w0 w1) = coreOf s := by
  unfold tellIssuer
  split <;> simp
@[simp] theorem coreOf_diverge (s : State) (j : Job) : coreOf (diverge s j) = coreOf s := by simp [diverge]
@[simp] theorem coreOf_countRec (s : State) (r : SlotRef) (uid : Nat) : coreOf (countRec s r uid) = coreOf s := by simp [countRec]
@[simp] theorem coreOf_evReplayLimitExpiry (pkg : Nat) (job : Word) (seg entry : Nat) (s : State) :
    coreOf (evReplayLimitExpiry pkg job seg entry s) = coreOf s := by
  unfold evReplayLimitExpiry
  dsimp only
  (repeat' split) <;> simp

/-! #### Pad -/
@[simp] theorem coreOf_padStore (s : State) (n : Node) (off : Nat) (b : List Byte) : coreOf (padStore s n off b) = coreOf s := by
  simp [padStore]
@[simp] theorem coreOf_spReply (s : State) (q : SpReq) (r : SpReply) : coreOf (spReply s q r) = coreOf s := by simp [spReply]
@[simp] theorem coreOf_serveLocal (s : State) (w : Who) (l : Nat) (ws : List (Reg × VVal)) : coreOf (serveLocal s w l ws) = coreOf s := by
  unfold serveLocal
  split <;> simp
@[simp] theorem coreOf_askServe (s : State) (n : Node) : coreOf (askServe s n) = coreOf s := by simp [askServe]
@[simp] theorem coreOf_dropWaiter (s : State) (n : Node) (w : Who) : coreOf (dropWaiter s n w) = coreOf s := by simp [dropWaiter]
@[simp] theorem coreOf_answerWithdrawal (s : State) (n : Node) (q : SpReq) : coreOf (answerWithdrawal s n q) = coreOf s := by
  simp [answerWithdrawal]
@[simp] theorem coreOf_evRemoteBusyResend (q : SpReq) (s : State) : coreOf (evRemoteBusyResend q s) = coreOf s := by
  unfold evRemoteBusyResend
  split <;> simp
@[simp] theorem coreOf_evRemoteWithdrawalAnswer (w : Who) (removed : Bool) (s : State) :
    coreOf (evRemoteWithdrawalAnswer w removed s) = coreOf s := by
  unfold evRemoteWithdrawalAnswer
  split <;> simp

/-! #### Sync -/
@[simp] theorem coreOf_semSignal (s : State) (n : Node) (sem k : Nat) : coreOf (semSignal s n sem k) = coreOf s := by simp [semSignal]
@[simp] theorem coreOf_serveSem (s : State) (n : Node) (x2 : Nat × Nat × Park) : coreOf (serveSem s n x2) = coreOf s := by
  unfold serveSem
  (repeat' split) <;> simp
@[simp] theorem coreOf_askEngines (s : State) (n : Node) : coreOf (askEngines s n) = coreOf s := by simp [askEngines]
@[simp] theorem coreOf_serveSems (s : State) (n : Node) : coreOf (serveSems s n) = coreOf s := by simp [serveSems]
@[simp] theorem coreOf_evSemWaitTimeout (w : Who) (s : State) : coreOf (evSemWaitTimeout w s) = coreOf s := by
  unfold evSemWaitTimeout
  (repeat' split) <;> simp
@[simp] theorem coreOf_modBar (s : State) (n : Node) (b : Nat) (f : Barrier → Barrier) : coreOf (modBar s n b f) = coreOf s := by simp [modBar]
@[simp] theorem coreOf_barSend (s : State) (n : Node) (dst : Nat) (ev : Ev) : coreOf (barSend s n dst ev) = coreOf s := by simp [barSend]
@[simp] theorem coreOf_barRelease (s : State) (n : Node) (b : Nat) : coreOf (barRelease s n b) = coreOf s := by simp [barRelease]
@[simp] theorem coreOf_barProgress (fuel : Nat) (s : State) (n : Node) (b : Nat) : coreOf (barProgress fuel s n b) = coreOf s := by
  induction fuel generalizing s with
  | zero => rfl
  | succ k ih =>
    unfold barProgress
    dsimp only
    (repeat' split) <;> simp [ih]
@[simp] theorem coreOf_barServe (s : State) (n : Node) (b : Nat) : coreOf (barServe s n b) = coreOf s := by simp [barServe]
@[simp] theorem coreOf_evBarrierTokenLand (n : Node) (b : Nat) (row : Bool) (job : Word) (s : State) :
    coreOf (evBarrierTokenLand n b row job s) = coreOf s := by simp [evBarrierTokenLand]
@[simp] theorem coreOf_evBarrierReleaseLand (n : Node) (b : Nat) (job : Word) (s : State) :
    coreOf (evBarrierReleaseLand n b job s) = coreOf s := by simp [evBarrierReleaseLand]

/-! #### Global -/
@[simp] theorem coreOf_pinRoute (s : State) (det : Bool) (launch : Word) (home : Node) : coreOf (pinRoute s det launch home).2 = coreOf s := by
  unfold pinRoute
  (repeat' split) <;> simp
@[simp] theorem coreOf_pinTo (s : State) (c : Ctx) (home : Node) : coreOf (pinTo s c home).2 = coreOf s := by simp [pinTo]
@[simp] theorem coreOf_sendReq (s : State) (r : SlotRef) (c : Ctx) (home : Node) (pa : Nat) (va : Word) (op : MemOp) (posted : Bool) (id : Nat)
    (rec_ : Option Nat) :
    coreOf (sendReq s r c home pa va op posted id rec_) = coreOf s := by simp [sendReq]
@[simp] theorem coreOf_postStore (s : State) (r : SlotRef) (c : Ctx) (home : Node × MemKind) (pa : Nat) (va : Word) (b : List Byte) (id : Nat) :
    coreOf (postStore s r c home pa va b id) = coreOf s := by simp [postStore]
@[simp] theorem coreOf_replyDue (s : State) (c : Node) (q : MemReq) : coreOf (replyDue s c q).2 = coreOf s := by
  unfold replyDue
  (repeat' split) <;> simp
@[simp] theorem coreOf_askMerge (s : State) (c : Node) (t : Nat) : coreOf (askMerge s c t) = coreOf s := by simp [askMerge]
@[simp] theorem coreOf_openWindow (s : State) (c : Node) (q : MemReq) : coreOf (openWindow s c q) = coreOf s := by simp [openWindow]
@[simp] theorem coreOf_evRefreshWindowEnd (c : Node) (s : State) : coreOf (evRefreshWindowEnd c s) = coreOf s := by simp [evRefreshWindowEnd]
@[simp] theorem coreOf_sendPacket (s : State) (src : SlotRef) (from_ : Node) (p : CopyPkt) (ws : List (Nat × Byte)) (space : List Nat)
    (pin : Option Word) :
    coreOf (sendPacket s src from_ p ws space pin) = coreOf s := by simp [sendPacket]
@[simp] theorem coreOf_sendAck (s : State) (src : SlotRef) (from_ owner : Node) (cmd num code : Nat) (pin : Option Word) :
    coreOf (sendAck s src from_ owner cmd num code pin) = coreOf s := by simp [sendAck]
@[simp] theorem coreOf_evControllerReplySend (c : Node) (q : MemReq) (a : MemReply) (s : State) :
    coreOf (evControllerReplySend c q a s) = coreOf s := by
  unfold evControllerReplySend
  split <;> simp
@[simp] theorem coreOf_evPostedStoreCreditLand (w : Who) (a : MemReply) (s : State) : coreOf (evPostedStoreCreditLand w a s) = coreOf s := by
  unfold evPostedStoreCreditLand
  split <;> simp
@[simp] theorem coreOf_popStore (s : State) (r : SlotRef) : coreOf (popStore s r) = coreOf s := by simp [popStore]
@[simp] theorem coreOf_markStore (s : State) (r : SlotRef) (id : Nat) : coreOf (markStore s r id) = coreOf s := by simp [markStore]
@[simp] theorem coreOf_dropStore (s : State) (r : SlotRef) (c : Ctx) (va : Word) (code : Nat) : coreOf (dropStore s r c va code) = coreOf s := by
  simp [dropStore]
@[simp] theorem coreOf_commitAtom (s : State) (w : Who) (g : Region) (cc : Bool) (old : Word) : coreOf (commitAtom s w g cc old) = coreOf s := by
  unfold commitAtom
  split <;> simp
@[simp] theorem coreOf_storeAnswered (s : State) (w : Who) (c : Ctx) (p : Park) (code : Option Nat) :
    coreOf (storeAnswered s w c p code) = coreOf s := by
  unfold storeAnswered
  split <;> simp
@[simp] theorem coreOf_evRemoteReplyLand (q : SpReq) (a : SpReply) (s : State) : coreOf (evRemoteReplyLand q a s) = coreOf s := by
  unfold evRemoteReplyLand
  (repeat' split) <;> simp
@[simp] theorem coreOf_failReply (s : State) (w : Who) (c : Ctx) (p : Park) (code : Nat) (aux : Word) :
    coreOf (failReply s w c p code aux) = coreOf s := by simp [failReply]

/-! #### Protocols -/
@[simp] theorem coreOf_morePiece (s : State) (w : Who) (b : List Byte) : coreOf (morePiece s w b) = coreOf s := by simp [morePiece]
@[simp] theorem coreOf_holdImage (s : State) (n : Node) (i : Nat) (h : Nat × Nat) : coreOf (holdImage s n i h) = coreOf s := by
  simp [holdImage]
@[simp] theorem coreOf_revertEp (s : State) (e : EpRef) : coreOf (revertEp s e) = coreOf s := by simp [revertEp]
@[simp] theorem coreOf_replyOpen (s : State) (q : OpenReq) (o : OpenOutcome) : coreOf (replyOpen s q o) = coreOf s := by simp [replyOpen]
@[simp] theorem coreOf_takeOpen (s : State) (e : EpRef) (q : OpenReq) (r : SlotRef) (uid : Nat) (p : Park) :
    coreOf (takeOpen s e q r uid p) = coreOf s := by simp [takeOpen]
@[simp] theorem coreOf_landOpen (s : State) (q : OpenReq) : coreOf (landOpen s q) = coreOf s := by
  unfold landOpen
  dsimp only
  (repeat' split) <;> simp
@[simp] theorem coreOf_evOpenReplyLand (q : OpenReq) (o : OpenOutcome) (s : State) : coreOf (evOpenReplyLand q o s) = coreOf s := by
  unfold evOpenReplyLand
  split <;> simp
@[simp] theorem coreOf_evOpenWithdrawalLand (q : OpenReq) (s : State) : coreOf (evOpenWithdrawalLand q s) = coreOf s := by
  simp [evOpenWithdrawalLand]
@[simp] theorem coreOf_evOpenWithdrawalAnswerLand (w : Who) (held : Bool) (s : State) :
    coreOf (evOpenWithdrawalAnswerLand w held s) = coreOf s := by
  unfold evOpenWithdrawalAnswerLand
  split <;> simp
@[simp] theorem coreOf_idleEp (s : State) (e : EpRef) : coreOf (idleEp s e) = coreOf s := by simp [idleEp]
@[simp] theorem coreOf_readImg (s : State) (r : SlotRef) (c : Ctx) (i : Nat) : coreOf (readImg s r c i).1 = coreOf s := by simp [readImg]
@[simp] theorem coreOf_countSent (s : State) (e : EpRef) : coreOf (countSent s e) = coreOf s := by simp [countSent]
@[simp] theorem coreOf_sendPiece (s : State) (r : SlotRef) (e : EpRef) (t : Trans) (mt : Nat) (b : List Byte) (fin : Bool) :
    coreOf (sendPiece s r e t mt b fin) = coreOf s := by
  unfold sendPiece
  dsimp only
  split <;> simp
@[simp] theorem coreOf_stayEp (s : State) (x1 : EpRef) : coreOf (stayEp s x1) = coreOf s := by simp [stayEp]
@[simp] theorem coreOf_addParty (n : Node) (fuel : Nat) (s : State) (e : EpRef) : coreOf (addParty n fuel s e) = coreOf s := by
  induction fuel generalizing s e with
  | zero => rfl
  | succ k ih =>
    unfold addParty
    dsimp only
    split <;> simp [ih]
@[simp] theorem coreOf_adoptAt (s : State) (z : EpRef) (img : Nat) (g : Option (Nat × Nat)) (state : Nat) (peer old : EpRef)
    (peerGen tx rx unread : Nat) :
    coreOf (adoptAt s z img g state peer old peerGen tx rx unread) = coreOf s := by simp [adoptAt]
@[simp] theorem coreOf_evChannelFlitLand (f : ChFlit) (s : State) : coreOf (evChannelFlitLand f s) = coreOf s := by simp [evChannelFlitLand]
@[simp] theorem coreOf_evDiscardMarkerLand (f : ChFlit) (s : State) : coreOf (evDiscardMarkerLand f s) = coreOf s := by
  simp [evDiscardMarkerLand]
@[simp] theorem coreOf_evAdoptionNoticeLand (f : ChFlit) (s : State) : coreOf (evAdoptionNoticeLand f s) = coreOf s := by
  simp [evAdoptionNoticeLand]
@[simp] theorem coreOf_evRedirectLand (f : ChFlit) (s : State) : coreOf (evRedirectLand f s) = coreOf s := by simp [evRedirectLand]
@[simp] theorem coreOf_evAcknowledgementLand (f : ChFlit) (s : State) : coreOf (evAcknowledgementLand f s) = coreOf s := by
  simp [evAcknowledgementLand]
@[simp] theorem coreOf_evDelegationAbortLand (f : ChFlit) (s : State) : coreOf (evDelegationAbortLand f s) = coreOf s := by
  simp [evDelegationAbortLand]
@[simp] theorem coreOf_evRegisterDeposit (e : EpRef) (s : State) : coreOf (evRegisterDeposit e s) = coreOf s := by simp [evRegisterDeposit]

/-! #### Engines -/
@[simp] theorem coreOf_leaveQueue (s : State) (n : Node) (mx : Bool) (q : EngCmd) (signal : Bool) :
    coreOf (leaveQueue s n mx q signal) = coreOf s := by simp [leaveQueue]
@[simp] theorem coreOf_askSup (s : State) (n : Node) (mx : Bool) (q : EngCmd) (cls code : Nat) (w0 w1 : Word) :
    coreOf (askSup s n mx q cls code w0 w1) = coreOf s := by simp [askSup]
@[simp] theorem coreOf_haltCmd (s : State) (n : Node) (mx : Bool) (q : EngCmd) (tok code : Nat) (addr : Word) :
    coreOf (haltCmd s n mx q tok code addr) = coreOf s := by simp [haltCmd]
@[simp] theorem coreOf_evEngineFaultStop (n : Node) (mx : Bool) (id code : Nat) (addr : Word) (s : State) :
    coreOf (evEngineFaultStop n mx id code addr s) = coreOf s := by
  unfold evEngineFaultStop
  split <;> simp
@[simp] theorem coreOf_stopCmd (s : State) (n : Node) (mx : Bool) (q : EngCmd) (code addr : Nat) :
    coreOf (stopCmd s n mx q code addr) = coreOf s := by simp [stopCmd]
@[simp] theorem coreOf_missCmd (s : State) (n : Node) (q : EngCmd) (va kind lvl : Nat) :
    coreOf (missCmd s n q va kind lvl) = coreOf s := by simp [missCmd]
theorem coreOf_engRead_ok {s t : State} {n : Node} {q : EngCmd} {l : List Nat} {b : List Byte} (h : engRead s n q l = .ok b t) :
    coreOf t = coreOf s := by
  unfold engRead at h
  split at h
  · cases h
  · split at h
    · cases h; rfl
    · dsimp only at h
      split at h
      · cases h
      · cases h
        exact coreOf_foldl_fst _ _ _ fun x a => coreOf_consume ..
theorem coreOf_engRead_stop {s t : State} {n : Node} {q : EngCmd} {l : List Nat} {code a : Nat} (h : engRead s n q l = .stop code a t) :
    coreOf t = coreOf s := by
  unfold engRead at h
  split at h
  · cases h; rfl
  · split at h
    · cases h
    · dsimp only at h
      split at h
      · cases h
        exact coreOf_foldl_fst _ _ _ fun x a => coreOf_consume ..
      · cases h
@[simp] theorem coreOf_engWrite (s : State) (n : Node) (ws : List (Nat × Byte)) : coreOf (engWrite s n ws) = coreOf s := by simp [engWrite]
@[simp] theorem coreOf_countLate (s : State) (pkg : Nat) (job : Word) (k : Nat) : coreOf (countLate s pkg job k) = coreOf s := by
  simp [countLate]
@[simp] theorem coreOf_lateGranule (s : State) (n : Node) (q : EngCmd) (k : Nat) : coreOf (lateGranule s n q k) = coreOf s := by
  simp [lateGranule]
@[simp] theorem coreOf_sendCopy (s : State) (n : Node) (q : EngCmd) (k : Nat) (ws : List (Nat × Byte)) :
    coreOf (sendCopy s n q k ws) = coreOf s := by simp [sendCopy]
@[simp] theorem coreOf_snapOf (s : State) (n : Node) (k : EngKind) : coreOf (snapOf s n k).1 = coreOf s := by
  unfold snapOf
  dsimp only
  (repeat' split) <;> simp
@[simp] theorem coreOf_packetStep (s : State) (n : Node) (q : EngCmd) (d a : TDesc) : coreOf (packetStep s n q d a) = coreOf s := by
  unfold packetStep
  split
  · rfl
  · dsimp only
    split
    · rename_i h
      simp [coreOf_engRead_stop h]
    · rename_i h
      split <;> simp [coreOf_engRead_ok h]
@[simp] theorem coreOf_chanStep (s : State) (n : Node) (q : EngCmd) (a : TDesc) (ep mt : Nat) :
    coreOf (chanStep s n q a ep mt) = coreOf s := by
  unfold chanStep
  dsimp only
  split
  · simp
  · split
    · simp
    · split
      · rename_i h
        simp [coreOf_engRead_stop h]
      · rename_i h
        simp [coreOf_engRead_ok h]
theorem coreOf_partXlate_ok {s t : State} {n : Node} {q : EngCmd} {va kind pa : Nat} {h : Node} (e : partXlate s n q va kind = .ok h pa t) :
    coreOf t = coreOf s := by
  unfold partXlate at e
  dsimp only at e
  split at e
  · cases e
  · split at e
    · rename_i u hx
      have k : coreOf u = coreOf s := by
        split at hx
        · simp [coreOf_walkFill hx]
        · simp [coreOf_xlate hx]
      split at e
      · cases e
      · split at e
        · cases e
        · cases e; exact k
    all_goals cases e
theorem coreOf_partXlate_wait {s t : State} {n : Node} {q : EngCmd} {va kind : Nat} (e : partXlate s n q va kind = .wait t) :
    coreOf t = coreOf s := by
  unfold partXlate at e
  dsimp only at e
  split at e
  · cases e; simp
  · split at e
    · rename_i u hx
      have k : coreOf u = coreOf s := by
        split at hx
        · simp [coreOf_walkFill hx]
        · simp [coreOf_xlate hx]
      split at e
      · cases e; simp [k]
      · split at e
        · cases e; simp [k]
        · cases e
    all_goals cases e; simp
@[simp] theorem coreOf_postSector (s : State) (n : Node) (q : EngCmd) (i : Nat) (home : Node) (pa va : Nat) (b : List Byte) :
    coreOf (postSector s n q i home pa va b) = coreOf s := by simp [postSector]
@[simp] theorem coreOf_didPart (s : State) (n : Node) (id k : Nat) : coreOf (didPart s n id k) = coreOf s := by simp [didPart]
@[simp] theorem coreOf_storeStep (n : Node) (id : Nat) (ss : List (Nat × Nat × Nat)) (src : List Nat) (fuel room : Nat) (s : State) :
    coreOf (storeStep n id ss src fuel room s) = coreOf s := by
  induction fuel generalizing room s with
  | zero => rfl
  | succ k ih =>
    unfold storeStep
    split
    · rfl
    · split
      · rfl
      · dsimp only
        split
        · rfl
        · split
          · rename_i h
            exact coreOf_partXlate_wait h
          · rename_i h
            split
            · rename_i k
              simp [coreOf_engRead_stop k, coreOf_partXlate_ok h]
            · rename_i k
              simp [ih, coreOf_engRead_ok k, coreOf_partXlate_ok h]
@[simp] theorem coreOf_fillStep (s : State) (n : Node) (q : EngCmd) (d : TDesc) (p : Word) : coreOf (fillStep s n q d p) = coreOf s := by
  unfold fillStep
  split
  · rfl
  · dsimp only
    split
    · rename_i h
      exact coreOf_partXlate_wait h
    · rename_i h
      simp [coreOf_partXlate_ok h]
@[simp] theorem coreOf_pullParts (n : Node) (id : Nat) (l : List (Nat × Nat)) (dst : List Nat) (s : State) :
    coreOf (pullParts n id l dst s).2 = coreOf s := by
  induction l generalizing dst s with
  | nil => rfl
  | cons x l ih =>
    unfold pullParts
    split
    · rfl
    · split
      · rename_i h
        exact coreOf_partXlate_wait h
      · rename_i h
        exact (ih _ _).trans (coreOf_partXlate_ok h)
@[simp] theorem coreOf_askHome (s : State) (n : Node) (q : EngCmd) (k : Nat) (ps : List PullPart) (h : Node) :
    coreOf (askHome s n q k ps h) = coreOf s := by simp [askHome]
@[simp] theorem coreOf_askPull (n : Node) (id : Nat) (dst src : List Nat) (fuel : Nat) (s : State) :
    coreOf (askPull n id dst src fuel s) = coreOf s := by
  induction fuel generalizing s with
  | zero => rfl
  | succ k ih =>
    unfold askPull
    dsimp only
    (repeat' split) <;> simp [ih]
@[simp] theorem coreOf_goOnCmd (s : State) (n : Node) (q : EngCmd) : coreOf (goOnCmd s n q) = coreOf s := by
  unfold goOnCmd
  split
  · split <;> simp
  all_goals simp
@[simp] theorem coreOf_ackPacket (s : State) (p : CopyPkt) (code : Nat) : coreOf (ackPacket s p code) = coreOf s := by simp [ackPacket]
@[simp] theorem coreOf_packetDone (s : State) (p : CopyPkt) : coreOf (packetDone s p) = coreOf s := by
  unfold packetDone
  split <;> simp
@[simp] theorem coreOf_evCopyPacketLand (p : CopyPkt) (s : State) : coreOf (evCopyPacketLand p s) = coreOf s := by
  unfold evCopyPacketLand
  dsimp only
  (repeat' split) <;> simp
@[simp] theorem coreOf_evCopyPacketAck (owner : Node) (cmd num code : Nat) (s : State) :
    coreOf (evCopyPacketAck owner cmd num code s) = coreOf s := by
  unfold evCopyPacketAck
  split <;> simp
@[simp] theorem coreOf_startedCmd (s : State) (n : Node) (q : EngCmd) : coreOf (startedCmd s n q) = coreOf s := by simp [startedCmd]
@[simp] theorem coreOf_startCopies (n : Node) (fuel : Nat) (free : Bool) (s : State) : coreOf (startCopies n fuel free s) = coreOf s := by
  induction fuel generalizing free s with
  | zero => rfl
  | succ k ih =>
    unfold startCopies
    dsimp only
    split
    · rfl
    · split
      · rfl
      · split
        · split <;> simp
        · rw [ih]
          split
          · split <;> simp
          · simp
@[simp] theorem coreOf_copyCycle (s : State) (n : Node) : coreOf (copyCycle s n) = coreOf s := by
  unfold copyCycle
  dsimp only
  split <;> simp
@[simp] theorem coreOf_fillCycle (s : State) (n : Node) (q : EngCmd) (d : TDesc) (p : Word) : coreOf (fillCycle s n q d p) = coreOf s := by
  unfold fillCycle
  dsimp only
  split <;> simp
@[simp] theorem coreOf_finishCopy (s : State) (n : Node) (q : EngCmd) : coreOf (finishCopy s n q) = coreOf s := by
  unfold finishCopy
  (repeat' split) <;> simp
@[simp] theorem coreOf_resumeCopy (s : State) (n : Node) (q : EngCmd) : coreOf (resumeCopy s n q) = coreOf s := by simp [resumeCopy]

/-! #### Vector -/
@[simp] theorem coreOf_evArrayBeatStart (n : Node) (s : State) : coreOf (evArrayBeatStart n s) = coreOf s := by simp [evArrayBeatStart]

/-! #### Matrix -/
@[simp] theorem coreOf_modMx (s : State) (n : Node) (f : Matrix → Matrix) : coreOf (modMx s n f) = coreOf s := by simp [modMx]
@[simp] theorem coreOf_feedColumn (s : State) (n : Node) (q : EngCmd) (d : TDesc) (k : Nat) : coreOf (feedColumn s n q d k) = coreOf s := by
  unfold feedColumn
  split
  · rename_i h
    simp [coreOf_engRead_stop h]
  · rename_i h
    dsimp only
    split <;> simp [coreOf_engRead_ok h]
@[simp] theorem coreOf_feedRow (s : State) (n : Node) (q : EngCmd) (k : Nat) : coreOf (feedRow s n q k) = coreOf s := by
  unfold feedRow
  dsimp only
  split
  · split <;> simp
  · split
    · rename_i h
      simp [coreOf_engRead_stop h]
    · rename_i h
      split <;> simp [apply_ite coreOf, coreOf_engRead_ok h]
@[simp] theorem coreOf_accErrs (s : State) (n : Node) (q : EngCmd) (rows : List Nat) : coreOf (accErrs s n q rows).1 = coreOf s := by
  unfold accErrs
  split
  · rfl
  · exact coreOf_foldl_fst _ _ _ fun x g => coreOf_consume ..
@[simp] theorem coreOf_freshRows (s : State) (n : Node) (rows : List Nat) : coreOf (freshRows s n rows) = coreOf s := by simp [freshRows]
@[simp] theorem coreOf_commitStep (s : State) (n : Node) (q : EngCmd) (j : Nat) : coreOf (commitStep s n q j) = coreOf s := by
  unfold commitStep
  (repeat' split) <;> simp
@[simp] theorem coreOf_evMatrixStepCommit (n : Node) (id stepNo : Nat) (s : State) :
    coreOf (evMatrixStepCommit n id stepNo s) = coreOf s := by
  unfold evMatrixStepCommit
  (repeat' split) <;> simp
@[simp] theorem coreOf_runMatrix (s : State) (n : Node) (q : EngCmd) : coreOf (runMatrix s n q) = coreOf s := by
  unfold runMatrix
  (repeat' split) <;> simp
@[simp] theorem coreOf_startMatrix (n : Node) (fuel : Nat) (s : State) : coreOf (startMatrix n fuel s) = coreOf s := by
  induction fuel generalizing s with
  | zero => rfl
  | succ k ih =>
    unfold startMatrix
    dsimp only
    (repeat' split) <;> simp [ih]
@[simp] theorem coreOf_evEngineCommandStart (n : Node) (mx : Bool) (s : State) : coreOf (evEngineCommandStart n mx s) = coreOf s := by
  simp [evEngineCommandStart]
@[simp] theorem coreOf_matrixEffect (s : State) (n : Node) (q : EngCmd) : coreOf (matrixEffect s n q) = coreOf s := by
  unfold matrixEffect
  split <;> simp
@[simp] theorem coreOf_clearResume (s : State) (n : Node) (q : EngCmd) : coreOf (clearResume s n q) = coreOf s := by simp [clearResume]
@[simp] theorem coreOf_evEngineCommandComplete (n : Node) (mx : Bool) (id : Nat) (s : State) :
    coreOf (evEngineCommandComplete n mx id s) = coreOf s := by
  unfold evEngineCommandComplete
  split <;> simp
@[simp] theorem coreOf_resumeMatrix (s : State) (n : Node) (q : EngCmd) : coreOf (resumeMatrix s n q) = coreOf s := by
  unfold resumeMatrix
  dsimp only
  split <;> simp
@[simp] theorem coreOf_takeMatrix (s : State) (r : SlotRef) (c : Ctx) : coreOf (takeMatrix s r c) = coreOf s := by simp [takeMatrix]
@[simp] theorem coreOf_reserveDraws (s : State) (r : SlotRef) (rm : Rm) (n : Nat) : coreOf (reserveDraws s r rm n) = coreOf s := by
  simp [reserveDraws]

/-! #### Service -/
@[simp] theorem coreOf_svcReply (s : State) (q : SvcReq) (t : Nat) (a : SvcReply) : coreOf (svcReply s q t a) = coreOf s := by simp [svcReply]
@[simp] theorem coreOf_serveTurn (s : State) (turn : Bool) (peer key : Nat) (ev : Ev) (f : State → State) (h : ∀ u, coreOf (f u) = coreOf u) :
    coreOf (serveTurn s turn peer key ev f) = coreOf s := by
  unfold serveTurn
  dsimp only
  (repeat' split) <;> simp [h]
@[simp] theorem coreOf_svcServe (s : State) (q : SvcReq) (service time : Nat) (ev : SvcReq → Ev) (f : State → State × SvcReply)
    (h : ∀ u, coreOf (f u).1 = coreOf u) :
    coreOf (svcServe s q service time ev f) = coreOf s := by
  simp [svcServe, h]
@[simp] theorem coreOf_waitOver (s : State) (w : Who) : coreOf (waitOver s w) = coreOf s := by simp [waitOver]

/-! #### Turns -/
@[simp] theorem coreOf_doTurnSet (n : Node) (s : State) (x2 : Nat × Ctx × Park) : coreOf (doTurnSet n s x2) = coreOf s := by
  unfold doTurnSet
  dsimp only
  split <;> simp
@[simp] theorem coreOf_freshTurns (s : State) (n : Node) (old : List Slot) : coreOf (freshTurns s n old) = coreOf s := by simp [freshTurns]
@[simp] theorem coreOf_boundaryTurns (s : State) (n : Node) : coreOf (boundaryTurns s n) = coreOf s := by simp [boundaryTurns]
@[simp] theorem coreOf_turnBoundary (s : State) (n : Node) : coreOf (turnBoundary s n) = coreOf s := by simp [turnBoundary]
@[simp] theorem coreOf_askSample (s : State) (n : Node) (i t : Nat) : coreOf (askSample s n i t) = coreOf s := by simp [askSample]
@[simp] theorem coreOf_reSample (s : State) (n : Node) (i t : Nat) : coreOf (reSample s n i t) = coreOf s := by simp [reSample]
@[simp] theorem coreOf_evCouplerSample (n : Node) (i : Nat) (s : State) : coreOf (evCouplerSample n i s) = coreOf s := by
  unfold evCouplerSample
  dsimp only
  (repeat' split) <;> simp
@[simp] theorem coreOf_evCouplerControlFlitLand (n : Node) (owner : EpRef) (u : Option ℤ) (s : State) :
    coreOf (evCouplerControlFlitLand n owner u s) = coreOf s := by
  unfold evCouplerControlFlitLand
  split <;> simp
@[simp] theorem coreOf_evRcBindRequest (q : SvcReq) (s : State) : coreOf (evRcBindRequest q s) = coreOf s := by
  unfold evRcBindRequest
  split
  · refine coreOf_svcServe _ _ _ _ _ _ fun u => ?_
    (repeat' split) <;> simp
  · rfl
@[simp] theorem coreOf_bindReply (s : State) (w : Who) (c : Ctx) (d : SIx) (v : Nat) : coreOf (bindReply s w c d v) = coreOf s := by
  unfold bindReply
  (repeat' split) <;> simp

/-! #### Heaps -/
@[simp] theorem coreOf_modAlloc (s : State) (n : Node) (f : Allocator → Allocator) : coreOf (modAlloc s n f) = coreOf s := by simp [modAlloc]
@[simp] theorem coreOf_modCount (s : State) (job : Word) (heap : Nat) (f : HeapCount → HeapCount) :
    coreOf (modCount s job heap f) = coreOf s := by simp [modCount]
@[simp] theorem coreOf_allocFail (s : State) (job : Word) (heap why : Nat) : coreOf (allocFail s job heap why).1 = coreOf s := by
  simp [allocFail]
@[simp] theorem coreOf_allocReply (s : State) (q : SvcReq) (a : SvcReply) : coreOf (allocReply s q a) = coreOf s := by simp [allocReply]
@[simp] theorem coreOf_evAllocatorReplyLand (w : Who) (a : SvcReply) (s : State) : coreOf (evAllocatorReplyLand w a s) = coreOf s := by
  unfold evAllocatorReplyLand
  split <;> simp

/-! #### Exchange -/
@[simp] theorem coreOf_modExch (s : State) (pkg : Nat) (job : Word) (f : Exchange → Exchange) : coreOf (modExch s pkg job f) = coreOf s := by
  simp [modExch]
@[simp] theorem coreOf_modArb (s : State) (pkg : Nat) (job : Word) (f : Arbiter → Arbiter) : coreOf (modArb s pkg job f) = coreOf s := by
  simp [modArb]
@[simp] theorem coreOf_putArb (s : State) (pkg : Nat) (a : Arbiter) : coreOf (putArb s pkg a) = coreOf s := by simp [putArb]
@[simp] theorem coreOf_armTimeout (s : State) (job : Word) : coreOf (armTimeout s job) = coreOf s := by simp [armTimeout]
@[simp] theorem coreOf_startBeats (s : State) (job : Word) : coreOf (startBeats s job) = coreOf s := by simp [startBeats]
@[simp] theorem coreOf_startExchange (s : State) (j : Job) : coreOf (startExchange s j) = coreOf s := by
  unfold startExchange
  split <;> simp
@[simp] theorem coreOf_endExchange (s : State) (job : Word) : coreOf (endExchange s job) = coreOf s := by simp [endExchange]
@[simp] theorem coreOf_ackRow (s : State) (arb pkg : Nat) (job : Word) (period : Nat) :
    coreOf (ackRow s arb pkg job period) = coreOf s := by
  unfold ackRow
  split <;> simp
@[simp] theorem coreOf_tryDecompose (s : State) (pkg : Nat) (job : Word) : coreOf (tryDecompose s pkg job) = coreOf s := by
  unfold tryDecompose
  (repeat' split) <;> simp
@[simp] theorem coreOf_evDemandRowAccept (job : Word) (pkg period : Nat) (row : List Nat) (s : State) :
    coreOf (evDemandRowAccept job pkg period row s) = coreOf s := by
  unfold evDemandRowAccept
  dsimp only
  split <;> simp
@[simp] theorem coreOf_evCalendarDecompose (job : Word) (s : State) : coreOf (evCalendarDecompose job s) = coreOf s := by
  unfold evCalendarDecompose
  (repeat' split) <;> simp
@[simp] theorem coreOf_sendUnit (s : State) (from_ to_ flits : Nat) (ev : Ev) :
    coreOf (sendUnit s from_ to_ flits ev) = coreOf s := by simp [sendUnit]
@[simp] theorem coreOf_sendCalendar (s : State) (from_ : Nat) (job : Word) (c : Calendar) (g : List Nat) :
    coreOf (sendCalendar s from_ job c g) = coreOf s := by simp [sendCalendar]
@[simp] theorem coreOf_evCalendarIssue (job : Word) (s : State) : coreOf (evCalendarIssue job s) = coreOf s := by
  unfold evCalendarIssue
  (repeat' split) <;> simp
@[simp] theorem coreOf_sendRow (s : State) (pkg : Nat) (job : Word) (period : Nat) (row : List Nat) :
    coreOf (sendRow s pkg job period row) = coreOf s := by simp [sendRow]
@[simp] theorem coreOf_closePeriod (s : State) (pkg : Nat) (q : SvcReq) : coreOf (closePeriod s pkg q) = coreOf s := by
  unfold closePeriod
  split <;> simp
@[simp] theorem coreOf_evDemandPostRequest (q : SvcReq) (s : State) : coreOf (evDemandPostRequest q s) = coreOf s := by
  unfold evDemandPostRequest
  dsimp only
  (repeat' split) <;> simp
@[simp] theorem coreOf_dropClose (s : State) (w : Who) : coreOf (dropClose s w) = coreOf s := by simp [dropClose]
@[simp] theorem coreOf_calOpen (s : State) (q : OpenReq) : coreOf (calOpen s q) = coreOf s := by
  unfold calOpen
  dsimp only
  (repeat' split) <;> simp
@[simp] theorem coreOf_evOpenRequestLand (q : OpenReq) (s : State) : coreOf (evOpenRequestLand q s) = coreOf s := by simp [evOpenRequestLand]
@[simp] theorem coreOf_pumpGrants (e : EpRef) (n : Nat) (s : State) : coreOf (pumpGrants e n s) = coreOf s := by
  induction n generalizing s with
  | zero => rfl
  | succ k ih =>
    unfold pumpGrants
    dsimp only
    (repeat' split) <;> simp [ih]
@[simp] theorem coreOf_dropSub (s : State) (e : EpRef) : coreOf (dropSub s e) = coreOf s := by simp [dropSub]
@[simp] theorem coreOf_evCreditLand (f : ChFlit) (s : State) : coreOf (evCreditLand f s) = coreOf s := by simp [evCreditLand]
@[simp] theorem coreOf_evCloseNoticeLand (f : ChFlit) (s : State) : coreOf (evCloseNoticeLand f s) = coreOf s := by simp [evCloseNoticeLand]
@[simp] theorem coreOf_giveGrants (s : State) (pkg : Nat) (job : Word) (c : Calendar) : coreOf (giveGrants s pkg job c) = coreOf s := by
  simp [giveGrants]
@[simp] theorem coreOf_askEnds (s : State) (pkg : Nat) (job : Word) (c : Calendar) : coreOf (askEnds s pkg job c) = coreOf s := by
  simp [askEnds]
@[simp] theorem coreOf_evCalendarLand (pkg : Nat) (job : Word) (period : Nat) (s : State) :
    coreOf (evCalendarLand pkg job period s) = coreOf s := by
  unfold evCalendarLand
  dsimp only
  (repeat' split) <;> simp
@[simp] theorem coreOf_evExchangePhaseEnd (pkg : Nat) (job : Word) (period phase : Nat) (s : State) :
    coreOf (evExchangePhaseEnd pkg job period phase s) = coreOf s := by simp [evExchangePhaseEnd]
@[simp] theorem coreOf_takeOver (s : State) (pkg : Nat) (job : Word) : coreOf (takeOver s pkg job) = coreOf s := by
  unfold takeOver
  dsimp only
  split <;> simp
@[simp] theorem coreOf_evHeartbeatSend (job : Word) (s : State) : coreOf (evHeartbeatSend job s) = coreOf s := by
  unfold evHeartbeatSend
  (repeat' split) <;> simp
@[simp] theorem coreOf_evHeartbeatTimeout (job : Word) (s : State) : coreOf (evHeartbeatTimeout job s) = coreOf s := by
  unfold evHeartbeatTimeout
  (repeat' split) <;> simp
@[simp] theorem coreOf_dropCalWait (s : State) (r : SlotRef) (uid : Nat) (p : Park) : coreOf (dropCalWait s r uid p) = coreOf s := by
  unfold dropCalWait
  split <;> simp
@[simp] theorem coreOf_evCalWaitAtWake (w : Who) (s : State) : coreOf (evCalWaitAtWake w s) = coreOf s := by
  unfold evCalWaitAtWake
  dsimp only
  (repeat' split) <;> simp
@[simp] theorem coreOf_evExchangeReservation (q : SvcReq) (s : State) : coreOf (evExchangeReservation q s) = coreOf s := by
  unfold evExchangeReservation
  dsimp only
  split
  · refine coreOf_svcServe _ _ _ _ _ _ fun u => ?_
    split <;> simp
  · rfl
@[simp] theorem coreOf_phaseReply (s : State) (w : Who) (a : SvcReply) : coreOf (phaseReply s w a) = coreOf s := by simp [phaseReply]
@[simp] theorem coreOf_serveTake (s : State) (q : SvcReq) (nb : Word) : coreOf (serveTake s q nb).1 = coreOf s := by
  unfold serveTake
  dsimp only
  (repeat' split) <;> simp
@[simp] theorem coreOf_evBlockQueueRequest (q : SvcReq) (s : State) : coreOf (evBlockQueueRequest q s) = coreOf s := by
  unfold evBlockQueueRequest
  split
  · exact coreOf_svcServe _ _ _ _ _ _ fun u => by split <;> simp
  · exact coreOf_svcServe _ _ _ _ _ _ fun u => by simp
  · rfl

/-! #### Placing -/
@[simp] theorem coreOf_bindUnit (s : State) (r : SlotRef) (d : UnitDesc) (delay : Nat) : coreOf (bindUnit s r d delay) = coreOf s := by
  simp [bindUnit]
@[simp] theorem coreOf_evBindComplete (r : SlotRef) (uid : Nat) (s : State) : coreOf (evBindComplete r uid s) = coreOf s := by
  simp [evBindComplete]
@[simp] theorem coreOf_evDeterministicStart (pkg serial : Nat) (s : State) : coreOf (evDeterministicStart pkg serial s) = coreOf s := by
  unfold evDeterministicStart
  split <;> simp
@[simp] theorem coreOf_bindTile (s : State) (pkg : Nat) (l : Launch) (s0 i tile delay : Nat) :
    coreOf (bindTile s pkg l s0 i tile delay) = coreOf s := by simp [bindTile]
@[simp] theorem coreOf_askSpawns (s : State) (pkg : Nat) (l : Launch) : coreOf (askSpawns s pkg l) = coreOf s := by simp [askSpawns]
@[simp] theorem coreOf_placeNode (s : State) (pkg : Nat) (l : Launch) (tiles : List Nat) (par : Option (Bool × List Nat)) :
    coreOf (placeNode s pkg l tiles par) = coreOf s := by simp [placeNode]
@[simp] theorem coreOf_placeAll (pkg : Nat) (ls : List Launch) (prios tiles : List Nat) (s : State) :
    coreOf (placeAll pkg ls prios tiles s) = coreOf s := by
  induction ls generalizing prios tiles s with
  | nil => rfl
  | cons l ls ih =>
    unfold placeAll
    (repeat' split) <;> simp [ih]
@[simp] theorem coreOf_preemptFor (s : State) (pkg : Nat) (l : Launch) : coreOf (preemptFor s pkg l) = coreOf s := by simp [preemptFor]
@[simp] theorem coreOf_takeXas (s : State) (r : SlotRef) (c : Ctx) : coreOf (takeXas s r c) = coreOf s := by simp [takeXas]
@[simp] theorem coreOf_resumeTile (s : State) (n : Node) : coreOf (resumeTile s n) = coreOf s := by
  refine coreOf_foldl _ _ _ fun s i => ?_
  dsimp only
  split
  · split <;> simp
  · rfl
@[simp] theorem coreOf_evUnitResume (r : SlotRef) (uid : Nat) (s : State) : coreOf (evUnitResume r uid s) = coreOf s := by simp [evUnitResume]
@[simp] theorem coreOf_startSave (s : State) (r : SlotRef) : coreOf (startSave s r) = coreOf s := by simp [startSave]
@[simp] theorem coreOf_evContextSaveComplete (r : SlotRef) (uid : Nat) (s : State) : coreOf (evContextSaveComplete r uid s) = coreOf s := by
  simp [evContextSaveComplete]
@[simp] theorem coreOf_evNodePlacement (pkg : Nat) (s : State) : coreOf (evNodePlacement pkg s) = coreOf s := by simp [evNodePlacement]
@[simp] theorem coreOf_spawnAnswer (s : State) (q : SpawnReq) (reason : Nat) : coreOf (spawnAnswer s q reason) = coreOf s := by
  simp [spawnAnswer]
@[simp] theorem coreOf_serveSpawns (n : Node) (fuel : Nat) (s : State) : coreOf (serveSpawns n fuel s) = coreOf s := by
  induction fuel generalizing s with
  | zero => rfl
  | succ k ih =>
    unfold serveSpawns
    dsimp only
    (repeat' split) <;> simp [ih]
@[simp] theorem coreOf_evSpawnEntryServe (n : Node) (s : State) : coreOf (evSpawnEntryServe n s) = coreOf s := by simp [evSpawnEntryServe]
@[simp] theorem coreOf_evSpawnReplyLand (w : Who) (reason : Nat) (s : State) : coreOf (evSpawnReplyLand w reason s) = coreOf s := by
  unfold evSpawnReplyLand
  (repeat' split) <;> simp
@[simp] theorem coreOf_evSpawnReturnLand (r : SlotRef) (uid : Nat) (dst : SIx) (v : Word) (s : State) :
    coreOf (evSpawnReturnLand r uid dst v s) = coreOf s := by
  unfold evSpawnReturnLand
  (repeat' split) <;> simp

/-! #### Hierarchy -/
@[simp] theorem coreOf_noteOutcome (s : State) (pkg : Nat) (o : Outcome) : coreOf (noteOutcome s pkg o) = coreOf s := by simp [noteOutcome]
@[simp] theorem coreOf_answerWait (s : State) (q : SvcReq) (a : SvcReply) : coreOf (answerWait s q a) = coreOf s := by simp [answerWait]
@[simp] theorem coreOf_answerWaits (s : State) (pkg : Nat) (sel : SvcReq → Bool) (v : Nat) : coreOf (answerWaits s pkg sel v) = coreOf s := by
  simp [answerWaits]
@[simp] theorem coreOf_completeObj (s : State) (pkg : Nat) (lvl : Level) (serial : Nat) (job : Word) (status : Nat) :
    coreOf (completeObj s pkg lvl serial job status) = coreOf s := by simp [completeObj]
@[simp] theorem coreOf_dropWaits (s : State) (w : Who) : coreOf (dropWaits s w) = coreOf s := by simp [dropWaits]
@[simp] theorem coreOf_modGraph (s : State) (pkg serial : Nat) (f : Graph → Graph) : coreOf (modGraph s pkg serial f) = coreOf s := by
  simp [modGraph]
@[simp] theorem coreOf_modLaunchOf (s : State) (pkg serial : Nat) (f : Launch → Launch) :
    coreOf (modLaunchOf s pkg serial f) = coreOf s := by simp [modLaunchOf]
@[simp] theorem coreOf_askPhaseEnd (s : State) (job : Word) : coreOf (askPhaseEnd s job) = coreOf s := by simp [askPhaseEnd]
@[simp] theorem coreOf_endLaunch (s : State) (pkg : Nat) (l : Launch) (status : Nat) : coreOf (endLaunch s pkg l status) = coreOf s := by
  simp [endLaunch]
@[simp] theorem coreOf_askPlace (s : State) (pkg : Nat) : coreOf (askPlace s pkg) = coreOf s := by simp [askPlace]
@[simp] theorem coreOf_settleNode (pkg serial : Nat) (s : State) (i : Nat) : coreOf (settleNode pkg serial s i) = coreOf s := by
  unfold settleNode
  (repeat' split) <;> simp
@[simp] theorem coreOf_settleGraph (s : State) (pkg serial : Nat) : coreOf (settleGraph s pkg serial) = coreOf s := by
  unfold settleGraph
  split <;> simp
@[simp] theorem coreOf_evLaunchCompletion (pkg serial : Nat) (s : State) : coreOf (evLaunchCompletion pkg serial s) = coreOf s := by
  unfold evLaunchCompletion
  split <;> simp
@[simp] theorem coreOf_openPhase (s : State) (job : Word) : coreOf (openPhase s job) = coreOf s := by
  unfold openPhase
  split <;> simp
@[simp] theorem coreOf_evPhaseCompletion (job : Word) (s : State) : coreOf (evPhaseCompletion job s) = coreOf s := by
  unfold evPhaseCompletion
  split <;> simp
@[simp] theorem coreOf_cancelCmd (n : Node) (mx : Bool) (s : State) (q : EngCmd) : coreOf (cancelCmd n mx s q) = coreOf s := by
  simp [cancelCmd]
@[simp] theorem coreOf_cancelCmds (s : State) (pkg : Nat) (sel : EngCmd → Bool) : coreOf (cancelCmds s pkg sel) = coreOf s := by
  simp [cancelCmds]
@[simp] theorem coreOf_cancelUnits (s : State) (pkg : Nat) (sel : UnitDesc → Bool) : coreOf (cancelUnits s pkg sel) = coreOf s := by
  simp [cancelUnits]
@[simp] theorem coreOf_dropSpawns (s : State) (pkg serial : Nat) : coreOf (dropSpawns s pkg serial) = coreOf s := by simp [dropSpawns]
@[simp] theorem coreOf_cancelLaunch (s : State) (pkg serial : Nat) : coreOf (cancelLaunch s pkg serial) = coreOf s := by
  unfold cancelLaunch
  split <;> simp
@[simp] theorem coreOf_cancelGraph (s : State) (pkg serial : Nat) : coreOf (cancelGraph s pkg serial) = coreOf s := by
  unfold cancelGraph
  split <;> simp
@[simp] theorem coreOf_beginEnd (s : State) (job : Word) : coreOf (beginEnd s job) = coreOf s := by
  unfold beginEnd
  split <;> simp
@[simp] theorem coreOf_evCancelApply (pkg : Nat) (c : CancelReq) (s : State) : coreOf (evCancelApply pkg c s) = coreOf s := by
  unfold evCancelApply
  (repeat' split) <;> simp
@[simp] theorem coreOf_addLaunch (s : State) (pkg : Nat) (job : Word) (graph node : Nat) (d : LaunchDesc) :
    coreOf (addLaunch s pkg job graph node d).1 = coreOf s := by simp [addLaunch]
@[simp] theorem coreOf_addGraph (s : State) (pkg : Nat) (job : Word) : coreOf (addGraph s pkg job).1 = coreOf s := by simp [addGraph]
@[simp] theorem coreOf_submitGraph (s : State) (pkg : Nat) (job : Word) (serial : Nat) : coreOf (submitGraph s pkg job serial) = coreOf s := by
  simp [submitGraph]
@[simp] theorem coreOf_serveLaunch (s : State) (pkg : Nat) (job : Word) (d : LaunchDesc) (bad : Option Nat) :
    coreOf (serveLaunch s pkg job d bad).1 = coreOf s := by
  unfold serveLaunch
  (repeat' split) <;> simp
@[simp] theorem coreOf_serveAdd (s : State) (pkg : Nat) (job h : Word) (d : LaunchDesc) (bad : Option Nat) :
    coreOf (serveAdd s pkg job h d bad).1 = coreOf s := by
  unfold serveAdd
  (repeat' split) <;> simp
@[simp] theorem coreOf_serveEdge (s : State) (pkg : Nat) (job h a b : Word) :
    coreOf (serveEdge s pkg job h a b).1 = coreOf s := by
  unfold serveEdge
  (repeat' split) <;> simp
@[simp] theorem coreOf_undoPhase (s : State) (w : Who) : coreOf (undoPhase s w) = coreOf s := by
  unfold undoPhase
  dsimp only
  (repeat' split) <;> simp
theorem coreOf_go (q : SvcReq) (s : State) (f : State → State × SvcReply) (h : ∀ u, coreOf (f u).1 = coreOf u) :
    coreOf (svcServe s q 10 64 .dispatcherRequest f) = coreOf s := coreOf_svcServe _ _ _ _ _ _ h
@[simp] theorem coreOf_evDispatcherRequest (q : SvcReq) (s : State) : coreOf (evDispatcherRequest q s) = coreOf s := by
  have stay (s : State) (r : SvcReply) : coreOf (svcServe s q 10 64 .dispatcherRequest fun u => (u, r)) = coreOf s :=
    coreOf_go q s _ fun u => Eq.refl (coreOf u)
  unfold evDispatcherRequest
  obtain ⟨known, same⟩ : ∃ known, known = knownOf := ⟨_, rfl⟩
  rw [← same]
  split
  · rfl
  · generalize q.kind = k
    cases k
    case launch => exact coreOf_go _ _ _ fun u => by simp
    case refused => exact stay ..
    case graphOpen => exact coreOf_go _ _ _ fun u => by split <;> simp
    case graphAdd => exact coreOf_go _ _ _ fun u => by simp
    case graphEdge => exact coreOf_go _ _ _ fun u => by simp
    case graphSubmit =>
      refine coreOf_go _ _ _ fun u => ?_
      split
      · rfl
      · split <;> simp
    case doneWait lvl h poll =>
      rw [coreOf_ite]
      split
      · exact stay ..
      · split
        · exact stay ..
        · exact stay ..
        · split
          · exact stay ..
          · exact coreOf_modPkg ..
    case cancel =>
      dsimp only
      split
      · exact stay ..
      · refine coreOf_go _ _ _ fun u => coreOf_foldl _ _ _ fun t p => ?_
        split
        · exact coreOf_push ..
        · exact coreOf_push ..
    case phaseLeave =>
      dsimp only
      split
      · exact stay ..
      · split
        · exact stay ..
        · exact (coreOf_askPhaseEnd _ _).trans ((coreOf_modPkg ..).trans (coreOf_modJob _ _ _ fun _ => rfl))
    case phaseEnter =>
      dsimp only
      split
      · exact stay ..
      · split
        · exact stay ..
        · exact (coreOf_openPhase _ _).trans ((coreOf_modPkg ..).trans (coreOf_modJob _ _ _ fun _ => rfl))
    all_goals rfl

/-! #### Resets -/
@[simp] theorem coreOf_dropReserved (s : State) (r : SlotRef) (uid : Nat) : coreOf (dropReserved s r uid) = coreOf s := by
  unfold dropReserved
  split <;> simp
@[simp] theorem coreOf_losePark (s : State) (r : SlotRef) (c : Ctx) (p : Park) (aux : Word) : coreOf (losePark s r c p aux) = coreOf s := by
  unfold losePark
  split <;> simp
@[simp] theorem coreOf_loseOut (s : State) (o : Out) : coreOf (loseOut s o) = coreOf s := by simp [loseOut]
@[simp] theorem coreOf_loseTile (s : State) (n about : Node) : coreOf (loseTile s n about) = coreOf s := by simp [loseTile]
@[simp] theorem coreOf_evStaleNoticeLand (dst about : Node) (inc : Nat) (s : State) :
    coreOf (evStaleNoticeLand dst about inc s) = coreOf s := by simp [evStaleNoticeLand]
@[simp] theorem coreOf_evIncarnationAnnouncementLand (pkg : Nat) (about : Node) (inc : Nat) (s : State) :
    coreOf (evIncarnationAnnouncementLand pkg about inc s) = coreOf s := by simp [evIncarnationAnnouncementLand]
@[simp] theorem coreOf_loseEv (s : State) (src : Node) (ev : Ev) : coreOf (loseEv s src ev) = coreOf s := by
  unfold loseEv
  dsimp only
  (repeat' split) <;> simp
@[simp] theorem coreOf_dropMessage (s : State) (mid : Nat) : coreOf (dropMessage s mid) = coreOf s := by simp [dropMessage]
@[simp] theorem coreOf_evHeldFlitTimeout (pkg port fid : Nat) (s : State) :
    coreOf (evHeldFlitTimeout pkg port fid s) = coreOf s := by
  unfold evHeldFlitTimeout
  split <;> simp
@[simp] theorem coreOf_announce (s : State) (about : Node) (inc : Nat) : coreOf (announce s about inc) = coreOf s := by simp [announce]
@[simp] theorem coreOf_loseUnit (s : State) (r : SlotRef) (c : Ctx) : coreOf (loseUnit s r c) = coreOf s := by simp [loseUnit]
@[simp] theorem coreOf_dropUnsent (s : State) (n : Node) : coreOf (dropUnsent s n) = coreOf s := by simp [dropUnsent]
@[simp] theorem coreOf_resetTile (s : State) (n : Node) : coreOf (resetTile s n) = coreOf s := by simp [resetTile]
@[simp] theorem coreOf_evTileReset (n : Node) (s : State) : coreOf (evTileReset n s) = coreOf s := by simp [evTileReset]
@[simp] theorem coreOf_loseFlits (s : State) (pkg : Nat) : coreOf (loseFlits s pkg) = coreOf s := by simp [loseFlits]
@[simp] theorem coreOf_noteService (s : State) (pkg code : Nat) : coreOf (noteService s pkg code) = coreOf s := by simp [noteService]
@[simp] theorem coreOf_evPortRetrain (pkg port : Nat) (s : State) : coreOf (evPortRetrain pkg port s) = coreOf s := by
  simp [evPortRetrain]

/-! #### Host -/
@[simp] theorem coreOf_evHostLinkTraining (pkg lanes : Nat) (s : State) : coreOf (evHostLinkTraining pkg lanes s) = coreOf s := by
  simp [evHostLinkTraining]
@[simp] theorem coreOf_setPower (s : State) (pkg i : Nat) (st : PowerSt) : coreOf (setPower s pkg i st) = coreOf s := by
  simp [setPower]
@[simp] theorem coreOf_applySec (s : State) (pkg : Nat) (r : SecReq) : coreOf (applySec s pkg r) = coreOf s := by
  unfold applySec
  (repeat' split) <;> simp
@[simp] theorem coreOf_evSecurityRequest (pkg : Nat) (r : SecReq) (s : State) : coreOf (evSecurityRequest pkg r s) = coreOf s := by
  simp [evSecurityRequest]
@[simp] theorem coreOf_relayIsland (s : State) (pkg island h : Nat) (h' : Nat) :
    coreOf (relayIsland s pkg island h h') = coreOf s := by simp [relayIsland]
@[simp] theorem coreOf_evOperatingPointChange (pkg island point : Nat) (forced : Bool) (s : State) :
    coreOf (evOperatingPointChange pkg island point forced s) = coreOf s := by simp [evOperatingPointChange]
@[simp] theorem coreOf_giveExtents (s : State) (j : Job) (pkg : Nat) : coreOf (giveExtents s j pkg) = coreOf s := by
  refine coreOf_foldl _ _ _ fun s e => ?_
  (repeat' split) <;> simp
@[simp] theorem coreOf_popQueue (s : State) (pkg k : Nat) : coreOf (popQueue s pkg k) = coreOf s := by simp [popQueue]
@[simp] theorem coreOf_evSubmissionTailWrite (pkg queue tail : Nat) (s : State) :
    coreOf (evSubmissionTailWrite pkg queue tail s) = coreOf s := by simp [evSubmissionTailWrite]
@[simp] theorem coreOf_evRootUnitBind (pkg : Nat) (job : Word) (s : State) : coreOf (evRootUnitBind pkg job s) = coreOf s := by
  unfold evRootUnitBind
  split <;> simp
@[simp] theorem coreOf_stopJob (s : State) (j : Job) : coreOf (stopJob s j) = coreOf s := by simp [stopJob]
@[simp] theorem coreOf_evHostCancelWrite (pkg : Nat) (handle : Word) (s : State) : coreOf (evHostCancelWrite pkg handle s) = coreOf s := by
  simp [evHostCancelWrite]
@[simp] theorem coreOf_evFirmwareImageLoad (pkg : Nat) (comp : Firmware) (image sig : List Byte) (version : Nat) (s : State) :
    coreOf (evFirmwareImageLoad pkg comp image sig version s) = coreOf s := by simp [evFirmwareImageLoad]
@[simp] theorem coreOf_evSpdmMessage (pkg : Nat) (msg : List Byte) (s : State) : coreOf (evSpdmMessage pkg msg s) = coreOf s := by
  simp [evSpdmMessage]
@[simp] theorem coreOf_evTileRetire (n : Node) (s : State) : coreOf (evTileRetire n s) = coreOf s := by simp [evTileRetire]
@[simp] theorem coreOf_evVaultRowCopy (n : Node) (row : Nat) (s : State) : coreOf (evVaultRowCopy n row s) = coreOf s := by
  simp [evVaultRowCopy]

/-! #### Records -/
@[simp] theorem coreOf_evErrorLogRequest (q : SvcReq) (s : State) : coreOf (evErrorLogRequest q s) = coreOf s := by
  unfold evErrorLogRequest
  split <;> simp
@[simp] theorem coreOf_evSoftError (e : ErrSite) (s : State) : coreOf (evSoftError e s) = coreOf s := by simp [evSoftError]

/-! #### Sfu -/
@[simp] theorem coreOf_evSfuServiceStart (n : Node) (s : State) : coreOf (evSfuServiceStart n s) = coreOf s := by
  unfold evSfuServiceStart
  dsimp only
  (repeat' split) <;> simp
@[simp] theorem coreOf_evSfuResultLand (n : Node) (id : Nat) (s : State) : coreOf (evSfuResultLand n id s) = coreOf s := by
  unfold evSfuResultLand
  dsimp only
  (repeat' split) <;> simp
@[simp] theorem coreOf_dropSfu (s : State) (r : SlotRef) (id : Nat) : coreOf (dropSfu s r id) = coreOf s := by
  unfold dropSfu
  split <;> simp

/-! #### Xlat -/
@[simp] theorem coreOf_dropEntries (s : State) (n : Node) (sc : TlbScope) (job : Word) (va : Option Word) :
    coreOf (dropEntries s n sc job va) = coreOf s := by
  unfold dropEntries
  split <;> simp
@[simp] theorem coreOf_evTlbInvRequest (pkg : Nat) (q : SvcReq) (s : State) : coreOf (evTlbInvRequest pkg q s) = coreOf s := by
  unfold evTlbInvRequest
  split <;> simp
@[simp] theorem coreOf_invAnswer (s : State) (w : Who) (c : Ctx) (p : Park) (a : SvcReply) :
    ∀ t, invAnswer s w c p a = some t → coreOf t = coreOf s := by
  unfold invAnswer
  split <;> simp
@[simp] theorem coreOf_xlatWord (s : State) (n : Node) (job : Word) (det : Bool) (va : Nat) : coreOf (xlatWord s n job det va).2 = coreOf s := by
  unfold xlatWord
  (repeat' split) <;> simp
@[simp] theorem coreOf_finishXlat (s : State) (w : Who) (c : Ctx) (d : SIx) (va : Word) : coreOf (finishXlat s w c d va) = coreOf s := by
  unfold finishXlat
  dsimp only
  split <;> simp
@[simp] theorem coreOf_dropToken (s : State) (r : SlotRef) (tok : Nat) : coreOf (dropToken s r tok) = coreOf s := by simp [dropToken]
@[simp] theorem coreOf_resumePark (s : State) (r : SlotRef) (c : Ctx) (p : Park) : coreOf (resumePark s r c p) = coreOf s := by
  unfold resumePark
  (repeat' split) <;> simp

/-! #### Replies -/
@[simp] theorem coreOf_finishGlobal (s : State) (w : Who) (c : Ctx) (p : Park) (a : MemReply) : coreOf (finishGlobal s w c p a) = coreOf s := by
  simp [finishGlobal]
@[simp] theorem coreOf_evGlobalReplyLand (w : Who) (a : MemReply) (s : State) : coreOf (evGlobalReplyLand w a s) = coreOf s := by
  unfold evGlobalReplyLand
  (repeat' split) <;> simp
@[simp] theorem coreOf_evServiceReplyLand (w : Who) (a : SvcReply) (s : State) : coreOf (evServiceReplyLand w a s) = coreOf s := by
  unfold evServiceReplyLand
  split
  · rfl
  · split
    · rename_i h
      exact coreOf_invAnswer _ _ _ _ _ _ h
    · (repeat' split) <;> simp
@[simp] theorem coreOf_evResultLanding (r : SlotRef) (uid : Nat) (dst : Reg) (val : VVal) (s : State) :
    coreOf (evResultLanding r uid dst val s) = coreOf s := by simp [evResultLanding]
@[simp] theorem coreOf_takeBack (s : State) (w : Who) (p : Park) : coreOf (takeBack s w p) = coreOf s := by
  unfold takeBack
  split <;> simp
@[simp] theorem coreOf_withdraw (s : State) (w : Who) (c : Ctx) (p : Park) : coreOf (withdraw s w c p) = coreOf s := by
  unfold withdraw
  split <;> simp
@[simp] theorem coreOf_evWaitLimitExpiry (w : Who) (s : State) : coreOf (evWaitLimitExpiry w s) = coreOf s := by
  unfold evWaitLimitExpiry
  split <;> simp
@[simp] theorem coreOf_evPacketOpenLimit (r : SlotRef) (uid : Nat) (s : State) : coreOf (evPacketOpenLimit r uid s) = coreOf s := by
  unfold evPacketOpenLimit
  (repeat' split) <;> simp
@[simp] theorem coreOf_evSupervisorMessageLand (m : SupMsg) (s : State) : coreOf (evSupervisorMessageLand m s) = coreOf s := by
  simp [evSupervisorMessageLand]
@[simp] theorem coreOf_evSupervisorMessageResend (m : SupMsg) (s : State) : coreOf (evSupervisorMessageResend m s) = coreOf s := by
  simp [evSupervisorMessageResend]
@[simp] theorem coreOf_countParked (s : State) (n : Node) : coreOf (countParked s n) = coreOf s := by
  unfold countParked
  split
  · rfl
  · refine coreOf_foldl _ _ _ fun s i => ?_
    dsimp only
    (repeat' split) <;> simp
@[simp] theorem coreOf_endTenancy (s : State) (n : Node) : coreOf (endTenancy s n) = coreOf s := by
  unfold endTenancy
  split
  · rfl
  · split <;> simp
@[simp] theorem coreOf_evRoundBoundary (n : Node) (s : State) : coreOf (evRoundBoundary n s) = coreOf s := by simp [evRoundBoundary]

/-! #### Exact -/
@[simp] theorem coreOf_xaMod (s : State) (r : SlotRef) (xs : List (BitVec 3)) (l : Nat) (d : BitVec 3) (f : XAcc → XAcc) :
    coreOf (xaMod s r xs l d f) = coreOf s := by simp [xaMod]
@[simp] theorem coreOf_xaFresh (s : State) (r : SlotRef) (x2 : BitVec 3) : coreOf (xaFresh s r x2) = coreOf s := by simp [xaFresh]

/-! #### Cycle -/
@[simp] theorem coreOf_codeWords (since n pa : Nat) (s : State) : coreOf (codeWords since n pa s).1 = coreOf s := by
  induction n generalizing pa s with
  | zero => rfl
  | succ k ih => simp [codeWords, ih]
@[simp] theorem coreOf_unparkSlot (s : State) (r : SlotRef) : coreOf (unparkSlot s r) = coreOf s := by simp [unparkSlot]
@[simp] theorem coreOf_saveAll (s : State) : coreOf (saveAll s) = coreOf s := by simp [saveAll]
@[simp] theorem coreOf_boundaries (s : State) : coreOf (boundaries s) = coreOf s := by simp [boundaries]


/-! ### What writes keeps the canonical form -/

/-- The canonical form of memory and of the device registers (log 3). -/
def Canon (m : List Host.Cell × List Host.Cell × List Word) : Prop := cellsWf m.1 = true ∧ cellsWf m.2.1 = true

theorem canon_mem {s : State} {m : List Host.Cell} (h : Canon (coreOf s)) {x : List Word} (w : cellsWf m = true) : Canon (m, s.bar0, x) := ⟨w, h.2⟩
theorem canon_bar0 {s : State} {b : List Host.Cell} (h : Canon (coreOf s)) {x : List Word} (w : cellsWf b = true) : Canon (s.mem, b, x) := ⟨h.1, w⟩
theorem Canon.mem {s : State} (h : Canon (coreOf s)) : cellsWf s.mem = true := h.1
theorem Canon.bar0 {s : State} (h : Canon (coreOf s)) : cellsWf s.bar0 = true := h.2

theorem canon_foldl {α : Type} (f : State → α → State) (keeps : ∀ s a, Canon (coreOf s) → Canon (coreOf (f s a))) (l : List α) (s : State)
    (h : Canon (coreOf s)) : Canon (coreOf (l.foldl f s)) := by
  induction l generalizing s with
  | nil => exact h
  | cons a l ih => exact ih _ (keeps s a h)

@[simp] theorem canon_physWrite {s : State} {pa : Nat} {b : List Byte} (h : Canon (coreOf s)) : Canon (coreOf (physWrite s pa b)) :=
  canon_mem (s := s) h (cellsWrite_wf b _ pa h.mem)
theorem canon_writeEntry {s : State} {j : Job} {n : Node} {seg ix : Nat} {e : RecEntry} (h : Canon (coreOf s)) :
    Canon (coreOf (writeEntry s j n seg ix e)) := by
  unfold writeEntry
  split
  · exact canon_physWrite h
  · exact h
theorem canon_recPoint {s : State} {n : Node} {w : Who} {job : Word} {recSeq : Option Nat} {kind aux addr : Nat} (h : Canon (coreOf s)) :
    Canon (coreOf (recPoint s n w job recSeq kind aux addr).2) := by
  unfold recPoint
  split
  · split
    · exact h
    · dsimp only
      split
      · split
        · exact canon_writeEntry (by simpa using h)
        · split
          · simpa using h
          · split <;> simpa using h
      · split
        · simpa using h
        · split
          · split <;> simpa using h
          · simpa using h
  · exact h
theorem canon_spRec {s : State} {q : SpReq} (h : Canon (coreOf s)) : Canon (coreOf (spRec s q).2) := by
  unfold spRec
  split
  · exact canon_recPoint h
  · exact h
theorem canon_spServe {s : State} {q : SpReq} (h : Canon (coreOf s)) : Canon (coreOf (spServe s q).1) := by
  unfold spServe
  extract_lets w e p u d
  have read : Canon (coreOf e.1) := by
    unfold e
    split <;> simpa using h
  have recorded : Canon (coreOf p.2) := canon_spRec read
  split
  · exact read
  · split
    · exact recorded
    · rw [coreOf_setTile]
      unfold u
      split <;> simpa using recorded
theorem canon_takeRemote {s : State} {n : Node} {x : SpReq × Bool} (h : Canon (coreOf s)) : Canon (coreOf (takeRemote s n x)) := by
  have wait (s : State) (h : Canon (coreOf s)) : Canon (coreOf (if ((tileAt s n).waiters.filter fun w => !w.isLocal).length < remoteEntries then
      modTile s n fun t => { t with waiters := t.waiters ++ [⟨x.1, false⟩] } else spReply s x.1 .busy)) := by
    split <;> simpa using h
  have served : Canon (coreOf (spServe s x.1).1) := canon_spServe h
  unfold takeRemote
  dsimp only
  split
  · simpa using h
  · split
    · simpa using h
    · split
      · simpa using h
      · split
        · split <;> simpa using h
        · split
          · simpa using served
          · simpa using served
          · split
            · simpa using served
            · simpa using served
            · split <;> simpa using served
theorem canon_serveWaiter {s : State} {n : Node} {w : Waiter} (h : Canon (coreOf s)) : Canon (coreOf (serveWaiter s n w).1) := by
  have served : Canon (coreOf (spServe s w.q).1) := canon_spServe h
  unfold serveWaiter
  dsimp only
  split
  · exact h
  · split
    · exact served
    · dsimp only
      split <;> simpa using served
    · dsimp only
      split <;> simpa using served
theorem canon_serveWord {n : Node} {full : Bool} (l : List Waiter) {s : State} (h : Canon (coreOf s)) :
    Canon (coreOf (serveWord n full l s)) := by
  induction l generalizing s with
  | nil => exact h
  | cons w l ih =>
    have served : Canon (coreOf (serveWaiter s n w).1) := canon_serveWaiter h
    unfold serveWord
    dsimp only
    split
    · split
      · split
        · exact served
        · exact ih served
      · exact ih h
    · split
      · exact ih h
      · split
        · exact served
        · exact ih served
    · exact ih h
theorem canon_serveWords {s : State} {n : Node} (h : Canon (coreOf s)) : Canon (coreOf (serveWords s n)) :=
  canon_foldl _ (fun _ _ h => canon_serveWord _ h) _ _ h
theorem canon_examineLdv {s : State} {n : Node} {x : Nat × Ctx} (h : Canon (coreOf s)) : Canon (coreOf (examineLdv s n x)) := by
  unfold examineLdv
  split
  · split
    · dsimp only
      split
      · split
        · simpa using h
        · split
          · rw [coreOf_serveLocal, coreOf_modTile]
            exact canon_recPoint (by simpa using h)
          · exact canon_recPoint (by simpa using h)
      · exact h
    · exact h
  · exact h
theorem canon_evScratchpadCycleService {n : Node} {q : Option (SpReq × Bool)} {s : State} (h : Canon (coreOf s)) :
    Canon (coreOf (evScratchpadCycleService n q s)) := by
  unfold evScratchpadCycleService
  split
  · simpa using h
  · extract_lets again ins taken words examined sems t
    have opened : Canon (coreOf taken) :=
      canon_foldl (fun s x => takeRemote s n x) (fun _ _ h => canon_takeRemote h) ins _ (by simpa using h)
    have served : Canon (coreOf examined) :=
      canon_foldl (fun s x => examineLdv s n x) (fun _ _ h => canon_examineLdv h) _ words (canon_serveWords opened)
    split
    · simpa [again] using h
    · split <;> simpa [sems, again] using served

/-! #### Memory controllers -/
theorem canon_ctrlWrite {s : State} {c : Node} {pa : Nat} {b : List Byte} (h : Canon (coreOf s)) : Canon (coreOf (ctrlWrite s c pa b)) := by
  unfold ctrlWrite
  split
  · exact canon_bar0 (s := s) h (cellsWrite_wf b _ pa h.bar0)
  · simpa using canon_physWrite h
theorem canon_ctrlAtom {s : State} {c : Node} {q : MemReq} {n : Nat} {f : Nat → Nat} (h : Canon (coreOf s)) :
    Canon (coreOf (ctrlAtom s c q n f).1) := by
  unfold ctrlAtom
  extract_lets e g old
  have read : Canon (coreOf e.1) := by simpa [e] using h
  have recorded : Canon (coreOf g.2) := by
    unfold g
    split
    · exact canon_recPoint read
    · exact read
  split
  · exact read
  · split
    · exact recorded
    · exact canon_ctrlWrite recorded
theorem canon_perform {s : State} {c : Node} {q : MemReq} (h : Canon (coreOf s)) : Canon (coreOf (perform s c q).1) := by
  unfold perform
  extract_lets atomic
  have updates (n : Nat) (f : Nat → Nat) : Canon (coreOf (atomic n f).1) := by
    unfold atomic
    split
    · exact h
    · exact canon_ctrlAtom h
  split
  · dsimp only
    split <;> simpa using h
  · split
    · exact h
    · exact canon_ctrlWrite h
  · exact updates _ _
  · exact updates _ _
  · exact updates _ _
  · extract_lets e
    have same : coreOf e.1 = coreOf s := coreOf_foldl_fst _ _ _ fun x a => coreOf_consume ..
    have read : Canon (coreOf e.1) := by rwa [same]
    split <;> exact read
theorem canon_performReply {s : State} {c : Node} {q : MemReq} (h : Canon (coreOf s)) : Canon (coreOf (performReply s c q)) := by
  have done : Canon (coreOf (perform s c q).1) := canon_perform h
  unfold performReply
  dsimp only
  split <;> simpa using done
theorem canon_applyWindow {s : State} {c : Node} {es : List MemReq} (h : Canon (coreOf s)) : Canon (coreOf (applyWindow s c es)) :=
  canon_foldl (fun s q => performReply s c q) (fun _ _ h => canon_performReply h) _ s h
theorem canon_enterWindow {s : State} {c : Node} {q : MemReq} (h : Canon (coreOf s)) : Canon (coreOf (enterWindow s c q)) := by
  unfold enterWindow
  split
  · simpa using h
  · split
    · simpa using h
    · rw [coreOf_openWindow]
      exact canon_applyWindow (by simpa using h)
theorem canon_evMemoryMergeStep {c : Node} {q : Option MemReq} {s : State} (h : Canon (coreOf s)) :
    Canon (coreOf (evMemoryMergeStep c q s)) := by
  unfold evMemoryMergeStep
  split
  · split <;> simpa using h
  · refine canon_foldl _ (fun u q hu => ?_) _ _
      (canon_foldl (fun s q => performReply s c q) (fun _ _ h => canon_performReply h) _ _ (by simpa using h))
    split
    · exact canon_performReply hu
    · exact canon_enterWindow hu
theorem canon_evAtomDetWindowApply {c : Node} {win : Nat} {s : State} (h : Canon (coreOf s)) :
    Canon (coreOf (evAtomDetWindowApply c win s)) := by
  unfold evAtomDetWindowApply
  split
  · split
    · exact canon_applyWindow (by simpa using h)
    · exact h
  · exact h
theorem canon_evPullRequestServe {p : PullReq} {s : State} (h : Canon (coreOf s)) : Canon (coreOf (evPullRequestServe p s)) :=
  canon_evMemoryMergeStep h


/-! #### Allocators -/
theorem scramble_wf (n : Nat) {m : List Host.Cell} {a ctr : Nat} (h : cellsWf m = true) : cellsWf (scramble m a ctr n) = true := by
  induction n generalizing m a with
  | zero => exact h
  | succ n ih => exact ih (cellSet_wf m a _ h)
theorem canon_takeTable {s t : State} {n : Node} {job : Word} {a : Nat} (h : Canon (coreOf s)) (e : takeTable s n job = some (a, t)) :
    Canon (coreOf t) := by
  have clear (s : State) (h : Canon (coreOf s)) (a : Nat) :
      Canon (coreOf { s with mem := s.mem.filter fun x => ¬(a ≤ x.1 ∧ x.1 < a + 8192) }) := canon_mem (s := s) h (filter_wf _ _ h.mem)
  unfold takeTable at e
  dsimp only at e
  split at e
  · cases e
    exact clear _ (by simpa using h) _
  · simp only [Option.map_eq_some_iff] at e
    obtain ⟨x, -, e⟩ := e
    cases e
    exact clear _ (by simpa using h) _
theorem canon_mapFrom {n : Node} {job : Word} {va leaf : Nat} (lvl : Nat) {s t : State} {tbl : Nat} (h : Canon (coreOf s))
    (e : mapFrom s n job va leaf lvl tbl = some t) : Canon (coreOf t) := by
  induction lvl generalizing s tbl with
  | zero =>
    cases e
    exact canon_physWrite h
  | succ lvl ih =>
    unfold mapFrom at e
    dsimp only at e
    split at e
    · exact ih h e
    · split at e
      · cases e
      · split at e
        · cases e
        · exact ih (canon_physWrite (canon_takeTable h ‹_›)) e
theorem canon_foldlM {α : Type} (f : State → α → Option State) (keeps : ∀ s a t, Canon (coreOf s) → f s a = some t → Canon (coreOf t))
    (l : List α) {s t : State} (h : Canon (coreOf s)) (e : l.foldlM f s = some t) : Canon (coreOf t) := by
  induction l generalizing s with
  | nil =>
    cases e
    exact h
  | cons a l ih =>
    obtain ⟨u, hu, e⟩ := Option.bind_eq_some_iff.1 e
    exact ih (keeps s a u h hu) e
theorem canon_mapPage {s t : State} {n : Node} {j : Job} {va leaf : Nat} (h : Canon (coreOf s)) (e : mapPage s n j va leaf = some t) :
    Canon (coreOf t) :=
  canon_foldlM _ (fun _ _ _ h e => canon_mapFrom 3 h e) _ h e
theorem canon_mapPages {n : Node} {j : Job} (k : Nat) {s t : State} {va : Nat} (h : Canon (coreOf s)) (e : mapPages s n j k va = some t) :
    Canon (coreOf t) := by
  induction k generalizing s va with
  | zero =>
    cases e
    exact h
  | succ k ih =>
    unfold mapPages at e
    split at e
    · exact ih h e
    · split at e
      · cases e
      · dsimp only at e
        split at e
        · cases e
        · rename_i t mapped
          exact ih (canon_mapPage (by simpa using h) mapped) e
theorem canon_scrambleVa {n : Node} {job : Word} (fuel : Nat) {s : State} {va len : Nat} (h : Canon (coreOf s)) :
    Canon (coreOf (scrambleVa s n job fuel va len)) := by
  induction fuel generalizing s va len with
  | zero => exact h
  | succ fuel ih =>
    unfold scrambleVa
    split
    · exact h
    · dsimp only
      split
      · exact ih (canon_mem (s := s) h (scramble_wf _ h.mem))
      · exact ih h
theorem canon_serveAlloc {s : State} {n : Node} {q : SvcReq} {heap : Nat} {size : Word} (h : Canon (coreOf s)) :
    Canon (coreOf (serveAlloc s n q heap size).1) := by
  unfold serveAlloc
  split
  · exact h
  · dsimp only
    split
    · simpa using h
    · split
      · simpa using h
      · split
        · simpa using h
        · rename_i t mapped
          have map : Canon (coreOf t) := canon_mapPages _ (by simpa using h) mapped
          exact canon_scrambleVa _ (by simpa using map)
theorem canon_serveFree {s : State} {q : SvcReq} {heap : Nat} {ptr : Word} (h : Canon (coreOf s)) :
    Canon (coreOf (serveFree s q heap ptr).1) := by
  unfold serveFree
  split
  · exact h
  · exact canon_scrambleVa _ (by simpa using h)
theorem canon_serveHeap {s : State} {n : Node} {q : SvcReq} (h : Canon (coreOf s)) : Canon (coreOf (serveHeap s n q).1) := by
  unfold serveHeap
  split
  · exact canon_serveAlloc h
  · exact canon_serveFree h
  · exact h
  · simpa using h
  · exact h

/-! #### Requests in their turn -/
theorem canon_serveTurn {s : State} {turn : Bool} {peer key : Nat} {ev : Ev} {f : State → State} (h : Canon (coreOf s))
    (keeps : ∀ u, Canon (coreOf u) → Canon (coreOf (f u))) : Canon (coreOf (serveTurn s turn peer key ev f)) := by
  unfold serveTurn
  have slot : Canon (coreOf (serveSlot s peer).2) := by simpa using h
  split
  · exact keeps _ h
  · dsimp only
    split
    · exact keeps _ slot
    · simpa using slot
theorem canon_evAllocatorRequest {peer : Node} {q : SvcReq} {s : State} (h : Canon (coreOf s)) :
    Canon (coreOf (evAllocatorRequest peer q s)) := by
  unfold evAllocatorRequest
  extract_lets hop
  split
  · simpa using h
  · refine canon_serveTurn h fun u hu => ?_
    have heap : Canon (coreOf (serveHeap u peer q).1) := canon_serveHeap hu
    split
    · simpa [hop] using hu
    · dsimp only
      split
      · simpa using heap
      · simpa [hop] using heap
theorem canon_evSpawnRequestLand {q : SpawnReq} {s : State} (h : Canon (coreOf s)) : Canon (coreOf (evSpawnRequestLand q s)) := by
  unfold evSpawnRequestLand
  refine canon_serveTurn h fun u hu => ?_
  split
  · simpa using hu
  · dsimp only
    have recorded : Canon (coreOf (recPoint u q.target q.who q.desc.job q.recSeq 5 0 0).2) := canon_recPoint hu
    split <;> simpa using recorded
theorem canon_evRecordSegmentRequest {q : SvcReq} {s : State} (h : Canon (coreOf s)) : Canon (coreOf (evRecordSegmentRequest q s)) := by
  unfold evRecordSegmentRequest
  split
  · split
    · exact h
    · refine canon_serveTurn h fun u hu => ?_
      rename_i v _ _
      have recorded : Canon (coreOf (recPoint u q.peer q.who q.job q.recSeq 6 0 v.toNat).2) := canon_recPoint hu
      dsimp only
      split <;> simpa using recorded
  · rw [coreOf_svcServe _ _ _ _ _ _ fun u => by simp]
    exact h
  · exact h

/-! #### Jobs, the host and resets -/
theorem canon_writeCompletion {s : State} {pkg : Nat} {j : Job} {status reason : Nat} (h : Canon (coreOf s)) :
    Canon (coreOf (writeCompletion s pkg j status reason)) := by
  unfold writeCompletion
  dsimp only
  split
  · exact h
  · rw [coreOf_modPkg]
    exact canon_physWrite h
theorem canon_refuseJob {s : State} {job : Word} {reason : Nat} (h : Canon (coreOf s)) : Canon (coreOf (refuseJob s job reason)) := by
  unfold refuseJob
  split
  · exact h
  · exact canon_foldl _ (fun _ _ h => canon_writeCompletion h) _ _ (by simpa using h)
theorem canon_copySection {s : State} {pkg : Nat} {job : Word} {x : Section} (h : Canon (coreOf s)) :
    Canon (coreOf (copySection s pkg job x)) := by
  refine canon_foldl _ (fun u a hu => ?_) _ _ h
  dsimp only
  split
  · exact canon_physWrite hu
  · exact hu
theorem canon_startJob {s : State} {job : Word} (h : Canon (coreOf s)) : Canon (coreOf (startJob s job)) := by
  unfold startJob
  split
  · exact h
  · rename_i j _
    extract_lets copied given begun shared
    have copies : Canon (coreOf copied) :=
      canon_foldl _ (fun s p hs => canon_foldl (fun s x => copySection s p job x) (fun _ _ h => canon_copySection h) (sectionsOf s p j.r) s hs)
        j.pkgs s h
    rw [coreOf_foldl _ _ _ fun s p => coreOf_push ..]
    simpa [shared, begun, given] using copies
theorem canon_jobFor {s t : State} {pkg : Nat} {b : List Byte} {r : JobRec} {j : Job} (h : Canon (coreOf s))
    (e : jobFor s pkg b r = some (t, j)) : Canon (coreOf t) := by
  unfold jobFor at e
  split at e
  · cases e
    exact h
  · simp only [Option.map_eq_some_iff] at e
    obtain ⟨k, -, e⟩ := e
    cases e
    exact h
theorem canon_evJobRecordAccept {pkg queue : Nat} {s : State} (h : Canon (coreOf s)) : Canon (coreOf (evJobRecordAccept pkg queue s)) := by
  unfold evJobRecordAccept
  extract_lets q b r again
  split
  · exact h
  · split
    · simpa [again] using h
    · rename_i t j found
      extract_lets rooted take why taken attested
      have roots : Canon (coreOf rooted) := by simpa [rooted] using canon_jobFor h found
      have takes (u : State) (h : Canon (coreOf u)) : Canon (coreOf (take u)) := by simpa [take] using h
      have took : Canon (coreOf taken) := takes _ roots
      have attests : Canon (coreOf attested) := by
        unfold attested
        split <;> simpa using took
      split
      · split
        · exact canon_writeCompletion took
        · exact took
      · split
        · exact canon_refuseJob took
        · split
          · simpa [again] using h
          · split
            · split
              · exact canon_startJob attests
              · exact attests
            · exact attests
theorem canon_dropKey {s : State} {j : Job} (h : Canon (coreOf s)) : Canon (coreOf (dropKey s j)) :=
  canon_mem (s := s) h (unknownBytes_wf _ _ _ h.mem)
theorem canon_finishJob {s : State} {j : Job} (h : Canon (coreOf s)) : Canon (coreOf (finishJob s j)) := by
  unfold finishJob
  extract_lets freed ended cut dropped
  have frees : coreOf freed = coreOf s := by
    refine coreOf_foldl _ _ _ fun s x => ?_
    split
    · exact coreOf_foldl _ _ _ fun s i => coreOf_freeEp ..
    · rfl
  have cuts : Canon (coreOf cut) := by simpa [cut, ended, frees] using h
  refine canon_foldl _ (fun u p hu => ?_) _ _ (by simpa [dropped] using canon_dropKey cuts)
  dsimp only
  split
  · simpa using canon_writeCompletion hu
  · exact canon_writeCompletion hu
theorem canon_evJobEnd {job : Word} {s : State} (h : Canon (coreOf s)) : Canon (coreOf (evJobEnd job s)) := by
  unfold evJobEnd
  split
  · exact h
  · split
    · exact h
    · extract_lets ending stopped
      have stops : Canon (coreOf stopped) := by
        unfold stopped ending
        split <;> simpa using h
      split
      · exact stops
      · split
        · exact canon_finishJob stops
        · exact stops
theorem canon_evBar0RegisterWrite {pkg off : Nat} {data : List Byte} {s : State} (h : Canon (coreOf s)) :
    Canon (coreOf (evBar0RegisterWrite pkg off data s)) := by
  unfold evBar0RegisterWrite
  split
  · exact h
  · dsimp only
    rw [coreOf_foldl _ _ _ fun s k => coreOf_modPkg ..]
    exact canon_bar0 (s := s) h (cellsWrite_wf _ _ _ h.bar0)
theorem canon_evHostCxlMemAccess {pkg addr : Nat} {write : Option (List Byte)} {s : State} (h : Canon (coreOf s)) :
    Canon (coreOf (evHostCxlMemAccess pkg addr write s)) := by
  unfold evHostCxlMemAccess
  split
  · exact h
  · split
    · split
      · exact canon_physWrite h
      · exact h
    · split
      · exact h
      · dsimp only
        split
        · simpa using canon_physWrite h
        · exact h
theorem canon_packageLeft {pkg : Nat} {s : State} (h : Canon (coreOf s)) : Canon (coreOf (packageLeft s pkg)) := by
  unfold packageLeft
  extract_lets jobs cut fresh noted
  have cuts : Canon (coreOf cut) := canon_bar0 (s := s) h (filter_wf _ _ h.bar0)
  have notes : coreOf noted = coreOf cut := by
    refine (coreOf_foldl _ _ _ fun s j => ?_).trans (coreOf_modPkg ..)
    dsimp only
    split <;> simp
  rw [coreOf_announce, notes]
  exact cuts
theorem canon_evPackageReset {pkg : Nat} {s : State} (h : Canon (coreOf s)) : Canon (coreOf (evPackageReset pkg s)) := by
  cases here_ : hasPkg s pkg with
  | false => rwa [evPackageReset_none s pkg here_]
  | true =>
    rw [evPackageReset_eq s pkg here_]
    refine canon_packageLeft ?_
    rwa [coreOf_foldl _ _ _ fun s i => coreOf_resetTile .., coreOf_loseFlits]

/-! ### Acts and forms -/

/-- Each state that an act carries is in the canonical form. -/
def Act.Sound : Act → Prop
  | .done s | .gone s | .jump s _ | .wait s .. => Canon (coreOf s)
  | .retry .. | .trap .. => True
  | .trapIn e .. => ∀ u, Canon (coreOf u) → Canon (coreOf (e u))
section
variable {s : State}
@[simp] theorem sound_done : (Act.done s).Sound ↔ Canon (coreOf s) := Iff.rfl
@[simp] theorem sound_gone : (Act.gone s).Sound ↔ Canon (coreOf s) := Iff.rfl
@[simp] theorem sound_jump {t : Word} : (Act.jump s t).Sound ↔ Canon (coreOf s) := Iff.rfl
@[simp] theorem sound_wait {id : Nat} {k : ParkKind} {lk lx : Nat} {va : Word} {aux : List Word} :
    (Act.wait s id k lk lx va aux).Sound ↔ Canon (coreOf s) := Iff.rfl
end

/-- The state that an outcome leads to is in the canonical form. -/
def OutSound (o : Outc) : Prop := ∀ t, o = .next t → Canon (coreOf t)
@[simp] theorem outSound_next {t : State} : OutSound (.next t) ↔ Canon (coreOf t) := ⟨fun h => h t rfl, fun h _ e => by cases e; exact h⟩
@[simp] theorem outSound_fault {f : Fault} : OutSound (.fault f) := fun _ e => by cases e

theorem canon_applyAct {s : State} {r : SlotRef} {uid : Nat} {f : Form} {a : Act} (h : Canon (coreOf s)) (sound : a.Sound) :
    Canon (coreOf (applyAct s r uid f a)) := by
  cases a with
  | done s' => simpa [applyAct] using sound
  | gone s' => exact sound
  | jump s' t => simpa [applyAct] using sound
  | wait s' => simpa [applyAct] using sound
  | trap => simpa [applyAct] using h
  | trapIn e => simpa [applyAct] using sound s h
  | retry k =>
    unfold applyAct
    cases k <;> simpa using h

section
variable {f : Form} {body : State → SlotRef → Ctx → Act} {s : State}
theorem canon_runBody {r : SlotRef} {c : Ctx} (h : Canon (coreOf s)) (keeps : ∀ u, Canon (coreOf u) → (body u r c).Sound) :
    Canon (coreOf (runBody f body s r c)) := by
  have read : Canon (coreOf (readRegs s r c f.srcs).1) := by simpa using h
  unfold runBody
  dsimp only
  split
  · simpa using h
  · split
    · simpa using h
    · split
      · simpa using h
      · split
        · simpa using h
        · split
          · simpa using h
          · split
            · simpa using h
            · split
              · simpa using h
              · split
                · simpa using h
                · exact canon_applyAct read (keeps _ (by split <;> simpa using h))
/-- A form keeps the canonical form if its body does. -/
theorem sound_runForm (h : Canon (coreOf s)) (keeps : ∀ u r c, Canon (coreOf u) → (body u r c).Sound) : OutSound (runForm f body s) := by
  unfold runForm
  dsimp only
  split
  · exact outSound_fault
  · split
    · simpa using h
    · split
      · simpa using h
      · split
        · simpa using h
        · split
          · split <;> simpa using h
          · exact outSound_next.2 (canon_runBody (by simpa using h) fun u => keeps u _ _)
end
section
variable {s : State} {r : SlotRef} {c : Ctx}
@[simp] theorem sound_results {f : List Reg} {l : Nat} {ws : List (Reg × VVal)} : (results s r c f l ws).Sound ↔ Canon (coreOf s) := by
  simp [results]
@[simp] theorem sound_sendClosed {src : List Reg} {p : BitVec 3} : (sendClosed src s r c p).Sound ↔ Canon (coreOf s) := sound_results
@[simp] theorem sound_svcAct {peer : Node} {rec_ : Option Nat} {k : SvcKind} {limKind : Nat} {ev : SvcReq → Ev} :
    (svcAct s r c peer rec_ k limKind ev).Sound ↔ Canon (coreOf s) := by
  simp [svcAct]
@[simp] theorem sound_rollAct {g : Region} {code detail : Nat} : (rollAct s r g code detail).Sound ↔ Canon (coreOf s) := by
  simp [rollAct]
@[simp] theorem sound_slowAct {va kind : Nat} : (slowAct s r c va kind).Sound ↔ Canon (coreOf s) := by
  simp [slowAct]
@[simp] theorem sound_sendRemote {ea : Word} {op : SpOp} {limited : Bool} : (sendRemote s r c ea op limited).Sound ↔ Canon (coreOf s) := by
  simp [sendRemote]

theorem sound_keeping {g : State → State} {a : Act} (sound : a.Sound) (keeps : ∀ u, Canon (coreOf u) → Canon (coreOf (g u))) :
    (a.keeping g).Sound := by
  cases a with
  | trapIn e => exact fun u h => sound _ (keeps u h)
  | _ => exact sound

variable (h : Canon (coreOf s))
include h
theorem sound_transfer {t : Word} : (transfer s t).Sound := by
  unfold transfer
  split
  · trivial
  · exact h
theorem sound_returnFrom {skip : Bool} : (returnFrom s r c skip).Sound := by
  unfold returnFrom
  split
  · trivial
  · exact sound_transfer (by simpa using h)
theorem sound_linkTo {srcs : List Reg} {d : SIx} {x t : Word} : (linkTo s r c srcs d x t).Sound := by
  unfold linkTo
  split
  · trivial
  · simpa using h
omit h in
theorem sound_release {sc : Scope} {at_ : Node} {a : Act} (sound : a.Sound) : (release s r c sc at_ a).Sound := by
  unfold release
  split
  · exact sound
  · trivial
theorem sound_arrayFind {arr lo hi : Nat} {f : State → Act} (keeps : ∀ u, Canon (coreOf u) → (f u).Sound) :
    (arrayFind arr lo hi s r c f).Sound := by
  unfold arrayFind
  extract_lets read
  have reads (u : State) (hu : Canon (coreOf u)) : Canon (coreOf (read u).1) := by simpa [read] using hu
  split
  · exact keeps s h
  · split
    · exact reads
    · exact sound_keeping (keeps _ (reads s h)) reads
theorem sound_padFind {off n : Nat} {f : State → Act} (keeps : ∀ u, Canon (coreOf u) → (f u).Sound) : (padFind s r c off n f).Sound :=
  sound_arrayFind h keeps
theorem sound_tdFind {i lo n : Nat} {f : State → Act} (keeps : ∀ u, Canon (coreOf u) → (f u).Sound) : (tdFind s r c i lo n f).Sound :=
  sound_arrayFind h keeps
theorem sound_capture {i : DIx} {f : State → TDesc → Act} (keeps : ∀ u d, Canon (coreOf u) → (f u d).Sound) : (capture s r c i f).Sound := by
  refine sound_tdFind h fun u hu => ?_
  split
  · trivial
  · exact keeps u _ hu
theorem sound_xlFind {va : Word} {f : State → Act} (keeps : ∀ u, Canon (coreOf u) → (f u).Sound) : (xlFind s r c va f).Sound := by
  unfold xlFind
  extract_lets find
  have finds (u : State) (hu : Canon (coreOf u)) : Canon (coreOf (find u).1) := by simpa [find] using hu
  split
  · exact keeps s h
  · split
    · exact finds
    · exact sound_keeping (keeps _ (finds s h)) finds
theorem sound_missAct {va kind lvl : Nat} : (missAct s r c va kind lvl).Sound := by
  unfold missAct
  split
  · split
    · simpa using h
    · simpa using h
    · simpa using h
    · trivial
  · simpa using h
theorem sound_withXlate {kind : Nat} {va : Word} {f : State → Nat → Act} (keeps : ∀ u pa, Canon (coreOf u) → (f u pa).Sound) :
    (withXlate s r c kind va f).Sound := by
  refine sound_xlFind h fun u hu => ?_
  split
  · rename_i hit
    exact keeps _ _ (by rwa [coreOf_xlate hit])
  · simpa using hu
  · exact sound_missAct hu
  · trivial
theorem sound_spawnForm {isAt : Bool} {ret : Option SIx} {a b x : SIx} : (spawnForm isAt ret a b x s r c).Sound := by
  unfold spawnForm
  dsimp only
  split
  · trivial
  · refine sound_release ?_
    rw [sound_wait, coreOf_asks]
    split <;> simpa using h
theorem sound_holdStore {x : HeldStore} : (holdStore s r c x).Sound := by
  unfold holdStore
  split
  · trivial
  · simpa using h
omit h in
theorem sound_padForm {ea : Word} {n al : Nat} {one : Bool} {loc : Nat → Act} {rem : Act} (near : ∀ off, (loc off).Sound) (far : rem.Sound) :
    (padForm ea n al one s r loc rem).Sound := by
  unfold padForm
  split
  · split
    · trivial
    · split
      · trivial
      · split
        · split
          · exact near _
          · trivial
        · exact far
  · split
    · trivial
    · split
      · trivial
      · exact near _
theorem sound_syncLocal {off : Nat} {op : SpOp} {ea : Word} {ws : Word → List (Reg × VVal)} {srcs : List Reg} :
    (syncLocal s r c off op ea ws srcs).Sound := by
  unfold syncLocal
  extract_lets w q x
  have served : Canon (coreOf x.1) := canon_spServe (by simpa [w] using h)
  split
  · simpa [w] using h
  · split
    · exact fun u hu => canon_spServe hu
    · rw [sound_results]
      split <;> simpa using served
    · split
      · trivial
      · exact served
theorem sound_semWaitAct {src : List Reg} {n : BitVec 8} {dec : Bool} {th : Word} {too : Option (PIx × Word)} :
    (semWaitAct src n dec th too s r c).Sound := by
  unfold semWaitAct
  dsimp only
  split
  · trivial
  · split
    · simpa using h
    · split
      · simpa using h
      · split <;> simpa using h
theorem sound_barArriveAct {n : BitVec 7} {f : State → Nat → Act} (keeps : ∀ u e, Canon (coreOf u) → (f u e).Sound) :
    (barArriveAct n s r c f).Sound := by
  unfold barArriveAct
  dsimp only
  split
  · trivial
  · split
    · trivial
    · split
      · exact keeps _ _ (by simpa using h)
      · trivial
theorem sound_barWaitAct {n : BitVec 7} : (barWaitAct n s r).Sound := by
  unfold barWaitAct
  dsimp only
  split <;> simpa using h
theorem sound_loadAct {va : Word} {n : Nat} : (loadAct va n s r c).Sound := by
  unfold loadAct
  split
  · trivial
  · refine sound_withXlate h fun u pa hu => ?_
    split
    · trivial
    · simpa using hu
theorem sound_storeAct {va : Word} {b : List Byte} {sc : Scope} {od : Ord} : (storeAct va b sc od s r c).Sound := by
  unfold storeAct
  split
  · trivial
  · split
    · refine sound_withXlate h fun u pa hu => ?_
      split
      · trivial
      · exact sound_holdStore hu
    · split
      · trivial
      · refine sound_release (sound_withXlate h fun u pa hu => ?_)
        split
        · trivial
        · dsimp only
          split <;> simpa using hu
theorem sound_sendAtom {i : Instr} {va : Word} {n : Nat} {v e : Word} : (sendAtom i va n v e s r c).Sound := by
  unfold sendAtom
  split
  · simpa using h
  · refine sound_withXlate h fun u pa hu => ?_
    split
    · trivial
    · simpa using hu
theorem sound_atomAct {i : Instr} {va : Word} {n : Nat} {v e : Word} {sizeOk remoteOk : Bool} {sc : Scope} {od : Ord} :
    (atomAct i va n v e sizeOk remoteOk sc od s r c).Sound := by
  unfold atomAct
  dsimp only
  split
  · trivial
  · split
    · trivial
    · split
      · trivial
      · split
        · trivial
        · split
          · split
            · trivial
            · simpa using h
          · refine sound_release ?_
            split
            · split
              · trivial
              · exact sound_syncLocal h
            · exact sound_sendAtom h
theorem sound_drainPark {moved : Bool} : (drainPark moved s r).Sound := by
  unfold drainPark
  split
  · simpa using h
  · trivial
end
section
variable {s : State} {r : SlotRef} {c : Ctx} (h : Canon (coreOf s))
include h
theorem sound_drainStores {fuel : Nat} {moved : Bool} : (drainStores fuel moved s r).Sound := by
  induction fuel generalizing moved s with
  | zero => exact h
  | succ fuel ih =>
    unfold drainStores
    extract_lets c
    split
    · simpa using h
    · rename_i st _ _
      split
      · split
        · exact sound_drainPark h
        · exact ih (by simpa using h)
      · split
        · exact sound_drainPark h
        · split
          · split
            · simpa using h
            · exact ih (by simpa using h)
          · split
            · exact sound_drainPark h
            · extract_lets e t
              have read : Canon (coreOf t) := by simpa [t, e] using h
              split
              · exact ih (by simpa using read)
              · split
                · rename_i hit
                  have hits : Canon (coreOf _) := (coreOf_xlate hit).symm ▸ read
                  split
                  · exact ih (by split <;> simpa using hits)
                  · exact ih (by simpa using hits)
                · simpa using read
                · split
                  · exact sound_missAct read
                  · exact ih (by simpa using read)
                · exact ih (by simpa using read)
theorem sound_readPiece {va : Word} {need : Nat} : (readPiece s r c va need).Sound := by
  unfold readPiece
  extract_lets got a n keep
  have keeps (x : Act) (hx : x.Sound) : (keep x).Sound := by
    cases x <;> exact hx
  split
  · trivial
  · refine keeps _ (sound_withXlate h fun u pa hu => ?_)
    split
    · trivial
    · simpa using hu
theorem sound_withBytes {va : Word} {need : Nat} {f : List Byte → Act} (keeps : ∀ b, (f b).Sound) : (withBytes s r c va need f).Sound := by
  unfold withBytes
  split
  · exact sound_readPiece h
  · exact keeps _
theorem sound_installImage {m : PImage} {d : SIx} : (installImage s r c m d).Sound := by
  unfold installImage
  extract_lets t fin
  have fins (u : State) (i : Nat) (hu : Canon (coreOf u)) : (fin u i).Sound := by simpa [fin] using hu
  split
  · exact fins _ _ h
  · split
    · trivial
    · exact fins _ _ (by simpa using h)
theorem sound_prepEp {ep : EIx} {img : Word} {ok : Bool} {f : PImage → State → EpRef → Act}
    (keeps : ∀ m u e, Canon (coreOf u) → (f m u e).Sound) : (prepEp s r c ep img ok f).Sound := by
  unfold prepEp
  dsimp only
  split
  · trivial
  · split
    · trivial
    · split
      · trivial
      · split
        · trivial
        · refine sound_arrayFind h fun u hu => ?_
          split
          · trivial
          · exact keeps _ _ _ (by simpa using hu)

omit h in
/-- What the strainer gives is in the canonical form (R167). -/
def Strain.Sound : Strain → Prop
  | .no a => a.Sound
  | .closed _ => True
  | .edge s .. => Canon (coreOf s)
theorem sound_strain {ep : EIx} {active : Bool} {lim : Endpoint → Option Word} {find : PImage → Nat → Option Trans} :
    (strain s r c ep active lim find).Sound := by
  unfold strain
  dsimp only
  split
  · trivial
  · split
    · trivial
    · split
      · trivial
      · split
        · trivial
        · split
          · trivial
          · split
            · exact fun u hu => by simpa using hu
            · split
              · trivial
              · show Canon (coreOf _)
                rwa [coreOf_readImg]
theorem sound_strain_no {ep : EIx} {active : Bool} {lim : Endpoint → Option Word} {find : PImage → Nat → Option Trans} {a : Act}
    (is : strain s r c ep active lim find = .no a) : a.Sound := (is ▸ sound_strain h : (Strain.no a).Sound)
theorem sound_strain_edge {ep : EIx} {active : Bool} {lim : Endpoint → Option Word} {find : PImage → Nat → Option Trans} {u : State}
    {x : Endpoint} {t : Trans} (is : strain s r c ep active lim find = .edge u x t) : Canon (coreOf u) :=
  (is ▸ sound_strain h : (Strain.edge u x t).Sound)
theorem sound_sendAct {src : List Reg} {ep : EIx} {mt : BitVec 6} {fin rel : Bool} {p : BitVec 3} {len : Nat} {lim : Bool} {b : List Byte} :
    (sendAct src ep mt fin rel p len lim b s r c).Sound := by
  unfold sendAct
  dsimp only
  split
  · exact sound_strain_no h ‹_›
  · simpa using h
  · rename_i u x t is
    have hu := sound_strain_edge h is
    split
    · trivial
    · split
      · trivial
      · exact sound_release (by simpa using hu)
theorem sound_recvAct {ep : EIx} {mt : BitVec 6} {p : BitVec 3} {len l : Nat} {lim : Bool} {b : SIx} {put : List Byte → List (Reg × VVal)} :
    (recvAct ep mt p len l lim b put s r c).Sound := by
  unfold recvAct
  extract_lets e out
  have outs (u : State) (b : List Byte) (w : Word) (ok : Bool) (hu : Canon (coreOf u)) : (out u b w ok).Sound := by simpa [out] using hu
  split
  · exact sound_strain_no h ‹_›
  · exact outs _ _ _ _ h
  · rename_i u x t is
    have hu := sound_strain_edge h is
    split
    · trivial
    · split
      · split
        · exact outs _ _ _ _ hu
        · exact outs _ _ _ _ (by split <;> simpa using hu)
      · exact outs _ _ _ _ hu
theorem sound_delegPark {x : EpRef} {limKind : Nat} : (delegPark s r c x limKind).Sound := by
  unfold delegPark
  split
  · trivial
  · simpa using h
theorem sound_installTd {d : DIx} {a : Word} {b : List Byte} : (installTd s r d a b).Sound := by
  unfold installTd
  split
  · trivial
  · simpa using h
theorem sound_enqueue {mx : Bool} {sync : ESync} {fn : Nat} {kind : EngKind} {f : Nat → State → State}
    (keeps : ∀ id u, coreOf (f id u) = coreOf u) : (enqueue s r c mx sync fn kind f).Sound := by
  unfold enqueue
  split
  · trivial
  · simpa [keeps] using h
theorem sound_pushChanAct {sync : ESync} {d a : TDesc} {di : DIx} : (pushChanAct sync d a di s r c).Sound := by
  unfold pushChanAct
  dsimp only
  split
  · trivial
  · split
    · exact sound_strain_no h ‹_›
    · exact sound_enqueue h fun _ _ => rfl
    · rename_i u x t is
      have hu := sound_strain_edge h is
      split
      · trivial
      · split
        · trivial
        · exact sound_enqueue hu fun _ _ => by simp
theorem sound_fpEnd {a : FAcc} {srcs : List Reg} {l : Nat} {ws : List (Reg × VVal)} : (fpEnd s r c a srcs l ws).Sound := by
  unfold fpEnd
  dsimp only
  split
  · exact fun u hu => by simpa using hu
  · simpa using h
theorem sound_arrayForm {beats : Nat} {body : State → SlotRef → Ctx → Nat → Act} (keeps : ∀ u b, Canon (coreOf u) → (body u r c b).Sound) :
    (arrayForm beats body s r c).Sound := by
  unfold arrayForm
  dsimp only
  split
  · trivial
  · exact keeps _ _ (by simpa using h)
theorem sound_redForm {t : Ty} {body : State → SlotRef → Ctx → Nat → Act} (keeps : ∀ u b, Canon (coreOf u) → (body u r c b).Sound) :
    (redForm t body s r c).Sound := by
  unfold redForm
  split
  · exact keeps _ _ h
  · exact sound_arrayForm h keeps
theorem sound_mxAct {f : State → Act} (keeps : ∀ u, Canon (coreOf u) → (f u).Sound) : (mxAct f s r c).Sound := by
  unfold mxAct
  split
  · trivial
  · split
    · trivial
    · exact keeps _ (by simpa using h)
theorem sound_mxEnqueue {sync : ESync} {fn : Nat} {kind : EngKind} {f : State → State} (keeps : ∀ u, coreOf (f u) = coreOf u) :
    (mxEnqueue s r c sync fn kind f).Sound := sound_enqueue h fun _ => keeps
theorem sound_streamAct {sync : ESync} {fn : Nat} {kind : EngKind} {d : TDesc} {a : DIx} {row0 : Nat} {acc : Bool} :
    (streamAct sync fn kind d a row0 acc s r c).Sound := by
  unfold streamAct
  dsimp only
  split
  · trivial
  · split
    · trivial
    · split
      · trivial
      · split
        · trivial
        · split
          · trivial
          · split
            · trivial
            · exact sound_mxEnqueue h fun u => by split <;> simp
theorem sound_allocAct {n : BitVec 4} {size : Word} : (allocAct n size s r c).Sound := by
  unfold allocAct
  split
  · trivial
  · exact sound_svcAct.2 h
theorem sound_askPhase {x : Word} {bytes : Nat} {words : List Word} : (askPhase s r c x bytes words).Sound := by
  have sent : (svcAct s r c (svcN r.pkg) none (.xchReserve (targetPhase x) (remoteHome x).pkg bytes) 0 .exchangeReservation).Sound :=
    sound_svcAct.2 h
  unfold askPhase
  split
  · rename_i is
    rwa [is] at sent
  · exact sent
theorem sound_dispAct {pkg : Nat} {k : SvcKind} {limKind : Nat} : (dispAct pkg k limKind s r c).Sound := sound_svcAct.2 h
theorem sound_heapAct {k : SvcKind} : (heapAct s r c k).Sound := sound_svcAct.2 h
theorem sound_refusedAct {code : Nat} {va : Word} : (refusedAct code va s r c).Sound := sound_dispAct h
theorem sound_withDesc {va : Word} {f : LaunchDesc → Option Nat → Act} (keeps : ∀ d b, (f d b).Sound) : (withDesc va s r c f).Sound := by
  unfold withDesc
  split
  · exact sound_refusedAct h
  · exact sound_withBytes h fun _ => keeps _ _
omit h in
theorem sound_keepVa {va : Word} {a : Act} (sound : a.Sound) : (keepVa va a).Sound := by
  cases a <;> exact sound
theorem sound_sfuIssue {srcs : List Reg} {occ : Nat} {a : FAcc} {ws : List (Reg × VVal)} : (sfuIssue srcs occ a ws s r c).Sound := by
  unfold sfuIssue
  dsimp only
  split
  · trivial
  · split <;> simpa using h
theorem sound_invAct {sc : TlbScope} {va : Option Word} : (invAct sc va s r c).Sound := sound_release (sound_svcAct.2 h)
theorem sound_answerToken {tok : Word} {f : State → SlotRef → Ctx → Park → State} {g : State → Node → Bool → EngCmd → State}
    (resumes : ∀ r c p, coreOf (f s r c p) = coreOf s) (goes : ∀ n mx q, coreOf (g s n mx q) = coreOf s) :
    (answerToken tok f g s r c).Sound := by
  unfold answerToken
  split
  · split
    · simpa [resumes] using h
    · trivial
  · split
    · split
      · simpa [goes] using h
      · trivial
    · trivial
theorem sound_xaFind {f : State → Act} (keeps : ∀ u, Canon (coreOf u) → (f u).Sound) (xs : List (BitVec 3)) : (xaFind f xs s r c).Sound := by
  induction xs generalizing s with
  | nil => exact keeps s h
  | cons x xs ih => exact sound_arrayFind h fun u hu => ih hu
theorem sound_xaHeld {xs reads : List (BitVec 3)} {f : State → Act} (keeps : ∀ u, Canon (coreOf u) → (f u).Sound) :
    (xaHeld xs reads f s r c).Sound := by
  unfold xaHeld
  split
  · trivial
  · split
    · trivial
    · exact sound_xaFind h keeps reads
theorem sound_xaFinish {xs : List (BitVec 3)} {l : Nat} {d : BitVec 3} {y : XVal} {a : FAcc} {srcs : List Reg} :
    (xaFinish s r c xs l d y a srcs).Sound := sound_fpEnd (by simpa using h)
omit h in
theorem sound_xaPad {ea : Word} {f : Nat → Act} (keeps : ∀ off, (f off).Sound) : (xaPad ea s r f).Sound := by
  unfold xaPad
  generalize 552 = n
  split
  · trivial
  · split
    · trivial
    · split
      · trivial
      · exact keeps _
end

/-! ### Each form -/

section
variable {s : State} (h : Canon (coreOf s))
include h
/-- A form that only lands results. -/
theorem sound_land {f : Form} {src : SlotRef → Ctx → List Reg} {l : SlotRef → Ctx → Nat} {ws : State → SlotRef → Ctx → List (Reg × VVal)} :
    OutSound (runForm f (fun s r c => results s r c (src r c) (l r c) (ws s r c)) s) :=
  sound_runForm h fun _ _ _ hu => sound_results.2 hu
theorem sound_aluDiv {i : Instr} {hd : Hdr} {d a b : SIx} {op : Word → Word → Word} : OutSound (aluDiv i hd d a b op s) := by
  refine sound_runForm h fun u r c hu => ?_
  split
  · trivial
  · exact sound_results.2 hu
theorem sound_fpLanes {i : Instr} {hd : Hdr} {t : Ty} {rm : Rm} {m : VMask} {d : VIx} {vs : List VIx} {l : Nat} {array : Bool}
    {f : (Nat → Nat → Nat) → Nat → Rnd → Res} : OutSound (fpLanes i hd t rm m d vs l array f s) := by
  refine sound_runForm h fun u r c hu => ?_
  split
  · exact sound_arrayForm hu fun _ _ hv => sound_fpEnd hv
  · exact sound_fpEnd hu
theorem sound_sfuForm {i : Instr} {hd : Hdr} {t : Ty} {rm : Rm} {m : VMask} {d a : VIx} {fn : Sfn} :
    OutSound (sfuForm i hd t rm m d a fn s) := sound_runForm h fun _ _ _ hu => sound_sfuIssue hu

/-! Control and scalar forms (chapters 04 and 05). -/
theorem sound_execExit {hd : Hdr} : OutSound (execExit hd s) := by
  refine sound_runForm h fun u r c hu => ?_
  split
  · trivial
  · simpa using hu
theorem sound_execPark {hd : Hdr} : OutSound (execPark hd s) := by
  refine sound_runForm h fun u r c hu => ?_
  split
  · simpa using hu
  · trivial
theorem sound_execSleepr {hd : Hdr} {n : BitVec 16} : OutSound (execSleepr hd n s) := by
  refine sound_runForm h fun u r c hu => ?_
  split <;> simpa using hu
theorem sound_execMtsr {hd : Hdr} {a : SIx} {n : SpReg} : OutSound (execMtsr hd a n s) := by
  refine sound_runForm h fun u r c hu => ?_
  split
  · simpa using hu
  · trivial
theorem sound_execSpawnRet {hd : Hdr} {a : SIx} : OutSound (execSpawnRet hd a s) := by
  refine sound_runForm h fun u r c hu => ?_
  split
  · trivial
  · split
    · trivial
    · dsimp only
      split
      · simpa using hu
      · exact sound_release (by simpa using hu)
theorem sound_execLaunch {hd : Hdr} {d a : SIx} : OutSound (execLaunch hd d a s) :=
  sound_runForm h fun _ _ _ hu => sound_withDesc hu fun _ _ => sound_release (sound_keepVa (sound_dispAct hu))
theorem sound_execGraphAdd {hd : Hdr} {d a b : SIx} : OutSound (execGraphAdd hd d a b s) :=
  sound_runForm h fun _ _ _ hu => sound_withDesc hu fun _ _ => sound_keepVa (sound_dispAct hu)
theorem sound_execDoneWait {hd : Hdr} {lvl : Level} {poll : Bool} {d a : SIx} : OutSound (execDoneWait hd lvl poll d a s) := by
  refine sound_runForm h fun u r c hu => ?_
  split
  · exact sound_refusedAct hu
  · split
    · exact sound_refusedAct hu
    · exact sound_dispAct hu
theorem sound_execCancel {hd : Hdr} {lvl : Level} {a : SIx} : OutSound (execCancel hd lvl a s) := by
  refine sound_runForm h fun u r c hu => ?_
  split
  · exact sound_refusedAct hu
  · exact sound_dispAct hu
theorem sound_execVextr {hd : Hdr} {t : Ty} {d : SIx} {a : VIx} {b : SIx} : OutSound (execVextr hd t d a b s) := by
  refine sound_runForm h fun u r c hu => ?_
  split
  · trivial
  · exact sound_results.2 hu
theorem sound_execVins {hd : Hdr} {t : Ty} {d : VIx} {a b : SIx} : OutSound (execVins hd t d a b s) := by
  refine sound_runForm h fun u r c hu => ?_
  split
  · trivial
  · exact sound_results.2 hu

/-! Exact accumulators and the protocol store (chapters 06 and 08). -/
theorem sound_execXaGet {hd : Hdr} {x : BitVec 3} {d : PIx} : OutSound (execXaGet hd x d s) := by
  refine sound_runForm h fun u r c hu => ?_
  dsimp only
  split
  · trivial
  · split <;> simpa using hu
theorem sound_execXaPut {hd : Hdr} {x : BitVec 3} : OutSound (execXaPut hd x s) :=
  sound_runForm h fun _ _ _ hu => sound_xaHeld hu fun _ hv => by simpa using hv
theorem sound_execXaClr {hd : Hdr} {x : BitVec 3} : OutSound (execXaClr hd x s) :=
  sound_runForm h fun _ _ _ hu => sound_xaHeld hu fun _ hv => by simpa using hv
theorem sound_execXaSign {hd : Hdr} {x : BitVec 3} {cond : XaCond} {d : PIx} : OutSound (execXaSign hd x cond d s) :=
  sound_runForm h fun _ _ _ hu => sound_xaHeld hu fun _ hv => sound_fpEnd (by simpa using hv)
theorem sound_execXaRnd {hd : Hdr} {t : Ty} {rm : Rm} {x : BitVec 3} {d : SIx} : OutSound (execXaRnd hd t rm x d s) :=
  sound_runForm h fun _ _ _ hu => sound_xaHeld hu fun _ hv => sound_fpEnd (by simpa using hv)
theorem sound_execXaSave {hd : Hdr} {x : BitVec 3} {a : SIx} {ofs : BitVec 32} : OutSound (execXaSave hd x a ofs s) :=
  sound_runForm h fun _ _ _ hu => sound_xaHeld hu fun _ hv => sound_xaPad fun _ => by simpa using hv
theorem sound_execXaLoad {hd : Hdr} {x : BitVec 3} {a : SIx} {ofs : BitVec 32} : OutSound (execXaLoad hd x a ofs s) :=
  sound_runForm h fun _ _ _ hu => sound_xaHeld hu fun _ hv => sound_xaPad fun _ => sound_padFind hv fun _ hw => sound_fpEnd (by simpa using hw)
theorem sound_execProtLoad {hd : Hdr} {d a : SIx} {ofs : BitVec 32} : OutSound (execProtLoad hd d a ofs s) := by
  refine sound_runForm h fun u r c hu => ?_
  dsimp only
  split
  · trivial
  · split
    · exact sound_readPiece hu
    · trivial
    · split
      · exact sound_installImage hu
      · trivial
theorem sound_execProtFree {hd : Hdr} {a : SIx} : OutSound (execProtFree hd a s) := by
  refine sound_runForm h fun u r c hu => ?_
  dsimp only
  split
  · trivial
  · simpa using hu

/-! Channels (chapter 08). -/
theorem sound_execEpGet {hd : Hdr} {d a : SIx} : OutSound (execEpGet hd d a s) := by
  refine sound_runForm h fun u r c hu => ?_
  dsimp only
  split
  · trivial
  · split
    · exact sound_results.2 hu
    · simpa using hu
theorem sound_execEpPut {hd : Hdr} {a : SIx} : OutSound (execEpPut hd a s) := by
  refine sound_runForm h fun u r c hu => ?_
  dsimp only
  split
  · trivial
  · split
    · trivial
    · split
      · trivial
      · simpa using hu
theorem sound_execChOpen {hd : Hdr} {ep : EIx} {a b : SIx} : OutSound (execChOpen hd ep a b s) := by
  refine sound_runForm h fun u r c hu => sound_prepEp hu fun _ v e hv => ?_
  dsimp only
  rw [sound_wait, coreOf_asks]
  split <;> simpa using hv
theorem sound_execChAccept {hd : Hdr} {ep : EIx} {d a b : SIx} : OutSound (execChAccept hd ep d a b s) := by
  refine sound_runForm h fun u r c hu => sound_prepEp hu fun _ v e hv => ?_
  dsimp only
  rw [sound_wait]
  split <;> simpa using hv
theorem sound_execChClose {hd : Hdr} {ep : EIx} : OutSound (execChClose hd ep s) := by
  refine sound_runForm h fun u r c hu => ?_
  dsimp only
  split
  · trivial
  · split
    · split
      · simpa using hu
      · trivial
    · split <;> simpa using hu
theorem sound_execChAbort {hd : Hdr} {ep : EIx} : OutSound (execChAbort hd ep s) := by
  refine sound_runForm h fun u r c hu => ?_
  split
  · trivial
  · simpa using hu
theorem sound_execChState {hd : Hdr} {ep : EIx} {d : SIx} : OutSound (execChState hd ep d s) := by
  refine sound_runForm h fun u r c hu => ?_
  split
  · trivial
  · exact sound_results.2 hu
theorem sound_execChBindreg {hd : Hdr} {ep : EIx} {d : BindDst} : OutSound (execChBindreg hd ep d s) := by
  refine sound_runForm h fun u r c hu => ?_
  dsimp only
  split
  · trivial
  · split
    · trivial
    · split
      · simpa using hu
      · split
        · trivial
        · split
          · trivial
          · simpa using hu
theorem sound_execSelect {hd : Hdr} {ep : EIx} {lbl : BitVec 2} {rel : Bool} {p : BitVec 3} : OutSound (execSelect hd ep lbl rel p s) := by
  refine sound_runForm h fun u r c hu => ?_
  dsimp only
  split
  · exact sound_strain_no hu ‹_›
  · simpa using hu
  · rename_i v x t is
    have hv := sound_strain_edge hu is
    split
    · trivial
    · split
      · trivial
      · exact sound_release (by simpa using hv)
theorem sound_execOffer {hd : Hdr} {ep : EIx} {lbl : BitVec 2} {p : BitVec 3} {b : SIx} : OutSound (execOffer hd ep lbl p b s) := by
  refine sound_runForm h fun u r c hu => ?_
  dsimp only
  split
  · exact sound_strain_no hu ‹_›
  · simpa using hu
  · rename_i v x t is
    have hv := sound_strain_edge hu is
    split
    · trivial
    · split <;> simpa using hv
theorem sound_execChDeleg {hd : Hdr} {ey : EIx} {rel : Bool} {p : BitVec 3} {ex : BitVec 7} : OutSound (execChDeleg hd ey rel p ex s) := by
  refine sound_runForm h fun u r c hu => ?_
  dsimp only
  split
  · exact sound_strain_no hu ‹_›
  · simpa using hu
  · rename_i v x t is
    have hv := sound_strain_edge hu is
    split
    · trivial
    · split
      · exact sound_delegPark hv
      · split
        · exact sound_delegPark hv
        · simpa using hv
theorem sound_execChAdopt {hd : Hdr} {ey : EIx} {p : BitVec 3} {ez : BitVec 7} {d : SIx} : OutSound (execChAdopt hd ey p ez d s) := by
  refine sound_runForm h fun u r c hu => ?_
  dsimp only
  split
  · exact sound_strain_no hu ‹_›
  · simpa using hu
  · rename_i v x t is
    have hv := sound_strain_edge hu is
    split
    · trivial
    · split
      · split
        · trivial
        · split
          · trivial
          · simpa using hv
      · simpa using hv

/-! Turns, couplers, scratchpad, semaphores and barriers (chapters 09 to 11). -/
theorem sound_execTurnSet {hd : Hdr} {a b x : SIx} : OutSound (execTurnSet hd a b x s) := by
  refine sound_runForm h fun u r c hu => ?_
  split
  · trivial
  · simpa using hu
theorem sound_execTurnGet {hd : Hdr} {w : TurnW} {d a : SIx} : OutSound (execTurnGet hd w d a s) := by
  refine sound_runForm h fun u r c hu => ?_
  dsimp only
  split
  · trivial
  · exact sound_arrayFind hu fun _ hv => sound_results.2 hv
theorem sound_execRcConf {hd : Hdr} {n : BitVec 4} {a : SIx} : OutSound (execRcConf hd n a s) := by
  refine sound_runForm h fun u r c hu => ?_
  dsimp only
  split
  · trivial
  · split
    · trivial
    · split
      · trivial
      · simpa using hu
theorem sound_execRcBind {hd : Hdr} {n : BitVec 5} {ep : BitVec 7} {d : SIx} : OutSound (execRcBind hd n ep d s) := by
  refine sound_runForm h fun u r c hu => ?_
  dsimp only
  split
  · trivial
  · split
    · trivial
    · split
      · trivial
      · split
        · exact sound_results.2 hu
        · simpa using hu
theorem sound_execRcRead {hd : Hdr} {n : BitVec 4} {w : RcW} {d : SIx} : OutSound (execRcRead hd n w d s) := by
  refine sound_runForm h fun u r c hu => ?_
  split
  · trivial
  · exact sound_results.2 hu
theorem sound_execRcFree {hd : Hdr} {n : BitVec 4} : OutSound (execRcFree hd n s) := by
  refine sound_runForm h fun u r c hu => ?_
  split
  · trivial
  · simpa using hu
theorem sound_execLd {hd : Hdr} {sz : Sz} {sc : Scope} {od : Ord} {sx : Bool} {d a : SIx} {ofs : BitVec 32} :
    OutSound (execLd hd sz sc od sx d a ofs s) :=
  sound_runForm h fun _ _ _ hu => sound_padForm (fun _ => sound_padFind hu fun _ hv => sound_results.2 hv) (sound_sendRemote.2 hu)
theorem sound_execSt {hd : Hdr} {sz : Sz} {sc : Scope} {od : Ord} {a b : SIx} {ofs : BitVec 32} :
    OutSound (execSt hd sz sc od a b ofs s) := by
  refine sound_runForm h fun u r c hu => ?_
  extract_lets ea n data put
  have puts (va : Word) (x : Act) (hx : x.Sound) : (put va x).Sound := by
    unfold put
    split
    · exact sound_holdStore hu
    · exact sound_release hx
  exact sound_padForm (fun _ => puts _ _ (by simpa using hu)) (puts _ _ (sound_sendRemote.2 hu))
theorem sound_execLdv {hd : Hdr} {sc : Scope} {od : Ord} {d : VIx} {a : SIx} {ofs : BitVec 32} : OutSound (execLdv hd sc od d a ofs s) :=
  sound_runForm h fun _ _ _ hu => sound_padForm (fun _ => sound_padFind hu fun _ hv => sound_results.2 hv) trivial
theorem sound_execStv {hd : Hdr} {sc : Scope} {od : Ord} {a : SIx} {b : VIx} {ofs : BitVec 32} : OutSound (execStv hd sc od a b ofs s) :=
  sound_runForm h fun _ _ _ hu => sound_padForm (fun _ => sound_release (by simpa using hu)) trivial
theorem sound_execLdSync {hd : Hdr} {sc : Scope} {od : Ord} {cons : Bool} {d a : SIx} {ofs : BitVec 32} :
    OutSound (execLdSync hd sc od cons d a ofs s) :=
  sound_runForm h fun _ _ _ hu => sound_padForm (fun _ => sound_syncLocal hu) (sound_sendRemote.2 hu)
theorem sound_execStFill {hd : Hdr} {sc : Scope} {od : Ord} {ovr : Bool} {a b : SIx} {ofs : BitVec 32} :
    OutSound (execStFill hd sc od ovr a b ofs s) :=
  sound_runForm h fun _ _ _ hu => sound_padForm (fun _ => sound_release (sound_syncLocal hu)) (sound_release (sound_sendRemote.2 hu))
theorem sound_execStReset {hd : Hdr} {sc : Scope} {od : Ord} {a b : SIx} {ofs : BitVec 32} : OutSound (execStReset hd sc od a b ofs s) :=
  sound_runForm h fun _ _ _ hu => sound_padForm (fun _ => sound_release (by simpa using hu)) (sound_release (sound_sendRemote.2 hu))
theorem sound_execLdvSync {hd : Hdr} {sc : Scope} {od : Ord} {cons : Bool} {d : VIx} {a : SIx} {ofs : BitVec 32} :
    OutSound (execLdvSync hd sc od cons d a ofs s) :=
  sound_runForm h fun _ _ _ hu => sound_padForm (fun _ => by simpa using hu) trivial
theorem sound_execSemSig {hd : Hdr} {n : BitVec 8} {a : SIx} : OutSound (execSemSig hd n a s) := by
  refine sound_runForm h fun u r c hu => ?_
  split
  · trivial
  · exact sound_release (by simpa using hu)
theorem sound_execSemSet {hd : Hdr} {n : BitVec 8} {a : SIx} : OutSound (execSemSet hd n a s) := by
  refine sound_runForm h fun u r c hu => ?_
  split
  · trivial
  · exact sound_release (by simpa using hu)
theorem sound_execBarArm {hd : Hdr} {n : BitVec 7} {a b : SIx} : OutSound (execBarArm hd n a b s) := by
  refine sound_runForm h fun u r c hu => ?_
  dsimp only
  split
  · trivial
  · simpa using hu
theorem sound_execBarArrive {hd : Hdr} {n : BitVec 7} : OutSound (execBarArrive hd n s) :=
  sound_runForm h fun _ _ _ hu => sound_barArriveAct hu fun _ _ hv => hv
theorem sound_execBarWait {hd : Hdr} {n : BitVec 7} : OutSound (execBarWait hd n s) := by
  refine sound_runForm h fun u r c hu => ?_
  split
  · trivial
  · exact sound_barWaitAct hu
theorem sound_execBarSync {hd : Hdr} {n : BitVec 7} : OutSound (execBarSync hd n s) :=
  sound_runForm h fun _ _ _ hu => sound_barArriveAct hu fun _ _ hv => sound_barWaitAct hv
theorem sound_execBarDisarm {hd : Hdr} {n : BitVec 7} : OutSound (execBarDisarm hd n s) := by
  refine sound_runForm h fun u r c hu => ?_
  dsimp only
  split
  · trivial
  · simpa using hu

/-! Global memory, regions and the heap (chapters 12 to 14). -/
theorem sound_execGpref {hd : Hdr} {sz : Sz} {sc : Scope} {a : SIx} {ofs : BitVec 32} : OutSound (execGpref hd sz sc a ofs s) := by
  refine sound_runForm h fun u r c hu => ?_
  dsimp only
  split
  · rename_i hit
    rw [sound_done, coreOf_xlate hit]
    simpa using hu
  · simpa using hu
theorem sound_execRgnBegin {hd : Hdr} {d : SIx} {off : BitVec 48} : OutSound (execRgnBegin hd d off s) := by
  refine sound_runForm h fun u r c hu => ?_
  dsimp only
  split
  · trivial
  · split
    · trivial
    · split
      · trivial
      · split
        · trivial
        · simpa using hu
theorem sound_execRgnCommit {hd : Hdr} {cc : Bool} : OutSound (execRgnCommit hd cc s) := by
  refine sound_runForm h fun u r c hu => ?_
  split
  · trivial
  · rename_i g _
    split
    · exact sound_drainStores hu
    · split
      · trivial
      · split
        · exact sound_drainStores (by simpa using hu)
        · rename_i i va v e _
          refine sound_release ?_
          split
          · extract_lets off w x t closed
            have served : Canon (coreOf x.1) := canon_spServe (by simpa [w] using hu)
            split
            · trivial
            · split
              · exact fun _ hv => canon_spServe hv
              · split
                · trivial
                · exact served
              · have counted : Canon (coreOf t) := by simpa [t] using served
                split
                · simpa using counted
                · refine sound_drainStores ?_
                  rw [coreOf_foldl _ _ _ fun s x => coreOf_land ..]
                  simpa [closed] using counted
          · exact sound_sendAtom hu
theorem sound_execRgnAbort {hd : Hdr} : OutSound (execRgnAbort hd s) := by
  refine sound_runForm h fun u r c hu => ?_
  split
  · trivial
  · simpa using hu
theorem sound_execFree {hd : Hdr} {n : BitVec 4} {a : SIx} : OutSound (execFree hd n a s) := by
  refine sound_runForm h fun u r c hu => ?_
  split
  · simpa using hu
  · exact sound_release (sound_heapAct hu)
theorem sound_execHeapInfoQuota {hd : Hdr} {n : BitVec 4} {a : SIx} : OutSound (execHeapInfoQuota hd n a s) := by
  refine sound_runForm h fun u r c hu => ?_
  split
  · trivial
  · exact sound_heapAct hu
theorem sound_execTlbInv {hd : Hdr} {sc : TlbScope} {a : SIx} : OutSound (execTlbInv hd sc a s) := by
  refine sound_runForm h fun u r c hu => ?_
  split
  · trivial
  · exact sound_invAct hu
theorem sound_execXlat {hd : Hdr} {d a : SIx} : OutSound (execXlat hd d a s) := by
  refine sound_runForm h fun u r c hu => ?_
  dsimp only
  split
  · exact sound_results.2 hu
  · rw [sound_wait, coreOf_push, coreOf_newWait]
    split <;> simpa using hu
theorem sound_execXlatResume {hd : Hdr} {a : SIx} : OutSound (execXlatResume hd a s) :=
  sound_runForm h fun _ _ _ hu => sound_answerToken hu (fun _ _ _ => by simp) fun _ _ _ => by split <;> simp
theorem sound_execXlatRefuse {hd : Hdr} {a : SIx} : OutSound (execXlatRefuse hd a s) :=
  sound_runForm h fun _ _ _ hu => sound_answerToken hu (fun _ _ _ => by simp) fun _ _ _ => by simp
end
section
variable {s : State} (h : Canon (coreOf s))
include h
/-! Engines (chapters 15 and 16). -/
theorem sound_execTdSet {hd : Hdr} {sp : Bool} {d : DIx} {a : SIx} : OutSound (execTdSet hd sp d a s) := by
  refine sound_runForm h fun u r c hu => ?_
  dsimp only
  split
  · split
    · trivial
    · split
      · trivial
      · exact sound_padFind hu fun _ hv => sound_installTd hv
  · split
    · trivial
    · exact sound_withBytes hu fun _ => sound_installTd hu
theorem sound_execTdGet {hd : Hdr} {w : BitVec 3} {d : SIx} {a : DIx} : OutSound (execTdGet hd w d a s) :=
  sound_runForm h fun _ _ _ hu => sound_tdFind hu fun _ hv => sound_results.2 hv
theorem sound_execCpPush {hd : Hdr} {sync : ESync} {rsem : BitVec 8} {rsv : Bool} {tr : Tr} {d a : DIx} {b : SIx} :
    OutSound (execCpPush hd sync rsem rsv tr d a b s) := by
  refine sound_runForm h fun u r c hu => ?_
  split
  · trivial
  · refine sound_capture hu fun v dd hv => ?_
    dsimp only
    split
    · trivial
    · refine sound_capture hv fun w da hw => ?_
      split
      · trivial
      · split
        · exact sound_enqueue hw fun _ _ => rfl
        · split
          · exact sound_enqueue hw fun _ _ => rfl
          · exact sound_pushChanAct hw
theorem sound_execCpFill {hd : Hdr} {sync : ESync} {d : DIx} {b : SIx} : OutSound (execCpFill hd sync d b s) := by
  refine sound_runForm h fun u r c hu => ?_
  split
  · trivial
  · refine sound_capture hu fun v dd hv => ?_
    split
    · trivial
    · exact sound_enqueue hv fun _ _ => rfl
theorem sound_execCpPullreq {hd : Hdr} {sync : ESync} {rsem : BitVec 8} {rsv : Bool} {d a : DIx} :
    OutSound (execCpPullreq hd sync rsem rsv d a s) := by
  refine sound_runForm h fun u r c hu => ?_
  split
  · trivial
  · refine sound_capture hu fun v dd hv => sound_capture hv fun w da hw => ?_
    split
    · trivial
    · exact sound_enqueue hw fun _ _ => rfl
theorem sound_execMxLds {hd : Hdr} {sync : ESync} {a : DIx} : OutSound (execMxLds hd sync a s) := by
  refine sound_runForm h fun u r c hu => sound_mxAct hu fun v hv => sound_capture hv fun w d hw => ?_
  split
  · trivial
  · exact sound_mxEnqueue hw fun _ => by simp
theorem sound_execMxSwap {hd : Hdr} {sync : ESync} : OutSound (execMxSwap hd sync s) :=
  sound_runForm h fun _ _ _ hu => sound_mxAct hu fun _ hv => sound_mxEnqueue hv fun _ => by simp
theorem sound_execMxStream {hd : Hdr} {sync : ESync} {row0 : BitVec 9} {acc : Bool} {a : DIx} : OutSound (execMxStream hd sync row0 acc a s) := by
  refine sound_runForm h fun u r c hu => sound_mxAct hu fun v hv => sound_capture hv fun w d hw => ?_
  split
  · trivial
  · exact sound_streamAct hw
theorem sound_execMxConv {hd : Hdr} {sync : ESync} {row0 : BitVec 9} {acc : Bool} {a : DIx} {b : SIx} :
    OutSound (execMxConv hd sync row0 acc a b s) := by
  refine sound_runForm h fun u r c hu => sound_mxAct hu fun v hv => ?_
  dsimp only
  split
  · trivial
  · refine sound_capture hv fun w d hw => ?_
    split
    · trivial
    · exact sound_streamAct hw
theorem sound_execMxDrainV {hd : Hdr} {sync : ESync} {row0 : BitVec 9} {rm : Rm} {clr : Bool} {vt : Vt} {d : VIx} :
    OutSound (execMxDrainV hd sync row0 rm clr vt d s) :=
  sound_runForm h fun _ _ _ hu => sound_mxAct hu fun _ hv => sound_mxEnqueue hv fun _ => by simp
theorem sound_execMxDrainD {hd : Hdr} {sync : ESync} {row0 : BitVec 9} {rm : Rm} {clr : Bool} {tqt : Tqt} {d : DIx} :
    OutSound (execMxDrainD hd sync row0 rm clr tqt d s) := by
  refine sound_runForm h fun u r c hu => sound_mxAct hu fun v hv => sound_capture hv fun w d hw => ?_
  split
  · trivial
  · dsimp only
    split
    · trivial
    · split
      · trivial
      · exact sound_mxEnqueue hw fun _ => by split <;> simp
theorem sound_execMxClr {hd : Hdr} {sync : ESync} {row0 : BitVec 9} {int : Bool} {fill : Fill} {b : SIx} :
    OutSound (execMxClr hd sync row0 int fill b s) := by
  refine sound_runForm h fun u r c hu => sound_mxAct hu fun v hv => ?_
  dsimp only
  split
  · trivial
  · exact sound_mxEnqueue hv fun _ => by simp
theorem sound_execMxUprog {hd : Hdr} {sync : ESync} {on uty : Bool} {b : SIx} : OutSound (execMxUprog hd sync on uty b s) := by
  refine sound_runForm h fun u r c hu => sound_mxAct hu fun v hv => ?_
  split
  · trivial
  · exact sound_mxEnqueue hv fun _ => by simp
theorem sound_execMxStat {hd : Hdr} {w : MxW} {clr : Bool} {d : SIx} : OutSound (execMxStat hd w clr d s) := by
  refine sound_runForm h fun u r c hu => sound_mxAct hu fun v hv => ?_
  rw [sound_results]
  split <;> simpa using hv

/-! Fences, exchange, records and supervision (chapters 17 to 22). -/
theorem sound_execFence {hd : Hdr} {sc : Scope} {eR eW lR lW : Bool} : OutSound (execFence hd sc eR eW lR lW s) := by
  refine sound_runForm h fun u r c hu => ?_
  split
  · trivial
  · exact hu
theorem sound_execFenceEng {hd : Hdr} {sc : Scope} {inn out : Bool} : OutSound (execFenceEng hd sc inn out s) := by
  refine sound_runForm h fun u r c hu => ?_
  split
  · trivial
  · exact hu
theorem sound_execDemPost {hd : Hdr} {a b : SIx} : OutSound (execDemPost hd a b s) := by
  refine sound_runForm h fun u r c hu => ?_
  dsimp only
  split
  · trivial
  · exact sound_svcAct.2 hu
theorem sound_execDemClose {hd : Hdr} {d : SIx} : OutSound (execDemClose hd d s) := by
  refine sound_runForm h fun u r c hu => ?_
  split
  · trivial
  · exact sound_svcAct.2 hu
theorem sound_execCalWait {hd : Hdr} {ep : EIx} {p : BitVec 3} {atStart : Bool} {d : SIx} : OutSound (execCalWait hd ep p atStart d s) := by
  refine sound_runForm h fun u r c hu => ?_
  extract_lets e out
  have outs (u : State) (ws : List Nat) (ok : Bool) (hu : Canon (coreOf u)) : (out u ws ok).Sound := by simpa [out] using hu
  split
  · trivial
  · split
    · exact sound_strain_no hu ‹_›
    · exact outs _ _ _ hu
    · rename_i v x t is
      have hv := sound_strain_edge hu is
      split
      · trivial
      · split
        · dsimp only
          split
          · rw [sound_wait, coreOf_push, coreOf_foldl _ _ _ fun s g => by split <;> simp, coreOf_newWait]
            exact hv
          · exact outs _ _ _ (by simpa using hv)
        · exact outs _ _ _ hv
theorem sound_execXchSend {hd : Hdr} {sync : ESync} {rsem : BitVec 8} {rsv : Bool} {d a : DIx} {b : SIx} :
    OutSound (execXchSend hd sync rsem rsv d a b s) := by
  refine sound_runForm h fun u r c hu => ?_
  dsimp only
  split
  · exact sound_enqueue hu fun _ _ => rfl
  · split
    · trivial
    · refine sound_capture hu fun v dd hv => sound_capture hv fun w da hw => ?_
      split
      · trivial
      · split
        · trivial
        · split
          · trivial
          · split
            · trivial
            · exact sound_askPhase hw
theorem sound_execXchStat {hd : Hdr} {w : XchW} {d : SIx} : OutSound (execXchStat hd w d s) := by
  refine sound_runForm h fun u r c hu => ?_
  split
  · trivial
  · exact sound_results.2 hu
theorem sound_execGwTake {hd : Hdr} {d a : SIx} : OutSound (execGwTake hd d a s) := by
  refine sound_runForm h fun u r c hu => ?_
  split
  · trivial
  · exact sound_svcAct.2 hu
theorem sound_execGwDone {hd : Hdr} {a : SIx} : OutSound (execGwDone hd a s) := by
  refine sound_runForm h fun u r c hu => ?_
  split
  · trivial
  · exact sound_release (sound_svcAct.2 hu)
theorem sound_execRecMark {hd : Hdr} {a : SIx} : OutSound (execRecMark hd a s) := by
  refine sound_runForm h fun u r c hu => ?_
  split
  · trivial
  · split
    · exact hu
    · exact sound_svcAct.2 hu
theorem sound_execRecMarkDrain {hd : Hdr} {a : SIx} : OutSound (execRecMarkDrain hd a s) := by
  refine sound_runForm h fun u r c hu => ?_
  dsimp only
  split
  · trivial
  · exact sound_svcAct.2 hu
theorem sound_execDetCycle {hd : Hdr} {vd : Bool} {d : SIx} : OutSound (execDetCycle hd vd d s) := by
  refine sound_runForm h fun u r c hu => ?_
  split
  · exact sound_results.2 hu
  · split
    · trivial
    · exact sound_results.2 hu
theorem sound_execCause {hd : Hdr} {wait : Bool} {p : BitVec 3} {d : SIx} : OutSound (execCause hd wait p d s) := by
  refine sound_runForm h fun u r c hu => ?_
  dsimp only
  split
  · simpa using hu
  · split
    · trivial
    · exact sound_results.2 hu
theorem sound_execEinj {hd : Hdr} {kind : EinjK} {a b : SIx} : OutSound (execEinj hd kind a b s) := by
  unfold execEinj
  split
  · simpa using h
  · refine sound_runForm h fun u r c hu => ?_
    split
    · trivial
    · split
      · trivial
      · exact sound_svcAct.2 hu
theorem sound_execElog {hd : Hdr} {w : BitVec 2} {clr : Bool} {d a : SIx} : OutSound (execElog hd w clr d a s) := by
  refine sound_runForm h fun u r c hu => ?_
  split
  · trivial
  · split
    · trivial
    · split
      · rw [sound_results]
        split <;> simpa using hu
      · exact sound_svcAct.2 hu
theorem sound_execPmov {hd : Hdr} {o : PmovOps} : OutSound (execPmov hd o s) := by
  cases o <;> exact sound_land h
theorem sound_execIllegalInstruction {w : IWord} : OutSound (execIllegalInstruction w s) := by
  unfold execIllegalInstruction
  split
  · exact outSound_fault
  · simpa using h
end
section
variable {s : State} (h : Canon (coreOf s))
include h
theorem sound_fp1 {i : Instr} {hd : Hdr} {t : Ty} {rm : Rm} {m : VMask} {d a : VIx} {l : Nat} {array : Bool} {op : Fmt → Rnd → Num → Res} :
    OutSound (fp1 i hd t rm m d a l array op s) := by
  unfold fp1
  exact sound_fpLanes h
theorem sound_fp2 {i : Instr} {hd : Hdr} {t : Ty} {rm : Rm} {m : VMask} {d a b : VIx} {l : Nat} {op : Fmt → Rnd → Num → Num → Res} :
    OutSound (fp2 i hd t rm m d a b l op s) := by
  unfold fp2
  exact sound_fpLanes h
theorem sound_fp3 {i : Instr} {hd : Hdr} {t : Ty} {rm : Rm} {m : VMask} {d a b x : VIx} {sa sc : Bool} :
    OutSound (fp3 i hd t rm m d a b x sa sc s) := by
  unfold fp3
  exact sound_fpLanes h
theorem sound_execPmerge {hd : Hdr} {t : Ty} {rm : Rm} {m : VMask} {d a b : VIx} : OutSound (execPmerge hd t rm m d a b s) := by
  unfold execPmerge
  refine sound_runForm h fun u r c hu => ?_
  dsimp only
  exact sound_sfuIssue (by simpa using hu)
end
theorem OutSound.of_same {s t : State} (h : Canon (coreOf s)) (same : coreOf t = coreOf s) : OutSound (.next t) :=
  outSound_next.2 (same ▸ h)

/-! ### Each instruction and each event, and the cycle -/

/-- No meaning of an instruction or of an event loses the canonical form: those that write memory write it byte by byte
(`cellsWrite_wf`), every other leaves both memories as they are. -/
theorem sound_exec {s : State} (h : Canon (coreOf s)) (i : Instr) : OutSound (exec i s) := by
  cases i
  case br | bri | ret =>
    exact sound_runForm h fun _ _ _ hu => sound_transfer hu
  case call | calli | loop =>
    exact sound_runForm h fun _ _ _ hu => sound_linkTo hu
  case exit => exact sound_execExit h
  case yield | mkempty | mkfull | tdClr =>
    exact sound_runForm h fun _ _ _ hu => (by simpa using hu)
  case park => exact sound_execPark h
  case nop => exact sound_runForm h fun _ _ _ hu => hu
  case sleepr => exact sound_execSleepr h
  case mfsr | add | sub | mul | mulh | mulhn | and | or | xor | andn | shl | shr | sar | rol | min | max | minn | maxn | addsat | addImm |
      subImm | mulImm | mulhImm | mulhnImm | divImm | divnImm | remImm | remnImm | andImm | orImm | xorImm | andnImm | shlImm | shrImm |
      sarImm | rolImm | minImm | maxImm | minnImm | maxnImm | addsatImm | clz | ctz | popc | brev | ext | extn | ins | bswap | cmp | sel |
      mov | movi | movhi | lea | isfull | viadd | visub | vimul | vimulh | vimin | vimax | vand | vor | vxor | vshl | vshr | vsar | vicmp |
      vmov | vbcast | vsel | vperm | viota | vcompress | semRead | recStat | pand | por | pxor | pnot | kand | kor | knot | kpop | kset =>
    exact sound_land h
  case mtsr => exact sound_execMtsr h
  case spawnAt | spawnQ =>
    exact sound_runForm h fun _ _ _ hu => sound_spawnForm hu
  case spawnRet => exact sound_execSpawnRet h
  case launch => exact sound_execLaunch h
  case graphOpen | graphEdge | phaseEnter | phaseLeave =>
    exact sound_runForm h fun _ _ _ hu => sound_dispAct hu
  case graphAdd => exact sound_execGraphAdd h
  case graphSubmit => exact sound_runForm h fun _ _ _ hu => sound_release (sound_dispAct hu)
  case doneWait => exact sound_execDoneWait h
  case cancel => exact sound_execCancel h
  case div | divn | rem | remn =>
    exact sound_aluDiv h
  case vadd | vsub | vmul | vdiv | vmin | vmax | vminnum | vmaxnum =>
    unfold exec; exact sound_fp2 h
  case vfma | vfms | vfnma =>
    unfold exec; exact sound_fp3 h
  case vsqrt | vabs | vneg | vround =>
    unfold exec; exact sound_fp1 h
  case vcmp | vcvt | vquant | vdequant | vbaddq | vdot =>
    exact sound_runForm h fun _ _ _ hu => sound_arrayForm hu fun _ _ hv => sound_fpEnd hv
  case vextr => exact sound_execVextr h
  case vins => exact sound_execVins h
  case vred | vscan =>
    exact sound_runForm h fun _ _ _ hu => sound_redForm hu fun _ _ hv => sound_fpEnd hv
  case pmerge => exact sound_execPmerge h
  case vexp2 | vlog2 | vrcp | vrsq | vsin | vcos | vtanh =>
    exact sound_sfuForm h
  case xaGet => exact sound_execXaGet h
  case xaPut => exact sound_execXaPut h
  case xaClr => exact sound_execXaClr h
  case xaAddp | xaAddv | xaAdd =>
    exact sound_runForm h fun _ _ _ hu => sound_xaHeld hu fun _ hv => sound_xaFinish hv
  case xaSign => exact sound_execXaSign h
  case xaRnd => exact sound_execXaRnd h
  case xaSave => exact sound_execXaSave h
  case xaLoad => exact sound_execXaLoad h
  case protLoad => exact sound_execProtLoad h
  case protFree => exact sound_execProtFree h
  case epGet => exact sound_execEpGet h
  case epPut => exact sound_execEpPut h
  case chOpen => exact sound_execChOpen h
  case chAccept => exact sound_execChAccept h
  case chClose => exact sound_execChClose h
  case chAbort => exact sound_execChAbort h
  case chState => exact sound_execChState h
  case chBindreg => exact sound_execChBindreg h
  case send | sendv =>
    exact sound_runForm h fun _ _ _ hu => sound_sendAct hu
  case recv | recvv =>
    exact sound_runForm h fun _ _ _ hu => sound_recvAct hu
  case select => exact sound_execSelect h
  case offer => exact sound_execOffer h
  case chDeleg => exact sound_execChDeleg h
  case chAdopt => exact sound_execChAdopt h
  case turnSet => exact sound_execTurnSet h
  case turnGet => exact sound_execTurnGet h
  case rcConf => exact sound_execRcConf h
  case rcBind => exact sound_execRcBind h
  case rcRead => exact sound_execRcRead h
  case rcFree => exact sound_execRcFree h
  case ld => exact sound_execLd h
  case st => exact sound_execSt h
  case ldv => exact sound_execLdv h
  case stv => exact sound_execStv h
  case ldSync => exact sound_execLdSync h
  case stFill => exact sound_execStFill h
  case stReset => exact sound_execStReset h
  case ldvSync => exact sound_execLdvSync h
  case semWait | semWaitTo =>
    exact sound_runForm h fun _ _ _ hu => sound_semWaitAct hu
  case semSig => exact sound_execSemSig h
  case semSet => exact sound_execSemSet h
  case barArm => exact sound_execBarArm h
  case barArrive => exact sound_execBarArrive h
  case barWait => exact sound_execBarWait h
  case barSync => exact sound_execBarSync h
  case barDisarm => exact sound_execBarDisarm h
  case gld | gldv =>
    exact sound_runForm h fun _ _ _ hu => sound_loadAct hu
  case gst | gstv =>
    exact sound_runForm h fun _ _ _ hu => sound_storeAct hu
  case gpref => exact sound_execGpref h
  case atom | cas | atomDet =>
    exact sound_runForm h fun _ _ _ hu => sound_atomAct hu
  case rgnBegin => exact sound_execRgnBegin h
  case rgnCommit => exact sound_execRgnCommit h
  case rgnAbort => exact sound_execRgnAbort h
  case allocF | allocQ =>
    exact sound_runForm h fun _ _ _ hu => sound_allocAct hu
  case free => exact sound_execFree h
  case heapInfo => exact sound_runForm h fun _ _ _ hu => sound_heapAct hu
  case heapInfoQuota => exact sound_execHeapInfoQuota h
  case tlbInv => exact sound_execTlbInv h
  case tlbInvAll => exact sound_runForm h fun _ _ _ hu => sound_invAct hu
  case xlat => exact sound_execXlat h
  case xlatResume => exact sound_execXlatResume h
  case xlatRefuse => exact sound_execXlatRefuse h
  case tdSet => exact sound_execTdSet h
  case tdGet => exact sound_execTdGet h
  case cpPush => exact sound_execCpPush h
  case cpFill => exact sound_execCpFill h
  case cpPullreq => exact sound_execCpPullreq h
  case mxLds => exact sound_execMxLds h
  case mxSwap => exact sound_execMxSwap h
  case mxStream => exact sound_execMxStream h
  case mxConv => exact sound_execMxConv h
  case mxDrainV => exact sound_execMxDrainV h
  case mxDrainD => exact sound_execMxDrainD h
  case mxClr => exact sound_execMxClr h
  case mxUprog => exact sound_execMxUprog h
  case mxStat => exact sound_execMxStat h
  case fence => exact sound_execFence h
  case fenceEng => exact sound_execFenceEng h
  case demPost => exact sound_execDemPost h
  case demClose => exact sound_execDemClose h
  case calWait => exact sound_execCalWait h
  case xchSend => exact sound_execXchSend h
  case xchStat => exact sound_execXchStat h
  case gwTake => exact sound_execGwTake h
  case gwDone => exact sound_execGwDone h
  case recMark => exact sound_execRecMark h
  case recMarkDrain => exact sound_execRecMarkDrain h
  case detCycle => exact sound_execDetCycle h
  case trap => exact sound_runForm h fun _ _ _ _ => trivial
  case eret => exact sound_runForm h fun _ _ _ hu => sound_returnFrom hu
  case cause => exact sound_execCause h
  case einj => exact sound_execEinj h
  case elog => exact sound_execElog h
  case pmov => exact sound_execPmov h
  case resultLanding => exact OutSound.of_same h (coreOf_evResultLanding ..)
  case roundBoundary => exact OutSound.of_same h (coreOf_evRoundBoundary ..)
  case sleeprExpiry => exact OutSound.of_same h (coreOf_evSleeprExpiry ..)
  case packetOpenLimit => exact OutSound.of_same h (coreOf_evPacketOpenLimit ..)
  case waitLimitExpiry => exact OutSound.of_same h (coreOf_evWaitLimitExpiry ..)
  case remoteWithdrawalAnswer => exact OutSound.of_same h (coreOf_evRemoteWithdrawalAnswer ..)
  case semWaitTimeout => exact OutSound.of_same h (coreOf_evSemWaitTimeout ..)
  case bindComplete => exact OutSound.of_same h (coreOf_evBindComplete ..)
  case nodePlacement => exact OutSound.of_same h (coreOf_evNodePlacement ..)
  case deterministicStart => exact OutSound.of_same h (coreOf_evDeterministicStart ..)
  case contextSaveComplete => exact OutSound.of_same h (coreOf_evContextSaveComplete ..)
  case unitResume => exact OutSound.of_same h (coreOf_evUnitResume ..)
  case launchCompletion => exact OutSound.of_same h (coreOf_evLaunchCompletion ..)
  case phaseCompletion => exact OutSound.of_same h (coreOf_evPhaseCompletion ..)
  case cancelApply => exact OutSound.of_same h (coreOf_evCancelApply ..)
  case dispatcherRequest => exact OutSound.of_same h (coreOf_evDispatcherRequest ..)
  case serviceReplyLand => exact OutSound.of_same h (coreOf_evServiceReplyLand ..)
  case spawnRequestLand => exact outSound_next.2 (canon_evSpawnRequestLand h)
  case spawnEntryServe => exact OutSound.of_same h (coreOf_evSpawnEntryServe ..)
  case spawnReturnLand => exact OutSound.of_same h (coreOf_evSpawnReturnLand ..)
  case scratchpadCycleService => exact outSound_next.2 (canon_evScratchpadCycleService h)
  case remoteReplyLand => exact OutSound.of_same h (coreOf_evRemoteReplyLand ..)
  case remoteBusyResend => exact OutSound.of_same h (coreOf_evRemoteBusyResend ..)
  case barrierTokenLand => exact OutSound.of_same h (coreOf_evBarrierTokenLand ..)
  case barrierReleaseLand => exact OutSound.of_same h (coreOf_evBarrierReleaseLand ..)
  case memoryMergeStep => exact outSound_next.2 (canon_evMemoryMergeStep h)
  case atomDetWindowApply => exact outSound_next.2 (canon_evAtomDetWindowApply h)
  case refreshWindowEnd => exact OutSound.of_same h (coreOf_evRefreshWindowEnd ..)
  case controllerReplySend => exact OutSound.of_same h (coreOf_evControllerReplySend ..)
  case globalReplyLand => exact OutSound.of_same h (coreOf_evGlobalReplyLand ..)
  case postedStoreCreditLand => exact OutSound.of_same h (coreOf_evPostedStoreCreditLand ..)
  case allocatorRequest => exact outSound_next.2 (canon_evAllocatorRequest h)
  case tlbInvRequest => exact OutSound.of_same h (coreOf_evTlbInvRequest ..)
  case supervisorMessageLand => exact OutSound.of_same h (coreOf_evSupervisorMessageLand ..)
  case supervisorMessageResend => exact OutSound.of_same h (coreOf_evSupervisorMessageResend ..)
  case sfuServiceStart => exact OutSound.of_same h (coreOf_evSfuServiceStart ..)
  case sfuResultLand => exact OutSound.of_same h (coreOf_evSfuResultLand ..)
  case arrayBeatStart => exact OutSound.of_same h (coreOf_evArrayBeatStart ..)
  case openRequestLand => exact OutSound.of_same h (coreOf_evOpenRequestLand ..)
  case openReplyLand => exact OutSound.of_same h (coreOf_evOpenReplyLand ..)
  case openWithdrawalLand => exact OutSound.of_same h (coreOf_evOpenWithdrawalLand ..)
  case channelFlitLand => exact OutSound.of_same h (coreOf_evChannelFlitLand ..)
  case creditLand => exact OutSound.of_same h (coreOf_evCreditLand ..)
  case closeNoticeLand => exact OutSound.of_same h (coreOf_evCloseNoticeLand ..)
  case discardMarkerLand => exact OutSound.of_same h (coreOf_evDiscardMarkerLand ..)
  case registerDeposit => exact OutSound.of_same h (coreOf_evRegisterDeposit ..)
  case adoptionNoticeLand => exact OutSound.of_same h (coreOf_evAdoptionNoticeLand ..)
  case redirectLand => exact OutSound.of_same h (coreOf_evRedirectLand ..)
  case acknowledgementLand => exact OutSound.of_same h (coreOf_evAcknowledgementLand ..)
  case delegationAbortLand => exact OutSound.of_same h (coreOf_evDelegationAbortLand ..)
  case couplerSample => exact OutSound.of_same h (coreOf_evCouplerSample ..)
  case couplerControlFlitLand => exact OutSound.of_same h (coreOf_evCouplerControlFlitLand ..)
  case rcBindRequest => exact OutSound.of_same h (coreOf_evRcBindRequest ..)
  case engineCommandStart => exact OutSound.of_same h (coreOf_evEngineCommandStart ..)
  case engineCommandComplete => exact OutSound.of_same h (coreOf_evEngineCommandComplete ..)
  case copyPacketLand => exact OutSound.of_same h (coreOf_evCopyPacketLand ..)
  case copyPacketAck => exact OutSound.of_same h (coreOf_evCopyPacketAck ..)
  case pullRequestServe => exact outSound_next.2 (canon_evPullRequestServe h)
  case engineFaultStop => exact OutSound.of_same h (coreOf_evEngineFaultStop ..)
  case matrixStepCommit => exact OutSound.of_same h (coreOf_evMatrixStepCommit ..)
  case flitSlotRouting => exact OutSound.of_same h (coreOf_evFlitSlotRouting ..)
  case injectionStarvationHold => exact OutSound.of_same h (coreOf_evInjectionStarvationHold ..)
  case linkRetry => exact OutSound.of_same h (coreOf_evLinkRetry ..)
  case linkPortDown => exact OutSound.of_same h (coreOf_evLinkPortDown ..)
  case linkPortUp => exact OutSound.of_same h (coreOf_evLinkPortUp ..)
  case heldFlitTimeout => exact OutSound.of_same h (coreOf_evHeldFlitTimeout ..)
  case tileReset => exact OutSound.of_same h (coreOf_evTileReset ..)
  case packageReset => exact outSound_next.2 (canon_evPackageReset h)
  case incarnationAnnouncementLand => exact OutSound.of_same h (coreOf_evIncarnationAnnouncementLand ..)
  case staleNoticeLand => exact OutSound.of_same h (coreOf_evStaleNoticeLand ..)
  case demandPostRequest => exact OutSound.of_same h (coreOf_evDemandPostRequest ..)
  case demandRowAccept => exact OutSound.of_same h (coreOf_evDemandRowAccept ..)
  case calendarDecompose => exact OutSound.of_same h (coreOf_evCalendarDecompose ..)
  case calendarIssue => exact OutSound.of_same h (coreOf_evCalendarIssue ..)
  case calendarLand => exact OutSound.of_same h (coreOf_evCalendarLand ..)
  case calWaitAtWake => exact OutSound.of_same h (coreOf_evCalWaitAtWake ..)
  case exchangeReservation => exact OutSound.of_same h (coreOf_evExchangeReservation ..)
  case exchangePhaseEnd => exact OutSound.of_same h (coreOf_evExchangePhaseEnd ..)
  case heartbeatSend => exact OutSound.of_same h (coreOf_evHeartbeatSend ..)
  case heartbeatTimeout => exact OutSound.of_same h (coreOf_evHeartbeatTimeout ..)
  case blockQueueRequest => exact OutSound.of_same h (coreOf_evBlockQueueRequest ..)
  case recordSegmentRequest => exact outSound_next.2 (canon_evRecordSegmentRequest h)
  case replayLimitExpiry => exact OutSound.of_same h (coreOf_evReplayLimitExpiry ..)
  case errorLogRequest => exact OutSound.of_same h (coreOf_evErrorLogRequest ..)
  case submissionTailWrite => exact OutSound.of_same h (coreOf_evSubmissionTailWrite ..)
  case jobRecordAccept => exact outSound_next.2 (canon_evJobRecordAccept h)
  case rootUnitBind => exact OutSound.of_same h (coreOf_evRootUnitBind ..)
  case hostCancelWrite => exact OutSound.of_same h (coreOf_evHostCancelWrite ..)
  case jobEnd => exact outSound_next.2 (canon_evJobEnd h)
  case bar0RegisterWrite => exact outSound_next.2 (canon_evBar0RegisterWrite h)
  case spdmMessage => exact OutSound.of_same h (coreOf_evSpdmMessage ..)
  case firmwareImageLoad => exact OutSound.of_same h (coreOf_evFirmwareImageLoad ..)
  case securityRequest => exact OutSound.of_same h (coreOf_evSecurityRequest ..)
  case operatingPointChange => exact OutSound.of_same h (coreOf_evOperatingPointChange ..)
  case tileRetire => exact OutSound.of_same h (coreOf_evTileRetire ..)
  case portRetrain => exact OutSound.of_same h (coreOf_evPortRetrain ..)
  case vaultRowCopy => exact OutSound.of_same h (coreOf_evVaultRowCopy ..)
  case illegalInstruction w => exact sound_execIllegalInstruction (w := w) h
  case spawnReplyLand => exact OutSound.of_same h (coreOf_evSpawnReplyLand ..)
  case allocatorReplyLand => exact OutSound.of_same h (coreOf_evAllocatorReplyLand ..)
  case openWithdrawalAnswerLand => exact OutSound.of_same h (coreOf_evOpenWithdrawalAnswerLand ..)
  case softError => exact OutSound.of_same h (coreOf_evSoftError ..)
  case hostCxlMemAccess => exact outSound_next.2 (canon_evHostCxlMemAccess h)
  case hostLinkTraining => exact OutSound.of_same h (coreOf_evHostLinkTraining ..)
/-! The cycle (R12, R41). -/
section
variable {s : State} (h : Canon (coreOf s))
include h
theorem canon_fetchMiss {r : SlotRef} {c : Ctx} {va lvl : Nat} : Canon (coreOf (fetchMiss s r c va lvl)) := by
  have miss : (missAct s r c va 3 lvl).Sound := sound_missAct h
  refine canon_applyAct h ?_
  split
  · rename_i is
    rwa [is] at miss
  · trivial
  · exact miss
omit h in
/-- What a fetch leaves is in the canonical form. -/
def Fetch.Sound : Fetch → Prop
  | .ok s _ | .trap s .. => Canon (coreOf s)
  | .miss .. => True
theorem sound_fetchPart {r : SlotRef} {c : Ctx} {va n : Nat} : (fetchPart s r c va n).Sound := by
  unfold fetchPart
  extract_lets e t
  have read : Canon (coreOf t) := by
    unfold t e
    split <;> simpa using h
  split
  · exact read
  · split
    · trivial
    · exact read
    · split
      · dsimp only
        split
        · simpa [Fetch.Sound] using read
        · split <;> simpa [Fetch.Sound] using read
      · exact read
theorem sound_fetch {r : SlotRef} {c : Ctx} : (fetch s r c).Sound := by
  unfold fetch
  extract_lets va n
  have first : (fetchPart s r c va n).Sound := sound_fetchPart h
  split
  · exact h
  · split
    · rename_i u b is
      have hu : Canon (coreOf u) := (is ▸ first : (Fetch.ok u b).Sound)
      have second : (fetchPart u r c (va + n) (12 - n)).Sound := sound_fetchPart hu
      split
      · exact hu
      · split
        · rename_i is
          rwa [is] at second
        · exact second
    · exact first
theorem outSound_issue {r : SlotRef} : OutSound (issue s r) := by
  have fetched : (fetch s r (ctxAt s r)).Sound := sound_fetch h
  unfold issue
  dsimp only
  split
  · rename_i u _ _ _ is
    have hu : Canon (coreOf u) := by rwa [is] at fetched
    simpa using hu
  · simpa using canon_fetchMiss h
  · rename_i u b is
    have hu : Canon (coreOf u) := by rwa [is] at fetched
    split
    · simpa using hu
    · split
      · simpa using hu
      · simpa using hu
      · exact sound_exec (s := { u with cur := r }) hu _
theorem outSound_issueTile {n : Node} : OutSound (issueTile s n) := by
  unfold issueTile
  split
  · simpa using h
  · split
    · simpa using h
    · dsimp only
      split
      · simpa using h
      · simpa using h
      · simpa using h
      · exact outSound_issue h
theorem outSound_runDue {d : Due} {l : List Due} : OutSound (runDue s d l) := by
  unfold runDue
  dsimp only
  split
  · simpa using h
  · exact sound_exec (s := { s with agenda := l }) h _
/-- A slot that settles changes what the registers and the agenda hold, or does what its form does. -/
theorem canon_settleSlot {r : SlotRef} {t : State} (is : settleSlot s r = some t) : Canon (coreOf t) := by
  have run (p : Park) (u : State) (e : exec p.form { s with cur := r } = .next u) : Canon (coreOf u) := sound_exec (s := { s with cur := r }) h _ u e
  unfold settleSlot at is
  dsimp only at is
  split at is
  · cases is
  · split at is
    · cases is
    · split at is
      · split at is
        · cases is
          simpa using h
        · cases is
      · split at is
        · split at is
          · cases is
          · cases is
            simpa using h
        · cases is
      · split at is
        · split at is
          · cases is
          · cases is
            rw [coreOf_modUnit]
            exact run _ _ ‹_›
        · cases is
      · cases is
theorem canon_settle {t : State} (is : settle s = some t) : Canon (coreOf t) := by
  obtain ⟨r, -, is⟩ := List.exists_of_findSome?_eq_some is
  exact canon_settleSlot h is
theorem canon_settleNext : Canon (coreOf (settleNext s)) := by
  refine canon_foldl _ (fun u r hu => ?_) _ _ h
  split
  · cases is : settleSlot u r with
    | none => exact hu
    | some t => exact canon_settleSlot hu is
  · exact hu
theorem canon_tick : Canon (coreOf (tick s)) := by
  have settled (u : State) (hu : Canon (coreOf u)) : Canon (coreOf (settleNext u)) := canon_settleNext hu
  unfold tick
  dsimp only
  rw [coreOf_mk, coreOf_boundaries]
  refine settled _ ?_
  simpa using h
theorem outSound_cycleStep : OutSound (cycleStep s) := by
  unfold cycleStep
  extract_lets due
  split
  · exact outSound_runDue h
  · split
    · rename_i k l _
      exact outSound_issueTile (s := { s with issueQ := l }) h
    · split
      · exact outSound_runDue h
      · split
        · exact outSound_next.2 (canon_settle h ‹_›)
        · split
          · exact outSound_runDue h
          · exact outSound_next.2 (canon_tick h)
end

/-- Settles O7: all that a cycle does is made of writes of single bytes and of steps that leave memory and device registers alone. -/
theorem stepKeepsMemoryCanonical : Obligations.StepKeepsMemoryCanonical := by
  unfold Obligations.StepKeepsMemoryCanonical
  intro s t is before
  exact outSound_cycleStep before t is

end Sys2Proof.Machine
end

section
/-! Global loads, stores and atomics, as a unit asks for them and as a credit ends a wait (R241 to R246). -/

namespace Sys2Proof.Machine

/-! ### Requests to controllers -/

theorem sp_modUnit (s : State) (r : SlotRef) (uid : Nat) (f : Ctx → Ctx) (n : Node) : (tileAt (modUnit s r uid f) n).sp = (tileAt s n).sp := by
  unfold modUnit modSlot
  by_cases k : nodeKey n = nodeKey r.node
  · have q : ∀ u : State, tileAt u n = tileAt u r.node := fun u => by unfold tileAt; rw [k]
    rw [q, q, tileAt_modTile_self]
    exact (congrArg Tile.sp (modSlot_rest (tileAt s r.node) r.slot _) :)
  · rw [tileAt_modTile_ne _ _ _ _ k]

section
variable {s : State} {c : Ctx} {home : Node} {pa : Nat} {va : Word} {op : MemOp} {posted : Bool} {id : Nat} {rec_ : Option Nat}

/-- A request to a controller changes its unit, and sends (R241). -/
theorem sendReq_sent (s : State) (r : SlotRef) : OnlySent (modUnit s r c.uid fun c =>
    { c with memSeq := c.memSeq + 1, asked := if posted then c.asked else some home }) (sendReq s r c home pa va op posted id rec_) :=
  (pinTo_sent ..).trans (.sendMsg ..)
theorem sendReq_sp (s : State) (r : SlotRef) (n : Node) : (tileAt (sendReq s r c home pa va op posted id rec_) n).sp = (tileAt s n).sp :=
  ((sendReq_sent s r).sp n).trans (sp_modUnit ..)
theorem sendReq_ctx {r : SlotRef} (bound : (slotAt s r).ph = .bound) : ctxAt (sendReq s r (ctxAt s r) home pa va op posted id rec_) r =
    { ctxAt s r with memSeq := (ctxAt s r).memSeq + 1, asked := if posted then (ctxAt s r).asked else some home } := by
  rw [(sendReq_sent s r).ctxAt, modUnit_bound s r _ bound]
  exact ctxAt_modCtx_self _ _ _ (slot_lt s _ (by rw [bound]; decide))
end

/-! ### What the address of an access decides (R241) -/

theorem addrFault_beyond {va : Word} {n : Nat} (far : 2 ^ 56 ≤ va.toNat) : addrFault va n = some fAccess := if_pos far
theorem addrFault_misaligned {va : Word} {n : Nat} (near : va.toNat < 2 ^ 56) (odd : va.toNat % n ≠ 0) : addrFault va n = some fMisaligned :=
  (if_neg (by omega)).trans (if_pos odd)
theorem addrFault_none {va : Word} {n : Nat} (near : va.toNat < 2 ^ 56) (even : va.toNat % n = 0) : addrFault va n = none :=
  (if_neg (by omega)).trans (if_neg (by omega))

/-! ### Loads -/

theorem loadAct_faults {s : State} {r : SlotRef} {c : Ctx} {va : Word} {n f : Nat} (bad : addrFault va n = some f) :
    loadAct va n s r c = .trap f va 0 := by
  unfold loadAct
  simp only [bad]
/-- A load whose address is translated asks its controller (R241). -/
theorem loadAct_asks {s s1 : State} {r : SlotRef} {c : Ctx} {va : Word} {n pa : Nat} {hm : Node × MemKind} (near : va.toNat < 2 ^ 56)
    (even : va.toNat % n = 0) (clean : noErrs s = true) (x : xlate s r.node c.d.job c.d.det 0 va.toNat = .ok pa s1)
    (home : homeFor s1 r c pa false = some hm) :
    loadAct va n s r c = .wait (sendReq { s1 with no := s1.no + 1 } r c hm.1 pa va (.load n) false s1.no none) s1.no .reply 0 0 va [] := by
  unfold loadAct
  simp only [addrFault_none near even, withXlate_ok clean x, home]
  rfl

/-- What a form whose body is a load does (R241, R242). -/
theorem loadForm {s : State} {f : Form} {body : State → SlotRef → Ctx → Act} {va : Word} {n : Nat} {o : Outc}
    (ready : Ready s f.h f.srcs f.dsts f.rgn) (run : o = runForm f body s) (is : body s s.cur (me s) = loadAct va n s s.cur (me s)) :
    (2 ^ 56 ≤ va.toNat → Faults s 0x09 va 0 o) ∧
    (va.toNat < 2 ^ 56 → va.toNat % n ≠ 0 → Faults s 0x06 va 0 o) ∧
    ∀ pa s1 hm, va.toNat < 2 ^ 56 → va.toNat % n = 0 → noErrs s = true →
      xlate s s.cur.node (me s).d.job (me s).d.det 0 va.toNat = .ok pa s1 → homeFor s1 s.cur (me s) pa false = some hm →
      let s2 := sendReq { s1 with no := s1.no + 1 } s.cur (me s) hm.1 pa va (.load n) false s1.no none
      Parks s f.h (waitBy s f.i s1.no .reply 0 0 va []) s2 o ∧ s2.mem = s.mem ∧
        ctxAt s2 s.cur = { me s with memSeq := (me s).memSeq + 1, asked := some hm.1 } ∧ ∀ n, (tileAt s2 n).sp = (tileAt s n).sp := by
  subst run
  refine ⟨fun far => ?_, fun near odd => ?_, fun pa s1 hm near even clean x home => ?_⟩
  · exact runForm_trap f body s _ _ _ ready (is.trans (loadAct_faults (addrFault_beyond far)))
  · exact runForm_trap f body s _ _ _ ready (is.trans (loadAct_faults (addrFault_misaligned near odd)))
  · have sent : OnlySent s { s1 with no := s1.no + 1 } := (xlate_sent x).trans (.no ..)
    refine ⟨runForm_waitNow f body s _ _ _ _ _ _ _ ready ((sendReq_now ..).trans sent.now) (is.trans (loadAct_asks near even clean x home)),
      (sendReq_mem ..).trans sent.mem, ?_, fun n => (sendReq_sp ..).trans (sent.sp n)⟩
    have asks := sendReq_ctx (home := hm.1) (pa := pa) (va := va) (op := .load n) (posted := false) (id := s1.no) (rec_ := none)
      (s := { s1 with no := s1.no + 1 }) (r := s.cur) (by rw [sent.slotAt]; exact ready.bound)
    rwa [sent.ctxAt] at asks

/-- Where no array holds an error, a translation reads none (R352). -/
theorem xlErrs_clean {s : State} {n : Node} {job : Word} {det walks : Bool} {va : Nat} {w : Consumer} (clean : noErrs s = true) :
    xlErrs s n job det walks va w = (s, none) := if_pos (.inl clean)
/-- GPREF, whatever its translation answers, completes with what the translation leaves (R241). -/
theorem exec_gpref {s : State} {h : Hdr} {sz : Sz} {a : SIx} {ofs : BitVec 32} (ready : Ready s h [.s a] [] true) :
    ∃ s1, DoneIn s h s1 (exec (.gpref h sz .slot a ofs) s) ∧ (noErrs s = true → OnlySent s s1) := by
  let e := xlErrs s s.cur.node (me s).d.job (me s).d.det false (eaOf (me s) a ofs).toNat (consumerOf (me s))
  have read (clean : noErrs s = true) : OnlySent s e.1 := by
    rw [show e = _ from xlErrs_clean clean]
    exact .refl s
  have ends : ∃ s1, (match e.2, xlate e.1 s.cur.node (me s).d.job (me s).d.det 0 (eaOf (me s) a ofs).toNat with
      | none, .ok _ s' => Act.done s'
      | _, _ => .done e.1) = .done s1 ∧ (noErrs s = true → OnlySent s s1) := by
    split
    · exact ⟨_, rfl, fun clean => (read clean).trans (xlate_sent ‹_›)⟩
    · exact ⟨_, rfl, read⟩
  obtain ⟨s1, is, sent⟩ := ends
  exact ⟨s1, runForm_done { i := .gpref h sz .slot a ofs, h := h, srcs := [.s a], rgn := true } _ s s1 ready is, sent⟩

/-- Settles O19: the checks of the address, then a request that changes no byte; GPREF ends whatever its translation answers. -/
theorem globalLoadAndPrefetchForms : Obligations.GlobalLoadAndPrefetchForms := by
  unfold Obligations.GlobalLoadAndPrefetchForms
  exact ⟨fun s h sz sc od sx d a v ofs =>
    ⟨fun _ ready => loadForm (f := { i := .gld h sz sc od sx d a ofs, h := h, srcs := [.s a], dsts := [.s d], rgn := true }) ready rfl rfl,
      fun _ ready => loadForm (f := { i := .gldv h sz sc od v a ofs, h := h, srcs := [.s a], dsts := [.v v] }) ready rfl rfl⟩,
    fun s h sz a ofs => exec_gpref⟩

/-! ### Stores -/

section
variable {s s1 : State} {r : SlotRef} {c : Ctx} {va : Word} {b : List Byte} {sc : Scope} {od : Ord} {pa : Nat} {hm : Node × MemKind}

theorem storeAct_faults {f : Nat} (bad : addrFault va b.length = some f) : storeAct va b sc od s r c = .trap f va 0 := by
  unfold storeAct
  simp only [bad]
variable (good : addrFault va b.length = none)
include good
theorem storeAct_held (inside : c.region.isSome = true) (clean : noErrs s = true)
    (x : xlate s r.node c.d.job c.d.det 1 va.toNat = .ok pa s1) (home : homeFor s1 r c pa true = some hm) :
    storeAct va b sc od s r c = holdStore s1 r c { va := va, data := b, scratch := false, sc := sc, od := od } := by
  unfold storeAct
  simp only [good, inside, if_true, withXlate_ok clean x, home]
variable (outside : c.region = none)
include outside
theorem storeAct_full (full : 16 ≤ postedOut s r) : storeAct va b sc od s r c = .retry .cond 0 0 0 := by
  unfold storeAct
  simp only [good, outside, Option.isSome_none, Bool.false_eq_true, if_false]
  exact if_pos full
theorem storeAct_unperformed (held : releaseOk s r c.uid (if Ord.rel_ od then sc else .slot) r.node = false) :
    storeAct va b sc od s r c = .retry .cond 0 0 0 := by
  unfold storeAct release
  simp only [good, outside, Option.isSome_none, Bool.false_eq_true, if_false, held, ite_self]
/-- A store whose address is translated is posted; with seq_cst order the slot waits for it (R241, Table 8). -/
theorem storeAct_posts (room : postedOut s r < 16) (free : releaseOk s r c.uid (if Ord.rel_ od then sc else .slot) r.node = true)
    (clean : noErrs s = true) (x : xlate s r.node c.d.job c.d.det 1 va.toNat = .ok pa s1) (home : homeFor s1 r c pa true = some hm) :
    storeAct va b sc od s r c =
      let s2 := postStore { s1 with no := s1.no + 1 } r c hm pa va b s1.no
      if od = .sc then .wait s2 s1.no .reply 0 0 va [] else .done s2 := by
  unfold storeAct release
  simp only [good, outside, Option.isSome_none, Bool.false_eq_true, if_false, free, if_true, withXlate_ok clean x, home,
    if_neg (show ¬ storeWindow ≤ postedOut s r from Nat.not_le.2 room)]
  rfl
end
/-- A store under way has changed no byte of memory and of no scratchpad: it is performed at its controller (R241). -/
theorem postStore_sp (s : State) (r : SlotRef) (c : Ctx) (hm : Node × MemKind) (pa : Nat) (va : Word) (b : List Byte) (id : Nat) (n : Node) :
    (tileAt (postStore s r c hm pa va b id) n).sp = (tileAt s n).sp := sendReq_sp ..
theorem postStore_now (s : State) (r : SlotRef) (c : Ctx) (hm : Node × MemKind) (pa : Nat) (va : Word) (b : List Byte) (id : Nat) :
    (postStore s r c hm pa va b id).now = s.now := sendReq_now ..

/-- What a form whose body is a store of the low n bytes of x does (R241, R242). -/
theorem storeForm {s : State} {f : Form} {body : State → SlotRef → Ctx → Act} {va : Word} {n x : Nat} {sc : Scope} {od : Ord} {o : Outc}
    (outside : (me s).region = none) (ready : Ready s f.h f.srcs f.dsts f.rgn) (run : o = runForm f body s)
    (is : body s s.cur (me s) = storeAct va (bytesOfNat n x) sc od s s.cur (me s)) :
    let wide := if Ord.rel_ od then sc else .slot
    (2 ^ 56 ≤ va.toNat → Faults s 0x09 va 0 o) ∧
    (va.toNat < 2 ^ 56 → va.toNat % n ≠ 0 → Faults s 0x06 va 0 o) ∧
    (va.toNat < 2 ^ 56 → va.toNat % n = 0 →
      ((16 ≤ postedOut s s.cur ∨ releaseOk s s.cur (me s).uid wide s.cur.node = false) →
        Parks s f.h (waitBy s f.i s.no .cond 0 0 0 []) { s with no := s.no + 1 } o) ∧
      ∀ pa s1 hm, postedOut s s.cur < 16 → releaseOk s s.cur (me s).uid wide s.cur.node = true → noErrs s = true →
        xlate s s.cur.node (me s).d.job (me s).d.det 1 va.toNat = .ok pa s1 → homeFor s1 s.cur (me s) pa true = some hm →
        let s2 := postStore { s1 with no := s1.no + 1 } s.cur (me s) hm pa va (bytesOfNat n x) s1.no
        (od ≠ .sc → DoneIn s f.h s2 o) ∧ (od = .sc → Parks s f.h (waitBy s f.i s1.no .reply 0 0 va []) s2 o) ∧
        s2.mem = s.mem ∧ ∀ n, (tileAt s2 n).sp = (tileAt s n).sp) := by
  subst run
  have len : (bytesOfNat n x).length = n := bytesOfNat_length ..
  refine ⟨fun far => ?_, fun near odd => ?_, fun near even => ⟨fun waits => ?_, fun pa s1 hm room free clean hit home => ?_⟩⟩
  · exact runForm_trap f body s _ _ _ ready (is.trans (storeAct_faults (addrFault_beyond far)))
  · exact runForm_trap f body s _ _ _ ready (is.trans (storeAct_faults (addrFault_misaligned near (by rwa [len]))))
  · have good := addrFault_none (n := (bytesOfNat n x).length) near (by rwa [len])
    refine runForm_cond f body s 0 0 0 ready (is.trans ?_)
    rcases waits with full | held
    · exact storeAct_full good outside full
    · exact storeAct_unperformed good outside held
  · have good := addrFault_none (n := (bytesOfNat n x).length) near (by rwa [len])
    have sent : OnlySent s { s1 with no := s1.no + 1 } := (xlate_sent hit).trans (.no ..)
    have posts := is.trans (storeAct_posts good outside room free clean hit home)
    refine ⟨fun weak => ?_, fun strong => ?_, (postStore_mem ..).trans sent.mem, fun n => (postStore_sp ..).trans (sent.sp n)⟩
    · exact runForm_done f body s _ ready (posts.trans (if_neg weak))
    · exact runForm_waitNow f body s _ _ _ _ _ _ _ ready ((postStore_now ..).trans sent.now) (posts.trans (if_pos strong))

/-- Settles O20: both forms are the one store, of the bytes of their source. -/
theorem globalStoreFormsPost : Obligations.GlobalStoreFormsPost := by
  unfold Obligations.GlobalStoreFormsPost
  exact fun s h sz sc od a b v ofs outside =>
    ⟨fun _ ready => storeForm (f := { i := .gst h sz sc od a b ofs, h := h, srcs := [.s a, .s b], rgn := true }) outside ready rfl rfl,
      fun _ ready => storeForm (f := { i := .gstv h sz sc od a v ofs, h := h, srcs := [.s a, .v v] }) outside ready rfl rfl⟩

/-! ### Atomics -/

section
variable {s s1 : State} {r : SlotRef} {c : Ctx} {i : Instr} {va v e : Word} {n pa : Nat} {sizeOk remoteOk : Bool} {sc : Scope} {od : Ord}
  {hm : Node × MemKind}

theorem atomAct_size : atomAct i va n v e false remoteOk sc od s r c = .trap fOperand 0 0 := rfl
theorem atomAct_misaligned (odd : va.toNat % n ≠ 0) : atomAct i va n v e true remoteOk sc od s r c = .trap fMisaligned va 0 := if_pos odd
theorem atomAct_remote (even : va.toNat % n = 0) (away : isRemote va = true) (bad : remoteOk = false ∨ n ≠ 8) :
    atomAct i va n v e true remoteOk sc od s r c = .trap fOperand 0 0 :=
  (if_neg (not_not.2 even)).trans (if_pos ⟨away, by simpa using bad⟩)
theorem atomAct_beyond (even : va.toNat % n = 0) (near : isRemote va = false) (far : 2 ^ 56 ≤ va.toNat) :
    atomAct i va n v e true remoteOk sc od s r c = .trap fAccess va 0 := by
  unfold atomAct
  simp only [even, near, far, Bool.not_true, Bool.false_eq_true, if_false, ne_eq, not_true_eq_false, false_and, if_true]
/-- An atomic whose address is good does, outside a region, what its order lets it, and asks the home of its word (R245). -/
theorem atomAct_goes (outside : c.region = none) (even : va.toNat % n = 0)
    (good : isRemote va = false ∧ va.toNat < 2 ^ 56 ∨ isRemote va = true ∧ remoteOk = true ∧ n = 8 ∧ remoteFault s va true = none ∧ remoteHome va ≠ r.node) :
    atomAct i va n v e true remoteOk sc od s r c =
      release s r c (if Ord.rel_ od then sc else .slot) r.node (sendAtom i va n v e s r c) := by
  unfold atomAct
  rcases good with ⟨near, below⟩ | ⟨away, may, eight, there, other⟩
  · simp only [even, near, outside, Bool.not_true, Bool.false_eq_true, if_false, ne_eq, not_true_eq_false, false_and, if_neg (Nat.not_le.2 below)]
  · subst may
    subst eight
    simp only [even, away, outside, there, other, Bool.not_true, Bool.false_eq_true, if_false, ne_eq, not_true_eq_false, or_self, and_false, if_true]
theorem sendAtom_asks (near : isRemote va = false) (clean : noErrs s = true)
    (x : xlate s r.node c.d.job c.d.det 2 va.toNat = .ok pa s1) (home : homeFor s1 r c pa false = some hm) :
    sendAtom i va n v e s r c =
      .wait (sendReq { s1 with no := s1.no + 1 } r c hm.1 pa va (atomOp i n v e) false s1.no (recNo c)) s1.no .reply 0 0 va [] := by
  unfold sendAtom
  simp only [near, Bool.false_eq_true, if_false, withXlate_ok clean x, home]
  rfl
end

section
variable {s : State} {f : Form} {body : State → SlotRef → Ctx → Act} {va v e : Word} {n : Nat} {remoteOk : Bool} {sc : Scope} {od : Ord} {o : Outc}
  (ready : Ready s f.h f.srcs f.dsts f.rgn) (outside : (me s).region = none) (run : o = runForm f body s)
  (is : body s s.cur (me s) = atomAct f.i va n v e true remoteOk sc od s s.cur (me s))
include ready outside run is

/-- What an atomic of a good size does in global memory (R245). -/
theorem atomForm_global {q : MemOp} (op : atomOp f.i n v e = q) :
    let wide := if Ord.rel_ od then sc else .slot
    (va.toNat % n ≠ 0 → Faults s 0x06 va 0 o) ∧
    (va.toNat % n = 0 → isRemote va = false → 2 ^ 56 ≤ va.toNat → Faults s 0x09 va 0 o) ∧
    (va.toNat % n = 0 → isRemote va = false → va.toNat < 2 ^ 56 →
      (releaseOk s s.cur (me s).uid wide s.cur.node = false → Parks s f.h (waitBy s f.i s.no .cond 0 0 0 []) { s with no := s.no + 1 } o) ∧
      ∀ pa s1 hm, releaseOk s s.cur (me s).uid wide s.cur.node = true → noErrs s = true →
        xlate s s.cur.node (me s).d.job (me s).d.det 2 va.toNat = .ok pa s1 → homeFor s1 s.cur (me s) pa false = some hm →
        let s2 := sendReq { s1 with no := s1.no + 1 } s.cur (me s) hm.1 pa va q false s1.no (if (me s).d.det then none else some (me s).recSeq)
        Parks s f.h (waitBy s f.i s1.no .reply 0 0 va []) s2 o ∧ s2.mem = s.mem) := by
  subst run op
  refine ⟨fun odd => ?_, fun even near far => ?_, fun even near below => ⟨fun held => ?_, fun pa s1 hm free clean x home => ?_⟩⟩
  · exact runForm_trap f body s _ _ _ ready (is.trans (atomAct_misaligned odd))
  · exact runForm_trap f body s _ _ _ ready (is.trans (atomAct_beyond even near far))
  · exact runForm_relWaits ready held (is.trans (atomAct_goes outside even (.inl ⟨near, below⟩)))
  · have sent : OnlySent s { s1 with no := s1.no + 1 } := (xlate_sent x).trans (.no ..)
    have asks := is.trans ((atomAct_goes outside even (.inl ⟨near, below⟩)).trans ((release_performed free _).trans (sendAtom_asks near clean x home)))
    exact ⟨runForm_waitNow f body s _ _ _ _ _ _ _ ready ((sendReq_now ..).trans sent.now) asks, (sendReq_mem ..).trans sent.mem⟩
/-- What an atomic does whose address names another tile's scratchpad (R245). -/
theorem atomForm_pad {q : SpOp} (op : atomSpOp f.i v e = q) (may : remoteOk = true) : n = 8 → PadAway s va 8 8 →
    releaseOk s s.cur (me s).uid (if Ord.rel_ od then sc else .slot) s.cur.node = true → AsksPad s f.h f.i va q false o := by
  subst run op
  intro eight ⟨away, _, even, there, other⟩ free
  have even : va.toNat % n = 0 := by rwa [eight]
  refine runForm_asks f body s va _ false ready (is.trans ((atomAct_goes outside even (.inr ⟨away, may, eight, there, other⟩)).trans
    ((release_performed free _).trans ?_)))
  unfold sendAtom
  exact if_pos away
omit outside in
theorem atomForm_refused (even : va.toNat % n = 0) (away : isRemote va = true) (bad : remoteOk = false ∨ n ≠ 8) : Faults s 0x03 0 0 o := by
  subst run
  exact runForm_trap f body s _ _ _ ready (is.trans (atomAct_remote even away bad))
end

section
variable {s : State} {h : Hdr} {sz : Sz} {sc : Scope} {od : Ord} {op : AOp} {p : BitVec 3} {d a b : SIx} {ofs : BitVec 32}

/-- An atomic of a size outside the column of its operation (R245). -/
theorem exec_atom_size (ready : Ready s h [.s a, .s b] [.s d] true) (bad : aopSize op sz.bytes = false) :
    Faults s 0x03 0 0 (exec (.atom h sz sc od op d a b ofs) s) ∧ Faults s 0x03 0 0 (exec (.atomDet h sz sc od op d a b ofs) s) :=
  ⟨runForm_trap { i := .atom h sz sc od op d a b ofs, h := h, srcs := [.s a, .s b], dsts := [.s d], rgn := true } _ s _ _ _ ready
      (by rw [bad, atomAct_size]; rfl),
    runForm_trap { i := .atomDet h sz sc od op d a b ofs, h := h, srcs := [.s a, .s b], dsts := [.s d], rgn := true } _ s _ _ _ ready
      (by rw [bad, atomAct_size]; rfl)⟩
/-- The expected value of a CAS has no bit beyond its size. -/
theorem atomOp_cas (x v : Word) (n : Nat) : atomOp (.cas h sz sc od p d a b ofs) n v (x &&& BitVec.ofNat 64 (2 ^ (8 * n) - 1)) =
    .cas n (x &&& BitVec.ofNat 64 (2 ^ (8 * n) - 1)) v := by
  show MemOp.cas n _ v = _
  rw [BitVec.and_assoc, BitVec.and_self]
end

/-- Settles O21: the checks in their order, then what the order of the form waits for, then the request. -/
theorem atomicFormsRequest : Obligations.AtomicFormsRequest := by
  unfold Obligations.AtomicFormsRequest
  intro s h sz sc od op p d a b ofs outside _
  refine ⟨fun ready => ⟨exec_atom_size ready, fun fits => ?_⟩, fun ready => ?_⟩
  · let f (i : Instr) : Form := { i := i, h := h, srcs := [.s a, .s b], dsts := [.s d], rgn := true }
    have is (i : Instr) (remoteOk : Bool) : atomAct i (eaOf (me s) a ofs) sz.bytes (rs (me s) b) 0 (aopSize op sz.bytes) remoteOk sc od s s.cur (me s) =
        atomAct i (eaOf (me s) a ofs) sz.bytes (rs (me s) b) 0 true remoteOk sc od s s.cur (me s) := by
      rw [show aopSize op sz.bytes = true from fits]
    exact ⟨atomForm_global (f := f (.atom h sz sc od op d a b ofs)) ready outside rfl (is _ _) rfl,
      atomForm_global (f := f (.atomDet h sz sc od op d a b ofs)) ready outside rfl (is _ _) rfl,
      fun may => atomForm_pad (f := f (.atom h sz sc od op d a b ofs)) ready outside rfl (is _ _) rfl may, fun even away =>
        ⟨atomForm_refused (f := f (.atomDet h sz sc od op d a b ofs)) ready rfl (is _ _) even away (.inl rfl),
          atomForm_refused (f := f (.atom h sz sc od op d a b ofs)) ready rfl (is _ _) even away⟩⟩
  · let f : Form := { i := .cas h sz sc od p d a b ofs, h := h, srcs := [.s a, .s b, .s d], dsts := [.s d] ++ pDst p, rgn := true }
    exact ⟨atomForm_global (f := f) ready outside rfl rfl (atomOp_cas ..), atomForm_pad (f := f) ready outside rfl rfl rfl rfl,
      fun even away odd => atomForm_refused (f := f) ready rfl rfl even away (.inr odd)⟩

/-- What a unit waits for whose wait limit has passed while its access could not be taken back. -/
def overduePark : Park := { waitBy State.reset (.nop ⟨0, false, 0, 0⟩) 0 .reply 0 0 0 [] with limitDue := true }
/-- A machine whose unit in slot 0 of tile 0 waits so, in its fault handler, with an open packet, and owes a value to the unit that spawned it. -/
def overdue : State := modSlot State.reset ⟨0, 0, 0⟩ fun l =>
  { l with ph := .bound, ctx := { l.ctx with
      d := { l.ctx.d with origin := some ⟨⟨0, 1, 0⟩, 4, some 9⟩ }, cause := 0x8000000000000020, packet := some (127, 63), park := some overduePark } }
/-- The credit ends the wait, the fault that was due ends the unit, and the value it owes is sent and outstanding (R92, R101, R341). -/
theorem outs_overdue : (evPostedStoreCreditLand ⟨⟨0, 0, 0⟩, 0, 0⟩ .done overdue).outs.length = 1 := by decide +kernel

/-- Refutes O22, in its last clause: a credit may end a wait at whose end a fault is due, and a unit that this fault ends sends the value it
owes to its spawner. That message is outstanding too, and the statement's list, the old one without the store, does not hold it. -/
theorem not_controllersServeRequests : ¬ Obligations.ControllersServeRequests := by
  rintro ⟨-, -, -, -, -, -, credit⟩
  obtain ⟨t, e, -, outs, -⟩ := credit overdue ⟨⟨0, 0, 0⟩, 0, 0⟩
  obtain rfl : evPostedStoreCreditLand ⟨⟨0, 0, 0⟩, 0, 0⟩ .done overdue = t := Host.Outcome.next.inj e
  have count := congrArg List.length outs
  rw [outs_overdue] at count
  cases count

end Sys2Proof.Machine
end

section
/-! Remote regions: opening, rolling back, holding stores and committing (R250 to R252). -/

namespace Sys2Proof.Machine

/-- A form that completes after a change of its unit alone. -/
theorem DoneIn.unitOnly {s s' : State} {h : Hdr} {c : Ctx} {o : Outc} (e : DoneIn s h s' o) (b : (slotAt s s.cur).ph = .bound)
    (only : OnlyUnit s s') (ctx : ctxAt s' s.cur = c) (q : c.pc = (me s).pc ∧ c.issued = (me s).issued ∧ c.packet = (me s).packet ∧
      c.readyFrom = (me s).readyFrom) : UnitOnly s h c o := by
  have lt : s.cur.slot < 16 := slot_lt s _ (by rw [b]; decide)
  obtain ⟨pc, issued, packet, ready⟩ := q
  refine ⟨_, e, only.trans (.modCtx _ _ _ lt), ?_⟩
  rw [complete_ctx _ _ _ _ lt, ctx, ← pc, ← issued, ← packet, ← ready, only.now]
  rfl

/-! ### RGN.BEGIN (R250) -/

/-- The target that the distance to a region's handler names. -/
abbrev rgnTarget (s : State) (off : BitVec 48) : Word := (me s).pc + 12 * off.signExtend 64
/-- The first s register that awaits a spawn return. -/
def firstRet (c : Ctx) : Option Nat := (List.range 64).find? fun i => presOf c (.s (BitVec.ofNat 6 i)) = .ret
theorem firstRet_some {c : Ctx} {i : SIx} (ret : presOf c (.s i) = .ret) (first : ∀ j : SIx, j < i → presOf c (.s j) ≠ .ret) :
    firstRet c = some i.toNat := by
  refine List.find?_range_eq_some.2 ⟨by simpa using ret, List.mem_range.2 i.isLt, fun j lt => ?_⟩
  have jlt : j < 64 := lt.trans i.isLt
  simpa using first (BitVec.ofNat 6 j) (by rw [BitVec.lt_def, BitVec.toNat_ofNat, Nat.mod_eq_of_lt jlt]; exact lt)
theorem firstRet_none {c : Ctx} (no : ∀ i : SIx, presOf c (.s i) ≠ .ret) : firstRet c = none :=
  List.find?_eq_none.2 fun i _ => by simpa using no (BitVec.ofNat 6 i)
/-- An s, p or k register is pending. -/
abbrev anyPending (c : Ctx) : Prop := Pres.pending ∈ c.sP.toList ∨ Pres.pending ∈ c.pP.toList ∨ Pres.pending ∈ c.kP.toList
/-- The region that RGN.BEGIN opens, with the unit's registers as its checkpoint. -/
def opened (c : Ctx) (t : Word) (d : SIx) : Region :=
  { beginPc := c.pc, handler := t, causeReg := d, s := c.s, sP := c.sP, k := c.k, kP := c.kP, p := c.p, pP := c.pP, stores := [], atomic := none }

section
variable {s : State} {h : Hdr} {d : SIx} {off : BitVec 48} (ready : Ready s h [] [.s d] true)
include ready

theorem rgnBegin_inside (inside : (me s).region.isSome = true) : Faults s 0x10 0 0 (exec (.rgnBegin h d off) s) :=
  runForm_trap _ _ s _ _ _ ready (if_pos inside)

variable (outside : (me s).region = none)
include outside

theorem rgnBegin_badTarget : BadTarget s (rgnTarget s off) (exec (.rgnBegin h d off) s) :=
  badTarget_of_trap ready fun f bad => by
    have bad : targetFault (branchTo (me s) off) = some f := bad
    simp only [outside, Option.isSome_none, Bool.false_eq_true, if_false, bad]
    rfl

variable (good : GoodTarget (rgnTarget s off))
include good

theorem rgnBegin_awaits {i : Nat} (ret : firstRet (me s) = some i) :
    Parks s h (waitBy s (.rgnBegin h d off) s.no .cond 4 i 0 []) { s with no := s.no + 1 } (exec (.rgnBegin h d off) s) := by
  have good : targetFault (branchTo (me s) off) = none := targetFault_good good
  unfold firstRet at ret
  refine runForm_cond _ _ s _ _ _ ready ?_
  simp only [outside, Option.isSome_none, Bool.false_eq_true, if_false, good, ret]

variable (none_ : firstRet (me s) = none)
include none_

theorem rgnBegin_pending (pend : anyPending (me s)) :
    Parks s h (waitBy s (.rgnBegin h d off) s.no .cond 0 0 0 []) { s with no := s.no + 1 } (exec (.rgnBegin h d off) s) := by
  have good : targetFault (branchTo (me s) off) = none := targetFault_good good
  unfold firstRet at none_
  refine runForm_cond _ _ s _ _ _ ready ?_
  simp only [outside, Option.isSome_none, Bool.false_eq_true, if_false, good, none_]
  exact if_pos (by simpa [anyPending] using pend)

theorem rgnBegin_opens (free : ¬ anyPending (me s)) :
    UnitOnly s h { me s with region := some (opened (me s) (rgnTarget s off) d) } (exec (.rgnBegin h d off) s) := by
  have good : targetFault (branchTo (me s) off) = none := targetFault_good good
  unfold firstRet at none_
  refine DoneIn.onlyCtx (f := fun c => { c with region := some (opened (me s) (rgnTarget s off) d) }) (runForm_done _ _ s _ ready ?_)
    ready.bound ⟨rfl, rfl, rfl, rfl⟩
  simp only [outside, Option.isSome_none, Bool.false_eq_true, if_false, good, none_]
  exact if_neg (by simpa [anyPending] using free)
end

/-! ### RGN.ABORT and RGN.COMMIT (R250, R252) -/

section
variable {c : Ctx} {g : Region} {code detail : Nat}
theorem rollCtx_keeps : let e := rollCtx c g code detail
    e.region = none ∧ e.v = c.v ∧ e.vP = c.vP ∧ e.p = g.p ∧ e.pP = g.pP ∧ e.k = g.k ∧ e.kP = g.kP := by
  unfold rollCtx setPres setVal
  dsimp only
  split <;> exact ⟨rfl, rfl, rfl, rfl, rfl, rfl, rfl⟩
theorem rollCtx_other {i : SIx} (other : i ≠ g.causeReg) : let e := rollCtx c g code detail
    e.s[i.toNat] = g.s[i.toNat] ∧ e.sP[i.toNat] = g.sP[i.toNat] := by
  have apart : g.causeReg.toNat ≠ i.toNat := fun q => other (BitVec.eq_of_toNat_eq q.symm)
  unfold rollCtx setPres setVal
  dsimp only
  split
  · exact ⟨rfl, rfl⟩
  · exact ⟨Vector.getElem_set_ne g.causeReg.isLt i.isLt apart, Vector.getElem_set_ne g.causeReg.isLt i.isLt apart⟩
theorem rollCtx_cause (real : g.causeReg ≠ 0) : let e := rollCtx c g code detail
    e.s[g.causeReg.toNat] = BitVec.ofNat 64 (code + detail * 2 ^ 8) ∧ e.sP[g.causeReg.toNat] = .full := by
  unfold rollCtx setPres setVal
  simp only [if_neg real]
  exact ⟨by simp, by simp⟩
end

section
variable {s : State} {h : Hdr} {cc : Bool} (ready : Ready s h [] [] true)
include ready

theorem rgnAbort_outside (outside : (me s).region = none) : Faults s 0x03 0 0 (exec (.rgnAbort h) s) :=
  runForm_trap _ _ s _ _ _ ready (by simp only [outside]; rfl)
theorem rgnCommit_outside (outside : (me s).region = none) : Faults s 0x03 0 0 (exec (.rgnCommit h cc) s) :=
  runForm_trap _ _ s _ _ _ ready (by simp only [outside]; rfl)

variable {g : Region} (inside : (me s).region = some g)
include inside

theorem rgnAbort_rolls : ∃ u, exec (.rgnAbort h) s = .next u ∧ OnlyUnit s u ∧
    ctxAt u s.cur = { countIssue h.hq.toNat (rollCtx (me s) g 0 1) with
      pc := g.handler, park := none, readyFrom := max (rollCtx (me s) g 0 1).readyFrom (s.now + 1) } := by
  have lt : s.cur.slot < 16 := slot_lt s _ (by rw [ready.bound]; decide)
  have rolled := OnlySlot.modCtx s s.cur (fun c => rollCtx c g 0 1) lt
  have run : exec (.rgnAbort h) s = .next (complete (modCtx s s.cur fun c => rollCtx c g 0 1) s.cur h.hq.toNat (some g.handler)) := by
    refine (runForm_ready _ _ s ready).trans ?_
    simp only [inside, rollAct]
    rw [applyAct_jump _ _ _ _ ready.toFit]
  refine ⟨_, run, rolled.trans (.modCtx _ _ _ lt), ?_⟩
  rw [complete_ctx _ _ _ _ lt, ctxAt_modCtx_self _ _ _ lt, rolled.now]
  rfl

variable (open_ : g.committing = false) (free : g.atomic = none)
include open_ free

theorem rgnCommit_noCas (cas : cc = true) : Faults s 0x03 0 0 (exec (.rgnCommit h cc) s) :=
  runForm_trap _ _ s _ _ _ ready (by simp [inside, open_, free, cas, heldCas]; rfl)

/-- RGN.COMMIT of a region with no atomic left releases its held stores. -/
theorem rgnCommit_drains {a : Act} (drains : drainStores 33 false (modCtx s s.cur fun c => { c with region := some g.answered }) s.cur = a) :
    exec (.rgnCommit h false) s =
      .next (applyAct s s.cur (me s).uid { i := .rgnCommit h false, h := h, rgn := true } a) := by
  refine (runForm_ready _ _ s ready).trans ?_
  simp only [inside, open_, free, Bool.false_and, Bool.false_eq_true, if_false, drains]
theorem rgnCommit_empty (empty : g.stores = []) : UnitOnly s h { me s with region := none } (exec (.rgnCommit h false) s) := by
  have lt : s.cur.slot < 16 := slot_lt s _ (by rw [ready.bound]; decide)
  let u := modCtx s s.cur fun c => { c with region := some g.answered }
  have ctx : ctxAt u s.cur = { me s with region := some g.answered } := ctxAt_modCtx_self _ _ _ lt
  have drains := drainStores_nil 32 false u s.cur (by rw [ctx]; exact empty)
  have done := (rgnCommit_drains ready inside open_ free drains).trans (congrArg _ (applyAct_done _ _ _ ready.toFit))
  refine DoneIn.unitOnly done ready.bound ((OnlySlot.modCtx _ _ _ lt).trans (.modCtx _ _ _ lt)) ?_ ⟨rfl, rfl, rfl, rfl⟩
  rw [ctxAt_modCtx_self _ _ _ lt, ctx]
/-- One held store to the own scratchpad, performed as the region is committed (R251, R252, R294). -/
theorem rgnCommit_pad {x : HeldStore} (one : g.stores = [x]) (pad : x.scratch = true) (near : isRemote x.va = false) (fresh : x.sent = none)
    (performed : Ord.rel_ x.od = true → releaseOk s s.cur (me s).uid x.sc s.cur.node = true) :
    ∃ u, exec (.rgnCommit h false) s = .next u ∧ u.mem = s.mem ∧ (ctxAt u s.cur).region = none ∧
      (ctxAt u s.cur).pc = (me s).pc + 12 ∧ Stored (here s).sp (tileAt u s.cur.node).sp x.va.toNat x.data := by
  have lt : s.cur.slot < 16 := slot_lt s _ (by rw [ready.bound]; decide)
  let u := modCtx s s.cur fun c => { c with region := some g.answered }
  let p := popStore u s.cur
  let w := padStore p s.cur.node x.va.toNat x.data
  have ctxU : ctxAt u s.cur = { me s with region := some g.answered } := ctxAt_modCtx_self _ _ _ lt
  have ctxP : ctxAt p s.cur = { me s with region := some { g.answered with stores := [] } } := by
    refine (ctxAt_modCtx_self _ _ _ lt).trans ?_
    simp [ctxU, Region.answered, one]
  have ctxW : ctxAt w s.cur = _ := (ctxAt_padStore ..).trans ctxP
  have spP : (tileAt p s.cur.node).sp = (here s).sp := (sp_modCtx ..).trans (sp_modCtx ..)
  have drains : drainStores 33 false u s.cur = .done (modCtx w s.cur fun c => { c with region := none }) :=
    (drainStores_pad 32 false u s.cur x [] (by rw [ctxU]; exact one) pad near fresh (by rw [ctxU]; exact performed)).trans
      (drainStores_nil 31 true w s.cur (by rw [ctxW]; rfl))
  have done := (rgnCommit_drains ready inside open_ free drains).trans (congrArg _ (applyAct_done _ _ _ ready.toFit))
  refine ⟨_, done, (mem_padStore ..).1, ?_, ?_, ?_⟩
  · rw [complete_ctx _ _ _ _ lt, ctxAt_modCtx_self _ _ _ lt]; rfl
  · rw [complete_ctx _ _ _ _ lt, ctxAt_modCtx_self _ _ _ lt, ctxW]; rfl
  · rw [complete, sp_modCtx, sp_modCtx, sp_padStore, spP]
    exact stored_cellsWrite (here s).sp x.va.toNat x.data
end

/-! ### Stores inside a region (R251) -/

/-- Two changes of a slot's context that give the same are the same change. -/
theorem modCtx_congr {s : State} {r : SlotRef} {f g : Ctx → Ctx} (e : f (ctxAt s r) = g (ctxAt s r)) : modCtx s r f = modCtx s r g := by
  refine congrArg (setTile s r.node) ?_
  by_cases lt : r.slot < 16
  · have at_ : (tileAt s r.node).slots[r.slot] = slotAt s r := by simp [slotAt, List.getD_eq_getElem?_getD, lt]
    simp only [Tile.modSlot, dif_pos lt, at_, show f (slotAt s r).ctx = g (slotAt s r).ctx from e]
  · simp only [Tile.modSlot, dif_neg lt]

/-- A GST inside a region is held there, and sends nothing. -/
theorem gst_held {s s1 : State} {h : Hdr} {sz : Sz} {sc : Scope} {od : Ord} {a b : SIx} {ofs : BitVec 32} {g : Region} {pa : Nat}
    {hm : Node × MemKind} (inside : (me s).region = some g) (ready : Ready s h [.s a, .s b] [] true)
    (near : (eaOf (me s) a ofs).toNat < 2 ^ 56) (even : (eaOf (me s) a ofs).toNat % sz.bytes = 0) (clean : noErrs s = true)
    (hit : xlate s s.cur.node (me s).d.job (me s).d.det 1 (eaOf (me s) a ofs).toNat = .ok pa s1)
    (home : homeFor s1 s.cur (me s) pa true = some hm) :
    let o := exec (.gst h sz sc od a b ofs) s
    let x : HeldStore := { va := eaOf (me s) a ofs, data := bytesOfNat sz.bytes (rs (me s) b).toNat, scratch := false, sc := sc, od := od }
    (16 ≤ g.stores.length → Faults s 0x11 0 0 o) ∧
    (g.stores.length < 16 → DoneIn s h (modCtx s1 s.cur fun c => { c with region := some { g with stores := g.stores ++ [x] } }) o) := by
  intro o x
  have good : addrFault x.va x.data.length = none := addrFault_none near (by rw [bytesOfNat_length]; exact even)
  have holds : storeAct x.va x.data sc od s s.cur (me s) = holdStore s1 s.cur (me s) x :=
    storeAct_held good (by rw [inside]; rfl) clean hit home
  have held : heldOf (me s) = g.stores := by rw [heldOf, inside]; rfl
  unfold holdStore at holds
  rw [held] at holds
  refine ⟨fun full => runForm_trap _ _ s _ _ _ ready (holds.trans (if_pos full)), fun room => ?_⟩
  have same : (ctxAt s1 s.cur).region = some g := by rw [(xlate_sent hit).ctxAt]; exact inside
  have done : DoneIn s h _ o := runForm_done { i := .gst h sz sc od a b ofs, h := h, srcs := [.s a, .s b], rgn := true } _ s _ ready
    (holds.trans (if_neg (Nat.not_le.2 room)))
  rwa [modCtx_congr (g := fun c => { c with region := some { g with stores := g.stores ++ [x] } }) (by simp only [same, Option.map_some])] at done

/-! ### The obligation -/

/-- Settles O23: each form by its cases. RGN.ABORT leaves the checkpoint with the cause word in its register. -/
theorem regionsHoldAndReleaseStores : Obligations.RegionsHoldAndReleaseStores := by
  unfold Obligations.RegionsHoldAndReleaseStores
  refine ⟨fun s h d off cc => ⟨fun ready => ?_, fun ready => ?_⟩, fun s h sz sc od a b ofs g inside => ⟨?_, ?_⟩⟩
  · refine ⟨rgnBegin_inside ready, fun out => (rgnBegin_badTarget ready out).1, fun out => (rgnBegin_badTarget ready out).2, ?_⟩
    exact fun out even near => ⟨fun i ret first => rgnBegin_awaits ready out ⟨even, near⟩ (firstRet_some ret first),
      fun no => rgnBegin_pending ready out ⟨even, near⟩ (firstRet_none no),
      fun no => rgnBegin_opens ready out ⟨even, near⟩ (firstRet_none no)⟩
  · refine ⟨fun out => ⟨rgnAbort_outside ready out, rgnCommit_outside ready out⟩, fun g inside => ⟨?_, rgnCommit_noCas ready inside, ?_⟩⟩
    · obtain ⟨u, run, only, ctx⟩ := rgnAbort_rolls ready inside
      obtain ⟨region, v, vP, p, pP, k, kP⟩ := rollCtx_keeps (c := me s) (g := g) (code := 0) (detail := 1)
      refine ⟨u, run, only, ?_⟩
      dsimp only
      rw [ctx]
      refine ⟨region, rfl, v, vP, p, pP, k, kP, fun i other => ?_, fun real => ?_⟩
      · obtain ⟨value, pres⟩ := rollCtx_other (c := me s) (code := 0) (detail := 1) other
        exact ⟨by rw [← value]; rfl, pres⟩
      · obtain ⟨value, pres⟩ := rollCtx_cause (c := me s) (code := 0) (detail := 1) real
        exact ⟨(if_neg real).trans value, pres⟩
    · rintro open_ free rfl
      exact rgnCommit_empty ready inside open_ free
  · exact fun ready _ near even clean pa s1 hm hit home =>
      have held := gst_held inside ready near even clean hit home
      ⟨held.1, fun room => ⟨xlate_sent hit, held.2 room⟩⟩
  · exact fun ready open_ free x => rgnCommit_pad ready inside open_ free

end Sys2Proof.Machine
end

section
/-! The heap forms, their allocators, and the allocators' replies (R254 to R257, R397). -/

namespace Sys2Proof.Machine

/-! ### The heap forms ask (R254) -/

section
variable {s : State} {h : Hdr} {f : Form} {a : SIx} {n : BitVec 4} {k : SvcKind}

/-- A heap form, ready, asks the allocator of its tile. -/
theorem runForm_heapAct {body : State → SlotRef → Ctx → Act} (ready : Ready s f.h f.srcs f.dsts f.rgn)
    (is : body s s.cur (me s) = heapAct s s.cur (me s) k) :
    AsksSvc s f.h f.i (svcOf s (allocPeer s.cur) none k) (.allocatorRequest (allocPeer s.cur)) 0 0 (runForm f body s) :=
  runForm_svc f body s (allocPeer s.cur) none k 0 (.allocatorRequest (allocPeer s.cur)) ready is
/-- The forms of ALLOC. -/
theorem runForm_allocAct {body : State → SlotRef → Ctx → Act} (ready : Ready s f.h f.srcs f.dsts f.rgn)
    (is : body s s.cur (me s) = allocAct n (rs (me s) a) s s.cur (me s)) :
    ((rs (me s) a = 0 ∨ 2 ^ 36 < (rs (me s) a).toNat) → Faults s 0x03 0 0 (runForm f body s)) ∧
    (rs (me s) a ≠ 0 → (rs (me s) a).toNat ≤ 2 ^ 36 → AsksSvc s f.h f.i (svcOf s (allocPeer s.cur) none (.alloc n.toNat (rs (me s) a)))
      (.allocatorRequest (allocPeer s.cur)) 0 0 (runForm f body s)) :=
  ⟨fun bad => runForm_trap f body s _ _ _ ready (is.trans (if_pos bad)),
    fun some small => runForm_heapAct ready (is.trans (if_neg (not_or.2 ⟨some, Nat.not_lt.2 small⟩)))⟩

variable (ready : Ready s h [.s a] [] false)
include ready

theorem exec_free_null (null : rs (me s) a = 0) : UnitOnly s h (me s) (exec (.free h n a) s) :=
  (runForm_done _ _ s s ready (if_pos null)).onlyCtx' ready.bound
theorem exec_free_asks (some : rs (me s) a ≠ 0) (free : releaseOk s s.cur (me s).uid .dom s.cur.node = true) :
    AsksSvc s h (.free h n a) (svcOf s (allocPeer s.cur) none (.free n.toNat (rs (me s) a))) (.allocatorRequest (allocPeer s.cur)) 0 0
      (exec (.free h n a) s) :=
  runForm_heapAct (f := { i := .free h n a, h := h, srcs := [.s a] }) ready ((if_neg some).trans (release_performed free _))
theorem exec_free_waits (some : rs (me s) a ≠ 0) (held : releaseOk s s.cur (me s).uid .dom s.cur.node = false) :
    RelWaits s h (.free h n a) (exec (.free h n a) s) :=
  runForm_relWaits (f := { i := .free h n a, h := h, srcs := [.s a] }) ready held (if_neg some)
theorem exec_quota_asks (may : (me s).d.root = true ∨ isSupervisor s s.cur (me s).d.job = true) :
    AsksSvc s h (.heapInfoQuota h n a) (svcOf s (allocPeer s.cur) none (.heapQuota n.toNat (rs (me s) a)))
      (.allocatorRequest (allocPeer s.cur)) 0 0 (exec (.heapInfoQuota h n a) s) :=
  runForm_heapAct (f := { i := .heapInfoQuota h n a, h := h, srcs := [.s a] }) ready (if_neg (by rcases may with q | q <;> simp [q]))
theorem exec_quota_refused (plain : (me s).d.root = false) (other : isSupervisor s s.cur (me s).d.job = false) :
    Faults s 0x03 0 0 (exec (.heapInfoQuota h n a) s) :=
  runForm_trap _ _ s _ _ _ ready (if_pos (by simp [plain, other]))
end

/-! ### What an allocator keeps of the state -/

theorem now_takeTable {s t : State} {n : Node} {job : Word} {a : Nat} (e : takeTable s n job = some (a, t)) : t.now = s.now := by
  unfold takeTable at e
  dsimp only at e
  split at e
  · cases e
    rfl
  · simp only [Option.map_eq_some_iff] at e
    obtain ⟨x, -, e⟩ := e
    cases e
    rfl
theorem now_mapFrom {n : Node} {job : Word} {va leaf : Nat} (lvl : Nat) {s t : State} {tbl : Nat}
    (e : mapFrom s n job va leaf lvl tbl = some t) : t.now = s.now := by
  induction lvl generalizing s tbl with
  | zero =>
    cases e
    rfl
  | succ lvl ih =>
    unfold mapFrom at e
    dsimp only at e
    split at e
    · exact ih e
    · split at e
      · cases e
      · split at e
        · cases e
        · next taken => exact (ih e).trans (now_takeTable taken :)
theorem now_foldlM {α : Type} (f : State → α → Option State) (keeps : ∀ s a t, f s a = some t → t.now = s.now)
    (l : List α) {s t : State} (e : l.foldlM f s = some t) : t.now = s.now := by
  induction l generalizing s with
  | nil =>
    cases e
    rfl
  | cons a l ih =>
    obtain ⟨u, hu, e⟩ := Option.bind_eq_some_iff.1 e
    exact (ih e).trans (keeps s a u hu)
theorem now_mapPage {s t : State} {n : Node} {j : Job} {va leaf : Nat} (e : mapPage s n j va leaf = some t) : t.now = s.now :=
  now_foldlM _ (fun _ _ _ => now_mapFrom 3) _ e
/-- Mapping pages takes no time. -/
theorem now_mapPages {n : Node} {j : Job} (k : Nat) {s t : State} {va : Nat} (e : mapPages s n j k va = some t) : t.now = s.now := by
  induction k generalizing s va with
  | zero =>
    cases e
    rfl
  | succ k ih =>
    unfold mapPages at e
    split at e
    · exact ih e
    · split at e
      · cases e
      · dsimp only at e
        split at e
        · cases e
        · next mapped => exact (ih e).trans (now_mapPage mapped :)
/-- Freed or new bytes become unspecified; what allocators hold stays, and no time passes. -/
theorem scrambleVa_keeps {n : Node} {job : Word} (fuel : Nat) {s : State} {va len : Nat} :
    (scrambleVa s n job fuel va len).now = s.now ∧ (scrambleVa s n job fuel va len).pkgs = s.pkgs := by
  induction fuel generalizing s va len with
  | zero => exact ⟨rfl, rfl⟩
  | succ fuel ih =>
    unfold scrambleVa
    split
    · exact ⟨rfl, rfl⟩
    · dsimp only
      split
      · exact ih
      · exact ih
theorem allocAt_congr {s t : State} (same : t.pkgs = s.pkgs) (n : Node) : allocAt t n = allocAt s n := by
  unfold allocAt pkgAt
  rw [same]
theorem allocAt_modAlloc (s : State) (n : Node) (f : Allocator → Allocator) : allocAt (modAlloc s n f) n = f (allocAt s n) := by
  unfold allocAt modAlloc
  rw [pkgAt_modPkg_self]
  exact aget_aset_self ..
theorem heapOf_names (al : Allocator) (job : Word) (heap : Nat) : (heapOf al job heap).job = job ∧ (heapOf al job heap).n = heap := by
  unfold heapOf
  cases found : al.heaps.find? fun h => h.job = job ∧ h.n = heap with
  | none => exact ⟨rfl, rfl⟩
  | some x => simpa using List.find?_some found
theorem heapOf_setHeap (al : Allocator) (h : Heap) : heapOf (setHeap al h) h.job h.n = h := by simp [heapOf, setHeap]

/-- The heap of an allocator after it is replaced and counted. -/
theorem heapOf_replaced {s : State} {n : Node} {g : Allocator → Heap} {job : Word} {heap : Nat} {f : HeapCount → HeapCount}
    (names : (g (allocAt s n)).job = job ∧ (g (allocAt s n)).n = heap) :
    heapOf (allocAt (modCount (modAlloc s n fun al => setHeap al (g al)) job heap f) n) job heap = g (allocAt s n) := by
  obtain ⟨rfl, rfl⟩ := names
  exact (congrArg (heapOf · _ _) (allocAt_modAlloc s n fun al => setHeap al (g al))).trans (heapOf_setHeap ..)

/-! ### An allocator serves and answers (R255, R256, R397) -/

theorem now_serveAlloc (s : State) (n : Node) (q : SvcReq) (heap : Nat) (size : Word) : (serveAlloc s n q heap size).1.now = s.now := by
  unfold serveAlloc
  split
  · rfl
  · dsimp only
    split
    · rfl
    · split
      · rfl
      · split
        · rfl
        · next mapped => exact (scrambleVa_keeps _).1.trans (now_mapPages _ mapped :)
theorem now_serveHeap (s : State) (n : Node) (q : SvcReq) : (serveHeap s n q).1.now = s.now := by
  unfold serveHeap
  split
  · exact now_serveAlloc ..
  · unfold serveFree
    split
    · rfl
    · exact (scrambleVa_keeps _).1
  · rfl
  · rfl
  · rfl

/-- The reply of an allocator, back to the vault's allocator that had forwarded the request. -/
def allocBack (u : State) (N : Node) (q : SvcReq) (x : SvcReply) : State :=
  sendAt u (u.now + 48) ⟨q.who.slot, N, q.peer, 4, 1, [4, 6, slotKey q.who.slot, 1], some q.launch, true,
    .allocatorRequest q.peer { q with kind := .answered x, turn := false }⟩
/-- The answer of an allocator to a request, by whether the slot asked that allocator. -/
def allocAnswer (u : State) (N : Node) (q : SvcReq) (x : SvcReply) : State := if N = q.peer then allocReply u q x else allocBack u N q x
/-- A vault's allocator passing a request on to that of far memory. -/
def allocForward (u : State) (N : Node) (q : SvcReq) : State :=
  sendAt u u.now ⟨q.who.slot, N, svcN N.pkg, 3, 1, [3, 6, slotKey q.who.slot, 1], some q.launch, false,
    .allocatorRequest (svcN N.pkg) { q with turn := false }⟩

section
variable {s : State} {N : Node} {q : SvcReq}

theorem allocatorRequest_answered {x : SvcReply} (kind : q.kind = .answered x) : exec (.allocatorRequest N q) s = .next (allocReply s q x) := by
  refine congrArg Host.Outcome.next ?_
  unfold evAllocatorRequest
  simp only [kind]

section
variable (fresh : ∀ x, q.kind ≠ .answered x) {out : State → Outc → Prop}
include fresh

/-- An allocator that forwards a request does so when its turn comes. -/
theorem allocatorRequest_forwards (far : forwards N q = true)
    (does : ∀ v, out { s with served := v } (.next (allocForward { s with served := v } N q))) :
    InTurn s q.turn (peerKey N 2) (slotKey q.who.slot) (.allocatorRequest N { q with turn := true }) out (exec (.allocatorRequest N q) s) := by
  have run : evAllocatorRequest N q s = serveTurn s q.turn (peerKey N 2) (slotKey q.who.slot) (.allocatorRequest N { q with turn := true })
      (allocForward · N q) := by
    unfold evAllocatorRequest
    split
    · next x kind => exact absurd kind (fresh x)
    · simp only [far, if_true]
      rfl
  rw [show exec (.allocatorRequest N q) s = .next (evAllocatorRequest N q s) from rfl, run]
  exact serveTurn_inTurn does
/-- An allocator that serves a request itself does so when its turn comes, and answers it. -/
theorem allocatorRequest_serves (near : forwards N q = false)
    (does : ∀ v, out { s with served := v }
      (.next (allocAnswer (serveHeap { s with served := v } N q).1 N q (serveHeap { s with served := v } N q).2))) :
    InTurn s q.turn (peerKey N 2) (slotKey q.who.slot) (.allocatorRequest N { q with turn := true }) out (exec (.allocatorRequest N q) s) := by
  have run : evAllocatorRequest N q s = serveTurn s q.turn (peerKey N 2) (slotKey q.who.slot) (.allocatorRequest N { q with turn := true })
      fun u => allocAnswer (serveHeap u N q).1 N q (serveHeap u N q).2 := by
    unfold evAllocatorRequest allocAnswer allocBack
    split
    · next x kind => exact absurd kind (fresh x)
    · simp only [near, Bool.false_eq_true, if_false, now_serveHeap]
      rfl
  rw [show exec (.allocatorRequest N q) s = .next (evAllocatorRequest N q s) from rfl, run]
  exact serveTurn_inTurn does
end

/-! ### What it answers -/

section
variable {k : Nat}

theorem serveHeap_info {w : HeapW} {j : Job} (kind : q.kind = .heapInfo k w) (job : jobAt s q.job = some j) :
    serveHeap s N q = (s, svcVal (heapWord (countOf j k) w)) := by
  unfold serveHeap
  simp only [kind, job, Option.map_some, Option.getD_some]
theorem serveHeap_quota {b : Word} (kind : q.kind = .heapQuota k b) :
    serveHeap s N q = (modCount s q.job k fun y => { y with quota := b.toNat }, svcVal 0) := by
  unfold serveHeap
  simp only [kind]
theorem serveHeap_free {b : Word} (kind : q.kind = .free k b) : serveHeap s N q = serveFree s q k b := by
  unfold serveHeap
  simp only [kind]
theorem serveHeap_alloc {size : Word} (kind : q.kind = .alloc k size) : serveHeap s N q = serveAlloc s N q k size := by
  unfold serveHeap
  simp only [kind]

theorem forwards_alloc {size : Word} (kind : q.kind = .alloc k size) : forwards N q = (isCompute N.id && decide (2 ^ 20 < size.toNat)) := by
  unfold forwards
  simp only [kind]

theorem serveFree_none {b : Word} (none_ : holdersOf s q.job k b.toNat = []) : serveFree s q k b = (s, svcFault 0x15 b 0) := by
  unfold serveFree
  rw [none_]
  rfl
/-- Freeing a block takes it from the allocator that holds it. -/
theorem serveFree_holder {b : Word} {n : Node} {l : List Node} (held : holdersOf s q.job k b.toNat = n :: l) :
    (serveFree s q k b).2 = svcVal 0 ∧ (heapOf (allocAt (serveFree s q k b).1 n) q.job k).blks =
      (heapOf (allocAt s n) q.job k).blks.filter fun y => y.va ≠ b.toNat := by
  unfold serveFree
  rw [held]
  dsimp only [List.head?_cons]
  refine ⟨rfl, ?_⟩
  rw [allocAt_congr (scrambleVa_keeps _).2, heapOf_replaced (heapOf_names ..)]

variable {size : Word} {j : Job} (job : jobAt s q.job = some j)
include job

theorem serveAlloc_quota (full : (countOf j k).quota < (countOf j k).used + heapClass size.toNat) :
    serveAlloc s N q k size = allocFail s q.job k 1 := by
  unfold serveAlloc
  simp only [job]
  exact if_pos full

variable (room : (countOf j k).used + heapClass size.toNat ≤ (countOf j k).quota)
include room

theorem serveAlloc_noPlace (none_ : pickPlace s (allocAt s N) j (heapOf (allocAt s N) q.job k) (heapRange j N k) (heapClass size.toNat) = none) :
    serveAlloc s N q k size = allocFail s q.job k 2 := by
  unfold serveAlloc
  simp only [job, if_neg (Nat.not_lt.2 room), none_]
/-- A block whose place is found and whose pages can be mapped is the allocator's newest. -/
theorem serveAlloc_block {va : Nat} {s1 : State}
    (place : pickPlace s (allocAt s N) j (heapOf (allocAt s N) q.job k) (heapRange j N k) (heapClass size.toNat) = some va)
    (mapped : mapPages (stepFree s) N j ((heapClass size.toNat + 65535) / 65536) (va / 65536 * 65536) = some s1) :
    let x := serveAlloc s N q k size
    x.2 = svcVal va ∧ ∃ l, (heapOf (allocAt x.1 N) q.job k).blks = ⟨va, heapClass size.toNat⟩ :: l := by
  unfold serveAlloc
  simp only [job, if_neg (Nat.not_lt.2 room), place, mapped]
  refine ⟨trivial, (heapOf (allocAt s1 N) q.job k).blks, ?_⟩
  rw [allocAt_congr (scrambleVa_keeps _).2,
    heapOf_replaced (g := fun al => { heapOf al q.job k with blks := _ :: (heapOf al q.job k).blks }) (heapOf_names ..)]
end
/-- Where a block is placed it fits. -/
theorem pickPlace_fits {al : Allocator} {j : Job} {h : Heap} {rg : Nat × Nat} {size va : Nat} (place : pickPlace s al j h rg size = some va) :
    fitsAt al j h rg size va = true := by
  unfold pickPlace at place
  dsimp only at place
  split at place
  · next fits =>
    cases place
    exact fits
  · exact List.find?_some place
theorem fitsAt_place {al : Allocator} {j : Job} {h : Heap} {rg : Nat × Nat} {size va : Nat} (fits : fitsAt al j h rg size va = true) :
    va % heapAlign size = 0 ∧ rg.1 ≤ va ∧ va + size ≤ rg.1 + rg.2 ∧ ∀ b ∈ h.blks, b.va + b.size ≤ va ∨ va + size ≤ b.va := by
  simp only [fitsAt, Bool.and_eq_true, decide_eq_true_eq, List.all_eq_true, Bool.or_eq_true] at fits
  obtain ⟨⟨⟨⟨aligned, low⟩, high⟩, clear⟩, -⟩ := fits
  exact ⟨aligned, low, high, clear⟩
end

/-! ### The answers to the requests of a job, each in its turn (R255 to R257, R397) -/

section
variable {s : State} {N : Node} {q : SvcReq} {j : Job} {k : Nat} (job : jobAt s q.job = some j)

/-- A request that an allocator serves itself is served in its turn. -/
abbrev AllocServes (s : State) (N : Node) (q : SvcReq) (out : State → Outc → Prop) : Prop :=
  InTurn s q.turn (peerKey N 2) (slotKey q.who.slot) (.allocatorRequest N { q with turn := true }) out (exec (.allocatorRequest N q) s)
theorem allocator_tells {f : State → State} {x : SvcReply} (fresh : ∀ x, q.kind ≠ .answered x) (near : forwards N q = false)
    (serves : ∀ v, serveHeap { s with served := v } N q = (f { s with served := v }, x)) :
    AllocServes s N q fun u o => o = .next (allocAnswer (f u) N q x) :=
  allocatorRequest_serves fresh near fun v => by
    rw [serves]
theorem allocator_freesHeld {b : Word} {n : Node} {l : List Node} (kind : q.kind = .free k b) (held : holdersOf s q.job k b.toNat = n :: l) :
    AllocServes s N q fun _ o => ∃ t, o = .next (allocAnswer t N q ⟨0, true, 0, 0, 0⟩) ∧
      (heapOf (allocAt t n) q.job k).blks = (heapOf (allocAt s n) q.job k).blks.filter fun y => y.va ≠ b.toNat :=
  allocatorRequest_serves (by simp [kind]) (by simp [forwards, kind]) fun v => by
    obtain ⟨reply, blks⟩ := serveFree_holder (s := { s with served := v }) (q := q) held
    rw [serveHeap_free kind]
    exact ⟨_, by rw [reply]; rfl, blks⟩
include job
theorem allocator_places {size : Word} {va : Nat} (kind : q.kind = .alloc k size) (near : forwards N q = false)
    (room : (countOf j k).used + heapClass size.toNat ≤ (countOf j k).quota)
    (place : pickPlace s (allocAt s N) j (heapOf (allocAt s N) q.job k) (heapRange j N k) (heapClass size.toNat) = some va) :
    AllocServes s N q fun u o => ∀ s1, mapPages (stepFree u) N j ((heapClass size.toNat + 65535) / 65536) (va / 65536 * 65536) = some s1 →
      ∃ t, o = .next (allocAnswer t N q ⟨BitVec.ofNat 64 va, true, 0, 0, 0⟩) ∧
        ∃ l, (heapOf (allocAt t N) q.job k).blks = ⟨va, heapClass size.toNat⟩ :: l :=
  allocatorRequest_serves (by simp [kind]) near fun v s1 mapped => by
    obtain ⟨reply, blks⟩ := serveAlloc_block (s := { s with served := v }) (q := q) job room place mapped
    rw [serveHeap_alloc kind]
    exact ⟨_, by rw [reply]; rfl, blks⟩
end

/-! ### The reply at the slot -/

theorem takesFail_other {i : Instr} (form : ∀ h n x d b, i ≠ .allocQ h n x d b) : takesFail i = false := by
  unfold takesFail
  split
  · exact absurd rfl (form _ _ _ _ _)
  · rfl

section
variable {s : State} {w : Who} {p : Park} {a : SvcReply} (waits : Waits s w p)
include waits

theorem allocatorReply_faults (bad : a.code ≠ 0) (plain : ¬ (a.code = fHeap ∧ takesFail p.form = true)) :
    evAllocatorReplyLand w a s = takeFault s w.slot w.uid a.code a.va a.aux := by
  unfold evAllocatorReplyLand
  rw [waitOf_waits waits]
  simp only
  rw [if_pos ⟨bad, by simpa [imp_iff_not_or] using plain⟩, faultWait_waits waits]
theorem allocatorReply_finishes (good : a.code = 0 ∨ (a.code = fHeap ∧ takesFail p.form = true)) :
    evAllocatorReplyLand w a s = finish s w (putAll (heapResults p.form a)) := by
  unfold evAllocatorReplyLand
  rw [waitOf_waits waits]
  simp only
  rw [if_neg fun k => by rcases good with q | q <;> simp_all]
  rfl
theorem allocatorReply_ends {f : Ctx → Ctx} (good : a.code = 0 ∨ (a.code = fHeap ∧ takesFail p.form = true))
    (writes : putAll (heapResults p.form a) = f) : ∃ t, exec (.allocatorReplyLand w a) s = .next t ∧ Finishes s w (ctxAt s w.slot) f t :=
  ⟨_, congrArg Host.Outcome.next ((allocatorReply_finishes waits good).trans (by rw [writes])), finish_spec waits f⟩
end
theorem putAll_cons {g : Reg} {x : VVal} {l : List (Reg × VVal)} {c : Ctx} (real : realReg g = true) :
    putAll ((g, x) :: l) c = putAll l (putReg c g x) := by
  simp [putAll, real]
theorem putAll_s {d : SIx} (real : d ≠ 0) (x : VVal) : putAll [(.s d, x)] = fun c => putReg c (.s d) x :=
  funext fun _ => putAll_cons ((realReg_s d).2 real)
theorem putAll_sp {d : SIx} {g : PIx} (real : d ≠ 0) (real' : g ≠ 0) (x : VVal) (b : Bool) :
    putAll ([(.s d, x)] ++ pRes g b) = fun c => putReg (putReg c (.s d) x) (.p g) (pval b) := by
  rw [pRes, if_neg real']
  exact funext fun _ => (putAll_cons ((realReg_s d).2 real)).trans (putAll_cons ((show realReg (.p g) = true by simpa [realReg] using real')))

/-! ### The obligation -/

/-- Settles O45: the forms ask, the allocator serves each kind of request in its turn, and its reply ends the wait. -/
theorem heapFormsAndAllocators : Obligations.HeapFormsAndAllocators := by
  unfold Obligations.HeapFormsAndAllocators
  refine ⟨fun s h n p d a w => ⟨?_, ?_, ?_, fun ready => ?_⟩, fun s N q j job => ?_, fun s w p a waits => ?_⟩
  · exact fun ready => runForm_allocAct (f := { i := .allocF h n d a, h := h, srcs := [.s a], dsts := [.s d] }) ready rfl
  · exact fun ready => runForm_allocAct (f := { i := .allocQ h n p d a, h := h, srcs := [.s a], dsts := [.s d] ++ pDst p }) ready rfl
  · exact fun ready => runForm_heapAct (f := { i := .heapInfo h n w d, h := h, dsts := [.s d] }) ready rfl
  · exact ⟨exec_free_null ready, exec_free_asks ready, exec_free_waits ready, exec_quota_asks ready, exec_quota_refused ready⟩
  · refine ⟨fun x => allocatorRequest_answered, fun k w kind => ?_, fun k b kind => ?_, fun k b kind => ⟨fun none_ => ?_, fun n l => ?_⟩,
      fun k size kind => ⟨?_, ?_⟩⟩
    · exact allocator_tells (f := id) (by simp [kind]) (by simp [forwards, kind]) fun v => serveHeap_info kind job
    · exact allocator_tells (by simp [kind]) (by simp [forwards, kind]) fun v => serveHeap_quota kind
    · exact allocator_tells (f := id) (by simp [kind]) (by simp [forwards, kind]) fun v => (serveHeap_free kind).trans (serveFree_none none_)
    · exact allocator_freesHeld kind
    · intro vault large
      exact allocatorRequest_forwards (by simp [kind]) (by rw [forwards_alloc kind, vault, decide_eq_true large]; rfl) fun v => rfl
    · intro serves
      have near : forwards N q = false := by
        rw [forwards_alloc kind]
        rcases serves with far | small
        · rw [far, Bool.false_and]
        · rw [decide_eq_false (Nat.not_lt.2 small), Bool.and_false]
      have answers (f : State → State) (x : SvcReply) (e : ∀ v, serveAlloc { s with served := v } N q k size = (f { s with served := v }, x)) :=
        allocator_tells (by simp [kind]) near fun v => (serveHeap_alloc kind).trans (e v)
      refine ⟨fun full => ?_, fun room none_ => ?_, fun va room place =>
        ⟨fitsAt_place (pickPlace_fits place), allocator_places job kind near room place⟩⟩
      · exact answers _ _ fun v => serveAlloc_quota job (Nat.not_le.1 full)
      · exact answers _ _ fun v => serveAlloc_noPlace job room none_
  · refine ⟨?_, ?_, ?_, ?_, ?_⟩
    · intro bad plain
      refine congrArg Host.Outcome.next (allocatorReply_faults waits bad ?_)
      rintro ⟨heap, takes⟩
      rcases plain with other | form
      · exact other heap
      · exact absurd takes (by rw [takesFail_other form]; decide)
    · intro h n d b good form real
      exact allocatorReply_ends waits (.inl good) (by rw [form]; exact putAll_s real _)
    · intro h n d b x good form real real'
      exact allocatorReply_ends waits (good.imp_right fun k => ⟨k, by rw [form]; rfl⟩) (by rw [form]; exact putAll_sp real real' _ _)
    · intro h n x d good form real
      exact allocatorReply_ends waits (.inl good) (by rw [form]; exact putAll_s real _)
    · intro h n b good form
      exact allocatorReply_ends waits (.inl good) (by rcases form with q | q <;> rw [q] <;> rfl)

end Sys2Proof.Machine
end

section
/-! Invalidations, tokens and XLAT (R236 to R239, R397). -/

namespace Sys2Proof.Machine

/-! ### TLB.INV asks (R239) -/

/-- A form whose body is an invalidation. -/
theorem runForm_invAct {s : State} {f : Form} {body : State → SlotRef → Ctx → Act} {sc : TlbScope} {va : Option Word}
    (ready : Ready s f.h f.srcs f.dsts f.rgn) (is : body s s.cur (me s) = invAct sc va s s.cur (me s)) :
    (releaseOk s s.cur (me s).uid (invRelease sc) s.cur.node = true →
      AsksSvc s f.h f.i (svcOf s s.cur.node none (.tlbInv sc va)) (.tlbInvRequest s.cur.pkg) 0 0 (runForm f body s)) ∧
    (releaseOk s s.cur (me s).uid (invRelease sc) s.cur.node = false → RelWaits s f.h f.i (runForm f body s)) :=
  ⟨fun free => runForm_svc f body s s.cur.node none _ 0 _ ready (is.trans (release_performed free _)),
    fun held => runForm_relWaits ready held is⟩

/-! ### XLAT.resume and XLAT.refuse (R238, R239, R269) -/

section
variable {s : State} {tok : Word} {f : State → SlotRef → Ctx → Park → State} {g : State → Node → Bool → EngCmd → State}

theorem answerToken_unknown (noPark : tokenPark s tok.toNat = none) (noCmd : tokenCmd s tok.toNat = none) :
    answerToken tok f g s s.cur (me s) = .trap 0x03 0 0 := by
  unfold answerToken
  simp only [noPark, noCmd]
  rfl
section
variable {n : Node} {mx : Bool} {q : EngCmd} (noPark : tokenPark s tok.toNat = none) (cmd : tokenCmd s tok.toNat = some (n, mx, q))
include noPark cmd
theorem answerToken_cmd (may : q.sup = s.cur ∧ q.job = (me s).d.job ∧ q.refused = false) :
    answerToken tok f g s s.cur (me s) = .done (dropToken (g s n mx q) s.cur tok.toNat) := by
  obtain ⟨sup, job, open_⟩ := may
  unfold answerToken
  simp only [noPark, cmd, sup, job, open_]
  exact if_pos (by simp)
theorem answerToken_cmdRefused (not : ¬ (q.sup = s.cur ∧ q.job = (me s).d.job ∧ q.refused = false)) :
    answerToken tok f g s s.cur (me s) = .trap 0x03 0 0 := by
  unfold answerToken
  simp only [noPark, cmd]
  exact if_neg (by simpa [and_assoc] using not)
end
section
variable {r' : SlotRef} {c' : Ctx} {p : Park} (parked : tokenPark s tok.toNat = some (r', c', p))
include parked
theorem answerToken_park (may : supervises s.cur c'.d = true ∧ r'.pkg = s.cur.pkg ∧ c'.d.job = (me s).d.job) :
    answerToken tok f g s s.cur (me s) = .done (dropToken (f s r' c' p) s.cur tok.toNat) := by
  obtain ⟨sup, pkg, job⟩ := may
  unfold answerToken
  simp only [parked, sup, pkg, job]
  exact if_pos (by simp)
theorem answerToken_parkRefused (not : ¬ (supervises s.cur c'.d = true ∧ r'.pkg = s.cur.pkg ∧ c'.d.job = (me s).d.job)) :
    answerToken tok f g s s.cur (me s) = .trap 0x03 0 0 := by
  unfold answerToken
  simp only [parked]
  exact if_neg (by simpa [and_assoc] using not)
end
end

/-! ### XLAT (R239) -/

section
variable {s : State} {h : Hdr} {d a : SIx} (ready : Ready s h [.s a] [.s d] false)
include ready

theorem exec_xlat_beyond (far : 2 ^ 56 ≤ (rs (me s) a).toNat) :
    Results s h [.s a] 3 [(.s d, sval (BitVec.ofNat 64 (2 ^ 56)))] (exec (.xlat h d a) s) :=
  runForm_results _ _ s 3 [.s a] _ ready (if_pos far)

/-- Whether the tile's own TLB holds an entry for an address, of the unit's kind of launch. -/
abbrev tlbHit (s : State) (va : Nat) : Bool := (here s).tlb.any fun e => e.det = (me s).d.det && TlbEntry.covers e (me s).d.job va
/-- XLAT waits for a walk that ends in a cycle. -/
abbrev XlatEnds (s : State) (h : Hdr) (d a : SIx) (u : State) (at_ : Nat) : Prop :=
  Parks s h (waitBy s (.xlat h d a) u.no .reply 0 0 (rs (me s) a) [])
    (push { u with no := u.no + 1 } at_ phEnd (slotKey s.cur) (.globalReplyLand ⟨s.cur, (me s).uid, u.no⟩ .done)) (exec (.xlat h d a) s)

variable (near : (rs (me s) a).toNat < 2 ^ 56)
include near
theorem exec_xlat_now (fast : (me s).d.det = false ∨ tlbHit s (rs (me s) a).toNat = true) : XlatEnds s h d a s s.now := by
  have now : ((me s).d.det && !tlbHit s (rs (me s) a).toNat) = false := by rcases fast with q | q <;> simp [q]
  refine runForm_waitNow _ _ s _ _ _ _ _ _ _ ready rfl ?_
  refine (if_neg (Nat.not_le.2 near)).trans ?_
  simp only [now]
  rfl
theorem exec_xlat_late (det : (me s).d.det = true) (miss : tlbHit s (rs (me s) a).toNat = false) :
    XlatEnds s h d a (walkLate s (me s).d.launch).1 (dueIn s s.cur.node (639 + (walkLate s (me s).d.launch).2)) := by
  have late : ((me s).d.det && !tlbHit s (rs (me s) a).toNat) = true := by simp [det, miss]
  have now : (walkLate s (me s).d.launch).1.now = s.now := by
    unfold walkLate
    dsimp only
    split
    · rfl
    · exact (OnlySent.setVoid ..).now
  refine runForm_waitNow _ _ s _ _ _ _ _ _ _ ready now ?_
  refine (if_neg (Nat.not_le.2 near)).trans ?_
  simp only [late, if_true]
  rfl
end

/-- Finding a translation for XLAT only fills TLBs. -/
theorem xlatWord_sent (s : State) (n : Node) (job : Word) (det : Bool) (va : Nat) : OnlySent s (xlatWord s n job det va).2 := by
  unfold xlatWord
  split
  · exact .refl s
  · split
    · exact fillTlb_sent ..
    · exact .refl s
    · exact .refl s
/-- A unit waits as before after what only sends. -/
theorem OnlySent.waits {s t : State} {w : Who} {p : Park} (sent : OnlySent s t) (waits : Waits s w p) : Waits t w p := by
  obtain ⟨bound, uid, park, id, due, held⟩ := waits
  have ctx := sent.ctxAt w.slot
  exact ⟨by rw [sent.slotAt]; exact bound, by rw [ctx]; exact uid, by rw [ctx]; exact park, id, due, held⟩
/-- The walk of an XLAT has ended, and its word is written (R239). -/
theorem globalReplyLand_xlat {s : State} {w : Who} {p : Park} {h : Hdr} {d a : SIx} (waits : Waits s w p) (clean : noErrs s = true)
    (form : p.form = .xlat h d a) (real : d ≠ 0) :
    let x := xlatWord s w.slot.node (ctxAt s w.slot).d.job (ctxAt s w.slot).d.det p.va.toNat
    ∃ t, exec (.globalReplyLand w .done) s = .next t ∧ Finishes x.2 w (ctxAt s w.slot) (fun c => putReg c (.s d) (sval x.1)) t := by
  intro x
  have sent : OnlySent s x.2 := xlatWord_sent ..
  have run : evGlobalReplyLand w .done s = finish x.2 w fun c => putReg c (.s d) (sval x.1) := by
    unfold evGlobalReplyLand
    rw [waitOf_waits waits]
    simp only [form, finishXlat, xlErrs_clean clean, if_neg real]
    rfl
  refine ⟨_, congrArg Host.Outcome.next run, ?_⟩
  rw [← sent.ctxAt]
  exact finish_spec (sent.waits waits) _

/-! ### TLB.INV drops entries (R239, R397) -/

theorem aget_map {α : Type} (d : α) (g : Nat → α → α) (l : List (Nat × α)) (i : Nat) (has : ahas l i = true) :
    aget d (l.map fun x => (x.1, g x.1 x.2)) i = g i (aget d l i) := by
  induction l with
  | nil => cases has
  | cons e l ih =>
    simp only [List.map_cons, aget]
    split
    · next same => rw [same]
    · next other => exact ih (by simpa [ahas, other] using has)
/-- Whether an invalidation around a tile covers the tile of a key. -/
def inScope (n : Node) (sc : TlbScope) (k : Nat) : Bool :=
  match sc with
  | .tile => nodeOfKey k = n
  | .die => (nodeOfKey k).pkg = n.pkg && dieOf (nodeOfKey k).id = dieOf n.id
  | .pkg | .dom => (nodeOfKey k).pkg = n.pkg
/-- A tile without the entries that an invalidation takes. -/
def invalidated (job : Word) (va : Option Word) (t : Tile) : Tile := { t with tlb := t.tlb.filter fun e => !invTakes job va e }

section
variable (u : State) (n : Node) (sc : TlbScope) (job : Word) (va : Option Word)
theorem dropEntries_tiles : (dropEntries u n sc job va).tiles =
    u.tiles.map fun x => (x.1, if inScope n sc x.1 then invalidated job va x.2 else x.2) := by
  cases sc <;> rfl
theorem dropEntries_mem : (dropEntries u n sc job va).mem = u.mem := by cases sc <;> rfl
theorem dropEntries_now : (dropEntries u n sc job va).now = u.now := by cases sc <;> rfl
/-- It leaves the clocks of the package. -/
theorem dropEntries_clock : (pkgAt (dropEntries u n sc job va) n.pkg).islands = (pkgAt u n.pkg).islands ∧
    (pkgAt (dropEntries u n sc job va) n.pkg).cycleBase = (pkgAt u n.pkg).cycleBase := by
  unfold dropEntries
  cases sc
  case tile => exact ⟨rfl, rfl⟩
  all_goals
    dsimp only
    rw [pkgAt_modPkg_self]
    exact ⟨rfl, rfl⟩
theorem dueFrom_dropEntries (c l : Nat) : dueFrom (dropEntries u n sc job va) n c l = dueFrom u n c l := by
  obtain ⟨islands, base⟩ := dropEntries_clock u n sc job va
  unfold dueFrom heldCount
  rw [islands, base]
theorem dropEntries_tlb {m : Node} (has : ahas u.tiles (nodeKey m) = true) (covered : inScope n sc (nodeKey m) = true) :
    (tileAt (dropEntries u n sc job va) m).tlb = (tileAt u m).tlb.filter fun e => !invTakes job va e := by
  unfold tileAt
  rw [dropEntries_tiles, aget_map _ (fun k t => if inScope n sc k then invalidated job va t else t) _ _ has, if_pos covered]
  rfl
end
theorem inScope_own {n m : Node} {sc : TlbScope} (key : nodeOfKey (nodeKey m) = m)
    (near : m = n ∨ (m.pkg = n.pkg ∧ (sc = .pkg ∨ (sc = .die ∧ dieOf m.id = dieOf n.id)))) : inScope n sc (nodeKey m) = true := by
  unfold inScope
  rw [key]
  rcases near with rfl | ⟨pkg, rfl | ⟨rfl, die⟩⟩
  · cases sc <;> simp
  · simpa using pkg
  · simp [pkg, die]
/-- A TLB.INV of less than the domain is served in its turn, and answered when the TLBs of its scope have taken their time. -/
theorem tlbInvRequest_serves {s : State} {q : SvcReq} {sc : TlbScope} {va : Option Word} (kind : q.kind = .tlbInv sc va)
    (own : q.peer = q.who.slot.node) (inside : sc ≠ .dom) :
    Serves s q 3 (invCycles sc) (.tlbInvRequest q.peer.pkg) (fun u => dropEntries u q.peer sc q.job va) ⟨0, true, 0, 0, 0⟩
      (exec (.tlbInvRequest q.peer.pkg q) s) := by
  have pkg : q.peer.pkg = q.who.slot.pkg := by rw [own]; rfl
  have others (u : State) : invOthers u sc q.who.slot.pkg = [] := if_neg inside
  have run : evTlbInvRequest q.peer.pkg q s = serveTurn s q.turn (peerKey q.peer 3) (slotKey q.who.slot)
      (.tlbInvRequest q.peer.pkg { q with turn := true }) fun u =>
        svcReply (dropEntries u q.peer sc q.job va) q (dueFrom u q.peer u.now (invCycles sc)) (svcVal 0) := by
    unfold evTlbInvRequest
    simp only [kind, pkg, if_true, ne_eq, not_true_eq_false, if_false, others, ← own, dropEntries_now, dueFrom_dropEntries]
  rw [show exec (.tlbInvRequest q.peer.pkg q) s = .next (evTlbInvRequest q.peer.pkg q s) from rfl, run]
  exact serveTurn_inTurn fun v => rfl

/-! ### The obligation -/

/-- Settles O46: the forms ask or answer a token, an XLAT's walk ends with its word, and an invalidation filters the TLBs of its scope. -/
theorem translationForms : Obligations.TranslationForms := by
  unfold Obligations.TranslationForms
  refine ⟨fun s h sc a d => ⟨fun ready => ⟨fun far => ?_, fun near => ?_, ?_⟩, fun ready => ?_, fun ready => ⟨exec_xlat_beyond ready, ?_⟩⟩,
    fun s w p h d a waits clean form real => globalReplyLand_xlat waits clean form real,
    fun s q sc va kind own inside => ⟨?_, fun u => ⟨dropEntries_mem .., fun n has key near _ => ?_⟩⟩⟩
  · exact runForm_trap _ _ s _ _ _ ready (if_pos far)
  · exact runForm_invAct (f := { i := .tlbInv h sc a, h := h, srcs := [.s a] }) ready (if_neg (Nat.not_le.2 near))
  · refine ⟨fun noPark noCmd r => ?_, fun noPark n mx q cmd => ⟨fun may r => ?_, fun may => ⟨?_, ?_⟩⟩,
      fun r' c' p parked => ⟨fun may r => ?_, fun may => ⟨?_, ?_⟩⟩⟩
    · cases r <;> exact runForm_trap _ _ s _ _ _ ready (answerToken_unknown noPark noCmd)
    · cases r <;> exact runForm_trap _ _ s _ _ _ ready (answerToken_cmdRefused noPark cmd may)
    · exact runForm_done _ _ s _ ready (answerToken_cmd noPark cmd may)
    · exact runForm_done _ _ s _ ready (answerToken_cmd noPark cmd may)
    · cases r <;> exact runForm_trap _ _ s _ _ _ ready (answerToken_parkRefused parked may)
    · exact runForm_done _ _ s _ ready (answerToken_park parked may)
    · exact runForm_done _ _ s _ ready (answerToken_park parked may)
  · exact runForm_invAct (f := { i := .tlbInvAll h sc, h := h }) ready rfl
  · exact fun near => ⟨exec_xlat_now ready near, exec_xlat_late ready near⟩
  · have serves := tlbInvRequest_serves (s := s) kind own inside
    cases sc <;> exact serves
  · exact dropEntries_tlb _ _ _ _ _ has (inScope_own key near)

end Sys2Proof.Machine
end

section
/-! The host's registers, queues and memory; records taken, root units bound, jobs ended (R232, R301, R356 to R361). -/

namespace Sys2Proof.Machine

/-! ### The host's writes (R232, R301, R357 to R359) -/

theorem setQueues_keeps (pkg : Nat) (g : State → Pkg → Nat → Pkg) (l : List Nat) (s : State) :
    (l.foldl (fun s k => modPkg s pkg fun p => g s p k) s).bar0 = s.bar0 ∧ (l.foldl (fun s k => modPkg s pkg fun p => g s p k) s).mem = s.mem := by
  induction l generalizing s with
  | nil => exact ⟨rfl, rfl⟩
  | cons k l ih => exact ih _
section
variable {s : State} {pkg : Nat} {b : List Byte}

theorem bar0RegisterWrite_ignored {off : Nat} (bad : ¬ (hasPkg s pkg = true ∧ off + b.length ≤ 2 ^ 40)) :
    evBar0RegisterWrite pkg off b s = s := by
  refine if_pos ?_
  rcases not_and_or.1 bad with absent | long
  · exact .inl (by simpa using absent)
  · exact .inr (Nat.not_le.1 long)
theorem bar0RegisterWrite_stores {off : Nat} (has : hasPkg s pkg = true) (inside : off + b.length ≤ 2 ^ 40) :
    Stored s.bar0 (evBar0RegisterWrite pkg off b s).bar0 (barPa pkg off) b ∧ (evBar0RegisterWrite pkg off b s).mem = s.mem := by
  have good : ¬ ((!hasPkg s pkg) = true ∨ 2 ^ 40 < off + b.length) := by
    rw [has]
    exact not_or.2 ⟨by decide, Nat.not_lt.2 inside⟩
  unfold evBar0RegisterWrite
  rw [if_neg good]
  dsimp only
  obtain ⟨regs, mem⟩ := setQueues_keeps pkg (fun s p k => { p with queues := aset p.queues k (queueRegs s pkg k (aget {} p.queues k)) })
    ((List.range 64).filter fun k => off < 64 * k + 64 ∧ 64 * k < off + b.length) { s with bar0 := cellsWrite s.bar0 (barPa pkg off) b }
  rw [regs, mem]
  exact ⟨stored_cellsWrite _ _ _, rfl⟩

theorem submissionTailWrite_ignored {k v : Nat} (bad : 64 ≤ k ∨ hasPkg s pkg = false) : evSubmissionTailWrite pkg k v s = s :=
  if_pos (by simpa using bad)
/-- A new tail of a queue; while the package comes back from a reset the records before it are passed over (log 62). -/
theorem submissionTailWrite_sets {k v : Nat} (small : k < 64) (has : hasPkg s pkg = true) :
    let t := evSubmissionTailWrite pkg k v s
    let q := aget {} (pkgAt s pkg).queues k
    t.mem = s.mem ∧ aget {} (pkgAt t pkg).queues k = { q with tail := v, head := if s.now < (pkgAt s pkg).rejoin then v else q.head } ∧
      (¬ s.now < (pkgAt s pkg).rejoin → ∃ e ∈ t.agenda, e.at_ = s.now ∧ e.ev = .jobRecordAccept pkg k) := by
  have good : ¬ (64 ≤ k ∨ (!hasPkg s pkg) = true) := by
    rw [has]
    exact not_or.2 ⟨Nat.not_le.2 small, by decide⟩
  intro t q
  have set (f : HostQueue → HostQueue) :
      aget {} (pkgAt (modPkg s pkg fun p => { p with queues := aset p.queues k (f (aget {} p.queues k)) }) pkg).queues k = f q := by
    rw [pkgAt_modPkg_self]
    exact aget_aset_self ..
  have run : t = evSubmissionTailWrite pkg k v s := rfl
  unfold evSubmissionTailWrite at run
  rw [if_neg good] at run
  by_cases away : s.now < (pkgAt s pkg).rejoin
  · rw [if_pos away] at run
    rw [run, if_pos away]
    exact ⟨rfl, set fun q => { q with head := v, tail := v }, fun no => absurd away no⟩
  · rw [if_neg away] at run
    rw [run, if_neg away]
    have asked := OnlyAsked.pushOnce (modPkg s pkg fun p => { p with queues := aset p.queues k { aget {} p.queues k with tail := v } })
      s.now phEnd k (.jobRecordAccept pkg k)
    refine ⟨asked.mem, ?_, fun _ => mem_pushOnce ..⟩
    rw [pkgAt_congr asked.pkgs]
    exact set fun q => { q with tail := v }

theorem hostCxlMemAccess_ignored {a : Nat} (bad : hasPkg s pkg = false ∨
    (¬ (a < 2 ^ 40 ∧ a + b.length ≤ 768 * 2 ^ 30) ∧ ¬ (2 ^ 40 ≤ a ∧ a + b.length ≤ 2 ^ 40 + hostBytes))) :
    evHostCxlMemAccess pkg a (some b) s = s := by
  unfold evHostCxlMemAccess
  dsimp only
  by_cases has : hasPkg s pkg = true
  · obtain ⟨far, host⟩ := bad.resolve_left (by simp [has])
    by_cases high : 2 ^ 40 ≤ a
    · rw [if_pos ⟨has, high⟩, if_neg fun q => host ⟨high, q⟩]
    · rw [if_neg fun q => high q.2, if_pos (.inr (Nat.not_le.1 fun q => far ⟨Nat.not_le.1 high, q⟩))]
  · rw [if_neg fun q => has q.1, if_pos (.inl (by simpa using has))]
theorem hostCxlMemAccess_far {a : Nat} {h : Node × MemKind} (has : hasPkg s pkg = true) (low : a < 2 ^ 40) (inside : a + b.length ≤ 768 * 2 ^ 30)
    (home : memHome s (pkg * 2 ^ 46 + 0x100000000000 + a) = some h) :
    Stored s.mem (evHostCxlMemAccess pkg a (some b) s).mem (pkg * 2 ^ 46 + 0x100000000000 + a) b := by
  unfold evHostCxlMemAccess
  dsimp only
  rw [if_neg fun q => absurd q.2 (Nat.not_le.2 low), if_neg (not_or.2 ⟨by simp [has], Nat.not_lt.2 inside⟩), home]
  dsimp only
  rw [show ∀ u n x y, (replaceUnits u n 9 x y).mem = u.mem by intros; unfold replaceUnits; dsimp only; split <;> rfl]
  exact stored_cellsWrite _ _ _
theorem hostCxlMemAccess_host {a : Nat} (has : hasPkg s pkg = true) (high : 2 ^ 40 ≤ a) (inside : a + b.length ≤ 2 ^ 40 + hostBytes) :
    Stored s.mem (evHostCxlMemAccess pkg a (some b) s).mem (hostPa pkg (a - 2 ^ 40)) b := by
  unfold evHostCxlMemAccess
  dsimp only
  rw [if_pos ⟨has, high⟩, if_pos inside]
  exact stored_cellsWrite _ _ _

/-! ### Root units (R359) -/

section
variable {j : Job} (found : jobAt s j.handle = some j)
include found
theorem rootUnitBind_idle (idle : ¬ (j.done = false ∧ j.ending = false ∧ j.started = true)) : evRootUnitBind pkg j.handle s = s := by
  unfold evRootUnitBind
  rw [found]
  exact if_pos (not_not.1 fun q => idle (by simpa [not_or] using q))
variable (live : j.done = false ∧ j.ending = false ∧ j.started = true)
include live
theorem rootUnitBind_live : evRootUnitBind pkg j.handle s =
    if rootSlotFree s pkg j.r.rootTile j.handle then bindUnit s ⟨pkg, j.r.rootTile, 0⟩ (rootDesc j) 0
    else push s (s.now + 1) phEnd (2 ^ 40 + pkg) (.rootUnitBind pkg j.handle) := by
  obtain ⟨done, ending, started⟩ := live
  unfold evRootUnitBind
  rw [found]
  exact if_neg (by simp [done, ending, started])
end
end

/-! ### The end of a job (R361) -/

theorem jobAt_isSome (s : State) (job : Word) : (jobAt s job).isSome = true ↔ job ∈ s.jobs.map (·.handle) := by
  simp [jobAt]
/-- A job that is known stays so. -/
theorem jobAt_known {s t : State} (core : coreOf t = coreOf s) {job : Word} (known : (jobAt s job).isSome = true) : (jobAt t job).isSome = true := by
  have handles : t.jobs.map (·.handle) = s.jobs.map (·.handle) := congrArg (·.2.2) core
  rw [jobAt_isSome, handles]
  exact (jobAt_isSome s job).1 known
theorem jobAt_handle {s : State} {job : Word} {j : Job} (found : jobAt s job = some j) : j.handle = job := by
  simpa using List.find?_some found
section
variable (s : State) (pkg : Nat) (j : Job) (status reason : Nat)
theorem writeCompletion_jobs : (writeCompletion s pkg j status reason).jobs = s.jobs := by
  unfold writeCompletion
  extract_lets k q b t
  split
  · rfl
  · simp only [modPkg, t, physWrite]
theorem writeCompletion_tiles : (writeCompletion s pkg j status reason).tiles = s.tiles := by
  unfold writeCompletion
  extract_lets k q b t
  split
  · rfl
  · simp only [modPkg, t, physWrite]
theorem writeCompletion_agenda : (writeCompletion s pkg j status reason).agenda = s.agenda := by
  unfold writeCompletion
  extract_lets k q b t
  split
  · rfl
  · simp only [modPkg, t, physWrite]
theorem pkgAt_modPkg_keeps {β : Type} (p : Nat) (f : Pkg → Pkg) (part : Pkg → β) (keeps : part (f (pkgAt s p)) = part (pkgAt s p)) (q : Nat) :
    part (pkgAt (modPkg s p f) q) = part (pkgAt s q) := by
  by_cases same : q = p
  · rw [same, pkgAt_modPkg_self, keeps]
  · rw [pkgAt_modPkg_ne _ _ _ _ same]
/-- A completion record is written to the host's memory, and its queue's head moves: a part of the packages that does not tell
how far the completion queues are is as before. -/
theorem writeCompletion_pkg {β : Type} (part : Pkg → β)
    (keeps : ∀ x k n, part { x with queues := aset x.queues k { aget {} x.queues k with chead := n } } = part x) (p : Nat) :
    part (pkgAt (writeCompletion s pkg j status reason) p) = part (pkgAt s p) := by
  unfold writeCompletion
  extract_lets k q b t
  have same (p : Nat) : pkgAt t p = pkgAt s p := pkgAt_congr (by simp only [t, physWrite]) p
  split
  · rfl
  · rw [pkgAt_modPkg_keeps t pkg _ part, same]
    simp only [q]
    rw [← same pkg]
    exact keeps ..
end
/-- What holds of every value that a function gives holds wherever a list has been mapped by it. -/
theorem aget_map_all {α : Type} {P : α → Prop} {d : α} (start : P d) {g : α → α} (every : ∀ x, P (g x)) (l : List (Nat × α)) (i : Nat) :
    P (aget d (l.map fun (k, x) => (k, g x)) i) := by
  induction l with
  | nil => exact start
  | cons e l ih =>
    simp only [List.map_cons, aget]
    split
    · exact every _
    · exact ih

/-- A job is over: it is marked so, and leaves no translation and no launch. -/
structure JobOver (job : Word) (s : State) : Prop where
  done : (jobAt s job).map (·.done) = some true
  tlb : ∀ n, ∀ e ∈ (tileAt s n).tlb, e.job ≠ job
  launches : ∀ p, ∀ l ∈ (pkgAt s p).launches, l.job ≠ job

theorem JobOver.keep {job : Word} {s t : State} (is : JobOver job s) (jobs : t.jobs = s.jobs) (tiles : t.tiles = s.tiles)
    (launches : ∀ p, (pkgAt t p).launches = (pkgAt s p).launches) : JobOver job t :=
  ⟨by unfold jobAt; rw [jobs]; exact is.done, fun n => by unfold tileAt; rw [tiles]; exact is.tlb n,
    fun p => by rw [launches]; exact is.launches p⟩
/-- Finishing a job that is known leaves it over (R361). -/
theorem finishJob_over {s : State} {j : Job} (known : (jobAt s j.handle).isSome = true) : JobOver j.handle (finishJob s j) := by
  unfold finishJob
  extract_lets s1 s2 s3 s4
  have core : coreOf s2 = coreOf s := by
    refine (coreOf_endExchange ..).trans (coreOf_foldl _ _ _ fun t x => ?_)
    split <;> simp
  have is : JobOver j.handle s4 := by
    refine ⟨?_, ?_, ?_⟩
    · have still : (jobAt (dropKey s3 j) j.handle).isSome = true := jobAt_known (s := s2) rfl (jobAt_known core known)
      obtain ⟨x, found⟩ := Option.isSome_iff_exists.1 still
      have marked := jobAt_modJob (dropKey s3 j) j.handle (fun j => { j with done := true }) fun _ => rfl
      exact (congrArg (Option.map (·.done)) marked).trans (by rw [found])
    · exact fun n => aget_map_all (P := fun t : Tile => ∀ e ∈ t.tlb, e.job ≠ j.handle) (d := Tile.reset) (by simp [Tile.reset])
        (g := fun t => { t with tlb := t.tlb.filter fun e => e.job ≠ j.handle }) (fun t e => by simp) s2.tiles _
    · exact fun p => aget_map_all (P := fun k : Pkg => ∀ l ∈ k.launches, l.job ≠ j.handle) (d := {}) (by simp)
        (g := forgetJob j.handle) (fun k l => by simp [forgetJob]) s2.pkgs _
  generalize s4 = t at is
  induction j.pkgs generalizing t with
  | nil => exact is
  | cons p l ih =>
    refine ih _ ?_
    have written : JobOver j.handle (writeCompletion t p j j.status 0) :=
      is.keep (writeCompletion_jobs ..) (writeCompletion_tiles ..) (writeCompletion_pkg _ _ _ _ _ (·.launches) fun _ _ _ => rfl)
    dsimp only
    split
    · exact written.keep rfl rfl fun q => pkgAt_modPkg_keeps _ _ _ (·.launches) rfl q
    · exact written

section
variable {s : State} {j : Job} (found : jobAt s j.handle = some j)
include found

/-- A job ends that is not over, once it was cancelled or all its root units have ended. -/
abbrev JobEnds (j : Job) : Prop := j.done = false ∧ (j.ending = true ∨ (j.started = true ∧ ∀ p ∈ j.pkgs, p ∈ j.rootExited))
/-- The job marked as ending, and what is left of it stopped. -/
def stopped (s : State) (j : Job) : State := stopJob (if j.ending then s else modJob s j.handle fun j => { j with ending := true }) j

omit found in
theorem stopped_known (known : (jobAt s j.handle).isSome = true) : (jobAt (stopped s j) j.handle).isSome = true := by
  refine jobAt_known ((coreOf_stopJob ..).trans ?_) known
  split
  · rfl
  · exact coreOf_modJob _ _ _ fun _ => rfl
theorem jobEnd_waits (not : ¬ JobEnds j) : evJobEnd j.handle s = s := by
  unfold evJobEnd
  rw [found]
  refine if_pos (not_not.1 fun q => not ?_)
  simpa [JobEnds, not_or, or_iff_not_imp_left] using q
variable (ends : JobEnds j)
include ends
omit found in
theorem jobEnds_passes :
    ¬ (j.done = true ∨ ((!j.ending) = true ∧ (!decide (j.started = true ∧ j.pkgs.all j.rootExited.contains = true)) = true)) := by
  obtain ⟨done, why⟩ := ends
  refine not_or.2 ⟨by simp [done], fun q => ?_⟩
  rcases why with ending | ⟨started, out⟩
  · simp [ending] at q
  · have all : j.pkgs.all j.rootExited.contains = true := by simpa using out
    simp [started, all] at q
theorem jobEnd_busy (busy : jobBusy (stopped s j) j.handle = true) : evJobEnd j.handle s = stopped s j := by
  unfold evJobEnd
  rw [found]
  exact (if_neg (jobEnds_passes ends)).trans (if_pos busy)
theorem jobEnd_free {x : Job} (free : jobBusy (stopped s j) j.handle = false) (still : jobAt (stopped s j) j.handle = some x) :
    evJobEnd j.handle s = finishJob (stopped s j) x := by
  unfold evJobEnd
  rw [found]
  refine (if_neg (jobEnds_passes ends)).trans ((if_neg (Bool.eq_false_iff.1 free)).trans ?_)
  unfold stopped at still
  simp only [still]
  rfl
theorem jobEnd_over (free : jobBusy (stopped s j) j.handle = false) : JobOver j.handle (evJobEnd j.handle s) := by
  obtain ⟨x, still⟩ := Option.isSome_iff_exists.1 (stopped_known (j := j) (by rw [found]; rfl))
  rw [jobEnd_free found ends free still]
  rw [← jobAt_handle still]
  refine finishJob_over ?_
  rw [jobAt_handle still, still]
  rfl
end

/-! ### What taking a record leaves of queues (R357 to R360) -/

/-- How far each submission queue has been taken, the records asked for, and the packages that have taken a job are as before. -/
structure QueuesKept (job : Word) (s t : State) : Prop where
  heads : ∀ p k, (aget {} (pkgAt t p).queues k).head = (aget {} (pkgAt s p).queues k).head
  asked : ∀ e ∈ s.agenda, ∀ p k, e.ev = .jobRecordAccept p k → e ∈ t.agenda
  accepted : (jobAt t job).map (·.accepted) = (jobAt s job).map (·.accepted)

section
variable {job : Word} {s t u : State}

theorem QueuesKept.refl (job : Word) (s : State) : QueuesKept job s s := ⟨fun _ _ => rfl, fun _ h _ _ _ => h, rfl⟩
theorem QueuesKept.trans (h : QueuesKept job s t) (k : QueuesKept job t u) : QueuesKept job s u :=
  ⟨fun p i => (k.heads p i).trans (h.heads p i), fun e m p i is => k.asked e (h.asked e m p i is) p i is, k.accepted.trans h.accepted⟩
theorem QueuesKept.foldl {α : Type} {f : State → α → State} (each : ∀ s a, QueuesKept job s (f s a)) (l : List α) (s : State) :
    QueuesKept job s (l.foldl f s) := by
  induction l generalizing s with
  | nil => exact .refl job s
  | cons a l ih => exact (each s a).trans (ih _)
/-- What leaves packages, jobs and the agenda. -/
theorem QueuesKept.of_eq (pkgs : t.pkgs = s.pkgs) (agenda : t.agenda = s.agenda) (jobs : t.jobs = s.jobs) : QueuesKept job s t :=
  ⟨fun p k => by rw [pkgAt_congr pkgs], fun e m _ _ _ => by rw [agenda]; exact m, by unfold jobAt; rw [jobs]⟩
theorem QueuesKept.modPkg (s : State) (p : Nat) (f : Pkg → Pkg)
    (keeps : ∀ x k, (aget {} (f x).queues k).head = (aget {} x.queues k).head) : QueuesKept job s (modPkg s p f) :=
  ⟨fun q k => pkgAt_modPkg_keeps s p f (fun x => (aget {} x.queues k).head) (keeps _ k) q, fun _ m _ _ _ => m, rfl⟩
theorem QueuesKept.push (s : State) (a p k : Nat) (ev : Ev) : QueuesKept job s (push s a p k ev) :=
  ⟨fun _ _ => rfl, fun _ m _ _ _ => mem_push_old _ _ _ _ _ _ m, rfl⟩
theorem QueuesKept.physWrite (s : State) (pa : Nat) (b : List Byte) : QueuesKept job s (physWrite s pa b) := .of_eq rfl rfl rfl
theorem QueuesKept.modJob (s : State) (f : Job → Job) (handle : ∀ j, (f j).handle = j.handle) (accepted : ∀ j, (f j).accepted = j.accepted) :
    QueuesKept job s (modJob s job f) :=
  ⟨fun _ _ => rfl, fun _ m _ _ _ => m, by
    rw [jobAt_modJob s job f handle, Option.map_map]
    exact congrArg (Option.map · _) (funext accepted)⟩
theorem head_setChead (x : Pkg) (i n k : Nat) :
    (aget {} (aset x.queues i { aget {} x.queues i with chead := n }) k).head = (aget {} x.queues k).head := by
  by_cases same : k = i
  · rw [same, aget_aset_self]
  · rw [aget_aset_ne _ _ _ _ _ same]
theorem QueuesKept.writeCompletion (s : State) (pkg : Nat) (j : Job) (status reason : Nat) :
    QueuesKept job s (writeCompletion s pkg j status reason) :=
  ⟨fun p k => writeCompletion_pkg s pkg j status reason (fun x => (aget {} x.queues k).head) (fun x i n => head_setChead x i n k) p,
    fun e m _ _ _ => by rw [writeCompletion_agenda]; exact m, by unfold jobAt; rw [writeCompletion_jobs]⟩

/-! ### A job starts (R360) -/

theorem QueuesKept.copySection (s : State) (pkg : Nat) (h : Word) (x : Section) : QueuesKept job s (copySection s pkg h x) :=
  .foldl (fun t (a, k) => by
    dsimp only
    split
    · exact .physWrite ..
    · exact .refl ..) _ s
theorem QueuesKept.giveExtents (s : State) (j : Job) (pkg : Nat) : QueuesKept job s (giveExtents s j pkg) :=
  .foldl (fun t e => by
    split
    · split
      · exact .modPkg _ _ _ fun _ _ => rfl
      · exact .refl ..
    · exact .refl ..) _ s
theorem QueuesKept.mapFlits (s : State) (g : Flit → Flit) : QueuesKept job s (mapFlits s g) := by
  refine ⟨fun p k => ?_, fun e m _ _ _ => m, rfl⟩
  unfold pkgAt
  rw [pkgs_mapFlits]
  exact aget_map_keeps {} (withFlits g) (fun x : Pkg => (aget {} x.queues k).head) (fun _ => rfl) s.pkgs p
theorem QueuesKept.cancelEvents (s : State) (off : Ev → Bool) (keeps : ∀ p k, off (.jobRecordAccept p k) = false) :
    QueuesKept job s (cancelEvents s off) :=
  (QueuesKept.mapFlits s fun f => if (f.ev.map off).getD false then { f with ev := none } else f).trans
    ⟨fun _ _ => rfl, fun e m p k is => List.mem_filter.2 ⟨m, by rw [is, keeps]; rfl⟩, rfl⟩
theorem QueuesKept.armTimeout (s : State) (h : Word) : QueuesKept job s (armTimeout s h) := by
  refine QueuesKept.trans (t := { s with agenda := s.agenda.filter fun d => ¬(d.ph = phEnd ∧ d.ev = .heartbeatTimeout h) })
    ⟨fun _ _ => rfl, fun e m p k is => List.mem_filter.2 ⟨m, by simp [is]⟩, rfl⟩ (.push ..)
theorem QueuesKept.putArb (s : State) (pkg : Nat) (a : Arbiter) : QueuesKept job s (putArb s pkg a) := .modPkg _ _ _ fun _ _ => rfl
theorem QueuesKept.startBeats (s : State) (h : Word) : QueuesKept job s (startBeats s h) :=
  ((QueuesKept.cancelEvents s _ fun _ _ => by simp).trans (.armTimeout ..)).trans (.push ..)
theorem QueuesKept.startExchange (s : State) (j : Job) : QueuesKept job s (startExchange s j) := by
  unfold Machine.startExchange
  extract_lets s1 s2
  have begun : QueuesKept job s s2 := (QueuesKept.cancelEvents s _ fun _ _ => rfl).trans
    (.foldl (fun t p => by exact .modPkg _ _ _ fun _ _ => rfl) _ _)
  split
  · exact begun
  · extract_lets b s3
    have acting : QueuesKept job s s3 := begun.trans (.putArb ..)
    split
    · exact acting
    · exact (acting.trans (.putArb ..)).trans (.startBeats ..)
theorem QueuesKept.startJob (s : State) (job : Word) : QueuesKept job s (startJob s job) := by
  unfold Machine.startJob
  split
  · exact .refl ..
  · next j found =>
    extract_lets s1 s2 s3 s4
    have copied : QueuesKept job s s1 := .foldl (fun t p => .foldl (fun u x => .copySection ..) _ _) _ _
    have given : QueuesKept job s1 s2 := .foldl (fun t p => .giveExtents ..) _ _
    have marked : QueuesKept job s2 s3 := .modJob _ _ (fun _ => rfl) fun _ => rfl
    exact (((copied.trans given).trans marked).trans (.startExchange ..)).trans (.foldl (fun t p => .push ..) _ _)
end

/-! ### A record at the head of a queue (R357 to R360) -/

/-- A submission queue of a package. -/
abbrev queueAt (s : State) (pkg k : Nat) : HostQueue := aget {} (pkgAt s pkg).queues k
/-- The record at its head. -/
abbrev headRecord (s : State) (pkg k : Nat) : List Byte :=
  physRead s ((queueAt s pkg k).base + 256 * ((queueAt s pkg k).head % (queueAt s pkg k).size)) 256
/-- The state in which the package's root table of a job is noted. -/
def rooted (s u : State) (pkg k : Nat) (j : Job) : State :=
  modJob u j.handle fun j => { j with rootTables := j.rootTables.set pkg ((rootsOf s pkg (recordOf (headRecord s pkg k))).getD pkg 0) }
/-- A job of which a package has taken the record from one of its queues. -/
def takenBy (pkg k : Nat) (j : Job) : Job := { j with accepted := j.accepted ++ [pkg], queueOf := aset j.queueOf pkg k }
/-- The record taken from its queue, for a job. -/
def recordTaken (u : State) (pkg k : Nat) (job : Word) : State := popQueue (modJob u job (takenBy pkg k)) pkg k

/-- The job of a record is known, and finding it touches no package. -/
theorem jobFor_known {s u : State} {pkg : Nat} {b : List Byte} {r : JobRec} {j : Job} (job : jobFor s pkg b r = some (u, j)) :
    (jobAt u j.handle).isSome = true ∧ u.pkgs = s.pkgs ∧ u.now = s.now := by
  unfold jobFor at job
  split at job
  · next x found =>
    cases job
    exact ⟨(jobAt_isSome ..).2 (List.mem_map.2 ⟨j, List.mem_of_find?_eq_some found, rfl⟩), rfl, rfl⟩
  · simp only [Option.map_eq_some_iff] at job
    obtain ⟨key, -, job⟩ := job
    cases job
    exact ⟨(jobAt_isSome ..).2 (by simp), rfl, rfl⟩
theorem recordTaken_queue (u : State) (pkg k : Nat) (job : Word) :
    (queueAt (recordTaken u pkg k job) pkg k).head = ((queueAt u pkg k).head + 1) % max 1 (queueAt u pkg k).size ∧
    ∃ e ∈ (recordTaken u pkg k job).agenda, e.at_ = u.now ∧ e.ev = .jobRecordAccept pkg k := by
  refine ⟨?_, mem_push_new ..⟩
  have set := pkgAt_modPkg_self (modJob u job (takenBy pkg k)) pkg fun p =>
    { p with queues := aset p.queues k { aget {} p.queues k with head := ((aget {} p.queues k).head + 1) % max 1 (aget {} p.queues k).size } }
  exact (congrArg (fun p : Pkg => (aget {} p.queues k).head) set).trans (by simp only [aget_aset_self]; rfl)
theorem recordTaken_job {u : State} {pkg k : Nat} {job : Word} {j : Job} (found : jobAt u job = some j) :
    jobAt (recordTaken u pkg k job) job = some (takenBy pkg k j) :=
  (jobAt_modJob u job (takenBy pkg k) fun _ => rfl).trans (by rw [found, Option.map_some])
/-- A job refused for a reason. -/
def refusedBy (why : Nat) (j : Job) : Job := { j with done := true, status := 2, reason := why }
/-- Refusing a job that is known marks it so, and writes only completion records (R358). -/
theorem refuseJob_marks {s : State} {job : Word} {why : Nat} (known : (jobAt s job).isSome = true) :
    QueuesKept job s (refuseJob s job why) ∧
    (jobAt (refuseJob s job why) job).map (fun j => (j.done, j.status, j.reason)) = some (true, 2, why) := by
  obtain ⟨j, found⟩ := Option.isSome_iff_exists.1 known
  have marked := jobAt_modJob s job (refusedBy why) fun _ => rfl
  have run : refuseJob s job why = j.accepted.foldl (fun s p => writeCompletion s p j 2 why) (modJob s job (refusedBy why)) := by
    unfold refuseJob
    rw [found]
    rfl
  have written (l : List Nat) (t : State) : (l.foldl (fun s p => writeCompletion s p j 2 why) t).jobs = t.jobs := by
    induction l generalizing t with
    | nil => rfl
    | cons p l ih => exact (ih _).trans (writeCompletion_jobs ..)
  rw [run]
  refine ⟨(QueuesKept.modJob _ (refusedBy why) (fun _ => rfl) fun _ => rfl).trans (.foldl (fun t p => .writeCompletion t p j 2 why) _ _), ?_⟩
  rw [jobAt, written]
  exact (congrArg (Option.map _) marked).trans (by rw [found]; rfl)

section
variable {s u : State} {pkg k : Nat} {j : Job} (some_ : ¬ ((queueAt s pkg k).size = 0 ∨
  (queueAt s pkg k).head % (queueAt s pkg k).size = (queueAt s pkg k).tail % (queueAt s pkg k).size))
include some_

theorem jobRecordAccept_noJob (none_ : jobFor s pkg (headRecord s pkg k) (recordOf (headRecord s pkg k)) = none) :
    evJobRecordAccept pkg k s = pushOnce s (s.now + 1) phEnd k (.jobRecordAccept pkg k) := by
  unfold evJobRecordAccept
  refine (if_neg some_).trans ?_
  simp only [none_]

variable (job : jobFor s pkg (headRecord s pkg k) (recordOf (headRecord s pkg k)) = some (u, j)) (new : j.reason = 0)
include job new

theorem jobRecordAccept_refuses (bad : refusal (rooted s u pkg k j) pkg (headRecord s pkg k) j ≠ 0) :
    evJobRecordAccept pkg k s =
      refuseJob (recordTaken (rooted s u pkg k j) pkg k j.handle) j.handle (refusal (rooted s u pkg k j) pkg (headRecord s pkg k) j) := by
  unfold rooted at bad
  unfold evJobRecordAccept
  refine (if_neg some_).trans ?_
  simp only [job, new, ne_eq, not_true_eq_false, if_false, if_pos bad]
  rfl

variable (good : refusal (rooted s u pkg k j) pkg (headRecord s pkg k) j = 0)
include good

theorem jobRecordAccept_waits (busy : rootSlotFree s pkg (recordOf (headRecord s pkg k)).rootTile j.handle = false) :
    evJobRecordAccept pkg k s = pushOnce s (s.now + 1) phEnd k (.jobRecordAccept pkg k) := by
  unfold rooted at good
  unfold evJobRecordAccept
  refine (if_neg some_).trans ?_
  simp only [job, new, good, ne_eq, not_true_eq_false, if_false, busy, Bool.not_false, if_true]
/-- A record that is taken leaves the job accepted; the job may start with it. -/
theorem jobRecordAccept_takes (free : rootSlotFree s pkg (recordOf (headRecord s pkg k)).rootTile j.handle = true) :
    QueuesKept j.handle (recordTaken (rooted s u pkg k j) pkg k j.handle) (evJobRecordAccept pkg k s) := by
  unfold rooted at good
  unfold evJobRecordAccept
  rw [if_neg some_]
  simp only [job, new, good, ne_eq, not_true_eq_false, if_false, free, Bool.not_true, Bool.false_eq_true]
  generalize measured : (if (recordOf (headRecord s pkg k)).att = true then _ else _ : State) = v
  have kept : QueuesKept j.handle (recordTaken (rooted s u pkg k j) pkg k j.handle) v := by
    rw [← measured]
    split
    · exact .modPkg _ _ _ fun _ _ => rfl
    · exact .refl ..
  split
  · next x found =>
    rw [jobAt_handle found]
    split
    · exact kept.trans (.startJob ..)
    · exact kept
  · exact kept
end

/-- What taking a record does to its queue: its head moves on, and the next record is looked at in the same cycle. -/
theorem taken_queue {s u t : State} {pkg k : Nat} {j : Job} (pkgs : u.pkgs = s.pkgs) (now : u.now = s.now)
    (kept : QueuesKept j.handle (recordTaken (rooted s u pkg k j) pkg k j.handle) t) :
    (aget {} (pkgAt t pkg).queues k).head = ((queueAt s pkg k).head + 1) % max 1 (queueAt s pkg k).size ∧
      ∃ e ∈ t.agenda, e.at_ = s.now ∧ e.ev = .jobRecordAccept pkg k := by
  obtain ⟨head, e, mem, at_, ev⟩ := recordTaken_queue (rooted s u pkg k j) pkg k j.handle
  have same : queueAt (rooted s u pkg k j) pkg k = queueAt s pkg k := congrArg (fun p : Pkg => aget {} p.queues k) (pkgAt_congr pkgs pkg)
  rw [same] at head
  exact ⟨(kept.heads ..).trans head, e, kept.asked e mem _ _ ev, at_.trans now, ev⟩

theorem rooted_known {s u : State} {pkg k : Nat} {j : Job} (known : (jobAt u j.handle).isSome = true) :
    (jobAt (rooted s u pkg k j) j.handle).isSome = true :=
  jobAt_known (by simp [rooted]) known

/-! ### The obligation -/

/-- Settles O59: the host's writes, the record at the head of a queue, the binding of root units, and the end of a job. -/
theorem hostQueuesStartAndEndJobs : Obligations.HostQueuesStartAndEndJobs := by
  unfold Obligations.HostQueuesStartAndEndJobs
  refine ⟨fun s pkg off b => ⟨?_, ?_⟩, fun s pkg k v => ⟨?_, ?_⟩, fun s pkg k => ⟨fun none_ => ?_, fun some_ more => ⟨?_, ?_⟩⟩,
    fun s pkg j found => ⟨?_, ?_, ?_⟩, fun _ _ _ => rfl, fun s j found => ⟨?_, ?_, ?_⟩, fun s pkg a => ⟨rfl, fun b => ⟨?_, ?_, ?_⟩⟩,
    fun s pkg lanes => ⟨?_, ?_⟩⟩
  · exact fun bad => congrArg Host.Outcome.next (bar0RegisterWrite_ignored bad)
  · exact fun ok => ⟨_, rfl, bar0RegisterWrite_stores ok.1 ok.2⟩
  · exact fun bad => congrArg Host.Outcome.next (submissionTailWrite_ignored bad)
  · exact fun small has => ⟨_, rfl, submissionTailWrite_sets small has⟩
  · exact congrArg Host.Outcome.next (if_pos none_)
  · exact fun none_ => congrArg Host.Outcome.next (jobRecordAccept_noJob (not_or.2 ⟨some_, more⟩) none_)
  · intro u j job new
    obtain ⟨known, pkgs, now⟩ := jobFor_known job
    obtain ⟨x, found⟩ : ∃ x, jobAt (rooted s u pkg k j) j.handle = some x :=
      Option.isSome_iff_exists.1 (rooted_known known)
    have entered := recordTaken_job (pkg := pkg) (k := k) found
    refine ⟨fun bad => ?_, fun good busy => ?_, fun good free => ?_⟩
    · obtain ⟨kept, marked⟩ := refuseJob_marks (why := refusal (rooted s u pkg k j) pkg (headRecord s pkg k) j) (by rw [entered]; rfl)
      exact ⟨_, congrArg Host.Outcome.next (jobRecordAccept_refuses (not_or.2 ⟨some_, more⟩) job new bad), taken_queue pkgs now kept, marked⟩
    · exact congrArg Host.Outcome.next (jobRecordAccept_waits (not_or.2 ⟨some_, more⟩) job new good busy)
    · have kept := jobRecordAccept_takes (not_or.2 ⟨some_, more⟩) job new good free
      have accepted := kept.accepted
      rw [entered] at accepted
      obtain ⟨y, is, list⟩ := Option.map_eq_some_iff.1 accepted
      exact ⟨_, rfl, taken_queue pkgs now kept, y, is, by rw [list]; simp [takenBy]⟩
  · exact fun idle => congrArg Host.Outcome.next (rootUnitBind_idle found idle)
  · exact fun live free => congrArg Host.Outcome.next ((rootUnitBind_live found live).trans (if_pos free))
  · exact fun live busy => congrArg Host.Outcome.next ((rootUnitBind_live found live).trans (if_neg (by simp [busy])))
  · exact fun not => congrArg Host.Outcome.next (jobEnd_waits found not)
  · exact fun ends busy => congrArg Host.Outcome.next (jobEnd_busy found ends busy)
  · intro ends free
    obtain ⟨done, tlb, launches⟩ := jobEnd_over found ends free
    exact ⟨_, rfl, done, tlb, launches⟩
  · exact fun bad => congrArg Host.Outcome.next (hostCxlMemAccess_ignored bad)
  · exact fun has far h home => ⟨_, rfl, hostCxlMemAccess_far has far.1 far.2 home⟩
  · exact fun has host => ⟨_, rfl, hostCxlMemAccess_host has host.1 host.2⟩
  · exact fun fits => ⟨_, congrArg Host.Outcome.next (if_pos fits), pkgAt_modPkg_self ..⟩
  · exact fun no16 no8 => congrArg Host.Outcome.next (if_neg (not_or.2 ⟨no16, no8⟩))

end Sys2Proof.Machine
end
